-- ==== Sys2Proof/Word.lean ====
section
/-!
DEFINITION. The plainest types of the ZK86 block: bytes and words, the tiles of a package and the axes of a tile,
and the two record shapes (one value per tile, one value per axis) that State is built from.
-/

namespace Sys2Proof

/-- One byte of host memory, of a frame or of a stored record (R4). -/
abbrev Byte := BitVec 8

/-- A 32-bit register or field (R386). -/
abbrev Word := BitVec 32

/-- Package tiles 0 to 3 (R1, R304). -/
inductive TileId where
  | t0 | t1 | t2 | t3
  deriving DecidableEq, Repr

/-- The number of a package tile (R304). -/
def TileId.num : TileId → Nat
  | .t0 => 0
  | .t1 => 1
  | .t2 => 2
  | .t3 => 3

/-- The tile of a number, where there is one. -/
def TileId.ofNat? : Nat → Option TileId
  | 0 => some .t0
  | 1 => some .t1
  | 2 => some .t2
  | 3 => some .t3
  | _ => none

/-- The four tiles in ascending order, the order in which R193 forms the safety parameter block. -/
def TileId.all : List TileId := [.t0, .t1, .t2, .t3]

/-- The three axes of a tile (R10, R29). -/
inductive AxisId where
  | A | B | C
  deriving DecidableEq, Repr

/-- The axis number used in events and descriptors: A 0, B 1, C 2 (R304, R347). -/
def AxisId.num : AxisId → Nat
  | .A => 0
  | .B => 1
  | .C => 2

/-- The axes in the order in which the triad applies stake actions (R101). -/
def AxisId.all : List AxisId := [.A, .B, .C]

/-- A direction of travel: towards open or deployed, or towards closed or stowed (R30). -/
inductive Dir where
  | opening | closing
  deriving DecidableEq, Repr

/-- The direction code of the stake and sounding events: 0 open, 1 close (R399). -/
def Dir.num : Dir → Nat
  | .opening => 0
  | .closing => 1

/-- The other direction. -/
def Dir.flip : Dir → Dir
  | .opening => .closing
  | .closing => .opening

/-- The sign d of R107: +1 towards open, −1 towards closed. -/
def Dir.sign : Dir → Int
  | .opening => 1
  | .closing => -1

/-- One value for each tile of a package. -/
structure PerTile (α : Type) where
  p0 : α
  p1 : α
  p2 : α
  p3 : α
  deriving DecidableEq, Repr

/-- The value of one tile. -/
def PerTile.get {α : Type} (v : PerTile α) : TileId → α
  | .t0 => v.p0
  | .t1 => v.p1
  | .t2 => v.p2
  | .t3 => v.p3

/-- The same record with one tile's value replaced. -/
def PerTile.set {α : Type} (v : PerTile α) (t : TileId) (x : α) : PerTile α :=
  match t with
  | .t0 => { v with p0 := x }
  | .t1 => { v with p1 := x }
  | .t2 => { v with p2 := x }
  | .t3 => { v with p3 := x }

/-- One value for each axis of a tile. -/
structure PerAxis (α : Type) where
  a : α
  b : α
  c : α
  deriving DecidableEq, Repr

/-- The value of one axis. -/
def PerAxis.get {α : Type} (v : PerAxis α) : AxisId → α
  | .A => v.a
  | .B => v.b
  | .C => v.c

/-- The same record with one axis's value replaced. -/
def PerAxis.set {α : Type} (v : PerAxis α) (x : AxisId) (y : α) : PerAxis α :=
  match x with
  | .A => { v with a := y }
  | .B => { v with b := y }
  | .C => { v with c := y }

/-- The same value on every axis. -/
def PerAxis.all {α : Type} (x : α) : PerAxis α := ⟨x, x, x⟩

/-- The same value on every tile. -/
def PerTile.all {α : Type} (x : α) : PerTile α := ⟨x, x, x, x⟩

end Sys2Proof
end

