-- ==== Sys2Proof/Syntax.lean ====
section
/-!
DEFINITION. The commands the block takes: one constructor of Instr for each row of spec/opcode_table.json, in the
table's order, with the operands the step needs from outside (measured values, frame contents, payload fields).
-/

namespace Sys2Proof

/-- The header of a host command once it stands at its tile: what identifies its descriptor and names its target
(R304). `session` is the number of the session whose queue it was fetched from, `hostId` that session's host_id (R313, R314); `dmaFault` says
that an access to the command's host buffer ended in an error (R309, DMA_ERROR). -/
structure HostCmd where
  session  : Word
  queue    : Fin 32
  tag      : Word
  tile     : TileId
  axis     : Option AxisId
  dmaFault : Bool
  hostId   : BitVec 64 := 0
  deriving DecidableEq, Repr

/-- What one current-loop sample measures (R53): the torque-producing current in mA, the measured speed in counts/s,
the motor bus in 0.1 V, whether every current-sense reading and rest offset lies in range (R132), the level of the
SSI data line before a request (R84), and whether the sounding bin of the sample reads with an uncorrectable ECC error
(R132). -/
structure LoopSample where
  iq      : Int
  speed   : Int
  vbus    : Nat
  senseOk : Bool
  ssiHigh : Bool
  binEcc  : Bool
  deriving DecidableEq, Repr

/-- The three debounced switch inputs of an axis (R75, R83). -/
inductive SwitchId where
  | home | limC | limO
  deriving DecidableEq, Repr

/-- One sample of the filtered quadrature lines: a count up or down, or a double change with its number among the engine's 10 ns
samples, over which the window of R79 runs (R78, R79). -/
inductive QuadEdge where
  | up | down | double (sample : Nat)
  deriving DecidableEq, Repr

/-- The differential pairs of an encoder (R75). -/
inductive QuadPair where
  | qa | qb | qi
  deriving DecidableEq, Repr

/-- The sensitive edges (R114). -/
inductive EdgeId where
  | edgeA | edgeB
  deriving DecidableEq, Repr

/-- The two-channel pairs read on IO pins, in the order of R33. -/
inductive PairId where
  | leafClosed | lockEngaged | egress | isolation
  deriving DecidableEq, Repr

/-- The train-line pairs (R188). -/
inductive TlPair where
  | zeroSpeed | release
  deriving DecidableEq, Repr

/-- The two test-pulse sources (R172). -/
inductive TestSource where
  | tpa | tpb
  deriving DecidableEq, Repr

/-- The readback conditions of R169 that last 1 ms. -/
inductive ReadbackCond where
  | lowReadsHigh | highReadsLow | lowSinks | lowReadsLow
  deriving DecidableEq, Repr

/-- The result of a self-test part that ran (R336). -/
inductive PartResult where
  | pass | fail | skipped
  deriving DecidableEq, Repr

/-- What else a self-test part reports: a mask (R336), and, for MEM_SCRUB, the sounding bins of the active sets in which it found an
uncorrectable ECC error (R132). -/
structure PartFinding where
  mask : BitVec 16
  bins : List (AxisId × Dir × Fin 512)
  deriving DecidableEq, Repr

/-- A disagreement seen at the voter (R222, R226): its cause, the position of the core it names, the write that
disagrees, and the two cases in which no core can be named. -/
structure Disagreement where
  cause        : Fin 6
  position     : Fin 3
  addr         : Word
  data0        : Word
  data1        : Word
  data2        : Word
  halvesDiffer : Bool
  noTwoAgree   : Bool
  deriving DecidableEq, Repr

/-- The two resume inputs of the head (R198). -/
inductive ResumeId where
  | resumeA | resumeB
  deriving DecidableEq, Repr

/-- The Ethernet ports of the head (R243). -/
inductive EthPort where
  | eth0 | eth1
  deriving DecidableEq, Repr

/-- The data set by which an Announce message offers its master (R246): the default-data-set fields in the order of
comparison, as one number each, with the grandmaster's identity, the sender's identity and the domain. -/
structure Announce where
  priority1 : Nat
  quality   : Nat
  priority2 : Nat
  identity  : BitVec 64
  steps     : Nat
  sender    : BitVec 64
  domain    : Nat
  deriving DecidableEq, Repr

/-- A Sync message with its ingress stamp (R247): sender, domain, whether a Follow_Up comes, logSyncInterval, the origin time stamp with
its correction, and the port's stamp, in ns. -/
structure SyncMsg where
  identity : BitVec 64
  domain   : Nat
  seqId    : Nat
  twoStep  : Bool
  logInterval : Int
  origin   : Int
  stamp    : Int
  deriving DecidableEq, Repr

/-- A PTP message of an exchange: sender, domain, sequence number, whether a follow-up comes, the time or turnaround
that it carries (of a Pdelay_Req: the egress stamp of the answer), in ns, and the port's ingress stamp. -/
structure PtpTime where
  identity : BitVec 64
  domain   : Nat
  seqId    : Nat
  twoStep  : Bool
  time     : Int
  stamp    : Int
  deriving DecidableEq, Repr

/-- How a PTP message came: its VLAN tag (0 untagged), and over UDP or directly over IEEE 802.3 (R243, R246). -/
structure PtpVia where
  vlan : Nat
  udp  : Bool
  deriving DecidableEq, Repr

/-- What an Ethernet frame carries, as far as the port looks (R243). -/
inductive EthBody where
  | ptp
  | udp (destPort srcPort : Nat) (fragment options : Bool) (payload : List Byte)
  | tcp
  | other
  deriving DecidableEq, Repr

/-- A received Ethernet frame: VLAN tag (0 untagged), whether the destination is this port, a PTP multicast or another
multicast, source and destination IPv4 address, and its body. -/
structure EthFrame where
  vlan         : Nat
  toMac        : BitVec 48
  ptpMulticast : Bool
  srcIp        : Word
  dstIp        : Word
  body         : EthBody
  deriving DecidableEq, Repr

/-- The two Causeway ports (R259). -/
inductive CwyPort where
  | portA | portB
  deriving DecidableEq, Repr

/-- What a port's receiver saw on its link through a cycle (R277, R280): loss of signal, H, or I and frames. -/
inductive LinkSeen where
  | lost | breakIdle | idle
  deriving DecidableEq, Repr

/-- A port that comes into loss of signal (R277), and the instant of the local clock at which it does. -/
structure PortLoss where
  port : CwyPort
  now  : Nat
  deriving DecidableEq, Repr

/-- The code-groups of a Causeway link (R259). -/
inductive CodeGroup where
  | I | J | K | T | R | H
  | data (nibble : Fin 16)
  deriving DecidableEq, Repr

/-- A Causeway frame (R260). `delimOk` and `crcOk` say that delimiters, code-groups and CRC agree (R261). -/
structure CwyFrame where
  generation : Nat
  coldStart  : Bool
  path       : Bool
  ring       : CwyPort
  origin     : Nat
  syncSlot   : Bool
  coldNode   : Bool
  cycle      : Nat
  slot       : Nat
  hop        : Nat
  mode       : Nat
  countdown  : Nat
  loopNode   : Bool
  notReady   : Bool
  reservedOk : Bool
  schedId    : Word
  data       : List Byte
  delimOk    : Bool
  crcOk      : Bool
  deriving DecidableEq, Repr

/-- A CAN frame (R283, R285): identifier, format flags, data length code and data bytes, and ESI, which a CAN FD frame of an error-passive node
carries. -/
structure CanFrame where
  id       : BitVec 29
  extended : Bool
  fd       : Bool
  brs      : Bool
  remote   : Bool
  dlc      : Fin 16
  data     : List Byte
  esi      : Bool := false
  deriving DecidableEq, Repr

/-- A received frame with the TS32 of its start of frame, which the step at its end carries along (R285). -/
structure CanRx where
  frame : CanFrame
  sof   : Word
  deriving DecidableEq, Repr

/-- How a transmit attempt ends (R288). -/
inductive CanTxEnd where
  | acknowledged | lostArbitration | errorFrame
  deriving DecidableEq, Repr

/-- The kinds of CAN error that are counted (R290). -/
inductive CanErr where
  | stuff | form | crc | bit | ack
  deriving DecidableEq, Repr

/-- What wakes a sleeping CAN controller (R291). -/
inductive CanWakeCause where
  | dominantLevel
  | wakeFrame (f : CanFrame)
  | malformed
  deriving DecidableEq, Repr

/-- What a LIN response arrives with (R294): its data bytes and its checksum byte, or the error found in it. -/
inductive LinResp where
  | bytes (data : List Byte) (checksum : Byte)
  | framingErr
  | bitErr
  deriving DecidableEq, Repr

/-- A LIN schedule entry as LIN_SCHED_LOAD gives it (R339). -/
structure LinEntry where
  frameId  : Nat
  kind     : Nat
  len      : Nat
  checksum : Nat
  slot     : Nat
  data     : List Byte
  deriving DecidableEq, Repr

/-- The three kinds of ring (R300). -/
inductive RingKind where
  | cmdq | cpl | evt
  deriving DecidableEq, Repr

/-- The set-up parameters of the divided encoder output (R92). -/
inductive EncoParam where
  | src | n | m
  deriving DecidableEq, Repr

/-- A CFG_WRITE entry (R329). R330 gives the set-up parameters of R92 no table and row, so which number names one is open: an entry that
names one says so in `enco`, whatever its number (DESIGN CHOICE, log entry 19). -/
structure CfgEntry where
  param : BitVec 16
  index : Byte
  zero  : Byte
  value : Word
  enco  : Option EncoParam := none
  deriving DecidableEq, Repr

/-- A CFG_READ selector (R329). -/
structure CfgSelector where
  param : BitVec 16
  index : Byte
  zero  : Byte
  deriving DecidableEq, Repr

/-- TIMER_ARM's payload (R254, R337). -/
structure TimerPayload where
  tpo      : Nat
  ring     : Bool
  low      : Bool
  startSec : Nat
  startNs  : Nat
  period   : Nat
  width    : Nat
  count    : Nat
  deriving DecidableEq, Repr

/-- CAN_TX's payload (R338): `frame` holds the data, inline or as read from `address`, which is 0 when the data is inline. -/
structure CanTxPayload where
  controller : Nat
  buffer     : Nat
  frame      : CanFrame
  singleShot : Bool
  address    : BitVec 64
  deriving DecidableEq, Repr

/-- The channel address of a Sedge binding (R340). -/
inductive SedgeAddr where
  | causeway (slot : Nat)
  | can (controller buffer : Nat) (extended brs : Bool) (id : BitVec 29)
  | ethernet (peerIp : Word) (peerPort localPort port : Nat)
  | fabric (peer : Nat)
  deriving DecidableEq, Repr

/-- The straps of one package, as a neighbour reports them (R367). -/
structure Straps where
  join : Bool
  head : Bool
  num  : Fin 4
  deriving DecidableEq, Repr

/-- The reference of a forwarded command on Boardwalk: its queue, its tag, and a number that the board head gives each forwarding, by
which a repeat is told from a later command with the same tag (R304, R371; log entry 17). -/
structure BwkRef where
  queue : Fin 32
  tag   : Word
  seq   : Word
  deriving DecidableEq, Repr

/-- What a Boardwalk frame carries (R371). A descriptor goes with the number and the host_id of its session (R313, R349). An event's bytes are
its TS32 and its data. A state report names the tiles that report, as a mask, says whether a timer of the package is armed (R389), and copies
the package's window and each tile's window, five words and then three words per tile (R386, R392, R393). `packageDown` tells the board head
that a package has no logic die running, cause 2, or no service core, cause 3 (R372, R399); `lost` that a command went with its tile's service core
(R320); `abort` ends a held command (R317); `session` tells the number of the open session, or that none is open (R316, R318); `compat` the
compare of R389; `straps` the straps, by package serial, that a package has learnt, and whether they break R367 (R369). -/
inductive BwkPayload where
  | descriptor (ref : BwkRef) (session : Word) (hostId : BitVec 64) (bytes : List Byte)
  | acknowledge (ref : BwkRef)
  | confirm (ref : BwkRef)
  | completion (ref : BwkRef) (status : Byte) (detail : Nat) (result : List Byte)
  | lost (ref : BwkRef)
  | abort (ref : BwkRef)
  | event (id : BitVec 16) (data : List Byte)
  | logBlock (ref : BwkRef) (tile : Nat) (block : Nat) (bytes : List Byte)
  | sedge (boardTile sender : Nat) (frame : List Byte)
  | stateReport (tiles : Nat) (armed : Bool) (states : List Byte)
  | packageDown (cause : Nat)
  | session (open_ : Option Word)
  | compat (on : Bool)
  | straps (known : List (BitVec 64 × Straps)) (fault : Bool)
  | changesRead (count : Nat)
  deriving DecidableEq, Repr

/-- The board head's record time as a timing frame brings it along the route (R373, R374): by how many ns it was ahead of this package's when the
frame arrived, not yet corrected for this link's delay; the head's record-time state by its code (R249); and whether every hop behind the
neighbour has its delay measured. -/
structure BwkLead where
  offset   : Int
  state    : Fin 4
  measured : Bool
  deriving DecidableEq, Repr

/-- A Boardwalk frame with its source and destination package (R370). -/
structure BwkFrame where
  src     : Fin 4
  dst     : Fin 4
  crcOk   : Bool
  payload : BwkPayload
  deriving DecidableEq, Repr

/-- What the field die measures for an up-frame (R16): the debounced level of Tt_SRA_FB (R184); per axis, whether its gate
monitors show all six gates off (R119), and its phase currents in mA; and the motor bus in 0.1 V. -/
structure UpObs where
  sraFb    : Bool
  gatesOff : PerAxis Bool
  currents : PerAxis (Int × Int × Int)
  vbus     : Nat
  deriving DecidableEq, Repr

/-- What boot ROM finds when a logic-die reset is released (R217, R359, R363, R382): which firmware slots verify, whether
the active bundle verifies, which cores pass their BIST, and whether an absolute word was accepted on each axis within
its first 8 requests, with its position (R88); what the first up-frames measure (R16); and how many 64 KiB sectors the SFDP tables of
the log flash give, 0 without a flash (R353). -/
structure BootReport where
  slotAOk  : Bool
  slotBOk  : Bool
  bundleOk : Bool
  bist     : BitVec 4
  ssi      : PerAxis (Option Int)
  compat   : Bool
  obs      : UpObs
  flash    : Nat
  deriving DecidableEq, Repr

/-- The commands, one constructor for each row of the operation table. Operands named `now` are the instant of the
step on the local clock, in ns, for the steps that the spec judges by their instants. A pair is what one report gives together:
a PTP message with how it came; the VLAN of a frame with its sender's address; a channel with its current, in mA; a tile with its VBAT, in
0.1 V, or with the level of its SRB feedback; a connection, or a Boardwalk frame, with its instant; whether the CRC of checkpoint buffers
0 and 1 agrees; the length of a register write, in bytes, with its value. -/
inductive Instr where
  | doorwayEvaluation (t : TileId) (now : Nat)
  | fieldLinkDownFrame (t : TileId) (intact : Bool)
  | fieldLinkUpFrame (t : TileId) (intact : Bool) (obs : UpObs)
  | fieldLinkFault (t : TileId)
  | keepAliveWord (t : TileId)
  | serialWatchdogExpiry (t : TileId)
  | svcHeartbeat (t : TileId)
  | svcHeartbeatMissed (t : TileId) (now : Nat)
  | svcReturn (t : TileId)
  | tUnlockExpiry (t : TileId)
  | tOpenMaxExpiry (t : TileId)
  | tWarnExpiry (t : TileId)
  | tCloseMaxExpiry (t : TileId)
  | tLockExpiry (t : TileId)
  | tNudgeMaxExpiry (t : TileId)
  | tOpenDwellExpiry (t : TileId)
  | tStepMaxExpiry (t : TileId)
  | tRevMaxExpiry (t : TileId)
  | tBrakeMaxExpiry (t : TileId)
  | tDwellExpiry (t : TileId)
  | tHomeMaxExpiry (t : TileId) (a : AxisId)
  | stakeBoundExpiry (t : TileId) (a : AxisId)
  | homingRunComplete (t : TileId)
  | homingMoveComplete (t : TileId) (a : AxisId)
  | moveComesToRest (t : TileId) (a : AxisId)
  | currentLoopSample (t : TileId) (a : AxisId) (m : LoopSample) (now : Nat)
  | positionLoopSample (t : TileId) (a : AxisId)
  | residualTrip (t : TileId) (a : AxisId)
  | satTrip (t : TileId) (a : AxisId)
  | followingErrorTrip (t : TileId) (a : AxisId)
  | tripPairLevelChange (t : TileId) (a : AxisId)
  | tripStopBrakeDelay (t : TileId) (a : AxisId)
  | overcurrentComparatorEdge (t : TileId) (a : AxisId)
  | motorBusComparatorTrip (t : TileId)
  | sensitiveEdgeActive (t : TileId) (e : EdgeId)
  | fabricFault (t : TileId) (a : AxisId)
  | proofTestResult (t : TileId) (now : Nat)
  | alignmentComplete (t : TileId) (a : AxisId) (motion : Int)
  | hallCodeChange (t : TileId) (a : AxisId) (code : BitVec 3) (now : Nat)
  | hallInvalidTimeout (t : TileId) (a : AxisId)
  | coarseStepEdge (t : TileId) (a : AxisId) (dirOpen : Bool) (period : Nat)
  | homeSwitchRawEdge (t : TileId) (a : AxisId) (sw : SwitchId) (level : Bool) (now : Nat)
  | switchDebounceExpiry (t : TileId) (a : AxisId) (sw : SwitchId)
  | switchFault (t : TileId) (a : AxisId)
  | indexPulse (t : TileId) (a : AxisId)
  | quadratureEdge (t : TileId) (a : AxisId) (e : QuadEdge)
  | encoQueuedEdge (t : TileId)
  | directionEventHoldoff (t : TileId) (a : AxisId)
  | encoderFault (t : TileId) (a : AxisId)
  | lineFault (t : TileId) (a : AxisId) (p : QuadPair)
  | ssiWordComplete (t : TileId) (a : AxisId) (bits : Nat) (frameOk : Bool) (now : Nat)
  | policyBundleTakesEffect (t : TileId)
  | tileParametersTakeEffect (t : TileId)
  | axisParametersTakeEffect (t : TileId) (a : AxisId)
  | obstructionAgesOut (t : TileId)
  | calibrationReady (t : TileId)
  | calPermitMaxExpiry (t : TileId)
  | calRestExpiry (t : TileId)
  | calEndMaxExpiry (t : TileId)
  | shadowSetInstall (t : TileId)
  | selftestDwellPartStart (t : TileId)
  | selftestPartComplete (t : TileId) (part : Fin 8) (r : PartResult) (detail : PartFinding)
  | stDwellMaxExpiry (t : TileId)
  | lsinPinEdge (t : TileId) (ch : Fin 10) (level : Bool)
  | lsOvercurrent (t : TileId) (load : Fin 10 × Nat)
  | inrushBlankingEnd (t : TileId) (ch : Fin 10)
  | lsThermalShutdown (t : TileId) (ch : Fin 10)
  | lsThermalRestart (t : TileId) (ch : Fin 10) (now : Nat)
  | vbatUndervoltage (t : TileId) (vbat : Nat) (tripped : BitVec 10)
  | vbatRecovery (level : TileId × Nat)
  | groupHeatShed (t : TileId)
  | groupHeatRestart (t : TileId)
  | openLoadCheckPeriod (t : TileId)
  | offStateCheckMeasure (t : TileId) (ch : Fin 10) (highBefore highAfter : Bool)
  | lsSenseConversion (t : TileId) (codes : Vector Nat 10)
  | ls0AgainstCommand (t : TileId)
  | ioInputChange (t : TileId) (pin : Fin 16) (level : Bool)
  | ioDebounceExpiry (t : TileId) (pin : Fin 16)
  | pairDiscrepancyTimeout (t : TileId) (p : PairId)
  | outputReadbackFault (t : TileId) (pin : Fin 16) (c : ReadbackCond)
  | outputThermalShutdown (t : TileId) (pin : Fin 16)
  | tlInputChange (t : TileId) (tl : Fin 4) (level : Bool)
  | tlDebounceExpiry (t : TileId) (tl : Fin 4)
  | trainLineDiscrepancy (t : TileId) (p : TlPair)
  | testPulseStart (t : TileId) (src : TestSource)
  | testPulseEnd (t : TileId) (src : TestSource)
  | blankingWindowClose (t : TileId) (src : TestSource)
  | testSourceFault (t : TileId) (src : TestSource)
  | testSourceRetry (t : TileId) (src : TestSource) (holds : Bool)
  | vioLoss
  | vioRecovery
  | sraReadbackDisagreement (t : TileId)
  | bitternChannelProven (t : TileId) (ch : Fin 4)
  | bitternChannelUnproven (t : TileId) (ch : Fin 4)
  | bitternPulseAgeExpiry (t : TileId) (ch : Fin 4)
  | bitternPeriodicCheck (t : TileId) (oscOk configOk : Bool)
  | bitternReadbackFault (level : TileId × Bool)
  | bitternProofDisagreement (t : TileId)
  | sealDebounceExpiry (n : Fin 16) (level : Bool)
  | resumeDebounceExpiry (r : ResumeId) (level : Bool) (now : Nat)
  | resumeHighTimeout (r : ResumeId)
  | stuckResetClear
  | proofAgeExpiry (t : TileId)
  | sedgeFrameReceived (t : TileId) (conn : Fin 32) (frame : List Byte) (now : Nat)
  | sedgeWatchdogExpiry (t : TileId) (due : Fin 32 × Nat)
  | sedgeTxPeriod (t : TileId) (conn : Fin 32)
  | voterDisagreement (t : TileId) (d : Disagreement) (now : Nat)
  | writeCopyTimeout (t : TileId) (d : Disagreement) (now : Nat)
  | signatureComparisonComplete (t : TileId) (agree : Bool) (now : Nat)
  | checkpointWrite (t : TileId)
  | spareOutOfReset (t : TileId)
  | spareResetTimeout (t : TileId)
  | spareCheckpointLoaded (t : TileId) (crcs : Bool × Bool)
  | spareJoinPause (t : TileId) (now : Nat)
  | triadRestart (t : TileId) (r : BootReport)
  | duplexLimitExpiry (t : TileId)
  | spareBistPeriod (t : TileId)
  | bistComplete (t : TileId) (core : Fin 4) (pass : Bool)
  | ptpAnnounce (p : EthPort) (m : PtpVia × Announce)
  | ptpSync (p : EthPort) (m : PtpVia × SyncMsg)
  | ptpFollowUp (p : EthPort) (m : PtpVia × PtpTime)
  | ptpDelayResp (p : EthPort) (m : PtpVia × PtpTime)
  | ptpPdelayReq (p : EthPort) (m : PtpVia × PtpTime)
  | ptpPdelayResp (p : EthPort) (m : PtpVia × PtpTime)
  | ptpPdelayRespFollowUp (p : EthPort) (m : PtpVia × PtpTime)
  | announceReceiptTimeout (p : EthPort)
  | syncLossTimeout (p : EthPort)
  | holdoverMaxExpiry
  | epochMarkTimer (now : Nat)
  | timerOutputEdge (tpo : Fin 8)
  | ethPhyStatusPoll (p : EthPort) (linkUp fullDuplex : Bool) (speed : Nat)
  | ethFrameReceived (p : EthPort) (f : EthFrame)
  | arpRequestReceived (p : EthPort) (sender : Nat × BitVec 48) (senderIp targetIp : Word)
  | arpReplyReceived (p : EthPort) (sender : Nat × BitVec 48) (senderIp : Word)
  | arpRetryTimeout (p : EthPort) (ip : Word)
  | arpEntryRefresh (p : EthPort) (ip : Word)
  | icmpEchoRequest (p : EthPort) (sender : Nat × Word) (targetIp : Word) (data : List Byte) (now : Nat)
  | cwyFrameReceived (p : CwyPort) (f : CwyFrame) (tObs : Int) (now : Nat)
  | slotActionPoint (slot : Fin 256) (now : Nat)
  | slotEnd (slot : Fin 256) (now : Nat)
  | nitStart (a b : LinkSeen)
  | listenTimeout
  | backoffEnd
  | portLos (p : PortLoss)
  | cyclePoint (i : Fin 8)
  | canFrameReceived (t : TileId) (c : Fin 2) (f : CanRx)
  | canBufferLockEnd (t : TileId) (c : Fin 2) (b : Fin 64)
  | canArbitrationStart (t : TileId) (c : Fin 2)
  | canTxAttemptEnd (t : TileId) (c : Fin 2) (e : CanTxEnd) (err : CanErr)
  | canBusOffRecovery (t : TileId) (c : Fin 2)
  | canWake (t : TileId) (c : Fin 2) (cause : CanWakeCause)
  | linSlotStart (t : TileId) (l : Fin 2)
  | linResponseReceived (t : TileId) (l : Fin 2) (r : LinResp) (now : Nat)
  | linResponseTimeout (t : TileId) (l : Fin 2) (bytes : Nat) (now : Nat)
  | linWakePulse (t : TileId) (l : Fin 2)
  | linWakeDelayEnd (t : TileId) (l : Fin 2)
  | cmdqDoorbell (q : Fin 32) (value : BitVec 64)
  | cplDoorbell (c : Fin 32) (value : BitVec 64)
  | evtDoorbell (e : Fin 8) (value : BitVec 64)
  | descriptorFetch (q : Fin 32) (desc : Vector Byte 64)
  | notBeforeRelease (q : Fin 32)
  | interruptModerationTimeout (k : RingKind) (n : Fin 32)
  | msixVectorUnmask (v : Fin 64)
  | hello (h : HostCmd) (verMin verMax : BitVec 16) (hostId : BitVec 64)
  | bye (h : HostCmd)
  | byeTimeout
  | pcieConventionalReset
  | pcieHotReset
  | functionLevelReset
  | pcieLinkDown
  | busMasterEnableCleared
  | sessEnd
  | cmdqEnable (q : Fin 32) (ctl : Word)
  | cmdqDisable (q : Fin 32)
  | cplRingEnable (c : Fin 32) (ctl : Word)
  | cplRingDisable (c : Fin 32)
  | evtRingEnable (e : Fin 8) (ctl : Word)
  | evtRingDisable (e : Fin 8)
  | ringDisableComplete (k : RingKind) (n : Fin 32)
  | ifcCtlWrite (value : Word)
  | bwkStatusRead (pkg : Fin 4)
  | registerWrite (offset : BitVec 16) (data : Nat × BitVec 64)
  | cfgWriteEntries (h : HostCmd) (entries : Vector CfgEntry 5)
  | cfgWriteBlock (h : HostCmd) (block : BitVec 16) (index : Byte) (data : List Byte)
  | cfgReadEntries (h : HostCmd) (addr : BitVec 64) (selectors : Vector CfgSelector 8)
  | cfgReadBlock (h : HostCmd) (addr : BitVec 64) (block : BitVec 16) (index : Byte) (size : Nat)
  | policyLoad (h : HostCmd) (bundle : List Byte)
  | policyActivate (h : HostCmd)
  | doorRelease (h : HostCmd)
  | doorWithdraw (h : HostCmd)
  | doorOpen (h : HostCmd)
  | doorClose (h : HostCmd)
  | doorHold (h : HostCmd)
  | doorNudge (h : HostCmd)
  | stepDeploy (h : HostCmd)
  | stepStow (h : HostCmd)
  | axisHome (h : HostCmd) (suspectClear : Bool)
  | axisJog (h : HostCmd) (distance : Int)
  | lswSet (h : HostCmd) (mask levels : BitVec 16)
  | lswSetClear (h : HostCmd) (mask levels : BitVec 16)
  | ioSet (h : HostCmd) (mask levels : BitVec 16)
  | ioSetClear (h : HostCmd) (mask levels : BitVec 16)
  | ioRead (h : HostCmd) (addr : BitVec 64)
  | calRequestFull (h : HostCmd)
  | calRequestShadow (h : HostCmd) (m : Nat)
  | calPermit (h : HostCmd)
  | calCancel (h : HostCmd)
  | calRecover (h : HostCmd)
  | selftestRequest (h : HostCmd) (mask : BitVec 16) (addr : BitVec 64)
  | soundingRead (h : HostCmd) (shadow : Bool) (d : Dir) (first count : Nat) (addr : BitVec 64)
  | soundingWrite (h : HostCmd) (d : Dir) (first count : Nat) (data : List Byte)
  | shadowConfirmAccept (h : HostCmd)
  | shadowConfirmDiscard (h : HostCmd)
  | timeStepAccept (h : HostCmd) (number : Word)
  | timerArm (h : HostCmd) (p : TimerPayload)
  | timerCancel (h : HostCmd) (tpo : Nat)
  | canTx (h : HostCmd) (p : CanTxPayload)
  | canAbort (h : HostCmd) (controller buffer : Nat)
  | linSchedLoad (h : HostCmd) (master table : Nat) (entries : List LinEntry)
  | linSchedLoadDataOnly (h : HostCmd) (master table : Nat) (entries : List LinEntry)
  | linSchedSelect (h : HostCmd) (master table : Nat)
  | sedgeOpen (h : HostCmd) (conn : Nat) (addr : SedgeAddr)
  | sedgeClose (h : HostCmd) (conn : Nat)
  | logDrain (h : HostCmd) (addr : BitVec 64) (size most : Nat)
  | logSeal (h : HostCmd)
  | logMark (h : HostCmd) (marker : Vector Byte 32)
  | triadStatus (h : HostCmd) (addr : BitVec 64)
  | triadReadmit (h : HostCmd) (core : Nat)
  | fwStage (h : HostCmd) (offset total : Nat) (chunk : List Byte)
  | fwCommit (h : HostCmd)
  | keyRegister (h : HostCmd) (key : List Byte)
  | attest (h : HostCmd) (nonce : Vector Byte 24) (addr : BitVec 64)
  | eventsRecordTimeout (t : TileId)
  | blockSignatureComplete (t : TileId)
  | flashBlockCopyComplete (t : TileId) (good : Bool)
  | boardwalkLinkTrained (port : Fin 2) (neighbour : Straps)
  | boardwalkTrainingRetry (port : Fin 2)
  | boardwalkPortDown (port : Fin 2)
  | boardwalkFrameReceived (port : Fin 2) (arrival : BwkFrame × Nat)
  | bwkRetransmitTimer
  | forwardAckTimeout (q : Fin 32) (tag : Word)
  | bwkTimingExchange (port : Fin 2) (roundTrip : Nat) (lead : Option BwkLead)
  | powerGood (straps : Straps)
  | powerGoodLost
  | brownOut (t : TileId)
  | vdd33Loss (t : TileId)
  | vpcieLoss
  | vdrvLow (t : TileId)
  | vdrvRestored (t : TileId)
  | vbatDomainLoss (t : TileId)
  | vbatDomainReturn (t : TileId)
  | externalReset
  | thermalReset (t : TileId) (hot : Bool)
  | referenceLoss
  | referenceReturn
  | pllPcieLockLoss
  | logicDieResetRelease (t : TileId) (r : BootReport)
  | startSupervisorTimeout (t : TileId)
  | pairDiscrepantClear (t : TileId) (p : PairId)
  | canReceiveError (t : TileId) (c : Fin 2) (e : CanErr)
  | ptpDelayRequestSend (p : EthPort) (stamp : Int)
  | windowRefresh
  deriving DecidableEq, Repr

end Sys2Proof
end

