-- ==== Sys2Proof/Config.lean ====
section
/-!
DEFINITION. What the spec leaves open or takes from outside itself, as constants with no body: the free values, the hash
and the signature scheme, the keys and addresses programmed at the factory. No proof can see what they are.
-/

namespace Sys2Proof

/-- A value that the spec leaves open; drawn with the counter State.freeCtr (planner output, duty words and the
others of log entry 4). A statement about it holds for every value. -/
opaque Config.freeInt : Nat → Int

/-- The place of the generation byte among the 8 header bytes of a CAN message buffer, modulo 8: R285 names the fields of the header and gives
them no places. -/
opaque Config.canGenByte : Nat

/-- SHAKE256 with an output of 32 bytes, SHAKE256-256 (R350); byte 0 is the low byte of the value. -/
opaque Config.shake256 : List Byte → BitVec 256

/-- Verification of a Falcon-1024 signature: key, message, signature (R351, R358, R360). -/
opaque Config.falconVerify : List Byte → List Byte → List Byte → Bool

/-- The Falcon-1024 signature of 1 280 bytes with the package identity key (R351). -/
opaque Config.falconSign : List Byte → BitVec 10240

/-- Hjelkel's firmware verification key in boot ROM (R358). -/
opaque Config.firmwareKey : List Byte

/-- The certificate of the package identity (R356). -/
opaque Config.certificate : List Byte

/-- The lower of the two MAC addresses programmed into the head (R243). -/
opaque Config.macBase : BitVec 48

end Sys2Proof
end

