-- ==== Sys2Proof/Machine/State.lean ====
section
/-!
DEFINITION. The state of one ZK86 package, with the board-level state that its head keeps, as plain data; the faults
and refusals; and State.reset. Each field's docstring names the rule of spec/ that gives it and its reset value.
-/

namespace Sys2Proof.Machine

/-- Why the block stops on a command. -/
inductive Fault where
  /-- Raised by every command that names a tile the part does not have (R1: ZK8602 has one tile, ZK8604 two, ZK8608
  four). Safe: such a tile does not exist, so nothing can be commanded there. -/
  | absentTile
  deriving DecidableEq, Repr

/-- Why the model gives a command no meaning. -/
inductive Refusal where
  /-- Raised by an arm of Dispatch whose command has no meaning yet. Safe: the model stops. -/
  | notModelled (mnemonic : String)
  deriving DecidableEq, Repr

/-- A map from natural-number keys to integers, as a list with rising keys; what an unlisted key reads as is the
reader's own default (parameters: the default of the table; soundings: 0). -/
abbrev SMap := List (Nat × Int)

/-- A clock-time bound (R35): not running, running with the value it started with (R332), or expired and not yet
acted on. -/
inductive Bound where
  | idle
  | running (limit : Nat)
  | expired
  deriving DecidableEq, Repr

/-- The parts of the family (R1). -/
inductive Part where
  | zk8602 | zk8604 | zk8608
  deriving DecidableEq, Repr

/-- Doorway states (R36). -/
inductive DoorState where
  | locked | closedUnlocked | released | opening | openSt | closing | reversing | held | nudging | isolated
  | unreferenced | faultSafe
  deriving DecidableEq, Repr

/-- Bridge modes (R56). -/
inductive Bridge where
  | driven | brake | free
  deriving DecidableEq, Repr

/-- Limit sets, in the order of R44: OPEN 0 to HOLD 8. -/
inductive LimitSet where
  | openSet | close | reverse | nudge | egress | home | jog | step | hold
  deriving DecidableEq, Repr

/-- What a move is for (R44, R97). -/
inductive MoveKind where
  | leaf | stepCmd | coupled | reversal | homing | jog | calibration | stop
  deriving DecidableEq, Repr

/-- A move of an axis (R47): what it is for, its target, its limit set, its direction and whether its profile has
ended. -/
structure Move where
  kind        : MoveKind
  target      : Int
  set         : LimitSet
  dir         : Dir
  profileDone : Bool
  fresh       : Bool
  deriving DecidableEq, Repr

/-- The stages of an axis's part of a homing run (R66). -/
inductive HomeStage where
  | waitLock | align | chatterStop | ready | leave | clear | approach | stopFirst | backoff | slow | stopSecond | index | stopIndex
  | absolute | retreat | closing | done
  deriving DecidableEq, Repr

/-- Position feedback of an axis. -/
structure Feedback where
  /-- Position, signed 32-bit travel counts (R30); reset 0 (R61: a reset clears the count). -/
  pos          : Int
  /-- The axis is referenced (R88); reset false (R42). -/
  referenced   : Bool
  /-- Position uncertainty u, in counts (R79, R87); reset 0 DESIGN CHOICE. -/
  u            : Nat
  /-- QERR counter (R79); reset 0 DESIGN CHOICE. -/
  qerr         : Nat
  /-- Sample numbers of the QERR inside the window of the last 1 000 samples (R79); reset none. -/
  qerrWindow   : List Nat
  /-- Direction flag, true towards open (R91); reset false DESIGN CHOICE. -/
  dirFlag      : Bool
  /-- Extreme position since the last change of the flag (R91); reset 0 DESIGN CHOICE. -/
  dirExtreme   : Int
  /-- Extreme position at which the travel last turned, and the TS32 of that change (R91); reset 0. -/
  dirTurn      : Int
  dirTs        : Word
  /-- Count of direction changes since power-on (R91); reset 0. -/
  dirChanges   : BitVec 16
  /-- The 10 ms in which no further direction event is raised (R91); reset false. -/
  dirHoldoff   : Bool
  /-- A change fell within those 10 ms (R91); reset false. -/
  dirPending   : Bool
  /-- Index phase P (R81); reset none. -/
  indexPhase   : Option Int
  /-- Count correction due in the next current-loop sample (R81); reset none. -/
  indexErr     : Option Int
  /-- Hall code HU, HV, HW (R82); reset 0b100 DESIGN CHOICE. -/
  hallCode     : BitVec 3
  /-- Last valid Hall code (R82); reset 0b100 DESIGN CHOICE. -/
  hallLast     : BitVec 3
  /-- The last Hall transition skipped a code (R82); reset false. -/
  hallSkipped  : Bool
  /-- Count of skipped codes (R82); reset 0. -/
  hallSkips    : Nat
  /-- A Hall fault forbids powered moves of a PMSM axis (R90); reset false. -/
  hallForbid   : Bool
  /-- Loss causes of R89 that stand and have been raised (R90); reset none. -/
  causes       : List Nat
  /-- A reset has taken the position of the axis, which was referenced, and cause 8 is still to be raised (R89); reset false. -/
  lostByReset  : Bool
  /-- Raw level of HOME, LIMC, LIMO (R83); reset high DESIGN CHOICE (the inputs have pull-ups, R409). -/
  swRaw        : PerAxis Bool
  /-- Debounced level of HOME, LIMC, LIMO (R83); reset high DESIGN CHOICE. -/
  swLevel      : PerAxis Bool
  /-- Count latched at the last raw edge of HOME towards active (R66); reset 0. -/
  latchActive  : Int
  /-- Count latched at the last raw edge of HOME towards inactive (R66); reset 0. -/
  latchInactive : Int
  /-- Instants of the raw HOME edges inside the chatter window (R69); reset none. -/
  chatter      : List Nat
  /-- Switch-suspect mark, kept through resets (R69); reset false DESIGN CHOICE. -/
  suspect      : Bool
  /-- Last accepted SSI position (R87); reset none. -/
  ssiLast      : Option Int
  /-- Instant of the latch edge of the last accepted word (R87); reset 0. -/
  ssiLastAt    : Nat
  /-- Discarded SSI words in a row (R87); reset 0. -/
  ssiRun       : Nat
  /-- Results of the last 1 000 SSI requests, true a discard (R87); reset none. -/
  ssiWindow    : List Bool
  /-- Current-loop samples since the last SSI request (R84); reset 0. -/
  ssiCount     : Nat
  /-- An SSI word is under way, with the count latched at its first falling edge (R84, R87); reset none. -/
  ssiLatch     : Option Int
  /-- Instant and TS32 of that first falling edge (R84); reset 0. -/
  ssiLatchAt   : Nat
  ssiLatchTs   : Word
  /-- The idle check of the word under way failed (R84); reset false. -/
  ssiIdleBad   : Bool
  deriving DecidableEq, Repr

/-- A trip as R121 reports it: every source present in the trip sample, and the position, zone profile in force, doorway
state and TS32 of that sample. -/
structure TripNote where
  sources : BitVec 16
  pos     : Int
  zone    : Fin 8
  st      : DoorState
  ts      : Word
  /-- The trip fell in a move of axis C started by STEP_DEPLOY or STEP_STOW (R128). -/
  step    : Bool
  deriving DecidableEq, Repr

/-- Motion of an axis. -/
structure Motion where
  /-- Bridge mode that the engine commands (R56); reset BRAKE (R161: the fallback image is applied at power-on). The gates of
  an axis that is unused or has no motor are off whatever it is (R29, R49): Tile.gateMode gives what the gates do. -/
  bridge      : Bridge
  /-- The move under way (R47); reset none. -/
  move        : Option Move
  /-- Planned speed and acceleration in force: what the last recomputation from the measured position and speed plans, in
  counts/s and counts/s² (R47); reset 0. -/
  planVel     : Int
  planAcc     : Int
  /-- Profile position (R55), in whole counts and 1/65 536 count: where the trajectory of the move stands; reset 0. -/
  planPos     : Int
  planFrac    : Nat
  /-- Speed and acceleration of the trajectory at the profile position, in 1/65 536 counts/s and counts/s² (R55); reset 0. -/
  profVel     : Int
  profAcc     : Int
  /-- Instant since which the measured speed has stayed at or below rev_v_start in this move (R418); reset none. -/
  slowSince   : Option Nat
  /-- Instant since which the following error has exceeded fe_max (R55); reset none. -/
  feSince     : Option Nat
  /-- i_q and i_d references of the current loop, mA (R50, R51, R53); reset 0. -/
  iqRef       : Int
  idRef       : Int
  /-- Electrical angle of the current vector, in 1/4 096 of a period (R50, R51); reset 0. -/
  elecAngle   : Nat
  /-- The offset between the feedback and the motor: a count and the rotor's electrical angle there (R50, R51); reset none. -/
  elecOff     : Option (Int × Nat)
  /-- Measured speed, counts/s (R53); reset 0. -/
  speed       : Int
  /-- Torque-producing current of the last sample, mA (R53); reset 0. -/
  iq          : Int
  /-- Duty words of phases U, V and W, sent down the field link (R16, R53); reset 0. -/
  duty        : Int × Int × Int
  /-- Motor bus, in 0.1 V (R54); reset 0 DESIGN CHOICE. -/
  vbus        : Nat
  /-- The deceleration is limited because the bus lies above vbus_ov (R54); reset false. -/
  decelLimited : Bool
  /-- Alignment or electrical offset fixed since the last power-on or MOT reset (R50, R51); reset false. -/
  aligned     : Bool
  /-- An alignment runs (R51); reset false. -/
  aligning    : Bool
  /-- The triad's stop on the trip pair (R16, R59); reset asserted (R164: an undriven wire reads asserted). -/
  tripTriad   : Bool
  /-- The motion engine's trip on the trip pair (R16, R59); reset false. -/
  tripEngine  : Bool
  /-- The 2.5 µs between a trip and BRAKE (R59); reset false. -/
  freeDelay   : Bool
  /-- A trip that waits for its trip event at the next current-loop sample (R59, R121); reset none. -/
  tripNote    : Option TripNote
  /-- Zone profile in force (R97); reset 0. -/
  zone        : Fin 8
  /-- Speed limit set by a stake (R46); reset none. -/
  vLim        : Option Nat
  /-- Force limit set by a stake (R46); reset none. -/
  fLim        : Option Nat
  /-- Persistence count of the residual test (R110); reset 0. -/
  persist     : Nat
  /-- Consecutive samples at the clamp (R111); reset 0. -/
  satCount    : Nat
  /-- Force estimate of the last sample, in µN (R107); reset 0. -/
  fEst        : Int
  /-- Envelope of the last sample, in µN (R110); reset 0. -/
  envelope    : Int
  /-- A contact stop is under way: the source it replaces (R127); reset none. -/
  contact     : Option (Fin 2)
  /-- The last contact stop counts as deployed (R127); reset false. -/
  contactDeployed : Bool
  /-- Current-sense fault stands (R132); reset false. -/
  senseFault  : Bool
  /-- Trace of F_est (µN), envelope (µN), speed: the latest samples, newest first (R121); reset none. -/
  trace       : List (Int × Int × Int)
  /-- Trips whose TRIP record still waits: the samples still to come, and the trip (R347); reset none. -/
  tripTail    : List (Nat × TripNote)
  /-- A trip of the axis waits for its fabric-clear (R118, R123, R126); reset false. -/
  clearOwed   : Bool
  /-- The wire of the trip pair that a step of the proof test asserts alone, 1 or 2 (R119); reset none, 0. -/
  wire        : Fin 3
  /-- Fine steps of earlier coarse steps that enter the setpoint in the next sample, in 1/256 count (R63); reset 0. -/
  extPending  : Int
  /-- Period of the last coarse step, ns (R63); reset 0. -/
  extPeriod   : Nat
  /-- Instant of the last coarse edge that the axis follows (R63); reset 0. -/
  extAt       : Nat
  /-- Fine steps of the last coarse step that have entered the setpoint (R63); reset 0. -/
  extDone     : Nat
  /-- Part of the stream's position that the setpoint has not taken in yet, in 1/65 536 count (R63, R64); reset 0. -/
  extAcc      : Int
  /-- External steps ignored (R64); reset 0. -/
  extIgnored  : Nat
  /-- The external-step-rejected event was raised in this move (R64); reset false. -/
  extReported : Bool
  /-- Stage of this axis's part of the homing run (R66); reset none. -/
  homeStage   : Option HomeStage
  /-- End-of-travel limit tries of the homing procedure (R66); reset 0. -/
  homeTries   : Nat
  /-- t_home_max of this axis (R66); reset idle. -/
  tHomeMax    : Bound
  /-- Reversal target (R122); reset none. -/
  revTarget   : Option Int
  /-- The reversal move has been commanded (R123); reset false. -/
  revStarted  : Bool
  deriving DecidableEq, Repr

/-- The pass of an axis (R97) and what it gathers. -/
structure Pass where
  /-- A pass runs (R97); reset false. -/
  active    : Bool
  /-- Its first sample has been taken (R99); reset false. -/
  begun     : Bool
  /-- The pass belongs to a move of axis C by STEP_DEPLOY or STEP_STOW (R98); reset false. -/
  stepCmd   : Bool
  /-- Doorway state of the pass (R98); reset LOCKED. -/
  door      : DoorState
  /-- An OPENING pass that began with T07 (R346); reset false. -/
  t07       : Bool
  /-- Position at the start of the pass (R99); reset 0. -/
  start     : Int
  /-- Armed stakes of the open table (R98); reset 0. -/
  armedOpen  : BitVec 64
  /-- Armed stakes of the close table (R98); reset 0. -/
  armedClose : BitVec 64
  /-- The pass is clean so far (R136); reset false. -/
  clean     : Bool
  /-- Per-bin sums: key 4·bin count, +1 sum of F (1/16 N), +2 sum of squares, +3 zone of the last sample (R137);
  reset empty. -/
  bins      : SMap
  /-- Largest residual of the pass, 1/16 N (R346); reset 0. -/
  peak      : Int
  /-- The stake bound: end position, direction and stake index (R105); reset none. -/
  bound     : Option (Int × Dir × Nat)
  /-- Its clock (R105); reset idle. -/
  boundTime : Bound
  /-- 1 kHz record of position and F_est (N) of axis A (R346); reset none. -/
  record    : List (Int × Int)
  /-- Instant of the last 1 kHz entry (R346); reset 0. -/
  recordAt  : Nat
  deriving DecidableEq, Repr

/-- The trip fabric of an axis in the field die. -/
structure Fabric where
  /-- Path 1 asserted (R118); reset asserted (R164: the trip pair is undriven). -/
  path1      : Bool
  /-- Path 2 asserted (R118); reset asserted (R164). -/
  path2      : Bool
  /-- An input has tripped the fabric since its last fabric-clear (R120); reset true (R164). -/
  tripped    : Bool
  /-- Edge-enable bit at the field die (R115); reset true: zone profile 0 has edge_en 1 by default (R113). -/
  edgeEn     : Bool
  /-- Phase overcurrent comparator level (R118); reset false. -/
  overcurrent : Bool
  /-- Trip-fabric fault stands (R120); reset false. -/
  fault      : Bool
  deriving DecidableEq, Repr

/-- An axis of a tile (R29). -/
structure Axis where
  fb  : Feedback
  mo  : Motion
  pa  : Pass
  fab : Fabric
  /-- Parameters of the per-axis tables in force (R332); reset: all at their defaults. -/
  inForce : SMap
  /-- Active soundings: key = (512·direction + bin)·8 + field of R133 (mean, spread, base_mean, base_spread, env_audit,
  flags, zone_last, updates), forces in 1/16 N; retained (R13); reset all 0 DESIGN CHOICE. -/
  soundings : SMap
  /-- Shadow soundings, same layout (R133); reset all 0 DESIGN CHOICE. -/
  shadow    : SMap
  /-- Soundings in effect for detection, taken from the active set at the start of a pass (R147); reset all 0. -/
  detect    : SMap
  /-- Shadow passes collected: key as the active set's, fields 0..5 of the sums (R143); reset empty. -/
  shadowSums : SMap
  /-- Clean and ended shadow passes, opening then closing (R143); reset 0. -/
  shadowClean : Nat × Nat
  shadowEnded : Nat × Nat
  /-- Per-bin values of the three calibration cycles (R141); reset empty. -/
  calSums   : SMap
  deriving DecidableEq, Repr

/-- A door or axis command in the triad mailbox (R325). -/
inductive DoorCmd where
  | openDoor | closeDoor | hold | nudge | stepDeploy | stepStow
  | axisHome (suspectClear : Bool)
  | axisJog (a : AxisId) (distance : Int)
  deriving DecidableEq, Repr

/-- A doorway action of a fired stake on its way to the triad (R101): axis, direction, index, position and TS32 of the
firing sample, and the action: OUTPUT (mask, levels), LOCK_EXPECT, STEP_CHECK (check_act) or EVENT. -/
structure StakeAct where
  axis  : AxisId
  dir   : Dir
  index : Nat
  pos   : Int
  ts    : Word
  kind  : Fin 4
  mask  : BitVec 16
  val   : BitVec 16
  deriving DecidableEq, Repr

/-- A trip reported to the triad: axis, source mask (R121) and zone in force. -/
structure TripReport where
  axis    : AxisId
  sources : BitVec 16
  zone    : Fin 8
  deriving DecidableEq, Repr

/-- Commanding sources of a Peat record (R344). -/
inductive Source where
  | tile | host | sedge | panel | trainLine | switch | boot | head
  deriving DecidableEq, Repr

/-- The homing run of a tile (R66). -/
structure HomingRun where
  inIsolated : Bool
  unlocked   : Bool
  /-- 0 waits for the lock, 1 axes run, 2 waits for the closed proof, 3 waits for the lock proof. -/
  phase      : Fin 4
  deriving DecidableEq, Repr

/-- Calibration (R139 to R144). -/
inductive CalState where
  | idle
  | queued
  | ready (cyclesDone : Nat)
  /-- A cycle runs: cycles done, step of R140 (1 to 8), cancelled. -/
  | cycle (done : Nat) (step : Fin 9) (cancelled : Bool)
  /-- Aborted: the axes wait for RECOVER (false) or close as in steps 5 to 8 (true), at a step. -/
  | aborted (recovering : Bool) (step : Fin 9)
  deriving DecidableEq, Repr

/-- Shadow collection (R143). -/
inductive ShadowState where
  | none
  | requested (m : Nat)
  | collecting (m : Nat)
  | ready (m : Nat)
  deriving DecidableEq, Repr

/-- What a self-test part has come to (R336): result code, detail and start TS32. -/
structure PartState where
  requested : Bool
  running   : Bool
  result    : Option (Fin 6)
  detail    : BitVec 16
  ts        : Word
  deriving DecidableEq, Repr

/-- The doorway of a tile: the triad's state machine. -/
structure Doorway where
  /-- Doorway state (R36); reset FAULT_SAFE: no bundle is active in the factory state, so fault 0x05 is pending (R362,
  R363). -/
  st           : DoorState
  /-- Door and axis commands waiting for an evaluation (R325); reset none. -/
  mailbox      : List (HostCmd × DoorCmd)
  /-- Host release (R37); reset false DESIGN CHOICE. -/
  hostRelease  : Bool
  /-- The model's own: number of the last transition taken (R39), which the result of a command reports (R326); reset 0. -/
  lastTrans    : Nat
  /-- Demands that arose since the last evaluation: open by panel, by auto_open (R37); reset false. -/
  demPanelOpen : Bool
  demAutoOpen  : Bool
  /-- The Sedge connections whose open command, and whose close command, arose since the last evaluation (R37, R213, R215); reset none. -/
  demSedgeOpen : List (Fin 32)
  demSedgeClose : List (Fin 32)
  /-- Egress latched (R40); reset false. -/
  egress       : Bool
  /-- The handle pair was active at the last evaluation (R40); reset false. -/
  egressSeen   : Bool
  /-- The egress-pending event was raised for this activation (R40); reset false. -/
  egressPend   : Bool
  /-- An opening entered by T35 (R44); reset false. -/
  egressOpening : Bool
  /-- Bounds of R35, R72, R123 and R125; reset idle. -/
  tUnlock      : Bound
  tOpenMax     : Bound
  tWarn        : Bound
  tCloseMax    : Bound
  tLock        : Bound
  tNudgeMax    : Bound
  tOpenDwell   : Bound
  tStepMax     : Bound
  tRevMax      : Bound
  tBrakeMax    : Bound
  tDwell       : Bound
  /-- FIRST holds the leaves back for axis C (R71): the direction waited for; reset none. -/
  firstWait    : Option Dir
  /-- Nudging profiles wait for rest (R125); reset false. -/
  nudgeWait    : Bool
  /-- HELD was entered by YIELD: from CLOSING or not, and after an opening trip that axis C alone caused (R124, R125); reset
  none. -/
  yieldFrom    : Option (Bool × Bool)
  /-- The zone whose policy governs the reversal or yield (R122); reset 0. -/
  tripZone     : Fin 8
  /-- Position of the reversal: closing reversal (true) or opening, and whether axis C alone caused it (R124); reset
  none. -/
  revKind      : Option (Bool × Bool)
  /-- Holding force waits for the sources of a trip to clear (R126); reset false. -/
  holdWait     : Bool
  /-- The trip that stopped holding force had the source PANEL (R126); reset false. -/
  holdPanel    : Bool
  /-- Trips not yet evaluated (R59); reset none. -/
  trips        : List TripReport
  /-- Doorway actions of fired stakes not yet applied (R101); reset none. -/
  stakeActs    : List StakeAct
  /-- A stake bound expired on an axis since the last evaluation (R105); reset none. -/
  stakeExpired : List AxisId
  /-- Axes whose move the engine refused (R60), not yet evaluated; reset none. -/
  refused      : List AxisId
  /-- A trip stopped axis C in a move by STEP_DEPLOY or STEP_STOW: it stays in BRAKE until a command or transition moves it
  (R128); reset false. -/
  stepStopped  : Bool
  /-- Commanding source of what the evaluation carries out (R39, R344); reset TILE. -/
  by_          : Source
  /-- Faults that arose in ISOLATED and are kept pending (R41); reset none. -/
  isoFaults    : List Nat
  /-- Position lost on a used axis, not yet evaluated (R89); reset false. -/
  posLost      : Bool
  /-- Panel obstruction flag as last delivered (R117); reset false. -/
  panelFlag    : Bool
  /-- The flag arrived since the last evaluation (R117); reset false. -/
  panelNew     : Bool
  /-- Lock window open (R104); reset false. -/
  lockWindow   : Bool
  /-- Instants of the obstructions inside nudge_window (R129); reset none. -/
  obstructions : List Nat
  /-- Homing run (R66); reset none. -/
  homing       : Option HomingRun
  /-- The run fails in the next evaluation: cause of R67 and axis (R66, R67); reset none. -/
  homeFault    : Option (Nat × Option AxisId)
  /-- A homing run failed since release last became valid (T02); reset false. -/
  homeFailed   : Bool
  /-- ISOLATED was left earlier (T02); reset false. -/
  isolatedLeft : Bool
  /-- Release valid at the last evaluation (R37); reset false. -/
  releaseSeen  : Bool
  /-- Zero speed valid at the last evaluation (R37); reset false. -/
  zeroSeen     : Bool
  /-- The leaf-closed pair was proven at the last evaluation (R180, "lost"); reset false. -/
  leafSeen     : Bool
  /-- The lock-engaged pair was proven at the last evaluation (R180, "lost"); reset false. -/
  lockSeen     : Bool
  /-- Faults marked "until edge reset" that are pending (R195); reset none. -/
  latched      : List Nat
  /-- Fault codes pending at the last evaluation (R195); reset 0x05, seal mismatch (R362). -/
  pendingSeen  : List Nat
  /-- Isolation pair, egress pair statuses whose fault events were raised (R190, R191); reset false. -/
  isoFaultSeen : Bool
  egrFaultSeen : Bool
  /-- The zero-speed pair, the release pair is held invalid as discrepant (R188); reset false. -/
  tlDisc       : Bool × Bool
  /-- A proof test failed and waits for its T23: axis and step (R119); reset none. -/
  proofFailed  : Option (AxisId × Nat)
  /-- Instant at which LS0 last showed SHORT_VBAT or an off-state current (R195); reset none. -/
  ls0At        : Option Nat
  /-- The SRA command (R182); reset open (R161). -/
  sraCmd       : Bool
  /-- Rows 1 and 2 of R182 held at the last evaluation; reset false. -/
  rows12       : Bool
  /-- Row 5 of R182: the proof test has passed since rows 1 and 2 last came to hold together; reset false. -/
  proofOk      : Bool
  /-- A proof test runs (R119); reset false. -/
  proofRun     : Bool
  /-- A proof test is due once the fallback image is released (R182); reset false. -/
  proofDue     : Bool
  /-- Step 1, 4, 6 or 8 of R119 that the proof test has reached, as 1 to 4, 5 once step 10 is due, 0 before step 1; and the
  first check that failed: axis and step; reset 0, none. -/
  proofPhase   : Fin 6
  proofBad     : Option (AxisId × Nat)
  /-- The proof test running is the self-test part FABRIC_PROOF (R145); reset false. -/
  proofSelf    : Bool
  /-- The last passed proof test is older than proof_age_max (R201); reset false DESIGN CHOICE. -/
  proofOld     : Bool
  /-- The proof comparison of R187 disagrees for longer than 200 ms; reset false. -/
  proofDisagree : Bool
  /-- A word with an uncorrectable ECC error has not since been written again and read back (R195, code 0x0D); reset false. -/
  eccBad       : Bool
  /-- SRA readback disagrees for longer than 20 ms (R184); reset false. -/
  sraDisagree  : Bool
  /-- Duplex limit expired, fault 0x0C waits for rest (R232); reset false. -/
  duplexDue    : Bool
  /-- An edge reset delivered to this tile waits for the evaluation (R198); reset false. -/
  edgeReset    : Bool
  /-- Calibration (R139); reset idle. -/
  cal          : CalState
  /-- Calibration bounds (R139, R142): cal_permit_max, the rest of 1 s, cal_end_max; reset idle. -/
  calPermitMax : Bound
  calRest      : Bound
  calEndMax    : Bound
  /-- Shadow collection (R143); reset none. -/
  shadow       : ShadowState
  /-- SHADOW_CONFIRM ACCEPT waits for an evaluation with no pass (R144); reset none. -/
  shadowAccept : Option HostCmd
  /-- Self-test request in progress (R145); reset none. -/
  selftest     : Option (HostCmd × BitVec 64 × BitVec 16)
  /-- Its parts (R336); reset not requested. -/
  parts        : Vector PartState 8
  /-- st_dwell_max (R146); reset idle. -/
  stDwellMax   : Bound
  /-- Doorway cycle open (R346); reset false. -/
  cycleOpen    : Bool
  /-- Instants of the last T01, T05, T07, T09, T11 or T26, T15, T16 of the cycle (R346); reset none. -/
  cycleTimes   : Vector (Option Nat) 7
  /-- Sources of the last open and close demand (R346); reset TILE. -/
  srcOpen      : Source
  srcClose     : Source
  /-- Largest residual of the opening and the closing pass with its axis, 1/16 N (R346); reset 0. -/
  peakOpen     : Int × AxisId
  peakClose    : Int × AxisId
  /-- Egress was latched during the cycle (R346); reset false. -/
  cycleEgress  : Bool
  /-- Opening and closing traces of axis A (R346); reset none. -/
  traceOpen    : List (Int × Int)
  traceClose   : List (Int × Int)
  /-- The record of the last CLOSING pass of axis A, which T16 makes the closing trace (R346); reset none. -/
  closePass    : List (Int × Int)
  /-- The leaves open by T07, not by T35 at once (R346); reset false. -/
  openByT07    : Bool
  /-- A policy bundle activated and not yet in force, with the command that activated it (R93); reset none. -/
  activating   : Option (HostCmd × List Byte)
  deriving DecidableEq, Repr

/-- A load-switch channel in the field die. -/
structure LsChannel where
  /-- Command line level from the output sequencer (R150); reset off (R161). -/
  line        : Bool
  /-- Level of Tt_LSIN_n (R150); reset low DESIGN CHOICE. -/
  pin         : Bool
  /-- Overcurrent latch (R153); reset clear DESIGN CHOICE. -/
  ocLatch     : Bool
  /-- Thermal latch (R154); reset clear DESIGN CHOICE. -/
  thLatch     : Bool
  /-- Thermal shutdown in RESTART mode (R154); reset false. -/
  thDown      : Bool
  /-- Instants of restarts within 60 s (R154); reset none. -/
  restarts    : List Nat
  /-- Inrush blanking runs (R153); reset false. -/
  blanking    : Bool
  /-- The threshold that was in force when it last turned off, mA (R165); reset 0. -/
  offThr      : Nat
  /-- Instant of its last turn-off (R153); reset none: it has been off for at least 1 ms. -/
  offAt       : Option Nat
  /-- Threshold and blanking time in force since the last turn-on, mA and ms (R332); reset 3 000 mA (LS9 10 000), 10 ms
  (R151). -/
  ocThr       : Nat
  tInrush     : Nat
  /-- Result of the last off-state check: OPEN, SHORT_VBAT (R158); reset false. -/
  openLoad    : Bool
  shortVbat   : Bool
  /-- Off-state current (R159); reset false. -/
  offCurrent  : Bool
  /-- An off-state check runs (R158); reset false. -/
  checking    : Bool
  /-- Sense code (R159); reset 0. -/
  code        : BitVec 16
  /-- The channel is switched on by the field die (R152); reset off. -/
  isOn        : Bool
  deriving DecidableEq, Repr

/-- An IO pin in the field die. -/
structure IoPin where
  /-- Raw level (R166); reset low DESIGN CHOICE. -/
  raw        : Bool
  /-- Debounced level (R168); reset inactive under fio_active (R168): low, high on IO8 and IO9. -/
  level      : Bool
  /-- Commanded output level (R169); reset low (R161). -/
  cmd        : Bool
  /-- STUCK_HIGH, MISMATCH, THERMAL (R169); reset clear. -/
  stuckHigh  : Bool
  mismatch   : Bool
  thermal    : Bool
  /-- NO_PULSE and FOREIGN_PULSE flags (R174); reset clear. -/
  noPulse    : Bool
  foreign    : Bool
  /-- Consecutive failures and passes of the own-pulse check, then of the other-pulse check (R174); reset 0. -/
  ownFails   : Nat
  ownPasses  : Nat
  othFails   : Nat
  othPasses  : Nat
  /-- Level before the pulse now under way, and whether it went low in it (R174); reset false. -/
  before     : Bool
  wentLow    : Bool
  /-- It went low in the pulse and returned high before its window closed (R174); reset false. -/
  returned   : Bool
  deriving DecidableEq, Repr

/-- Pair statuses (R175), coded as in R328. -/
inductive PairStatus where
  | inactive | active | transition | discrepant | fault
  deriving DecidableEq, Repr

/-- A two-channel pair. -/
structure Pair where
  status     : PairStatus
  /-- DISCREPANT is latched (R175). -/
  discLatch  : Bool
  deriving DecidableEq, Repr

/-- Bittern monitor states (R186). -/
inductive BitternState where
  | openSt | closed | fault
  deriving DecidableEq, Repr

/-- The field die of a tile. -/
structure FieldDie where
  /-- VBAT holds the LSW domain, the FIO domain is on, VDRV above its threshold (R378, R380). The LSW domain and the FIO domain are both off
  from a power-on reset of FBIAS until the fallback image is loaded, while fioOn is false. Reset true DESIGN CHOICE: the supplies stand and
  the image is loaded. -/
  lswOn       : Bool
  fioOn       : Bool
  vdrvOk      : Bool
  /-- The motor bus comparator of R54 is active (R118); reset false. -/
  busComp     : Bool
  /-- VIO above its threshold (R177); reset true DESIGN CHOICE. -/
  vioOk       : Bool
  /-- Load-switch channels (R149). -/
  ls          : Vector LsChannel 10
  /-- VBAT undervoltage (R156); reset false DESIGN CHOICE. -/
  undervolt   : Bool
  /-- Group heat shedding (R157); reset false. -/
  groupHeat   : Bool
  /-- IO pins (R166). -/
  io          : Vector IoPin 16
  /-- Train-line levels: raw and debounced (R171); reset off. -/
  tlRaw       : Vector Bool 4
  tlLevel     : Vector Bool 4
  /-- The four IO pairs (R175); reset INACTIVE: every debounced level is inactive (R168). -/
  pLeaf       : Pair
  pLock       : Pair
  pEgress     : Pair
  pIso        : Pair
  /-- Test-pulse sources: a pulse is under way, SOURCE_FAULT (R172); reset false. -/
  tpPulse     : Bool × Bool
  tpFault     : Bool × Bool
  /-- The blanking window of a source is open (R173); reset false. -/
  tpWindow    : Bool × Bool
  /-- SRA and SRB drivers closed (R183, R185); reset open (R161). -/
  sra         : Bool
  srb         : Bool
  /-- Bittern monitor state (R186); reset OPEN. -/
  bittern     : BitternState
  /-- Channels whose own pulse has been seen low within the proof window, and the instant of the last wrong reaction to a
  pulse of the other source (R185); reset none. -/
  bitLow      : BitVec 4
  bitForeign  : Vector (Option Nat) 4
  /-- Proofs of its four channels, in pin order (R185); reset none. -/
  proofs      : BitVec 4
  /-- Bittern monitor configuration, 36 bytes as keys 0 to 35 (R187); reset none written. -/
  bitConfig   : Option (List Byte)
  /-- Parts of a new configuration that have arrived, in order (R16); reset none. -/
  cfgBuf      : List Byte
  /-- Duty words and PWM enable of each axis as the last down-frame carried them (R16); reset 0 and off. -/
  duty        : PerAxis (Int × Int × Int)
  pwm         : PerAxis Bool
  /-- Channels that LSW_ON_CHECK holds on, and half-bridges pulsed by GATE_CHECK (R145); reset none. -/
  onTest      : BitVec 10
  gateTest    : Bool
  /-- The step of the proof test that the field die has taken: 1, 4, 6, 8 or 10 of R119 as 1 to 5; reset 0. -/
  force       : Fin 6
  /-- Serial watchdog: count of the last accepted word (R18), accepted words in a row since the image (R163); reset
  none, 0. -/
  wdLast      : Option (BitVec 8)
  wdRun       : Nat
  /-- Fallback image applied (R161); reset true. -/
  fallback    : Bool
  /-- One-time image slots programmed, oldest first (R162); reset blank. -/
  images      : List (BitVec 26)
  deriving DecidableEq, Repr

/-- Input states, flags and readbacks as the last up-frame carried them to the logic die (R16). -/
structure UpView where
  pLeaf     : PairStatus
  pLock     : PairStatus
  pEgress   : PairStatus
  pIso      : PairStatus
  tlLevel   : Vector Bool 4
  ioRaw     : BitVec 16
  ioLevel   : BitVec 16
  tlRaw     : BitVec 4
  path1     : PerAxis Bool
  path2     : PerAxis Bool
  bittern   : BitternState
  proofs    : BitVec 4
  bitConfig : Option (List Byte)
  fallback  : Bool
  sra       : Bool
  srb       : Bool
  /-- Debounced level of Tt_SRA_FB, on while the relay is released (R184); reset off (R184). -/
  sraFb     : Bool
  /-- Gate monitors: all six gates off; phase currents, mA; motor bus, 0.1 V; accepted words in a row (R16). -/
  gatesOff  : PerAxis Bool
  currents  : PerAxis (Int × Int × Int)
  vbus      : Nat
  wdRun     : Nat
  /-- Fault flags of the IO pins, of the test-pulse sources and of VIO (R328). -/
  pinFlags  : Vector (BitVec 6) 16
  tpFault   : Bool × Bool
  vioLow    : Bool
  /-- Sense code and flags of each load-switch channel (R330, block 0x8007). -/
  lsCodes   : Vector (BitVec 16) 10
  lsFlags   : Vector (BitVec 16) 10
  /-- Channels whose off-state check has no result yet (R16, R158), and axes with a trip-fabric fault (R120). -/
  lsChecking : BitVec 10
  fabFault  : PerAxis Bool
  ts        : Word
  deriving DecidableEq, Repr

/-- A keep-alive word (R18): its count, the complement sent with it, and whether it comes from the voter output. -/
structure KaWord where
  count : BitVec 8
  comp  : BitVec 8
  voted : Bool
  deriving DecidableEq, Repr

/-- The field link as the logic die sees it, and what the triad commands down it (R16, R17). -/
structure Link where
  /-- What the last up-frame carried (R16); reset as the field die's own reset. -/
  up          : UpView
  /-- Missing or discarded up-frames in a row (R17); reset 0. -/
  missed      : Nat
  /-- The last instant at which a field-link fault stood, four or more up-frames in a row missing (R17, R195); reset none. -/
  faultAt     : Option Nat
  /-- Commanded load-switch lines and field outputs (R150, R169); reset off. -/
  lsCmd       : BitVec 10
  ioCmd       : BitVec 16
  /-- A fabric-clear waits for the next down-frame, per axis (R118); reset false. -/
  clear       : PerAxis Bool
  /-- The keep-alive is sent (R18, R196); reset stopped: no triad has started (R382). -/
  keepAlive   : Bool
  /-- Count of the last word written (R18); reset 0 DESIGN CHOICE. -/
  kaCount     : BitVec 8
  /-- A keep-alive word waits for the next down-frame (R18); reset none. -/
  kaWord      : Option KaWord
  /-- Clear commands of load-switch channels and field outputs, and off-state checks, for the next down-frame (R16); reset
  none. -/
  lsClear     : BitVec 10
  ioClear     : BitVec 16
  lsCheck     : BitVec 10
  /-- Channels whose off-state check a frame has carried down, and whose result no up-frame has carried yet (R16); reset none. -/
  lsAwait     : BitVec 10
  /-- Channels that LSW_ON_CHECK switches on, and the half-bridge pulses of GATE_CHECK (R16, R145); reset none. -/
  onTest      : BitVec 10
  gateTest    : Bool
  /-- The fallback-release flag is sent (R163); reset false. -/
  release     : Bool
  /-- The bittern configuration is sent (R187); reset false. -/
  sendConfig  : Bool
  /-- The part of it that the next down-frame carries (R16); reset 0. -/
  cfgNext     : Nat
  deriving DecidableEq, Repr

/-- Roles of a control core (R216). -/
inductive CoreRole where
  | active | spare | excluded
  deriving DecidableEq, Repr

/-- Triad modes (R229). -/
inductive TriadMode where
  | triplex | confirm | joining | duplex | lost
  deriving DecidableEq, Repr

/-- What the private state of a core holds (R221): its register file and its control registers, whose number and widths the spec does
not give, so that each of the two is one number, and its data scratchpad of 128 KiB, which is 1 048 576 bits with line i of R225, of 256
bytes, at bits 2048 i to 2048 i + 2047. The firmware that fills them is not in the spec, so their contents are free values (log entry
55). -/
structure CoreImage where
  regFile : Int
  control : Int
  scratch : BitVec 1048576
  deriving DecidableEq, Repr

/-- A checkpoint buffer (R225): sequence number, TS32, registers and scratchpad image, and its CRC-32. -/
structure CpBuffer where
  seq   : BitVec 32
  ts    : Word
  image : CoreImage
  crc   : BitVec 32
  deriving DecidableEq, Repr

/-- The control triad of a tile. -/
structure Triad where
  /-- Mode (R229); reset LOST DESIGN CHOICE: no triad has formed before LOGIC_DIE_RESET_RELEASE (R217). -/
  mode        : TriadMode
  /-- The triad has formed and runs (R217); reset false. -/
  formed      : Bool
  /-- Role of each core, retained (R216); reset ACTIVE, ACTIVE, ACTIVE, SPARE. -/
  roles       : Vector CoreRole 4
  /-- Exclusion count of each core, retained (R216); reset 0. -/
  excl        : Vector Nat 4
  /-- Core numbers at positions 0 to 2 (R235); reset 0, 1, 2. -/
  positions   : Vector (Fin 4) 3
  /-- The core fenced while the signatures are compared (R223); reset none. -/
  fenced      : Option (Fin 4)
  /-- The core that joins and the step of R227 it has reached (R227); reset none. -/
  joining     : Option (Fin 4 × Fin 6)
  /-- Instant of the first disagreement of the join (R235 join_us); reset 0. -/
  joinStart   : Nat
  /-- A join ended within the last 1 ms: the joined core (R228); reset none. -/
  joinedAt    : Option (Fin 4 × Nat)
  /-- A BIST runs: its core, and what asked for it: spare period 0, self-test 1, readmission 2 (R234); reset none. -/
  bist        : Option (Fin 4 × Fin 3)
  /-- The readmission that waits for its BIST (R233); reset none. -/
  readmit     : Option HostCmd
  /-- The core of a readmission whose BIST a core fault aborted, until it is reported FAIL (R236); reset none. -/
  readmitCore : Option (Fin 4)
  /-- Triad writes that the voter holds back, as the commands whose meaning issues them, in their order (R223); reset none. -/
  held        : List Instr
  /-- Private state of each core (R221); reset 0 DESIGN CHOICE. -/
  cores       : Vector CoreImage 4
  /-- The two checkpoint buffers (R225); reset 0 DESIGN CHOICE. -/
  cpBufs      : Vector CpBuffer 2
  /-- Dirty-line map of each core: the scratchpad lines written since the older of the two buffers (R225); reset none. -/
  dirty       : Vector (BitVec 512) 4
  /-- Checkpoint sequence number (R225); reset 0 DESIGN CHOICE. -/
  cpSeq       : BitVec 32
  /-- TS32 of the newer checkpoint (R225); reset 0. -/
  cpTs        : Word
  /-- Single faults masked since manufacture (R235); reset 0. -/
  masked      : BitVec 32
  /-- Instants of the losses of the last 24 h (R231); reset none. -/
  losses      : List Nat
  /-- No further restart until power-on (R231); reset false. -/
  noRestart   : Bool
  /-- Duplex limit (R232): instant of its start; reset none. -/
  duplexSince : Option Nat
  /-- TS32, core, cause, address and data of the last disagreement (R235); reset 0, core 0xFF. -/
  faultTs     : Word
  faultCore   : Byte
  faultCause  : Byte
  faultAddr   : Word
  faultData   : Vector Word 3
  /-- Duration of the last join, µs (R235); reset 0. -/
  joinUs      : Nat
  /-- TS32 of the last BIST, and which cores passed their last BIST (R235); reset 0. -/
  bistTs      : Word
  bistResult  : BitVec 4
  deriving DecidableEq, Repr

/-- States of an RX Sedge connection (R211), in the order of R333. -/
inductive SedgeState where
  | closed | starting | valid | substitute | failed
  deriving DecidableEq, Repr

/-- A Sedge connection (R208 to R213). -/
structure SedgeConn where
  /-- Binding, retained (R209); reset none. -/
  binding   : Option SedgeAddr
  /-- State (R211); reset CLOSED. -/
  state     : SedgeState
  /-- seq of the last accepted frame (R210); reset 0. -/
  lastSeq   : BitVec 16
  /-- TS32 of the last accepted frame (R333); reset 0. -/
  lastTs    : Word
  /-- Instant from which its watchdog runs (R210); reset 0. -/
  wdAt      : Nat
  /-- Payload of the last accepted frame (R211); reset none. -/
  payload   : List Byte
  /-- Consecutive accepted frames counted (R211); reset 0. -/
  run       : Nat
  /-- Counters FAILED, STALE, REPEATED, OUT_OF_ORDER, GAP (R210); reset 0. -/
  counters  : Vector Nat 5
  /-- Instant of the last Sedge-error event per check (R210); reset none. -/
  errAt     : Vector (Option Nat) 5
  /-- Instants of the FAILED counts inside fail_window (R211); reset none. -/
  fails     : List Nat
  /-- Sequence number of the next frame sent (R206); reset 0 DESIGN CHOICE. -/
  txSeq     : BitVec 16
  /-- Frames passed on for a binding to both Ethernet ports whose second copy has not come: seq and port (R245); reset none. -/
  bothSeq   : List (BitVec 16 × EthPort)
  deriving DecidableEq, Repr

/-- Direction and filter of a CAN buffer (R285, R333). -/
structure CanBuffer where
  tx         : Bool
  /-- Owner SEDGE: the connection (R285); reset HOST. -/
  sedge      : Option (Fin 32)
  extended   : Bool
  acceptClassic : Bool
  acceptFd   : Bool
  ident      : Word
  mask       : Word
  /-- 4-bit generation (R285); reset 0 DESIGN CHOICE. -/
  gen        : BitVec 4
  /-- Content of an RX buffer with the TS32 of its start of frame (R285); reset none. -/
  content    : Option (CanFrame × Word)
  /-- The buffer is locked by its reader (R286); reset false. -/
  locked     : Bool
  /-- The shadow entry (R286); reset none. -/
  shadowEnt  : Option (CanFrame × Word)
  /-- OVERRUN counter (R286); reset 0. -/
  overrun    : Nat
  /-- Pending TX content: frame, generation, single-shot, the command (R288); reset none. -/
  pending    : Option (CanFrame × BitVec 4 × Bool × Option HostCmd)
  /-- Content in arbitration or on the wire (R288), with the TS32 of its start; reset none. -/
  inArb      : Option (CanFrame × BitVec 4 × Bool × Option HostCmd × Word)
  /-- Held rewrite (R288); reset none. -/
  heldTx     : Option (CanFrame × BitVec 4 × Bool × Option HostCmd)
  /-- CAN_ABORT waits for the attempt to end (R289); reset false. -/
  abortWait  : Bool
  deriving DecidableEq, Repr

/-- Fault confinement of a CAN controller (R290), in the order of R333. -/
inductive CanState where
  | errorActive | errorPassive | busOff | sleeping
  deriving DecidableEq, Repr

/-- A CAN FD controller (R283 to R291). -/
structure CanCtl where
  /-- Fault-confinement state (R290); reset error-active. -/
  state    : CanState
  /-- Transmit and receive error counters (R290); reset 0. -/
  txErrs   : Nat
  rxErrs   : Nat
  /-- Stuff, form, CRC, bit and acknowledgement error counters (R290); reset 0. -/
  errs     : Vector Nat 5
  /-- Frame-error count of SLEEP_SELECT (R291); reset 0. -/
  wakeErrs : Nat
  /-- Tt_CANc_STB (R283); reset low. -/
  stb      : Bool
  /-- Message buffers (R285); reset: RX, HOST, extended 0, nothing accepted. -/
  bufs     : Vector CanBuffer 64
  deriving DecidableEq, Repr

/-- A LIN master (R292 to R296). -/
structure LinMaster where
  /-- Four schedule tables (R293); reset empty. -/
  tables   : Vector (List LinEntry) 4
  /-- Running table, and the entry of the slot under way (R293); reset none. -/
  running  : Option (Fin 4)
  entry    : Option Nat
  /-- A table selected for the end of the slot (R293); reset none. -/
  selected : Option (Fin 4)
  /-- The master sleeps (R296); reset false. -/
  asleep   : Bool
  /-- The 100 ms after a wake-up: cause of the wake (R296); reset none. -/
  waking   : Option (Fin 2)
  /-- Data-only loads that wait for the next header of their entries: table, entry, data (R339); reset none. -/
  dataLoad : List (Nat × Nat × List Byte)
  /-- A response is awaited for this entry (R294); reset false. -/
  awaiting : Bool
  /-- Error counters: key = 8·entry + error of R294 (R294, R333); reset 0. -/
  counters : SMap
  /-- Consecutive errors per entry (R294): key = 8·entry + 5; panel-silent raised: key = 8·entry + 6; reset 0. -/
  silence  : SMap
  /-- Instant of the last LIN-error event: key = 8·entry + error (R294); reset none. -/
  errAt    : SMap
  /-- Previous good response per entry, as one number plus 1 (R295); key = entry; reset none. -/
  lastGood : SMap
  deriving DecidableEq, Repr

/-- A Peat record (R344): sequence number, type, flags, status, times, source, body, chain value and signature slice. -/
structure PeatRecord where
  seq    : Nat
  type   : Nat
  flags  : Byte
  origin : Byte
  status : Byte
  recNs  : Nat
  ringTs : Word
  source : Source
  body   : List Byte
  prev   : List Byte
  sig    : List Byte
  deriving DecidableEq, Repr

/-- The Peat log of a tile (R344 to R355). -/
structure Peat where
  /-- Sequence number of the next record (R344); reset 0. -/
  nextSeq   : Nat
  /-- Records stored in MRAM, oldest first (R353); reset none. -/
  records   : List PeatRecord
  /-- Chain value for the next record (R350); reset none yet: formed from the serial number at the first record. -/
  chain     : Option (List Byte)
  /-- Entries of the open EVENTS record, 26 bytes each (R348); reset none. -/
  openEvents : List (List Byte)
  /-- Commanding source of the last transition entered in the open EVENTS record (R39, R344); reset TILE. -/
  openSource : Source
  /-- 100 ms of the open EVENTS record (R348); reset idle. -/
  openTimer : Bound
  /-- Blocks closed and not signed, signed and undrained, in order (R351, R354); reset none. -/
  closed    : List Nat
  signed    : List Nat
  /-- Blocks copied to flash: block, sector and records (R353); reset none. -/
  inFlash   : List (Nat × Nat × List PeatRecord)
  /-- Blocks written by a LOG_DRAIN whose completion is not yet written (R354); reset none. -/
  draining  : List Nat
  /-- Entries the triad holds while the service core is absent: type, source, body (R352); reset none. -/
  held      : List (Nat × Source × List Byte)
  /-- Records lost per type 1 to 11, and the record times of the first and last loss (R352, R355); reset 0. -/
  lostCount : Vector Nat 12
  lostFirst : Nat
  lostLast  : Nat
  /-- The log-full event was raised for this run of losses (R355); reset false. -/
  fullSeen  : Bool
  /-- Blocks freed by WRAP and not yet named in a WRAP record (R355); reset none. -/
  wrapped   : List Nat
  deriving DecidableEq, Repr

/-- Reset causes (R381). -/
inductive ResetCause where
  | powerOn | externalRst | brownOut | clock | thermal | supervisor | triadRestart
  deriving DecidableEq, Repr

/-- Firmware, policy and start-up of a logic die. -/
structure Die where
  /-- The logic die is held in reset (R381); reset true: it is released by LOGIC_DIE_RESET_RELEASE. -/
  inReset     : Bool
  /-- Code of the last logic-die reset (R381); reset POWER_ON. -/
  cause       : ResetCause
  /-- Causes that persist and hold the reset: BROWN_OUT, CLOCK, THERMAL (R381); reset none. -/
  holds       : List ResetCause
  /-- Supervisor resets in a row (R382); reset 0. -/
  supervisor  : Nat
  /-- A keep-alive word has left the voter since the release (R382); reset false. -/
  kaSent      : Bool
  /-- Held in reset after three of them (R382); reset false. -/
  heldDown    : Bool
  /-- Boot count (R345); reset 0 DESIGN CHOICE. -/
  bootCount   : Nat
  /-- Slot A verified at the last start, slot B committed (R393); reset false. -/
  fwVerified  : Bool
  fwPending   : Bool
  /-- Contents of slots A and B (R13); reset empty DESIGN CHOICE. -/
  slotA       : List Byte
  slotB       : List Byte
  /-- Total length of the staging under way (R359); reset 0. -/
  stageTotal  : Nat
  /-- Security counter, 0 to 64 (R358); reset 0 DESIGN CHOICE. -/
  secCounter  : Nat
  /-- Active bundle and its verification at the last start or activation (R363); reset none (R362). -/
  bundle      : Option (List Byte)
  policyOk    : Bool
  /-- The active bundle verified at the last start (R393); reset false. -/
  policyStart : Bool
  /-- Staged bundle (R334); reset none. -/
  staged      : Option (List Byte)
  /-- Registered customer key (R362); reset none. -/
  key         : Option (List Byte)
  /-- Local clock at the end of the die's last reset, on the package's count of ns (R237); reset 0. -/
  base        : Nat
  /-- Service core: present, missed heartbeats, restarts with their instants, left off (R27); reset absent while the die is
  in reset. -/
  svc         : Bool
  svcMissed   : Nat
  svcRestarts : List Nat
  svcOff      : Bool
  /-- The tile has reported since its last logic-die reset (R393); reset false. -/
  reported    : Bool
  deriving DecidableEq, Repr

/-- One tile of the package. -/
structure Tile where
  door   : Doorway
  ax     : PerAxis Axis
  field  : FieldDie
  link   : Link
  triad  : Triad
  sedge  : Vector SedgeConn 32
  can    : Vector CanCtl 2
  lin    : Vector LinMaster 2
  peat   : Peat
  die    : Die
  /-- Parameters written by CFG_WRITE and bundles (R330, R331); reset defaults. -/
  written : SMap
  /-- Parameters in force for the tile (R332); reset defaults. -/
  inForce : SMap
  /-- Divided encoder output: source, ratio, accumulator, queued edges, output levels (R92); reset OFF, 1/1, 0, low. -/
  encoSrc  : Option AxisId
  encoN    : Nat
  encoM    : Nat
  encoAcc  : Int
  encoQueue : List Bool
  /-- Instant of the last output edge (R92); reset none. -/
  encoAt   : Option Nat
  encoA    : Bool
  encoB    : Bool
  deriving DecidableEq, Repr

/-- A clock of the TSU other than the local one (R237): its count of ns, its rate in units of 2⁻⁴⁰ and the fraction of a ns
in units of 2⁻⁴⁰. -/
structure Clock where
  ns   : Nat
  rate : Int
  frac : Nat
  deriving DecidableEq, Repr

/-- Record-time states (R249). -/
inductive RecState where
  | unset | locked | holdover | stepPending
  deriving DecidableEq, Repr

/-- A PTP port (R246 to R248) and Ethernet port (R243). -/
structure EthPortState where
  /-- Link up and its speed (R243); reset down. -/
  up        : Bool
  speed     : Nat
  /-- Latency and asymmetry registers (R247); reset 0. -/
  lat       : Word
  asym      : Word
  /-- Masters heard on the port with the Announces counted (R246); reset none. -/
  foreign   : List (Announce × Nat)
  /-- A Sync that waits for its Follow_Up: sender, sequence number, corrected ingress stamp (R246, R247); reset none. -/
  sync      : Option (BitVec 64 × Nat × Int)
  /-- The Delay_Req in flight: sequence number and corrected egress stamp (R246, R247); reset none. -/
  delayReq  : Option (Nat × Int)
  /-- The Sync-side difference of the last exchange, for the path delay (R246); reset 0. -/
  syncDiff  : Int
  /-- The Pdelay exchange: request stamp t1, answer t2, t4 (R246); reset none. -/
  pdelay    : Option (Nat × Int × Int × Int)
  /-- Latest path delay, ns (R249); reset 0 DESIGN CHOICE. -/
  path      : Int
  seqNum    : Nat
  /-- ARP entries: address and MAC (R243); addresses being resolved with their attempts and the frames that wait; instants of
  the echo replies of the last second; reset none. -/
  arp       : List (Word × BitVec 48)
  arpTry    : List (Word × Nat × List (List Byte))
  echoes    : List Nat
  deriving DecidableEq, Repr

/-- A timer output (R254). -/
structure Timer where
  armed    : Bool
  ring     : Bool
  low      : Bool
  start    : Nat
  period   : Nat
  width    : Nat
  count    : Nat
  fired    : Nat
  compat   : Bool
  next     : Nat
  outHigh  : Bool
  inPulse  : Bool
  missed   : Nat
  /-- Polarity of the pulse under way, LOW from a high idle (R254, R343). -/
  pulseLow : Bool
  deriving DecidableEq, Repr

/-- The time base of the package head. -/
structure TimeBase where
  /-- Package count of ns since reset: the local clock of a die is this less its base (R237); reset 0. -/
  local_     : Nat
  /-- Record clock (R237); reset 0, rate 0. -/
  record     : Clock
  /-- Ring clock (R237); reset 0, rate 0. -/
  ring       : Clock
  /-- Phase correction still to be applied to the ring clock, in units of 2⁻⁴⁰ ns (R252); reset 0. -/
  ringPhase  : Int
  /-- What is left of the double cycle over which it is applied, ns (R252); reset 0. -/
  phaseLeft  : Nat
  /-- Record-time state (R249); reset UNSET. -/
  recState   : RecState
  /-- Record time has locked since the last reset (R249); reset false. -/
  everLocked : Bool
  /-- HOLDOVER has lasted longer than holdover_max (R251); reset false. -/
  holdLong   : Bool
  /-- Grandmaster identity and the port selected (R246, R249); reset none. -/
  gm         : Option (BitVec 64)
  slave      : Option EthPort
  /-- Refused offsets in a row, and refusals counted (R249); reset none. -/
  refused    : List Int
  refusals   : Nat
  /-- Step number, pending offset, armed (R249); reset 0, none, false. -/
  stepNum    : Word
  stepOffset : Option Int
  stepArmed  : Bool
  /-- Ring time synchronised at the last change (R253); reset false. -/
  ringSync   : Bool
  /-- Last offset o of the ring servo (R252); reset 0. -/
  ringOffset : Int
  /-- Steps since the previous epoch mark: record, ring (R241); reset false. -/
  recStepped  : Bool
  ringStepped : Bool
  /-- IFC_CTL.compat_rk and the strap level (R256); reset 0 DESIGN CHOICE for the strap. -/
  compatRk   : Bool
  compatStrap : Bool
  /-- Ethernet ports (R243). -/
  eth0       : EthPortState
  eth1       : EthPortState
  /-- Timer outputs (R254); reset not armed, low. -/
  timers     : Vector Timer 8
  /-- A Boardwalk route change: record time counts as HOLDOVER until the delays are measured (R374); reset false. -/
  routeHold  : Bool
  deriving DecidableEq, Repr

/-- Node states of Causeway, in the order of R271. -/
inductive CwyState where
  | disabled | listen | coldstart | backoff | integrate | active
  deriving DecidableEq, Repr

/-- Ring modes (R260). -/
inductive CwyMode where
  | normal | notice | healed | repair
  deriving DecidableEq, Repr

/-- The Causeway node of the package head (R259 to R282). -/
structure Causeway where
  /-- Node state (R271); reset DISABLED. -/
  state      : CwyState
  /-- Ring mode and countdown (R260); reset NORMAL, 0. -/
  mode       : CwyMode
  countdown  : Nat
  /-- The NOTICE in force is one that this node declared itself (R278); reset false. -/
  ownNotice  : Bool
  /-- The cycle `cycle` has come to its NIT, and nothing of the next one has happened yet (R281); reset false. -/
  inNit      : Bool
  /-- H is raised to N − 1 (R277, R280); reset false. -/
  healed     : Bool
  /-- Node and slot tables in force, as bytes (R263); reset all 0. -/
  nodeTable  : SMap
  slotTable  : SMap
  /-- Node and slot tables as last written (R262); reset all 0. -/
  nodeNew    : SMap
  slotNew    : SMap
  /-- A table or parameter write takes the node off the ring at the next NIT (R262); reset false. -/
  restart    : Bool
  /-- Cycle number (R260); reset 0. -/
  cycle      : Nat
  /-- Slots delivered in the current cycle, and those whose copy was not ready (R268); reset none. -/
  seen       : List Nat
  notReady   : List Nat
  /-- Transmit buffers: slot, the instant at which its data was complete, and data (R265); reset none. -/
  txBuf      : List (Nat × Nat × List Byte)
  /-- Deviations of sync nodes in this double cycle: origin and deviation (R269); reset none. -/
  devs       : List (Nat × Int)
  /-- Integration: cycles watched, this cycle's checks (R274); reset 0, true, false. -/
  intCycles  : Nat
  intOk      : Bool
  intSync    : Bool
  /-- The integrating node has its first frame (R274); reset false. -/
  aligned    : Bool
  /-- COLDSTART: cycles in a row with a frame from another node (R275), heard in this cycle; reset 0, false. -/
  csCycles   : Nat
  heardOther : Bool
  heardSync  : Bool
  heardAny   : Bool
  /-- Cold-start frames heard since the wait in LISTEN began: origin and instant of each (R273); reset none. -/
  csHeard    : List (Nat × Nat)
  /-- The cold-start slot of cycle 0 has not ended (R273); reset false. -/
  csFirst    : Bool
  /-- Cycles in a row without a sync frame of another node, or any frame in INTEGRATE (R275, R271); reset 0. -/
  silent     : Nat
  /-- LOS on each port (R277), the link of each port declared broken (R277), H sent on it (R277, R280), the loop of each
  port closed (R278); reset false. -/
  los        : Bool × Bool
  broken     : Bool × Bool
  sendH      : Bool × Bool
  loop       : Bool × Bool
  /-- Nodes that flag themselves as loop nodes (R267); reset none. -/
  loopNodes  : List Nat
  /-- Cycles in a row with code-groups, then with I, on the broken link of each port (R280); reset 0. -/
  repairRun  : Nat × Nat
  /-- Own frames cut short in this and the last cycle (R276); reset false. -/
  cutNow     : Bool
  cutLast    : Bool
  /-- Guardian alignment of the cycle start, ring ns (R276); reset 0. -/
  guardian   : Int
  /-- Cycle starts given by valid sync frames of other nodes in this cycle (R276); reset none. -/
  guardStarts : List Int
  /-- EMPTY and NOT_READY per slot: key 2·slot and 2·slot + 1 (R268); reset 0. -/
  slotCounts : SMap
  /-- Instant of the last slot-empty event per slot (R268); reset none. -/
  emptyAt    : SMap
  /-- Port A INVALID, LOS, port B INVALID, LOS, TRUNCATED, DROP_OUT, COLLISION (R268); reset 0. -/
  counters   : Vector Nat 7
  /-- schedule-mismatch raised in this LISTEN (R282); reset false. -/
  mismatch   : Bool
  deriving DecidableEq, Repr

/-- A ring of host memory and its registers (R300, R390). -/
structure Ring where
  /-- BASE (R390); reset 0. -/
  base       : BitVec 64
  /-- CTL.enable (R390); reset 0. -/
  enabled    : Bool
  /-- CTL.size_log2 (R390); reset 4. -/
  sizeLog2   : Nat
  /-- CTL.cq of a command queue, CTL.vector of the others (R390); reset 0. -/
  route      : Nat
  /-- CTL.prio (R390); reset 0. -/
  prio       : Nat
  /-- IMOD.imod_count and imod_time (R390); reset 1, 0. -/
  imodCount  : Nat
  imodTime   : Nat
  /-- FILTER (R390); reset tiles 0xFFFF, heads 0xF, classes 0x1F. -/
  tiles      : BitVec 16
  heads      : BitVec 4
  classes    : BitVec 5
  /-- STATE.dev_index, host_index, phase, stopped, busy (R390); reset 0, 0, 1, 0, 0. -/
  devIndex   : Nat
  hostIndex  : Nat
  phase      : Bool
  stopped    : Bool
  busy       : Bool
  /-- RESV.reserved_entries (R390); reset 0. -/
  reserved   : Nat
  /-- Records not yet signalled (R312); reset 0. -/
  unsignalled : Nat
  /-- Events dropped since the last record (R310); reset 0. -/
  lost       : Nat
  /-- Continuous record ns of the last epoch mark on the ring (R242); reset none. -/
  markAt     : Option Nat
  /-- Steps whose epoch mark the full ring holds back: record, ring (R241, R258); reset false. -/
  recHeld    : Bool
  ringHeld   : Bool
  deriving DecidableEq, Repr

/-- A command fetched and not completed (R306, R307). -/
structure Outstanding where
  queue     : Fin 32
  tag       : Word
  opcode    : Nat
  flags     : Byte
  target    : Word
  sqHead    : Nat
  notBefore : Word
  /-- Held for its not-before time or behind such a command (R305, R307). -/
  waiting   : Bool
  /-- Held behind such a command, and so not yet passed on to its tile's service core (R305, R307, R309). -/
  behind    : Bool
  /-- Accepted by the triad (R316). -/
  accepted  : Bool
  /-- Lost with its tile's service core or logic die (R320). -/
  lost      : Bool
  /-- The session it was fetched in (R313). -/
  session   : Word
  /-- Forwarded to this other board package and not yet acknowledged, or acknowledged (R371). -/
  forwarded : Option (Fin 4 × Bool)
  /-- Came from the board head over Boardwalk (R371). -/
  remote    : Bool
  /-- Its descriptor, and the log blocks of a forwarded LOG_DRAIN that were written to host memory: tile and block (R371). -/
  desc      : List Byte
  blocks    : List (Nat × Nat)
  /-- host_id of its session (R314, R349). -/
  hostId    : BitVec 64 := 0
  /-- The completion ring in which an entry is reserved for it (R306). -/
  cplRing   : Fin 32 := 0
  /-- The number of its forwarding (R371; log entry 17). -/
  seq       : Word := 0
  deriving DecidableEq, Repr

/-- The host interface of the package head. -/
structure HostIf where
  /-- HIF_STATUS.ready (R299); reset 0. -/
  ready       : Bool
  /-- Session open, its number, version and host_id (R313, R314); reset none, 0. -/
  sessionOpen : Bool
  session     : Word
  version     : BitVec 16
  hostId      : BitVec 64
  /-- Command queues, completion rings, event rings (R300). -/
  cmdq        : Vector Ring 32
  cpl         : Vector Ring 32
  evt         : Vector Ring 8
  /-- MSI-X table words: key = word index of the 64 entries of four words (R387); reset entry 0, masked. -/
  msix        : SMap
  /-- Pending-bit array (R387); reset 0. -/
  pba         : BitVec 64
  /-- Commands fetched and not completed (R306); reset none. -/
  outstanding : List Outstanding
  /-- Queues at whose head a fenced command waits for everything earlier of the queue (R305); reset none. -/
  fenced      : List (Fin 32)
  /-- BYE was fetched and nothing else is fetched (R317); reset none. -/
  bye         : Option HostCmd
  /-- The queue served last at each priority (R306); reset 31 DESIGN CHOICE: queue 0 comes first. -/
  lastServed  : Vector Nat 4
  /-- Low halves of 64-bit registers waiting for their high word: register offset and value (R386); reset none. -/
  lowWord     : Option (Nat × Word)
  /-- The number of the next forwarding over Boardwalk (R371; log entry 17); reset 0 DESIGN CHOICE. -/
  nextSeq     : Word
  deriving DecidableEq, Repr

/-- The state of the PCIe function (R298, R394). No command of the table writes the configuration space, so it stands as an endpoint reset
leaves it (log entry 50). -/
structure Pcie where
  /-- The function is in D3hot, in which it takes no memory access (R298); reset D0 PRESUMED (PCIe). -/
  d3hot      : Bool
  /-- Max payload size and max read request in bytes (R298); reset 128, 512 PRESUMED (PCIe). -/
  maxPayload : Nat
  maxRead    : Nat
  /-- Uncorrectable and correctable error status of AER (R298, R394); reset 0 PRESUMED (PCIe). -/
  aerUncorr  : Word
  aerCorr    : Word
  deriving DecidableEq, Repr

/-- Boardwalk port states (R375). -/
inductive BwkPortState where
  | down | training | up | strapFailed
  deriving DecidableEq, Repr

/-- Boardwalk and the board (R365 to R377). -/
structure Board where
  /-- Straps of this package (R367), sampled at power good; reset low DESIGN CHOICE. -/
  straps      : Straps
  /-- Port states (R375); reset DOWN. -/
  ports       : Vector BwkPortState 2
  /-- Straps reported by the neighbour on each port (R367); reset none. -/
  neighbours  : Vector (Option Straps) 2
  /-- Measured one-way delay of each link, 100 ps, 0xFFFF while not measured (R392); reset 0xFFFF. -/
  delays      : Vector Nat 2
  /-- BWK_STATUS.present, reachable, strap_fault, link_changes (R375); reset 0. -/
  present     : BitVec 4
  reachable   : BitVec 4
  strapFault  : Bool
  linkChanges : Nat
  /-- Packages numbered at start-up (R389); reset 0. -/
  packages    : Nat
  /-- Board tiles that have reported since power-on, and those that report now (R377, R389); reset 0. -/
  tilesPresent : BitVec 16
  tilesUp      : BitVec 16
  /-- Completions, log blocks and lost commands kept until acknowledged (R320, R371); reset none. -/
  keep        : List (BwkRef × BwkPayload)
  /-- Acknowledgements repeated until confirmed (R371); reset none. -/
  acks        : List BwkRef
  /-- On a package that is not the board head, the port on which the head's frames last came, the route in force (R371); reset 0
  DESIGN CHOICE. -/
  headPort    : Fin 2
  /-- Instants of the frames with link CRC errors of the last 1 ms, per port (R370); reset none. -/
  crcErrors   : Vector (List Nat) 2
  /-- The straps of the other packages as they have been told, by serial number (R367, R369); reset none. -/
  known       : List (BitVec 64 × Straps)
  /-- The first training of a port is under way (R376 step 4); reset false. -/
  trying      : Vector Bool 2
  /-- Packages whose state report has come since the start of the board head (R376 step 10), and those with a timer armed (R389); reset 0. -/
  heard       : BitVec 4
  timersArmed : BitVec 4
  deriving DecidableEq, Repr

/-- The resume inputs at the head (R198, R199). -/
structure Resume where
  level    : Bool
  /-- Instant of its last rise and fall (R198); reset none. -/
  rise     : Option Nat
  fall     : Option Nat
  fell     : Bool
  deriving DecidableEq, Repr

/-- A message that left the block on one of its ports, for the record of outputs. -/
inductive Output where
  | can (t : TileId) (c : Fin 2) (f : CanFrame)
  | lin (t : TileId) (l : Fin 2) (breakBits id : Nat) (response : List Byte)
  | eth (p : EthPort) (body : List Byte)
  | phyControl (p : EthPort) (address speed : Nat)
  | causeway (p : CwyPort) (groups : List CodeGroup)
  | boardwalk (port : Fin 2) (f : BwkFrame)
  | msix (vector : Nat)
  | timer (tpo : Nat) (high : Bool)
  | enco (t : TileId) (a b : Bool)
  | linkControl (p : CwyPort) (breakIdle : Bool)
  | sedgeFabric (t : TileId) (peer : Nat) (frame : List Byte)
  | toTriad (t : TileId) (conn : Nat) (frame : List Byte)
  | cyclePoint (t : TileId) (i cycle : Nat) (ringSync : Bool)
  deriving DecidableEq, Repr

/-- The head of the package: blocks that exist once (R19). -/
structure Head where
  time    : TimeBase
  cwy     : Causeway
  host    : HostIf
  pcie    : Pcie
  board   : Board
  /-- Debounced seal switch word (R193); reset 0 DESIGN CHOICE. -/
  sealSw  : BitVec 16
  /-- Resume inputs (R198); reset low. -/
  resA    : Resume
  resB    : Resume
  /-- An edge-reset attempt runs (R198); reset false. -/
  attempt : Bool
  /-- A stuck reset stands, and was raised at power-on (R199); reset false. -/
  stuck   : Bool
  stuckPower : Bool
  /-- Package identity: serial number (R356); reset 0 DESIGN CHOICE. -/
  serial  : BitVec 64
  /-- Sectors of the log flash, 0 when there is none (R353); reset 0 DESIGN CHOICE. -/
  flashSectors : Nat
  /-- Sectors in use: sector, its tile and how many of its four places are used (R353); sectors marked bad; reset none. -/
  sectors : List (Nat × TileId × Nat)
  badSectors : List Nat
  /-- The log-high event was raised (R355); reset false. -/
  logHigh : Bool
  /-- Blocks waiting for the signature engine in order of closing: tile and block (R351); reset none. -/
  signQueue : List (TileId × Nat)
  /-- Signed undrained blocks in order of signing (R354); reset none. -/
  drainQueue : List (TileId × Nat)
  deriving DecidableEq, Repr

/-- The whole block. -/
structure State where
  /-- The part (R1); reset ZK8608 DESIGN CHOICE. -/
  part    : Part
  tiles   : PerTile Tile
  head    : Head
  /-- Host memory as the rings and buffers in it are written (R300); an unlisted byte reads 0 DESIGN CHOICE. -/
  hostMem : List Host.Cell
  /-- BAR0 windows, as last refreshed (R386): key = byte offset of the word; reset 0. -/
  windows : SMap
  /-- Power good (R379), supplies and reference (R378, R385); reset true DESIGN CHOICE. -/
  powerGood : Bool
  refOk   : Bool
  /-- What left the ports, newest first: the record of outputs (model's own); reset none. -/
  out     : List Output
  /-- The counter that free values are drawn with (model's own); reset 0 DESIGN CHOICE. -/
  freeCtr : Nat
  /-- Commands that wait, first in, first out (model's own); reset none. -/
  pending : List Instr
  deriving DecidableEq, Repr

/-- Feedback of an axis after reset. -/
def Feedback.reset : Feedback where
  pos := 0
  referenced := false
  u := 0
  qerr := 0
  qerrWindow := []
  dirFlag := false
  dirExtreme := 0
  dirTurn := 0
  dirTs := 0
  dirChanges := 0
  dirHoldoff := false
  dirPending := false
  indexPhase := none
  indexErr := none
  hallCode := 4
  hallLast := 4
  hallSkipped := false
  hallSkips := 0
  hallForbid := false
  causes := []
  lostByReset := false
  swRaw := ⟨true, true, true⟩
  swLevel := ⟨true, true, true⟩
  latchActive := 0
  latchInactive := 0
  chatter := []
  suspect := false
  ssiLast := none
  ssiLastAt := 0
  ssiRun := 0
  ssiWindow := []
  ssiCount := 0
  ssiLatch := none
  ssiLatchAt := 0
  ssiLatchTs := 0
  ssiIdleBad := false

/-- Motion of an axis after reset: BRAKE, no move, the trip pair undriven and therefore read as asserted (R164). -/
def Motion.reset : Motion where
  bridge := .brake
  move := none
  planVel := 0
  planAcc := 0
  planPos := 0
  planFrac := 0
  profVel := 0
  profAcc := 0
  slowSince := none
  feSince := none
  iqRef := 0
  idRef := 0
  elecAngle := 0
  elecOff := none
  speed := 0
  iq := 0
  duty := (0, 0, 0)
  vbus := 0
  decelLimited := false
  aligned := false
  aligning := false
  tripTriad := true
  tripEngine := false
  freeDelay := false
  tripNote := none
  zone := 0
  vLim := none
  fLim := none
  persist := 0
  satCount := 0
  fEst := 0
  envelope := 0
  contact := none
  contactDeployed := false
  senseFault := false
  trace := []
  tripTail := []
  clearOwed := false
  wire := 0
  extPending := 0
  extPeriod := 0
  extAt := 0
  extDone := 0
  extAcc := 0
  extIgnored := 0
  extReported := false
  homeStage := none
  homeTries := 0
  tHomeMax := .idle
  revTarget := none
  revStarted := false

/-- No pass. -/
def Pass.reset : Pass where
  active := false
  begun := false
  stepCmd := false
  door := .locked
  t07 := false
  start := 0
  armedOpen := 0
  armedClose := 0
  clean := false
  bins := []
  peak := 0
  bound := none
  boundTime := .idle
  record := []
  recordAt := 0

/-- The trip fabric after reset: both wires of the pair read asserted (R164). -/
def Fabric.reset : Fabric where
  path1 := true
  path2 := true
  tripped := true
  edgeEn := true
  overcurrent := false
  fault := false

/-- An axis after reset. -/
def Axis.reset : Axis where
  fb := Feedback.reset
  mo := Motion.reset
  pa := Pass.reset
  fab := Fabric.reset
  inForce := []
  soundings := []
  shadow := []
  detect := []
  shadowSums := []
  shadowClean := (0, 0)
  shadowEnded := (0, 0)
  calSums := []

/-- A self-test part that was not requested. -/
def PartState.reset : PartState where
  requested := false
  running := false
  result := none
  detail := 0
  ts := 0

/-- The doorway after power-on reset. In the factory state no bundle is active, so fault 0x05 is pending and the state
is FAULT_SAFE (R42 row 1, R362, R363). -/
def Doorway.reset : Doorway where
  st := .faultSafe
  mailbox := []
  hostRelease := false
  lastTrans := 0
  demPanelOpen := false
  demAutoOpen := false
  demSedgeOpen := []
  demSedgeClose := []
  egress := false
  egressSeen := false
  egressPend := false
  egressOpening := false
  tUnlock := .idle
  tOpenMax := .idle
  tWarn := .idle
  tCloseMax := .idle
  tLock := .idle
  tNudgeMax := .idle
  tOpenDwell := .idle
  tStepMax := .idle
  tRevMax := .idle
  tBrakeMax := .idle
  tDwell := .idle
  firstWait := none
  nudgeWait := false
  yieldFrom := none
  tripZone := 0
  revKind := none
  holdWait := false
  holdPanel := false
  trips := []
  stakeActs := []
  stakeExpired := []
  refused := []
  stepStopped := false
  by_ := .tile
  isoFaults := []
  posLost := false
  panelFlag := false
  panelNew := false
  lockWindow := false
  obstructions := []
  homing := none
  homeFault := none
  homeFailed := false
  isolatedLeft := false
  releaseSeen := false
  zeroSeen := false
  leafSeen := false
  lockSeen := false
  latched := []
  pendingSeen := [5]
  isoFaultSeen := false
  egrFaultSeen := false
  tlDisc := (false, false)
  proofFailed := none
  ls0At := none
  sraCmd := false
  rows12 := false
  proofOk := false
  proofRun := false
  proofDue := false
  proofPhase := 0
  proofBad := none
  proofSelf := false
  proofOld := false
  proofDisagree := false
  eccBad := false
  sraDisagree := false
  duplexDue := false
  edgeReset := false
  cal := .idle
  calPermitMax := .idle
  calRest := .idle
  calEndMax := .idle
  shadow := .none
  shadowAccept := none
  selftest := none
  parts := Vector.replicate 8 PartState.reset
  stDwellMax := .idle
  cycleOpen := false
  cycleTimes := Vector.replicate 7 none
  srcOpen := .tile
  srcClose := .tile
  peakOpen := (0, .A)
  peakClose := (0, .A)
  cycleEgress := false
  traceOpen := []
  traceClose := []
  closePass := []
  openByT07 := false
  activating := none

/-- A load-switch channel after power-on (R151, R161); `thr` is its default oc_thr. -/
def LsChannel.reset (thr : Nat) : LsChannel where
  line := false
  pin := false
  ocLatch := false
  thLatch := false
  thDown := false
  restarts := []
  blanking := false
  offThr := 0
  offAt := none
  ocThr := thr
  tInrush := 10
  openLoad := false
  shortVbat := false
  offCurrent := false
  checking := false
  code := 0
  isOn := false

/-- An IO pin after power-on: its debounced level is the inactive level (R168). -/
def IoPin.reset (inactive : Bool) : IoPin where
  raw := false
  level := inactive
  cmd := false
  stuckHigh := false
  mismatch := false
  thermal := false
  noPulse := false
  foreign := false
  ownFails := 0
  ownPasses := 0
  othFails := 0
  othPasses := 0
  before := false
  wentLow := false
  returned := false

/-- A pair after power-on. -/
def Pair.reset : Pair where
  status := .inactive
  discLatch := false

/-- The field die after power-on: the fallback image applied, every slot blank (R161, R162). -/
def FieldDie.reset : FieldDie where
  lswOn := true
  fioOn := true
  vdrvOk := true
  busComp := false
  vioOk := true
  ls := (Vector.replicate 10 (LsChannel.reset 3000)).set 9 (LsChannel.reset 10000)
  undervolt := false
  groupHeat := false
  io := ((Vector.replicate 16 (IoPin.reset false)).set 8 (IoPin.reset true)).set 9 (IoPin.reset true)
  tlRaw := Vector.replicate 4 false
  tlLevel := Vector.replicate 4 false
  pLeaf := Pair.reset
  pLock := Pair.reset
  pEgress := Pair.reset
  pIso := Pair.reset
  tpPulse := (false, false)
  tpFault := (false, false)
  tpWindow := (false, false)
  sra := false
  srb := false
  bittern := .openSt
  bitLow := 0
  bitForeign := Vector.replicate 4 none
  proofs := 0
  bitConfig := none
  cfgBuf := []
  duty := ⟨(0, 0, 0), (0, 0, 0), (0, 0, 0)⟩
  pwm := ⟨false, false, false⟩
  onTest := 0
  gateTest := false
  force := 0
  wdLast := none
  wdRun := 0
  fallback := true
  images := []

/-- What the logic die knows of the field die before the first up-frame. -/
def UpView.reset : UpView where
  pLeaf := .inactive
  pLock := .inactive
  pEgress := .inactive
  pIso := .inactive
  tlLevel := Vector.replicate 4 false
  ioRaw := 0
  ioLevel := 0x300
  tlRaw := 0
  path1 := ⟨true, true, true⟩
  path2 := ⟨true, true, true⟩
  bittern := .openSt
  proofs := 0
  bitConfig := none
  fallback := true
  sra := false
  srb := false
  sraFb := false
  gatesOff := ⟨false, false, false⟩
  currents := ⟨(0, 0, 0), (0, 0, 0), (0, 0, 0)⟩
  vbus := 0
  wdRun := 0
  pinFlags := Vector.replicate 16 0
  tpFault := (false, false)
  vioLow := false
  lsCodes := Vector.replicate 10 0
  lsFlags := Vector.replicate 10 0
  lsChecking := 0
  fabFault := ⟨false, false, false⟩
  ts := 0

/-- The field link after reset. -/
def Link.reset : Link where
  up := UpView.reset
  missed := 0
  faultAt := none
  lsCmd := 0
  ioCmd := 0
  clear := ⟨false, false, false⟩
  keepAlive := false
  kaCount := 0
  kaWord := none
  lsClear := 0
  ioClear := 0
  lsCheck := 0
  lsAwait := 0
  onTest := 0
  gateTest := false
  release := false
  sendConfig := false
  cfgNext := 0

/-- The triad before its first start (R216, R217). -/
def Triad.reset : Triad where
  mode := .lost
  formed := false
  roles := #v[.active, .active, .active, .spare]
  excl := Vector.replicate 4 0
  positions := #v[0, 1, 2]
  fenced := none
  joining := none
  joinStart := 0
  joinedAt := none
  bist := none
  readmit := none
  readmitCore := none
  held := []
  cores := Vector.replicate 4 ⟨0, 0, 0⟩
  cpBufs := Vector.replicate 2 ⟨0, 0, ⟨0, 0, 0⟩, 0⟩
  dirty := Vector.replicate 4 0
  cpSeq := 0
  cpTs := 0
  masked := 0
  losses := []
  noRestart := false
  duplexSince := none
  faultTs := 0
  faultCore := 0xFF
  faultCause := 0
  faultAddr := 0
  faultData := Vector.replicate 3 0
  joinUs := 0
  bistTs := 0
  bistResult := 0

/-- A Sedge connection with no binding (R211). -/
def SedgeConn.reset : SedgeConn where
  binding := none
  state := .closed
  lastSeq := 0
  lastTs := 0
  wdAt := 0
  payload := []
  run := 0
  counters := Vector.replicate 5 0
  errAt := Vector.replicate 5 none
  fails := []
  txSeq := 0
  bothSeq := []

/-- A CAN buffer after reset. -/
def CanBuffer.reset : CanBuffer where
  tx := false
  sedge := none
  extended := false
  acceptClassic := false
  acceptFd := false
  ident := 0
  mask := 0
  gen := 0
  content := none
  locked := false
  shadowEnt := none
  overrun := 0
  pending := none
  inArb := none
  heldTx := none
  abortWait := false

/-- A CAN controller after reset. -/
def CanCtl.reset : CanCtl where
  state := .errorActive
  txErrs := 0
  rxErrs := 0
  errs := Vector.replicate 5 0
  wakeErrs := 0
  stb := false
  bufs := Vector.replicate 64 CanBuffer.reset

/-- A LIN master after reset. -/
def LinMaster.reset : LinMaster where
  tables := Vector.replicate 4 []
  running := none
  entry := none
  selected := none
  asleep := false
  waking := none
  dataLoad := []
  awaiting := false
  counters := []
  silence := []
  errAt := []
  lastGood := []

/-- The Peat log at manufacture (R344). -/
def Peat.reset : Peat where
  nextSeq := 0
  records := []
  chain := none
  openEvents := []
  openSource := .tile
  openTimer := .idle
  closed := []
  signed := []
  inFlash := []
  draining := []
  held := []
  lostCount := Vector.replicate 12 0
  lostFirst := 0
  lostLast := 0
  fullSeen := false
  wrapped := []

/-- A logic die at power-on, not yet released (R381, R382), in the factory state (R362). -/
def Die.reset : Die where
  inReset := true
  cause := .powerOn
  holds := []
  supervisor := 0
  kaSent := false
  heldDown := false
  bootCount := 0
  fwVerified := false
  fwPending := false
  slotA := []
  slotB := []
  stageTotal := 0
  secCounter := 0
  bundle := none
  policyOk := false
  policyStart := false
  staged := none
  key := none
  base := 0
  svc := false
  svcMissed := 0
  svcRestarts := []
  svcOff := false
  reported := false

/-- A tile after power-on reset. -/
def Tile.reset : Tile where
  door := Doorway.reset
  ax := PerAxis.all Axis.reset
  field := FieldDie.reset
  link := Link.reset
  triad := Triad.reset
  sedge := Vector.replicate 32 SedgeConn.reset
  can := Vector.replicate 2 CanCtl.reset
  lin := Vector.replicate 2 LinMaster.reset
  peat := Peat.reset
  die := Die.reset
  written := []
  inForce := []
  encoSrc := none
  encoN := 1
  encoM := 1
  encoAcc := 0
  encoQueue := []
  encoAt := none
  encoA := false
  encoB := false

/-- A clock at 0 with no correction (R237). -/
def Clock.reset : Clock where
  ns := 0
  rate := 0
  frac := 0

/-- An Ethernet port after reset: down, registers 0 (R243, R247). -/
def EthPortState.reset : EthPortState where
  up := false
  speed := 0
  lat := 0
  asym := 0
  foreign := []
  sync := none
  delayReq := none
  syncDiff := 0
  pdelay := none
  path := 0
  seqNum := 0
  arp := []
  arpTry := []
  echoes := []

/-- A timer output after reset: not armed, low (R254). -/
def Timer.reset : Timer where
  armed := false
  ring := false
  low := false
  start := 0
  period := 0
  width := 0
  count := 0
  fired := 0
  compat := false
  next := 0
  outHigh := false
  inPulse := false
  missed := 0
  pulseLow := false

/-- The time base after reset (R237, R249). -/
def TimeBase.reset : TimeBase where
  local_ := 0
  record := Clock.reset
  ring := Clock.reset
  ringPhase := 0
  phaseLeft := 0
  recState := .unset
  everLocked := false
  holdLong := false
  gm := none
  slave := none
  refused := []
  refusals := 0
  stepNum := 0
  stepOffset := none
  stepArmed := false
  ringSync := false
  ringOffset := 0
  recStepped := false
  ringStepped := false
  compatRk := false
  compatStrap := false
  eth0 := EthPortState.reset
  eth1 := EthPortState.reset
  timers := Vector.replicate 8 Timer.reset
  routeHold := false

/-- The Causeway node after reset: DISABLED (R271). -/
def Causeway.reset : Causeway where
  state := .disabled
  mode := .normal
  countdown := 0
  ownNotice := false
  inNit := false
  healed := false
  nodeTable := []
  slotTable := []
  nodeNew := []
  slotNew := []
  restart := false
  cycle := 0
  seen := []
  notReady := []
  txBuf := []
  devs := []
  intCycles := 0
  intOk := true
  intSync := false
  aligned := false
  csCycles := 0
  heardOther := false
  heardSync := false
  heardAny := false
  csHeard := []
  csFirst := false
  silent := 0
  los := (false, false)
  broken := (false, false)
  sendH := (false, false)
  loop := (false, false)
  loopNodes := []
  repairRun := (0, 0)
  cutNow := false
  cutLast := false
  guardian := 0
  guardStarts := []
  slotCounts := []
  emptyAt := []
  counters := Vector.replicate 7 0
  mismatch := false

/-- A ring at its reset values (R390). -/
def Ring.reset : Ring where
  base := 0
  enabled := false
  sizeLog2 := 4
  route := 0
  prio := 0
  imodCount := 1
  imodTime := 0
  tiles := 0xFFFF
  heads := 0xF
  classes := 0x1F
  devIndex := 0
  hostIndex := 0
  phase := true
  stopped := false
  busy := false
  reserved := 0
  unsignalled := 0
  lost := 0
  markAt := none
  recHeld := false
  ringHeld := false

/-- The host interface after reset (R388, R389). -/
def HostIf.reset : HostIf where
  ready := false
  sessionOpen := false
  session := 0
  version := 0
  hostId := 0
  cmdq := Vector.replicate 32 Ring.reset
  cpl := Vector.replicate 32 Ring.reset
  evt := Vector.replicate 8 Ring.reset
  msix := []
  pba := 0
  outstanding := []
  fenced := []
  bye := none
  lastServed := Vector.replicate 4 31
  lowWord := none
  nextSeq := 0

/-- The PCIe function after a reset of the endpoint (R298). -/
def Pcie.reset : Pcie where
  d3hot := false
  maxPayload := 128
  maxRead := 512
  aerUncorr := 0
  aerCorr := 0

/-- Boardwalk after power-on (R375, R392). -/
def Board.reset : Board where
  straps := ⟨false, false, 0⟩
  ports := Vector.replicate 2 .down
  neighbours := Vector.replicate 2 none
  delays := Vector.replicate 2 0xFFFF
  present := 0
  reachable := 0
  strapFault := false
  linkChanges := 0
  packages := 0
  tilesPresent := 0
  tilesUp := 0
  keep := []
  acks := []
  headPort := 0
  crcErrors := Vector.replicate 2 []
  known := []
  trying := Vector.replicate 2 false
  heard := 0
  timersArmed := 0

/-- A resume input after power-on: low (R198). -/
def Resume.reset : Resume where
  level := false
  rise := none
  fall := none
  fell := false

/-- The head after power-on. -/
def Head.reset : Head where
  time := TimeBase.reset
  cwy := Causeway.reset
  host := HostIf.reset
  pcie := Pcie.reset
  board := Board.reset
  sealSw := 0
  resA := Resume.reset
  resB := Resume.reset
  attempt := false
  stuck := false
  stuckPower := false
  serial := 0
  flashSectors := 0
  sectors := []
  badSectors := []
  logHigh := false
  signQueue := []
  drainQueue := []

/-- The block right after power-on reset, before any logic die is released: every field at the value the spec states,
or at the value that the assumption log names. -/
def State.reset : State where
  part := .zk8608
  tiles := PerTile.all Tile.reset
  head := Head.reset
  hostMem := []
  windows := []
  powerGood := true
  refOk := true
  out := []
  freeCtr := 0
  pending := []

end Sys2Proof.Machine
end

