-- ==== Sys2Proof/WellFormed.lean ====
section
/-!
DEFINITION. Which commands have operands that the hardware can carry: frame lengths, pin ranges and code ranges that the
types of Syntax.lean leave wider than the spec does.
-/

namespace Sys2Proof

/-- The number of data bytes of a CAN FD data length code (R214, R338). -/
def canLen (dlc : Nat) : Nat :=
  if dlc ≤ 8 then dlc else
    match dlc with
    | 9 => 12
    | 10 => 16
    | 11 => 20
    | 12 => 24
    | 13 => 32
    | 14 => 48
    | _ => 64

/-- The number of data bytes of a CAN frame: classical frames carry at most 8, remote frames none (R283). -/
def CanFrame.dataLen (f : CanFrame) : Nat :=
  if f.remote then 0 else if f.fd then canLen f.dlc.val else min f.dlc.val 8

/-- A CAN frame whose data has the length of its code; base identifiers have 11 bits; remote frames are classical, and ESI is a bit of CAN FD
(R283, R285). -/
def CanFrame.wf (f : CanFrame) : Bool :=
  f.data.length == f.dataLen && (f.extended || decide (f.id.toNat < 2048)) && !(f.remote && f.fd) && (f.fd || !f.esi)

/-- A Causeway frame's fields within their widths (R260). -/
def CwyFrame.wf (f : CwyFrame) : Bool :=
  decide (f.generation < 8 ∧ f.origin < 64 ∧ f.cycle < 2 ^ 48 ∧ f.slot < 256 ∧ f.hop < 256 ∧ f.mode < 4 ∧
    f.countdown < 4 ∧ f.data.length ≤ 240)

/-- The operands of a command lie within what the hardware can carry. -/
def Instr.wf : Instr → Bool
  | .lsinPinEdge _ ch _ => ch != 0
  | .lsSenseConversion _ codes => codes.toList.all (· ≤ 0xFFFF)
  | .canFrameReceived _ _ f => f.frame.wf
  | .cwyFrameReceived _ f _ _ => f.wf
  | .cfgWriteBlock _ _ _ data => data.length ≤ 65536
  | .policyLoad _ b => b.length ≤ 65536
  | .interruptModerationTimeout .evt n => n.val < 8
  | .ringDisableComplete .evt n => n.val < 8
  | _ => true

end Sys2Proof
end

