-- ==== Sys2Proof/Machine/Operands.lean ====
section
/-!
DEFINITION. The operand forms of the commands: byte fields, the sorted maps, and every parameter of CFG_WRITE's tables and
of the policy bundle with its range, default and coding (R330, R331, R361, R417).
-/

namespace Sys2Proof.Machine

/-! ### Bytes -/

/-- The n bytes of a number, least significant first (R4). -/
def leBytes : Nat → Nat → List Byte
  | 0, _ => []
  | n + 1, v => BitVec.ofNat 8 (v % 256) :: leBytes n (v / 256)

/-- The n bytes of a number, most significant first (R4). -/
def beBytes (n v : Nat) : List Byte := (leBytes n v).reverse

/-- The number that bytes hold, least significant first. -/
def ofLe : List Byte → Nat
  | [] => 0
  | b :: bs => b.toNat + 256 * ofLe bs

/-- The number that bytes hold, most significant first. -/
def ofBe (bs : List Byte) : Nat := ofLe bs.reverse

/-- The n bytes at an offset; bytes past the end are missing. -/
def slice (bs : List Byte) (off n : Nat) : List Byte := (bs.drop off).take n

/-- The little-endian number of n bytes at an offset. -/
def fieldLe (bs : List Byte) (off n : Nat) : Nat := ofLe (slice bs off n)

/-- The n bytes of a signed number in two's complement, least significant first. -/
def leInt (n : Nat) (v : Int) : List Byte := leBytes n (v % (2 ^ (8 * n) : Nat)).toNat

/-- A number of n bits read as two's complement. -/
def signed (bits v : Nat) : Int := if v < 2 ^ (bits - 1) then (v : Int) else (v : Int) - (2 ^ bits : Nat)

/-- A number kept to 32 bits, signed (R30). -/
def wrap32 (v : Int) : Int := signed 32 (v % 4294967296).toNat

/-- A list of bytes cut or filled with zeros to n bytes. -/
def padTo (n : Nat) (bs : List Byte) : List Byte := (bs ++ List.replicate (n - bs.length) 0).take n

/-- The 32 bytes of SHAKE256-256 over some bytes, byte 0 first (R350). -/
def digest (bs : List Byte) : List Byte := leBytes 32 (Config.shake256 bs).toNat

/-- The bits of a list of booleans, the first as bit 0. -/
def ofBits : List Bool → Nat
  | [] => 0
  | b :: bs => (if b then 1 else 0) + 2 * ofBits bs

/-- 1 for true. -/
def bit (b : Bool) : Nat := if b then 1 else 0

/-- A vector with every element replaced. -/
def vmap {α β : Type} {n : Nat} (f : α → β) (v : Vector α n) : Vector β n :=
  ⟨⟨v.toList.map f⟩, by simp⟩

/-- A vector with one element replaced, by its index as a Fin. -/
def vset {α : Type} {n : Nat} (v : Vector α n) (i : Fin n) (x : α) : Vector α n := v.set i.val x i.isLt

/-- A vector with one element changed. -/
def vmod {α : Type} {n : Nat} (v : Vector α n) (i : Fin n) (f : α → α) : Vector α n := vset v i (f v[i])

/-! ### Check values -/

/-- One bit of a CRC-32 in reflected form (IEEE 802.3). -/
def crcStep (c : Nat) : Nat := if c % 2 = 1 then (c / 2) ^^^ 0xEDB88320 else c / 2

/-- One byte of the IEEE 802.3 CRC-32. -/
def crcByte (c : Nat) (b : Byte) : Nat :=
  let c0 := c ^^^ b.toNat
  crcStep (crcStep (crcStep (crcStep (crcStep (crcStep (crcStep (crcStep c0)))))))

/-- The IEEE 802.3 CRC-32 of some bytes (R260, R262). -/
def crc32 (bs : List Byte) : Nat := (bs.foldl crcByte 0xFFFFFFFF) ^^^ 0xFFFFFFFF

/-- One bit of the Sedge CRC, generator 0xF4AC_FB13 in normal form (R207). -/
def scvStep (c : Nat) : Nat :=
  if c / 2 ^ 31 % 2 = 1 then (c * 2 % 2 ^ 32) ^^^ 0xF4ACFB13 else c * 2 % 2 ^ 32

/-- One byte of the Sedge CRC. -/
def scvByte (c : Nat) (b : Byte) : Nat :=
  let c0 := c ^^^ (b.toNat * 2 ^ 24)
  scvStep (scvStep (scvStep (scvStep (scvStep (scvStep (scvStep (scvStep c0)))))))

/-- The safety check value of a Sedge frame under a connection identity (R207). -/
def scv (ident : Nat) (bs : List Byte) : Nat :=
  ((beBytes 8 ident ++ bs).foldl scvByte 0xFFFFFFFF) ^^^ 0xFFFFFFFF

/-! ### Sorted maps -/

/-- The value of a key, or what an unlisted key reads as. -/
def SMap.get (m : SMap) (k : Nat) (d : Int := 0) : Int :=
  match m with
  | [] => d
  | (j, v) :: rest => if j = k then v else if k < j then d else SMap.get rest k d

/-- A map with a key set; the value that an unlisted key reads as removes the entry. -/
def SMap.set (m : SMap) (k : Nat) (v : Int) (d : Int := 0) : SMap :=
  match m with
  | [] => if v = d then [] else [(k, v)]
  | (j, w) :: rest =>
    if j = k then (if v = d then rest else (k, v) :: rest)
    else if k < j then (if v = d then (j, w) :: rest else (k, v) :: (j, w) :: rest)
    else (j, w) :: SMap.set rest k v d

/-- The keys rise strictly. -/
def SMap.wf : SMap → Bool
  | [] => true
  | [_] => true
  | (j, _) :: (k, v) :: rest => decide (j < k) && SMap.wf ((k, v) :: rest)

/-- A counter of 32 bits that holds at its maximum. -/
def sat32 (n : Nat) : Nat := min n 0xFFFFFFFF

/-- One added to a 32-bit counter in a map. -/
def SMap.count (m : SMap) (k : Nat) : SMap := m.set k (sat32 ((m.get k).toNat + 1) : Nat)

/-! ### Parameters -/

/-- A parameter row: range, default, whether it is per axis, how many indices it takes, whether it is a safety parameter,
the step of its values, and the set of its values where the spec lists one (R331). -/
structure PRow where
  lo     : Int
  dflt   : Int
  hi     : Int
  axis   : Bool := false
  idx    : Nat := 1
  safety : Bool := false
  step   : Nat := 1
  vals   : List Int := []
  deriving DecidableEq, Repr

/-- An enumeration of n values counted from 0 (R331). -/
def penum (n : Nat) (d : Int := 0) (idx : Nat := 1) : PRow := { lo := 0, dflt := d, hi := n - 1, idx := idx }

/-- A per-axis numeric row. -/
def pax (lo d hi : Int) : PRow := { lo := lo, dflt := d, hi := hi, axis := true }

/-- A per-tile numeric row. -/
def ptile (lo d hi : Int) : PRow := { lo := lo, dflt := d, hi := hi }

/-- A per-tile safety row of the bundle. -/
def psafe (lo d hi : Int) : PRow := { lo := lo, dflt := d, hi := hi, safety := true }

/-- The limit-set rows of R45: v_max, a_max, j_max, f_max of a set. -/
def limitRow (row set : Nat) : Option PRow :=
  let v := [30000, 25000, 30000, 5000, 20000, 5000, 2000, 20000]
  let a := [150000, 125000, 300000, 50000, 100000, 50000, 20000, 200000]
  let j := [750000, 625000, 3000000, 500000, 500000, 500000, 200000, 2000000]
  let f := [250, 150, 250, 100, 150, 150, 100, 300, 50]
  match row with
  | 0 => if set < 8 then some { lo := 100, dflt := v.getD set 0, hi := 1000000, axis := true, idx := 9 } else none
  | 1 => if set < 8 then some { lo := 1000, dflt := a.getD set 0, hi := 100000000, axis := true, idx := 9 } else none
  | 2 => if set < 8 then some { lo := 10000, dflt := j.getD set 0, hi := 4000000000, axis := true, idx := 9 } else none
  | 3 => if set < 9 then some { lo := 10, dflt := f.getD set 0, hi := 2000, axis := true, idx := 9 } else none
  | _ => none

/-- The default pin of a role index (R417). -/
def roleDefault (i : Nat) : Int :=
  ([0, 1, 2, 3, 4, 5, 6, 7, 8, 9, 16, 17, 18, 19, 32, 33, 34, 35, 36, 37, 40, 41] : List Int).getD i 0xFF

/-- The parameter tables, by table, row and index. Tables 0x01 to 0x12 are those of R330. Tables from 0x81 hold the
bundle's own parameters by section (R361): 0x81 estimator, 0x82 zone profiles, 0x83 reversal and nudging, 0x84 and 0x85
open and close Stake tables, 0x86 roles, 0x87 interlock, 0x88 triad, 0x89 Sedge connections, 0x8A edge_map, 0x91 panel
signal maps, 0x92 doorway policy. -/
def pRow (table row idx : Nat) : Option PRow :=
  match table, row with
  | 0x01, 0 => some (pax 1 100 10000)
  | 0x01, 1 => some (pax 1000 60000 1000000)
  | 0x01, 2 => some (pax 0 300 5000)
  | 0x01, 3 => some (pax 0 300 5000)
  | 0x02, 0 => some (ptile 20 300 2000)
  | 0x02, 1 => some (ptile 500 6000 30000)
  | 0x02, 2 => some (ptile 0 1500 5000)
  | 0x02, 3 => some (ptile 500 8000 30000)
  | 0x02, 4 => some (ptile 20 500 2000)
  | 0x02, 5 => some (ptile 1 15 60)
  | 0x02, 6 => some (ptile 0 0 300)
  | 0x03, r => limitRow r idx
  | 0x04, 0 => some { lo := 0, dflt := 2, hi := 2, axis := true }
  | 0x04, 1 => some (pax 1 4000 65535)
  | 0x04, 2 => some (pax 1 1 65535)
  | 0x04, 3 => some (pax 100 5000 50000)
  | 0x04, 4 => some (pax 1 10 100)
  | 0x04, 5 => some (pax 100 2000 50000)
  | 0x04, 6 => some (pax 1 1000 100000)
  | 0x04, 7 => some (pax 1 2000 1000000)
  | 0x05, 0 => some { lo := 20000, dflt := 40000, hi := 80000, axis := true, vals := [20000, 40000, 80000] }
  | 0x05, 1 => some (pax 10000 40000 40000)
  | 0x05, 2 => some (pax 50 300 2000)
  | 0x05, 3 => some (pax 20 140 155)
  | 0x05, 4 => some (pax 10 18 150)
  | 0x05, 5 => some (pax 50 1000 20000)
  | 0x05, 6 => some (pax 1 10 100)
  | 0x06, 0 => some (pax 0 0 1)
  | 0x06, 1 => some (pax 256 4096 16777215)
  | 0x06, 2 => some { lo := 16, dflt := 16, hi := 256, axis := true, vals := [16, 32, 64, 128, 256] }
  | 0x06, 3 => some (pax 1 100 1000)
  | 0x06, 4 => some (pax 100 5000 100000)
  | 0x07, 0 => some (pax 0 0 2)
  | 0x07, 1 => some (pax 0 0 1)
  | 0x07, 2 => some (pax (-100000) 0 1000000)
  | 0x07, 3 => some (pax 100 1000 20000)
  | 0x07, 4 => some (pax 100 500 20000)
  | 0x07, 5 => some (pax 1 20 1000)
  | 0x07, 6 => some (pax 100 2000 20000)
  | 0x07, 7 => some (pax 0 0 1)
  | 0x07, 8 => some (pax 0 0 2000)
  | 0x07, 9 => some (pax 1 4 30)
  | 0x08, 0 => some (pax 0 1 1)
  | 0x08, 1 => some (pax 1 2 8)
  | 0x08, 2 => some (pax 0 0 1)
  | 0x08, 3 => some (pax 4 50 5000)
  | 0x08, 4 => some (pax 0 0 2000000)
  | 0x08, 5 => some (pax 1 8 1000)
  | 0x08, 6 => some (pax 0 0 1)
  | 0x08, 7 => some (pax 5 20 60)
  | 0x08, 8 => some (pax 10 1000 10000)
  | 0x08, 9 => some (pax 0 0 1)
  | 0x08, 10 => some (pax 0 0 1)
  | 0x08, 11 => some (pax 10 25 32)
  | 0x08, 12 => some (pax 0 1 1)
  | 0x08, 13 => some (pax 0 0 1)
  | 0x08, 14 => some (pax 0 0 2)
  | 0x08, 15 => some (pax 100000 1000000 4000000)
  | 0x08, 16 => some { lo := 0, dflt := 0, hi := 1000, axis := true, step := 10 }
  | 0x08, 17 => some (pax 1 20 100)
  | 0x08, 18 => some (pax 1 4 64)
  | 0x08, 19 => some (pax 0 0 4294967295)
  | 0x08, 20 => some (pax 1 1 65535)
  | 0x08, 21 => some (pax 1 1 65535)
  | 0x08, 22 => some { lo := -1, dflt := 1, hi := 1, axis := true, vals := [-1, 1] }
  | 0x08, 23 => some (pax 1 200 100000)
  | 0x08, 24 => some (pax 1 100 10000)
  | 0x08, 25 => some (pax 1 4 1000)
  | 0x09, 0 => some (ptile 0 1 1)
  | 0x09, 1 => some (psafe 2 6 8)
  | 0x09, 2 => some (psafe 500 2000 50000)
  | 0x09, 3 => some (psafe 0 20 500)
  | 0x09, 4 => some (psafe 500 1000 50000)
  | 0x09, 5 => some (psafe 1 4 64)
  | 0x09, 6 => some (ptile 500 5000 100000)
  | 0x09, 7 => some (ptile 0 1 1)
  | 0x0A, 0 => some (ptile 10 25 100)
  | 0x0A, 1 => some (ptile 10 300 3600)
  | 0x0A, 2 => some (ptile 10 120 3600)
  | 0x0B, 0 => some (penum 2 0 10)
  | 0x0B, 1 => some (if idx = 9 then { lo := 4000, dflt := 10000, hi := 16000, idx := 10, step := 500 }
      else { lo := 1000, dflt := 3000, hi := 6000, idx := 10, step := 250 })
  | 0x0B, 2 => some { lo := 0, dflt := 10, hi := 50, idx := 10 }
  | 0x0B, 3 => some (penum 2 0 10)
  | 0x0B, 4 => some (penum 3 1 10)
  | 0x0B, 5 => some (ptile 1 60 3600)
  | 0x0B, 6 => some (ptile 14 14 90)
  | 0x0B, 7 => some (ptile 1 2 10)
  | 0x0B, 8 => some (penum 10)
  | 0x0B, 9 => some (psafe 1000 2000 20000)
  | 0x0C, 0 => some (penum 2 0 16)
  | 0x0C, 1 => some (penum 2 1 16)
  | 0x0C, 2 => some { lo := 1, dflt := 3000, hi := 65535, idx := 16 }
  | 0x0C, 3 => some (penum 2 (if idx = 8 ∨ idx = 9 then 1 else 0) 16)
  | 0x0C, 4 => some (penum 3 (if idx ≤ 9 then (if idx % 2 = 0 then 1 else 2) else 0) 16)
  | 0x0C, 5 => some (psafe 100 150 500)
  | 0x0C, 6 => some (psafe 5 20 1000)
  | 0x0C, 7 => some { lo := 1, dflt := 100, hi := 2000, idx := 4, safety := true }
  | 0x0D, 0 => some (penum 2 0 2)
  | 0x0D, 1 => some (ptile 0 0 127)
  | 0x0D, 2 => some (penum 2 0 2)
  | 0x0D, 3 => some (penum 2 0 2)
  | 0x0D, 4 => some (ptile 2 3 10)
  | 0x0D, 5 => some (ptile 1 1000 1000000)
  | 0x0D, 6 => some (ptile 1 8 64)
  | 0x0D, 7 => some (ptile 1 10 3600)
  | 0x0E, 0 => some (penum 2)
  | 0x0E, 1 => some (ptile 0 0 63)
  | 0x0E, 2 => some (ptile 250 1000 10000)
  | 0x0E, 3 => some (ptile 0 900 9980)
  | 0x0E, 4 => some { lo := 0, dflt := 0, hi := 9999990, idx := 8, step := 10 }
  | 0x0E, 5 => some { lo := 0, dflt := 0, hi := 15, idx := 8 }
  | 0x0F, 0 => some (penum 5 0 2)
  | 0x0F, 1 => some { lo := 10, dflt := 500, hi := 1000, idx := 2 }
  | 0x0F, 2 => some { lo := 10, dflt := 2000, hi := 8000, idx := 2 }
  | 0x0F, 3 => some { lo := 50, dflt := 80, hi := 90, idx := 2 }
  | 0x0F, 4 => some { lo := 50, dflt := 75, hi := 90, idx := 2 }
  | 0x0F, 5 => some { lo := 1, dflt := 2, hi := 16, idx := 2 }
  | 0x0F, 6 => some { lo := 0, dflt := 750, hi := 1000, idx := 2 }
  | 0x0F, 7 => some (penum 2 0 2)
  | 0x0F, 8 => some { lo := 0, dflt := 0, hi := 4294967295, idx := 2, step := 4096 }
  | 0x0F, 9 => some { lo := 0, dflt := 0, hi := 4294967295, idx := 2 }
  | 0x0F, 10 => some { lo := 0, dflt := 0, hi := 536870911, idx := 2 }
  | 0x0F, 11 => some { lo := 0, dflt := 0, hi := 536870911, idx := 2 }
  | 0x0F, 12 => some { lo := 0, dflt := 0, hi := 8, idx := 2 }
  | 0x0F, 13 => some { lo := 0, dflt := 0, hi := 4294967295, idx := 2 }
  | 0x0F, 14 => some { lo := 0, dflt := 0, hi := 4294967295, idx := 2 }
  | 0x10, 0 => some { lo := 1000, dflt := 19200, hi := 20000, idx := 2 }
  | 0x10, 1 => some { lo := 13, dflt := 13, hi := 26, idx := 2 }
  | 0x10, 2 => some { lo := 1, dflt := 3, hi := 255, idx := 2 }
  | 0x11, 0 => some (penum 2)
  | 0x11, 1 => some (penum 2 1)
  | 0x11, 2 => some (penum 2)
  | 0x11, 3 => some (penum 3)
  | 0x11, 4 => some (penum 2)
  | 0x11, 5 => some (ptile 500 3000 10000)
  | 0x11, 6 => some (ptile 100 2000 100000)
  | 0x11, 7 => some (ptile (-80) 0 80)
  | 0x11, 8 => some (ptile 10 3600 86400)
  | 0x11, 9 => some { lo := 0, dflt := 2, hi := 2, idx := 4, safety := true }
  | 0x11, 10 => some (psafe 1 10 100)
  | 0x11, 11 => some (ptile 1 10 100)
  | 0x11, 12 => some (ptile 0 0 67108863)
  | 0x12, 0 => some (penum 2 0 2)
  | 0x12, 1 => some { lo := 0, dflt := idx, hi := 31, idx := 2 }
  | 0x12, 2 => some (penum 4 0 2)
  | 0x12, 3 => some { lo := 0, dflt := 0, hi := 4294967295, idx := 2 }
  | 0x12, 4 => some { lo := 0, dflt := 0, hi := 65535, idx := 2 }
  | 0x12, 5 => some { lo := 0, dflt := 0, hi := 4294967295, idx := 2 }
  | 0x12, 6 => some { lo := 1, dflt := 24, hi := 30, idx := 2 }
  | 0x12, 7 => some { lo := 0, dflt := 0, hi := 4294967295, idx := 2 }
  | 0x12, 8 => some { lo := 0, dflt := 0, hi := 4094, idx := 2 }
  | 0x12, 9 => some { lo := 0, dflt := 6, hi := 7, idx := 2 }
  | 0x81, 0 => some { lo := 100, dflt := 40000, hi := 1000000, axis := true, safety := true }
  | 0x81, 1 => some { lo := 100, dflt := 30000, hi := 500000, axis := true, safety := true }
  | 0x81, 2 => some { lo := 0, dflt := 20, hi := 500, axis := true, safety := true }
  | 0x81, 3 => some { lo := 0, dflt := 0, hi := 5000, axis := true, safety := true }
  | 0x81, 4 => some { lo := -1, dflt := 0, hi := 1, axis := true, safety := true }
  | 0x81, 5 => some (psafe 0 40 80)
  | 0x82, 0 => some { lo := 0, dflt := 4000000, hi := 16000000, idx := 8, safety := true, step := 62500 }
  | 0x82, 1 => some { lo := 0, dflt := 40, hi := 1000, idx := 8, safety := true }
  | 0x82, 2 => some { lo := 1, dflt := 4, hi := 16, idx := 8, safety := true }
  | 0x82, 3 => some { lo := 10, dflt := 150, hi := 2000, idx := 8, safety := true }
  | 0x82, 4 => some { lo := 0, dflt := 1, hi := 1, idx := 8, safety := true }
  | 0x82, 5 => some { lo := 0, dflt := 1, hi := 1, idx := 8, safety := true }
  | 0x82, 6 => some { lo := 0, dflt := 0, hi := 2, idx := 8, safety := true }
  | 0x82, 7 => some { lo := 0, dflt := 0, hi := 1, idx := 8, safety := true }
  | 0x82, 8 => some { lo := 0, dflt := 500, hi := 10000, idx := 8, safety := true }
  | 0x82, 9 => some { lo := 0, dflt := 0, hi := 1000000, idx := 8, safety := true }
  | 0x82, 10 => some { lo := 0, dflt := 500, hi := 20000, idx := 8, safety := true }
  | 0x82, 11 => some { lo := 0, dflt := 0, hi := 1, idx := 8, safety := true }
  | 0x83, 0 => some (psafe 100 500 10000)
  | 0x83, 1 => some (psafe 10 100 500)
  | 0x83, 2 => some (psafe 500 8000 30000)
  | 0x83, 3 => some (psafe 0 3 15)
  | 0x83, 4 => some (psafe 10 60 600)
  | 0x83, 5 => some (psafe 0 1 1)
  | 0x83, 6 => some (psafe 0 1000000 1000000)
  | 0x86, 0 => some { lo := 0, dflt := roleDefault idx, hi := 255, idx := 22, safety := true }
  | 0x87, 0 => some (psafe 10 500 5000)
  | 0x87, 1 => some (psafe 0 1 2)
  | 0x87, 2 => some (psafe 0 30 300)
  | 0x87, 3 => some (psafe 0 0 31)
  | 0x87, 4 => some (psafe 0 0 67108863)
  | 0x87, 5 => some (psafe 0 0 67108863)
  | 0x87, 6 => some (psafe 1 24 168)
  | 0x88, 1 => some (psafe 1 480 4320)
  | 0x88, 2 => some (psafe 0 24 168)
  | 0x89, 0 => some { lo := 0, dflt := 1, hi := 1, idx := 32, safety := true }
  | 0x89, 1 => some { lo := 0, dflt := 0, hi := 4294967295, idx := 32, safety := true }
  | 0x89, 2 => some { lo := 0, dflt := 0, hi := 4294967295, idx := 32, safety := true }
  | 0x89, 3 => some { lo := 0, dflt := 0, hi := 1, idx := 32, safety := true }
  | 0x89, 4 => some { lo := 250, dflt := 10000, hi := 1000000, idx := 32, safety := true }
  | 0x89, 5 => some { lo := 100, dflt := 20000, hi := 655350, idx := 32, safety := true }
  | 0x89, 6 => some { lo := 100, dflt := 20000, hi := 655350, idx := 32, safety := true }
  | 0x89, 7 => some { lo := 0, dflt := 50, hi := 1000, idx := 32, safety := true }
  | 0x89, 8 => some { lo := 1, dflt := 4, hi := 255, idx := 32, safety := true }
  | 0x89, 9 => some { lo := 1, dflt := 100, hi := 10000, idx := 32, safety := true }
  | 0x89, 10 => some { lo := 1, dflt := 2, hi := 16, idx := 32, safety := true }
  | 0x89, 11 => some { lo := 1, dflt := 3, hi := 255, idx := 32, safety := true }
  | 0x89, 12 => some { lo := 1, dflt := 1, hi := 24, idx := 32, safety := true }
  | 0x8A, 0 => some { lo := 0, dflt := if idx = 0 then 1 else 2, hi := 7, idx := 2, safety := true }
  | 0x92, 0 => some (penum 2)
  | 0x92, 1 => some (penum 2)
  | 0x92, 2 => some (penum 2 1)
  | 0x92, 3 => some (penum 2)
  | _, _ => none

/-- The axis code in a parameter key: 3 for the tile as a whole. -/
def axisCode : Option AxisId → Nat
  | none => 3
  | some a => a.num

/-- The key of a parameter in a store. -/
def pKey (table row idx : Nat) (a : Option AxisId) : Nat := ((table * 256 + row) * 256 + idx) * 4 + axisCode a

/-- The table, row and index of a key. -/
def pKeyTable (k : Nat) : Nat := k / 4 / 65536
def pKeyRow (k : Nat) : Nat := k / 4 / 256 % 256
def pKeyIdx (k : Nat) : Nat := k / 4 % 256

/-- The default of a key: the table's, 0 for parameters that have none of their own. -/
def pDefault (k : Nat) : Int :=
  match pRow (pKeyTable k) (pKeyRow k) (pKeyIdx k) with
  | some r => r.dflt
  | none => 0

/-- A parameter's value in a store. -/
def pGet (m : SMap) (k : Nat) : Int := m.get k (pDefault k)

/-- A store with a parameter set. -/
def pSet (m : SMap) (k : Nat) (v : Int) : SMap := m.set k v (pDefault k)

/-- A value lies in its row's range, on its step and among its values (R7, R331). -/
def PRow.ok (r : PRow) (v : Int) : Bool :=
  decide (r.lo ≤ v) && decide (v ≤ r.hi) && decide (v % r.step = 0) && (r.vals.isEmpty || r.vals.contains v)

/-- A 32-bit field as the row codes it: signed when the minimum is negative (R331). -/
def PRow.decode (r : PRow) (w : Nat) : Int := if r.lo < 0 then signed 32 w else (w : Int)

/-- The 32-bit field of a value. -/
def pEncode (v : Int) : Nat := (v % 4294967296).toNat

/-! ### The policy bundle (R360, R361, R417) -/

/-- One piece of a section body: its width in bytes, whether it is signed, and the parameter it holds, or none for bytes
that are zero. -/
structure Piece where
  width : Nat
  sgn   : Bool
  key   : Option Nat
  deriving DecidableEq, Repr

/-- A 32-bit word of a section that holds a parameter. -/
def pw (table row : Nat) (idx : Nat := 0) (a : Option AxisId := none) : Piece :=
  { width := 4, sgn := (match pRow table row idx with | some r => decide (r.lo < 0) | none => false),
    key := some (pKey table row idx a) }

/-- A stake entry of 32 bytes (R94): the fields' rows in tables 0x84 (open) and 0x85 (close). -/
def stakePieces (table idx : Nat) (a : AxisId) : List Piece :=
  let k := fun (row w : Nat) (sg : Bool) => ({ width := w, sgn := sg, key := some (pKey table row idx (some a)) } : Piece)
  [k 0 4 true, k 1 2 false, k 2 1 false, k 3 1 false, k 4 4 false, k 5 4 false, k 6 2 false, k 7 1 false, k 8 1 false,
   k 9 2 false, k 10 2 false, k 11 4 true, k 12 2 false, ⟨2, false, none⟩]

/-- The pieces of a section body, in order (R417). Section 0x0006's fio parameters belong to the pins that the role bytes
name, so its layout takes the ten role pins. -/
def sectionPieces (roles : List Nat) : Nat → List Piece
  | 0x0001 => (AxisId.all.flatMap fun a => (List.range 5).map fun r => pw 0x81 r 0 (some a)) ++ [pw 0x81 5]
  | 0x0002 => (List.range 8).flatMap fun z => (List.range 12).map fun r => pw 0x82 r z
  | 0x0003 => (List.range 7).map fun r => pw 0x83 r
  | 0x0004 => AxisId.all.flatMap fun a => [0x84, 0x85].flatMap fun tb =>
      (List.range 64).flatMap fun i => stakePieces tb i a
  | 0x0005 => [pw 0x09 1, pw 0x09 2, pw 0x09 3, pw 0x09 4, pw 0x09 5]
  | 0x0006 => ((List.range 22).map fun i => ({ width := 1, sgn := false, key := some (pKey 0x86 0 i none) } : Piece)) ++
      [⟨2, false, none⟩] ++
      ((roles.take 10).flatMap fun p => (List.range 5).map fun r => pw 0x0C r p) ++
      ((List.range 4).map fun i => pw 0x0C 7 i) ++ [pw 0x0C 5, pw 0x0C 6] ++
      ((List.range 4).map fun i => pw 0x11 9 i) ++ [pw 0x11 10]
  | 0x0007 => (List.range 7).map fun r => pw 0x87 r
  | 0x0008 => [pw 0x0B 9, pw 0x88 1, pw 0x88 2]
  | 0x0009 => (List.range 32).flatMap fun c =>
      ((List.range 13).map fun r => pw 0x89 r c) ++ [⟨4, false, none⟩] ++
      ((List.range 8).map fun r => ({ width := 4, sgn := false, key := some (pKey 0x89 (13 + r) c none) } : Piece)) ++
      ((List.range 16).map fun r => ({ width := 1, sgn := false, key := some (pKey 0x89 (21 + r) c none) } : Piece))
  | 0x000A => [pw 0x8A 0 0, pw 0x8A 0 1]
  | 0x0101 => (List.range 16).flatMap fun i =>
      (List.range 4).map fun r => ({ width := 1, sgn := false, key := some (pKey 0x91 r i none) } : Piece)
  | 0x0102 => (List.range 4).map fun r => pw 0x92 r
  | _ => []

/-- The ids of the sections, ascending (R361). -/
def sectionIds : List Nat := [1, 2, 3, 4, 5, 6, 7, 8, 9, 10, 0x101, 0x102]

/-- The ids of the safety sections, ascending (R361). -/
def safetySections : List Nat := [1, 2, 3, 4, 5, 6, 7, 8, 9, 10]

/-- The length of a section body in bytes. -/
def piecesLen (ps : List Piece) : Nat := (ps.map (·.width)).sum

/-- The values that pieces hold in some bytes, and whether every zero byte is zero. -/
def readPieces : List Piece → List Byte → List (Nat × Int) × Bool
  | [], _ => ([], true)
  | p :: ps, bs =>
    let v := ofLe (bs.take p.width)
    let (rest, ok) := readPieces ps (bs.drop p.width)
    match p.key with
    | some k => ((k, if p.sgn then signed (8 * p.width) v else (v : Int)) :: rest, ok)
    | none => (rest, ok && v == 0)

/-- The bytes of pieces from a store (R193, R417). -/
def writePieces (m : SMap) (ps : List Piece) : List Byte :=
  ps.flatMap fun p => match p.key with
    | some k => leInt p.width (pGet m k)
    | none => List.replicate p.width 0

end Sys2Proof.Machine
end

