-- ==== Sys2Proof/Machine/Ops.lean ====
section
/-!
DEFINITION. The named operations that the meanings share: tiles and their parameters, time, host memory, interrupts,
events, completions, the Peat log and the outputs.
-/

namespace Sys2Proof.Machine

/-! ### Tiles -/

/-- The number of tiles of a part (R1). -/
def Part.tiles : Part → Nat
  | .zk8602 => 1
  | .zk8604 => 2
  | .zk8608 => 4

/-- The part code (R389). -/
def Part.code : Part → Nat
  | .zk8602 => 0x8602
  | .zk8604 => 0x8604
  | .zk8608 => 0x8608

/-- The part has the tile (R1). -/
def State.hasTile (s : State) (t : TileId) : Bool := decide (t.num < s.part.tiles)

/-- The tiles of the package, ascending. -/
def State.tileIds (s : State) : List TileId := TileId.all.filter s.hasTile

/-- A tile. -/
def State.tile (s : State) (t : TileId) : Tile := s.tiles.get t

/-- The state with one tile replaced. -/
def State.setTile (s : State) (t : TileId) (tl : Tile) : State := { s with tiles := s.tiles.set t tl }

/-- The state with one tile changed. -/
def State.modTile (s : State) (t : TileId) (f : Tile → Tile) : State := s.setTile t (f (s.tile t))

/-- The state with one tile's doorway changed. -/
def State.modDoor (s : State) (t : TileId) (f : Doorway → Doorway) : State :=
  s.modTile t fun tl => { tl with door := f tl.door }

/-- The state with one tile's field die changed. -/
def State.modField (s : State) (t : TileId) (f : FieldDie → FieldDie) : State :=
  s.modTile t fun tl => { tl with field := f tl.field }

/-- The state with one tile's field link changed. -/
def State.modLink (s : State) (t : TileId) (f : Link → Link) : State :=
  s.modTile t fun tl => { tl with link := f tl.link }

/-- The state with one tile's triad changed. -/
def State.modTriad (s : State) (t : TileId) (f : Triad → Triad) : State :=
  s.modTile t fun tl => { tl with triad := f tl.triad }

/-- The state with one tile's logic-die record changed. -/
def State.modDie (s : State) (t : TileId) (f : Die → Die) : State :=
  s.modTile t fun tl => { tl with die := f tl.die }

/-- The state with one tile's Peat log changed. -/
def State.modPeat (s : State) (t : TileId) (f : Peat → Peat) : State :=
  s.modTile t fun tl => { tl with peat := f tl.peat }

/-- An axis of a tile. -/
def State.axis (s : State) (t : TileId) (a : AxisId) : Axis := (s.tile t).ax.get a

/-- The tile with one axis changed. -/
def Tile.modAxis (tl : Tile) (a : AxisId) (f : Axis → Axis) : Tile := { tl with ax := tl.ax.set a (f (tl.ax.get a)) }

/-- The state with one axis changed. -/
def State.modAxis (s : State) (t : TileId) (a : AxisId) (f : Axis → Axis) : State :=
  s.modTile t fun tl => tl.modAxis a f

/-- The state with the feedback of an axis changed. -/
def State.modFb (s : State) (t : TileId) (a : AxisId) (f : Feedback → Feedback) : State :=
  s.modAxis t a fun x => { x with fb := f x.fb }

/-- The state with the motion of an axis changed. -/
def State.modMo (s : State) (t : TileId) (a : AxisId) (f : Motion → Motion) : State :=
  s.modAxis t a fun x => { x with mo := f x.mo }

/-- The state with the pass of an axis changed. -/
def State.modPa (s : State) (t : TileId) (a : AxisId) (f : Pass → Pass) : State :=
  s.modAxis t a fun x => { x with pa := f x.pa }

/-- The state with the fabric of an axis changed. -/
def State.modFab (s : State) (t : TileId) (a : AxisId) (f : Fabric → Fabric) : State :=
  s.modAxis t a fun x => { x with fab := f x.fab }

/-- The state with the head changed. -/
def State.modHead (s : State) (f : Head → Head) : State := { s with head := f s.head }

/-- The state with the time base changed. -/
def State.modTime (s : State) (f : TimeBase → TimeBase) : State :=
  s.modHead fun h => { h with time := f h.time }

/-- The state with the Causeway node changed. -/
def State.modCwy (s : State) (f : Causeway → Causeway) : State :=
  s.modHead fun h => { h with cwy := f h.cwy }

/-- The state with the host interface changed. -/
def State.modHost (s : State) (f : HostIf → HostIf) : State :=
  s.modHead fun h => { h with host := f h.host }

/-- The state with the board-level state changed. -/
def State.modBoard (s : State) (f : Board → Board) : State :=
  s.modHead fun h => { h with board := f h.board }

/-- Runs a list of steps, the first first. -/
def State.each {α : Type} (s : State) (l : List α) (f : State → α → State) : State := l.foldl f s

/-- The shape of every command of a tile: it acts on a tile that the part has, and faults on any other (R1). -/
def onTile (t : TileId) (s : State) (f : State → State) : Host.Outcome State Fault Refusal :=
  if s.hasTile t then .next (f s) else .fault .absentTile

/-- The shape of every command of the head. -/
def onHead (s : State) (f : State → State) : Host.Outcome State Fault Refusal := .next (f s)

/-- Record of an output on a port. -/
def State.emit (s : State) (o : Output) : State := { s with out := o :: s.out }

/-- A free value, and the state that will draw another next time. -/
def State.draw (s : State) : Int × State := (Config.freeInt s.freeCtr, { s with freeCtr := s.freeCtr + 1 })

/-! ### Parameters in force -/

/-- A per-tile parameter in force. -/
def Tile.par (tl : Tile) (table row : Nat) (idx : Nat := 0) : Int := pGet tl.inForce (pKey table row idx none)

/-- A per-tile parameter in force, as a natural number. -/
def Tile.parN (tl : Tile) (table row : Nat) (idx : Nat := 0) : Nat := (tl.par table row idx).toNat

/-- A per-axis parameter: those of tables 0x01 and 0x03 to 0x08 are in force axis by axis (R332), the others with the
tile's. -/
def Tile.parA (tl : Tile) (a : AxisId) (table row : Nat) (idx : Nat := 0) : Int :=
  if table ≤ 0x08 then pGet (tl.ax.get a).inForce (pKey table row idx (some a))
  else pGet tl.inForce (pKey table row idx (some a))

/-- A per-axis parameter as a natural number. -/
def Tile.parAN (tl : Tile) (a : AxisId) (table row : Nat) (idx : Nat := 0) : Nat := (tl.parA a table row idx).toNat

/-- A parameter of the package head (R330). -/
def State.parH (s : State) (table row : Nat) (idx : Nat := 0) : Nat := (s.tile .t0).parN table row idx

/-- leaf_mode is SINGLE (R29). -/
def Tile.single (tl : Tile) : Bool := tl.par 0x11 0 == 1

/-- step_fitted (R29). -/
def Tile.stepFitted (tl : Tile) : Bool := tl.par 0x11 1 != 0

/-- The leaf axes (R31). -/
def Tile.leafAxes (tl : Tile) : List AxisId := if tl.single then [.A] else [.A, .B]

/-- The axes in use (R29). -/
def Tile.usedAxes (tl : Tile) : List AxisId := tl.leafAxes ++ (if tl.stepFitted then [.C] else [])

/-- An axis is in use (R29). -/
def Tile.used (tl : Tile) (a : AxisId) : Bool := tl.usedAxes.contains a

/-- The pin that carries a role (R33, R417). -/
def Tile.role (tl : Tile) (i : Nat) : Nat := tl.parN 0x86 0 i

/-- A pin code holds one of the roles (R33). -/
def Tile.hasRole (tl : Tile) (pin : Nat) : Bool := (List.range 22).any fun i => tl.role i == pin

/-- travel_open, closed_band, open_band, close_preload of an axis (R31, R65). -/
def Tile.travel (tl : Tile) (a : AxisId) : Int := tl.parA a 0x01 1
def Tile.closedBand (tl : Tile) (a : AxisId) : Int := tl.parA a 0x01 2
def Tile.openBand (tl : Tile) (a : AxisId) : Int := tl.parA a 0x01 3
def Tile.preload (tl : Tile) (a : AxisId) : Int := tl.parA a 0x07 8

/-- The axis lies in its closed band (R31). -/
def Tile.inClosed (tl : Tile) (a : AxisId) : Bool := decide ((tl.ax.get a).fb.pos ≤ tl.closedBand a)

/-- The axis lies in its open band (R31). -/
def Tile.inOpen (tl : Tile) (a : AxisId) : Bool := decide ((tl.ax.get a).fb.pos ≥ tl.travel a - tl.openBand a)

/-- A pass runs on some axis of the tile (R97). -/
def Tile.anyPass (tl : Tile) : Bool := AxisId.all.any fun a => (tl.ax.get a).pa.active

/-- An axis moves: it has a move under way (R47). -/
def Axis.moving (x : Axis) : Bool := x.mo.move.isSome

/-! ### Bounds -/

/-- A bound that runs has expired; any other is as it was (R35). -/
def Bound.expire : Bound → Bound
  | .running _ => .expired
  | b => b

/-- The bound has expired. -/
def Bound.isExpired : Bound → Bool
  | .expired => true
  | _ => false

/-- The bound runs. -/
def Bound.isRunning : Bound → Bool
  | .running _ => true
  | _ => false

/-! ### Time -/

/-- The ns that a clock of 48 bits of seconds counts before it wraps (R237). -/
def clockSpan : Nat := 2 ^ 48 * 1000000000

/-- A clock advanced by some ns of the reference, corrected by its rate and by a phase share in units of 2⁻⁴⁰ ns (R237, R252). -/
def Clock.advance (c : Clock) (dt : Nat) (phase : Int := 0) : Clock :=
  let total := (c.frac + dt * (2 ^ 40 + c.rate) + phase).toNat
  { c with ns := (c.ns + total / 2 ^ 40) % clockSpan, frac := total % 2 ^ 40 }

/-- A clock stepped by some ns; it does not fall below 0. -/
def Clock.stepBy (c : Clock) (d : Int) : Clock := { c with ns := (c.ns + d).toNat }

/-- The time base advanced by some ns of the reference (R237, R252): of the phase correction, the share of the time that passes. -/
def TimeBase.advance (tb : TimeBase) (dt : Nat) : TimeBase :=
  let share := if tb.phaseLeft = 0 then 0 else tb.ringPhase * (min dt tb.phaseLeft : Nat) / tb.phaseLeft
  { tb with
    local_ := tb.local_ + dt
    record := tb.record.advance dt
    ring := tb.ring.advance dt share
    ringPhase := tb.ringPhase - share
    phaseLeft := tb.phaseLeft - dt }

/-- The time base brought to an instant of the local count; an instant that has passed changes nothing. -/
def State.at (s : State) (now : Nat) : State :=
  s.modTime fun tb => if tb.local_ < now then tb.advance (now - tb.local_) else tb

/-- The local count of ns. -/
def State.now (s : State) : Nat := s.head.time.local_

/-- The record-time TS32 (R240). -/
def State.ts (s : State) : Word := BitVec.ofNat 32 s.head.time.record.ns

/-- The ring-time TS32 (R240). -/
def State.ringTs (s : State) : Word := BitVec.ofNat 32 s.head.time.ring.ns

/-- Record time is synchronised (R251, R374). -/
def TimeBase.recSync (tb : TimeBase) : Bool :=
  match tb.recState with
  | .locked => true
  | .holdover => !tb.holdLong
  | _ => false

/-- The signed difference of two TS32 values (R240). -/
def tsDiff (a b : Word) : Int := signed 32 (a - b).toNat

/-! ### Host memory -/

/-- One byte of host memory; an unlisted byte reads 0. -/
def memRead (m : List Host.Cell) (a : Nat) : Byte :=
  match m with
  | [] => 0
  | (b, v) :: rest => if b = a then v else if a < b then 0 else memRead rest a

/-- Host memory with one byte written. -/
def memWrite (m : List Host.Cell) (a : Nat) (v : Byte) : List Host.Cell :=
  match m with
  | [] => if v = 0 then [] else [(a, v)]
  | (b, w) :: rest =>
    if b = a then (if v = 0 then rest else (a, v) :: rest)
    else if a < b then (if v = 0 then (b, w) :: rest else (a, v) :: (b, w) :: rest)
    else (b, w) :: memWrite rest a v

/-- Host memory with bytes written from an address on; addresses are 64 bits wide. -/
def memWriteBytes (m : List Host.Cell) (a : Nat) : List Byte → List Host.Cell
  | [] => m
  | b :: bs => memWriteBytes (memWrite m (a % 2 ^ 64) b) (a + 1) bs

/-- The canonical form of host memory: addresses strictly rising, no entry 0. -/
def Memory.wf : List Host.Cell → Bool
  | [] => true
  | [(_, v)] => v != 0
  | (a, v) :: (b, w) :: rest => decide (a < b) && v != 0 && Memory.wf ((b, w) :: rest)

/-- Host memory written by DMA. -/
def State.dma (s : State) (a : Nat) (bs : List Byte) : State :=
  { s with hostMem := memWriteBytes s.hostMem a bs }

/-- Host memory written for a tile: without its service core, or that of the package head, nothing reaches the host (R27). -/
def State.dmaVia (s : State) (t : TileId) (a : Nat) (bs : List Byte) : State :=
  if (s.tile t).die.svc && (s.tile .t0).die.svc then s.dma a bs else s

/-! ### Interrupts -/

/-- Vector control of a vector: masked at reset (R387). -/
def HostIf.masked (h : HostIf) (v : Nat) : Bool := (h.msix.get (4 * v + 3) 1) % 2 == 1

/-- The message of a vector, or its pending bit while it is masked (R312). -/
def State.signal (s : State) (v : Nat) : State :=
  if s.head.host.masked v then s.modHost fun h => { h with pba := h.pba ||| BitVec.ofNat 64 (2 ^ v) }
  else s.emit (.msix v)

/-- Interrupt moderation after a record was written: whether the ring signals now (R312). -/
def Ring.signals (r : Ring) (urgent : Bool) : Bool :=
  urgent || r.imodTime == 0 || decide (r.unsignalled ≥ r.imodCount)

/-- The entries of a ring (R301). -/
def Ring.size (r : Ring) : Nat := 2 ^ r.sizeLog2

/-- The ring has a free entry: it holds at most size − 1 (R301). -/
def Ring.free (r : Ring) : Nat := (r.hostIndex + r.size - 1 - r.devIndex) % r.size

/-- A ring whose device index has moved past one record (R301). -/
def Ring.produced (r : Ring) : Ring :=
  let d := r.devIndex + 1
  { r with devIndex := if d = r.size then 0 else d, phase := if d = r.size then !r.phase else r.phase,
           unsignalled := r.unsignalled + 1 }

/-- A ring as a record producer accepts records (R303, R391). -/
def Ring.takes (r : Ring) : Bool := r.enabled && !r.stopped && !r.busy

/-! ### Events -/

/-- The board package number in events (R368, R369). -/
def State.pkg (s : State) : Nat :=
  if s.head.board.straps.join && !s.head.board.strapFault then s.head.board.straps.num.val else 0

/-- This package is the board head, or works alone (R23, R369). -/
def State.isHead (s : State) : Bool :=
  !s.head.board.straps.join || s.head.board.straps.head

/-- This package is joined to a board that has formed (R22, R369). -/
def State.joined (s : State) : Bool := s.head.board.straps.join && !s.head.board.strapFault

/-- A port is up and the board has formed: it carries traffic (R369). -/
def State.portCarries (s : State) (port : Fin 2) : Bool :=
  s.joined && (s.head.board.ports)[port] == .up && !(s.tile .t0).die.inReset

/-- The packages of the ring, as far as they are numbered (R365, R368). -/
def Board.ringSize (b : Board) : Nat := ((List.range 4).filter b.present.getLsbD).foldl max 1 + 1

/-- The link between packages i and i + 1, as the last BWK_STATUS of its two ends shows it (R375, R386); the end of a package that has not
reported counts as up. -/
def State.linkUp (s : State) (i : Nat) : Bool :=
  let fine := fun (k port : Nat) =>
    let w := (s.windows.get (0x4100 + 0x1000 * k)).toNat
    w == 0 || w / 4 ^ port % 4 == 2
  fine i 1 && fine ((i + 1) % s.head.board.ringSize) 0

/-- The way from the board head to package k out of a port carries: through port 1 the packages 1, 2, … are passed, through port 0 the
last, the last but one, … (R365, R370). -/
def State.wayOpen (s : State) (k : Nat) (port : Fin 2) : Bool :=
  s.portCarries port &&
    (if port = 1 then (List.range (k - 1)).all fun i => s.linkUp (i + 1)
     else (List.range (s.head.board.ringSize - 1 - k)).all fun i => s.linkUp (k + i))

/-- The port on which a frame for package k goes out (R370, R371): from the board head the shorter way round, a tie by port 1, and the
other way where that is cut; from another package towards the board head the port that its frames come by, towards a neighbour its port,
and else the port that carries. -/
def State.bwkRoute (s : State) (k : Nat) : Option (Fin 2) :=
  let b := s.head.board
  let pick := fun (p : Fin 2) (carries : Fin 2 → Bool) => if carries p then some p else if carries (1 - p) then some (1 - p) else none
  if s.isHead then pick (if k ≤ b.ringSize - k then 1 else 0) (s.wayOpen k)
  else if k ≠ 0 ∧ (b.neighbours[(0 : Fin 2)].any fun n => n.num.val == k) then pick 0 s.portCarries
  else if k ≠ 0 ∧ (b.neighbours[(1 : Fin 2)].any fun n => n.num.val == k) then pick 1 s.portCarries
  else pick b.headPort s.portCarries

/-- A frame from this package to package k on its route; without a route it is lost (R370 to R372). -/
def State.bwkSend (s : State) (k : Nat) (pl : BwkPayload) : State :=
  match s.bwkRoute k with
  | some p => s.emit (.boardwalk p { src := s.head.board.straps.num, dst := Fin.ofNat 4 k, crcOk := true, payload := pl })
  | none => s

/-- A frame from the board head to every package that it reaches. -/
def State.bwkTell (s : State) (pl : BwkPayload) : State :=
  if !s.isHead || !s.joined then s
  else s.each ([1, 2, 3].filter s.head.board.reachable.getLsbD) fun s k => s.bwkSend k pl

/-- A frame to the board head that is kept and repeated until it is acknowledged (R371). -/
def State.bwkKeep (s : State) (r : BwkRef) (pl : BwkPayload) : State :=
  (s.bwkSend 0 pl).modBoard fun b => { b with keep := b.keep ++ [(r, pl)] }

/-- The class of an event code (R397). -/
def eventClass (code : Nat) : Nat :=
  if code < 0x20 then 0 else if code < 0x40 then 1 else if code < 0x60 then 2 else if code < 0x70 then 3 else 4

/-- The code of a record-time state (R249). -/
def RecState.code : RecState → Nat
  | .unset => 0
  | .locked => 1
  | .holdover => 2
  | .stepPending => 3

/-- The epoch mark's data field (R241), with the steps whose mark the ring held back (R258). -/
def TimeBase.markData (tb : TimeBase) (r : Ring) : List Byte :=
  leBytes 6 (tb.record.ns / 1000000000) ++ leBytes 4 (tb.record.ns % 1000000000) ++ leBytes 4 (tb.record.ns % 2 ^ 32) ++
  leBytes 1 (bit tb.recSync + 2 * bit tb.ringSync + 4 * bit (tb.recStepped || r.recHeld) +
    8 * bit (tb.ringStepped || r.ringHeld) + 16 * bit tb.compatRk) ++
  leBytes 1 tb.recState.code ++ leBytes 4 (tb.ring.ns % 2 ^ 32)

/-- An event record (R310). -/
def eventRecord (id : Nat) (phase urgent : Bool) (ts : Word) (data : List Byte) (lost : Nat) : List Byte :=
  leBytes 2 id ++ leBytes 1 (bit phase + 2 * bit urgent) ++ [0] ++ leBytes 4 ts.toNat ++ padTo 20 data ++
  leBytes 2 lost ++ [0, 0]

/-- One record written to an event ring that has room, or counted in lost (R310, R311). An epoch mark that finds no room is placed before the
next event that reaches the ring, and still tells of a step (R242, R258). -/
def State.evtPut (s : State) (e : Fin 8) (id : Nat) (ts : Word) (data : List Byte) (urgent mark : Bool) : State :=
  let h := s.head.host
  let r := h.evt[e]
  if !r.takes then s
  else if r.free = 0 then
    let r' := if mark then { r with markAt := none, recHeld := r.recHeld || s.head.time.recStepped
                                    ringHeld := r.ringHeld || s.head.time.ringStepped }
      else { r with lost := min 65535 (r.lost + 1) }
    s.modHost fun h => { h with evt := vset h.evt e r' }
  else
    let v3 := decide (h.version.toNat ≥ 0x0300)
    let bytes := eventRecord id r.phase (urgent && v3) ts data (if v3 then r.lost else 0)
    let r' := { r.produced with lost := 0, markAt := if mark then some s.head.time.record.ns else r.markAt
                                recHeld := r.recHeld && !mark, ringHeld := r.ringHeld && !mark }
    let sig := r'.signals (urgent && v3)
    let s1 := s.dma (r.base.toNat + 32 * r.devIndex) bytes
    let s2 := s1.modHost fun h => { h with evt := vset h.evt e (if sig then { r' with unsignalled := 0 } else r') }
    if sig then s2.signal r.route else s2

/-- The event ring needs an epoch mark before a record: none yet, records were lost, or the record time lies more than
2 s from the last mark (R242, R311). -/
def State.needsMark (s : State) (r : Ring) : Bool :=
  match r.markAt with
  | none => true
  | some m => decide (r.lost > 0) || decide (s.head.time.record.ns > m + 2000000000) ||
      decide (m > s.head.time.record.ns + 2000000000)

/-- The event ID (R396): package, source (15 for the head) and code. -/
def State.eventId (s : State) (src : Option TileId) (code : Nat) : Nat :=
  s.pkg * 4096 + (match src with | none => 15 | some t => t.num) * 256 + code

/-- An event on one ring, with an epoch mark before it where R242 asks for one. -/
def State.evtSend (s : State) (e : Fin 8) (id : Nat) (ts : Word) (data : List Byte) (urgent : Bool) : State :=
  let r := s.head.host.evt[e]
  let s1 := if r.takes && s.needsMark r && r.free ≥ 1 then
      s.evtPut e (s.eventId none 0) s.ts (s.head.time.markData r) false true else s
  s1.evtPut e id ts data urgent false

/-- The event rings, in order. -/
def evtRings : List (Fin 8) := [0, 1, 2, 3, 4, 5, 6, 7]

/-- A ring admits an event: tiles and classes for a tile event, heads for a head event (R311, R397). -/
def State.admits (s : State) (r : Ring) (src : Option TileId) (code : Nat) : Bool :=
  match src with
  | none => r.heads.getLsbD s.pkg
  | some t => r.tiles.getLsbD (4 * s.pkg + t.num) && r.classes.getLsbD (eventClass code)

/-- The event reaches the event rings: a session is open, and the service cores of its tile and of the head are present
(R311, R398). -/
def State.eventFlows (s : State) (src : Option TileId) : Bool :=
  (s.tile .t0).die.svc && (match src with | none => true | some t => (s.tile t).die.svc)

/-- The epoch mark on every event ring that takes records (R241). -/
def State.epochMark (s : State) : State :=
  let s1 := if s.isHead && s.head.host.sessionOpen && (s.tile .t0).die.svc then
      s.each evtRings fun s e =>
        s.evtPut e (s.eventId none 0) s.ts (s.head.time.markData s.head.host.evt[e]) false true else s
  s1.modTime fun tb => { tb with recStepped := false, ringStepped := false }

/-! ### The Peat log -/

/-- The commanding source's code (R344). -/
def Source.code : Source → Nat
  | .tile => 0
  | .host => 1
  | .sedge => 2
  | .panel => 3
  | .trainLine => 4
  | .switch => 5
  | .boot => 6
  | .head => 7

/-- The doorway state code (R36). -/
def DoorState.code : DoorState → Nat
  | .locked => 0
  | .closedUnlocked => 1
  | .released => 2
  | .opening => 3
  | .openSt => 4
  | .closing => 5
  | .reversing => 6
  | .held => 7
  | .nudging => 8
  | .isolated => 9
  | .unreferenced => 10
  | .faultSafe => 11

/-- The triad mode code (R229). -/
def TriadMode.code : TriadMode → Nat
  | .triplex => 0
  | .confirm => 1
  | .joining => 2
  | .duplex => 3
  | .lost => 4

/-- Bytes 0 to 471 of a record (R344), the part that the chain covers (R350). -/
def PeatRecord.bytes (r : PeatRecord) : List Byte :=
  leBytes 4 r.seq ++ leBytes 1 r.type ++ [r.flags, r.origin, r.status] ++ leBytes 6 (r.recNs / 1000000000) ++
  leBytes 4 (r.recNs % 1000000000) ++ leBytes 4 r.ringTs.toNat ++ leBytes 1 r.source.code ++ [0] ++
  padTo 416 r.body ++ padTo 32 r.prev

/-- The chain value of record 0 (R350). -/
def State.chain0 (s : State) (t : TileId) : List Byte :=
  digest ([0x5A, 0x4B, 0x38, 0x36, 0x50, 0x45, 0x41, 0x54] ++ leBytes 8 s.head.serial.toNat ++ leBytes 1 t.num)

/-- The records that fit in MRAM (R13, R353). -/
def peatCapacity : Nat := 30720

/-- A GAP record's body (R345). -/
def Peat.gapBody (p : Peat) : List Byte :=
  leBytes 4 p.lostCount.toList.sum ++ leBytes 6 (p.lostFirst / 1000000000) ++ leBytes 4 (p.lostFirst % 1000000000) ++
  leBytes 6 (p.lostLast / 1000000000) ++ leBytes 4 (p.lostLast % 1000000000) ++
  ((p.lostCount.toList.drop 1).flatMap fun n => leBytes 2 (min 65535 n))

/-- An event on every ring that admits it, without the log (R311). Not on the board head, it crosses Boardwalk (R371). -/
def State.eventOut (s : State) (src : Option TileId) (code : Nat) (ts : Word) (data : List Byte) : State :=
  if !s.eventFlows src then s
  else if s.isHead then
    if s.head.host.sessionOpen then
      s.each evtRings fun s e =>
        if s.admits s.head.host.evt[e] src code then
          s.evtSend e (s.eventId src code) ts data (decide (eventClass code ≥ 3)) else s
    else s
  else if s.joined then s.bwkSend 0 (.event (BitVec.ofNat 16 (s.eventId src code)) (leBytes 4 ts.toNat ++ data))
  else s

/-- An entry in the open EVENTS record of a tile (R348): bytes 0–1, 4–7 and 8–27 of the event record. The record, whose entries may
have several commanding sources, carries that of the last entry that names one, a transition or the clearing of egress (DESIGN
CHOICE: R344 gives a record one source; log entry 51). -/
def State.openEntry (s : State) (t : TileId) (id : Nat) (ts : Word) (data : List Byte) (src : Option Source := none) : State :=
  s.modPeat t fun p =>
    { p with openEvents := p.openEvents ++ [leBytes 2 id ++ leBytes 4 ts.toNat ++ padTo 20 data]
             openSource := src.getD p.openSource
             openTimer := if p.openEvents.isEmpty then .running 100 else p.openTimer }

/-- The undrained blocks of the package (R355). -/
def State.undrained (s : State) : Nat :=
  (s.tileIds.map fun t => (s.tile t).peat.closed.length + (s.tile t).peat.signed.length).sum

/-- The log capacity of the package, in blocks (R353): 960 per tile, and four per data sector of the flash that is not bad. -/
def State.logCapacity (s : State) : Nat := 960 * s.tileIds.length + 4 * (s.head.flashSectors - 1 - s.head.badSectors.length)

/-- The log-high event, once each time the undrained blocks pass 90 % of the capacity (R355). The head's service core counts them, so
without it the passing is noted when it next does (DEDUCED, log entry 45). -/
def State.logHighCheck (s : State) : State :=
  let high := decide (10 * s.undrained > 9 * s.logCapacity)
  let data := leBytes 4 s.undrained ++ leBytes 4 s.logCapacity
  if !(s.tile .t0).die.svc then s
  else
    let s1 := s.modHead fun h => { h with logHigh := high }
    if high && !s.head.logHigh then (s1.openEntry .t0 (s.eventId none 0x41) s.ts data).eventOut none 0x41 s.ts data else s1

/-- One record of a tile written: chained, stored, and its block closed when it is the block's last, which may bring the log to 90 %
(R344, R350, R351, R355). -/
def State.peatStore (s : State) (t : TileId) (type : Nat) (src : Source) (body : List Byte) (flags : Nat) : State :=
  let tl := s.tile t
  let p := tl.peat
  let prev := match p.chain with
    | some c => c
    | none => s.chain0 t
  let r : PeatRecord :=
    { seq := p.nextSeq, type := type
      flags := BitVec.ofNat 8 (bit s.head.time.recSync + 2 * bit s.head.time.ringSync + flags)
      origin := BitVec.ofNat 8 (t.num + 16 * s.pkg)
      status := BitVec.ofNat 8 (tl.door.st.code + 16 * tl.triad.mode.code)
      recNs := s.head.time.record.ns, ringTs := s.ringTs, source := src, body := body, prev := prev, sig := [] }
  let last := decide (p.nextSeq % 32 = 31)
  let b := p.nextSeq / 32
  let s1 := s.modPeat t fun p =>
    { p with nextSeq := p.nextSeq + 1, records := p.records ++ [r], chain := some (digest r.bytes),
             closed := if last then p.closed ++ [b] else p.closed }
  if last then (s1.modHead fun h => { h with signQueue := h.signQueue ++ [(t, b)] }).logHighCheck else s1

/-- A record lost: counted by type, with log-full raised at the first loss of a run to a full log (R355). An entry lost while the service
core is absent is counted alone (R352). -/
def State.peatLose (s : State) (t : TileId) (type : Nat) (full : Bool) : State :=
  let p := (s.tile t).peat
  let first := decide (p.lostCount.toList.sum = 0)
  let s1 := s.modPeat t fun p =>
    { p with lostCount := if h : type < 12 then vset p.lostCount ⟨type, h⟩ (p.lostCount[type] + 1) else p.lostCount,
             lostFirst := if first then s.head.time.record.ns else p.lostFirst,
             lostLast := s.head.time.record.ns, fullSeen := p.fullSeen || full }
  if p.fullSeen || !full then s1
  else (s1.openEntry t (s.eventId (some t) 0x77) s.ts (leBytes 1 type)).eventOut (some t) 0x77 s.ts (leBytes 1 type)

/-- A block of a tile moved from MRAM into a place of a flash sector (R353). -/
def State.peatToFlash (s : State) (t : TileId) (b sector : Nat) : State :=
  let s1 := s.modPeat t fun p =>
    { p with inFlash := p.inFlash ++ [(b, sector, p.records.filter fun x => x.seq / 32 == b)]
             records := p.records.filter fun x => x.seq / 32 != b }
  s1.modHead fun h =>
    { h with sectors := if h.sectors.any (·.1 == sector)
      then h.sectors.map fun x => if x.1 == sector then (x.1, x.2.1, x.2.2 + 1) else x
      else h.sectors ++ [(sector, t, 1)] }

/-- The sector that takes the next block of a tile: one of its own with a free place, else the lowest unused data sector that
is not bad (R353). -/
def State.flashPlace (s : State) (t : TileId) : Option Nat :=
  match s.head.sectors.find? fun x => x.2.1 == t && decide (x.2.2 < 4) && !s.head.badSectors.contains x.1 with
  | some x => some x.1
  | none => ((List.range (s.head.flashSectors - 1)).map (· + 1)).find? fun i =>
      !s.head.badSectors.contains i && !s.head.sectors.any (·.1 == i)

/-- The oldest signed undrained block of a tile that stands in MRAM (R353). -/
def Peat.oldestSigned (p : Peat) : Option Nat := p.signed.find? fun b => p.records.any (·.seq / 32 == b)

/-- Room in MRAM while the flash has some (R353, R355): with the region full, the oldest signed block moves to a free place of the flash. Where no
block of the full region is signed yet, or the head's service core is absent, nothing can move, and the log counts as full
(DESIGN CHOICE, log entry 45). -/
def State.peatRoom (s : State) (t : TileId) : State :=
  let p := (s.tile t).peat
  if p.records.length < peatCapacity || !(s.tile .t0).die.svc then s
  else match p.oldestSigned, s.flashPlace t with
    | some b, some sec => s.peatToFlash t b sec
    | _, _ => s

/-- Some blocks of a tile freed under WRAP and noted for the WRAP record (R355). -/
def State.peatFree (s : State) (t : TileId) (bs : List Nat) : State :=
  let s1 := s.modPeat t fun p =>
    { p with records := p.records.filter fun x => !bs.contains (x.seq / 32), closed := p.closed.filter (!bs.contains ·)
             signed := p.signed.filter (!bs.contains ·), inFlash := p.inFlash.filter (!bs.contains ·.1)
             draining := p.draining.filter (!bs.contains ·), wrapped := p.wrapped ++ bs }
  let s2 := s1.modHead fun h =>
    { h with signQueue := h.signQueue.filter fun x => !(x.1 == t && bs.contains x.2)
             drainQueue := h.drainQueue.filter fun x => !(x.1 == t && bs.contains x.2) }
  (s2.openEntry t (s.eventId (some t) 0x78) s.ts (leBytes 4 bs.length)).eventOut (some t) 0x78 s.ts (leBytes 4 bs.length)

/-- WRAP frees the tile's oldest undrained sector in flash, whose places the oldest signed blocks of MRAM then take, or,
when it has none there, its oldest undrained block in MRAM (R353, R355). -/
def State.peatWrap (s : State) (t : TileId) : State :=
  let p := (s.tile t).peat
  let oldest := match p.records with
    | [] => []
    | r :: _ => [r.seq / 32]
  match p.inFlash with
  | [] => s.peatFree t oldest
  | (_, sec, _) :: _ =>
    let bs := (p.inFlash.filter (·.2.1 == sec)).map (·.1)
    let s1 := (s.peatFree t bs).modHead fun h => { h with sectors := h.sectors.filter (·.1 != sec) }
    let ready := (((s1.tile t).peat.signed).filter fun b => (s1.tile t).peat.records.any (·.seq / 32 == b)).take 4
    if ready.isEmpty then s1.peatFree t oldest
    else s1.each ready fun s b => s.peatToFlash t b sec

/-- A WRAP record's body (R345). -/
def Peat.wrapBody (p : Peat) : List Byte :=
  leBytes 4 (p.wrapped.headD 0) ++ leBytes 4 (p.wrapped.getLastD 0) ++ leBytes 4 p.wrapped.length

/-- The body of the open EVENTS record, of at most 16 entries (R348). -/
def Peat.eventsBody (p : Peat) : List Byte := (p.openEvents.take 16).flatten

/-- The open EVENTS record taken to be written; entries beyond its sixteenth open the next. -/
def Peat.eventsTaken (p : Peat) : Peat :=
  let rest := p.openEvents.drop 16
  { p with openEvents := rest, openTimer := if rest.isEmpty then .idle else .running 100
           openSource := if rest.isEmpty then .tile else p.openSource }

/-- A record written with what must stand before it: room under log_full, the WRAP record of freed blocks with the EVENTS record of its
log-wrap event, and the GAP record of lost records (R348, R352, R355). -/
def State.peatPut (s : State) (t : TileId) (type : Nat) (src : Source) (body : List Byte) (flags : Nat := 0) : State :=
  let wrap := decide ((s.tile t).par 0x92 3 = 1)
  let s := s.peatRoom t
  let full := decide ((s.tile t).peat.records.length ≥ peatCapacity)
  if full && !wrap then s.peatLose t type true
  else
    let s1 := if full then s.peatWrap t else s
    let s2 := if (s1.tile t).peat.wrapped.isEmpty then s1 else
      (s1.peatStore t 0x09 .tile (s1.tile t).peat.wrapBody flags).modPeat t fun p => { p with wrapped := [] }
    let s2 := if (s2.tile t).peat.openEvents.isEmpty then s2 else
      (s2.modPeat t Peat.eventsTaken).peatStore t 0x03 (s2.tile t).peat.openSource (s2.tile t).peat.eventsBody flags
    let s3 := if (s2.tile t).peat.lostCount.toList.sum = 0 then s2 else
      (s2.peatStore t 0x0A .tile (s2.tile t).peat.gapBody flags).modPeat t fun p =>
        { p with lostCount := Vector.replicate 12 0, fullSeen := false }
    s3.peatStore t type src body flags

/-- The open EVENTS record closed (R348). -/
def State.closeEvents (s : State) (t : TileId) (flags : Nat := 0) : State :=
  let p := (s.tile t).peat
  if p.openEvents.isEmpty then s
  else
    (s.modPeat t Peat.eventsTaken).peatPut t 0x03 p.openSource p.eventsBody flags

/-- A record entry of the triad: written by the service core, held while it is absent, lost beyond 256 (R352). -/
def State.peatEntry (s : State) (t : TileId) (type : Nat) (src : Source) (body : List Byte) : State :=
  let tl := s.tile t
  if tl.die.svc then (s.closeEvents t).peatPut t type src body
  else if tl.peat.held.length < 256 then s.modPeat t fun p => { p with held := p.held ++ [(type, src, body)] }
  else s.peatLose t type false

/-- A logged event enters the open EVENTS record, which is closed when it holds 16 entries (R348), or waits while the service core is
absent (R352). -/
def State.logEvent (s : State) (t : TileId) (id : Nat) (ts : Word) (data : List Byte) (src : Option Source := none) : State :=
  let tl := s.tile t
  if tl.die.svc then
    let s1 := s.openEntry t id ts data src
    if (s1.tile t).peat.openEvents.length ≥ 16 then s1.closeEvents t else s1
  else if tl.peat.held.length < 256 then
    s.modPeat t fun p => { p with held := p.held ++ [(0x03, src.getD .tile, leBytes 2 id ++ leBytes 4 ts.toNat ++ padTo 20 data)] }
  else s.peatLose t 3 false

/-- A tile event with its time stamp: into the log where the catalogue says so, then to the event rings (R398, R399). -/
def State.raiseAt (s : State) (t : TileId) (code : Nat) (ts : Word) (data : List Byte) (logged : Bool := true)
    (src : Option Source := none) : State :=
  let s1 := if logged then s.logEvent t (s.eventId (some t) code) ts data src else s
  s1.eventOut (some t) code ts data

/-- A tile event stamped now. -/
def State.raise (s : State) (t : TileId) (code : Nat) (data : List Byte) (logged : Bool := true) (src : Option Source := none) :
    State :=
  s.raiseAt t code s.ts data logged src

/-- A head event: into the log of the head tile where the catalogue says so, then to the rings (R398, R400). -/
def State.raiseHead (s : State) (code : Nat) (data : List Byte) (logged : Bool := true) : State :=
  let s1 := if logged then s.logEvent .t0 (s.eventId none code) s.ts data else s
  s1.eventOut none code s.ts data

/-! ### Completions -/

/-- The outstanding entry of a host command, by queue, tag and opcode. -/
def State.findOut (s : State) (h : HostCmd) (op : Nat) : Option Outstanding :=
  s.head.host.outstanding.find? fun o =>
    o.queue == h.queue && o.tag == h.tag && o.opcode == op && o.session == h.session &&
      o.hostId == h.hostId && o.forwarded.isNone && !o.lost

/-- A completion record (R308). -/
def completionRecord (o : Outstanding) (phase : Bool) (status detail : Nat) (ts : Word) (result : List Byte) :
    List Byte :=
  leBytes 4 o.tag.toNat ++ leBytes 1 o.opcode ++ leBytes 1 status ++ leBytes 1 o.queue.val ++ leBytes 1 (bit phase) ++
  leBytes 2 o.sqHead ++ leBytes 2 detail ++ leBytes 4 ts.toNat ++ leBytes 4 o.target.toNat ++ padTo 12 result

/-- Only the commands that still stand in the host interface wait in the triad mailboxes (R316). -/
def State.mailboxKeep (s : State) : State :=
  let keep := s.head.host.outstanding
  s.each TileId.all fun s t => s.modDoor t fun d =>
    { d with mailbox := d.mailbox.filter fun m => keep.any fun o => o.queue == m.1.queue && o.tag == m.1.tag }

/-- The reference of a forwarded command (R371). -/
def Outstanding.ref (o : Outstanding) : BwkRef := { queue := o.queue, tag := o.tag, seq := o.seq }

/-- The end of a session as a host reset (R316, R388): the ring registers, the MSI-X table and the pending bits return to
their reset values, fetched commands are discarded, and those that wait in a triad mailbox never act, on the other packages of the
board too, which are told. Commands that a board head sent to this package stay. -/
def State.hostReset (s : State) : State :=
  let s0 := if s.head.host.sessionOpen then s.bwkTell (.session none) else s
  (s0.modHost fun h =>
    { HostIf.reset with ready := h.ready, session := h.session, nextSeq := h.nextSeq
                        outstanding := h.outstanding.filter (·.remote) }).mailboxKeep

/-- The completion of a fetched command: its record into the completion ring where its entry is reserved, unless it is quiet and succeeded,
or the ring takes no record; its reserved entry is released (R303, R305, R306, R308). While the service core of the package head is
absent the host has lost the package, and the command ends without a record (R27; log 24). -/
def State.completeRaw (s : State) (o : Outstanding) (status detail : Nat) (result : List Byte) : State :=
  let s0 := s.modHost fun h => { h with outstanding := h.outstanding.erase o }
  let served := (s.tile .t0).die.svc
  if o.remote then
    if !served then s0
    else
      s0.bwkKeep o.ref (.completion o.ref (BitVec.ofNat 8 status) detail (padTo 12 result))
  else
    let c := o.cplRing
    let r := { s.head.host.cpl[c] with reserved := (s.head.host.cpl[c]).reserved - 1 }
    let quiet := o.flags.getLsbD 2 && status == 0
    if !r.enabled || r.stopped || quiet || !served then
      s0.modHost fun h => { h with cpl := vset h.cpl c r }
    else
      let bytes := completionRecord o r.phase status detail s.ts result
      let r' := r.produced
      let sig := r'.signals false
      let s1 := (s0.dma (r.base.toNat + 32 * r.devIndex) bytes).modHost
        fun h => { h with cpl := vset h.cpl c (if sig then { r' with unsignalled := 0 } else r') }
      if sig then s1.signal r.route else s1

/-- The completion of a fetched command; when BYE waits and nothing else is outstanding, BYE completes too and the session
ends (R317). -/
def State.completeOut (s : State) (o : Outstanding) (status detail : Nat) (result : List Byte) : State :=
  let s1 := s.completeRaw o status detail result
  match s1.head.host.bye, s1.head.host.outstanding.filter (!·.remote) with
  | some _, [b] => if b.opcode = 0x02 && !b.waiting then (s1.completeRaw b 0 0 []).hostReset else s1
  | some _, [] => s1.hostReset
  | _, _ => s1

/-- The completion of a host command. -/
def State.complete (s : State) (h : HostCmd) (op status detail : Nat) (result : List Byte := []) : State :=
  match s.findOut h op with
  | none => s
  | some o => s.completeOut o status detail result

/-- The tile of this package that a fetched command names (R304). -/
def State.isFor (s : State) (o : Outstanding) (t : TileId) : Bool := o.target.toNat % 16 == 4 * s.pkg + t.num

/-- A command stands in a tile's service core or its triad mailbox: it was passed on to the tile, and the triad has not accepted it. -/
def State.standsAt (s : State) (t : TileId) (o : Outstanding) : Bool :=
  s.isFor o t && o.forwarded.isNone && !o.behind && !o.accepted

/-- The commands that stand in a tile's service core or triad mailbox are lost with it (R320); the board head is told of one that it
forwarded, as long as the package's own service core can tell it. -/
def State.loseCommands (s : State) (t : TileId) : State :=
  let far := s.head.host.outstanding.filter fun o => o.remote && s.standsAt t o
  let s1 := (s.modHost fun h =>
    { h with outstanding := (h.outstanding.filter fun o => !(o.remote && s.standsAt t o)).map fun o =>
        if s.standsAt t o then { o with lost := true } else o }).modDoor t fun d => { d with mailbox := [] }
  if t == .t0 || !(s.tile .t0).die.svc then s1 else s1.each far fun s o => s.bwkKeep o.ref (.lost o.ref)

/-- The opcodes that the triad of the target tile evaluates (R321). -/
def triadOps : List Nat :=
  [0x10, 0x13, 0x20, 0x21, 0x22, 0x23, 0x24, 0x25, 0x26, 0x27, 0x28, 0x29, 0x30, 0x31, 0x40, 0x41, 0x43, 0x44, 0x64, 0x65, 0x81, 0x92]

/-- The host command that a waiting write of the triad came from (R223). -/
def hostCmdOf : Instr → Option HostCmd
  | .cfgWriteEntries h _ => some h
  | .cfgWriteBlock h _ _ _ => some h
  | .policyActivate h => some h
  | .doorRelease h => some h
  | .doorWithdraw h => some h
  | .lswSet h _ _ => some h
  | .lswSetClear h _ _ => some h
  | .ioSet h _ _ => some h
  | .ioSetClear h _ _ => some h
  | .calRequestFull h => some h
  | .calRequestShadow h _ => some h
  | .calPermit h => some h
  | .calCancel h => some h
  | .calRecover h => some h
  | .selftestRequest h _ _ => some h
  | .soundingWrite h _ _ _ _ => some h
  | .shadowConfirmAccept h => some h
  | .shadowConfirmDiscard h => some h
  | .sedgeOpen h _ _ => some h
  | .sedgeClose h _ => some h
  | .triadReadmit h _ => some h
  | .keyRegister h _ => some h
  | _ => none

/-- A fetched command has reached the triad mailbox of its tile: it waits there, or the triad has taken it. -/
def State.reachedTriad (s : State) (t : TileId) (o : Outstanding) : Bool :=
  let same := fun (h : HostCmd) => o.queue == h.queue && o.tag == h.tag
  o.accepted || (s.tile t).door.mailbox.any (fun m => same m.1) ||
    (s.tile t).triad.held.any fun i => (hostCmdOf i).any same

/-- An earlier command of the same queue for the same tile has still to reach the triad mailbox, so that a later one does not yet (R307). -/
def State.outOfTurn (s : State) (t : TileId) (o : Outstanding) : Bool :=
  triadOps.contains o.opcode &&
    (s.head.host.outstanding.takeWhile (· != o)).any fun x =>
      x.queue == o.queue && x.remote == o.remote && triadOps.contains x.opcode && s.isFor x t && x.forwarded.isNone && !x.lost &&
        !s.reachedTriad t x

/-- The shape of every host command at its tile: it acts only while its descriptor is outstanding and released; a
command that was discarded never acts (R305, R316), and one that the triad evaluates waits its turn (R307); without the package head's service core nothing acts, and without the
tile's it completes TILE_UNAVAILABLE (R27, R309). -/
def onCmd (h : HostCmd) (op : Nat) (s : State) (f : State → State) : Host.Outcome State Fault Refusal :=
  onTile h.tile s fun s =>
    match s.findOut h op with
    | none => s
    | some o =>
      if o.waiting || !(s.tile .t0).die.svc || s.outOfTurn h.tile o then s
      else if !(s.tile h.tile).die.svc then s.completeOut o 0x0A 0 []
      else f s

/-- The entry of a command marked accepted by the triad (R316). -/
def State.markAccepted (s : State) (h : HostCmd) (op : Nat) : State :=
  s.modHost fun hi =>
    { hi with outstanding := hi.outstanding.map fun o =>
        if o.queue == h.queue && o.tag == h.tag && o.opcode == op && o.session == h.session then { o with accepted := true } else o }

/-- A CONFIG record (R349): session, queue, opcode, status, tag, target, host_id, digests before and after, entries. -/
def State.configRecord (s : State) (t : TileId) (h : Option HostCmd) (op status : Nat) (before after : List Byte)
    (entries : List Byte) : State :=
  let hi := s.head.host
  let target := match h with
    | some c => if hi.version == 0x0100 then t.num else 4 * s.pkg + t.num + 16 * (match c.axis with | some a => a.num | none => 7)
    | none => 0
  s.peatEntry t 0x04 (if h.isSome then .host else .boot)
    (leBytes 4 (match h with | some c => c.session.toNat | none => 0) ++
     leBytes 1 (match h with | some c => c.queue.val | none => 0) ++ leBytes 1 op ++ leBytes 1 status ++ ([0] : List Byte) ++
     leBytes 4 (match h with | some c => c.tag.toNat | none => 0) ++ leBytes 4 target ++
     leBytes 8 (match h with | some c => c.hostId.toNat | none => 0) ++ padTo 32 before ++ padTo 32 after ++ entries)

end Sys2Proof.Machine
end

