-- ==== Sys2Proof/Machine/Flags.lean ====
section
/-!
DEFINITION. The computed flags: pair proofs, release and zero speed, the egress rule, the seal, the safety faults, the
conditions of the SRA contact, and the status words that commands return.
-/

namespace Sys2Proof.Machine

/-! ### Proofs (R180) -/

/-- The leaf-closed pair is proven. -/
def Tile.leafProven (tl : Tile) : Bool := tl.link.up.pLeaf == .active

/-- The lock-engaged pair is proven. -/
def Tile.lockProven (tl : Tile) : Bool := tl.link.up.pLock == .active

/-- The lock-engaged pair reads released. -/
def Tile.lockReleased (tl : Tile) : Bool := tl.link.up.pLock == .inactive

/-- A debounced switch input reads active under sw_active (R83). -/
def Axis.swActive (x : Axis) (a : AxisId) (sw : SwitchId) : Bool :=
  let lv := match sw with
    | .home => x.fb.swLevel.a
    | .limC => x.fb.swLevel.b
    | .limO => x.fb.swLevel.c
  lv == (pGet x.inForce (pKey 0x08 9 0 (some a)) != 0)

/-- Axis C is proven stowed. -/
def Tile.stowProven (tl : Tile) : Bool :=
  let c := tl.ax.c
  !tl.stepFitted || (c.fb.referenced && tl.inClosed .C) ||
  (!c.fb.referenced && tl.parA .C 0x07 1 == 0 && !c.fb.suspect && c.swActive .C .home)

/-- Proven closed and locked. -/
def Tile.provenClosed (tl : Tile) : Bool := tl.leafProven && tl.lockProven && tl.stowProven

/-- Every used axis is referenced. -/
def Tile.allReferenced (tl : Tile) : Bool := tl.usedAxes.all fun a => (tl.ax.get a).fb.referenced

/-! ### Zero speed, release, egress, isolation (R37, R188 to R191) -/

/-- The debounced level of the train line that carries a role (roles 10 to 13 of R417). -/
def Tile.tlRole (tl : Tile) (i : Nat) : Bool := tl.link.up.tlLevel.toList.getD (tl.role i - 16) false

/-- Zero speed is valid. -/
def Tile.zeroValid (tl : Tile) : Bool := tl.tlRole 10 && tl.tlRole 11 && !tl.door.tlDisc.1

/-- Release is valid. -/
def Tile.releaseValid (tl : Tile) : Bool :=
  tl.tlRole 12 && tl.tlRole 13 && !tl.door.tlDisc.2 && tl.zeroValid && (tl.par 0x92 0 == 0 || tl.door.hostRelease)

/-- The egress handle pair is active; a damaged pair counts only while zero speed is valid. -/
def Tile.egressActive (tl : Tile) : Bool :=
  match tl.link.up.pEgress with
  | .active => true
  | .discrepant => tl.zeroValid
  | .fault => tl.zeroValid
  | _ => false

/-- The byte offsets of the signals of a kind in a connection's signal map, in the order of its entries (R213, R417). -/
def Tile.sigOffsets (tl : Tile) (conn kind : Nat) : List Nat :=
  (List.range 8).filterMap fun i =>
    if tl.parN 0x89 (21 + 2 * i) conn = kind then some (tl.parN 0x89 (22 + 2 * i) conn) else none

/-- The egress rule permits unlocking (R189). Where a connection maps several speeds, each has to permit (DESIGN CHOICE: R213 does
not exclude a second entry of a kind; log entry 56). -/
def Tile.egressPermits (tl : Tile) : Bool :=
  match tl.par 0x87 1 with
  | 0 => true
  | 1 => tl.zeroValid
  | _ =>
    tl.zeroValid ||
    (let c := tl.parN 0x87 3
     let offs := tl.sigOffsets c 2
     match tl.sedge.toList[c]? with
     | some k =>
       k.state == .valid && !offs.isEmpty && offs.all fun off => decide (off + 2 ≤ k.payload.length) &&
         (let v := ofBe (slice k.payload off 2)
          decide (v ≠ 0xFFFF) && decide ((v : Int) ≤ tl.par 0x87 2))
     | none => false)

/-! ### Load-switch roles -/

/-- The load-switch channel of a role (roles 14 to 21 of R417): 14 the lock solenoid LS0, 17 the buzzer LS3. -/
def Tile.lsRole (tl : Tile) (i : Nat) : Nat := tl.role i - 32

/-! ### The bittern configuration and the seal (R187, R193) -/

/-- The bittern monitor's configuration as the parameters in force give it. -/
def Tile.bitternConfig (tl : Tile) : List Byte :=
  ((List.range 4).flatMap fun i =>
    let p := tl.role i
    leBytes 1 p ++ leBytes 1 (tl.parN 0x0C 1 p) ++ leBytes 1 (tl.parN 0x0C 3 p) ++ leBytes 1 (tl.parN 0x0C 4 p) ++
      leBytes 4 (tl.parN 0x0C 2 p)) ++
  leBytes 2 (tl.parN 0x0C 5) ++ leBytes 2 (tl.parN 0x0C 6)

/-- The fallback image in force: the slot programmed last, all off while every slot is blank (R162). -/
def FieldDie.image (f : FieldDie) : BitVec 26 := f.images.getLast?.getD 0

/-- The role pins as the parameters in force give them. -/
def Tile.roles (tl : Tile) : List Nat := (List.range 22).map tl.role

/-- A tile's part of the safety parameter block (R193). -/
def Tile.safetyBlock (tl : Tile) : List Byte :=
  (safetySections.flatMap fun i => writePieces tl.inForce (sectionPieces tl.roles i)) ++ tl.bitternConfig ++
    leBytes 4 tl.field.image.toNat

/-- The safety parameter block of the package (R193). -/
def State.safetyBlock (s : State) : List Byte := s.tileIds.flatMap fun t => (s.tile t).safetyBlock

/-- A seal code is in force: every tile of the package has a verified active bundle (R194, R363). -/
def State.sealInForce (s : State) : Bool := s.tileIds.all fun t => (s.tile t).die.policyOk

/-- The seal code of the block in force (R193). -/
def State.sealCode (s : State) : Nat := ofLe ((digest s.safetyBlock).take 2)

/-- The seal matches (R193): the switch word equals the code; never while no code is in force (R363). -/
def State.sealOk (s : State) : Bool := s.sealInForce && decide (s.head.sealSw.toNat = s.sealCode)

/-! ### What verifies (R358, R360) -/

/-- The length of a Falcon-1024 signature (R351, R358, R360). -/
def sigLen : Nat := 1280

/-- The signature and the key digest of a bundle verify under the registered key (R360). -/
def Die.bundleSigned (d : Die) (b : List Byte) : Bool :=
  match d.key with
  | none => false
  | some k =>
    decide (b.length ≥ 48 + sigLen) && slice b 16 32 == digest k &&
      Config.falconVerify k (b.take (b.length - sigLen)) (b.drop (b.length - sigLen))

/-- The longest firmware image, 384 KiB (R358). -/
def fwMax : Nat := 393216

/-- A firmware image verifies on a die (R358): format, length, reserved bytes, revision C, security version and signature. -/
def Die.imageOk (d : Die) (img : List Byte) : Bool :=
  decide (img.length ≥ 64 + sigLen) && decide (img.length ≤ fwMax) && fieldLe img 0 4 == 1 && fieldLe img 4 4 == img.length &&
  decide (fieldLe img 8 4 ≥ d.secCounter) && fieldLe img 12 4 / 4 % 2 == 1 && ofLe (slice img 16 48) == 0 &&
  Config.falconVerify Config.firmwareKey (img.take (img.length - sigLen)) (img.drop (img.length - sigLen))

/-! ### Safety faults (R195) -/

/-- The safety faults whose cause is present, latched or recorded in ISOLATED (R41), lowest code first. -/
def State.faults (s : State) (t : TileId) : List Nat :=
  let tl := s.tile t
  let d := tl.door
  let u := tl.link.up
  let bad : PairStatus → Bool := fun p => p == .fault || p == .discrepant
  let live : List Nat :=
  (if d.latched.contains 0x01 then [0x01] else []) ++
  (if d.sraDisagree then [0x02] else []) ++
  (if u.bittern == .fault then [0x03] else []) ++
  (if d.proofDisagree || u.bitConfig != some tl.bitternConfig then [0x04] else []) ++
  (if s.sealOk then [] else [0x05]) ++
  (if d.latched.contains 0x06 then [0x06] else []) ++
  (if bad u.pLeaf || bad u.pLock || (bad u.pIso && d.st != .isolated) then [0x07] else []) ++
  (if tl.usedAxes.any fun a => u.fabFault.get a then [0x08] else []) ++
  (if tl.usedAxes.any fun a => (tl.ax.get a).mo.senseFault then [0x09] else []) ++
  ([0x0A, 0x0B, 0x0C, 0x0D, 0x10, 0x11, 0x12].filter d.latched.contains)
  [1, 2, 3, 4, 5, 6, 7, 8, 9, 10, 11, 12, 13, 16, 17, 18].filter fun c => live.contains c || d.isoFaults.contains c

/-- The codes that stay pending until an edge reset (R195). -/
def untilReset (code : Nat) : Bool := [0x01, 0x06, 0x0A, 0x0B, 0x0D, 0x10, 0x11, 0x12].contains code

/-- The cause of a latched fault is gone at an edge reset (R195). -/
def State.causeGone (s : State) (t : TileId) (code : Nat) : Bool :=
  let tl := s.tile t
  match code with
  | 0x01 =>
    decide (tl.link.missed < 4) && (match tl.link.faultAt with
      | none => true
      | some i => decide (s.now ≥ i + 10000000))
  | 0x0A =>
    (match tl.door.ls0At with
      | none => true
      | some i => decide (s.now ≥ i + 20000000))
  | 0x0C => tl.triad.mode == .triplex || tl.triad.mode == .duplex
  | 0x0D => !tl.door.eccBad
  | _ => true

/-! ### Calibration and the SRA contact (R140, R182) -/

/-- A calibration cycle runs (R140). -/
def Doorway.calRunning (d : Doorway) : Bool :=
  match d.cal with
  | .cycle _ _ _ => true
  | _ => false

/-- A recovery close after an aborted run is under way (R142). -/
def Doorway.recovering (d : Doorway) : Bool :=
  match d.cal with
  | .aborted true _ => true
  | _ => false

/-- Rows 1 and 2 of R182. -/
def Tile.sraRows12 (tl : Tile) : Bool :=
  (tl.door.st == .locked || tl.door.st == .released || tl.door.st == .unreferenced) && !tl.door.calRunning &&
  tl.provenClosed

/-- Every condition of R182. -/
def State.sraCloses (s : State) (t : TileId) : Bool :=
  let tl := s.tile t
  tl.sraRows12 && (s.faults t).isEmpty && s.sealOk && tl.door.proofOk && !tl.link.up.fallback

/-! ### The choice of state (R42) -/

/-- The first row of R42 whose condition holds. -/
def State.chooseState (s : State) (t : TileId) (startUp : Bool) : DoorState :=
  let tl := s.tile t
  if !(s.faults t).isEmpty then .faultSafe
  else if startUp && tl.link.up.pIso == .active then .isolated
  else if tl.leafProven && tl.lockProven then (if tl.allReferenced then .locked else .unreferenced)
  else if tl.allReferenced then .held
  else .unreferenced

/-! ### Status words -/

/-- The code of a pair status (R328). -/
def PairStatus.code : PairStatus → Nat
  | .inactive => 0
  | .active => 1
  | .transition => 2
  | .discrepant => 3
  | .fault => 4

/-- The result of a door or axis command (R326): state, transition, flags, TS32. -/
def State.doorResult (s : State) (t : TileId) (tno : Nat) : List Byte :=
  let tl := s.tile t
  leBytes 1 tl.door.st.code ++ leBytes 1 tno ++
  leBytes 1 (bit tl.releaseValid + 2 * bit tl.door.hostRelease + 4 * bit tl.door.egress) ++ [0] ++ leBytes 4 s.ts.toNat

/-- The state code of a Sedge connection (R333). -/
def SedgeState.code : SedgeState → Nat
  | .closed => 0
  | .starting => 1
  | .valid => 2
  | .substitute => 3
  | .failed => 4

/-- The state code of a CAN controller (R333). -/
def CanState.code : CanState → Nat
  | .errorActive => 0
  | .errorPassive => 1
  | .busOff => 2
  | .sleeping => 3

/-- The state code of a Causeway node (R271). -/
def CwyState.code : CwyState → Nat
  | .disabled => 0
  | .listen => 1
  | .coldstart => 2
  | .backoff => 3
  | .integrate => 4
  | .active => 5

/-- The ring mode code (R260). -/
def CwyMode.code : CwyMode → Nat
  | .normal => 0
  | .notice => 1
  | .healed => 2
  | .repair => 3

/-- The bits of a bit vector of n flags, as the natural number. -/
def maskOf (l : List Bool) : Nat := ofBits l

/-- The triad runs: it has formed, it is not lost, and its die is out of reset (R217, R230). -/
def Tile.triadRuns (tl : Tile) : Bool := tl.triad.formed && tl.triad.mode != .lost && !tl.die.inReset

/-- The triad's writes commit: while the signatures of a pair are compared, every write is held (R223). -/
def Tile.triadActs (tl : Tile) : Bool := tl.triadRuns && tl.triad.mode != .confirm

/-- A command whose writes fall due while the voter holds them back: it takes effect at the commit, in its order (R223, R224). While
no triad runs it has none. -/
def State.holdBack (s : State) (t : TileId) (i : Instr) : State :=
  if (s.tile t).triadRuns then s.modTriad t fun tr => { tr with held := tr.held ++ [i] } else s

end Sys2Proof.Machine
end

