-- ==== Sys2Proof/Machine/TimeSync.lean ====
section
/-!
DEFINITION. The time base of chapter 13: steps of the record and ring clocks, timer outputs, the record-time state machine,
the PTP messages and the time commands.
-/

namespace Sys2Proof

/-- A port's number. -/
def EthPort.num : EthPort → Nat
  | .eth0 => 0
  | .eth1 => 1

/-- The default data set comparison (R246): lower is better. -/
def Announce.key (a : Announce) : List Nat :=
  [a.priority1, a.quality, a.priority2, a.identity.toNat, a.steps, a.sender.toNat]

/-- A TIMER_ARM payload breaks a rule: its detail (R7, R254, R337). -/
def TimerPayload.broken (p : TimerPayload) (compat : Bool) : Option Nat :=
  if p.tpo > 7 || p.startNs ≥ (if compat then 2 ^ 32 else 1000000000) then some 7
  else if compat && p.startSec ≠ 0 then some 337
  else if p.period ≠ 0 && (p.period < 1000 || p.period > 1000000000000) then some 7
  else if p.width < 8 || p.width > 1000000000 then some 7
  else if p.period ≠ 0 && p.width ≥ p.period then some 254
  else none

end Sys2Proof

namespace Sys2Proof.Machine

/-! ### Synchronisation and the timer outputs (R253 to R257) -/

/-- Ring time is synchronised: the package head's node is ACTIVE and the last offset lies within ring_sync_max (R253). -/
def State.ringSynced (s : State) : Bool :=
  s.head.cwy.state == .active && decide (s.head.time.ringOffset.natAbs ≤ 1000 * s.parH 0x11 11)

/-- A change of the ring-time state is noted with its event (R253). -/
def State.ringSyncNote (s : State) : State :=
  if s.ringSynced = s.head.time.ringSync then s
  else
    (s.modTime fun tb => { tb with ringSync := s.ringSynced }).raiseHead 0x05
      (leBytes 1 (bit s.ringSynced) ++ leBytes 3 0 ++ leInt 4 s.head.time.ringOffset)

/-- The ns of a timer's class (R254). -/
def State.classNs (s : State) (ring : Bool) : Nat := if ring then s.head.time.ring.ns else s.head.time.record.ns

/-- The TS32 of a timer's class. -/
def State.classTs (s : State) (ring : Bool) : Word := BitVec.ofNat 32 (s.classNs ring)

/-- A timer's class is synchronised. -/
def State.classSync (s : State) (ring : Bool) : Bool := if ring then s.head.time.ringSync else s.head.time.recSync

/-- One timer output changed. -/
def State.modTimer (s : State) (i : Fin 8) (f : Timer → Timer) : State :=
  s.modTime fun tb => { tb with timers := vmod tb.timers i f }

/-- The output's level changed, with its mark in the outputs. -/
def State.timerLevel (s : State) (i : Fin 8) (high : Bool) : State :=
  (s.modTimer i fun x => { x with outHigh := high }).emit (.timer i.val high)

/-- A leading edge of a timer at a time of its class (R255, R257): the level, the count and, at the first, the last, a late
or a missed edge, the timer event. -/
def State.timerLead (s : State) (i : Fin 8) (edge : Nat) (late : Bool) : State :=
  let x := s.head.time.timers[i]
  let first := x.fired == 0
  let last := x.period == 0 || (x.count != 0 && x.fired + 1 ≥ x.count)
  let s1 := (s.timerLevel i (!x.low)).modTimer i fun x =>
    { x with inPulse := true, pulseLow := x.low, fired := x.fired + 1, missed := 0, next := edge + x.period, armed := !last }
  if first || last || late || x.missed > 0 then
    s1.raiseHead 0x06
      (leBytes 1 i.val ++ leBytes 1 (bit first + 2 * bit last + 4 * bit late + 8 * bit (!s.classSync x.ring)) ++ leBytes 2 0 ++
        leBytes 4 (min x.missed 0xFFFFFFFF) ++ leBytes 4 (edge % 2 ^ 32)) false
  else s1

/-- The least k with start + k × period at or after a time. -/
def Timer.edgeFrom (x : Timer) (at_ : Nat) : Nat :=
  if x.start ≥ at_ then 0 else (at_ - x.start + x.period - 1) / x.period

/-- A step of a timer's class acts on an armed timer (R257): a forward step past a once-timer fires it late, a periodic one
realigns and counts the edges jumped over, and the compatibility compare acts through its difference alone: from the TS32 of its start before
the first edge, and from the time of the next edge, a period after the last, afterwards (R256). -/
def State.timerStepped (s : State) (ring : Bool) (i : Fin 8) : State :=
  let x := s.head.time.timers[i]
  let now := s.classNs ring
  if !x.armed || x.ring != ring then s
  else if x.compat then
    let d : Int := if x.fired = 0 then tsDiff (BitVec.ofNat 32 x.next) (s.classTs ring) else (x.next : Int) - now
    if d ≤ 0 then s.timerLead i now false else s.modTimer i fun x => { x with next := now + d.toNat }
  else if x.period = 0 then (if x.next < now then s.timerLead i x.next true else s)
  else
    let nx := x.start + x.edgeFrom now * x.period
    s.modTimer i fun x => { x with next := nx, missed := x.missed + (nx - x.next) / x.period }

/-- The eight timer outputs. -/
def timerIds : List (Fin 8) := [0, 1, 2, 3, 4, 5, 6, 7]

/-- A step of the record clock, with its epoch mark after everything raised before (R237, R241, R242). -/
def State.stepRecord (s : State) (d : Int) : State :=
  let s1 := s.modTime fun tb => { tb with record := tb.record.stepBy d, recStepped := true }
  s1.epochMark.each timerIds fun s i => s.timerStepped false i

/-- A step of the ring clock to a value (R237, R241, R252). -/
def State.stepRingTo (s : State) (ns : Nat) : State :=
  let s1 := s.modTime fun tb =>
    { tb with ring := { tb.ring with ns := ns, frac := 0 }, ringPhase := 0, phaseLeft := 0, ringStepped := true,
              ringOffset := 0 }
  s1.epochMark.each timerIds fun s i => s.timerStepped true i

/-- TIMER_OUTPUT_EDGE (R254, R255): the leading edge of an armed output, or the trailing edge of the pulse under way. -/
def execTimerOutputEdge (tpo : Fin 8) (s : State) : Host.Outcome State Fault Refusal :=
  onHead s fun s =>
    let x := s.head.time.timers[tpo]
    if x.inPulse then (s.timerLevel tpo x.pulseLow).modTimer tpo fun x => { x with inPulse := false }
    else if x.armed then s.timerLead tpo x.next false
    else s

/-! ### Record time (R246 to R251) -/

/-- jump_thr in ns (R248): the row is written in µs. -/
def State.jumpThr (s : State) : Nat := 1000 * s.parH 0x0D 5

/-- The largest rate, 500 ppm, in units of 2⁻⁴⁰ (R237). -/
def rateMax : Int := 549755813

/-- A rate within ±500 ppm (R237). -/
def clampRate (r : Int) : Int := max (-rateMax) (min rateMax r)

/-- A change of the record-time state, with its event (R249). -/
def State.setRec (s : State) (st : RecState) : State :=
  let tb := s.head.time
  if tb.recState = st then s
  else
    (s.modTime fun tb =>
      { tb with recState := st, holdLong := false, everLocked := tb.everLocked || st == .locked }).raiseHead 0x01
      (leBytes 1 tb.recState.code ++ leBytes 1 st.code ++ leBytes 2 0 ++
        leBytes 8 (match tb.gm with | some g => g.toNat | none => 0))

/-- The servo of R250: the measured frequency error, which the spec does not say how to form and is a free value, and
offset / servo_tc, limited to ±500 ppm. -/
def State.servoRecord (s : State) (o : Int) : State :=
  let (f, s1) := s.draw
  let tc : Int := max 1 (s.parH 0x0D 6)
  s1.modTime fun tb => { tb with record := { tb.record with rate := clampRate (f + o * 2 ^ 40 / (tc * 1000000000)) } }

/-- An offset refused and counted, with its event at the first of a run (R249). -/
def State.refuseOffset (s : State) (o : Int) : State :=
  let first := s.head.time.refused.isEmpty
  let s1 := s.modTime fun tb =>
    { tb with refused := (tb.refused ++ [o]).drop ((tb.refused ++ [o]).length - 3), refusals := tb.refusals + 1 }
  if first then s1.raiseHead 0x02 (leInt 8 o ++ leBytes 4 (s1.head.time.refusals % 2 ^ 32)) else s1

/-- A step number raised with its pending offset (R249). -/
def State.pendStep (s : State) (o : Int) : State :=
  let s1 := s.modTime fun tb =>
    { tb with stepNum := tb.stepNum + 1, stepOffset := some o, stepArmed := false, refused := [] }
  s1.raiseHead 0x03 (leBytes 4 s1.head.time.stepNum.toNat ++ leInt 8 o)

/-- A step would take record time below 0 s (R249). -/
def State.belowZero (s : State) (o : Int) : Bool := decide ((s.head.time.record.ns : Int) + o < 0)

/-- Two offsets lie within jump_thr of one another. -/
def State.near (s : State) (a b : Int) : Bool := decide ((a - b).natAbs ≤ s.jumpThr)

/-- An offset in LOCKED or HOLDOVER (R249). -/
def State.offsetLocked (s : State) (o : Int) : State :=
  if o.natAbs ≤ s.jumpThr then ((s.modTime fun tb => { tb with refused := [] }).servoRecord o).setRec .locked
  else
    match s.head.time.refused.reverse with
    | b :: a :: _ =>
      if s.near a b && s.near b o && s.near a o then (s.pendStep o).setRec .stepPending else s.refuseOffset o
    | _ => s.refuseOffset o

/-- An offset in STEP_PENDING: the first row of R249 that matches. -/
def State.offsetPending (s : State) (o : Int) : State :=
  let tb := s.head.time
  let p := tb.stepOffset.getD 0
  if tb.stepArmed && s.near o p then
    if s.belowZero o then s.refuseOffset o
    else
      ((s.modTime fun tb => { tb with stepOffset := none, stepArmed := false, refused := [] }).stepRecord o).setRec .locked
  else if o.natAbs ≤ s.jumpThr then
    ((s.modTime fun tb => { tb with stepOffset := none, stepArmed := false, refused := [] }).servoRecord o).setRec .locked
  else if !tb.stepArmed && s.near o p then s.modTime fun tb => { tb with stepOffset := some o }
  else s.pendStep o

/-- One offset of the selected master (R249). -/
def State.recOffset (s : State) (o : Int) : State :=
  match s.head.time.recState with
  | .unset =>
    if s.belowZero o then s.refuseOffset o
    else ((s.modTime fun tb => { tb with refused := [] }).stepRecord o).setRec .locked
  | .locked => s.offsetLocked o
  | .holdover => s.offsetLocked o
  | .stepPending => s.offsetPending o

/-- LOCKED goes to HOLDOVER with its rate held (R249). -/
def State.holdRecord (s : State) : State := if s.head.time.recState = .locked then s.setRec .holdover else s

/-! ### Ports (R243, R246, R247) -/

/-- A port's state. -/
def TimeBase.eth (tb : TimeBase) : EthPort → EthPortState
  | .eth0 => tb.eth0
  | .eth1 => tb.eth1

/-- The state with a port changed. -/
def State.modEth (s : State) (p : EthPort) (f : EthPortState → EthPortState) : State :=
  s.modTime fun tb => match p with
    | .eth0 => { tb with eth0 := f tb.eth0 }
    | .eth1 => { tb with eth1 := f tb.eth1 }

/-- A port's state. -/
def State.eth (s : State) (p : EthPort) : EthPortState := s.head.time.eth p

/-- The head's logic die runs (R381). -/
def State.headRuns (s : State) : Bool := !(s.tile .t0).die.inReset

/-- eth_en of a port, as in force since its last link-up (R244). -/
def State.ethOn (s : State) (p : EthPort) : Bool := s.headRuns && s.parH 0x12 0 p.num == 1

/-- A frame sent on a port, with its 802.1Q tag when eth_vlan is not 0 (R243). -/
def State.ethEmit (s : State) (p : EthPort) (body : List Byte) : State :=
  let v := s.parH 0x12 8 p.num
  let tag := if v = 0 then [] else beBytes 2 0x8100 ++ beBytes 2 (s.parH 0x12 9 p.num * 8192 + v)
  s.emit (.eth p (tag ++ body))

/-- The package works alone or is the board head, so that its PTP instance runs (R246). -/
def State.ptpInstance (s : State) : Bool := !s.joined || s.head.board.straps.head

/-- The PTP port acts on messages (R246, R248). -/
def State.ptpOn (s : State) (p : EthPort) : Bool := s.ethOn p && s.ptpInstance && s.parH 0x0D 0 p.num == 1

/-- ptp_transport of a port is UDP over IPv4 (R246, R248). -/
def State.ptpUdp (s : State) (p : EthPort) : Bool := s.parH 0x0D 2 p.num == 1

/-- The PTP port hears a message: it acts on messages, the message came over its transport under its VLAN, and its domain is the
instance's (R243, R246, R248). -/
def State.ptpHears (s : State) (p : EthPort) (via : PtpVia) (domain : Nat) : Bool :=
  s.ptpOn p && via.vlan == s.parH 0x12 8 p.num && via.udp == s.ptpUdp p && domain == s.parH 0x0D 1

/-- eth_ip of a port. -/
def State.ethIp (s : State) (p : EthPort) : Nat := s.parH 0x12 5 p.num

/-- The MAC address of a port: eth_mac when not 0, else the programmed one (R243). -/
def State.ethMac (s : State) (p : EthPort) : BitVec 48 :=
  let m := s.parH 0x12 3 p.num + 2 ^ 32 * s.parH 0x12 4 p.num
  if m = 0 then Config.macBase + BitVec.ofNat 48 p.num else BitVec.ofNat 48 m

/-- A PTP message sent by the transport of the port, to the multicast addresses of IEEE 1588-2019 (PRESUMED, log 40): message type, domain,
sequence number and time. `peer` names a message of the peer delay mechanism, `event` the UDP port. -/
def State.ptpEmit (s : State) (p : EthPort) (peer event : Bool) (kind seq : Nat) (time : List Byte) : State :=
  let msg := leBytes 1 kind ++ leBytes 1 (s.parH 0x0D 1) ++ beBytes 2 seq ++ time
  let src := beBytes 6 (s.ethMac p).toNat
  if s.ptpUdp p then
    if s.ethIp p = 0 then s
    else
      let port := beBytes 2 (if event then 319 else 320)
      s.ethEmit p (beBytes 6 (if peer then 0x01005E00006B else 0x01005E000181) ++ src ++ beBytes 2 0x0800 ++ beBytes 4 (s.ethIp p) ++
        beBytes 4 (if peer then 0xE000006B else 0xE0000181) ++ port ++ port ++ msg)
  else s.ethEmit p (beBytes 6 (if peer then 0x0180C200000E else 0x011B19000000) ++ src ++ beBytes 2 0x88F7 ++ msg)

/-- ptp_delay of a port is P2P. -/
def State.p2p (s : State) (p : EthPort) : Bool := s.parH 0x0D 3 p.num == 1

/-- Ingress and egress latency and asymmetry (R247). -/
def EthPortState.rxLat (e : EthPortState) : Int := (e.lat.toNat % 65536 : Nat)
def EthPortState.txLat (e : EthPortState) : Int := (e.lat.toNat / 65536 : Nat)
def EthPortState.asymNs (e : EthPortState) : Int := signed 32 e.asym.toNat

/-- Lexicographic order of two keys. -/
def keyLt : List Nat → List Nat → Bool
  | a :: as, b :: bs => decide (a < b) || (a == b && keyLt as bs)
  | _, _ => false

/-- The better of two candidates. -/
def better (x : Option (EthPort × Announce)) (y : EthPort × Announce) : Option (EthPort × Announce) :=
  match x with
  | none => some y
  | some z => if keyLt y.2.key z.2.key then some y else some z

/-- The best master that two Announces have qualified, over both ports (R246). -/
def State.bestMaster (s : State) : Option (EthPort × Announce) :=
  let c := fun (p : EthPort) => if s.ptpOn p then
      ((s.eth p).foreign.filter (·.2 ≥ 2)).map fun x => (p, x.1) else []
  (c .eth0 ++ c .eth1).foldl better none

/-- The selection of a master, with the master-changed event when the grandmaster's identity changes (R246, R249). -/
def State.selectMaster (s : State) : State :=
  match s.bestMaster with
  | none => s.modTime fun tb => { tb with slave := none }
  | some (p, a) =>
    let old := s.head.time.gm
    let s1 := s.modTime fun tb => { tb with gm := some a.identity, slave := some p }
    match old with
    | none => s1
    | some g =>
      if g = a.identity then s1
      else (s1.modEth p fun e => { e with sync := none, delayReq := none }).raiseHead 0x04
        (leBytes 8 a.identity.toNat ++ leBytes 8 g.toNat)

/-- The sender of a message is the selected master on this port. -/
def State.fromMaster (s : State) (p : EthPort) (sender : BitVec 64) : Bool :=
  s.head.time.slave == some p &&
    (match s.bestMaster with
      | some (q, a) => q == p && a.sender == sender
      | none => false)

/-- PTP_ANNOUNCE (R246): the best master clock algorithm. -/
def execPtpAnnounce (p : EthPort) (x : PtpVia × Announce) (s : State) : Host.Outcome State Fault Refusal :=
  onHead s fun s =>
    if !s.ptpHears p x.1 x.2.domain then s
    else
      let had := (s.eth p).foreign.find? fun e => e.1.sender == x.2.sender
      let n := match had with
        | some e => e.2 + 1
        | none => 1
      (s.modEth p fun e =>
        { e with foreign := (e.foreign.filter fun q => q.1.sender != x.2.sender) ++ [(x.2, min n 2)] }).selectMaster

/-- The ingress stamp of a Sync, corrected by the registers as they stand at the stamp (R247). -/
def EthPortState.syncStamp (e : EthPortState) (stamp : Int) : Int := stamp - e.rxLat - e.asymNs

/-- The offset of a Sync exchange: the master's time with the path delay, less the corrected ingress stamp (R247, R249). -/
def State.syncOffset (s : State) (p : EthPort) (origin t2 : Int) : State :=
  let e := s.eth p
  (s.modEth p fun e => { e with syncDiff := t2 - origin, sync := none }).recOffset (origin + e.path - t2)

/-- PTP_SYNC (R246, R249): of the selected master, at an interval that R246 accepts. -/
def execPtpSync (p : EthPort) (x : PtpVia × SyncMsg) (s : State) : Host.Outcome State Fault Refusal :=
  onHead s fun s =>
    if !s.ptpHears p x.1 x.2.domain || !s.fromMaster p x.2.identity || decide (x.2.logInterval < -4 ∨ x.2.logInterval > 1) then s
    else if x.2.twoStep then s.modEth p fun e => { e with sync := some (x.2.identity, x.2.seqId, e.syncStamp x.2.stamp) }
    else s.syncOffset p x.2.origin ((s.eth p).syncStamp x.2.stamp)

/-- PTP_FOLLOW_UP (R246, R249): it completes the Sync of the same sender and number. -/
def execPtpFollowUp (p : EthPort) (x : PtpVia × PtpTime) (s : State) : Host.Outcome State Fault Refusal :=
  onHead s fun s =>
    match (s.eth p).sync with
    | some (i, n, stamp) =>
      if s.ptpHears p x.1 x.2.domain && i == x.2.identity && n == x.2.seqId && s.fromMaster p x.2.identity then s.syncOffset p x.2.time stamp else s
    | none => s

/-- PTP_DELAY_REQUEST_SEND (R246, R247): a Delay_Req on the slave port under E2E, whose path from slave to master is the shorter by the
asymmetry, or a Pdelay_Req under P2P. -/
def execPtpDelayRequestSend (p : EthPort) (stamp : Int) (s : State) : Host.Outcome State Fault Refusal :=
  onHead s fun s =>
    let e := s.eth p
    let t := stamp + e.txLat
    if !s.ptpOn p then s
    else if s.p2p p then
      (s.modEth p fun e => { e with pdelay := some (e.seqNum, t, 0, 0), seqNum := (e.seqNum + 1) % 65536 }).ptpEmit
        p true true 2 e.seqNum []
    else if s.head.time.slave == some p then
      (s.modEth p fun e => { e with delayReq := some (e.seqNum, t - e.asymNs), seqNum := (e.seqNum + 1) % 65536 }).ptpEmit
        p false true 1 e.seqNum []
    else s

/-- PTP_DELAY_RESP (R246): the mean of the two one-way differences. -/
def execPtpDelayResp (p : EthPort) (x : PtpVia × PtpTime) (s : State) : Host.Outcome State Fault Refusal :=
  onHead s fun s =>
    match (s.eth p).delayReq with
    | some (n, t3) =>
      if s.ptpHears p x.1 x.2.domain && !s.p2p p && n == x.2.seqId && s.fromMaster p x.2.identity then
        s.modEth p fun e => { e with path := (e.syncDiff + (x.2.time - t3)) / 2, delayReq := none }
      else s
    | none => s

/-- PTP_PDELAY_REQ (R246, R247): it is answered on a port whose delay mechanism is P2P, in two steps: the corrected ingress stamp of the
request, then the corrected egress stamp of that answer. -/
def execPtpPdelayReq (p : EthPort) (x : PtpVia × PtpTime) (s : State) : Host.Outcome State Fault Refusal :=
  onHead s fun s =>
    if s.ptpHears p x.1 x.2.domain && s.p2p p then
      (s.ptpEmit p true true 3 x.2.seqId (leInt 8 (x.2.stamp - (s.eth p).rxLat)).reverse).ptpEmit
        p true false 0xA x.2.seqId (leInt 8 (x.2.time + (s.eth p).txLat)).reverse
    else s

/-- PTP_PDELAY_RESP (R246): a one-step answer carries the turnaround, a two-step one the receipt time. -/
def execPtpPdelayResp (p : EthPort) (x : PtpVia × PtpTime) (s : State) : Host.Outcome State Fault Refusal :=
  onHead s fun s =>
    match (s.eth p).pdelay with
    | some (n, t1, _, _) =>
      if s.ptpHears p x.1 x.2.domain && s.p2p p && n == x.2.seqId then
        let t4 := x.2.stamp - (s.eth p).rxLat
        if x.2.twoStep then s.modEth p fun e => { e with pdelay := some (n, t1, x.2.time, t4) }
        else s.modEth p fun e => { e with path := (t4 - t1 - x.2.time) / 2, pdelay := none }
      else s
    | none => s

/-- PTP_PDELAY_RESP_FOLLOW_UP (R246). -/
def execPtpPdelayRespFollowUp (p : EthPort) (x : PtpVia × PtpTime) (s : State) : Host.Outcome State Fault Refusal :=
  onHead s fun s =>
    match (s.eth p).pdelay with
    | some (n, t1, t2, t4) =>
      if s.ptpHears p x.1 x.2.domain && s.p2p p && n == x.2.seqId then
        s.modEth p fun e => { e with path := (t4 - t1 - (x.2.time - t2)) / 2, pdelay := none }
      else s
    | none => s

/-- ANNOUNCE_RECEIPT_TIMEOUT (R249): the masters of the port are forgotten, and LOCKED goes to HOLDOVER when the port was
the slave. -/
def execAnnounceReceiptTimeout (p : EthPort) (s : State) : Host.Outcome State Fault Refusal :=
  onHead s fun s =>
    if !s.ptpOn p then s
    else
      let was := s.head.time.slave == some p
      let s1 := s.modEth p fun e => { e with foreign := [], sync := none, delayReq := none }
      (if was then s1.holdRecord else s1).selectMaster

/-- SYNC_LOSS_TIMEOUT (R249): no offset for 4 Sync intervals, on the slave port, or with no master selected any more. -/
def execSyncLossTimeout (p : EthPort) (s : State) : Host.Outcome State Fault Refusal :=
  onHead s fun s => if s.head.time.slave == some p || s.head.time.slave.isNone then s.holdRecord else s

/-- HOLDOVER_MAX_EXPIRY (R251): record time stops being synchronised. -/
def execHoldoverMaxExpiry (s : State) : Host.Outcome State Fault Refusal :=
  onHead s fun s =>
    if s.head.time.recState = .holdover then s.modTime fun tb => { tb with holdLong := true } else s

/-- EPOCH_MARK_TIMER (R241). -/
def execEpochMarkTimer (now : Nat) (s : State) : Host.Outcome State Fault Refusal :=
  onHead s fun s => (s.at now).epochMark

/-- PTP off on every port (R249): the rate is held, in HOLDOVER or, if record time never locked, in UNSET. -/
def State.ptpOff (s : State) : State :=
  if s.parH 0x0D 0 0 = 0 ∧ s.parH 0x0D 0 1 = 0 then
    let s1 := s.modTime fun tb =>
      { tb with slave := none, stepArmed := false, stepOffset := none, refused := [],
                eth0 := { tb.eth0 with foreign := [] }, eth1 := { tb.eth1 with foreign := [] } }
    s1.setRec (if s1.head.time.everLocked then .holdover else .unset)
  else s.selectMaster

/-! ### Time commands (R337) -/

/-- TIME_STEP_ACCEPT (R249). -/
def execTimeStepAccept (h : HostCmd) (number : Word) (s : State) : Host.Outcome State Fault Refusal :=
  onCmd h 0x50 s fun s =>
    let tb := s.head.time
    if tb.recState = .stepPending ∧ tb.stepNum = number then
      (s.modTime fun tb => { tb with stepArmed := true }).complete h 0x50 0 0 (leBytes 4 number.toNat)
    else s.complete h 0x50 0x19 249

/-- The compatibility compare is in force (R256, R389): the strap's level is in compat_rk since the reset, and no write takes it out. -/
def TimeBase.compat (tb : TimeBase) : Bool := tb.compatRk

/-- TIMER_ARM (R254 to R256): a pulse under way completes as its own programme gave it (R343). -/
def execTimerArm (h : HostCmd) (p : TimerPayload) (s : State) : Host.Outcome State Fault Refusal :=
  onCmd h 0x51 s fun s =>
    let tb := s.head.time
    let compat := tb.compat
    let now := s.classNs p.ring
    let start := if compat then p.startNs else p.startSec * 1000000000 + p.startNs
    let d := tsDiff (BitVec.ofNat 32 p.startNs) (s.classTs p.ring)
    match p.broken compat with
    | some k => s.complete h 0x51 0x14 k [0xFF]
    | none =>
      if !compat && p.period = 0 && start < now + 10000 then s.complete h 0x51 0x1A 255
      else
        let i : Fin 8 := Fin.ofNat 8 p.tpo
        let x0 : Timer :=
          { armed := true, ring := p.ring, low := p.low, start := start, period := p.period, width := p.width,
            count := p.count, fired := 0, compat := compat, next := start, outHigh := tb.timers[i].outHigh,
            inPulse := tb.timers[i].inPulse, missed := 0, pulseLow := tb.timers[i].pulseLow }
        let next := if compat then (if d ≤ 0 then now else now + d.toNat)
          else if start < now then x0.start + x0.edgeFrom (now + 10000) * x0.period else start
        let s1 := (s.modTimer i fun _ => { x0 with next := next }).complete h 0x51 0 0 (leBytes 4 (next % 2 ^ 32))
        let s2 := if tb.timers[i].inPulse || tb.timers[i].armed then s1 else s1.timerLevel i p.low
        if compat && d ≤ 0 && !tb.timers[i].inPulse then s2.timerLead i now false else s2

/-- TIMER_CANCEL (R254): the output returns to its idle level at once. -/
def execTimerCancel (h : HostCmd) (tpo : Nat) (s : State) : Host.Outcome State Fault Refusal :=
  onCmd h 0x52 s fun s =>
    if tpo > 7 then s.complete h 0x52 0x14 7 [0xFF]
    else
      let i : Fin 8 := Fin.ofNat 8 tpo
      let x := s.head.time.timers[i]
      let s1 := s.complete h 0x52 0 0
      if x.armed || x.inPulse then
        (s1.timerLevel i x.low).modTimer i fun x => { x with armed := false, inPulse := false, missed := 0 }
      else s1

end Sys2Proof.Machine
end

