-- ==== Sys2Proof/Machine/Causeway.lean ====
section
/-!
DEFINITION. The Causeway node of the package head (chapter 14): the schedule, the validity of frames, relaying and delivery,
clock synchronisation, node states, the bus guardian, breaks and healing, cycle points.
-/

namespace Sys2Proof

/-- The number of a port. -/
def CwyPort.num : CwyPort → Nat
  | .portA => 0
  | .portB => 1

/-- The other port. -/
def CwyPort.other : CwyPort → CwyPort
  | .portA => .portB
  | .portB => .portA

/-- The value of a port in a pair. -/
def CwyPort.of {α : Type} (p : CwyPort) (v : α × α) : α := match p with
  | .portA => v.1
  | .portB => v.2

/-- A pair with a port's value replaced. -/
def CwyPort.put {α : Type} (p : CwyPort) (v : α × α) (x : α) : α × α := match p with
  | .portA => (x, v.2)
  | .portB => (v.1, x)

/-- T_frame of a frame with n data bytes, in ns (R260). -/
def cwyFrameNs (n : Nat) : Nat := (n + 22) * 80

/-- t_proc in ns (R266). -/
def cwyProc : Nat := 200

end Sys2Proof

namespace Sys2Proof.Machine

/-! ### The schedule (R262 to R267) -/

/-- The little-endian number of n bytes at an offset of a table. -/
def tblLe (m : SMap) (off : Nat) : Nat → Nat
  | 0 => 0
  | n + 1 => (m.get off).toNat + 256 * tblLe m (off + 1) n

/-- Node entry i: flags and segment delay. -/
def nodeFlags (m : SMap) (i : Nat) : Nat := tblLe m (4 * i) 1
def nodeDelay (m : SMap) (i : Nat) : Nat := tblLe m (4 * i + 2) 2
def nodeGen (m : SMap) (i : Nat) : Nat := nodeFlags m i / 8 % 8
def nodePresent (m : SMap) (i : Nat) : Bool := nodeFlags m i % 2 == 1
def nodeSync (m : SMap) (i : Nat) : Bool := nodeFlags m i / 2 % 2 == 1
def nodeCold (m : SMap) (i : Nat) : Bool := nodeFlags m i / 4 % 2 == 1

/-- Slot entry s: start, owner, units, valid, sync. -/
def slotStart (m : SMap) (i : Nat) : Nat := tblLe m (8 * i) 4
def slotOwner (m : SMap) (i : Nat) : Nat := tblLe m (8 * i + 4) 1
def slotUnits (m : SMap) (i : Nat) : Nat := tblLe m (8 * i + 5) 1
def slotValid (m : SMap) (i : Nat) : Bool := tblLe m (8 * i + 6) 1 % 2 == 1
def slotSync (m : SMap) (i : Nat) : Bool := tblLe m (8 * i + 6) 1 / 2 % 2 == 1

/-- The present nodes of a node table, and their number N. -/
def presentNodes (m : SMap) : List Nat := (List.range 64).filter (nodePresent m)
def nodeCount (m : SMap) : Nat := (presentNodes m).length

/-- The valid slots of a slot table. -/
def validSlots (m : SMap) : List Nat := (List.range 256).filter (slotValid m)

/-- The ring generation G (R264). -/
def ringGen (m : SMap) : Nat := (presentNodes m).foldl (fun g i => min g (nodeGen m i)) 7

/-- A slot's end: the next valid slot's start, or nit_start for the last (R263). -/
def slotEnd (m : SMap) (nit i : Nat) : Nat := if slotValid m (i + 1) && i < 255 then slotStart m (i + 1) else nit

/-- L_min of a slot with n data bytes (R267). -/
def slotMin (node : SMap) (n : Nat) : Nat :=
  let ds := (presentNodes node).map (nodeDelay node)
  let s := ds.sum - ds.foldl min 65535
  2000 + s + (nodeCount node - 2) * (cwyFrameNs n + cwyProc) + cwyFrameNs n + 1000

/-- The entries of the tables, each for itself: reserved bits zero, generation and units in range (R5, R7, R263). -/
def cwyEntriesOk (node slot : SMap) : Bool :=
  ((List.range 64).all fun i => nodeFlags node i < 64 && tblLe node (4 * i + 1) 1 == 0) &&
  ((List.range 256).all fun i => tblLe slot (8 * i + 6) 1 < 4 && tblLe slot (8 * i + 7) 1 == 0) &&
  ((presentNodes node).all fun i => decide (1 ≤ nodeGen node i ∧ nodeGen node i ≤ 3)) &&
  ((validSlots slot).all fun j => decide (1 ≤ slotUnits slot j ∧ slotUnits slot j ≤ 60))

/-- Valid slots stand contiguously from entry 0 with rising start (R263). -/
def cwySlotsOk (slot : SMap) : Bool :=
  let vs := validSlots slot
  vs == List.range vs.length && vs.all fun j => j == 0 || decide (slotStart slot (j - 1) < slotStart slot j)

/-- The nodes of a node table, for themselves (R263): numbered without a gap, the limits of sync and cold-start nodes, and this node's
own entry, whose number is `self`. -/
def cwyNodesOk (node : SMap) (self : Nat) : Bool :=
  let n := nodeCount node
  let syncs := (presentNodes node).filter (nodeSync node)
  presentNodes node == List.range n && decide (2 ≤ n ∧ n ≤ 64) && decide (syncs.length ≤ 16) &&
  decide (((presentNodes node).filter (nodeCold node)).length ≤ 4) &&
  ((presentNodes node).all fun i => !nodeCold node i || nodeSync node i) && nodeGen node self == 3

/-- The rule that a complete set of tables with t_cycle and nit_start breaks, if any (R262 to R264, R267); the node's own number is
`self`. -/
def cwyBroken (node slot : SMap) (tCycle nit self : Nat) : Option Nat :=
  let vs := validSlots slot
  let g := ringGen node
  let syncs := (presentNodes node).filter (nodeSync node)
  if !cwyNodesOk node self || !cwySlotsOk slot then some 263
  else if syncs.any fun i => (vs.filter fun j => slotOwner slot j == i && slotSync slot j).length ≠ 1 then some 263
  else if vs.any fun j => slotEnd slot (1000 * nit) j < slotStart slot j + slotMin node (4 * slotUnits slot j) then some 267
  else if g < 3 && tCycle < 1000 then some 264
  else if g = 1 && (nodeCount node > 32 || vs.length > 128 || vs.any fun j => slotUnits slot j > 30) then some 264
  else none

/-- The rule that the tables break, if any (R263): their entries always, a table that is not empty for itself, and the set as a whole once
neither is empty or the node is on. An empty table while the node is off is one that is still to be written (DEDUCED, log 41). -/
def cwyTablesBroken (on : Bool) (node slot : SMap) (tCycle nit self : Nat) : Option Nat :=
  let noNode := (presentNodes node).isEmpty
  let noSlot := (validSlots slot).isEmpty
  if !cwyEntriesOk node slot then some 263
  else if on || !(noNode || noSlot) then cwyBroken node slot tCycle nit self
  else if (noNode || cwyNodesOk node self) && cwySlotsOk slot then none
  else some 263

/-! ### Frames on the wire (R259, R260) -/

/-- The bytes of a frame without its CRC (R260), multi-byte fields most significant byte first (R4). -/
def cwyBody (f : CwyFrame) : List Byte :=
  leBytes 1 (32 * f.generation + 4 * bit f.coldStart + 2 * bit f.path + f.ring.num) ++
  leBytes 1 (f.origin + 64 * bit f.syncSlot + 128 * bit f.coldNode) ++ beBytes 6 f.cycle ++ leBytes 1 f.slot ++ leBytes 1 f.hop ++
  leBytes 1 f.data.length ++ leBytes 1 (f.mode + 4 * f.countdown + 16 * bit f.loopNode + 32 * bit f.notReady) ++
  beBytes 4 f.schedId.toNat ++ f.data

/-- The bytes of a frame with its CRC (R260). -/
def cwyBytes (f : CwyFrame) : List Byte := cwyBody f ++ beBytes 4 (crc32 (cwyBody f))

/-- The code-groups of a frame: J K, each byte high nibble first, T R (R259, R260). -/
def cwyGroups (f : CwyFrame) : List CodeGroup :=
  [.J, .K] ++ ((cwyBytes f).flatMap fun b => [.data (Fin.ofNat 16 (b.toNat / 16)), .data (Fin.ofNat 16 (b.toNat % 16))]) ++ [.T, .R]

/-! ### The node's view of its schedule -/

/-- cwy_node, t_cycle and nit_start in ns. -/
def State.cwyNode (s : State) : Nat := s.parH 0x0E 1
def State.cwyCycle (s : State) : Nat := 1000 * s.parH 0x0E 2
def State.cwyNit (s : State) : Nat := 1000 * s.parH 0x0E 3

/-- The schedule identity (R262): t_cycle in its row's unit and nit_start in ns, 4 bytes each, then the tables, an unused slot entry as
zeros. -/
def State.schedId (s : State) : Word :=
  let c := s.head.cwy
  BitVec.ofNat 32 (crc32 (leBytes 4 (s.parH 0x0E 2) ++ leBytes 4 s.cwyNit ++
    ((List.range 256).map fun i => BitVec.ofInt 8 (c.nodeTable.get i)) ++
    ((List.range 2048).map fun i => if slotValid c.slotTable (i / 8) then BitVec.ofInt 8 (c.slotTable.get i) else 0)))

/-- The longest slot of the schedule, L_max (R273). -/
def State.slotMax (s : State) : Nat :=
  let m := s.head.cwy.slotTable
  (validSlots m).foldl (fun x i => max x (slotEnd m s.cwyNit i - slotStart m i)) 0

/-- The hop limit H (R266, R277). -/
def State.hopLimit (s : State) : Nat :=
  let n := nodeCount s.head.cwy.nodeTable
  if s.head.cwy.healed then n - 1 else (n + 1) / 2

/-- A way of h hops from a node in one direction round a ring of n nodes (`up` is ring A): the segments passed, the node reached, the
direction of the last hop and the turns made. Every loop node that it reaches, but for the last, turns it (R266, R278). -/
def cwyWay (n : Nat) (loops : List Nat) : Nat → Nat → Bool → List Nat × Nat × Bool × Nat
  | 0, pos, up => ([], pos, up, 0)
  | h + 1, pos, up =>
    let next := if up then (pos + 1) % n else (pos + n - 1) % n
    let turn := h != 0 && loops.contains next
    let w := cwyWay n loops h next (up != turn)
    ((if up then pos else next) :: w.1, w.2.1, if h = 0 then up else w.2.2.1, w.2.2.2 + bit turn)

/-- The segments that a frame of h hops has passed (R267): straight from its origin; or, with the path bit, on the way by known loop nodes
that ends here on the frame's ring, a frame that was never turned being a loop node's own. -/
def Causeway.segments (c : Causeway) (self origin h : Nat) (ring : CwyPort) (path : Bool) : Option (List Nat) :=
  let n := nodeCount c.nodeTable
  let up := ring == .portA
  if !path then some (cwyWay n [] h origin up).1
  else [true, false].findSome? fun first =>
    let w := cwyWay n c.loopNodes h origin first
    if w.2.1 = self && w.2.2.1 == up && (w.2.2.2 ≠ 0 || c.loopNodes.contains origin) then some w.1 else none

/-- D(h) of a received frame, in ns, where the path is known (R267): a sender that flags itself as a loop node is one. -/
def State.cwyDelay (s : State) (f : CwyFrame) : Option Nat :=
  let c := { s.head.cwy with loopNodes := (if f.loopNode then [f.origin] else []) ++ s.head.cwy.loopNodes }
  let h := f.hop + 1
  (c.segments s.cwyNode f.origin h f.ring f.path).map fun ss =>
    (ss.map (nodeDelay c.nodeTable)).sum + (h - 1) * (cwyFrameNs f.data.length + cwyProc)

/-- The expected arrival of a frame's J on the ring clock (R269). -/
def State.cwyExpected (s : State) (f : CwyFrame) : Option Int :=
  (s.cwyDelay f).map fun d => ((f.cycle * s.cwyCycle + slotStart s.head.cwy.slotTable f.slot + 2000 + d : Nat) : Int)

/-- A COLD_START frame comes within L_max of one from another origin (R273). -/
def State.cwyTwoOrigins (s : State) (f : CwyFrame) : Bool :=
  f.coldStart && s.head.cwy.csHeard.any fun x => x.1 != f.origin && decide (s.now ≤ x.2 + s.slotMax)

/-- A received frame is valid (R261). The last check applies to a node whose ring clock is aligned to the ring. The COLD_START frame of a
second origin within L_max undoes the alignment that the first gave (R273), so it is not judged by it. -/
def State.cwyValid (s : State) (f : CwyFrame) (tObs : Int) : Bool :=
  let c := s.head.cwy
  let m := c.slotTable
  let pos := tObs % (max 1 s.cwyCycle : Nat)
  f.delimOk && f.crcOk && f.reservedOk && f.generation == ringGen c.nodeTable && f.schedId == s.schedId &&
  slotValid m f.slot && slotOwner m f.slot == f.origin &&
  (if c.state == .active || (c.state == .integrate && c.aligned && !s.cwyTwoOrigins f) then
    decide ((slotStart m f.slot : Int) ≤ pos) && decide (pos < slotEnd m s.cwyNit f.slot) else true)

/-! ### Node states (R271) -/

/-- A change of the node's state, with its event (R271) and the ring-time state that follows from it (R253). -/
def State.setCwy (s : State) (st : CwyState) : State :=
  let c := s.head.cwy
  if c.state = st then s
  else
    ((s.modCwy fun c => { c with state := st }).raiseHead 0x20
      (leBytes 1 c.state.code ++ leBytes 1 st.code ++ leBytes 1 c.mode.code ++ leBytes 1 0 ++ leBytes 6 c.cycle)).ringSyncNote

/-- What the node gathers in one cycle, cleared. -/
def Causeway.freshCycle (c : Causeway) : Causeway :=
  { c with seen := [], notReady := [], heardOther := false, heardSync := false, heardAny := false, guardStarts := [],
           intOk := true, intSync := false }

/-- Entry to LISTEN: no alignment, the written tables in force (R262, R271). -/
def State.cwyListen (s : State) : State :=
  let s1 := s.modTile .t0 fun tl =>
    let take := fun (m : SMap) (r : Nat) => pSet m (pKey 0x0E r 0 none) (pGet tl.written (pKey 0x0E r 0 none))
    { tl with inForce := [2, 3].foldl take tl.inForce }
  (s1.modCwy fun c =>
    { c.freshCycle with aligned := false, mismatch := false, csHeard := [], csFirst := false, csCycles := 0, silent := 0,
                        devs := [], restart := false, nodeTable := c.nodeNew, slotTable := c.slotNew, intCycles := 0,
                        mode := .normal, countdown := 0, ownNotice := false, inNit := false, healed := false, loop := (false, false),
                        broken := (false, false), sendH := (false, false), loopNodes := [], cutNow := false,
                        cutLast := false, repairRun := (0, 0) }).setCwy .listen

/-- The node is switched by cwy_en, or started after a reset (R262, R271). -/
def State.cwySwitch (s : State) : State :=
  if s.headRuns && s.parH 0x0E 0 == 1 then (if s.head.cwy.state = .disabled then s.cwyListen else s)
  else
    (s.modCwy fun c => { c.freshCycle with aligned := false, los := (false, false), nodeTable := c.nodeNew,
                                           slotTable := c.slotNew, txBuf := [] }).setCwy .disabled

/-- A written schedule: an ACTIVE node leaves the ring at the next NIT; any other takes it up at once (R262). -/
def State.cwyRewritten (s : State) : State :=
  match s.head.cwy.state with
  | .active => s.modCwy fun c => { c with restart := true }
  | .disabled => s.modCwy fun c => { c with nodeTable := c.nodeNew, slotTable := c.slotNew }
  | _ => s.cwyListen

/-- Entry to INTEGRATE with no alignment yet (R271). -/
def State.cwyReintegrate (s : State) : State :=
  (s.modCwy fun c =>
    { c.freshCycle with aligned := false, silent := 0, intCycles := 0, devs := [], cutNow := false, cutLast := false,
                        csHeard := [] }).setCwy .integrate

/-- The ring modes of R260 by number. -/
def cwyModeOf : Nat → CwyMode
  | 0 => .normal
  | 1 => .notice
  | 2 => .healed
  | _ => .repair

/-- Integration with a valid frame (R272, R274): the ring clock is stepped so that t_obs equals t_exp, the cycle number, mode and
countdown are the frame's, and a sender that flags itself is a loop node. Where the frame was turned at a loop node that is not known
yet, the rules state no t_exp for it, and the one it steps to is a free value (DESIGN CHOICE, log entry 41). -/
def State.cwyIntegrate (s : State) (f : CwyFrame) (tObs : Int) : State :=
  let (free, s0) := s.draw
  let (e, s0) := match s.cwyExpected f with
    | some e => (e, s)
    | none => (free, s0)
  let s1 := s0.stepRingTo ((s.head.time.ring.ns : Int) + (e - tObs)).toNat
  (s1.modCwy fun c =>
    { c.freshCycle with aligned := true, cycle := f.cycle, mode := cwyModeOf f.mode, countdown := f.countdown, ownNotice := false
                        inNit := false, healed := f.mode == 2 || f.mode == 3, silent := 0, intCycles := 0, devs := []
                        loopNodes := if f.loopNode && !c.loopNodes.contains f.origin then c.loopNodes ++ [f.origin] else c.loopNodes
                        heardAny := true }).setCwy .integrate

/-- The next cycle, of which something happens now, has begun (R260, R277): its number, and one less of the countdown of NOTICE and
REPAIR. -/
def State.cwyBegin (s : State) : State :=
  if s.head.cwy.inNit then
    s.modCwy fun c => { c with inNit := false, cycle := (c.cycle + 1) % 2 ^ 48, countdown := c.countdown - 1 }
  else s

/-- Entry to COLDSTART (R272): the ring clock is stepped to the start of the own cold-start slot in cycle 0. -/
def State.cwyColdstart (s : State) : State :=
  let c := s.head.cwy
  let own := (validSlots c.slotTable).find? fun j => slotOwner c.slotTable j == s.cwyNode && slotSync c.slotTable j
  match own with
  | some j =>
    if !nodeCold c.nodeTable s.cwyNode then s
    else
      let s1 := s.stepRingTo (slotStart c.slotTable j)
      (s1.modCwy fun c =>
        { c.freshCycle with aligned := true, cycle := 0, csFirst := true, csCycles := 0, csHeard := [], devs := [], inNit := false,
                            guardian := (s.now : Int) - slotStart c.slotTable j }).setCwy .coldstart
  | none => s

/-! ### Reception (R261, R266 to R269) -/

/-- One added to a counter of the node (R268). -/
def State.cwyCount (s : State) (i : Fin 7) : State :=
  s.modCwy fun c => { c with counters := vmod c.counters i fun n => sat32 (n + 1) }

/-- An invalid frame, counted; a whole frame of another schedule or generation raises schedule-mismatch once per LISTEN
(R261, R268, R282). -/
def State.cwyDiscard (s : State) (p : CwyPort) (f : CwyFrame) : State :=
  let c := s.head.cwy
  let s1 := s.cwyCount (if p == .portA then 0 else 2)
  if f.delimOk && f.crcOk && f.reservedOk && c.state == .listen && !c.mismatch &&
      (f.generation != ringGen c.nodeTable || f.schedId != s.schedId) then
    (s1.modCwy fun c => { c with mismatch := true }).raiseHead 0x26
      (leBytes 4 f.schedId.toNat ++ leBytes 1 f.generation ++ leBytes 1 f.origin)
  else s1

/-- The first valid copy of a slot in a cycle, delivered to the connections bound to the slot (R214, R266). -/
def State.cwyDeliver (s : State) (f : CwyFrame) : State :=
  if s.head.cwy.seen.contains f.slot then s
  else
    let s1 := s.modCwy fun c =>
      { c with seen := c.seen ++ [f.slot], notReady := if f.notReady then c.notReady ++ [f.slot] else c.notReady }
    if f.coldStart || f.notReady then s1
    else s1.each s1.tileIds fun s t =>
      if !(s.tile t).die.svc then s
      else s.each (List.range 32) fun s k =>
        match ((s.tile t).sedge.toList.getD k SedgeConn.reset).binding with
        | some (.causeway sl) =>
          if sl = f.slot && (s.tile t).par 0x89 0 k == 1 then s.emit (.toTriad t k f.data) else s
        | _ => s

/-- What a valid frame of another node tells: that it was heard, its deviation in a sync slot, the cycle start it gives the
guardian, and whether its sender is a loop node (R267, R269, R274 to R276). A deviation heard in NOTICE, before the ring is healed, forms
no offset (R258). A frame whose way is not known has no t_exp to be judged by (DEDUCED, log entry 41). -/
def State.cwyNote (s : State) (f : CwyFrame) (tObs : Int) : State :=
  let c := s.head.cwy
  if f.origin = s.cwyNode then s
  else
    let first := !c.seen.contains f.slot
    let sync := slotSync c.slotTable f.slot
    let e := s.cwyExpected f
    let inTime := match e with
      | some x => decide ((x - tObs).natAbs ≤ 1000)
      | none => true
    let start := (s.cwyDelay f).map fun d => (s.now : Int) - slotStart c.slotTable f.slot - 2000 - d
    s.modCwy fun c =>
      { c with
        heardAny := true, heardOther := true, heardSync := c.heardSync || sync, intOk := c.intOk && inTime
        intSync := c.intSync || nodeSync c.nodeTable f.origin
        devs := match e with
          | some x => if sync && first && c.mode != .notice then c.devs ++ [(f.origin, x - tObs)] else c.devs
          | none => c.devs
        guardStarts := match start with
          | some x => if sync then c.guardStarts ++ [x] else c.guardStarts
          | none => c.guardStarts
        loopNodes := if f.loopNode && !c.loopNodes.contains f.origin then c.loopNodes ++ [f.origin] else c.loopNodes }

/-- A countdown of NOTICE or REPAIR adopted from a frame (R277, R280), but by a node that runs a NOTICE of its own: it heals at its own NIT
(R278). -/
def State.cwyAdopt (s : State) (f : CwyFrame) : State :=
  if (f.mode = 1 || f.mode = 3) && !s.head.cwy.ownNotice then s.modCwy fun c => { c with mode := cwyModeOf f.mode, countdown := f.countdown } else s

/-- A COLD_START frame heard in LISTEN is remembered (R273). -/
def State.cwyHeardCold (s : State) (f : CwyFrame) : State :=
  if f.coldStart then s.modCwy fun c => { c with csHeard := c.csHeard ++ [(f.origin, s.now)] } else s

/-- A valid frame, by the node's state (R271 to R275). In LISTEN it starts integration; a COLD_START frame of a second origin within L_max of
the first takes the node back, and both are discarded (R273; DEDUCED, log entry 41). -/
def State.cwyAccept (s : State) (f : CwyFrame) (tObs : Int) : State :=
  let c := s.head.cwy
  match c.state with
  | .disabled => s
  | .listen =>
    if s.cwyTwoOrigins f then s.cwyHeardCold f else ((s.cwyIntegrate f tObs).cwyHeardCold f).cwyDeliver f
  | .backoff => (s.cwyIntegrate f tObs).cwyDeliver f
  | .coldstart =>
    if f.origin = s.cwyNode then s
    else if f.coldStart && c.csFirst then
      ((s.cwyCount 6).raiseHead 0x22 (leBytes 1 f.origin ++ leBytes 3 0 ++ leBytes 6 c.cycle)).setCwy .backoff
    else ((s.cwyNote f tObs).cwyAdopt f).cwyDeliver f
  | .integrate =>
    if !c.aligned then (s.cwyIntegrate f tObs).cwyDeliver f
    else if s.cwyTwoOrigins f then (s.cwyListen.modCwy fun d => { d with csHeard := c.csHeard }).cwyHeardCold f
    else ((s.cwyNote f tObs).cwyAdopt f).cwyDeliver f
  | .active => ((s.cwyNote f tObs).cwyAdopt f).cwyDeliver f

/-- Relaying (R266, R278): on the transmit link of the same ring, or, where the loop of the outgoing port is closed, back out
of the incoming one on the other ring with the path bit set. -/
def State.cwyRelay (s : State) (p : CwyPort) (f : CwyFrame) : State :=
  if f.hop + 1 < s.hopLimit then
    if p.other.of s.head.cwy.loop then
      s.emit (.causeway p (cwyGroups { f with hop := f.hop + 1, ring := f.ring.other, path := true }))
    else s.emit (.causeway p.other (cwyGroups { f with hop := f.hop + 1 }))
  else s

/-- CWY_FRAME_RECEIVED (R261, R266 to R269, R271 to R275). -/
def execCwyFrameReceived (p : CwyPort) (f : CwyFrame) (tObs : Int) (now : Nat) (s : State) :
    Host.Outcome State Fault Refusal :=
  onHead s fun s0 =>
    let s := (s0.at now).cwyBegin
    if s.head.cwy.state == .disabled then s
    else if s.cwyValid f tObs then (s.cwyAccept f tObs).cwyRelay p f
    else s.cwyDiscard p f

/-! ### Sending (R265, R272, R276) -/

/-- A frame of this node in a slot (R260, R265). -/
def State.ownFrame (s : State) (slot : Nat) (coldStart notReady : Bool) (data : List Byte) : CwyFrame :=
  let c := s.head.cwy
  let looped := c.loop.1 || c.loop.2
  { generation := ringGen c.nodeTable, coldStart := coldStart, path := looped, ring := .portA, origin := s.cwyNode
    syncSlot := slotSync c.slotTable slot, coldNode := nodeCold c.nodeTable s.cwyNode, cycle := c.cycle, slot := slot, hop := 0
    mode := c.mode.code, countdown := c.countdown, loopNode := looped, notReady := notReady, reservedOk := true
    schedId := s.schedId, data := data, delimOk := true, crcOk := true }

/-- The origin sends a frame on both transmit links, a loop node only on its working link with the path bit set (R266): port B transmits
ring A, and port A ring B (R259). -/
def State.cwySend (s : State) (f : CwyFrame) : State :=
  s.each [CwyPort.portB, CwyPort.portA] fun s p =>
    if p.of s.head.cwy.loop then s else s.emit (.causeway p (cwyGroups { f with ring := p.other }))

/-- The guardian enables the transmitter from 1.0 µs before an action point to 1.0 µs after it and the frame, on its own count
(R276). -/
def State.inWindow (s : State) (slot : Nat) : Bool :=
  let c := s.head.cwy
  decide (((s.now : Int) - (c.guardian + slotStart c.slotTable slot + 2000)).natAbs ≤ 1000)

/-- The data of a slot that was complete 5.0 µs before the action point (R265). -/
def State.slotData (s : State) (slot : Nat) : Option (List Byte) :=
  (s.head.cwy.txBuf.find? fun x => x.1 == slot && decide (x.2.1 + 5000 ≤ s.now)).map (·.2.2)

/-- What the node sends in a slot (R265, R272): a cold-start node its COLD_START frame; an ACTIVE one the slot's data, or, in a sync slot of
generation 3 that is not ready, a frame with no data. -/
def State.slotFrame (s : State) (slot : Nat) : Option CwyFrame :=
  let c := s.head.cwy
  let m := c.slotTable
  match c.state with
  | .coldstart => if slotSync m slot then some (s.ownFrame slot true false (List.replicate (4 * slotUnits m slot) 0)) else none
  | .active =>
    match s.slotData slot with
    | some d => some (s.ownFrame slot false false d)
    | none => if slotSync m slot && ringGen c.nodeTable == 3 then some (s.ownFrame slot false true []) else none
  | _ => none

/-- SLOT_ACTION_POINT (R265): the owner sends its frame. A frame outside the guardian's window is cut short, and in two cycles running the
node drops out (R276). -/
def execSlotActionPoint (slot : Fin 256) (now : Nat) (s : State) : Host.Outcome State Fault Refusal :=
  onHead s fun s0 =>
    let s := (s0.at now).cwyBegin
    let c := s.head.cwy
    if !slotValid c.slotTable slot.val || slotOwner c.slotTable slot.val != s.cwyNode then s
    else
      match s.slotFrame slot.val with
      | none => s
      | some f =>
        let s1 := if f.coldStart || f.notReady then s
          else s.modCwy fun c => { c with txBuf := c.txBuf.filter (·.1 != slot.val) }
        if s.inWindow slot.val then s1.cwySend f
        else
          let s2 := (s1.cwyCount 4).modCwy fun c => { c with cutNow := true }
          let s3 := s2.raiseHead 0x23 (leBytes 1 slot.val ++ leBytes 3 0 ++ leBytes 6 c.cycle)
          if c.cutLast then ((s3.cwyCount 5).raiseHead 0x24 (leBytes 4 0 ++ leBytes 6 c.cycle)).cwyReintegrate else s3

/-- SLOT_END (R268, R273): an ACTIVE node counts the slot EMPTY or NOT_READY; the cold-start slot of cycle 0 ends. -/
def execSlotEnd (slot : Fin 256) (now : Nat) (s : State) : Host.Outcome State Fault Refusal :=
  onHead s fun s0 =>
    let s := (s0.at now).cwyBegin
    let c := s.head.cwy
    if !slotValid c.slotTable slot.val then s
    else if c.state == .coldstart then
      if slotOwner c.slotTable slot.val == s.cwyNode && slotSync c.slotTable slot.val then
        s.modCwy fun c => { c with csFirst := false }
      else s
    else if c.state != .active then s
    else if !c.seen.contains slot.val then
      let s1 := s.modCwy fun c => { c with slotCounts := c.slotCounts.count (2 * slot.val) }
      let last := c.emptyAt.get slot.val (-1)
      if last < 0 || (s.now : Int) ≥ last + 10000000000 then
        (s1.modCwy fun c => { c with emptyAt := c.emptyAt.set slot.val s.now (-1) }).raiseHead 0x21
          (leBytes 1 slot.val ++ leBytes 3 0 ++ leBytes 6 c.cycle)
      else s1
    else if c.notReady.contains slot.val then
      s.modCwy fun c => { c with slotCounts := c.slotCounts.count (2 * slot.val + 1) }
    else s

/-! ### The network idle time (R252, R270, R274 to R280) -/

/-- A number put into a rising list. -/
def insertSorted (x : Int) : List Int → List Int
  | [] => [x]
  | y :: ys => if x ≤ y then x :: y :: ys else y :: insertSorted x ys

/-- A list of numbers in rising order. -/
def sortInts (l : List Int) : List Int := l.foldl (fun acc x => insertSorted x acc) []

/-- The mean of some numbers, rounded down. -/
def meanInt (l : List Int) : Int := if l.isEmpty then 0 else l.sum / (l.length : Int)

/-- The sync-node deviations of the double cycle: one mean per sync node heard, and 0 for a sync node itself (R269, R270). -/
def State.syncDevs (s : State) : List Int :=
  let c := s.head.cwy
  let per := (List.range 64).filterMap fun o =>
    let ds := (c.devs.filter (·.1 == o)).map (·.2)
    if ds.isEmpty || !nodeSync c.nodeTable o then none else some (meanInt ds)
  if nodeSync c.nodeTable s.cwyNode then 0 :: per else per

/-- The fault-tolerant average (R270). -/
def ftAverage (syncNodes : Nat) (devs : List Int) : Option Int :=
  let n := devs.length
  let k0 := if syncNodes ≤ 7 then 1 else 2
  let k := if n ≤ 2 * k0 then (n - 1) / 2 else k0
  if n = 0 then none else some (meanInt (((sortInts devs).drop k).take (n - 2 * k)))

/-- The ring servo at the end of a double cycle (R252): the phase over the next double cycle and the rate. While a break is being healed no
offset is formed, and the clock runs at its last rate (R258). -/
def State.ringServo (s : State) : State :=
  let c := s.head.cwy
  let nSync := ((presentNodes c.nodeTable).filter (nodeSync c.nodeTable)).length
  let s1 := s.modCwy fun c => { c with devs := [] }
  match if c.mode == .notice then none else ftAverage nSync s.syncDevs with
  | none => s1
  | some o =>
    let tdc : Nat := max 1 (2 * s.cwyCycle)
    (s1.modTime fun tb =>
      { tb with ringOffset := o, ringPhase := o * 2 ^ 40, phaseLeft := 2 * s.cwyCycle
                ring := { tb.ring with rate := clampRate (tb.ring.rate + o * 2 ^ 40 / (4 * (tdc : Int))) } }).ringSyncNote

/-- The guardian's alignment at the NIT (R276): the median of the cycle starts heard, in COLDSTART the node's own cold-start instant,
carried on by one cycle. -/
def State.guardianAlign (s : State) : State :=
  s.modCwy fun c =>
    let l := sortInts c.guardStarts
    let n := l.length
    let med := if n % 2 = 1 then l.getD (n / 2) 0 else (l.getD (n / 2 - 1) 0 + l.getD (n / 2) 0) / 2
    { c with guardian := (if n = 0 || c.state == .coldstart then c.guardian else med) + s.cwyCycle }

/-- A break declared on a port by an ACTIVE node (R277): H on its link, the break event, NOTICE with countdown 2. -/
def State.cwyBreak (s : State) (p : CwyPort) : State :=
  let s1 := (s.modCwy fun c =>
    { c with broken := p.put c.broken true, sendH := p.put c.sendH true, repairRun := p.put c.repairRun 0
             mode := .notice, countdown := 2, ownNotice := true }).emit (.linkControl p true)
  s1.raiseHead 0x25 (leBytes 1 p.num ++ leBytes 3 0 ++ leBytes 6 s.head.cwy.cycle)

/-- What a port's receiver saw in the cycle, on a link declared broken (R280): 16 cycles without LOS end H, 16 more with I set
REPAIR. -/
def State.cwyRepair (s : State) (p : CwyPort) (seen : LinkSeen) : State :=
  let c := s.head.cwy
  let s1 := s.modCwy fun c => { c with los := p.put c.los (p.of c.los && seen == .lost) }
  if !p.of c.broken || !p.of c.loop then s1
  else
    let good := if p.of c.sendH then seen != .lost else seen == .idle
    let run := if good then p.of c.repairRun + 1 else 0
    let s2 := s1.modCwy fun c => { c with repairRun := p.put c.repairRun run }
    if run < 16 then s2
    else if p.of c.sendH then
      (s2.modCwy fun c => { c with sendH := p.put c.sendH false, repairRun := p.put c.repairRun 0 }).emit
        (.linkControl p false)
    else if c.mode == .healed then s2.modCwy fun c => { c with mode := .repair, countdown := 2 }
    else s2

/-- The end of NOTICE and of REPAIR, at the NIT of the cycle whose countdown is 0 (R277, R278, R280). -/
def State.cwyCountdown (s : State) : State :=
  let c := s.head.cwy
  if c.countdown ≠ 0 then s
  else match c.mode with
    | .notice =>
      s.modCwy fun c =>
        { c with mode := .healed, healed := true, ownNotice := false
                 loop := if ringGen c.nodeTable ≥ 2 then c.broken else (false, false) }
    | .repair =>
      s.modCwy fun c =>
        { c with mode := .normal, healed := false, loop := (false, false), broken := (false, false)
                 sendH := (false, false), loopNodes := [], repairRun := (0, 0) }
    | _ => s

/-- The progress of the node's state at a NIT (R271, R274, R275). -/
def State.cwyProgress (s : State) : State :=
  let c := s.head.cwy
  match c.state with
  | .integrate =>
    let quiet := if c.heardAny then 0 else c.silent + 1
    let s1 := s.modCwy fun c => { c with silent := quiet }
    if quiet ≥ 2 then s1.cwyListen
    else if !c.aligned then s1
    else if c.intCycles = 0 then s1.modCwy fun c => { c with intCycles := 1 }
    else if !(c.intOk && c.intSync) then s1.modCwy fun c => { c with aligned := false, intCycles := 0, devs := [] }
    else if c.intCycles = 1 then s1.modCwy fun c => { c with intCycles := 2 }
    else (s1.modCwy fun c => { c with silent := 0, csHeard := [] }).setCwy .active
  | .coldstart =>
    let run := if c.heardOther then c.csCycles + 1 else 0
    let s1 := s.modCwy fun c => { c with csCycles := run }
    if run ≥ 2 then (s1.modCwy fun c => { c with silent := 0 }).setCwy .active else s1
  | .active =>
    let quiet := if c.heardSync then 0 else c.silent + 1
    let s1 := s.modCwy fun c => { c with silent := quiet }
    if quiet ≥ 8 then s1.cwyReintegrate else s1
  | _ => s

/-- A port in LOS that an ACTIVE node has to act on (R277): H does not stand on it already. -/
def Causeway.losOpen (c : Causeway) (p : CwyPort) : Bool := p.of c.los && !(p.of c.broken && p.of c.sendH)

/-- NIT_START (R252, R262, R270, R274 to R280). In LISTEN, BACKOFF and DISABLED the node has no cycle and nothing happens. The cycle
number stays until something of the next cycle happens; a standing LOS on which an ACTIVE node has not acted is detected now. -/
def execNitStart (a b : LinkSeen) (s : State) : Host.Outcome State Fault Refusal :=
  onHead s fun s0 =>
    let s := s0.cwyBegin
    let c := s.head.cwy
    if c.state == .disabled || c.state == .listen || c.state == .backoff then s
    else if c.restart then s.cwyListen
    else
      let s1 := if c.aligned && c.cycle % 2 = 1 then s.ringServo else s
      let s2 := (((s1.guardianAlign.cwyRepair .portA a).cwyRepair .portB b).cwyCountdown).cwyProgress
      let s3 := s2.modCwy fun c => { c.freshCycle with inNit := true, cutLast := c.cutNow, cutNow := false }
      if s3.head.cwy.state == .active then
        [CwyPort.portA, .portB].foldl (fun s p => if s.head.cwy.losOpen p then s.cwyBreak p else s) s3
      else s3

/-- LISTEN_TIMEOUT (R272). -/
def execListenTimeout (s : State) : Host.Outcome State Fault Refusal :=
  onHead s fun s => if s.head.cwy.state == .listen then s.cwyColdstart else s

/-- BACKOFF_END (R273). -/
def execBackoffEnd (s : State) : Host.Outcome State Fault Refusal :=
  onHead s fun s => if s.head.cwy.state == .backoff then s.cwyColdstart else s

/-- The place in the cycle that the ring clock shows, in ns (R260). -/
def State.ringPlace (s : State) : Nat := s.head.time.ring.ns % max 1 s.cwyCycle

/-- PORT_LOS (R277, R282). The cycle of detection is the one that the ring clock shows. -/
def execPortLos (l : PortLoss) (s : State) : Host.Outcome State Fault Refusal :=
  onHead s fun s0 =>
    let sn := s0.at l.now
    let s := if sn.ringPlace < sn.cwyNit then sn.cwyBegin else sn
    let p := l.port
    let c := s.head.cwy
    if c.state == .disabled || p.of c.los then s
    else
      let s1 := (s.cwyCount (if p == .portA then 1 else 3)).modCwy fun c => { c with los := p.put c.los true }
      if c.state == .active && s1.head.cwy.losOpen p then s1.cwyBreak p else s1

/-- CYCLE_POINT (R281): the interrupt goes to the chosen tiles' triads with the cycle number and the ring-time state. A point at or after
nit_start belongs to the cycle of that NIT. -/
def execCyclePoint (i : Fin 8) (s : State) : Host.Outcome State Fault Refusal :=
  onHead s fun s0 =>
    let s := if s0.parH 0x0E 4 i.val < s0.cwyNit then s0.cwyBegin else s0
    let c := s.head.cwy
    if c.state == .coldstart || c.state == .active then
      s.each s.tileIds fun s t =>
        if (s.parH 0x0E 5 i.val).testBit t.num then s.emit (.cyclePoint t i.val c.cycle s.head.time.ringSync) else s
    else s

end Sys2Proof.Machine
end

