-- ==== Sys2Proof/Machine/Can.lean ====
section
/-!
DEFINITION. The two CAN FD controllers of a tile: reception and filters, transmission and buffer reuse, errors and bus-off,
sleep and wake (R283 to R291, R338).
-/

namespace Sys2Proof.Machine

/-! ### State of a controller -/

/-- can_mode of a controller: OFF 0, NORMAL 1, LISTEN 2, SLEEP_EDGE 3, SLEEP_SELECT 4 (R284). -/
def Tile.canMode (tl : Tile) (c : Fin 2) : Nat := tl.parN 0x0F 0 c.val

/-- The state with one controller changed. -/
def State.modCan (s : State) (t : TileId) (c : Fin 2) (f : CanCtl → CanCtl) : State :=
  s.modTile t fun tl => { tl with can := vmod tl.can c f }

/-- A controller of a tile. -/
def State.canCtl (s : State) (t : TileId) (c : Fin 2) : CanCtl := ((s.tile t).can)[c]

/-- The state with one message buffer changed. -/
def State.modBuf (s : State) (t : TileId) (c : Fin 2) (b : Fin 64) (f : CanBuffer → CanBuffer) : State :=
  s.modCan t c fun x => { x with bufs := vmod x.bufs b f }

/-- A message buffer. -/
def State.canBuf (s : State) (t : TileId) (c : Fin 2) (b : Fin 64) : CanBuffer := ((s.canCtl t c).bufs)[b]

/-- The buffers of a controller, in order. -/
def bufIds : List (Fin 64) := List.finRange 64

/-- The two controllers, and the two LIN masters. -/
def busIds : List (Fin 2) := [0, 1]

/-- The controller takes part in the bus: it listens (NORMAL or LISTEN) or sends (NORMAL), it is not in bus-off, and the
tile's service core is present (R27, R284). -/
def State.canOn (s : State) (t : TileId) (c : Fin 2) (sends : Bool) : Bool :=
  let m := (s.tile t).canMode c
  (s.tile t).die.svc && (m == 1 || (!sends && m == 2)) && (s.canCtl t c).state != .busOff

/-- The fault-confinement state that the error counters give (R283, ISO 11898-1). -/
def CanCtl.confined (x : CanCtl) : CanState :=
  if x.txErrs ≥ 256 then .busOff else if x.txErrs ≥ 128 || x.rxErrs ≥ 128 then .errorPassive else .errorActive

/-- The CAN-error-state event, with both error counters as bytes (R290). -/
def State.canStateEvent (s : State) (t : TileId) (c : Fin 2) : State :=
  let x := s.canCtl t c
  s.raise t 0x51 (leBytes 1 c.val ++ leBytes 1 x.state.code ++ leBytes 1 (min 255 x.txErrs) ++
    leBytes 1 (min 255 x.rxErrs))

/-- The error counters changed, and with them the fault-confinement state and its event (R290). -/
def State.canCount (s : State) (t : TileId) (c : Fin 2) (f : CanCtl → CanCtl) : State :=
  let old := (s.canCtl t c).state
  let s1 := s.modCan t c fun x => { f x with state := (f x).confined }
  if (s1.canCtl t c).state = old then s1 else s1.canStateEvent t c

/-- The index of an error kind in the counters of R290. -/
def canErrIdx : CanErr → Fin 5
  | .stuff => 0
  | .form => 1
  | .crc => 2
  | .bit => 3
  | .ack => 4

/-- One error counted; the counters hold at their maximum (R290). -/
def CanCtl.countErr (x : CanCtl) (e : CanErr) : CanCtl :=
  { x with errs := vmod x.errs (canErrIdx e) fun n => sat32 (n + 1) }

/-! ### Reception (R285, R286) -/

/-- The filter of a buffer takes a frame. A SEDGE buffer takes CAN FD frames with its binding's identifier (R214, R285). -/
def Tile.bufTakes (tl : Tile) (b : CanBuffer) (f : CanFrame) : Bool :=
  match b.sedge with
  | some k =>
    (tl.par 0x89 0 k.val == 1) && f.fd &&
    (match (tl.sedge[k]).binding with
     | some (.can _ _ ext _ id) => ext == f.extended && id == f.id
     | _ => false)
  | none =>
    !b.tx && b.extended == f.extended && (if f.fd then b.acceptFd else b.acceptClassic) &&
    (f.id.toNat &&& b.mask.toNat) == (b.ident.toNat &&& b.mask.toNat)

/-- rx_area of a controller (R284). -/
def Tile.rxArea (tl : Tile) (c : Fin 2) : Nat := tl.parN 0x0F 8 c.val + 2 ^ 32 * tl.parN 0x0F 9 c.val

/-- A stored frame is read by the service core: for the host into its receive area with the CAN-receive event, for Sedge
into the triad mailbox (R286). One header byte is the generation byte, at the place that Config.canGenByte leaves open, and it is written
last. The other 7 header bytes are a free value, because the spec names fields of more than 64 bits for the 8 and gives them no places; so
are the data bytes past the frame's last. Without the tile's service core no frame is read, and without that of the package head none
reaches the host (R27). -/
def State.canDeliver (s : State) (t : TileId) (c : Fin 2) (b : Fin 64) (f : CanFrame) : State :=
  let buf := s.canBuf t c b
  match buf.sedge with
  | some k =>
    if !(s.tile t).die.svc then s else (s.modBuf t c b fun x => { x with locked := true }).emit (.toTriad t k.val f.data)
  | none =>
    let area := (s.tile t).rxArea c
    if area = 0 || !s.head.host.sessionOpen || !(s.tile t).die.svc || !(s.tile .t0).die.svc then s
    else
      let (hdr, s1) := s.draw
      let (rest, s2) := s1.draw
      let image := leInt 8 hdr ++ (f.data ++ leInt 64 rest).take 64 ++ leBytes 8 0
      let entry := area + 80 * b.val
      (((s2.modBuf t c b fun x => { x with locked := true }).dma entry image).dma (entry + Config.canGenByte % 8)
        (leBytes 1 buf.gen.toNat)).raise t 0x50
        (leBytes 1 c.val ++ leBytes 1 b.val ++ leBytes 1 buf.gen.toNat) (logged := false)

/-- A frame becomes the content of a buffer, whose generation rises by one, and is delivered (R286). -/
def State.canStore (s : State) (t : TileId) (c : Fin 2) (b : Fin 64) (f : CanFrame) (ts : Word) : State :=
  (s.modBuf t c b fun x => { x with content := some (f, ts), gen := x.gen + 1 }).canDeliver t c b f

/-- CAN_FRAME_RECEIVED (R285, R286): the lowest matching buffer takes the frame with the TS32 of its start of frame, or its shadow entry does
while it is locked. -/
def execCanFrameReceived (t : TileId) (c : Fin 2) (f : CanRx) (s : State) : Host.Outcome State Fault Refusal :=
  onTile t s fun s =>
    if !s.canOn t c false then s
    else
      let (lower, s0) := if (s.canCtl t c).rxErrs > 127 then s.draw else (0, s)
      let s1 := s0.canCount t c fun x =>
        { x with rxErrs := if x.rxErrs > 127 then 119 + (lower % 9).toNat else x.rxErrs - 1 }
      match bufIds.find? fun b => (s1.tile t).bufTakes (s1.canBuf t c b) f.frame with
      | none => s1
      | some b =>
        if (s1.canBuf t c b).locked then
          s1.modBuf t c b fun x =>
            { x with shadowEnt := some (f.frame, f.sof)
                     overrun := if x.shadowEnt.isSome then sat32 (x.overrun + 1) else x.overrun }
        else s1.canStore t c b f.frame f.sof

/-- CAN_BUFFER_LOCK_END (R286): the lock ends, and the shadow entry becomes the buffer's content; while the service core is absent the
controller idles (R297). -/
def execCanBufferLockEnd (t : TileId) (c : Fin 2) (b : Fin 64) (s : State) : Host.Outcome State Fault Refusal :=
  onTile t s fun s =>
    let buf := s.canBuf t c b
    if !buf.locked || !(s.tile t).die.svc then s
    else
      let s1 := s.modBuf t c b fun x => { x with locked := false, shadowEnt := none }
      match buf.shadowEnt with
      | some (f, ts) => s1.canStore t c b f ts
      | none => s1

/-! ### Transmission (R287 to R289) -/

/-- The completion of a CAN_TX, with the generation and, for a frame that was sent, the TS32 of its start (R338). -/
def State.canDone (s : State) (cmd : Option HostCmd) (status : Nat) (gen : BitVec 4) (ts : Word := 0) : State :=
  match cmd with
  | none => s
  | some h => s.complete h 0x60 status 0 (leBytes 4 gen.toNat ++ leBytes 4 ts.toNat)

/-- New content for a TX buffer, with the next generation (R288): it replaces content that is pending, and is held while
content is in arbitration or on the wire. -/
def State.canLoad (s : State) (t : TileId) (c : Fin 2) (b : Fin 64) (f : CanFrame) (once : Bool) (cmd : Option HostCmd) :
    State :=
  let buf := s.canBuf t c b
  let new := (f, buf.gen + 1, once, cmd)
  if buf.inArb.isSome then
    let s1 := s.modBuf t c b fun x => { x with gen := x.gen + 1, heldTx := some new }
    match buf.heldTx with
    | some (_, g, _, old) => s1.canDone old 0x22 g
    | none => s1
  else
    let s1 := s.modBuf t c b fun x => { x with gen := x.gen + 1, pending := some new, abortWait := false }
    match buf.pending with
    | some (_, g, _, old) => s1.canDone old 0x22 g
    | none => s1

/-- The order in which identifiers win arbitration (R287): the base part first, base format before extended. -/
def canPriority (f : CanFrame) : Nat :=
  if f.extended then (f.id.toNat / 2 ^ 18) * 2 ^ 19 + 2 ^ 18 + f.id.toNat % 2 ^ 18 else f.id.toNat * 2 ^ 19

/-- The pending buffer that enters arbitration next (R287): the lowest identifier, then the lowest buffer. -/
def CanCtl.nextTx (x : CanCtl) : Option (Fin 64) :=
  bufIds.foldl (init := none) fun best b =>
    match (x.bufs[b]).pending, best with
    | none, _ => best
    | some _, none => some b
    | some (f, _), some k =>
      (match (x.bufs[k]).pending with
       | some (g, _) => if canPriority f < canPriority g then some b else best
       | none => some b)

/-- CAN_ARBITRATION_START (R287): on an idle bus the next pending frame enters arbitration; its start of frame is now. -/
def execCanArbitrationStart (t : TileId) (c : Fin 2) (s : State) : Host.Outcome State Fault Refusal :=
  onTile t s fun s =>
    let x := s.canCtl t c
    if !s.canOn t c true || bufIds.any (fun b => (x.bufs[b]).inArb.isSome) then s
    else
      match x.nextTx with
      | none => s
      | some b => s.modBuf t c b fun k =>
          { k with pending := none, inArb := k.pending.map fun (f, g, o, h) => (f, g, o, h, s.ts) }

/-- An attempt of a buffer ends (R287 to R289): sent or not. What was held is then loaded. -/
def State.canAttemptOver (s : State) (t : TileId) (c : Fin 2) (b : Fin 64) (sent : Bool) : State :=
  let k := s.canBuf t c b
  match k.inArb with
  | none => s
  | some (f, g, once, cmd, ts) =>
    let clear := fun (p : Option (CanFrame × BitVec 4 × Bool × Option HostCmd)) =>
      s.modBuf t c b fun x => { x with inArb := none, heldTx := none, abortWait := false, pending := p }
    if sent then (clear k.heldTx).canDone cmd 0 g ts
    else if k.abortWait then (clear k.heldTx).canDone cmd 0x23 g
    else if k.heldTx.isSome then (clear k.heldTx).canDone cmd 0x22 g
    else if once then (clear none).canDone cmd 0x24 g
    else clear (some (f, g, once, cmd))

/-- The controller switches the bit rate: can_dbr differs from can_nbr (R284). -/
def Tile.switches (tl : Tile) (c : Fin 2) : Bool := tl.parN 0x0F 2 c.val != tl.parN 0x0F 1 c.val

/-- CAN_TX_ATTEMPT_END (R288 to R290): the frame in arbitration is acknowledged, has lost, or met an error frame; the error
counters follow ISO 11898-1. A CAN FD frame carries ESI while the node is error-passive (R283). -/
def execCanTxAttemptEnd (t : TileId) (c : Fin 2) (e : CanTxEnd) (err : CanErr) (s : State) :
    Host.Outcome State Fault Refusal :=
  onTile t s fun s =>
    match bufIds.find? fun b => (s.canBuf t c b).inArb.isSome with
    | none => s
    | some b =>
      match e with
      | .acknowledged =>
        let f := match (s.canBuf t c b).inArb with
          | some (f, _) => [Output.can t c { f with brs := f.brs && (s.tile t).switches c, esi := f.fd && (s.canCtl t c).state == .errorPassive }]
          | none => []
        ((s.each f State.emit).canAttemptOver t c b true).canCount t c fun x => { x with txErrs := x.txErrs - 1 }
      | .lostArbitration => s.canAttemptOver t c b false
      | .errorFrame =>
        (s.canAttemptOver t c b false).canCount t c fun x =>
          let y := x.countErr err
          if x.state = .errorPassive && err = .ack then y else { y with txErrs := y.txErrs + 8 }

/-- CAN_RECEIVE_ERROR (R290): the receive error counter rises by 1, or by 1 or 8 on a bit error; a receiver makes no
acknowledgement error. -/
def execCanReceiveError (t : TileId) (c : Fin 2) (e : CanErr) (s : State) : Host.Outcome State Fault Refusal :=
  onTile t s fun s =>
    if !s.canOn t c false || e = .ack then s
    else
      let (by8, s1) := if e = .bit then s.draw else (0, s)
      s1.canCount t c fun x =>
        let y := x.countErr e
        { y with rxErrs := y.rxErrs + if by8 % 2 = 1 then 8 else 1 }

/-- CAN_BUS_OFF_RECOVERY (R290): under AUTO the controller restarts error-active with its counters at 0. -/
def execCanBusOffRecovery (t : TileId) (c : Fin 2) (s : State) : Host.Outcome State Fault Refusal :=
  onTile t s fun s =>
    if (s.canCtl t c).state = .busOff && (s.tile t).par 0x0F 7 c.val == 0 then
      s.canCount t c fun x => { x with txErrs := 0, rxErrs := 0 }
    else s

/-! ### Modes, sleep and wake (R284, R291) -/

/-- Everything that a HOST buffer has still to send is withdrawn: the controller goes to sleep (R291). -/
def State.canDiscard (s : State) (t : TileId) (c : Fin 2) (b : Fin 64) : State :=
  let k := s.canBuf t c b
  if k.sedge.isSome then s.canAttemptOver t c b false
  else
  let s1 := s.modBuf t c b fun x => { x with pending := none, inArb := none, heldTx := none, abortWait := false }
  let s2 := match k.inArb with
    | some (_, g, _, cmd, _) => s1.canDone cmd 0x23 g
    | none => s1
  let s3 := match k.pending with
    | some (_, g, _, cmd) => s2.canDone cmd 0x23 g
    | none => s2
  match k.heldTx with
  | some (_, g, _, cmd) => s3.canDone cmd 0x23 g
  | none => s3

/-- CFG_WRITE has set can_mode (R284, R290, R291): sleep withdraws the content and drives STB high; any other mode drives it
low; a controller held in bus-off restarts. A frame in arbitration when sending ends goes back to pending. -/
def State.canModeSet (s : State) (t : TileId) (c : Fin 2) : State :=
  let m := (s.tile t).canMode c
  if m ≥ 3 then
    (s.each bufIds fun s b => s.canDiscard t c b).modCan t c fun x =>
      { x with stb := true, state := .sleeping, wakeErrs := 0 }
  else
    let s1 := s.modCan t c fun x =>
      { x with stb := false, wakeErrs := 0, state := if x.state = .sleeping then x.confined else x.state }
    let s2 := if m = 1 then s1 else s1.each bufIds fun s b => s.canAttemptOver t c b false
    if (s2.canCtl t c).state = .busOff && (s2.tile t).par 0x0F 7 c.val == 1 then
      s2.canCount t c fun x => { x with txErrs := 0, rxErrs := 0 }
    else s2

/-- The controller wakes: NORMAL, STB low, and the CAN-wake event (R291). -/
def State.canWoken (s : State) (t : TileId) (c : Fin 2) (cause id : Nat) : State :=
  let k := pKey 0x0F 0 c.val none
  ((s.modTile t fun tl => { tl with written := pSet tl.written k 1, inForce := pSet tl.inForce k 1 }).canModeSet t
    c).raise t 0x52 (leBytes 1 c.val ++ leBytes 1 cause ++ leBytes 2 0 ++ leBytes 4 id)

/-- A classical frame is the wake frame (R291). -/
def Tile.isWakeFrame (tl : Tile) (c : Fin 2) (f : CanFrame) : Bool :=
  let p := fun row => tl.parN 0x0F row c.val
  !f.fd && (f.id.toNat &&& p 11) == (p 10 &&& p 11) && f.dlc.val == p 12 &&
    decide (ofLe f.data &&& (p 13 + 2 ^ 32 * p 14) ≠ 0)

/-- CAN_WAKE (R291): what wakes a sleeping controller, and the frame-error count of SLEEP_SELECT. -/
def execCanWake (t : TileId) (c : Fin 2) (cause : CanWakeCause) (s : State) : Host.Outcome State Fault Refusal :=
  onTile t s fun s =>
    let tl := s.tile t
    if !tl.die.svc then s
    else
      match tl.canMode c, cause with
      | 3, .dominantLevel => s.canWoken t c 0 0
      | 4, .wakeFrame f =>
        if tl.isWakeFrame c f then s.canWoken t c 1 f.id.toNat
        else s.modCan t c fun x => { x with wakeErrs := x.wakeErrs - 1 }
      | 4, .malformed =>
        if (s.canCtl t c).wakeErrs + 1 ≥ 32 then s.canWoken t c 2 0
        else s.modCan t c fun x => { x with wakeErrs := x.wakeErrs + 1 }
      | _, _ => s

/-! ### Commands (R288, R289, R338) -/

/-- CAN_TX (R284, R285, R288, R338): refusals, then the new content. More than 32 data bytes need an address. -/
def execCanTx (h : HostCmd) (p : CanTxPayload) (s : State) : Host.Outcome State Fault Refusal :=
  onCmd h 0x60 s fun s =>
    if h.dmaFault && p.address != 0 then s.complete h 0x60 0x09 0
    else if hc : p.controller < 2 ∧ p.buffer < 64 then
      let c : Fin 2 := ⟨p.controller, hc.1⟩
      let b : Fin 64 := ⟨p.buffer, hc.2⟩
      let buf := s.canBuf h.tile c b
      if !p.frame.wf || (!p.frame.fd && decide (p.frame.dlc.val > 8)) || (buf.sedge.isNone && !buf.tx) ||
          (p.address == 0 && decide (p.frame.data.length > 32)) then
        s.complete h 0x60 0x14 338 (leBytes 1 0xFF)
      else if buf.sedge.isSome then s.complete h 0x60 0x1B 285
      else if (s.tile h.tile).canMode c ≠ 1 then s.complete h 0x60 0x1C 284
      else s.canLoad h.tile c b p.frame p.singleShot (some h)
    else s.complete h 0x60 0x14 338 (leBytes 1 0xFF)

/-- CAN_ABORT (R285, R289, R297): it completes at once; pending and held content completes TX_ABORTED, and content in
arbitration or on the wire when its attempt ends. -/
def execCanAbort (h : HostCmd) (controller buffer : Nat) (s : State) : Host.Outcome State Fault Refusal :=
  onCmd h 0x61 s fun s =>
    if hc : controller < 2 ∧ buffer < 64 then
      let c : Fin 2 := ⟨controller, hc.1⟩
      let b : Fin 64 := ⟨buffer, hc.2⟩
      let k := s.canBuf h.tile c b
      if k.sedge.isSome then s.complete h 0x61 0x1B 285
      else
        let s1 := (s.complete h 0x61 0 0).modBuf h.tile c b fun x =>
          { x with pending := none, heldTx := none, abortWait := x.inArb.isSome }
        let s2 := match k.pending with
          | some (_, g, _, cmd) => s1.canDone cmd 0x23 g
          | none => s1
        match k.heldTx with
        | some (_, g, _, cmd) => s2.canDone cmd 0x23 g
        | none => s2
    else s.complete h 0x61 0x14 338 (leBytes 1 0xFF)

/-- A Sedge frame put into its TX buffer (R214, R288): the data length is the smallest CAN FD size that holds it, filled with
0x00. During bus-off, or outside NORMAL, it is dropped (R290). -/
def State.canSedgePut (s : State) (t : TileId) (c : Fin 2) (b : Fin 64) (ext brs : Bool) (id : BitVec 29)
    (frame : List Byte) : State :=
  if !s.canOn t c true then s
  else
    let dlc : Fin 16 := ((List.finRange 16).find? fun d => decide (frame.length ≤ canLen d.val)).getD 15
    s.canLoad t c b { id := id, extended := ext, fd := true, brs := brs, remote := false, dlc := dlc,
                      data := padTo (canLen dlc.val) frame } false none

end Sys2Proof.Machine
end

