-- ==== Sys2Proof/Machine/Profile.lean ====
section
/-!
DEFINITION. The jerk-limited trajectories of the motion engine (R47, R48, R58): the fastest change of speed, the stop, and
the advance of a trajectory over one period. Positions are in counts, times in seconds, all exact.
-/

namespace Sys2Proof.Machine

/-- A point of a trajectory: position, speed, acceleration. -/
structure Kin where
  x : Rat
  v : Rat
  a : Rat
  deriving DecidableEq, Repr

/-- The limits in force: speed, acceleration, jerk (R45). -/
structure KinLimits where
  v : Rat
  a : Rat
  j : Rat
  deriving DecidableEq, Repr

/-- Segments of constant jerk, with their lengths (R47). -/
abbrev Segments := List (Rat × Rat)

/-- The point reached under a constant jerk. -/
def Kin.after (k : Kin) (jerk dt : Rat) : Kin where
  x := k.x + dt * (k.v + dt * (k.a / 2 + dt * jerk / 6))
  v := k.v + dt * (k.a + dt * jerk / 2)
  a := k.a + dt * jerk

/-- The point at the end of some segments. -/
def Kin.run (k : Kin) : Segments → Kin
  | [] => k
  | (j, d) :: rest => (k.after j d).run rest

/-- The point reached in some segments after a time; past their end the speed is kept. -/
def Kin.along (k : Kin) : Segments → Rat → Kin
  | [], t => k.after 0 t
  | (j, d) :: rest, t => if t ≤ d then k.after j t else (k.after j d).along rest (t - d)

/-- The length of some segments in time. -/
def Segments.length (l : Segments) : Rat := (l.map (·.2)).sum

/-- The whole square root, from its highest bit down. -/
def isqrtBits (n : Nat) : Nat → Nat → Nat
  | 0, r => r
  | b + 1, r => isqrtBits n b (if (r + 2 ^ b) ^ 2 ≤ n then r + 2 ^ b else r)

/-- The largest whole number whose square does not exceed n, for n below 2^64. -/
def isqrt (n : Nat) : Nat := isqrtBits n 32 0

/-- The magnitude of a number. -/
def ratAbs (q : Rat) : Rat := if q < 0 then -q else q

/-- The fastest change from a speed and acceleration to another speed with zero acceleration, within a_max and j_max: rising
jerk, constant acceleration, falling jerk (R48). The peak acceleration is rounded down to a whole number, and the constant
part makes good the difference. -/
def ramp (lim : KinLimits) (v a w : Rat) : Segments :=
  let s : Rat := if v + a * ratAbs a / (2 * lim.j) ≤ w then 1 else -1
  let α := s * a
  let Δ := s * (w - v)
  let peak := min lim.a (max α (isqrt (max 0 (lim.j * Δ + α * α / 2).floor).toNat : Nat))
  if peak ≤ 0 then [(s * lim.j, ratAbs a / lim.j)]
  else
    [(s * lim.j, (peak - α) / lim.j), (0, max 0 ((Δ - (2 * peak * peak - α * α) / (2 * lim.j)) / peak)),
     (-s * lim.j, peak / lim.j)]

/-- A change of speed; an acceleration above a lowered a_max falls to it first (R47). -/
def speedChange (lim : KinLimits) (v a w : Rat) : Segments :=
  if ratAbs a ≤ lim.a then ramp lim v a w
  else
    let s : Rat := if a < 0 then -1 else 1
    let d := (ratAbs a - lim.a) / lim.j
    (-s * lim.j, d) :: ramp lim (v + d * (a - s * d * lim.j / 2)) (s * lim.a) w

/-- The profile to zero speed (R58). -/
def Kin.stopping (k : Kin) (lim : KinLimits) : Segments := speedChange lim k.v k.a 0

/-- Where the stop from a point ends. -/
def Kin.stopAt (k : Kin) (lim : KinLimits) : Rat := (k.run (k.stopping lim)).x

/-- The last moment, within an interval, at which the stop that then begins ends no further than a target in a direction:
halving, `n` times. -/
def lastMoment (k : Kin) (lim : KinLimits) (drive : Segments) (d target : Rat) : Nat → Rat → Rat → Rat
  | 0, lo, _ => lo
  | n + 1, lo, hi =>
    let mid := (lo + hi) / 2
    if d * (k.along drive mid).stopAt lim ≤ d * target then lastMoment k lim drive d target n mid hi
    else lastMoment k lim drive d target n lo mid

/-- A stop followed over a period: the point reached, and whether the stop has ended in it, with the time left. -/
def Kin.stopOver (k : Kin) (lim : KinLimits) (dt : Rat) : Kin × Option Rat :=
  let st := k.stopping lim
  let len := Segments.length st
  if len ≤ dt then ({ x := (k.run st).x, v := 0, a := 0 }, some (dt - len)) else (k.along st dt, none)

/-- A trajectory followed over a period towards a target (R47, R48), and whether it has ended there at rest. The axis makes for
the speed limit until the last moment from which it can still come to rest at the target, and then stops. With the target
behind it, or nearer than it can stop, it comes to rest first, and a new trajectory starts from there. A trajectory that comes
to rest within half a count of its target has ended. -/
def Kin.advance (lim : KinLimits) (target : Rat) : Nat → Kin → Rat → Kin × Bool
  | 0, k, _ => (k, false)
  | n + 1, k, dt =>
    let near := fun (q : Kin) => decide (ratAbs (target - q.x) * 2 < 1)
    let still := decide (k.v = 0) && decide (k.a = 0)
    if still && near k then ({ x := target, v := 0, a := 0 }, true)
    else
      let d : Rat := if k.x ≤ target then 1 else -1
      let away := decide (d * k.v < 0) || decide (d * target < d * k.stopAt lim)
      if !still && away then
        match k.stopOver lim dt with
        | (q, some left) => if near q then ({ x := target, v := 0, a := 0 }, true) else Kin.advance lim target n q left
        | (q, none) => (q, false)
      else
        let drive := speedChange lim k.v k.a (d * lim.v)
        if d * (k.along drive dt).stopAt lim ≤ d * target then (k.along drive dt, false)
        else
          let τ := lastMoment k lim drive d target 24 0 dt
          match (k.along drive τ).stopOver lim (dt - τ) with
          | (q, some _) => if near q then ({ x := target, v := 0, a := 0 }, true) else (q, false)
          | (q, none) => (q, false)

/-- A controlled stop followed over a period, and whether it has ended (R58). -/
def Kin.halt (lim : KinLimits) (k : Kin) (dt : Rat) : Kin × Bool :=
  match k.stopOver lim dt with
  | (q, some _) => (q, true)
  | (q, none) => (q, false)

/-- The nearest whole number. -/
def roundRat (q : Rat) : Int := (q + 1 / 2).floor

end Sys2Proof.Machine
end

