-- ==== Sys2Proof/Machine/Soundings.lean ====
section
/-!
DEFINITION. The soundings: bins, envelope, live learning, audit records, and the computation and installation of
calibrated, shadow and written sets (R109, R110, R133 to R148).
-/

namespace Sys2Proof.Machine

/-- A bin record (R133), forces in 1/16 N. -/
structure Bin where
  mean       : Int
  spread     : Int
  baseMean   : Int
  baseSpread : Int
  envAudit   : Int
  flags      : Nat
  zoneLast   : Nat
  updates    : Nat
  deriving DecidableEq, Repr

/-- The key of field 0 of a bin. -/
def binKey (d : Dir) (b : Nat) : Nat := (512 * d.num + b) * 8

/-- A bin as a set holds it. -/
def readBin (m : SMap) (d : Dir) (b : Nat) : Bin :=
  let k := binKey d b
  { mean := m.get k, spread := m.get (k + 1), baseMean := m.get (k + 2), baseSpread := m.get (k + 3),
    envAudit := m.get (k + 4), flags := (m.get (k + 5)).toNat, zoneLast := (m.get (k + 6)).toNat,
    updates := (m.get (k + 7)).toNat }

/-- A set with a bin written as one unit (R133). -/
def writeBin (m : SMap) (d : Dir) (b : Nat) (x : Bin) : SMap :=
  let k := binKey d b
  (((((((m.set k x.mean).set (k + 1) x.spread).set (k + 2) x.baseMean).set (k + 3) x.baseSpread).set
    (k + 4) x.envAudit).set (k + 5) x.flags).set (k + 6) x.zoneLast).set (k + 7) x.updates

/-- The learned flag of a bin. -/
def Bin.learned (x : Bin) : Bool := x.flags % 2 == 1

/-- The 16 bytes of a bin record (R133). The model holds the forces as whole numbers of any size, and a value beyond its 16 bits
wraps here (DESIGN CHOICE: R133 does not say what such a mean, spread or audit value becomes; log entry 53). -/
def Bin.bytes (x : Bin) : List Byte :=
  leInt 2 x.mean ++ leBytes 2 x.spread.toNat ++ leInt 2 x.baseMean ++ leBytes 2 x.baseSpread.toNat ++
  leInt 2 x.envAudit ++ leBytes 1 x.flags ++ leBytes 1 x.zoneLast ++ leBytes 4 x.updates

/-- The bin of a position (R109). -/
def binOf (pos travel : Int) : Nat := (max 0 (min 511 (pos * 512 / travel))).toNat

/-! ### Zone profiles and envelope (R110, R113) -/

/-- k of a zone, as a rational number. -/
def Tile.zk (tl : Tile) (z : Nat) : Rat := (tl.par 0x82 0 z : Rat) / 1000000

/-- offset of a zone, F_abs of a zone, in 1/16 N. -/
def Tile.zOffset (tl : Tile) (z : Nat) : Int := 16 * tl.par 0x82 1 z
def Tile.zAbs (tl : Tile) (z : Nat) : Int := 16 * tl.par 0x82 3 z

/-- mean + k × spread + offset, in 1/16 N. -/
def Tile.envOf (tl : Tile) (mean spread : Int) (z : Nat) : Rat := mean + tl.zk z * spread + tl.zOffset z

/-- The envelope of a sample, in µN (R110); without a learned mark, and in a calibration cycle (R140), it is F_abs. -/
def Tile.envelope (tl : Tile) (x : Bin) (z : Nat) : Int :=
  let abs := tl.par 0x82 3 z * 1000000
  if x.learned && !tl.door.calRunning then
    min ((x.mean * 1000000 + tl.par 0x82 0 z * x.spread + tl.zOffset z * 1000000) / 16) abs
  else abs

/-! ### The Stake tables (R93, R94, R106) -/

/-- The axis whose tables an axis evaluates (R106). -/
def Tile.stakeAxis (tl : Tile) (a : AxisId) : AxisId := if a == .B && tl.par 0x11 2 == 1 then .A else a

/-- A field of a stake. -/
def Tile.stake (tl : Tile) (a : AxisId) (d : Dir) (i row : Nat) : Int :=
  pGet tl.inForce (pKey (0x84 + d.num) row i (some (tl.stakeAxis a)))

/-- A bit of a stake's field. -/
def Tile.stakeBit (tl : Tile) (a : AxisId) (d : Dir) (i row b : Nat) : Bool := (tl.stake a d i row).toNat / 2 ^ b % 2 == 1

/-- The stake is valid, MEAS, REARM (R94). -/
def Tile.stakeValid (tl : Tile) (a : AxisId) (d : Dir) (i : Nat) : Bool := tl.stakeBit a d i 2 0
def Tile.stakeMeas (tl : Tile) (a : AxisId) (d : Dir) (i : Nat) : Bool := tl.stakeBit a d i 2 1
def Tile.stakeRearm (tl : Tile) (a : AxisId) (d : Dir) (i : Nat) : Bool := tl.stakeBit a d i 2 2

/-- The valid stakes of a table, in table order. -/
def Tile.stakes (tl : Tile) (a : AxisId) (d : Dir) : List Nat := (List.range 64).filter (tl.stakeValid a d)

/-- The zone that the table, replayed under R99, puts in force at the centre of a bin in a full stroke (R133). -/
def Tile.zoneAt (tl : Tile) (a : AxisId) (d : Dir) (b : Nat) : Nat :=
  let centre2 : Int := (2 * b + 1 : Nat) * tl.travel a
  (tl.stakes a d).foldl (fun z i =>
    let p := 1024 * tl.stake a d i 0
    let passed := match d with
      | .opening => decide (p ≤ centre2)
      | .closing => decide (p ≥ centre2)
    if passed && !tl.stakeMeas a d i && tl.stakeBit a d i 3 d.num && tl.stakeBit a d i 4 2 then (tl.stake a d i 7).toNat
    else z) 0

/-! ### Installation (R133) -/

/-- A bin installed: mean, spread, base values, learned and ceiling flags as given (R133). -/
def Tile.installBin (tl : Tile) (a : AxisId) (d : Dir) (b : Nat) (mean spread baseMean baseSpread : Int) (flags : Nat) :
    Bin :=
  let z := tl.zoneAt a d b
  { mean := mean, spread := spread, baseMean := baseMean, baseSpread := baseSpread
    envAudit := (tl.envOf mean spread z).floor, flags := flags % 4, zoneLast := z, updates := 0 }

/-- The bytes of 512 bins of one direction of a set. -/
def setBytes (m : SMap) (d : Dir) (first count : Nat) : List Byte :=
  (List.range count).flatMap fun i => (readBin m d (first + i)).bytes

/-! ### Per-bin sums (R137, R141, R143) -/

/-- One sample added to the sums of a pass, F in µN (R137). -/
def Pass.addSample (p : Pass) (b : Nat) (f : Int) (zone : Nat) : Pass :=
  let k := 4 * b
  { p with bins := (((p.bins.set k (p.bins.get k + 1)).set (k + 1) (p.bins.get (k + 1) + f)).set
      (k + 2) (p.bins.get (k + 2) + f * f)).set (k + 3) zone }

/-- Mean of the samples of a bin in µN, rounded down, and their rms deviation from it, rounded down. -/
def Pass.binMean (p : Pass) (b : Nat) : Int := p.bins.get (4 * b + 1) / p.bins.get (4 * b)
def Pass.binDev (p : Pass) (b : Nat) : Int :=
  let n := p.bins.get (4 * b)
  (Nat.sqrt (n * p.bins.get (4 * b + 2) - p.bins.get (4 * b + 1) * p.bins.get (4 * b + 1)).toNat : Int) / n

/-- The bins that a pass crossed. -/
def Pass.crossed (p : Pass) : List Nat := (p.bins.filter fun kv => kv.1 % 4 == 0).map fun kv => kv.1 / 4

/-- A pass gathered into the sums of a calibration run or of a shadow collection: per bin the passes with enough samples,
the passes, the sum, least and largest of the means, and the largest deviation, in µN. -/
def gather (m : SMap) (p : Pass) (d : Dir) (minSamples : Int) : SMap :=
  p.crossed.foldl (fun m b =>
    let k := binKey d b
    let x := p.binMean b
    let n := m.get (k + 1)
    let m1 := m.set k (m.get k + (if p.bins.get (4 * b) ≥ minSamples then 1 else 0))
    let m2 := (m1.set (k + 1) (n + 1)).set (k + 2) (m.get (k + 2) + x)
    let m3 := (m2.set (k + 3) (if n = 0 then x else min (m.get (k + 3)) x)).set
      (k + 4) (if n = 0 then x else max (m.get (k + 4)) x)
    m3.set (k + 5) (max (m.get (k + 5)) (p.binDev b))) m

/-- µN to 1/16 N, rounded down. -/
def to16 (f : Int) : Int := f * 16 / 1000000

/-- The bin computed from the sums of some passes (R141): mean, spread and flags (learned, ceiling). R141 takes the mean over the cycles and
does not say what a cycle that never crossed the bin adds: the mean is taken over the cycles that crossed it, and is 0 where none did
(DESIGN CHOICE, log entry 53). -/
def Tile.computeBin (tl : Tile) (a : AxisId) (m : SMap) (d : Dir) (b passes : Nat) : Int × Int × Nat :=
  let k := binKey d b
  let n := m.get (k + 1)
  let mean := if n = 0 then 0 else m.get (k + 2) / n
  let least := tl.par 0x09 4 * 1000
  let spread := max least (max (m.get (k + 5)) (max (m.get (k + 4) - mean) (mean - m.get (k + 3))))
  let mean16 := to16 mean
  let spread16 := to16 spread
  let z := tl.zoneAt a d b
  let learned := decide (m.get k = passes)
  let ceil := learned && decide (tl.envOf mean16 spread16 z > tl.zAbs z)
  (mean16, spread16, bit learned + 2 * bit ceil)

/-- Every bin of both directions computed and installed into a set (R141, R133). -/
def Tile.computeSet (tl : Tile) (a : AxisId) (sums : SMap) (passes : Nat) (set : SMap) : SMap :=
  [Dir.opening, Dir.closing].foldl (fun m d => (List.range 512).foldl (fun m b =>
    let (mn, sp, fl) := tl.computeBin a sums d b passes
    writeBin m d b (tl.installBin a d b mn sp mn sp fl)) m) set

/-- The number of bins of a set that carry the learned flag. -/
def learnedCount (m : SMap) : Nat := (m.filter fun kv => kv.1 % 8 == 5 && kv.2 % 2 == 1).length

/-- The learned flag of every bin of a set cleared (R134). -/
def clearLearned (m : SMap) : SMap :=
  (m.map fun kv => if kv.1 % 8 = 5 then (kv.1, kv.2 - kv.2 % 2) else kv).filter fun kv => kv.2 != 0

/-- A change of an estimator or geometry parameter of an axis clears its learned flags (R134); a ready shadow set goes
with them (R144). -/
def State.soundingsCleared (s : State) (t : TileId) (a : AxisId) : State :=
  let s1 := s.modAxis t a fun x =>
    { x with soundings := clearLearned x.soundings, shadow := clearLearned x.shadow, detect := clearLearned x.detect }
  let s2 := s1.modDoor t fun d =>
    { d with shadow := match d.shadow with
        | .ready _ => .none
        | sh => sh }
  s2.raise t 0x28 (leBytes 1 a.num)

/-- A bin with an uncorrectable ECC error (R132) loses its learned mark in the set that a pass detects with and in the active set. R132
names no event code; the model raises the soundings-cleared event (DEDUCED, log entry 53). -/
def State.binClear (s : State) (t : TileId) (a : AxisId) (d : Dir) (n : Nat) : State :=
  let x := s.axis t a
  let clear := fun (m : SMap) => let b := readBin m d n
                                 writeBin m d n { b with flags := b.flags - b.flags % 2 }
  if !(readBin x.soundings d n).learned && !(readBin x.detect d n).learned then s
  else
    (s.modAxis t a fun x => { x with soundings := clear x.soundings, detect := clear x.detect }).raise t 0x28 (leBytes 1 a.num)

/-- The bin under an axis reads with an uncorrectable ECC error in the lookup of a sample (R132). -/
def State.binLost (s : State) (t : TileId) (a : AxisId) : State :=
  let tl := s.tile t
  match (tl.ax.get a).mo.move with
  | none => s
  | some mv => s.binClear t a mv.dir (binOf (tl.ax.get a).fb.pos (tl.travel a))

/-! ### Live learning (R137) -/

/-- One update of a bin: the new bin, and whether it met the drift limit, the ceiling, and the audit threshold. -/
def Tile.learn (tl : Tile) (b : Bin) (x sd : Rat) (z : Nat) : Bin × Bool × Bool × Bool :=
  let w : Rat := 2 ^ tl.parN 0x09 1
  let step : Rat := (tl.par 0x09 2 : Rat) * 16 / 1000
  let k := tl.zk z
  let dev := if x - b.mean ≥ 0 then x - b.mean else b.mean - x
  let dm0 := (x - b.mean) / w
  let ds0 := (max sd dev - b.spread) / w
  let dm1 := if dm0 > step then step else dm0
  let ds1 := if k > 0 ∧ dm1 + k * ds0 > step then (step - dm1) / k else ds0
  let raw := tl.envOf b.mean b.spread z
  let limit := fun (room dm ds : Rat) =>
    if dm + k * ds > room then
      let ds' := if k > 0 then max (min ds 0) ((room - dm) / k) else min ds 0
      (if dm + k * ds' > room then room - k * ds' else dm, ds', true)
    else (dm, ds, false)
  let (dm2, ds2, drift) := limit (tl.envOf b.baseMean b.baseSpread z + 16 * tl.par 0x09 3 - raw) dm1 ds1
  let (dm3, ds3, ceil) := limit (tl.zAbs z - raw) dm2 ds2
  let mean := b.mean + dm3.floor
  let least := (tl.par 0x09 4 * 16 + 999) / 1000
  let spread := max (b.spread + ds3.floor) least
  let env := tl.envOf mean spread z
  let far := decide (env - b.envAudit > (tl.par 0x09 6 : Rat) * 16 / 1000) ||
    decide ((b.envAudit : Rat) - env > (tl.par 0x09 6 : Rat) * 16 / 1000)
  let fl := b.flags ||| (if ceil then 2 else 0) ||| (if drift then 4 else 0)
  ({ b with mean := mean, spread := spread, flags := fl, zoneLast := z, updates := sat32 (b.updates + 1),
            envAudit := if far then env.floor else b.envAudit }, drift, ceil, far)

/-- An entry of an audit record (R345). -/
def auditEntry (b : Nat) (old new : Bin) (z : Nat) : List Byte :=
  leBytes 2 b ++ leInt 2 old.mean ++ leBytes 2 old.spread.toNat ++ leInt 2 new.mean ++ leBytes 2 new.spread.toNat ++
  leBytes 1 z ++ leBytes 1 (new.flags / 4 % 2 + 2 * (new.flags / 2 % 2))

/-- Audit records of up to 32 entries (R138, R345). -/
def State.auditRecords (s : State) (t : TileId) (a : AxisId) (d : Dir) : List (List Byte) → Nat → State
  | _, 0 => s
  | entries, n + 1 =>
    if entries.isEmpty then s
    else
      let some32 := entries.take 32
      (s.peatEntry t 0x05 .tile
        (leBytes 1 a.num ++ leBytes 1 d.num ++ leBytes 1 0 ++ leBytes 1 some32.length ++ leBytes 4 s.ts.toNat ++
          some32.flatten)).auditRecords t a d (entries.drop 32) n

/-- The update at the end of a clean pass (R137, R138). -/
def State.learnPass (s : State) (t : TileId) (a : AxisId) (d : Dir) : State :=
  let tl := s.tile t
  let p := (tl.ax.get a).pa
  let todo := p.crossed.filter fun b =>
    (readBin (tl.ax.get a).soundings d b).learned && decide (p.bins.get (4 * b) ≥ tl.par 0x09 5)
  let (s', audit) := todo.foldl (fun (acc : State × List (List Byte)) b =>
    let (s, audit) := acc
    let old := readBin (s.axis t a).soundings d b
    let z := (p.bins.get (4 * b + 3)).toNat
    let (new, drift, ceil, far) := tl.learn old ((p.binMean b : Rat) * 16 / 1000000) ((p.binDev b : Rat) * 16 / 1000000) z
    let s1 := s.modAxis t a fun x => { x with soundings := writeBin x.soundings d b new }
    let data := leBytes 1 a.num ++ leBytes 1 d.num ++ leBytes 2 b ++ leInt 2 (tl.envOf new.mean new.spread z).floor
    let s2 := if drift then s1.raise t 0x29 data else s1
    let s3 := if ceil then s2.raise t 0x2A data else s2
    (s3, if far then audit ++ [auditEntry b old new z] else audit)) (s, [])
  s'.auditRecords t a d audit 16

/-- Number of passes of a direction in a pair of counts. -/
def dirCount (c : Nat × Nat) : Dir → Nat
  | .opening => c.1
  | .closing => c.2

/-- One more in a direction. -/
def dirAdd (c : Nat × Nat) : Dir → Nat × Nat
  | .opening => (c.1 + 1, c.2)
  | .closing => (c.1, c.2 + 1)

/-- Shadow collection judged after a pass: ready when every used axis has M clean passes in each direction; failed when
4 × M passes of an axis and direction have ended without M clean ones (R143). -/
def State.shadowJudge (s : State) (t : TileId) (a : AxisId) (d : Dir) (m : Nat) : State :=
  let tl := s.tile t
  let done := tl.usedAxes.all fun x =>
    decide ((tl.ax.get x).shadowClean.1 ≥ m) && decide ((tl.ax.get x).shadowClean.2 ≥ m)
  if done then
    let s1 := s.each tl.usedAxes fun s x =>
      s.modAxis t x fun y => { y with shadow := tl.computeSet x y.shadowSums m y.shadow }
    (s1.modDoor t fun dd => { dd with shadow := .ready m }).raise t 0x30 (leBytes 1 m)
  else if decide (dirCount (tl.ax.get a).shadowEnded d ≥ 4 * m) && decide (dirCount (tl.ax.get a).shadowClean d < m) then
    (s.modDoor t fun dd => { dd with shadow := .none }).raise t 0x31 (leBytes 1 a.num ++ leBytes 1 d.num)
  else s

/-- A pass that ended at rest handed to shadow collection (R143): only the first M clean passes of a direction count. -/
def State.shadowPass (s : State) (t : TileId) (a : AxisId) (d : Dir) (clean : Bool) : State :=
  match (s.tile t).door.shadow with
  | .collecting m =>
    let tl := s.tile t
    let s1 := s.modAxis t a fun x =>
      let add := clean && decide (dirCount x.shadowClean d < m)
      { x with shadowEnded := dirAdd x.shadowEnded d,
               shadowClean := if add then dirAdd x.shadowClean d else x.shadowClean,
               shadowSums := if add then gather x.shadowSums x.pa d (tl.par 0x09 5) else x.shadowSums }
    s1.shadowJudge t a d m
  | _ => s

end Sys2Proof.Machine
end

