-- ==== Sys2Proof/Machine/Motion.lean ====
section
/-!
DEFINITION. The motion engine's operations: limits in force, moves and stops, passes, trips and the trip fabric, the stakes,
the force estimate and the planner (R44 to R64, R97 to R101, R105 to R121, R127).
-/

namespace Sys2Proof.Machine

/-! ### Limits in force (R44 to R46, R116) -/

/-- The index of a limit set in table 0x03 (R44). -/
def LimitSet.idx : LimitSet → Nat
  | .openSet => 0
  | .close => 1
  | .reverse => 2
  | .nudge => 3
  | .egress => 4
  | .home => 5
  | .jog => 6
  | .step => 7
  | .hold => 8

/-- The pin of a sensitive edge (R114): roles 8 and 9. -/
def edgeRole : EdgeId → Nat
  | .edgeA => 8
  | .edgeB => 9

/-- The axes on whose fabric an edge acts, as a mask (R114); under SINGLE the defaults both name axis A. -/
def Tile.edgeMask (tl : Tile) (e : EdgeId) : Nat :=
  let m := tl.parN 0x8A 0 ((edgeRole e) - 8)
  if tl.single && e == .edgeB && m == 2 then 1 else m

/-- A field pin. -/
def FieldDie.pin (f : FieldDie) (p : Nat) : IoPin := f.io.toList.getD p (IoPin.reset false)

/-- A pin's debounced level is active under fio_active (R168). -/
def Tile.pinActive (tl : Tile) (p : Nat) : Bool := (tl.field.pin p).level == (tl.par 0x0C 3 p == 0)

/-- The test-pulse source that feeds a pin has a fault (R172): fio_tp 1 is TPA, 2 is TPB. -/
def Tile.sourceFault (tl : Tile) (p : Nat) : Bool :=
  (tl.par 0x0C 4 p == 1 && tl.field.tpFault.1) || (tl.par 0x0C 4 p == 2 && tl.field.tpFault.2)

/-- An edge input fails its supervision (R116). -/
def Tile.edgeBad (tl : Tile) (e : EdgeId) : Bool :=
  let p := tl.role (edgeRole e)
  (tl.field.pin p).noPulse || (tl.field.pin p).foreign || tl.sourceFault p

/-- The blanking window of a pin's own source is open (R173). -/
def Tile.blanked (tl : Tile) (p : Nat) : Bool :=
  (tl.par 0x0C 4 p == 1 && tl.field.tpWindow.1) || (tl.par 0x0C 4 p == 2 && tl.field.tpWindow.2)

/-- An edge input is active and acts on an axis, outside the blanking window of its source (R115, R116, R173). -/
def Tile.edgeActs (tl : Tile) (e : EdgeId) (a : AxisId) : Bool :=
  let p := tl.role (edgeRole e)
  tl.edgeMask e / 2 ^ a.num % 2 == 1 && !tl.edgeBad e && tl.pinActive p && !tl.blanked p

/-- The degraded close of R116 governs an axis: a mapped edge fails its supervision in a pass in CLOSING of a leaf axis. It
lasts exactly as long as the fault, so a fault that clears in mid-pass ends it at once (DESIGN CHOICE: R116 speaks of the next
pass only; log entry 51). -/
def Tile.degraded (tl : Tile) (a : AxisId) : Bool :=
  let p := (tl.ax.get a).pa
  p.active && p.door == .closing && a != .C &&
  [EdgeId.edgeA, EdgeId.edgeB].any fun e => tl.edgeMask e / 2 ^ a.num % 2 == 1 && tl.edgeBad e

/-- v_max in force: the lowest of the set, the stake limit and the degraded close; scaled in a calibration cycle (R46, R116,
R139). -/
def Tile.vMax (tl : Tile) (a : AxisId) (set : LimitSet) : Nat :=
  let v0 := tl.parAN a 0x03 0 set.idx
  let v1 := if tl.door.calRunning then v0 * tl.parN 0x0A 0 / 100 else v0
  let v2 := match (tl.ax.get a).mo.vLim with
    | some v => min v1 v
    | none => v1
  if tl.degraded a then min v2 (tl.parAN a 0x03 0 3) else v2

/-- f_max in force, in N. -/
def Tile.fMax (tl : Tile) (a : AxisId) (set : LimitSet) : Nat :=
  let f1 := tl.parAN a 0x03 3 set.idx
  let f2 := match (tl.ax.get a).mo.fLim with
    | some f => min f1 f
    | none => f1
  if tl.degraded a then min f2 (tl.parAN a 0x03 3 3) else f2

/-- The clamp on i_q in mA: f_max / k_F, never above i_max (R46). -/
def Tile.iClamp (tl : Tile) (a : AxisId) (set : LimitSet) : Nat :=
  min (tl.fMax a set * 1000000 / tl.parAN a 0x81 0) (tl.parAN a 0x04 3)

/-- The limit set that governs an axis: its move's, else HOLD, which limits a bridge driven at holding force (R44). -/
def Tile.setInForce (tl : Tile) (a : AxisId) : LimitSet :=
  match (tl.ax.get a).mo.move with
  | some m => m.set
  | none => .hold

/-- The limits of a profile under a set (R45, R46); a limit of 0 cannot be set. -/
def Tile.kinLimits (tl : Tile) (a : AxisId) (set : LimitSet) : KinLimits where
  v := (max 1 (tl.vMax a set) : Nat)
  a := (max 1 (tl.parAN a 0x03 1 set.idx) : Nat)
  j := (max 1 (tl.parAN a 0x03 2 set.idx) : Nat)

/-- motor_kind of an axis: 0 PMSM, 1 STEPPER, 2 NONE (R49). -/
def Tile.motor (tl : Tile) (a : AxisId) : Int := tl.parA a 0x04 0

/-- What the gates of an axis do: off on an axis that is unused or has no motor (R29, R49) and while VDRV is low (R54); in short
brake while the fallback image is applied, whatever the triad commands (R161); pulsed by GATE_CHECK (R145); else as the engine
commands (R56), driven once a down-frame has carried the PWM enable (R16). -/
def Tile.gateMode (tl : Tile) (a : AxisId) : Bridge :=
  if !tl.used a || tl.motor a == 2 || !tl.field.vdrvOk then .free
  else if tl.field.fallback then .brake
  else if tl.field.gateTest then .driven
  else if (tl.ax.get a).mo.bridge == .driven && !tl.field.pwm.get a then .brake
  else (tl.ax.get a).mo.bridge

/-! ### Passes (R97, R99, R136) -/

/-- A rule of R136 is broken on an axis: its pass is no longer clean. -/
def State.notClean (s : State) (t : TileId) (a : AxisId) : State := s.modPa t a fun p => { p with clean := false }

/-- A rule of R136 is broken for every axis of the tile. -/
def State.noneClean (s : State) (t : TileId) : State := s.each AxisId.all fun s a => s.notClean t a

/-- The pass starts in one band and ends in the other (R136 rule 2). -/
def Tile.bandToBand (tl : Tile) (a : AxisId) (p : Pass) : Bool :=
  match p.door with
  | .opening => decide (p.start ≤ tl.closedBand a) && tl.inOpen a
  | .closing => decide (p.start ≥ tl.travel a - tl.openBand a) && tl.inClosed a
  | _ => false

/-- The pass of an axis ends (R97): learning, shadow collection and calibration sums take what it gathered, its stake
limits lapse, zone profile 0 comes into force and its bound ends. With two leaves in a pass, the lock window closes at the end
of the pass that ends last (DESIGN CHOICE: R104 speaks of one pass; log entry 51). Every pass but those of HELD counts among the
4 × M passes of a shadow collection, reversals and moves by command too (DESIGN CHOICE: R143 does not say which passes count; log
entry 53). The traces of the CYCLE record are those of axis A (R346): of an OPENING pass that began with T07, and of a CLOSING
pass, which T16 alone takes over. -/
def State.endPass (s : State) (t : TileId) (a : AxisId) (atRest : Bool) : State :=
  let tl := s.tile t
  let x := tl.ax.get a
  let p := x.pa
  if !p.active then s
  else
    let d : Dir := match p.door with
      | .closing => .closing
      | _ => (match x.mo.move with
        | some m => m.dir
        | none => .opening)
    let clean := p.clean && atRest && !p.stepCmd && tl.bandToBand a p &&
      !(p.door == .opening && tl.door.egressOpening) && !tl.degraded a
    let learning := tl.par 0x09 0 == 1 && (match tl.door.shadow with
      | .collecting _ => false
      | _ => true)
    let s1 := if clean && learning then s.learnPass t a d else s
    let s2 := if p.door != .held || p.stepCmd then s1.shadowPass t a d clean else s1
    let s3 := if tl.door.calRunning && atRest then
        s2.modAxis t a fun x => { x with calSums := gather x.calSums p d (tl.par 0x09 5) } else s2
    let s4 := s3.modDoor t fun dd =>
      let others := tl.leafAxes.any fun b => b != a && (tl.ax.get b).pa.active
      let dd1 := if a != .C && !others then { dd with lockWindow := false } else dd
      let dd2 := if a != .C && p.door == .opening && (p.peak > dd.peakOpen.1) then { dd1 with peakOpen := (p.peak, a) } else dd1
      let dd3 := if a != .C && p.door == .closing && (p.peak > dd.peakClose.1) then { dd2 with peakClose := (p.peak, a) }
        else dd2
      if a == .A && p.door == .opening && p.t07 then { dd3 with traceOpen := p.record }
      else if a == .A && p.door == .closing then { dd3 with closePass := p.record } else dd3
    s4.modAxis t a fun x =>
      { x with pa := { Pass.reset with start := x.pa.start, door := x.pa.door },
               mo := { x.mo with zone := 0, vLim := none, fLim := none, persist := 0, satCount := 0 } }

/-- The parameters applied at the start of a pass (R108, R135): learn_en, audit_thr, cal_allow and trk_grade. They are the
tile's, so a pass of any axis brings them into force for all three, also for an axis in mid-pass (DESIGN CHOICE: R108 does not
say whose pass; log entry 51). -/
def Tile.passParams (tl : Tile) : Tile :=
  let take := fun (m : SMap) (tb row : Nat) => pSet m (pKey tb row 0 none) (pGet tl.written (pKey tb row 0 none))
  { tl with inForce := take (take (take (take tl.inForce 0x09 0) 0x09 6) 0x09 7) 0x11 7 }

/-- A pass of an axis begins (R97): soundings stored by then take effect (R147), a queued shadow request starts (R143), and
the lock window closes for a leaf pass in CLOSING or NUDGING (R104). -/
def State.beginPass (s : State) (t : TileId) (a : AxisId) (stepCmd : Bool) : State :=
  let s0 := s.endPass t a false
  let s1 := s0.modTile t Tile.passParams
  let s2 := match (s1.tile t).door.shadow with
    | .requested m =>
      (s1.modDoor t fun d => { d with shadow := .collecting m }).each (s1.tile t).usedAxes fun s x =>
        s.modAxis t x fun y => { y with shadow := [], shadowSums := [], shadowClean := (0, 0), shadowEnded := (0, 0) }
    | _ => s1
  let st := (s2.tile t).door.st
  let s3 := s2.modAxis t a fun x =>
    { x with detect := x.soundings,
             pa := { Pass.reset with active := true, stepCmd := stepCmd, door := st, t07 := st == .opening && (s2.tile t).door.openByT07,
                                     start := x.fb.pos, clean := true,
                                     peak := -32768 },
             mo := { x.mo with zone := 0, vLim := none, fLim := none, persist := 0, satCount := 0, extReported := false } }
  if a != .C && (st == .closing || st == .nudging) then s3.modDoor t fun d => { d with lockWindow := false } else s3

/-! ### The trip fabric (R59, R115, R118) -/

/-- The trip sources of R121. -/
def srcResidual : BitVec 16 := 1
def srcSat : BitVec 16 := 2
def srcEdgeA : BitVec 16 := 4
def srcEdgeB : BitVec 16 := 8
def srcPanel : BitVec 16 := 16
def srcOvercurrent : BitVec 16 := 32
def srcDriveBus : BitVec 16 := 64
def srcFollow : BitVec 16 := 128
def srcLimit : BitVec 16 := 256
def srcStake : BitVec 16 := 512
def srcBound : BitVec 16 := 1024
def srcTriad : BitVec 16 := 2048

/-- A trip stop of this axis would stop something: a move is under way, the bridge is driven, or the trip sample has other
sources already (R59, R121). -/
def Axis.stoppable (x : Axis) : Bool := x.mo.move.isSome || x.mo.bridge == .driven || x.mo.tripNote.isSome

/-- The trip that waits for its event, with a source added: further sources of the same sample join what R121 reports of the trip
sample. -/
def Axis.noted (x : Axis) (src : BitVec 16) (st : DoorState) (ts : Word) : TripNote :=
  match x.mo.tripNote with
  | some n => { n with sources := n.sources ||| src }
  | none => { sources := src, pos := x.fb.pos, zone := x.mo.zone, st := st, ts := ts, step := x.pa.active && x.pa.stepCmd }

/-- A trip with a source, kept for the next current-loop sample; its fabric-clear is owed (R118). -/
def State.noteTrip (s : State) (t : TileId) (a : AxisId) (src : BitVec 16) : State :=
  let note := (s.axis t a).noted src (s.tile t).door.st s.ts
  s.modMo t a fun m => { m with tripNote := some note, clearOwed := true }

/-- The states in which a trip counts although the bridge rests in BRAKE: the warning dwell and the waits for rest (R126, R131). -/
def tripCounts (st : DoorState) : Bool :=
  st == .opening || st == .closing || st == .reversing || st == .nudging || st == .held

/-- Both paths of an axis trip: all gates off, BRAKE after the fixed delay (R59). A source other than the trip pair is noted for
the trip event when the axis has something to stop, or the doorway is in a state in which a trip counts. -/
def State.fabricTrip (s : State) (t : TileId) (a : AxisId) (src : BitVec 16) : State :=
  let x := s.axis t a
  let s1 := if src != 0 && (s.tile t).used a && (x.stoppable || tripCounts (s.tile t).door.st) then s.noteTrip t a src else s
  s1.modAxis t a fun x =>
    { x with
      fab := { x.fab with path1 := true, path2 := true, tripped := true, fault := false }
      mo := { x.mo with bridge := .free, freeDelay := true } }

/-- The engine raises the trip pair of an axis (R59). -/
def State.engineTrip (s : State) (t : TileId) (a : AxisId) (src : BitVec 16) : State :=
  (s.noteTrip t a src).modMo t a fun m => { m with tripEngine := true }

/-- The triad raises the trip pair of an axis; an axis that has something to stop makes a trip stop with a source (R59). -/
def State.triadTrip (s : State) (t : TileId) (a : AxisId) (src : BitVec 16) : State :=
  let s1 := if (s.axis t a).stoppable then s.noteTrip t a src else s
  s1.modMo t a fun m => { m with tripTriad := true, clearOwed := true }

/-- Inputs of the fabric other than the trip pair are active (R118). -/
def Tile.fabInputs (tl : Tile) (a : AxisId) : Bool :=
  let x := tl.ax.get a
  x.fab.overcurrent || tl.field.busComp || (x.fab.edgeEn && (tl.edgeActs .edgeA a || tl.edgeActs .edgeB a)) ||
  !tl.field.vdrvOk

/-- Paths of an axis asserted by the proof test (R119): its gates are off for the FREE interval, and the low-side gates come back after the
fixed delay. -/
def State.pathForced (s : State) (t : TileId) (a : AxisId) (p1 p2 : Bool) : State :=
  if !p1 && !p2 then s
  else
    let vdrv := (s.tile t).field.vdrvOk
    s.modAxis t a fun x =>
      { x with fab := { x.fab with path1 := x.fab.path1 || p1, path2 := x.fab.path2 || p2, tripped := true }
               mo := { x.mo with bridge := .free, freeDelay := vdrv } }

/-- An edge acts on its level: the fabric of an axis whose edge-enable bit is 1 trips while a mapped edge is active (R115). -/
def State.edgeLevel (s : State) (t : TileId) (a : AxisId) : State :=
  let tl := s.tile t
  let f := (tl.ax.get a).fab
  let src := (if tl.edgeActs .edgeA a then srcEdgeA else 0) ||| (if tl.edgeActs .edgeB a then srcEdgeB else 0)
  if f.edgeEn && src != 0 && !(f.path1 && f.path2) then s.fabricTrip t a src else s

/-- The triad releases the trip pair of an axis and sends a fabric-clear (R118, R123, R126). -/
def State.releasePair (s : State) (t : TileId) (a : AxisId) : State :=
  (s.modMo t a fun m => { m with tripTriad := false, tripEngine := false, clearOwed := false, wire := 0 }).modLink t fun l =>
    { l with clear := l.clear.set a true }

/-- The fabric of an axis reports both paths deasserted, and no fabric-clear is on its way (R16, R123). -/
def Tile.fabricClear (tl : Tile) (a : AxisId) : Bool :=
  !tl.link.up.path1.get a && !tl.link.up.path2.get a && !tl.link.clear.get a

/-- Either wire of the trip pair is raised. -/
def Axis.pairRaised (x : Axis) : Bool := x.mo.tripTriad || x.mo.tripEngine

/-- The triad still has to release the axis: its pair is raised, or a trip by another input of its fabric, an edge or a comparator,
waits for its fabric-clear (R118, R123, R126). -/
def Axis.owesClear (x : Axis) : Bool := x.pairRaised || x.mo.clearOwed

/-! ### Moves (R47, R51, R54, R58, R60) -/

/-- A drive-bus event (R54): axis, cause, motor bus. -/
def State.driveBusEvent (s : State) (t : TileId) (a : AxisId) (cause : Nat) : State :=
  s.raise t 0x0A (leBytes 1 a.num ++ leBytes 1 cause ++ [0, 0] ++ leBytes 2 (s.axis t a).mo.vbus)

/-- The direction of a move from a position to a target; a target at the position itself counts as opening (DESIGN CHOICE: no rule
gives such a move a direction, so the close-table CMD stakes of a move at its target are neither considered nor replayed; log entry
51). -/
def dirTo (pos target : Int) : Dir := if target ≥ pos then .opening else .closing

/-- The engine can drive an axis: it is used, has a motor, no Hall fault forbids it, the fallback image is not applied, and
no input of its fabric other than the pair is active (R29, R60, R90, R161). -/
def Tile.canDrive (tl : Tile) (a : AxisId) : Bool :=
  tl.used a && tl.motor a != 2 && !(tl.motor a == 0 && (tl.ax.get a).fb.hallForbid) && !tl.field.fallback &&
  !tl.fabInputs a

/-- A move command refused by the engine and reported to the triad (R60). -/
def State.refuseMove (s : State) (t : TileId) (a : AxisId) : State :=
  s.modDoor t fun d => { d with refused := if d.refused.contains a then d.refused else d.refused ++ [a] }

/-- The motor bus lies below vbus_uv (R54). -/
def Tile.busLow (tl : Tile) (a : AxisId) : Bool := decide (((tl.ax.get a).mo.vbus : Int) < 10 * tl.parA a 0x05 4)

/-- The rotor's electrical angle at a count, once the offset is fixed, in 1/4 096 of a period of elec_num / elec_den counts
(R50, R51, R52). -/
def Tile.angleAt (tl : Tile) (a : AxisId) (off : Int × Nat) (pos : Int) : Nat :=
  (((pos - off.1) * tl.parA a 0x04 2 * 4096 / tl.parA a 0x04 1 + off.2) % 4096).toNat

/-- A new move is commanded (R60). It is refused while the fabric's inputs are active; below vbus_uv no move starts and the
case is reported as a drive-bus trip (R54). The first powered move of a stepper begins with an alignment (R51); a PMSM axis
without Hall sensors takes count 0 as electrical angle 0 (DESIGN CHOICE: R50 places the offset in the set-up parameters and no
table holds it; log entry 51). The planner starts from the measured position and speed and from zero acceleration (R47). The
move's direction is that of its target, also while the axis is still brought to rest from the other direction (DEDUCED from
R48 and R98; log entry 28). -/
def State.startMove (s : State) (t : TileId) (a : AxisId) (kind : MoveKind) (target : Int) (set : LimitSet)
    (stepCmd : Bool := false) : State :=
  let tl := s.tile t
  let x := tl.ax.get a
  if !tl.canDrive a then s.refuseMove t a
  else if tl.busLow a then
    let s1 := (s.modMo t a fun m => { m with bridge := .brake }).driveBusEvent t a 3
    s1.modDoor t fun d => { d with trips := d.trips ++ [{ axis := a, sources := srcDriveBus, zone := x.mo.zone }] }
  else
    let s1 := if x.pairRaised || x.fab.path1 || x.fab.path2 then s.releasePair t a else s
    let s2 := s1.beginPass t a stepCmd
    s2.modMo t a fun m =>
      { m with
        move := some { kind := kind, target := target, set := set, dir := dirTo x.fb.pos target, profileDone := false,
                       fresh := true }
        bridge := if x.fab.path1 || x.fab.path2 || (s2.tile t).field.fallback then .brake else .driven
        planVel := m.speed, planAcc := 0, planPos := x.fb.pos, planFrac := 0, profVel := 65536 * m.speed, profAcc := 0
        slowSince := none, feSince := none
        aligning := tl.motor a == 1 && !m.aligned
        aligned := m.aligned || tl.motor a == 0
        elecOff := if m.elecOff.isNone && tl.motor a == 0 && tl.parA a 0x08 6 == 0 then some (0, 0) else m.elecOff
        contact := none, contactDeployed := false, extPending := 0, extPeriod := 0, extDone := 0, extAcc := 0 }

/-- A controlled stop (R58): the move in progress turns into a profile to zero speed. -/
def State.stopMove (s : State) (t : TileId) (a : AxisId) : State :=
  s.modMo t a fun m =>
    { m with move := m.move.map fun v => { v with kind := .stop, profileDone := v.kind == .stop && v.profileDone } }

/-- An axis is stopped at once in BRAKE, with no profile. -/
def State.brakeAxis (s : State) (t : TileId) (a : AxisId) : State :=
  (s.endPass t a false).modMo t a fun m =>
    { m with move := none, bridge := .brake, planVel := 0, planAcc := 0, profVel := 0, profAcc := 0, aligning := false,
             revTarget := none, revStarted := false, contact := none, feSince := none }

/-- Every axis of the tile stopped at once in BRAKE. -/
def State.brakeAll (s : State) (t : TileId) : State := s.each AxisId.all fun s a => s.brakeAxis t a

/-- Holding force may be applied to an axis: the engine can drive it, the bus does not lie below vbus_uv (R54), and no trip
of R128 keeps it in BRAKE. -/
def Tile.canHold (tl : Tile) (a : AxisId) : Bool := tl.canDrive a && !tl.busLow a && !(a == .C && tl.door.stepStopped)

/-- Holding force on an axis at rest (R44 HOLD); a moving axis first makes a controlled stop, and a tripped one waits. -/
def State.holdAxis (s : State) (t : TileId) (a : AxisId) : State :=
  let tl := s.tile t
  let x := tl.ax.get a
  if x.moving then s.stopMove t a
  else if x.owesClear || x.fab.path1 || x.fab.path2 then s.modDoor t fun d => { d with holdWait := true }
  else if tl.canHold a then s.modMo t a fun m => { m with bridge := .driven }
  else s

/-! ### Stakes (R98 to R101, R105) -/

/-- The bit of a doorway state in a stake's states field (R94). -/
def stateBit : DoorState → Option Nat
  | .opening => some 0
  | .closing => some 1
  | .reversing => some 2
  | .nudging => some 3
  | .held => some 4
  | _ => none

/-- A stake is considered in a sample of a pass (R98). -/
def Tile.considered (tl : Tile) (a : AxisId) (d : Dir) (i : Nat) : Bool :=
  let x := tl.ax.get a
  let states := if x.pa.stepCmd then tl.stakeBit a d i 3 5 else
    match stateBit x.pa.door with
    | some b => tl.stakeBit a d i 3 b
    | none => false
  let way := if tl.stakeMeas a d i then x.fb.dirFlag == (d == .opening) else
    match x.mo.move with
    | some m => m.dir == d
    | none => false
  states && way

/-- The axis takes the doorway actions of its stakes: a mirrored axis B takes none (R106). -/
def Tile.doorwayActions (tl : Tile) (a : AxisId) : Bool := !(a == .B && tl.par 0x11 2 == 1)

/-- A stake fires its actions, or its latching ones in a replay (R95, R99). -/
def State.fireStake (s : State) (t : TileId) (a : AxisId) (d : Dir) (i : Nat) (replay : Bool) : State :=
  let tl := s.tile t
  let bit := tl.stakeBit a d i 4
  let v := tl.stake a d i 5
  let f := tl.stake a d i 6
  let s1 := s.modMo t a fun m =>
    { m with
      vLim := if bit 0 then (if v = 0 then none else some v.toNat) else m.vLim
      fLim := if bit 1 then (if f = 0 then none else some f.toNat) else m.fLim
      zone := if bit 2 then Fin.ofNat 8 (tl.stake a d i 7).toNat else m.zone }
  let s2 := if bit 3 && !replay then
      s1.modPa t a fun p =>
        { p with bound := some (tl.stake a d i 11, d, i), boundTime := .running (tl.stake a d i 12).toNat } else s1
  let act := fun (k : Fin 4) (on : Bool) =>
    if on && tl.doorwayActions a then
      [({ axis := a, dir := d, index := i, pos := (tl.ax.get a).fb.pos, ts := s.ts, kind := k,
          mask := BitVec.ofInt 16 (tl.stake a d i 9), val := BitVec.ofInt 16 (tl.stake a d i 10) } : StakeAct)] else []
  let acts := act 0 (bit 4) ++ act 1 (bit 5) ++ act 2 (bit 6 && !replay) ++ act 3 (bit 7 && !replay)
  if acts.isEmpty then s2 else s2.modDoor t fun dd => { dd with stakeActs := dd.stakeActs ++ acts }

/-- The armed stakes of a table, and the table with others armed. -/
def Pass.armed (p : Pass) : Dir → BitVec 64
  | .opening => p.armedOpen
  | .closing => p.armedClose
def Pass.setArmed (p : Pass) (d : Dir) (v : BitVec 64) : Pass :=
  match d with
  | .opening => { p with armedOpen := v }
  | .closing => { p with armedClose := v }

/-- The first sample of a pass (R99): stakes ahead are armed, and the latching actions of passed CMD stakes that would be
considered are replayed in table order. The position of that first sample decides which stakes lie ahead (DESIGN CHOICE: R99
speaks of the start of the pass, up to one sample earlier; log entry 51). -/
def State.armTable (s : State) (t : TileId) (a : AxisId) (d : Dir) : State :=
  let tl := s.tile t
  let pos := (tl.ax.get a).fb.pos
  (tl.stakes a d).foldl (fun s i =>
    let p := tl.stake a d i 0
    let ahead := match d with
      | .opening => decide (p > pos)
      | .closing => decide (p < pos)
    if ahead then s.modPa t a fun q => q.setArmed d (q.armed d ||| BitVec.ofNat 64 (2 ^ i))
    else if !tl.stakeMeas a d i && tl.considered a d i then s.fireStake t a d i true
    else s) s

/-- The stakes of a table in a sample (R98, R100): armed, considered and passed ones fire in table order; REARM stakes behind
their hysteresis are armed again. -/
def State.runTable (s : State) (t : TileId) (a : AxisId) (d : Dir) : State :=
  let tl := s.tile t
  let pos := (tl.ax.get a).fb.pos
  (tl.stakes a d).foldl (fun s i =>
    let p := tl.stake a d i 0
    let h := tl.stake a d i 1
    let q := (s.axis t a).pa
    let passed := match d with
      | .opening => decide (pos ≥ p)
      | .closing => decide (pos ≤ p)
    let behind := match d with
      | .opening => decide (pos ≤ p - h)
      | .closing => decide (pos ≥ p + h)
    if (q.armed d).getLsbD i && passed && tl.considered a d i then
      (s.modPa t a fun q => q.setArmed d (q.armed d &&& ~~~(BitVec.ofNat 64 (2 ^ i)))).fireStake t a d i false
    else if tl.stakeRearm a d i && behind then
      s.modPa t a fun q => q.setArmed d (q.armed d ||| BitVec.ofNat 64 (2 ^ i))
    else s) s

/-- The stake bound ends when the axis reaches its position (R105). -/
def State.boundReached (s : State) (t : TileId) (a : AxisId) : State :=
  s.modAxis t a fun x =>
    match x.pa.bound with
    | some (p, d, _) =>
      let there := match d with
        | .opening => decide (x.fb.pos ≥ p)
        | .closing => decide (x.fb.pos ≤ p)
      if there && x.pa.boundTime.isRunning then { x with pa := { x.pa with bound := none, boundTime := .idle } } else x
    | none => x

/-- The stakes of one sample of an axis in a pass. -/
def State.runStakes (s : State) (t : TileId) (a : AxisId) : State :=
  let x := s.axis t a
  if !x.pa.active then s
  else
    let s1 := if x.pa.begun then s else
      ((s.armTable t a .opening).armTable t a .closing).modPa t a fun p => { p with begun := true }
    ((s1.runTable t a .opening).runTable t a .closing).boundReached t a

/-! ### The force estimate and the residual test (R107 to R112) -/

/-- F_est in µN, rounded down (R107). -/
def Tile.forceEst (tl : Tile) (a : AxisId) (d : Dir) (iq acc speed : Int) : Int :=
  let cpm := tl.parA a 0x01 0
  let m := tl.parA a 0x81 1
  (d.sign * (tl.parA a 0x81 0 * iq * 100 * cpm - m * acc * 100) - tl.parA a 0x81 2 * 100000000 * cpm -
    tl.parA a 0x81 3 * (speed.natAbs : Int) * 100000 -
    d.sign * m * 981 * tl.parA a 0x81 4 * tl.par 0x11 7 * cpm) / (100 * cpm)

/-- A trip by the residual or SAT test; a deploying axis C with contact in its zone makes a contact stop instead (R110,
R111, R127). -/
def State.forceTrip (s : State) (t : TileId) (a : AxisId) (sat : Bool) : State :=
  let tl := s.tile t
  let m := (tl.ax.get a).mo
  let deploying := match m.move with
    | some v => v.dir == .opening
    | none => false
  if a == .C && deploying && tl.par 0x82 11 m.zone.val == 1 then
    if m.contact.isSome then s
    else (s.stopMove t a).modMo t a fun m => { m with contact := some (if sat then 1 else 0) }
  else s.engineTrip t a (if sat then srcSat else srcResidual)

/-- The residual and SAT tests of a sample (R110 to R112), with what the pass gathers from it (R136, R137). The planned speed of R111
is that of the trajectory of the move, by which R55 judges too; the planned acceleration of R107 is the one in force for the
sample (R47) (DESIGN CHOICE: neither rule says which of the two it means; log entry 51). -/
def State.residualTest (s : State) (t : TileId) (a : AxisId) : State :=
  let tl := s.tile t
  let x := tl.ax.get a
  match x.mo.move with
  | none => s
  | some mv =>
    if x.mo.bridge != .driven || !x.pa.active || x.mo.aligning then s
    else
      let z := x.mo.zone.val
      let b := binOf x.fb.pos (tl.travel a)
      let bin := readBin x.detect mv.dir b
      let f := tl.forceEst a mv.dir x.mo.iq x.mo.planAcc x.mo.speed
      let env := tl.envelope bin z
      let en := tl.par 0x82 4 z == 1
      let n := tl.parN 0x82 2 z
      let above := decide (f > env)
      let atClamp := decide (x.mo.iq.natAbs ≥ tl.iClamp a mv.set) &&
        decide (131072 * x.mo.speed.natAbs < x.mo.profVel.natAbs)
      let persist := if above && en then x.mo.persist + 1 else 0
      let sat := if atClamp && en then x.mo.satCount + 1 else 0
      let s1 := s.modAxis t a fun y =>
        { y with
          mo := { y.mo with fEst := f, envelope := env, persist := persist, satCount := sat }
          pa := if y.pa.active then
              let r := to16 f - bin.mean
              let p := y.pa.addSample b f z
              { p with clean := p.clean && !above && !atClamp && !tl.degraded a, peak := if r > p.peak then r else p.peak }
            else y.pa }
      let s2 := if decide (persist ≥ n) then s1.forceTrip t a false else s1
      if decide (sat ≥ n) then s2.forceTrip t a true else s2

/-- The sample's entry in the trip trace, and the 1 kHz record of axis A (R121, R346). The trace holds F_est, as R121 and R347 have
it, where R110 speaks of the residual; a sample in which no test runs holds the F_est and the envelope computed last (DESIGN CHOICE:
the spec does not settle either point; log entry 51). -/
def State.traceSample (s : State) (t : TileId) (a : AxisId) : State :=
  let now := s.now
  s.modAxis t a fun x =>
    { x with
      mo := { x.mo with trace := ((x.mo.fEst, x.mo.envelope, x.mo.speed) :: x.mo.trace).take 64 }
      pa := if a == .A && x.pa.active && (x.pa.record.isEmpty || decide (now ≥ x.pa.recordAt + 1000000)) then
          { x.pa with record := x.pa.record ++ [(x.fb.pos, (x.mo.fEst + 500000) / 1000000)], recordAt := now }
        else x.pa }

/-- The head of a TRIP record (R347). -/
def TripNote.head (n : TripNote) (a : AxisId) (persist : Nat) : List Byte :=
  leBytes 1 a.num ++ leBytes 1 n.zone.val ++ leBytes 2 n.sources.toNat ++ leInt 4 n.pos ++ leBytes 1 n.st.code ++
    leBytes 1 persist ++ [0, 0] ++ leBytes 4 n.ts.toNat ++ List.replicate 16 0

/-- The data words of the trip event (R121). -/
def TripNote.data (n : TripNote) (a : AxisId) : List Byte :=
  leBytes 1 a.num ++ leBytes 1 n.zone.val ++ leBytes 2 n.sources.toNat ++ leInt 4 n.pos ++ leBytes 1 n.st.code ++
    [0, 0, 0] ++ leBytes 4 n.ts.toNat

/-- The body of a TRIP record: the trip and the last 64 samples (R347). -/
def Tile.tripBody (tl : Tile) (a : AxisId) (n : TripNote) : List Byte :=
  let old := (((tl.ax.get a).mo.trace ++ List.replicate 64 (0, 0, 0)).take 64).reverse
  n.head a (tl.parN 0x82 2 n.zone.val) ++ (old.flatMap fun e => leInt 2 (to16 e.1)) ++
    (old.flatMap fun e => leInt 2 (to16 e.2.1)) ++ (old.flatMap fun e => leInt 2 (e.2.2 / 32))

/-- The TRIP records that fall due in a sample, the last of the 16 from the trip sample on, so that the trip sample is number 48 (R121,
R347). -/
def State.tripRecord (s : State) (t : TileId) (a : AxisId) : State :=
  let wait := (s.axis t a).mo.tripTail
  let s1 := s.modMo t a fun m => { m with tripTail := (wait.filter (·.1 > 1)).map fun p => (p.1 - 1, p.2) }
  s1.each (wait.filter (·.1 ≤ 1)) fun s p => s.peatEntry t 0x02 .tile ((s.tile t).tripBody a p.2)

/-- A trip is reported and its record begun (R121, R347): the trip event, and 15 samples still to come after the trip sample. -/
def State.recordTrip (s : State) (t : TileId) (a : AxisId) (n : TripNote) : State :=
  (s.modMo t a fun m => { m with tripTail := m.tripTail ++ [(15, n)] }).raise t 0x20 (n.data a) false

/-- A trip that stops no axis, recorded in the evaluation that takes it (R121, R125, R131). A panel trip and the expiry of a bound with
no moving axis are reported on axis A (DESIGN CHOICE: the spec names no axis for them; log entry 51). -/
def State.tripAtRest (s : State) (t : TileId) (a : AxisId) (src : BitVec 16) : State :=
  s.recordTrip t a ((s.axis t a).noted src (s.tile t).door.st s.ts)

/-- A further source of the trip whose record was begun last (R121, R131). -/
def Motion.joinTail (m : Motion) (src : BitVec 16) : Motion :=
  match m.tripTail.reverse with
  | [] => m
  | (k, n) :: rest => { m with tripTail := rest.reverse ++ [(k, { n with sources := n.sources ||| src })] }

/-- The next current-loop sample after a trip (R59 step 4): the profile is cancelled, the setpoint is the measured position, and
the trip event is raised with its sources. The triad is told unless it raised the trip itself: it has then acted on it already
(R131). A trip of a move of axis C by command keeps axis C in BRAKE (R128). The pass ends with the move that is cancelled, not that
of HELD, which has no move of its own (R97). -/
def State.tripEvent (s : State) (t : TileId) (a : AxisId) : State :=
  let x := s.axis t a
  match x.mo.tripNote with
  | none => s
  | some n =>
    let step := n.step
    let held := x.pa.door == .held && !x.pa.stepCmd
    let s1 := if held then s.noneClean t else (s.noneClean t).endPass t a false
    let s2 := s1.modMo t a fun m =>
      { m with move := none, planPos := x.fb.pos, planFrac := 0, planVel := 0, planAcc := 0, profVel := 0, profAcc := 0,
               tripNote := none, feSince := none,
               bridge := if m.bridge == .driven then .brake else m.bridge, aligning := false, contact := none }
    let s3 := s2.recordTrip t a n
    let s4 := if step then s3.modDoor t fun d => { d with stepStopped := true } else s3
    if n.sources &&& 0x01EF = 0 || n.sources &&& 0xFE10 != 0 || step then s4
    else s4.modDoor t fun d => { d with trips := d.trips ++ [{ axis := a, sources := n.sources, zone := n.zone }] }

/-- A value brought into an interval. -/
def clampInt (v lo hi : Int) : Int := max lo (min hi v)

/-! ### External steps (R62 to R64) -/

/-- The axis follows the stream of coarse steps in a direction: OPENING takes open steps, CLOSING after T15 and NUDGING take
close steps, while a move of the transition is under way (R64). -/
def Tile.follows (tl : Tile) (a : AxisId) (d : Dir) : Bool :=
  tl.parA a 0x06 0 == 1 &&
  (match (tl.ax.get a).mo.move with
    | some m => (m.kind == .leaf || m.kind == .coupled) && m.dir == d
    | none => false) &&
  (match tl.door.st, d with
    | .opening, .opening => true
    | .closing, .closing => true
    | .nudging, .closing => true
    | _, _ => false)

/-- The axis takes its setpoint from the stream in its present move. -/
def Tile.streams (tl : Tile) (a : AxisId) : Bool := tl.follows a .opening || tl.follows a .closing

/-- The first n fine steps of a coarse step, in 1/256 count (R63). -/
def Tile.extFine (tl : Tile) (a : AxisId) (n : Nat) : Int := tl.parA a 0x06 1 * n / tl.parA a 0x06 2

/-- The setpoint moved by some 1/65 536 counts. -/
def Motion.advanceBy (m : Motion) (d : Int) : Motion :=
  let p := (m.planPos * 65536 + m.planFrac) + d
  { m with planPos := p / 65536, planFrac := (p % 65536).toNat }

/-- A streamed move has reached its end: its setpoint stands still with the stream taken in whole, and it lies at its target, or
in the band of its target with the stream stopped for ext_timeout (DESIGN CHOICE: the spec does not say when a streamed profile
ends; log entry 51). -/
def Tile.streamEnds (tl : Tile) (a : AxisId) (mv : Move) (m : Motion) (now : Nat) : Bool :=
  let caught := decide (m.extAcc.natAbs < 65536) && m.extPending == 0 && decide (m.profVel = 0) && m.extPeriod != 0
  let stopped := decide (now > m.extAt + 1000000 * tl.parAN a 0x06 3)
  match mv.dir with
  | .opening => caught && (decide (m.planPos ≥ mv.target) || (stopped && decide (m.planPos ≥ tl.travel a - tl.openBand a)))
  | .closing => caught && (decide (m.planPos ≤ mv.target) || (stopped && decide (m.planPos ≤ tl.closedBand a)))

/-- The fine steps that have fallen due enter the setpoint, kept to fractions of a count, which the speed and acceleration
limits in force clamp; what they hold back stays as lag (R63, R64). -/
def State.extSample (s : State) (t : TileId) (a : AxisId) (now : Nat) : State :=
  let tl := s.tile t
  if !tl.streams a then s
  else
    s.modAxis t a fun x =>
      match x.mo.move with
      | none => x
      | some mv =>
        let m := x.mo
        let n := if m.extPeriod = 0 then m.extDone else
          max m.extDone (min (tl.parAN a 0x06 2) ((now - m.extAt) * tl.parAN a 0x06 2 / m.extPeriod))
        let acc := m.extAcc + 256 * mv.dir.sign * (m.extPending + tl.extFine a n - tl.extFine a m.extDone)
        let rate := max 1 (tl.parA a 0x05 1)
        let vmax : Int := 65536 * tl.vMax a mv.set
        let dv := 65536 * tl.parA a 0x03 1 mv.set.idx / rate
        let vel := clampInt (clampInt (acc * rate) (m.profVel - dv) (m.profVel + dv)) (-vmax) vmax
        let step := vel / rate
        let m1 := ({ m with extPending := 0, extDone := n, extAcc := acc - step, profVel := vel,
                            profAcc := (vel - m.profVel) * rate, planVel := vel / 65536,
                            planAcc := (vel - m.profVel) * rate / 65536 } : Motion).advanceBy step
        { x with
          mo := { m1 with move := some { mv with profileDone := tl.streamEnds a mv m1 now } }
          pa := { x.pa with clean := false } }

/-- The profile position that R55 compares with the measured one: the trajectory's, or the position that the stream of coarse
steps has reached, however far the clamp holds the setpoint back from it (R64). -/
def Motion.profilePos (m : Motion) : Int := m.planPos + m.extAcc / 65536

/-- A coarse step (R63): the fine steps of the step before that are not yet emitted follow in the next sample; after a gap
longer than ext_timeout the period is ext_first_period. -/
def State.coarseStep (s : State) (t : TileId) (a : AxisId) (d : Dir) (period : Nat) : State :=
  let tl := s.tile t
  if tl.parA a 0x06 0 = 0 then s
  else if tl.follows a d then
    s.modMo t a fun m =>
      { m with extPending := m.extPending +
          (if m.extPeriod = 0 then 0 else tl.extFine a (tl.parAN a 0x06 2) - tl.extFine a m.extDone)
               extPeriod := max 1 (if period > 1000000 * tl.parAN a 0x06 3 then 1000 * tl.parAN a 0x06 4 else period)
               extAt := s.now, extDone := 0 }
  else
    let n := (s.axis t a).mo.extIgnored + 1
    let s1 := s.modMo t a fun m => { m with extIgnored := n, extReported := true }
    if (s.axis t a).mo.extReported then s1 else s1.raise t 0x0B (leBytes 1 a.num ++ [0, 0, 0] ++ leBytes 4 n)

/-! ### The planner and the loops (R44, R46 to R48, R50, R51, R53, R54) -/

/-- The acceleration planned for the next sample: the trajectory's, kept within a_max and within j_max of the one before. While
the bus lies above vbus_ov a deceleration is lowered (R54): R54 does not say by how much, so it is a free value between the
planned one and none, still within j_max. -/
def planClamp (lim : KinLimits) (dt : Rat) (limited : Bool) (free before want : Int) (v : Rat) : Int :=
  let dj := (lim.j * dt).floor
  let amax := lim.a.floor
  let a := clampInt want (max (-amax) (before - dj)) (min amax (before + dj))
  if !limited then a
  else if a < 0 ∧ v > 0 then clampInt free a (min 0 (before + dj))
  else if a > 0 ∧ v < 0 then clampInt free (max 0 (before - dj)) a
  else a

/-- One recomputation of the planner (R47). The trajectory planned from the measured position and speed gives the speed and
acceleration in force for the next sample; the trajectory of the move is followed one period further and gives the profile
position that R55 and R418 judge (DEDUCED: a profile that could not leave the measured position would leave them nothing to
judge; log entry 28). A profile that has ended is not computed again. -/
def State.planSample (s : State) (t : TileId) (a : AxisId) : State :=
  let tl := s.tile t
  let x := tl.ax.get a
  match x.mo.move with
  | none => s
  | some mv =>
    if x.mo.aligning || x.mo.bridge != .driven || (tl.streams a && mv.kind != .stop) || mv.profileDone then s
    else
      let (f0, s1) := s.draw
      let m := x.mo
      let lim := tl.kinLimits a mv.set
      let rate := max 1 (tl.parA a 0x05 1 / 4)
      let dt : Rat := 1 / (rate : Rat)
      let go := fun (k : Kin) =>
        if mv.kind == .stop then k.halt lim dt else Kin.advance lim mv.target 3 k dt
      let (q, _) := go { x := x.fb.pos, v := m.speed, a := m.planAcc }
      let (p, done) := go { x := (m.planPos * 65536 + m.planFrac : Int) / (65536 : Rat), v := (m.profVel : Rat) / 65536,
                            a := (m.profAcc : Rat) / 65536 }
      let acc := planClamp lim dt m.decelLimited f0 m.planAcc (roundRat q.a) m.speed
      let lower := m.decelLimited && decide (acc ≠ roundRat q.a)
      let pa : Rat := if lower then planClamp lim dt true f0 (m.profAcc / 65536) (roundRat p.a) (m.profVel : Rat) else p.a
      let pv : Rat := if lower then (m.profVel + pa * 65536 * dt) / 65536 else p.v
      let px : Rat := if lower then (m.planPos * 65536 + m.planFrac + m.profVel * dt) / 65536 else p.x
      let vcap : Int := max (tl.vMax a mv.set) (max m.planVel.natAbs m.speed.natAbs)
      let dv := lim.a.floor / rate + 1
      let vel := clampInt (clampInt (if lower then m.speed + acc / rate else roundRat q.v) (min m.planVel m.speed - dv)
        (max m.planVel m.speed + dv)) (-vcap) vcap
      let ends := done && !lower
      let pos := roundRat (px * 65536)
      s1.modMo t a fun m =>
        { m with planAcc := if ends then 0 else acc, planVel := if ends then 0 else vel
                 planPos := pos / 65536, planFrac := (pos % 65536).toNat
                 profVel := if ends then 0 else roundRat (pv * 65536), profAcc := if ends then 0 else roundRat (pa * 65536)
                 move := some { mv with profileDone := ends
                                        dir := if mv.kind != .stop && !ends && pv = 0 && pa = 0 then
                                          dirTo (pos / 65536) mv.target else mv.dir } }

/-- The rotor's electrical angle: from the count once the offset is fixed, and before the first Hall edge the centre of the
Hall sector (R50, R51). Angle 0 stands where the code 0b100 is entered towards open (DESIGN CHOICE, log entry 51). -/
def Tile.rotorAngle (tl : Tile) (a : AxisId) (hallSector : Option Nat) : Nat :=
  let x := tl.ax.get a
  match x.mo.elecOff with
  | some off => tl.angleAt a off x.fb.pos
  | none => match hallSector with
    | some i => (i * 4096 + 2048) / 6
    | none => 0

/-- The i_q reference brought within the clamp in force, which a stake, a degraded close or a new move may have lowered since the
position-loop sample that set it (R46, R101, R116). -/
def State.clampRef (s : State) (t : TileId) (a : AxisId) : State :=
  let tl := s.tile t
  let lim : Int := tl.iClamp a (tl.setInForce a)
  s.modMo t a fun m => { m with iqRef := clampInt m.iqRef (-lim) lim }

/-- The speed and position loops (R53): the i_q reference that they ask for is a free value, clamped at the limit in force (R46),
which is HOLD's while holding force is driven (R44); i_d is 0. The current vector stands a quarter of a period ahead of the
rotor in the direction of the force (R50, R51). An alignment drives phase 1 at align_current (R51). -/
def State.controlSample (s : State) (t : TileId) (a : AxisId) (hallSector : Option Nat) : State :=
  let tl := s.tile t
  let x := tl.ax.get a
  if x.mo.bridge != .driven then s.modMo t a fun m => { m with iqRef := 0, idRef := 0 }
  else if x.mo.aligning then
    s.modMo t a fun m => { m with iqRef := 0, idRef := min (tl.parA a 0x04 5) (tl.parA a 0x04 3), elecAngle := 0 }
  else
    let (f, s1) := s.draw
    let lim : Int := tl.iClamp a (tl.setInForce a)
    let iq := clampInt f (-lim) lim
    s1.modMo t a fun m =>
      { m with iqRef := iq, idRef := 0
               elecAngle := (tl.rotorAngle a hallSector + (if iq ≥ 0 then 1024 else 3072)) % 4096 }

/-- The move of an axis has come to rest (R418): its profile has ended, and its measured speed has stayed at or below rev_v_start
for 10 ms. -/
def State.atRest (s : State) (t : TileId) (a : AxisId) : Bool :=
  let m := (s.axis t a).mo
  (match m.move with
    | some mv => mv.profileDone
    | none => false) && !m.aligning &&
  (match m.slowSince with
    | some i => decide (s.now ≥ i + 10000000)
    | none => false)

/-- Axis C makes a controlled stop in a reversal that takes its bridge to BRAKE: an opening reversal that a leaf caused (R124). -/
def Doorway.stepBrakes (d : Doorway) (a : AxisId) : Bool := a == .C && d.st == .reversing && d.revKind == some (false, false)

/-- The move of an axis ends at rest (R418): the pass ends, a contact stop is judged (R127), and the bridge takes the mode
of the doorway state (R36, R58, R74, R124). The pass of HELD outlives a move that began before it; the pass of a move by command
ends with its move (R97). A contact stop short of step_min_deploy is a trip in the zone that stood in force until then (DESIGN
CHOICE: R127 does not say whether the zone of the ended pass or zone profile 0 governs; log entry 51). -/
def State.comeToRest (s : State) (t : TileId) (a : AxisId) : State :=
  let tl := s.tile t
  let x := tl.ax.get a
  match x.mo.move with
  | none => s
  | some mv =>
    let st := tl.door.st
    let keep := x.pa.active && x.pa.door == .held && st == .held && !x.pa.stepCmd
    let deep := decide (x.fb.pos ≥ min (tl.par 0x83 6) (tl.travel .C))
    let s0 := match x.mo.contact with
      | some c => if deep then s else (s.notClean t a).engineTrip t a (if c = 0 then srcResidual else srcSat)
      | none => s
    let s1 := if keep then s0 else s0.endPass t a true
    let driven := !tl.door.stepBrakes a && mv.kind != .homing && mv.kind != .jog && mv.kind != .calibration && !x.pa.stepCmd &&
      (st == .opening || st == .closing || st == .reversing || st == .held || st == .nudging)
    let s2 := s1.modMo t a fun m =>
      { m with move := none, planVel := 0, planAcc := 0, planPos := x.fb.pos, planFrac := 0, profVel := 0, profAcc := 0,
               feSince := none,
               bridge := if m.bridge == .brake || !(driven || m.contact.isSome) then (if m.bridge == .free then .free else .brake)
                         else m.bridge }
    match x.mo.contact with
    | none => s2
    | some _ =>
      if deep then
        (s2.modMo t a fun m => { m with contact := none, contactDeployed := true }).raise t 0x25
          ([0, 0, 0, 0] ++ leInt 4 x.fb.pos)
      else s2.modMo t a fun m => { m with contact := none }

/-! ### Position loss (R89, R90) -/

/-- Position lost on an axis for a cause: the axis is marked unreferenced, the event is raised and the triad is told. On an
axis that is not referenced the cause is only recorded. A cause that persists is raised once (R90); while it persists it still
fails a homing run of the axis (R67, R70). A moving axis makes a trip stop with no source bit of R121 (DEDUCED from the example
of ch. 4; log entry 51), in a homing run a controlled stop (R67). In ISOLATED and FAULT_SAFE no T39 follows: R42 decides (R90). -/
def State.positionLost (s : State) (t : TileId) (a : AxisId) (cause : Nat) : State :=
  let x := s.axis t a
  let d := (s.tile t).door
  let homing := d.homing.isSome
  let fail := fun (s : State) =>
    if homing then s.modDoor t fun d => { d with homeFault := some (d.homeFault.getD (7, some a)) } else s
  if !(s.tile t).used a then s
  else if x.fb.causes.contains cause then fail s
  else
    let data := leBytes 1 a.num ++ leBytes 1 cause ++ [0, 0] ++ leInt 4 x.fb.pos
    let s1 := s.modFb t a fun f =>
      { f with causes := f.causes ++ [cause], referenced := false, indexPhase := none,
               hallForbid := f.hallForbid || (cause == 5 && (s.tile t).motor a == 0) }
    let s2 := if x.fb.referenced then
        (s1.raise t 0x0D data).modDoor t fun d =>
          { d with posLost := d.posLost || !(homing || d.st == .isolated || d.st == .faultSafe) }
      else s1.logEvent t (s.eventId (some t) 0x0D) s.ts data
    let s3 := if x.moving && !homing then s2.engineTrip t a 0 else s2
    fail s3

/-- A cause of R89 has cleared (R90). -/
def State.causeCleared (s : State) (t : TileId) (a : AxisId) (cause : Nat) : State :=
  s.modFb t a fun f => { f with causes := f.causes.filter (· != cause) }

end Sys2Proof.Machine
end

