-- ==== Sys2Proof/Machine/Homing.lean ====
section
/-!
DEFINITION. What every doorway transition does (R39, R105, R129, R346), the CYCLE record, and the homing run of a tile (R65
to R70).
-/

namespace Sys2Proof.Machine

/-! ### Outputs commanded by the triad -/

/-- A load-switch command line set (R150); channel numbers above 9 name none. -/
def State.setLs (s : State) (t : TileId) (ch : Nat) (on : Bool) : State :=
  s.modLink t fun l =>
    { l with lsCmd := if on then l.lsCmd ||| BitVec.ofNat 10 (2 ^ ch) else l.lsCmd &&& ~~~(BitVec.ofNat 10 (2 ^ ch)) }

/-- LS0, the lock solenoid of role 14; LS3, the buzzer of role 17 (R33). -/
def State.setLock (s : State) (t : TileId) (on : Bool) : State := s.setLs t ((s.tile t).lsRole 14) on
def State.setBuzzer (s : State) (t : TileId) (on : Bool) : State := s.setLs t ((s.tile t).lsRole 17) on

/-- Outputs in the layout of a stake's out_mask: LS0 to LS9, then IO10 to IO15 (R94). -/
def State.setOutputs16 (s : State) (t : TileId) (mask val : BitVec 16) : State :=
  s.modLink t fun l =>
    let lm := mask.truncate 10
    let im := (mask &&& 0xFC00)
    { l with lsCmd := (l.lsCmd &&& ~~~lm) ||| (val.truncate 10 &&& lm), ioCmd := (l.ioCmd &&& ~~~im) ||| (val &&& im) }

/-- Outputs in the layout of the fallback image: LS0 to LS9, then IO0 to IO15 (R162, R181). -/
def State.setOutputs26 (s : State) (t : TileId) (mask val : BitVec 26) : State :=
  s.modLink t fun l =>
    let lm := mask.truncate 10
    let im := (mask >>> 10).truncate 16
    { l with lsCmd := (l.lsCmd &&& ~~~lm) ||| (val.truncate 10 &&& lm),
             ioCmd := (l.ioCmd &&& ~~~im) ||| ((val >>> 10).truncate 16 &&& im) }

/-! ### The CYCLE record (R346) -/

/-- A time of the CYCLE record: ms before the record, 0xFFFFFF when not taken, 0xFFFFFE when too long ago. -/
def cycleTime (now : Nat) : Option Nat → Nat
  | none => 0xFFFFFF
  | some i => let ms := (now - i) / 1000000
              if ms > 16777213 then 0xFFFFFE else ms

/-- The 64 points of a trace of axis A: the 1 kHz entries nearest to 64 equal steps from first to last. -/
def tracePoints (travel : Int) (l : List (Int × Int)) : List Byte :=
  if l.isEmpty then List.replicate 192 0
  else
    (List.range 64).flatMap fun i =>
      let e := l.getD ((2 * i * (l.length - 1) + 63) / 126) (0, 0)
      let p := max 0 (min 4095 (e.1 * 4095 / travel))
      let f := max (-2048) (min 2047 e.2)
      leBytes 3 (p.toNat + 4096 * (f % 4096).toNat)

/-- The CYCLE record, written in the evaluation that ends the cycle, with the commanding source of the transition that ends it (R39,
R344). R91 has every stroke record carry the feedback status; R346 lays out all 416 bytes and gives it none, and the layout is
followed (DESIGN CHOICE, log entry 51). -/
def State.cycleRecord (s : State) (t : TileId) (tno : Nat) : State :=
  let tl := s.tile t
  let d := tl.door
  let now := s.head.time.record.ns
  let body := (d.cycleTimes.toList.flatMap fun x => leBytes 3 (cycleTime now x)) ++
    leBytes 1 (d.srcOpen.code + 16 * d.srcClose.code) ++ leInt 2 d.peakOpen.1 ++ leInt 2 d.peakClose.1 ++
    leBytes 1 (d.peakOpen.2.num + 4 * d.peakClose.2.num + 16 * bit d.cycleEgress) ++ leBytes 1 d.obstructions.length ++
    leBytes 1 tno ++ leBytes 1 (if d.traceOpen.isEmpty then 0 else 64) ++ leBytes 1 (if d.traceClose.isEmpty then 0 else 64) ++
    [0] ++ tracePoints (tl.travel .A) d.traceOpen ++ tracePoints (tl.travel .A) d.traceClose
  (s.modDoor t fun d => { d with cycleOpen := false }).peatEntry t 0x01 d.by_ body

/-- The place of a transition's time in the CYCLE record. -/
def cycleSlot : Nat → Option (Fin 7)
  | 1 => some 0
  | 5 => some 1
  | 7 => some 2
  | 9 => some 3
  | 11 => some 4
  | 26 => some 4
  | 15 => some 5
  | 16 => some 6
  | _ => none

/-- The cycle's part of a transition: T01 opens a cycle; the transitions that the record carries leave their times. -/
def Doorway.cycleNote (d : Doorway) (tno now : Nat) : Doorway :=
  let d1 := if tno = 1 then
      { d with cycleOpen := true, cycleTimes := Vector.replicate 7 none, peakOpen := (-32768, .A), peakClose := (-32768, .A),
               cycleEgress := false, traceOpen := [], traceClose := [], closePass := [] }
    else d
  match cycleSlot tno with
  | some i => if d1.cycleOpen then { d1 with cycleTimes := vset d1.cycleTimes i (some now) } else d1
  | none => d1

/-! ### Transitions -/

/-- A state that ends a cycle when it is entered (R346). -/
def endsCycle (st : DoorState) : Bool :=
  st == .locked || st == .faultSafe || st == .isolated || st == .unreferenced

/-- The bounds and waits of the state that is left (R35). -/
def Doorway.clearBounds (d : Doorway) : Doorway :=
  { d with tUnlock := .idle, tOpenMax := .idle, tWarn := .idle, tCloseMax := .idle, tLock := .idle, tNudgeMax := .idle,
           tOpenDwell := .idle, tStepMax := .idle, tRevMax := .idle, tBrakeMax := .idle, tDwell := .idle,
           firstWait := none, nudgeWait := false, yieldFrom := none, revKind := none, holdWait := false, holdPanel := false }

/-- The doorway takes a transition into a state (R39): stake bounds end (R105), passes of HELD begin and end (R97), the
obstruction count clears at LOCKED (R129), LS0 goes off as OPENING is left for a state of R36 in which it is off, the doorway
state event is raised with the transition's number and its commanding source, and the cycle is kept (R346): the CLOSING pass that T16
ends becomes the closing trace. -/
def State.transition (s : State) (t : TileId) (tno : Nat) (new : DoorState) : State :=
  let old := (s.tile t).door.st
  let s0 := s.each AxisId.all fun s a => s.modPa t a fun p => { p with bound := none, boundTime := .idle }
  let s1 := if old == .held && new != .held then
      s0.each AxisId.all fun s a => if (s.axis t a).pa.door == .held then s.endPass t a false else s
    else s0
  let opened := tno == 1 || (s.tile t).door.cycleOpen
  let ends := opened && tno != 1 && endsCycle new
  let s2 := s1.modDoor t fun d =>
    let d1 := if new != old then d.clearBounds else d
    let d2 := d1.cycleNote tno s.head.time.record.ns
    { d2 with st := new, lastTrans := tno, stepStopped := false, closePass := [],
              traceClose := if tno = 16 && !d2.closePass.isEmpty then d2.closePass else d2.traceClose,
              openByT07 := tno == 7 || (d2.openByT07 && new != .opening) }
  let data := leBytes 1 old.code ++ leBytes 1 new.code ++ leBytes 1 tno ++ [0] ++ leBytes 4 s.ts.toNat
  let logged := !(opened && ((cycleSlot tno).isSome || ends))
  let by_ := (s2.tile t).door.by_
  let s3a := s2.raise t 0x00 data logged (some by_)
  let s3 := if old == .opening && new != .opening && new != .unreferenced then s3a.setLock t false else s3a
  let s4 := if ends then s3.cycleRecord t tno else s3
  let s5 := if new == .locked && !(s4.tile t).door.obstructions.isEmpty then
      (s4.modDoor t fun d => { d with obstructions := [] }).raise t 0x24 (leBytes 1 0 ++ leBytes 1 2)
    else s4
  if new == .held && old != .held then
    s5.each (s5.tile t).usedAxes fun s a => s.beginPass t a false
  else s5

/-! ### The homing run -/

/-- The direction of an axis's home switch: home_dir CLOSE 0, OPEN 1 (R65). -/
def Tile.homeDir (tl : Tile) (a : AxisId) : Dir := if tl.parA a 0x07 1 = 1 then .opening else .closing

/-- The limit set of the run: JOG in ISOLATED, else HOME (R44). -/
def Tile.homeSet (tl : Tile) : LimitSet :=
  match tl.door.homing with
  | some r => if r.inIsolated then .jog else .home
  | none => .home

/-- The target of a move_until: beyond any travel in a direction (R66). -/
def farTarget (d : Dir) : Int := d.sign * 2147483647

/-- A homing move of an axis and the stage it belongs to; the slow approach runs at v_home / 10 (R66). -/
def State.homeMove (s : State) (t : TileId) (a : AxisId) (stage : HomeStage) (target : Int) : State :=
  let tl := s.tile t
  let v := tl.parAN a 0x03 0 tl.homeSet.idx
  (s.startMove t a .homing target tl.homeSet).modMo t a fun m =>
    { m with homeStage := some stage, vLim := if stage == .slow then some (v / 10) else none }

/-- A run fails with a cause (R67): the axes stop, by a trip stop when the cause is a trip and by a controlled stop otherwise,
bridges go to BRAKE, LS0 is de-energised, the homing-failed event is raised; outside ISOLATED the doorway takes T04, unless
another transition ends the run. -/
def State.homeFail (s : State) (t : TileId) (cause : Nat) (a : Option AxisId) (takeT04 : Bool := true)
    (trip : Bool := false) : State :=
  match (s.tile t).door.homing with
  | none => s
  | some r =>
    let s1 := s.each (s.tile t).usedAxes fun s x =>
      let s' := if trip then s.triadTrip t x srcTriad else s.stopMove t x
      s'.modMo t x fun m => { m with homeStage := none, tHomeMax := .idle, vLim := none, aligning := false,
                                     bridge := if m.move.isNone && m.bridge == .driven then .brake else m.bridge }
    let s2 := (s1.setLock t false).modDoor t fun d =>
      { d with homing := none, homeFault := none, homeFailed := true, tUnlock := .idle, tLock := .idle }
    let s3 := s2.raise t 0x01 (leBytes 1 cause ++ leBytes 1 (match a with | some x => x.num | none => 0xFF))
    if r.inIsolated || !takeT04 then s3 else s3.transition t 4 .unreferenced

/-- The search of index_home, from its label start (R66). -/
def State.indexStart (s : State) (t : TileId) (a : AxisId) : State :=
  s.homeMove t a .index (farTarget ((s.tile t).homeDir a))

/-- index_home: it fails unless the index is unique over the travel; its tries count afresh (R66). -/
def State.indexHome (s : State) (t : TileId) (a : AxisId) : State :=
  if (s.tile t).parA a 0x07 7 = 0 then s.modDoor t fun d => { d with homeFault := some (5, some a) }
  else (s.modMo t a fun m => { m with homeTries := 0 }).indexStart t a

/-- The start of switch_home: away from an active switch first (R66). -/
def State.switchHome (s : State) (t : TileId) (a : AxisId) : State :=
  let d := (s.tile t).homeDir a
  if (s.axis t a).swActive a .home then s.homeMove t a .leave (farTarget d.flip) else s.homeMove t a .approach (farTarget d)

/-- The axis is homed on the index: home_source INDEX, or a suspect switch (R66, R69). -/
def Tile.homesOnIndex (tl : Tile) (a : AxisId) : Bool := tl.parA a 0x07 0 == 1 || (tl.ax.get a).fb.suspect

/-- The reference part of an axis after its alignment, by its home_source: SWITCH 0, INDEX 1, ABSOLUTE 2 (R66, R69, R70). -/
def State.homeReference (s : State) (t : TileId) (a : AxisId) : State :=
  if (s.tile t).parA a 0x07 0 = 2 then s.modMo t a fun m => { m with homeStage := some .absolute }
  else if (s.tile t).homesOnIndex a then s.indexHome t a
  else s.switchHome t a

/-- The part of an axis begins with its alignment, where it needs one (R51, R66). -/
def State.homeAxis (s : State) (t : TileId) (a : AxisId) : State :=
  if (s.tile t).motor a = 1 ∧ (s.axis t a).mo.aligned = false then s.homeMove t a .align (s.axis t a).fb.pos
  else s.homeReference t a

/-- A homing run starts on every used axis (R66): LS0 is energised when the leaves are closed and locked, outside
ISOLATED. -/
def State.homeStart (s : State) (t : TileId) (inIsolated : Bool) : State :=
  let tl := s.tile t
  let unlock := !inIsolated && tl.leafProven && tl.lockProven
  let s1 := s.each tl.usedAxes fun s a =>
    s.modMo t a fun m =>
      { m with homeStage := some .waitLock, homeTries := 0, tHomeMax := .running (1000 * tl.parAN a 0x07 9) }
  let s2 := s1.modDoor t fun d =>
    { d with homing := some { inIsolated := inIsolated, unlocked := unlock, phase := if unlock then 0 else 1 },
             homeFault := none, tUnlock := if unlock then .running (tl.parN 0x02 0) else d.tUnlock }
  if unlock then s2.setLock t true else s2.each tl.usedAxes fun s a => s.homeAxis t a

/-- The count of an axis renamed by some counts: where the rotor stands is unchanged, so the count at which the electrical offset was
fixed moves with it (R50, R51, R82). -/
def State.moveCount (s : State) (t : TileId) (a : AxisId) (by_ : Int) : State :=
  s.modMo t a fun m => { m with elecOff := m.elecOff.map fun o => (o.1 + by_, o.2) }

/-- set_position: the count is moved so that the latched count becomes home_pos; the axis is referenced (R66, R88). -/
def State.setPosition (s : State) (t : TileId) (a : AxisId) (latched : Int) : State :=
  let hp := (s.tile t).parA a 0x07 2
  (s.moveCount t a (hp - latched)).modFb t a fun f =>
    { f with pos := wrap32 (f.pos + (hp - latched)), u := 0, referenced := true, indexPhase := none, causes := f.causes.filter (· != 2),
             dirExtreme := f.dirExtreme + (hp - latched) }

/-- The stage of an axis. -/
def State.homeStage (s : State) (t : TileId) (a : AxisId) : Option HomeStage := (s.axis t a).mo.homeStage

/-- A stage with no move of its own. -/
def State.setStage (s : State) (t : TileId) (a : AxisId) (st : HomeStage) : State :=
  s.modMo t a fun m => { m with homeStage := some st }

/-- Every used axis is at a stage. -/
def Tile.allStage (tl : Tile) (st : HomeStage) : Bool := tl.usedAxes.all fun a => (tl.ax.get a).mo.homeStage == some st

/-- The homing move of an axis has ended at rest: the next step of its procedure (R66). -/
def State.homeRest (s : State) (t : TileId) (a : AxisId) : State :=
  let tl := s.tile t
  let d := tl.homeDir a
  match s.homeStage t a with
  | some .clear => s.homeMove t a .approach (farTarget d)
  | some .stopFirst => s.homeMove t a .backoff (tl.parA a 0x07 2 + d.flip.sign * tl.parA a 0x07 4)
  | some .backoff => s.homeMove t a .slow (farTarget d)
  | some .stopSecond => s.setStage t a .ready
  | some .stopIndex => s.setStage t a .ready
  | some .retreat => if tl.homesOnIndex a then s.indexStart t a else s.switchHome t a
  | some .chatterStop => s.indexHome t a
  | some .closing => (s.setStage t a .done).modMo t a fun m => { m with tHomeMax := .idle, bridge := .brake, move := none }
  | _ => s

/-- A confirmed edge of the home switch in a homing run (R66): `active` is its new state. -/
def State.homeEdge (s : State) (t : TileId) (a : AxisId) (active : Bool) : State :=
  let tl := s.tile t
  let x := tl.ax.get a
  match s.homeStage t a, active with
  | some .leave, false => s.homeMove t a .clear (x.fb.latchInactive + (tl.homeDir a).flip.sign * tl.parA a 0x07 3)
  | some .approach, true => ((s.setPosition t a x.fb.latchActive).stopMove t a).setStage t a .stopFirst
  | some .slow, true =>
    if decide (((x.fb.latchActive - tl.parA a 0x07 2).natAbs : Int) > tl.parA a 0x07 5) then
      s.modDoor t fun dd => { dd with homeFault := some (4, some a) }
    else (s.stopMove t a).setStage t a .stopSecond
  | _, _ => s

/-- The index found in a homing run (R66). -/
def State.homeIndex (s : State) (t : TileId) (a : AxisId) : State :=
  match s.homeStage t a with
  | some .index => ((s.setPosition t a (s.axis t a).fb.pos).stopMove t a).setStage t a .stopIndex
  | _ => s

/-- The stages of switch_home and index_home, in which a limit trip is tried once more (R66). -/
def HomeStage.retries : HomeStage → Bool
  | .leave => true
  | .clear => true
  | .approach => true
  | .stopFirst => true
  | .backoff => true
  | .slow => true
  | .stopSecond => true
  | .index => true
  | .stopIndex => true
  | .retreat => true
  | _ => false

/-- A trip report in a homing run that the procedure itself handles: an end-of-travel limit trip of switch_home or index_home
(R66). -/
def State.limitTry (s : State) (t : TileId) (r : TripReport) : Bool :=
  r.sources == srcLimit && (match (s.axis t r.axis).mo.homeStage with
    | some st => st.retries
    | none => false)

/-- A first end-of-travel limit trip of an axis: it retreats and tries again (R66). -/
def State.limitRetreat (s : State) (t : TileId) (r : TripReport) : State :=
  let x := s.axis t r.axis
  let way : Dir := if x.swActive r.axis .limC then .opening else .closing
  let s1 := s.modMo t r.axis fun m => { m with homeTries := m.homeTries + 1 }
  s1.homeMove t r.axis .retreat (x.fb.pos + way.sign * (s.tile t).parA r.axis 0x07 6)

/-- The trips reported in a homing run (R66, R67): any trip other than a limit trip of the procedures fails it with cause 7, a
second limit trip of an axis with cause 3; otherwise each axis that met its limit retreats. -/
def State.homeTrips (s : State) (t : TileId) (rs : List TripReport) : State :=
  match rs.find? fun r => !s.limitTry t r with
  | some r => s.homeFail t 7 (some r.axis) true true
  | none => match rs.find? fun r => decide ((s.axis t r.axis).mo.homeTries ≥ 1) with
    | some r => s.homeFail t 3 (some r.axis) true true
    | none => rs.foldl (fun s r => s.limitRetreat t r) s

/-- The run is complete (R68): the event with the mask of its axes; outside ISOLATED T03 follows. -/
def State.homeComplete (s : State) (t : TileId) : State :=
  let tl := s.tile t
  match tl.door.homing with
  | none => s
  | some r =>
    let mask := (tl.usedAxes.map fun a => 2 ^ a.num).sum
    let s1 := s.each tl.usedAxes fun s a => s.modMo t a fun m => { m with homeStage := none, tHomeMax := .idle, vLim := none }
    let s2 := (s1.modDoor t fun d => { d with homing := none, tLock := .idle }).raise t 0x0F (leBytes 1 mask)
    if r.inIsolated then s2
    else s2.transition t 3 (if tl.releaseValid then .released else .locked)

/-- The run has reached complete() (R66). -/
def Tile.homeDone (tl : Tile) : Bool :=
  match tl.door.homing with
  | none => false
  | some r => (r.phase == 1 && r.inIsolated && tl.allStage .done) || (r.phase == 3 && tl.lockProven)

/-- What a homing run does in an evaluation in which it neither fails nor meets a trip (R66): the lock steps, the closing
move once every axis has its reference. -/
def State.homeProgress (s : State) (t : TileId) : State :=
  let tl := s.tile t
  match tl.door.homing with
  | none => s
  | some r =>
    let phase := fun (s : State) (p : Fin 4) => s.modDoor t fun d => { d with homing := some { r with phase := p } }
    match r.phase with
    | 0 =>
      if tl.lockReleased then
        ((phase s 1).modDoor t fun d => { d with tUnlock := .idle }).each tl.usedAxes fun s a => s.homeAxis t a
      else s
    | 1 =>
      if tl.allStage .ready then
        s.each tl.usedAxes fun s a => s.homeMove t a .closing (-(tl.preload a))
      else if tl.allStage .done then
        if r.inIsolated then s else (phase s 2).modDoor t fun d => { d with tLock := .running (tl.parN 0x02 4) }
      else s
    | 2 =>
      if tl.leafProven && tl.leafAxes.all tl.inClosed then
        let s1 := if r.unlocked then s.setLock t false else s
        (phase s1 3).modDoor t fun d => { d with tLock := .running (tl.parN 0x02 4) }
      else s
    | _ => s

/-- Why a run fails in this evaluation, if it does (R66, R67): a fault noted by the engine, an expired bound, or a trip. -/
def Tile.homeFailure (tl : Tile) : Option (Nat × Option AxisId) :=
  match tl.door.homing with
  | none => none
  | some _ =>
    match tl.door.homeFault with
    | some f => some f
    | none =>
      if tl.door.tUnlock.isExpired then some (1, none)
      else if tl.door.tLock.isExpired then some (8, none)
      else (tl.usedAxes.find? fun a => (tl.ax.get a).mo.tHomeMax.isExpired).map fun a => (6, some a)

end Sys2Proof.Machine
end

