-- ==== Sys2Proof/Machine/Doorway.lean ====
section
/-!
DEFINITION. The doorway state machine: the actions of its transitions, the reversal policy, calibration cycles, the
triggers in their order, and one evaluation (R36 to R43, R71, R122 to R129, R140, R142, R182, R195 to R201).
-/

namespace Sys2Proof.Machine

/-! ### Leaf and step moves (R31, R65, R71, R73) -/

/-- The leaves start towards open or closed under a limit set. -/
def State.startLeaves (s : State) (t : TileId) (kind : MoveKind) (d : Dir) (set : LimitSet) : State :=
  let tl := s.tile t
  s.each tl.leafAxes fun s a =>
    s.startMove t a kind (match d with
      | .opening => tl.travel a
      | .closing => -(tl.preload a)) set

/-- A move of axis C is under way in a direction. -/
def Tile.stepMoves (tl : Tile) (d : Dir) : Bool :=
  match tl.ax.c.mo.move with
  | some m => m.kind != .stop && m.dir == d
  | none => false

/-- Axis C deploys or stows under STEP, unless it stands in that band already with no move that takes it out. A move the other
way under way makes its controlled stop as the new profile begins (R48, R73). -/
def State.startStep (s : State) (t : TileId) (kind : MoveKind) (d : Dir) (stepCmd : Bool := false) : State :=
  let tl := s.tile t
  match d with
  | .opening => if tl.inOpen .C && !tl.stepMoves .closing then s else s.startMove t .C kind (tl.travel .C) .step stepCmd
  | .closing => if tl.inClosed .C && !tl.stepMoves .opening then s else s.startMove t .C kind 0 .step stepCmd

/-- Every used axis at rest is driven, as R36 has the bridges of OPENING and CLOSING from entry. -/
def State.driveAll (s : State) (t : TileId) : State :=
  s.each (s.tile t).usedAxes fun s a =>
    let tl := s.tile t
    let x := tl.ax.get a
    if x.moving || x.pairRaised || x.fab.path1 || x.fab.path2 || !tl.canHold a then s
    else s.modMo t a fun m => { m with bridge := .driven }

/-- step_couple_open: WITH 0, FIRST 1, NONE 2; step_couple_close: WITH 0, FIRST 1 (R71). -/
def Tile.coupleOpen (tl : Tile) : Int := if tl.stepFitted then tl.par 0x11 3 else 2
def Tile.coupleClose (tl : Tile) : Int := if tl.stepFitted then tl.par 0x11 4 else 2

/-- Axis C is deployed as T09 asks: in its open band, or by a contact stop, or not asked for (R31, R71, R127). -/
def Tile.stepDeployed (tl : Tile) : Bool := tl.coupleOpen == 2 || tl.inOpen .C || tl.ax.c.mo.contactDeployed

/-- Axis C is stowed as T16 asks (R31). -/
def Tile.stepStowed (tl : Tile) : Bool := !tl.stepFitted || tl.inClosed .C

/-- The set of an opening: EGRESS when T35 entered it (R44). -/
def Tile.openSet (tl : Tile) : LimitSet := if tl.door.egressOpening then .egress else .openSet

/-- The opening profiles and the coupling of axis C start (T07, R71). -/
def State.startOpening (s : State) (t : TileId) (kind : MoveKind := .leaf) : State :=
  let tl := s.tile t
  if tl.coupleOpen == 1 && !tl.inOpen .C then
    (s.startStep t (if kind == .leaf then .coupled else kind) .opening).modDoor t fun d =>
      { d with firstWait := some .opening, tStepMax := .running (tl.parN 0x11 5) }
  else
    let s1 := s.startLeaves t kind .opening tl.openSet
    let s2 := if tl.coupleOpen == 2 then s1 else s1.startStep t (if kind == .leaf then .coupled else kind) .opening
    s2.modDoor t fun d => { d with tOpenMax := .running (tl.parN 0x02 1) }

/-- The closing profiles and the coupling of axis C start (T15, R71). -/
def State.startClosing (s : State) (t : TileId) (kind : MoveKind := .leaf) (set : LimitSet := .close) : State :=
  let tl := s.tile t
  if tl.coupleClose == 1 && !tl.inClosed .C then
    (s.startStep t (if kind == .leaf then .coupled else kind) .closing).modDoor t fun d =>
      { d with firstWait := some .closing, tStepMax := .running (tl.parN 0x11 5) }
  else
    let s1 := s.startLeaves t kind .closing set
    let s2 := if tl.coupleClose == 2 then s1 else s1.startStep t (if kind == .leaf then .coupled else kind) .closing
    s2.modDoor t fun d => { d with tCloseMax := .running (tl.parN 0x02 3) }

/-- FIRST lets the leaves go once axis C has reached its band (R71). A contact stop that counts as deployed lets them go too, as it
does for T24 (DESIGN CHOICE: R127 names T09 and STEP_CHECK only, and without it a contact stop would end in t_step_max; log entry
51). -/
def State.firstProgress (s : State) (t : TileId) : State :=
  let tl := s.tile t
  let kind := if tl.door.st == .locked then MoveKind.calibration else MoveKind.leaf
  match tl.door.firstWait with
  | some .opening =>
    if tl.inOpen .C || tl.ax.c.mo.contactDeployed then
      (s.startLeaves t kind .opening tl.openSet).modDoor t fun d =>
        { d with firstWait := none, tStepMax := .idle, tOpenMax := .running (tl.parN 0x02 1) }
    else s
  | some .closing =>
    if tl.inClosed .C then
      (s.startLeaves t kind .closing (if tl.door.recovering then .nudge else .close)).modDoor t fun d =>
        { d with firstWait := none, tStepMax := .idle, tCloseMax := .running (tl.parN 0x02 3) }
    else s
  | none => s

/-- Every moving axis decelerates to rest (R58). -/
def State.stopAll (s : State) (t : TileId) : State :=
  s.each (s.tile t).usedAxes fun s a => if (s.axis t a).moving then s.stopMove t a else s

/-- Holding force on every used axis (R44). -/
def State.holdAll (s : State) (t : TileId) : State := s.each (s.tile t).usedAxes fun s a => s.holdAxis t a

/-- The triad stops every moving axis that is not among some axes (R59, R122). -/
def State.stopOthers (s : State) (t : TileId) (but : List AxisId) : State :=
  s.each (s.tile t).usedAxes fun s a =>
    if but.contains a || !(s.axis t a).moving then s else s.triadTrip t a srcTriad

/-! ### Self-test parts (R145, R146, R336) -/

/-- A self-test part gets its result (R336). -/
def Doorway.partResult (d : Doorway) (i : Fin 8) (code : Fin 6) (detail : BitVec 16) : Doorway :=
  { d with parts := vmod d.parts i fun p => { p with running := false, result := some code, detail := detail } }

/-- A part that counts once for all: its class (R145): IMMEDIATE 0, DWELL 1, ISOLATED 2. -/
def partClass (i : Nat) : Nat := if i < 3 then 0 else if i < 5 then 1 else 2

/-- The completion of SELFTEST_REQUEST once every part asked for has a result (R146, R336). -/
def State.selftestFinish (s : State) (t : TileId) : State :=
  let d := (s.tile t).door
  match d.selftest with
  | none => s
  | some (h, addr, mask) =>
    let ps := d.parts.toList
    if ps.any fun p => p.requested && p.result.isNone then s
    else
      let entry := fun (i : Nat) =>
        let p := ps.getD i PartState.reset
        let r := match p.result with
          | some c => c.val
          | none => 0xFF
        leBytes 1 (if p.requested then r else 0xFF) ++ leBytes 1 (partClass i) ++ leBytes 2 p.detail.toNat ++
          leBytes 4 p.ts.toNat
      let failed := (List.range 8).map fun i =>
        (ps.getD i PartState.reset).requested && (ps.getD i PartState.reset).result == some 1
      let bad := maskOf failed
      let s1 := s.modDoor t fun d => { d with selftest := none }
      if (s1.findOut h 0x41).isNone then s1
      else if h.dmaFault then s1.complete h 0x41 0x09 0
      else
        (s1.dmaVia t addr.toNat ((List.range 8).flatMap entry)).complete h 0x41 (if bad = 0 then 0 else 0x28) 0
          (leBytes 2 mask.toNat ++ leBytes 2 bad)

/-- A proof test under way ends without a verdict: the wire that it asserts falls, and its self-test part is reported ABORTED (DEDUCED: entry to
FAULT_SAFE and the loss of the triad raise every trip pair, which leaves the test nothing to force; log entry 54). -/
def State.proofStop (s : State) (t : TileId) : State :=
  if !(s.tile t).door.proofRun then s
  else
    ((s.each AxisId.all fun s a => s.modMo t a fun m => { m with wire := 0 }).modDoor t fun d =>
      let d1 := { d with proofRun := false, proofSelf := false, proofPhase := 0, proofBad := none }
      if d.proofSelf then d1.partResult 3 5 0 else d1).selftestFinish t

/-! ### The harmless state and its end (R196, R200) -/

/-- A homing run, calibration run or step command in progress is ended without a transition of its own. -/
def State.endCal (s : State) (t : TileId) (cause : Nat) : State :=
  match (s.tile t).door.cal with
  | .cycle _ _ _ =>
    (s.modDoor t fun d => { d with cal := .idle, calPermitMax := .idle, calRest := .idle, calEndMax := .idle }).raise t 0x2F
      (leBytes 1 cause)
  | .aborted _ _ => s.modDoor t fun d => { d with cal := .idle, calRest := .idle, calEndMax := .idle }
  | _ => s

/-- What entry to FAULT_SAFE does (R196): SRA open, every trip pair raised, LS0 off, the keep-alive stopped; the egress latch
clears (R40); a homing run fails with cause 7, a calibration run aborts with cause 6. -/
def State.harmless (s : State) (t : TileId) : State :=
  let s1 := ((s.proofStop t).homeFail t 7 none false true).endCal t 6
  let s2 := s1.each AxisId.all fun s a => s.triadTrip t a srcTriad
  let s3 := s2.each AxisId.all fun s a => s.endPass t a false
  let s4 := (s3.setLock t false).modLink t fun l => { l with keepAlive := false, release := false }
  s4.modDoor t fun d =>
    { d with sraCmd := false, egress := false, egressOpening := false, trips := [], posLost := false }

/-- FAULT_SAFE entered by a transition. -/
def State.enterFaultSafe (s : State) (t : TileId) (tno : Nat) : State := (s.harmless t).transition t tno .faultSafe

/-- The release of the fallback image (R163, R200): keep-alive and release flag sent, every output commanded at its level in
the image, the trip pairs deasserted and a fabric-clear sent for each axis; a proof test is due. -/
def State.releaseImage (s : State) (t : TileId) : State :=
  let tl := s.tile t
  let img := tl.field.image
  let s1 := s.each AxisId.all fun s a => s.releasePair t a
  s1.modLink t fun l =>
    { l with keepAlive := true, release := true, lsCmd := (img &&& 0x3FE).truncate 10, ioCmd := (img >>> 10).truncate 16 }

/-- The bittern configuration is sent whenever the monitor's check value differs from that of the triad's copy, while the fallback
image is applied in FAULT_SAFE (R187); at start-up and on T38 the whole write is made at once. The check value is judged by the
bytes that it covers: R187 does not give its formula (DEDUCED, log entry 36). -/
def State.bitternSend (s : State) (t : TileId) : State :=
  let tl := s.tile t
  let due := tl.door.st == .faultSafe && tl.link.up.fallback && tl.link.up.bitConfig != some tl.bitternConfig
  s.modLink t fun l => { l with sendConfig := due, cfgNext := if due && l.sendConfig then l.cfgNext else 0 }

/-- A state chosen by R42 is entered by T34 or T38, or at start-up (0): the image is released wherever the keep-alive stopped or
the field die applied it (R200). A loss of position in ISOLATED or FAULT_SAFE takes no T39 afterwards (R90). -/
def State.enterChosen (s : State) (t : TileId) (tno : Nat) (st : DoorState) : State :=
  let s1 := if st == .faultSafe then s.harmless t else s
  let s2 := (s1.transition t tno st).modDoor t fun d => { d with posLost := false, isoFaults := if st == .faultSafe then d.isoFaults else [] }
  if st == .faultSafe then s2
  else if ((s2.tile t).link.up.fallback || !(s2.tile t).link.keepAlive) && st != .isolated then s2.releaseImage t
  else if st == .held then s2.holdAll t
  else s2

/-! ### Obstructions (R129) -/

/-- One obstruction counted. -/
def State.countObstruction (s : State) (t : TileId) : State :=
  let n := (s.tile t).door.obstructions.length + 1
  (s.modDoor t fun d => { d with obstructions := d.obstructions ++ [s.now] }).raise t 0x24 (leBytes 1 n ++ leBytes 1 0)

/-- Obstructions that have left nudge_window no longer count (R129). -/
def State.ageObstructions (s : State) (t : TileId) : State :=
  let tl := s.tile t
  let win := tl.parN 0x83 4 * 1000000000
  let left := tl.door.obstructions.filter fun i => decide (s.now ≤ i + win)
  if left.length = tl.door.obstructions.length then s
  else (s.modDoor t fun d => { d with obstructions := left }).raise t 0x24 (leBytes 1 left.length ++ leBytes 1 1)

/-! ### Reversal (R122 to R126) -/

/-- The zone whose policy governs: REVERSE 0 before YIELD 1 before HOLD 2 (R122). -/
def Tile.governs (tl : Tile) (zones : List (Fin 8)) : Fin 8 :=
  zones.foldl (fun z y => if tl.par 0x82 6 y.val < tl.par 0x82 6 z.val then y else z) (zones.headD 0)

/-- The reversal target of a leaf (R122). -/
def Tile.revTargetOf (tl : Tile) (a : AxisId) (closing : Bool) (zone : Fin 8) : Int :=
  let pos := (tl.ax.get a).fb.pos
  if closing then
    let dist := tl.par 0x82 9 zone.val
    if dist = 0 then tl.travel a else min (tl.travel a) (pos + dist)
  else min pos (max (tl.closedBand a + 1) (pos - tl.par 0x82 10 zone.val))

/-- REVERSING is entered with its targets (R122 to R124): `closing` for a reversal of a closing, `cAlone` for an opening
reversal that axis C alone caused. In the warning dwell a leaf in its open band has not left its target and lies at it already
(R131). Axis C turns back in a full closing reversal wherever it stands, unless it rests in its open band; in every other reversal
that it did not cause it makes a controlled stop, and in an opening one its bridge goes to BRAKE (R124). -/
def State.enterReversing (s : State) (t : TileId) (tno : Nat) (zone : Fin 8) (closing cAlone : Bool) : State :=
  let tl := s.tile t
  let s1 := s.transition t tno .reversing
  let dwell := tl.door.st == .closing && tl.door.tWarn != .idle
  let there := fun (a : AxisId) => closing && dwell && tl.inOpen a
  let target := fun (a : AxisId) => if there a then tl.travel a else tl.revTargetOf a closing zone
  let set := fun (s : State) (a : AxisId) (tgt : Option Int) =>
    s.modMo t a fun m =>
      { m with revTarget := tgt, revStarted := match tgt with
                | some v => decide (v = (tl.ax.get a).fb.pos) || (closing && decide ((tl.ax.get a).fb.pos ≥ v)) || there a
                | none => false }
  let s2 := s1.each tl.leafAxes fun s a => set s a (if cAlone then none else some (target a))
  let full := tl.leafAxes.all fun a => decide (target a = tl.travel a)
  let s3 :=
    if !tl.stepFitted then s2
    else if cAlone then set s2 .C (some (tl.revTargetOf .C false zone))
    else if closing && full && tl.coupleOpen != 2 && (!tl.inOpen .C || tl.stepMoves .closing) then
      s2.modMo t .C fun m => { m with revTarget := some (tl.travel .C), revStarted := false }
    else if (s2.axis t .C).moving && !(s2.axis t .C).pairRaised then s2.stopMove t .C
    else if closing then s2
    else s2.modMo t .C fun m => { m with bridge := if m.bridge == .driven then .brake else m.bridge }
  s3.modDoor t fun d =>
    { d with tRevMax := .running (tl.parN 0x83 2), tBrakeMax := .running (tl.parN 0x83 1), tripZone := zone,
             revKind := some (closing, cAlone) }

/-- An axis waits for its reversal move. -/
def Axis.waitsReversal (x : Axis) : Bool := x.mo.revTarget.isSome && !x.mo.revStarted

/-- The speed of an axis lies at or below rev_v_start (R123). -/
def Tile.slow (tl : Tile) (a : AxisId) : Bool := decide (((tl.ax.get a).mo.speed.natAbs : Int) ≤ tl.par 0x83 0)

/-- A fabric path is asserted that a fabric-clear has not released or cannot release (R60, R123). -/
def Tile.fabricStuck (tl : Tile) (a : AxisId) : Bool :=
  tl.fabInputs a || (!(tl.ax.get a).owesClear && !tl.link.clear.get a && (tl.link.up.path1.get a || tl.link.up.path2.get a))

/-- The wait for rest of an axis in REVERSING or NUDGING (R123, R125): once the axis is slow or t_brake_max has expired, its
pair is released with a fabric-clear, which a trip by an edge or a comparator needs too, and when the fabric is clear the move is
commanded. -/
def State.afterRest (s : State) (t : TileId) (a : AxisId) (go : State → State) : State :=
  let tl := s.tile t
  let x := tl.ax.get a
  if !(tl.slow a || tl.door.tBrakeMax.isExpired) || x.mo.tripNote.isSome then s
  else if x.owesClear then (if tl.fabInputs a then s else s.releasePair t a)
  else if tl.fabricClear a then go s
  else s

/-- Reversal moves commanded in this evaluation (R123, R124). A refused move does not count as started (R60). -/
def State.reversalProgress (s : State) (t : TileId) : State :=
  let tl := s.tile t
  if tl.door.st != .reversing then s
  else
    let start := fun (s : State) (a : AxisId) =>
      let x := s.axis t a
      match x.mo.revTarget with
      | some tgt =>
        if x.mo.revStarted then s
        else s.afterRest t a fun s =>
          (s.startMove t a .reversal tgt (if a == .C then .step else .reverse)).modMo t a fun m =>
            { m with revStarted := m.move.isSome }
      | none => s
    let s1 := s.each tl.leafAxes start
    let leafGone := (s1.tile t).leafAxes.any fun a => (s1.axis t a).mo.revStarted
    let cAlone := match tl.door.revKind with
      | some (_, c) => c
      | none => false
    let s2 := if leafGone || cAlone then start s1 .C else s1
    if (s2.tile t).usedAxes.any fun a => (s2.axis t a).waitsReversal then s2
    else s2.modDoor t fun d => { d with tBrakeMax := .idle }

/-- Nudging profiles commanded once every axis may start (R125, R129). -/
def State.nudgeProgress (s : State) (t : TileId) : State :=
  let tl := s.tile t
  if !(tl.door.st == .nudging && tl.door.nudgeWait) then s
  else
    let s1 := s.each tl.usedAxes fun s a => s.afterRest t a id
    let tl1 := s1.tile t
    if tl1.usedAxes.all fun a => !(tl1.ax.get a).owesClear && tl1.fabricClear a && (tl1.slow a || tl1.door.tBrakeMax.isExpired)
    then
      let s2 := s1.startLeaves t .leaf .closing .nudge
      let s3 := if tl1.stepFitted then s2.startStep t .coupled .closing else s2
      (s3.driveAll t).modDoor t fun d => { d with nudgeWait := false, tBrakeMax := .idle }
    else s1

/-- Holding force reapplied once the sources of the trip are inactive, the panel flag among them only when it was one, and the
fabric is clear (R126). -/
def State.holdProgress (s : State) (t : TileId) : State :=
  let tl := s.tile t
  if !(tl.door.st == .held && tl.door.holdWait) || (tl.door.holdPanel && tl.door.panelFlag) then s
  else
    let s1 := s.each tl.usedAxes fun s a =>
      let tl := s.tile t
      let x := tl.ax.get a
      if x.mo.tripNote.isSome then s
      else if x.owesClear then (if tl.fabInputs a then s else s.releasePair t a)
      else if tl.fabricClear a && !x.moving && tl.canHold a then s.modMo t a fun m => { m with bridge := .driven }
      else s
    let tl1 := s1.tile t
    if tl1.usedAxes.all fun a => !(tl1.ax.get a).owesClear && tl1.fabricClear a then
      s1.modDoor t fun d => { d with holdWait := false, holdPanel := false }
    else s1

/-! ### Transition actions (R39) -/

/-- T11 and T26: LS0 off, moving axes decelerate, the bridges driven (R36), the buzzer and t_warn. A pass that it stops is not
clean (R136). -/
def State.closeDemand (s : State) (t : TileId) (tno : Nat) : State :=
  let tl := s.tile t
  let s1 := ((((s.noneClean t).transition t tno .closing).setLock t false).stopAll t).driveAll t
  let s2 := if tl.parN 0x02 2 > 0 then s1.setBuzzer t true else s1
  s2.modDoor t fun d =>
    { d with tWarn := if tl.parN 0x02 2 > 0 then .running (tl.parN 0x02 2) else .expired, egressOpening := false }

/-- T18: decelerate, LS0 only if the lock is proven, t_unlock; a pass that it stops is not clean (R136). -/
def State.reopen (s : State) (t : TileId) : State :=
  let tl := s.tile t
  let s1 := (((s.noneClean t).transition t 18 .opening).stopAll t).driveAll t
  let s2 := if tl.lockProven then s1.setLock t true else s1
  s2.modDoor t fun d => { d with tUnlock := .running (tl.parN 0x02 0), egressOpening := false }

/-- T05: LS0 on, SRA dropped, the bridges driven (R36), t_unlock. -/
def State.openFromReleased (s : State) (t : TileId) : State :=
  let tl := s.tile t
  (((s.transition t 5 .opening).setLock t true).driveAll t).modDoor t fun d =>
    { d with sraCmd := false, tUnlock := .running (tl.parN 0x02 0), egressOpening := false }

/-- Entry to NUDGING by T17 or T19: the event, the buzzer, t_nudge_max. -/
def State.enterNudging (s : State) (t : TileId) (tno : Nat) : State :=
  let tl := s.tile t
  let s1 := (s.transition t tno .nudging).raise t 0x23 (leBytes 1 tl.door.obstructions.length)
  let s2 := if tl.par 0x83 5 == 1 then s1.setBuzzer t true else s1
  s2.modDoor t fun d => { d with tNudgeMax := .running (1000 * tl.parN 0x02 5) }

/-- T19: NUDGING by command; the leaves start or go on towards closed under NUDGE and axis C stows (R48, R129). A leaf that moves
towards closed already goes on from its measured position and speed, and its NUDGING pass is a new one (DESIGN CHOICE: R97 does
not say whether T19 starts a move there; log entry 51). -/
def State.nudge (s : State) (t : TileId) : State :=
  let tl := s.tile t
  let s1 := (s.noneClean t).enterNudging t 19
  let s2 := s1.startLeaves t .leaf .closing .nudge
  (if tl.stepFitted then s2.startStep t .coupled .closing else s2).driveAll t

/-- T27: NUDGING ends in HELD with the close-failed event: cause 1 a trip, 2 t_nudge_max. -/
def State.nudgeFailed (s : State) (t : TileId) (cause : Nat) : State :=
  ((s.raise t 0x04 (leBytes 1 cause)).transition t 27 .held).holdAll t

/-- T16: the bridges brake and t_lock starts. -/
def State.closedReached (s : State) (t : TileId) : State :=
  let s1 := s.each (s.tile t).usedAxes fun s a => s.endPass t a true
  let s2 := s1.brakeAll t
  (s2.transition t 16 .closedUnlocked).modDoor t fun d => { d with tLock := .running ((s.tile t).parN 0x02 4) }

/-- T09: OPEN; the bridges brake and t_open_dwell starts unless it is 0. -/
def State.openReached (s : State) (t : TileId) (tno : Nat) : State :=
  let dwell := (s.tile t).parN 0x02 6
  let s1 := s.each (s.tile t).usedAxes fun s a => s.endPass t a true
  ((s1.brakeAll t).transition t tno .openSt).modDoor t fun d =>
    { d with tOpenDwell := if dwell = 0 then .idle else .running (1000 * dwell) }

/-- T10: open-failed, HELD. -/
def State.openFailed (s : State) (t : TileId) : State :=
  let tl := s.tile t
  let mask := ((tl.leafAxes.filter fun a => !tl.inOpen a).map fun a => 2 ^ a.num).sum
  ((s.raise t 0x03 (leBytes 1 mask)).transition t 10 .held).holdAll t

/-- T30: reversal-failed, HELD; an expiry of t_rev_max counts an obstruction. -/
def State.reversalFailed (s : State) (t : TileId) (cause : Nat) : State :=
  let s1 := s.each (s.tile t).usedAxes fun s a =>
    if (s.axis t a).mo.revTarget.isSome then
      (s.brakeAxis t a).modMo t a fun m => { m with revTarget := none, revStarted := false }
    else s
  let s2 := s1.raise t 0x22 (leBytes 1 cause)
  let s3 := if cause = 2 then s2.countObstruction t else s2
  (s3.transition t 30 .held).holdAll t

/-- T35: egress latched, LS0 energised, the bridges driven (R36); with the lock released already the leaves start at once under
EGRESS, which ends t_unlock, else T07 starts them, also where an opening was under way. In that wait an axis that moves towards
closed makes a controlled stop, and one that moves towards open goes on (DESIGN CHOICE: R39 leaves only the start of the profiles to
T07; log entry 51). -/
def State.egressOpen (s : State) (t : TileId) : State :=
  let tl := s.tile t
  let s0 := (s.noneClean t).endCal t 3
  let s1 := (s0.transition t 35 .opening).setLock t true
  let s2 := s1.modDoor t fun d =>
    { d with egress := true, egressOpening := true, cycleEgress := true, sraCmd := false, egressPend := false,
             tOpenMax := .idle, tStepMax := .idle, firstWait := none, tUnlock := .idle }
  if tl.lockReleased then (s2.startOpening t).driveAll t
  else
    let closing := tl.usedAxes.filter fun a => match (tl.ax.get a).mo.move with
      | some m => m.dir == .closing
      | none => false
    ((s2.each closing fun s a => s.stopMove t a).driveAll t).modDoor t fun d => { d with tUnlock := .running (tl.parN 0x02 0) }

/-- T36: egress in UNREFERENCED: any run fails with cause 10, LS0 on, every bridge FREE. -/
def State.egressFree (s : State) (t : TileId) : State :=
  let s1 := (s.homeFail t 10 none false).transition t 36 .unreferenced
  let s2 := (s1.setLock t true).modDoor t fun d => { d with egress := true, cycleEgress := true, egressPend := false }
  (s2.brakeAll t).each AxisId.all fun s a => s.modMo t a fun m => { m with bridge := .free }

/-- T33: every axis stops in BRAKE, the outputs of R191, SRA open, the egress latch clears. LS0 and LS3 are off whatever iso_mask
names. -/
def State.isolate (s : State) (t : TileId) : State :=
  let tl := s.tile t
  let s1 := (s.endCal t 4).brakeAll t
  let s2 := s1.each AxisId.all fun s a => s.modMo t a fun m => { m with homeStage := none, tHomeMax := .idle }
  let s3 := ((s2.setOutputs26 t (BitVec.ofInt 26 (tl.par 0x87 4)) (BitVec.ofInt 26 (tl.par 0x87 5))).setLock t false).setBuzzer
    t false
  let s4 := s3.modDoor t fun d =>
    { d with sraCmd := false, egress := false, egressOpening := false, homing := none, homeFault := none, trips := [],
             posLost := false }
  let s5 := if tl.leafProven then s4 else s4.raise t 0x07 []
  s5.transition t 33 .isolated

/-- T39: every axis stops at once in BRAKE; LS0 off unless egress is latched. -/
def State.positionGone (s : State) (t : TileId) : State :=
  let tl := s.tile t
  let s1 := s.endCal t 5
  let s2 := s1.each tl.usedAxes fun s a => if (s.axis t a).moving then s.triadTrip t a srcTriad else s
  let s3 := s2.brakeAll t
  let s4 := if tl.door.egress then s3 else s3.setLock t false
  (s4.transition t 39 .unreferenced).modDoor t fun d => { d with posLost := false, trips := [] }

/-! ### Trips (R122, R125, R126, R128, R131, R142) -/

/-- T17, T13 or T27 on some trips, or what R126, R128 and R142 give elsewhere. -/
def State.onTrips (s : State) (t : TileId) (rs : List TripReport) : State :=
  let tl := s.tile t
  let axes := rs.map (·.axis)
  let zone := tl.governs (rs.map (·.zone))
  let policy := tl.par 0x82 6 zone.val
  let clear := fun (s : State) => s.modDoor t fun d => { d with trips := [], stakeExpired := [] }
  let panel := rs.any fun r => r.sources &&& srcPanel != 0
  let hold := fun (s : State) => (s.holdAll t).modDoor t fun d => { d with holdPanel := panel }
  let yield := fun (s : State) (tno : Nat) (closing cAlone : Bool) =>
    (hold (s.transition t tno .held)).modDoor t fun d =>
      { d with tDwell := .running (tl.parN 0x82 8 zone.val), yieldFrom := some (closing, cAlone), tripZone := zone }
  match tl.door.st with
  | .closing =>
    let full := tl.leafAxes.all fun a => decide (tl.revTargetOf a true zone = tl.travel a)
    let s1 := clear (s.countObstruction t)
    let nc := tl.parN 0x83 3
    if nc ≠ 0 ∧ (s1.tile t).door.obstructions.length ≥ nc then
      ((s1.stopOthers t axes).enterNudging t 17).modDoor t fun d =>
        { d with nudgeWait := true, tBrakeMax := .running (tl.parN 0x83 1) }
    else if policy = 0 then
      (s1.stopOthers t (if full then axes else .C :: axes)).enterReversing t 17 zone true false
    else if policy = 1 then yield (s1.stopOthers t axes) 17 true false
    else hold ((s1.stopOthers t axes).transition t 17 .held)
  | .opening =>
    let cAlone := axes.all (· == .C)
    let s1 := clear s
    if policy = 0 then
      (s1.stopOthers t (if cAlone then axes else .C :: axes)).enterReversing t 13 zone false cAlone
    else if policy = 1 then yield (s1.stopOthers t axes) 13 false cAlone
    else hold ((s1.stopOthers t axes).transition t 13 .held)
  | .reversing => hold (((clear s).stopOthers t axes).transition t 13 .held)
  | .nudging => (((clear s).stopOthers t axes).nudgeFailed t 1).modDoor t fun d => { d with holdPanel := panel }
  | .held =>
    (clear s).modDoor t fun d =>
      { d with holdWait := true, holdPanel := panel, tDwell := if d.tDwell.isRunning then .running (tl.parN 0x82 8 d.tripZone.val) else d.tDwell }
  | .locked =>
    match tl.door.cal with
    | .cycle _ _ _ =>
      (((clear s).stopOthers t axes).modDoor t fun d =>
        { d with cal := .aborted false 0, tOpenMax := .idle, tCloseMax := .idle, tWarn := .idle, tLock := .idle, calRest := .idle,
                 tStepMax := .idle, firstWait := none,
                 calEndMax := if d.calEndMax.isRunning then d.calEndMax else .running (1000 * tl.parN 0x0A 2) }).raise t 0x2F
        (leBytes 1 1)
    | .aborted _ _ => ((clear s).stopOthers t axes).modDoor t fun d =>
        { d with cal := .aborted false 0, tCloseMax := .idle, tWarn := .idle, tLock := .idle, tStepMax := .idle, firstWait := none }
    | _ => clear s
  | _ => clear s

/-- The reports of an expiry that counts as a trip: every leaf axis, each moving one stopped by the triad with a source. The zones
of all leaf axes govern together and every moving axis carries the source, also where the stake bound of one axis expired
(DESIGN CHOICE: R105 hands it to T17, which names no axis; log entry 51). -/
def State.expiryTrip (s : State) (t : TileId) (src : BitVec 16) : State :=
  let tl := s.tile t
  let moving := tl.usedAxes.filter fun a => (tl.ax.get a).moving
  let s1 := if moving.isEmpty then s.tripAtRest t .A src else s.each moving fun s a => s.triadTrip t a src
  s1.onTrips t (tl.leafAxes.map fun a => { axis := a, sources := src, zone := (tl.ax.get a).mo.zone })

/-! ### The end of isolation (R146) -/

/-- The ISOLATED parts that run are stopped as isolation ends, and the lock that LS0_ON_CHECK energised goes off (R102, R146). -/
def State.isolatedPartsEnd (s : State) (t : TileId) : State :=
  let run := fun (i : Fin 8) => (s.tile t).door.parts[i].running
  let s0 := s.modLink t fun l => { l with gateTest := false }
  let s1 := if run 5 then s0.setLock t false else s0
  s1.modDoor t fun d => ([5, 6, 7] : List (Fin 8)).foldl (fun d i => if run i then d.partResult i 5 0 else d) d

end Sys2Proof.Machine
end

