-- ==== Sys2Proof/Machine/Evaluate.lean ====
section
/-!
DEFINITION. One doorway evaluation (R38): what it does before the choice of a transition, the calibration cycle, the choice
by priority, the door and axis commands (R43, R325, R326), and the SRA contact (R182).
-/

namespace Sys2Proof.Machine

/-! ### Before the choice -/

/-- The data field of a stake event (R95). -/
def StakeAct.data (a : StakeAct) : List Byte :=
  leBytes 1 a.axis.num ++ leBytes 1 a.dir.num ++ leBytes 1 a.index ++ [0] ++ leInt 4 a.pos ++ leBytes 4 a.ts.toNat

/-- A trip that the triad itself finds on an axis with the source STAKE (R103, R104, R121): in a state of T13, T17 or T27 the axis
makes a trip stop and its trip is reported; a trip of that axis that is still to be reported or recorded takes the further source
bit, one trip with both (R131). In every other state nothing follows. -/
def State.stakeTrip (s : State) (t : TileId) (a : AxisId) : State :=
  let tl := s.tile t
  let st := tl.door.st
  if !(st == .opening || st == .closing || st == .reversing || st == .nudging) then s
  else
    let s1 := s.triadTrip t a srcStake
    if tl.door.trips.any (·.axis == a) then
      (s1.modMo t a fun m => m.joinTail srcStake).modDoor t fun d =>
        { d with trips := d.trips.map fun r => if r.axis == a then { r with sources := r.sources ||| srcStake } else r }
    else
      let s2 := if (tl.ax.get a).stoppable then s1 else s1.tripAtRest t a srcStake
      s2.modDoor t fun d => { d with trips := d.trips ++ [{ axis := a, sources := srcStake, zone := (tl.ax.get a).mo.zone }] }

/-- A doorway action of a stake (R95, R101, R103, R104). -/
def State.applyStakeAct (s : State) (t : TileId) (a : StakeAct) : State :=
  let tl := s.tile t
  match a.kind with
  | 0 => if tl.door.st == .faultSafe || tl.door.st == .isolated then s else s.setOutputs16 t a.mask a.val
  | 1 => s.modDoor t fun d => { d with lockWindow := true }
  | 2 =>
    let ok := match a.dir with
      | .opening => tl.stepDeployed
      | .closing => tl.stepStowed
    if ok then s
    else
      let s1 := s.raise t 0x11 (a.data ++ leInt 4 tl.ax.c.fb.pos)
      if tl.stake a.axis a.dir a.index 8 = 1 then s1.stakeTrip t a.axis else s1
  | _ => s.raise t 0x10 a.data

/-- The doorway actions of fired stakes, axis by axis and in firing order (R101). -/
def State.applyStakeActs (s : State) (t : TileId) : State :=
  let acts := (s.tile t).door.stakeActs
  let s1 := s.modDoor t fun d => { d with stakeActs := [] }
  AxisId.all.foldl (fun s a => (acts.filter (·.axis == a)).foldl (fun s x => s.applyStakeAct t x) s) s1

/-- Lock-early (R104): the lock reads proven during a pass of a leaf that began in CLOSING or NUDGING, with the lock window
closed; a trip of axis A. -/
def State.lockEarly (s : State) (t : TileId) : State :=
  let tl := s.tile t
  let inPass := tl.leafAxes.any fun a =>
    (tl.ax.get a).pa.active && ((tl.ax.get a).pa.door == .closing || (tl.ax.get a).pa.door == .nudging)
  if (tl.door.st == .closing || tl.door.st == .nudging) && inPass && tl.lockProven && !tl.door.lockWindow then
    (s.raise t 0x12 (leBytes 1 0 ++ leBytes 1 1 ++ leBytes 1 0xFF ++ [0] ++ leInt 4 tl.ax.a.fb.pos ++
      leBytes 4 s.ts.toNat)).stakeTrip t .A
  else s

/-- A set panel flag that arrived since the last evaluation, in CLOSING or NUDGING: the trip pairs of all moving axes, and a
trip on any path (R117, R131); with no moving axis, in the warning dwell, it is reported on axis A (DESIGN CHOICE: R117 names no
axis for it; log entry 51). -/
def State.panelTrip (s : State) (t : TileId) : State :=
  let tl := s.tile t
  if (tl.door.st == .closing || tl.door.st == .nudging) && tl.door.panelNew && tl.door.panelFlag then
    let moving := tl.usedAxes.filter fun a => (tl.ax.get a).moving
    let s1 := if moving.isEmpty then s.tripAtRest t .A srcPanel else s.each moving fun s a => s.triadTrip t a srcPanel
    let rs : List TripReport := if moving.isEmpty then [{ axis := .A, sources := srcPanel, zone := 0 }] else
      moving.map fun a => { axis := a, sources := srcPanel, zone := (tl.ax.get a).mo.zone }
    s1.modDoor t fun d => { d with trips := d.trips ++ rs }
  else s

/-- A new fault code is latched until an edge reset, with its fault event (R195). -/
def State.latchFault (s : State) (t : TileId) (code : Nat) : State :=
  let s1 := s.modDoor t fun d =>
    { d with latched := if d.latched.contains code then d.latched else d.latched ++ [code] }
  if (s.tile t).door.pendingSeen.contains code then s1
  else (s1.raise t 0x60 (leBytes 1 code ++ leBytes 1 (bit (untilReset code)))).modDoor t fun d =>
    { d with pendingSeen := d.pendingSeen ++ [code] }

/-- The faults judged in an evaluation (R195): 0x06 is latched when the leaf-closed pair is lost outside a calibration cycle or
recovery close, an expired bound of a
calibration run latches 0x0B (R140, R142), an expired duplex limit latches 0x0C once no axis moves (R232); every newly
pending code raises its event; a fault in ISOLATED is recorded and kept (R41). -/
def State.judgeFaults (s : State) (t : TileId) : State :=
  let tl := s.tile t
  let d := tl.door
  let leafLost := d.leafSeen && !tl.leafProven && (d.st == .locked || d.st == .released || d.st == .unreferenced) &&
    !d.egress && d.homing.isNone && !d.calRunning && !d.recovering
  let s1 := if leafLost then s.latchFault t 0x06 else s
  let calLock := d.tLock.isExpired && (d.calRunning || d.recovering)
  let s2 := if calLock || d.calEndMax.isExpired then s1.latchFault t 0x0B else s1
  let still := tl.usedAxes.all fun a => !(tl.ax.get a).moving
  let s3 := if d.duplexDue && still then
      ((s2.raise t 0x73 (leBytes 1 5)).latchFault t 0x0C).modDoor t fun d => { d with duplexDue := false }
    else s2
  let now := s3.faults t
  let fresh := now.filter fun c => !(s3.tile t).door.pendingSeen.contains c
  let s4 := fresh.foldl (fun s c => s.raise t 0x60 (leBytes 1 c ++ leBytes 1 (bit (untilReset c)))) s3
  s4.modDoor t fun d => { d with pendingSeen := now, isoFaults := if d.st == .isolated then now else d.isoFaults }

/-- The events of damaged egress and isolation pairs (R190, R191), and an activation of the handle that unlocks nothing, a new one
while egress is latched among them: it raises egress-pending and stays pending until the rule permits it or the handle returns (R40,
R190). A new activation that is permitted while egress is latched is entered in the log. -/
def State.pairEvents (s : State) (t : TileId) : State :=
  let tl := s.tile t
  let bad : PairStatus → Bool := fun p => p == .discrepant || p == .fault
  let eb := bad tl.link.up.pEgress
  let ib := bad tl.link.up.pIso
  let s1 := if eb && !tl.door.egrFaultSeen then s.raise t 0x63 (leBytes 1 tl.link.up.pEgress.code) else s
  let s2 := if ib && !tl.door.isoFaultSeen then s1.raise t 0x64 (leBytes 1 tl.link.up.pIso.code) else s1
  let act := tl.egressActive
  let nowhere := tl.door.st == .isolated || tl.door.st == .faultSafe
  let fresh := act && !tl.door.egressPend && (!tl.door.egress || !tl.door.egressSeen)
  let data := leBytes 1 (tl.parN 0x87 1)
  let s3 :=
    if fresh && !nowhere && !tl.egressPermits then s2.raise t 0x08 data
    else if fresh && (nowhere || tl.door.egress) then s2.logEvent t (s2.eventId (some t) 0x08) s2.ts data
    else s2
  s3.modDoor t fun d =>
    { d with egrFaultSeen := eb, isoFaultSeen := ib,
             egressPend := act && (d.egressPend || (fresh && (nowhere || !tl.egressPermits))) }

/-! ### Calibration (R139 to R142) -/

/-- The conditions under which a FULL request becomes ready and a PERMIT is accepted (R139), selftest aside. -/
def Tile.calCanRun (tl : Tile) : Bool :=
  tl.door.st == .locked && !tl.releaseValid && tl.zeroValid &&
  (match tl.door.shadow with
    | .collecting _ => false
    | _ => true) &&
  !(tl.door.parts.toList.any (·.running))

/-- Every condition of R139, cal_allow among them. -/
def Tile.calConditions (tl : Tile) : Bool := tl.calCanRun && tl.par 0x09 7 == 1

/-- A queued FULL request becomes ready (R139). -/
def State.calReady (s : State) (t : TileId) : State :=
  let tl := s.tile t
  match tl.door.cal with
  | .queued =>
    if tl.calConditions then
      (s.modDoor t fun d => { d with cal := .ready 0, calPermitMax := .running (1000 * tl.parN 0x0A 1) }).raise t 0x2C []
    else s
  | _ => s

/-- The check of R119 that follows a forcing: step 2, 5, 7 or 9. -/
def proofStep (phase : Fin 6) : Nat :=
  match phase with
  | 1 => 2
  | 2 => 5
  | 3 => 7
  | _ => 9

/-- The trip-fabric proof test starts on every used axis: the pairs are deasserted, the next down-frame carries a clear, and wire 1 of each
pair is asserted, whose level the field die takes after that clear (R119). -/
def State.proofStart (s : State) (t : TileId) : State :=
  (s.each (s.tile t).usedAxes fun s a => (s.releasePair t a).modMo t a fun m => { m with wire := 1 }).modDoor t fun d =>
    { d with proofRun := true, proofDue := false, proofSelf := false, proofPhase := 1, proofBad := none }

/-- The steps of a calibration cycle or of a recovery close in an evaluation (R140, R142). -/
def State.calProgress (s : State) (t : TileId) : State :=
  let tl := s.tile t
  let d := tl.door
  let still := tl.usedAxes.all fun a => !(tl.ax.get a).moving
  let shut := tl.leafAxes.all tl.inClosed && tl.leafProven && tl.stepStowed
  let close := fun (s : State) (cal : CalState) (set : LimitSet) =>
    (s.startClosing t .calibration set).modDoor t fun d => { d with cal := cal, tWarn := .idle }
  let rest := fun (s : State) (cal : CalState) =>
    let s1 := s.each tl.usedAxes fun s a => s.endPass t a true
    ((s1.brakeAll t).setBuzzer t false).modDoor t fun d =>
      { d with cal := cal, tCloseMax := .idle, tLock := .running (tl.parN 0x02 4) }
  match d.cal with
  | .cycle n 1 c =>
    if tl.lockReleased then
      (s.startOpening t .calibration).modDoor t fun d => { d with cal := .cycle n 2 c, tUnlock := .idle }
    else s
  | .cycle n 2 c =>
    if tl.leafAxes.all fun a => !tl.inClosed a then (s.setLock t false).modDoor t fun d => { d with cal := .cycle n 3 c }
    else s
  | .cycle n 3 c =>
    if tl.leafAxes.all tl.inOpen && tl.stepDeployed && still then
      (s.brakeAll t).modDoor t fun d => { d with cal := .cycle n 4 c, tOpenMax := .idle, calRest := .running 1000 }
    else s
  | .cycle n 4 c =>
    if d.calRest.isExpired then
      (s.setBuzzer t true).modDoor t fun d =>
        { d with cal := .cycle n 5 c, calRest := .idle, tWarn := .running (tl.parN 0x02 2) }
    else s
  | .cycle n 5 c => if d.tWarn.isExpired then close s (.cycle n 6 c) .close else s
  | .cycle n 6 c => if shut then rest s (.cycle n 7 c) else s
  | .cycle n 7 c =>
    if tl.lockProven && !d.tLock.isExpired then
      (s.modDoor t fun d => { d with cal := .cycle n 8 c, tLock := .idle }).proofStart t
    else s
  | .aborted true 5 => if d.tWarn.isExpired then close s (.aborted true 6) .nudge else s
  | .aborted true 6 => if shut then rest s (.aborted true 7) else s
  | .aborted true 7 =>
    if tl.lockProven && !d.tLock.isExpired then
      (s.modDoor t fun d => { d with cal := .aborted true 8, tLock := .idle }).proofStart t
    else s
  | _ => s

/-- An abort of a running cycle by the loss of its conditions: release valid or zero speed lost (R142). The axes stop and
the cycle closes as in steps 5 to 8, its data discarded; in step 8 the doorway is closed and locked, and its proof test ends the
run. -/
def State.calRelease (s : State) (t : TileId) : State :=
  let tl := s.tile t
  match tl.door.cal with
  | .cycle n k _ =>
    if (tl.releaseValid || !tl.zeroValid) && !tl.door.calEndMax.isRunning then
      let bound := Bound.running (1000 * tl.parN 0x0A 2)
      let s1 := if k = 8 then s.modDoor t fun d => { d with cal := .cycle n 8 true, calEndMax := bound } else
        (((s.stopAll t).setLock t false).setBuzzer t true).modDoor t fun d =>
        { d with cal := .cycle n 5 true, tUnlock := .idle, tOpenMax := .idle, tCloseMax := .idle, tLock := .idle, calRest := .idle,
                 tStepMax := .idle, firstWait := none,
                 tWarn := .running (tl.parN 0x02 2), calEndMax := bound }
      s1.raise t 0x2F (leBytes 1 2)
    else s
  | _ => s

/-- An expired t_unlock in step 1, or an expired stroke bound in a cycle (R140). -/
def State.calExpiry (s : State) (t : TileId) : State :=
  let tl := s.tile t
  let d := tl.door
  if d.st != .locked then s
  else
    match d.cal with
    | .cycle _ 1 _ =>
      if d.tUnlock.isExpired then
        ((s.setLock t false).modDoor t fun d => { d with cal := .idle, tUnlock := .idle, calEndMax := .idle }).raise t 0x2F
          (leBytes 1 7)
      else s
    | .cycle _ _ _ =>
      if d.tOpenMax.isExpired || d.tCloseMax.isExpired || d.tStepMax.isExpired then s.expiryTrip t srcBound else s
    | .aborted true _ => if d.tCloseMax.isExpired || d.tStepMax.isExpired then s.expiryTrip t srcBound else s
    | _ => s

/-- The doorway keeps LOCKED for a calibration cycle or an aborted run (R140, R142). -/
def Doorway.calHolds (d : Doorway) : Bool :=
  match d.cal with
  | .cycle _ _ _ => true
  | .aborted _ _ => true
  | _ => false

/-! ### The choice of a transition (R38) -/

/-- A failed proof test recorded: its event and fault 0x11 (R119, R195). -/
def State.proofFault (s : State) (t : TileId) : State :=
  match (s.tile t).door.proofFailed with
  | none => s
  | some (a, step) =>
    ((s.modDoor t fun d => { d with proofFailed := none }).raise t 0x61 (leBytes 1 a.num ++ leBytes 1 step)).latchFault t
      0x11

/-- The commanding source of what the evaluation carries out (R39, R344). -/
def State.by_ (s : State) (t : TileId) (src : Source) : State := s.modDoor t fun d => { d with by_ := src }

/-- T21, T23, T28 and T37, in the order of R38 row 1. -/
def State.evalFault (s : State) (t : TileId) : Option State :=
  let tl := s.tile t
  let d := tl.door
  if !(s.faults t).isEmpty && d.st != .isolated && d.st != .faultSafe then some ((s.proofFault t).enterFaultSafe t 37)
  else if d.st == .closedUnlocked && d.tLock.isExpired then
    some (((s.raise t 0x05 []).latchFault t 0x10).enterFaultSafe t 21)
  else
    match d.proofFailed with
    | some _ => some ((s.proofFault t).enterFaultSafe t 23)
    | none =>
      if (d.st == .locked || d.st == .released) && d.lockSeen && !tl.lockProven && !d.calHolds then
        some (((s.raise t 0x06 []).latchFault t 0x12).enterFaultSafe t 28)
      else none

/-- Emergency egress (T35, T36). Latched, it is taken again on a new activation of the handle, and while the handle stands
active in a state that is neither OPENING nor OPEN (DEDUCED from R38 and R39, whose trigger is the active pair; log entry 51). -/
def State.evalEgress (s : State) (t : TileId) : Option State :=
  let tl := s.tile t
  let st := tl.door.st
  let afresh := !tl.door.egress || !tl.door.egressSeen || tl.door.egressPend ||
    !(st == .opening || st == .openSt || st == .unreferenced)
  if tl.egressActive && tl.egressPermits && afresh && st != .isolated && st != .faultSafe then
    some (if st == .unreferenced then (s.by_ t .switch).egressFree t else (s.by_ t .switch).egressOpen t)
  else none

/-- Trips and expired bounds (R38 row 5). -/
def State.evalTripOrBound (s : State) (t : TileId) : Option State :=
  let tl := s.tile t
  let d := tl.door
  let st := d.st
  let drop := fun (s : State) => s.modDoor t fun d => { d with trips := [], stakeExpired := [] }
  match d.homing, d.trips with
  | some _, _ :: _ => some ((drop s).homeTrips t d.trips)
  | _, _ =>
  match tl.homeFailure with
  | some (c, a) => some ((drop s).homeFail t c a)
  | none =>
  if !d.trips.isEmpty && (st == .closing || st == .opening || st == .reversing || st == .nudging) then some (s.onTrips t d.trips)
  else if !d.stakeExpired.isEmpty && st == .opening then some ((drop s).openFailed t)
  else if !d.stakeExpired.isEmpty && (st == .closing || st == .reversing) then some ((drop s).expiryTrip t srcStake)
  else if !d.stakeExpired.isEmpty && st == .nudging then some ((drop s).nudgeFailed t 2)
  else if st == .opening && d.tUnlock.isExpired && !d.egress then
    some ((((s.setLock t false).raise t 0x02 []).transition t 8 .released).brakeAll t)
  else if st == .opening && d.tUnlock.isExpired then
    some (((s.raise t 0x02 []).transition t 29 .opening).modDoor t fun d => { d with tUnlock := .idle })
  else if st == .opening && (d.tOpenMax.isExpired || d.tStepMax.isExpired) then some (s.openFailed t)
  else if st == .closing && (d.tCloseMax.isExpired || d.tStepMax.isExpired) then some (s.expiryTrip t srcBound)
  else if st == .nudging && d.tNudgeMax.isExpired then some (s.nudgeFailed t 2)
  else if st == .nudging && d.nudgeWait && d.tBrakeMax.isExpired && tl.usedAxes.any tl.fabricStuck then
    some (s.nudgeFailed t 1)
  else if st == .nudging && !d.refused.isEmpty then some (s.nudgeFailed t 1)
  else if st == .reversing && d.tRevMax.isExpired then some (s.reversalFailed t 2)
  else if st == .reversing && !d.refused.isEmpty then some (s.reversalFailed t 1)
  else if st == .reversing && d.tBrakeMax.isExpired &&
      (tl.usedAxes.any fun a => (tl.ax.get a).waitsReversal && tl.fabricStuck a) then some (s.reversalFailed t 1)
  else if st == .openSt && d.tOpenDwell.isExpired && !d.egress then
    some ((s.modDoor t fun d => { d with srcClose := .tile }).closeDemand t 14)
  else if st == .closing && d.tWarn.isExpired then
    some (((s.transition t 15 .closing).modDoor t fun d => { d with tWarn := .idle }).startClosing t)
  else if st == .held && d.tDwell.isExpired then
    match d.yieldFrom with
    | some (fromClosing, cAlone) =>
      if fromClosing && tl.par 0x82 7 d.tripZone.val == 1 then some ((s.transition t 25 .closing).startClosing t)
      else some (s.enterReversing t 25 d.tripZone fromClosing cAlone)
    | none => none
  else none

/-- The standing loss of release or zero speed (R37, R38 row 6). It stands while release is not valid, also where release never was
valid since start-up, so a HELD chosen there closes by T26 at once (DESIGN CHOICE: R37 speaks of a withdrawal or a loss; log
entry 51). -/
def State.evalLoss (s : State) (t : TileId) : Option State :=
  let tl := s.tile t
  let d := tl.door
  let tr := fun (s : State) => (s.by_ t .trainLine).modDoor t fun d => { d with srcClose := .trainLine }
  if tl.releaseValid then none
  else if d.st == .released then some ((s.by_ t .trainLine).transition t 6 .locked)
  else if (d.st == .opening || d.st == .openSt) && !d.egress then some ((tr s).closeDemand t 11)
  else if d.st == .held && !d.egress then some ((tr s).closeDemand t 26)
  else none

/-- The reversal has reached its targets (T24, R124); a contact stop that counts as deployed counts here too (log entry 51). -/
def Tile.reversalDone (tl : Tile) : Bool :=
  (tl.usedAxes.all fun a =>
    let x := tl.ax.get a
    x.mo.revTarget.isNone || (x.mo.revStarted && !x.moving)) &&
  (match tl.door.revKind with
    | some (true, _) => !(tl.leafAxes.all fun a => (tl.ax.get a).mo.revTarget == some (tl.travel a)) || tl.stepDeployed
    | _ => true)

/-- T24: OPEN when the target is open, else HELD. -/
def State.reversalEnd (s : State) (t : TileId) : State :=
  let tl := s.tile t
  let open_ := (match tl.door.revKind with
      | some (true, _) => true
      | _ => false) && tl.leafAxes.all fun a => (tl.ax.get a).mo.revTarget == some (tl.travel a)
  if open_ then s.openReached t 24 else (s.transition t 24 .held).holdAll t

/-- T34 (R42, R68, R146): a run in ISOLATED fails with cause 9, running ISOLATED self-test parts are aborted. A jog under way makes
the controlled stop that R68 gives for a run (DEDUCED; log entry 51), and its bridge goes to BRAKE at rest (R74). -/
def State.leaveIsolated (s : State) (t : TileId) : State :=
  let s1 := (((s.homeFail t 9 none).stopAll t).isolatedPartsEnd t).selftestFinish t
  let s2 := (s1.by_ t .switch).modDoor t fun d => { d with isolatedLeft := true }
  s2.enterChosen t 34 (s2.chooseState t false)

/-- An edge reset delivered to a tile in FAULT_SAFE (R195, R198, R200): faults whose cause is gone are cleared; with none
pending T38 is taken, else reset-refused is raised. -/
def State.edgeResetTile (s : State) (t : TileId) : State :=
  let s1 := (s.by_ t .switch).modDoor t fun d =>
    { d with edgeReset := false, isoFaults := [], latched := d.latched.filter fun c => !s.causeGone t c }
  let codes := s1.faults t
  let s2 := s1.modDoor t fun d => { d with pendingSeen := codes }
  if codes.isEmpty then s2.enterChosen t 38 (s2.chooseState t false)
  else s2.raise t 0x65 (leBytes 1 codes.length ++ (codes.take 15).flatMap (leBytes 1))

/-- The remaining triggers (R38 row 7). T02's standing trigger is not taken while egress is latched, whose LS0 and free bridges
it would take away (DESIGN CHOICE: R39 does not name egress there; log entry 51). A running DWELL part holds T01 back (R146). -/
def State.evalOther (s : State) (t : TileId) : Option State :=
  let tl := s.tile t
  let d := tl.door
  let st := d.st
  let still := tl.usedAxes.all fun a => !(tl.ax.get a).moving
  let openDem := (!d.demSedgeOpen.isEmpty || d.demPanelOpen || d.demAutoOpen) && tl.releaseValid
  let src := if d.demPanelOpen then Source.panel else if !d.demSedgeOpen.isEmpty then Source.sedge else Source.tile
  let so := fun (s : State) => (s.by_ t src).modDoor t fun d => { d with srcOpen := src }
  let sc := fun (s : State) => (s.by_ t .sedge).modDoor t fun d => { d with srcClose := .sedge }
  let outside := tl.leafAxes.any fun a => !tl.inClosed a
  let dwell := d.parts[3].running || d.parts[4].running
  if st == .locked && tl.releaseValid && tl.allReferenced && !d.proofRun && !d.proofOld && !d.calHolds && !dwell then
    some ((s.by_ t (if tl.par 0x92 0 = 0 then .trainLine else .host)).transition t 1 .released)
  else if st == .unreferenced && tl.releaseValid && !d.homeFailed && d.homing.isNone && !d.egress &&
      ((tl.leafProven && tl.lockProven) || d.isolatedLeft) then
    some (((s.by_ t .trainLine).transition t 2 .unreferenced).homeStart t false)
  else if tl.homeDone then some (s.homeComplete t)
  else if st == .opening && tl.lockReleased && d.tOpenMax == .idle && d.firstWait.isNone then
    some (((s.transition t 7 .opening).modDoor t fun d => { d with tUnlock := .idle }).startOpening t)
  else if st == .opening && tl.leafAxes.all tl.inOpen && (tl.leafAxes.all fun a => !(tl.ax.get a).moving) &&
      tl.stepDeployed then some (s.openReached t 9)
  else if (st == .closing || st == .nudging) && tl.leafAxes.all tl.inClosed && tl.leafProven && tl.stepStowed then
    some (s.closedReached t)
  else if st == .closedUnlocked && tl.lockProven then some (s.transition t 20 .locked)
  else if st == .closedUnlocked && !tl.leafProven && d.leafSeen then
    some ((((s.countObstruction t).transition t 22 .closing).startClosing t).driveAll t)
  else if st == .reversing && still && tl.reversalDone then some (s.reversalEnd t)
  else if st == .isolated && tl.link.up.pIso == .inactive then some (s.leaveIsolated t)
  else if st == .faultSafe && d.edgeReset then some (s.edgeResetTile t)
  else if st == .released && openDem && tl.lockProven && !d.proofRun then some ((so s).openFromReleased t)
  else if (st == .closing || st == .nudging || st == .held) && openDem && outside then some ((so s).reopen t)
  else if !d.demSedgeClose.isEmpty && !d.egress && (st == .opening || st == .openSt) then some ((sc s).closeDemand t 11)
  else if !d.demSedgeClose.isEmpty && !d.egress && st == .held then some ((sc s).closeDemand t 26)
  else none

/-! ### Door and axis commands (R43, R73, R74, R325, R326) -/

/-- The opcode of a door or axis command (R321). -/
def DoorCmd.opcode : DoorCmd → Nat
  | .openDoor => 0x21
  | .closeDoor => 0x22
  | .hold => 0x23
  | .nudge => 0x29
  | .stepDeploy => 0x25
  | .stepStow => 0x26
  | .axisHome _ => 0x27
  | .axisJog _ _ => 0x28

/-- A door or axis command refused (R323, R326). -/
def State.doorRefuse (s : State) (t : TileId) (h : HostCmd) (op status detail : Nat) : State :=
  s.complete h op status detail (s.doorResult t 0)

/-- A door or axis command accepted, with the transition it took or 0 (R326). -/
def State.doorAccept (s : State) (t : TileId) (h : HostCmd) (op tno : Nat) : State :=
  s.complete h op 0 0 (s.doorResult t tno)

/-- A door or axis command accepted with an effect: its completion, which holds the state that the effect leads to, stands
before every record that the effect causes (R307, R326). -/
def State.acceptWith (s : State) (t : TileId) (h : HostCmd) (op tno : Nat) (f : State → State) : State :=
  f (s.complete h op 0 0 ((f s).doorResult t tno))

/-- DOOR_OPEN. -/
def State.cmdOpen (s : State) (t : TileId) (h : HostCmd) : State :=
  let tl := s.tile t
  let so := fun (s : State) => s.modDoor t fun d => { d with srcOpen := .host }
  match tl.door.st with
  | .released =>
    if !tl.releaseValid then s.doorRefuse t h 0x21 0x11 43
    else if !tl.lockProven then s.doorRefuse t h 0x21 0x10 39
    else s.acceptWith t h 0x21 5 fun s => (so s).openFromReleased t
  | .opening => s.doorAccept t h 0x21 0
  | .openSt => s.doorAccept t h 0x21 0
  | .reversing => s.doorAccept t h 0x21 0
  | .closing => reopenCmd tl so
  | .held => reopenCmd tl so
  | .nudging => reopenCmd tl so
  | _ => s.doorRefuse t h 0x21 0x10 43
where
  /-- T18 by command. -/
  reopenCmd (tl : Tile) (so : State → State) : State :=
    if !(tl.leafAxes.any fun a => !tl.inClosed a) then s.doorRefuse t h 0x21 0x10 39
    else if !tl.releaseValid then s.doorRefuse t h 0x21 0x11 43
    else s.acceptWith t h 0x21 18 fun s => (so s).reopen t

/-- The clearing of the egress latch outside a transition, entered in the log as a doorway state event with no transition number
(DESIGN CHOICE: R40 has the clearing recorded and the catalogue has no event for it; log entry 51). -/
def State.logClearing (s : State) (t : TileId) : State :=
  let st := (s.tile t).door.st
  s.logEvent t (s.eventId (some t) 0x00) s.ts (leBytes 1 st.code ++ leBytes 1 st.code ++ [0, 0] ++ leBytes 4 s.ts.toNat)
    (some (s.tile t).door.by_)

/-- DOOR_CLOSE; accepted with the handle pair inactive, it clears the egress latch in every state (R40). In a calibration cycle it is
accepted with no change, as R43 gives for LOCKED (DESIGN CHOICE: R142 says "refused as R43 gives for LOCKED", where R43 refuses
nothing; log entry 53). -/
def State.cmdClose (s : State) (t : TileId) (h : HostCmd) : State :=
  let tl := s.tile t
  let free := tl.link.up.pEgress == .inactive
  let sc := fun (s : State) => s.modDoor t fun d => { d with egress := false, egressOpening := false, srcClose := .host }
  let late := tl.door.egress && !free
  let same := if late then s.doorRefuse t h 0x22 0x12 40 else if tl.door.egress then
      s.acceptWith t h 0x22 0 fun s => (s.modDoor t fun d => { d with egress := false, egressOpening := false }).logClearing t
    else s.doorAccept t h 0x22 0
  match tl.door.st with
  | .locked => same
  | .closedUnlocked => same
  | .closing => same
  | .nudging => same
  | .opening => if late then s.doorRefuse t h 0x22 0x12 40 else s.acceptWith t h 0x22 11 fun s => (sc s).closeDemand t 11
  | .openSt => if late then s.doorRefuse t h 0x22 0x12 40 else s.acceptWith t h 0x22 11 fun s => (sc s).closeDemand t 11
  | .held => if late then s.doorRefuse t h 0x22 0x12 40 else s.acceptWith t h 0x22 26 fun s => (sc s).closeDemand t 26
  | .unreferenced =>
    if late then s.doorRefuse t h 0x22 0x12 40
    else if tl.door.egress then
      s.acceptWith t h 0x22 0 fun s =>
        let s1 := (s.modDoor t fun d => { d with egress := false, egressOpening := false }).logClearing t
        (s1.setLock t false).each AxisId.all fun s a => s.modMo t a fun m => { m with bridge := .brake }
    else s.doorRefuse t h 0x22 0x10 43
  | _ => s.doorRefuse t h 0x22 0x10 43

/-- DOOR_HOLD. -/
def State.cmdHold (s : State) (t : TileId) (h : HostCmd) : State :=
  let go := s.acceptWith t h 0x23 12 fun s => ((s.noneClean t).transition t 12 .held).holdAll t
  match (s.tile t).door.st with
  | .opening => go
  | .openSt => go
  | .closing => go
  | .reversing => go
  | .held => s.doorAccept t h 0x23 0
  | _ => s.doorRefuse t h 0x23 0x10 43

/-- DOOR_NUDGE. -/
def State.cmdNudge (s : State) (t : TileId) (h : HostCmd) : State :=
  let go := s.acceptWith t h 0x29 19 fun s => s.nudge t
  match (s.tile t).door.st with
  | .openSt => go
  | .closing => go
  | .held => go
  | .nudging => s.doorAccept t h 0x29 0
  | _ => s.doorRefuse t h 0x29 0x10 43

/-- A move of axis C by command (R73); it ends the stop of R128. -/
def State.stepMove (s : State) (t : TileId) (d : Dir) : State :=
  (s.modDoor t fun dd => { dd with stepStopped := false }).startStep t .stepCmd d true

/-- STEP_DEPLOY. -/
def State.cmdDeploy (s : State) (t : TileId) (h : HostCmd) : State :=
  let tl := s.tile t
  let go := if tl.stepFitted then s.acceptWith t h 0x25 0 fun s => s.stepMove t .opening
    else s.doorRefuse t h 0x25 0x29 29
  match tl.door.st with
  | .released => go
  | .openSt => go
  | .held => go
  | .opening => if tl.stepFitted then s.doorAccept t h 0x25 0 else s.doorRefuse t h 0x25 0x29 29
  | _ => s.doorRefuse t h 0x25 0x10 43

/-- STEP_STOW. -/
def State.cmdStow (s : State) (t : TileId) (h : HostCmd) : State :=
  let tl := s.tile t
  let same := if tl.stepFitted then s.doorAccept t h 0x26 0 else s.doorRefuse t h 0x26 0x29 29
  let go := if tl.stepFitted then s.acceptWith t h 0x26 0 fun s => s.stepMove t .closing
    else s.doorRefuse t h 0x26 0x29 29
  match tl.door.st with
  | .locked => same
  | .closedUnlocked => same
  | .closing => same
  | .nudging => same
  | .released => go
  | .openSt => go
  | .held => go
  | _ => s.doorRefuse t h 0x26 0x10 43

/-- Maintenance moves are refused in ISOLATED while the fallback image stays applied (R192). -/
def State.isoBlocked (s : State) (t : TileId) : Bool := (s.tile t).link.up.fallback || !(s.faults t).isEmpty

/-- AXIS_HOME: T02 in UNREFERENCED, a run under JOG in ISOLATED; during a run it changes nothing (R68, R69, R326). -/
def State.cmdHome (s : State) (t : TileId) (h : HostCmd) (clear : Bool) : State :=
  let tl := s.tile t
  let sc := fun (s : State) =>
    if clear then s.each tl.usedAxes fun s a => s.modFb t a fun f => { f with suspect := false, chatter := [] } else s
  match tl.door.st with
  | .isolated =>
    if s.isoBlocked t then s.doorRefuse t h 0x27 0x10 192
    else if tl.door.homing.isSome then s.doorAccept t h 0x27 0
    else s.acceptWith t h 0x27 0 fun s => (sc s).homeStart t true
  | .unreferenced =>
    if tl.door.homing.isSome then s.doorAccept t h 0x27 0
    else if (tl.leafProven && tl.lockProven) || tl.door.isolatedLeft then
      s.acceptWith t h 0x27 2 fun s => ((sc s).transition t 2 .unreferenced).homeStart t false
    else s.doorRefuse t h 0x27 0x10 39
  | _ => s.doorRefuse t h 0x27 0x10 43

/-- AXIS_JOG (R74). During a homing run in ISOLATED it completes BUSY, detail 0 (DESIGN CHOICE: no rule names a refusal for it; log
entry 51). -/
def State.cmdJog (s : State) (t : TileId) (h : HostCmd) (a : AxisId) (dist : Int) : State :=
  let tl := s.tile t
  if tl.door.st != .isolated then s.doorRefuse t h 0x28 0x10 43
  else if s.isoBlocked t then s.doorRefuse t h 0x28 0x10 192
  else if dist = 0 ∨ (dist.natAbs : Int) > tl.par 0x11 6 then s.doorRefuse t h 0x28 0x14 74
  else if tl.door.homing.isSome then s.doorRefuse t h 0x28 0x17 0
  else if !tl.used a then s.doorRefuse t h 0x28 0x29 29
  else
    let x := tl.ax.get a
    let tgt := x.fb.pos + dist
    let clipped := if x.fb.referenced then max (-(tl.closedBand a)) (min (tl.travel a + tl.openBand a) tgt) else tgt
    s.acceptWith t h 0x28 0 fun s => s.startMove t a .jog clipped .jog

/-- One door or axis command in an evaluation (R325). -/
def State.doorCommand (s : State) (t : TileId) (h : HostCmd) : DoorCmd → State
  | .openDoor => s.cmdOpen t h
  | .closeDoor => s.cmdClose t h
  | .hold => s.cmdHold t h
  | .nudge => s.cmdNudge t h
  | .stepDeploy => s.cmdDeploy t h
  | .stepStow => s.cmdStow t h
  | .axisHome c => s.cmdHome t h c
  | .axisJog a d => s.cmdJog t h a d

/-- The command at the head of the mailbox (R38 row 8, R325); DOOR_OPEN waits for a proof test in RELEASED (R201). -/
def State.evalCommand (s : State) (t : TileId) : State :=
  let d := (s.tile t).door
  match d.mailbox with
  | [] => s
  | (h, c) :: rest =>
    if d.st == .released && d.proofRun && c == .openDoor then s
    else (s.modDoor t fun d => { d with mailbox := rest, by_ := .host }).doorCommand t h c

/-! ### The end of an evaluation -/

/-- The SRA contact (R182): the proof test whenever rows 1 and 2 come to hold, or when it is due or too old (R201), and the
command by all six rows. -/
def State.sraEval (s : State) (t : TileId) : State :=
  let tl := s.tile t
  let rows := tl.sraRows12
  let came := rows && !tl.door.rows12
  let still := tl.usedAxes.all fun a => !(tl.ax.get a).moving
  let s1 := s.modDoor t fun d =>
    { d with rows12 := rows, proofOk := rows && !came && d.proofOk, proofDue := rows && (came || d.proofDue) }
  let d := (s1.tile t).door
  let old := d.proofOld && ((d.st == .locked && tl.releaseValid) || d.st == .released) && still
  let s2 := if (d.proofDue || old) && !d.proofRun && !tl.link.up.fallback && d.st != .faultSafe then s1.proofStart t else s1
  s2.modDoor t fun d => { d with sraCmd := s2.sraCloses t }

/-- What an evaluation leaves for the next: demands lapse (R37), proofs as now seen, entry to RELEASED with auto_open. "ISOLATED left
earlier" of T02 holds until the doorway leaves UNREFERENCED (DESIGN CHOICE: R39 gives it no end; log entry 51). -/
def State.evalEnd (s : State) (t : TileId) (was : DoorState) : State :=
  let tl := s.tile t
  let s1 := if tl.door.st == .reversing then s else
    s.each AxisId.all fun s a => s.modMo t a fun m => { m with revTarget := none, revStarted := false }
  let wait := tl.door.st == .released && tl.door.proofRun
  s1.modDoor t fun d =>
    { d with
      demSedgeOpen := if wait then d.demSedgeOpen else [], demPanelOpen := wait && d.demPanelOpen, demSedgeClose := []
      demAutoOpen := (wait && d.demAutoOpen) || (d.st == .released && was != .released && tl.par 0x92 1 == 1)
      panelNew := false, edgeReset := false, refused := [], by_ := .tile, egressSeen := tl.egressActive, leafSeen := tl.leafProven, lockSeen := tl.lockProven
      releaseSeen := tl.releaseValid, zeroSeen := tl.zeroValid
      isolatedLeft := d.isolatedLeft && d.st == .unreferenced }

/-- What an evaluation works out before it judges the triggers of R38: the ages and trips, the faults, the progress of a pass, of
homing and of a calibration. -/
def State.evalBefore (s : State) (t : TileId) : State :=
  let tl := s.tile t
  let s0 := if tl.releaseValid && !tl.door.releaseSeen then s.modDoor t fun d => { d with homeFailed := false } else s
  let s1 := (((s0.ageObstructions t).applyStakeActs t).lockEarly t).panelTrip t
  let s2 := ((s1.pairEvents t).bitternSend t).judgeFaults t
  let s3 := (((s2.firstProgress t).reversalProgress t).nudgeProgress t).holdProgress t
  let s4 := (((s3.homeProgress t).calReady t).calRelease t).calExpiry t
  let s5 := s4.calProgress t
  let d := (s5.tile t).door
  let quiet := d.st != .closing && d.st != .opening && d.st != .reversing && d.st != .nudging && d.homing.isNone
  if quiet && (!d.trips.isEmpty || !d.stakeExpired.isEmpty) then s5.onTrips t d.trips else s5

/-- The first of the groups of R38 that applies, in its order. -/
def State.evalChoice (s : State) (t : TileId) : State :=
  (s.evalFault t).getD
    (if (s.tile t).link.up.pIso == .active && (s.tile t).door.st != .isolated then (s.by_ t .switch).isolate t
    else if (s.tile t).door.posLost && (s.tile t).door.homing.isNone && (s.tile t).door.st != .isolated &&
        (s.tile t).door.st != .faultSafe then s.positionGone t
    else (s.evalEgress t).getD ((s.evalTripOrBound t).getD ((s.evalLoss t).getD ((s.evalOther t).getD (s.evalCommand t)))))

/-- The trips that stay pending when another trigger took the evaluation: those whose stop still stands (R38). -/
def Tile.standingTrips (tl : Tile) : List TripReport :=
  tl.door.trips.filter fun r => (tl.ax.get r.axis).pairRaised || (tl.ax.get r.axis).fab.path1 || (tl.ax.get r.axis).fab.path2

/-- One doorway evaluation (R38). It takes at most one transition. A trip that the transition left aside stays pending while it
stands; stake bounds end with any transition (R105). In the hold of R223 the evaluation waits for the commit (R224). -/
def State.evaluate (s : State) (t : TileId) : State :=
  if !(s.tile t).triadActs then s.holdBack t (.doorwayEvaluation t s.now)
  else
    let was := (s.tile t).door.st
    let s7 := (s.evalBefore t).evalChoice t
    let s8 := if (s7.tile t).door.st != was then
        s7.modDoor t fun d => { d with trips := (s7.tile t).standingTrips, stakeExpired := [] } else s7
    (s8.sraEval t).evalEnd t was

end Sys2Proof.Machine
end

