-- ==== Sys2Proof/Machine/FeedbackCmds.lean ====
section
/-!
DEFINITION. The meanings of the position-feedback steps: quadrature, index, Hall, switches, SSI, the direction flag and the
divided output (ch. 4 of the spec).
-/

namespace Sys2Proof.Machine

/-! ### Direction and count -/

/-- The direction event (R91). -/
def State.dirEvent (s : State) (t : TileId) (a : AxisId) : State :=
  let f := (s.axis t a).fb
  s.raiseAt t 0x0E f.dirTs
    (leBytes 1 a.num ++ leBytes 1 (bit f.dirFlag) ++ leBytes 2 f.dirChanges.toNat ++ leInt 4 f.dirTurn ++
      leBytes 4 f.dirTs.toNat) false

/-- The direction flag after the position changed (R91): it turns when the count has moved dir_hyst against it from the
extreme position. The event is held back within 10 ms of the last one. -/
def State.dirUpdate (s : State) (t : TileId) (a : AxisId) : State :=
  let f := (s.axis t a).fb
  let hyst := (s.tile t).parA a 0x08 25
  let turned := if f.dirFlag then decide (f.pos ≤ f.dirExtreme - hyst) else decide (f.pos ≥ f.dirExtreme + hyst)
  if turned then
    let s1 := s.modFb t a fun f =>
      { f with dirFlag := !f.dirFlag, dirTurn := f.dirExtreme, dirTs := s.ts, dirExtreme := f.pos,
               dirChanges := f.dirChanges + 1, dirPending := f.dirHoldoff, dirHoldoff := true }
    if f.dirHoldoff then s1 else s1.dirEvent t a
  else s.modFb t a fun f =>
    { f with dirExtreme := if f.dirFlag then max f.dirExtreme f.pos else min f.dirExtreme f.pos }

/-- u set to 0 (R81, R87, R88); cause 2 has cleared with it. -/
def State.uClear (s : State) (t : TileId) (a : AxisId) : State :=
  (s.modFb t a fun f => { f with u := 0 }).causeCleared t a 2

/-- u raised; above u_max the position is lost with cause 2 (R89). -/
def State.uRaise (s : State) (t : TileId) (a : AxisId) (n : Nat) : State :=
  let s1 := s.modFb t a fun f => { f with u := f.u + n }
  if decide (((s1.axis t a).fb.u : Int) > (s.tile t).parA a 0x08 3) then s1.positionLost t a 2 else s1

/-- A cause that arises afresh at its step: raised even where it was raised before and has gone since (R90). -/
def State.newLoss (s : State) (t : TileId) (a : AxisId) (cause : Nat) : State :=
  (s.causeCleared t a cause).positionLost t a cause

/-! ### The divided output (R92) -/

/-- One quadrature edge on the outputs, in a direction; A leads B towards open. -/
def State.encoEdge (s : State) (t : TileId) (up : Bool) : State :=
  let tl := s.tile t
  let (a, b) := if up then (!tl.encoB, tl.encoA) else (tl.encoB, !tl.encoA)
  (s.modTile t fun tl => { tl with encoA := a, encoB := b, encoAt := some s.now }).emit (.enco t a b)

/-- The source axis of the divided output has a quadrature input; without one both outputs are held low (R92). -/
def Tile.encoLive (tl : Tile) : Bool :=
  match tl.encoSrc with
  | some a => tl.used a && tl.parA a 0x08 0 != 0
  | none => false

/-- The outputs held low, with what was queued dropped. -/
def State.encoLow (s : State) (t : TileId) : State :=
  let tl := s.tile t
  let s1 := s.modTile t fun tl => { tl with encoA := false, encoB := false, encoQueue := [], encoAt := none }
  if tl.encoA || tl.encoB then s1.emit (.enco t false false) else s1

/-- The set-up of the divided output (R92): n and m from 1 to 65 535 with n ≤ m, else the set-up is refused whole (R7); a change
clears the accumulator, and a source without quadrature holds the outputs low. CFG_WRITE writes it (log entry 19). -/
def State.setEnco (s : State) (t : TileId) (src : Option AxisId) (n m : Nat) : State :=
  let tl := s.tile t
  if n < 1 ∨ n > m ∨ m > 65535 then s
  else if tl.encoSrc == src && tl.encoN == n && tl.encoM == m then s
  else
    let s1 := s.modTile t fun tl => { tl with encoSrc := src, encoN := n, encoM := m, encoAcc := 0 }
    if (s1.tile t).encoLive then s1 else s1.encoLow t

/-- A counted input edge of the source axis: the accumulator, and an output edge when it is full; an edge that falls due
within 50 ns of the last is queued. -/
def State.encoCount (s : State) (t : TileId) (a : AxisId) (up : Bool) : State :=
  let tl := s.tile t
  if tl.encoSrc != some a || !tl.encoLive then s
  else
    let acc := tl.encoAcc + (if up then (tl.encoN : Int) else -tl.encoN)
    let full := decide (acc ≥ tl.encoM) || decide (acc ≤ -(tl.encoM : Int))
    let acc' := if decide (acc ≥ tl.encoM) then acc - tl.encoM
      else if decide (acc ≤ -(tl.encoM : Int)) then acc + tl.encoM else acc
    let s1 := s.modTile t fun tl => { tl with encoAcc := acc' }
    let soon := !tl.encoQueue.isEmpty || (match tl.encoAt with
      | some i => decide (s.now < i + 50)
      | none => false)
    if !full then s1
    else if soon then s1.modTile t fun tl => { tl with encoQueue := tl.encoQueue ++ [up] }
    else s1.encoEdge t up

/-- ENCO_QUEUED_EDGE (R92). -/
def execEncoQueuedEdge (t : TileId) (s : State) : Host.Outcome State Fault Refusal :=
  onTile t s fun s =>
    match (s.tile t).encoQueue with
    | [] => s
    | up :: rest => (s.modTile t fun tl => { tl with encoQueue := rest }).encoEdge t up

/-! ### Quadrature and index -/

/-- The QERR of the last 1 000 samples, the given one among them (R79). -/
def Feedback.qerrRecent (f : Feedback) (sample : Nat) : List Nat :=
  f.qerrWindow.filter fun i => decide (i ≤ sample) && decide (sample < i + 1000)

/-- An encoder fault stands: more than 8 QERR within the window (R79). -/
def Feedback.encoderBad (f : Feedback) : Bool := decide (f.qerrWindow.length > 8)

/-- A double change (R79): QERR and u rise, and the ninth QERR of the window is an encoder fault, raised once while the window stays
over 8 (R90). -/
def State.doubleEdge (s : State) (t : TileId) (a : AxisId) (sample : Nat) : State :=
  let recent := (s.axis t a).fb.qerrRecent sample
  let s1 := (s.modFb t a fun f => { f with qerr := sat32 (f.qerr + 1), qerrWindow := recent ++ [sample] }).notClean t a
  let s2 := s1.uRaise t a 2
  if recent.length > 8 then s2 else if (s2.axis t a).fb.encoderBad then s2.newLoss t a 1 else s2

/-- QUADRATURE_EDGE (R78, R79): one count, or a double change that counts a QERR and raises u by 2. -/
def execQuadratureEdge (t : TileId) (a : AxisId) (e : QuadEdge) (s : State) : Host.Outcome State Fault Refusal :=
  onTile t s fun s =>
    let tl := s.tile t
    if !tl.used a || tl.parA a 0x08 0 = 0 then s
    else
      let inv := tl.parA a 0x08 2 == 1
      let count := fun (up : Bool) =>
        (((s.modFb t a fun f => { f with pos := wrap32 (f.pos + (if up then 1 else -1)) }).dirUpdate t a).encoCount t a up)
      match e with
      | .up => count (!inv)
      | .down => count inv
      | .double n => s.doubleEdge t a n

/-- The whole number k that brings L − (P + k × period) nearest to zero leaves this error (R81); halfway between two index
positions the error is taken positive (DESIGN CHOICE: R81 does not say which k is then taken; log entry 51). -/
def indexError (latched phase period : Int) : Int :=
  let r := (latched - phase) % period
  if 2 * r > period then r - period else r

/-- INDEX_PULSE (R81, R66): a homing run's reference, the index phase, or the index check. -/
def execIndexPulse (t : TileId) (a : AxisId) (s : State) : Host.Outcome State Fault Refusal :=
  onTile t s fun s =>
    let tl := s.tile t
    let x := tl.ax.get a
    let period := tl.parA a 0x08 4
    if !tl.used a || tl.parA a 0x08 0 = 0 then s
    else if x.mo.homeStage == some .index then s.homeIndex t a
    else if period = 0 || !x.fb.referenced then s
    else
      match x.fb.indexPhase with
      | none => s.modFb t a fun f => { f with indexPhase := some f.pos }
      | some p =>
        let e := indexError x.fb.pos p period
        if (e.natAbs : Int) ≤ tl.parA a 0x08 5 then
          (s.modFb t a fun f => { f with indexErr := some e }).causeCleared t a 4
        else s.newLoss t a 4

/-- ENCODER_FAULT (R79): cause 1 while the window holds more than 8 QERR; a fault already raised for it is not raised again (R90). -/
def execEncoderFault (t : TileId) (a : AxisId) (s : State) : Host.Outcome State Fault Refusal :=
  onTile t s fun s =>
    if (s.tile t).parA a 0x08 0 = 0 || !(s.axis t a).fb.encoderBad then s else s.positionLost t a 1

/-- LINE_FAULT (R80): cause 3; an index pair counts only while the index is in use. -/
def execLineFault (t : TileId) (a : AxisId) (p : QuadPair) (s : State) : Host.Outcome State Fault Refusal :=
  onTile t s fun s =>
    let tl := s.tile t
    let inUse := match p with
      | .qi => tl.parA a 0x08 4 != 0 || (tl.ax.get a).mo.homeStage == some .index
      | _ => true
    if tl.parA a 0x08 0 = 0 || !inUse then s else s.newLoss t a 3

/-- DIRECTION_EVENT_HOLDOFF (R91): the 10 ms end, and a pending change is reported. -/
def execDirectionEventHoldoff (t : TileId) (a : AxisId) (s : State) : Host.Outcome State Fault Refusal :=
  onTile t s fun s =>
    let f := (s.axis t a).fb
    if !f.dirHoldoff then s
    else if f.dirPending then (s.modFb t a fun f => { f with dirPending := false }).dirEvent t a
    else s.modFb t a fun f => { f with dirHoldoff := false }

/-! ### Hall sensors (R82, R50) -/

/-- The place of a valid code in its order. -/
def hallPlace (c : BitVec 3) : Option Nat :=
  match c.toNat with
  | 4 => some 0
  | 6 => some 1
  | 2 => some 2
  | 3 => some 3
  | 1 => some 4
  | 5 => some 5
  | _ => none

/-- A transition between valid codes skips one when the places do not follow one another. -/
def hallSkip (old new : BitVec 3) : Bool :=
  match hallPlace old, hallPlace new with
  | some i, some j => (j + 6 - i) % 6 != 1 && (j + 6 - i) % 6 != 5 && i != j
  | _, _ => false

/-- The electrical angle of a Hall edge between two codes, in 1/4 096 of a period: towards open the edge enters the new code's
sector, towards closed it leaves it (R50, R82). -/
def hallEdgeAngle (old new : BitVec 3) : Nat :=
  match hallPlace old, hallPlace new with
  | some i, some j => ((if (j + 6 - i) % 6 ≤ 3 then j else j + 1) * 4096 / 6) % 4096
  | _, some j => j * 4096 / 6
  | _, none => 0

/-- The distance of two electrical angles, in 1/4 096 of a period. -/
def angleDist (a b : Nat) : Nat :=
  let d := (a + 4096 - b % 4096) % 4096
  min d (4096 - d)

/-- HALL_CODE_CHANGE (R82, R50): the first edge of a powered PMSM move fixes the offset; two skips in a row, or an edge
further than hall_tol from the angle that the count gives after that, are a Hall fault. An invalid code, and the return from one to
the code before it, is no edge. -/
def execHallCodeChange (t : TileId) (a : AxisId) (code : BitVec 3) (now : Nat) (s : State) :
    Host.Outcome State Fault Refusal :=
  onTile t s fun s0 =>
    let s := s0.at now
    let tl := s.tile t
    let x := tl.ax.get a
    if !tl.used a || tl.parA a 0x08 6 = 0 then s
    else if (hallPlace code).isNone || code == x.fb.hallLast then s.modFb t a fun f => { f with hallCode := code }
    else
      let skip := hallSkip x.fb.hallLast code
      let edge := hallEdgeAngle x.fb.hallLast code
      let off := match x.mo.elecOff with
        | some o => tl.motor a == 0 && !skip &&
            decide ((angleDist (tl.angleAt a o x.fb.pos) edge * 360 : Nat) > tl.parA a 0x08 7 * 4096)
        | none => false
      let bad := (skip && x.fb.hallSkipped) || off
      let s1 := s.modAxis t a fun x =>
        { x with
          fb := { x.fb with hallCode := code, hallLast := code, hallSkipped := skip,
                            hallSkips := if skip then x.fb.hallSkips + 1 else x.fb.hallSkips }
          mo := if x.mo.elecOff.isNone && tl.motor a == 0 && x.mo.bridge == .driven && !skip then
              { x.mo with elecOff := some (x.fb.pos, edge) } else x.mo }
      if bad then s1.newLoss t a 5 else s1

/-- HALL_INVALID_TIMEOUT (R82): an invalid code that stands for more than 5 µs is a Hall fault. -/
def execHallInvalidTimeout (t : TileId) (a : AxisId) (s : State) : Host.Outcome State Fault Refusal :=
  onTile t s fun s =>
    let tl := s.tile t
    if tl.parA a 0x08 6 = 0 || (hallPlace (tl.ax.get a).fb.hallCode).isSome then s else s.newLoss t a 5

/-! ### Switches (R66, R69, R83) -/

/-- A switch's level in the raw or the debounced set. -/
def swGet (v : PerAxis Bool) : SwitchId → Bool
  | .home => v.a
  | .limC => v.b
  | .limO => v.c
def swSet (v : PerAxis Bool) (sw : SwitchId) (x : Bool) : PerAxis Bool :=
  match sw with
  | .home => { v with a := x }
  | .limC => { v with b := x }
  | .limO => { v with c := x }

/-- The stages of switch_home (R66); a retreat belongs to it while the switch is not suspect. -/
def HomeStage.onSwitch : HomeStage → Bool
  | .leave => true
  | .clear => true
  | .approach => true
  | .stopFirst => true
  | .backoff => true
  | .slow => true
  | .stopSecond => true
  | .retreat => true
  | _ => false

/-- Chatter of the home switch (R69): the mark and its event; a run on the switch turns to the index after a controlled
stop (R66). -/
def State.chatter (s : State) (t : TileId) (a : AxisId) : State :=
  let s1 := (s.modFb t a fun f => { f with suspect := true }).raise t 0x0C (leBytes 1 a.num)
  match (s.axis t a).mo.homeStage with
  | some st =>
    if st.onSwitch && (s.tile t).parA a 0x07 0 == 0 then
      if (s.axis t a).moving then (s1.stopMove t a).setStage t a .chatterStop else s1.indexHome t a
    else s1
  | none => s1

/-- HOME_SWITCH_RAW_EDGE (R66, R69): the raw level of a switch input changes; an edge of HOME latches the count and counts
towards chatter. -/
def execHomeSwitchRawEdge (t : TileId) (a : AxisId) (sw : SwitchId) (level : Bool) (now : Nat) (s : State) :
    Host.Outcome State Fault Refusal :=
  onTile t s fun s0 =>
    let s := s0.at now
    let tl := s.tile t
    let x := tl.ax.get a
    if !tl.used a || swGet x.fb.swRaw sw == level then s
    else
      let s1 := s.modFb t a fun f => { f with swRaw := swSet f.swRaw sw level }
      match sw with
      | .home =>
        let active := level == (tl.parA a 0x08 9 != 0)
        let win := 8 * tl.parAN a 0x08 8 * 1000
        let edges := (x.fb.chatter ++ [now]).filter fun i => decide (now ≤ i + win)
        let s2 := s1.modFb t a fun f =>
          { f with latchActive := if active then f.pos else f.latchActive
                   latchInactive := if active then f.latchInactive else f.pos
                   chatter := edges }
        if edges.length > 4 && !x.fb.suspect then s2.chatter t a else s2
      | _ => s1

/-- SWITCH_DEBOUNCE_EXPIRY (R83): the debounced level takes the raw one. A home edge may end a homing move (R66); a limit that
becomes active trips a move towards it (R59). -/
def execSwitchDebounceExpiry (t : TileId) (a : AxisId) (sw : SwitchId) (s : State) : Host.Outcome State Fault Refusal :=
  onTile t s fun s =>
    let tl := s.tile t
    let x := tl.ax.get a
    let level := swGet x.fb.swRaw sw
    if !tl.used a || swGet x.fb.swLevel sw == level then s
    else
      let s1 := s.modFb t a fun f => { f with swLevel := swSet f.swLevel sw level }
      let active := (s1.axis t a).swActive a sw
      let towards : Dir → Bool := fun d => match x.mo.move with
        | some m => m.dir == d || decide (d.sign * x.mo.profVel > 0)
        | none => false
      match sw with
      | .home => s1.homeEdge t a active
      | .limC => if active then (if towards .closing then s1.engineTrip t a srcLimit else s1) else s1.causeCleared t a 7
      | .limO => if active then (if towards .opening then s1.engineTrip t a srcLimit else s1) else s1.causeCleared t a 7

/-- SWITCH_FAULT (R83): both limits active together: cause 7. -/
def execSwitchFault (t : TileId) (a : AxisId) (s : State) : Host.Outcome State Fault Refusal :=
  onTile t s fun s =>
    let x := s.axis t a
    if x.swActive a .limC && x.swActive a .limO then s.positionLost t a 7 else s

/-! ### The absolute word (R84 to R88) -/

/-- Gray code to binary, over d bits (R86). -/
def grayToBin : Nat → Nat → Nat
  | 0, _ => 0
  | d + 1, g => let hi := grayToBin d (g / 2)
                2 * hi + (if hi % 2 = g % 2 then 0 else 1)

/-- The parity of a number over n bits. -/
def parityOf : Nat → Nat → Nat
  | 0, _ => 0
  | n + 1, v => (v % 2 + parityOf n (v / 2)) % 2

/-- The nearest whole number to a / b; halves go away from zero. -/
def roundDiv (a b : Int) : Int := if a ≥ 0 then (2 * a + b) / (2 * b) else -((-(2 * a) + b) / (2 * b))

/-- A word decoded (R86): its position, and whether its parity and error bit pass. -/
def Tile.ssiDecode (tl : Tile) (a : AxisId) (bits : Nat) : Int × Bool :=
  let len := tl.parAN a 0x08 11
  let err := tl.parAN a 0x08 13
  let par := tl.parAN a 0x08 14
  let pbits := if par = 0 then 0 else 1
  let d := len - err - pbits
  let word := bits / 2 ^ (err + pbits) % 2 ^ d
  let w := if tl.parA a 0x08 12 = 0 then grayToBin d word else word
  let parityOk := par = 0 || decide (parityOf len (bits % 2 ^ len) = (if par = 1 then 0 else 1))
  let errOk := err = 0 || decide (bits / 2 ^ pbits % 2 = 0)
  let diff := signed d (((w : Int) - tl.parA a 0x08 19) % (2 ^ d : Nat)).toNat
  (roundDiv (tl.parA a 0x08 22 * diff * tl.parA a 0x08 20) (tl.parA a 0x08 21), parityOk && errOk)

/-- The SSI fault of R87 stands: 3 words discarded in a row, or more than 8 of the last 1 000. -/
def Feedback.ssiBad (f : Feedback) : Bool := decide (f.ssiRun ≥ 3) || decide (f.ssiWindow.count true > 8)

/-- An accepted word (R87, R88): u is 0; the word that sets the count in a homing run is not itself cross-checked, since the count that
it would be compared with has no reference yet (DESIGN CHOICE: R87 compares each accepted word and R88 lets that word set the count;
log entry 52); it is the position of an axis without quadrature, the cross-check of one with it, and
the reference of a homing run with home_source ABSOLUTE. `latched` is the count latched at the same instant, `at_` the instant of
that latch edge. -/
def State.ssiAccept (s : State) (t : TileId) (a : AxisId) (pos latched : Int) (at_ : Nat) : State :=
  let tl := s.tile t
  let x := tl.ax.get a
  let quad := tl.parA a 0x08 0 != 0
  let homing := x.mo.homeStage == some .absolute
  let s1 := (s.modFb t a fun f =>
    { f with ssiLast := some pos, ssiRun := 0, ssiWindow := (false :: f.ssiWindow).take 1000, ssiLastAt := at_ }).uClear t a
  let far := decide (((pos - latched).natAbs : Int) > tl.parA a 0x08 24)
  if quad && far && !homing then s1.positionLost t a 6
  else
    let s2 := if (s1.axis t a).fb.ssiBad then s1 else s1.causeCleared t a 6
    let s3 := if !quad then (s2.modFb t a fun f => { f with pos := wrap32 pos }).dirUpdate t a
      else if homing then (s2.moveCount t a (pos - latched)).modFb t a fun f =>
        { f with pos := wrap32 (f.pos + (pos - latched)), dirExtreme := f.dirExtreme + (pos - latched) }
      else s2
    if homing then (s3.modFb t a fun f => { f with referenced := true, indexPhase := none }).setStage t a .ready else s3

/-- A discarded word (R87): an axis without quadrature raises u by the distance extrapolated since the last accepted word, which is none
before the first; three
in a row, or more than 8 of the last 1 000, are an SSI fault. -/
def State.ssiDiscard (s : State) (t : TileId) (a : AxisId) (since : Nat) : State :=
  let tl := s.tile t
  let x := tl.ax.get a
  let dist := if tl.parA a 0x08 0 != 0 || x.fb.ssiLast.isNone then 0 else x.mo.speed.natAbs * since / 1000000000
  let s1 := (s.modFb t a fun f =>
    { f with ssiRun := f.ssiRun + 1, ssiWindow := (true :: f.ssiWindow).take 1000 }).notClean t a
  let s2 := s1.uRaise t a dist
  if (s2.axis t a).fb.ssiBad then s2.positionLost t a 6 else s2

/-- A word lies within ssi_jump of the prediction (R87): the last accepted position plus the measured speed times the time between
the two latch edges. The first word of all has no accepted word before it, and none is predicted for it (DESIGN CHOICE, log entry
52). -/
def Tile.ssiNear (tl : Tile) (a : AxisId) (pos : Int) : Bool :=
  let x := tl.ax.get a
  match x.fb.ssiLast with
  | some l =>
    let since : Nat := x.fb.ssiLatchAt - x.fb.ssiLastAt
    decide ((((pos - l) * 1000000000 - x.mo.speed * since).natAbs : Int) ≤ tl.parA a 0x08 23 * 1000000000)
  | none => true

/-- SSI_WORD_COMPLETE (R84, R86, R87): `bits` is the word with its flags, `frameOk` the level check after the last bit. The feedback of
an axis that is unused, or has no absolute sensor, is not read (R29, R77). -/
def execSsiWordComplete (t : TileId) (a : AxisId) (bits : Nat) (frameOk : Bool) (now : Nat) (s : State) :
    Host.Outcome State Fault Refusal :=
  onTile t s fun s0 =>
    let s := s0.at now
    let tl := s.tile t
    let x := tl.ax.get a
    match x.fb.ssiLatch with
    | none => s
    | some latched =>
      let s1 := s.modFb t a fun f => { f with ssiLatch := none, ssiIdleBad := false }
      if !tl.used a || tl.parA a 0x08 10 = 0 then s1
      else
      let (pos, flagsOk) := tl.ssiDecode a bits
      if frameOk && !x.fb.ssiIdleBad && flagsOk && tl.ssiNear a pos then s1.ssiAccept t a pos latched x.fb.ssiLatchAt
      else s1.ssiDiscard t a (x.fb.ssiLatchAt - x.fb.ssiLastAt)

end Sys2Proof.Machine
end

