-- ==== Sys2Proof/Machine/LoadSwitch.lean ====
section
/-!
DEFINITION. The protected load-switch channels of the field die: what decides a channel's state, overcurrent, thermal
protection, undervoltage, group heat, off-state checks and current sense (R149 to R160, R165), and LSW_SET (R327).
-/

namespace Sys2Proof.Machine

/-! ### Shared operations -/

/-- An event that the field die's finding makes the tile raise; a logic die held in reset raises none. -/
def State.raiseField (s : State) (t : TileId) (code : Nat) (data : List Byte) : State :=
  if (s.tile t).die.inReset then s else s.raise t code data

/-- ls_src of a channel is PIN (R150); LS0 has no pin. -/
def Tile.lsPin (tl : Tile) (ch : Fin 10) : Bool := ch != 0 && tl.par 0x0B 0 ch.val == 1

/-- The LSW domain is on: VBAT holds it, and the fallback image has been loaded since the last power-on reset of FBIAS (R380). -/
def FieldDie.lswUp (f : FieldDie) : Bool := f.lswOn && f.fioOn

/-- The state that a channel takes: the first row of R152 that holds; LSW_ON_CHECK switches an off channel on (R145). -/
def Tile.lsOn (tl : Tile) (ch : Fin 10) : Bool :=
  let f := tl.field
  let c := f.ls[ch]
  f.lswUp && !c.ocLatch && !c.thLatch && !c.thDown && !f.undervolt && !(f.groupHeat && decide (ch.val ≥ 8)) &&
    (if f.fallback then ch != 0 && f.image.getLsbD ch.val
     else (if tl.lsPin ch then c.pin else c.line) || (ch != 0 && f.onTest.getLsbD ch.val))

/-- The channels, in order. -/
def lsChannels : List (Fin 10) := [0, 1, 2, 3, 4, 5, 6, 7, 8, 9]

/-- A channel that turns on: the threshold and blanking time in force are the written ones (R332); the blanking runs after a
restart, or after at least 1 ms off (R153); a check in progress ends without a result (R158). -/
def LsChannel.turnOn (c : LsChannel) (thr inrush : Nat) (restart : Bool) (now : Nat) : LsChannel :=
  let long := match c.offAt with
    | none => true
    | some i => decide (now ≥ i + 1000000)
  { c with isOn := true, ocThr := thr, tInrush := inrush, blanking := (restart || long) && decide (inrush > 0),
           checking := false, offCurrent := false }

/-- The threshold in force, in mA: 2.5 × oc_thr during the blanking, oc_thr outside it (R153). -/
def LsChannel.threshold (c : LsChannel) : Nat := if c.blanking then c.ocThr * 5 / 2 else c.ocThr

/-- A channel that turns off; the threshold that was in force stays that of an overcurrent judged within the 2 µs (R165). -/
def LsChannel.turnOff (c : LsChannel) (now : Nat) : LsChannel :=
  { c with isOn := false, offAt := some now, offThr := c.threshold, blanking := false }

/-- The threshold that a current of the channel is judged by: the one in force, or the one in force as it turned off (R153, R165). -/
def LsChannel.judgedBy (c : LsChannel) : Nat := if c.isOn then c.threshold else c.offThr

/-- One channel brought to the state that R152 gives it; `restart` says that it returns from rows 3 to 5. -/
def State.lsRefresh1 (s : State) (t : TileId) (restart : Bool) (ch : Fin 10) : State :=
  let tl := s.tile t
  let c := tl.field.ls[ch]
  let want := tl.lsOn ch
  if want && !c.isOn then
    let thr := (pGet tl.written (pKey 0x0B 1 ch.val none)).toNat
    let inr := (pGet tl.written (pKey 0x0B 2 ch.val none)).toNat
    s.modField t fun f => { f with ls := vset f.ls ch (c.turnOn thr inr restart s.now) }
  else if c.isOn && !want then
    s.modField t fun f => { f with ls := vset f.ls ch (c.turnOff s.now) }
  else s

/-- Every channel brought to the state that R152 gives it. -/
def State.lsRefresh (s : State) (t : TileId) (restart : Bool := false) : State :=
  s.each lsChannels fun s ch => s.lsRefresh1 t restart ch

/-- One channel's record changed. -/
def State.modLs (s : State) (t : TileId) (ch : Fin 10) (f : LsChannel → LsChannel) : State :=
  s.modField t fun fd => { fd with ls := vmod fd.ls ch f }

/-- The condition under which the code of a channel reads 0xFFFF (R159). -/
def LsChannel.faulted (c : LsChannel) : Bool :=
  c.ocLatch || c.thLatch || c.thDown || c.openLoad || c.shortVbat || c.offCurrent

/-- The sense code of a channel as the up-frame carries it (R159). -/
def LsChannel.sense (c : LsChannel) : BitVec 16 := if c.faulted then 0xFFFF else c.code

/-- The flags of a channel (R330, block 0x8007). -/
def Tile.lsFlags (tl : Tile) (ch : Fin 10) : BitVec 16 :=
  let c := tl.field.ls[ch]
  BitVec.ofNat 16 (ofBits [c.ocLatch, c.thLatch, c.thDown, c.openLoad, c.shortVbat, c.offCurrent, tl.field.undervolt,
    tl.field.groupHeat && decide (ch.val ≥ 8), tl.lsPin ch])

/-- A channel-fault event (R160, R399): channel, whether a latch was set, and the last sense code. -/
def State.lsEvent (s : State) (t : TileId) (code : Nat) (ch : Fin 10) (latched : Bool) (sense : BitVec 16) : State :=
  s.raiseField t code (leBytes 1 ch.val ++ leBytes 1 (bit latched) ++ leBytes 2 sense.toNat)

/-- The lock channel shows that it is energised against its command (R160, R195). -/
def Tile.lsAgainst (tl : Tile) (ch : Fin 10) : Bool :=
  tl.lsRole 14 == ch.val && (tl.field.ls[ch].shortVbat || tl.field.ls[ch].offCurrent)

/-- The instant at which the lock channel last showed it (R195). -/
def State.lsNote (s : State) (t : TileId) (ch : Fin 10) : State :=
  if (s.tile t).lsAgainst ch then s.modDoor t fun d => { d with ls0At := some s.now } else s

/-! ### Commands of the field die -/

/-- LSIN_PIN_EDGE (R150). -/
def execLsinPinEdge (t : TileId) (ch : Fin 10) (level : Bool) (s : State) : Host.Outcome State Fault Refusal :=
  onTile t s fun s => (s.modLs t ch fun c => { c with pin := level }).lsRefresh t

/-- A channel carries current for the overcurrent comparison: it is on, or a thermal shutdown turned it off within the 2 µs that the
latch takes (R153, R165). -/
def LsChannel.judged (c : LsChannel) (now : Nat) : Bool :=
  c.isOn || ((c.thDown || c.thLatch) && (match c.offAt with
    | some i => decide (now ≤ i + 2000)
    | none => false))

/-- LS_OVERCURRENT (R153): the channel and its current; a current above the threshold in force turns the channel off and sets its latch. -/
def execLsOvercurrent (t : TileId) (load : Fin 10 × Nat) (s : State) : Host.Outcome State Fault Refusal :=
  onTile t s fun s =>
    let c := (s.tile t).field.ls[load.1]
    if !c.judged s.now || decide (load.2 ≤ c.judgedBy) then s
    else ((s.modLs t load.1 fun c => { c with ocLatch := true }).lsRefresh t).lsEvent t 0x40 load.1 true c.sense

/-- INRUSH_BLANKING_END (R153): the threshold in force is oc_thr again. -/
def execInrushBlankingEnd (t : TileId) (ch : Fin 10) (s : State) : Host.Outcome State Fault Refusal :=
  onTile t s fun s => s.modLs t ch fun c => { c with blanking := false }

/-- LS_THERMAL_SHUTDOWN (R154): LATCH sets the thermal latch, RESTART waits for the sensor to cool. -/
def execLsThermalShutdown (t : TileId) (ch : Fin 10) (s : State) : Host.Outcome State Fault Refusal :=
  onTile t s fun s =>
    let tl := s.tile t
    let c := tl.field.ls[ch]
    if !tl.field.lswUp then s
    else
      let latch := tl.par 0x0B 3 ch.val == 1
      let s1 := s.modLs t ch fun c =>
        { c with thLatch := c.thLatch || latch, thDown := c.thDown || !latch }
      (s1.lsRefresh t).lsEvent t 0x41 ch latch c.sense

/-- LS_THERMAL_RESTART (R154): the sensor has cooled. A channel that turns on again has made a restart; the 32nd within 60 s sets the
thermal latch. -/
def execLsThermalRestart (t : TileId) (ch : Fin 10) (now : Nat) (s : State) : Host.Outcome State Fault Refusal :=
  onTile t s fun s0 =>
    let s := s0.at now
    let c := (s.tile t).field.ls[ch]
    if !c.thDown then s
    else
      let s1 := (s.modLs t ch fun c => { c with thDown := false }).lsRefresh1 t true ch
      if !(s1.tile t).field.ls[ch].isOn then s1
      else
        let recent := (c.restarts.filter fun i => decide (s.now < i + 60000000000)) ++ [s.now]
        let latch := decide (recent.length ≥ 32)
        let s2 := s1.modLs t ch fun c => { c with restarts := recent, thLatch := c.thLatch || latch }
        if latch then (s2.lsRefresh1 t false ch).lsEvent t 0x41 ch true c.sense else s2

/-- VBAT_UNDERVOLTAGE (R156): VBAT in 0.1 V and the channels whose current exceeded their threshold in the 2 µs before. -/
def execVbatUndervoltage (t : TileId) (vbat : Nat) (tripped : BitVec 10) (s : State) : Host.Outcome State Fault Refusal :=
  onTile t s fun s =>
    let tl := s.tile t
    if tl.field.undervolt || !tl.field.lswUp || decide (vbat ≥ 10 * tl.parN 0x0B 6) then s
    else
      let hit := lsChannels.filter fun ch => tripped.getLsbD ch.val && tl.field.ls[ch].isOn
      let s1 := s.each hit fun s ch => s.modLs t ch fun c => { c with ocLatch := true }
      let s2 := (s1.modField t fun f => { f with undervolt := true }).lsRefresh t
      let s3 := s2.raiseField t 0x45 (leBytes 2 vbat)
      s3.each hit fun s ch => s.lsEvent t 0x40 ch true tl.field.ls[ch].sense

/-- VBAT_RECOVERY (R156): the tile's VBAT, in 0.1 V, has stayed above lsw_uv + lsw_uv_hyst for 1 ms; each channel restarts under R152, with its
blanking. -/
def execVbatRecovery (level : TileId × Nat) (s : State) : Host.Outcome State Fault Refusal :=
  onTile level.1 s fun s =>
    let tl := s.tile level.1
    if tl.field.undervolt && decide (level.2 > 10 * (tl.parN 0x0B 6 + tl.parN 0x0B 7)) then
      (s.modField level.1 fun f => { f with undervolt := false }).lsRefresh level.1 true
    else s

/-- GROUP_HEAT_SHED (R157): LS8 and LS9 turn off. -/
def execGroupHeatShed (t : TileId) (s : State) : Host.Outcome State Fault Refusal :=
  onTile t s fun s =>
    if (s.tile t).field.groupHeat || !(s.tile t).field.lswUp then s
    else ((s.modField t fun f => { f with groupHeat := true }).lsRefresh t).raiseField t 0x46 []

/-- GROUP_HEAT_RESTART (R157). -/
def execGroupHeatRestart (t : TileId) (s : State) : Host.Outcome State Fault Refusal :=
  onTile t s fun s =>
    if (s.tile t).field.groupHeat then (s.modField t fun f => { f with groupHeat := false }).lsRefresh t true else s

/-- An off-state check starts on those channels of a mask that are off (R158). -/
def State.lsCheckStart (s : State) (t : TileId) (mask : BitVec 10) : State :=
  if !(s.tile t).field.lswUp then s
  else s.each lsChannels fun s ch =>
    if mask.getLsbD ch.val && !(s.tile t).field.ls[ch].isOn then s.modLs t ch fun c => { c with checking := true } else s

/-- The mask of the channels that meet a condition. -/
def lsMask (p : Fin 10 → Bool) : BitVec 10 := BitVec.ofNat 10 (maskOf (lsChannels.map p))

/-- ol_mode of a channel: OFF 0, ON_DEMAND 1, PERIODIC 2 (R151). -/
def Tile.olMode (tl : Tile) (ch : Fin 10) : Int := tl.par 0x0B 4 ch.val

/-- The pin Tt_IS: a voltage in µV proportional to the current of the channel of is_sel, at the typical gain, or none at the fault
level (R159). -/
def Tile.ttIs (tl : Tile) : Option Nat :=
  let ch := Fin.ofNat 10 (tl.parN 0x0B 8)
  let c := tl.field.ls[ch]
  if c.faulted then none
  else some (if ch = 9 then 50 * c.code.toNat else 125 * c.code.toNat / 4)

/-- OPEN_LOAD_CHECK_PERIOD (R158): the next down-frame carries the check of each channel with ol_mode PERIODIC (R16); in the hold of
R223 that waits for the commit. -/
def execOpenLoadCheckPeriod (t : TileId) (s : State) : Host.Outcome State Fault Refusal :=
  onTile t s fun s =>
    let tl := s.tile t
    if tl.triadActs then s.modLink t fun l => { l with lsCheck := l.lsCheck ||| lsMask fun ch => tl.olMode ch == 2 }
    else s.holdBack t (.openLoadCheckPeriod t)

/-- OFF_STATE_CHECK_MEASURE (R158): the output against V_ol without the pull-up current, and 500 µs after it was switched
on. -/
def execOffStateCheckMeasure (t : TileId) (ch : Fin 10) (highBefore highAfter : Bool) (s : State) :
    Host.Outcome State Fault Refusal :=
  onTile t s fun s =>
    let c := (s.tile t).field.ls[ch]
    if !c.checking then s
    else
      let short := highBefore
      let opened := !highBefore && highAfter
      let s1 := (s.modLs t ch fun c => { c with checking := false, openLoad := opened, shortVbat := short }).lsNote t ch
      let s2 := if opened && !c.openLoad then s1.lsEvent t 0x42 ch false c.sense else s1
      if short && !c.shortVbat then s2.lsEvent t 0x43 ch false c.sense else s2

/-- A reading of more than 40 mA (R159): the LSB is 250 µA, 1 mA on LS9. -/
def lsFlows (ch : Fin 10) (code : Nat) : Bool := if ch = 9 then decide (code > 40) else decide (code > 160)

/-- LS_SENSE_CONVERSION (R159): the readings of the ten channels. -/
def execLsSenseConversion (t : TileId) (codes : Vector Nat 10) (s : State) : Host.Outcome State Fault Refusal :=
  onTile t s fun s =>
    if !(s.tile t).field.lswUp then s
    else s.each lsChannels fun s ch =>
      let c := (s.tile t).field.ls[ch]
      let v := min codes[ch] 0xFFFE
      let off := !c.isOn && lsFlows ch v
      let s1 := (s.modLs t ch fun c => { c with code := BitVec.ofNat 16 v, offCurrent := off }).lsNote t ch
      if off && !c.offCurrent then s1.lsEvent t 0x44 ch false c.sense else s1

/-- LS0_AGAINST_COMMAND (R160): the condition has lasted 20 ms, which is fault 0x0A; the next evaluation takes T37. -/
def execLs0AgainstCommand (t : TileId) (s : State) : Host.Outcome State Fault Refusal :=
  onTile t s fun s =>
    if lsChannels.any (s.tile t).lsAgainst && (s.tile t).triadRuns then s.latchFault t 0x0A else s

/-! ### LSW_SET (R102, R150, R197, R327) -/

/-- The outputs named in any out_mask of the active tables of the tile (R102). -/
def Tile.stakeOutputs (tl : Tile) : BitVec 16 :=
  AxisId.all.foldl (fun m a => [Dir.opening, Dir.closing].foldl (fun m d =>
    (tl.stakes a d).foldl (fun m i => m ||| BitVec.ofInt 16 (tl.stake a d i 9)) m) m) 0

/-- The channels of a mask that LSW_SET finds with ls_src PIN. -/
def Tile.lsPinMask (tl : Tile) (mask : BitVec 16) : Nat :=
  maskOf (lsChannels.map fun ch => mask.getLsbD ch.val && tl.lsPin ch)

/-- LSW_SET with clear 0 (R102, R197, R327): the lines take their levels, those of PIN channels
keep theirs; refused in FAULT_SAFE, on outputs named in a stake,
and on LS0. Bits 15 to 10 of the mask and levels are reserved. -/
def execLswSet (h : HostCmd) (mask levels : BitVec 16) (s : State) : Host.Outcome State Fault Refusal :=
  onCmd h 0x30 s fun s =>
    let tl := s.tile h.tile
    if mask >>> 10 != 0 || levels >>> 10 != 0 then s.complete h 0x30 0x06 0
    else if !tl.triadActs then s.holdBack h.tile (.lswSet h mask levels)
    else if tl.door.st == .faultSafe then s.complete h 0x30 0x10 197
    else if mask &&& tl.stakeOutputs &&& 0x3FF != 0 then s.complete h 0x30 0x15 102
    else if mask.getLsbD 0 then s.complete h 0x30 0x15 327
    else
      let m := mask.truncate 10 &&& ~~~(BitVec.ofNat 10 (tl.lsPinMask mask))
      let s1 := s.modLink h.tile fun l => { l with lsCmd := (l.lsCmd &&& ~~~m) ||| (levels.truncate 10 &&& m) }
      s1.complete h 0x30 0 0 (leBytes 2 (tl.lsPinMask mask))

/-- LSW_SET with clear 1 (R153, R154, R327): the next down-frame carries the clear of the masked channels' overcurrent and thermal
latches (R16); the levels must be 0. It is accepted on every channel and in every state. -/
def execLswSetClear (h : HostCmd) (mask levels : BitVec 16) (s : State) : Host.Outcome State Fault Refusal :=
  onCmd h 0x30 s fun s =>
    let tl := s.tile h.tile
    if mask >>> 10 != 0 then s.complete h 0x30 0x06 0
    else if !tl.triadActs then s.holdBack h.tile (.lswSetClear h mask levels)
    else if levels != 0 then s.complete h 0x30 0x14 327 [0xFF]
    else
      (s.modLink h.tile fun l => { l with lsClear := l.lsClear ||| mask.truncate 10 }).complete h 0x30 0 0
        (leBytes 2 (tl.lsPinMask mask))

/-- The clear of a down-frame at the channels that it names (R16, R153, R154). -/
def State.lsClearNow (s : State) (t : TileId) (mask : BitVec 10) : State :=
  if mask = 0 then s
  else (s.each lsChannels fun s ch =>
    if mask.getLsbD ch.val then s.modLs t ch fun c => { c with ocLatch := false, thLatch := false } else s).lsRefresh t

end Sys2Proof.Machine
end

