-- ==== Sys2Proof/Machine/FieldIo.lean ====
section
/-!
DEFINITION. The field pins: debounce, pair statuses, output readback, train lines, test pulses and their supervision
(R166 to R179), and IO_SET and IO_READ (R327, R328).
-/

namespace Sys2Proof.Machine

/-! ### Pins and pairs -/

/-- The pins, in order. -/
def ioPins : List (Fin 16) := [0, 1, 2, 3, 4, 5, 6, 7, 8, 9, 10, 11, 12, 13, 14, 15]

/-- One pin's record changed. -/
def State.modIo (s : State) (t : TileId) (p : Fin 16) (f : IoPin → IoPin) : State :=
  s.modField t fun fd => { fd with io := vmod fd.io p f }

/-- fio_dir of a pin is OUT. -/
def Tile.isOut (tl : Tile) (p : Nat) : Bool := tl.par 0x0C 0 p == 1

/-- A pin holds one of the ten sensor roles (R33). -/
def Tile.sensorPin (tl : Tile) (p : Nat) : Bool := (List.range 10).any fun i => tl.role i == p

/-- The level at which an output is commanded: its level in the image while the fallback image is applied, on pins without a
sensor role (R162). -/
def Tile.outLevel (tl : Tile) (p : Fin 16) : Bool :=
  if tl.field.fallback then !tl.sensorPin p.val && tl.field.image.getLsbD (10 + p.val) else tl.field.io[p].cmd

/-- What an output stage drives: its commanded level, or nothing with both sides off, while its thermal latch stands (R169, R170),
while VIO has fallen (R177), with the domain off, and on an input. -/
def Tile.ioDrive (tl : Tile) (p : Fin 16) : Option Bool :=
  if !tl.isOut p.val || !tl.field.fioOn || !tl.field.vioOk || tl.field.io[p].thermal then none else some (tl.outLevel p)

/-- The pairs, in the order of R33. -/
def pairIds : List PairId := [.leafClosed, .lockEngaged, .egress, .isolation]

/-- The number of a pair (R399). -/
def pairNum : PairId → Nat
  | .leafClosed => 0
  | .lockEngaged => 1
  | .egress => 2
  | .isolation => 3

/-- The record of a pair. -/
def FieldDie.pair (f : FieldDie) : PairId → Pair
  | .leafClosed => f.pLeaf
  | .lockEngaged => f.pLock
  | .egress => f.pEgress
  | .isolation => f.pIso

/-- The field die with a pair's record replaced. -/
def FieldDie.setPair (f : FieldDie) (p : PairId) (v : Pair) : FieldDie :=
  match p with
  | .leafClosed => { f with pLeaf := v }
  | .lockEngaged => { f with pLock := v }
  | .egress => { f with pEgress := v }
  | .isolation => { f with pIso := v }

/-- The pins of a pair's two channels (R33). -/
def Tile.pairPins (tl : Tile) (p : PairId) : Nat × Nat := (tl.role (2 * pairNum p), tl.role (2 * pairNum p + 1))

/-- The supervision of a pin fails (R175). -/
def Tile.pinFault (tl : Tile) (p : Nat) : Bool := (tl.field.pin p).noPulse || (tl.field.pin p).foreign || tl.sourceFault p

/-- The status of a pair: the first row of R175 that holds. -/
def Tile.pairStatus (tl : Tile) (p : PairId) : PairStatus :=
  let (a, b) := tl.pairPins p
  if tl.pinFault a || tl.pinFault b then .fault
  else if (tl.field.pair p).discLatch then .discrepant
  else if tl.pinActive a != tl.pinActive b then .transition
  else if tl.pinActive a then .active
  else .inactive

/-- One pair status evaluated; entry to FAULT or DISCREPANT raises the pair event (R175). -/
def State.pairRefresh (s : State) (t : TileId) (p : PairId) : State :=
  let tl := s.tile t
  let old := tl.field.pair p
  let new := tl.pairStatus p
  let s1 := s.modField t fun f => f.setPair p { f.pair p with status := new }
  if new != old.status && (new == .fault || new == .discrepant) then
    s1.raiseField t 0x49 (leBytes 1 (pairNum p) ++ leBytes 1 new.code)
  else s1

/-- Every pair status evaluated. -/
def State.pairsRefresh (s : State) (t : TileId) : State := s.each pairIds fun s p => s.pairRefresh t p

/-- The edge-fault event of each edge whose input is one of some pins (R116). -/
def State.edgeFaults (s : State) (t : TileId) (which : Nat → Bool) (flag : Nat) : State :=
  s.each [EdgeId.edgeA, EdgeId.edgeB] fun s e =>
    if which ((s.tile t).role (edgeRole e)) then s.raiseField t 0x21 (leBytes 1 (edgeRole e - 8) ++ leBytes 1 flag) else s

/-! ### Inputs -/

/-- IO_INPUT_CHANGE (R168): the raw level; a level that goes low during a pulse, and its return high before the window closes, 50 µs after the
pulse, are noted for the checks of R174. -/
def execIoInputChange (t : TileId) (pin : Fin 16) (level : Bool) (s : State) : Host.Outcome State Fault Refusal :=
  onTile t s fun s =>
    let f := (s.tile t).field
    let pulse := f.tpPulse.1 || f.tpPulse.2
    let window := f.tpWindow.1 || f.tpWindow.2
    s.modIo t pin fun p =>
      { p with raw := level, wentLow := p.wentLow || (pulse && !level), returned := p.returned || (window && p.wentLow && level) }

/-- IO_DEBOUNCE_EXPIRY (R168): the debounced level becomes the raw level; inside its blanking window nothing is advanced. -/
def execIoDebounceExpiry (t : TileId) (pin : Fin 16) (s : State) : Host.Outcome State Fault Refusal :=
  onTile t s fun s =>
    let tl := s.tile t
    if !tl.field.fioOn || tl.isOut pin.val || tl.blanked pin.val then s
    else (s.modIo t pin fun p => { p with level := p.raw }).pairsRefresh t

/-- PAIR_DISCREPANCY_TIMEOUT (R175): the channels have differed for longer than disc_time. -/
def execPairDiscrepancyTimeout (t : TileId) (p : PairId) (s : State) : Host.Outcome State Fault Refusal :=
  onTile t s fun s =>
    let tl := s.tile t
    let (a, b) := tl.pairPins p
    if tl.pinActive a == tl.pinActive b then s
    else (s.modField t fun f => f.setPair p { f.pair p with discLatch := true }).pairRefresh t p

/-- PAIR_DISCREPANT_CLEAR (R175): both channels have read inactive together for long enough. -/
def execPairDiscrepantClear (t : TileId) (p : PairId) (s : State) : Host.Outcome State Fault Refusal :=
  onTile t s fun s =>
    let tl := s.tile t
    let (a, b) := tl.pairPins p
    if tl.pinActive a || tl.pinActive b then s
    else (s.modField t fun f => f.setPair p { f.pair p with discLatch := false }).pairRefresh t p

/-! ### Outputs (R169) -/

/-- OUTPUT_READBACK_FAULT (R169): the condition has lasted 1 ms. -/
def execOutputReadbackFault (t : TileId) (pin : Fin 16) (c : ReadbackCond) (s : State) : Host.Outcome State Fault Refusal :=
  onTile t s fun s =>
    let tl := s.tile t
    if !tl.field.fioOn || !tl.isOut pin.val then s
    else
      let high := tl.outLevel pin
      match c with
      | .lowReadsHigh => if high then s else s.modIo t pin fun p => { p with stuckHigh := true }
      | .highReadsLow => if high then s.modIo t pin fun p => { p with mismatch := true } else s
      | .lowSinks => if high then s else s.modIo t pin fun p => { p with mismatch := true }
      | .lowReadsLow => if high then s else s.modIo t pin fun p => { p with stuckHigh := false }

/-- OUTPUT_THERMAL_SHUTDOWN (R169): both sides off until the clear. -/
def execOutputThermalShutdown (t : TileId) (pin : Fin 16) (s : State) : Host.Outcome State Fault Refusal :=
  onTile t s fun s =>
    if (s.tile t).field.fioOn && (s.tile t).isOut pin.val then s.modIo t pin fun p => { p with thermal := true } else s

/-! ### Train lines (R171, R188) -/

/-- TL_INPUT_CHANGE (R171). -/
def execTlInputChange (t : TileId) (tl : Fin 4) (level : Bool) (s : State) : Host.Outcome State Fault Refusal :=
  onTile t s fun s => s.modField t fun f => { f with tlRaw := vset f.tlRaw tl level }

/-- TL_DEBOUNCE_EXPIRY (R171): the debounced level, which the next up-frame carries. -/
def execTlDebounceExpiry (t : TileId) (tl : Fin 4) (s : State) : Host.Outcome State Fault Refusal :=
  onTile t s fun s =>
    if (s.tile t).field.fioOn then s.modField t fun f => { f with tlLevel := vset f.tlLevel tl f.tlRaw[tl] } else s

/-- The channels of a train-line pair as the triad reads them (R188). -/
def Tile.tlPair (tl : Tile) : TlPair → Bool × Bool
  | .zeroSpeed => (tl.tlRole 10, tl.tlRole 11)
  | .release => (tl.tlRole 12, tl.tlRole 13)

/-- TRAIN_LINE_DISCREPANCY (R188): the pair is held invalid, with its event. -/
def execTrainLineDiscrepancy (t : TileId) (p : TlPair) (s : State) : Host.Outcome State Fault Refusal :=
  onTile t s fun s =>
    let tl := s.tile t
    let (a, b) := tl.tlPair p
    if !tl.triadRuns || a == b then s
    else
      match p with
      | .zeroSpeed => if tl.door.tlDisc.1 then s else
          (s.modDoor t fun d => { d with tlDisc := (true, d.tlDisc.2) }).raise t 0x62 (leBytes 1 0)
      | .release => if tl.door.tlDisc.2 then s else
          (s.modDoor t fun d => { d with tlDisc := (d.tlDisc.1, true) }).raise t 0x62 (leBytes 1 1)

/-- A discrepant train-line pair may be valid again once both channels have read off together (R188). -/
def State.tlDiscClear (s : State) (t : TileId) : State :=
  s.modDoor t fun d =>
    let z := (s.tile t).tlPair .zeroSpeed
    let r := (s.tile t).tlPair .release
    { d with tlDisc := (d.tlDisc.1 && (z.1 || z.2), d.tlDisc.2 && (r.1 || r.2)) }

/-! ### The bittern monitor's channels (R185, R186) -/

/-- The bittern monitor's state and SRB, from its channels and the fallback image (R186). -/
def FieldDie.bitternEval (f : FieldDie) : FieldDie :=
  let st : BitternState := match f.bittern with
    | .fault => .fault
    | _ => if f.proofs == 15 && !f.fallback then .closed else .openSt
  { f with bittern := st, srb := st == .closed }

/-- The proof of a channel set or lost. -/
def FieldDie.bitternProof (f : FieldDie) (ch : Fin 4) (on : Bool) : FieldDie :=
  let m := BitVec.ofNat 4 (2 ^ ch.val)
  { f with proofs := if on then f.proofs ||| m else f.proofs &&& ~~~m }.bitternEval

/-- A field of the monitor's own configuration: pin 0, type 1, active 2, test-pulse source 3 of a channel (R187). -/
def FieldDie.bitField (f : FieldDie) (ch : Fin 4) (k : Nat) : Nat :=
  match f.bitConfig with
  | some b => fieldLe b (8 * ch.val + k) 1
  | none => 0

/-- A channel reads active at its pin, under the fio_active of the configuration (R185). -/
def FieldDie.bitActive (f : FieldDie) (ch : Fin 4) : Bool :=
  f.bitConfig.isSome && (f.pin (f.bitField ch 0)).raw == (f.bitField ch 2 == 0)

/-- The blanking window of a channel's own source is open (R185). -/
def FieldDie.bitBlanked (f : FieldDie) (ch : Fin 4) : Bool :=
  (f.bitField ch 3 == 1 && f.tpWindow.1) || (f.bitField ch 3 == 2 && f.tpWindow.2)

/-- The proof window 2 × tp_interval + tp_width + 50 µs, in ns (R185). -/
def FieldDie.bitWindow (f : FieldDie) : Nat :=
  match f.bitConfig with
  | some b => 2000000 * fieldLe b 34 2 + 1000 * fieldLe b 32 2 + 50000
  | none => 0

/-- The conditions of R185 beside the uninterrupted active reading: an own pulse seen low within the proof window, and no wrong
reaction to a pulse of the other source within the same time. -/
def FieldDie.bitPulsesOk (f : FieldDie) (ch : Fin 4) (now : Nat) : Bool :=
  f.bitLow.getLsbD ch.val && (match f.bitForeign[ch] with
    | some i => decide (now > i + f.bitWindow)
    | none => true)

/-! ### Test pulses (R172 to R174) -/

/-- One of a pair of values, by source. -/
def srcGet (v : Bool × Bool) : TestSource → Bool
  | .tpa => v.1
  | .tpb => v.2

/-- A pair of values with one replaced, by source. -/
def srcSet (v : Bool × Bool) (src : TestSource) (x : Bool) : Bool × Bool :=
  match src with
  | .tpa => (x, v.2)
  | .tpb => (v.1, x)

/-- The code of a source in fio_tp. -/
def srcCode : TestSource → Int
  | .tpa => 1
  | .tpb => 2

/-- TEST_PULSE_START (R172, R173): the source drops low, the windows of its inputs open, and the levels before the pulse are
taken for the checks of R174. -/
def execTestPulseStart (t : TileId) (src : TestSource) (s : State) : Host.Outcome State Fault Refusal :=
  onTile t s fun s =>
    let f := (s.tile t).field
    if !f.fioOn || !f.vioOk || srcGet f.tpFault src then s
    else s.modField t fun f =>
      { f with tpPulse := srcSet f.tpPulse src true, tpWindow := srcSet f.tpWindow src true,
               io := vmap (fun p => { p with before := p.raw, wentLow := false, returned := false }) f.io }

/-- TEST_PULSE_END (R172). -/
def execTestPulseEnd (t : TileId) (src : TestSource) (s : State) : Host.Outcome State Fault Refusal :=
  onTile t s fun s => s.modField t fun f => { f with tpPulse := srcSet f.tpPulse src false }

/-- The result of one check entered in its counts: fails, passes, flag, and whether the flag was set now (R174). -/
def checkCount (fails passes : Nat) (flag fail : Bool) : Nat × Nat × Bool × Bool :=
  if fail then (min 2 (fails + 1), 0, flag || decide (fails + 1 ≥ 2), !flag && decide (fails + 1 ≥ 2))
  else (0, min 4 (passes + 1), flag && !decide (passes + 1 ≥ 4), false)

/-- The check of one input at the close of a window (R174). -/
def State.pulseCheck (s : State) (t : TileId) (src : TestSource) (pin : Fin 16) : State :=
  let tl := s.tile t
  let p := tl.field.io[pin]
  if !p.before || tl.isOut pin.val || tl.par 0x0C 4 pin.val == 0 then s
  else if tl.par 0x0C 4 pin.val == srcCode src then
    let (f, q, flag, set) := checkCount p.ownFails p.ownPasses p.noPulse (!p.wentLow)
    let s1 := s.modIo t pin fun p => { p with ownFails := f, ownPasses := q, noPulse := flag }
    if set then (s1.raiseField t 0x48 (leBytes 1 pin.val ++ leBytes 1 1)).edgeFaults t (· == pin.val) 1 else s1
  else
    let (f, q, flag, set) := checkCount p.othFails p.othPasses p.foreign p.returned
    let s1 := s.modIo t pin fun p => { p with othFails := f, othPasses := q, foreign := flag }
    if set then (s1.raiseField t 0x48 (leBytes 1 pin.val ++ leBytes 1 2)).edgeFaults t (· == pin.val) 2 else s1

/-- What the bittern monitor has seen of a pulse at the close of its window (R185): a channel of that source that went low, and a
channel of the other source that went low and returned, which is proven no longer. -/
def FieldDie.bitternPulse (f : FieldDie) (src : TestSource) (now : Nat) : FieldDie :=
  ([0, 1, 2, 3] : List (Fin 4)).foldl (fun f ch =>
    let p := f.pin (f.bitField ch 0)
    let tp : Int := f.bitField ch 3
    if f.bitConfig.isNone || !p.wentLow then f
    else if tp == srcCode src then { f with bitLow := f.bitLow ||| BitVec.ofNat 4 (2 ^ ch.val) }
    else if tp != 0 && p.returned then { f with bitForeign := vset f.bitForeign ch (some now) }.bitternProof ch false
    else f) f

/-- BLANKING_WINDOW_CLOSE (R173, R174): the checks of the inputs and of the bittern monitor; an edge that stayed active acts from
here on. -/
def execBlankingWindowClose (t : TileId) (src : TestSource) (s : State) : Host.Outcome State Fault Refusal :=
  onTile t s fun s =>
    if !srcGet (s.tile t).field.tpWindow src then s
    else
      let s1 := s.modField t fun f => { f with tpWindow := srcSet f.tpWindow src false, tpPulse := srcSet f.tpPulse src false }
      let s2 := (s1.each ioPins fun s p => s.pulseCheck t src p).modField t fun f => f.bitternPulse src s.now
      (s2.pairsRefresh t).each AxisId.all fun s a => s.edgeLevel t a

/-- A source's fault bit set or cleared, with what follows for pairs and edges (R116, R172). -/
def State.sourceSet (s : State) (t : TileId) (src : TestSource) (bad : Bool) : State :=
  let tl := s.tile t
  let new := bad && !srcGet tl.field.tpFault src
  let s1 := s.modField t fun f =>
    { f with tpFault := srcSet f.tpFault src bad, tpPulse := srcSet f.tpPulse src (srcGet f.tpPulse src && !bad),
             tpWindow := srcSet f.tpWindow src (srcGet f.tpWindow src && !bad) }
  let s2 := if new then s1.edgeFaults t (fun p => tl.par 0x0C 4 p == srcCode src) 3 else s1
  s2.pairsRefresh t

/-- TEST_SOURCE_FAULT (R172). -/
def execTestSourceFault (t : TileId) (src : TestSource) (s : State) : Host.Outcome State Fault Refusal :=
  onTile t s fun s => if (s.tile t).field.fioOn then s.sourceSet t src true else s

/-- TEST_SOURCE_RETRY (R172): the fault clears when the retry holds. -/
def execTestSourceRetry (t : TileId) (src : TestSource) (holds : Bool) (s : State) : Host.Outcome State Fault Refusal :=
  onTile t s fun s =>
    let f := (s.tile t).field
    if f.fioOn && f.vioOk && srcGet f.tpFault src && holds then s.sourceSet t src false else s

/-! ### VIO (R177) -/

/-- The field die of a tile as VIO falls: outputs and sources off, every source at fault, the VIO event. -/
def State.vioFalls (s : State) (t : TileId) : State :=
  if !(s.tile t).field.vioOk then s
  else
    let s1 := (s.modField t fun f => { f with vioOk := false }).raiseField t 0x4A []
    (s1.sourceSet t .tpa true).sourceSet t .tpb true

/-- The field die of a tile as VIO returns: each source on with its fault clear. -/
def State.vioReturns (s : State) (t : TileId) : State :=
  if (s.tile t).field.vioOk then s
  else ((s.modField t fun f => { f with vioOk := true }).sourceSet t .tpa false).sourceSet t .tpb false

/-- VIO_LOSS (R177): VIO is common to all tiles of the package. -/
def execVioLoss (s : State) : Host.Outcome State Fault Refusal :=
  onHead s fun s => s.each s.tileIds fun s t => s.vioFalls t

/-- VIO_RECOVERY (R177). -/
def execVioRecovery (s : State) : Host.Outcome State Fault Refusal :=
  onHead s fun s => s.each s.tileIds fun s t => s.vioReturns t

/-! ### IO_SET and IO_READ (R102, R166, R197, R327, R328) -/

/-- IO_SET with clear 0: each masked output takes its level; refused in FAULT_SAFE, on inputs and role pins, and on outputs
named in a stake. -/
def execIoSet (h : HostCmd) (mask levels : BitVec 16) (s : State) : Host.Outcome State Fault Refusal :=
  onCmd h 0x31 s fun s =>
    let tl := s.tile h.tile
    if !tl.triadActs then s.holdBack h.tile (.ioSet h mask levels)
    else if tl.door.st == .faultSafe then s.complete h 0x31 0x10 197
    else if ioPins.any fun p => mask.getLsbD p.val && (!tl.isOut p.val || tl.hasRole p.val) then
      s.complete h 0x31 0x14 327 [0xFF]
    else if mask &&& tl.stakeOutputs &&& 0xFC00 != 0 then s.complete h 0x31 0x15 102
    else (s.modLink h.tile fun l => { l with ioCmd := (l.ioCmd &&& ~~~mask) ||| (levels &&& mask) }).complete h 0x31 0 0

/-- IO_SET with clear 1: the next down-frame carries the clear of the masked pins' MISMATCH and THERMAL latches (R16, R169); the
levels must be 0. -/
def execIoSetClear (h : HostCmd) (mask levels : BitVec 16) (s : State) : Host.Outcome State Fault Refusal :=
  onCmd h 0x31 s fun s =>
    if !(s.tile h.tile).triadActs then s.holdBack h.tile (.ioSetClear h mask levels)
    else if levels != 0 then s.complete h 0x31 0x14 327 [0xFF]
    else (s.modLink h.tile fun l => { l with ioClear := l.ioClear ||| mask }).complete h 0x31 0 0

/-- The clear of a down-frame at the pins that it names (R16, R169). -/
def State.ioClearNow (s : State) (t : TileId) (mask : BitVec 16) : State :=
  s.each ioPins fun s p =>
    if mask.getLsbD p.val then s.modIo t p fun x => { x with mismatch := false, thermal := false } else s

/-- The code of a bittern state (R328). -/
def BitternState.code : BitternState → Nat
  | .openSt => 0
  | .closed => 1
  | .fault => 2

/-- The code of a train-line pair (R328). -/
def Tile.tlCode (tl : Tile) (p : TlPair) (disc : Bool) : Nat :=
  let (a, b) := tl.tlPair p
  if disc then 3 else bit (a && b)

/-- The report of the latest up-frame (R328). -/
def Tile.ioReport (tl : Tile) : List Byte :=
  let u := tl.link.up
  leBytes 4 (u.ioRaw.toNat + 65536 * u.tlRaw.toNat) ++
  leBytes 4 (u.ioLevel.toNat + 65536 * maskOf u.tlLevel.toList) ++
  (u.pinFlags.toList.flatMap fun f => leBytes 2 f.toNat) ++
  leBytes 3 (u.pLeaf.code + 16 * u.pLock.code + 256 * u.pEgress.code + 4096 * u.pIso.code +
    65536 * tl.tlCode .zeroSpeed tl.door.tlDisc.1 + 1048576 * tl.tlCode .release tl.door.tlDisc.2) ++
  leBytes 1 (ofBits [u.tpFault.1, u.tpFault.2, u.vioLow, u.fallback]) ++
  leBytes 1 (u.bittern.code + 4 * u.proofs.toNat) ++ [0, 0, 0] ++ leBytes 4 u.ts.toNat

/-- IO_READ (R328). -/
def execIoRead (h : HostCmd) (addr : BitVec 64) (s : State) : Host.Outcome State Fault Refusal :=
  onCmd h 0x32 s fun s =>
    if h.dmaFault then s.complete h 0x32 0x09 0
    else (s.dma addr.toNat (padTo 64 (s.tile h.tile).ioReport)).complete h 0x32 0 0

end Sys2Proof.Machine
end

