-- ==== Sys2Proof/Machine/Ethernet.lean ====
section
/-!
DEFINITION. The Ethernet ports of the package head (R243 to R245): link state, reception, ARP and ICMP, and the sending of
datagrams to addresses that ARP resolves.
-/

namespace Sys2Proof.Machine

/-- The address to resolve for a destination: itself on the port's subnet, else the gateway; none without one (R243). -/
def State.nextHop (s : State) (p : EthPort) (ip : Word) : Option Word :=
  let shift := 32 - s.parH 0x12 6 p.num
  if ip.toNat / 2 ^ shift = s.ethIp p / 2 ^ shift then some ip
  else if s.parH 0x12 7 p.num = 0 then none
  else some (BitVec.ofNat 32 (s.parH 0x12 7 p.num))

/-- The port takes a frame of a VLAN: it is on, and the frame carries eth_vlan, or none when that is 0 (R243). -/
def State.ethHears (s : State) (p : EthPort) (vlan : Nat) : Bool := s.ethOn p && vlan == s.parH 0x12 8 p.num

/-- An ARP request or reply sent: operation and the address asked for or answered. -/
def State.arpEmit (s : State) (p : EthPort) (op : Nat) (ip : Word) : State :=
  s.ethEmit p (beBytes 2 0x0806 ++ beBytes 2 op ++ beBytes 6 (s.ethMac p).toNat ++ beBytes 4 (s.ethIp p) ++
    beBytes 4 ip.toNat)

/-- A datagram sent on a port, with its IPv4 source and destination addresses (R214): at once to a resolved address; otherwise it
waits for ARP, whose first request goes out (R243). A port that is off, down or without an address sends nothing. -/
def State.ethSend (s : State) (p : EthPort) (ip : Word) (udp : List Byte) : State :=
  let body := beBytes 4 (s.ethIp p) ++ beBytes 4 ip.toNat ++ udp
  if !s.ethOn p || !(s.eth p).up || s.ethIp p = 0 then s
  else
    match s.nextHop p ip with
    | none => s
    | some hop =>
      match (s.eth p).arp.find? (·.1 == hop) with
      | some e => s.ethEmit p (beBytes 6 e.2.toNat ++ beBytes 6 (s.ethMac p).toNat ++ beBytes 2 0x0800 ++ body)
      | none =>
        if (s.eth p).arpTry.any (·.1 == hop) then
          s.modEth p fun e =>
            { e with arpTry := e.arpTry.map fun x => if x.1 == hop then (x.1, x.2.1, x.2.2 ++ [body]) else x }
        else (s.modEth p fun e => { e with arpTry := e.arpTry ++ [(hop, 1, [body])] }).arpEmit p 1 hop

/-- ETH_PHY_STATUS_POLL (R243, R244): half duplex counts as down; at a link-up the port's en, address, speed and MAC rows
take effect, a fixed speed is written to the PHY, and a gratuitous ARP goes out. -/
def execEthPhyStatusPoll (p : EthPort) (linkUp fullDuplex : Bool) (speed : Nat) (s : State) :
    Host.Outcome State Fault Refusal :=
  onHead s fun s =>
    let up := linkUp && fullDuplex
    if !s.headRuns || up == (s.eth p).up then s
    else if !up then
      (s.modEth p fun e => { e with up := false, speed := 0 }).raiseHead 0x08 (leBytes 1 p.num ++ [0, 0, 0])
    else
      let s1 := s.modTile .t0 fun tl =>
        { tl with inForce := [0, 1, 2, 3, 4].foldl (fun m r =>
            pSet m (pKey 0x12 r p.num none) (pGet tl.written (pKey 0x12 r p.num none))) tl.inForce }
      let v := match s1.parH 0x12 2 p.num with
        | 0 => speed
        | 1 => 10
        | 2 => 100
        | _ => 1000
      let s2 := (s1.modEth p fun e => { e with up := true, speed := v }).raiseHead 0x08
        (leBytes 1 p.num ++ [1] ++ leBytes 2 v)
      let s3 := if s2.parH 0x12 2 p.num = 0 then s2 else s2.emit (.phyControl p (s2.parH 0x12 1 p.num) v)
      if s3.ethOn p && s3.ethIp p != 0 then s3.arpEmit p 1 (BitVec.ofNat 32 (s3.ethIp p)) else s3

/-- A received datagram matches the Ethernet binding of a connection (R245). -/
def SedgeConn.takesEth (c : SedgeConn) (p : EthPort) (src dst : Nat) (ip : Word) : Option Bool :=
  match c.binding with
  | some (.ethernet peer pp lp port) =>
    if peer == ip && pp == src && lp == dst && (port == p.num || port == 2) then some (port == 2) else none
  | _ => none

/-- The connections of a tile. -/
def connIds : List (Fin 32) := List.finRange 32

/-- A datagram passed on to the connections of the package's tiles that its address belongs to; of the two copies of a frame
for a binding to both ports the first of each seq is passed on, and the second, which comes by the other port, is discarded (R245; of frames
whose second copy has not come, the last 256 are remembered, log entry 40). Without the tile's service core nothing is (R27). -/
def State.udpDeliver (s : State) (p : EthPort) (src dst : Nat) (ip : Word) (payload : List Byte) : State :=
  s.each s.tileIds fun s t =>
    if !(s.tile t).die.svc then s
    else s.each connIds fun s c =>
      match ((s.tile t).sedge[c]).takesEth p src dst ip with
      | none => s
      | some both =>
        let q : BitVec 16 := BitVec.ofNat 16 (ofBe (payload.take 2))
        let seen := ((s.tile t).sedge[c]).bothSeq
        let set := fun (s : State) (l : List (BitVec 16 × EthPort)) =>
          s.modTile t fun tl => { tl with sedge := vmod tl.sedge c fun x => { x with bothSeq := l } }
        if both && seen.any (fun x => x.1 == q && x.2 != p) then set s (seen.filter (·.1 != q))
        else (if both then set s ((seen.filter (·.1 != q)).drop (seen.length - 255) ++ [(q, p)]) else s).emit (.toTriad t c.val payload)

/-- A multicast address that the port takes: one of PTP's for the transport in use, UDP over IPv4 or Ethernet, while PTP is on; those of IPv4
begin with 01-00-5E (R243; PRESUMED, log 40). -/
def State.ethTakesMulticast (s : State) (p : EthPort) (f : EthFrame) : Bool :=
  f.ptpMulticast && s.ptpOn p && (f.toMac.toNat / 2 ^ 24 == 0x01005E) == s.ptpUdp p

/-- ETH_FRAME_RECEIVED (R243): the filters, then a datagram for a Sedge binding is passed on; PTP messages have steps of their
own; everything else is discarded. -/
def execEthFrameReceived (p : EthPort) (f : EthFrame) (s : State) : Host.Outcome State Fault Refusal :=
  onHead s fun s =>
    if !s.ethHears p f.vlan then s
    else if !(f.toMac == s.ethMac p) && !s.ethTakesMulticast p f then s
    else
      match f.body with
      | .udp dst src frag opt payload =>
        if frag || opt || f.dstIp.toNat ≠ s.ethIp p then s else s.udpDeliver p src dst f.srcIp payload
      | _ => s

/-- ARP_REQUEST_RECEIVED (R243), with the VLAN and the MAC address of its sender. -/
def execArpRequestReceived (p : EthPort) (sender : Nat × BitVec 48) (senderIp targetIp : Word) (s : State) :
    Host.Outcome State Fault Refusal :=
  onHead s fun s =>
    if s.ethHears p sender.1 && s.ethIp p != 0 && targetIp.toNat == s.ethIp p then
      s.ethEmit p (beBytes 2 0x0806 ++ beBytes 2 2 ++ beBytes 6 (s.ethMac p).toNat ++ beBytes 4 (s.ethIp p) ++
        beBytes 6 sender.2.toNat ++ beBytes 4 senderIp.toNat)
    else s

/-- ARP_REPLY_RECEIVED (R243): it fills or refreshes an entry, at most 64 of them, and the frames that waited go out. -/
def execArpReplyReceived (p : EthPort) (sender : Nat × BitVec 48) (senderIp : Word) (s : State) :
    Host.Outcome State Fault Refusal :=
  onHead s fun s =>
    let e := s.eth p
    let wait := e.arpTry.find? (·.1 == senderIp)
    if !s.ethHears p sender.1 || (wait.isNone && !e.arp.any (·.1 == senderIp)) then s
    else
      let rest := e.arp.filter (·.1 != senderIp)
      let s1 := s.modEth p fun e =>
        { e with arp := rest.drop (rest.length - 63) ++ [(senderIp, sender.2)]
                 arpTry := e.arpTry.filter (·.1 != senderIp) }
      match wait with
      | none => s1
      | some w => s1.each w.2.2 fun s b => s.ethEmit p (beBytes 6 sender.2.toNat ++ beBytes 6 (s.ethMac p).toNat ++ beBytes 2 0x0800 ++ b)

/-- ARP_RETRY_TIMEOUT (R243): the request is repeated up to 3 times; then the frames are dropped and the address stays
unresolved. -/
def execArpRetryTimeout (p : EthPort) (ip : Word) (s : State) : Host.Outcome State Fault Refusal :=
  onHead s fun s =>
    match (s.eth p).arpTry.find? (·.1 == ip) with
    | none => s
    | some (_, n, _) =>
      if n < 3 && s.ethOn p then
        (s.modEth p fun e =>
          { e with arpTry := e.arpTry.map fun x => if x.1 == ip then (x.1, n + 1, x.2.2) else x }).arpEmit p 1 ip
      else s.modEth p fun e => { e with arpTry := e.arpTry.filter (·.1 != ip), arp := e.arp.filter (·.1 != ip) }

/-- ARP_ENTRY_REFRESH (R243): the entry is asked for again. -/
def execArpEntryRefresh (p : EthPort) (ip : Word) (s : State) : Host.Outcome State Fault Refusal :=
  onHead s fun s =>
    let e := s.eth p
    if s.ethOn p && e.arp.any (·.1 == ip) && !e.arpTry.any (·.1 == ip) then
      (s.modEth p fun e => { e with arpTry := e.arpTry ++ [(ip, 1, [])] }).arpEmit p 1 ip
    else s

/-- ICMP_ECHO_REQUEST (R243), with its VLAN and the address of its sender: answered at up to 10 per second. -/
def execIcmpEchoRequest (p : EthPort) (sender : Nat × Word) (targetIp : Word) (data : List Byte) (now : Nat) (s : State) :
    Host.Outcome State Fault Refusal :=
  onHead s fun s0 =>
    let s := s0.at now
    let recent := (s.eth p).echoes.filter fun i => decide (s.now < i + 1000000000)
    if !s.ethHears p sender.1 || s.ethIp p = 0 || targetIp.toNat ≠ s.ethIp p || recent.length ≥ 10 then s
    else (s.modEth p fun e => { e with echoes := recent ++ [s.now] }).ethSend p sender.2 ([0] ++ data)

end Sys2Proof.Machine
end

