-- ==== Sys2Proof/Machine/Lin.lean ====
section
/-!
DEFINITION. The two LIN masters of a tile: schedule tables, responses and their errors, the panel signals, sleep and wake
(R292 to R296, R339).
-/

namespace Sys2Proof.Machine

/-- The kinds of schedule entry (R293, R339). -/
def linSlave (e : LinEntry) : Bool := e.kind == 1 || e.kind == 3

/-- The protected identifier: the frame identifier with its two parity bits (R293, ISO 17987). -/
def linPid (id : Nat) : Nat :=
  let b := fun i => id / 2 ^ i % 2
  id + 64 * ((b 0 + b 1 + b 2 + b 4) % 2) + 128 * ((1 + b 1 + b 3 + b 4 + b 5) % 2)

/-- The checksum of a response (R292, R293, R294): the inverted sum with carry of its data, of the protected identifier too when enhanced;
frames 0x3C and 0x3D alone are always classic. The sum is that of ISO 17987, which R292 names. -/
def linChecksum (e : LinEntry) (data : List Byte) : Byte :=
  let enhanced := e.checksum == 1 && e.frameId != 0x3C && e.frameId != 0x3D
  let sum := data.foldl (fun (n : Nat) b => let m := n + b.toNat; if m > 255 then m - 255 else m) (if enhanced then linPid e.frameId else 0)
  BitVec.ofNat 8 (255 - sum)

/-- The state with one master changed. -/
def State.modLin (s : State) (t : TileId) (l : Fin 2) (f : LinMaster → LinMaster) : State :=
  s.modTile t fun tl => { tl with lin := vmod tl.lin l f }

/-- A master of a tile. -/
def State.linOf (s : State) (t : TileId) (l : Fin 2) : LinMaster := ((s.tile t).lin)[l]

/-- The entries of the running table. -/
def LinMaster.table (m : LinMaster) : List LinEntry :=
  match m.running with
  | some k => m.tables[k]
  | none => []

/-- The entry of the slot under way (R293). -/
def LinMaster.current (m : LinMaster) : Option (Nat × LinEntry) :=
  match m.entry with
  | some i => (m.table[i]?).map fun e => (i, e)
  | none => none

/-! ### The schedule (R293, R296, R339) -/

/-- The slot in progress ends: a selected table takes over at its entry 0, the running one goes on or starts again. -/
def LinMaster.nextSlot (m : LinMaster) : LinMaster :=
  match m.selected with
  | some k => { m with selected := none, running := if (m.tables[k]).isEmpty then none else some k,
                       entry := if (m.tables[k]).isEmpty then none else some 0, awaiting := false }
  | none =>
    match m.running, m.entry with
    | some k, some i => { m with entry := some (if i + 1 < (m.tables[k]).length then i + 1 else 0), awaiting := false }
    | some _, none => { m with entry := some 0, awaiting := false }
    | none, _ => { m with entry := none, awaiting := false }

/-- Data that waits for the header of an entry is put into it (R339). -/
def LinMaster.takeData (m : LinMaster) (k : Fin 4) (i : Nat) : LinMaster :=
  match m.dataLoad.find? fun x => x.1 == k.val && x.2.1 == i with
  | none => m
  | some (_, _, d) =>
    { m with dataLoad := m.dataLoad.filter fun x => !(x.1 == k.val && x.2.1 == i)
             tables := vmod m.tables k fun t => t.modify i fun e => { e with data := d } }

/-- LIN_SLOT_START (R292, R293, R296): the break and header of the slot's entry, and the response with its checksum that the master itself sends. A
go-to-sleep request stops the schedule. Without the tile's service core the master stops (R27, R297). -/
def execLinSlotStart (t : TileId) (l : Fin 2) (s : State) : Host.Outcome State Fault Refusal :=
  onTile t s fun s =>
    let m := s.linOf t l
    if m.asleep || m.waking.isSome then s
    else if !(s.tile t).die.svc then s.modLin t l fun m => { m with entry := none, awaiting := false }
    else
      let m1 := m.nextSlot
      match m1.running, m1.entry with
      | some k, some i =>
        let m2 := m1.takeData k i
        (match (m2.tables[k])[i]? with
        | none => s.modLin t l fun _ => m2
        | some e =>
          let data := if linSlave e then [] else padTo e.len e.data
          let resp := if linSlave e then [] else data ++ [linChecksum e data]
          let sleeps := e.kind == 2 && data.head? == some 0
          let m3 := if sleeps then
              { m2 with asleep := true, running := none, entry := none, selected := some (m2.selected.getD k) }
            else { m2 with awaiting := linSlave e }
          (s.modLin t l fun _ => m3).emit (.lin t l ((s.tile t).parN 0x10 1 l.val) (linPid e.frameId) resp))
      | _, _ => s.modLin t l fun _ => m1

/-! ### Errors and silence (R294) -/

/-- An error of an entry (NO_RESPONSE 0, INCOMPLETE 1, CHECKSUM 2, FRAMING 3, BIT 4): its counter, the first LIN-error event
of its kind within 10 s, and panel-silent when lin_silent_max responses in a row are errors. -/
def State.linError (s : State) (t : TileId) (l : Fin 2) (i : Nat) (slave : Bool) (err : Nat) : State :=
  let m := s.linOf t l
  let k := 8 * i + err
  let due := match m.errAt.find? (·.1 == k) with
    | some (_, at_) => decide ((s.now : Int) ≥ at_ + 10000000000)
    | none => true
  let s1 := s.modLin t l fun m =>
    { m with counters := m.counters.count k, awaiting := false
             errAt := if due then SMap.set m.errAt k s.now (-1) else m.errAt
             silence := if slave then SMap.count m.silence (8 * i + 5) else m.silence }
  let s2 := if due then s1.raise t 0x53 (leBytes 1 l.val ++ leBytes 1 i ++ leBytes 1 err) else s1
  let sil : SMap := (s2.linOf t l).silence
  if slave && sil.get (8 * i + 6) == 0 && decide (sil.get (8 * i + 5) ≥ (s2.tile t).par 0x10 2 l.val) then
    (s2.modLin t l fun m => { m with silence := SMap.set m.silence (8 * i + 6) 1 }).raise t 0x54
      (leBytes 1 l.val ++ leBytes 1 i)
  else s2

/-! ### The panel signals (R295) -/

/-- A bit of the last good response of an entry, as stored (0 none, else the response's number plus 1). -/
def linBit (stored : Int) (byte bitNo : Nat) : Bool :=
  decide (stored > 0) && (stored.toNat - 1) / 2 ^ (8 * byte + bitNo) % 2 == 1

/-- The signals of the panel map that belong to a master: entry, byte, bit, role (0 unused, 1 PUSH_OPEN, 2 OBSTRUCT). -/
def Tile.panelSignals (tl : Tile) (l : Fin 2) : List (Nat × Nat × Nat × Nat) :=
  (List.range 8).map fun i =>
    let p := fun row => tl.parN 0x91 row (8 * l.val + i)
    (p 0, p 1, p 2, p 3)

/-- Some OBSTRUCT signal of the tile reads set in the last good response that carries it. -/
def Tile.panelObstruct (tl : Tile) : Bool :=
  busIds.any fun l => (tl.panelSignals l).any fun (e, b, n, role) =>
    role == 2 && linBit ((tl.lin[l]).lastGood.get e) b n

/-- A good response of an entry: its signals go to the triad (R37, R117, R295), and the silence ends (R294). -/
def State.linGood (s : State) (t : TileId) (l : Fin 2) (i : Nat) (data : List Byte) : State :=
  let old := (s.linOf t l).lastGood.get i
  let new : Int := (ofLe data + 1 : Nat)
  let s1 := s.modLin t l fun m =>
    { m with awaiting := false, lastGood := SMap.set m.lastGood i new
             silence := SMap.set (SMap.set m.silence (8 * i + 5) 0) (8 * i + 6) 0 }
  let tl := s1.tile t
  let mine := (tl.panelSignals l).filter fun x => x.1 == i
  let obstruct := mine.any fun (_, b, n, role) => role == 2 && linBit new b n
  let push := mine.any fun (_, b, n, role) => role == 1 && linBit new b n && decide (old > 0) && !linBit old b n
  s1.modDoor t fun d =>
    { d with panelFlag := tl.panelObstruct, panelNew := d.panelNew || obstruct
             demPanelOpen := d.demPanelOpen || (push && tl.par 0x92 2 == 1) }

/-- LIN_RESPONSE_RECEIVED (R294, R295): a response to a slave entry, or a bit error in a header or in a response of the
master's own. -/
def execLinResponseReceived (t : TileId) (l : Fin 2) (r : LinResp) (now : Nat) (s : State) :
    Host.Outcome State Fault Refusal :=
  onTile t s fun s0 =>
    let s := s0.at now
    let m := s.linOf t l
    if !(s.tile t).die.svc then s
    else
      match m.current with
      | none => s
      | some (i, e) =>
        match r with
        | .bitErr => if linSlave e && !m.awaiting then s else s.linError t l i (linSlave e) 4
        | .framingErr => if m.awaiting then s.linError t l i true 3 else s
        | .bytes data sum =>
          if !m.awaiting || data.length != e.len then s
          else if sum == linChecksum e data then s.linGood t l i data
          else s.linError t l i true 2

/-- LIN_RESPONSE_TIMEOUT (R294): by the end of the maximum frame time no byte, or fewer than len, have come. -/
def execLinResponseTimeout (t : TileId) (l : Fin 2) (bytes : Nat) (now : Nat) (s : State) :
    Host.Outcome State Fault Refusal :=
  onTile t s fun s0 =>
    let s := s0.at now
    let m := s.linOf t l
    match m.current with
    | none => s
    | some (i, e) =>
      if !m.awaiting || !(s.tile t).die.svc || bytes ≥ e.len then s
      else s.linError t l i true (if bytes = 0 then 0 else 1)

/-! ### Sleep and wake (R296) -/

/-- A sleeping master begins its 100 ms. -/
def State.linWake (s : State) (t : TileId) (l : Fin 2) (cause : Fin 2) : State :=
  if (s.linOf t l).asleep then s.modLin t l fun m => { m with asleep := false, waking := some cause } else s

/-- LIN_WAKE_PULSE (R296). -/
def execLinWakePulse (t : TileId) (l : Fin 2) (s : State) : Host.Outcome State Fault Refusal :=
  onTile t s fun s => if (s.tile t).die.svc then s.linWake t l 0 else s

/-- LIN_WAKE_DELAY_END (R296): the selected table starts at entry 0 with the next slot, and the event is raised. -/
def execLinWakeDelayEnd (t : TileId) (l : Fin 2) (s : State) : Host.Outcome State Fault Refusal :=
  onTile t s fun s =>
    match (s.linOf t l).waking with
    | none => s
    | some c => (s.modLin t l fun m => { m with waking := none }).raise t 0x55 (leBytes 1 l.val ++ leBytes 1 c.val)

/-! ### Commands (R293, R339) -/

/-- An entry obeys R293: the rule that it breaks, at a bit rate. -/
def linEntryBroken (rate : Nat) (e : LinEntry) : Bool :=
  !(decide (e.frameId ≤ 63) && decide (e.kind ≤ 3) && decide (1 ≤ e.len ∧ e.len ≤ 8) && decide (e.checksum ≤ 1) &&
    decide (1 ≤ e.slot ∧ e.slot ≤ 255) && (e.kind != 2 || e.frameId == 0x3C) && (e.kind != 3 || e.frameId == 0x3D) &&
    decide (e.slot * rate ≥ 1400 * (34 + 10 * (e.len + 1))))

/-- LIN_SCHED_LOAD (R339): the whole table, refused as a whole (R7). -/
def execLinSchedLoad (h : HostCmd) (master table : Nat) (entries : List LinEntry) (s : State) :
    Host.Outcome State Fault Refusal :=
  onCmd h 0x62 s fun s =>
    if h.dmaFault then s.complete h 0x62 0x09 0
    else if hc : master < 2 ∧ table < 4 then
      let l : Fin 2 := ⟨master, hc.1⟩
      let k : Fin 4 := ⟨table, hc.2⟩
      let rate := (s.tile h.tile).parN 0x10 0 master
      if entries.length > 64 then s.complete h 0x62 0x14 339 (leBytes 1 0xFF)
      else
        match entries.findIdx? (linEntryBroken rate) with
        | some i => s.complete h 0x62 0x14 293 (leBytes 1 i)
        | none =>
          if (s.linOf h.tile l).running = some k then s.complete h 0x62 0x17 0
          else (s.modLin h.tile l fun m =>
            { m with tables := vset m.tables k entries
                     dataLoad := m.dataLoad.filter (·.1 != table) }).complete h 0x62 0 0
    else s.complete h 0x62 0x14 339 (leBytes 1 0xFF)

/-- LIN_SCHED_LOAD with data_only (R339): the data of the named entries, from the next header of each. -/
def execLinSchedLoadDataOnly (h : HostCmd) (master table : Nat) (entries : List LinEntry) (s : State) :
    Host.Outcome State Fault Refusal :=
  onCmd h 0x62 s fun s =>
    if h.dmaFault then s.complete h 0x62 0x09 0
    else if hc : master < 2 ∧ table < 4 then
      let l : Fin 2 := ⟨master, hc.1⟩
      let k : Fin 4 := ⟨table, hc.2⟩
      let n := ((s.linOf h.tile l).tables[k]).length
      if entries.length > n then s.complete h 0x62 0x14 339 (leBytes 1 n)
      else
        let new := (List.range entries.length).map fun i => (table, i, ((entries[i]?).map (·.data)).getD [])
        (s.modLin h.tile l fun m =>
          { m with dataLoad := (m.dataLoad.filter fun x => !new.any fun y => y.1 == x.1 && y.2.1 == x.2.1) ++
                     new }).complete h 0x62 0 0
    else s.complete h 0x62 0x14 339 (leBytes 1 0xFF)

/-- LIN_SCHED_SELECT (R293, R296): the table that runs from the end of the slot in progress; it wakes a sleeping master. -/
def execLinSchedSelect (h : HostCmd) (master table : Nat) (s : State) : Host.Outcome State Fault Refusal :=
  onCmd h 0x63 s fun s =>
    if hc : master < 2 ∧ table < 4 then
      let l : Fin 2 := ⟨master, hc.1⟩
      let k : Fin 4 := ⟨table, hc.2⟩
      ((s.modLin h.tile l fun m => { m with selected := some k }).linWake h.tile l 1).complete h 0x63 0 0
    else s.complete h 0x63 0x14 339 (leBytes 1 0xFF)

end Sys2Proof.Machine
end

