-- ==== Sys2Proof/Machine/Sedge.lean ====
section
/-!
DEFINITION. Sedge connections: the frame and its check value, the receiver's checks and states, sending, bindings (R206 to
R215, R340).
-/

namespace Sys2Proof.Machine

/-- The state with one connection changed. -/
def State.modConn (s : State) (t : TileId) (k : Fin 32) (f : SedgeConn → SedgeConn) : State :=
  s.modTile t fun tl => { tl with sedge := vmod tl.sedge k f }

/-- A connection of a tile. -/
def State.conn (s : State) (t : TileId) (k : Fin 32) : SedgeConn := ((s.tile t).sedge)[k]

/-- The identity of a connection; 0 where no bundle defines it (R208). -/
def Tile.connId (tl : Tile) (k : Fin 32) : Nat := tl.parN 0x89 1 k.val + 2 ^ 32 * tl.parN 0x89 2 k.val

/-- The connection's time class is RING (R208). -/
def Tile.connRing (tl : Tile) (k : Fin 32) : Bool := tl.par 0x89 3 k.val == 0

/-- The connection receives (R208). -/
def Tile.connRx (tl : Tile) (k : Fin 32) : Bool := tl.par 0x89 0 k.val == 1

/-- The substitute payload of a connection (R208). -/
def Tile.subst (tl : Tile) (k : Fin 32) : List Byte :=
  (List.range 8).flatMap fun i => leBytes 4 (tl.parN 0x89 (13 + i) k.val)

/-- The payload that a connection delivers (R211). -/
def Tile.delivered (tl : Tile) (k : Fin 32) : List Byte :=
  let c := tl.sedge[k]
  if c.state == .valid then c.payload else tl.subst k

/-- The board tile number of a tile (R304). -/
def State.boardTile (s : State) (t : TileId) : Nat := 4 * s.pkg + t.num

/-! ### Signals (R213) -/

/-- The bytes of a one-byte signal in a payload, one for each entry of its kind that the payload reaches. -/
def Tile.sigBytes (tl : Tile) (k : Fin 32) (kind : Nat) (payload : List Byte) : List Byte :=
  (tl.sigOffsets k.val kind).filterMap fun off => payload[off]?

/-- TRK_GRADE of what the connection delivers is applied to trk_grade, unless its magnitude exceeds grade_max (R108, R213); of several
entries the last counts (DESIGN CHOICE, log entry 56). -/
def State.sedgeGrade (s : State) (t : TileId) (k : Fin 32) : State :=
  let tl := s.tile t
  s.each (tl.sigBytes k 3 (tl.delivered k)) fun s b =>
    let v := signed 8 b.toNat
    if (v.natAbs : Int) ≤ tl.par 0x81 5 then
      s.modTile t fun tl => { tl with written := pSet tl.written (pKey 0x11 7 0 none) v }
    else s

/-- A bit of DOOR_CMD that newly reads set is a demand of the next evaluation (R37, R213). -/
def State.sedgeDemand (s : State) (t : TileId) (k : Fin 32) (before : List Byte) : State :=
  let tl := s.tile t
  let bitOf := fun (p : List Byte) (n : Nat) => (tl.sigBytes k 1 p).any fun b => b.getLsbD n
  let rises := fun n => bitOf (tl.delivered k) n && !bitOf before n
  s.modDoor t fun d =>
    { d with demSedgeOpen := if rises 0 then d.demSedgeOpen ++ [k] else d.demSedgeOpen
             demSedgeClose := if rises 1 then d.demSedgeClose ++ [k] else d.demSedgeClose }

/-! ### States (R211) -/

/-- A change of a connection's state with its event; a connection that no longer delivers its payload delivers subst, whose TRK_GRADE counts
where it receives (R213). -/
def State.setSedge (s : State) (t : TileId) (k : Fin 32) (st : SedgeState) : State :=
  let old := (s.conn t k).state
  if old = st then s
  else
    let s1 := (s.modConn t k fun c => { c with state := st }).raise t 0x66
      (leBytes 1 k.val ++ leBytes 1 old.code ++ leBytes 1 st.code)
    if (old == .valid || old == .closed) && (s.tile t).connRx k then s1.sedgeGrade t k else s1

/-- The connection starts: bound, or redefined by a bundle (R211). -/
def State.sedgeStart (s : State) (t : TileId) (k : Fin 32) : State :=
  (s.modConn t k fun c => { c with run := 0, fails := [], bothSeq := [] }).setSedge t k .starting

/-- Every bound connection of a tile reopens at start-up (R209). -/
def State.sedgeReopen (s : State) (t : TileId) : State :=
  s.each connIds fun s k => if (s.conn t k).binding.isSome then s.sedgeStart t k else s

/-- The connections whose identity or time class differs from what it was enter STARTING, but for those in FAILED (R211,
R215). -/
def State.sedgeRebase (s : State) (t : TileId) (old : Tile) : State :=
  s.each connIds fun s k =>
    let tl := s.tile t
    let c := s.conn t k
    if c.binding.isSome && c.state != .failed && c.state != .closed &&
        (tl.connId k != old.connId k || tl.connRing k != old.connRing k) then s.sedgeStart t k else s

/-- What a connection delivers differs from what it delivered before a bundle: its TRK_GRADE takes effect (R108, R213). -/
def State.sedgeRegrade (s : State) (t : TileId) (old : Tile) : State :=
  s.each connIds fun s k =>
    let tl := s.tile t
    if tl.connRx k && tl.sigBytes k 3 (tl.delivered k) != old.sigBytes k 3 (old.delivered k) then s.sedgeGrade t k else s

/-! ### Receiving (R210) -/

/-- The instants of failures that lie inside fail_window. -/
def Tile.failsInside (tl : Tile) (k : Fin 32) (now : Nat) (l : List Nat) : List Nat :=
  l.filter fun i => decide (now ≤ i + tl.parN 0x89 12 k.val * 3600000000000)

/-- A failed check (1 to 5): its counter, a broken run, the first Sedge-error event within 10 s, and FAILED when fail_max
check failures lie inside fail_window (R210, R211). -/
def State.sedgeFail (s : State) (t : TileId) (k : Fin 32) (check : Fin 5) : State :=
  let counter : Fin 5 := match check with
    | 0 => 0
    | 1 => 1
    | 2 => 1
    | 3 => 2
    | 4 => 3
  let c := s.conn t k
  let due : Bool := (c.errAt[check]).all fun i => decide (s.now ≥ i + 10000000000)
  let tl := s.tile t
  let fails : List Nat := if check = 0 then tl.failsInside k s.now c.fails ++ [s.now] else c.fails
  let s1 : State := s.modConn t k fun c =>
    { c with counters := vmod c.counters counter fun n => sat32 (n + 1), run := 0, fails := fails
             errAt := if due then vset c.errAt check (some s.now) else c.errAt }
  let s2 := if due then s1.raise t 0x67 (leBytes 1 k.val ++ leBytes 1 (check.val + 1) ++ leBytes 2 0 ++
      leBytes 4 ((s1.conn t k).counters[counter])) else s1
  if check = 0 && decide ((fails.length : Int) ≥ tl.par 0x89 11 k.val) then s2.setSedge t k .failed else s2

/-- An accepted frame counts towards restore_count; the last that it needs makes the connection VALID (R211). -/
def State.sedgeCount (s : State) (t : TileId) (k : Fin 32) : State :=
  let s1 := if (s.conn t k).state == .starting then s.setSedge t k .substitute else s
  if (s1.conn t k).state != .substitute then s1
  else
    let run := (s1.conn t k).run + 1
    let s2 := s1.modConn t k fun c => { c with run := run }
    if (run : Int) ≥ (s2.tile t).par 0x89 10 k.val then s2.setSedge t k .valid else s2

/-- The watchdog of a VALID connection has expired: it substitutes (R211). -/
def State.sedgeLate (s : State) (t : TileId) (k : Fin 32) : State :=
  let c := s.conn t k
  if c.state == .valid && decide (s.now ≥ c.wdAt + 1000000 * (s.tile t).parN 0x89 9 k.val) then
    (s.modConn t k fun c => { c with run := 0 }).setSedge t k .substitute
  else s

/-- A frame that passed every check is accepted: GAP, the baseline, the payload, the state, the watchdog, and what its signals say
(R210, R211, R213). An expiry of the watchdog that falls due with it is taken first (R215). -/
def State.sedgeAccept (s : State) (t : TileId) (k : Fin 32) (seq : BitVec 16) (payload : List Byte) : State :=
  let tl := s.tile t
  let c := s.conn t k
  let gap := if c.state == .starting then 0 else (seq - c.lastSeq).toNat - 1
  let s0 := s.sedgeLate t k
  let before := (s0.tile t).delivered k
  let s1 := (s0.modConn t k fun c =>
    { c with lastSeq := seq, lastTs := s.classTs (tl.connRing k), wdAt := s.now, payload := payload
             counters := vmod c.counters 4 fun n => sat32 (n + gap) }).sedgeCount t k
  if (s1.conn t k).state == .valid then (s1.sedgeDemand t k before).sedgeGrade t k else s1

/-- SEDGE_FRAME_RECEIVED (R210): the five checks in order; STARTING skips the last two. A CAN frame's bytes after the check
value are ignored (R214). -/
def execSedgeFrameReceived (t : TileId) (conn : Fin 32) (frame : List Byte) (now : Nat) (s : State) :
    Host.Outcome State Fault Refusal :=
  onTile t s fun s0 =>
    let s := s0.at now
    let tl := s.tile t
    let c := s.conn t conn
    if !tl.triadRuns || !tl.die.svc || c.binding.isNone || c.state == .closed || !tl.connRx conn then s
    else if !tl.triadActs then s.holdBack t (.sedgeFrameReceived t conn frame now)
    else
      let lenByte := (fieldLe frame 8 1)
      let n := lenByte % 64
      let fr : List Byte := match c.binding with
        | some (.can _ _ _ _ _) => frame.take (13 + n)
        | _ => frame
      let body := fr.take (9 + n)
      let ring := tl.connRing conn
      let age := tsDiff (s.classTs ring) (BitVec.ofNat 32 (ofBe (slice fr 2 4)))
      let maxAge : Int := min ((ofBe (slice fr 6 2) : Int) * 10000) (tl.par 0x89 6 conn.val * 1000)
      let seq : BitVec 16 := BitVec.ofNat 16 (ofBe (fr.take 2))
      let d := (seq - c.lastSeq).toNat
      let old := c.state != .starting
      if decide (n > 32) || decide (lenByte ≥ 64) || decide (fr.length ≠ 13 + n) ||
          decide (scv (tl.connId conn) body ≠ ofBe (slice fr (9 + n) 4)) then s.sedgeFail t conn 0
      else if !s.classSync ring then s.sedgeFail t conn 1
      else if age < -(tl.par 0x89 7 conn.val * 1000) || age > maxAge then s.sedgeFail t conn 2
      else if old && d = 0 then s.sedgeFail t conn 3
      else if old && (d : Int) > tl.par 0x89 8 conn.val then s.sedgeFail t conn 4
      else s.sedgeAccept t conn seq (slice fr 9 n)

/-- SEDGE_WATCHDOG_EXPIRY (R211), of a connection at an instant: a VALID connection that has accepted no frame for wd_time substitutes. -/
def execSedgeWatchdogExpiry (t : TileId) (due : Fin 32 × Nat) (s : State) : Host.Outcome State Fault Refusal :=
  onTile t s fun s0 =>
    let s := s0.at due.2
    if !(s.tile t).triadActs then s.holdBack t (.sedgeWatchdogExpiry t due) else s.sedgeLate t due.1

/-! ### Sending (R206, R207, R212 to R214) -/

/-- The signals that a connection sends: offset and bytes (R213). -/
def State.txSignals (s : State) (t : TileId) (k : Fin 32) : List (Nat × List Byte) :=
  let tl := s.tile t
  let d := tl.door
  let status := d.st.code + 16 * bit d.sraCmd + 32 * bit tl.link.up.srb + 64 * bit d.egress + 128 * bit s.sealOk
  (tl.sigOffsets k.val 4).map (fun off => (off, beBytes 2 status)) ++
  (tl.sigOffsets k.val 5).map fun off => (off, leBytes 1 (min 255 d.obstructions.length))

/-- Bytes written over a list at an offset. -/
def overlay (bs : List Byte) (off : Nat) (new : List Byte) : List Byte :=
  bs.take off ++ new ++ bs.drop (off + new.length)

/-- The payload of the next frame. The signals stand at their offsets; the length beyond the last of them, and the bytes
between them, are free values: the spec gives neither. -/
def State.txPayload (s : State) (t : TileId) (k : Fin 32) : List Byte × State :=
  let sigs := s.txSignals t k
  let need := sigs.foldl (fun n x => max n (x.1 + x.2.length)) 0
  let (len, s1) := s.draw
  let (fill, s2) := s1.draw
  let n := need + (len % (33 - need : Nat)).toNat
  ((sigs.foldl (fun bs x => overlay bs x.1 x.2) (leInt 32 fill)).take n, s2)

/-- The frame of some payload (R206, R207). -/
def State.txFrame (s : State) (t : TileId) (k : Fin 32) (payload : List Byte) : List Byte :=
  let tl := s.tile t
  let body := beBytes 2 (s.conn t k).txSeq.toNat ++ beBytes 4 (s.classTs (tl.connRing k)).toNat ++
    beBytes 2 (tl.parN 0x89 5 k.val / 10) ++ leBytes 1 payload.length ++ payload
  body ++ beBytes 4 (scv (tl.connId k) body)

/-- The head's ports of an Ethernet binding (R245). -/
def bindPorts (port : Nat) : List EthPort := if port = 0 then [.eth0] else if port = 1 then [.eth1] else [.eth0, .eth1]

/-- A frame to a tile of this package over the internal fabric: its connections bound to the sender take it (R21, R214). -/
def State.fabricDeliver (s : State) (peer from_ : Nat) (frame : List Byte) : State :=
  match TileId.ofNat? (peer % 4) with
  | none => s
  | some t =>
    if !(s.tile t).die.svc || !s.hasTile t then s
    else s.each connIds fun s k =>
      if (s.conn t k).binding == some (.fabric from_) && (s.tile t).connRx k then s.emit (.toTriad t k.val frame) else s

/-- The service core hands a frame to its channel unchanged (R212, R214). -/
def State.sedgeSend (s : State) (t : TileId) (addr : SedgeAddr) (frame : List Byte) : State :=
  match addr with
  | .causeway slot =>
    s.modCwy fun c => { c with txBuf := c.txBuf.filter (·.1 != slot) ++ [(slot, s.now, frame)] }
  | .can c b ext brs id =>
    if h : c < 2 ∧ b < 64 then s.canSedgePut t ⟨c, h.1⟩ ⟨b, h.2⟩ ext brs id frame else s
  | .ethernet ip pp lp port =>
    s.each (bindPorts port) fun s p => s.ethSend p ip (beBytes 2 lp ++ beBytes 2 pp ++ frame)
  | .fabric peer =>
    if peer / 4 = s.pkg then (s.emit (.sedgeFabric t peer frame)).fabricDeliver peer (s.boardTile t) frame
    else s.bwkSend (peer / 4) (.sedge peer (s.boardTile t) frame)

/-- SEDGE_TX_PERIOD (R212): the triad writes the frame, and the service core hands it on; without it nothing is sent. -/
def execSedgeTxPeriod (t : TileId) (conn : Fin 32) (s : State) : Host.Outcome State Fault Refusal :=
  onTile t s fun s =>
    let tl := s.tile t
    match (s.conn t conn).binding with
    | none => s
    | some addr =>
      if tl.connRx conn || !tl.die.svc then s
      else if !tl.triadActs then s.holdBack t (.sedgeTxPeriod t conn)
      else
        let (payload, s1) := s.txPayload t conn
        let frame := s1.txFrame t conn payload
        (s1.modConn t conn fun c => { c with txSeq := c.txSeq + 1 }).sedgeSend t addr frame

/-! ### Bindings (R209, R340) -/

/-- The rule that a channel's address breaks: 340, or 245 for an Ethernet port that cannot carry it (R245, R340). -/
def State.addrBroken (s : State) (t : TileId) (k : Fin 32) : SedgeAddr → Option Nat
  | .causeway slot =>
    let c := s.head.cwy
    let own := slotOwner c.slotTable slot == s.cwyNode
    if decide (slot < 256) && slotValid c.slotTable slot && own == !(s.tile t).connRx k then none else some 340
  | .can c b ext _ id => if c < 2 ∧ b < 64 ∧ (ext = true ∨ id.toNat < 2048) then none else some 340
  | .ethernet _ _ _ port =>
    if port > 2 then some 340
    else if (bindPorts port).all fun p => s.parH 0x12 0 p.num == 1 && s.ethIp p != 0 then none
    else some 245
  | .fabric peer => if peer < 16 then none else some 340

/-- A CAN buffer that cannot be bound: 285 when another connection owns it, 297 while HOST content is pending (R285, R297). -/
def State.bufferTaken (s : State) (t : TileId) : SedgeAddr → Option Nat
  | .can c b _ _ _ =>
    if h : c < 2 ∧ b < 64 then
      let k := s.canBuf t ⟨c, h.1⟩ ⟨b, h.2⟩
      if k.sedge.isSome then some 285
      else if k.pending.isSome || k.inArb.isSome || k.heldTx.isSome then some 297 else none
    else none
  | _ => none

/-- The frames per second of a tile's bound connections, with one more (R209). -/
def State.sedgeRate (s : State) (t : TileId) (k : Fin 32) : Rat :=
  ((connIds.filter fun j => j == k || (s.conn t j).binding.isSome).map fun j =>
    (1000000 : Rat) / (s.tile t).par 0x89 4 j.val).sum

/-- The owner of the CAN buffer of a binding is set; what a connection had to send is dropped with its binding. -/
def State.bindBuffer (s : State) (t : TileId) (addr : SedgeAddr) (owner : Option (Fin 32)) : State :=
  match addr with
  | .can c b _ _ _ =>
    if h : c < 2 ∧ b < 64 then
      s.modBuf t ⟨c, h.1⟩ ⟨b, h.2⟩ fun x =>
        { x with sedge := owner, pending := none, heldTx := none, abortWait := x.inArb.isSome }
    else s
  | _ => s

/-- SEDGE_OPEN (R209, R340): refusals with the lowest code first, then the binding, the completion before the event (R307), STARTING, and the
CONFIG record. -/
def execSedgeOpen (h : HostCmd) (conn : Nat) (addr : SedgeAddr) (s : State) : Host.Outcome State Fault Refusal :=
  onCmd h 0x64 s fun s =>
    let t := h.tile
    let tl := s.tile t
    if !tl.triadActs then s.holdBack t (.sedgeOpen h conn addr)
    else if hk : conn < 32 then
      let k : Fin 32 := ⟨conn, hk⟩
      let c := s.conn t k
      if tl.connId k = 0 then s.complete h 0x64 0x14 340 (leBytes 1 0xFF)
      else
        match s.addrBroken t k addr, s.bufferTaken t addr with
        | some rule, _ => s.complete h 0x64 0x14 rule (leBytes 1 0xFF)
        | none, some rule => s.complete h 0x64 0x1B rule
        | none, none =>
          if s.sedgeRate t k > 16000 then s.complete h 0x64 0x1D 209
          else if c.binding.isSome then s.complete h 0x64 0x1E 0
          else
            let s1 := (s.modConn t k fun c => { c with binding := some addr }).bindBuffer t addr (some k)
            ((s1.complete h 0x64 0 0 (leBytes 1 SedgeState.starting.code)).sedgeStart t k).configRecord t (some h) 0x64 0 [] [] []
    else s.complete h 0x64 0x14 340 (leBytes 1 0xFF)

/-- SEDGE_CLOSE (R211, R215, R307, R340): the binding is removed, and subst is delivered without a demand, a set bit of DOOR_CMD that no
evaluation has seen yet making none either. -/
def execSedgeClose (h : HostCmd) (conn : Nat) (s : State) : Host.Outcome State Fault Refusal :=
  onCmd h 0x65 s fun s =>
    let t := h.tile
    if !(s.tile t).triadActs then s.holdBack t (.sedgeClose h conn)
    else if hk : conn < 32 then
      let k : Fin 32 := ⟨conn, hk⟩
      match (s.conn t k).binding with
      | none => s.complete h 0x65 0 0 (leBytes 1 (s.conn t k).state.code)
      | some addr =>
        let s1 := ((s.bindBuffer t addr none).modConn t k fun c => { c with binding := none, run := 0 }).modDoor t fun d =>
          { d with demSedgeOpen := d.demSedgeOpen.filter (· != k), demSedgeClose := d.demSedgeClose.filter (· != k) }
        ((s1.complete h 0x65 0 0 (leBytes 1 SedgeState.closed.code)).setSedge t k .closed).configRecord t (some h) 0x65 0 [] [] []
    else s.complete h 0x65 0x14 340 (leBytes 1 0xFF)

end Sys2Proof.Machine
end

