-- ==== Sys2Proof/Machine/Rings.lean ====
section
/-!
DEFINITION. The host interface: ring registers and doorbells, descriptor fetch and its common checks, interrupts, sessions
and their ends (R299 to R320, R386 to R391).
-/

namespace Sys2Proof.Machine

/-! ### Rings by kind -/

/-- A ring of a kind, where there is one. -/
def HostIf.ring (h : HostIf) (k : RingKind) (n : Fin 32) : Ring :=
  match k with
  | .cmdq => h.cmdq[n]
  | .cpl => h.cpl[n]
  | .evt => h.evt.toList.getD n.val Ring.reset

/-- The host interface with a ring replaced. -/
def HostIf.setRing (h : HostIf) (k : RingKind) (n : Fin 32) (r : Ring) : HostIf :=
  match k with
  | .cmdq => { h with cmdq := vset h.cmdq n r }
  | .cpl => { h with cpl := vset h.cpl n r }
  | .evt => if he : n.val < 8 then { h with evt := vset h.evt ⟨n.val, he⟩ r } else h

/-- The state with a ring changed. -/
def State.modRing (s : State) (k : RingKind) (n : Fin 32) (f : Ring → Ring) : State :=
  s.modHost fun h => h.setRing k n (f (h.ring k n))

/-- A ring. -/
def State.ring (s : State) (k : RingKind) (n : Fin 32) : Ring := s.head.host.ring k n

/-- The number of a ring kind in the queue-error event (R400). -/
def ringCode : RingKind → Nat
  | .cmdq => 0
  | .cpl => 1
  | .evt => 2

/-- The size of a ring's entries in bytes (R300). -/
def ringEntry : RingKind → Nat
  | .cmdq => 64
  | _ => 32

/-- An open session of version 1.0. -/
def State.v1 (s : State) : Bool := s.head.host.sessionOpen && s.head.host.version == 0x0100

/-- The ring lies within the limits of version 1.0 (R315). -/
def v1Ring (k : RingKind) (n : Fin 32) : Bool :=
  match k with
  | .evt => decide (n.val < 2)
  | _ => decide (n.val < 8)

/-- The device takes register writes: it is ready, and its endpoint serves the host and is in D0 (R298, R299, R369). -/
def State.hostReady (s : State) : Bool := s.head.host.ready && s.isHead && !s.head.pcie.d3hot

/-! ### Doorbells (R302, R303) -/

/-- A doorbell write of 32 bits, or of 64 bits whose high half is zero, any other being ignored (R302): bits 31:12, an index outside the ring, or one that would put the host's index past the device's stops
the ring with its event. -/
def State.doorbell (s : State) (k : RingKind) (n : Fin 32) (value : BitVec 64) : State :=
  let r := s.ring k n
  if value.toNat ≥ 2 ^ 32 || !s.hostReady || !r.enabled || (s.v1 && !v1Ring k n) then s
  else
    let i := value.toNat
    let span := (i + r.size - r.hostIndex) % r.size
    let room := match k with
      | .cmdq => (r.devIndex + r.size - 1 - r.hostIndex) % r.size
      | _ => (r.devIndex + r.size - r.hostIndex) % r.size
    if i = r.hostIndex then s
    else if i ≥ r.size || span > room then
      (s.modRing k n fun r => { r with stopped := true }).raiseHead 0x40
        (leBytes 1 (ringCode k) ++ leBytes 1 n.val ++ leBytes 2 0 ++ leBytes 4 i) (logged := true)
    else s.modRing k n fun r => { r with hostIndex := i }

/-- CMDQ_DOORBELL (R302, R303). -/
def execCmdqDoorbell (q : Fin 32) (value : BitVec 64) (s : State) : Host.Outcome State Fault Refusal :=
  onHead s fun s => s.doorbell .cmdq q value

/-- CPL_DOORBELL (R302, R303). -/
def execCplDoorbell (c : Fin 32) (value : BitVec 64) (s : State) : Host.Outcome State Fault Refusal :=
  onHead s fun s => s.doorbell .cpl c value

/-- EVT_DOORBELL (R302, R303). -/
def execEvtDoorbell (e : Fin 8) (value : BitVec 64) (s : State) : Host.Outcome State Fault Refusal :=
  onHead s fun s => s.doorbell .evt (Fin.ofNat 32 e.val) value

/-! ### Ring registers (R390, R391) -/

/-- The fields of a CTL value, when it keeps reserved bits zero and size_log2 in range (R390). -/
def ctlFields (k : RingKind) (w : Nat) (r : Ring) : Option Ring :=
  let size := w / 2 % 16
  let bits := fun lo n => w / 2 ^ lo % 2 ^ n
  let ok := match k with
    | .cmdq => bits 5 3 == 0 && bits 13 3 == 0 && bits 18 14 == 0
    | _ => bits 5 1 == 0 && bits 12 20 == 0
  if ok && decide (4 ≤ size ∧ size ≤ 12) then
    some (match k with
      | .cmdq => { r with sizeLog2 := size, route := bits 8 5, prio := bits 16 2 }
      | _ => { r with sizeLog2 := size, route := bits 6 6 })
  else none

/-- Clearing enable (rules 4 to 6 of R391): a command queue stops fetching, a completion ring stops only when no enabled
queue names it and nothing is reserved, an event ring stops at once. -/
def State.ringDisable (s : State) (k : RingKind) (n : Fin 32) : State :=
  let r := s.ring k n
  let held := match k with
    | .cpl => s.head.host.cmdq.toList.any (fun q => q.enabled && q.route == n.val) || r.reserved != 0
    | _ => false
  if !r.enabled || held then s else s.modRing k n fun r => { r with enabled := false, busy := true, stopped := false }

/-- A write to a CTL register (rules 1 to 3 of R391). -/
def State.ctlWrite (s : State) (k : RingKind) (n : Fin 32) (value : Word) : State :=
  let r := s.ring k n
  let w := value.toNat
  if !s.hostReady then s
  else
    match ctlFields k w r with
    | none => s
    | some new =>
      let on := w % 2 == 1
      if r.enabled then
        (if !on && new == r then s.ringDisable k n else s)
      else if r.busy then s
      else if !on then s.modRing k n fun _ => new
      else
        let room := decide (r.base.toNat + 2 ^ new.sizeLog2 * ringEntry k ≤ 2 ^ 64)
        let cq := match k with
          | .cmdq => (s.ring .cpl (Fin.ofNat 32 new.route)).enabled && !(s.ring .cpl (Fin.ofNat 32 new.route)).busy
          | _ => true
        if room && cq && (!s.v1 || v1Ring k n) then
          s.modRing k n fun _ =>
            { new with enabled := true, devIndex := 0, hostIndex := 0, phase := true, stopped := false
                       unsignalled := 0, lost := 0, markAt := none, recHeld := false, ringHeld := false }
        else s

/-- A CTL write that only clears enable. -/
def State.ctlClear (s : State) (k : RingKind) (n : Fin 32) : State := if s.hostReady then s.ringDisable k n else s

/-- CMDQ_ENABLE (R391): the CTL write that sets enable; bit 0 is set by the command's own name. -/
def execCmdqEnable (q : Fin 32) (ctl : Word) (s : State) : Host.Outcome State Fault Refusal :=
  onHead s fun s => s.ctlWrite .cmdq q (ctl ||| 1)

/-- CMDQ_DISABLE (R391, rule 4). -/
def execCmdqDisable (q : Fin 32) (s : State) : Host.Outcome State Fault Refusal :=
  onHead s fun s => s.ctlClear .cmdq q

/-- CPL_RING_ENABLE (R391). -/
def execCplRingEnable (c : Fin 32) (ctl : Word) (s : State) : Host.Outcome State Fault Refusal :=
  onHead s fun s => s.ctlWrite .cpl c (ctl ||| 1)

/-- CPL_RING_DISABLE (R391, rule 5). -/
def execCplRingDisable (c : Fin 32) (s : State) : Host.Outcome State Fault Refusal :=
  onHead s fun s => s.ctlClear .cpl c

/-- EVT_RING_ENABLE (R391). -/
def execEvtRingEnable (e : Fin 8) (ctl : Word) (s : State) : Host.Outcome State Fault Refusal :=
  onHead s fun s => s.ctlWrite .evt (Fin.ofNat 32 e.val) (ctl ||| 1)

/-- EVT_RING_DISABLE (R391, rule 6). -/
def execEvtRingDisable (e : Fin 8) (s : State) : Host.Outcome State Fault Refusal :=
  onHead s fun s => s.ctlClear .evt (Fin.ofNat 32 e.val)

/-- RING_DISABLE_COMPLETE (R391): busy clears. -/
def execRingDisableComplete (k : RingKind) (n : Fin 32) (s : State) : Host.Outcome State Fault Refusal :=
  onHead s fun s => if (s.ring k n).busy then s.modRing k n fun r => { r with busy := false } else s

/-! ### Interrupts (R312, R387) -/

/-- INTERRUPT_MODERATION_TIMEOUT (R312): imod_time has passed after the first unsignalled record. -/
def execInterruptModerationTimeout (k : RingKind) (n : Fin 32) (s : State) : Host.Outcome State Fault Refusal :=
  onHead s fun s =>
    let r := s.ring k n
    if k == .cmdq || !r.enabled || r.unsignalled = 0 then s
    else (s.modRing k n fun r => { r with unsignalled := 0 }).signal r.route

/-- One word of the MSI-X table written: unmasking a vector sends its pending message (R312). -/
def State.msixWrite (s : State) (i : Nat) (value : Nat) : State :=
  let v := i / 4
  let s1 := s.modHost fun h =>
    { h with msix := if i % 4 = 3 then SMap.set h.msix i value 1 else SMap.set h.msix i value }
  if i % 4 = 3 && value % 2 = 0 && s1.head.host.pba.getLsbD v then
    (s1.modHost fun h => { h with pba := h.pba &&& ~~~(BitVec.ofNat 64 (2 ^ v)) }).emit (.msix v)
  else s1

/-- MSIX_VECTOR_UNMASK (R312). -/
def execMsixVectorUnmask (v : Fin 64) (s : State) : Host.Outcome State Fault Refusal :=
  onHead s fun s => if s.hostReady then s.msixWrite (4 * v.val + 3) 0 else s

/-! ### Ends of a session (R316, R317) -/

/-- A reset of the PCIe endpoint of a package that serves a host; the function is in D0 after it (R298, R316). -/
def State.endpointReset (s : State) : State :=
  if s.isHead then s.hostReset.modHead fun h => { h with pcie := Pcie.reset } else s

/-- PCIE_CONVENTIONAL_RESET (R316). -/
def execPcieConventionalReset (s : State) : Host.Outcome State Fault Refusal := onHead s State.endpointReset

/-- PCIE_HOT_RESET (R316). -/
def execPcieHotReset (s : State) : Host.Outcome State Fault Refusal := onHead s State.endpointReset

/-- FUNCTION_LEVEL_RESET (R316). -/
def execFunctionLevelReset (s : State) : Host.Outcome State Fault Refusal := onHead s State.endpointReset

/-- PCIE_LINK_DOWN (R316). -/
def execPcieLinkDown (s : State) : Host.Outcome State Fault Refusal := onHead s State.endpointReset

/-- BUS_MASTER_ENABLE_CLEARED (R316): the end of a session, which leaves the rest of the configuration space. -/
def execBusMasterEnableCleared (s : State) : Host.Outcome State Fault Refusal :=
  onHead s fun s => if s.isHead then s.hostReset else s

/-- The write of 1 to HIF_CTL.sess_end: no effect while no session is open (R389). -/
def State.sessEnd (s : State) : State := if s.head.host.sessionOpen then s.hostReset else s

/-- SESS_END (R316, R389). -/
def execSessEnd (s : State) : Host.Outcome State Fault Refusal := onHead s State.sessEnd

/-- A command held for its not-before time completes ABORTED, and the service core of another package that holds it drops it (R305, R317). -/
def State.abortHeld (s : State) (o : Outstanding) : State :=
  let s1 := match o.forwarded with
    | some (k, _) => s.bwkSend k.val (.abort o.ref)
    | none => s
  s1.completeOut o 0x08 0 []

/-- BYE (R317): held commands complete ABORTED, and BYE completes once nothing else is outstanding. -/
def execBye (h : HostCmd) (s : State) : Host.Outcome State Fault Refusal :=
  onCmd h 0x02 s fun s =>
    let s0 := s.modHost fun hi => { hi with bye := some h }
    let held := s0.head.host.outstanding.filter fun o => o.waiting && !o.remote
    let s1 := s0.each held fun s o => if s.head.host.outstanding.contains o then s.abortHeld o else s
    match s1.findOut h 0x02, s1.head.host.outstanding.filter (!·.remote) with
    | some o, [_] => (s1.completeRaw o 0 0 []).hostReset
    | _, _ => s1

/-- BYE_TIMEOUT (R317): 100 ms after BYE it completes, and the session ends; a BYE that is still held for its not-before time waits (R305). -/
def execByeTimeout (s : State) : Host.Outcome State Fault Refusal :=
  onHead s fun s =>
    match s.head.host.bye with
    | none => s
    | some h =>
      match s.findOut h 0x02 with
      | some o => if o.waiting then s else (s.completeRaw o 0 0 []).hostReset
      | none => s.hostReset

/-! ### Registers without a behaviour of their own (R386 to R390) -/

/-- A timer of the package is armed. -/
def State.timerArmed (s : State) : Bool := s.head.time.timers.toList.any (·.armed)

/-- A timer of another package of the board is armed, as far as its last state report or a TIMER_ARM on its way there tells (R389, R395). -/
def State.farArmed (s : State) : Bool :=
  s.head.board.timersArmed &&& s.head.board.reachable != 0 ||
    s.head.host.outstanding.any fun o => o.forwarded.isSome && o.opcode == 0x51

/-- IFC_CTL (R256, R389): a write leaves it unchanged while a timer of any package of the board is armed, or to 0 while the strap is high.
The value governs every package of the board. -/
def State.ifcWrite (s : State) (value : Word) : State :=
  if value.toNat ≥ 2 || s.timerArmed || s.farArmed || (s.head.time.compatStrap && value == 0) then s
  else (s.modTime fun tb => { tb with compatRk := value == 1 }).bwkTell (.compat (value == 1))

/-- IFC_CTL_WRITE (R389). -/
def execIfcCtlWrite (value : Word) (s : State) : Host.Outcome State Fault Refusal := onHead s fun s => s.ifcWrite value

/-- The count read clears in the package that holds it (R8, R386); a change after the read counts on (R395). -/
def State.changesRead (s : State) (count : Nat) : State :=
  s.modBoard fun b => { b with linkChanges := b.linkChanges - count }

/-- BWK_STATUS_READ (R375, R386): link_changes of the package whose window is read clears, in the window and in its package; another
package is told the count that was read (DESIGN CHOICE of the frame, log 17). -/
def execBwkStatusRead (pkg : Fin 4) (s : State) : Host.Outcome State Fault Refusal :=
  onHead s fun s =>
    if !s.isHead then s
    else
    let k := 0x4100 + 0x1000 * pkg.val
    let word := (s.windows.get k).toNat
    let s1 := { s with windows := SMap.set s.windows k (word % 2 ^ 24 : Nat) }
    if pkg.val = s.pkg then s1.changesRead (word / 2 ^ 24)
    else s1.bwkSend pkg.val (.changesRead (word / 2 ^ 24))

/-- The low or the high half of a ring's BASE: the register takes effect at the write of its high word (R386). -/
def State.baseWrite (s : State) (k : RingKind) (n : Fin 32) (off : Nat) (high : Bool) (value : Word) : State :=
  let r := s.ring k n
  if !high then s.modHost fun h => { h with lowWord := some (off, value) }
  else
    let low : Nat := match s.head.host.lowWord with
      | some (o, w) => if o + 4 = off then w.toNat else r.base.toNat % 2 ^ 32
      | none => r.base.toNat % 2 ^ 32
    let s1 := s.modHost fun h => { h with lowWord := none }
    if r.enabled || r.busy || low % 4096 ≠ 0 then s1
    else s1.modRing k n fun r => { r with base := BitVec.ofNat 64 (low + 2 ^ 32 * value.toNat) }

/-- IMOD of a completion or event ring (R390). -/
def State.imodWrite (s : State) (k : RingKind) (n : Fin 32) (value : Word) : State :=
  let r := s.ring k n
  let w := value.toNat
  let count := w % 256
  let time := w / 65536 % 16384
  if r.enabled || r.busy || w / 256 % 256 ≠ 0 || w / 2 ^ 30 ≠ 0 || count = 0 || time > 10000 then s
  else s.modRing k n fun r => { r with imodCount := count, imodTime := time }

/-- FILTER of an event ring (R390). -/
def State.filterWrite (s : State) (n : Fin 32) (value : Word) : State :=
  let r := s.ring .evt n
  let w := value.toNat
  if r.enabled || r.busy || w / 2 ^ 20 % 16 ≠ 0 || w / 2 ^ 29 ≠ 0 then s
  else s.modRing .evt n fun r =>
    { r with tiles := BitVec.ofNat 16 w, heads := BitVec.ofNat 4 (w / 2 ^ 16), classes := BitVec.ofNat 5 (w / 2 ^ 24) }

/-- A write into a ring's registers, by the offset inside the ring's 32 bytes (R390). -/
def State.ringWrite (s : State) (k : RingKind) (n : Fin 32) (off : Nat) (value : Word) : State :=
  match off % 32 with
  | 0x00 => s.baseWrite k n off false value
  | 0x04 => s.baseWrite k n off true value
  | 0x08 => s.ctlWrite k n value
  | 0x0C => if k == .cmdq then s else s.imodWrite k n value
  | 0x10 => if k == .evt then s.filterWrite n value else s
  | _ => s

/-- TIM_ETHp_LAT and TIM_ETHp_ASYM (R247). -/
def State.timWrite (s : State) (p : EthPort) (asym : Bool) (value : Word) : State :=
  if asym then
    (if (signed 32 value.toNat).natAbs ≤ 1000000 then s.modEth p fun e => { e with asym := value } else s)
  else s.modEth p fun e => { e with lat := value }

/-- A register of 64 bits stands at the offset: the BASE of a ring (R390). -/
def isWide (o : Nat) : Bool := decide (0x100 ≤ o ∧ o < 0xA00) && o % 32 == 0

/-- A 32-bit write by its BAR0 offset (R299, R386, R387). -/
def State.registerWrite (s : State) (o : Nat) (value : Word) : State :=
  if !s.isHead then s
  else if o = 0x20 then (if value == 1 then s.sessEnd else s)
  else if o = 0x24 then s.ifcWrite value
  else if o = 0x1040 then s.timWrite .eth0 false value
  else if o = 0x1044 then s.timWrite .eth0 true value
  else if o = 0x1048 then s.timWrite .eth1 false value
  else if o = 0x104C then s.timWrite .eth1 true value
  else if !s.hostReady then s
  else if 0x100 ≤ o ∧ o < 0x500 then s.ringWrite .cmdq (Fin.ofNat 32 ((o - 0x100) / 32)) o value
  else if 0x500 ≤ o ∧ o < 0x900 then s.ringWrite .cpl (Fin.ofNat 32 ((o - 0x500) / 32)) o value
  else if 0x900 ≤ o ∧ o < 0xA00 then s.ringWrite .evt (Fin.ofNat 32 ((o - 0x900) / 32)) o value
  else if 0xF000 ≤ o ∧ o < 0xF400 then s.msixWrite ((o - 0xF000) / 4) value.toNat
  else s

/-- REGISTER_WRITE (R386): its length in bytes and its value; a write of an aligned word, or of an aligned 64-bit register or table entry, low word first; any other
size or alignment is ignored. -/
def execRegisterWrite (offset : BitVec 16) (data : Nat × BitVec 64) (s : State) : Host.Outcome State Fault Refusal :=
  onHead s fun s =>
    let o := offset.toNat
    if data.1 = 4 && o % 4 == 0 then s.registerWrite o (BitVec.ofNat 32 data.2.toNat)
    else if data.1 = 8 && o % 8 == 0 && (isWide o || decide (0xF000 ≤ o ∧ o < 0xF400)) then
      (s.registerWrite o (BitVec.ofNat 32 data.2.toNat)).registerWrite (o + 4) (BitVec.ofNat 32 (data.2.toNat / 2 ^ 32))
    else s

/-! ### Descriptors (R304, R309, R315, R321, R322) -/

/-- The targets of R322. -/
inductive TargetClass where
  | board | package | tile | axis | axisC | cfg
  deriving DecidableEq, Repr

/-- Payload length and target class of an opcode (R321). -/
def opInfo (op : Nat) : Option (Nat × TargetClass) :=
  match op with
  | 0x01 => some (12, .board)
  | 0x02 => some (0, .board)
  | 0x10 => some (48, .cfg)
  | 0x11 => some (48, .cfg)
  | 0x12 => some (12, .tile)
  | 0x13 => some (0, .tile)
  | 0x20 => some (0, .tile)
  | 0x21 => some (0, .tile)
  | 0x22 => some (0, .tile)
  | 0x23 => some (0, .tile)
  | 0x24 => some (0, .tile)
  | 0x25 => some (0, .axisC)
  | 0x26 => some (0, .axisC)
  | 0x27 => some (1, .tile)
  | 0x28 => some (4, .axis)
  | 0x29 => some (0, .tile)
  | 0x30 => some (5, .tile)
  | 0x31 => some (5, .tile)
  | 0x32 => some (8, .tile)
  | 0x40 => some (3, .tile)
  | 0x41 => some (16, .tile)
  | 0x42 => some (16, .axis)
  | 0x43 => some (16, .axis)
  | 0x44 => some (1, .tile)
  | 0x50 => some (4, .package)
  | 0x51 => some (32, .package)
  | 0x52 => some (1, .package)
  | 0x60 => some (48, .tile)
  | 0x61 => some (2, .tile)
  | 0x62 => some (12, .tile)
  | 0x63 => some (2, .tile)
  | 0x64 => some (20, .tile)
  | 0x65 => some (1, .tile)
  | 0x70 => some (16, .package)
  | 0x71 => some (0, .package)
  | 0x72 => some (32, .tile)
  | 0x80 => some (8, .tile)
  | 0x81 => some (1, .tile)
  | 0x90 => some (20, .package)
  | 0x91 => some (0, .package)
  | 0x92 => some (12, .package)
  | 0x93 => some (32, .package)
  | _ => none

/-- The opcodes of version 1.0, and those that 2.0 adds (R315). -/
def ops10 : List Nat :=
  [0x01, 0x02, 0x10, 0x11, 0x20, 0x21, 0x22, 0x23, 0x24, 0x25, 0x26, 0x27, 0x28, 0x29, 0x30, 0x31, 0x32, 0x51, 0x52, 0x60,
   0x61, 0x62, 0x63, 0x70]
def ops20 : List Nat := [0x12, 0x13, 0x40, 0x41, 0x42, 0x43, 0x50, 0x64, 0x65, 0x71, 0x72, 0x80]

/-- The opcode belongs to the version (R315). -/
def opInVersion (v op : Nat) : Bool :=
  (opInfo op).isSome &&
  (if v ≥ 0x0201 then true else if v ≥ 0x0200 then ops10.contains op || ops20.contains op else ops10.contains op)

/-- The package serves the board tile: it has reported since power-on; a package's head is there while the package is
(R304, R377). -/
def State.tilePresent (s : State) (bt : Nat) : Bool := s.head.board.tilesPresent.getLsbD bt

/-- The packages of the board (R22, R369). -/
def State.pkgPresent (s : State) (k : Nat) : Bool := decide (k = s.pkg) || (s.joined && s.head.board.present.getLsbD k)

/-- The target is valid for the class in a version (R304, R315, R322). -/
def State.targetOk (s : State) (v : Nat) (c : TargetClass) (target : Nat) : Bool :=
  if v ≤ 0x0100 then
    decide (target < 4) && (match c with
      | .board => target == 0
      | .package => target == 0
      | _ => s.tilePresent (4 * s.pkg + target))
  else
    let bt := target % 16
    let ax := target / 16 % 8
    decide (target < 128) && (match c with
      | .board => target == 0x70
      | .package => ax == 7 && bt % 4 == 0 && s.pkgPresent (bt / 4)
      | .tile => ax == 7 && s.tilePresent bt
      | .axis => decide (ax < 3) && s.tilePresent bt
      | .axisC => ax == 2 && s.tilePresent bt
      | .cfg => (decide (ax < 3) || ax == 7) && s.tilePresent bt)

/-- The flags that a version has are the only ones set (R315). -/
def flagsOk (v flags : Nat) : Bool := if v ≥ 0x0300 then decide (flags < 8) else if v ≥ 0x0200 then decide (flags < 2) else flags == 0

/-- The reserved bits inside the payload of an opcode: offset from byte 16, and their mask (ch. 17). A value of an
enumeration that its opcode does not name counts as reserved. -/
def payloadReserved (op : Nat) (pl : List Byte) : List (Nat × Nat) :=
  let b := fun i => fieldLe pl i 1
  let zeros : Nat → Nat → List (Nat × Nat) := fun lo n => (List.range n).map fun i => (lo + i, 0xFF)
  match op with
  | 0x10 => (0, 0xFE) :: zeros 1 7 ++ (if b 0 = 0 then [(11, 0xFF), (19, 0xFF), (27, 0xFF), (35, 0xFF), (43, 0xFF)]
      else (11, 0xFF) :: zeros 24 24)
  | 0x11 => (0, 0xFE) :: zeros 1 7 ++ (if b 0 = 0 then (List.range 8).map fun i => (19 + 4 * i, 0xFF)
      else (19, 0xFF) :: zeros 24 24)
  | 0x27 => [(0, 0xFE)]
  | 0x30 => [(4, 0xFE)]
  | 0x31 => [(4, 0xFE)]
  | 0x40 => [(0, 0xFC), (1, 0xFE)]
  | 0x41 => zeros 2 6
  | 0x42 => [(0, 0xFE), (1, 0xFE), (6, 0xFF), (7, 0xFF)]
  | 0x43 => [(0, 0xFF), (1, 0xFE), (6, 0xFF), (7, 0xFF)]
  | 0x44 => [(0, 0xFE)]
  | 0x51 => [(1, 0xFC), (2, 0xFF), (3, 0xFF), (10, 0xFF), (11, 0xFF)]
  | 0x60 => [(2, 0xE0), (3, 0xF0), (7, 0xE0)]
  | 0x62 => [(3, 0xFE)]
  | 0x64 => [(1, 0xFC), (2, 0xFF), (3, 0xFF)] ++ (match b 1 with
      | 0 => zeros 5 15
      | 1 => (6, 0xFC) :: (7, 0xFF) :: (11, 0xE0) :: zeros 12 8
      | 2 => zeros 13 7
      | _ => zeros 5 15)
  | _ => []

/-- A reserved bit of the payload, or a byte beyond its length, is not zero (R304, R309). -/
def payloadDirty (op len : Nat) (pl : List Byte) : Bool :=
  ((payloadReserved op pl).any fun (i, m) => decide (fieldLe pl i 1 &&& m ≠ 0)) || decide (ofLe (pl.drop len) ≠ 0)

/-- The version that governs a descriptor: the session's, or 3.0 for HELLO (R309). -/
def State.descVersion (s : State) (op : Nat) : Nat := if op = 0x01 then 0x0300 else s.head.host.version.toNat

/-- The common status of a descriptor: the lowest code that applies (R309, R324), or none. -/
def State.commonStatus (s : State) (op flags len target : Nat) (pl : List Byte) : Option Nat :=
  let v := s.descVersion op
  if !s.head.host.sessionOpen && op ≠ 0x01 then some 0x01
  else if !opInVersion v op then some 0x02
  else
    match opInfo op with
    | none => some 0x02
    | some (n, c) =>
      if len ≠ n then some 0x03
      else if !s.targetOk v c target then some 0x04
      else if !flagsOk v flags then some 0x05
      else
        let bt := if v ≤ 0x0100 then 4 * s.pkg + target % 4 else target % 16
        let away : Bool := if bt / 4 = s.pkg then
            (match TileId.ofNat? (bt % 4) with
             | some t => !(s.tile t).die.svc
             | none => true)
          else !s.head.board.reachable.getLsbD (bt / 4)
        if away then some 0x0A
        else if payloadDirty op n pl then some 0x06 else none

/-! ### Fetching (R305 to R307) -/

/-- The queue may be served: enabled, not stopped, with entries, no fenced wait, and a completion entry that no earlier
fetch has reserved (R303, R305, R306, R317). -/
def State.queueReady (s : State) (q : Fin 32) : Bool :=
  let h := s.head.host
  let r := h.cmdq[q]
  let c := s.ring .cpl (Fin.ofNat 32 r.route)
  r.enabled && !r.stopped && !r.busy && r.hostIndex != r.devIndex && h.bye.isNone && decide (c.free > c.reserved) &&
    !(h.fenced.contains q && h.outstanding.any fun o => o.queue == q && !o.remote)

/-- The queue that is served next: the highest prio, then round-robin after the queue served last at that prio (R306). -/
def State.nextQueue (s : State) : Option (Fin 32) :=
  [3, 2, 1, 0].findSome? fun p =>
    let last := s.head.host.lastServed.toList.getD p 31
    ((List.range 32).map fun i => Fin.ofNat 32 (last + 1 + i)).find? fun q =>
      s.queueReady q && (s.head.host.cmdq[q]).prio == p

/-- An entry of the host interface replaced. -/
def State.setOut (s : State) (o new : Outstanding) : State :=
  s.modHost fun h => { h with outstanding := h.outstanding.map fun x => if x == o then new else x }

/-- A fetched command passed on: to its tile's service core, or over Boardwalk to its package (R371). There it acts, or is held for its
not-before time (R305). -/
def State.forward (s : State) (o : Outstanding) (hold : Bool := false) : State :=
  let k := o.target.toNat % 16 / 4
  let n := s.head.host.nextSeq
  if !s.joined || k = s.pkg || o.opcode ≤ 0x02 then s.setOut o { o with waiting := hold, behind := false }
  else
    ((s.setOut o { o with waiting := hold, behind := false, seq := n, forwarded := some (Fin.ofNat 4 k, false) }).modHost
      fun h => { h with nextSeq := n + 1 }).bwkSend k (.descriptor { o with seq := n }.ref o.session o.hostId o.desc)

/-- A command still waits for its not-before time (R305). -/
def State.tooSoon (s : State) (o : Outstanding) : Bool := o.flags.getLsbD 0 && decide (tsDiff o.notBefore s.ts > 0)

/-- DESCRIPTOR_FETCH (R305 to R309, R317): one descriptor of the queue whose turn it is. A command behind a held one of its queue waits at the
head, but BYE, which ends the held ones, does not (R307, R317; DESIGN CHOICE, log entry 15). -/
def execDescriptorFetch (q : Fin 32) (desc : Vector Byte 64) (s : State) : Host.Outcome State Fault Refusal :=
  onHead s fun s =>
    let h := s.head.host
    if !s.hostReady || !(s.tile .t0).die.svc || s.nextQueue ≠ some q then s
    else
      let d := desc.toList
      let op := fieldLe d 0 1
      let flags : Byte := BitVec.ofNat 8 (fieldLe d 1 1)
      let v := s.descVersion op
      let fence := flags.getLsbD 1 && decide (v ≥ 0x0300) && (h.sessionOpen || op == 0x01)
      if fence && h.outstanding.any (fun o => o.queue == q && !o.remote) then
        s.modHost fun h => { h with fenced := h.fenced ++ [q] }
      else
        let r := h.cmdq[q]
        let dev := if r.devIndex + 1 = r.size then 0 else r.devIndex + 1
        let c : Fin 32 := Fin.ofNat 32 r.route
        let o : Outstanding :=
          { queue := q, tag := BitVec.ofNat 32 (fieldLe d 4 4), opcode := op
            flags := if h.sessionOpen || op == 0x01 then flags else 0, target := BitVec.ofNat 32 (fieldLe d 8 4)
            sqHead := dev, notBefore := BitVec.ofNat 32 (fieldLe d 12 4), waiting := false, behind := false, accepted := false
            lost := false, session := h.session, forwarded := none, remote := false, desc := d, blocks := [], hostId := h.hostId
            cplRing := c }
        let s1 := ((s.modRing .cmdq q fun r => { r with devIndex := dev }).modRing .cpl c fun r =>
            { r with reserved := r.reserved + 1 }).modHost fun h =>
          { h with outstanding := h.outstanding ++ [o], fenced := h.fenced.filter (· != q)
                   lastServed := vset h.lastServed (Fin.ofNat 4 r.prio) q.val }
        match s.commonStatus op flags.toNat (fieldLe d 2 2) (fieldLe d 8 4) (d.drop 16) with
        | some st => s1.completeOut o st 0 []
        | none =>
          let held := decide (v ≥ 0x0200) && s.tooSoon o
          let behind := (h.outstanding.any fun x => x.queue == q && x.waiting && !x.remote) && op ≠ 0x02
          let s2 := if op = 0x02 then
              s1.modHost fun h => { h with bye := some { session := h.session, queue := q, tag := o.tag, tile := .t0,
                                                         axis := none, dmaFault := false, hostId := h.hostId } }
            else s1
          if behind then s2.setOut o { o with waiting := true, behind := true } else s2.forward o held

/-- Commands of a queue released in its order (R305, R307): one whose time has come acts at its tile, and the next, which waited behind it, is
passed on, to act or to be held there; the first whose time has not come ends it. One that was not yet passed on to its tile when its queue
stopped completes QUEUE_STOPPED (R309). -/
def State.releaseHeld (s : State) : List Outstanding → State
  | [] => s
  | o :: rest =>
    let soon := s.tooSoon o
    if o.behind && (s.head.host.cmdq[o.queue]).stopped then (s.completeOut o 0x0B 0 []).releaseHeld rest
    else
      let s1 := if o.behind then s.forward o soon else if soon then s else s.setOut o { o with waiting := false }
      if soon then s1 else s1.releaseHeld rest

/-- NOT_BEFORE_RELEASE (R305, R307): the held commands of the queue whose time has come act, at this package those too that the board head
forwarded to it. -/
def execNotBeforeRelease (q : Fin 32) (s : State) : Host.Outcome State Fault Refusal :=
  onHead s fun s =>
    let held := s.head.host.outstanding.filter fun o => o.queue == q && o.waiting
    (s.releaseHeld (held.filter (!·.remote))).each (held.filter (·.remote)) fun s o =>
      if s.tooSoon o then s else s.setOut o { o with waiting := false }

/-! ### HELLO (R313 to R315, R318) -/

/-- An event by its number, on every ring that admits it (R311): events of other packages come this way (R371). -/
def State.eventById (s : State) (id : Nat) (ts : Word) (data : List Byte) : State :=
  let pkg := id / 4096 % 16
  let src := id / 256 % 16
  let code := id % 256
  if !s.head.host.sessionOpen || !(s.tile .t0).die.svc then s
  else
    s.each evtRings fun s e =>
      let r := s.head.host.evt[e]
      let takes := if src = 15 then r.heads.getLsbD pkg
        else r.tiles.getLsbD (4 * pkg + src) && r.classes.getLsbD (eventClass code)
      if takes then s.evtSend e id ts data (decide (eventClass code ≥ 3)) else s

/-- The doorway state event of R318 for a tile of another package, from the last copy of its window. -/
def State.remoteDoorEvent (s : State) (bt : Nat) : State :=
  let st := (s.windows.get (0x8004 + 0x400 * bt)).toNat % 16
  s.eventById (bt / 4 * 4096 + bt % 4 * 256) s.ts (leBytes 1 st ++ leBytes 1 st ++ leBytes 2 0 ++ leBytes 4 s.ts.toNat)

/-- The board-strap-fault event (R369). -/
def State.strapEvent (s : State) : State :=
  let st := s.head.board.straps
  s.raiseHead 0x70 (leBytes 1 st.num.val ++
    leBytes 1 (ofBits [st.num.val % 2 == 1, decide (st.num.val ≥ 2), st.head, st.join]))

/-- The standing state of one tile (R318): each event once more, not logged. -/
def State.standingDoor (s : State) (t : TileId) : State :=
  let d := (s.tile t).door
  s.raise t 0x00 (leBytes 1 d.st.code ++ leBytes 1 d.st.code ++ leBytes 2 0 ++ leBytes 4 s.ts.toNat) (logged := false)

/-- The pending safety faults of the package's tiles, each once more (R195, R318). -/
def State.standingFaults (s : State) : State :=
  s.each s.tileIds fun s t =>
    s.each (s.faults t) fun s c => s.raise t 0x60 (leBytes 1 c ++ leBytes 1 (bit (untilReset c))) (logged := false)

/-- The conditions that stand on the package's tiles and at its head: calibration-ready, shadow-ready and stuck-reset (R318). -/
def State.standingConditions (s : State) : State :=
  let s1 := s.each s.tileIds fun s t =>
    match (s.tile t).door.cal with
    | .ready _ => s.raise t 0x2C [] (logged := false)
    | _ => s
  let s2 := s1.each s1.tileIds fun s t =>
    match (s.tile t).door.shadow with
    | .ready m => s.raise t 0x30 (leBytes 1 m) (logged := false)
    | _ => s
  let h := s2.head
  if h.stuck then s2.raiseHead 0x61 (leBytes 1 (ofBits [h.resA.level, h.resB.level, h.stuckPower])) (logged := false) else s2

/-- The time-step-pending event, once more while a step is pending (R249, R318). -/
def State.standingStep (s : State) : State :=
  let tb := s.head.time
  match tb.recState, tb.stepOffset with
  | .stepPending, some o => s.raiseHead 0x03 (leBytes 4 tb.stepNum.toNat ++ leInt 8 o) (logged := false)
  | _, _ => s

/-- The first event records of a session, in the order of R318. The other packages are told of the session, and each raises its own standing
faults and conditions; their doorway states are those of their windows (log entry 17). -/
def State.standingEvents (s : State) : State :=
  let s1 := s.epochMark
  let s2 := s1.each s1.tileIds State.standingDoor
  let away := (List.range 16).filter fun bt => bt / 4 != s.pkg && s.joined && s.head.board.tilesUp.getLsbD bt
  let s3 := (s2.each away State.remoteDoorEvent).bwkTell (.session (some s.head.host.session))
  let s4 := s3.standingFaults.standingStep.standingConditions
  if s4.head.board.strapFault then s4.strapEvent else s4

/-- The tiles present on the board, as a mask (R314, R389). -/
def State.tileMask (s : State) : Nat := s.head.board.tilesPresent.toNat

/-- The packages on the board (R314, R389). -/
def State.packageCount (s : State) : Nat := if s.joined then max 1 s.head.board.packages else 1

/-- HELLO (R313 to R315, R318): a session that is open ends first; the highest version in the range is chosen, or none. -/
def execHello (h : HostCmd) (verMin verMax : BitVec 16) (hostId : BitVec 64) (s : State) :
    Host.Outcome State Fault Refusal :=
  onCmd h 0x01 s fun s0 =>
    let s := if s0.head.host.sessionOpen then s0.hostReset else s0
    match ([0x0300, 0x0201, 0x0200, 0x0100] : List (BitVec 16)).find? fun v => verMin.toNat ≤ v.toNat && v.toNat ≤ verMax.toNat with
    | none => s.complete h 0x01 0x07 0
    | some v =>
      if v == 0x0100 && h.queue.val ≥ 8 then s.complete h 0x01 0x04 0
      else
        let s1 := s.modHost fun hi =>
          { hi with sessionOpen := true, session := hi.session + 1, version := v, hostId := hostId
                    outstanding := hi.outstanding.map fun o =>
                      if o.queue == h.queue && o.tag == h.tag && !o.remote then { o with session := hi.session + 1 } else o }
        let s2 := if v == 0x0100 then
            let beyond := (List.finRange 32)
            let a := s1.each beyond fun s n => if v1Ring .cmdq n then s else s.ringDisable .cmdq n
            let b := a.each beyond fun s n => if v1Ring .cpl n then s else s.ringDisable .cpl n
            b.each beyond fun s n => if v1Ring .evt n then s else s.ringDisable .evt n
          else s1
        let tiles := ((List.range 16).filter s2.tilePresent).length
        (s2.complete { h with session := s2.head.host.session } 0x01 0 0
          (leBytes 2 v.toNat ++ leBytes 1 s2.packageCount ++ leBytes 1 tiles ++ leBytes 2 s2.tileMask ++ leBytes 2 0 ++
            leBytes 4 s2.head.host.session.toNat)).standingEvents

end Sys2Proof.Machine
end

