-- ==== Sys2Proof/Machine/Policy.lean ====
section
/-!
DEFINITION. The policy bundle: its layout and rules, staging, activation, and the steps in which bundles and written
parameters come into force (R7, R32, R93 to R96, R134, R142, R172, R176, R194, R332, R334, R360 to R363, R417).
-/

namespace Sys2Proof.Machine

/-! ### Layout (R360, R361, R417) -/

/-- The directory of a bundle: id, class, reserved byte, offset and length of each section (R360). -/
def bundleDir (b : List Byte) : List (Nat × Nat × Nat × Nat × Nat) :=
  (List.range (fieldLe b 12 4 % 65536)).map fun i =>
    let e := 48 + 12 * i
    (fieldLe b e 2, fieldLe b (e + 2) 1, fieldLe b (e + 3) 1, fieldLe b (e + 4) 4, fieldLe b (e + 8) 4)

/-- The body of a section. -/
def bundleSection (b : List Byte) (id : Nat) : List Byte :=
  match (bundleDir b).find? (·.1 == id) with
  | some (_, _, _, off, len) => slice b off len
  | none => []

/-- The role bytes of a bundle (R417). -/
def bundleRoles (b : List Byte) : List Nat := ((bundleSection b 6).take 22).map (·.toNat)

/-- The pieces of all sections of a bundle. -/
def bundlePieces (b : List Byte) (id : Nat) : List Piece := sectionPieces (bundleRoles b) id

/-- The parameters that a bundle holds, in section order. -/
def bundleValues (b : List Byte) : List (Nat × Int) :=
  sectionIds.flatMap fun i => (readPieces (bundlePieces b i) (bundleSection b i)).1

/-- The serial of a bundle (R360). -/
def bundleSerial (b : List Byte) : Nat := fieldLe b 8 4

/-- The safety sections of a bundle, concatenated (R361). -/
def bundleSafety (b : List Byte) : List Byte := safetySections.flatMap (bundleSection b)

/-- The layout of R360 holds: format, reserved fields, total length, a number of sections that the bundle can hold, and bodies that follow the directory without a gap. -/
def bundleLayoutOk (b : List Byte) : Bool :=
  let dir := bundleDir b
  let first := 48 + 12 * dir.length
  let ends := dir.foldl (fun (acc : Nat × Bool) e => (acc.1 + e.2.2.2.2, acc.2 && e.2.2.2.1 == acc.1 && e.2.2.1 == 0)) (first, true)
  fieldLe b 0 2 == 1 && fieldLe b 2 2 == 0 && fieldLe b 4 4 == b.length && fieldLe b 12 4 == dir.length && ends.2 && ends.1 + sigLen == b.length

/-- Exactly the sections of R361, ascending, each once, with their classes. -/
def bundleSectionsOk (b : List Byte) : Bool :=
  (bundleDir b).map (fun e => (e.1, e.2.1)) == sectionIds.map fun i => (i, if i < 0x100 then 1 else 0)

/-- Lengths, reserved bytes and unused entries are as R417 lays them out. -/
def bundleBodiesOk (b : List Byte) : Bool :=
  sectionIds.all fun i =>
    let ps := bundlePieces b i
    let body := bundleSection b i
    body.length == piecesLen ps && (readPieces ps body).2 &&
    (i != 4 || (List.range 384).all fun e =>
      let s := slice body (32 * e) 32
      fieldLe s 6 1 % 2 == 1 || ofLe s == 0) &&
    (i != 9 || (List.range 32).all fun c => (List.range 8).all fun g =>
      let s := slice body (104 * c + 88 + 2 * g) 2
      fieldLe s 0 1 != 0 || fieldLe s 1 1 == 0) &&
    (i != 0x101 || (List.range 16).all fun g =>
      let s := slice body (4 * g) 4
      fieldLe s 3 1 != 0 || ofLe s == 0)

/-! ### Rules over the values -/

/-- The tile as it would stand with the bundle's values and every written parameter in force. -/
def Tile.prospect (tl : Tile) (vals : List (Nat × Int)) : Tile :=
  let w : SMap := vals.foldl (fun m p => pSet m p.1 p.2) tl.written
  let f : Axis → Axis := fun x => { x with inForce := w }
  { tl with written := w, inForce := w, ax := ⟨f tl.ax.a, f tl.ax.b, f tl.ax.c⟩ }

/-- A connection that the bundle leaves undefined: all of its 104 bytes are zero (R208). -/
def bundleConnEmpty (b : List Byte) (c : Nat) : Bool := ofLe (slice (bundleSection b 9) (104 * c) 104) == 0

/-- Ranges (R7) in a tile as it would stand: every value of a row lies in it, but for the rows of an undefined connection; a stake's hyst
lies from 0 to 5 000, but for the tables of axis B under stake_mirror_b, which are ignored (R106); step_min_deploy goes up to the travel_open
of axis C (R123). -/
def Tile.bundleRangesOk (tl : Tile) (b : List Byte) : Bool :=
  (bundleValues b).all fun p =>
    let tb := pKeyTable p.1
    if tb = 0x89 && bundleConnEmpty b (pKeyIdx p.1) then true
    else if (tb = 0x84 || tb = 0x85) && pKeyRow p.1 = 1 then
      decide (p.2 ≤ 5000) || (tl.par 0x11 2 == 1 && p.1 % 4 == AxisId.B.num)
    else if tb = 0x83 && pKeyRow p.1 = 6 then decide (0 ≤ p.2) && decide (p.2 ≤ tl.travel .C)
    else
      match pRow tb (pKeyRow p.1) (pKeyIdx p.1) with
      | some r => r.ok p.2
      | none => true

/-- A limit of a stake is 0 or lies within the range of R45. -/
def stakeLimitOk (row : Nat) (v : Int) : Bool :=
  v == 0 || (match pRow 0x03 row 0 with
    | some r => r.ok v
    | none => true)

/-- The outputs that a stake may name (R96, rule 7; R150): LS0 only in an open table and off, never LS8 or LS9, no PIN channel,
and an IO pin only as an output with no role. -/
def Tile.outMaskOk (tl : Tile) (d : Dir) (mask val : BitVec 16) : Bool :=
  !mask.getLsbD 8 && !mask.getLsbD 9 && (!mask.getLsbD 0 || (d == .opening && !val.getLsbD 0)) &&
  ([10, 11, 12, 13, 14, 15].all fun p => !mask.getLsbD p || (tl.par 0x0C 0 p == 1 && !tl.hasRole p))

/-- One valid stake keeps rules 2 to 9 and 11 of R96. -/
def Tile.stakeOk (tl : Tile) (a : AxisId) (d : Dir) (i : Nat) : Bool :=
  let f := tl.stake a d i
  let bit := tl.stakeBit a d i
  let leaf := a != .C
  let mask := BitVec.ofInt 16 (f 9)
  decide (-(tl.preload a) - tl.closedBand a ≤ f 0) && decide (f 0 ≤ tl.travel a + tl.openBand a) &&
  (!bit 2 2 || decide (f 1 ≥ 1)) && (!bit 3 4 || bit 2 1) && (!bit 3 5 || a == .C) &&
  stakeLimitOk 0 (f 5) && stakeLimitOk 3 (f 6) && decide (f 7 ≤ 7) && decide (f 8 ≤ 1) &&
  tl.outMaskOk d mask (BitVec.ofInt 16 (f 10)) &&
  (!(bit 4 5 || bit 4 6) || leaf) && (!bit 4 6 || tl.stepFitted) &&
  (!bit 4 3 || (decide (1 ≤ f 12 ∧ f 12 ≤ 60000) && (match d with
    | .opening => decide (f 11 > f 0)
    | .closing => decide (f 11 < f 0)))) &&
  decide ((f 2).toNat < 8) && decide ((f 3).toNat < 64) && decide ((f 4).toNat < 256)

/-- The first valid entry of a Stake table that breaks R96: its predecessor is not valid, its position is out of order, or the
stake itself is out of order. -/
def Tile.tableOffends (tl : Tile) (a : AxisId) (d : Dir) : Option Nat :=
  let l := tl.stakes a d
  l.find? fun i => !(tl.stakeOk a d i && (i == 0 || (l.contains (i - 1) && (match d with
    | .opening => decide (tl.stake a d (i - 1) 0 ≤ tl.stake a d i 0)
    | .closing => decide (tl.stake a d (i - 1) 0 ≥ tl.stake a d i 0)))))

/-- The first entry of the Stake tables that breaks R96, in the order of the tables in their section. -/
def Tile.stakeOffends (tl : Tile) : Option Nat :=
  AxisId.all.findSome? fun a => (tl.tableOffends a .opening).or (tl.tableOffends a .closing)

/-- The close table of every used leaf axis holds a LOCK_EXPECT (R96, rule 10). -/
def Tile.lockExpected (tl : Tile) : Bool :=
  tl.leafAxes.all fun a => (tl.stakes a .closing).any fun i => tl.stakeBit a .closing i 4 5

/-- The roles keep R176 and R33: pins of the right kind, each with one role; pairs on inputs of one type fed from TPA and TPB
with disc_time above their debounce; edges fed from a source, active LOW. -/
def Tile.rolesOk (tl : Tile) : Bool :=
  let r := tl.roles
  let p : Nat → Nat := fun i => r.getD i 0xFF
  let held := r.filter (· != 0xFF)
  held.Nodup &&
  (List.range 10).all (fun i => decide (p i < 16)) &&
  [10, 11, 12, 13].all (fun i => decide (16 ≤ p i ∧ p i < 20)) &&
  [14, 15, 16, 17, 18, 19, 20, 21].all (fun i => decide (32 ≤ p i ∧ p i < 42) || (i != 14 && p i == 0xFF)) &&
  (List.range 10).all (fun i => tl.par 0x0C 0 (p i) == 0 && tl.par 0x0C 4 (p i) != 0) &&
  (List.range 4).all (fun i =>
    let a := p (2 * i)
    let b := p (2 * i + 1)
    tl.par 0x0C 1 a == tl.par 0x0C 1 b && tl.par 0x0C 4 a != tl.par 0x0C 4 b &&
    decide (1000 * tl.par 0x0C 7 i > max (tl.par 0x0C 2 a) (tl.par 0x0C 2 b))) &&
  [8, 9].all (fun i => tl.par 0x0C 3 (p i) == 1)

/-- The leaf heater's 8 A fit LS9 alone (R33, R149). -/
def Tile.ratingsOk (tl : Tile) : Bool := tl.role 21 == 41 || tl.role 21 == 0xFF

/-- The signals of a connection: kinds of R213, none beyond 32 bytes, none over another. -/
def Tile.sigMapOk (tl : Tile) (c : Nat) : Bool :=
  let sigs := ((List.range 8).map fun i => (tl.parN 0x89 (21 + 2 * i) c, tl.parN 0x89 (22 + 2 * i) c)).filter (·.1 != 0)
  let width : Nat → Nat := fun k => if k = 2 || k = 4 then 2 else 1
  let cells : List Nat := sigs.flatMap fun g => (List.range (width g.1)).map (g.2 + ·)
  sigs.all (fun g => decide (g.1 ≤ 5)) && cells.all (· < 32) && decide cells.Nodup

/-- The first connection that the bundle defines and whose identity is 0 or that of an earlier one (R208). -/
def Tile.connOffends (tl : Tile) (b : List Byte) : Option Nat :=
  let l := ((List.finRange 32).filter fun c => !bundleConnEmpty b c.val)
  (l.find? fun c => tl.connId c == 0 || l.any fun x => decide (x.val < c.val) && tl.connId x == tl.connId c).map (·.val)

/-- ls_src PIN stands only on channels with no role, and no stake names one (R150). -/
def Tile.pinChannelsOk (tl : Tile) : Bool :=
  (List.range 10).all fun ch => tl.par 0x0B 0 ch == 0 ||
    (!tl.hasRole (32 + ch) && AxisId.all.all fun a => [Dir.opening, Dir.closing].all fun d => (tl.stakes a d).all fun i =>
      !(BitVec.ofInt 16 (tl.stake a d i 9)).getLsbD ch)

/-- The first panel signal that does not name a byte and a bit of a LIN response and a role that there is (R295). -/
def Tile.panelOffends (tl : Tile) : Option Nat :=
  (List.range 16).find? fun i => !(tl.parN 0x91 3 i = 0 ||
    (decide (tl.parN 0x91 1 i < 8) && decide (tl.parN 0x91 2 i < 8) && decide (tl.parN 0x91 3 i ≤ 2)))

/-- The first rule that a bundle breaks with the index of the entry that breaks it, 0xFF where the rule has none (R323); or
none: its layout first, then ranges, then the rules of the chapters. -/
def Tile.bundleBroken (tl : Tile) (b : List Byte) : Option (Nat × Nat) :=
  let whole : Bool → Nat → Option (Nat × Nat) := fun bad r => if bad then some (r, 0xFF) else none
  let entry : Option Nat → Nat → Option (Nat × Nat) := fun i r => i.map ((r, ·))
  let p := tl.prospect (bundleValues b)
  (whole (!bundleLayoutOk b) 360).orElse fun _ =>
  (whole (!bundleSectionsOk b) 361).orElse fun _ =>
  (whole (!bundleBodiesOk b) 417).orElse fun _ =>
  (whole (!p.bundleRangesOk b) 7).orElse fun _ =>
  (whole (!p.ratingsOk) 33).orElse fun _ =>
  (entry p.stakeOffends 96).orElse fun _ =>
  (whole (!p.lockExpected) 96).orElse fun _ =>
  (whole (decide ((p.par 0x11 7).natAbs > p.parN 0x81 5)) 108).orElse fun _ =>
  (whole (!p.pinChannelsOk) 150).orElse fun _ =>
  (whole (decide (p.par 0x0C 5 > 150)) 173).orElse fun _ =>
  (whole (!p.rolesOk) 176).orElse fun _ =>
  (entry (p.connOffends b) 208).orElse fun _ =>
  (entry ((List.range 32).find? fun c => !p.sigMapOk c) 213).orElse fun _ =>
  entry p.panelOffends 295

/-- The digest of an object, zero when there is none (R357). -/
def digestOf (o : Option (List Byte)) : List Byte :=
  match o with
  | some b => digest b
  | none => List.replicate 32 0

/-! ### Loading and activating (R334) -/

/-- POLICY_LOAD (R334, R360): signature first, then the rules; the bundle is staged in place of any earlier one. -/
def execPolicyLoad (h : HostCmd) (bundle : List Byte) (s : State) : Host.Outcome State Fault Refusal :=
  onCmd h 0x12 s fun s =>
    let tl := s.tile h.tile
    if h.dmaFault then s.complete h 0x12 0x09 0
    else if bundle.length > 65536 then s.complete h 0x12 0x14 334 [0xFF]
    else if !tl.die.bundleSigned bundle then s.complete h 0x12 0x1F 0
    else
      match tl.bundleBroken bundle with
      | some (r, i) => s.complete h 0x12 0x14 r (leBytes 1 i)
      | none => (s.modDie h.tile fun d => { d with staged := some bundle }).complete h 0x12 0 0

/-- The safety parameters in force on a tile (R193, R361). -/
def Tile.safetySectionBytes (tl : Tile) : List Byte :=
  safetySections.flatMap fun i => writePieces tl.inForce (sectionPieces tl.roles i)

/-- A calibration run is under way (R142): a cycle runs, or one has run and the next is waited for. -/
def Doorway.calRun (d : Doorway) : Bool :=
  match d.cal with
  | .cycle _ _ _ => true
  | .ready n => n != 0
  | _ => false

/-- POLICY_ACTIVATE (R194, R334): NOT_READY with nothing staged; the seal must match when safety parameters change and a
seal code is in force; byte 20 says whether the effect is deferred. -/
def execPolicyActivate (h : HostCmd) (s : State) : Host.Outcome State Fault Refusal :=
  onCmd h 0x13 s fun s =>
    let t := h.tile
    let tl := s.tile t
    if !tl.triadActs then s.holdBack t (.policyActivate h)
    else
      match tl.die.staged with
      | none => s.complete h 0x13 (if tl.door.activating.isSome then 0x17 else 0x18) 0
      | some b =>
        let differs := bundleSafety b != tl.safetySectionBytes
        if s.sealInForce && differs && !s.sealOk then
          let dg := digestOf tl.die.bundle
          (s.configRecord t (some h) 0x13 0x13 dg dg []).complete h 0x13 0x13 194
        else if tl.door.activating.isSome then s.complete h 0x13 0x17 0
        else
          let s1 := (s.modDie t fun d => { d with staged := none }).modDoor t fun d => { d with activating := some (h, b) }
          s1.complete h 0x13 0 0 (leBytes 1 (bit (tl.anyPass || tl.door.calRun)))

/-! ### Coming into force -/

/-- The axes whose estimator parameters differ from what they were (R134). -/
def Tile.estimatorChanged (tl old : Tile) : List AxisId :=
  AxisId.all.filter fun a => (List.range 5).any fun r => tl.parA a 0x81 r != old.parA a 0x81 r

/-- The pulse counts of R174 start afresh for every input (R172). -/
def FieldDie.restartPulses (f : FieldDie) : FieldDie :=
  { f with io := vmap (fun p => { p with ownFails := 0, ownPasses := 0, othFails := 0, othPasses := 0 }) f.io }

/-- Every value of a bundle put into the parameters of a tile, written and in force. -/
def Tile.applyBundle (tl : Tile) (b : List Byte) : Tile :=
  let put : SMap → SMap := fun m => (bundleValues b).foldl (fun m p => pSet m p.1 p.2) m
  { tl with written := put tl.written, inForce := put tl.inForce
            die := { tl.die with bundle := some b, policyOk := true }
            door := { tl.door with activating := none } }

/-- POLICY_BUNDLE_TAKES_EFFECT (R93, R134, R142, R172, R194, R334, R349): in the first evaluation with no pass, after any
calibration run. -/
def execPolicyBundleTakesEffect (t : TileId) (s : State) : Host.Outcome State Fault Refusal :=
  onTile t s fun s =>
    let old := s.tile t
    match old.door.activating with
    | none => s
    | some (h, b) =>
      if old.triadRuns && !old.triadActs then s.holdBack t (.policyBundleTakesEffect t)
      else if !old.triadActs || old.anyPass || old.door.calRun then s
      else
        let s1 := s.modTile t fun tl => tl.applyBundle b
        let new := s1.tile t
        let s2 := s1.each (new.estimatorChanged old) fun s a => s.soundingsCleared t a
        let s3 := if new.par 0x0C 5 != old.par 0x0C 5 || new.par 0x0C 6 != old.par 0x0C 6 then
            s2.modField t FieldDie.restartPulses else s2
        let s4 := ((s3.pairsRefresh t).sedgeRebase t old).sedgeRegrade t old
        let s5 := s4.configRecord t (some h) 0x13 0 (digestOf old.die.bundle) (digest b) []
        s5.raise t 0x76 (leBytes 4 (bundleSerial b))

/-- One written value taken into force. -/
def takeIn (written m : SMap) (k : Nat) : SMap := pSet m k (pGet written k)

/-- TILE_PARAMETERS_TAKE_EFFECT (R32, R332): rows 0 to 4 of table 0x11, in the first evaluation with no pass. -/
def execTileParametersTakeEffect (t : TileId) (s : State) : Host.Outcome State Fault Refusal :=
  onTile t s fun s =>
    let tl := s.tile t
    if tl.triadRuns && !tl.triadActs then s.holdBack t (.tileParametersTakeEffect t)
    else if !tl.triadActs || tl.anyPass then s
    else
      s.modTile t fun tl =>
        { tl with inForce := (List.range 5).foldl (fun m r => takeIn tl.written m (pKey 0x11 r 0 none)) tl.inForce }

/-- The keys of the per-axis tables 0x01 and 0x03 to 0x08 for an axis (R330). -/
def axisKeys (a : AxisId) : List Nat :=
  ([1, 3, 4, 5, 6, 7, 8] : List Nat).flatMap fun tb => (List.range 26).flatMap fun r =>
    (List.range 9).filterMap fun i =>
      match pRow tb r i with
      | some p => if i < p.idx then some (pKey tb r i (some a)) else none
      | none => none

/-- AXIS_PARAMETERS_TAKE_EFFECT (R134, R332): the axis tables, when no pass runs on the axis. -/
def execAxisParametersTakeEffect (t : TileId) (a : AxisId) (s : State) : Host.Outcome State Fault Refusal :=
  onTile t s fun s =>
    let old := s.tile t
    if (old.ax.get a).pa.active then s
    else
      let s1 := s.modAxis t a fun x => { x with inForce := (axisKeys a).foldl (takeIn old.written) x.inForce }
      let new := s1.tile t
      if new.parA a 0x01 0 != old.parA a 0x01 0 || new.travel a != old.travel a then s1.soundingsCleared t a else s1

end Sys2Proof.Machine
end

