-- ==== Sys2Proof/Machine/Cfg.lean ====
section
/-!
DEFINITION. CFG_WRITE and CFG_READ in both forms, with the rules that a set of parameters keeps and the blocks
(R329 to R333; R45, R50, R53, R76, R77, R85, R106, R108, R150, R162, R244, R262, R284, R406).
-/

namespace Sys2Proof.Machine

/-! ### Places (R330) -/

/-- A package-head table, or ring_sync_max (R330). -/
def headRow (table row : Nat) : Bool := table == 0x0D || table == 0x0E || table == 0x12 || (table == 0x11 && row == 11)

/-- The row that a param and an index name, where CFG_WRITE and CFG_READ reach one. -/
def cfgRow (param : BitVec 16) (index : Byte) : Option PRow :=
  let tb := param.toNat / 256
  if tb < 1 || tb > 0x12 then none
  else
    match pRow tb (param.toNat % 256) index.toNat with
    | some r => if index.toNat < r.idx then some r else none
    | none => none

/-- The axis on which a command's per-axis rows act: the one that its target names; in version 1.0, whose targets name no
axis, axis A. -/
def State.cfgAxis (s : State) (h : HostCmd) : Option AxisId := if s.v1 then some .A else h.axis

/-- The target is wrong for a row: per-axis without an axis, or of the head elsewhere (R330). -/
def State.cfgBadTarget (s : State) (h : HostCmd) (param : BitVec 16) (index : Byte) : Bool :=
  (headRow (param.toNat / 256) (param.toNat % 256) && h.tile != .t0) ||
  (match cfgRow param index with
   | some r => r.axis && (s.cfgAxis h).isNone
   | none => false)

/-- The key of a row for a command. -/
def State.cfgKey (s : State) (h : HostCmd) (param : BitVec 16) (index : Byte) : Nat :=
  let a := match cfgRow param index with
    | some r => if r.axis then s.cfgAxis h else none
    | none => none
  pKey (param.toNat / 256) (param.toNat % 256) index.toNat a

/-- The fallback image's row (R330). -/
def imageParam : BitVec 16 := 0x110C

/-- What a row reads as: the written value, or the image in force (R162). -/
def State.cfgValue (s : State) (h : HostCmd) (param : BitVec 16) (index : Byte) : Int :=
  let tl := s.tile h.tile
  if param = imageParam then (tl.field.image.toNat : Int) else pGet tl.written (s.cfgKey h param index)

/-! ### Rules over one entry -/

/-- A refusal: status, detail and the index of the offending entry. -/
abbrev CfgRefusal := Nat × Nat × Nat

/-- The safety parameters that CFG_WRITE refuses (R167, R332). -/
def Tile.cfgSafety (tl : Tile) (param : BitVec 16) (index : Byte) (r : PRow) : Bool :=
  r.safety || (param.toNat / 256 == 0x0C && param.toNat % 256 < 5 && tl.hasRole index.toNat)

/-- The refusals of a write of the fallback image (R162, R194). -/
def State.imageRefusals (s : State) (t : TileId) (i : Nat) : List CfgRefusal :=
  let tl := s.tile t
  let stOk := tl.door.st == .isolated || (tl.door.st == .locked && !tl.releaseValid)
  (if stOk then [] else [(0x10, 162, i)]) ++ (if s.sealOk then [] else [(0x13, 194, i)]) ++
  (if tl.field.images.length ≥ 8 then [(0x20, 162, i)] else [])

/-- The range of a set-up parameter of the divided encoder output: enco_src A, B, C or OFF, coded 0 to 3 in that order (DESIGN CHOICE, log
entry 19), and the ratio's terms from 1 to 65 535 (R7, R92). -/
def encoOk (p : EncoParam) (v : Nat) : Bool :=
  match p with
  | .src => decide (v ≤ 3)
  | _ => decide (1 ≤ v ∧ v ≤ 65535)

/-- The set-up of the divided encoder output with one entry in place: source, n, m (R92). -/
def encoWith (x : Option AxisId × Nat × Nat) (e : CfgEntry) : Option AxisId × Nat × Nat :=
  let v := e.value.toNat
  match e.enco with
  | some .src => (if v = 0 then some .A else if v = 1 then some .B else if v = 2 then some .C else none, x.2)
  | some .n => (x.1, v, x.2.2)
  | some .m => (x.1, x.2.1, v)
  | none => x

/-- The refusals of one entry (R7, R92, R330 to R332). -/
def State.entryRefusals (s : State) (h : HostCmd) (i : Nat) (e : CfgEntry) : List CfgRefusal :=
  match e.enco with
  | some p => if encoOk p e.value.toNat then [] else [(0x14, 7, i)]
  | none =>
    (if s.cfgBadTarget h e.param e.index then [(0x04, 330, i)] else []) ++
    (match cfgRow e.param e.index with
     | none => [(0x14, 330, i)]
     | some r =>
       (if r.ok (r.decode e.value.toNat) then [] else [(0x14, 7, i)]) ++
       (if e.param = imageParam then s.imageRefusals h.tile i
        else if (s.tile h.tile).cfgSafety e.param e.index r then [(0x16, 332, i)] else []))

/-- The refusals of entries that name the same param and index as an earlier one (R329). -/
def duplicateRefusals (es : List (Nat × CfgEntry)) : List CfgRefusal :=
  es.filterMap fun (i, e) =>
    if es.any fun (j, f) => j < i && f.enco == e.enco && (e.enco.isSome || (f.param == e.param && f.index == e.index)) then
      some (0x14, 329, i) else none

/-! ### Rules over the set (R332) -/

/-- The rules that an axis's set of parameters breaks (R45, R49, R50, R53, R76, R77, R85, R406). -/
def Tile.axisBroken (p : Tile) (a : AxisId) : List Nat :=
  let g := fun tb row => p.parAN a tb row
  let used := p.used a
  let quad := g 0x08 0 == 1
  let ssi := g 0x08 10 == 1
  (if p.parA a 0x03 3 3 > p.parA a 0x03 3 1 then [45] else []) ++
  (if !used && g 0x04 0 != 2 then [49] else []) ++
  (if used && g 0x04 0 == 0 && !(g 0x08 6 == 1 || ssi) then [50] else []) ++
  (if g 0x05 1 == g 0x05 0 || 2 * g 0x05 1 == g 0x05 0 then [] else [53]) ++
  (if used && !quad && !ssi then [76] else []) ++
  (if 1 ≤ g 0x08 4 && g 0x08 4 ≤ 15 then [77] else []) ++
  (let f := g 0x08 15
   let fl := g 0x05 1
   if (g 0x08 11 + 1) * 1000000000 * fl + (g 0x08 16 + 1000 * g 0x08 17) * f * fl ≤ g 0x08 18 * 1000000000 * f then []
   else [85]) ++
  (if g 0x04 3 * g 0x04 4 > 250000 then [406] else [])

/-- A bit of a rate in kbit/s, sampled at a point in per cent, spans lo to hi time quanta of the 80 MHz clock divided by
`pre`, each within 1 % (R284). -/
def canBitFits (pre rate point lo hi : Nat) : Bool :=
  let q := 80000 / (pre * rate)
  [q, q + 1].any fun n =>
    decide (lo ≤ n ∧ n ≤ hi) &&
    decide ((((pre * n * rate : Nat) : Int) - 80000).natAbs * 100 ≤ pre * n * rate) &&
    (let k := point * n / 100
     [k, k + 1].any fun j => decide (0 < j ∧ j < n) &&
       decide ((((100 * j : Nat) : Int) - ((point * n : Nat) : Int)).natAbs * 100 ≤ point * n))

/-- A controller's rates and sample points can be met by one prescaler, and its data rate is no lower than its nominal rate
(R284). -/
def Tile.canTimingOk (p : Tile) (c : Nat) : Bool :=
  let g := fun row => p.parN 0x0F row c
  decide (g 2 ≥ g 1) &&
  (List.range 1000).any fun i => canBitFits (i + 1) (g 1) (g 3) 8 80 && canBitFits (i + 1) (g 2) (g 4) 5 40

/-- ls_src PIN stands only on free channels, never on LS0 (R150). -/
def Tile.pinFree (p : Tile) : Bool :=
  (List.range 10).all fun ch => p.par 0x0B 0 ch == 0 || (ch != 0 && !p.hasRole (32 + ch))

/-- The rules that the Causeway parameters and tables of the head break (R262 to R264). -/
def Tile.cwySetBroken (p : Tile) (node slot : SMap) : List Nat :=
  let cyc := p.parN 0x0E 2
  let nit := p.parN 0x0E 3
  (if nit + 20 > cyc || (List.range 8).any fun i => p.parN 0x0E 4 i + 10 > 1000 * cyc then [262] else []) ++
  (cwyTablesBroken (p.par 0x0E 0 == 1) node slot cyc nit (p.parN 0x0E 1)).toList

/-- The rules that a set breaks after a command that touches some tables. -/
def State.setBroken (s : State) (t : TileId) (p : Tile) (tables : List Nat) : List Nat :=
  AxisId.all.flatMap p.axisBroken ++
  (if p.par 0x11 2 == 1 && p.single then [106] else []) ++
  (if (p.par 0x11 7).natAbs > p.parN 0x81 5 then [108] else []) ++
  (if p.pinFree then [] else [150]) ++
  (if t == .t0 && tables.contains 0x0E then p.cwySetBroken s.head.cwy.nodeNew s.head.cwy.slotNew else []) ++
  (if tables.contains 0x0F && !(p.canTimingOk 0 && p.canTimingOk 1) then [284] else [])

/-- The refusal with the lowest code, and where several have it the one of the first offending entry (R323, R324). -/
def lowestRefusal (l : List CfgRefusal) : Option CfgRefusal :=
  l.foldl (init := none) fun best x =>
    match best with
    | none => some x
    | some b => if x.1 < b.1 || (x.1 == b.1 && x.2.2 < b.2.2) then some x else some b

/-! ### Coming into force (R332) -/

/-- A row comes into force with the write itself, which the spec gives 1 ms; the others wait for a pass, for the tile, for
the next turn-on, link-up or entry to LISTEN. -/
def cfgAtOnce (table row : Nat) : Bool :=
  !(table == 0x01 || (3 ≤ table && table ≤ 8)) && !(table == 0x09 && (row == 0 || row == 6 || row == 7)) &&
  !(table == 0x11 && (row < 5 || row == 7)) && !(table == 0x0B && (row == 1 || row == 2)) &&
  !(table == 0x0E && (row == 2 || row == 3)) && !(table == 0x12 && row < 5)

/-- What follows a write at once: PTP, the ring node, the CAN modes, ring-time synchronisation, and the load channels, which follow their
sources and the fallback image (R150, R152, R162). -/
def State.cfgFollow (s : State) (t : TileId) (touched : List (Nat × Nat × Nat)) : State :=
  let has := fun (tb row : Nat) => touched.any fun x => x.1 == tb && x.2.1 == row
  let s1 := if touched.any (·.1 == 0x0D) then s.ptpOff else s
  let s2 := if has 0x0E 2 || has 0x0E 3 then s1.cwyRewritten else s1
  let s3 := if has 0x0E 0 then s2.cwySwitch else s2
  let s4 := s3.each busIds fun s c => if touched.contains (0x0F, 0, c.val) then s.canModeSet t c else s
  let s5 := if has 0x11 11 then s4.ringSyncNote else s4
  if has 0x0B 0 || touched.any (fun x => x.1 * 256 + x.2.1 == imageParam.toNat) then s5.lsRefresh t else s5

/-! ### CFG_WRITE -/

/-- The entries that are not empty, with their positions (R329). -/
def usedEntries (es : Vector CfgEntry 5) : List (Nat × CfgEntry) :=
  ((List.range 5).zip es.toList).filter fun x => x.2.param != 0 || x.2.enco.isSome

/-- The set-up of the divided encoder output with the entries of a command in place (R92). -/
def Tile.encoSetup (tl : Tile) (es : List (Nat × CfgEntry)) : Option AxisId × Nat × Nat :=
  es.foldl (fun x e => encoWith x e.2) (tl.encoSrc, tl.encoN, tl.encoM)

/-- The entries of a CONFIG record (R349). -/
def State.configEntries (s : State) (h : HostCmd) (es : List (Nat × CfgEntry)) : List Byte :=
  es.flatMap fun (_, e) =>
    leBytes 2 e.param.toNat ++ leBytes 1 e.index.toNat ++ [0] ++ leBytes 4 (pEncode (s.cfgValue h e.param e.index)) ++
      leBytes 4 e.value.toNat

/-- The digest of the fallback image in force, for the CONFIG record of its write (R349). -/
def imageDigest (f : FieldDie) : List Byte := digest (leBytes 4 f.image.toNat)

/-- CFG_WRITE, ENTRIES (R7, R92, R162, R324, R329 to R332, R349): the refusals of the entries and, where they leave the question open, of the
set with the entries in place. -/
def execCfgWriteEntries (h : HostCmd) (entries : Vector CfgEntry 5) (s : State) : Host.Outcome State Fault Refusal :=
  onCmd h 0x10 s fun s =>
    let t := h.tile
    let tl := s.tile t
    if !tl.triadActs then s.holdBack t (.cfgWriteEntries h entries)
    else
      let es := usedEntries entries
      let image := es.find? fun x => x.2.param == imageParam && x.2.enco.isNone
      let enco := tl.encoSetup es
      let vals : List (Nat × Int) := es.filterMap fun (_, e) => match cfgRow e.param e.index with
        | some r => if e.param = imageParam || e.enco.isSome then none else some (s.cfgKey h e.param e.index, r.decode e.value.toNat)
        | none => none
      let p := tl.prospect vals
      let tables := es.map fun x => x.2.param.toNat / 256
      let own := es.flatMap (fun (i, e) => s.entryRefusals h i e) ++ duplicateRefusals es
      let set : List CfgRefusal := if own.any (fun r => r.1 ≤ 0x14) then [] else
        (s.setBroken t p tables ++ if enco.2.1 ≤ enco.2.2 then [] else [92]).map fun r => (0x14, r, 0xFF)
      match lowestRefusal (own ++ set) with
      | some (st, d, i) =>
        let s1 := if st = 0x13 || st = 0x16 then
            s.configRecord t (some h) 0x10 st [] [] (s.configEntries h es) else s
        s1.complete h 0x10 st d (if st = 0x14 then leBytes 1 i else [])
      | none =>
        let now := vals.filter fun v => cfgAtOnce (pKeyTable v.1) (pKeyRow v.1)
        let s1 := s.modTile t fun tl =>
          { tl with written := p.written, inForce := now.foldl (fun m v => pSet m v.1 v.2) tl.inForce }
        let s2 := match image with
          | some (_, e) => s1.modField t fun f => { f with images := f.images ++ [BitVec.ofNat 26 (e.value.toNat / 2 * 2)] }
          | none => s1
        let dig := fun (f : FieldDie) => if image.isSome then imageDigest f else []
        let s3 := s2.configRecord t (some h) 0x10 0 (dig tl.field) (dig (s2.tile t).field) (s.configEntries h es)
        let s4 := (s3.setEnco t enco.1 enco.2.1 enco.2.2).complete h 0x10 0 0
        s4.cfgFollow t (es.map fun x => (x.2.param.toNat / 256, x.2.param.toNat % 256, x.2.index.toNat))

/-- The bytes of a table in a map. -/
def mapOfBytes (bs : List Byte) : SMap :=
  ((List.range bs.length).zip bs).foldl (fun (m : SMap) x => SMap.set m x.1 (x.2.toNat : Int)) []

/-- The n bytes of a table. -/
def bytesOfMap (m : SMap) (n : Nat) : List Byte := (List.range n).map fun i => BitVec.ofInt 8 (SMap.get m i)

/-- One CAN buffer's 16 bytes (R333). -/
def CanBuffer.filterBytes (b : CanBuffer) : List Byte :=
  leBytes 1 (bit b.tx) ++ leBytes 1 (bit b.extended + 2 * bit b.acceptClassic + 4 * bit b.acceptFd) ++ leBytes 2 0 ++
  leBytes 4 b.ident.toNat ++ leBytes 4 b.mask.toNat ++ leBytes 4 0

/-- A CAN buffer as 16 bytes give it; the entry of a SEDGE buffer is ignored (R333). -/
def CanBuffer.refilter (b : CanBuffer) (e : List Byte) : CanBuffer :=
  if b.sedge.isSome then b
  else
    let f := fieldLe e 1 1
    { b with tx := fieldLe e 0 1 == 1, extended := f % 2 == 1, acceptClassic := f / 2 % 2 == 1, acceptFd := f / 4 % 2 == 1
             ident := BitVec.ofNat 32 (fieldLe e 4 4), mask := BitVec.ofNat 32 (fieldLe e 8 4) }

/-- The reserved bits of a CAN filter entry are zero (R5). -/
def filterClean (e : List Byte) : Bool := fieldLe e 0 1 ≤ 1 && fieldLe e 1 1 < 8 && fieldLe e 2 2 == 0 && fieldLe e 12 4 == 0

/-- The bytes of a CAN controller's filters. -/
def CanCtl.filterBytes (c : CanCtl) : List Byte := c.bufs.toList.flatMap CanBuffer.filterBytes

/-- A CAN controller's filters as a block gives them. -/
def CanCtl.refilter (c : CanCtl) (data : List Byte) : CanCtl :=
  bufIds.foldl (fun c b => { c with bufs := vmod c.bufs b fun x => x.refilter (slice data (16 * b.val) 16) }) c

/-- The three writable blocks: rule broken, or the state with the block written, and its bytes before (R262, R263, R333). An entry of a SEDGE
buffer is ignored, whatever it holds. -/
def State.blockWrite (s : State) (h : HostCmd) (block index : Nat) (data : List Byte) : (Nat × Nat) ⊕ (State × List Byte) :=
  let c := s.head.cwy
  let cwy := fun (n : Nat) (old : SMap) (put : Causeway → SMap → Causeway) (node slot : SMap) (new : SMap) =>
    if h.tile != .t0 then (.inl (0x04, 0) : (Nat × Nat) ⊕ (State × List Byte))
    else if index ≠ 0 || data.length ≠ n then .inl (0x14, 333)
    else
      match ((s.tile .t0).prospect []).cwySetBroken node slot with
      | r :: _ => .inl (0x14, r)
      | [] => .inr ((s.modCwy fun c => put c new).cwyRewritten, bytesOfMap old n)
  match block with
  | 0x0E01 =>
    let m := mapOfBytes data
    cwy 256 c.nodeNew (fun c m => { c with nodeNew := m }) m c.slotNew m
  | 0x0E02 =>
    let m := mapOfBytes data
    cwy 2048 c.slotNew (fun c m => { c with slotNew := m }) c.nodeNew m m
  | 0x0F01 =>
    if hi : index < 2 then
      if data.length ≠ 1024 || bufIds.any fun b =>
          (((s.canCtl h.tile ⟨index, hi⟩).bufs)[b]).sedge.isNone && !filterClean (slice data (16 * b.val) 16) then .inl (0x14, 333)
      else .inr (s.modCan h.tile ⟨index, hi⟩ fun x => x.refilter data, (s.canCtl h.tile ⟨index, hi⟩).filterBytes)
    else .inl (0x14, 333)
  | _ => .inl (0x14, 333)

/-- CFG_WRITE, BLOCK (R329, R333, R349). -/
def execCfgWriteBlock (h : HostCmd) (block : BitVec 16) (index : Byte) (data : List Byte) (s : State) :
    Host.Outcome State Fault Refusal :=
  onCmd h 0x10 s fun s =>
    if !(s.tile h.tile).triadActs then s.holdBack h.tile (.cfgWriteBlock h block index data)
    else if h.dmaFault then s.complete h 0x10 0x09 0
    else
      match s.blockWrite h block.toNat index.toNat data with
      | .inl (st, d) => s.complete h 0x10 st d (if st = 0x14 then [0xFF] else [])
      | .inr (s1, old) =>
        (s1.configRecord h.tile (some h) 0x10 0 (digest old) (digest data) []).complete h 0x10 0 0

/-! ### CFG_READ -/

/-- CFG_READ, ENTRIES (R329, R330): one 8-byte entry per selector. -/
def execCfgReadEntries (h : HostCmd) (addr : BitVec 64) (selectors : Vector CfgSelector 8) (s : State) :
    Host.Outcome State Fault Refusal :=
  onCmd h 0x11 s fun s =>
    let sel := ((List.range 8).zip selectors.toList).filter fun x => x.2.param != 0
    let bad : List CfgRefusal := sel.flatMap fun (i, e) =>
      (if s.cfgBadTarget h e.param e.index then [(0x04, 330, i)] else []) ++
      (if (cfgRow e.param e.index).isNone then [(0x14, 330, i)] else [])
    match lowestRefusal bad with
    | some (0x04, d, _) => s.complete h 0x11 0x04 d
    | refused =>
      if h.dmaFault then s.complete h 0x11 0x09 0
      else
        match refused with
        | some (st, d, i) => s.complete h 0x11 st d (leBytes 1 i)
        | none =>
          let bytes := sel.flatMap fun (_, e) =>
            leBytes 2 e.param.toNat ++ leBytes 1 e.index.toNat ++ [0] ++ leBytes 4 (pEncode (s.cfgValue h e.param e.index))
          (s.dma addr.toNat bytes).complete h 0x11 0 0

/-- Axis feedback status, block 0x8001 (R91). -/
def Feedback.statusBlock (f : Feedback) : List Byte :=
  leBytes 1 (bit f.dirFlag) ++ leBytes 1 (bit f.referenced + 2 * bit f.suspect) ++ leBytes 2 f.dirChanges.toNat ++
  leBytes 4 f.u ++ leBytes 4 f.qerr ++ leInt 4 f.pos

/-- Sedge status, block 0x8002 (R333). -/
def SedgeConn.statusBlock (c : SedgeConn) : List Byte :=
  leBytes 1 c.state.code ++ leBytes 3 0 ++ c.counters.toList.flatMap (leBytes 4) ++ leBytes 4 c.lastTs.toNat ++ leBytes 4 0

/-- Causeway status, block 0x8003 (R268). -/
def Causeway.statusBlock (c : Causeway) : List Byte :=
  ((List.range 256).flatMap fun i =>
    leBytes 4 (SMap.get c.slotCounts (2 * i)).toNat ++ leBytes 4 (SMap.get c.slotCounts (2 * i + 1)).toNat) ++
  c.counters.toList.flatMap (leBytes 4) ++ leBytes 1 c.state.code ++ leBytes 1 c.mode.code ++ leBytes 2 0

/-- CAN status, block 0x8004 (R290). -/
def CanCtl.statusBlock (c : CanCtl) : List Byte :=
  leBytes 1 c.state.code ++ leBytes 1 (min 255 c.txErrs) ++ leBytes 1 (min 255 c.rxErrs) ++ [0] ++
  c.errs.toList.flatMap (leBytes 4) ++ c.bufs.toList.flatMap fun b => leBytes 4 b.overrun

/-- LIN status, block 0x8005 (R294). -/
def LinMaster.statusBlock (m : LinMaster) : List Byte :=
  (List.range 64).flatMap fun e => (List.range 5).flatMap fun k => leBytes 4 (SMap.get m.counters (8 * e + k)).toNat

/-- Fallback image, block 0x8006 (R162). -/
def FieldDie.imageBlock (f : FieldDie) : List Byte :=
  leBytes 4 f.image.toNat ++ leBytes 1 (8 - f.images.length) ++ leBytes 3 0

/-- Load switches, block 0x8007. -/
def UpView.lsBlock (u : UpView) : List Byte :=
  (List.range 10).flatMap fun i => leBytes 2 (u.lsCodes.toList.getD i 0).toNat ++ leBytes 2 (u.lsFlags.toList.getD i 0).toNat

/-- The contents of a block: a refusal, or its bytes (R333). -/
def State.blockRead (s : State) (h : HostCmd) (block index : Nat) : Nat ⊕ List Byte :=
  let tl := s.tile h.tile
  let no : Nat ⊕ List Byte := .inl 0x14
  let only0 := fun (b : List Byte) => if index = 0 then (.inr b : Nat ⊕ List Byte) else no
  let head := fun (b : List Byte) => if h.tile != .t0 then (.inl 0x04 : Nat ⊕ List Byte) else only0 b
  match block with
  | 0x0E01 => head (bytesOfMap s.head.cwy.nodeNew 256)
  | 0x0E02 => head (bytesOfMap s.head.cwy.slotNew 2048)
  | 0x0F01 => if hi : index < 2 then .inr ((tl.can)[index]).filterBytes else no
  | 0x8001 =>
    (match s.cfgAxis h with
     | none => .inl 0x04
     | some a => only0 (tl.ax.get a).fb.statusBlock)
  | 0x8002 => if hi : index < 32 then .inr ((tl.sedge)[index]).statusBlock else no
  | 0x8003 => head s.head.cwy.statusBlock
  | 0x8004 => if hi : index < 2 then .inr ((tl.can)[index]).statusBlock else no
  | 0x8005 => if hi : index < 2 then .inr ((tl.lin)[index]).statusBlock else no
  | 0x8006 => only0 tl.field.imageBlock
  | 0x8007 => only0 tl.link.up.lsBlock
  | _ => no

/-- CFG_READ, BLOCK (R329, R333): the whole block into a buffer that holds it. -/
def execCfgReadBlock (h : HostCmd) (addr : BitVec 64) (block : BitVec 16) (index : Byte) (size : Nat) (s : State) :
    Host.Outcome State Fault Refusal :=
  onCmd h 0x11 s fun s =>
    match s.blockRead h block.toNat index.toNat with
    | .inl 0x04 => s.complete h 0x11 0x04 0
    | got =>
      if h.dmaFault then s.complete h 0x11 0x09 0
      else
        match got with
        | .inl _ => s.complete h 0x11 0x14 333 [0xFF]
        | .inr b => if size < b.length then s.complete h 0x11 0x14 333 [0xFF] else (s.dma addr.toNat b).complete h 0x11 0 0

end Sys2Proof.Machine
end

