-- ==== Sys2Proof/Machine/Peat.lean ====
section
/-!
DEFINITION. The Peat log's blocks, their signing, migration, draining and sealing; firmware staging; the customer key; and
attestation (R341, R348 to R359, R362).
-/

namespace Sys2Proof.Machine

/-! ### The log's blocks (R351, R353) -/

/-- EVENTS_RECORD_TIMEOUT (R348): 100 ms after its first entry the open EVENTS record is closed. -/
def execEventsRecordTimeout (t : TileId) (s : State) : Host.Outcome State Fault Refusal :=
  onTile t s fun s =>
    let tl := s.tile t
    if tl.peat.openTimer.isRunning && tl.die.svc then s.closeEvents t else s

/-- The ASCII bytes of ZK86PEAT. -/
def peatTag : List Byte := [0x5A, 0x4B, 0x38, 0x36, 0x50, 0x45, 0x41, 0x54]

/-- The records of a block, in MRAM or in flash. -/
def Peat.blockRecords (p : Peat) (b : Nat) : List PeatRecord :=
  match p.inFlash.find? (·.1 == b) with
  | some (_, _, rs) => rs
  | none => p.records.filter fun r => r.seq / 32 == b

/-- The message signed for a block (R351). -/
def State.blockMessage (s : State) (t : TileId) (b : Nat) : List Byte :=
  let h := match ((s.tile t).peat.blockRecords b).getLast? with
    | some r => digest r.bytes
    | none => digest []
  peatTag ++ leBytes 8 s.head.serial.toNat ++ leBytes 1 t.num ++ leBytes 4 b ++ h

/-- A record with its slice of the block's signature (R351). -/
def PeatRecord.withSig (r : PeatRecord) (sig : List Byte) : PeatRecord := { r with sig := slice sig (40 * (r.seq % 32)) 40 }

/-- BLOCK_SIGNATURE_COMPLETE (R351): the engine signs closed blocks in their order of closing, while the head's service core is
present; each record of the block gets its slice. -/
def execBlockSignatureComplete (t : TileId) (s : State) : Host.Outcome State Fault Refusal :=
  onTile t s fun s =>
    match s.head.signQueue with
    | [] => s
    | (t', b) :: rest =>
      if t' ≠ t || !(s.tile .t0).die.svc then s
      else
        let sig := leBytes sigLen (Config.falconSign (s.blockMessage t b)).toNat
        let s1 := s.modPeat t fun p =>
          { p with records := p.records.map fun r => if r.seq / 32 == b then r.withSig sig else r
                   closed := p.closed.filter (· != b), signed := p.signed ++ [b] }
        (s1.modHead fun h => { h with signQueue := rest, drainQueue := h.drainQueue ++ [(t, b)] }).logHighCheck

/-- FLASH_BLOCK_COPY_COMPLETE (R353): with fewer than 240 blocks of the tile's region free, its oldest signed undrained block of
MRAM has been copied. A copy that compares moves the block; a sector that fails is marked bad, and the block stays. -/
def execFlashBlockCopyComplete (t : TileId) (good : Bool) (s : State) : Host.Outcome State Fault Refusal :=
  onTile t s fun s =>
    let p := (s.tile t).peat
    let oldest := p.oldestSigned
    match oldest, s.flashPlace t with
    | some b, some sec =>
      if !(s.tile .t0).die.svc || p.records.length ≤ 32 * 720 then s
      else if good then (s.peatToFlash t b sec).logHighCheck
      else
        let (k, s1) := s.draw
        (s1.modHead fun h => { h with badSectors := h.badSectors ++ [sec] }).raiseHead 0x42
          (leBytes 4 sec ++ leBytes 1 (k % 3).toNat)
    | _, _ => s

/-- A block drained: its space is freed, in MRAM or in flash (R354). -/
def State.drainBlock (s : State) (t : TileId) (b : Nat) : State :=
  let s1 := s.modPeat t fun p =>
    { p with records := p.records.filter fun r => r.seq / 32 != b, signed := p.signed.filter (· != b)
             inFlash := p.inFlash.filter (·.1 != b), draining := p.draining.filter (· != b) }
  s1.modHead fun h =>
    { h with drainQueue := h.drainQueue.filter (· != (t, b))
             sectors := h.sectors.filter fun x => x.2.1 != t || (s1.tile t).peat.inFlash.any (·.2.1 == x.1) }

/-- The 16 384 bytes of a block (R354). -/
def State.blockBytes (s : State) (t : TileId) (b : Nat) : List Byte :=
  ((s.tile t).peat.blockRecords b).flatMap fun r => r.bytes ++ padTo 40 r.sig

/-- The completion of a LOG_DRAIN is written to host memory: its ring takes records, and it is not quiet (R303, R305, R354). -/
def State.completionWritten (s : State) (o : Outstanding) : Bool :=
  let r := s.ring .cpl o.cplRing
  r.enabled && !r.stopped && !o.flags.getLsbD 2

/-- LOG_DRAIN (R341, R354): whole signed blocks, oldest first in order of signing. On another package they cross Boardwalk and
are kept until acknowledged (R371). -/
def execLogDrain (h : HostCmd) (addr : BitVec 64) (size most : Nat) (s : State) : Host.Outcome State Fault Refusal :=
  onCmd h 0x70 s fun s =>
    if h.dmaFault then s.complete h 0x70 0x09 0
    else if size < 16384 then s.complete h 0x70 0x14 341 [0xFF]
    else
      let bs := s.head.drainQueue.take (min most (size / 16384))
      let n := bs.length
      let result := leBytes 4 n ++ leBytes 4 (16384 * n) ++ leBytes 4 (s.undrained - n)
      match s.findOut h 0x70 with
      | none => s
      | some o =>
        if o.remote then
          let send : State → TileId × Nat → State := fun s x =>
            (s.bwkKeep o.ref (.logBlock o.ref (4 * s.pkg + x.1.num) x.2 (s.blockBytes x.1 x.2))).modPeat x.1
              fun p => { p with draining := if o.flags.getLsbD 2 then p.draining else p.draining ++ [x.2] }
          (s.each bs send).completeOut o 0 0 result
        else
          let s1 := s.each ((List.range n).zip bs) fun s x => s.dma (addr.toNat + 16384 * x.1) (s.blockBytes x.2.1 x.2.2)
          let freed := s1.completionWritten o
          let s2 := s1.completeOut o 0 0 result
          if freed then (s2.each bs fun s x => s.drainBlock x.1 x.2).logHighCheck else s2

/-- The open block of a tile holds a record (R354). -/
def Peat.openBlock (p : Peat) : Bool := p.nextSeq % 32 != 0

/-- The open block of a tile filled with FILL records (R345, R354). -/
def State.sealTile (s : State) (t : TileId) : State :=
  let s1 := s.closeEvents t
  s1.each (List.range ((32 - (s1.tile t).peat.nextSeq % 32) % 32)) fun s _ => s.peatPut t 0x0B .host []

/-- LOG_SEAL (R341, R354): NOT_READY when no tile has a record to seal. -/
def execLogSeal (h : HostCmd) (s : State) : Host.Outcome State Fault Refusal :=
  onCmd h 0x71 s fun s =>
    let ts := s.tileIds.filter fun t => (s.tile t).peat.openBlock && (s.tile t).die.svc
    if ts.isEmpty then s.complete h 0x71 0x18 0
    else
      let p0 := (s.tile .t0).peat
      let n := if p0.openBlock then p0.nextSeq / 32 else 0xFFFFFFFF
      (s.each ts State.sealTile).complete h 0x71 0 0 (leBytes 4 n)

/-- LOG_MARK (R341, R345): a MARK record with the host's marker. A record that the full log loses has no sequence number. -/
def execLogMark (h : HostCmd) (marker : Vector Byte 32) (s : State) : Host.Outcome State Fault Refusal :=
  onCmd h 0x72 s fun s =>
    let t := h.tile
    let s1 := s.peatEntry t 0x08 .host
      (marker.toList ++ leBytes 4 h.session.toNat ++ leBytes 1 h.queue.val ++ leBytes 3 0 ++ leBytes 4 h.tag.toNat)
    let p := (s1.tile t).peat
    match p.records.getLast? with
    | some r =>
      if r.type = 8 && r.seq + 1 = p.nextSeq && p.nextSeq > (s.tile t).peat.nextSeq then
        s1.complete h 0x72 0 0 (leBytes 4 r.seq)
      else
        let (v, s2) := s1.draw
        s2.complete h 0x72 0 0 (leInt 4 v)
    | none =>
      let (v, s2) := s1.draw
      s2.complete h 0x72 0 0 (leInt 4 v)

/-! ### Firmware (R358, R359) -/

/-- FW_STAGE (R341, R359): a chunk into slot B of every logic die of the package; offset 0 starts a new staging. -/
def execFwStage (h : HostCmd) (offset total : Nat) (chunk : List Byte) (s : State) : Host.Outcome State Fault Refusal :=
  onCmd h 0x90 s fun s =>
    let d0 := (s.tile .t0).die
    if h.dmaFault then s.complete h 0x90 0x09 0
    else if offset + chunk.length > total || total > fwMax then s.complete h 0x90 0x14 341 [0xFF]
    else if offset ≠ 0 && (d0.stageTotal = 0 || offset ≠ d0.slotB.length) then s.complete h 0x90 0x14 359 [0xFF]
    else
      let s1 := s.each s.tileIds fun s t => s.modDie t fun d =>
        { d with slotB := if offset = 0 then chunk else d.slotB ++ chunk, stageTotal := total, fwPending := false }
      s1.complete h 0x90 0 0

/-- FW_COMMIT (R341, R349, R359): NOT_READY until every chunk is staged; slot B is verified and marked pending in every die. -/
def execFwCommit (h : HostCmd) (s : State) : Host.Outcome State Fault Refusal :=
  onCmd h 0x91 s fun s =>
    let d0 := (s.tile .t0).die
    if d0.stageTotal = 0 || d0.slotB.length ≠ d0.stageTotal then s.complete h 0x91 0x18 0
    else if !(s.tileIds.all fun t => (s.tile t).die.imageOk (s.tile t).die.slotB) then s.complete h 0x91 0x1F 0
    else
      let s1 := s.each s.tileIds fun s t => s.modDie t fun d => { d with fwPending := true }
      (s1.configRecord h.tile (some h) 0x91 0 (digest d0.slotA) (digest d0.slotB) []).complete h 0x91 0 0

/-! ### The customer key and the identity (R356, R357, R362) -/

/-- KEY_REGISTER (R194, R341, R349, R362): accepted whatever the switches read while no key is registered; a key is never
replaced. -/
def execKeyRegister (h : HostCmd) (key : List Byte) (s : State) : Host.Outcome State Fault Refusal :=
  onCmd h 0x92 s fun s =>
    let old := (s.tile .t0).die.key
    let dg := digestOf old
    if !(s.tile h.tile).triadActs then s.holdBack h.tile (.keyRegister h key)
    else if h.dmaFault then s.complete h 0x92 0x09 0
    else if old.isSome && !s.sealOk then (s.configRecord h.tile (some h) 0x92 0x13 dg dg []).complete h 0x92 0x13 194
    else if key.length ≠ 1793 then s.complete h 0x92 0x14 341 [0xFF]
    else if old.isSome then s.complete h 0x92 0x26 0
    else
      let s1 := s.each s.tileIds fun s t => s.modDie t fun d => { d with key := d.key.or (some key) }
      (s1.configRecord h.tile (some h) 0x92 0 dg (digest key) []).complete h 0x92 0 0

/-- The seal code that ATTEST reports; a free value while no code is in force. -/
def State.attestSeal (s : State) : Nat × State :=
  if s.sealInForce then (s.sealCode, s) else (((s.draw).1 % 65536).toNat, (s.draw).2)

/-- The last closed record of a tile as ATTEST reports it: its number and the hash of its bytes, which is the chain value; free
values where the tile has no record. -/
def State.attestTile (s : State) (t : TileId) : List Byte × State :=
  match (s.tile t).peat.chain with
  | some c => (leBytes 4 ((s.tile t).peat.nextSeq - 1) ++ padTo 32 c, s)
  | none => (leInt 36 (s.draw).1, (s.draw).2)

/-- Bytes 0 to 391 of the attestation statement (R357). -/
def State.statement (s : State) (nonce : List Byte) : List Byte × State :=
  let d0 := (s.tile .t0).die
  let ns := s.head.time.record.ns
  let (code, s1) := s.attestSeal
  let (b0, s2) := s1.attestTile .t0
  let (b1, s3) := s2.attestTile .t1
  let (b2, s4) := s3.attestTile .t2
  let (b3, s5) := s4.attestTile .t3
  (leBytes 2 1 ++ leBytes 1 s.pkg ++ leBytes 1 (2 ^ s.part.tiles - 1) ++ leBytes 8 s.head.serial.toNat ++ padTo 24 nonce ++
    leBytes 6 (ns / 1000000000) ++ leBytes 4 (ns % 1000000000) ++ [0x43, 0] ++ digest d0.slotA ++
    (TileId.all.flatMap fun t => digestOf (s.tile t).die.bundle) ++ digestOf d0.key ++ leBytes 2 code ++
    leBytes 2 s.head.sealSw.toNat ++ leBytes 4 d0.secCounter ++ b0 ++ b1 ++ b2 ++ b3, s5)

/-- ATTEST (R341, R357): the statement, its signature with the identity key and the certificate, into the host buffer. -/
def execAttest (h : HostCmd) (nonce : Vector Byte 24) (addr : BitVec 64) (s : State) : Host.Outcome State Fault Refusal :=
  onCmd h 0x93 s fun s =>
    if h.dmaFault then s.complete h 0x93 0x09 0
    else
      let (st, s1) := s.statement nonce.toList
      let bytes := st ++ leBytes sigLen (Config.falconSign st).toNat ++ Config.certificate
      (s1.dma addr.toNat bytes).complete h 0x93 0 0 (leBytes 4 bytes.length)

end Sys2Proof.Machine
end

