-- ==== Sys2Proof/Machine/Boardwalk.lean ====
section
/-!
DEFINITION. Boardwalk: ready and the reports that it waits for, link training and the strap check, ports that go down, the frames between packages with their end-to-end
acknowledgement, and time over the links (R22, R365 to R377).
-/

namespace Sys2Proof.Machine

/-! ### Ready (R299, R376) -/

/-- The board package that a bit mask names. -/
def pkgBit (k : Nat) : BitVec 4 := BitVec.ofNat 4 (2 ^ k)

/-- The mask of the four board tiles of a package. -/
def pkgTiles (k mask : Nat) : BitVec 16 := BitVec.ofNat 16 (mask % 16 * 2 ^ (4 * k))

/-- Every tile of the package has started, or is held in reset. -/
def State.packageStarted (s : State) : Bool :=
  s.tileIds.all fun t => !(s.tile t).die.inReset || (s.tile t).die.heldDown || !(s.tile t).die.holds.isEmpty

/-- The board head has the state report of every package that it reaches, and no port is in its first training any more (R376 steps 4 and
10; log entry 46). -/
def State.boardHeard (s : State) : Bool :=
  let b := s.head.board
  !s.joined || (!(b.trying[0] || b.trying[1]) &&
    ([1, 2, 3] : List Nat).all fun k => !b.present.getLsbD k || (s.bwkRoute k).isNone || b.heard.getLsbD k)

/-- Ready is raised once every tile of the head's package has started, or cannot, and the board head has heard of every tile that it
reaches (R299, R376, R377). -/
def State.startDone (s : State) : State :=
  if s.isHead && (s.tile .t0).die.svc && s.packageStarted && s.boardHeard then s.modHost fun h => { h with ready := true } else s

/-- The tiles of the package that report now, in the board head's masks (R376, R389). -/
def State.reportTiles (s : State) : State :=
  let m := maskOf (TileId.all.map fun t => s.hasTile t && (s.tile t).die.reported)
  s.modBoard fun b => { b with tilesPresent := b.tilesPresent ||| pkgTiles s.pkg m, tilesUp := b.tilesUp ||| pkgTiles s.pkg m }

/-! ### Ports and straps (R367 to R370) -/

/-- The straps that the package knows of the board, its own among them (R367; how they are told is log entry 46). -/
def State.boardStraps (s : State) : List (BitVec 64 × Straps) := (s.head.serial, s.head.board.straps) :: s.head.board.known

/-- One package's straps keep rules 1 and 2 of R367: joined, and the head exactly where the number is 0. -/
def strapsKeep (x : Straps) : Bool := x.join && x.head == decide (x.num = 0)

/-- The neighbour on a port is the next package up or down the ring, where the last and package 0 are neighbours (R367, rule 4). -/
def State.neighbourFine (s : State) (port : Fin 2) (n : Straps) : Bool :=
  let me := s.head.board.straps.num.val
  let last := fun (k : Nat) => s.boardStraps.all fun x => decide (x.2.num.val ≤ k)
  strapsKeep n && n.num.val != me &&
  (if port = 1 then n.num.val == me + 1 || (n.num == 0 && last me)
   else if me = 0 then last n.num.val else n.num.val + 1 == me)

/-- The straps keep R367 as far as the package knows them: its own, those it was told, with no number twice, and its neighbours'. -/
def State.strapsFine (s : State) : Bool :=
  let all := s.boardStraps
  all.all (fun x => strapsKeep x.2) &&
  (all.all fun x => all.all fun y => x.1 == y.1 || x.2.num != y.2.num) &&
  ([0, 1] : List (Fin 2)).all fun p => match (s.head.board.neighbours)[p] with
    | some n => s.neighbourFine p n
    | none => true

/-- The straps break R367, and the board does not form: the package works as a board of one, package 0. The board-strap-fault event of a package
with BRD_HEAD high follows HELLO, or comes at once in an open session (R369). -/
def State.strapsFail (s : State) : State :=
  let b := s.head.board
  if b.strapFault then s
  else
    let own := fun (m : BitVec 16) => (m >>> (4 * b.straps.num.val)) &&& 15
    let s1 := s.modBoard fun b =>
      { b with strapFault := true, packages := 1, tilesPresent := own b.tilesPresent, tilesUp := own b.tilesUp
               present := if b.straps.head then 1 else 0, reachable := if b.straps.head then 1 else 0 }
    let s2 := if b.straps.head && s1.head.host.sessionOpen then s1.strapEvent else s1
    s2.startDone

/-- A port is trained: it carries at least what is told of the straps (R369). -/
def State.portTrained (s : State) (port : Fin 2) : Bool :=
  let p := (s.head.board.ports)[port]
  s.head.board.straps.join && (p == .up || p == .strapFailed) && !(s.tile .t0).die.inReset

/-- What the package knows of the straps goes out of every trained port (R367, R369; log entry 46). -/
def State.tellStraps (s : State) : State :=
  let b := s.head.board
  s.each [0, 1] fun s port =>
    if s.portTrained port then
      s.emit (.boardwalk port { src := b.straps.num, dst := b.straps.num, crcOk := true, payload := .straps s.boardStraps b.strapFault })
    else s

/-- The packages numbered so far, counted at start-up alone (R389). -/
def State.recount (s : State) : State :=
  if s.head.host.ready || !s.joined then s
  else s.modBoard fun b => { b with packages := ((List.range 4).filter b.present.getLsbD).length }

/-- The straps checked again with what has been learnt; a fault that is found now is told on (R367, R369). The head numbers the packages that
it knows (R376 step 4). -/
def State.strapCheck (s : State) : State :=
  if s.head.board.strapFault then s
  else if s.strapsFine then
    let all := s.boardStraps.foldl (fun m x => m ||| pkgBit x.2.num.val) (0 : BitVec 4)
    (s.modBoard fun b => { b with present := if b.straps.head then b.present ||| all else b.present }).recount
  else s.strapsFail.tellStraps

/-- The straps of a neighbour's frame (R369): what is new in them is kept, checked and told on. -/
def State.strapsTold (s : State) (known : List (BitVec 64 × Straps)) (fault : Bool) : State :=
  let new := known.filter fun x => !s.boardStraps.contains x
  let s1 := s.modBoard fun b => { b with known := b.known ++ new }
  let s2 := if fault && !s.head.board.strapFault then s1.strapsFail.tellStraps else s1.strapCheck
  if new.isEmpty then s2 else s2.tellStraps

/-- A package whose route from the board head changes counts its record time as HOLDOVER until the delays are measured
(R374). -/
def State.routeChanged (s : State) : State :=
  if s.isHead || !s.joined then s else (s.modTime fun tb => { tb with routeHold := true }).holdRecord

/-- The route to the board head goes by a port from now on (R370, R371, R374). -/
def State.routeBy (s : State) (port : Fin 2) : State :=
  if s.isHead || s.head.board.headPort = port then s
  else (s.modBoard fun b => { b with headPort := port }).routeChanged

/-- Power good is lost in the start-up of the head, which goes on when power good returns and begins it again (R377, R379). -/
def State.startHalted (s : State) : Bool := !s.powerGood && !s.head.host.ready && !(s.tile .t0).die.reported

/-- BOARDWALK_LINK_TRAINED (R22, R367, R369, R376): the straps of the neighbour are checked; the head numbers the package. -/
def execBoardwalkLinkTrained (port : Fin 2) (neighbour : Straps) (s : State) : Host.Outcome State Fault Refusal :=
  onHead s fun s =>
    let b := s.head.board
    if !b.straps.join || s.startHalted || (s.tile .t0).die.inReset || b.ports[port] == .up then s
    else
      let ok := s.neighbourFine port neighbour
      let s1 := s.modBoard fun b =>
        { b with ports := vset b.ports port (if ok then .up else .strapFailed)
                 neighbours := vset b.neighbours port (some neighbour), trying := vset b.trying port false
                 present := if ok && b.straps.head && !b.strapFault then b.present ||| pkgBit b.straps.num.val ||| pkgBit neighbour.num.val
                            else b.present }
      let s2 := if ok && !s.portCarries (s.head.board.headPort) then s1.recount.routeBy port else s1.recount
      s2.strapCheck.tellStraps.startDone

/-- BOARDWALK_TRAINING_RETRY (R376): a joined package whose port is down trains it again; a package that has not trained by then delays
the start no more. -/
def execBoardwalkTrainingRetry (port : Fin 2) (s : State) : Host.Outcome State Fault Refusal :=
  onHead s fun s =>
    let b := s.head.board
    if b.straps.join && !s.startHalted && !(s.tile .t0).die.inReset then
      (s.modBoard fun b =>
        { b with ports := if b.ports[port] == .down then vset b.ports port .training else b.ports
                 trying := vset b.trying port false }).startDone
    else s

/-- The board head loses a package: its bits, and the board-package-lost event with its cause. What was forwarded to it and is not answered
completes TILE_UNAVAILABLE 10 ms after forwarding (R372). -/
def State.packageLost (s : State) (k cause : Nat) : State :=
  if !s.head.board.reachable.getLsbD k then s
  else
    let gone := fun (o : Outstanding) => match o.forwarded with
      | some (p, _) => p.val == k
      | none => false
    ((s.modBoard fun b =>
      { b with reachable := b.reachable &&& ~~~(pkgBit k), tilesUp := b.tilesUp &&& ~~~(pkgTiles k 15) }).modHost fun h =>
        { h with outstanding := h.outstanding.map fun o => if gone o then { o with lost := true } else o }).raiseHead 0x72
      (leBytes 1 k ++ leBytes 1 cause)

/-- The board head loses every package to which no way is left (R372). -/
def State.losePaths (s : State) : State :=
  if s.isHead then s.each [1, 2, 3] fun s k => if (s.bwkRoute k).isSome then s else s.packageLost k 1 else s

/-- A port is declared down, with its event; the board head takes the other way round, or loses what it no longer reaches; another package whose
route came by the port takes the other (R370, R372, R374, R375). -/
def State.portDown (s : State) (port : Fin 2) : State :=
  let b := s.head.board
  if b.ports[port] == .down || !b.straps.join then s
  else
    let s1 := s.modBoard fun b =>
      { b with ports := vset b.ports port .down, neighbours := vset b.neighbours port none, crcErrors := vset b.crcErrors port []
               delays := vset b.delays port 0xFFFF, trying := vset b.trying port false, linkChanges := min 255 (b.linkChanges + 1) }
    let s2 := s1.raiseHead 0x71 (leBytes 1 b.straps.num.val ++ leBytes 1 port.val ++ leBytes 1 0)
    if s2.isHead then s2.losePaths.startDone
    else if b.headPort ≠ port then s2
    else if s2.portCarries (1 - port) then s2.routeBy (1 - port)
    else s2.routeChanged

/-- BOARDWALK_PORT_DOWN (R370): lane lock lost, or 2 µs without a valid idle or frame. -/
def execBoardwalkPortDown (port : Fin 2) (s : State) : Host.Outcome State Fault Refusal := onHead s fun s => s.portDown port

/-- A frame with a link CRC error is lost; 16 of them within 1 ms take the port down (R370). -/
def State.bwkCrcError (s : State) (port : Fin 2) : State :=
  let l := ((s.head.board.crcErrors)[port].filter fun i => decide (s.now < i + 1000000)) ++ [s.now]
  if l.length ≥ 16 then s.portDown port else s.modBoard fun b => { b with crcErrors := vset b.crcErrors port l }

/-! ### Frames (R371, R372) -/

/-- A forwarded descriptor reaches its tile's service core, which acknowledges it until the head confirms (R371) and holds it for its
not-before time (R305). -/
def State.bwkDescriptor (s : State) (r : BwkRef) (session : Word) (hostId : BitVec 64) (d : List Byte) : State :=
  match TileId.ofNat? (fieldLe d 8 4 % 4) with
  | none => s
  | some t =>
    if !s.hasTile t || !(s.tile t).die.svc then s
    else
      let o : Outstanding :=
        { queue := r.queue, tag := r.tag, opcode := fieldLe d 0 1, flags := BitVec.ofNat 8 (fieldLe d 1 1)
          target := BitVec.ofNat 32 (fieldLe d 8 4), sqHead := 0, notBefore := BitVec.ofNat 32 (fieldLe d 12 4)
          waiting := false, behind := false, accepted := false, lost := false, session := session, forwarded := none
          remote := true, desc := d, blocks := [], hostId := hostId, seq := r.seq }
      ((s.modHost fun h => { h with outstanding := h.outstanding ++ [{ o with waiting := s.tooSoon o }] }).modBoard
        fun b => { b with acks := b.acks ++ [r] }).bwkSend 0 (.acknowledge r)

/-- The entry of a command forwarded to a package and not lost with it. -/
def State.forwardedTo (s : State) (k : Fin 4) (r : BwkRef) : Option Outstanding :=
  s.head.host.outstanding.find? fun o =>
    o.ref == r && !o.lost && (match o.forwarded with
      | some (p, _) => p == k
      | none => false)

/-- An acknowledgement: at the head, of a descriptor, which it confirms; at another package, of everything kept for the command,
whose drained blocks are freed (R354, R371). -/
def State.bwkAcknowledge (s : State) (k : Fin 4) (r : BwkRef) : State :=
  if s.isHead then
    let s1 := match s.forwardedTo k r with
      | some o => s.setOut o { o with forwarded := some (k, true) }
      | none => s
    s1.bwkSend k.val (.confirm r)
  else
    let mine := s.head.board.keep.filter fun x => x.1 == r
    let s1 := s.modBoard fun b => { b with keep := b.keep.filter fun x => x.1 != r }
    s1.each mine fun s x =>
      match x.2 with
      | .logBlock _ bt b _ =>
        (match TileId.ofNat? (bt % 4) with
         | some t => if (s.tile t).peat.draining.contains b then s.drainBlock t b else s
         | none => s)
      | _ => s

/-- A completion reaches the board head: once every log block that it names is there, it is written once and acknowledged; a
repeat is acknowledged only (R371). -/
def State.bwkCompletion (s : State) (k : Fin 4) (r : BwkRef) (status : Byte) (detail : Nat) (result : List Byte) : State :=
  match s.forwardedTo k r with
  | none => s.bwkSend k.val (.acknowledge r)
  | some o =>
    if o.opcode = 0x70 && status == 0 && o.blocks.length < fieldLe result 0 4 then s
    else (s.completeOut o status.toNat detail result).bwkSend k.val (.acknowledge r)

/-- A command was lost with its tile's service core or logic die: the head completes it TILE_UNAVAILABLE at its time (R320). -/
def State.bwkLost (s : State) (k : Fin 4) (r : BwkRef) : State :=
  let s1 := match s.forwardedTo k r with
    | some o => s.setOut o { o with lost := true }
    | none => s
  s1.bwkSend k.val (.acknowledge r)

/-- A log block reaches the board head: it is written once, after those already written for its LOG_DRAIN (R371). -/
def State.bwkLogBlock (s : State) (k : Fin 4) (r : BwkRef) (bt b : Nat) (bytes : List Byte) : State :=
  match s.forwardedTo k r with
  | none => s
  | some o =>
    if o.opcode ≠ 0x70 || o.blocks.contains (bt, b) then s
    else (s.dma (fieldLe o.desc 16 8 + 16384 * o.blocks.length) bytes).setOut o { o with blocks := o.blocks ++ [(bt, b)] }

/-- The board head tells of its session: the commands of any other never act here, and their answers are kept no more (R316). Of a session that
opens, the package raises its standing faults and conditions (R318). -/
def State.bwkSession (s : State) (session : Option Word) : State :=
  let s1 := s.modHost fun h =>
    { h with outstanding := h.outstanding.filter fun o => !o.remote || some o.session == session }
  let s2 := (s1.modBoard fun b => { b with keep := [], acks := [] }).mailboxKeep
  if session.isSome then s2.standingFaults.standingConditions else s2

/-- A window word. -/
def State.putWindow (s : State) (off v : Nat) : State := { s with windows := SMap.set s.windows off (v : Int) }

/-- The state of a port in the head's copy of a package's BWK_STATUS, where that package has reported (R375, R386). -/
def State.putPort (s : State) (k port state : Nat) : State :=
  let off := 0x4100 + 0x1000 * k
  let w := (s.windows.get off).toNat
  if w = 0 then s else s.putWindow off (w - w / 4 ^ port % 4 * 4 ^ port + state % 4 * 4 ^ port)

/-- A board-link event that passes the board head shows it the new state of a port (R370, R375). -/
def State.noteLink (s : State) (id : Nat) (data : List Byte) : State :=
  let k := id / 4096
  let port := fieldLe data 1 1
  if id % 4096 = 0xF71 ∧ k < 4 ∧ port < 2 then (s.putPort k port (fieldLe data 2 1)).losePaths else s

/-- A port that a report shows UP has its other end up as well, whatever that package last reported (R370, R375). -/
def State.noteEnds (s : State) (k : Nat) (status : Nat) : State :=
  let n := s.head.board.ringSize
  s.each ([0, 1] : List Nat) fun s port =>
    if status / 4 ^ port % 4 = 2 then s.putPort (if port = 1 then (k + 1) % n else (k + n - 1) % n) (1 - port) 2 else s

/-- A state report at the board head (R372, R376, R386): windows, presence, and the return of a package after start-up. -/
def State.bwkReport (s : State) (k tiles : Nat) (armed : Bool) (w : List Byte) : State :=
  let was := s.head.board.reachable.getLsbD k
  let base := 0x4000 + 0x1000 * k
  let s1 := s.each ([(0, 0x000), (4, 0x008), (8, 0x00C), (12, 0x100), (16, 0x104)] : List (Nat × Nat)) fun s x =>
    s.putWindow (base + x.2) (fieldLe w x.1 4)
  let up := (List.range 4).filter fun i => tiles / 2 ^ i % 2 == 1
  let s2 := s1.each up fun s i => s.each [0, 4, 8] fun s o =>
    s.putWindow (0x8000 + 0x400 * (4 * k + i) + o) (fieldLe w (20 + 12 * i + o) 4)
  let s3 := (s2.modBoard fun b =>
    { b with present := b.present ||| pkgBit k, reachable := b.reachable ||| pkgBit k, heard := b.heard ||| pkgBit k
             tilesPresent := b.tilesPresent ||| pkgTiles k tiles
             tilesUp := (b.tilesUp &&& ~~~(pkgTiles k 15)) ||| pkgTiles k tiles
             timersArmed := if armed then b.timersArmed ||| pkgBit k else b.timersArmed &&& ~~~(pkgBit k) }).recount
  let s4 := (s3.noteEnds k (fieldLe w 12 4)).losePaths
  if was then s4.startDone
  else
    let s5 := s4.bwkSend k (.compat s.head.time.compatRk)
    if !s.head.host.ready then s5.startDone
    else (s5.raiseHead 0x73 (leBytes 1 k ++ leBytes 1 up.length)).each up fun s i => s.remoteDoorEvent (4 * k + i)

/-- A frame for this package. -/
def State.bwkDeliver (s : State) (f : BwkFrame) : State :=
  match f.payload with
  | .descriptor r n h d => if s.isHead then s else s.bwkDescriptor r n h d
  | .acknowledge r => s.bwkAcknowledge f.src r
  | .confirm r => s.modBoard fun b => { b with acks := b.acks.filter (· != r) }
  | .completion r st d x => if s.isHead then s.bwkCompletion f.src r st d x else s
  | .lost r => if s.isHead then s.bwkLost f.src r else s
  | .abort r =>
    if s.isHead then s
    else (s.modHost fun h => { h with outstanding := h.outstanding.filter fun o => !(o.remote && o.ref == r && o.waiting) })
  | .event id data =>
    if s.isHead then (s.eventById id.toNat (BitVec.ofNat 32 (fieldLe data 0 4)) (data.drop 4)).noteLink id.toNat (data.drop 4) else s
  | .logBlock r bt b bytes => if s.isHead then s.bwkLogBlock f.src r bt b bytes else s
  | .sedge bt sender frame => s.fabricDeliver bt sender frame
  | .stateReport tiles armed w => if s.isHead then s.bwkReport f.src.val tiles armed w else s
  | .packageDown cause => if s.isHead then s.packageLost f.src.val cause else s
  | .session n => if s.isHead then s else s.bwkSession n
  | .compat on => if s.isHead then s else s.modTime fun tb => { tb with compatRk := on }
  | .straps _ _ => s
  | .changesRead n => if s.isHead then s else s.changesRead n

/-- A frame for another package goes on: at the board head by the route to that package, elsewhere round the ring by the other port; it is
lost where no way is open (R370). -/
def State.bwkRelay (s : State) (port : Fin 2) (f : BwkFrame) : State :=
  if s.isHead then
    match s.bwkRoute f.dst.val with
    | some p => s.emit (.boardwalk p f)
    | none => s
  else if s.portCarries (1 - port) then s.emit (.boardwalk (1 - port) f) else s

/-- A frame from the board head shows the route in force (R371). -/
def State.noteRoute (s : State) (port : Fin 2) (src : Fin 4) : State := if src = 0 then s.routeBy port else s

/-- BOARDWALK_FRAME_RECEIVED (R369 to R372): a frame whose link CRC fails is lost and counted; what is told of the straps passes on every
trained link; a frame for another package goes on round the ring. -/
def execBoardwalkFrameReceived (port : Fin 2) (arrival : BwkFrame × Nat) (s : State) : Host.Outcome State Fault Refusal :=
  onHead s fun s0 =>
    let s := s0.at arrival.2
    let f := arrival.1
    if !s.portTrained port then s
    else if !f.crcOk then s.bwkCrcError port
    else
      match f.payload with
      | .straps known fault => s.strapsTold known fault
      | _ =>
        if !s.portCarries port then s
        else if f.dst.val ≠ s.pkg then s.bwkRelay port f
        else if !(s.tile .t0).die.svc then s
        else (s.noteRoute port f.src).bwkDeliver f

/-- BWK_RETRANSMIT_TIMER (R371): acknowledgements that are not confirmed, and completions and log blocks that are not
acknowledged, go out again. -/
def execBwkRetransmitTimer (s : State) : Host.Outcome State Fault Refusal :=
  onHead s fun s =>
    if s.isHead || !(s.portCarries 0 || s.portCarries 1) || !(s.tile .t0).die.svc then s
    else
      let b := s.head.board
      (s.each b.acks fun s r => s.bwkSend 0 (.acknowledge r)).each b.keep fun s x => s.bwkSend 0 x.2

/-- FORWARD_ACK_TIMEOUT (R320, R371, R372): 10 ms after forwarding, a command that is unacknowledged, lost with its service core or
logic die, or with its package, completes TILE_UNAVAILABLE. -/
def execForwardAckTimeout (q : Fin 32) (tag : Word) (s : State) : Host.Outcome State Fault Refusal :=
  onHead s fun s =>
    if !(s.tile .t0).die.svc then s
    else
      match s.head.host.outstanding.find? fun o => o.queue == q && o.tag == tag && !o.remote && (o.lost ||
          match o.forwarded with
          | some (_, acked) => !acked
          | none => false) with
      | some o => s.completeOut o 0x0A 0 []
      | none => s

/-! ### Time over Boardwalk (R239, R373, R374) -/

/-- The record-time state of a code (R249). -/
def recOfCode : Fin 4 → RecState
  | 0 => .unset
  | 1 => .locked
  | 2 => .holdover
  | 3 => .stepPending

/-- A package follows the board head: its state is the head's. The first lock and a step of the head, which lies beyond jump_thr, step it, and
in every state it follows otherwise by rate (R237, R239, R373). -/
def State.followHead (s : State) (o : Int) (st : RecState) : State :=
  let tb := s.head.time
  let step := st == .locked && (!tb.everLocked || (tb.recState == .stepPending && decide (o.natAbs > s.jumpThr)))
  (if step then s.stepRecord o else s.servoRecord o).setRec st

/-- The head's time as a timing frame brings it: on the route from the board head it is corrected for this link's delay, and followed
once the delay of every hop of the route is measured; until then record time counts as HOLDOVER (R373, R374). -/
def State.takeLead (s : State) (l : BwkLead) (delay : Nat) : State :=
  if l.measured then
    (s.modTime fun tb => { tb with routeHold := false }).followHead (l.offset + (delay / 10 : Nat)) (recOfCode l.state)
  else s.routeChanged

/-- BWK_TIMING_EXCHANGE (R373, R374): half the round trip is the delay of the link. The head's time is taken from the port of the route,
or from the other where that port is down; a neighbour that has lost the head's time leaves this package's record time in HOLDOVER. -/
def execBwkTimingExchange (port : Fin 2) (roundTrip : Nat) (lead : Option BwkLead) (s : State) :
    Host.Outcome State Fault Refusal :=
  onHead s fun s =>
    if !s.portCarries port then s
    else
      let s1 := s.modBoard fun b => { b with delays := vset b.delays port (min 0xFFFE (roundTrip / 2)) }
      if s1.isHead || (s1.head.board.headPort ≠ port && s1.portCarries s1.head.board.headPort) then s1
      else
        match lead with
        | some l => (s1.routeBy port).takeLead l (roundTrip / 2)
        | none => s1.routeChanged

end Sys2Proof.Machine
end

