-- ==== Sys2Proof/Machine/DoorCmds.lean ====
section
/-!
DEFINITION. The meanings of the doorway's steps: the evaluation, the expiry of each bound, the ends of homing moves and
runs, the proof test's result, calibration's steps, and the door and axis commands (ch. 2, 3, 6, 7 and 17 of the spec).
-/

namespace Sys2Proof.Machine

/-! ### Evaluation and bounds -/

/-- DOORWAY_EVALUATION (R38). -/
def execDoorwayEvaluation (t : TileId) (now : Nat) (s : State) : Host.Outcome State Fault Refusal :=
  onTile t s fun s => (s.at now).evaluate t

/-- A bound of the doorway expires and the triad evaluates it; a bound that does not run expires nothing (R35). -/
def State.boundExpires (s : State) (t : TileId) (b : Doorway → Bound) (put : Doorway → Bound → Doorway) : State :=
  if (b (s.tile t).door).isRunning then (s.modDoor t fun d => put d .expired).evaluate t else s

/-- T_UNLOCK_EXPIRY (R35, R66, R140). -/
def execTUnlockExpiry (t : TileId) (s : State) : Host.Outcome State Fault Refusal :=
  onTile t s fun s => s.boundExpires t (·.tUnlock) fun d b => { d with tUnlock := b }

/-- T_OPEN_MAX_EXPIRY (R35). -/
def execTOpenMaxExpiry (t : TileId) (s : State) : Host.Outcome State Fault Refusal :=
  onTile t s fun s => s.boundExpires t (·.tOpenMax) fun d b => { d with tOpenMax := b }

/-- T_WARN_EXPIRY (R35): T15, or the close of a calibration cycle. -/
def execTWarnExpiry (t : TileId) (s : State) : Host.Outcome State Fault Refusal :=
  onTile t s fun s => s.boundExpires t (·.tWarn) fun d b => { d with tWarn := b }

/-- T_CLOSE_MAX_EXPIRY (R35): T17. -/
def execTCloseMaxExpiry (t : TileId) (s : State) : Host.Outcome State Fault Refusal :=
  onTile t s fun s => s.boundExpires t (·.tCloseMax) fun d b => { d with tCloseMax := b }

/-- T_LOCK_EXPIRY (R35): T21, cause 8 of a homing run, or fault 0x0B of a calibration cycle. -/
def execTLockExpiry (t : TileId) (s : State) : Host.Outcome State Fault Refusal :=
  onTile t s fun s => s.boundExpires t (·.tLock) fun d b => { d with tLock := b }

/-- T_NUDGE_MAX_EXPIRY (R35): T27. -/
def execTNudgeMaxExpiry (t : TileId) (s : State) : Host.Outcome State Fault Refusal :=
  onTile t s fun s => s.boundExpires t (·.tNudgeMax) fun d b => { d with tNudgeMax := b }

/-- T_OPEN_DWELL_EXPIRY (R35): T14. -/
def execTOpenDwellExpiry (t : TileId) (s : State) : Host.Outcome State Fault Refusal :=
  onTile t s fun s => s.boundExpires t (·.tOpenDwell) fun d b => { d with tOpenDwell := b }

/-- T_STEP_MAX_EXPIRY (R72): as t_open_max or t_close_max. -/
def execTStepMaxExpiry (t : TileId) (s : State) : Host.Outcome State Fault Refusal :=
  onTile t s fun s => s.boundExpires t (·.tStepMax) fun d b => { d with tStepMax := b }

/-- T_REV_MAX_EXPIRY (R123): T30. -/
def execTRevMaxExpiry (t : TileId) (s : State) : Host.Outcome State Fault Refusal :=
  onTile t s fun s => s.boundExpires t (·.tRevMax) fun d b => { d with tRevMax := b }

/-- T_BRAKE_MAX_EXPIRY (R123, R125): the move is commanded anyway, or refused. -/
def execTBrakeMaxExpiry (t : TileId) (s : State) : Host.Outcome State Fault Refusal :=
  onTile t s fun s => s.boundExpires t (·.tBrakeMax) fun d b => { d with tBrakeMax := b }

/-- T_DWELL_EXPIRY (R125): T25. -/
def execTDwellExpiry (t : TileId) (s : State) : Host.Outcome State Fault Refusal :=
  onTile t s fun s => s.boundExpires t (·.tDwell) fun d b => { d with tDwell := b }

/-- T_HOME_MAX_EXPIRY (R66): the run fails with cause 6. -/
def execTHomeMaxExpiry (t : TileId) (a : AxisId) (s : State) : Host.Outcome State Fault Refusal :=
  onTile t s fun s =>
    if (s.axis t a).mo.tHomeMax.isRunning then (s.modMo t a fun m => { m with tHomeMax := .expired }).evaluate t else s

/-- STAKE_BOUND_EXPIRY (R105): the engine raises the event; the expiry is handled by the doorway state. -/
def execStakeBoundExpiry (t : TileId) (a : AxisId) (s : State) : Host.Outcome State Fault Refusal :=
  onTile t s fun s =>
    let x := s.axis t a
    match x.pa.bound with
    | none => s
    | some (_, d, i) =>
      if !x.pa.boundTime.isRunning then s
      else
        let s1 := s.modPa t a fun q => { q with bound := none, boundTime := .idle }
        let s2 := s1.raise t 0x13 (leBytes 1 a.num ++ leBytes 1 d.num ++ leBytes 1 i ++ [0] ++ leInt 4 x.fb.pos ++
          leBytes 4 s.ts.toNat)
        s2.modDoor t fun dd =>
          if dd.st == .opening || dd.st == .closing || dd.st == .nudging || dd.st == .reversing then
            { dd with stakeExpired := dd.stakeExpired ++ [a] } else dd

/-! ### Homing, rest and the proof test -/

/-- HOMING_RUN_COMPLETE (R66, R68): the evaluation in which complete() is reached. -/
def execHomingRunComplete (t : TileId) (s : State) : Host.Outcome State Fault Refusal :=
  onTile t s fun s => if (s.tile t).homeDone then s.evaluate t else s

/-- The end of a move at rest, once its profile has ended and its measured speed has been low for 10 ms (R418); in a homing run
the next step of the axis's procedure starts (R66). -/
def State.moveEnds (s : State) (t : TileId) (a : AxisId) : State :=
  match (s.axis t a).mo.move with
  | none => s
  | some mv =>
    if !s.atRest t a then s else if mv.kind == .homing || (s.axis t a).mo.homeStage.isSome then (s.comeToRest t a).homeRest t a
               else s.comeToRest t a

/-- HOMING_MOVE_COMPLETE (R66). -/
def execHomingMoveComplete (t : TileId) (a : AxisId) (s : State) : Host.Outcome State Fault Refusal :=
  onTile t s fun s => if (s.axis t a).mo.homeStage.isSome then s.moveEnds t a else s

/-- MOVE_COMES_TO_REST (R418). -/
def execMoveComesToRest (t : TileId) (a : AxisId) (s : State) : Host.Outcome State Fault Refusal :=
  onTile t s fun s => s.moveEnds t a

/-- Step 8 of a calibration cycle has completed (R140, R141): the cycle's data stand, and the third cycle's set is
installed. -/
def State.calCycleDone (s : State) (t : TileId) : State :=
  let tl := s.tile t
  match tl.door.cal with
  | .cycle n 8 cancelled =>
    if tl.door.calEndMax.isRunning then
      s.modDoor t fun d => { d with cal := .idle, calEndMax := .idle }
    else
      let s1 := s.raise t 0x2D (leBytes 1 (n + 1))
      if cancelled then (s1.modDoor t fun d => { d with cal := .idle }).raise t 0x2F (leBytes 1 8)
      else if n + 1 ≥ 3 then
        let s2 := s1.each tl.usedAxes fun s a =>
          s.modAxis t a fun x => { x with soundings := tl.computeSet a x.calSums 3 x.soundings, calSums := [] }
        (s2.modDoor t fun d => { d with cal := .idle }).raise t 0x2E
          (leBytes 2 (tl.usedAxes.map fun a => learnedCount (s2.axis t a).soundings).sum)
      else s1.modDoor t fun d => { d with cal := .ready (n + 1), calPermitMax := .running (1000 * tl.parN 0x0A 1) }
  | .aborted true 8 => s.modDoor t fun d => { d with cal := .idle, calEndMax := .idle }
  | _ => s

/-- The verdict of a proof test: its first failed check; a check that has not been made fails too (R119). -/
def Tile.proofVerdict (tl : Tile) : Option (AxisId × Nat) :=
  match tl.door.proofBad with
  | some f => some f
  | none => if tl.door.proofPhase == 5 then none else some (tl.usedAxes.headD .A, proofStep tl.door.proofPhase)

/-- PROOF_TEST_RESULT (R119): the triad evaluates the reports of steps 2, 5, 7 and 9. A pass makes row 5 of R182 hold and ends step 8
of a calibration cycle; a failure takes T23. The fabric is cleared with step 10. -/
def execProofTestResult (t : TileId) (now : Nat) (s : State) : Host.Outcome State Fault Refusal :=
  onTile t s fun s0 =>
    let s := s0.at now
    let tl := s.tile t
    let d := tl.door
    if !d.proofRun || !tl.triadRuns then s
    else if !tl.triadActs then s.holdBack t (.proofTestResult t now)
    else
      let failed := tl.proofVerdict
      let s1 := (s.each tl.usedAxes fun s a => s.releasePair t a).modDoor t fun d =>
        let d1 := { d with proofRun := false, proofSelf := false, proofPhase := 0, proofBad := none }
        if d.proofSelf then d1.partResult 3 (if failed.isSome then 1 else 0) 0 else d1
      match failed with
      | some f =>
        let s2 := s1.modDoor t fun d => { d with proofFailed := some f }
        ((if d.st == .isolated || d.st == .faultSafe then s2.proofFault t else s2).evaluate t).selftestFinish t
      | none =>
        let cal := d.calHolds
        let s2 := (s1.modDoor t fun d => { d with proofOk := d.rows12, proofOld := false }).calCycleDone t
        let s3 := if cal then
            s2.modDoor t fun d => { d with rows12 := (s2.tile t).sraRows12, proofOk := (s2.tile t).sraRows12 } else s2
        (s3.evaluate t).selftestFinish t

/-- OBSTRUCTION_AGES_OUT (R129); in the hold of R223 its event waits for the commit. -/
def execObstructionAgesOut (t : TileId) (s : State) : Host.Outcome State Fault Refusal :=
  onTile t s fun s => if (s.tile t).triadActs then s.ageObstructions t else s.holdBack t (.obstructionAgesOut t)

/-! ### Calibration -/

/-- CALIBRATION_READY (R139); in the hold of R223 its event waits for the commit. -/
def execCalibrationReady (t : TileId) (s : State) : Host.Outcome State Fault Refusal :=
  onTile t s fun s => if (s.tile t).triadActs then s.calReady t else s.holdBack t (.calibrationReady t)

/-- CAL_PERMIT_MAX_EXPIRY (R139): the run is cancelled; in the hold of R223 that waits for the commit. -/
def execCalPermitMaxExpiry (t : TileId) (s : State) : Host.Outcome State Fault Refusal :=
  onTile t s fun s =>
    let d := (s.tile t).door
    match d.cal with
    | .ready _ =>
      if (s.tile t).triadRuns && !(s.tile t).triadActs then s.holdBack t (.calPermitMaxExpiry t)
      else if d.calPermitMax.isRunning then
        (s.modDoor t fun d => { d with cal := .idle, calPermitMax := .idle }).raise t 0x2F (leBytes 1 9)
      else s
    | _ => s

/-- CAL_REST_EXPIRY (R140): LS3 and t_warn start. -/
def execCalRestExpiry (t : TileId) (s : State) : Host.Outcome State Fault Refusal :=
  onTile t s fun s => s.boundExpires t (·.calRest) fun d b => { d with calRest := b }

/-- CAL_END_MAX_EXPIRY (R142): fault 0x0B. -/
def execCalEndMaxExpiry (t : TileId) (s : State) : Host.Outcome State Fault Refusal :=
  onTile t s fun s => s.boundExpires t (·.calEndMax) fun d b => { d with calEndMax := b }

/-! ### Door and axis commands (R37, R43, R325, R326) -/

/-- The host release set or cleared, and the evaluation that sees it (R37, R325, R343): the completion holds the state that it leads to, with the
transition that it takes, and stands before every record that it causes (R307, R326). -/
def State.hostReleaseSet (s : State) (h : HostCmd) (op : Nat) (on : Bool) : State :=
  let t := h.tile
  let s1 := s.modDoor t fun d => { d with hostRelease := on, lastTrans := 0 }
  let s2 := s1.evaluate t
  (s1.complete h op 0 0 (s2.doorResult t (s2.tile t).door.lastTrans)).evaluate t

/-- DOOR_RELEASE (R37). -/
def execDoorRelease (h : HostCmd) (s : State) : Host.Outcome State Fault Refusal :=
  onCmd h 0x20 s fun s =>
    if (s.tile h.tile).triadActs then s.hostReleaseSet h 0x20 true else s.holdBack h.tile (.doorRelease h)

/-- DOOR_WITHDRAW (R37). -/
def execDoorWithdraw (h : HostCmd) (s : State) : Host.Outcome State Fault Refusal :=
  onCmd h 0x24 s fun s =>
    if (s.tile h.tile).triadActs then s.hostReleaseSet h 0x24 false else s.holdBack h.tile (.doorWithdraw h)

/-- A door or axis command enters the triad mailbox, once, and the triad evaluates (R325). -/
def State.postDoor (s : State) (h : HostCmd) (c : DoorCmd) : State :=
  if (s.tile h.tile).door.mailbox.any fun m => m.1.queue == h.queue && m.1.tag == h.tag then s.evaluate h.tile
  else (s.modDoor h.tile fun d => { d with mailbox := d.mailbox ++ [(h, c)] }).evaluate h.tile

/-- DOOR_OPEN (R43). -/
def execDoorOpen (h : HostCmd) (s : State) : Host.Outcome State Fault Refusal :=
  onCmd h 0x21 s fun s => s.postDoor h .openDoor

/-- DOOR_CLOSE (R43, R40). -/
def execDoorClose (h : HostCmd) (s : State) : Host.Outcome State Fault Refusal :=
  onCmd h 0x22 s fun s => s.postDoor h .closeDoor

/-- DOOR_HOLD (R43). -/
def execDoorHold (h : HostCmd) (s : State) : Host.Outcome State Fault Refusal :=
  onCmd h 0x23 s fun s => s.postDoor h .hold

/-- DOOR_NUDGE (R43). -/
def execDoorNudge (h : HostCmd) (s : State) : Host.Outcome State Fault Refusal :=
  onCmd h 0x29 s fun s => s.postDoor h .nudge

/-- STEP_DEPLOY (R73). -/
def execStepDeploy (h : HostCmd) (s : State) : Host.Outcome State Fault Refusal :=
  onCmd h 0x25 s fun s => s.postDoor h .stepDeploy

/-- STEP_STOW (R73). -/
def execStepStow (h : HostCmd) (s : State) : Host.Outcome State Fault Refusal :=
  onCmd h 0x26 s fun s => s.postDoor h .stepStow

/-- AXIS_HOME (R68, R69, R326). -/
def execAxisHome (h : HostCmd) (suspectClear : Bool) (s : State) : Host.Outcome State Fault Refusal :=
  onCmd h 0x27 s fun s => s.postDoor h (.axisHome suspectClear)

/-- AXIS_JOG (R74); under version 1.0, whose target names no axis, it jogs axis A (R315). -/
def execAxisJog (h : HostCmd) (distance : Int) (s : State) : Host.Outcome State Fault Refusal :=
  onCmd h 0x28 s fun s => s.postDoor h (.axisJog (h.axis.getD .A) distance)

end Sys2Proof.Machine
end

