-- ==== Sys2Proof/Machine/Interlock.lean ====
section
/-!
DEFINITION. The interlocks: SRA readback, the bittern monitor and SRB, the seal switches, the edge reset and the age of the
proof test (R184 to R187, R193, R198 to R201).
-/

namespace Sys2Proof.Machine

/-! ### SRA (R184) -/

/-- The readback agrees with the command: it reads on while SRA is open, and off while it is closed. -/
def UpView.sraAgrees (u : UpView) : Bool := u.sraFb == !u.sra

/-- SRA_READBACK_DISAGREEMENT (R184): the disagreement has lasted 20 ms, which is fault 0x02. -/
def execSraReadbackDisagreement (t : TileId) (s : State) : Host.Outcome State Fault Refusal :=
  onTile t s fun s =>
    if (s.tile t).link.up.sraAgrees || !(s.tile t).triadRuns then s
    else s.modDoor t fun d => { d with sraDisagree := true }

/-! ### The bittern monitor (R185 to R187) -/

/-- The bittern monitor enters FAULT, and SRB opens; only a power-on reset of FBIAS ends it (R186). -/
def FieldDie.bitternFault (f : FieldDie) : FieldDie := { f with bittern := .fault, srb := false }

/-- BITTERN_CHANNEL_PROVEN (R185): the channel has read active for fio_deb; with its pulses in order it is proven, and with all four
proven SRB closes. The monitor reads its pins only once it has a configuration (R187). -/
def execBitternChannelProven (t : TileId) (ch : Fin 4) (s : State) : Host.Outcome State Fault Refusal :=
  onTile t s fun s => s.modField t fun f =>
    if f.bitActive ch && f.bitPulsesOk ch s.now then f.bitternProof ch true else f

/-- BITTERN_CHANNEL_UNPROVEN (R186): the channel reads inactive at the pin, outside the blanking window of its own source, and SRB
opens. -/
def execBitternChannelUnproven (t : TileId) (ch : Fin 4) (s : State) : Host.Outcome State Fault Refusal :=
  onTile t s fun s => s.modField t fun f => if f.bitActive ch || f.bitBlanked ch then f else f.bitternProof ch false

/-- BITTERN_PULSE_AGE_EXPIRY (R185): no own pulse seen within the proof window. -/
def execBitternPulseAgeExpiry (t : TileId) (ch : Fin 4) (s : State) : Host.Outcome State Fault Refusal :=
  onTile t s fun s => s.modField t fun f =>
    { f with bitLow := f.bitLow &&& ~~~(BitVec.ofNat 4 (2 ^ ch.val)) }.bitternProof ch false

/-- BITTERN_PERIODIC_CHECK (R186). -/
def execBitternPeriodicCheck (t : TileId) (oscOk configOk : Bool) (s : State) : Host.Outcome State Fault Refusal :=
  onTile t s fun s => s.modField t fun f => if oscOk && configOk then f else f.bitternFault

/-- BITTERN_READBACK_FAULT (R186): the operand is the level that the tile's Tt_SRB_FB has held for 20 ms; it agrees when it reads on while SRB is
open, and off while it is closed (R184). -/
def execBitternReadbackFault (level : TileId × Bool) (s : State) : Host.Outcome State Fault Refusal :=
  onTile level.1 s fun s => s.modField level.1 fun f => if level.2 == !f.srb then f else f.bitternFault

/-- The bittern monitor's channel proofs agree with the triad's pair statuses (R187): a pair is proven exactly while both
its channels are. -/
def UpView.proofsAgree (u : UpView) : Bool :=
  ((u.pLeaf == .active) == (u.proofs.getLsbD 0 && u.proofs.getLsbD 1)) &&
  ((u.pLock == .active) == (u.proofs.getLsbD 2 && u.proofs.getLsbD 3))

/-- BITTERN_PROOF_DISAGREEMENT (R187): the disagreement has lasted 200 ms, which is fault 0x04. -/
def execBitternProofDisagreement (t : TileId) (s : State) : Host.Outcome State Fault Refusal :=
  onTile t s fun s =>
    if (s.tile t).link.up.proofsAgree || !(s.tile t).triadRuns then s
    else s.modDoor t fun d => { d with proofDisagree := true }

/-! ### The seal and the proof age (R193, R201) -/

/-- SEAL_DEBOUNCE_EXPIRY (R193): a closed switch reads 1; every tile judges the match in its next evaluation. -/
def execSealDebounceExpiry (n : Fin 16) (level : Bool) (s : State) : Host.Outcome State Fault Refusal :=
  onHead s fun s => s.modHead fun h =>
    let m := BitVec.ofNat 16 (2 ^ n.val)
    { h with sealSw := if level then h.sealSw ||| m else h.sealSw &&& ~~~m }

/-- PROOF_AGE_EXPIRY (R201). -/
def execProofAgeExpiry (t : TileId) (s : State) : Host.Outcome State Fault Refusal :=
  onTile t s fun s => s.modDoor t fun d => { d with proofOld := true }

/-! ### The edge reset (R198, R199) -/

/-- A resume input of the head. -/
def Head.res (h : Head) : ResumeId → Resume
  | .resumeA => h.resA
  | .resumeB => h.resB

/-- The head with one resume input replaced. -/
def Head.setRes (h : Head) (r : ResumeId) (v : Resume) : Head :=
  match r with
  | .resumeA => { h with resA := v }
  | .resumeB => { h with resB := v }

/-- The other resume input. -/
def otherRes : ResumeId → ResumeId
  | .resumeA => .resumeB
  | .resumeB => .resumeA

/-- The end of an attempt: `rise` and `fell` speak of the attempt under way alone. -/
def Head.endAttempt (h : Head) : Head :=
  { h with attempt := false, resA := { h.resA with rise := none, fell := false },
           resB := { h.resB with rise := none, fell := false } }

/-- An attempt rejected at a row of R198. -/
def State.resetReject (s : State) (row : Nat) : State := (s.modHead Head.endAttempt).raiseHead 0x60 (leBytes 1 row)

/-- A stuck reset (R199): its event names the inputs that read high. -/
def State.resetStuck (s : State) (powerOn : Bool) : State :=
  let h := s.head
  (s.modHead fun h => { h.endAttempt with stuck := true, stuckPower := powerOn }).raiseHead 0x61
    (leBytes 1 (ofBits [h.resA.level, h.resB.level, powerOn]))

/-- An accepted edge reset delivered to every tile of the package, which judges it in an evaluation (R198). -/
def State.resetAccept (s : State) : State :=
  let s1 := (s.modHead Head.endAttempt).raiseHead 0x62 (leBytes 4 s.ts.toNat)
  s1.each s1.tileIds fun s t => (s.modDoor t fun d => { d with edgeReset := true }).evaluate t

/-- A debounced rise (R198, R199). -/
def State.resumeRise (s : State) (r : ResumeId) : State :=
  let old := s.head.res r
  let other := s.head.res (otherRes r)
  let s1 := s.modHead fun h => h.setRes r { old with level := true }
  let put := fun (s : State) => s.modHead fun h =>
    { h.setRes r { old with level := true, rise := some s.now, fell := false } with attempt := true }
  let lowLong := match old.fall with
    | none => decide (s.now ≥ 100000000)
    | some f => decide (s.now ≥ f + 100000000)
  if s.head.stuck then s1
  else if !s.head.attempt then
    if old.fall.isNone && decide (s.now ≤ 5000000) then s1.resetStuck true
    else if !lowLong then s1.resetReject 1
    else put s1
  else if old.rise.isSome then s1.resetReject (if other.rise.isSome then 4 else 2)
  else if !lowLong then s1.resetReject 1
  else
    match other.rise with
    | some i => if s.now > i + 50000000 then s1.resetReject 2 else put s1
    | none => put s1

/-- A debounced fall (R198). -/
def State.resumeFall (s : State) (r : ResumeId) : State :=
  let old := s.head.res r
  let other := s.head.res (otherRes r)
  let s1 := s.modHead fun h => h.setRes r { old with level := false, fall := some s.now }
  if s.head.stuck || !s.head.attempt then s1
  else
    match old.rise with
    | none => s1
    | some i =>
      if other.rise.isNone then s1.resetReject 2
      else if s.now < i + 80000000 ∨ s.now > i + 3000000000 then s1.resetReject 3
      else if other.fell then s1.resetAccept
      else s1.modHead fun h => h.setRes r { h.res r with fell := true }

/-- RESUME_DEBOUNCE_EXPIRY (R198): the inputs have a debounce of 5 ms. -/
def execResumeDebounceExpiry (r : ResumeId) (level : Bool) (now : Nat) (s : State) : Host.Outcome State Fault Refusal :=
  onHead s fun s0 =>
    let s := s0.at now
    if (s.head.res r).level == level then s else if level then s.resumeRise r else s.resumeFall r

/-- RESUME_HIGH_TIMEOUT (R198, R199): an input high for more than 3 s breaks row 3 of an attempt and is a stuck reset. -/
def execResumeHighTimeout (r : ResumeId) (s : State) : Host.Outcome State Fault Refusal :=
  onHead s fun s =>
    if !(s.head.res r).level || s.head.stuck then s
    else (if s.head.attempt && (s.head.res r).rise.isSome then s.resetReject 3 else s).resetStuck false

/-- STUCK_RESET_CLEAR (R199): both inputs have read low together for 1 s. -/
def execStuckResetClear (s : State) : Host.Outcome State Fault Refusal :=
  onHead s fun s =>
    if s.head.resA.level || s.head.resB.level then s else s.modHead fun h => { h with stuck := false }

end Sys2Proof.Machine
end

