-- ==== Sys2Proof/Machine/FieldLink.lean ====
section
/-!
DEFINITION. The field link between the dies of a tile, the keep-alive and the serial watchdog, the fallback image and its
release, and the heartbeat of the service core (R16 to R18, R27, R115, R118, R161 to R164, R187, R352).
-/

namespace Sys2Proof.Machine

/-! ### The keep-alive (R18, R161, R163) -/

/-- The serial watchdog accepts a word from the voter output whose complement matches; after the image was applied with any count,
else with one 1 to 64 ahead of the last accepted (R18, R163). A word that fails is not received: it changes nothing. A count that
has moved on by more than one shows a word not received, which begins the run of consecutive words anew (DEDUCED, R163; log
entry 22). -/
def FieldDie.keepAlive (f : FieldDie) (w : KaWord) : FieldDie :=
  let ahead := match f.wdLast with
    | none => 1
    | some last => (w.count - last).toNat
  if w.voted && w.comp == ~~~w.count && decide (1 ≤ ahead ∧ ahead ≤ 64) then
    { f with wdLast := some w.count, wdRun := if ahead = 1 then min 16 (f.wdRun + 1) else 1 }
  else f

/-- KEEP_ALIVE_WORD (R18): while the triad sends it, the count rises by one; in the hold of R223 the word waits for the commit
(R224). The first word after a release ends the supervisor's watch (R382). -/
def execKeepAliveWord (t : TileId) (s : State) : Host.Outcome State Fault Refusal :=
  onTile t s fun s =>
    if !(s.tile t).link.keepAlive then s
    else if !(s.tile t).triadActs then s.holdBack t (.keepAliveWord t)
    else (s.modDie t fun d => { d with kaSent := true, supervisor := 0 }).modLink t fun l =>
      let n := l.kaCount + 1
      { l with kaCount := n, kaWord := some { count := n, comp := ~~~n, voted := true } }

/-- The fallback image applied (R161): outputs at their image levels, LS0 off, bridges in BRAKE, SRA and SRB open; a check in
progress ends without a result (R165). -/
def State.applyFallback (s : State) (t : TileId) : State :=
  let s1 := s.modField t fun f => FieldDie.bitternEval
    { f with fallback := true, wdLast := none, wdRun := 0, sra := false, onTest := 0, gateTest := false, cfgBuf := [],
             pwm := ⟨false, false, false⟩, ls := vmap (fun (c : LsChannel) => { c with checking := false }) f.ls }
  (s1.each AxisId.all fun s a => s.modMo t a fun m =>
    { m with bridge := if m.bridge == .driven then .brake else m.bridge, freeDelay := false }).lsRefresh t

/-- The serial watchdog has run out: the image is applied, and where it stands already the count sequence and the run of words begin anew, for the
words before the gap are not consecutive with those after it (R161, R163). -/
def State.watchdogOut (s : State) (t : TileId) : State :=
  if (s.tile t).field.fallback then s.modField t fun f => { f with wdLast := none, wdRun := 0 } else s.applyFallback t

/-- SERIAL_WATCHDOG_EXPIRY (R161). -/
def execSerialWatchdogExpiry (t : TileId) (s : State) : Host.Outcome State Fault Refusal :=
  onTile t s fun s => s.watchdogOut t

/-! ### Down-frames (R16, R17) -/

/-- The bytes of the bittern configuration that one frame carries; R16 gives the parts no size (DESIGN CHOICE, log entry 36). -/
def cfgPart (cfg : List Byte) (i : Nat) : List Byte := (cfg.drop (4 * i)).take 4

/-- What a down-frame carries (R16). -/
structure DownFrame where
  duty     : PerAxis (Int × Int × Int)
  pwm      : PerAxis Bool
  edgeEn   : PerAxis Bool
  clear    : PerAxis Bool
  compTest : Bool
  edgeForce : Bool
  lsLine   : BitVec 10
  lsClear  : BitVec 10
  lsCheck  : BitVec 10
  onTest   : BitVec 10
  gateTest : Bool
  io       : BitVec 16
  ioClear  : BitVec 16
  sra      : Bool
  config   : Option (Nat × List Byte)
  ka       : Option KaWord
  release  : Bool
  deriving DecidableEq, Repr

/-- A value for each axis. -/
def perAxis {α : Type} (f : AxisId → α) : PerAxis α := ⟨f .A, f .B, f .C⟩

/-- The step of the proof test that the triad has come to, 0 without a test (R119). -/
def Tile.proofStepNow (tl : Tile) : Fin 6 := if tl.door.proofRun then tl.door.proofPhase else 0

/-- The next down-frame of a tile: the edge-enable bits are those of the zones in force (R115), and 1 while the proof test forces the edges
(R119); SRA is forced open while the triad is lost (R230). -/
def Tile.downFrame (tl : Tile) : DownFrame where
  duty := perAxis fun a => (tl.ax.get a).mo.duty
  pwm := perAxis fun a => (tl.ax.get a).mo.bridge == .driven
  edgeEn := perAxis fun a => tl.par 0x82 5 (tl.ax.get a).mo.zone.val != 0 || (tl.proofStepNow == 4 && tl.used a)
  clear := tl.link.clear
  compTest := tl.proofStepNow == 3
  edgeForce := tl.proofStepNow == 4
  lsLine := tl.link.lsCmd
  lsClear := tl.link.lsClear
  lsCheck := tl.link.lsCheck
  onTest := tl.link.onTest
  gateTest := tl.link.gateTest
  io := tl.link.ioCmd
  ioClear := tl.link.ioClear
  sra := tl.door.sraCmd && tl.triad.mode != .lost
  config := if tl.link.sendConfig then some (tl.link.cfgNext, cfgPart tl.bitternConfig tl.link.cfgNext) else none
  ka := tl.link.kaWord
  release := tl.link.release

/-- A frame takes its keep-alive word off the link, and the next part of the configuration comes up. -/
def Link.sent (l : Link) : Link := { l with kaWord := none, cfgNext := if l.sendConfig then (l.cfgNext + 1) % 9 else 0 }

/-- A frame that arrived takes its clears and checks off the link, and the results of the checks are awaited; a frame that was discarded leaves them for the next (DESIGN
CHOICE, log entry 54). -/
def Link.arrived (l : Link) : Link := { l with lsClear := 0, ioClear := 0, lsCheck := 0, lsAwait := l.lsAwait ||| l.lsCheck }

/-- A part of the bittern configuration, taken only while the fallback image is applied (R187) and in order: the configuration is
in force when every part has arrived (R16), and every channel has to be proven anew. -/
def FieldDie.configPart (f : FieldDie) (i : Nat) (part : List Byte) : FieldDie :=
  if !f.fallback then f
  else
    let buf := if i = 0 then part else if f.cfgBuf.length = 4 * i then f.cfgBuf ++ part else []
    if buf.length = 36 then
      FieldDie.bitternEval { f with bitConfig := some buf, cfgBuf := [], proofs := 0, bitLow := 0, bitForeign := Vector.replicate 4 none }
    else { f with cfgBuf := buf }

/-- The edge-enable bit of an axis as the frame carries it; while it is 1 an active mapped edge trips the fabric (R115). -/
def State.downEdge (s : State) (t : TileId) (a : AxisId) (en : Bool) : State :=
  (s.modFab t a fun f => { f with edgeEn := en }).edgeLevel t a

/-- A fabric-clear that the frame carries releases both paths when every input is inactive (R118), and a bridge whose move waits
for it is driven. Where a path stays asserted the move is refused and reported (R60). -/
def State.downClear (s : State) (t : TileId) (a : AxisId) : State :=
  let tl := s.tile t
  let x := tl.ax.get a
  let waits := x.moving && x.mo.tripNote.isNone && x.mo.bridge == .brake
  if !tl.link.clear.get a then s
  else
    let s1 := s.modLink t fun l => { l with clear := l.clear.set a false }
    if x.pairRaised || tl.fabInputs a then (if waits then (s1.brakeAxis t a).refuseMove t a else s1)
    else s1.modAxis t a fun x =>
      { x with fab := { x.fab with path1 := false, path2 := false, tripped := false, fault := false }
               mo := { x.mo with bridge := if waits && !tl.field.fallback then .driven else x.mo.bridge } }

/-- The forcing of a proof-test step on an axis (R119), taken after the frame's clear: the wire of its trip pair that the triad asserts alone, the
comparator's test level on both paths, or every mapped edge forced active with its enable bit at 1. An axis that no edge is mapped to is
not tried by the last (DEDUCED, log entry 54). A path that the clear did not release stays as it is. -/
def State.proofForce (s : State) (t : TileId) (fr : DownFrame) (a : AxisId) : State :=
  let tl := s.tile t
  let w := (tl.ax.get a).mo.wire
  let mapped := [EdgeId.edgeA, EdgeId.edgeB].any fun e => tl.edgeMask e / 2 ^ a.num % 2 == 1
  let both := fr.compTest || (fr.edgeForce && mapped)
  s.pathForced t a (w == 1 || both) (w == 2 || both)

/-- A step of the proof test that the field die takes for the first time, on every used axis (R119). -/
def State.downForce (s : State) (t : TileId) (fr : DownFrame) : State :=
  let step := (s.tile t).proofStepNow
  if (s.tile t).field.force = step then s
  else
    let s1 := s.modField t fun f => { f with force := step }
    if step = 0 then s1 else s1.each (s1.tile t).usedAxes fun s a => s.proofForce t fr a

/-- The output and SRA commands of a frame; an outgoing fallback image ends in the frame that carries its release, once 16
consecutive words were accepted (R163, R183). -/
def State.downOutputs (s : State) (t : TileId) (fr : DownFrame) : State :=
  let f0 := (s.tile t).field
  let fb := f0.fallback && !(decide (f0.wdRun ≥ 16) && fr.release)
  let s1 := s.modField t fun f => FieldDie.bitternEval
    { f with
      fallback := fb, sra := fr.sra && !fb, duty := fr.duty, pwm := fr.pwm
      onTest := if fb then 0 else fr.onTest, gateTest := fr.gateTest && !fb
      ls := ⟨⟨lsChannels.map fun ch => { f.ls[ch] with line := fr.lsLine.getLsbD ch.val }⟩, rfl⟩
      io := ⟨⟨ioPins.map fun p => { f.io[p] with cmd := fr.io.getLsbD p.val }⟩, rfl⟩ }
  (((s1.lsRefresh t).lsClearNow t fr.lsClear).ioClearNow t fr.ioClear).lsCheckStart t fr.lsCheck

/-- What the field die does with an intact frame (R16). -/
def State.downApply (s : State) (t : TileId) (fr : DownFrame) : State :=
  let s1 := match fr.ka with
    | some w => s.modField t fun f => f.keepAlive w
    | none => s
  let s2 := match fr.config with
    | some (i, part) => s1.modField t fun f => f.configPart i part
    | none => s1
  ((s2.downOutputs t fr).each AxisId.all fun s a => (s.downEdge t a (fr.edgeEn.get a)).downClear t a).downForce t fr

/-- An intact down-frame carried from die to die (R16). -/
def State.downFrameSent (s : State) (t : TileId) : State :=
  ((s.modLink t Link.sent).modLink t Link.arrived).downApply t (s.tile t).downFrame

/-- The bittern configuration written at the start, by the nine down-frames that carry its parts (R16, R187, R376 step 7): nothing is
written where the monitor's check value agrees. The frames of that time arrive, for the triad repeats the write until they have (DEDUCED,
log entry 36). -/
def State.writeConfig (s : State) (t : TileId) : State :=
  if (s.tile t).field.bitConfig == some (s.tile t).bitternConfig then s
  else
    ((s.modLink t fun l => { l with sendConfig := true, cfgNext := 0 }).each (List.range 9) fun s _ => s.downFrameSent t).modLink t
      fun l => { l with sendConfig := false, cfgNext := 0 }

/-- FIELD_LINK_DOWN_FRAME (R16, R17): a frame that fails its CRC is discarded with its keep-alive word and its part of the configuration;
a logic die held in reset sends none. -/
def execFieldLinkDownFrame (t : TileId) (intact : Bool) (s : State) : Host.Outcome State Fault Refusal :=
  onTile t s fun s =>
    let tl := s.tile t
    if tl.die.inReset then s
    else
      if intact then s.downFrameSent t else s.modLink t Link.sent

/-! ### Up-frames (R16, R17) -/

/-- What an up-frame carries (R16). The gate monitors show all six gates of an axis off only while they are; the operand says whether each
monitor reads so. -/
def State.upFrame (s : State) (t : TileId) (obs : UpObs) : UpView :=
  let tl := s.tile t
  let f := tl.field
  { pLeaf := f.pLeaf.status, pLock := f.pLock.status, pEgress := f.pEgress.status, pIso := f.pIso.status
    tlLevel := f.tlLevel
    ioRaw := BitVec.ofNat 16 (maskOf (f.io.toList.map (·.raw)))
    ioLevel := BitVec.ofNat 16 (maskOf (f.io.toList.map (·.level)))
    tlRaw := BitVec.ofNat 4 (maskOf f.tlRaw.toList)
    path1 := ⟨tl.ax.a.fab.path1, tl.ax.b.fab.path1, tl.ax.c.fab.path1⟩
    path2 := ⟨tl.ax.a.fab.path2, tl.ax.b.fab.path2, tl.ax.c.fab.path2⟩
    bittern := f.bittern, proofs := f.proofs, bitConfig := f.bitConfig, fallback := f.fallback
    sra := f.sra, srb := f.srb, sraFb := obs.sraFb
    gatesOff := perAxis fun a => obs.gatesOff.get a && tl.gateMode a == .free
    currents := obs.currents, vbus := obs.vbus, wdRun := f.wdRun
    pinFlags := ⟨⟨ioPins.map fun p =>
      let x := f.io[p]
      BitVec.ofNat 6 (ofBits [x.noPulse, x.foreign, x.stuckHigh, x.mismatch, x.thermal, tl.sourceFault p.val])⟩, rfl⟩
    tpFault := f.tpFault, vioLow := !f.vioOk
    lsCodes := vmap LsChannel.sense f.ls
    lsFlags := ⟨⟨lsChannels.map tl.lsFlags⟩, rfl⟩
    lsChecking := lsMask fun ch => f.ls[ch].checking
    fabFault := ⟨tl.ax.a.fab.fault, tl.ax.b.fab.fault, tl.ax.c.fab.fault⟩
    ts := s.ts }

/-- What an up-frame ends: the fallback release once it is done, the wait for the checks that have a result, and the disagreements that have gone (R163, R184, R187,
R188, R195). -/
def State.upEffects (s : State) (t : TileId) : State :=
  let u := (s.tile t).link.up
  let s1 := s.modLink t fun l => { l with release := l.release && u.fallback, lsAwait := l.lsAwait &&& u.lsChecking }
  (s1.modDoor t fun d =>
    { d with sraDisagree := d.sraDisagree && !u.sraAgrees, proofDisagree := d.proofDisagree && !u.proofsAgree }).tlDiscClear t

/-- A check of the proof test passes on an axis (R119): all six gates off, and the paths as the step forces them. -/
def Tile.proofAxisOk (tl : Tile) (a : AxisId) (step : Fin 6) : Bool :=
  let u := tl.link.up
  let p1 := u.path1.get a
  let p2 := u.path2.get a
  let mapped := [EdgeId.edgeA, EdgeId.edgeB].any fun e => tl.edgeMask e / 2 ^ a.num % 2 == 1
  match step with
  | 1 => u.gatesOff.get a && !p2
  | 2 => u.gatesOff.get a && !p1
  | 3 => u.gatesOff.get a && p1 && p2
  | 4 => !mapped || (u.gatesOff.get a && p1 && p2)
  | _ => true

/-- The check that follows a forcing, made on the first up-frame after the field die took it (R119: the table's instants are not
modelled, log entry 54). The first failure is kept, and the next step comes up. -/
def State.proofCheck (s : State) (t : TileId) : State :=
  let tl := s.tile t
  let k := tl.door.proofPhase
  if !tl.door.proofRun || k == 0 || k == 5 || tl.field.force != k then s
  else
    let bad := (tl.usedAxes.find? fun a => !tl.proofAxisOk a k).map fun a => (a, proofStep k)
    (s.each tl.usedAxes fun s a => (s.releasePair t a).modMo t a fun m => { m with wire := if k == 1 then 2 else 0 }).modDoor t
      fun d => { d with proofPhase := k + 1, proofBad := d.proofBad.or bad }

/-- An up-frame that is missing or discarded is counted; from the fourth in a row a field-link fault stands (R17). -/
def Link.missedFrame (l : Link) (now : Nat) : Link :=
  { l with missed := l.missed + 1, faultAt := if l.missed + 1 ≥ 4 then some now else l.faultAt }

/-- An up-frame that arrives ends a field-link fault, which stood until now (R17, R195). -/
def Link.gotFrame (l : Link) (u : UpView) (now : Nat) : Link :=
  { l with up := u, missed := 0, faultAt := if l.missed ≥ 4 then some now else l.faultAt }

/-- FIELD_LINK_UP_FRAME (R16, R17). `obs` is what the field die measures for it. -/
def execFieldLinkUpFrame (t : TileId) (intact : Bool) (obs : UpObs) (s : State) : Host.Outcome State Fault Refusal :=
  onTile t s fun s =>
    if (s.tile t).die.inReset then s
    else if intact then
      ((s.modLink t fun l => l.gotFrame (s.upFrame t obs) s.now).upEffects t).proofCheck t
    else s.modLink t fun l => l.missedFrame s.now

/-- FIELD_LINK_FAULT (R17): four up-frames in a row missing or discarded are fault 0x01: every trip pair asserted, the
keep-alive stopped, FAULT_SAFE. -/
def execFieldLinkFault (t : TileId) (s : State) : Host.Outcome State Fault Refusal :=
  onTile t s fun s =>
    if (s.tile t).link.missed < 4 || !(s.tile t).triadRuns then s
    else
      let s1 := s.each AxisId.all fun s a => s.triadTrip t a srcTriad
      let s2 := s1.modLink t fun l => { l with keepAlive := false, faultAt := some s.now }
      (s2.latchFault t 0x01).evaluate t

/-! ### The service core (R27, R352) -/

/-- SVC_HEARTBEAT (R27). -/
def execSvcHeartbeat (t : TileId) (s : State) : Host.Outcome State Fault Refusal :=
  onTile t s fun s => s.modDie t fun d => { d with svcMissed := 0 }

/-- SVC_HEARTBEAT_MISSED (R27): the third in a row restarts SVC, or leaves it off after three restarts within 10 min. -/
def execSvcHeartbeatMissed (t : TileId) (now : Nat) (s : State) : Host.Outcome State Fault Refusal :=
  onTile t s fun s0 =>
    let s := s0.at now
    let d := (s.tile t).die
    if !(s.tile t).triadRuns || d.svcOff then s
    else if d.svcMissed + 1 < 3 then s.modDie t fun d => { d with svcMissed := d.svcMissed + 1 }
    else
      let recent := d.svcRestarts.filter fun i => decide (s.now < i + 600000000000)
      if recent.length ≥ 3 then
        ((s.loseCommands t).modDie t fun d =>
          { d with svc := false, svcMissed := 0, svcOff := true, svcRestarts := recent }).raise t 0x75 (leBytes 1 2)
      else
        ((s.loseCommands t).modDie t fun d =>
          { d with svc := false, svcMissed := 0, svcRestarts := recent ++ [s.now] }).raise t 0x75 (leBytes 1 1)

/-- A held record entry written by the service core (R348, R352); an EVENTS record carries the source of its last entry that has one. -/
def State.writeHeld (s : State) (t : TileId) (e : Nat × Source × List Byte) : State :=
  if e.1 = 3 then
    let s1 := s.modPeat t fun p =>
      { p with openEvents := p.openEvents ++ [e.2.2],
               openSource := if p.openEvents.isEmpty || e.2.1 != .tile then e.2.1 else p.openSource
               openTimer := if p.openEvents.isEmpty then .running 100 else p.openTimer }
    if (s1.tile t).peat.openEvents.length ≥ 16 then s1.closeEvents t else s1
  else (s.closeEvents t).peatPut t e.1 e.2.1 e.2.2

/-- The held entries written in order, with the GAP record of any lost ones after them (R352). -/
def State.writeAllHeld (s : State) (t : TileId) : State :=
  let p := (s.tile t).peat
  if p.lostCount.toList.sum = 0 then
    (s.modPeat t fun p => { p with held := [] }).each p.held fun s e => s.writeHeld t e
  else
    let s1 := s.modPeat t fun p => { p with held := [], lostCount := Vector.replicate 12 0 }
    let s2 := (s1.each p.held fun s e => s.writeHeld t e).closeEvents t
    let s3 := (s2.modPeat t fun q =>
      { q with lostCount := ⟨⟨(List.range 12).map fun i => q.lostCount.toList.getD i 0 + p.lostCount.toList.getD i 0⟩, by simp⟩,
               lostFirst := p.lostFirst, lostLast := max p.lostLast q.lostLast }).peatRoom t
    if (s3.tile t).peat.records.length ≥ peatCapacity then s3
    else (s3.peatStore t 0x0A .tile (s3.tile t).peat.gapBody 0).modPeat t fun q =>
      { q with lostCount := Vector.replicate 12 0, fullSeen := false }

/-- SVC_RETURN (R27, R352). -/
def execSvcReturn (t : TileId) (s : State) : Host.Outcome State Fault Refusal :=
  onTile t s fun s =>
    let d := (s.tile t).die
    if d.svc || d.svcOff || d.inReset then s
    else (s.modDie t fun d => { d with svc := true, svcMissed := 0 }).writeAllHeld t

end Sys2Proof.Machine
end

