-- ==== Sys2Proof/Machine/Triad.lean ====
section
/-!
DEFINITION. The control triad: masking a single fault, checkpoints, joining the spare, the loss and its restart, the duplex
limit, readmission and BIST, and the status block (R216 to R236, R342).
-/

namespace Sys2Proof.Machine

/-! ### The status block (R235) -/

/-- The code of a core's role (R216). -/
def CoreRole.code : CoreRole → Nat
  | .active => 0
  | .spare => 1
  | .excluded => 2

/-- The cores, in order. -/
def coreIds : List (Fin 4) := [0, 1, 2, 3]

/-- The core that is SPARE. -/
def Triad.spare (tr : Triad) : Option (Fin 4) := coreIds.find? fun c => tr.roles[c] == .spare

/-- The spare's state: COLD 0, BIST 1, JOINING 2, NONE 3. -/
def Triad.spareState (tr : Triad) : Nat :=
  if tr.bist.isSome then 1 else if tr.joining.isSome then 2 else if tr.spare.isSome then 0 else 3

/-- Losses within the last 24 h. -/
def State.losses24 (s : State) (t : TileId) : Nat :=
  ((s.tile t).triad.losses.filter fun i => decide (s.now < i + 86400000000000)).length

/-- The 64 bytes of the status block. -/
def State.triadBlock (s : State) (t : TileId) : List Byte :=
  let tr := (s.tile t).triad
  let duplex := match tr.duplexSince, tr.mode with
    | some i, .duplex => (s.now - i) / 1000000
    | _, _ => 0
  padTo 64 (leBytes 1 tr.mode.code ++
    leBytes 1 ((coreIds.map fun c => tr.roles[c].code * 4 ^ c.val).sum) ++
    leBytes 1 (tr.positions[0].val + 4 * tr.positions[1].val + 16 * tr.positions[2].val) ++
    leBytes 1 tr.spareState ++ leBytes 4 tr.cpSeq.toNat ++ leBytes 4 tr.masked.toNat ++
    leBytes 2 ((coreIds.map fun c => min 15 tr.excl[c] * 16 ^ c.val).sum) ++
    leBytes 1 (min 255 (s.losses24 t)) ++ [0] ++ leBytes 4 duplex ++ leBytes 4 tr.faultTs.toNat ++
    [tr.faultCore, tr.faultCause, 0, 0] ++ leBytes 4 tr.faultAddr.toNat ++
    (tr.faultData.toList.flatMap fun w => leBytes 4 w.toNat) ++ leBytes 4 tr.joinUs ++ leBytes 4 tr.bistTs.toNat ++
    leBytes 1 tr.bistResult.toNat)

/-- A TRIAD record with the block as it stands, and the command that caused it (R235, R345). -/
def State.triadRecord (s : State) (t : TileId) (h : Option HostCmd := none) : State :=
  s.peatEntry t 0x06 (if h.isSome then .host else .tile)
    (s.triadBlock t ++
     match h with
     | some c => leBytes 4 c.session.toNat ++ leBytes 1 c.queue.val ++ [0, 0, 0] ++ leBytes 4 c.tag.toNat
     | none => [])

/-- A core's role changed. -/
def Triad.setRole (tr : Triad) (c : Fin 4) (r : CoreRole) : Triad := { tr with roles := vset tr.roles c r }

/-- A core's exclusion count raised by one (R223, R233). -/
def Triad.countExcl (tr : Triad) (c : Fin 4) : Triad := { tr with excl := vset tr.excl c (min 15 (tr.excl[c] + 1)) }

/-! ### Readmission and BIST (R233, R234) -/

/-- The completion of a readmission (R342): core, BIST result, exclusion count, mode after the command. -/
def State.readmitDone (s : State) (t : TileId) (core : Fin 4) (pass : Bool) : State :=
  let tr := (s.tile t).triad
  match tr.readmit with
  | none => s
  | some h =>
    let s1 := (s.modTriad t fun tr => { tr with readmit := none }).triadRecord t (some h)
    s1.complete h 0x81 (if pass then 0 else 0x25) 0
      (leBytes 1 core.val ++ leBytes 1 (bit pass) ++ leBytes 1 tr.excl[core] ++ leBytes 1 tr.mode.code)

/-- A BIST under way is aborted by a core fault (R236): the self-test part is aborted, and a readmission is left without its BIST, to be reported
FAIL with the mode that follows (R342). -/
def State.bistAbort (s : State) (t : TileId) : State :=
  match (s.tile t).triad.bist with
  | none => s
  | some (core, kind) =>
    let s1 := s.modTriad t fun tr => { tr with bist := none, readmitCore := if kind = 2 then some core else none }
    if kind = 1 then (s1.modDoor t fun d => d.partResult 0 5 0).selftestFinish t
    else s1

/-- A readmission whose BIST was aborted completes with FAIL, in the mode that the triad has come to (R236, R342). -/
def State.readmitAborted (s : State) (t : TileId) : State :=
  match (s.tile t).triad.readmitCore with
  | none => s
  | some c => (s.modTriad t fun tr => { tr with readmitCore := none }).readmitDone t c false

/-! ### The loss of the triad (R226, R230) -/

/-- The triad is lost: the voter opens SRA, leaves the trip pairs undriven and stops the keep-alive, with a word that waited for its frame; a
proof test ends; the doorway is in
FAULT_SAFE with fault 0x0C pending. The third loss within 24 h has no further restart (R231). -/
def State.triadLose (s : State) (t : TileId) (cause : Nat) : State :=
  let s0 := s.bistAbort t
  let recent := ((s0.tile t).triad.losses.filter fun i => decide (s0.now < i + 86400000000000)) ++ [s0.now]
  let stop := decide (recent.length ≥ 3)
  let s1 := ((s0.modTriad t fun tr =>
    { tr with mode := .lost, fenced := none, held := [], joining := none, joinedAt := none, losses := recent, noRestart := stop,
              duplexSince := none }).readmitAborted t).proofStop t
  let s2 := s1.each AxisId.all fun s a => (s.endPass t a false).triadTrip t a srcTriad
  let s3 := s2.modLink t fun l => { l with keepAlive := false, release := false, kaWord := none }
  let s4 := s3.modDoor t fun d =>
    { d with st := .faultSafe, sraCmd := false, egress := false, homing := none, cal := .idle,
             latched := if d.latched.contains 0x0C then d.latched else d.latched ++ [0x0C] }
  (s4.raise t 0x73 (leBytes 1 cause ++ leBytes 1 (bit stop))).triadRecord t

/-- The disagreement captured for the status block (R223, R235). -/
def Triad.capture (tr : Triad) (d : Disagreement) (ts : Word) (core cause : Nat) : Triad :=
  { tr with faultTs := ts, faultCore := BitVec.ofNat 8 core, faultCause := BitVec.ofNat 8 cause, faultAddr := d.addr,
            faultData := #v[d.data0, d.data1, d.data2] }

/-- A single core is named and fenced, and the signatures of the other two are compared (R223). A spare that disagrees within
1 ms of its join fails the join (R228); a BIST under way is aborted (R236). -/
def State.fence (s : State) (t : TileId) (d : Disagreement) (cause : Nat) : State :=
  let tr := (s.tile t).triad
  let core := tr.positions[d.position]
  let failed := match tr.joinedAt with
    | some (c, i) => c == core && decide (s.now ≤ i + 1000000)
    | none => false
  let s1 := s.modTriad t fun tr =>
    { tr.capture d s.ts core.val cause with
      mode := .confirm, fenced := some core, joinStart := s.now, joinedAt := none, masked := tr.masked + 1 }
  let s2 := (s1.bistAbort t).raise t 0x70 (leBytes 1 core.val ++ leBytes 1 cause ++ [0, 0] ++ leBytes 4 d.addr.toNat)
  let s3 := if failed then s2.raise t 0x72 (leBytes 1 core.val ++ leBytes 1 3) else s2
  s3.triadRecord t

/-- A disagreement judged by the mode of the triad (R222, R226, R229). -/
def State.disagree (s : State) (t : TileId) (d : Disagreement) (cause : Nat) : State :=
  let tl := s.tile t
  let lose := fun (c : Nat) => (s.modTriad t fun tr => tr.capture d s.ts 0xFF (0x80 + c)).triadLose t c
  if !tl.triadRuns then s
  else if d.halvesDiffer then lose 4
  else
    match tl.triad.mode with
    | .triplex => if d.noTwoAgree then lose 2 else s.fence t d cause
    | .confirm => lose 1
    | .joining => lose 3
    | .duplex => lose 3
    | .lost => s

/-- VOTER_DISAGREEMENT (R223). -/
def execVoterDisagreement (t : TileId) (d : Disagreement) (now : Nat) (s : State) : Host.Outcome State Fault Refusal :=
  onTile t s fun s => (s.at now).disagree t d d.cause.val

/-- WRITE_COPY_TIMEOUT (R219): the core whose copy is missing disagrees, cause 4. -/
def execWriteCopyTimeout (t : TileId) (d : Disagreement) (now : Nat) (s : State) : Host.Outcome State Fault Refusal :=
  onTile t s fun s => (s.at now).disagree t d 4

/-! ### Confirmation and join (R223, R225, R227, R228) -/

/-- The mode after the loss of one core: JOINING when a spare is there, else DUPLEX under its limit (R229). -/
def Triad.afterMask (tr : Triad) (now : Nat) : Triad :=
  match tr.spare with
  | some c => { tr with mode := .joining, joining := some (c, 1) }
  | none => { tr with mode := .duplex, joining := none, duplexSince := some now }

/-- The signatures of the two remaining cores differ: the triad is lost (R223, R226). -/
def State.signaturesDiffer (s : State) (t : TileId) : State :=
  (s.modTriad t fun tr => { tr with faultCause := 0x81, faultCore := 0xFF }).triadLose t 1

/-- The signatures agree: the pair runs on, and the fenced core is EXCLUDED (R223 step 4, R229). -/
def State.maskCore (s : State) (t : TileId) (core : Fin 4) : State :=
  (s.modTriad t fun tr =>
    let pair := tr.positions.toList.filter (· != core)
    (({ tr with fenced := none, positions := #v[pair.getD 0 0, pair.getD 1 1, core] }.setRole core .excluded).countExcl
      core).afterMask s.now).triadRecord t

/-- The private state of a core. -/
def Triad.core (tr : Triad) (c : Fin 4) : CoreImage := tr.cores[c]

/-- The active cores hold the same private state (R218, R221). -/
def Triad.setActive (tr : Triad) (v : CoreImage) : Triad :=
  { tr with cores := ⟨⟨coreIds.map fun c => if tr.roles[c] == .active then v else tr.cores[c]⟩, rfl⟩ }

/-- A checkpoint (R225): the firmware has changed the private state of the active cores since the last one, by free values, and each of them has marked
the lines that it wrote; the older of the two buffers takes the image with its CRC-32, a free value too, for the spec gives the buffer
no layout. While a spare joins, from its store mirroring on at step 2, the stores of the pair reach its scratchpad too (R227). -/
def State.checkpoint (s : State) (t : TileId) : State :=
  let (r, s1) := s.draw
  let (k, s2) := s1.draw
  let (m, s3) := s2.draw
  let (d, s4) := s3.draw
  let (x, s5) := s4.draw
  s5.modTriad t fun tr =>
    let seq := tr.cpSeq + 1
    let img : CoreImage := { regFile := r, control := k, scratch := BitVec.ofInt 1048576 m }
    let lines := BitVec.ofInt 512 d
    let tr1 := tr.setActive img
    let cores := match tr.joining with
      | some (c, step) => if step ≥ 2 then vset tr1.cores c { tr1.core c with scratch := img.scratch } else tr1.cores
      | none => tr1.cores
    { tr1 with cores := cores, cpSeq := seq, cpTs := s.ts
               dirty := ⟨⟨coreIds.map fun c => if tr.roles[c] == .active then lines else tr.dirty[c]⟩, rfl⟩
               cpBufs := vset tr.cpBufs (Fin.ofNat 2 seq.toNat) { seq := seq, ts := s.ts, image := img, crc := BitVec.ofInt 32 x } }

/-- CHECKPOINT_WRITE (R225); in the hold of R223 it is completed in the pair (R236). -/
def execCheckpointWrite (t : TileId) (s : State) : Host.Outcome State Fault Refusal :=
  onTile t s fun s => if (s.tile t).triadActs then s.checkpoint t else s.holdBack t (.checkpointWrite t)

/-- The join has failed (R228): the spare is EXCLUDED and the triad stays in DUPLEX under its limit. -/
def State.joinFail (s : State) (t : TileId) (core : Fin 4) (cause : Nat) : State :=
  ((s.modTriad t fun tr =>
      { tr.setRole core .excluded with mode := .duplex, joining := none, duplexSince := some s.now }).raise t 0x72
    (leBytes 1 core.val ++ leBytes 1 cause)).triadRecord t

/-- SPARE_OUT_OF_RESET (R227 step 2). -/
def execSpareOutOfReset (t : TileId) (s : State) : Host.Outcome State Fault Refusal :=
  onTile t s fun s =>
    match (s.tile t).triad.joining with
    | some (c, 1) => s.modTriad t fun tr => { tr with joining := some (c, 2) }
    | _ => s

/-- SPARE_RESET_TIMEOUT (R228). -/
def execSpareResetTimeout (t : TileId) (s : State) : Host.Outcome State Fault Refusal :=
  onTile t s fun s =>
    match (s.tile t).triad.joining with
    | some (c, 1) => s.joinFail t c 1
    | _ => s

/-- The newer checkpoint buffer whose CRC agrees (R227). -/
def Triad.goodBuffer (tr : Triad) (crc0 crc1 : Bool) : Option CpBuffer :=
  let newer : Fin 2 := Fin.ofNat 2 tr.cpSeq.toNat
  let ok := fun (i : Fin 2) => if i = 0 then crc0 else crc1
  if ok newer then some tr.cpBufs[newer] else if ok (newer + 1) then some tr.cpBufs[newer + 1] else none

/-- SPARE_CHECKPOINT_LOADED (R227 step 3, R228): the spare loads the newer buffer whose CRC agrees, and takes from the pair every line
that the dirty-line map marks, so that its scratchpad is that of the pair; with neither buffer the join fails. -/
def execSpareCheckpointLoaded (t : TileId) (crcs : Bool × Bool) (s : State) : Host.Outcome State Fault Refusal :=
  onTile t s fun s =>
    let tr := (s.tile t).triad
    match tr.joining, tr.goodBuffer crcs.1 crcs.2 with
    | some (c, 2), some b => s.modTriad t fun tr =>
        { tr with joining := some (c, 3)
                  cores := vset tr.cores c { b.image with scratch := (tr.core tr.positions[0]).scratch } }
    | some (c, 2), none => s.joinFail t c 2
    | _, _ => s

/-- SPARE_JOIN_PAUSE (R227 steps 4 and 5): the registers of the pair are copied to the spare, it takes the third position, and the triad
is in TRIPLEX. -/
def execSpareJoinPause (t : TileId) (now : Nat) (s : State) : Host.Outcome State Fault Refusal :=
  onTile t s fun s0 =>
    let s := s0.at now
    match (s.tile t).triad.joining with
    | some (c, 3) =>
      let us := (s.now - (s.tile t).triad.joinStart + 999) / 1000
      ((s.modTriad t fun tr =>
          { tr.setRole c .active with mode := .triplex, joining := none, joinedAt := some (c, s.now), joinUs := us,
                                      duplexSince := none, positions := vset tr.positions 2 c
                                      cores := vset tr.cores c (tr.core tr.positions[0]) }).raise t 0x71
        (leBytes 1 c.val ++ [0, 0, 0] ++ leBytes 4 us)).triadRecord t
    | _ => s

/-! ### Forming the triad (R217, R231) -/

/-- What a shadow collection leaves of itself when its triad starts anew: a ready set stands in MRAM (R133, R144), what was still being
collected is lost with the SRAM (R381). -/
def ShadowState.kept : ShadowState → ShadowState
  | .ready m => .ready m
  | _ => .none

/-- The cores after their BISTs: one that fails is EXCLUDED; with fewer than three ACTIVE the SPARE is promoted; the mode
follows from the number of cores not EXCLUDED. Where fewer than two are left, a power-on reset runs the BIST of every core, and two
that pass form a triad again (DEDUCED from the last row of R217; log entry 55). -/
def Triad.form (tr : Triad) (bist : BitVec 4) (ts : Word) (now : Nat) (powerOn : Bool := false) : Triad :=
  let all := powerOn && decide ((coreIds.filter fun c => tr.roles[c] != .excluded && bist.getLsbD c.val).length < 2) &&
    decide ((coreIds.filter fun c => bist.getLsbD c.val).length ≥ 2)
  let ran := fun (c : Fin 4) => all || tr.roles[c] != .excluded
  let role := fun (c : Fin 4) => if all && tr.roles[c] == .excluded then CoreRole.active else tr.roles[c]
  let r1 : Vector CoreRole 4 := ⟨⟨coreIds.map fun c => if ran c && bist.getLsbD c.val then role c else .excluded⟩, rfl⟩
  let act := (coreIds.filter fun c => r1[c] == .active).length
  let r2 := vmap (fun r => if act < 3 && r == .spare then .active else r) r1
  let on := coreIds.filter fun c => r2[c] == .active
  let res := BitVec.ofNat 4 (maskOf (coreIds.map fun c => if ran c then bist.getLsbD c.val else tr.bistResult.getLsbD c.val))
  let mode : TriadMode := if on.length ≥ 3 then .triplex else if on.length = 2 then .duplex else .lost
  { tr with
    roles := r2, mode := mode, formed := decide (on.length ≥ 2), fenced := none, held := []
    cores := Vector.replicate 4 ⟨0, 0, 0⟩, joining := none, joinedAt := none, bist := none
    positions := #v[on.getD 0 0, on.getD 1 1, on.getD 2 ((coreIds.find? fun c => !on.contains c).getD 3)]
    duplexSince := if mode == .duplex then some now else none, bistTs := ts, bistResult := res }

/-- A BOOT record (R345): cause, boot count, digests of firmware and policy, what was verified, the security counter. -/
def State.bootRecord (s : State) (t : TileId) (cause : Nat) (copied : Bool) : State :=
  let s1 := s.modDie t fun d => { d with bootCount := (d.bootCount + 1) % 2 ^ 32 }
  let d := (s1.tile t).die
  let pol := match d.bundle with
    | some b => digest b
    | none => List.replicate 32 0
  s1.peatEntry t 0x07 .boot
    (leBytes 1 cause ++ [0, 0, 0] ++ leBytes 4 d.bootCount ++ digest d.slotA ++ pol ++
     leBytes 1 (ofBits [d.fwVerified, copied, d.policyOk]) ++ [0, 0, 0] ++ leBytes 4 d.secCounter)

/-- A self-test under way is aborted with its parts (R336). -/
def State.selftestAbort (s : State) (t : TileId) : State :=
  ((s.modLink t fun l => { l with onTest := 0, gateTest := false, lsCheck := 0 }).modDoor t fun d =>
    { d with stDwellMax := .idle,
             parts := vmap (fun p => if p.requested && p.result.isNone then { p with running := false, result := some 5 } else p)
               d.parts }).selftestFinish t

/-- Boot ROM's steps 1, 2 and 4 (R358, R359, R363): the die after them, and whether slot B was copied. Slot B and the bundle verify when
their contents do and boot ROM reads them so; the factory's image in slot A is not held, and boot ROM's finding stands for it. The
security counter has 64 steps. -/
def Die.boot (d : Die) (r : BootReport) : Die × Bool :=
  let pol := r.bundleOk && d.bundle.any d.bundleSigned
  let bOk := r.slotBOk && d.imageOk d.slotB
  let d1 := { d with policyOk := pol, policyStart := pol }
  if d1.fwPending && bOk then
    ({ d1 with slotA := d1.slotB, fwPending := false, fwVerified := true
               secCounter := max d1.secCounter (min 64 (fieldLe d1.slotB 8 4)) }, true)
  else if !r.slotAOk && bOk then ({ d1 with slotA := d1.slotB, fwVerified := true }, true)
  else ({ d1 with fwVerified := r.slotAOk }, false)

/-- TRIAD_RESTART (R231): the cores not EXCLUDED run their BIST, and one that fails is EXCLUDED; boot ROM verifies firmware and policy, and the
triad forms under R217, unless no firmware verifies (R359). The doorway starts in FAULT_SAFE, for 0x0C is pending. -/
def execTriadRestart (t : TileId) (r : BootReport) (s : State) : Host.Outcome State Fault Refusal :=
  onTile t s fun s =>
    let tl := s.tile t
    if tl.triad.mode != .lost || !tl.triad.formed || tl.triad.noRestart || tl.die.inReset then s
    else
      let (d1, copied) := tl.die.boot r
      let s0 := (s.modDie t fun _ => d1).selftestAbort t
      let s1 := s0.modTriad t fun tr => tr.form r.bist s.ts s.now
      if !d1.fwVerified then
        (s1.modTriad t fun tr => { tr with formed := false, mode := .lost, duplexSince := none }).triadRecord t
      else
        let s2 := s1.modDoor t fun d =>
          { Doorway.reset with latched := d.latched, pendingSeen := d.pendingSeen, mailbox := d.mailbox, eccBad := d.eccBad,
                               activating := d.activating, proofOld := d.proofOld, lockSeen := false, shadow := d.shadow.kept }
        if (s2.tile t).triad.formed then (s2.bootRecord t 6 copied).triadRecord t else s2.triadRecord t

/-! ### The duplex limit, BIST and readmission (R232 to R234, R342) -/

/-- DUPLEX_LIMIT_EXPIRY (R232): fault 0x0C waits for the first evaluation in which no axis moves. -/
def execDuplexLimitExpiry (t : TileId) (s : State) : Host.Outcome State Fault Refusal :=
  onTile t s fun s =>
    if (s.tile t).triadRuns && (s.tile t).triad.duplexSince.isSome then
      (s.modDoor t fun d => { d with duplexDue := true }).evaluate t
    else s

/-- A BIST of the SPARE core starts, unless one runs or the spare joins (R234). -/
def State.spareBist (s : State) (t : TileId) (kind : Fin 3) : State :=
  let tr := (s.tile t).triad
  match tr.spare with
  | some c => if tr.bist.isNone && tr.joining.isNone then s.modTriad t fun tr => { tr with bist := some (c, kind) } else s
  | none => s

/-- SPARE_BIST_PERIOD (R234): a period of 0 disables it. -/
def execSpareBistPeriod (t : TileId) (s : State) : Host.Outcome State Fault Refusal :=
  onTile t s fun s => if (s.tile t).triadRuns && (s.tile t).par 0x88 2 != 0 then s.spareBist t 0 else s

/-- BIST_COMPLETE (R233, R234). -/
def execBistComplete (t : TileId) (core : Fin 4) (pass : Bool) (s : State) : Host.Outcome State Fault Refusal :=
  onTile t s fun s =>
    let tr := (s.tile t).triad
    match tr.bist with
    | none => s
    | some (c, kind) =>
      if c != core || !(s.tile t).triadRuns then s
      else
        let m := BitVec.ofNat 4 (2 ^ core.val)
        let s1 := s.modTriad t fun tr =>
          { tr with bist := none, bistTs := s.ts,
                    bistResult := if pass then tr.bistResult ||| m else tr.bistResult &&& ~~~m }
        if kind = 2 then
          let s2 := s1.modTriad t fun tr =>
            if pass then
              let tr1 := tr.setRole core .spare
              if tr.mode == .duplex then { tr1 with mode := .joining, joining := some (core, 1) } else tr1
            else tr.countExcl core
          s2.readmitDone t core pass
        else
          let s2 := if pass then s1 else
            (s1.modTriad t fun tr => tr.setRole core .excluded).raise t 0x74 (leBytes 1 core.val)
          let s3 := s2.triadRecord t
          if kind = 1 then (s3.modDoor t fun d => d.partResult 0 (if pass then 0 else 1) 0).selftestFinish t else s3

/-- TRIAD_STATUS (R235, R342). -/
def execTriadStatus (h : HostCmd) (addr : BitVec 64) (s : State) : Host.Outcome State Fault Refusal :=
  onCmd h 0x80 s fun s =>
    if h.dmaFault then s.complete h 0x80 0x09 0
    else (s.dma addr.toNat (s.triadBlock h.tile)).complete h 0x80 0 0

/-- TRIAD_READMIT (R233, R342); during a join it is BUSY (R343), and in the hold of R223 it waits for the commit. -/
def execTriadReadmit (h : HostCmd) (core : Nat) (s : State) : Host.Outcome State Fault Refusal :=
  onCmd h 0x81 s fun s =>
    let tr := (s.tile h.tile).triad
    if tr.readmit == some h then s
    else if tr.mode == .confirm && tr.formed then s.holdBack h.tile (.triadReadmit h core)
    else if tr.joining.isSome then s.complete h 0x81 0x17 0
    else if tr.mode != .triplex && tr.mode != .duplex then s.complete h 0x81 0x10 233
    else if hc : core < 4 then
      let c : Fin 4 := ⟨core, hc⟩
      if tr.roles[c] != .excluded then s.complete h 0x81 0x14 233 [0xFF]
      else if tr.bist.isSome || tr.readmit.isSome then s.complete h 0x81 0x17 0
      else if tr.excl[c] ≥ 4 then s.complete h 0x81 0x21 233
      else (s.markAccepted h 0x81).modTriad h.tile fun tr => { tr with bist := some (c, 2), readmit := some h }
    else s.complete h 0x81 0x14 233 [0xFF]

end Sys2Proof.Machine
end

