-- ==== Sys2Proof/Machine/CalTest.lean ====
section
/-!
DEFINITION. The host commands of calibration, self-tests and soundings, and the steps that carry them out (R139 to R148,
R335, R336).
-/

namespace Sys2Proof.Machine

/-! ### CAL_REQUEST (R139, R142, R143, R335) -/

/-- A calibration request that has not started is there to be replaced (R139). -/
def Doorway.calUnstarted (d : Doorway) : Bool :=
  (match d.cal with
    | .queued => true
    | .ready 0 => true
    | _ => false) ||
  (match d.shadow with
    | .requested _ => true
    | _ => false)

/-- A calibration run has started: a cycle has been permitted and the run has not ended. -/
def Doorway.calStarted (d : Doorway) : Bool :=
  match d.cal with
  | .idle => false
  | .queued => false
  | .ready n => n != 0
  | _ => true

/-- What a new request leaves of earlier ones: a request that has not started, and a ready shadow set that no one confirmed,
are replaced (R139, R144). -/
def Doorway.calReplace (d : Doorway) : Doorway :=
  { d with
    cal := if d.calStarted then d.cal else .idle
    calPermitMax := if d.calStarted then d.calPermitMax else .idle
    shadow := match d.shadow with
      | .collecting m => .collecting m
      | _ => .none }

/-- cal_allow is 0 (R135). -/
def Tile.calForbidden (tl : Tile) : Bool := tl.par 0x09 7 == 0

/-- CAL_REQUEST with action REQUEST and mode FULL (R139). -/
def execCalRequestFull (h : HostCmd) (s : State) : Host.Outcome State Fault Refusal :=
  onCmd h 0x40 s fun s =>
    let tl := s.tile h.tile
    if !tl.triadActs then s.holdBack h.tile (.calRequestFull h)
    else if tl.door.calStarted || tl.door.shadowAccept.isSome then s.complete h 0x40 0x17 0
    else if tl.calForbidden then s.complete h 0x40 0x27 135
    else (s.modDoor h.tile fun d => { d.calReplace with cal := .queued }).complete h 0x40 0 0
      (leBytes 1 (bit tl.door.calUnstarted))

/-- CAL_REQUEST with action REQUEST and mode SHADOW (R143): M is 4 to 64, and 0 means 16. -/
def execCalRequestShadow (h : HostCmd) (m : Nat) (s : State) : Host.Outcome State Fault Refusal :=
  onCmd h 0x40 s fun s =>
    let tl := s.tile h.tile
    let n := if m = 0 then 16 else m
    let collecting := match tl.door.shadow with
      | .collecting _ => true
      | _ => false
    if !tl.triadActs then s.holdBack h.tile (.calRequestShadow h m)
    else if n < 4 ∨ n > 64 then s.complete h 0x40 0x14 143 [0xFF]
    else if tl.door.calStarted || collecting || tl.door.shadowAccept.isSome then s.complete h 0x40 0x17 0
    else if tl.calForbidden then s.complete h 0x40 0x27 135
    else (s.modDoor h.tile fun d => { d.calReplace with shadow := .requested n }).complete h 0x40 0 0
      (leBytes 1 (bit tl.door.calUnstarted))

/-- A calibration cycle starts (R140 step 1): SRA open, LS0 energised, t_unlock; the sums of a run begin with its first
cycle. -/
def State.calCycleStart (s : State) (t : TileId) (n : Nat) : State :=
  let tl := s.tile t
  let s1 := if n = 0 then s.each AxisId.all fun s a => s.modAxis t a fun x => { x with calSums := [] } else s
  (s1.setLock t true).modDoor t fun d =>
    { d with cal := .cycle n 1 false, calPermitMax := .idle, sraCmd := false, tUnlock := .running (tl.parN 0x02 0) }

/-- CAL_REQUEST with action PERMIT (R139, R140). -/
def execCalPermit (h : HostCmd) (s : State) : Host.Outcome State Fault Refusal :=
  onCmd h 0x40 s fun s =>
    let tl := s.tile h.tile
    if !tl.triadActs then s.holdBack h.tile (.calPermit h)
    else
      match tl.door.cal with
      | .ready n =>
        if !tl.calCanRun then s.complete h 0x40 0x10 139
        else if tl.calForbidden then s.complete h 0x40 0x27 135
        else (s.complete h 0x40 0 0 [0]).calCycleStart h.tile n
      | _ => s.complete h 0x40 0x18 0

/-- CAL_REQUEST with action CANCEL (R139): a queued or ready run ends at once, a running cycle ends the run when it has closed
and locked the doorway. -/
def execCalCancel (h : HostCmd) (s : State) : Host.Outcome State Fault Refusal :=
  onCmd h 0x40 s fun s =>
    let tl := s.tile h.tile
    let stop := fun (s : State) =>
      ((s.modDoor h.tile fun d => { d with cal := .idle, calPermitMax := .idle }).raise h.tile 0x2F (leBytes 1 8))
    if !tl.triadActs then s.holdBack h.tile (.calCancel h)
    else
      match tl.door.cal with
      | .queued => stop (s.complete h 0x40 0 0 [0])
      | .ready _ => stop (s.complete h 0x40 0 0 [0])
      | .cycle n k _ => (s.modDoor h.tile fun d => { d with cal := .cycle n k true }).complete h 0x40 0 0 [0]
      | _ => s.complete h 0x40 0x18 0

/-- CAL_REQUEST with action RECOVER (R142): the axes of an aborted run close as in steps 5 to 8 under NUDGE. -/
def execCalRecover (h : HostCmd) (s : State) : Host.Outcome State Fault Refusal :=
  onCmd h 0x40 s fun s =>
    let tl := s.tile h.tile
    if !tl.triadActs then s.holdBack h.tile (.calRecover h)
    else
      match tl.door.cal with
      | .aborted false _ =>
        ((((s.setLock h.tile false).setBuzzer h.tile true).modDoor h.tile fun d =>
          { d with cal := .aborted true 5, tWarn := .running (tl.parN 0x02 2) }).complete h 0x40 0 0 [0])
      | _ => s.complete h 0x40 0x18 0

/-! ### Self-tests (R145, R146, R335, R336) -/

/-- A self-test part starts. -/
def State.partStart (s : State) (t : TileId) (i : Fin 8) : State :=
  s.modDoor t fun d => { d with parts := vmod d.parts i fun p => { p with running := true, ts := s.ts } }

/-- The channels that a load-switch part skips, kept with the part until it ends. -/
def State.partMask (s : State) (t : TileId) (i : Fin 8) (m : BitVec 10) : State :=
  s.modDoor t fun d => { d with parts := vmod d.parts i fun p => { p with detail := m.setWidth 16 } }

/-- What a part does as it starts: the BIST of the spare, the off-state checks, the proof test, the off channels
switched on by the next down-frames, the lock energised, the half-bridges pulsed. A BIST of the spare that runs already serves the
part. A channel with ol_mode OFF is skipped by the off-state check (R158). -/
def State.partBegin (s : State) (t : TileId) (i : Fin 8) : State :=
  let tl := s.tile t
  let s1 := s.partStart t i
  match i with
  | 0 =>
    if tl.triad.spare.isNone then s1.modDoor t fun d => d.partResult 0 2 0
    else
      match tl.triad.bist with
      | some (c, 0) => s1.modTriad t fun tr => { tr with bist := some (c, 1) }
      | _ => s1.spareBist t 1
  | 2 =>
    let skip := lsMask fun ch => tl.field.ls[ch].isOn || tl.olMode ch == 0
    (s1.modLink t fun l => { l with lsCheck := l.lsCheck ||| ~~~skip }).partMask t 2 skip
  | 4 =>
    let skip := lsMask fun ch => ch != 0 && tl.field.ls[ch].isOn
    (s1.modLink t fun l => { l with onTest := ~~~(skip ||| 1) }).partMask t 4 skip
  | 6 => s1.modLink t fun l => { l with gateTest := true }
  | 3 => (s1.proofStart t).modDoor t fun d => { d with proofSelf := true }
  | 5 => s1.setLock t true
  | _ => s1

/-- SELFTEST_REQUEST (R145): IMMEDIATE parts start, DWELL parts wait, ISOLATED parts run in ISOLATED alone. -/
def execSelftestRequest (h : HostCmd) (mask : BitVec 16) (addr : BitVec 64) (s : State) :
    Host.Outcome State Fault Refusal :=
  onCmd h 0x41 s fun s =>
    let tl := s.tile h.tile
    if mask >>> 8 != 0 then s.complete h 0x41 0x06 0
    else if !tl.triadActs then s.holdBack h.tile (.selftestRequest h mask addr)
    else
      match tl.door.selftest with
      | some (h', _, _) => if h' == h then s else s.complete h 0x41 0x17 0
      | none =>
        let asked := fun (i : Fin 8) => mask.getLsbD i.val
        let dwell := asked 3 || asked 4
        let s1 := (s.markAccepted h 0x41).modDoor h.tile fun d =>
          { d with selftest := some (h, addr, mask)
                   parts := ⟨⟨([0, 1, 2, 3, 4, 5, 6, 7] : List (Fin 8)).map fun i =>
                     { PartState.reset with requested := asked i }⟩, rfl⟩
                   stDwellMax := if dwell then .running (1000 * tl.parN 0x11 8) else .idle }
        let now := ([0, 1, 2] : List (Fin 8)).filter asked
        let iso := ([5, 6, 7] : List (Fin 8)).filter asked
        let s2 := s1.each now fun s i => s.partBegin h.tile i
        let s3 := s2.each iso fun s i =>
          if tl.door.st == .isolated then s.partBegin h.tile i else s.modDoor h.tile fun d => d.partResult i 4 0
        s3.selftestFinish h.tile

/-- A DWELL part waits for its start. -/
def Doorway.dwellWaits (d : Doorway) (i : Fin 8) : Bool :=
  d.parts[i].requested && d.parts[i].result.isNone && !d.parts[i].running

/-- SELFTEST_DWELL_PART_START (R145): one DWELL part at a time, in bit order. A proof test of the triad's own (R182, R201) is no DWELL part and
holds up FABRIC_PROOF alone, which would be the same test (DEDUCED, log entry 54). -/
def execSelftestDwellPartStart (t : TileId) (s : State) : Host.Outcome State Fault Refusal :=
  onTile t s fun s =>
    let tl := s.tile t
    let d := tl.door
    if tl.triadRuns && !tl.triadActs then s.holdBack t (.selftestDwellPartStart t)
    else if !tl.triadActs || d.selftest.isNone || d.st != .locked || tl.releaseValid || d.calHolds ||
      d.parts[(3 : Fin 8)].running || d.parts[(4 : Fin 8)].running || (d.dwellWaits 3 && d.proofRun) then s
    else
      let s1 := if d.dwellWaits 3 then s.partBegin t 3 else if d.dwellWaits 4 then s.partBegin t 4 else s
      let d1 := (s1.tile t).door
      if d1.dwellWaits 3 || d1.dwellWaits 4 then s1 else s1.modDoor t fun d => { d with stDwellMax := .idle }

/-- The code of a part's result (R336). -/
def partCode : PartResult → Fin 6
  | .pass => 0
  | .fail => 1
  | .skipped => 2

/-- The channels in which the last up-frame shows that a load-switch part found a fault (R16): OPEN or SHORT_VBAT in the off-state check,
a latch or a shutdown in the on check (R160). -/
def Tile.partFailed (tl : Tile) (part : Fin 8) (skip : BitVec 16) : BitVec 10 :=
  lsMask fun ch =>
    let w := tl.link.up.lsFlags[ch]
    !skip.getLsbD ch.val &&
      (if part = 2 then w.getLsbD 3 || w.getLsbD 4 else ch != 0 && (w.getLsbD 0 || w.getLsbD 1 || w.getLsbD 2))

/-- The result of a part and its detail: that of the load-switch parts follows from what the field die found, with the mask of the
channels skipped or failed (R158, R336); that of the others is what the part measured. -/
def Tile.partOutcome (tl : Tile) (part : Fin 8) (r : PartResult) (detail : BitVec 16) : PartResult × BitVec 16 :=
  if part = 2 ∨ part = 4 then
    let skip := tl.door.parts[part].detail
    let bad := tl.partFailed part skip
    (if bad ≠ 0 then .fail else if skip.truncate 10 ||| (if part = 4 then 1 else 0) = (0x3FF : BitVec 10) then .skipped else .pass,
      skip ||| bad.setWidth 16)
  else (r, detail)

/-- A part cannot end yet: TRIAD_BIST ends with its BIST, FABRIC_PROOF with its proof test, the off-state check once an
up-frame has carried the result of its last channel (R16). -/
def Tile.partBusy (tl : Tile) (part : Fin 8) : Bool :=
  (part == 0 && (match tl.triad.bist with
    | some (_, 1) => true
    | _ => false)) ||
  (part == 3 && tl.door.proofRun) ||
  (part == 2 && (tl.link.lsCheck != 0 || tl.link.lsAwait != 0))

/-- What a part set while it ran is undone as it ends (R102, R145): the lock, the channels, the half-bridges. A word that MEM_SCRUB
cannot correct is fault 0x0D, whose cause is gone once a later scrub has corrected and read every word (R195). -/
def State.partUndo (s : State) (t : TileId) (part : Fin 8) (r : PartResult) : State :=
  match part with
  | 1 =>
    let s1 := s.modDoor t fun d => { d with eccBad := r == .fail }
    if r == .fail then s1.latchFault t 0x0D else s1
  | 4 => s.modLink t fun l => { l with onTest := 0 }
  | 5 => s.setLock t false
  | 6 => s.modLink t fun l => { l with gateTest := false }
  | _ => s

/-- The sounding bins in which the scrub of MEM_SCRUB found an uncorrectable ECC error lose their learned marks (R132). -/
def State.binsLost (s : State) (t : TileId) (part : Fin 8) (bins : List (AxisId × Dir × Fin 512)) : State :=
  if part = 1 then s.each bins fun s x => s.binClear t x.1 x.2.1 x.2.2.val else s

/-- SELFTEST_PART_COMPLETE (R146). -/
def execSelftestPartComplete (t : TileId) (part : Fin 8) (r : PartResult) (detail : PartFinding) (s : State) :
    Host.Outcome State Fault Refusal :=
  onTile t s fun s =>
    let tl := s.tile t
    if !tl.door.parts[part].running || tl.partBusy part then s
    else
      let (res, det) := tl.partOutcome part r detail.mask
      (((s.modDoor t fun d => d.partResult part (partCode res) det).partUndo t part res).binsLost t part detail.bins).selftestFinish t

/-- ST_DWELL_MAX_EXPIRY (R146). -/
def execStDwellMaxExpiry (t : TileId) (s : State) : Host.Outcome State Fault Refusal :=
  onTile t s fun s =>
    if !(s.tile t).door.stDwellMax.isRunning then s
    else
      (s.modDoor t fun d =>
        { ([3, 4] : List (Fin 8)).foldl (fun d i => if d.dwellWaits i then d.partResult i 3 0 else d) d with
          stDwellMax := .idle }).selftestFinish t

/-! ### Soundings (R144, R147, R148) -/

/-- SOUNDING_READ (R147). -/
def execSoundingRead (h : HostCmd) (shadow : Bool) (d : Dir) (first count : Nat) (addr : BitVec 64) (s : State) :
    Host.Outcome State Fault Refusal :=
  onCmd h 0x42 s fun s =>
    let a := h.axis.getD .A
    let x := s.axis h.tile a
    if count = 0 ∨ first + count > 512 then s.complete h 0x42 0x14 335 [0xFF]
    else if !(s.tile h.tile).used a then s.complete h 0x42 0x29 29
    else if h.dmaFault then s.complete h 0x42 0x09 0
    else (s.dma addr.toNat (setBytes (if shadow then x.shadow else x.soundings) d first count)).complete h 0x42 0 0

/-- A written bin record as its bytes give it (R133). -/
def binOfBytes (bs : List Byte) : Bin :=
  { mean := signed 16 (fieldLe bs 0 2), spread := fieldLe bs 2 2, baseMean := signed 16 (fieldLe bs 4 2),
    baseSpread := fieldLe bs 6 2, envAudit := signed 16 (fieldLe bs 8 2), flags := fieldLe bs 10 1,
    zoneLast := fieldLe bs 11 1, updates := fieldLe bs 12 4 }

/-- A written bin keeps R148: its spread is at least spread_min, and its reserved flags are 0. -/
def Tile.binOk (tl : Tile) (b : Bin) : Bool :=
  decide (b.spread * 1000 ≥ 16 * tl.par 0x09 4) && decide (b.flags < 8)

/-- A written bin installed: base values of zero take the written mean and spread (R148). -/
def Tile.writtenBin (tl : Tile) (a : AxisId) (d : Dir) (n : Nat) (b : Bin) : Bin :=
  let zero := b.baseMean == 0 && b.baseSpread == 0
  tl.installBin a d n b.mean b.spread (if zero then b.mean else b.baseMean) (if zero then b.spread else b.baseSpread) b.flags

/-- SOUNDING_WRITE (R148, R194, R349). -/
def execSoundingWrite (h : HostCmd) (d : Dir) (first count : Nat) (data : List Byte) (s : State) :
    Host.Outcome State Fault Refusal :=
  onCmd h 0x43 s fun s =>
    let t := h.tile
    let tl := s.tile t
    let a := h.axis.getD .A
    let x := tl.ax.get a
    let old := digest (setBytes x.soundings d first count)
    let stOk := tl.door.st == .isolated || (tl.door.st == .locked && !tl.releaseValid && !tl.door.calRunning)
    if !tl.triadActs then s.holdBack t (.soundingWrite h d first count data)
    else if h.dmaFault then s.complete h 0x43 0x09 0
    else if !stOk then s.complete h 0x43 0x10 148
    else if !s.sealOk then
      (s.configRecord t (some h) 0x43 0x13 old old []).complete h 0x43 0x13 194
    else if count = 0 ∨ first + count > 512 ∨ data.length ≠ 16 * count then s.complete h 0x43 0x14 335 [0xFF]
    else
      let bins := (List.range count).map fun i => binOfBytes (slice data (16 * i) 16)
      match bins.findIdx? fun b => !tl.binOk b with
      | some i => s.complete h 0x43 0x14 148 (leBytes 1 (min 255 i))
      | none =>
        if !tl.used a then s.complete h 0x43 0x29 29
        else
        let s1 := s.modAxis t a fun x =>
          { x with soundings := (List.range count).foldl (fun m i =>
              writeBin m d (first + i) (tl.writtenBin a d (first + i) (binOfBytes (slice data (16 * i) 16)))) x.soundings }
        (s1.complete h 0x43 0 0).configRecord t (some h) 0x43 0 old (digest data) []

/-- SHADOW_CONFIRM with ACCEPT (R144): it completes when the set is installed. -/
def execShadowConfirmAccept (h : HostCmd) (s : State) : Host.Outcome State Fault Refusal :=
  onCmd h 0x44 s fun s =>
    let d := (s.tile h.tile).door
    if d.shadowAccept == some h then s
    else if !(s.tile h.tile).triadActs then s.holdBack h.tile (.shadowConfirmAccept h)
    else if d.shadowAccept.isSome then s.complete h 0x44 0x17 0
    else
      match d.shadow with
      | .ready _ => (s.markAccepted h 0x44).modDoor h.tile fun d => { d with shadowAccept := some h }
      | _ => s.complete h 0x44 0x18 0

/-- The bytes of the shadow sets of the used axes. -/
def Tile.shadowBytes (tl : Tile) : List Byte :=
  tl.usedAxes.flatMap fun a => setBytes (tl.ax.get a).shadow .opening 0 512 ++ setBytes (tl.ax.get a).shadow .closing 0 512

/-- SHADOW_CONFIRM with DISCARD (R144). It is an accepted SHADOW_CONFIRM, whose record holds the digests of the shadow sets before and after
(R349). -/
def execShadowConfirmDiscard (h : HostCmd) (s : State) : Host.Outcome State Fault Refusal :=
  onCmd h 0x44 s fun s =>
    let d := (s.tile h.tile).door
    if !(s.tile h.tile).triadActs then s.holdBack h.tile (.shadowConfirmDiscard h)
    else if d.shadowAccept.isSome then s.complete h 0x44 0x17 0
    else
      match d.shadow with
      | .ready _ =>
        let s1 := s.each AxisId.all fun s a => s.modAxis h.tile a fun x => { x with shadow := [] }
        ((s1.modDoor h.tile fun d => { d with shadow := .none }).complete h 0x44 0 0).configRecord h.tile (some h) 0x44 0
          (digest (s.tile h.tile).shadowBytes) (digest (s1.tile h.tile).shadowBytes) []
      | _ => s.complete h 0x44 0x18 0

/-- Every bin of a shadow set installed into the active set of its axis (R133, R144). -/
def Tile.installShadow (tl : Tile) (a : AxisId) (x : Axis) : Axis :=
  { x with soundings := [Dir.opening, Dir.closing].foldl (fun m d => (List.range 512).foldl (fun m n =>
      let b := readBin x.shadow d n
      writeBin m d n (tl.installBin a d n b.mean b.spread b.mean b.spread b.flags)) m) x.soundings }

/-- The bytes of the active sets of the used axes. -/
def Tile.activeBytes (tl : Tile) : List Byte :=
  tl.usedAxes.flatMap fun a => setBytes (tl.ax.get a).soundings .opening 0 512 ++ setBytes (tl.ax.get a).soundings .closing 0 512

/-- SHADOW_SET_INSTALL (R144): in the first evaluation with no pass on the tile. A set that R134 has cleared meanwhile is no
longer ready. -/
def execShadowSetInstall (t : TileId) (s : State) : Host.Outcome State Fault Refusal :=
  onTile t s fun s =>
    let tl := s.tile t
    match tl.door.shadowAccept with
    | none => s
    | some h =>
      if tl.triadRuns && !tl.triadActs then s.holdBack t (.shadowSetInstall t)
      else if !tl.triadActs || tl.anyPass then s
      else
        match tl.door.shadow with
        | .ready _ =>
          let s1 := s.each tl.usedAxes fun s a => s.modAxis t a fun x => tl.installShadow a x
          let s2 := s1.modDoor t fun d => { d with shadow := .none, shadowAccept := none }
          let dg := digest (s2.tile t).activeBytes
          (s2.complete h 0x44 0 0 (dg.take 8)).configRecord t (some h) 0x44 0 (digest tl.activeBytes) dg []
        | _ => (s.modDoor t fun d => { d with shadowAccept := none }).complete h 0x44 0x18 0

end Sys2Proof.Machine
end

