-- ==== Sys2Proof/Machine/Power.lean ====
section
/-!
DEFINITION. Supplies, power good, the reset sources and what a logic-die reset leaves, the start of a logic die, and the start
supervisor (R42, R61, R88, R161 to R164, R199, R200, R217, R359, R363, R376 to R385, R388).
-/

namespace Sys2Proof.Machine

/-! ### What a logic-die reset leaves (R13, R61, R164, R380, R381) -/

/-- Feedback after a logic-die reset: the count is lost, the levels of its inputs stand (R61). An axis that had a position to lose keeps that
in mind until its start reports the loss, through further resets (R89). -/
def Feedback.afterReset (f : Feedback) (power : Bool) : Feedback :=
  { Feedback.reset with
    suspect := f.suspect, swRaw := f.swRaw, swLevel := f.swRaw, hallCode := f.hallCode, hallLast := f.hallCode
    dirChanges := if power then 0 else f.dirChanges, lostByReset := f.referenced || f.lostByReset }

/-- An axis after a logic-die reset: its trip pair reads asserted, so every axis makes a trip stop (R164); soundings and
parameters are retained (R13). -/
def Axis.afterReset (x : Axis) (power vdrvOk : Bool) : Axis :=
  { x with
    fb := x.fb.afterReset power
    mo := { Motion.reset with bridge := if power && vdrvOk then .brake else .free, freeDelay := !power && vdrvOk
                              vbus := x.mo.vbus }
    pa := Pass.reset
    fab := { x.fab with path1 := true, path2 := true, tripped := true, fault := false }
    shadowSums := [], shadowClean := (0, 0), shadowEnded := (0, 0), calSums := [] }

/-- A CAN buffer after a logic-die reset: its set-up stays, its content goes. -/
def CanBuffer.afterReset (b : CanBuffer) : CanBuffer :=
  { b with content := none, locked := false, shadowEnt := none, overrun := 0, pending := none, inArb := none, heldTx := none,
           abortWait := false }

/-- A triad after a logic-die reset: what is retained is roles, exclusions, counts and losses (R216, R231, R235). -/
def Triad.afterReset (tr : Triad) (power : Bool) : Triad :=
  { tr with
    mode := .lost, formed := false, fenced := none, held := [], joining := none, joinedAt := none, bist := none, readmit := none
    noRestart := tr.noRestart && !power, duplexSince := none }

/-- The field die after a power-on reset: the LSW and FIO domains off until the image is loaded, every IO level inactive under its fio_active and
every TL level off until it has debounced; its inputs and supplies are as they were, and with VIO low every source is at fault (R161,
R168, R171, R177, R186, R380, R381). -/
def FieldDie.powerOn (f : FieldDie) (activeLow : Nat → Bool) : FieldDie :=
  { FieldDie.reset with
    lswOn := f.lswOn, fioOn := false, vdrvOk := f.vdrvOk, vioOk := f.vioOk, tpFault := (!f.vioOk, !f.vioOk)
    images := f.images, tlRaw := f.tlRaw
    ls := ⟨⟨(List.range 10).map fun i =>
      { (FieldDie.reset.ls.toList.getD i (LsChannel.reset 3000)) with pin := (f.ls.toList.getD i (LsChannel.reset 3000)).pin }⟩,
      by simp⟩
    io := ⟨⟨(List.range 16).map fun i =>
      { (FieldDie.reset.io.toList.getD i (IoPin.reset false)) with raw := (f.io.toList.getD i (IoPin.reset false)).raw, level := activeLow i }⟩,
      by simp⟩ }

/-- The record of a logic die after a reset with its cause (R27, R381). -/
def Die.afterReset (d : Die) (cause : ResetCause) : Die :=
  let power := cause == .powerOn
  { d with
    inReset := true, cause := cause, svc := false, svcMissed := 0, reported := false, kaSent := false
    svcOff := d.svcOff && !power, svcRestarts := if power then [] else d.svcRestarts
    supervisor := if power || cause == .externalRst then 0 else d.supervisor
    heldDown := d.heldDown && !(power || cause == .externalRst) }

/-- A tile after a logic-die reset. -/
def Tile.afterReset (tl : Tile) (cause : ResetCause) : Tile :=
  let power := cause == .powerOn
  { tl with
    door := { Doorway.reset with proofOld := tl.door.proofOld, pendingSeen := [], shadow := tl.door.shadow.kept }
    ax := ⟨tl.ax.a.afterReset power tl.field.vdrvOk, tl.ax.b.afterReset power tl.field.vdrvOk,
           tl.ax.c.afterReset power tl.field.vdrvOk⟩
    field := if power then tl.field.powerOn (fun i => tl.par 0x0C 3 i == 1) else tl.field
    link := if power then Link.reset else { Link.reset with up := tl.link.up }
    triad := tl.triad.afterReset power
    sedge := vmap (fun (c : SedgeConn) => { SedgeConn.reset with binding := c.binding }) tl.sedge
    can := vmap (fun (c : CanCtl) => { CanCtl.reset with bufs := vmap CanBuffer.afterReset c.bufs }) tl.can
    lin := Vector.replicate 2 LinMaster.reset
    peat := { tl.peat with held := [], openTimer := .idle }
    die := tl.die.afterReset cause
    encoSrc := none, encoAcc := 0, encoQueue := [], encoAt := none, encoA := false, encoB := false }

/-- The head after its logic die's reset: every clock restarts and timers return to low (R258), the Causeway node ends (R282), the
session ends and every BAR0 register takes its reset value (R388), and the package leaves the board (R372). -/
def State.headReset (s : State) (power : Bool) : State :=
  let high := timerIds.filter fun i => (s.head.time.timers)[i].outHigh
  let s1 := (s.hostReset).each high fun s i => s.emit (.timer i.val false)
  let s2 := s1.modHead fun h =>
    { h.endAttempt with
      time := { TimeBase.reset with local_ := h.time.local_ }
      cwy := { Causeway.reset with nodeTable := h.cwy.nodeNew, slotTable := h.cwy.slotNew, nodeNew := h.cwy.nodeNew
                                   slotNew := h.cwy.slotNew }
      host := HostIf.reset
      board := { Board.reset with straps := h.board.straps, strapFault := h.board.strapFault && (!power || !strapsKeep h.board.straps) }
      stuck := h.stuck && !power }
  { s2 with windows := [] }

/-- A reset of a tile's logic die (R381): what stands in it is lost, the fallback image follows at the watchdog, and a reset of
the head's die resets the head. -/
def State.dieReset (s : State) (t : TileId) (cause : ResetCause) : State :=
  let tl := s.tile t
  let s1 := (s.loseCommands t).modTile t fun tl => tl.afterReset cause
  let s2 := if tl.encoA || tl.encoB then s1.emit (.enco t false false) else s1
  let s3 := s2.modBoard fun b => { b with tilesUp := b.tilesUp &&& ~~~(pkgTiles s.pkg (2 ^ t.num)) }
  let s4 := if cause == .powerOn then
      ((s3.modField t FieldDie.bitternEval).lsRefresh t).pairsRefresh t
    else s3
  if t == .t0 then s4.headReset (cause == .powerOn) else s4

/-- A reset of every tile's logic die (R381). -/
def State.resetAll (s : State) (cause : ResetCause) : State := s.each s.tileIds fun s t => s.dieReset t cause

/-! ### Power good and the supplies (R378, R379) -/

/-- A cause that persists holds a die in reset, or no longer does (R381). -/
def State.hold (s : State) (t : TileId) (c : ResetCause) (on : Bool) : State :=
  s.modDie t fun d => { d with holds := if on then (if d.holds.contains c then d.holds else d.holds ++ [c])
                                        else d.holds.filter (· != c) }

/-- POWER_GOOD (R367, R369, R376, R379): the straps are read, and checked as far as they are the package's own, and every die is reset with cause POWER_ON; each starts at its release, and no brown-out
holds one any more, for every supply stands. -/
def execPowerGood (straps : Straps) (s : State) : Host.Outcome State Fault Refusal :=
  onHead s fun s =>
    let s1 := { s with powerGood := true }.modBoard fun b => { b with straps := straps, strapFault := straps.join && !strapsKeep straps }
    (s1.resetAll .powerOn).each s.tileIds fun s t => s.hold t .brownOut false

/-- POWER_GOOD_LOST (R377, R379): no start-up goes on until power good returns and begins it again. -/
def execPowerGoodLost (s : State) : Host.Outcome State Fault Refusal := onHead s fun s => { s with powerGood := false }

/-- BROWN_OUT (R378, R379, R381): power good ends, and the reset lasts until the supply stands again. -/
def execBrownOut (t : TileId) (s : State) : Host.Outcome State Fault Refusal :=
  onTile t s fun s => ({ s with powerGood := false }.dieReset t .brownOut).hold t .brownOut true

/-- VDD33_LOSS (R378, R379, R381): a power-on reset of both dies, which lasts until power good; the bittern monitor leaves FAULT (R186). -/
def execVdd33Loss (t : TileId) (s : State) : Host.Outcome State Fault Refusal :=
  onTile t s fun s => { s with powerGood := false }.dieReset t .powerOn

/-- VPCIE_LOSS (R316, R378, R379): the PCIe link goes down, which is a host reset, and power good ends. -/
def execVpcieLoss (s : State) : Host.Outcome State Fault Refusal :=
  onHead s fun s => { s with powerGood := false }.endpointReset

/-- VDRV low on an axis: every gate off, and a drive-bus trip whatever the axis does, which acts as a trip in the states in which one
counts; in use, it raises the drive-bus event with cause 5 at each fall (R54, R378). -/
def State.vdrvTrip (s : State) (t : TileId) (a : AxisId) : State :=
  let tl := s.tile t
  let s1 := (s.fabricTrip t a srcDriveBus).modMo t a fun m => { m with freeDelay := false }
  if !tl.used a || tl.die.inReset then s1 else s1.driveBusEvent t a 5

/-- VDRV_LOW (R54, R378). -/
def execVdrvLow (t : TileId) (s : State) : Host.Outcome State Fault Refusal :=
  onTile t s fun s =>
    if !(s.tile t).field.vdrvOk then s
    else (s.modField t fun f => { f with vdrvOk := false }).each AxisId.all fun s a => s.vdrvTrip t a

/-- VDRV_RESTORED (R378): the gate drivers come back; the short brake of the trip applies now. -/
def execVdrvRestored (t : TileId) (s : State) : Host.Outcome State Fault Refusal :=
  onTile t s fun s =>
    if (s.tile t).field.vdrvOk then s
    else
      (s.modField t fun f => { f with vdrvOk := true }).each AxisId.all fun s a => s.modMo t a fun m => { m with bridge := .brake }

/-- VBAT_DOMAIN_LOSS (R152, R159, R378): every channel is off, and there is no current to measure: no off-state current, and a code of 0
until the domain returns (the 0 is the model's choice, log entry 20). -/
def execVbatDomainLoss (t : TileId) (s : State) : Host.Outcome State Fault Refusal :=
  onTile t s fun s => (s.modField t fun f =>
    { f with lswOn := false
             ls := vmap (fun (c : LsChannel) => { c with offCurrent := false, code := 0, checking := false }) f.ls }).lsRefresh t

/-- VBAT_DOMAIN_RETURN (R378): the domain is back, and lsw_uv governs. -/
def execVbatDomainReturn (t : TileId) (s : State) : Host.Outcome State Fault Refusal :=
  onTile t s fun s => (s.modField t fun f => { f with lswOn := true }).lsRefresh t true

/-! ### The other reset sources (R381, R385) -/

/-- EXTERNAL_RESET (R381): every logic die of the package. -/
def execExternalReset (s : State) : Host.Outcome State Fault Refusal := onHead s fun s => s.resetAll .externalRst

/-- THERMAL_RESET (R381): above 150 °C the die is held in reset until it has cooled below 130 °C. -/
def execThermalReset (t : TileId) (hot : Bool) (s : State) : Host.Outcome State Fault Refusal :=
  onTile t s fun s => if hot then ((s.dieReset t .thermal).hold t .thermal true).startDone else s.hold t .thermal false

/-- REFERENCE_LOSS (R385): the reference, PLL_SYS or PLL_NET is lost; every logic die is held in reset. -/
def execReferenceLoss (s : State) : Host.Outcome State Fault Refusal :=
  onHead s fun s =>
    let s1 := { s with refOk := false }.resetAll .clock
    s1.each s1.tileIds fun s t => s.hold t .clock true

/-- REFERENCE_RETURN (R385): 1 ms after its return the reference holds no die any more. -/
def execReferenceReturn (s : State) : Host.Outcome State Fault Refusal :=
  onHead s fun s => { s with refOk := true }.each s.tileIds fun s t => s.hold t .clock false

/-- PLL_PCIE_LOCK_LOSS (R316, R385). -/
def execPllPcieLockLoss (s : State) : Host.Outcome State Fault Refusal := onHead s State.endpointReset

/-- The code of a reset cause (R381). -/
def ResetCause.code : ResetCause → Nat
  | .powerOn => 0
  | .externalRst => 1
  | .brownOut => 2
  | .clock => 3
  | .thermal => 4
  | .supervisor => 5
  | .triadRestart => 6

/-! ### The start of a logic die (R359, R363, R376, R382) -/

/-- An axis at start-up: no axis is referenced (R61). A used one that had a position has lost it with cause 8; for one that had none the cause is
recorded in the Peat log only (R89). With fb_ssi a position accepted among its first 8 requests references it (R88), and is the
extreme from which the direction flag counts (R91). -/
def State.startAxis (s : State) (t : TileId) (r : BootReport) (a : AxisId) : State :=
  let x := s.axis t a
  let s1 := s.modFb t a fun f => { f with referenced := (s.tile t).used a && x.fb.lostByReset, lostByReset := false }
  let s2 := ((s1.positionLost t a 8).causeCleared t a 8).modDoor t fun d => { d with posLost := false }
  match r.ssi.get a with
  | some p =>
    if (s.tile t).used a && (s.tile t).parA a 0x08 10 != 0 then
      s2.modFb t a fun f => 
        { f with pos := wrap32 p, dirExtreme := wrap32 p, referenced := true, u := 0, ssiLast := some p, ssiLastAt := s2.now }
    else s2
  | none => s2

/-- Blocks of a tile that stood in the flash are lost with it (R364): the next record names them in a WRAP record first. -/
def State.flashLose (s : State) (t : TileId) (sectors : Nat) : State :=
  let gone := ((s.tile t).peat.inFlash.filter (·.2.1 ≥ sectors)).map (·.1)
  let s1 := s.modPeat t fun p =>
    { p with inFlash := p.inFlash.filter (·.2.1 < sectors), signed := p.signed.filter (!gone.contains ·)
             draining := p.draining.filter (!gone.contains ·), wrapped := p.wrapped ++ gone }
  s1.modHead fun h => { h with drainQueue := h.drainQueue.filter fun x => !(x.1 == t && gone.contains x.2) }

/-- The head reads the SFDP tables of its log flash (R353), whose capacity lies from 16 Mbit to 2 Gbit, 32 to 4 096 sectors. Undrained
blocks in sectors that are no longer there are lost, whatever log_full says, with the flash-fault event for the lowest of the sectors
(R364; one event is the model's choice, log entry 45). -/
def State.flashRead (s : State) (n : Nat) : State :=
  let size := if 32 ≤ n ∧ n ≤ 4096 then n else 0
  let lost := s.head.sectors.filter (·.1 ≥ size)
  let s1 := s.modHead fun h =>
    { h with flashSectors := size, sectors := h.sectors.filter (·.1 < size), badSectors := h.badSectors.filter (· < size) }
  match lost with
  | [] => s1
  | x :: rest =>
    (s1.each s1.tileIds fun s t => s.flashLose t size).raiseHead 0x42
      (leBytes 4 ((rest.map (·.1)).foldl min x.1) ++ leBytes 1 3)

/-- The start of the head: every clock of the package starts anew (R237, R258), the strap of COMPAT_RK is read, which governs on the board head
(R256, R389), Boardwalk trains (R22), the log flash is looked for (R353), the Causeway node starts (R282), and a package that works alone
counts itself (R389). -/
def State.headStart (s : State) (r : BootReport) : State :=
  let compat := r.compat
  let s0 := s.each s.tileIds fun s t => s.modDie t fun d => { d with base := s.now }
  let s1 := s0.modTime fun tb =>
    { tb with compatRk := compat && s.isHead, compatStrap := compat, record := TimeBase.reset.record, ring := TimeBase.reset.ring }
  let s2 := s1.modBoard fun b =>
    { b with ports := if b.straps.join then Vector.replicate 2 .training else b.ports
             trying := Vector.replicate 2 b.straps.join, packages := if s1.joined then b.packages else 1
             present := if s1.isHead then b.present ||| pkgBit s1.pkg else b.present
             reachable := if s1.isHead then b.reachable ||| pkgBit s1.pkg else b.reachable }
  let h := s2.head
  let s3 := if (s2.tile .t0).die.cause == .powerOn && (h.resA.level || h.resB.level) then s2.resetStuck true else s2
  (s3.flashRead r.flash).cwySwitch

/-- A geometry parameter that comes into force at the start clears the learned flags of its axis (R134). -/
def State.startSoundings (s : State) (t : TileId) (old : Tile) : State :=
  s.each AxisId.all fun s a =>
    let new := s.tile t
    if new.parA a 0x01 0 != old.parA a 0x01 0 || new.travel a != old.travel a ||
        (List.range 5).any (fun r => new.parA a 0x81 r != old.parA a 0x81 r) then s.soundingsCleared t a else s

/-- The parameters as written, in force on a tile in which nothing runs (R332). -/
def Tile.allInForce (tl : Tile) : Tile :=
  let axis := fun (x : Axis) (a : AxisId) => { x with inForce := (axisKeys a).foldl (takeIn tl.written) x.inForce }
  { tl with inForce := tl.written, ax := ⟨axis tl.ax.a .A, axis tl.ax.b .B, axis tl.ax.c .C⟩ }

/-- The start of a formed triad (R42, R163, R187, R200, R376): the bittern configuration
written, connections reopened, the doorway's state chosen and the image released, and the tile reports. The watchdog has run out by then. The
start takes longer than the 20 ms of R184, so a readback that disagrees is fault 0x02 by then (R203). -/
def State.triadStart (s : State) (t : TileId) (r : BootReport) (copied : Bool) : State :=
  let s1 := s.watchdogOut t
  let s2 := s1.each AxisId.all fun s a => s.startAxis t r a
  let s3 := (s2.bootRecord t (s.tile t).die.cause.code copied).triadRecord t
  let s4 := (s3.writeConfig t).sedgeReopen t
  let u := s4.upFrame t r.obs
  let s5 := (s4.modLink t fun l => { l with up := u }).modDoor t fun d => { d with sraDisagree := !u.sraAgrees }
  let s6 := s5.enterChosen t 0 (s5.chooseState t true)
  let s7 := if (s6.tile t).door.st == .isolated then s6.releaseImage t else s6
  s7.modDie t fun d => { d with reported := true }

/-- The field die has loaded its fallback image, before the logic die starts: the LSW and FIO domains are on (R161, R380). -/
def State.imageLoaded (s : State) (t : TileId) : State :=
  if (s.tile t).field.fioOn then s
  else (((s.modField t fun f => { f with fioOn := true }).lsRefresh t).pairsRefresh t)

/-- LOGIC_DIE_RESET_RELEASE (R352, R382): boot ROM's work, BIST, the triad, and the start of the tile, in which the record that the reset
interrupted is closed before any new one; without a triad or verified firmware the tile keeps its fallback image and never reports
(R217, R359, R377). -/
def execLogicDieResetRelease (t : TileId) (r : BootReport) (s : State) : Host.Outcome State Fault Refusal :=
  onTile t s fun s0 =>
    let s := if s0.powerGood then s0.imageLoaded t else s0
    let d := (s.tile t).die
    if !d.inReset || !d.holds.isEmpty || d.heldDown || !s.powerGood || !s.refOk then s
    else
      let (d1, copied) := d.boot r
      let s1 := s.modTile t fun tl =>
        { tl.allInForce with die := { d1 with inReset := false, svc := d1.fwVerified && !d1.svcOff, svcMissed := 0, base := s.now } }
      let s1 := if (s1.tile t).die.svc then s1.closeEvents t 4 else s1
      let s2 := (if t == .t0 then s1.headStart r else s1).startSoundings t (s.tile t)
      let s3 := if d1.fwVerified then s2.modTriad t fun tr => tr.form r.bist s2.ts s2.now (d.cause == .powerOn) else s2
      let s4 := if (s3.tile t).triad.formed then s3.triadStart t r copied else s3
      s4.reportTiles.startDone

/-- The start supervisor of a tile watches: the die was released, which LOGIC_DIE_RESET_RELEASE may not have reported yet, its boot ROM has not
found that there is no triad or no verified firmware, and no keep-alive word has left the voter (R382). -/
def State.supervised (s : State) (t : TileId) : Bool :=
  let d := (s.tile t).die
  if d.inReset then d.holds.isEmpty && !d.heldDown && s.powerGood && s.refOk
  else (s.tile t).triad.formed && d.fwVerified && !d.kaSent

/-- START_SUPERVISOR_TIMEOUT (R382): a start that sends no keep-alive word within 1 s is reset with cause 0x05; after three in a
row the die is held in reset until POWER_ON or EXTERNAL, and the package's start waits for it no more (R299). -/
def execStartSupervisorTimeout (t : TileId) (s : State) : Host.Outcome State Fault Refusal :=
  onTile t s fun s =>
    if !s.supervised t then s
    else
      ((s.dieReset t .supervisor).modDie t fun d =>
        { d with supervisor := d.supervisor + 1, heldDown := decide (d.supervisor + 1 ≥ 3) }).startDone

end Sys2Proof.Machine
end

