-- ==== Sys2Proof/Machine/Windows.lean ====
section
/-!
DEFINITION. The package and tile windows of BAR0 and their refresh (R375, R386, R392, R393), what a read of BAR0 returns (R8, R387 to
R390), and the configuration space (R394).
-/

namespace Sys2Proof.Machine

/-- The code of a Boardwalk port state (R375). -/
def BwkPortState.code : BwkPortState → Nat
  | .down => 0
  | .training => 1
  | .up => 2
  | .strapFailed => 3

/-- BWK_STATUS (R375). -/
def Board.status (b : Board) : Nat :=
  (b.ports[0]).code + 4 * (b.ports[1]).code + 16 * b.straps.num.val + 64 * bit b.straps.join + 128 * bit b.straps.head +
  256 * b.present.toNat + 4096 * b.reachable.toNat + 65536 * bit b.strapFault + 2 ^ 24 * b.linkChanges

/-- The silicon revision letter, "C" (R3). -/
def revisionC : Nat := 0x43

/-- HIF_PKG_ID (R392). -/
def State.pkgIdWord (s : State) : Nat :=
  s.part.code + 2 ^ 16 * revisionC + 2 ^ 24 * s.part.tiles + 2 ^ 27 * bit (s.head.flashSectors != 0) +
  2 ^ 28 * bit s.head.time.compatStrap

/-- The words of a package window with their offsets (R392). -/
def State.pkgWords (s : State) : List (Nat × Nat) :=
  let b := s.head.board
  [(0x000, s.pkgIdWord), (0x008, s.head.serial.toNat % 2 ^ 32), (0x00C, s.head.serial.toNat / 2 ^ 32), (0x100, b.status),
   (0x104, b.delays[0] + 65536 * b.delays[1])]

/-- PWR_DOMAINS (R380, R393): a core is on while it is ACTIVE, or while a BIST or a join runs on it; CRYPTO on the head alone. -/
def State.pwrDomains (s : State) (t : TileId) : Nat :=
  let tl := s.tile t
  let tr := tl.triad
  let core := fun (c : Fin 4) =>
    tr.roles[c] == .active || (tr.bist.map (·.1)) == some c || (tr.joining.map (·.1)) == some c
  let gate := tl.field.vdrvOk && AxisId.all.any fun a => tl.motor a != 2
  ofBits [true, core 0, core 1, core 2, core 3, tl.die.svc, true, true, t == .t0, true, true, gate, tl.field.lswUp,
          tl.field.fioOn] + 2 ^ 16 * bit (t == .t0) + 2 ^ 31 * bit (tl.die.reported && tl.die.svc)

/-- ILK_SUMMARY (R393). -/
def State.ilkSummary (s : State) (t : TileId) : Nat :=
  let tl := s.tile t
  let u := tl.link.up
  let fs := s.faults t
  tl.door.st.code + 16 * tl.triad.mode.code + 256 * bit tl.door.sraCmd + 512 * bit (u.bittern == .closed) +
  1024 * bit u.fallback + 2048 * bit s.sealOk + 4096 * bit tl.door.egress + 8192 * bit tl.releaseValid +
  16384 * bit (!fs.isEmpty) + 65536 * fs.headD 0

/-- SEC_BOOT (R393). -/
def Die.secBoot (d : Die) : Nat :=
  d.cause.code + 256 * bit d.fwVerified + 512 * bit d.fwPending + 1024 * bit d.policyStart + 2048 * bit d.key.isSome +
  4096 * d.secCounter

/-- The words of a tile window with their offsets (R393). -/
def State.tileWords (s : State) (t : TileId) : List (Nat × Nat) :=
  [(0x000, s.pwrDomains t), (0x004, s.ilkSummary t), (0x008, (s.tile t).die.secBoot)]

/-- A word of the windows with bit 31 as given. -/
def State.putReported (s : State) (off : Nat) (on : Bool) : State :=
  s.putWindow off ((s.windows.get off).toNat % 2 ^ 31 + 2 ^ 31 * bit on)

/-- The board head's copies of its own windows: a tile that has not reported leaves its window as it is, but for the reported
bit (R386). -/
def State.refreshOwn (s : State) : State :=
  let s1 := s.each s.pkgWords fun s w => s.putWindow (0x4000 + 0x1000 * s.pkg + w.1) w.2
  s1.each s1.tileIds fun s t =>
    let base := 0x8000 + 0x400 * (4 * s.pkg + t.num)
    if (s.tile t).die.reported then s.each (s.tileWords t) fun s w => s.putWindow (base + w.1) w.2
    else s.putReported base false

/-- The reported bits of the other packages' tiles (R386, R393). -/
def State.refreshFar (s : State) : State :=
  s.each ((List.range 16).filter fun bt => bt / 4 != s.pkg) fun s bt =>
    if s.head.board.tilesUp.getLsbD bt then s else s.putReported (0x8000 + 0x400 * bt) false

/-- The state report of a package to the board head (R376, R386): the tiles that report, the package's words and each tile's. -/
def State.stateReport (s : State) : BwkPayload :=
  let mask := maskOf (TileId.all.map fun t => s.hasTile t && (s.tile t).die.reported && (s.tile t).die.svc)
  .stateReport mask s.timerArmed ((s.pkgWords.flatMap fun w => leBytes 4 w.2) ++
    (TileId.all.flatMap fun t => (s.tileWords t).flatMap fun w => leBytes 4 w.2))

/-- WINDOW_REFRESH (R386): the board head refreshes its copies; another package sends its report once all its tiles have started. -/
def execWindowRefresh (s : State) : Host.Outcome State Fault Refusal :=
  onHead s fun s =>
    if (s.tile .t0).die.inReset then s
    else if s.isHead then s.refreshOwn.refreshFar
    else if s.joined && (s.portCarries 0 || s.portCarries 1) && s.packageStarted && (s.tile .t0).die.svc then
      s.bwkSend 0 s.stateReport
    else s

/-! ### Reads of BAR0 (R8, R386 to R390) -/

/-- The rings that are stopped, as a mask (R389). -/
def stoppedMask (l : List Ring) : Nat := maskOf (l.map (·.stopped))

/-- The four words of HIF_STATUS (R389). -/
def State.hifStatus (s : State) (word : Nat) : Nat :=
  let h := s.head.host
  let q := stoppedMask h.cmdq.toList
  let c := stoppedMask h.cpl.toList
  let e := stoppedMask h.evt.toList
  match word with
  | 0 => ofBits [h.ready, h.sessionOpen, s.head.board.strapFault, decide (q + c + e ≠ 0)]
  | 1 => q
  | 2 => c
  | _ => e

/-- The board tiles whose service core and package head report now (R389): of this package, those whose service core is there. -/
def State.reportingMask (s : State) : Nat :=
  maskOf ((List.range 16).map fun bt =>
    s.head.board.tilesUp.getLsbD bt && (bt / 4 != s.pkg ||
      match TileId.ofNat? (bt % 4) with
      | some t => (s.tile t).die.svc && (s.tile .t0).die.svc
      | none => false))

/-- A global register by its offset (R389): HIF_ID, HIF_TILES, HIF_VERSION, HIF_SESSION, HIF_STATUS and IFC_CTL; HIF_CTL is write only
and reads zero (R8). -/
def State.globalRead (s : State) (o : Nat) : Nat :=
  let h := s.head.host
  match o with
  | 0x00 => s.part.code + 2 ^ 16 * revisionC + 2 ^ 24 * s.head.board.packages
  | 0x04 => s.tileMask + 2 ^ 16 * s.reportingMask
  | 0x08 => (if h.sessionOpen then h.version.toNat else 0) + 2 ^ 16 * 0xF
  | 0x0C => h.session.toNat
  | 0x10 => s.hifStatus 0
  | 0x14 => s.hifStatus 1
  | 0x18 => s.hifStatus 2
  | 0x1C => s.hifStatus 3
  | 0x24 => bit s.head.time.compatRk
  | _ => 0

/-- CTL of a ring (R390). -/
def Ring.ctl (k : RingKind) (r : Ring) : Nat :=
  bit r.enabled + 2 * r.sizeLog2 +
    (match k with
     | .cmdq => 2 ^ 8 * r.route + 2 ^ 16 * r.prio
     | _ => 2 ^ 6 * r.route)

/-- STATE of a ring (R390): a command queue has no phase. -/
def Ring.stateWord (k : RingKind) (r : Ring) : Nat :=
  r.devIndex + 2 ^ 12 * bit (r.phase && k != .cmdq) + 2 ^ 16 * r.hostIndex + 2 ^ 30 * bit r.stopped + 2 ^ 31 * bit r.busy

/-- A ring register by its offset inside the ring's 32 bytes (R390). -/
def Ring.read (k : RingKind) (r : Ring) (off : Nat) : Nat :=
  match off, k with
  | 0x00, _ => r.base.toNat % 2 ^ 32
  | 0x04, _ => r.base.toNat / 2 ^ 32
  | 0x08, _ => r.ctl k
  | 0x0C, .cmdq => r.stateWord .cmdq
  | 0x0C, _ => r.imodCount + 2 ^ 16 * r.imodTime
  | 0x10, .cpl => r.stateWord .cpl
  | 0x10, .evt => r.tiles.toNat + 2 ^ 16 * r.heads.toNat + 2 ^ 24 * r.classes.toNat
  | 0x14, .cpl => r.reserved
  | 0x14, .evt => r.stateWord .evt
  | _, _ => 0

/-- The word that a read of BAR0 at an aligned offset returns (R386, R387): a reserved offset reads zero, a window its copy. -/
def State.wordRead (s : State) (o : Nat) : Nat :=
  let h := s.head.host
  if o < 0x100 then s.globalRead o
  else if o < 0x500 then (s.ring .cmdq (Fin.ofNat 32 ((o - 0x100) / 32))).read .cmdq (o % 32)
  else if o < 0x900 then (s.ring .cpl (Fin.ofNat 32 ((o - 0x500) / 32))).read .cpl (o % 32)
  else if o < 0xA00 then (s.ring .evt (Fin.ofNat 32 ((o - 0x900) / 32))).read .evt (o % 32)
  else if o = 0x1040 then s.head.time.eth0.lat.toNat
  else if o = 0x1044 then s.head.time.eth0.asym.toNat
  else if o = 0x1048 then s.head.time.eth1.lat.toNat
  else if o = 0x104C then s.head.time.eth1.asym.toNat
  else if 0x4000 ≤ o ∧ o < 0xC000 then (s.windows.get o).toNat
  else if 0xF000 ≤ o ∧ o < 0xF400 then (h.msix.get ((o - 0xF000) / 4) (if o % 16 = 12 then 1 else 0)).toNat
  else if o = 0xF800 then h.pba.toNat % 2 ^ 32
  else if o = 0xF804 then h.pba.toNat / 2 ^ 32
  else 0

/-- The low word of a 64-bit register stands at the offset: a ring's BASE, HIF_PKG_SERIAL, and the tables that follow PCIe. -/
def isWideRead (o : Nat) : Bool :=
  isWide o || (decide (0x4000 ≤ o ∧ o < 0x8000) && o % 0x1000 == 8) || decide (0xF000 ≤ o ∧ o < 0xF400) || o == 0xF800

/-- What a read of BAR0 returns (R386): an aligned word, an aligned 64-bit register, and zero at any other size or alignment. The RC
field clears by BWK_STATUS_READ. -/
def State.bar0Read (s : State) (o len : Nat) : Nat :=
  if len = 4 && o % 4 == 0 then s.wordRead o
  else if len = 8 && o % 8 == 0 && isWideRead o then s.wordRead o + 2 ^ 32 * s.wordRead (o + 4)
  else 0

/-- What a read of BAR2 returns (R302): the last index written to a doorbell, and zero elsewhere. -/
def State.bar2Read (s : State) (o : Nat) : Nat :=
  if o % 8 ≠ 0 then 0
  else if o < 0x100 then (s.ring .cmdq (Fin.ofNat 32 (o / 8))).hostIndex
  else if o < 0x200 then (s.ring .cpl (Fin.ofNat 32 ((o - 0x100) / 8))).hostIndex
  else if o < 0x240 then (s.ring .evt (Fin.ofNat 32 ((o - 0x200) / 8))).hostIndex
  else 0

/-! ### Configuration space (R298, R394) -/

/-- A base address register: 64-bit memory, whether prefetchable, and its size. -/
structure Bar where
  offset       : Nat
  wide         : Bool
  prefetchable : Bool
  bytes        : Nat
  deriving DecidableEq, Repr

/-- A capability of the function. -/
inductive Capability where
  | powerManagement (d0 d3hot pme inD3hot : Bool)
  | msix (tableSize tableBir tableOffset pbaBir pbaOffset : Nat)
  | pciExpress (endpoint : Bool) (maxPayload : Nat) (functionLevelReset aspm : Bool) (payloadSize readRequest : Nat)
  | advancedErrors (uncorrectable correctable : Word)
  | serialNumber (serial : BitVec 64)
  deriving DecidableEq, Repr

/-- The configuration space of the board head's function, as far as R394 gives it. -/
structure ConfigSpace where
  vendor          : Nat
  device          : Nat
  revision        : Nat
  classCode       : Nat
  subsystemVendor : Nat
  subsystem       : Nat
  bars            : List Bar
  caps            : List (Nat × Capability)
  deriving DecidableEq, Repr

/-- The configuration space (R298, R394). The board head is board package 0, so the serial number is its own. -/
def State.configSpace (s : State) : ConfigSpace :=
  { vendor := 0x1F3C, device := s.part.code, revision := revisionC, classCode := 0x088000
    subsystemVendor := 0x1F3C, subsystem := s.part.code
    bars := [⟨0x10, true, false, 65536⟩, ⟨0x18, true, false, 4096⟩]
    caps := [(0x40, .powerManagement true true false s.head.pcie.d3hot), (0x50, .msix 63 0 0xF000 0 0xF800),
             (0x70, .pciExpress true 256 true false s.head.pcie.maxPayload s.head.pcie.maxRead),
             (0x100, .advancedErrors s.head.pcie.aerUncorr s.head.pcie.aerCorr), (0x148, .serialNumber s.head.serial)] }

/-- The bytes of the header fields that R394 gives, with their offsets. -/
def ConfigSpace.header (c : ConfigSpace) : List (Nat × List Byte) :=
  [(0x00, leBytes 2 c.vendor), (0x02, leBytes 2 c.device), (0x08, leBytes 1 c.revision), (0x09, leBytes 3 c.classCode),
   (0x2C, leBytes 2 c.subsystemVendor), (0x2E, leBytes 2 c.subsystem)]

end Sys2Proof.Machine
end

