-- ==== Sys2Proof/Machine/Commit.lean ====
section
/-!
DEFINITION. The commit of the writes that the voter held back (R223, R224, R236): the commands whose meaning issues them take effect
in their order once the signatures of the remaining pair agree.
-/

namespace Sys2Proof.Machine

/-- The state that an outcome goes on with. -/
def stateOf (s : State) : Host.Outcome State Fault Refusal → State
  | .next t => t
  | _ => s

/-- A held command takes effect. -/
def State.runHeld (s : State) (i : Instr) : State :=
  stateOf s (match i with
    | .doorwayEvaluation t now => execDoorwayEvaluation t now s
    | .keepAliveWord t => execKeepAliveWord t s
    | .checkpointWrite t => execCheckpointWrite t s
    | .policyBundleTakesEffect t => execPolicyBundleTakesEffect t s
    | .tileParametersTakeEffect t => execTileParametersTakeEffect t s
    | .shadowSetInstall t => execShadowSetInstall t s
    | .selftestDwellPartStart t => execSelftestDwellPartStart t s
    | .sedgeFrameReceived t c f now => execSedgeFrameReceived t c f now s
    | .sedgeWatchdogExpiry t due => execSedgeWatchdogExpiry t due s
    | .sedgeTxPeriod t c => execSedgeTxPeriod t c s
    | .lswSet h m l => execLswSet h m l s
    | .lswSetClear h m l => execLswSetClear h m l s
    | .ioSet h m l => execIoSet h m l s
    | .ioSetClear h m l => execIoSetClear h m l s
    | .doorRelease h => execDoorRelease h s
    | .doorWithdraw h => execDoorWithdraw h s
    | .calRequestFull h => execCalRequestFull h s
    | .calRequestShadow h m => execCalRequestShadow h m s
    | .calPermit h => execCalPermit h s
    | .calCancel h => execCalCancel h s
    | .calRecover h => execCalRecover h s
    | .selftestRequest h m a => execSelftestRequest h m a s
    | .soundingWrite h d f n bs => execSoundingWrite h d f n bs s
    | .shadowConfirmAccept h => execShadowConfirmAccept h s
    | .shadowConfirmDiscard h => execShadowConfirmDiscard h s
    | .keyRegister h k => execKeyRegister h k s
    | .cfgWriteEntries h es => execCfgWriteEntries h es s
    | .cfgWriteBlock h b i bs => execCfgWriteBlock h b i bs s
    | .policyActivate h => execPolicyActivate h s
    | .sedgeOpen h c a => execSedgeOpen h c a s
    | .sedgeClose h c => execSedgeClose h c s
    | .proofTestResult t now => execProofTestResult t now s
    | .calibrationReady t => execCalibrationReady t s
    | .obstructionAgesOut t => execObstructionAgesOut t s
    | .calPermitMaxExpiry t => execCalPermitMaxExpiry t s
    | .openLoadCheckPeriod t => execOpenLoadCheckPeriod t s
    | .triadReadmit h c => execTriadReadmit h c s
    | _ => .next s)

/-- The held writes commit in their original order (R223 step 4). -/
def State.commitHeld (s : State) (t : TileId) : State :=
  let l := (s.tile t).triad.held
  l.foldl State.runHeld (s.modTriad t fun tr => { tr with held := [] })

/-- SIGNATURE_COMPARISON_COMPLETE (R223, R229). -/
def execSignatureComparisonComplete (t : TileId) (agree : Bool) (now : Nat) (s : State) :
    Host.Outcome State Fault Refusal :=
  onTile t s fun s0 =>
    let s := s0.at now
    let tr := (s.tile t).triad
    match tr.mode, tr.fenced with
    | .confirm, some core => if agree then ((s.maskCore t core).commitHeld t).readmitAborted t else s.signaturesDiffer t
    | _, _ => s

end Sys2Proof.Machine
end

