-- ==== Sys2Proof/Machine/MotionCmds.lean ====
section
/-!
DEFINITION. The meanings of the motion engine's steps: the current-loop and position-loop samples, the trips, the trip
fabric, the stepper alignment and the external steps (ch. 3 and 6 of the spec).
-/

namespace Sys2Proof.Machine

/-! ### Samples -/

/-- The measurements of a sample (R53, R132): torque current, speed, motor bus, the state of the current sense. The fall of
the overcurrent comparator is seen here, and that of the motor bus comparator once the bus lies at or below 160 V (R54). The
times that R418 and R55 judge run from the first sample in which the speed is low enough, or the following error too large. -/
def State.sampleMeasures (s : State) (t : TileId) (a : AxisId) (m : LoopSample) : State :=
  let tl := s.tile t
  let slow := decide ((m.speed.natAbs : Int) ≤ tl.par 0x83 0)
  let far := fun (x : Axis) => decide (((x.mo.profilePos - x.fb.pos).natAbs : Int) > tl.parA a 0x05 5)
  let since := fun (on : Bool) (old : Option Nat) => if !on then none else some (old.getD s.now)
  let s1 := s.modAxis t a fun x =>
    { x with
      mo := { x.mo with iq := m.iq, speed := m.speed, vbus := m.vbus, senseFault := !m.senseOk,
                        slowSince := since (slow && x.moving) x.mo.slowSince
                        feSince := since (far x && x.moving) x.mo.feSince }
      fab := { x.fab with overcurrent := false } }
  if m.vbus ≤ 1600 then s1.modField t fun f => { f with busComp := false } else s1

/-- The index correction due in this sample (R81): the count moves by −e and u becomes 0; the planner starts from the
corrected position, and a correction above 2 counts makes the pass unclean (R136 rule 6). -/
def State.sampleIndex (s : State) (t : TileId) (a : AxisId) : State :=
  match (s.axis t a).fb.indexErr with
  | none => s
  | some e =>
    let s1 := s.modAxis t a fun x =>
      { x with
        fb := { x.fb with pos := wrap32 (x.fb.pos - e), u := 0, indexErr := none, dirExtreme := x.fb.dirExtreme - e }
        mo := if x.mo.move.isSome then { x.mo with planPos := x.mo.planPos - e } else x.mo }
    let s2 := s1.causeCleared t a 2
    if e.natAbs > 2 then s2.notClean t a else s2

/-- The motor bus in a sample (R54): above vbus_ov the deceleration is limited, below vbus_uv a move makes a trip stop and a
bridge driven at rest goes to BRAKE; each of these two is a drive-bus trip with its event, cause 4 (DESIGN CHOICE for the bridge at
rest: the catalogue has no cause of its own for it; log entry 51). -/
def State.sampleBus (s : State) (t : TileId) (a : AxisId) : State :=
  let tl := s.tile t
  let x := tl.ax.get a
  let above := decide ((x.mo.vbus : Int) > 10 * tl.parA a 0x05 3)
  let below := tl.busLow a
  let known := match x.mo.tripNote with
    | some n => n.sources &&& srcDriveBus != 0
    | none => false
  let s1 := s.modMo t a fun m => { m with decelLimited := above && m.move.isSome }
  let s2 := if above && x.moving && !x.mo.decelLimited then s1.driveBusEvent t a 1 else s1
  if below && x.moving && !known then (s2.driveBusEvent t a 4).engineTrip t a srcDriveBus
  else if below && !x.moving && x.mo.bridge == .driven then
    ((s2.modMo t a fun m => { m with bridge := .brake }).driveBusEvent t a 4).noteTrip t a srcDriveBus
  else s2

/-- A move that starts towards a limit that is already active trips in its first sample (R59, R83). -/
def State.sampleLimit (s : State) (t : TileId) (a : AxisId) : State :=
  let x := s.axis t a
  match x.mo.move with
  | some mv =>
    let lim := match mv.dir with
      | .opening => SwitchId.limO
      | .closing => SwitchId.limC
    if mv.fresh && mv.kind != .stop && x.swActive a lim then s.engineTrip t a srcLimit else s
  | none => s

/-- The SSI request at the start of every ssi_every-th sample (R84): the idle level is checked, the count is latched at the first
falling edge, and that edge is stamped; no request starts while a word is under way. -/
def State.sampleSsi (s : State) (t : TileId) (a : AxisId) (high : Bool) : State :=
  let tl := s.tile t
  if tl.parA a 0x08 10 = 0 then s
  else
    s.modFb t a fun f =>
      if f.ssiCount + 1 ≥ tl.parAN a 0x08 18 && f.ssiLatch.isNone then
        { f with ssiCount := 0, ssiLatch := some f.pos, ssiLatchAt := s.now, ssiLatchTs := s.ts, ssiIdleBad := !high }
      else { f with ssiCount := f.ssiCount + 1 }

/-- The position of an axis without quadrature between accepted words (R87): the last word, extrapolated at the measured
speed from its latch edge. -/
def State.sampleExtrapolate (s : State) (t : TileId) (a : AxisId) : State :=
  let tl := s.tile t
  let x := tl.ax.get a
  match x.fb.ssiLast with
  | some l =>
    if tl.parA a 0x08 0 = 0 && tl.parA a 0x08 10 = 1 then
      (s.modFb t a fun f =>
        { f with pos := wrap32 (l + x.mo.speed * (s.now - f.ssiLastAt : Nat) / 1000000000) }).dirUpdate t a
    else s
  | none => s

/-- The duty words of the three phases of a driven bridge: R53 gives the loops, not their numbers, so each word is a free value; 0
otherwise. The next down-frame carries them (R16). -/
def State.sampleDuty (s : State) (t : TileId) (a : AxisId) : State :=
  if (s.axis t a).mo.bridge == .driven then
    let (u, s1) := s.draw
    let (v, s2) := s1.draw
    let (w, s3) := s2.draw
    s3.modMo t a fun m => { m with duty := (u, v, w), move := m.move.map fun x => { x with fresh := false } }
  else s.modMo t a fun m => { m with duty := (0, 0, 0) }

/-- CURRENT_LOOP_SAMPLE (R53): a trip of the last period is carried out first (R59), then measurements, index, bus and limit
checks, stakes, the force test, the trace, the stream and the duty words. -/
def execCurrentLoopSample (t : TileId) (a : AxisId) (m : LoopSample) (now : Nat) (s : State) :
    Host.Outcome State Fault Refusal :=
  onTile t s fun s =>
    if !(s.tile t).used a then s
    else
      let s1 := (((s.at now).sampleSsi t a m.ssiHigh).sampleMeasures t a m).sampleExtrapolate t a
      let s2 := s1.tripEvent t a
      let s3 := (((s2.sampleIndex t a).sampleBus t a).sampleLimit t a).runStakes t a
      let s4 := (((if m.binEcc then s3.binLost t a else s3).residualTest t a).traceSample t a).tripRecord t a
      ((s4.extSample t a now).clampRef t a).sampleDuty t a

/-- POSITION_LOOP_SAMPLE (R47, R53): the planner, then the loops. -/
def execPositionLoopSample (t : TileId) (a : AxisId) (s : State) : Host.Outcome State Fault Refusal :=
  onTile t s fun s =>
    let tl := s.tile t
    let sector := if tl.parA a 0x08 6 = 0 then none else hallPlace (tl.ax.get a).fb.hallLast
    if tl.used a then (s.planSample t a).controlSample t a sector else s

/-! ### Trips -/

/-- RESIDUAL_TRIP (R110): the persistence count has reached n_persist. -/
def execResidualTrip (t : TileId) (a : AxisId) (s : State) : Host.Outcome State Fault Refusal :=
  onTile t s fun s =>
    let tl := s.tile t
    let x := tl.ax.get a
    if x.moving && x.pa.active && x.mo.bridge == .driven && decide (x.mo.persist ≥ tl.parN 0x82 2 x.mo.zone.val) then
      s.forceTrip t a false
    else s

/-- SAT_TRIP (R111). -/
def execSatTrip (t : TileId) (a : AxisId) (s : State) : Host.Outcome State Fault Refusal :=
  onTile t s fun s =>
    let tl := s.tile t
    let x := tl.ax.get a
    if x.moving && x.pa.active && x.mo.bridge == .driven && decide (x.mo.satCount ≥ tl.parN 0x82 2 x.mo.zone.val) then
      s.forceTrip t a true
    else s

/-- FOLLOWING_ERROR_TRIP (R55): in any move, once the error has exceeded fe_max for longer than fe_time. -/
def execFollowingErrorTrip (t : TileId) (a : AxisId) (s : State) : Host.Outcome State Fault Refusal :=
  onTile t s fun s =>
    let tl := s.tile t
    let x := tl.ax.get a
    match x.mo.feSince with
    | some i => if x.moving && decide (s.now > i + 1000000 * tl.parAN a 0x05 6) then s.engineTrip t a srcFollow else s
    | none => s

/-- TRIP_PAIR_LEVEL_CHANGE (R59): a raised pair trips both paths, and a wire that the proof test asserts alone trips its own, once the clear of
its step is through (R119); a path stays tripped when the pair falls (R118). -/
def execTripPairLevelChange (t : TileId) (a : AxisId) (s : State) : Host.Outcome State Fault Refusal :=
  onTile t s fun s =>
    let x := s.axis t a
    if x.pairRaised then s.fabricTrip t a 0
    else if x.mo.wire = 0 || (s.tile t).link.clear.get a then s
    else s.pathForced t a (x.mo.wire == 1) (x.mo.wire == 2)

/-- TRIP_STOP_BRAKE_DELAY (R59): the low-side gates switch on; the next current-loop sample cancels the profile. -/
def execTripStopBrakeDelay (t : TileId) (a : AxisId) (s : State) : Host.Outcome State Fault Refusal :=
  onTile t s fun s =>
    if (s.axis t a).mo.freeDelay then s.modMo t a fun m => { m with freeDelay := false, bridge := .brake } else s

/-- OVERCURRENT_COMPARATOR_EDGE (R118). -/
def execOvercurrentComparatorEdge (t : TileId) (a : AxisId) (s : State) : Host.Outcome State Fault Refusal :=
  onTile t s fun s =>
    (s.fabricTrip t a srcOvercurrent).modFab t a fun f => { f with overcurrent := true }

/-- MOTOR_BUS_COMPARATOR_TRIP (R54): a drive-bus trip of every used axis, with its event; the comparator stays active until a
sample finds the bus at or below its level (R118). -/
def execMotorBusComparatorTrip (t : TileId) (s : State) : Host.Outcome State Fault Refusal :=
  onTile t s fun s =>
    (s.modField t fun f => { f with busComp := true }).each (s.tile t).usedAxes fun s a =>
      (s.fabricTrip t a srcDriveBus).driveBusEvent t a 2

/-- SENSITIVE_EDGE_ACTIVE (R114, R115): the fabric of each mapped axis whose edge-enable bit is 1 trips. -/
def execSensitiveEdgeActive (t : TileId) (e : EdgeId) (s : State) : Host.Outcome State Fault Refusal :=
  onTile t s fun s =>
    s.each AxisId.all fun s a =>
      let tl := s.tile t
      if (tl.ax.get a).fab.edgeEn && tl.edgeActs e a then
        s.fabricTrip t a (match e with
          | .edgeA => srcEdgeA
          | .edgeB => srcEdgeB)
      else s

/-- FABRIC_FAULT (R120): a path asserted with no active input, and not waiting for the clear of a trip. -/
def execFabricFault (t : TileId) (a : AxisId) (s : State) : Host.Outcome State Fault Refusal :=
  onTile t s fun s =>
    let tl := s.tile t
    let x := tl.ax.get a
    if x.fab.tripped || x.pairRaised || tl.fabInputs a then s
    else s.modFab t a fun f => { f with fault := true }

/-! ### Alignment and external steps -/

/-- ALIGNMENT_COMPLETE (R51): the rotor stands at phase 1, and the offset is fixed there; motion of more than half an electrical
period fails the alignment, and the move is refused. In a homing run a failed alignment fails the run, and one that was asked for
before the run lets it go on (R66). -/
def execAlignmentComplete (t : TileId) (a : AxisId) (motion : Int) (s : State) : Host.Outcome State Fault Refusal :=
  onTile t s fun s =>
    let tl := s.tile t
    if !(tl.ax.get a).mo.aligning then s
    else if 2 * (motion.natAbs : Int) * tl.parA a 0x04 2 > tl.parA a 0x04 1 then
      let s1 := ((s.brakeAxis t a).refuseMove t a).raise t 0x09 (leBytes 1 a.num ++ [0, 0, 0] ++ leInt 4 motion)
      if tl.door.homing.isSome then s1.modDoor t fun d => { d with homeFault := some (2, some a) } else s1
    else
      let s1 := s.modMo t a fun m => { m with aligning := false, aligned := true, elecOff := some ((s.axis t a).fb.pos, 0) }
      if (s.axis t a).mo.homeStage == some .align then (s1.modMo t a fun m => { m with move := none }).homeReference t a else s1

/-- COARSE_STEP_EDGE (R62 to R64): the level of DIR_IN and the measured period. -/
def execCoarseStepEdge (t : TileId) (a : AxisId) (dirOpen : Bool) (period : Nat) (s : State) :
    Host.Outcome State Fault Refusal :=
  onTile t s fun s => s.coarseStep t a (if dirOpen then .opening else .closing) period

end Sys2Proof.Machine
end

