-- ==== Sys2Proof/Machine/Dispatch.lean ====
section
/-!
DEFINITION. The meaning of each command, one arm for each constructor of Instr.
-/

namespace Sys2Proof.Machine

-- The effect of a command on everything but the queue.
def exec (i : Instr) (s : State) : Host.Outcome State Fault Refusal :=
  match i with
  | .doorwayEvaluation t now => Sys2Proof.Machine.execDoorwayEvaluation t now s
  | .fieldLinkDownFrame t intact => Sys2Proof.Machine.execFieldLinkDownFrame t intact s
  | .fieldLinkUpFrame t intact obs => Sys2Proof.Machine.execFieldLinkUpFrame t intact obs s
  | .fieldLinkFault t => Sys2Proof.Machine.execFieldLinkFault t s
  | .keepAliveWord t => Sys2Proof.Machine.execKeepAliveWord t s
  | .serialWatchdogExpiry t => Sys2Proof.Machine.execSerialWatchdogExpiry t s
  | .svcHeartbeat t => Sys2Proof.Machine.execSvcHeartbeat t s
  | .svcHeartbeatMissed t now => Sys2Proof.Machine.execSvcHeartbeatMissed t now s
  | .svcReturn t => Sys2Proof.Machine.execSvcReturn t s
  | .tUnlockExpiry t => Sys2Proof.Machine.execTUnlockExpiry t s
  | .tOpenMaxExpiry t => Sys2Proof.Machine.execTOpenMaxExpiry t s
  | .tWarnExpiry t => Sys2Proof.Machine.execTWarnExpiry t s
  | .tCloseMaxExpiry t => Sys2Proof.Machine.execTCloseMaxExpiry t s
  | .tLockExpiry t => Sys2Proof.Machine.execTLockExpiry t s
  | .tNudgeMaxExpiry t => Sys2Proof.Machine.execTNudgeMaxExpiry t s
  | .tOpenDwellExpiry t => Sys2Proof.Machine.execTOpenDwellExpiry t s
  | .tStepMaxExpiry t => Sys2Proof.Machine.execTStepMaxExpiry t s
  | .tRevMaxExpiry t => Sys2Proof.Machine.execTRevMaxExpiry t s
  | .tBrakeMaxExpiry t => Sys2Proof.Machine.execTBrakeMaxExpiry t s
  | .tDwellExpiry t => Sys2Proof.Machine.execTDwellExpiry t s
  | .tHomeMaxExpiry t a => Sys2Proof.Machine.execTHomeMaxExpiry t a s
  | .stakeBoundExpiry t a => Sys2Proof.Machine.execStakeBoundExpiry t a s
  | .homingRunComplete t => Sys2Proof.Machine.execHomingRunComplete t s
  | .homingMoveComplete t a => Sys2Proof.Machine.execHomingMoveComplete t a s
  | .moveComesToRest t a => Sys2Proof.Machine.execMoveComesToRest t a s
  | .currentLoopSample t a m now => Sys2Proof.Machine.execCurrentLoopSample t a m now s
  | .positionLoopSample t a => Sys2Proof.Machine.execPositionLoopSample t a s
  | .residualTrip t a => Sys2Proof.Machine.execResidualTrip t a s
  | .satTrip t a => Sys2Proof.Machine.execSatTrip t a s
  | .followingErrorTrip t a => Sys2Proof.Machine.execFollowingErrorTrip t a s
  | .tripPairLevelChange t a => Sys2Proof.Machine.execTripPairLevelChange t a s
  | .tripStopBrakeDelay t a => Sys2Proof.Machine.execTripStopBrakeDelay t a s
  | .overcurrentComparatorEdge t a => Sys2Proof.Machine.execOvercurrentComparatorEdge t a s
  | .motorBusComparatorTrip t => Sys2Proof.Machine.execMotorBusComparatorTrip t s
  | .sensitiveEdgeActive t e => Sys2Proof.Machine.execSensitiveEdgeActive t e s
  | .fabricFault t a => Sys2Proof.Machine.execFabricFault t a s
  | .proofTestResult t now => Sys2Proof.Machine.execProofTestResult t now s
  | .alignmentComplete t a motion => Sys2Proof.Machine.execAlignmentComplete t a motion s
  | .hallCodeChange t a code now => Sys2Proof.Machine.execHallCodeChange t a code now s
  | .hallInvalidTimeout t a => Sys2Proof.Machine.execHallInvalidTimeout t a s
  | .coarseStepEdge t a dirOpen period => Sys2Proof.Machine.execCoarseStepEdge t a dirOpen period s
  | .homeSwitchRawEdge t a sw level now => Sys2Proof.Machine.execHomeSwitchRawEdge t a sw level now s
  | .switchDebounceExpiry t a sw => Sys2Proof.Machine.execSwitchDebounceExpiry t a sw s
  | .switchFault t a => Sys2Proof.Machine.execSwitchFault t a s
  | .indexPulse t a => Sys2Proof.Machine.execIndexPulse t a s
  | .quadratureEdge t a e => Sys2Proof.Machine.execQuadratureEdge t a e s
  | .encoQueuedEdge t => Sys2Proof.Machine.execEncoQueuedEdge t s
  | .directionEventHoldoff t a => Sys2Proof.Machine.execDirectionEventHoldoff t a s
  | .encoderFault t a => Sys2Proof.Machine.execEncoderFault t a s
  | .lineFault t a p => Sys2Proof.Machine.execLineFault t a p s
  | .ssiWordComplete t a bits frameOk now => Sys2Proof.Machine.execSsiWordComplete t a bits frameOk now s
  | .policyBundleTakesEffect t => Sys2Proof.Machine.execPolicyBundleTakesEffect t s
  | .tileParametersTakeEffect t => Sys2Proof.Machine.execTileParametersTakeEffect t s
  | .axisParametersTakeEffect t a => Sys2Proof.Machine.execAxisParametersTakeEffect t a s
  | .obstructionAgesOut t => Sys2Proof.Machine.execObstructionAgesOut t s
  | .calibrationReady t => Sys2Proof.Machine.execCalibrationReady t s
  | .calPermitMaxExpiry t => Sys2Proof.Machine.execCalPermitMaxExpiry t s
  | .calRestExpiry t => Sys2Proof.Machine.execCalRestExpiry t s
  | .calEndMaxExpiry t => Sys2Proof.Machine.execCalEndMaxExpiry t s
  | .shadowSetInstall t => Sys2Proof.Machine.execShadowSetInstall t s
  | .selftestDwellPartStart t => Sys2Proof.Machine.execSelftestDwellPartStart t s
  | .selftestPartComplete t part r detail => Sys2Proof.Machine.execSelftestPartComplete t part r detail s
  | .stDwellMaxExpiry t => Sys2Proof.Machine.execStDwellMaxExpiry t s
  | .lsinPinEdge t ch level => Sys2Proof.Machine.execLsinPinEdge t ch level s
  | .lsOvercurrent t load => Sys2Proof.Machine.execLsOvercurrent t load s
  | .inrushBlankingEnd t ch => Sys2Proof.Machine.execInrushBlankingEnd t ch s
  | .lsThermalShutdown t ch => Sys2Proof.Machine.execLsThermalShutdown t ch s
  | .lsThermalRestart t ch now => Sys2Proof.Machine.execLsThermalRestart t ch now s
  | .vbatUndervoltage t vbat tripped => Sys2Proof.Machine.execVbatUndervoltage t vbat tripped s
  | .vbatRecovery level => Sys2Proof.Machine.execVbatRecovery level s
  | .groupHeatShed t => Sys2Proof.Machine.execGroupHeatShed t s
  | .groupHeatRestart t => Sys2Proof.Machine.execGroupHeatRestart t s
  | .openLoadCheckPeriod t => Sys2Proof.Machine.execOpenLoadCheckPeriod t s
  | .offStateCheckMeasure t ch highBefore highAfter => Sys2Proof.Machine.execOffStateCheckMeasure t ch highBefore highAfter s
  | .lsSenseConversion t codes => Sys2Proof.Machine.execLsSenseConversion t codes s
  | .ls0AgainstCommand t => Sys2Proof.Machine.execLs0AgainstCommand t s
  | .ioInputChange t pin level => Sys2Proof.Machine.execIoInputChange t pin level s
  | .ioDebounceExpiry t pin => Sys2Proof.Machine.execIoDebounceExpiry t pin s
  | .pairDiscrepancyTimeout t p => Sys2Proof.Machine.execPairDiscrepancyTimeout t p s
  | .outputReadbackFault t pin c => Sys2Proof.Machine.execOutputReadbackFault t pin c s
  | .outputThermalShutdown t pin => Sys2Proof.Machine.execOutputThermalShutdown t pin s
  | .tlInputChange t tl level => Sys2Proof.Machine.execTlInputChange t tl level s
  | .tlDebounceExpiry t tl => Sys2Proof.Machine.execTlDebounceExpiry t tl s
  | .trainLineDiscrepancy t p => Sys2Proof.Machine.execTrainLineDiscrepancy t p s
  | .testPulseStart t src => Sys2Proof.Machine.execTestPulseStart t src s
  | .testPulseEnd t src => Sys2Proof.Machine.execTestPulseEnd t src s
  | .blankingWindowClose t src => Sys2Proof.Machine.execBlankingWindowClose t src s
  | .testSourceFault t src => Sys2Proof.Machine.execTestSourceFault t src s
  | .testSourceRetry t src holds => Sys2Proof.Machine.execTestSourceRetry t src holds s
  | .vioLoss => Sys2Proof.Machine.execVioLoss s
  | .vioRecovery => Sys2Proof.Machine.execVioRecovery s
  | .sraReadbackDisagreement t => Sys2Proof.Machine.execSraReadbackDisagreement t s
  | .bitternChannelProven t ch => Sys2Proof.Machine.execBitternChannelProven t ch s
  | .bitternChannelUnproven t ch => Sys2Proof.Machine.execBitternChannelUnproven t ch s
  | .bitternPulseAgeExpiry t ch => Sys2Proof.Machine.execBitternPulseAgeExpiry t ch s
  | .bitternPeriodicCheck t oscOk configOk => Sys2Proof.Machine.execBitternPeriodicCheck t oscOk configOk s
  | .bitternReadbackFault level => Sys2Proof.Machine.execBitternReadbackFault level s
  | .bitternProofDisagreement t => Sys2Proof.Machine.execBitternProofDisagreement t s
  | .sealDebounceExpiry n level => Sys2Proof.Machine.execSealDebounceExpiry n level s
  | .resumeDebounceExpiry r level now => Sys2Proof.Machine.execResumeDebounceExpiry r level now s
  | .resumeHighTimeout r => Sys2Proof.Machine.execResumeHighTimeout r s
  | .stuckResetClear => Sys2Proof.Machine.execStuckResetClear s
  | .proofAgeExpiry t => Sys2Proof.Machine.execProofAgeExpiry t s
  | .sedgeFrameReceived t conn frame now => Sys2Proof.Machine.execSedgeFrameReceived t conn frame now s
  | .sedgeWatchdogExpiry t due => Sys2Proof.Machine.execSedgeWatchdogExpiry t due s
  | .sedgeTxPeriod t conn => Sys2Proof.Machine.execSedgeTxPeriod t conn s
  | .voterDisagreement t d now => Sys2Proof.Machine.execVoterDisagreement t d now s
  | .writeCopyTimeout t d now => Sys2Proof.Machine.execWriteCopyTimeout t d now s
  | .signatureComparisonComplete t agree now => Sys2Proof.Machine.execSignatureComparisonComplete t agree now s
  | .checkpointWrite t => Sys2Proof.Machine.execCheckpointWrite t s
  | .spareOutOfReset t => Sys2Proof.Machine.execSpareOutOfReset t s
  | .spareResetTimeout t => Sys2Proof.Machine.execSpareResetTimeout t s
  | .spareCheckpointLoaded t crcs => Sys2Proof.Machine.execSpareCheckpointLoaded t crcs s
  | .spareJoinPause t now => Sys2Proof.Machine.execSpareJoinPause t now s
  | .triadRestart t r => Sys2Proof.Machine.execTriadRestart t r s
  | .duplexLimitExpiry t => Sys2Proof.Machine.execDuplexLimitExpiry t s
  | .spareBistPeriod t => Sys2Proof.Machine.execSpareBistPeriod t s
  | .bistComplete t core pass => Sys2Proof.Machine.execBistComplete t core pass s
  | .ptpAnnounce p m => Sys2Proof.Machine.execPtpAnnounce p m s
  | .ptpSync p m => Sys2Proof.Machine.execPtpSync p m s
  | .ptpFollowUp p m => Sys2Proof.Machine.execPtpFollowUp p m s
  | .ptpDelayResp p m => Sys2Proof.Machine.execPtpDelayResp p m s
  | .ptpPdelayReq p m => Sys2Proof.Machine.execPtpPdelayReq p m s
  | .ptpPdelayResp p m => Sys2Proof.Machine.execPtpPdelayResp p m s
  | .ptpPdelayRespFollowUp p m => Sys2Proof.Machine.execPtpPdelayRespFollowUp p m s
  | .announceReceiptTimeout p => Sys2Proof.Machine.execAnnounceReceiptTimeout p s
  | .syncLossTimeout p => Sys2Proof.Machine.execSyncLossTimeout p s
  | .holdoverMaxExpiry => Sys2Proof.Machine.execHoldoverMaxExpiry s
  | .epochMarkTimer now => Sys2Proof.Machine.execEpochMarkTimer now s
  | .timerOutputEdge tpo => Sys2Proof.Machine.execTimerOutputEdge tpo s
  | .ethPhyStatusPoll p linkUp fullDuplex speed => Sys2Proof.Machine.execEthPhyStatusPoll p linkUp fullDuplex speed s
  | .ethFrameReceived p f => Sys2Proof.Machine.execEthFrameReceived p f s
  | .arpRequestReceived p sender senderIp targetIp => Sys2Proof.Machine.execArpRequestReceived p sender senderIp targetIp s
  | .arpReplyReceived p sender senderIp => Sys2Proof.Machine.execArpReplyReceived p sender senderIp s
  | .arpRetryTimeout p ip => Sys2Proof.Machine.execArpRetryTimeout p ip s
  | .arpEntryRefresh p ip => Sys2Proof.Machine.execArpEntryRefresh p ip s
  | .icmpEchoRequest p sender targetIp data now => Sys2Proof.Machine.execIcmpEchoRequest p sender targetIp data now s
  | .cwyFrameReceived p f tObs now => Sys2Proof.Machine.execCwyFrameReceived p f tObs now s
  | .slotActionPoint slot now => Sys2Proof.Machine.execSlotActionPoint slot now s
  | .slotEnd slot now => Sys2Proof.Machine.execSlotEnd slot now s
  | .nitStart a b => Sys2Proof.Machine.execNitStart a b s
  | .listenTimeout => Sys2Proof.Machine.execListenTimeout s
  | .backoffEnd => Sys2Proof.Machine.execBackoffEnd s
  | .portLos p => Sys2Proof.Machine.execPortLos p s
  | .cyclePoint k => Sys2Proof.Machine.execCyclePoint k s
  | .canFrameReceived t c f => Sys2Proof.Machine.execCanFrameReceived t c f s
  | .canBufferLockEnd t c b => Sys2Proof.Machine.execCanBufferLockEnd t c b s
  | .canArbitrationStart t c => Sys2Proof.Machine.execCanArbitrationStart t c s
  | .canTxAttemptEnd t c e err => Sys2Proof.Machine.execCanTxAttemptEnd t c e err s
  | .canBusOffRecovery t c => Sys2Proof.Machine.execCanBusOffRecovery t c s
  | .canWake t c cause => Sys2Proof.Machine.execCanWake t c cause s
  | .linSlotStart t l => Sys2Proof.Machine.execLinSlotStart t l s
  | .linResponseReceived t l r now => Sys2Proof.Machine.execLinResponseReceived t l r now s
  | .linResponseTimeout t l bytes now => Sys2Proof.Machine.execLinResponseTimeout t l bytes now s
  | .linWakePulse t l => Sys2Proof.Machine.execLinWakePulse t l s
  | .linWakeDelayEnd t l => Sys2Proof.Machine.execLinWakeDelayEnd t l s
  | .cmdqDoorbell q value => Sys2Proof.Machine.execCmdqDoorbell q value s
  | .cplDoorbell c value => Sys2Proof.Machine.execCplDoorbell c value s
  | .evtDoorbell e value => Sys2Proof.Machine.execEvtDoorbell e value s
  | .descriptorFetch q desc => Sys2Proof.Machine.execDescriptorFetch q desc s
  | .notBeforeRelease q => Sys2Proof.Machine.execNotBeforeRelease q s
  | .interruptModerationTimeout k n => Sys2Proof.Machine.execInterruptModerationTimeout k n s
  | .msixVectorUnmask v => Sys2Proof.Machine.execMsixVectorUnmask v s
  | .hello h verMin verMax hostId => Sys2Proof.Machine.execHello h verMin verMax hostId s
  | .bye h => Sys2Proof.Machine.execBye h s
  | .byeTimeout => Sys2Proof.Machine.execByeTimeout s
  | .pcieConventionalReset => Sys2Proof.Machine.execPcieConventionalReset s
  | .pcieHotReset => Sys2Proof.Machine.execPcieHotReset s
  | .functionLevelReset => Sys2Proof.Machine.execFunctionLevelReset s
  | .pcieLinkDown => Sys2Proof.Machine.execPcieLinkDown s
  | .busMasterEnableCleared => Sys2Proof.Machine.execBusMasterEnableCleared s
  | .sessEnd => Sys2Proof.Machine.execSessEnd s
  | .cmdqEnable q ctl => Sys2Proof.Machine.execCmdqEnable q ctl s
  | .cmdqDisable q => Sys2Proof.Machine.execCmdqDisable q s
  | .cplRingEnable c ctl => Sys2Proof.Machine.execCplRingEnable c ctl s
  | .cplRingDisable c => Sys2Proof.Machine.execCplRingDisable c s
  | .evtRingEnable e ctl => Sys2Proof.Machine.execEvtRingEnable e ctl s
  | .evtRingDisable e => Sys2Proof.Machine.execEvtRingDisable e s
  | .ringDisableComplete k n => Sys2Proof.Machine.execRingDisableComplete k n s
  | .ifcCtlWrite value => Sys2Proof.Machine.execIfcCtlWrite value s
  | .bwkStatusRead pkg => Sys2Proof.Machine.execBwkStatusRead pkg s
  | .registerWrite offset data => Sys2Proof.Machine.execRegisterWrite offset data s
  | .cfgWriteEntries h entries => Sys2Proof.Machine.execCfgWriteEntries h entries s
  | .cfgWriteBlock h block index data => Sys2Proof.Machine.execCfgWriteBlock h block index data s
  | .cfgReadEntries h addr selectors => Sys2Proof.Machine.execCfgReadEntries h addr selectors s
  | .cfgReadBlock h addr block index size => Sys2Proof.Machine.execCfgReadBlock h addr block index size s
  | .policyLoad h bundle => Sys2Proof.Machine.execPolicyLoad h bundle s
  | .policyActivate h => Sys2Proof.Machine.execPolicyActivate h s
  | .doorRelease h => Sys2Proof.Machine.execDoorRelease h s
  | .doorWithdraw h => Sys2Proof.Machine.execDoorWithdraw h s
  | .doorOpen h => Sys2Proof.Machine.execDoorOpen h s
  | .doorClose h => Sys2Proof.Machine.execDoorClose h s
  | .doorHold h => Sys2Proof.Machine.execDoorHold h s
  | .doorNudge h => Sys2Proof.Machine.execDoorNudge h s
  | .stepDeploy h => Sys2Proof.Machine.execStepDeploy h s
  | .stepStow h => Sys2Proof.Machine.execStepStow h s
  | .axisHome h suspectClear => Sys2Proof.Machine.execAxisHome h suspectClear s
  | .axisJog h distance => Sys2Proof.Machine.execAxisJog h distance s
  | .lswSet h mask levels => Sys2Proof.Machine.execLswSet h mask levels s
  | .lswSetClear h mask levels => Sys2Proof.Machine.execLswSetClear h mask levels s
  | .ioSet h mask levels => Sys2Proof.Machine.execIoSet h mask levels s
  | .ioSetClear h mask levels => Sys2Proof.Machine.execIoSetClear h mask levels s
  | .ioRead h addr => Sys2Proof.Machine.execIoRead h addr s
  | .calRequestFull h => Sys2Proof.Machine.execCalRequestFull h s
  | .calRequestShadow h m => Sys2Proof.Machine.execCalRequestShadow h m s
  | .calPermit h => Sys2Proof.Machine.execCalPermit h s
  | .calCancel h => Sys2Proof.Machine.execCalCancel h s
  | .calRecover h => Sys2Proof.Machine.execCalRecover h s
  | .selftestRequest h mask addr => Sys2Proof.Machine.execSelftestRequest h mask addr s
  | .soundingRead h shadow d first count addr => Sys2Proof.Machine.execSoundingRead h shadow d first count addr s
  | .soundingWrite h d first count data => Sys2Proof.Machine.execSoundingWrite h d first count data s
  | .shadowConfirmAccept h => Sys2Proof.Machine.execShadowConfirmAccept h s
  | .shadowConfirmDiscard h => Sys2Proof.Machine.execShadowConfirmDiscard h s
  | .timeStepAccept h number => Sys2Proof.Machine.execTimeStepAccept h number s
  | .timerArm h p => Sys2Proof.Machine.execTimerArm h p s
  | .timerCancel h tpo => Sys2Proof.Machine.execTimerCancel h tpo s
  | .canTx h p => Sys2Proof.Machine.execCanTx h p s
  | .canAbort h controller buffer => Sys2Proof.Machine.execCanAbort h controller buffer s
  | .linSchedLoad h master table entries => Sys2Proof.Machine.execLinSchedLoad h master table entries s
  | .linSchedLoadDataOnly h master table entries => Sys2Proof.Machine.execLinSchedLoadDataOnly h master table entries s
  | .linSchedSelect h master table => Sys2Proof.Machine.execLinSchedSelect h master table s
  | .sedgeOpen h conn addr => Sys2Proof.Machine.execSedgeOpen h conn addr s
  | .sedgeClose h conn => Sys2Proof.Machine.execSedgeClose h conn s
  | .logDrain h addr size most => Sys2Proof.Machine.execLogDrain h addr size most s
  | .logSeal h => Sys2Proof.Machine.execLogSeal h s
  | .logMark h marker => Sys2Proof.Machine.execLogMark h marker s
  | .triadStatus h addr => Sys2Proof.Machine.execTriadStatus h addr s
  | .triadReadmit h core => Sys2Proof.Machine.execTriadReadmit h core s
  | .fwStage h offset total chunk => Sys2Proof.Machine.execFwStage h offset total chunk s
  | .fwCommit h => Sys2Proof.Machine.execFwCommit h s
  | .keyRegister h key => Sys2Proof.Machine.execKeyRegister h key s
  | .attest h nonce addr => Sys2Proof.Machine.execAttest h nonce addr s
  | .eventsRecordTimeout t => Sys2Proof.Machine.execEventsRecordTimeout t s
  | .blockSignatureComplete t => Sys2Proof.Machine.execBlockSignatureComplete t s
  | .flashBlockCopyComplete t good => Sys2Proof.Machine.execFlashBlockCopyComplete t good s
  | .boardwalkLinkTrained port neighbour => Sys2Proof.Machine.execBoardwalkLinkTrained port neighbour s
  | .boardwalkTrainingRetry port => Sys2Proof.Machine.execBoardwalkTrainingRetry port s
  | .boardwalkPortDown port => Sys2Proof.Machine.execBoardwalkPortDown port s
  | .boardwalkFrameReceived port arrival => Sys2Proof.Machine.execBoardwalkFrameReceived port arrival s
  | .bwkRetransmitTimer => Sys2Proof.Machine.execBwkRetransmitTimer s
  | .forwardAckTimeout q tag => Sys2Proof.Machine.execForwardAckTimeout q tag s
  | .bwkTimingExchange port roundTrip lead => Sys2Proof.Machine.execBwkTimingExchange port roundTrip lead s
  | .powerGood straps => Sys2Proof.Machine.execPowerGood straps s
  | .powerGoodLost => Sys2Proof.Machine.execPowerGoodLost s
  | .brownOut t => Sys2Proof.Machine.execBrownOut t s
  | .vdd33Loss t => Sys2Proof.Machine.execVdd33Loss t s
  | .vpcieLoss => Sys2Proof.Machine.execVpcieLoss s
  | .vdrvLow t => Sys2Proof.Machine.execVdrvLow t s
  | .vdrvRestored t => Sys2Proof.Machine.execVdrvRestored t s
  | .vbatDomainLoss t => Sys2Proof.Machine.execVbatDomainLoss t s
  | .vbatDomainReturn t => Sys2Proof.Machine.execVbatDomainReturn t s
  | .externalReset => Sys2Proof.Machine.execExternalReset s
  | .thermalReset t hot => Sys2Proof.Machine.execThermalReset t hot s
  | .referenceLoss => Sys2Proof.Machine.execReferenceLoss s
  | .referenceReturn => Sys2Proof.Machine.execReferenceReturn s
  | .pllPcieLockLoss => Sys2Proof.Machine.execPllPcieLockLoss s
  | .logicDieResetRelease t r => Sys2Proof.Machine.execLogicDieResetRelease t r s
  | .startSupervisorTimeout t => Sys2Proof.Machine.execStartSupervisorTimeout t s
  | .pairDiscrepantClear t p => Sys2Proof.Machine.execPairDiscrepantClear t p s
  | .canReceiveError t c e => Sys2Proof.Machine.execCanReceiveError t c e s
  | .ptpDelayRequestSend p stamp => Sys2Proof.Machine.execPtpDelayRequestSend p stamp s
  | .windowRefresh => Sys2Proof.Machine.execWindowRefresh s

end Sys2Proof.Machine
end

