-- ==== Sys2Proof/Machine/Step.lean ====
section
/-!
DEFINITION. One step: the command at the front of the queue, or one tick of the time base while nothing waits; and the
placing of a command that a word spells.
-/

namespace Sys2Proof.Machine

/-- The period of the TSU's clock in ns: 250 MHz (R237). -/
def tick : Nat := 4

/-- One step. The command at the front of the queue runs with the queue's rest; on an empty queue the clocks advance by one
tick (DESIGN CHOICE, assumption 2). -/
def step (s : State) : Host.Outcome State Fault Refusal :=
  match s.pending with
  | [] => .next (s.modTime fun tb => tb.advance tick)
  | i :: rest => exec i { s with pending := rest }

/-- The state with the command that a word spells put at the front of its queue: the table gives no row bits, so no word
spells one and the state is unchanged. -/
def State.withFetchWord (s : State) (nbits w : Nat) : State :=
  match Sys2Proof.decodeTableWord nbits w with
  | some i => { s with pending := i :: s.pending }
  | none => s

end Sys2Proof.Machine
end

