-- ==== Sys2Proof/Safety.lean ====
section
/-!
DEFINITION. What a safe run means, in the terms that the statements use: the canonical form of host memory, the harmless
outputs under the fallback image, and what no command ever takes back.
-/

namespace Sys2Proof.Machine

/-- What the fallback image holds whatever else happens (R161, R186): SRA and SRB open, LS0 off, and no bridge driven. -/
def Tile.Harmless (tl : Tile) : Prop :=
  tl.field.fallback = true →
    tl.field.sra = false ∧ tl.field.srb = false ∧ (tl.field.ls[0]).isOn = false ∧
    ∀ a, (tl.ax.get a).mo.bridge ≠ Bridge.driven

/-- What a command never takes back on a tile: a registered key is never replaced (R362), the security counter never falls
(R358), a programmed image slot stays programmed and there are eight (R162), the log's numbers only rise (R344), and the
harmless outputs of the fallback image (R161). -/
structure Tile.Later (a b : Tile) : Prop where
  key      : ∀ k, a.die.key = some k → b.die.key = some k
  counter  : a.die.secCounter ≤ b.die.secCounter
  images   : a.field.images <+: b.field.images
  slots    : a.field.images.length ≤ 8 → b.field.images.length ≤ 8
  seq      : a.peat.nextSeq ≤ b.peat.nextSeq
  harmless : a.Harmless → b.Harmless

/-- What a command never takes back on the block: the part and its serial number (R1, R356) stand, the queue is not its to
touch, the package's count of time never goes back (R237), host memory keeps its canonical form, and what has left a port has
left it. -/
structure State.Later (s s' : State) : Prop where
  part    : s'.part = s.part
  serial  : s'.head.serial = s.head.serial
  pending : s'.pending = s.pending
  clock   : s.now ≤ s'.now
  mem     : Memory.wf s.hostMem = true → Memory.wf s'.hostMem = true
  outs    : ∃ l, s'.out = l ++ s.out
  tiles   : ∀ t, Tile.Later (s.tile t) (s'.tile t)

/-- The same of an outcome: it holds of the next state, when there is one. -/
def OutcomeLater (s : State) (o : Host.Outcome State Fault Refusal) : Prop := ∀ s', o = .next s' → State.Later s s'

/-- A tile after something was told: only its log and the commands in its mailbox may differ (a log record is written, a
host reset empties the mailbox). -/
def Tile.Told (a b : Tile) : Prop := b = { a with peat := b.peat, door := { a.door with mailbox := b.door.mailbox } }

/-- The frame of telling (events, log records, completions, host resets): what differs is the host interface, the queues of
the log, the frames kept for Boardwalk, host memory, the ports, the logs and the mailboxes; all else stands. -/
structure State.Told (s s' : State) : Prop where
  part    : s'.part = s.part
  windows : s'.windows = s.windows
  supply  : s'.powerGood = s.powerGood ∧ s'.refOk = s.refOk
  draws   : s'.freeCtr = s.freeCtr
  pending : s'.pending = s.pending
  head    : s'.head = { s.head with
    host := s'.head.host, sectors := s'.head.sectors, signQueue := s'.head.signQueue, drainQueue := s'.head.drainQueue
    logHigh := s'.head.logHigh, board := { s.head.board with keep := s'.head.board.keep } }
  tiles   : ∀ t, Tile.Told (s.tile t) (s'.tile t)

/-- A host command that can act: its tile is there, its descriptor is outstanding and released, its turn has come, and the service cores of
the head and of the tile are present (R27, R305, R307, R309, R316). -/
def State.Due (s : State) (h : HostCmd) (op : Nat) : Prop :=
  s.hasTile h.tile = true ∧ (∃ o, s.findOut h op = some o ∧ o.waiting = false ∧ s.outOfTurn h.tile o = false) ∧
    (s.tile .t0).die.svc = true ∧ (s.tile h.tile).die.svc = true

/-- Beside telling (State.Told), only the field die of one tile differs. -/
def State.OnlyField (s s' : State) (t : TileId) : Prop := State.Told (s.modField t fun _ => (s'.tile t).field) s'

/-- Beside telling (State.Told), only one tile differs. -/
def State.OnlyTile (s s' : State) (t : TileId) : Prop := State.Told (s.modTile t fun _ => s'.tile t) s'

/-- Every load-switch channel stands as the first row of R152 that holds gives it. -/
def Tile.LsSettled (tl : Tile) : Prop := ∀ ch : Fin 10, (tl.field.ls[ch]).isOn = tl.lsOn ch

/-- Every pair's status is the first row of R175 that holds. -/
def Tile.PairsSettled (tl : Tile) : Prop := ∀ p : PairId, (tl.field.pair p).status = tl.pairStatus p

/-- The position of an axis is lost for a cause of R89 (R89, R90): the axis is not referenced, the cause stands, the count
stays; a moving axis outside a homing run trips; a referenced axis tells the doorway, outside ISOLATED and FAULT_SAFE, and a homing
run fails; the other axes stand. -/
def State.LosesPosition (s s' : State) (t : TileId) (a : AxisId) (cause : Nat) : Prop :=
  let d := (s.tile t).door
  (s'.axis t a).fb.referenced = false ∧ (s'.axis t a).fb.causes.contains cause = true ∧
  (s'.axis t a).fb.pos = (s.axis t a).fb.pos ∧
  (s'.axis t a).mo.tripEngine = ((s.axis t a).mo.tripEngine || ((s.axis t a).moving && d.homing.isNone)) ∧
  ((s.axis t a).fb.referenced = true → d.homing = none → d.st ≠ .isolated → d.st ≠ .faultSafe →
    (s'.tile t).door.posLost = true) ∧
  (d.homing.isSome = true → (s'.tile t).door.homeFault = some (d.homeFault.getD (7, some a))) ∧
  (∀ b, b ≠ a → s'.axis t b = s.axis t b) ∧ (s'.tile t).field = (s.tile t).field ∧
  ∀ u, u ≠ t → Tile.Told (s.tile u) (s'.tile u)

/-- The invariant that every step keeps: the canonical form of host memory, and on every tile the harmless outputs under the
fallback image (R161) and at most eight image slots (R162). -/
def State.Inv (s : State) : Prop :=
  Memory.wf s.hostMem = true ∧ ∀ t, (s.tile t).Harmless ∧ (s.tile t).field.images.length ≤ 8

/-- The tile that a command is addressed to; none for a command of the package or its head. -/
def addressee : Sys2Proof.Instr → Option TileId
  | .doorwayEvaluation t _ => some t
  | .fieldLinkDownFrame t _ => some t
  | .fieldLinkUpFrame t _ _ => some t
  | .fieldLinkFault t => some t
  | .keepAliveWord t => some t
  | .serialWatchdogExpiry t => some t
  | .svcHeartbeat t => some t
  | .svcHeartbeatMissed t _ => some t
  | .svcReturn t => some t
  | .tUnlockExpiry t => some t
  | .tOpenMaxExpiry t => some t
  | .tWarnExpiry t => some t
  | .tCloseMaxExpiry t => some t
  | .tLockExpiry t => some t
  | .tNudgeMaxExpiry t => some t
  | .tOpenDwellExpiry t => some t
  | .tStepMaxExpiry t => some t
  | .tRevMaxExpiry t => some t
  | .tBrakeMaxExpiry t => some t
  | .tDwellExpiry t => some t
  | .tHomeMaxExpiry t _ => some t
  | .stakeBoundExpiry t _ => some t
  | .homingRunComplete t => some t
  | .homingMoveComplete t _ => some t
  | .moveComesToRest t _ => some t
  | .currentLoopSample t _ _ _ => some t
  | .positionLoopSample t _ => some t
  | .residualTrip t _ => some t
  | .satTrip t _ => some t
  | .followingErrorTrip t _ => some t
  | .tripPairLevelChange t _ => some t
  | .tripStopBrakeDelay t _ => some t
  | .overcurrentComparatorEdge t _ => some t
  | .motorBusComparatorTrip t => some t
  | .sensitiveEdgeActive t _ => some t
  | .fabricFault t _ => some t
  | .proofTestResult t _ => some t
  | .alignmentComplete t _ _ => some t
  | .hallCodeChange t _ _ _ => some t
  | .hallInvalidTimeout t _ => some t
  | .coarseStepEdge t _ _ _ => some t
  | .homeSwitchRawEdge t _ _ _ _ => some t
  | .switchDebounceExpiry t _ _ => some t
  | .switchFault t _ => some t
  | .indexPulse t _ => some t
  | .quadratureEdge t _ _ => some t
  | .encoQueuedEdge t => some t
  | .directionEventHoldoff t _ => some t
  | .encoderFault t _ => some t
  | .lineFault t _ _ => some t
  | .ssiWordComplete t _ _ _ _ => some t
  | .policyBundleTakesEffect t => some t
  | .tileParametersTakeEffect t => some t
  | .axisParametersTakeEffect t _ => some t
  | .obstructionAgesOut t => some t
  | .calibrationReady t => some t
  | .calPermitMaxExpiry t => some t
  | .calRestExpiry t => some t
  | .calEndMaxExpiry t => some t
  | .shadowSetInstall t => some t
  | .selftestDwellPartStart t => some t
  | .selftestPartComplete t _ _ _ => some t
  | .stDwellMaxExpiry t => some t
  | .lsinPinEdge t _ _ => some t
  | .lsOvercurrent t _ => some t
  | .inrushBlankingEnd t _ => some t
  | .lsThermalShutdown t _ => some t
  | .lsThermalRestart t _ _ => some t
  | .vbatUndervoltage t _ _ => some t
  | .vbatRecovery level => some level.1
  | .groupHeatShed t => some t
  | .groupHeatRestart t => some t
  | .openLoadCheckPeriod t => some t
  | .offStateCheckMeasure t _ _ _ => some t
  | .lsSenseConversion t _ => some t
  | .ls0AgainstCommand t => some t
  | .ioInputChange t _ _ => some t
  | .ioDebounceExpiry t _ => some t
  | .pairDiscrepancyTimeout t _ => some t
  | .outputReadbackFault t _ _ => some t
  | .outputThermalShutdown t _ => some t
  | .tlInputChange t _ _ => some t
  | .tlDebounceExpiry t _ => some t
  | .trainLineDiscrepancy t _ => some t
  | .testPulseStart t _ => some t
  | .testPulseEnd t _ => some t
  | .blankingWindowClose t _ => some t
  | .testSourceFault t _ => some t
  | .testSourceRetry t _ _ => some t
  | .vioLoss => none
  | .vioRecovery => none
  | .sraReadbackDisagreement t => some t
  | .bitternChannelProven t _ => some t
  | .bitternChannelUnproven t _ => some t
  | .bitternPulseAgeExpiry t _ => some t
  | .bitternPeriodicCheck t _ _ => some t
  | .bitternReadbackFault level => some level.1
  | .bitternProofDisagreement t => some t
  | .sealDebounceExpiry _ _ => none
  | .resumeDebounceExpiry _ _ _ => none
  | .resumeHighTimeout _ => none
  | .stuckResetClear => none
  | .proofAgeExpiry t => some t
  | .sedgeFrameReceived t _ _ _ => some t
  | .sedgeWatchdogExpiry t _ => some t
  | .sedgeTxPeriod t _ => some t
  | .voterDisagreement t _ _ => some t
  | .writeCopyTimeout t _ _ => some t
  | .signatureComparisonComplete t _ _ => some t
  | .checkpointWrite t => some t
  | .spareOutOfReset t => some t
  | .spareResetTimeout t => some t
  | .spareCheckpointLoaded t _ => some t
  | .spareJoinPause t _ => some t
  | .triadRestart t _ => some t
  | .duplexLimitExpiry t => some t
  | .spareBistPeriod t => some t
  | .bistComplete t _ _ => some t
  | .ptpAnnounce _ _ => none
  | .ptpSync _ _ => none
  | .ptpFollowUp _ _ => none
  | .ptpDelayResp _ _ => none
  | .ptpPdelayReq _ _ => none
  | .ptpPdelayResp _ _ => none
  | .ptpPdelayRespFollowUp _ _ => none
  | .announceReceiptTimeout _ => none
  | .syncLossTimeout _ => none
  | .holdoverMaxExpiry => none
  | .epochMarkTimer _ => none
  | .timerOutputEdge _ => none
  | .ethPhyStatusPoll _ _ _ _ => none
  | .ethFrameReceived _ _ => none
  | .arpRequestReceived _ _ _ _ => none
  | .arpReplyReceived _ _ _ => none
  | .arpRetryTimeout _ _ => none
  | .arpEntryRefresh _ _ => none
  | .icmpEchoRequest _ _ _ _ _ => none
  | .cwyFrameReceived _ _ _ _ => none
  | .slotActionPoint _ _ => none
  | .slotEnd _ _ => none
  | .nitStart _ _ => none
  | .listenTimeout => none
  | .backoffEnd => none
  | .portLos _ => none
  | .cyclePoint _ => none
  | .canFrameReceived t _ _ => some t
  | .canBufferLockEnd t _ _ => some t
  | .canArbitrationStart t _ => some t
  | .canTxAttemptEnd t _ _ _ => some t
  | .canBusOffRecovery t _ => some t
  | .canWake t _ _ => some t
  | .linSlotStart t _ => some t
  | .linResponseReceived t _ _ _ => some t
  | .linResponseTimeout t _ _ _ => some t
  | .linWakePulse t _ => some t
  | .linWakeDelayEnd t _ => some t
  | .cmdqDoorbell _ _ => none
  | .cplDoorbell _ _ => none
  | .evtDoorbell _ _ => none
  | .descriptorFetch _ _ => none
  | .notBeforeRelease _ => none
  | .interruptModerationTimeout _ _ => none
  | .msixVectorUnmask _ => none
  | .hello h _ _ _ => some h.tile
  | .bye h => some h.tile
  | .byeTimeout => none
  | .pcieConventionalReset => none
  | .pcieHotReset => none
  | .functionLevelReset => none
  | .pcieLinkDown => none
  | .busMasterEnableCleared => none
  | .sessEnd => none
  | .cmdqEnable _ _ => none
  | .cmdqDisable _ => none
  | .cplRingEnable _ _ => none
  | .cplRingDisable _ => none
  | .evtRingEnable _ _ => none
  | .evtRingDisable _ => none
  | .ringDisableComplete _ _ => none
  | .ifcCtlWrite _ => none
  | .bwkStatusRead _ => none
  | .registerWrite _ _ => none
  | .cfgWriteEntries h _ => some h.tile
  | .cfgWriteBlock h _ _ _ => some h.tile
  | .cfgReadEntries h _ _ => some h.tile
  | .cfgReadBlock h _ _ _ _ => some h.tile
  | .policyLoad h _ => some h.tile
  | .policyActivate h => some h.tile
  | .doorRelease h => some h.tile
  | .doorWithdraw h => some h.tile
  | .doorOpen h => some h.tile
  | .doorClose h => some h.tile
  | .doorHold h => some h.tile
  | .doorNudge h => some h.tile
  | .stepDeploy h => some h.tile
  | .stepStow h => some h.tile
  | .axisHome h _ => some h.tile
  | .axisJog h _ => some h.tile
  | .lswSet h _ _ => some h.tile
  | .lswSetClear h _ _ => some h.tile
  | .ioSet h _ _ => some h.tile
  | .ioSetClear h _ _ => some h.tile
  | .ioRead h _ => some h.tile
  | .calRequestFull h => some h.tile
  | .calRequestShadow h _ => some h.tile
  | .calPermit h => some h.tile
  | .calCancel h => some h.tile
  | .calRecover h => some h.tile
  | .selftestRequest h _ _ => some h.tile
  | .soundingRead h _ _ _ _ _ => some h.tile
  | .soundingWrite h _ _ _ _ => some h.tile
  | .shadowConfirmAccept h => some h.tile
  | .shadowConfirmDiscard h => some h.tile
  | .timeStepAccept h _ => some h.tile
  | .timerArm h _ => some h.tile
  | .timerCancel h _ => some h.tile
  | .canTx h _ => some h.tile
  | .canAbort h _ _ => some h.tile
  | .linSchedLoad h _ _ _ => some h.tile
  | .linSchedLoadDataOnly h _ _ _ => some h.tile
  | .linSchedSelect h _ _ => some h.tile
  | .sedgeOpen h _ _ => some h.tile
  | .sedgeClose h _ => some h.tile
  | .logDrain h _ _ _ => some h.tile
  | .logSeal h => some h.tile
  | .logMark h _ => some h.tile
  | .triadStatus h _ => some h.tile
  | .triadReadmit h _ => some h.tile
  | .fwStage h _ _ _ => some h.tile
  | .fwCommit h => some h.tile
  | .keyRegister h _ => some h.tile
  | .attest h _ _ => some h.tile
  | .eventsRecordTimeout t => some t
  | .blockSignatureComplete t => some t
  | .flashBlockCopyComplete t _ => some t
  | .boardwalkLinkTrained _ _ => none
  | .boardwalkTrainingRetry _ => none
  | .boardwalkPortDown _ => none
  | .boardwalkFrameReceived _ _ => none
  | .bwkRetransmitTimer => none
  | .forwardAckTimeout _ _ => none
  | .bwkTimingExchange _ _ _ => none
  | .powerGood _ => none
  | .powerGoodLost => none
  | .brownOut t => some t
  | .vdd33Loss t => some t
  | .vpcieLoss => none
  | .vdrvLow t => some t
  | .vdrvRestored t => some t
  | .vbatDomainLoss t => some t
  | .vbatDomainReturn t => some t
  | .externalReset => none
  | .thermalReset t _ => some t
  | .referenceLoss => none
  | .referenceReturn => none
  | .pllPcieLockLoss => none
  | .logicDieResetRelease t _ => some t
  | .startSupervisorTimeout t => some t
  | .pairDiscrepantClear t _ => some t
  | .canReceiveError t _ _ => some t
  | .ptpDelayRequestSend _ _ => none
  | .windowRefresh => none

end Sys2Proof.Machine
end

