-- ==== Sys2Proof/Certificates/Slice0/Obligations.lean ====
section
/-!
DEFINITION. The statements for the provers. Each says what a command does to the state, what it leaves, or what every command
keeps; the rule of the spec stands in its docstring.
-/

open Sys2Proof Sys2Proof.Machine

/-- For every command c at the front of the queue, a step answers what exec c answers on the same state with the rest of
the queue. That commands wait in one queue, first in first out, is the model's choice (assumption 6). (R325) -/
def Obligations.FrontCommandRunsWithTheRestOfTheQueue : Prop :=
  ∀ (s : State) (c : Instr) (rest : List Instr), s.pending = c :: rest → step s = exec c { s with pending := rest }

/-- With nothing waiting, a step answers a next state in which the package's local count of time is 4 ns later, and a
record clock at rate 0 has gone on by 4 ns within the span of 48 bits of seconds. In the time base only the count, the
two clocks and what is left of the ring clock's phase correction differ, in the clocks only their counts, and beside
the time base nothing. That a step on an empty queue is one tick is the model's choice (assumption 2). (R237) -/
def Obligations.EmptyQueueAdvancesTheClocksOneTick : Prop :=
  ∀ s : State, s.pending = [] → ∃ s' record ring phase, step s = .next s' ∧
    s' = s.modTime (fun tb => { tb with
      local_ := tb.local_ + 4, record := record, ring := ring, ringPhase := phase, phaseLeft := tb.phaseLeft - 4 }) ∧
    record.rate = s.head.time.record.rate ∧ ring.rate = s.head.time.ring.rate ∧
    (s.head.time.record.rate = 0 → s.head.time.record.frac < 2 ^ 40 →
      record.ns = (s.head.time.record.ns + 4) % clockSpan ∧ record.frac = s.head.time.record.frac)

/-- For every command of the table and every state: a command addressed to a tile that the part has answers a next state,
one addressed to a tile that it does not have faults with absentTile, and a command of the package answers a next
state. No operand makes a command stop. (R1) -/
def Obligations.EveryCommandAnswersUnlessItsTileIsAbsent : Prop :=
  ∀ (c : Instr) (s : State),
    match addressee c with
    | some t => if s.hasTile t then ∃ s', exec c s = .next s' else exec c s = .fault .absentTile
    | none => ∃ s', exec c s = .next s'

/-- Inv says that host memory is in its canonical form (the model's representation, assumption 3), and that on every tile
the fallback image, while it is applied, holds SRA and SRB open, LS0 off and no bridge driven, and that at most eight
image slots are programmed. From every state with Inv, reachable or not, a step that answers a next state gives one
with Inv. (R161, R162, R13) -/
def Obligations.EveryStepKeepsTheInvariant : Prop :=
  ∀ s s' : State, s.Inv → step s = .next s' → s'.Inv

/-- From every state, a step that answers a next state keeps every registered customer key of every tile as it was, never
lowers a security counter or the next log number, keeps every programmed slot of the fallback image with its value,
keeps the part and the serial number, leaves on the queue what stood behind its front, never sets time back, and adds
to what has left the ports without changing it. (R162, R344, R358, R362) -/
def Obligations.NoCommandTakesBackWhatIsOneTime : Prop :=
  ∀ s s' : State, step s = .next s' →
    (∀ t k, (s.tile t).die.key = some k → (s'.tile t).die.key = some k) ∧
    (∀ t, (s.tile t).die.secCounter ≤ (s'.tile t).die.secCounter) ∧
    (∀ t, (s.tile t).peat.nextSeq ≤ (s'.tile t).peat.nextSeq) ∧
    (∀ t, (s.tile t).field.images <+: (s'.tile t).field.images) ∧
    s'.part = s.part ∧ s'.head.serial = s.head.serial ∧ s'.pending = s.pending.tail ∧ s.now ≤ s'.now ∧
    ∃ l, s'.out = l ++ s.out

/-- At State.reset every logic die stands in reset, the fallback image is applied with SRA and SRB open and LS0 off, no
bridge is driven, no session is open, HIF_STATUS.ready is 0, host memory lists nothing and no command waits. At
State.reset host memory is canonical, every tile with the fallback image applied holds its harmless outputs, and no
image slot is programmed beyond eight. (R161, R162, R181, R186, R299, R376) -/
def Obligations.ResetLeavesEverythingHarmless : Prop :=
  ((∀ t, (State.reset.tile t).die.inReset = true ∧ (State.reset.tile t).field.fallback = true ∧
    (State.reset.tile t).field.sra = false ∧ (State.reset.tile t).field.srb = false ∧
    ((State.reset.tile t).field.ls[0]).isOn = false ∧ ∀ a, (State.reset.axis t a).mo.bridge ≠ .driven) ∧
  State.reset.head.host.sessionOpen = false ∧ State.reset.head.host.ready = false ∧ State.reset.hostMem = [] ∧
  State.reset.pending = []) ∧
  (State.reset.Inv)

/-- OVERCURRENT_COMPARATOR_EDGE, TRIP_PAIR_LEVEL_CHANGE with the pair raised and SENSITIVE_EDGE_ACTIVE complete: the trip
fabric of the axis has both paths asserted, its trip noted and its fault cleared, and the bridge is FREE with the
short brake to follow. The source, overcurrent or the edge, joins the trip of this sample on a used axis that has
something to stop, or in a state in which a trip counts at rest, and its fabric-clear is owed. A sensitive edge acts
on every axis whose edge is enabled and mapped, and on no other. All else in the state is as it was.
MOTOR_BUS_COMPARATOR_TRIP completes: the comparator is active, both paths of every used axis are asserted and its
bridge is FREE with the short brake to follow, with the source DRIVE_BUS where it has something to stop; an axis that
is not used, the rest of the field die, the doorway but for its mailbox, and every other tile but for log and mailbox
are as they were. (R54, R59, R115, R118, R121) -/
def Obligations.FabricTripsStopTheBridge : Prop :=
  (let tripped := fun (s : State) (t : TileId) (a : AxisId) (src : BitVec 16) (x : Axis) =>
    let counts := (s.tile t).used a && (x.stoppable || tripCounts (s.tile t).door.st)
    { x with
      fab := { x.fab with path1 := true, path2 := true, tripped := true, fault := false }
      mo := { x.mo with
        bridge := .free, freeDelay := true, clearOwed := x.mo.clearOwed || counts
        tripNote := if counts then some (x.noted src (s.tile t).door.st s.ts) else x.mo.tripNote } }
  (∀ (s : State) (t : TileId) (a : AxisId), s.hasTile t = true →
    exec (.overcurrentComparatorEdge t a) s = .next (s.modAxis t a fun x =>
      let y := tripped s t a srcOvercurrent x
      { y with fab := { y.fab with overcurrent := true } })) ∧
  (∀ (s : State) (t : TileId) (a : AxisId), s.hasTile t = true → (s.axis t a).pairRaised = true →
    exec (.tripPairLevelChange t a) s = .next (s.modAxis t a fun x =>
      { x with
        fab := { x.fab with path1 := true, path2 := true, tripped := true, fault := false }
        mo := { x.mo with bridge := .free, freeDelay := true } })) ∧
  (∀ (s : State) (t : TileId) (e : EdgeId), s.hasTile t = true →
    ∃ ax, exec (.sensitiveEdgeActive t e) s = .next (s.modTile t fun tl => { tl with ax := ax }) ∧
      ∀ a, ax.get a = if (s.axis t a).fab.edgeEn = true ∧ (s.tile t).edgeActs e a = true then
          tripped s t a (match e with | .edgeA => srcEdgeA | .edgeB => srcEdgeB) (s.axis t a)
        else s.axis t a)) ∧
  (∀ (s : State) (t : TileId), s.hasTile t = true →
    ∃ s', exec (.motorBusComparatorTrip t) s = .next s' ∧
      (∀ a, (s.tile t).used a = true → (s'.axis t a).fab.path1 = true ∧ (s'.axis t a).fab.path2 = true ∧
        (s'.axis t a).mo.bridge = .free ∧ (s'.axis t a).mo.freeDelay = true ∧ (s'.axis t a).fb = (s.axis t a).fb ∧
        ((s.axis t a).stoppable = true → ∃ n, (s'.axis t a).mo.tripNote = some n ∧ n.sources &&& srcDriveBus ≠ 0)) ∧
      (∀ a, (s.tile t).used a = false → s'.axis t a = s.axis t a) ∧
      (s'.tile t).field = { (s.tile t).field with busComp := true } ∧ (s'.tile t).triad = (s.tile t).triad ∧
      (s'.tile t).door = { (s.tile t).door with mailbox := (s'.tile t).door.mailbox } ∧
      (∀ u, u ≠ t → Tile.Told (s.tile u) (s'.tile u)) ∧ s'.head.time = s.head.time)

/-- RESIDUAL_TRIP and SAT_TRIP on an axis that moves in a pass with a driven bridge and enough samples above the envelope
or at the clamp, and FOLLOWING_ERROR_TRIP once the error has exceeded fe_max for longer than fe_time, raise the
engine's side of the trip pair, add their source to the trip of the sample and owe its fabric-clear, and nothing else;
on axis C while it deploys with contact in its zone the first two make a controlled stop instead and note the source
it replaces. TRIP_STOP_BRAKE_DELAY turns a waiting bridge to BRAKE. FABRIC_FAULT on a fabric with no trip and no input
is noted in the fabric. (R55, R59, R110, R111, R120, R127) -/
def Obligations.TripsAndBrakesOfAnAxis : Prop :=
  (∀ (s : State) (t : TileId) (a : AxisId), s.hasTile t = true → (s.axis t a).moving = true → (s.axis t a).pa.active = true →
    (s.axis t a).mo.bridge = .driven → (a ≠ .C ∨ (s.tile t).par 0x82 11 (s.axis t a).mo.zone.val ≠ 1) →
    ((s.axis t a).mo.persist ≥ (s.tile t).parN 0x82 2 (s.axis t a).mo.zone.val →
      exec (.residualTrip t a) s = .next (s.modMo t a fun m => { m with
        tripEngine := true, clearOwed := true, tripNote := some ((s.axis t a).noted srcResidual (s.tile t).door.st s.ts) })) ∧
    ((s.axis t a).mo.satCount ≥ (s.tile t).parN 0x82 2 (s.axis t a).mo.zone.val →
      exec (.satTrip t a) s = .next (s.modMo t a fun m => { m with
        tripEngine := true, clearOwed := true, tripNote := some ((s.axis t a).noted srcSat (s.tile t).door.st s.ts) }))) ∧
  (∀ (s : State) (t : TileId) (v : Move), s.hasTile t = true → (s.axis t .C).mo.move = some v → v.dir = .opening →
    (s.axis t .C).pa.active = true → (s.axis t .C).mo.bridge = .driven → (s.axis t .C).mo.contact = none →
    (s.tile t).par 0x82 11 (s.axis t .C).mo.zone.val = 1 →
    ((s.axis t .C).mo.persist ≥ (s.tile t).parN 0x82 2 (s.axis t .C).mo.zone.val →
      exec (.residualTrip t .C) s = .next ((s.stopMove t .C).modMo t .C fun m => { m with contact := some 0 })) ∧
    ((s.axis t .C).mo.satCount ≥ (s.tile t).parN 0x82 2 (s.axis t .C).mo.zone.val →
      exec (.satTrip t .C) s = .next ((s.stopMove t .C).modMo t .C fun m => { m with contact := some 1 }))) ∧
  (∀ (s : State) (t : TileId) (a : AxisId) (i : Nat), s.hasTile t = true → (s.axis t a).moving = true →
    (s.axis t a).mo.feSince = some i → s.now > i + 1000000 * (s.tile t).parAN a 0x05 6 →
    exec (.followingErrorTrip t a) s = .next (s.modMo t a fun m => { m with
      tripEngine := true, clearOwed := true, tripNote := some ((s.axis t a).noted srcFollow (s.tile t).door.st s.ts) })) ∧
  (∀ (s : State) (t : TileId) (a : AxisId), s.hasTile t = true → (s.axis t a).mo.freeDelay = true →
    exec (.tripStopBrakeDelay t a) s = .next (s.modMo t a fun m => { m with freeDelay := false, bridge := .brake })) ∧
  (∀ (s : State) (t : TileId) (a : AxisId), s.hasTile t = true → (s.axis t a).fab.tripped = false →
    (s.axis t a).pairRaised = false → (s.tile t).fabInputs a = false →
    exec (.fabricFault t a) s = .next (s.modFab t a fun f => { f with fault := true }))

/-- The expiry of each running bound of the doorway (t_unlock, t_open_max, t_warn, t_close_max, t_lock, t_nudge_max,
t_open_dwell, t_step_max, t_rev_max, t_brake_max, t_dwell, the rest and the end bound of calibration) and of
t_home_max of an axis marks that bound expired and evaluates the doorway once; DOORWAY_EVALUATION brings the clocks to
its instant and evaluates once. That a bound that does not run expires nothing is the model's reading (assumption 9).
On a tile whose triad has not formed, is LOST or stands in reset, DOORWAY_EVALUATION moves the clocks and changes
nothing else, and the expiry of t_unlock is only noted. While the signatures of a pair are compared, the evaluation is
put behind the writes that the voter holds, for the commit. (R35, R38, R66, R72, R123, R125, R140, R142, R223, R224,
R230) -/
def Obligations.BoundsExpireIntoAnEvaluation : Prop :=
  (∀ (s : State) (t : TileId), s.hasTile t = true →
    (∀ now, exec (.doorwayEvaluation t now) s = .next ((s.at now).evaluate t)) ∧
    ((s.tile t).door.tUnlock.isRunning = true →
      exec (.tUnlockExpiry t) s = .next ((s.modDoor t fun d => { d with tUnlock := .expired }).evaluate t)) ∧
    ((s.tile t).door.tOpenMax.isRunning = true →
      exec (.tOpenMaxExpiry t) s = .next ((s.modDoor t fun d => { d with tOpenMax := .expired }).evaluate t)) ∧
    ((s.tile t).door.tWarn.isRunning = true →
      exec (.tWarnExpiry t) s = .next ((s.modDoor t fun d => { d with tWarn := .expired }).evaluate t)) ∧
    ((s.tile t).door.tCloseMax.isRunning = true →
      exec (.tCloseMaxExpiry t) s = .next ((s.modDoor t fun d => { d with tCloseMax := .expired }).evaluate t)) ∧
    ((s.tile t).door.tLock.isRunning = true →
      exec (.tLockExpiry t) s = .next ((s.modDoor t fun d => { d with tLock := .expired }).evaluate t)) ∧
    ((s.tile t).door.tNudgeMax.isRunning = true →
      exec (.tNudgeMaxExpiry t) s = .next ((s.modDoor t fun d => { d with tNudgeMax := .expired }).evaluate t)) ∧
    ((s.tile t).door.tOpenDwell.isRunning = true →
      exec (.tOpenDwellExpiry t) s = .next ((s.modDoor t fun d => { d with tOpenDwell := .expired }).evaluate t)) ∧
    ((s.tile t).door.tStepMax.isRunning = true →
      exec (.tStepMaxExpiry t) s = .next ((s.modDoor t fun d => { d with tStepMax := .expired }).evaluate t)) ∧
    ((s.tile t).door.tRevMax.isRunning = true →
      exec (.tRevMaxExpiry t) s = .next ((s.modDoor t fun d => { d with tRevMax := .expired }).evaluate t)) ∧
    ((s.tile t).door.tBrakeMax.isRunning = true →
      exec (.tBrakeMaxExpiry t) s = .next ((s.modDoor t fun d => { d with tBrakeMax := .expired }).evaluate t)) ∧
    ((s.tile t).door.tDwell.isRunning = true →
      exec (.tDwellExpiry t) s = .next ((s.modDoor t fun d => { d with tDwell := .expired }).evaluate t)) ∧
    ((s.tile t).door.calRest.isRunning = true →
      exec (.calRestExpiry t) s = .next ((s.modDoor t fun d => { d with calRest := .expired }).evaluate t)) ∧
    ((s.tile t).door.calEndMax.isRunning = true →
      exec (.calEndMaxExpiry t) s = .next ((s.modDoor t fun d => { d with calEndMax := .expired }).evaluate t)) ∧
    (∀ a, (s.axis t a).mo.tHomeMax.isRunning = true →
      exec (.tHomeMaxExpiry t a) s = .next ((s.modMo t a fun m => { m with tHomeMax := .expired }).evaluate t))) ∧
  (∀ (s : State) (t : TileId), s.hasTile t = true → (s.tile t).triadActs = false →
    ((s.tile t).triadRuns = false →
      (∀ now, exec (.doorwayEvaluation t now) s = .next (s.at now)) ∧
      ((s.tile t).door.tUnlock.isRunning = true →
        exec (.tUnlockExpiry t) s = .next (s.modDoor t fun d => { d with tUnlock := .expired }))) ∧
    ((s.tile t).triadRuns = true →
      (∀ now, exec (.doorwayEvaluation t now) s = .next ((s.at now).modTriad t fun tr =>
        { tr with held := tr.held ++ [.doorwayEvaluation t (s.at now).now] })) ∧
      ((s.tile t).door.tUnlock.isRunning = true →
        exec (.tUnlockExpiry t) s = .next ((s.modDoor t fun d => { d with tUnlock := .expired }).modTriad t fun tr =>
          { tr with held := tr.held ++ [.doorwayEvaluation t s.now] }))))

/-- A fault trigger is taken before all else; with none, an active isolation pair takes T33 unless the state is ISOLATED;
then a lost position, outside a homing run, ISOLATED and FAULT_SAFE, takes T39; then egress; then trips and expired
bounds; then the loss of release; then the remaining triggers; a waiting command only when nothing else applies. (R38) -/
def Obligations.EvaluationJudgesItsTriggersInOrder : Prop :=
  ∀ (s : State) (t : TileId),
    let d := (s.tile t).door
    (∀ x, s.evalFault t = some x → s.evalChoice t = x) ∧
    (s.evalFault t = none → (s.tile t).link.up.pIso = .active → d.st ≠ .isolated → s.evalChoice t = (s.by_ t .switch).isolate t) ∧
    (s.evalFault t = none → ((s.tile t).link.up.pIso ≠ .active ∨ d.st = .isolated) →
      (d.posLost = true → d.homing = none → d.st ≠ .isolated → d.st ≠ .faultSafe → s.evalChoice t = s.positionGone t) ∧
      ((d.posLost = false ∨ d.homing ≠ none ∨ d.st = .isolated ∨ d.st = .faultSafe) →
        (∀ x, s.evalEgress t = some x → s.evalChoice t = x) ∧
        (s.evalEgress t = none → (∀ x, s.evalTripOrBound t = some x → s.evalChoice t = x) ∧
          (s.evalTripOrBound t = none → (∀ x, s.evalLoss t = some x → s.evalChoice t = x) ∧
            (s.evalLoss t = none → (∀ x, s.evalOther t = some x → s.evalChoice t = x) ∧
              (s.evalOther t = none → s.evalChoice t = s.evalCommand t))))))

/-- A transition to a new state, other than one into HELD or out of HELD, leaves the doorway in that state with no bound
of R35, R72, R123 or R125 running and no axis with a stake bound. The line of LS0 goes off where OPENING is left for a
state other than UNREFERENCED, and no other line changes. The field die, the rest of the link, the triad, the motion
and count of every axis and the other tiles but for log and mailbox stand. (R35, R36, R39, R105) -/
def Obligations.TransitionEntersItsStateAndEndsItsBounds : Prop :=
  ∀ (s : State) (t : TileId) (n : Nat) (st : DoorState), (s.tile t).door.st ≠ st → (s.tile t).door.st ≠ .held →
    st ≠ .held →
    let s' := s.transition t n st
    (s'.tile t).door.st = st ∧ (s'.tile t).door.tUnlock = .idle ∧ (s'.tile t).door.tOpenMax = .idle ∧
    (s'.tile t).door.tWarn = .idle ∧ (s'.tile t).door.tCloseMax = .idle ∧ (s'.tile t).door.tLock = .idle ∧
    (s'.tile t).door.tNudgeMax = .idle ∧ (s'.tile t).door.tOpenDwell = .idle ∧ (s'.tile t).door.tStepMax = .idle ∧
    (s'.tile t).door.tRevMax = .idle ∧ (s'.tile t).door.tBrakeMax = .idle ∧ (s'.tile t).door.tDwell = .idle ∧
    (∀ a, (s'.axis t a).pa.bound = none ∧ (s'.axis t a).mo = (s.axis t a).mo ∧ (s'.axis t a).fb = (s.axis t a).fb) ∧
    (s'.tile t).field = (s.tile t).field ∧ (s'.tile t).triad = (s.tile t).triad ∧
    (s'.tile t).link = (if (s.tile t).door.st = .opening ∧ st ≠ .unreferenced then { (s.tile t).link with
      lsCmd := (s.tile t).link.lsCmd &&& ~~~(BitVec.ofNat 10 (2 ^ (s.tile t).lsRole 14)) } else (s.tile t).link) ∧
    ∀ u, u ≠ t → Tile.Told (s.tile u) (s'.tile u)

/-- With no homing run, no trip and no expired stake bound: OPENING with t_unlock expired and no egress switches LS0 off,
raises its event, takes T08 to RELEASED and brakes the bridges; NUDGING with t_nudge_max expired raises the
close-failed event with cause 2 and takes T27 to HELD under holding force; CLOSING with t_warn expired, t_close_max
and t_step_max not, takes T15, which starts the closing. With release not valid: RELEASED takes T06 to LOCKED; OPENING
or OPEN without egress takes T11, and HELD without egress takes T26, both into CLOSING, with the train line as the
commanding source. (R37, R39) -/
def Obligations.ExpiredBoundsAndLossesTakeTheirTransitions : Prop :=
  ∀ (s : State) (t : TileId),
    let tl := s.tile t
    let d := tl.door
    (d.homing = none → d.trips = [] → d.stakeExpired = [] →
      (d.st = .opening → d.tUnlock = .expired → d.egress = false →
        s.evalTripOrBound t = some ((((s.setLock t false).raise t 0x02 []).transition t 8 .released).brakeAll t)) ∧
      (d.st = .nudging → d.tNudgeMax = .expired →
        s.evalTripOrBound t = some (((s.raise t 0x04 (leBytes 1 2)).transition t 27 .held).holdAll t)) ∧
      (d.st = .closing → d.tCloseMax.isExpired = false → d.tStepMax.isExpired = false → d.tWarn = .expired →
        s.evalTripOrBound t = some (((s.transition t 15 .closing).modDoor t fun d => { d with tWarn := .idle }).startClosing t))) ∧
    (tl.releaseValid = false →
      (d.st = .released → s.evalLoss t = some ((s.by_ t .trainLine).transition t 6 .locked)) ∧
      ((d.st = .opening ∨ d.st = .openSt) → d.egress = false →
        s.evalLoss t = some (((s.by_ t .trainLine).modDoor t fun d => { d with srcClose := .trainLine }).closeDemand t 11)) ∧
      (d.st = .held → d.egress = false →
        s.evalLoss t = some (((s.by_ t .trainLine).modDoor t fun d => { d with srcClose := .trainLine }).closeDemand t 26)))

/-- After the judgement of the SRA contact in an evaluation, the command of SRA is closed exactly if the state is LOCKED,
RELEASED or UNREFERENCED outside a calibration cycle, the doorway is proven closed and locked, no safety fault is
pending, the seal matches, the proof test has passed since the first two rows came to hold, and the fallback image is
not applied. (R182) -/
def Obligations.SraIsCommandedByItsSixConditions : Prop :=
  ∀ (s : State) (t : TileId),
    let s' := s.sraEval t
    let tl := s'.tile t
    (tl.door.sraCmd = true ↔
      (tl.door.st = .locked ∨ tl.door.st = .released ∨ tl.door.st = .unreferenced) ∧ tl.door.calRunning = false ∧
      tl.leafProven = true ∧ tl.lockProven = true ∧ tl.stowProven = true ∧ s'.faults t = [] ∧ s'.sealOk = true ∧
      tl.door.proofOk = true ∧ tl.link.up.fallback = false)

/-- A due DOOR_OPEN, DOOR_CLOSE, DOOR_HOLD, DOOR_NUDGE, STEP_DEPLOY, STEP_STOW, AXIS_HOME or AXIS_JOG that is not in the
mailbox yet is put behind what waits there and the doorway is evaluated once; AXIS_JOG without an axis in its target
is one for axis A. DOOR_RELEASE and DOOR_WITHDRAW set and clear the host release while the triad acts; they complete
OK with the doorway state and the transition that one evaluation of it gives, and the doorway is evaluated after that
completion. At the head of the mailbox, DOOR_CLOSE in OPEN with no egress latched leaves CLOSING and DOOR_NUDGE
NUDGING; DOOR_HOLD in OPENING leaves HELD; STEP_DEPLOY and STEP_STOW in RELEASED with a step fitted complete OK and
then move axis C; AXIS_HOME in UNREFERENCED, closed and locked with no run, completes OK, takes T02 and starts the
run; AXIS_JOG in ISOLATED with no fault, run or fallback image completes OK and starts its move on a used unreferenced
axis. (R37, R43, R68, R73, R74, R325, R326) -/
def Obligations.DoorCommandsEnterTheMailboxAndAreEvaluated : Prop :=
  ∀ (s : State) (h : HostCmd), ((s.tile h.tile).door.mailbox.any fun m => m.1.queue == h.queue && m.1.tag == h.tag) = false →
    let post := fun (c : DoorCmd) => (s.modDoor h.tile fun d => { d with mailbox := d.mailbox ++ [(h, c)] }).evaluate h.tile
    (s.Due h 0x21 → exec (.doorOpen h) s = .next (post .openDoor)) ∧
    (s.Due h 0x22 → exec (.doorClose h) s = .next (post .closeDoor)) ∧
    (s.Due h 0x23 → exec (.doorHold h) s = .next (post .hold)) ∧
    (s.Due h 0x29 → exec (.doorNudge h) s = .next (post .nudge)) ∧
    (s.Due h 0x25 → exec (.stepDeploy h) s = .next (post .stepDeploy)) ∧
    (s.Due h 0x26 → exec (.stepStow h) s = .next (post .stepStow)) ∧
    (∀ clear, s.Due h 0x27 → exec (.axisHome h clear) s = .next (post (.axisHome clear))) ∧
    (∀ dist, s.Due h 0x28 → exec (.axisJog h dist) s = .next (post (.axisJog (h.axis.getD .A) dist))) ∧
    ((s.tile h.tile).triadActs = true →
      (s.Due h 0x20 → let s1 := s.modDoor h.tile fun d => { d with hostRelease := true, lastTrans := 0 }
        exec (.doorRelease h) s = .next ((s1.complete h 0x20 0 0
          ((s1.evaluate h.tile).doorResult h.tile ((s1.evaluate h.tile).tile h.tile).door.lastTrans)).evaluate h.tile)) ∧
      (s.Due h 0x24 → let s1 := s.modDoor h.tile fun d => { d with hostRelease := false, lastTrans := 0 }
        exec (.doorWithdraw h) s = .next ((s1.complete h 0x24 0 0
          ((s1.evaluate h.tile).doorResult h.tile ((s1.evaluate h.tile).tile h.tile).door.lastTrans)).evaluate h.tile))) ∧
    ∀ (rest : List (HostCmd × DoorCmd)), let t := h.tile
      let tl := s.tile t
      let s1 := s.modDoor t fun d => { d with mailbox := rest, by_ := .host }
      (tl.door.st = .openSt →
        (tl.door.mailbox = (h, .closeDoor) :: rest → tl.door.egress = false →
          ((s.evalCommand t).tile t).door.st = .closing ∧ ((s.evalCommand t).tile t).door.srcClose = .host) ∧
        (tl.door.mailbox = (h, .nudge) :: rest → ((s.evalCommand t).tile t).door.st = .nudging)) ∧
      (tl.door.st = .opening → tl.door.mailbox = (h, .hold) :: rest → ((s.evalCommand t).tile t).door.st = .held) ∧
      (tl.door.st = .released → tl.stepFitted = true →
        (tl.door.mailbox = (h, .stepDeploy) :: rest → s.evalCommand t =
          (s1.complete h 0x25 0 0 ((s1.stepMove t .opening).doorResult t 0)).stepMove t .opening) ∧
        (tl.door.mailbox = (h, .stepStow) :: rest → s.evalCommand t =
          (s1.complete h 0x26 0 0 ((s1.stepMove t .closing).doorResult t 0)).stepMove t .closing)) ∧
      (tl.door.st = .unreferenced → tl.door.homing = none → tl.leafProven = true → tl.lockProven = true →
        tl.door.mailbox = (h, .axisHome false) :: rest →
        let go := fun (s : State) => (s.transition t 2 .unreferenced).homeStart t false
        s.evalCommand t = go (s1.complete h 0x27 0 0 ((go s1).doorResult t 2))) ∧
      (∀ a dist, tl.door.st = .isolated → tl.door.homing = none → s.faults t = [] → tl.link.up.fallback = false → dist ≠ 0 →
        (dist.natAbs : Int) ≤ tl.par 0x11 6 → tl.used a = true → (s.axis t a).fb.referenced = false →
        tl.door.mailbox = (h, .axisJog a dist) :: rest →
        let go := fun (s : State) => s.startMove t a .jog ((s.axis t a).fb.pos + dist) .jog
        s.evalCommand t = go (s1.complete h 0x28 0 0 ((go s1).doorResult t 0)))

/-- At the head of the mailbox in RELEASED with no proof test running, DOOR_OPEN leaves OPENING with the line of LS0 on,
the SRA command open and t_unlock running when release is valid and the lock is proven, and the bridge of axis A
driven where it is at rest with no trip and the engine can drive it; without release it completes 0x11, without the
lock proof 0x10. In OPENING, OPEN and REVERSING it completes OK with nothing changed but the host side, log and
mailbox. (R39, R43, R326) -/
def Obligations.DoorOpenFromReleasedUnlocks : Prop :=
  ∀ (s : State) (t : TileId) (h : HostCmd) (rest : List (HostCmd × DoorCmd)),
    let tl := s.tile t
    let s1 := s.modDoor t fun d => { d with mailbox := rest, by_ := .host }
    tl.door.mailbox = (h, .openDoor) :: rest →
    (tl.door.st = .released → tl.door.proofRun = false → tl.releaseValid = true → tl.lockProven = true → tl.lsRole 14 < 10 →
      let s' := s.evalCommand t
      (s'.tile t).door.st = .opening ∧ (s'.tile t).door.sraCmd = false ∧ (s'.tile t).door.srcOpen = .host ∧
      (s'.tile t).door.tUnlock = .running (tl.parN 0x02 0) ∧ (s'.tile t).link.lsCmd.getLsbD (tl.lsRole 14) = true ∧
      s'.axis t .A = { (s.axis t .A) with
        pa := { (s.axis t .A).pa with bound := none, boundTime := .idle }
        mo := { (s.axis t .A).mo with bridge :=
          if (s.axis t .A).moving || (s.axis t .A).pairRaised || (s.axis t .A).fab.path1 || (s.axis t .A).fab.path2 ||
            !(tl.canHold AxisId.A) then (s.axis t .A).mo.bridge else .driven } }) ∧
    (tl.door.st = .released → tl.door.proofRun = false → tl.releaseValid = false →
      s.evalCommand t = s1.complete h 0x21 0x11 43 (s1.doorResult t 0)) ∧
    (tl.door.st = .released → tl.door.proofRun = false → tl.releaseValid = true → tl.lockProven = false →
      s.evalCommand t = s1.complete h 0x21 0x10 39 (s1.doorResult t 0)) ∧
    ((tl.door.st = .opening ∨ tl.door.st = .openSt ∨ tl.door.st = .reversing) →
      s.evalCommand t = s1.complete h 0x21 0 0 (s1.doorResult t 0) ∧ State.Told s1 (s.evalCommand t))

/-- HOMING_RUN_COMPLETE on a run that is complete evaluates the doorway. A move is at rest once its profile has ended,
outside an alignment, and its measured speed has stayed low for 10 ms; outside a homing run it is then closed by its
rest alone, and in one it goes on to the next step of its procedure; a move not at rest goes on. An expired stake
bound of an axis in OPENING is dropped with its event and handed to the doorway. While the triad acts, obstructions
outside nudge_window leave the count with their event. (R66, R105, R129, R418) -/
def Obligations.HomingRestAndTheStakeBound : Prop :=
  ∀ (s : State) (t : TileId), s.hasTile t = true →
    ((s.tile t).homeDone = true → exec (.homingRunComplete t) s = .next (s.evaluate t)) ∧
    (∀ a, s.atRest t a = true ↔ (∃ mv, (s.axis t a).mo.move = some mv ∧ mv.profileDone = true) ∧
      (s.axis t a).mo.aligning = false ∧ ∃ i, (s.axis t a).mo.slowSince = some i ∧ i + 10000000 ≤ s.now) ∧
    (∀ a, s.atRest t a = true → (s.axis t a).mo.homeStage.isSome = true →
      exec (.homingMoveComplete t a) s = .next ((s.comeToRest t a).homeRest t a)) ∧
    (∀ a mv, (s.axis t a).mo.move = some mv → mv.kind ≠ .homing → (s.axis t a).mo.homeStage = none →
      s.atRest t a = true → exec (.moveComesToRest t a) s = .next (s.comeToRest t a)) ∧
    (∀ a, s.atRest t a = false → exec (.moveComesToRest t a) s = .next s) ∧
    (∀ a p d i, (s.axis t a).pa.bound = some (p, d, i) → (s.axis t a).pa.boundTime.isRunning = true →
      (s.tile t).door.st = .opening →
      ∃ s', exec (.stakeBoundExpiry t a) s = .next s' ∧ (s'.tile t).door.stakeExpired = (s.tile t).door.stakeExpired ++ [a] ∧
        (s'.axis t a).pa = { (s.axis t a).pa with bound := none, boundTime := .idle } ∧
        (s'.axis t a).mo = (s.axis t a).mo ∧ (s'.axis t a).fb = (s.axis t a).fb ∧
        ∀ b, b ≠ a → s'.axis t b = s.axis t b) ∧
    ((s.tile t).triadActs = true →
      (s.tile t).door.obstructions.any (fun i => decide (i + (s.tile t).parN 0x83 4 * 1000000000 < s.now)) = true →
      let left := (s.tile t).door.obstructions.filter fun i => decide (s.now ≤ i + (s.tile t).parN 0x83 4 * 1000000000)
      exec (.obstructionAgesOut t) s =
        .next ((s.modDoor t fun d => { d with obstructions := left }).raise t 0x24 (leBytes 1 left.length ++ leBytes 1 1)))

/-- When the move of an axis comes to rest with no contact stop, no move remains, planned speed and acceleration are 0 and
the planned position is the measured one; after a homing, jog or calibration move a bridge that was driven goes to
BRAKE; a contact stop at rest at or beyond the least deployment (or the travel, where that is less) counts as
deployed; one short of it raises the engine's trip with the source that it replaced. The count, the fabric and every
other axis's motion stand. (R58, R97, R127, R418) -/
def Obligations.ComingToRestEndsTheMove : Prop :=
  ∀ (s : State) (t : TileId) (a : AxisId) (mv : Move), (s.axis t a).mo.move = some mv →
    let s' := s.comeToRest t a
    (s'.axis t a).mo.move = none ∧ (s'.axis t a).mo.planVel = 0 ∧ (s'.axis t a).mo.planAcc = 0 ∧
    (s'.axis t a).mo.planPos = (s.axis t a).fb.pos ∧ (s'.axis t a).mo.contact = none ∧
    ((mv.kind = .homing ∨ mv.kind = .jog ∨ mv.kind = .calibration) → (s.axis t a).mo.contact = none →
      (s.axis t a).mo.bridge = .driven → (s'.axis t a).mo.bridge = .brake) ∧
    (∀ c, (s.axis t a).mo.contact = some c →
      min ((s.tile t).par 0x83 6) ((s.tile t).travel .C) ≤ (s.axis t a).fb.pos → (s'.axis t a).mo.contactDeployed = true) ∧
    (∀ c, (s.axis t a).mo.contact = some c → (s.axis t a).fb.pos < min ((s.tile t).par 0x83 6) ((s.tile t).travel .C) →
      (s'.axis t a).mo.tripEngine = true ∧ ∃ n, (s'.axis t a).mo.tripNote = some n ∧
        n.sources &&& (if c = 0 then srcResidual else srcSat) ≠ 0) ∧
    (s'.axis t a).fb = (s.axis t a).fb ∧ (s'.axis t a).fab = (s.axis t a).fab ∧
    ∀ b, b ≠ a → (s'.axis t b).mo = (s.axis t b).mo

/-- While the triad acts, a running proof test that no self-test asked for ends with the verdict of its checks: every pair
of a used axis is released with a fabric-clear; with every check made and none failed, outside a calibration cycle,
row 5 of R182 takes the value of rows 1 and 2 and the doorway is evaluated; with a first failed check, in a state
other than ISOLATED and FAULT_SAFE, its axis and step wait for T23 and the doorway is evaluated; a check that was
never made fails. A queued FULL request under its conditions becomes ready for PERMIT with cal_permit_max running and
its event. When cal_permit_max expires the run is cancelled with cause 9. (R119, R139, R182) -/
def Obligations.ProofTestAndCalibrationReadiness : Prop :=
  ∀ (s : State) (t : TileId), s.hasTile t = true →
    (∀ now : Nat, let d := (s.tile t).door
     let s1 := (s.at now).each (s.tile t).usedAxes fun s a => s.releasePair t a
     d.proofRun = true → d.proofSelf = false → (s.tile t).triadActs = true →
      (d.proofBad = none → d.proofPhase = 5 → d.cal = .idle → exec (.proofTestResult t now) s =
        .next (((s1.modDoor t fun d => { d with proofRun := false, proofSelf := false, proofPhase := 0, proofBad := none
                                                proofOk := d.rows12, proofOld := false }).evaluate t).selftestFinish t)) ∧
      (∀ f, (d.proofBad = some f ∨ (d.proofBad = none ∧ d.proofPhase ≠ 5 ∧
            f = ((s.tile t).usedAxes.headD .A, proofStep d.proofPhase))) →
        d.st ≠ .isolated → d.st ≠ .faultSafe → exec (.proofTestResult t now) s =
        .next (((s1.modDoor t fun d => { d with proofRun := false, proofSelf := false, proofPhase := 0, proofBad := none
                                                proofFailed := some f }).evaluate t).selftestFinish t))) ∧
    ((s.tile t).triadActs = true → (s.tile t).door.cal = .queued → (s.tile t).calConditions = true →
      exec (.calibrationReady t) s =
        .next ((s.modDoor t fun d => { d with cal := .ready 0, calPermitMax := .running (1000 * (s.tile t).parN 0x0A 1) }).raise
          t 0x2C [])) ∧
    (∀ n, (s.tile t).door.cal = .ready n → (s.tile t).door.calPermitMax.isRunning = true →
      ((s.tile t).triadRuns = false ∨ (s.tile t).triadActs = true) →
      exec (.calPermitMaxExpiry t) s =
        .next ((s.modDoor t fun d => { d with cal := .idle, calPermitMax := .idle }).raise t 0x2F (leBytes 1 9)))

/-- CURRENT_LOOP_SAMPLE on a used axis completes: current, speed, motor bus and the state of the current sense are those
of the sample, the overcurrent comparator reads as fallen, and that of the motor bus too where the bus lies at or
below 160 V; the three duty words are 0 unless the bridge is driven, and neither the fabric paths nor any other axis's
measures change. On an axis that is not used nothing changes. (R16, R53, R54, R118, R132) -/
def Obligations.CurrentLoopSampleTakesItsMeasures : Prop :=
  ∀ (s : State) (t : TileId) (a : AxisId) (m : LoopSample) (now : Nat), s.hasTile t = true →
    ((s.tile t).used a = false → exec (.currentLoopSample t a m now) s = .next s) ∧
    ((s.tile t).used a = true → ∃ s', exec (.currentLoopSample t a m now) s = .next s' ∧
      (s'.axis t a).mo.iq = m.iq ∧ (s'.axis t a).mo.speed = m.speed ∧ (s'.axis t a).mo.vbus = m.vbus ∧
      (s'.axis t a).mo.senseFault = !m.senseOk ∧ (s'.axis t a).fab.overcurrent = false ∧
      (s'.tile t).field.busComp = ((s.tile t).field.busComp && decide (1600 < m.vbus)) ∧
      ((s'.axis t a).mo.bridge ≠ .driven → (s'.axis t a).mo.duty = (0, 0, 0)) ∧
      (s'.axis t a).fab.path1 = (s.axis t a).fab.path1 ∧ (s'.axis t a).fab.path2 = (s.axis t a).fab.path2 ∧
      (∀ b, b ≠ a → (s'.axis t b).mo.iq = (s.axis t b).mo.iq ∧ (s'.axis t b).mo.vbus = (s.axis t b).mo.vbus ∧
        (s'.axis t b).fab = (s.axis t b).fab) ∧
      ∀ u, u ≠ t → Tile.Told (s.tile u) (s'.tile u))

/-- POSITION_LOOP_SAMPLE of a driven move whose profile has not ended and that follows no external stream completes:
either the profile ends with planned speed and acceleration 0, or the planned acceleration is within a_max and changed
by at most the jerk of one period, and the planned speed is within the limit in force or no faster than planned or
measured before, and no further from those two than a_max over one period; the i_q reference stays within f_max / k_F
and i_max and i_d is 0, whatever the free values are (assumptions 4 and 28); the count, the fabric and the other axes
stand. A bridge driven at rest keeps i_q within the clamp of HOLD; one not driven has both references 0; an axis not
used stands. (R44, R46, R47, R53, R54) -/
def Obligations.PlannerKeepsItsLimits : Prop :=
  ∀ (s : State) (t : TileId) (a : AxisId), s.hasTile t = true →
    ((s.tile t).used a = false → exec (.positionLoopSample t a) s = .next s) ∧
    ((s.tile t).used a = true → (s.axis t a).mo.move = none →
      ((s.axis t a).mo.bridge ≠ .driven →
        exec (.positionLoopSample t a) s = .next (s.modMo t a fun m => { m with iqRef := 0, idRef := 0 })) ∧
      ((s.axis t a).mo.bridge = .driven → (s.axis t a).mo.aligning = false →
        ∃ s', exec (.positionLoopSample t a) s = .next s' ∧ (s'.axis t a).mo.idRef = 0 ∧
          (s'.axis t a).mo.iqRef.natAbs ≤ (s.tile t).iClamp a .hold)) ∧
    (∀ mv, (s.tile t).used a = true → (s.axis t a).mo.move = some mv → mv.profileDone = false →
      (s.axis t a).mo.bridge = .driven → (s.axis t a).mo.aligning = false → (s.tile t).streams a = false →
      let amax : Int := max 1 ((s.tile t).parAN a 0x03 1 mv.set.idx)
      let rate := max 1 ((s.tile t).parA a 0x05 1 / 4)
      let dj : Int := max 1 ((s.tile t).parAN a 0x03 2 mv.set.idx) / rate
      ((s.axis t a).mo.planAcc.natAbs : Int) ≤ amax →
      ∃ s' mv', exec (.positionLoopSample t a) s = .next s' ∧ (s'.axis t a).mo.move = some mv' ∧
        mv' = { mv with profileDone := mv'.profileDone, dir := mv'.dir } ∧
        (if mv'.profileDone then (s'.axis t a).mo.planAcc = 0 ∧ (s'.axis t a).mo.planVel = 0
         else
          ((s'.axis t a).mo.planAcc.natAbs : Int) ≤ amax ∧
          ((s'.axis t a).mo.planAcc - (s.axis t a).mo.planAcc).natAbs ≤ dj.toNat ∧
          (s'.axis t a).mo.planVel.natAbs ≤
            max ((s.tile t).vMax a mv.set) (max (s.axis t a).mo.planVel.natAbs (s.axis t a).mo.speed.natAbs) ∧
          min (s.axis t a).mo.planVel (s.axis t a).mo.speed - (amax / rate + 1) ≤ (s'.axis t a).mo.planVel ∧
          (s'.axis t a).mo.planVel ≤ max (s.axis t a).mo.planVel (s.axis t a).mo.speed + (amax / rate + 1)) ∧
        (s'.axis t a).mo.iqRef.natAbs ≤ (s.tile t).iClamp a mv.set ∧ (s'.axis t a).mo.idRef = 0 ∧
        (s'.axis t a).fb = (s.axis t a).fb ∧ (s'.axis t a).fab = (s.axis t a).fab ∧
        (s'.axis t a).mo.bridge = .driven ∧ ∀ b, b ≠ a → s'.axis t b = s.axis t b)

/-- ALIGNMENT_COMPLETE with motion of at most half an electrical period outside the alignment step of a homing run fixes
the alignment and the offset of the rotor at the count; with more, outside a homing run, the axis brakes, its move is
reported as refused and the alignment-failed event is raised. COARSE_STEP_EDGE on an axis that follows the stream sets
the fine steps, the period and the instant of the step; on one with external steps that does not follow, it is ignored
and counted, with its event once in a move. (R51, R63, R64) -/
def Obligations.AlignmentAndExternalSteps : Prop :=
  ∀ (s : State) (t : TileId) (a : AxisId), s.hasTile t = true →
    ((s.axis t a).mo.aligning = true → (∀ motion : Int,
      (2 * (motion.natAbs : Int) * (s.tile t).parA a 0x04 2 ≤ (s.tile t).parA a 0x04 1 →
        (s.axis t a).mo.homeStage ≠ some .align → exec (.alignmentComplete t a motion) s = .next (s.modMo t a fun m =>
          { m with aligning := false, aligned := true, elecOff := some ((s.axis t a).fb.pos, 0) })) ∧
      (2 * (motion.natAbs : Int) * (s.tile t).parA a 0x04 2 > (s.tile t).parA a 0x04 1 → (s.tile t).door.homing = none →
        exec (.alignmentComplete t a motion) s =
          .next (((s.brakeAxis t a).refuseMove t a).raise t 0x09 (leBytes 1 a.num ++ [0, 0, 0] ++ leInt 4 motion))))) ∧
    ((s.tile t).parA a 0x06 0 ≠ 0 → ∀ (up : Bool) (period : Nat),
      ((s.tile t).follows a (if up then .opening else .closing) = true →
        exec (.coarseStepEdge t a up period) s = .next (s.modMo t a fun m =>
          { m with extPending := m.extPending + (if m.extPeriod = 0 then 0 else
                     (s.tile t).extFine a ((s.tile t).parAN a 0x06 2) - (s.tile t).extFine a m.extDone)
                   extPeriod := max 1 (if period > 1000000 * (s.tile t).parAN a 0x06 3 then 1000 * (s.tile t).parAN a 0x06 4
                                       else period), extAt := s.now, extDone := 0 })) ∧
      ((s.tile t).follows a (if up then .opening else .closing) = false →
        ((s.axis t a).mo.extReported = true → exec (.coarseStepEdge t a up period) s = .next (s.modMo t a fun m =>
          { m with extIgnored := (s.axis t a).mo.extIgnored + 1, extReported := true })) ∧
        ((s.axis t a).mo.extReported = false → exec (.coarseStepEdge t a up period) s = .next ((s.modMo t a fun m =>
          { m with extIgnored := (s.axis t a).mo.extIgnored + 1, extReported := true }).raise t 0x0B
            (leBytes 1 a.num ++ [0, 0, 0] ++ leBytes 4 ((s.axis t a).mo.extIgnored + 1))))))

/-- On a used axis with quadrature, one edge moves the signed 32-bit count by one, against its sense where the axis is
inverted, and leaves the reference, the uncertainty, the motion and the other axes as they were. While u stays within
u_max, a double change leaves the count, adds one to QERR and two to u, enters the window of the last 1 000 samples
and makes the pass unclean; where it makes nine in the window the position is lost with cause 1. On an axis without
quadrature nothing changes. INDEX_PULSE on a used axis with quadrature: in the index stage of a homing run the count
becomes home_pos, u is 0 and the axis is referenced; on a referenced axis with a period the first pulse latches the
phase; later the error of the count against the phase is due in the next sample if it lies within the tolerance;
beyond it the position is lost with cause 4. (R30, R66, R78, R79, R81, R89) -/
def Obligations.QuadratureEdgesCount : Prop :=
  (∀ (s : State) (t : TileId) (a : AxisId), s.hasTile t = true → (s.tile t).used a = true →
    ((s.tile t).parA a 0x08 0 = 0 → ∀ e, exec (.quadratureEdge t a e) s = .next s) ∧
    ((s.tile t).parA a 0x08 0 ≠ 0 →
      (∀ up : Bool, ∃ s', exec (.quadratureEdge t a (if up then .up else .down)) s = .next s' ∧
        (s'.axis t a).fb.pos =
          wrap32 ((s.axis t a).fb.pos + (if up = ((s.tile t).parA a 0x08 2 != 1) then 1 else -1)) ∧
        (s'.axis t a).fb.referenced = (s.axis t a).fb.referenced ∧ (s'.axis t a).fb.u = (s.axis t a).fb.u ∧
        (s'.axis t a).mo = (s.axis t a).mo ∧ (s'.axis t a).fab = (s.axis t a).fab ∧ (s'.tile t).door = (s.tile t).door ∧
        ∀ b, b ≠ a → s'.axis t b = s.axis t b) ∧
      (∀ n : Nat, ((s.axis t a).fb.u + 2 : Nat) ≤ (s.tile t).parA a 0x08 3 →
        let recent := (s.axis t a).fb.qerrRecent n
        (recent.length ≠ 8 → exec (.quadratureEdge t a (.double n)) s = .next (s.modAxis t a fun x =>
          { x with fb := { x.fb with qerr := sat32 (x.fb.qerr + 1), qerrWindow := recent ++ [n], u := x.fb.u + 2 }
                   pa := { x.pa with clean := false } })) ∧
        (recent.length = 8 → ∃ s', exec (.quadratureEdge t a (.double n)) s = .next s' ∧ s.LosesPosition s' t a 1 ∧
          (s'.axis t a).fb.qerr = sat32 ((s.axis t a).fb.qerr + 1) ∧ (s'.axis t a).fb.qerrWindow = recent ++ [n])))) ∧
  (∀ (s : State) (t : TileId) (a : AxisId), s.hasTile t = true → (s.tile t).used a = true → (s.tile t).parA a 0x08 0 ≠ 0 →
    ((s.axis t a).mo.homeStage = some .index → ∃ s', exec (.indexPulse t a) s = .next s' ∧
      (s'.axis t a).fb.pos = wrap32 ((s.tile t).parA a 0x07 2) ∧ (s'.axis t a).fb.referenced = true ∧ (s'.axis t a).fb.u = 0 ∧
      (s'.axis t a).mo.homeStage = some .stopIndex) ∧
    ((s.axis t a).mo.homeStage ≠ some .index → (s.tile t).parA a 0x08 4 ≠ 0 → (s.axis t a).fb.referenced = true →
      ((s.axis t a).fb.indexPhase = none →
        exec (.indexPulse t a) s = .next (s.modFb t a fun f => { f with indexPhase := some f.pos })) ∧
      (∀ p, (s.axis t a).fb.indexPhase = some p →
        let e := indexError (s.axis t a).fb.pos p ((s.tile t).parA a 0x08 4)
        ((e.natAbs : Int) ≤ (s.tile t).parA a 0x08 5 → exec (.indexPulse t a) s =
          .next (s.modFb t a fun f => { f with indexErr := some e, causes := f.causes.filter (· != 4) })) ∧
        ((e.natAbs : Int) > (s.tile t).parA a 0x08 5 →
          ∃ s', exec (.indexPulse t a) s = .next s' ∧ s.LosesPosition s' t a 4))))

/-- On a used axis ENCODER_FAULT with more than 8 errors in the window, not raised yet, LINE_FAULT of a quadrature pair,
HALL_INVALID_TIMEOUT while the code is invalid, and SWITCH_FAULT with both limits active, not raised yet, complete
with the position lost for causes 1, 3, 5 and 7: the axis is not referenced, the cause stands, the count stays, a
moving axis outside a homing run has the engine's trip raised, and of a referenced axis the doorway is told, outside
ISOLATED and FAULT_SAFE; a homing run has its fault. The other axes stand. A Hall fault of a PMSM axis forbids powered
moves. (R79, R80, R82, R83, R89, R90) -/
def Obligations.FeedbackFaultsLoseThePosition : Prop :=
  ∀ (s : State) (t : TileId) (a : AxisId), s.hasTile t = true → (s.tile t).used a = true →
    ((s.tile t).parA a 0x08 0 ≠ 0 →
      ((s.axis t a).fb.encoderBad = true → (s.axis t a).fb.causes.contains 1 = false →
        ∃ s', exec (.encoderFault t a) s = .next s' ∧ s.LosesPosition s' t a 1) ∧
      (∀ p, p ≠ .qi → ∃ s', exec (.lineFault t a p) s = .next s' ∧ s.LosesPosition s' t a 3)) ∧
    ((s.tile t).parA a 0x08 6 ≠ 0 → hallPlace (s.axis t a).fb.hallCode = none →
      ∃ s', exec (.hallInvalidTimeout t a) s = .next s' ∧ s.LosesPosition s' t a 5 ∧
        ((s.tile t).motor a = 0 → (s'.axis t a).fb.hallForbid = true)) ∧
    ((s.axis t a).swActive a .limC = true → (s.axis t a).swActive a .limO = true →
      (s.axis t a).fb.causes.contains 7 = false →
      ∃ s', exec (.switchFault t a) s = .next s' ∧ s.LosesPosition s' t a 7)

/-- HALL_CODE_CHANGE on a used axis with Hall sensors: an invalid code, and the last code again, is held and nothing else
changes but the time; a new one that follows the last and lies within hall_tol of the electrical angle that the count
gives becomes the last code, and in a powered move of a PMSM axis without an offset it fixes the offset at the angle
of the edge; a skip after a skip is a Hall fault with cause 5. The place of electrical angle 0 is the model's choice
(assumption 51). HOME_SWITCH_RAW_EDGE with a new level on a used axis stores the raw level; an edge of HOME with at
most four edges in the chatter window latches the count for its direction, and a fifth marks the switch suspect.
SWITCH_DEBOUNCE_EXPIRY with a new level stores it; on HOME outside a homing run nothing else changes; LIMC becoming
active in a move towards closed raises the engine's trip with source limit, whose fabric-clear is owed. (R50, R59,
R66, R69, R82, R83) -/
def Obligations.HallCodesAreFollowed : Prop :=
  (∀ (s : State) (t : TileId) (a : AxisId) (c : BitVec 3) (now : Nat), s.hasTile t = true → (s.tile t).used a = true →
    (s.tile t).parA a 0x08 6 ≠ 0 →
    let edge := hallEdgeAngle (s.axis t a).fb.hallLast c
    (hallPlace c = none ∨ c = (s.axis t a).fb.hallLast → exec (.hallCodeChange t a c now) s = .next ((s.at now).modFb t a fun f => { f with hallCode := c })) ∧
    (hallPlace c ≠ none → c ≠ (s.axis t a).fb.hallLast → hallSkip (s.axis t a).fb.hallLast c = false →
      (∀ o, (s.axis t a).mo.elecOff = some o → (s.tile t).motor a ≠ 0 ∨
        (angleDist ((s.tile t).angleAt a o (s.axis t a).fb.pos) edge * 360 : Nat) ≤ (s.tile t).parA a 0x08 7 * 4096) →
      exec (.hallCodeChange t a c now) s = .next ((s.at now).modAxis t a fun x =>
        { x with fb := { x.fb with hallCode := c, hallLast := c, hallSkipped := false }
                 mo := if x.mo.elecOff.isNone && (s.tile t).motor a == 0 && x.mo.bridge == .driven then
                     { x.mo with elecOff := some (x.fb.pos, edge) } else x.mo })) ∧
    (hallPlace c ≠ none → hallSkip (s.axis t a).fb.hallLast c = true → (s.axis t a).fb.hallSkipped = true →
      ∃ s', exec (.hallCodeChange t a c now) s = .next s' ∧ s.LosesPosition s' t a 5)) ∧
  (∀ (s : State) (t : TileId) (a : AxisId), s.hasTile t = true → (s.tile t).used a = true →
    (∀ (level : Bool) (now : Nat),
      (swGet (s.axis t a).fb.swRaw .limC ≠ level → exec (.homeSwitchRawEdge t a .limC level now) s =
        .next ((s.at now).modFb t a fun f => { f with swRaw := swSet f.swRaw .limC level })) ∧
      (swGet (s.axis t a).fb.swRaw .limO ≠ level → exec (.homeSwitchRawEdge t a .limO level now) s =
        .next ((s.at now).modFb t a fun f => { f with swRaw := swSet f.swRaw .limO level })) ∧
      (swGet (s.axis t a).fb.swRaw .home ≠ level →
        let edges := ((s.axis t a).fb.chatter ++ [now]).filter fun i =>
          decide (now ≤ i + 8 * (s.tile t).parAN a 0x08 8 * 1000)
        let active := level == ((s.tile t).parA a 0x08 9 != 0)
        (edges.length ≤ 4 → exec (.homeSwitchRawEdge t a .home level now) s = .next ((s.at now).modFb t a fun f =>
          { f with swRaw := swSet f.swRaw .home level, latchActive := if active then f.pos else f.latchActive
                   latchInactive := if active then f.latchInactive else f.pos, chatter := edges })) ∧
        (edges.length > 4 → ∃ s', exec (.homeSwitchRawEdge t a .home level now) s = .next s' ∧
          (s'.axis t a).fb.suspect = true ∧ (s'.axis t a).fb.swRaw = swSet (s.axis t a).fb.swRaw .home level))) ∧
    (swGet (s.axis t a).fb.swLevel .home ≠ swGet (s.axis t a).fb.swRaw .home → (s.axis t a).mo.homeStage = none →
      exec (.switchDebounceExpiry t a .home) s =
        .next (s.modFb t a fun f => { f with swLevel := swSet f.swLevel .home (swGet f.swRaw .home) })) ∧
    (swGet (s.axis t a).fb.swLevel .limC ≠ swGet (s.axis t a).fb.swRaw .limC →
      swGet (s.axis t a).fb.swRaw .limC = (pGet (s.axis t a).inForce (pKey 0x08 9 0 (some a)) != 0) →
      ∀ mv, (s.axis t a).mo.move = some mv → mv.dir = .closing →
      exec (.switchDebounceExpiry t a .limC) s = .next ((s.modFb t a fun f =>
        { f with swLevel := swSet f.swLevel .limC (swGet f.swRaw .limC) }).modMo t a fun m =>
          { m with tripEngine := true, clearOwed := true, tripNote := some ((s.axis t a).noted srcLimit (s.tile t).door.st s.ts) })))

/-- SSI_WORD_COMPLETE for a word under way on an axis with an absolute sensor, outside a homing run, with no word accepted
before: passing its frame, idle, parity and error checks, on an axis without quadrature it becomes the position with u
0, dated at its latch edge; failing them it counts a discard and makes the pass unclean, and as the third in a row
loses the position with cause 6 on an axis with quadrature. The word under way is over. (R84, R86, R87, R89) -/
def Obligations.SsiWordsAreAcceptedOrDiscarded : Prop :=
  ∀ (s : State) (t : TileId) (a : AxisId) (bits : Nat) (ok : Bool) (l : Int) (now : Nat), s.hasTile t = true →
    (s.tile t).used a = true → (s.tile t).parA a 0x08 10 ≠ 0 → (s.axis t a).fb.ssiLatch = some l → (s.axis t a).fb.ssiLast = none →
    (s.axis t a).mo.homeStage = none →
    ((s.tile t).parA a 0x08 0 = 0 → ok = true → (s.axis t a).fb.ssiIdleBad = false → ((s.tile t).ssiDecode a bits).2 = true →
      ∃ s', exec (.ssiWordComplete t a bits ok now) s = .next s' ∧
        (s'.axis t a).fb.pos = wrap32 ((s.tile t).ssiDecode a bits).1 ∧ (s'.axis t a).fb.ssiLastAt = (s.axis t a).fb.ssiLatchAt ∧ (s'.axis t a).fb.ssiLast = some ((s.tile t).ssiDecode a bits).1 ∧
        (s'.axis t a).fb.u = 0 ∧ (s'.axis t a).fb.ssiRun = 0 ∧ (s'.axis t a).fb.ssiLatch = none ∧
        (s'.axis t a).fb.referenced = (s.axis t a).fb.referenced ∧ ∀ b, b ≠ a → s'.axis t b = s.axis t b) ∧
    ((s.tile t).parA a 0x08 0 ≠ 0 →
      (ok = false ∨ (s.axis t a).fb.ssiIdleBad = true ∨ ((s.tile t).ssiDecode a bits).2 = false) →
      (s.axis t a).fb.u ≤ (s.tile t).parA a 0x08 3 → (s.axis t a).fb.ssiWindow.count true < 8 →
      ∃ s', exec (.ssiWordComplete t a bits ok now) s = .next s' ∧ (s'.axis t a).fb.ssiRun = (s.axis t a).fb.ssiRun + 1 ∧
        (s'.axis t a).fb.ssiWindow = (true :: (s.axis t a).fb.ssiWindow).take 1000 ∧ (s'.axis t a).fb.ssiLatch = none ∧
        (s'.axis t a).pa.clean = false ∧ (s'.axis t a).fb.pos = (s.axis t a).fb.pos ∧
        ((s.axis t a).fb.ssiRun < 2 → (s'.axis t a).fb.referenced = (s.axis t a).fb.referenced) ∧
        ((s.axis t a).fb.ssiRun ≥ 2 → (s.axis t a).fb.causes.contains 6 = false → s.LosesPosition s' t a 6))

/-- DIRECTION_EVENT_HOLDOFF with no change pending ends the hold-off; with one pending it reports the change without a log
record and starts the next 10 ms. ENCO_QUEUED_EDGE sends the oldest queued edge: one of the two lines changes, A
leading B towards open, and the levels leave on the output. (R91, R92) -/
def Obligations.DirectionEventsAndTheDividedOutput : Prop :=
  ∀ (s : State) (t : TileId), s.hasTile t = true →
    (∀ a, (s.axis t a).fb.dirHoldoff = true →
      ((s.axis t a).fb.dirPending = false →
        exec (.directionEventHoldoff t a) s = .next (s.modFb t a fun f => { f with dirHoldoff := false })) ∧
      ((s.axis t a).fb.dirPending = true → let f := (s.axis t a).fb
        exec (.directionEventHoldoff t a) s = .next ((s.modFb t a fun f => { f with dirPending := false }).raiseAt t 0x0E f.dirTs
          (leBytes 1 a.num ++ leBytes 1 (bit f.dirFlag) ++ leBytes 2 f.dirChanges.toNat ++ leInt 4 f.dirTurn ++
            leBytes 4 f.dirTs.toNat) false))) ∧
    (∀ up rest, (s.tile t).encoQueue = up :: rest →
      let tl := s.tile t
      let a := if up then !tl.encoB else tl.encoB
      let b := if up then tl.encoA else !tl.encoA
      exec (.encoQueuedEdge t) s =
        .next ((s.modTile t fun tl => { tl with encoQueue := rest, encoA := a, encoB := b, encoAt := some s.now }).emit
          (.enco t a b)))

/-- LSIN_PIN_EDGE takes the pin's level; LS_OVERCURRENT on a channel that is on, with a current above its threshold (2.5
times in the blanking), sets its latch and turns it off, and at most the threshold does nothing. With the domain of
the switches on, LS_THERMAL_SHUTDOWN sets the thermal latch under LATCH or waits for cooling under RESTART, the
channel off; VBAT_UNDERVOLTAGE below the threshold turns every channel off and latches those on that it names;
VBAT_RECOVERY above the threshold and its hysteresis ends the undervoltage. GROUP_HEAT_SHED turns LS8 and LS9 off
until GROUP_HEAT_RESTART. After each, every channel is on exactly if R152 says so, and beside log and host side only
the field die of the tile differs. (R149, R150, R152, R153, R154, R156, R157) -/
def Obligations.LoadSwitchChannelsFollowTheirRows : Prop :=
  ∀ (s : State) (t : TileId), s.hasTile t = true →
    (∀ ch level, ∃ s', exec (.lsinPinEdge t ch level) s = .next s' ∧ s.OnlyField s' t ∧ (s'.tile t).LsSettled ∧
      ((s'.tile t).field.ls[ch]).pin = level) ∧
    (∀ ch current, ((s.tile t).field.ls[ch]).isOn = true →
      let c := (s.tile t).field.ls[ch]
      let thr := if c.blanking then c.ocThr * 5 / 2 else c.ocThr
      (current > thr → ∃ s', exec (.lsOvercurrent t (ch, current)) s = .next s' ∧ s.OnlyField s' t ∧
        (s'.tile t).LsSettled ∧ ((s'.tile t).field.ls[ch]).ocLatch = true ∧ ((s'.tile t).field.ls[ch]).isOn = false) ∧
      (current ≤ thr → exec (.lsOvercurrent t (ch, current)) s = .next s)) ∧
    ((s.tile t).field.lswUp = true →
      (∀ ch, ∃ s', exec (.lsThermalShutdown t ch) s = .next s' ∧ s.OnlyField s' t ∧ (s'.tile t).LsSettled ∧
        ((s'.tile t).field.ls[ch]).isOn = false ∧
        (if (s.tile t).par 0x0B 3 ch.val = 1 then ((s'.tile t).field.ls[ch]).thLatch = true
         else ((s'.tile t).field.ls[ch]).thDown = true)) ∧
      (∀ vbat trip, (s.tile t).field.undervolt = false → vbat < 10 * (s.tile t).parN 0x0B 6 →
        ∃ s', exec (.vbatUndervoltage t vbat trip) s = .next s' ∧ s.OnlyField s' t ∧ (s'.tile t).LsSettled ∧
          (s'.tile t).field.undervolt = true ∧ ∀ ch : Fin 10, ((s'.tile t).field.ls[ch]).isOn = false ∧
            ((s'.tile t).field.ls[ch]).ocLatch =
              (((s.tile t).field.ls[ch]).ocLatch || (trip.getLsbD ch.val && ((s.tile t).field.ls[ch]).isOn))) ∧
      ((s.tile t).field.groupHeat = false → ∃ s', exec (.groupHeatShed t) s = .next s' ∧ s.OnlyField s' t ∧
        (s'.tile t).LsSettled ∧ (s'.tile t).field.groupHeat = true ∧ ((s'.tile t).field.ls[8]).isOn = false ∧
        ((s'.tile t).field.ls[9]).isOn = false)) ∧
    (∀ vbat : Nat, (s.tile t).field.undervolt = true →
      (vbat > 10 * ((s.tile t).parN 0x0B 6 + (s.tile t).parN 0x0B 7) →
        ∃ s', exec (.vbatRecovery (t, vbat)) s = .next s' ∧ s.OnlyField s' t ∧
          (s'.tile t).LsSettled ∧ (s'.tile t).field.undervolt = false) ∧
      (vbat ≤ 10 * ((s.tile t).parN 0x0B 6 + (s.tile t).parN 0x0B 7) → exec (.vbatRecovery (t, vbat)) s = .next s)) ∧
    ((s.tile t).field.groupHeat = true → ∃ s', exec (.groupHeatRestart t) s = .next s' ∧ s.OnlyField s' t ∧
      (s'.tile t).LsSettled ∧ (s'.tile t).field.groupHeat = false)

/-- INRUSH_BLANKING_END ends the blanking of its channel alone. LS_THERMAL_RESTART ends the wait; a channel that R152 then
turns on counts a restart, and the 32nd within 60 s sets its thermal latch and leaves it off. While the triad acts,
OPEN_LOAD_CHECK_PERIOD puts the check of each PERIODIC channel into the next down-frame. OFF_STATE_CHECK_MEASURE
judges a running check: high before the pull-up is a short to VBAT, high only after it an open load.
LS_SENSE_CONVERSION with the domain on stores each code, at most 0xFFFE, and notes the current of a channel that is
off. LS0_AGAINST_COMMAND, with the lock channel showing it and the triad running, latches fault 0x0A. (R153, R154,
R158, R159, R160, R195) -/
def Obligations.LoadSwitchChecksAndSense : Prop :=
  ∀ (s : State) (t : TileId), s.hasTile t = true →
    (∀ ch, exec (.inrushBlankingEnd t ch) s = .next (s.modLs t ch fun c => { c with blanking := false })) ∧
    (∀ ch now, ((s.tile t).field.ls[ch]).thDown = true →
      let recent := ((s.tile t).field.ls[ch]).restarts.filter fun i => decide ((s.at now).now < i + 60000000000)
      let cooled := ((s.modLs t ch fun c => { c with thDown := false }).tile t).lsOn ch
      ∃ s', exec (.lsThermalRestart t ch now) s = .next s' ∧ (s.at now).OnlyField s' t ∧
        ((s'.tile t).field.ls[ch]).thDown = false ∧
        (cooled = false → ((s'.tile t).field.ls[ch]).isOn = false ∧
          ((s'.tile t).field.ls[ch]).restarts = ((s.tile t).field.ls[ch]).restarts) ∧
        (cooled = true → ((s'.tile t).field.ls[ch]).restarts = recent ++ [(s.at now).now] ∧
          ((s'.tile t).field.ls[ch]).isOn = decide (recent.length ≤ 30) ∧
          (recent.length ≥ 31 → ((s'.tile t).field.ls[ch]).thLatch = true)) ∧
        ∀ k, k ≠ ch → (s'.tile t).field.ls[k] = (s.tile t).field.ls[k]) ∧
    ((s.tile t).triadActs = true → ∃ s', exec (.openLoadCheckPeriod t) s = .next s' ∧
      s' = s.modLink t (fun l => { l with lsCheck := (s'.tile t).link.lsCheck }) ∧
      ∀ ch : Fin 10, (s'.tile t).link.lsCheck.getLsbD ch.val =
        ((s.tile t).link.lsCheck.getLsbD ch.val || decide ((s.tile t).par 0x0B 4 ch.val = 2))) ∧
    (∀ ch before after, ((s.tile t).field.ls[ch]).checking = true →
      ∃ s', exec (.offStateCheckMeasure t ch before after) s = .next s' ∧
        (s'.tile t).field.ls[ch] =
          { (s.tile t).field.ls[ch] with checking := false, openLoad := !before && after, shortVbat := before } ∧
        (∀ k, k ≠ ch → (s'.tile t).field.ls[k] = (s.tile t).field.ls[k]) ∧
        ((s.tile t).lsRole 14 ≠ ch.val → s.OnlyField s' t)) ∧
    (∀ codes : Vector Nat 10, (s.tile t).field.lswUp = true → ∃ s', exec (.lsSenseConversion t codes) s = .next s' ∧
      ∀ ch : Fin 10, (s'.tile t).field.ls[ch] =
        { (s.tile t).field.ls[ch] with code := BitVec.ofNat 16 (min codes[ch] 0xFFFE)
                                       offCurrent := !((s.tile t).field.ls[ch]).isOn && lsFlows ch (min codes[ch] 0xFFFE) }) ∧
    (lsChannels.any (s.tile t).lsAgainst = true → (s.tile t).triadRuns = true →
      ∃ s', exec (.ls0AgainstCommand t) s = .next s' ∧ (s'.tile t).door.latched.contains 0x0A = true ∧
        (s'.tile t).door.st = (s.tile t).door.st ∧ (s'.tile t).field = (s.tile t).field)

/-- A due LSW_SET while the triad acts, outside FAULT_SAFE, with reserved bits 0, without LS0 and outputs of stakes, gives
the masked lines of channels that are not on PIN their levels and completes OK with the PIN channels; in FAULT_SAFE it
completes 0x10, with LS0 0x15. With clear the next down-frame carries the clear of the masked channels, in every
state. IO_SET does the same for outputs that carry no role, and its clear for the masked pins. An output named in a
stake completes 0x15. In the hold of R223 the command waits for the commit. IO_READ writes the report of the latest
up-frame and completes OK; an error of the buffer completes 0x09. (R102, R150, R169, R197, R327, R328) -/
def Obligations.OutputCommandsOfTheHost : Prop :=
  ∀ (s : State) (h : HostCmd) (mask levels : BitVec 16),
    let t := h.tile
    let tl := s.tile t
    (s.Due h 0x30 → tl.triadActs = true → mask >>> 10 = 0 →
      (levels >>> 10 = 0 → tl.door.st ≠ .faultSafe → mask &&& tl.stakeOutputs &&& 0x3FF = 0 → mask.getLsbD 0 = false →
        let m := mask.truncate 10 &&& ~~~(BitVec.ofNat 10 (tl.lsPinMask mask))
        exec (.lswSet h mask levels) s =
          .next ((s.modLink t fun l => { l with lsCmd := (l.lsCmd &&& ~~~m) ||| (levels.truncate 10 &&& m) }).complete h 0x30 0 0
            (leBytes 2 (tl.lsPinMask mask)))) ∧
      (levels >>> 10 = 0 → tl.door.st = .faultSafe → exec (.lswSet h mask levels) s = .next (s.complete h 0x30 0x10 197)) ∧
      (levels >>> 10 = 0 → tl.door.st ≠ .faultSafe → mask &&& tl.stakeOutputs &&& 0x3FF = 0 → mask.getLsbD 0 = true →
        exec (.lswSet h mask levels) s = .next (s.complete h 0x30 0x15 327)) ∧
      (levels >>> 10 = 0 → tl.door.st ≠ .faultSafe → mask &&& tl.stakeOutputs &&& 0x3FF ≠ 0 →
        exec (.lswSet h mask levels) s = .next (s.complete h 0x30 0x15 102)) ∧
      (levels = 0 → exec (.lswSetClear h mask levels) s =
        .next ((s.modLink t fun l => { l with lsClear := l.lsClear ||| mask.truncate 10 }).complete h 0x30 0 0
          (leBytes 2 (tl.lsPinMask mask))))) ∧
    (s.Due h 0x30 → tl.triadRuns = true → tl.triad.mode = .confirm → mask >>> 10 = 0 → levels >>> 10 = 0 →
      exec (.lswSet h mask levels) s =
        .next (s.modTriad t fun tr => { tr with held := tr.held ++ [.lswSet h mask levels] })) ∧
    (s.Due h 0x31 → tl.triadActs = true →
      (tl.door.st ≠ .faultSafe → (∀ p : Fin 16, mask.getLsbD p.val = true → tl.isOut p.val = true ∧ tl.hasRole p.val = false) →
        mask &&& tl.stakeOutputs &&& 0xFC00 = 0 →
        exec (.ioSet h mask levels) s =
          .next ((s.modLink t fun l => { l with ioCmd := (l.ioCmd &&& ~~~mask) ||| (levels &&& mask) }).complete h 0x31 0 0)) ∧
      (tl.door.st = .faultSafe → exec (.ioSet h mask levels) s = .next (s.complete h 0x31 0x10 197)) ∧
      (tl.door.st ≠ .faultSafe → (∀ p : Fin 16, mask.getLsbD p.val = true → tl.isOut p.val = true ∧ tl.hasRole p.val = false) →
        mask &&& tl.stakeOutputs &&& 0xFC00 ≠ 0 → exec (.ioSet h mask levels) s = .next (s.complete h 0x31 0x15 102)) ∧
      (levels = 0 → exec (.ioSetClear h mask levels) s =
        .next ((s.modLink t fun l => { l with ioClear := l.ioClear ||| mask }).complete h 0x31 0 0))) ∧
    (s.Due h 0x32 → ∀ addr : BitVec 64,
      (h.dmaFault = false → exec (.ioRead h addr) s =
        .next ((s.dma addr.toNat (padTo 64 tl.ioReport)).complete h 0x32 0 0)) ∧
      (h.dmaFault = true → exec (.ioRead h addr) s = .next (s.complete h 0x32 0x09 0)))

/-- IO_INPUT_CHANGE stores the raw level, and notes a level that goes low in a test pulse and its return in the window.
IO_DEBOUNCE_EXPIRY on an input outside its blanking window makes the debounced level the raw one and evaluates every
pair. PAIR_DISCREPANCY_TIMEOUT of channels that differ latches the discrepancy, PAIR_DISCREPANT_CLEAR of channels that
both read inactive releases it, the status following. TL_INPUT_CHANGE and TL_DEBOUNCE_EXPIRY store a train line.
TRAIN_LINE_DISCREPANCY of channels that differ holds the pair invalid with its event. (R166, R168, R171, R175, R188) -/
def Obligations.FieldInputsPairsAndTrainLines : Prop :=
  ∀ (s : State) (t : TileId), s.hasTile t = true →
    (∀ pin level, exec (.ioInputChange t pin level) s = .next (s.modIo t pin fun p =>
      { p with raw := level
               wentLow := p.wentLow || (((s.tile t).field.tpPulse.1 || (s.tile t).field.tpPulse.2) && !level)
               returned := p.returned || (((s.tile t).field.tpWindow.1 || (s.tile t).field.tpWindow.2) && p.wentLow && level) })) ∧
    (∀ pin : Fin 16, (s.tile t).field.fioOn = true → (s.tile t).isOut pin.val = false → (s.tile t).blanked pin.val = false →
      ∃ s', exec (.ioDebounceExpiry t pin) s = .next s' ∧ s.OnlyField s' t ∧ (s'.tile t).PairsSettled ∧
        ((s'.tile t).field.io[pin]).level = ((s.tile t).field.io[pin]).raw ∧
        ∀ q, q ≠ pin → (s'.tile t).field.io[q] = (s.tile t).field.io[q]) ∧
    (∀ p, (s.tile t).pinActive ((s.tile t).pairPins p).1 ≠ (s.tile t).pinActive ((s.tile t).pairPins p).2 →
      ∃ s', exec (.pairDiscrepancyTimeout t p) s = .next s' ∧ s.OnlyField s' t ∧
        ((s'.tile t).field.pair p).discLatch = true ∧ ((s'.tile t).field.pair p).status = (s'.tile t).pairStatus p ∧
        (((s'.tile t).field.pair p).status = .fault ∨ ((s'.tile t).field.pair p).status = .discrepant)) ∧
    (∀ p, (s.tile t).pinActive ((s.tile t).pairPins p).1 = false → (s.tile t).pinActive ((s.tile t).pairPins p).2 = false →
      ∃ s', exec (.pairDiscrepantClear t p) s = .next s' ∧ s.OnlyField s' t ∧
        ((s'.tile t).field.pair p).discLatch = false ∧
        (((s'.tile t).field.pair p).status = .fault ∨ ((s'.tile t).field.pair p).status = .inactive)) ∧
    (∀ l level, exec (.tlInputChange t l level) s = .next (s.modField t fun f => { f with tlRaw := vset f.tlRaw l level })) ∧
    (∀ l, (s.tile t).field.fioOn = true → exec (.tlDebounceExpiry t l) s =
      .next (s.modField t fun f => { f with tlLevel := vset f.tlLevel l f.tlRaw[l] })) ∧
    ((s.tile t).triadRuns = true →
      ((s.tile t).tlRole 10 ≠ (s.tile t).tlRole 11 → (s.tile t).door.tlDisc.1 = false →
        exec (.trainLineDiscrepancy t .zeroSpeed) s =
          .next ((s.modDoor t fun d => { d with tlDisc := (true, d.tlDisc.2) }).raise t 0x62 (leBytes 1 0))) ∧
      ((s.tile t).tlRole 12 ≠ (s.tile t).tlRole 13 → (s.tile t).door.tlDisc.2 = false →
        exec (.trainLineDiscrepancy t .release) s =
          .next ((s.modDoor t fun d => { d with tlDisc := (d.tlDisc.1, true) }).raise t 0x62 (leBytes 1 1))))

/-- On an output each condition of OUTPUT_READBACK_FAULT that meets its commanded level sets or clears its flag, and
OUTPUT_THERMAL_SHUTDOWN its latch, with both sides of the output off. TEST_PULSE_START of a source that works opens
pulse and window and takes the levels before; TEST_PULSE_END ends the pulse. BLANKING_WINDOW_CLOSE ends the window: an
input of the source that was high before and did not go low fails its own check, NO_PULSE set at the second failure in
a row; one that did go low passes, and the fourth pass in a row clears it; an input of the other source fails and
passes in the same way where it went low and returned, with FOREIGN_PULSE. The pairs follow. TEST_SOURCE_FAULT sets
the source's fault and a retry that holds clears it. VIO_LOSS completes with VIO low and both sources at fault on
every tile of the part on which VIO stood, VIO_RECOVERY with VIO good and both sources clear on every tile on which it
was lost; the outputs drive nothing without VIO; axes, doors and links stand. (R169, R172, R173, R174, R177) -/
def Obligations.OutputReadbackAndTestPulses : Prop :=
  (∀ (s : State) (t : TileId), s.hasTile t = true →
    (∀ pin : Fin 16, (s.tile t).field.fioOn = true → (s.tile t).isOut pin.val = true →
      ((s.tile t).outLevel pin = false →
        exec (.outputReadbackFault t pin .lowReadsHigh) s = .next (s.modIo t pin fun p => { p with stuckHigh := true }) ∧
        exec (.outputReadbackFault t pin .lowSinks) s = .next (s.modIo t pin fun p => { p with mismatch := true }) ∧
        exec (.outputReadbackFault t pin .lowReadsLow) s = .next (s.modIo t pin fun p => { p with stuckHigh := false })) ∧
      ((s.tile t).outLevel pin = true →
        exec (.outputReadbackFault t pin .highReadsLow) s = .next (s.modIo t pin fun p => { p with mismatch := true })) ∧
      exec (.outputThermalShutdown t pin) s = .next (s.modIo t pin fun p => { p with thermal := true }) ∧
      ((s.modIo t pin fun p => { p with thermal := true }).tile t).ioDrive pin = none) ∧
    (∀ src, (s.tile t).field.fioOn = true → (s.tile t).field.vioOk = true → srcGet (s.tile t).field.tpFault src = false →
      ∃ s', exec (.testPulseStart t src) s = .next s' ∧ s.OnlyField s' t ∧ srcGet (s'.tile t).field.tpPulse src = true ∧
        srcGet (s'.tile t).field.tpWindow src = true ∧ ∀ p : Fin 16, (s'.tile t).field.io[p] =
          { (s.tile t).field.io[p] with before := ((s.tile t).field.io[p]).raw, wentLow := false, returned := false }) ∧
    (∀ src, exec (.testPulseEnd t src) s = .next (s.modField t fun f => { f with tpPulse := srcSet f.tpPulse src false })) ∧
    (∀ src, srcGet (s.tile t).field.tpWindow src = true → ∃ s', exec (.blankingWindowClose t src) s = .next s' ∧
      s.OnlyTile s' t ∧ (s'.tile t).PairsSettled ∧ srcGet (s'.tile t).field.tpWindow src = false ∧
      srcGet (s'.tile t).field.tpPulse src = false ∧
      ∀ p : Fin 16, ((s.tile t).field.io[p]).before = true → (s.tile t).isOut p.val = false →
        (s.tile t).par 0x0C 4 p.val = srcCode src →
        (((s.tile t).field.io[p]).wentLow = false → ((s'.tile t).field.io[p]).ownPasses = 0 ∧
          (((s.tile t).field.io[p]).ownFails ≥ 1 → ((s'.tile t).field.io[p]).noPulse = true)) ∧
        (((s.tile t).field.io[p]).wentLow = true → ((s'.tile t).field.io[p]).ownFails = 0 ∧
          (((s.tile t).field.io[p]).ownPasses ≥ 3 → ((s'.tile t).field.io[p]).noPulse = false))) ∧
    (∀ src, srcGet (s.tile t).field.tpWindow src = true → ∃ s', exec (.blankingWindowClose t src) s = .next s' ∧
      ∀ p : Fin 16, ((s.tile t).field.io[p]).before = true → (s.tile t).isOut p.val = false →
        (s.tile t).par 0x0C 4 p.val ≠ srcCode src → (s.tile t).par 0x0C 4 p.val ≠ 0 →
        (((s.tile t).field.io[p]).returned = true → ((s'.tile t).field.io[p]).othPasses = 0 ∧
          (((s.tile t).field.io[p]).othFails ≥ 1 → ((s'.tile t).field.io[p]).foreign = true)) ∧
        (((s.tile t).field.io[p]).returned = false → ((s'.tile t).field.io[p]).othFails = 0 ∧
          (((s.tile t).field.io[p]).othPasses ≥ 3 → ((s'.tile t).field.io[p]).foreign = false))) ∧
    (∀ src, (s.tile t).field.fioOn = true → ∃ s', exec (.testSourceFault t src) s = .next s' ∧ s.OnlyField s' t ∧
      (s'.tile t).PairsSettled ∧ srcGet (s'.tile t).field.tpFault src = true ∧ srcGet (s'.tile t).field.tpPulse src = false) ∧
    (∀ src, (s.tile t).field.fioOn = true → (s.tile t).field.vioOk = true → srcGet (s.tile t).field.tpFault src = true →
      ∃ s', exec (.testSourceRetry t src true) s = .next s' ∧ s.OnlyField s' t ∧ (s'.tile t).PairsSettled ∧
        srcGet (s'.tile t).field.tpFault src = false)) ∧
  (∀ s : State,
    (∃ s', exec .vioLoss s = .next s' ∧ ∀ t, s.hasTile t = true → (s.tile t).field.vioOk = true →
      (s'.tile t).field.vioOk = false ∧ (s'.tile t).field.tpFault = (true, true) ∧ (s'.tile t).PairsSettled ∧
      (∀ p, (s'.tile t).ioDrive p = none) ∧ Tile.Told { s.tile t with field := (s'.tile t).field } (s'.tile t)) ∧
    (∃ s', exec .vioRecovery s = .next s' ∧ ∀ t, s.hasTile t = true → (s.tile t).field.vioOk = false →
      (s'.tile t).field.vioOk = true ∧ (s'.tile t).field.tpFault = (false, false) ∧ (s'.tile t).PairsSettled ∧
      Tile.Told { s.tile t with field := (s'.tile t).field } (s'.tile t)))

/-- BITTERN_CHANNEL_PROVEN of a channel that reads active with its pulses in order adds its proof, and outside FAULT the
monitor is CLOSED with SRB closed exactly if all four stand and the fallback image is not applied; of another it does
nothing. BITTERN_CHANNEL_UNPROVEN of a channel that reads inactive outside its window and BITTERN_PULSE_AGE_EXPIRY
drop the proof and leave SRB open; so does a pulse of the other source that a channel follows, low and back. A
readback equal to SRB (it reads on while SRB is open) and a failed BITTERN_PERIODIC_CHECK leave FAULT with SRB open, a
good check nothing. Standing disagreements of SRA readback and of proofs are noted, a seal switch is stored, and the
proof age is. (R184, R185, R186, R187, R193, R201) -/
def Obligations.BitternMonitorHoldsSrb : Prop :=
  ∀ (s : State) (t : TileId), s.hasTile t = true →
    (∀ ch, ((s.tile t).field.bitActive ch = true → (s.tile t).field.bitPulsesOk ch s.now = true →
        ∃ s', exec (.bitternChannelProven t ch) s = .next s' ∧
        s.OnlyField s' t ∧ (s'.tile t).field.proofs = (s.tile t).field.proofs ||| BitVec.ofNat 4 (2 ^ ch.val) ∧
        ((s.tile t).field.bittern ≠ .fault →
          ((s'.tile t).field.srb = true ↔ (s'.tile t).field.proofs = 15 ∧ (s.tile t).field.fallback = false)) ∧
        ((s.tile t).field.bittern = .fault → (s'.tile t).field.bittern = .fault ∧ (s'.tile t).field.srb = false)) ∧
      ((s.tile t).field.bitActive ch = false ∨ (s.tile t).field.bitPulsesOk ch s.now = false →
        ∃ s', exec (.bitternChannelProven t ch) s = .next s' ∧ s.OnlyField s' t ∧ (s'.tile t).field = (s.tile t).field) ∧
      ((s.tile t).field.bitActive ch = false → (s.tile t).field.bitBlanked ch = false →
        ∃ s', exec (.bitternChannelUnproven t ch) s = .next s' ∧
        s.OnlyField s' t ∧ (s'.tile t).field.proofs = (s.tile t).field.proofs &&& ~~~(BitVec.ofNat 4 (2 ^ ch.val)) ∧
        (s'.tile t).field.srb = false ∧ (s'.tile t).field.bittern ≠ .closed) ∧
      (∃ s', exec (.bitternPulseAgeExpiry t ch) s = .next s' ∧
        s.OnlyField s' t ∧ (s'.tile t).field.proofs = (s.tile t).field.proofs &&& ~~~(BitVec.ofNat 4 (2 ^ ch.val)) ∧
        (s'.tile t).field.bitLow = (s.tile t).field.bitLow &&& ~~~(BitVec.ofNat 4 (2 ^ ch.val)) ∧
        (s'.tile t).field.srb = false ∧ (s'.tile t).field.bittern ≠ .closed)) ∧
    (∀ ch src, srcGet (s.tile t).field.tpWindow src = true → (s.tile t).field.bitConfig.isSome = true →
      ((s.tile t).field.pin ((s.tile t).field.bitField ch 0)).wentLow = true →
      ∃ s', exec (.blankingWindowClose t src) s = .next s' ∧
        (((s.tile t).field.bitField ch 3 : Int) = srcCode src → (s'.tile t).field.bitLow.getLsbD ch.val = true) ∧
        (((s.tile t).field.bitField ch 3 : Int) ≠ srcCode src → (s.tile t).field.bitField ch 3 ≠ 0 →
          ((s.tile t).field.pin ((s.tile t).field.bitField ch 0)).returned = true →
          (s'.tile t).field.proofs.getLsbD ch.val = false ∧ (s'.tile t).field.srb = false)) ∧
    exec (.bitternReadbackFault (t, (s.tile t).field.srb)) s =
      .next (s.modField t fun f => { f with bittern := .fault, srb := false }) ∧
    (∃ s', exec (.bitternReadbackFault (t, !(s.tile t).field.srb)) s = .next s' ∧ s.OnlyField s' t ∧
      (s'.tile t).field = (s.tile t).field) ∧
    (∀ a b, exec (.bitternPeriodicCheck t a b) s =
      .next (if a && b then s else s.modField t fun f => { f with bittern := .fault, srb := false })) ∧
    ((s.tile t).triadRuns = true →
      ((s.tile t).link.up.sraFb = (s.tile t).link.up.sra →
        exec (.sraReadbackDisagreement t) s = .next (s.modDoor t fun d => { d with sraDisagree := true })) ∧
      ((s.tile t).link.up.proofsAgree = false →
        exec (.bitternProofDisagreement t) s = .next (s.modDoor t fun d => { d with proofDisagree := true }))) ∧
    exec (.proofAgeExpiry t) s = .next (s.modDoor t fun d => { d with proofOld := true }) ∧
    ∀ (n : Fin 16) (level : Bool), exec (.sealDebounceExpiry n level) s = .next (s.modHead fun h =>
      { h with sealSw := if level then h.sealSw ||| BitVec.ofNat 16 (2 ^ n.val) else h.sealSw &&& ~~~(BitVec.ofNat 16 (2 ^ n.val)) })

/-- A first rise of a resume input that has been low for 100 ms begins an attempt; sooner it is rejected at row 1. The
second fall of an attempt, each input high for 80 ms to 3 s, delivers the edge reset: the attempt is over and the
accepted event raised; a fall out of that time rejects it at row 3. An input high for more than 3 s with no attempt is
a stuck reset; both inputs low for 1 s clear it. While stuck, a rise only sets the level. (R198, R199, R200) -/
def Obligations.EdgeResetSequence : Prop :=
  ∀ (s : State) (r : ResumeId) (now : Nat),
    let s0 := s.at now
    let me := s.head.res r
    let other := s.head.res (otherRes r)
    (me.level = false →
      (s.head.stuck = true → exec (.resumeDebounceExpiry r true now) s =
        .next (s0.modHead fun h => h.setRes r { me with level := true })) ∧
      (∀ f, s.head.stuck = false → s.head.attempt = false → me.fall = some f →
        (f + 100000000 ≤ s0.now → exec (.resumeDebounceExpiry r true now) s = .next (s0.modHead fun h =>
          { h.setRes r { me with level := true, rise := some s0.now, fell := false } with attempt := true })) ∧
        (s0.now < f + 100000000 → exec (.resumeDebounceExpiry r true now) s =
          .next (((s0.modHead fun h => h.setRes r { me with level := true }).modHead Head.endAttempt).raiseHead 0x60
            (leBytes 1 1))))) ∧
    (me.level = true → s.head.stuck = false → s.head.attempt = true → ∀ i, me.rise = some i → other.rise.isSome = true →
      ((s0.now < i + 80000000 ∨ i + 3000000000 < s0.now) →
        ∃ s', exec (.resumeDebounceExpiry r false now) s = .next s' ∧ s'.head.attempt = false ∧
          (s'.head.res r).level = false ∧ ∀ t, Tile.Told (s.tile t) (s'.tile t)) ∧
      (i + 80000000 ≤ s0.now → s0.now ≤ i + 3000000000 →
        (other.fell = false → ∃ s', exec (.resumeDebounceExpiry r false now) s = .next s' ∧ s'.head.attempt = true ∧
          (s'.head.res r).fell = true ∧ s'.tiles = s.tiles) ∧
        (other.fell = true → exec (.resumeDebounceExpiry r false now) s =
          .next ((s0.modHead fun h => h.setRes r { me with level := false, fall := some s0.now }).resetAccept)))) ∧
    (me.level = true → s.head.stuck = false → s.head.attempt = false → ∃ s', exec (.resumeHighTimeout r) s = .next s' ∧
      s'.head.stuck = true ∧ s'.head.stuckPower = false ∧ ∀ t, Tile.Told (s.tile t) (s'.tile t)) ∧
    (s.head.resA.level = false → s.head.resB.level = false →
      exec .stuckResetClear s = .next (s.modHead fun h => { h with stuck := false }))

/-- KEEP_ALIVE_WORD while it is sent and the triad acts raises the count and leaves the word, its complement and the
voter's mark for the next down-frame; in CONFIRM it is held. SERIAL_WATCHDOG_EXPIRY applies the fallback image: SRA
and SRB open, LS0 off, driven bridges in BRAKE; with the image applied it ends the run of words. A die in reset sends
and takes no frame. An intact down-frame takes a word that is the voter's, whole and 1 to 64 ahead of the last, and no
other; ends the image where it carries the release after 16 words in a row; and carries duty, PWM and edge enables,
load-switch lines, output levels, clears, checks, the step of a proof test, the part of the bittern configuration and
SRA to the field die. A damaged one loses its word and part. An intact up-frame shows upFrame of the field die: pairs,
train lines, paths, gates, currents, bus voltages and readbacks among it; a missing one is counted, from the fourth
with its instant. FIELD_LINK_FAULT after four raises every trip pair of the tile, stops the keep-alive, latches fault
0x01 and evaluates. (R16, R17, R18, R161, R163, R187) -/
def Obligations.FieldLinkKeepsTheImageAway : Prop :=
  ∀ (s : State) (t : TileId), s.hasTile t = true →
    ((s.tile t).link.keepAlive = true →
      ((s.tile t).triadActs = true → exec (.keepAliveWord t) s =
        .next ((s.modDie t fun d => { d with kaSent := true, supervisor := 0 }).modLink t fun l =>
          { l with kaCount := l.kaCount + 1, kaWord := some ⟨l.kaCount + 1, ~~~(l.kaCount + 1), true⟩ })) ∧
      ((s.tile t).triadRuns = true → (s.tile t).triad.mode = .confirm → exec (.keepAliveWord t) s =
        .next (s.modTriad t fun tr => { tr with held := tr.held ++ [.keepAliveWord t] }))) ∧
    ((s.tile t).field.fallback = false → ∃ s', exec (.serialWatchdogExpiry t) s = .next s' ∧
      (s'.tile t).field.fallback = true ∧ (s'.tile t).field.sra = false ∧ (s'.tile t).field.srb = false ∧
      ((s'.tile t).field.ls[0]).isOn = false ∧ (s'.tile t).LsSettled ∧ (s'.tile t).field.wdRun = 0 ∧
      (s'.tile t).field.wdLast = none ∧
      (∀ a, (s'.axis t a).mo.bridge = (if (s.axis t a).mo.bridge = .driven then .brake else (s.axis t a).mo.bridge) ∧
        (s'.axis t a).fb = (s.axis t a).fb) ∧ (s'.tile t).door = (s.tile t).door ∧ s'.head = s.head) ∧
    ((s.tile t).field.fallback = true → exec (.serialWatchdogExpiry t) s =
      .next (s.modField t fun f => { f with wdLast := none, wdRun := 0 })) ∧
    ((s.tile t).die.inReset = true → ∀ b c, exec (.fieldLinkDownFrame t b) s = .next s ∧
      exec (.fieldLinkUpFrame t b c) s = .next s) ∧
    ((s.tile t).die.inReset = false →
      exec (.fieldLinkDownFrame t false) s = .next (s.modLink t fun l =>
        { l with kaWord := none, cfgNext := if l.sendConfig then (l.cfgNext + 1) % 9 else 0 }) ∧
      (∃ s', exec (.fieldLinkDownFrame t true) s = .next s' ∧ s.OnlyTile s' t ∧
        let l := (s.tile t).link
        let f := match l.kaWord with
          | some w => (s.tile t).field.keepAlive w
          | none => (s.tile t).field
        (∀ w last, l.kaWord = some w → (s.tile t).field.wdLast = some last →
          (if w.voted = true ∧ w.comp = ~~~w.count ∧ 1 ≤ (w.count - last).toNat ∧ (w.count - last).toNat ≤ 64
           then f.wdLast = some w.count else f = (s.tile t).field)) ∧
        (s'.tile t).field.wdLast = f.wdLast ∧ (s'.tile t).field.wdRun = f.wdRun ∧
        (s'.tile t).field.fallback = ((s.tile t).field.fallback && !(decide (f.wdRun ≥ 16) && l.release)) ∧
        (s'.tile t).field.sra = ((s.tile t).door.sraCmd && (s.tile t).triad.mode != .lost && !(s'.tile t).field.fallback) ∧
        (s'.tile t).LsSettled ∧ (∀ a, (s'.tile t).field.duty.get a = (s.axis t a).mo.duty ∧
          (s'.tile t).field.pwm.get a = ((s.axis t a).mo.bridge == .driven)) ∧
        (∀ ch : Fin 10, ((s'.tile t).field.ls[ch]).line = l.lsCmd.getLsbD ch.val ∧
          (l.lsClear.getLsbD ch.val = true → ((s'.tile t).field.ls[ch]).ocLatch = false ∧
            ((s'.tile t).field.ls[ch]).thLatch = false) ∧
          (l.lsCheck.getLsbD ch.val = true → (s'.tile t).field.lswUp = true → ((s'.tile t).field.ls[ch]).isOn = false →
            ((s'.tile t).field.ls[ch]).checking = true)) ∧
        (∀ p : Fin 16, ((s'.tile t).field.io[p]).cmd = l.ioCmd.getLsbD p.val ∧
          (l.ioClear.getLsbD p.val = true → ((s'.tile t).field.io[p]).mismatch = false ∧
            ((s'.tile t).field.io[p]).thermal = false)) ∧
        (∀ a, (s'.axis t a).fab.edgeEn = ((s.tile t).par 0x82 5 (s.axis t a).mo.zone.val != 0 ||
          ((s.tile t).proofStepNow == 4 && (s.tile t).used a))) ∧ (s'.tile t).field.force = (s.tile t).proofStepNow ∧
        (s'.tile t).field.bitConfig = (if l.sendConfig then
          f.configPart l.cfgNext (cfgPart (s.tile t).bitternConfig l.cfgNext) else f).bitConfig ∧
        (s'.tile t).link.kaWord = none ∧ (s'.tile t).link.clear = ⟨false, false, false⟩ ∧ (s'.tile t).link.lsClear = 0 ∧
        (s'.tile t).link.ioClear = 0 ∧ (s'.tile t).link.lsCheck = 0) ∧
      (∀ obs : UpObs, ∃ s', exec (.fieldLinkUpFrame t true obs) s = .next s' ∧ (s'.tile t).link.missed = 0 ∧
        (s'.tile t).link.up = s.upFrame t obs ∧ (s'.tile t).link.up.pLeaf = (s.tile t).field.pLeaf.status ∧ (s'.tile t).link.up.pLock = (s.tile t).field.pLock.status ∧
        (s'.tile t).link.up.pEgress = (s.tile t).field.pEgress.status ∧
        (s'.tile t).link.up.pIso = (s.tile t).field.pIso.status ∧ (s'.tile t).link.up.tlLevel = (s.tile t).field.tlLevel ∧
        (s'.tile t).link.up.fallback = (s.tile t).field.fallback ∧ (s'.tile t).link.up.sra = (s.tile t).field.sra ∧
        (s'.tile t).link.up.srb = (s.tile t).field.srb ∧ (s'.tile t).link.up.sraFb = obs.sraFb ∧
        (s'.tile t).link.up.currents = obs.currents ∧ (s'.tile t).link.up.vbus = obs.vbus ∧
        (∀ a, (s'.tile t).link.up.gatesOff.get a = (obs.gatesOff.get a && (s.tile t).gateMode a == .free)) ∧ (s'.tile t).link.up.proofs = (s.tile t).field.proofs ∧
        (s'.tile t).link.up.bitConfig = (s.tile t).field.bitConfig ∧
        (∀ a, (s'.tile t).link.up.path1.get a = (s.axis t a).fab.path1 ∧
          (s'.tile t).link.up.path2.get a = (s.axis t a).fab.path2) ∧
        (s'.tile t).field = (s.tile t).field ∧ ((s.tile t).door.proofRun = false → (s'.tile t).ax = (s.tile t).ax)) ∧
      (∀ obs, exec (.fieldLinkUpFrame t false obs) s = .next (s.modLink t fun l =>
        { l with missed := l.missed + 1, faultAt := if l.missed + 1 ≥ 4 then some s.now else l.faultAt }))) ∧
    (4 ≤ (s.tile t).link.missed → (s.tile t).triadRuns = true → exec (.fieldLinkFault t) s =
      .next ((((s.each AxisId.all fun s a => s.triadTrip t a srcTriad).modLink t fun l =>
        { l with keepAlive := false, faultAt := some s.now }).latchFault t 0x01).evaluate t))

/-- SVC_HEARTBEAT clears the count of missed ones. While the triad runs, SVC_HEARTBEAT_MISSED counts; the third in a row
restarts the core, which is then absent, and after three restarts within 10 min leaves it off; the commands that stood
in it are lost and its event is raised. SVC_RETURN of a core that is restarting makes it present and, with nothing
lost, empties what the triad held into the log. (R27, R320, R352) -/
def Obligations.ServiceCoreComesAndGoes : Prop :=
  ∀ (s : State) (t : TileId), s.hasTile t = true →
    exec (.svcHeartbeat t) s = .next (s.modDie t fun d => { d with svcMissed := 0 }) ∧
    (∀ now, (s.tile t).triadRuns = true → (s.tile t).die.svcOff = false →
      ((s.tile t).die.svcMissed < 2 → exec (.svcHeartbeatMissed t now) s =
        .next ((s.at now).modDie t fun d => { d with svcMissed := d.svcMissed + 1 })) ∧
      ((s.tile t).die.svcMissed ≥ 2 →
        let recent := (s.tile t).die.svcRestarts.filter fun i => decide ((s.at now).now < i + 600000000000)
        ∃ s', exec (.svcHeartbeatMissed t now) s = .next s' ∧ (s'.tile t).die.svc = false ∧ (s'.tile t).die.svcMissed = 0 ∧
          (s'.tile t).door.mailbox = [] ∧ (s'.tile t).die.svcOff = decide (recent.length ≥ 3) ∧
          (∀ o ∈ s'.head.host.outstanding, s.standsAt t o = true → o.lost = true) ∧
          (s'.tile t).field = (s.tile t).field ∧ (s'.tile t).triad = (s.tile t).triad ∧ (s'.tile t).ax = (s.tile t).ax)) ∧
    ((s.tile t).die.svc = false → (s.tile t).die.svcOff = false → (s.tile t).die.inReset = false →
      ∃ s', exec (.svcReturn t) s = .next s' ∧ (s'.tile t).die.svc = true ∧ (s'.tile t).die.svcMissed = 0 ∧
        (s'.tile t).field = (s.tile t).field ∧ (s'.tile t).triad = (s.tile t).triad ∧ (s'.tile t).ax = (s.tile t).ax ∧
        ((s.tile t).peat.lostCount.toList.sum = 0 → (s'.tile t).peat.held = []))

/-- VOTER_DISAGREEMENT and WRITE_COPY_TIMEOUT in TRIPLEX with one core named take CONFIRM with that core fenced, one more
masked fault, and field die, link, axes and doorway state as they were. A signature comparison that agrees excludes
the fenced core, takes JOINING with a spare or DUPLEX without, then runs the held writes in their order and reports a
readmission whose BIST was aborted; one that disagrees, a disagreement in CONFIRM, JOINING or DUPLEX, and one with
differing halves or no two cores that agree, leave LOST: FAULT_SAFE with fault 0x0C latched, SRA open, the keep-alive
stopped and every trip pair raised. (R219, R222, R223, R226, R229, R230) -/
def Obligations.TriadMasksASingleFaultOrIsLost : Prop :=
  ∀ (s : State) (t : TileId), s.hasTile t = true → (s.tile t).triadRuns = true →
    let lost := fun (s' : State) => (s'.tile t).triad.mode = .lost ∧ (s'.tile t).door.st = .faultSafe ∧
      (s'.tile t).door.latched.contains 0x0C = true ∧ (s'.tile t).door.sraCmd = false ∧
      (s'.tile t).link.keepAlive = false ∧ (∀ a, (s'.axis t a).mo.tripTriad = true) ∧ (s'.tile t).field = (s.tile t).field
    (∀ (d : Disagreement) (now : Nat),
      ((s.tile t).triad.mode = .triplex → d.halvesDiffer = false → d.noTwoAgree = false →
        let masked := fun (s' : State) => (s'.tile t).triad.mode = .confirm ∧
          (s'.tile t).triad.fenced = some ((s.tile t).triad.positions[d.position]) ∧
          (s'.tile t).triad.masked = (s.tile t).triad.masked + 1 ∧ (s'.tile t).triad.roles = (s.tile t).triad.roles ∧
          (s'.tile t).field = (s.tile t).field ∧ (s'.tile t).link = (s.tile t).link ∧ (s'.tile t).ax = (s.tile t).ax ∧
          (s'.tile t).door.st = (s.tile t).door.st
        (∃ s', exec (.voterDisagreement t d now) s = .next s' ∧ masked s') ∧
        (∃ s', exec (.writeCopyTimeout t d now) s = .next s' ∧ masked s')) ∧
      (((s.tile t).triad.mode ≠ .triplex ∨ d.halvesDiffer = true ∨ d.noTwoAgree = true) →
        (∃ s', exec (.voterDisagreement t d now) s = .next s' ∧ lost s') ∧
        (∃ s', exec (.writeCopyTimeout t d now) s = .next s' ∧ lost s'))) ∧
    (∀ (core : Fin 4) (now : Nat), (s.tile t).triad.mode = .confirm → (s.tile t).triad.fenced = some core →
      (∃ m, exec (.signatureComparisonComplete t true now) s = .next (((s.tile t).triad.held.foldl State.runHeld m).readmitAborted t) ∧
        (m.tile t).triad.held = [] ∧ (m.tile t).triad.fenced = none ∧
        (m.tile t).triad.roles = vset (s.tile t).triad.roles core .excluded ∧
        (match (({ (s.tile t).triad with roles := vset (s.tile t).triad.roles core .excluded } : Triad)).spare with
          | some c => (m.tile t).triad.mode = .joining ∧ (m.tile t).triad.joining = some (c, 1)
          | none => (m.tile t).triad.mode = .duplex ∧ (m.tile t).triad.duplexSince = some (s.at now).now) ∧
        (m.tile t).door = (s.tile t).door ∧ (m.tile t).field = (s.tile t).field ∧ (m.tile t).ax = (s.tile t).ax ∧
        (m.tile t).link = (s.tile t).link) ∧
      (∃ s', exec (.signatureComparisonComplete t false now) s = .next s' ∧ lost s'))

/-- With a spare in step 1, SPARE_OUT_OF_RESET takes step 2 and SPARE_RESET_TIMEOUT fails the join with cause 1; in step 2
the newer buffer whose CRC holds gives the registers and the pair the scratchpad, which takes step 3, and with neither
it fails with cause 2; in step 3 SPARE_JOIN_PAUSE makes the spare ACTIVE at the third position with the pair's private
state, in TRIPLEX. A failed join excludes the spare and leaves DUPLEX from now on. While the triad acts,
CHECKPOINT_WRITE stores what the active cores then hold in the older buffer, counts and stamps, and from step 2 of a
join on the spare has their scratchpad; in CONFIRM it waits for the commit. With a period set, SPARE_BIST_PERIOD
starts the BIST of a spare while none runs and no core joins. (R225, R227, R228, R234) -/
def Obligations.SpareJoinsStepByStep : Prop :=
  ∀ (s : State) (t : TileId), s.hasTile t = true →
    let tr := (s.tile t).triad
    let failed := fun (s' : State) (c : Fin 4) => (s'.tile t).triad.mode = .duplex ∧ (s'.tile t).triad.joining = none ∧
      (s'.tile t).triad.roles = vset tr.roles c .excluded ∧ (s'.tile t).triad.duplexSince = some s.now ∧
      (s'.tile t).door = (s.tile t).door ∧ (s'.tile t).field = (s.tile t).field ∧ (s'.tile t).ax = (s.tile t).ax
    (∀ c, tr.joining = some (c, 1) →
      exec (.spareOutOfReset t) s = .next (s.modTriad t fun tr => { tr with joining := some (c, 2) }) ∧
      ∃ s', exec (.spareResetTimeout t) s = .next s' ∧ failed s' c) ∧
    (∀ c, tr.joining = some (c, 2) →
      (∃ s', exec (.spareCheckpointLoaded t (false, false)) s = .next s' ∧ failed s' c) ∧
      ∀ crc0 crc1, crc0 = true ∨ crc1 = true →
        let newer : Fin 2 := Fin.ofNat 2 tr.cpSeq.toNat
        ∃ s' i, exec (.spareCheckpointLoaded t (crc0, crc1)) s = .next s' ∧ (s'.tile t).triad.joining = some (c, 3) ∧
          (if i = (0 : Fin 2) then crc0 else crc1) = true ∧ (i ≠ newer → (if newer = 0 then crc0 else crc1) = false) ∧
          ((s'.tile t).triad.core c).regFile = (tr.cpBufs[i]).image.regFile ∧
          ((s'.tile t).triad.core c).control = (tr.cpBufs[i]).image.control ∧
          ((s'.tile t).triad.core c).scratch = (tr.core tr.positions[0]).scratch ∧
          (s'.tile t).triad.mode = tr.mode ∧ (s'.tile t).triad.roles = tr.roles ∧ (s'.tile t).door = (s.tile t).door ∧
          (s'.tile t).field = (s.tile t).field ∧ (s'.tile t).ax = (s.tile t).ax) ∧
    (∀ c now, tr.joining = some (c, 3) → ∃ s', exec (.spareJoinPause t now) s = .next s' ∧
      (s'.tile t).triad.mode = .triplex ∧ (s'.tile t).triad.joining = none ∧
      (s'.tile t).triad.roles = vset tr.roles c .active ∧ (s'.tile t).triad.positions = vset tr.positions 2 c ∧
      (s'.tile t).triad.core c = tr.core tr.positions[0] ∧
      (s'.tile t).triad.duplexSince = none ∧ (s'.tile t).triad.joinUs = ((s.at now).now - tr.joinStart + 999) / 1000 ∧
      (s'.tile t).door = (s.tile t).door ∧ (s'.tile t).field = (s.tile t).field ∧ (s'.tile t).ax = (s.tile t).ax) ∧
    ((s.tile t).triadActs = true → ∃ s', exec (.checkpointWrite t) s = .next s' ∧
      let now : Fin 2 := Fin.ofNat 2 (tr.cpSeq + 1).toNat
      (s'.tile t).triad.cpSeq = tr.cpSeq + 1 ∧ (s'.tile t).triad.cpTs = s.ts ∧
      ((s'.tile t).triad.cpBufs[now]).seq = tr.cpSeq + 1 ∧ ((s'.tile t).triad.cpBufs[now]).ts = s.ts ∧
      (∀ c : Fin 4, tr.roles[c] = .active → (s'.tile t).triad.core c = ((s'.tile t).triad.cpBufs[now]).image) ∧
      (∀ c k, tr.joining = some (c, k) → 2 ≤ k →
        ((s'.tile t).triad.core c).scratch = (((s'.tile t).triad.cpBufs[now]).image).scratch) ∧
      (∀ i : Fin 2, i ≠ now → (s'.tile t).triad.cpBufs[i] = tr.cpBufs[i]) ∧ (s'.tile t).triad.mode = tr.mode ∧
      (s'.tile t).triad.roles = tr.roles ∧ (s'.tile t).link = (s.tile t).link ∧ (s'.tile t).door = (s.tile t).door ∧
      (s'.tile t).field = (s.tile t).field ∧ (s'.tile t).ax = (s.tile t).ax ∧ s'.head = s.head) ∧
    ((s.tile t).triadRuns = true → tr.mode = .confirm → exec (.checkpointWrite t) s =
      .next (s.modTriad t fun tr => { tr with held := tr.held ++ [.checkpointWrite t] })) ∧
    (∀ c, (s.tile t).triadRuns = true → (s.tile t).par 0x88 2 ≠ 0 → tr.spare = some c → tr.bist = none → tr.joining = none →
      exec (.spareBistPeriod t) s = .next (s.modTriad t fun tr => { tr with bist := some (c, 0) }))

/-- TRIAD_RESTART of a LOST triad that has formed and may restart verifies slot A, B and the bundle; with firmware that
verifies it leaves no homing, calibration or self-test in progress, FAULT_SAFE, and TRIPLEX with three ACTIVE cores
that pass, and with none no triad forms. DUPLEX_LIMIT_EXPIRY in DUPLEX notes the limit and evaluates. A BIST of the
spare period that fails excludes its core with its event; TRIAD_READMIT in TRIPLEX or DUPLEX of an EXCLUDED core with
fewer than 4 exclusions, with no BIST, join or readmission under way, starts its BIST, of a core not EXCLUDED it
completes 0x14; a pass makes the core SPARE, and in DUPLEX lets it join. TRIAD_STATUS writes the status block and
completes OK. (R217, R231, R232, R233, R234, R235, R342) -/
def Obligations.TriadRestartsAndReadmits : Prop :=
  (∀ (s : State) (t : TileId) (r : BootReport), s.hasTile t = true → (s.tile t).triad.mode = .lost →
    (s.tile t).triad.formed = true → (s.tile t).triad.noRestart = false → (s.tile t).die.inReset = false →
    let die := (s.tile t).die
    let bOk := r.slotBOk && die.imageOk die.slotB
    (r.slotAOk = true ∨ bOk = true → ∃ s', exec (.triadRestart t r) s = .next s' ∧ (s'.tile t).door.st = .faultSafe ∧
      (s'.tile t).door.homing = none ∧ (s'.tile t).door.cal = .idle ∧ (s'.tile t).door.selftest = none ∧
      (s'.tile t).door.latched = (s.tile t).door.latched ∧ (s'.tile t).field = (s.tile t).field ∧
      (s'.tile t).die.fwVerified = true ∧ (s'.tile t).die.policyOk = (r.bundleOk && die.bundle.any die.bundleSigned) ∧
      (s'.tile t).die.slotA = (if bOk = true ∧ (die.fwPending = true ∨ r.slotAOk = false) then die.slotB else die.slotA) ∧
      ((∀ c, c ∈ ([0, 1, 2] : List (Fin 4)) → (s.tile t).triad.roles[c] = .active ∧ r.bist.getLsbD c.val = true) →
        (s'.tile t).triad.mode = .triplex ∧ (s'.tile t).triad.formed = true)) ∧
    (r.slotAOk = false → bOk = false → ∃ s', exec (.triadRestart t r) s = .next s' ∧ (s'.tile t).triad.mode = .lost ∧
      (s'.tile t).triad.formed = false ∧ (s'.tile t).die.fwVerified = false ∧ (s'.tile t).field = (s.tile t).field)) ∧
  (∀ (s : State) (t : TileId), s.hasTile t = true → (s.tile t).triadRuns = true →
    ((s.tile t).triad.duplexSince.isSome = true →
      exec (.duplexLimitExpiry t) s = .next ((s.modDoor t fun d => { d with duplexDue := true }).evaluate t)) ∧
    (∀ core, (s.tile t).triad.bist = some (core, 0) → ∃ s', exec (.bistComplete t core false) s = .next s' ∧
      (s'.tile t).triad.bist = none ∧ (s'.tile t).triad.roles = vset (s.tile t).triad.roles core .excluded ∧
      (s'.tile t).triad.bistResult = (s.tile t).triad.bistResult &&& ~~~(BitVec.ofNat 4 (2 ^ core.val)) ∧
      (s'.tile t).triad.mode = (s.tile t).triad.mode ∧ (s'.tile t).door = (s.tile t).door) ∧
    (∀ core h, (s.tile t).triad.bist = some (core, 2) → (s.tile t).triad.readmit = some h →
      ∃ s', exec (.bistComplete t core true) s = .next s' ∧ (s'.tile t).triad.bist = none ∧ (s'.tile t).triad.readmit = none ∧
        (s'.tile t).triad.roles = vset (s.tile t).triad.roles core .spare ∧
        ((s.tile t).triad.mode = .duplex → (s'.tile t).triad.mode = .joining ∧ (s'.tile t).triad.joining = some (core, 1)) ∧
        ((s.tile t).triad.mode ≠ .duplex → (s'.tile t).triad.mode = (s.tile t).triad.mode))) ∧
  (∀ (s : State) (h : HostCmd), (s.Due h 0x80 → h.dmaFault = false → ∀ addr : BitVec 64, exec (.triadStatus h addr) s =
      .next ((s.dma addr.toNat (s.triadBlock h.tile)).complete h 0x80 0 0)) ∧
    (s.Due h 0x81 → (s.tile h.tile).triad.readmit = none → (s.tile h.tile).triad.joining = none →
      ((s.tile h.tile).triad.mode = .triplex ∨ (s.tile h.tile).triad.mode = .duplex) → ∀ c : Fin 4,
      ((s.tile h.tile).triad.roles[c] = .excluded → (s.tile h.tile).triad.bist = none → (s.tile h.tile).triad.excl[c] < 4 →
        exec (.triadReadmit h c.val) s =
          .next ((s.markAccepted h 0x81).modTriad h.tile fun tr => { tr with bist := some (c, 2), readmit := some h })) ∧
      ((s.tile h.tile).triad.roles[c] ≠ .excluded →
        exec (.triadReadmit h c.val) s = .next (s.complete h 0x81 0x14 233 [0xFF]))))

/-- A due REQUEST FULL or SHADOW with nothing started and cal_allow set replaces earlier requests and completes OK; PERMIT
of a ready run under its conditions completes OK and starts the cycle with LS0 on, SRA open and t_unlock running, out
of them completes 0x10, and with cal_allow 0 completes 0x27; CANCEL of a queued run completes OK and ends it with
cause 8, of a running cycle notes it; RECOVER of an aborted run starts the buzzer and t_warn and completes OK. With
nothing to act on they complete 0x18. (R139, R140, R142, R143, R335) -/
def Obligations.CalibrationCommands : Prop :=
  ∀ (s : State) (h : HostCmd), s.Due h 0x40 → (s.tile h.tile).triadActs = true →
    let t := h.tile
    let d := (s.tile t).door
    (d.calStarted = false → d.shadowAccept = none → (s.tile t).calForbidden = false →
      exec (.calRequestFull h) s = .next ((s.modDoor t fun d => { d.calReplace with cal := .queued }).complete h 0x40 0 0
        (leBytes 1 (bit d.calUnstarted))) ∧
      (∀ m, (m = 0 ∨ 4 ≤ m ∧ m ≤ 64) → (∀ k, d.shadow ≠ .collecting k) → exec (.calRequestShadow h m) s =
        .next ((s.modDoor t fun d => { d.calReplace with shadow := .requested (if m = 0 then 16 else m) }).complete h 0x40 0 0
          (leBytes 1 (bit d.calUnstarted))))) ∧
    (∀ n, d.cal = .ready n →
      ((s.tile t).calCanRun = true → (s.tile t).calForbidden = false →
        exec (.calPermit h) s = .next ((s.complete h 0x40 0 0 [0]).calCycleStart t n)) ∧
      ((s.tile t).calCanRun = true → (s.tile t).calForbidden = true →
        exec (.calPermit h) s = .next (s.complete h 0x40 0x27 135)) ∧
      ((s.tile t).calCanRun = false → exec (.calPermit h) s = .next (s.complete h 0x40 0x10 139))) ∧
    (d.cal = .queued → exec (.calCancel h) s = .next (((s.complete h 0x40 0 0 [0]).modDoor t fun d =>
      { d with cal := .idle, calPermitMax := .idle }).raise t 0x2F (leBytes 1 8))) ∧
    (∀ n k c, d.cal = .cycle n k c → exec (.calCancel h) s =
      .next ((s.modDoor t fun d => { d with cal := .cycle n k true }).complete h 0x40 0 0 [0])) ∧
    (∀ k, d.cal = .aborted false k → exec (.calRecover h) s = .next ((((s.setLock t false).setBuzzer t true).modDoor t fun d =>
      { d with cal := .aborted true 5, tWarn := .running ((s.tile t).parN 0x02 2) }).complete h 0x40 0 0 [0])) ∧
    (d.cal = .idle → exec (.calPermit h) s = .next (s.complete h 0x40 0x18 0) ∧
      exec (.calCancel h) s = .next (s.complete h 0x40 0x18 0) ∧ exec (.calRecover h) s = .next (s.complete h 0x40 0x18 0))

/-- A due SELFTEST_REQUEST with no other in progress for the two DWELL parts keeps the request with st_dwell_max running
and both waiting; one for ISOLATED part 6 alone outside ISOLATED completes with that part NOT_RUN. With part 4 waiting
alone and none running, SELFTEST_DWELL_PART_START in LOCKED without release and calibration starts it: every channel
that is off, LS0 apart, goes on for the test. SELFTEST_PART_COMPLETE stores the result of a running part that can end:
that of the load-switch parts 2 and 4 is FAIL exactly if the last up-frame shows a fault of a channel that was not
skipped. The lock line, the tested channels and the half-bridges go off after their checks, and a failed memory scrub
is fault 0x0D. ST_DWELL_MAX_EXPIRY gives waiting parts their time-out. (R102, R145, R146, R336) -/
def Obligations.SelfTestsRunAndEnd : Prop :=
  (∀ (s : State) (h : HostCmd) (addr : BitVec 64), s.Due h 0x41 → (s.tile h.tile).triadActs = true →
    (s.tile h.tile).door.selftest = none →
    (∃ s', exec (.selftestRequest h 0x0018 addr) s = .next s' ∧ (s'.tile h.tile).door.selftest = some (h, addr, 0x0018) ∧
      (s'.tile h.tile).door.stDwellMax = .running (1000 * (s.tile h.tile).parN 0x11 8) ∧
      (s'.tile h.tile).door.dwellWaits 3 = true ∧ (s'.tile h.tile).door.dwellWaits 4 = true) ∧
    ((s.tile h.tile).door.st ≠ .isolated → ∃ s', exec (.selftestRequest h 0x0040 addr) s = .next s' ∧
      (s'.tile h.tile).door.selftest = none ∧ ((s'.tile h.tile).door.parts[6]).result = some 4)) ∧
  (∀ (s : State) (t : TileId), s.hasTile t = true →
    ((s.tile t).triadActs = true → (s.tile t).door.selftest.isSome = true → (s.tile t).door.st = .locked →
      (s.tile t).releaseValid = false → (s.tile t).door.calHolds = false →
      ((s.tile t).door.parts[3]).running = false → ((s.tile t).door.parts[4]).running = false →
      (s.tile t).door.dwellWaits 3 = false → (s.tile t).door.dwellWaits 4 = true →
      ∃ s', exec (.selftestDwellPartStart t) s = .next s' ∧ ((s'.tile t).door.parts[4]).running = true ∧
        (s'.tile t).door.stDwellMax = .idle ∧ (∀ ch : Fin 10, (s'.tile t).link.onTest.getLsbD ch.val =
          (ch != 0 && !((s.tile t).field.ls[ch]).isOn)) ∧ (s'.tile t).field = (s.tile t).field) ∧
    (∀ (part : Fin 8) (r : PartResult) (detail : PartFinding), ((s.tile t).door.parts[part]).running = true →
      (s.tile t).partBusy part = false →
      ∃ s', exec (.selftestPartComplete t part r detail) s = .next s' ∧ ((s'.tile t).door.parts[part]).running = false ∧
        (part ≠ 2 → part ≠ 4 → ((s'.tile t).door.parts[part]).result = some (partCode r) ∧
          ((s'.tile t).door.parts[part]).detail = detail.mask) ∧
        (part = 2 → (((s'.tile t).door.parts[part]).result = some 1 ↔ ∃ ch : Fin 10,
          ((s.tile t).door.parts[part]).detail.getLsbD ch.val = false ∧
          (((s.tile t).link.up.lsFlags[ch]).getLsbD 3 = true ∨ ((s.tile t).link.up.lsFlags[ch]).getLsbD 4 = true))) ∧
        (part = 4 → (((s'.tile t).door.parts[part]).result = some 1 ↔ ∃ ch : Fin 10, ch ≠ 0 ∧
          ((s.tile t).door.parts[part]).detail.getLsbD ch.val = false ∧ (((s.tile t).link.up.lsFlags[ch]).getLsbD 0 = true ∨
            ((s.tile t).link.up.lsFlags[ch]).getLsbD 1 = true ∨ ((s.tile t).link.up.lsFlags[ch]).getLsbD 2 = true)) ∧
          (s'.tile t).link.onTest = 0) ∧
        (part = 1 → (s'.tile t).door.eccBad = (r == .fail) ∧
          (r = .fail → (s'.tile t).door.latched.contains 0x0D = true)) ∧
        (part = 5 → (s'.tile t).link.lsCmd.getLsbD ((s.tile t).lsRole 14) = false) ∧
        (part = 6 → (s'.tile t).link.gateTest = false) ∧
        (s'.tile t).field = (s.tile t).field ∧ ((part = 1 → detail.bins = []) → (s'.tile t).ax = (s.tile t).ax)) ∧
    ((s.tile t).door.stDwellMax.isRunning = true → ∃ s', exec (.stDwellMaxExpiry t) s = .next s' ∧
      (s'.tile t).door.stDwellMax = .idle ∧ ((s.tile t).door.dwellWaits 3 = true → ((s'.tile t).door.parts[3]).result = some 3) ∧
      ((s.tile t).door.dwellWaits 4 = true → ((s'.tile t).door.parts[4]).result = some 3) ∧
      (s'.tile t).ax = (s.tile t).ax))

/-- A due SOUNDING_READ of bins in range on a used axis writes their records to the buffer and completes OK.
SOUNDING_WRITE in ISOLATED with the seal not matching changes nothing but host side, log and mailbox; with the seal
and the data in order it installs the bins on its axis and leaves the others. SHADOW_CONFIRM of a ready set: DISCARD
empties the shadow sets and leaves the active ones, ACCEPT waits, and SHADOW_SET_INSTALL with no pass on the tile
installs the set on every used axis. Other tiles stand but for log and mailbox. (R144, R147, R148, R194, R335) -/
def Obligations.SoundingsAreReadWrittenAndConfirmed : Prop :=
  (∀ (s : State) (h : HostCmd), (s.Due h 0x42 → ∀ sh d first count (addr : BitVec 64), 0 < count → first + count ≤ 512 →
      (s.tile h.tile).used (h.axis.getD .A) = true → h.dmaFault = false →
      exec (.soundingRead h sh d first count addr) s = .next ((s.dma addr.toNat (setBytes
        (if sh then (s.axis h.tile (h.axis.getD .A)).shadow else (s.axis h.tile (h.axis.getD .A)).soundings)
        d first count)).complete h 0x42 0 0)) ∧
    (s.Due h 0x43 → (s.tile h.tile).triadActs = true → h.dmaFault = false → (s.tile h.tile).door.st = .isolated →
      ∀ d first count data,
      (s.sealOk = false → ∃ s', exec (.soundingWrite h d first count data) s = .next s' ∧ State.Told s s') ∧
      (s.sealOk = true → 0 < count → first + count ≤ 512 → data.length = 16 * count →
        (s.tile h.tile).used (h.axis.getD .A) = true →
        (∀ i, i < count → (s.tile h.tile).binOk (binOfBytes (slice data (16 * i) 16)) = true) →
        let a := h.axis.getD .A
        ∃ s', exec (.soundingWrite h d first count data) s = .next s' ∧
          (s'.axis h.tile a).soundings = (List.range count).foldl (fun m i => writeBin m d (first + i)
            ((s.tile h.tile).writtenBin a d (first + i) (binOfBytes (slice data (16 * i) 16)))) (s.axis h.tile a).soundings ∧
          (s'.axis h.tile a).shadow = (s.axis h.tile a).shadow ∧ (s'.axis h.tile a).mo = (s.axis h.tile a).mo ∧
          (∀ b, b ≠ a → s'.axis h.tile b = s.axis h.tile b) ∧ ∀ u, u ≠ h.tile → Tile.Told (s.tile u) (s'.tile u))) ∧
    (s.Due h 0x44 → (s.tile h.tile).triadActs = true → (s.tile h.tile).door.shadowAccept = none → ∀ m,
      (s.tile h.tile).door.shadow = .ready m →
      exec (.shadowConfirmAccept h) s =
        .next ((s.markAccepted h 0x44).modDoor h.tile fun d => { d with shadowAccept := some h }) ∧
      ∃ s', exec (.shadowConfirmDiscard h) s = .next s' ∧ (s'.tile h.tile).door.shadow = .none ∧
        ∀ a, (s'.axis h.tile a).shadow = [] ∧ (s'.axis h.tile a).soundings = (s.axis h.tile a).soundings)) ∧
  (∀ (s : State) (t : TileId) (h : HostCmd) (m : Nat), s.hasTile t = true → (s.tile t).triadActs = true →
    (s.tile t).anyPass = false → (s.tile t).door.shadowAccept = some h → (s.tile t).door.shadow = .ready m →
    ∃ s', exec (.shadowSetInstall t) s = .next s' ∧ (s'.tile t).door.shadow = .none ∧ (s'.tile t).door.shadowAccept = none ∧
      (∀ a, (s.tile t).used a = true → (s'.axis t a).soundings = ((s.tile t).installShadow a (s.axis t a)).soundings) ∧
      (∀ a, (s.tile t).used a = false → s'.axis t a = s.axis t a) ∧ ∀ u, u ≠ t → Tile.Told (s.tile u) (s'.tile u))

/-- An Announce or Sync of another VLAN or transport does nothing. On a port whose PTP is on: the second Announce of the
only master heard in the domain selects it; a two-step Sync of the selected master keeps its ingress stamp less
latency and asymmetry; a one-step Sync in UNSET steps record time by the master's time with path delay and asymmetry
less the stamp without its latency and takes LOCKED, and a Follow_Up does so from the kept stamp; a Delay_Resp gives
half the sum of the two differences, a Delay_Req keeping its egress stamp less asymmetry; under P2P a Pdelay_Req is
answered by two messages and the answers give half the turnaround; sending numbers each request. (R246, R247, R249) -/
def Obligations.PtpMessagesGiveOffsetAndDelay : Prop :=
  (∀ (s : State) (p : EthPort) (via : PtpVia), via.vlan ≠ s.parH 0x12 8 p.num ∨ via.udp ≠ s.ptpUdp p → ∀ m x,
    exec (.ptpAnnounce p (via, m)) s = .next s ∧ exec (.ptpSync p (via, x)) s = .next s) ∧
  (∀ (s : State) (p : EthPort) (via : PtpVia), s.ptpOn p = true → via.vlan = s.parH 0x12 8 p.num → via.udp = s.ptpUdp p →
    (∀ (m m0 : Announce) (n : Nat), m.domain = s.parH 0x0D 1 → (s.eth p).foreign = [(m0, n)] → 1 ≤ n → m0.sender = m.sender →
      (s.eth (match p with | .eth0 => .eth1 | .eth1 => .eth0)).foreign = [] →
      ∃ s', exec (.ptpAnnounce p (via, m)) s = .next s' ∧ s'.head.time.slave = some p ∧ s'.head.time.gm = some m.identity ∧
        (s'.eth p).foreign = [(m, 2)]) ∧
    (∀ (m : SyncMsg), m.domain = s.parH 0x0D 1 → -4 ≤ m.logInterval → m.logInterval ≤ 1 → s.fromMaster p m.identity = true →
      (m.twoStep = true → exec (.ptpSync p (via, m)) s =
        .next (s.modEth p fun e => { e with sync := some (m.identity, m.seqId, m.stamp - e.rxLat - e.asymNs) })) ∧
      (m.twoStep = false → s.head.time.recState = .unset →
        let o := m.origin + (s.eth p).path + (s.eth p).asymNs - (m.stamp - (s.eth p).rxLat)
        0 ≤ (s.head.time.record.ns : Int) + o →
        ∃ s', exec (.ptpSync p (via, m)) s = .next s' ∧ s'.head.time.recState = .locked ∧
          (s'.head.time.record.ns : Int) = s.head.time.record.ns + o ∧ s'.now = s.now ∧
          ∀ t, Tile.Told (s.tile t) (s'.tile t))) ∧
    (∀ (m : PtpTime) (stamp : Int), m.domain = s.parH 0x0D 1 → (s.eth p).sync = some (m.identity, m.seqId, stamp) → s.fromMaster p m.identity = true →
      s.head.time.recState = .unset →
      let o := m.time + (s.eth p).path - stamp
      0 ≤ (s.head.time.record.ns : Int) + o →
      ∃ s', exec (.ptpFollowUp p (via, m)) s = .next s' ∧ s'.head.time.recState = .locked ∧ (s'.eth p).sync = none ∧
        (s'.head.time.record.ns : Int) = s.head.time.record.ns + o) ∧
    (s.p2p p = false →
      (∀ (m : PtpTime) (t3 : Int), m.domain = s.parH 0x0D 1 → (s.eth p).delayReq = some (m.seqId, t3) → s.fromMaster p m.identity = true →
        exec (.ptpDelayResp p (via, m)) s =
          .next (s.modEth p fun e => { e with path := (e.syncDiff + (m.time - t3)) / 2, delayReq := none })) ∧
      (∀ stamp : Int, s.head.time.slave = some p → ∃ s', exec (.ptpDelayRequestSend p stamp) s = .next s' ∧
        (s'.eth p).delayReq = some ((s.eth p).seqNum, stamp + (s.eth p).txLat - (s.eth p).asymNs) ∧
        (s'.eth p).seqNum = ((s.eth p).seqNum + 1) % 65536 ∧
        ((s.ptpUdp p = false ∨ s.ethIp p ≠ 0) → s'.out.length = s.out.length + 1))) ∧
    (s.p2p p = true →
      (∀ stamp : Int, ∃ s', exec (.ptpDelayRequestSend p stamp) s = .next s' ∧
        (s'.eth p).pdelay = some ((s.eth p).seqNum, stamp + (s.eth p).txLat, 0, 0) ∧
        ((s.ptpUdp p = false ∨ s.ethIp p ≠ 0) → s'.out.length = s.out.length + 1)) ∧
      (∀ m : PtpTime, m.domain = s.parH 0x0D 1 → ∃ s', exec (.ptpPdelayReq p (via, m)) s = .next s' ∧ s'.head = s.head ∧
        ((s.ptpUdp p = false ∨ s.ethIp p ≠ 0) → s'.out.length = s.out.length + 2) ∧ s'.tiles = s.tiles ∧
        s.out <:+ s'.out) ∧
      (∀ (m : PtpTime) (t1 t2 t4 : Int), m.domain = s.parH 0x0D 1 → (s.eth p).pdelay = some (m.seqId, t1, t2, t4) →
        (m.twoStep = true → exec (.ptpPdelayResp p (via, m)) s =
          .next (s.modEth p fun e => { e with pdelay := some (m.seqId, t1, m.time, m.stamp - (s.eth p).rxLat) })) ∧
        (m.twoStep = false → exec (.ptpPdelayResp p (via, m)) s =
          .next (s.modEth p fun e =>
            { e with path := (m.stamp - (s.eth p).rxLat - t1 - m.time) / 2, pdelay := none })) ∧
        exec (.ptpPdelayRespFollowUp p (via, m)) s =
          .next (s.modEth p fun e => { e with path := (t4 - t1 - (m.time - t2)) / 2, pdelay := none }))))

/-- In LOCKED, SYNC_LOSS_TIMEOUT on the slave port takes HOLDOVER with the record clock and its rate as they stand;
ANNOUNCE_RECEIPT_TIMEOUT forgets the masters of its port and on the slave port does the same, leaving that port no
slave. HOLDOVER_MAX_EXPIRY in HOLDOVER ends synchronism. EPOCH_MARK_TIMER brings the clocks to its instant and clears
the stepped flags. TIME_STEP_ACCEPT of the pending number arms the step and completes OK; any other completes 0x19.
(R237, R241, R249, R251, R337) -/
def Obligations.RecordTimeLosesAndKeepsItsMaster : Prop :=
  ∀ s : State,
    (∀ p, s.head.time.slave = some p → s.head.time.recState = .locked →
      (∃ s', exec (.syncLossTimeout p) s = .next s' ∧ s'.head.time.recState = .holdover ∧
        s'.head.time.record = s.head.time.record ∧ s'.head.time.holdLong = false ∧ ∀ t, Tile.Told (s.tile t) (s'.tile t)) ∧
      (s.ptpOn p = true → ∃ s', exec (.announceReceiptTimeout p) s = .next s' ∧ s'.head.time.recState = .holdover ∧
        (s'.eth p).foreign = [] ∧ s'.head.time.record = s.head.time.record ∧ s'.head.time.slave ≠ some p)) ∧
    (s.head.time.recState = .holdover → exec .holdoverMaxExpiry s = .next (s.modTime fun tb => { tb with holdLong := true })) ∧
    (∀ now, ∃ s', exec (.epochMarkTimer now) s = .next s' ∧ s'.now = max s.now now ∧ s'.head.time.recStepped = false ∧
      s'.head.time.ringStepped = false ∧ s'.head.time.record = (s.at now).head.time.record ∧ s'.tiles = s.tiles) ∧
    (∀ (h : HostCmd) (number : Word), s.Due h 0x50 →
      (s.head.time.recState = .stepPending → s.head.time.stepNum = number → exec (.timeStepAccept h number) s =
        .next ((s.modTime fun tb => { tb with stepArmed := true }).complete h 0x50 0 0 (leBytes 4 number.toNat))) ∧
      ((s.head.time.recState ≠ .stepPending ∨ s.head.time.stepNum ≠ number) →
        exec (.timeStepAccept h number) s = .next (s.complete h 0x50 0x19 249)))

/-- Outside the compatibility compare, a due TIMER_ARM of a payload that breaks no rule and starts at least 10 µs ahead
arms an idle output with its period, width and count and the start as its next edge and leaves the others; a single
pulse that starts sooner completes 0x1A and changes no timer. The leading edge of an armed output sets the level that
is not idle, remembers the idle one and counts, disarming at the last; the trailing edge returns to the idle level of
the pulse. TIMER_CANCEL leaves the output not armed and in no pulse, an armed or pulsing one at its idle level. (R254,
R255, R337) -/
def Obligations.TimerOutputsPulse : Prop :=
  ∀ s : State,
    (∀ (h : HostCmd) (p : TimerPayload), s.Due h 0x51 → s.head.time.compat = false → p.broken false = none →
      let start := p.startSec * 1000000000 + p.startNs
      let i : Fin 8 := Fin.ofNat 8 p.tpo
      ((s.head.time.timers[i]).armed = false → (s.head.time.timers[i]).inPulse = false → s.classNs p.ring + 10000 ≤ start →
        ∃ s', exec (.timerArm h p) s = .next s' ∧ (s'.head.time.timers[i]).armed = true ∧
          (s'.head.time.timers[i]).next = start ∧ (s'.head.time.timers[i]).period = p.period ∧
          (s'.head.time.timers[i]).width = p.width ∧ (s'.head.time.timers[i]).count = p.count ∧
          (s'.head.time.timers[i]).fired = 0 ∧ (s'.head.time.timers[i]).outHigh = p.low ∧
          ∀ j, j ≠ i → s'.head.time.timers[j] = s.head.time.timers[j]) ∧
      (p.period = 0 → start < s.classNs p.ring + 10000 → exec (.timerArm h p) s = .next (s.complete h 0x51 0x1A 255))) ∧
    (∀ (h : HostCmd) (i : Fin 8), s.Due h 0x52 → ∃ s', exec (.timerCancel h i.val) s = .next s' ∧
      (s'.head.time.timers[i]).armed = false ∧ (s'.head.time.timers[i]).inPulse = false ∧
      (((s.head.time.timers[i]).armed = true ∨ (s.head.time.timers[i]).inPulse = true) →
        (s'.head.time.timers[i]).outHigh = (s.head.time.timers[i]).low ∧
        s'.out.head? = some (.timer i.val (s.head.time.timers[i]).low))) ∧
    (∀ i : Fin 8, let x := s.head.time.timers[i]
      (x.inPulse = true → exec (.timerOutputEdge i) s =
        .next (((s.modTimer i fun y => { y with outHigh := x.pulseLow }).emit (.timer i.val x.pulseLow)).modTimer i fun y =>
          { y with inPulse := false })) ∧
      (x.inPulse = false → x.armed = true → ∃ s', exec (.timerOutputEdge i) s = .next s' ∧
        s'.head.time.timers[i] = { x with outHigh := !x.low, inPulse := true, pulseLow := x.low, fired := x.fired + 1, missed := 0
                                          next := x.next + x.period
                                          armed := !(x.period == 0 || (x.count != 0 && x.fired + 1 ≥ x.count)) } ∧
        .timer i.val (!x.low) ∈ s'.out ∧ ∀ j, j ≠ i → s'.head.time.timers[j] = s.head.time.timers[j]))

/-- A poll that finds the link up in full duplex takes the port up, anything else takes it down with its event. A request
for the port's address is answered; a reply fills the entry and ends its attempt; an attempt is repeated up to three
times and then dropped; an entry is asked for again. An echo request within ten in a second is noted and answered. A
datagram to the port with the address of a connection's binding is passed on to the tile's triad; a frame of another
VLAN changes nothing. (R243, R244, R245) -/
def Obligations.EthernetPortsResolveAndDeliver : Prop :=
  ∀ (s : State) (p : EthPort),
    (s.headRuns = true →
      ((s.eth p).up = false → ∀ speed, ∃ s', exec (.ethPhyStatusPoll p true true speed) s = .next s' ∧
        (s'.eth p).up = true ∧ (s'.eth p).arp = (s.eth p).arp) ∧
      ((s.eth p).up = true → ∀ fd speed, exec (.ethPhyStatusPoll p false fd speed) s =
        .next ((s.modEth p fun e => { e with up := false, speed := 0 }).raiseHead 0x08 (leBytes 1 p.num ++ [0, 0, 0])))) ∧
    (∀ f : EthFrame, f.vlan ≠ s.parH 0x12 8 p.num → exec (.ethFrameReceived p f) s = .next s) ∧
    (∀ v, v ≠ s.parH 0x12 8 p.num → ∀ mac ip target, exec (.arpRequestReceived p (v, mac) ip target) s = .next s ∧
      exec (.arpReplyReceived p (v, mac) ip) s = .next s) ∧
    (s.ethOn p = true → ∀ v, v = s.parH 0x12 8 p.num →
      (∀ (f : EthFrame) dst src payload, f.vlan = s.parH 0x12 8 p.num → f.toMac = s.ethMac p →
        f.body = .udp dst src false false payload → f.dstIp.toNat = s.ethIp p →
        ∃ s', exec (.ethFrameReceived p f) s = .next s' ∧ s'.head = s.head ∧
          ∀ t (c : Fin 32), s.hasTile t = true → (s.tile t).die.svc = true →
            ((s.tile t).sedge[c]).takesEth p src dst f.srcIp = some false → .toTriad t c.val payload ∈ s'.out) ∧
      (∀ mac ip target, s.ethIp p ≠ 0 → target.toNat = s.ethIp p → ∃ s', exec (.arpRequestReceived p (v, mac) ip target) s = .next s' ∧
        s'.head = s.head ∧ s'.tiles = s.tiles ∧ s'.out.length = s.out.length + 1 ∧ s.out <:+ s'.out) ∧
      (∀ mac ip n ws, (ip, n, ws) ∈ (s.eth p).arpTry → ∃ s', exec (.arpReplyReceived p (v, mac) ip) s = .next s' ∧
        (ip, mac) ∈ (s'.eth p).arp ∧ (∀ x ∈ (s'.eth p).arpTry, x.1 ≠ ip) ∧ (s'.eth p).arp.length ≤ 64) ∧
      (∀ ip n ws, (s.eth p).arpTry = [(ip, n, ws)] →
        (n < 3 → ∃ s', exec (.arpRetryTimeout p ip) s = .next s' ∧ (s'.eth p).arpTry = [(ip, n + 1, ws)] ∧
          s'.out.length = s.out.length + 1) ∧
        (3 ≤ n → ∃ s', exec (.arpRetryTimeout p ip) s = .next s' ∧ (s'.eth p).arpTry = [] ∧ s'.out = s.out ∧
          ∀ x ∈ (s'.eth p).arp, x.1 ≠ ip)) ∧
      (∀ ip mac, (ip, mac) ∈ (s.eth p).arp → (s.eth p).arpTry = [] → ∃ s', exec (.arpEntryRefresh p ip) s = .next s' ∧
        (s'.eth p).arpTry = [(ip, 1, [])] ∧ s'.out.length = s.out.length + 1) ∧
      (∀ ip target data now, s.ethIp p ≠ 0 → target.toNat = s.ethIp p →
        ((s.eth p).echoes.filter fun i => decide ((s.at now).now < i + 1000000000)).length < 10 →
        ∃ s', exec (.icmpEchoRequest p (v, ip) target data now) s = .next s' ∧ (s.at now).now ∈ (s'.eth p).echoes ∧
          s'.tiles = s.tiles))

/-- A frame, action point, slot end or NIT begins the next cycle where the last NIT left it to. In ACTIVE a valid frame
marks its slot as delivered and, short of the hop limit with no closed loop on the outgoing port, leaves on it with
one hop more; an invalid one is counted and discarded. In LISTEN a valid frame other than COLD_START aligns the node
to its cycle in INTEGRATE. The ACTIVE owner of a slot with data ready 5 µs before sends it on each link without a
closed loop, in a sync slot of generation 3 without data a frame that says not ready; out of the guardian's window it
is cut short, twice running the node reintegrates. A slot that brought nothing is counted EMPTY, one whose copy was
not ready NOT_READY. NIT_START of a running node keeps the cycle number, clears what the cycle gathered and lets the
next begin. LISTEN and BACKOFF of a cold-start node with a sync slot end in COLDSTART at cycle 0. A loss of signal in
ACTIVE, H not standing on that break, is a break with NOTICE and countdown 2. A cycle point in ACTIVE interrupts its
tiles with the number of its cycle. (R261, R265, R266, R268, R271, R272, R273, R274, R277, R281, R282) -/
def Obligations.CausewayNodeKeepsItsSchedule : Prop :=
  ∀ s : State,
    (s.cwyBegin.head.cwy.inNit = false ∧ s.cwyBegin.head.cwy.cycle =
      if s.head.cwy.inNit then (s.head.cwy.cycle + 1) % 2 ^ 48 else s.head.cwy.cycle) ∧
    (∀ (p : CwyPort) (f : CwyFrame) (tObs : Int) (now : Nat), let s0 := (s.at now).cwyBegin
      (s.head.cwy.state = .active → s0.cwyValid f tObs = true → ∃ s', exec (.cwyFrameReceived p f tObs now) s = .next s' ∧
        f.slot ∈ s'.head.cwy.seen ∧ s'.head.cwy.state = .active ∧
        (f.hop + 1 < s.hopLimit → p.other.of s.head.cwy.loop = false →
          s'.out.head? = some (.causeway p.other (cwyGroups { f with hop := f.hop + 1 })))) ∧
      (s.head.cwy.state = .active → s0.cwyValid f tObs = false → exec (.cwyFrameReceived p f tObs now) s =
        .next (s0.cwyCount (if p == .portA then 0 else 2))) ∧
      (s.head.cwy.state = .listen → s0.cwyValid f tObs = true → f.coldStart = false →
        ∃ s', exec (.cwyFrameReceived p f tObs now) s = .next s' ∧ s'.head.cwy.state = .integrate ∧
          s'.head.cwy.aligned = true ∧ s'.head.cwy.cycle = f.cycle)) ∧
    (∀ (slot : Fin 256) (now : Nat), s.head.cwy.state = .active → slotValid s.head.cwy.slotTable slot.val = true →
      slotOwner s.head.cwy.slotTable slot.val = s.cwyNode →
      let s0 := (s.at now).cwyBegin
      let put := fun (f : CwyFrame) => (([CwyPort.portA, .portB].filter fun p => !p.of s.head.cwy.loop).map fun p =>
        Output.causeway p (cwyGroups { f with ring := p.other })) ++ s.out
      (∀ data, s0.slotData slot.val = some data →
        (s0.inWindow slot.val = true → ∃ s', exec (.slotActionPoint slot now) s = .next s' ∧
          s'.out = put (s0.ownFrame slot.val false false data) ∧
          s'.head.cwy.txBuf = s.head.cwy.txBuf.filter (·.1 != slot.val)) ∧
        (s0.inWindow slot.val = false → ∃ s', exec (.slotActionPoint slot now) s = .next s' ∧
          (s.head.cwy.cutLast = false → s'.head.cwy.cutNow = true ∧ s'.head.cwy.state = .active) ∧
          (s.head.cwy.cutLast = true → s'.head.cwy.state = .integrate ∧ s'.head.cwy.aligned = false))) ∧
      (s0.slotData slot.val = none →
        (slotSync s.head.cwy.slotTable slot.val = true → ringGen s.head.cwy.nodeTable = 3 → s0.inWindow slot.val = true →
          ∃ s', exec (.slotActionPoint slot now) s = .next s' ∧ s'.out = put (s0.ownFrame slot.val false true [])) ∧
        (slotSync s.head.cwy.slotTable slot.val = false → exec (.slotActionPoint slot now) s = .next s0))) ∧
    (∀ (slot : Fin 256) (now : Nat), s.head.cwy.state = .active → slotValid s.head.cwy.slotTable slot.val = true →
      (s.head.cwy.seen.contains slot.val = false → ∃ s', exec (.slotEnd slot now) s = .next s' ∧
        s'.head.cwy.slotCounts = s.head.cwy.slotCounts.count (2 * slot.val)) ∧
      (s.head.cwy.seen.contains slot.val = true → s.head.cwy.notReady.contains slot.val = true →
        exec (.slotEnd slot now) s = .next ((s.at now).cwyBegin.modCwy fun c =>
          { c with slotCounts := c.slotCounts.count (2 * slot.val + 1) }))) ∧
    (∀ a b, (s.head.cwy.state = .integrate ∨ s.head.cwy.state = .coldstart ∨ s.head.cwy.state = .active) →
      s.head.cwy.restart = false → ∃ s', exec (.nitStart a b) s = .next s' ∧
        s'.head.cwy.cycle = s.cwyBegin.head.cwy.cycle ∧ s'.head.cwy.inNit = true ∧ s'.head.cwy.seen = [] ∧ s'.head.cwy.cutNow = false) ∧
    (∀ j, (validSlots s.head.cwy.slotTable).find? (fun j => slotOwner s.head.cwy.slotTable j == s.cwyNode &&
        slotSync s.head.cwy.slotTable j) = some j → nodeCold s.head.cwy.nodeTable s.cwyNode = true →
      let cold := fun (s' : State) => s'.head.cwy.state = .coldstart ∧ s'.head.cwy.cycle = 0 ∧ s'.head.cwy.csFirst = true ∧
        s'.head.time.ring.ns = slotStart s.head.cwy.slotTable j
      (s.head.cwy.state = .listen → ∃ s', exec .listenTimeout s = .next s' ∧ cold s') ∧
      (s.head.cwy.state = .backoff → ∃ s', exec .backoffEnd s = .next s' ∧ cold s')) ∧
    (∀ (p : CwyPort) (now : Nat), s.head.cwy.state = .active → p.of s.head.cwy.los = false →
      (p.of s.head.cwy.broken && p.of s.head.cwy.sendH) = false →
      ∃ s', exec (.portLos ⟨p, now⟩) s = .next s' ∧ p.of s'.head.cwy.los = true ∧ p.of s'.head.cwy.broken = true ∧
        p.of s'.head.cwy.sendH = true ∧ s'.head.cwy.mode = .notice ∧ s'.head.cwy.countdown = 2 ∧
        .linkControl p true ∈ s'.out ∧ p.other.of s'.head.cwy.los = p.other.of s.head.cwy.los) ∧
    (∀ i : Fin 8, s.head.cwy.state = .active →
      let s0 := if s.parH 0x0E 4 i.val < s.cwyNit then s.cwyBegin else s
      ∃ s', exec (.cyclePoint i) s = .next s' ∧ s'.head = s0.head ∧ s'.tiles = s.tiles ∧
        ∀ t, s.hasTile t = true → (s.parH 0x0E 5 i.val).testBit t.num = true →
          .cyclePoint t i.val s0.head.cwy.cycle s.head.time.ringSync ∈ s'.out)

/-- A received frame goes to the lowest buffer that takes it: its content, with the TS32 of its start of frame, and next
generation, or its shadow entry while it is locked, where a second one counts as overrun; the end of a lock makes the
shadow the content. On an idle bus the pending frame of the lowest identifier, then of the lowest buffer, enters
arbitration. An acknowledged frame leaves, with ESI in an error-passive node and BRS only where two bit rates are set,
and what was held is pending; a lost one with nothing held or withdrawn is pending again, a single shot completes
0x24; an error frame adds 8 to the transmit errors but for a missing acknowledgement in an error-passive node. A
receive error adds 1, a bit error 1 or 8; bus-off recovery under AUTO clears the counters. Each mode wakes by its
cause into NORMAL. CAN_TX in NORMAL loads a sound frame with the next generation into a HOST TX buffer, CAN_ABORT
withdraws what has not started. (R284, R285, R286, R287, R288, R289, R290, R291, R338) -/
def Obligations.CanControllersReceiveSendAndCount : Prop :=
  ∀ (s : State) (t : TileId) (c : Fin 2), s.hasTile t = true →
    (∀ f : CanRx, s.canOn t c false = true →
      ((bufIds.find? fun b => (s.tile t).bufTakes (s.canBuf t c b) f.frame) = none →
        ∃ s', exec (.canFrameReceived t c f) s = .next s' ∧ ∀ b, s'.canBuf t c b = s.canBuf t c b) ∧
      (∀ b, (bufIds.find? fun b => (s.tile t).bufTakes (s.canBuf t c b) f.frame) = some b →
        ((s.canBuf t c b).locked = false → ∃ s', exec (.canFrameReceived t c f) s = .next s' ∧
          (s'.canBuf t c b).content = some (f.frame, f.sof) ∧ (s'.canBuf t c b).gen = (s.canBuf t c b).gen + 1 ∧
          ∀ b', b' ≠ b → s'.canBuf t c b' = s.canBuf t c b') ∧
        ((s.canBuf t c b).locked = true → ∃ s', exec (.canFrameReceived t c f) s = .next s' ∧
          s'.canBuf t c b = { s.canBuf t c b with
            shadowEnt := some (f.frame, f.sof)
            overrun := if (s.canBuf t c b).shadowEnt.isSome then sat32 ((s.canBuf t c b).overrun + 1)
                       else (s.canBuf t c b).overrun } ∧
          ∀ b', b' ≠ b → s'.canBuf t c b' = s.canBuf t c b'))) ∧
    ((s.tile t).die.svc = true → ∀ b, (s.canBuf t c b).locked = true →
      ((s.canBuf t c b).shadowEnt = none → exec (.canBufferLockEnd t c b) s =
        .next (s.modBuf t c b fun x => { x with locked := false, shadowEnt := none })) ∧
      (∀ f ts, (s.canBuf t c b).shadowEnt = some (f, ts) → ∃ s', exec (.canBufferLockEnd t c b) s = .next s' ∧
        (s'.canBuf t c b).content = some (f, ts) ∧ (s'.canBuf t c b).gen = (s.canBuf t c b).gen + 1 ∧
        (s'.canBuf t c b).shadowEnt = none)) ∧
    (∀ (b : Fin 64) f g o h, s.canOn t c true = true → (∀ b', (s.canBuf t c b').inArb = none) →
      (s.canBuf t c b).pending = some (f, g, o, h) →
      (∀ b' f' r, (s.canBuf t c b').pending = some (f', r) → b' ≠ b →
        canPriority f < canPriority f' ∨ (canPriority f = canPriority f' ∧ b < b')) →
      exec (.canArbitrationStart t c) s = .next (s.modBuf t c b fun k =>
        { k with pending := none, inArb := some (f, g, o, h, s.ts) })) ∧
    (∀ (b : Fin 64) f g once cmd ts, (bufIds.find? fun b => (s.canBuf t c b).inArb.isSome) = some b →
      (s.canBuf t c b).inArb = some (f, g, once, cmd, ts) →
      (∀ e, ∃ s', exec (.canTxAttemptEnd t c .acknowledged e) s = .next s' ∧
        .can t c { f with brs := f.brs && (s.tile t).parN 0x0F 2 c.val != (s.tile t).parN 0x0F 1 c.val
                          esi := f.fd && (s.canCtl t c).state == .errorPassive } ∈ s'.out ∧
        (s'.canBuf t c b).inArb = none ∧ (s'.canBuf t c b).pending = (s.canBuf t c b).heldTx ∧
        (s'.canCtl t c).txErrs = (s.canCtl t c).txErrs - 1 ∧ ∀ b', b' ≠ b → s'.canBuf t c b' = s.canBuf t c b') ∧
      ((s.canBuf t c b).abortWait = false → (s.canBuf t c b).heldTx = none → ∀ e,
        (once = false → exec (.canTxAttemptEnd t c .lostArbitration e) s = .next (s.modBuf t c b fun x =>
          { x with inArb := none, heldTx := none, abortWait := false, pending := some (f, g, once, cmd) })) ∧
        (once = true → exec (.canTxAttemptEnd t c .lostArbitration e) s = .next ((s.modBuf t c b fun x =>
          { x with inArb := none, heldTx := none, abortWait := false, pending := none }).canDone cmd 0x24 g)) ∧
        (once = false → ((s.canCtl t c).state ≠ .errorPassive ∨ e ≠ .ack) →
          ∃ s', exec (.canTxAttemptEnd t c .errorFrame e) s = .next s' ∧
            (s'.canCtl t c).txErrs = (s.canCtl t c).txErrs + 8 ∧
            (s'.canBuf t c b).pending = some (f, g, once, cmd) ∧
            ((s'.canCtl t c).errs)[canErrIdx e] = sat32 (((s.canCtl t c).errs)[canErrIdx e] + 1)))) ∧
    (∀ e, s.canOn t c false = true → e ≠ .ack → ∃ s', exec (.canReceiveError t c e) s = .next s' ∧
      ((s'.canCtl t c).rxErrs = (s.canCtl t c).rxErrs + 1 ∨
        (e = .bit ∧ (s'.canCtl t c).rxErrs = (s.canCtl t c).rxErrs + 8)) ∧
      ((s'.canCtl t c).errs)[canErrIdx e] = sat32 (((s.canCtl t c).errs)[canErrIdx e] + 1) ∧
      (s'.canCtl t c).state = (s'.canCtl t c).confined ∧ ∀ b, s'.canBuf t c b = s.canBuf t c b) ∧
    ((s.canCtl t c).state = .busOff → (s.tile t).par 0x0F 7 c.val = 0 → ∃ s', exec (.canBusOffRecovery t c) s = .next s' ∧
      (s'.canCtl t c).state = .errorActive ∧ (s'.canCtl t c).txErrs = 0 ∧ (s'.canCtl t c).rxErrs = 0 ∧
      ∀ b, s'.canBuf t c b = s.canBuf t c b) ∧
    ((s.tile t).die.svc = true →
      let wakes := fun (cause : CanWakeCause) => ∃ s', exec (.canWake t c cause) s = .next s' ∧ (s'.tile t).canMode c = 1 ∧
        (s'.canCtl t c).stb = false ∧ (s'.canCtl t c).state ≠ .sleeping ∧ ∀ b, s'.canBuf t c b = s.canBuf t c b
      ((s.tile t).canMode c = 3 → wakes .dominantLevel) ∧
      ((s.tile t).canMode c = 4 → (∀ f, (s.tile t).isWakeFrame c f = true → wakes (.wakeFrame f)) ∧
        (32 ≤ (s.canCtl t c).wakeErrs + 1 → wakes .malformed) ∧
        ((s.canCtl t c).wakeErrs + 1 < 32 → exec (.canWake t c .malformed) s =
          .next (s.modCan t c fun x => { x with wakeErrs := x.wakeErrs + 1 })))) ∧
    (∀ (h : HostCmd) (b : Fin 64), h.tile = t → (s.canBuf t c b).sedge = none →
      (∀ p : CanTxPayload, s.Due h 0x60 → h.dmaFault = false → p.controller = c.val → p.buffer = b.val →
        p.frame.wf = true → (p.frame.fd = true ∨ p.frame.dlc.val ≤ 8) →
        (p.address ≠ 0 ∨ p.frame.data.length ≤ 32) → (s.canBuf t c b).tx = true →
        (s.tile t).canMode c = 1 →
        let g := (s.canBuf t c b).gen + 1
        ((s.canBuf t c b).inArb = none → (s.canBuf t c b).pending = none → exec (.canTx h p) s = .next (s.modBuf t c b fun x =>
          { x with gen := g, pending := some (p.frame, g, p.singleShot, some h), abortWait := false })) ∧
        ((s.canBuf t c b).inArb.isSome = true → (s.canBuf t c b).heldTx = none → exec (.canTx h p) s =
          .next (s.modBuf t c b fun x => { x with gen := g, heldTx := some (p.frame, g, p.singleShot, some h) }))) ∧
      (s.Due h 0x61 → ∃ s', exec (.canAbort h c.val b.val) s = .next s' ∧
        s'.canBuf t c b = { s.canBuf t c b with pending := none, heldTx := none
                                                abortWait := (s.canBuf t c b).inArb.isSome } ∧
        ∀ b', b' ≠ b → s'.canBuf t c b' = s.canBuf t c b'))

/-- A slot of a running table goes on to the next entry, or to entry 0 after the last, and sends its break of the set
length and header with the response and checksum that the master itself sends; a go-to-sleep request puts the master
to sleep with its table kept for the wake-up. An awaited response of the entry's length with the right checksum is
kept and ends the silence (of a counter list in its canonical form); a checksum error, no byte and too few bytes count
under their kinds. A wake pulse wakes a sleeping master, which waits 100 ms. LIN_SCHED_LOAD replaces a table that does
not run, refuses a broken entry by its number, and with data_only keeps the data for the next header. LIN_SCHED_SELECT
names the table that runs next. (R293, R294, R295, R296, R339) -/
def Obligations.LinMastersRunTheirSchedules : Prop :=
  ∀ (s : State) (t : TileId) (l : Fin 2), s.hasTile t = true →
    let m := s.linOf t l
    ((s.tile t).die.svc = true → m.asleep = false → m.waking = none → m.selected = none → m.dataLoad = [] →
      ∀ (k : Fin 4) (i : Nat) (e : LinEntry), m.running = some k → m.entry = some i →
        let j := if i + 1 < (m.tables[k]).length then i + 1 else 0
        let data := if linSlave e then [] else padTo e.len e.data
        let resp := if linSlave e then [] else data ++ [linChecksum e data]
        let header := Output.lin t l ((s.tile t).parN 0x10 1 l.val) (linPid e.frameId) resp
        (m.tables[k])[j]? = some e →
        ((e.kind = 2 → data.head? ≠ some 0) → exec (.linSlotStart t l) s = .next ((s.modLin t l fun m =>
          { m with entry := some j, awaiting := linSlave e }).emit header)) ∧
        (e.kind = 2 → data.head? = some 0 → ∃ s', exec (.linSlotStart t l) s = .next s' ∧
          (s'.linOf t l).asleep = true ∧ (s'.linOf t l).running = none ∧ (s'.linOf t l).selected = some k ∧
          s'.out.head? = some header)) ∧
    ((s.tile t).die.svc = true → m.awaiting = true → ∀ (i : Nat) (e : LinEntry) (now : Nat), m.current = some (i, e) →
      (∀ data : List Byte, data.length = e.len → ∃ s', exec (.linResponseReceived t l (.bytes data (linChecksum e data)) now) s = .next s' ∧
        (s'.linOf t l).awaiting = false ∧ (s'.linOf t l).lastGood.get i = ofLe data + 1 ∧
        (SMap.wf m.silence = true → (s'.linOf t l).silence.get (8 * i + 5) = 0 ∧
          (s'.linOf t l).silence.get (8 * i + 6) = 0) ∧
        (s'.linOf t l).counters = m.counters ∧ (s'.tile t).door.panelFlag = (s'.tile t).panelObstruct) ∧
      (∀ (data : List Byte) sum, data.length = e.len → sum ≠ linChecksum e data →
        ∃ s', exec (.linResponseReceived t l (.bytes data sum) now) s = .next s' ∧ (s'.linOf t l).awaiting = false ∧
        (s'.linOf t l).counters = m.counters.count (8 * i + 2) ∧ (s'.linOf t l).lastGood = m.lastGood) ∧
      (∀ bytes, bytes < e.len → ∃ s', exec (.linResponseTimeout t l bytes now) s = .next s' ∧
        (s'.linOf t l).awaiting = false ∧ (s'.linOf t l).lastGood = m.lastGood ∧
        (s'.linOf t l).counters = m.counters.count (8 * i + if bytes = 0 then 0 else 1))) ∧
    ((s.tile t).die.svc = true → m.asleep = true → exec (.linWakePulse t l) s =
      .next (s.modLin t l fun m => { m with asleep := false, waking := some 0 })) ∧
    (∀ cause : Fin 2, m.waking = some cause → ∃ s', exec (.linWakeDelayEnd t l) s = .next s' ∧
      s'.linOf t l = { m with waking := none } ∧ ∀ u, u ≠ t → Tile.Told (s.tile u) (s'.tile u)) ∧
    (∀ (h : HostCmd) (k : Fin 4), h.tile = t →
      (∀ es : List LinEntry, s.Due h 0x62 → h.dmaFault = false →
        (es.length ≤ 64 →
          (∀ i, es.findIdx? (linEntryBroken ((s.tile t).parN 0x10 0 l.val)) = some i →
            exec (.linSchedLoad h l.val k.val es) s = .next (s.complete h 0x62 0x14 293 (leBytes 1 i))) ∧
          ((∀ e ∈ es, linEntryBroken ((s.tile t).parN 0x10 0 l.val) e = false) → m.running ≠ some k →
            ∃ s', exec (.linSchedLoad h l.val k.val es) s = .next s' ∧ ((s'.linOf t l).tables)[k] = es ∧
              (∀ j, j ≠ k → ((s'.linOf t l).tables)[j] = (m.tables)[j]) ∧ (s'.linOf t l).running = m.running ∧
              (s'.linOf t l).entry = m.entry)) ∧
        (es.length ≤ ((m.tables)[k]).length → ∃ s', exec (.linSchedLoadDataOnly h l.val k.val es) s = .next s' ∧
          (s'.linOf t l).tables = m.tables ∧
          ∀ i (hi : i < es.length), (k.val, i, (es[i]).data) ∈ (s'.linOf t l).dataLoad)) ∧
      (s.Due h 0x63 → ∃ s', exec (.linSchedSelect h l.val k.val) s = .next s' ∧ (s'.linOf t l).selected = some k ∧
        (s'.linOf t l).asleep = false ∧ (s'.linOf t l).waking = (if m.asleep then some 1 else m.waking) ∧
        (s'.linOf t l).tables = m.tables))

/-- On a VALID connection before the end of its watchdog time a frame with the right check value, in time, and ahead by no
more than allowed is accepted: number, time and payload are kept, the watchdog starts anew and the connection stays
VALID; where its watchdog is due with it, the expiry is taken first and the frame counts as the first of a run; in
STARTING it counts towards restore_count. A wrong check value counts FAILED, a repeated number REPEATED, one too far
ahead OUT_OF_ORDER; the payload kept stands. (R206, R207, R210, R211, R213, R215) -/
def Obligations.SedgeFramesAreCheckedInOrder : Prop :=
  ∀ (s : State) (t : TileId) (k : Fin 32), s.hasTile t = true →
    ∀ (seq : BitVec 16) (ts : Word) (life : Nat) (payload : List Byte) (now : Nat) ip p1 p2 port,
      (s.tile t).triadActs = true → (s.tile t).die.svc = true → (s.tile t).connRx k = true →
      (s.conn t k).binding = some (.ethernet ip p1 p2 port) → life < 65536 → payload.length ≤ 32 →
      let body := beBytes 2 seq.toNat ++ beBytes 4 ts.toNat ++ beBytes 2 life ++ leBytes 1 payload.length ++ payload
      let good := body ++ beBytes 4 (scv ((s.tile t).connId k) body)
      let s0 := s.at now
      let ring := (s.tile t).connRing k
      let age := tsDiff (s0.classTs ring) ts
      let ahead := (seq - (s.conn t k).lastSeq).toNat
      let due := (s.conn t k).wdAt + 1000000 * (s.tile t).parN 0x89 9 k.val
      (s0.classSync ring = true → -((s.tile t).par 0x89 7 k.val * 1000) ≤ age →
        age ≤ min ((life : Int) * 10000) ((s.tile t).par 0x89 6 k.val * 1000) →
        ((s.conn t k).state = .valid → ahead ≠ 0 → (ahead : Int) ≤ (s.tile t).par 0x89 8 k.val →
          ∃ s', exec (.sedgeFrameReceived t k good now) s = .next s' ∧
            (s0.now < due → (s'.conn t k).state = .valid) ∧
            (due ≤ s0.now → 1 < (s.tile t).par 0x89 10 k.val → (s'.conn t k).state = .substitute ∧ (s'.conn t k).run = 1) ∧
            (s'.conn t k).lastSeq = seq ∧ (s'.conn t k).payload = payload ∧ (s'.conn t k).lastTs = s0.classTs ring ∧
            (s'.conn t k).wdAt = s0.now ∧
            ((s'.conn t k).counters)[4] = sat32 (((s.conn t k).counters)[4] + (ahead - 1)) ∧
            ∀ j, j ≠ k → s'.conn t j = s.conn t j) ∧
        ((s.conn t k).state = .starting → ((s.conn t k).run + 1 : Nat) < (s.tile t).par 0x89 10 k.val →
          ∃ s', exec (.sedgeFrameReceived t k good now) s = .next s' ∧ (s'.conn t k).state = .substitute ∧
            (s'.conn t k).run = (s.conn t k).run + 1 ∧ (s'.conn t k).lastSeq = seq ∧ (s'.conn t k).payload = payload) ∧
        ((s.conn t k).state = .valid → ahead = 0 → ∃ s', exec (.sedgeFrameReceived t k good now) s = .next s' ∧
          ((s'.conn t k).counters)[2] = sat32 (((s.conn t k).counters)[2] + 1) ∧ (s'.conn t k).state = .valid ∧
          (s'.conn t k).payload = (s.conn t k).payload ∧ (s'.conn t k).lastSeq = (s.conn t k).lastSeq) ∧
        ((s.conn t k).state = .valid → (s.tile t).par 0x89 8 k.val < ahead → ahead ≠ 0 →
          ∃ s', exec (.sedgeFrameReceived t k good now) s = .next s' ∧
            ((s'.conn t k).counters)[3] = sat32 (((s.conn t k).counters)[3] + 1) ∧ (s'.conn t k).state = .valid ∧
            (s'.conn t k).payload = (s.conn t k).payload ∧ (s'.conn t k).run = 0)) ∧
      (∀ v, v ≠ scv ((s.tile t).connId k) body → v < 2 ^ 32 → (s.conn t k).state ≠ .closed →
        ∃ s', exec (.sedgeFrameReceived t k (body ++ beBytes 4 v) now) s = .next s' ∧
          ((s'.conn t k).counters)[0] = sat32 (((s.conn t k).counters)[0] + 1) ∧ (s'.conn t k).run = 0 ∧
          (s'.conn t k).payload = (s.conn t k).payload ∧ (s'.conn t k).lastSeq = (s.conn t k).lastSeq ∧
          ((s'.conn t k).state = (s.conn t k).state ∨ (s'.conn t k).state = .failed))

/-- A frame for a bound receiving connection answers a next state, accepted or counted, whatever its bytes. The watchdog
of a VALID connection that has accepted no frame for wd_time substitutes, sooner it does nothing. Each period of a
sending connection takes the next number and hands a frame of that number to its channel: into its Causeway slot, or
over the internal fabric of the package. SEDGE_OPEN of a defined connection, an unbroken and free address and room in
the tile's frame rate binds a free connection into STARTING and refuses a bound one with 0x1E; SEDGE_CLOSE ends in
CLOSED without a binding, its demands not yet evaluated dropped. Other connections stand. In the hold of R223 each
waits for the commit. (R206, R208, R209, R210, R211, R212, R214, R340) -/
def Obligations.SedgeCommandsComplete : Prop :=
  ∀ (s : State) (t : TileId) (k : Fin 32), s.hasTile t = true →
    (∀ (frame : List Byte) (now : Nat), (s.tile t).triadActs = true → (s.tile t).die.svc = true →
      (s.tile t).connRx k = true → (s.conn t k).binding.isSome = true → (s.conn t k).state ≠ .closed →
      ∃ s', exec (.sedgeFrameReceived t k frame now) s = .next s' ∧ (s'.conn t k).binding = (s.conn t k).binding ∧
        (s'.conn t k).state ≠ .closed ∧ (s'.conn t k).txSeq = (s.conn t k).txSeq ∧
        (∀ j, j ≠ k → s'.conn t j = s.conn t j) ∧ (s'.tile t).ax = (s.tile t).ax ∧ (s'.tile t).field = (s.tile t).field ∧
        (s'.tile t).triad = (s.tile t).triad ∧ ∀ u, u ≠ t → Tile.Told (s.tile u) (s'.tile u)) ∧
    ((s.tile t).triadRuns = true → (s.tile t).triad.mode = .confirm →
      let held := fun (s0 : State) (i : Instr) => s0.modTriad t fun tr => { tr with held := tr.held ++ [i] }
      (∀ (frame : List Byte) (now : Nat), (s.tile t).die.svc = true → (s.tile t).connRx k = true →
        (s.conn t k).binding.isSome = true → (s.conn t k).state ≠ .closed →
        exec (.sedgeFrameReceived t k frame now) s = .next (held (s.at now) (.sedgeFrameReceived t k frame now))) ∧
      (∀ now, exec (.sedgeWatchdogExpiry t (k, now)) s = .next (held (s.at now) (.sedgeWatchdogExpiry t (k, now)))) ∧
      ((s.conn t k).binding.isSome = true → (s.tile t).die.svc = true → (s.tile t).connRx k = false →
        exec (.sedgeTxPeriod t k) s = .next (held s (.sedgeTxPeriod t k))) ∧
      (∀ h : HostCmd, h.tile = t →
        (∀ addr, s.Due h 0x64 → exec (.sedgeOpen h k.val addr) s = .next (held s (.sedgeOpen h k.val addr))) ∧
        (s.Due h 0x65 → exec (.sedgeClose h k.val) s = .next (held s (.sedgeClose h k.val))))) ∧
    (∀ now : Nat, (s.tile t).triadActs = true → (s.conn t k).state = .valid →
      let due := (s.conn t k).wdAt + 1000000 * (s.tile t).parN 0x89 9 k.val
      (due ≤ (s.at now).now → ∃ s', exec (.sedgeWatchdogExpiry t (k, now)) s = .next s' ∧
        s'.conn t k = { s.conn t k with run := 0, state := .substitute } ∧ (s'.tile t).door = (s.tile t).door ∧
        (s'.tile t).ax = (s.tile t).ax ∧ (s'.tile t).field = (s.tile t).field ∧ ∀ j, j ≠ k → s'.conn t j = s.conn t j) ∧
      ((s.at now).now < due → exec (.sedgeWatchdogExpiry t (k, now)) s = .next (s.at now))) ∧
    (∀ addr, (s.conn t k).binding = some addr → (s.tile t).die.svc = true → (s.tile t).connRx k = false →
      (s.tile t).triadActs = true → ∃ s', exec (.sedgeTxPeriod t k) s = .next s' ∧
        s'.conn t k = { s.conn t k with txSeq := (s.conn t k).txSeq + 1 } ∧ (∀ j, j ≠ k → s'.conn t j = s.conn t j) ∧
        (s'.tile t).door = { (s.tile t).door with mailbox := (s'.tile t).door.mailbox } ∧
        (s'.tile t).ax = (s.tile t).ax ∧ (s'.tile t).field = (s.tile t).field ∧
        (∀ slot, addr = .causeway slot → ∃ frame, (slot, s.now, frame) ∈ s'.head.cwy.txBuf ∧
          frame.take 2 = beBytes 2 (s.conn t k).txSeq.toNat) ∧
        (∀ peer, addr = .fabric peer → peer / 4 = s.pkg → ∃ frame, .sedgeFabric t peer frame ∈ s'.out ∧
          frame.take 2 = beBytes 2 (s.conn t k).txSeq.toNat)) ∧
    (∀ h : HostCmd, h.tile = t → (s.tile t).triadActs = true →
      (∀ addr, s.Due h 0x64 → (s.tile t).connId k ≠ 0 → s.addrBroken t k addr = none → s.bufferTaken t addr = none →
        s.sedgeRate t k ≤ 16000 →
        ((s.conn t k).binding.isSome = true → exec (.sedgeOpen h k.val addr) s = .next (s.complete h 0x64 0x1E 0)) ∧
        ((s.conn t k).binding = none → ∃ s', exec (.sedgeOpen h k.val addr) s = .next s' ∧
          (s'.conn t k).binding = some addr ∧ (s'.conn t k).state = .starting ∧ (s'.conn t k).run = 0 ∧
          (s'.tile t).ax = (s.tile t).ax ∧ (s'.tile t).field = (s.tile t).field ∧ ∀ j, j ≠ k → s'.conn t j = s.conn t j)) ∧
      (s.Due h 0x65 →
        ((s.conn t k).binding = none → exec (.sedgeClose h k.val) s =
          .next (s.complete h 0x65 0 0 (leBytes 1 (s.conn t k).state.code))) ∧
        ((s.conn t k).binding.isSome = true → ∃ s', exec (.sedgeClose h k.val) s = .next s' ∧
          (s'.conn t k).binding = none ∧ (s'.conn t k).state = .closed ∧ k ∉ (s'.tile t).door.demSedgeOpen ∧
          k ∉ (s'.tile t).door.demSedgeClose ∧ (s'.tile t).ax = (s.tile t).ax ∧
          (s'.tile t).field = (s.tile t).field ∧ ∀ j, j ≠ k → s'.conn t j = s.conn t j)))

/-- A doorbell write to a disabled ring is ignored, one that repeats the index has no effect, one past the size or past
the device's index stops the ring, whose bit HIF_STATUS then shows, and raises the queue-error event with the ring and
the value, and any other sets the index; a write with bits above 31 set is not taken. A stopped command queue fetches
nothing, and what it has fetched completes into the completion ring that it was fetched with. A stopped completion
ring takes no record: its commands complete without one, as all do while the package head has no service core (the
model's reading, log 24). A stopped event ring takes no event. No doorbell and no write that sets enable makes a
stopped ring run; disabling clears the stop. (R303) -/
def Obligations.DoorbellsMoveTheIndexOrStopTheRing : Prop :=
  ∀ (s : State),
    (∀ (k : RingKind) (n : Fin 32) (v : Word), (k = .evt → n.val < 8) →
      let write : BitVec 64 → Instr := fun w => match k with
        | .cmdq => .cmdqDoorbell n w
        | .cpl => .cplDoorbell n w
        | .evt => .evtDoorbell (Fin.ofNat 8 n.val) w
      let cmd : Instr := write (v.setWidth 64)
      let enable : Instr := match k with
        | .cmdq => .cmdqEnable n v
        | .cpl => .cplRingEnable n v
        | .evt => .evtRingEnable (Fin.ofNat 8 n.val) v
      let r := s.ring k n
      let past := (match k with
        | .cmdq => (r.devIndex + r.size - 1 - r.hostIndex) % r.size
        | _ => (r.devIndex + r.size - r.hostIndex) % r.size) < (v.toNat + r.size - r.hostIndex) % r.size
      (r.enabled = false → exec cmd s = .next s) ∧
      (∀ w : BitVec 64, 2 ^ 32 ≤ w.toNat → exec (write w) s = .next s) ∧
      (v.toNat = r.hostIndex → exec cmd s = .next s) ∧
      (s.hostReady = true → r.enabled = true → s.v1 = false → v.toNat ≠ r.hostIndex →
        ((r.size ≤ v.toNat ∨ past) → exec cmd s = .next ((s.modRing k n fun r => { r with stopped := true }).raiseHead 0x40
          (leBytes 1 (ringCode k) ++ leBytes 1 n.val ++ leBytes 2 0 ++ leBytes 4 v.toNat))) ∧
        (v.toNat < r.size → ¬past → exec cmd s = .next (s.modRing k n fun r => { r with hostIndex := v.toNat }))) ∧
      (r.stopped = true → ∃ s', exec cmd s = .next s' ∧ (s'.ring k n).stopped = true) ∧
      (s.hifStatus (1 + ringCode k)).testBit n.val = r.stopped ∧
      (r.enabled = true → exec enable s = .next s)) ∧
    (∀ (q : Fin 32) d, (s.ring .cmdq q).stopped = true → exec (.descriptorFetch q d) s = .next s) ∧
    (∀ (o : Outstanding) st detail result, o.remote = false →
      let c := s.ring .cpl o.cplRing
      (c.enabled = true → c.stopped = false → (s.tile .t0).die.svc = true → ¬(o.flags.getLsbD 2 = true ∧ st = 0) →
        (s.completeRaw o st detail result).hostMem = memWriteBytes s.hostMem (c.base.toNat + 32 * c.devIndex)
          (completionRecord o c.phase st detail s.ts result)) ∧
      ((c.stopped = true ∨ (s.tile .t0).die.svc = false) → (s.completeRaw o st detail result).hostMem = s.hostMem ∧
        (s.completeRaw o st detail result).out = s.out ∧
        (s.completeRaw o st detail result).head.host.outstanding = s.head.host.outstanding.erase o)) ∧
    (∀ (e : Fin 8) id ts data urgent mark, ((s.head.host.evt)[e]).stopped = true → s.evtPut e id ts data urgent mark = s) ∧
    (s.hostReady = true →
      (∀ q : Fin 32, (s.ring .cmdq q).enabled = true → exec (.cmdqDisable q) s =
        .next (s.modRing .cmdq q fun r => { r with enabled := false, busy := true, stopped := false })) ∧
      (∀ e : Fin 8, ((s.head.host.evt)[e]).enabled = true → exec (.evtRingDisable e) s =
        .next (s.modRing .evt (Fin.ofNat 32 e.val) fun r => { r with enabled := false, busy := true, stopped := false })))

/-- A CTL write that sets enable on a disabled ring takes its size, route and priority and starts with both indices 0 and
phase 1. A completion ring that an enabled queue names, or that has entries reserved, stays enabled; another stops and
is busy until the disable completes. Moderation signals the vector of a ring with unsignalled records; a masked vector
pends, and unmasking sends what pends. IFC_CTL is kept while a timer of the package or, as the board head knows, of
another is armed; a write that takes effect is told to the packages reached. Reading BWK_STATUS clears the link
changes in the window and in its package. Register writes at their offsets do the same as the commands, BASE takes
effect with its high word or in one 64-bit write, and a write of any other size or alignment is ignored. The refresh
puts the summary of each reporting tile into its window. (R299, R301, R312, R375, R386, R387, R389, R390, R391) -/
def Obligations.RingRegistersAndInterrupts : Prop :=
  ∀ s : State,
    (s.hostReady = true → s.v1 = false →
      (∀ (n : Fin 32) (k : RingKind) (size route prio : Nat), 4 ≤ size → size ≤ 12 → (k = .evt → n.val < 8) →
        let r := s.ring k n
        let ctl : Word := match k with
          | .cmdq => BitVec.ofNat 32 (2 * size + 256 * route + 65536 * prio)
          | _ => BitVec.ofNat 32 (2 * size + 64 * route)
        let enable : Instr := match k with
          | .cmdq => .cmdqEnable n ctl
          | .cpl => .cplRingEnable n ctl
          | .evt => .evtRingEnable (Fin.ofNat 8 n.val) ctl
        let off : Nat := match k with
          | .cmdq => 0x100 + 32 * n.val
          | .cpl => 0x500 + 32 * n.val
          | .evt => 0x900 + 32 * n.val
        (r.enabled = false → r.busy = false → r.base.toNat + 2 ^ size * ringEntry k ≤ 2 ^ 64 →
          (k = .cmdq → route < 32 ∧ prio < 4 ∧ (s.ring .cpl (Fin.ofNat 32 route)).enabled = true ∧
            (s.ring .cpl (Fin.ofNat 32 route)).busy = false) →
          (k ≠ .cmdq → route < 64 ∧ prio = r.prio) →
          exec enable s = .next (s.modRing k n fun r =>
            { r with sizeLog2 := size, route := route, prio := prio, enabled := true, devIndex := 0, hostIndex := 0
                     phase := true, stopped := false, unsignalled := 0, lost := 0, markAt := none
                     recHeld := false, ringHeld := false }) ∧
          exec (.registerWrite (BitVec.ofNat 16 (off + 8)) (4, (ctl ||| 1).setWidth 64)) s = exec enable s) ∧
        (∀ low high : Word, r.enabled = false → r.busy = false → low.toNat % 4096 = 0 →
          s.head.host.lowWord = some (off, low) →
          exec (.registerWrite (BitVec.ofNat 16 (off + 4)) (4, high.setWidth 64)) s = .next ((s.modHost fun h => { h with lowWord := none }).modRing
            k n fun r => { r with base := BitVec.ofNat 64 (low.toNat + 2 ^ 32 * high.toNat) })) ∧
        (∀ base : BitVec 64, r.enabled = false → r.busy = false → base.toNat % 4096 = 0 →
          exec (.registerWrite (BitVec.ofNat 16 off) (8, base)) s = .next ((s.modHost fun h => { h with lowWord := none }).modRing
            k n fun r => { r with base := base })) ∧
        (r.busy = true → exec (.ringDisableComplete k n) s = .next (s.modRing k n fun r => { r with busy := false })) ∧
        (k ≠ .cmdq → r.enabled = true → r.unsignalled ≠ 0 → ∃ s', exec (.interruptModerationTimeout k n) s = .next s' ∧
          (s'.ring k n).unsignalled = 0 ∧ s'.hostMem = s.hostMem ∧
          (s.head.host.masked r.route = true → s'.out = s.out ∧
            s'.head.host.pba = s.head.host.pba ||| BitVec.ofNat 64 (2 ^ r.route)) ∧
          (s.head.host.masked r.route = false → s'.out = .msix r.route :: s.out ∧ s'.head.host.pba = s.head.host.pba))) ∧
      (∀ c : Fin 32, (s.ring .cpl c).enabled = true →
        (((s.ring .cpl c).reserved ≠ 0 ∨ ∃ q : Fin 32, (s.ring .cmdq q).enabled = true ∧ (s.ring .cmdq q).route = c.val) →
          exec (.cplRingDisable c) s = .next s) ∧
        ((s.ring .cpl c).reserved = 0 → (∀ q : Fin 32, (s.ring .cmdq q).enabled = true → (s.ring .cmdq q).route ≠ c.val) →
          exec (.cplRingDisable c) s =
            .next (s.modRing .cpl c fun r => { r with enabled := false, busy := true, stopped := false }))) ∧
      (∀ v : Fin 64, ∃ s', exec (.msixVectorUnmask v) s = .next s' ∧ s'.head.host.masked v.val = false ∧
        s'.head.host.pba.getLsbD v.val = false ∧ s'.tiles = s.tiles ∧
        s'.out = (if s.head.host.pba.getLsbD v.val then [.msix v.val] else []) ++ s.out)) ∧
    (∀ value : Word, ((∃ i : Fin 8, ((s.head.time.timers)[i]).armed = true) ∨ s.farArmed = true) →
      exec (.ifcCtlWrite value) s = .next s) ∧
    ((∀ i : Fin 8, ((s.head.time.timers)[i]).armed = false) → s.farArmed = false →
      let set := fun (v : Bool) => (s.modTime fun tb => { tb with compatRk := v }).bwkTell (.compat v)
      exec (.ifcCtlWrite 1) s = .next (set true) ∧
      (s.head.time.compatStrap = true → exec (.ifcCtlWrite 0) s = .next s) ∧
      (s.head.time.compatStrap = false → exec (.ifcCtlWrite 0) s = .next (set false))) ∧
    (∀ pkg : Fin 4, (s.isHead = false → exec (.bwkStatusRead pkg) s = .next s) ∧
      (s.isHead = true → SMap.wf s.windows = true →
        let k := 0x4100 + 0x1000 * pkg.val
        let word := (s.windows.get k).toNat
        ∃ s', exec (.bwkStatusRead pkg) s = .next s' ∧ s'.tiles = s.tiles ∧ s'.windows.get k = ((word % 2 ^ 24 : Nat) : Int) ∧
          (∀ j, j ≠ k → s'.windows.get j = s.windows.get j) ∧
          (pkg.val = s.pkg → s'.head = { s.head with board :=
            { s.head.board with linkChanges := s.head.board.linkChanges - word / 2 ^ 24 } } ∧ s'.out = s.out) ∧
          (pkg.val ≠ s.pkg → s'.head = s.head ∧
            s'.out = ({ s with windows := s'.windows }.bwkSend pkg.val (.changesRead (word / 2 ^ 24))).out))) ∧
    (s.isHead = true → ∀ value : Word, exec (.registerWrite 0x24 (4, value.setWidth 64)) s = exec (.ifcCtlWrite value) s ∧
      exec (.registerWrite 0x20 (4, 1)) s = exec .sessEnd s ∧ exec (.registerWrite 0x00 (4, value.setWidth 64)) s = .next s) ∧
    (∀ (offset : BitVec 16) len value, (len ≠ 4 ∨ offset.toNat % 4 ≠ 0) → (len ≠ 8 ∨ offset.toNat % 8 ≠ 0) →
      exec (.registerWrite offset (len, value)) s = .next s) ∧
    (s.isHead = true → (s.tile .t0).die.inReset = false → SMap.wf s.windows = true → ∃ s', exec .windowRefresh s = .next s' ∧
      s' = { s with windows := s'.windows } ∧ ∀ t, s.hasTile t = true → (s.tile t).die.reported = true →
        s'.windows.get (0x8004 + 0x400 * (4 * s.pkg + t.num)) = s.ilkSummary t ∧
        s'.windows.get (0x8008 + 0x400 * (4 * s.pkg + t.num)) = (s.tile t).die.secBoot)

/-- Each PCIe reset, link down, Bus Master Enable cleared, and a SESS_END or a HELLO in an open session is a host reset,
of which a joined board is told: the rings, the MSI-X table and the pending bits return to reset, what was fetched is
discarded, and beside the mailboxes every tile and the rest of the head stand; the first four also reset the PCIe
function. HELLO opens a session with the next number in the highest version of its range, completes 0x07 when there is
none, and under version 1.0 closes the queues from 8 on. (R299, R313, R314, R315, R316, R387, R388, R389) -/
def Obligations.SessionsOpenAndEnd : Prop :=
  ∀ s : State,
    (s.hostReset.head = { s.head with host := { HostIf.reset with
        ready := s.head.host.ready, session := s.head.host.session, nextSeq := s.head.host.nextSeq
        outstanding := s.head.host.outstanding.filter (·.remote) } } ∧
      s.hostReset.hostMem = s.hostMem ∧ (s.joined = false → s.hostReset.out = s.out) ∧ ∀ t, (s.hostReset.tile t) = { s.tile t with door :=
        { (s.tile t).door with mailbox := (s.hostReset.tile t).door.mailbox } }) ∧
    (s.isHead = true → ∀ c ∈ ([.pcieConventionalReset, .pcieHotReset, .functionLevelReset, .pcieLinkDown] : List Instr), exec c s = .next (s.hostReset.modHead fun hd => { hd with pcie := Pcie.reset })) ∧
    (s.isHead = true → exec .busMasterEnableCleared s = .next s.hostReset) ∧
    (s.head.host.sessionOpen = true → exec .sessEnd s = .next s.hostReset) ∧
    (s.head.host.sessionOpen = false → exec .sessEnd s = .next s) ∧
    (∀ (h : HostCmd) (lo hi : BitVec 16) (hid : BitVec 64), s.Due h 0x01 → s.head.host.bye = none →
      (s.head.host.sessionOpen = false →
        ((∀ v ∈ ([0x0300, 0x0201, 0x0200, 0x0100] : List (BitVec 16)), hi < v ∨ v < lo) →
          exec (.hello h lo hi hid) s = .next (s.complete h 0x01 0x07 0)) ∧
        (lo = 0x0100 → hi = 0x0100 → h.queue.val < 8 → ∃ s', exec (.hello h lo hi hid) s = .next s' ∧
          s'.head.host.version = 0x0100 ∧ s'.head.host.sessionOpen = true ∧
          ∀ q : Fin 32, 8 ≤ q.val → (s'.ring .cmdq q).enabled = false)) ∧
      (lo ≤ 0x0300 → 0x0300 ≤ hi → ∃ s', exec (.hello h lo hi hid) s = .next s' ∧ s'.head.host.sessionOpen = true ∧
        s'.head.host.version = 0x0300 ∧ s'.head.host.session = s.head.host.session + 1 ∧ s'.head.host.hostId = hid ∧
        (s.head.host.sessionOpen = true → ∀ k n, (s'.ring k n).enabled = false) ∧
        ∀ t, (s'.tile t).field = (s.tile t).field ∧ (s'.tile t).door.st = (s.tile t).door.st))

/-- While BYE stands no descriptor is fetched from any queue. BYE completes the commands held for their time with 0x08,
and none stays. With nothing else outstanding it completes with 0x00 and the session ends as a host reset; with others
outstanding it waits, and completes with the last of them. After 100 ms a BYE that is not itself held completes
whatever is outstanding, and the session ends with the rest discarded. (R317) -/
def Obligations.ByeEndsTheSessionCleanly : Prop :=
  ∀ s : State,
    (s.head.host.bye.isSome = true → ∀ q d, exec (.descriptorFetch q d) s = .next s) ∧
    (∀ (h : HostCmd) (b : Outstanding), s.Due h 0x02 → s.findOut h 0x02 = some b →
      let s0 := s.modHost fun hi => { hi with bye := some h }
      let mine := s.head.host.outstanding.filter (!·.remote)
      (mine = [b] → exec (.bye h) s = .next (s0.completeRaw b 0 0 []).hostReset) ∧
      (∀ o : Outstanding, o.waiting = true → o.forwarded = none → (mine = [o, b] ∨ mine = [b, o]) →
        exec (.bye h) s = .next ((s0.completeRaw o 0x08 0 []).completeRaw b 0 0 []).hostReset) ∧
      ((∀ o ∈ mine, o.waiting = false) → 2 ≤ mine.length → exec (.bye h) s = .next s0) ∧
      (∃ s', exec (.bye h) s = .next s' ∧
        ∀ o ∈ s'.head.host.outstanding, o.remote = false → o.waiting = false)) ∧
    (∀ (o b : Outstanding) st detail result, s.head.host.bye.isSome = true → b.opcode = 0x02 → b.waiting = false → o ≠ b →
      (s.head.host.outstanding.filter (!·.remote) = [o, b] ∨ s.head.host.outstanding.filter (!·.remote) = [b, o]) →
      s.completeOut o st detail result = ((s.completeRaw o st detail result).completeRaw b 0 0 []).hostReset) ∧
    (∀ (h : HostCmd) (b : Outstanding), s.head.host.bye = some h → s.findOut h 0x02 = some b →
      exec .byeTimeout s = .next (if b.waiting then s else (s.completeRaw b 0 0 []).hostReset)) ∧
    (s.hostReset.head.host.outstanding = s.head.host.outstanding.filter (·.remote) ∧
      s.hostReset.head.host.sessionOpen = false ∧ s.hostReset.head.host.bye = none)

/-- On the queue whose turn it is, in a version 3.0 session of a board that is not joined, for a command other than BYE: a
sound descriptor without flags moves the queue's index, reserves an entry of its completion ring and leaves the
command outstanding and released. With a not-before time ahead it is held; behind a held command too. With fence and
an earlier command outstanding nothing is fetched. One that fails a common check completes at once. The release lets
the one held command act when its time has come, and not before; one that stood behind another is passed on to its
tile, and on a queue that has stopped completes 0x0B. Out of turn nothing is fetched. Without a session any other
opcode than HELLO completes 0x01. (R305, R306, R307, R309, R322) -/
def Obligations.DescriptorsAreFetchedInTurn : Prop :=
  ∀ (s : State) (q : Fin 32) (desc : Vector Byte 64),
    let d := desc.toList
    let op := fieldLe d 0 1
    let flags := fieldLe d 1 1
    let r := s.ring .cmdq q
    let c : Fin 32 := Fin.ofNat 32 r.route
    let o : Outstanding :=
      { queue := q, tag := BitVec.ofNat 32 (fieldLe d 4 4), opcode := op, flags := BitVec.ofNat 8 flags
        target := BitVec.ofNat 32 (fieldLe d 8 4), sqHead := if r.devIndex + 1 = r.size then 0 else r.devIndex + 1
        notBefore := BitVec.ofNat 32 (fieldLe d 12 4), waiting := false, behind := false, accepted := false, lost := false
        session := s.head.host.session, forwarded := none, remote := false, desc := d, blocks := [], hostId := s.head.host.hostId
        cplRing := c }
    let status := s.commonStatus op flags (fieldLe d 2 2) (fieldLe d 8 4) (d.drop 16)
    let earlier := s.head.host.outstanding.filter fun x => x.queue == q && !x.remote
    let held := s.head.host.outstanding.filter fun x => x.queue == q && x.waiting && !x.remote
    (s.nextQueue ≠ some q → exec (.descriptorFetch q desc) s = .next s) ∧
    (s.nextQueue = some q → s.hostReady = true → (s.tile .t0).die.svc = true → s.head.host.sessionOpen = true →
      s.head.host.version = 0x0300 → s.joined = false → op ≠ 0x02 → o ∉ s.head.host.outstanding →
      let fetched := fun (s' : State) => (s'.ring .cmdq q).devIndex = o.sqHead ∧
        s'.tiles = s.tiles ∧ s'.hostMem = s.hostMem ∧ (s'.ring .cpl c).reserved = (s.ring .cpl c).reserved + 1
      (status = none → flags = 0 → held = [] → ∃ s', exec (.descriptorFetch q desc) s = .next s' ∧ fetched s' ∧
        s'.head.host.outstanding = s.head.host.outstanding ++ [o]) ∧
      (status = none → (flags = 1 ∧ 0 < tsDiff o.notBefore s.ts ∨ flags = 0 ∧ held ≠ []) →
        ∃ s', exec (.descriptorFetch q desc) s = .next s' ∧ fetched s' ∧
          s'.head.host.outstanding = s.head.host.outstanding ++ [{ o with waiting := true, behind := !held.isEmpty }]) ∧
      (flags = 2 → earlier ≠ [] → exec (.descriptorFetch q desc) s =
        .next (s.modHost fun h => { h with fenced := h.fenced ++ [q] })) ∧
      (∀ st, status = some st → flags ≠ 2 → flags < 8 → flags.testBit 1 = false →
        ∃ s', exec (.descriptorFetch q desc) s = .next s' ∧
          (s'.ring .cmdq q).devIndex = o.sqHead ∧ s'.tiles = s.tiles ∧ s'.head.host.outstanding = s.head.host.outstanding)) ∧
    (s.head.host.sessionOpen = false → op ≠ 0x01 → status = some 0x01) ∧
    (∀ x : Outstanding, s.joined = false → held = [x] → s.head.host.outstanding.Nodup →
      (∀ y ∈ s.head.host.outstanding, y.queue = q → y.waiting = true → y.remote = false) →
      let cut := x.behind && (s.ring .cmdq q).stopped
      let put := fun (wait : Bool) => s.modHost fun h => { h with
        outstanding := h.outstanding.map fun y => if y == x then { x with waiting := wait, behind := false } else y }
      (cut = true → exec (.notBeforeRelease q) s = .next (s.completeOut x 0x0B 0 [])) ∧
      (cut = false → s.tooSoon x = true → exec (.notBeforeRelease q) s = .next (if x.behind then put true else s)) ∧
      (cut = false → s.tooSoon x = false → exec (.notBeforeRelease q) s = .next (put false)))

/-- POLICY_LOAD of a bundle whose signature fails completes 0x1F and stages nothing; one that breaks a rule completes 0x14
with the rule and the entry; one in order is staged. POLICY_ACTIVATE with nothing staged completes 0x18, and 0x17
while an earlier bundle waits (the model's choice of code, log 12); with a seal code in force that the switches do not
match and other safety parameters it leaves the bundle staged; else the bundle waits to take effect with every
parameter as before. It takes effect with no pass and no calibration run: its values are in force and the policy is
valid; during a pass or such a run nothing changes. Tile and axis parameters as written come into force the same way,
each axis for itself. (R7, R32, R93, R142, R194, R332, R334, R360, R362) -/
def Obligations.PolicyBundlesAreStagedAndTakeEffect : Prop :=
  ∀ (s : State) (t : TileId), s.hasTile t = true →
    (∀ (h : HostCmd) (b : List Byte), h.tile = t → s.Due h 0x12 → h.dmaFault = false → b.length ≤ 65536 →
      ((s.tile t).die.bundleSigned b = false → exec (.policyLoad h b) s = .next (s.complete h 0x12 0x1F 0)) ∧
      (∀ r i, (s.tile t).die.bundleSigned b = true → (s.tile t).bundleBroken b = some (r, i) →
        exec (.policyLoad h b) s = .next (s.complete h 0x12 0x14 r (leBytes 1 i))) ∧
      ((s.tile t).die.bundleSigned b = true → (s.tile t).bundleBroken b = none → exec (.policyLoad h b) s =
        .next ((s.modDie t fun d => { d with staged := some b }).complete h 0x12 0 0))) ∧
    (∀ h : HostCmd, h.tile = t → s.Due h 0x13 → (s.tile t).triadActs = true →
      ((s.tile t).die.staged = none → exec (.policyActivate h) s =
        .next (s.complete h 0x13 (if (s.tile t).door.activating.isSome then 0x17 else 0x18) 0)) ∧
      (∀ b, (s.tile t).die.staged = some b →
        (s.sealInForce = true → bundleSafety b ≠ (s.tile t).safetySectionBytes → s.sealOk = false →
          ∃ s', exec (.policyActivate h) s = .next s' ∧ (s'.tile t).die = (s.tile t).die ∧
            (s'.tile t).door.activating = (s.tile t).door.activating ∧ (s'.tile t).inForce = (s.tile t).inForce) ∧
        ((s.sealInForce = false ∨ bundleSafety b = (s.tile t).safetySectionBytes ∨ s.sealOk = true) →
          ((s.tile t).door.activating.isSome = true → exec (.policyActivate h) s = .next (s.complete h 0x13 0x17 0)) ∧
          ((s.tile t).door.activating = none → ∃ s', exec (.policyActivate h) s = .next s' ∧
            (s'.tile t).die.staged = none ∧ (s'.tile t).door.activating = some (h, b) ∧
            (s'.tile t).die.bundle = (s.tile t).die.bundle ∧ (s'.tile t).inForce = (s.tile t).inForce)))) ∧
    (∀ (h : HostCmd) b, (s.tile t).door.activating = some (h, b) → (s.tile t).triadActs = true →
      (((s.tile t).anyPass = true ∨ (s.tile t).door.calRun = true) → exec (.policyBundleTakesEffect t) s = .next s) ∧
      ((s.tile t).anyPass = false → (s.tile t).door.calRun = false → ∃ s', exec (.policyBundleTakesEffect t) s = .next s' ∧
        (s'.tile t).die.bundle = some b ∧ (s'.tile t).die.policyOk = true ∧ (s'.tile t).door.activating = none ∧
        (s'.tile t).inForce = (bundleValues b).foldl (fun m p => pSet m p.1 p.2) (s.tile t).inForce ∧
        (s'.tile t).door.st = (s.tile t).door.st ∧ (∀ a, (s'.axis t a).inForce = (s.axis t a).inForce) ∧
        ∀ u, u ≠ t → Tile.Told (s.tile u) (s'.tile u))) ∧
    ((s.tile t).triadActs = true →
      ((s.tile t).anyPass = true → exec (.tileParametersTakeEffect t) s = .next s) ∧
      ((s.tile t).anyPass = false → SMap.wf (s.tile t).inForce = true → ∃ s',
        exec (.tileParametersTakeEffect t) s = .next s' ∧ s' = s.modTile t (fun tl => { tl with inForce := (s'.tile t).inForce }) ∧
        (∀ r, r < 5 → (s'.tile t).par 0x11 r = pGet (s.tile t).written (pKey 0x11 r 0 none)) ∧
        (s'.tile t).par 0x11 8 = (s.tile t).par 0x11 8)) ∧
    (∀ a, ((s.axis t a).pa.active = true → exec (.axisParametersTakeEffect t a) s = .next s) ∧
      ((s.axis t a).pa.active = false → SMap.wf (s.axis t a).inForce = true → ∃ s',
        exec (.axisParametersTakeEffect t a) s = .next s' ∧
        (∀ k ∈ axisKeys a, pGet (s'.axis t a).inForce k = pGet (s.tile t).written k) ∧
        (s'.axis t a).fb = (s.axis t a).fb ∧ (s'.axis t a).mo = (s.axis t a).mo ∧ (∀ b, b ≠ a → s'.axis t b = s.axis t b) ∧
        (s'.tile t).field = (s.tile t).field))

/-- For any entries: when the prospective set of an axis has i_max × r_shunt above 250 mV, or an SSI request time (ssi_len
+ 1) / ssi_f + ssi_delay + ssi_tm above ssi_every / f_loop, the command runs and every parameter written and in force
stays as it was. The defaults give 50 mV. Entries that break nothing, with a sound ratio of the divided encoder
output, are written together. A CAN filter block of 1 024 bytes, clean where no connection owns the buffer, sets each
such buffer; of another length it completes 0x14. CFG_READ writes the value of its selector, and a block into a buffer
that holds it, to host memory. (R85, R406) -/
def Obligations.ParameterSetsAreTakenOrRefusedWhole : Prop :=
  (∀ a, (State.reset.tile .t0).parAN a 0x04 3 * (State.reset.tile .t0).parAN a 0x04 4 = 50000) ∧
  ∀ (s : State) (h : HostCmd),
    (∀ entries : Vector CfgEntry 5, s.Due h 0x10 → (s.tile h.tile).triadActs = true →
      let es := usedEntries entries
      let vals : List (Nat × Int) := es.filterMap fun x => match cfgRow x.2.param x.2.index with
        | some r => if x.2.param = imageParam || x.2.enco.isSome then none else some (s.cfgKey h x.2.param x.2.index, r.decode x.2.value.toNat)
        | none => none
      let p := (s.tile h.tile).prospect vals
      let above := fun (a : AxisId) => 250000 < p.parAN a 0x04 3 * p.parAN a 0x04 4
      let slow := fun (a : AxisId) => 0 < p.parAN a 0x08 15 ∧ 0 < p.parAN a 0x05 1 ∧
        (p.parAN a 0x08 18 : Rat) / p.parAN a 0x05 1 <
          (p.parAN a 0x08 11 + 1 : Rat) / p.parAN a 0x08 15 + (p.parAN a 0x08 16 : Rat) / 1000000000 +
            (p.parAN a 0x08 17 : Rat) / 1000000
      ((∃ a, above a ∨ slow a) → ∃ s', exec (.cfgWriteEntries h entries) s = .next s' ∧
        (s'.tile h.tile).written = (s.tile h.tile).written ∧ (s'.tile h.tile).inForce = (s.tile h.tile).inForce ∧
        (s'.tile h.tile).ax = (s.tile h.tile).ax ∧ (s'.tile h.tile).field = (s.tile h.tile).field ∧
        s'.head.cwy = s.head.cwy) ∧
      ((es.flatMap fun x => s.entryRefusals h x.1 x.2) = [] → duplicateRefusals es = [] →
        s.setBroken h.tile p (es.map fun x => x.2.param.toNat / 256) = [] →
        let enco := (s.tile h.tile).encoSetup es
        1 ≤ enco.2.1 → enco.2.1 ≤ enco.2.2 → enco.2.2 ≤ 65535 →
        ∃ s', exec (.cfgWriteEntries h entries) s = .next s' ∧ (s'.tile h.tile).written = p.written ∧
          ((s'.tile h.tile).encoSrc, (s'.tile h.tile).encoN, (s'.tile h.tile).encoM) = enco ∧
          ∀ u, u ≠ h.tile → (s'.tile u).written = (s.tile u).written)) ∧
    (∀ (c : Fin 2) (data : List Byte), s.Due h 0x10 → (s.tile h.tile).triadActs = true → h.dmaFault = false →
      (data.length ≠ 1024 → exec (.cfgWriteBlock h 0x0F01 (BitVec.ofNat 8 c.val) data) s =
        .next (s.complete h 0x10 0x14 333 [0xFF])) ∧
      (data.length = 1024 → (∀ b : Fin 64, (s.canBuf h.tile c b).sedge = none → filterClean (slice data (16 * b.val) 16) = true) →
        ∃ s', exec (.cfgWriteBlock h 0x0F01 (BitVec.ofNat 8 c.val) data) s = .next s' ∧
          (∀ b : Fin 64, s'.canBuf h.tile c b = (s.canBuf h.tile c b).refilter (slice data (16 * b.val) 16)) ∧
          (s'.tile h.tile).written = (s.tile h.tile).written)) ∧
    (∀ (addr : BitVec 64) (selectors : Vector CfgSelector 8) (i : Nat) (e : CfgSelector), s.Due h 0x11 → h.dmaFault = false →
      (((List.range 8).zip selectors.toList).filter fun x => x.2.param != 0) = [(i, e)] →
      s.cfgBadTarget h e.param e.index = false → (cfgRow e.param e.index).isSome = true →
      exec (.cfgReadEntries h addr selectors) s = .next ((s.dma addr.toNat (leBytes 2 e.param.toNat ++ leBytes 1 e.index.toNat ++
        [0] ++ leBytes 4 (pEncode (s.cfgValue h e.param e.index)))).complete h 0x11 0 0)) ∧
    (∀ (addr : BitVec 64) (size : Nat), s.Due h 0x11 → h.dmaFault = false →
      (size < 8 → exec (.cfgReadBlock h addr 0x8006 0 size) s = .next (s.complete h 0x11 0x14 333 [0xFF])) ∧
      (8 ≤ size → exec (.cfgReadBlock h addr 0x8006 0 size) s = .next ((s.dma addr.toNat
        (leBytes 4 (s.tile h.tile).field.image.toNat ++ leBytes 1 (8 - (s.tile h.tile).field.images.length) ++
          leBytes 3 0)).complete h 0x11 0 0)))

/-- EVENTS_RECORD_TIMEOUT with the timer running writes the open EVENTS record of at most 16 entries, where the log has
room. The block at the front of the signing queue is signed, and joins those to drain. A good copy of the oldest
signed block, with fewer than 240 free, moves it to flash, a bad one marks the sector. A LOG_DRAIN of one block by the
host's own package, whose completion is written, frees the oldest; a room under one block completes 0x14. LOG_SEAL
fills the open block of each tile whose log has room and nothing waiting; with none open it completes 0x18. LOG_MARK
adds one record to such a log. FW_STAGE keeps chunks in order and refuses one out of order; FW_COMMIT before the last
is refused, and after it marks the image pending if it verifies and completes 0x1F if not. A first key is registered
on every tile, another one refused, and while the seal is open changes no die. ATTEST answers and leaves log and die.
(R341, R344, R348, R351, R353, R354, R357, R358, R359, R362) -/
def Obligations.TheLogIsSignedDrainedAndSealed : Prop :=
  ∀ (s : State),
    (∀ t, s.hasTile t = true →
      ((s.tile t).peat.openTimer.isRunning = true → (s.tile t).die.svc = true → ∃ s', exec (.eventsRecordTimeout t) s = .next s' ∧
        ((s.tile t).peat.openEvents.length ≤ 16 → (s.tile t).peat.records.length < peatCapacity →
          t ≠ .t0 ∨ s.head.logHigh = true → (s'.tile t).peat.openEvents = []) ∧
        Tile.Told (s.tile t) (s'.tile t)) ∧
      (∀ b rest, s.head.signQueue = (t, b) :: rest → (s.tile .t0).die.svc = true →
        let sig := leBytes sigLen (Config.falconSign (s.blockMessage t b)).toNat
        ∃ s', exec (.blockSignatureComplete t) s = .next s' ∧ s'.head.signQueue = rest ∧ (t, b) ∈ s'.head.drainQueue ∧
          b ∈ (s'.tile t).peat.signed ∧
          (s'.tile t).peat.records = (s.tile t).peat.records.map fun r => if r.seq / 32 == b then r.withSig sig else r) ∧
      (∀ b sec, (s.tile t).peat.signed.find? (fun b => (s.tile t).peat.records.any (·.seq / 32 == b)) = some b →
        s.flashPlace t = some sec → (s.tile .t0).die.svc = true → 32 * 720 < (s.tile t).peat.records.length →
        (∃ s', exec (.flashBlockCopyComplete t true) s = .next s' ∧
          (s'.tile t).peat.records = ((s.tile t).peat.records.filter fun x => x.seq / 32 != b) ∧
          (b, sec, (s.tile t).peat.records.filter fun x => x.seq / 32 == b) ∈ (s'.tile t).peat.inFlash) ∧
        (∃ s', exec (.flashBlockCopyComplete t false) s = .next s' ∧ sec ∈ s'.head.badSectors ∧
          (t ≠ .t0 → (s'.tile t).peat.records = (s.tile t).peat.records)))) ∧
    (∀ h : HostCmd, (s.Due h 0x70 → h.dmaFault = false → ∀ (addr : BitVec 64) (size most : Nat),
        (size < 16384 → exec (.logDrain h addr size most) s = .next (s.complete h 0x70 0x14 341 [0xFF])) ∧
        (∀ o t b rest, s.findOut h 0x70 = some o → o.remote = false → s.completionWritten o = true → s.head.host.bye = none →
          s.head.drainQueue = (t, b) :: rest → 16384 ≤ size → most = 1 →
          ∃ s', exec (.logDrain h addr size most) s = .next s' ∧ (t, b) ∉ s'.head.drainQueue ∧
            (∀ x ∈ rest, x ≠ (t, b) → x ∈ s'.head.drainQueue) ∧
            b ∉ (s'.tile t).peat.signed ∧ ∀ r ∈ (s'.tile t).peat.records, r.seq / 32 ≠ b)) ∧
      (s.Due h 0x71 →
        ((∀ t, s.hasTile t = true → (s.tile t).peat.nextSeq % 32 = 0) →
          exec (.logSeal h) s = .next (s.complete h 0x71 0x18 0)) ∧
        (∀ t, s.hasTile t = true → (s.tile t).die.svc = true → (s.tile t).peat.nextSeq % 32 ≠ 0 →
          (s.tile t).peat.openEvents = [] → (s.tile t).peat.wrapped = [] → (s.tile t).peat.lostCount.toList.sum = 0 →
          (s.tile t).peat.records.length + 32 ≤ peatCapacity →
          ∃ s', exec (.logSeal h) s = .next s' ∧
            (s'.tile t).peat.nextSeq = ((s.tile t).peat.nextSeq / 32 + 1) * 32)) ∧
      (s.Due h 0x72 → ∀ marker : Vector Byte 32, ∃ s', exec (.logMark h marker) s = .next s' ∧
        ((s.tile h.tile).peat.openEvents = [] → (s.tile h.tile).peat.wrapped = [] →
          (s.tile h.tile).peat.lostCount.toList.sum = 0 → (s.tile h.tile).peat.records.length < peatCapacity →
          (s'.tile h.tile).peat.nextSeq = (s.tile h.tile).peat.nextSeq + 1 ∧
          ∃ r, (s'.tile h.tile).peat.records = (s.tile h.tile).peat.records ++ [r] ∧ r.type = 8 ∧
            r.seq = (s.tile h.tile).peat.nextSeq ∧ r.body.take 32 = marker.toList)) ∧
      (s.Due h 0x90 → h.dmaFault = false → ∀ (offset total : Nat) (chunk : List Byte), offset + chunk.length ≤ total →
        total ≤ fwMax →
        ((offset ≠ 0 → offset ≠ (s.tile .t0).die.slotB.length →
          exec (.fwStage h offset total chunk) s = .next (s.complete h 0x90 0x14 359 [0xFF])) ∧
        (offset = 0 → ∃ s', exec (.fwStage h 0 total chunk) s = .next s' ∧ ∀ t, s.hasTile t = true →
            (s'.tile t).die.slotB = chunk ∧ (s'.tile t).die.stageTotal = total ∧ (s'.tile t).die.fwPending = false) ∧
        (((s.tile .t0).die.stageTotal ≠ 0 → offset = (s.tile .t0).die.slotB.length → offset ≠ 0 →
          ∃ s', exec (.fwStage h offset total chunk) s = .next s' ∧ ∀ t, s.hasTile t = true →
            (s'.tile t).die.slotB = (s.tile t).die.slotB ++ chunk ∧ (s'.tile t).die.fwPending = false)))) ∧
      (s.Due h 0x91 →
        (((s.tile .t0).die.stageTotal = 0 ∨ (s.tile .t0).die.slotB.length ≠ (s.tile .t0).die.stageTotal) →
          exec (.fwCommit h) s = .next (s.complete h 0x91 0x18 0)) ∧
        ((s.tile .t0).die.stageTotal ≠ 0 → (s.tile .t0).die.slotB.length = (s.tile .t0).die.stageTotal →
          (∃ t, s.hasTile t = true ∧ (s.tile t).die.imageOk (s.tile t).die.slotB = false) →
          exec (.fwCommit h) s = .next (s.complete h 0x91 0x1F 0)) ∧
        ((s.tile .t0).die.stageTotal ≠ 0 → (s.tile .t0).die.slotB.length = (s.tile .t0).die.stageTotal →
          (∀ t, s.hasTile t = true → (s.tile t).die.imageOk (s.tile t).die.slotB = true) →
          ∃ s', exec (.fwCommit h) s = .next s' ∧ ∀ t, s.hasTile t = true →
            (s'.tile t).die = { (s.tile t).die with fwPending := true })) ∧
      (s.Due h 0x92 → h.dmaFault = false → (s.tile h.tile).triadActs = true → ∀ key : List Byte, key.length = 1793 →
        ((s.tile .t0).die.key = none → ∃ s', exec (.keyRegister h key) s = .next s' ∧ ∀ t, s.hasTile t = true →
          (s'.tile t).die.key = (s.tile t).die.key.or (some key)) ∧
        ((s.tile .t0).die.key.isSome = true → s.sealOk = false → ∃ s', exec (.keyRegister h key) s = .next s' ∧
          ∀ t, (s'.tile t).die = (s.tile t).die) ∧
        ((s.tile .t0).die.key.isSome = true → s.sealOk = true →
          exec (.keyRegister h key) s = .next (s.complete h 0x92 0x26 0))) ∧
      (s.Due h 0x93 → h.dmaFault = false → ∀ nonce addr, ∃ s', exec (.attest h nonce addr) s = .next s' ∧
        ∀ t, (s'.tile t).peat = (s.tile t).peat ∧ (s'.tile t).die = (s.tile t).die))

/-- A trained link has its neighbour known and is up where the neighbour is the next package; straps that disagree
anywhere are a strap fault, of a board of one; the head numbers the packages. A joined package trains a port that is
down again. A port that goes down forgets its neighbour and delay and counts a change; the head without any port loses
every package, another package that loses its route takes the other and counts as HOLDOVER. A frame that fails its CRC
is lost, and the sixteenth within 1 ms takes the port down; straps told are kept; one for another package goes on,
from the head by its route; a descriptor for this package becomes outstanding and is acknowledged, a confirmation ends
the repetition; at the head a completion, but of LOG_DRAIN, completes its command and is acknowledged. The timer sends
everything unconfirmed again. A command without acknowledgement, or lost, completes 0x0A at its time. A timing
exchange takes half the round trip and, by the route, the head's state. (R22, R320, R367, R369, R370, R371, R372,
R373, R374, R376) -/
def Obligations.BoardwalkJoinsPackagesAndCarriesCommands : Prop :=
  ∀ (s : State) (port : Fin 2),
    let b := s.head.board
    let other : Fin 2 := 1 - port
    (∀ n : Straps, b.straps.join = true → s.startHalted = false → (s.tile .t0).die.inReset = false → (b.ports)[port] ≠ .up →
      ∃ s', exec (.boardwalkLinkTrained port n) s = .next s' ∧ (s'.head.board.neighbours)[port] = some n ∧
        (s'.head.board.ports)[port] = (if s.neighbourFine port n then .up else .strapFailed) ∧
        s'.head.board.strapFault =
          (b.strapFault || !(s.modBoard fun b => { b with neighbours := vset b.neighbours port (some n) }).strapsFine) ∧
        (s'.head.board.ports)[other] = (b.ports)[other] ∧
        (s'.head.board.strapFault = false → b.straps.head = true → s'.head.board.present.getLsbD n.num.val = true) ∧
        (s'.head.board.strapFault = false → s.head.host.ready = false →
          s'.head.board.packages = ((List.range 4).filter s'.head.board.present.getLsbD).length) ∧
        (b.strapFault = false → s'.head.board.strapFault = true → s'.head.board.packages = 1) ∧
        ∀ t, Tile.Told (s.tile t) (s'.tile t)) ∧
    (b.straps.join = true → s.startHalted = false → (s.tile .t0).die.inReset = false →
      ∃ s', exec (.boardwalkTrainingRetry port) s = .next s' ∧ (s'.head.board.trying)[port] = false ∧
        (s'.head.board.ports)[port] = (if (b.ports)[port] = .down then .training else (b.ports)[port]) ∧
        (s'.head.board.ports)[other] = (b.ports)[other] ∧ s'.tiles = s.tiles ∧ s'.out = s.out) ∧
    (b.straps.join = true → (b.ports)[port] ≠ .down → ∃ s', exec (.boardwalkPortDown port) s = .next s' ∧
      (s'.head.board.ports)[port] = .down ∧ (s'.head.board.ports)[other] = (b.ports)[other] ∧
      (s'.head.board.neighbours)[port] = none ∧ (s'.head.board.delays)[port] = 0xFFFF ∧
      (s'.head.board.crcErrors)[port] = [] ∧ s'.head.board.linkChanges = min 255 (b.linkChanges + 1) ∧
      (s.isHead = true → (b.ports)[other] ≠ .up → ∀ k, 1 ≤ k → k < 4 → s'.head.board.reachable.getLsbD k = false) ∧
      (s.isHead = false → s.joined = true → b.headPort = port → s'.head.time.routeHold = true ∧
        (s.portCarries other = true → s'.head.board.headPort = other)) ∧
      ∀ t, Tile.Told (s.tile t) (s'.tile t)) ∧
    (∀ (f : BwkFrame) (now : Nat),
      let s0 := s.at now
      let run := exec (.boardwalkFrameReceived port (f, now)) s
      let recent := (b.crcErrors)[port].filter fun i => decide (s0.now < i + 1000000)
      (s.portTrained port = false → run = .next s0) ∧
      (s.portTrained port = true → f.crcOk = false →
        (15 ≤ recent.length → run = exec (.boardwalkPortDown port) s0) ∧
        (recent.length < 15 → run = .next (s0.modBoard fun b => { b with crcErrors := vset b.crcErrors port (recent ++ [s0.now]) }))) ∧
      (s.portTrained port = true → f.crcOk = true → ∀ known fault, f.payload = .straps known fault →
        ∃ s', run = .next s' ∧ s'.head.board.known = b.known ++ (known.filter fun x => !s.boardStraps.contains x) ∧
          (fault = true → s'.head.board.strapFault = true)) ∧
      (s.portCarries port = true → f.crcOk = true → (∀ known fault, f.payload ≠ .straps known fault) →
        (f.dst.val ≠ s.pkg → s.isHead = true → run = .next (match s.bwkRoute f.dst.val with
          | some p => s0.emit (.boardwalk p f)
          | none => s0)) ∧
        (f.dst.val ≠ s.pkg → s.isHead = false → run = .next (if s.portCarries other then s0.emit (.boardwalk other f) else s0)) ∧
        (f.dst.val = s.pkg → (s.tile .t0).die.svc = false → run = .next s0) ∧
        (f.dst.val = s.pkg → (s.tile .t0).die.svc = true →
          (∀ r session hostId d t, s.isHead = false → f.payload = .descriptor r session hostId d →
            TileId.ofNat? (fieldLe d 8 4 % 4) = some t → s.hasTile t = true → (s.tile t).die.svc = true →
            ∃ s' o p, run = .next s' ∧ s'.head.host.outstanding = s.head.host.outstanding ++ [o] ∧ o.ref = r ∧ o.remote = true ∧
              o.opcode = fieldLe d 0 1 ∧ o.session = session ∧ o.hostId = hostId ∧
              ((BitVec.ofNat 8 (fieldLe d 1 1)).getLsbD 0 = false → o.waiting = false) ∧ r ∈ s'.head.board.acks ∧
              (f.src = 0 → s'.head.board.headPort = port) ∧ (∀ u, Tile.Told (s.tile u) (s'.tile u)) ∧
              s'.out.head? = some (.boardwalk p { src := b.straps.num, dst := 0, crcOk := true, payload := .acknowledge r })) ∧
          (∀ r, f.payload = .confirm r → run =
            .next ((s0.noteRoute port f.src).modBoard fun b => { b with acks := b.acks.filter (· != r) })) ∧
          (∀ r st detail result o, s.isHead = true → f.payload = .completion r st detail result →
            s.forwardedTo f.src r = some o → o.opcode ≠ 0x70 → run =
              .next ((s0.completeOut o st.toNat detail result).bwkSend f.src.val (.acknowledge r)))))) ∧
    (s.isHead = true → exec .bwkRetransmitTimer s = .next s) ∧
    (s.isHead = false → s.portCarries port = true → (s.tile .t0).die.svc = true → ∃ s',
      exec .bwkRetransmitTimer s = .next s' ∧ s'.out.length = s.out.length + b.acks.length + b.keep.length ∧
      s'.head = s.head ∧ s'.tiles = s.tiles) ∧
    (∀ q tag, (s.tile .t0).die.svc = false → exec (.forwardAckTimeout q tag) s = .next s) ∧
    (∀ q tag o, s.head.host.outstanding = [o] → o.queue = q → o.tag = tag → o.remote = false → (s.tile .t0).die.svc = true →
      ((o.lost = true ∨ ∃ k, o.forwarded = some (k, false)) →
        exec (.forwardAckTimeout q tag) s = .next (s.completeOut o 0x0A 0 [])) ∧
      (o.lost = false → (∀ k, o.forwarded ≠ some (k, false)) → exec (.forwardAckTimeout q tag) s = .next s)) ∧
    (∀ roundTrip lead, s.portCarries port = true →
      let kept := s.modBoard fun b => { b with delays := vset b.delays port (min 0xFFFE (roundTrip / 2)) }
      ((s.isHead = true ∨ (b.headPort ≠ port ∧ s.portCarries b.headPort = true)) →
        exec (.bwkTimingExchange port roundTrip lead) s = .next kept) ∧
      (s.isHead = false → (b.headPort = port ∨ s.portCarries b.headPort = false) → ∃ s',
        exec (.bwkTimingExchange port roundTrip lead) s = .next s' ∧
        (s'.head.board.delays)[port] = min 0xFFFE (roundTrip / 2) ∧ (∀ t, Tile.Told (s.tile t) (s'.tile t)) ∧
        (∀ l, lead = some l → s'.head.board.headPort = port) ∧
        (∀ l, lead = some l → l.measured = true → s'.head.time.recState = recOfCode l.state ∧ s'.head.time.routeHold = false) ∧
        ((lead = none ∨ ∃ l, lead = some l ∧ l.measured = false) → s'.head.time.routeHold = true)))

/-- Each reset source resets its tile, or every tile, with its cause: the triad is lost, no axis is referenced or driven,
and parameters, soundings, bundle, key and log records stay; a source that lasts holds the die. A brown-out, the loss
of VDD33 and of power good end power good. With power good the field die loads its image and has its IO on; a die that
is held, with no power good or reference, or not in reset, does not start. The release of any other takes the written
parameters into force and ends the reset, running slot A, or slot B where it verifies and is pending or A fails; a
start without a keep-alive word is reset with cause 5, and the third in a row held. VDRV low turns every bridge off
and its return brakes; the loss of the VBAT domain turns every channel off. The losses that end the PCIe link are a
host reset, that of VPCIE without power good. (R13, R61, R161, R164, R316, R359, R378, R379, R381, R382, R385) -/
def Obligations.SuppliesResetAndStartTheDies : Prop :=
  ∀ (s : State),
    let isReset := fun (s' : State) (t : TileId) (cause : ResetCause) =>
      (s'.tile t).die.inReset = true ∧ (s'.tile t).die.cause = cause ∧ (s'.tile t).die.svc = false ∧
      (s'.tile t).triad.formed = false ∧ (s'.tile t).written = (s.tile t).written ∧
      (s'.tile t).die.bundle = (s.tile t).die.bundle ∧ (s'.tile t).die.key = (s.tile t).die.key ∧
      (s'.tile t).peat.records = (s.tile t).peat.records ∧
      (∀ a, (s'.axis t a).fb.referenced = false ∧ (s'.axis t a).mo.bridge ≠ .driven ∧ (s'.axis t a).mo.move = none ∧
        (s'.axis t a).soundings = (s.axis t a).soundings) ∧
      (cause ≠ .powerOn → (s'.tile t).field = (s.tile t).field) ∧ (cause = .powerOn → (s'.tile t).field.sra = false)
    (∀ t, s.hasTile t = true →
      (∃ s', exec (.brownOut t) s = .next s' ∧ isReset s' t .brownOut ∧ .brownOut ∈ (s'.tile t).die.holds ∧ s'.powerGood = false ∧ ∀ u, u ≠ t → Tile.Told (s.tile u) (s'.tile u)) ∧
      (∃ s', exec (.vdd33Loss t) s = .next s' ∧ isReset s' t .powerOn ∧ s'.powerGood = false ∧ ∀ u, u ≠ t → Tile.Told (s.tile u) (s'.tile u)) ∧
      (∃ s', exec (.thermalReset t true) s = .next s' ∧ isReset s' t .thermal ∧ .thermal ∈ (s'.tile t).die.holds) ∧
      (∃ s', exec (.thermalReset t false) s = .next s' ∧ .thermal ∉ (s'.tile t).die.holds ∧ s'.head = s.head ∧
        (s'.tile t).die.inReset = (s.tile t).die.inReset) ∧
      (s.imageLoaded t).powerGood = s.powerGood ∧ ((s.imageLoaded t).tile t).field.fioOn = true ∧
      (∀ r, ((s.tile t).die.inReset = false ∨ (s.tile t).die.holds ≠ [] ∨ (s.tile t).die.heldDown = true ∨ s.powerGood = false ∨
          s.refOk = false) → exec (.logicDieResetRelease t r) s = .next (if s.powerGood then s.imageLoaded t else s)) ∧
      ((s.tile t).die.inReset = true → (s.tile t).die.holds = [] → (s.tile t).die.heldDown = false → s.powerGood = true →
        s.refOk = true →
        (∀ r : BootReport, ∃ s', exec (.logicDieResetRelease t r) s = .next s' ∧ (s'.tile t).die.inReset = false ∧
          (SMap.wf (s.tile t).written = true → ∀ k, k ≠ pKey 0x11 7 0 none →
            pGet (s'.tile t).inForce k = pGet (s.tile t).written k) ∧
          (let d := (s.tile t).die
           let bOk := r.slotBOk && d.imageOk d.slotB
           let d' := (s'.tile t).die
           (d.fwPending = false → r.slotAOk = true → d'.fwVerified = true ∧ d'.svc = !d.svcOff ∧ d'.slotA = d.slotA) ∧
           (d.fwPending = true → bOk = true → d'.slotA = d.slotB ∧ d'.fwPending = false ∧ d'.fwVerified = true ∧
             d.secCounter ≤ d'.secCounter) ∧
           (d.fwPending = false → r.slotAOk = false → bOk = true → d'.slotA = d.slotB ∧ d'.fwVerified = true) ∧
           (r.slotAOk = false → bOk = false → (s.tile t).triad.formed = false →
             d'.svc = false ∧ d'.fwVerified = false ∧ d'.reported = d.reported) ∧
           d'.policyOk = (r.bundleOk && d.bundle.any d.bundleSigned)))) ∧
      ((s.tile t).die.inReset = false → (s.tile t).die.kaSent = true → exec (.startSupervisorTimeout t) s = .next s) ∧
      (((s.tile t).die.inReset = true ∧ (s.tile t).die.holds = [] ∧ (s.tile t).die.heldDown = false ∧ s.powerGood = true ∧
          s.refOk = true ∨
        (s.tile t).die.inReset = false ∧ (s.tile t).triad.formed = true ∧ (s.tile t).die.fwVerified = true ∧
          (s.tile t).die.kaSent = false) →
        ∃ s', exec (.startSupervisorTimeout t) s = .next s' ∧ isReset s' t .supervisor ∧
          (s'.tile t).die.supervisor = (s.tile t).die.supervisor + 1 ∧
          ((s'.tile t).die.heldDown = true ↔ 3 ≤ (s.tile t).die.supervisor + 1)) ∧
      ((s.tile t).field.vdrvOk = true → ∃ s', exec (.vdrvLow t) s = .next s' ∧ (s'.tile t).field.vdrvOk = false ∧
        (∀ a, (s'.axis t a).mo.bridge = .free ∧ (s'.axis t a).fab.tripped = true ∧ (s'.axis t a).fb = (s.axis t a).fb) ∧
        ∀ u, u ≠ t → Tile.Told (s.tile u) (s'.tile u)) ∧
      ((s.tile t).field.vdrvOk = false → ∃ s', exec (.vdrvRestored t) s = .next s' ∧ (s'.tile t).field.vdrvOk = true ∧
        (∀ a, (s'.axis t a).mo.bridge = .brake) ∧ s'.head = s.head ∧ ∀ u, u ≠ t → s'.tile u = s.tile u) ∧
      (∃ s', exec (.vbatDomainLoss t) s = .next s' ∧ s' = s.modField t (fun _ => (s'.tile t).field) ∧ ∀ ch : Fin 10, (((s'.tile t).field.ls)[ch]).isOn = false) ∧
      (∃ s', exec (.vbatDomainReturn t) s = .next s' ∧ s' = s.modField t (fun _ => (s'.tile t).field) ∧ (s'.tile t).field.lswOn = true ∧
        (s'.tile t).LsSettled)) ∧
    (∀ straps, ∃ s', exec (.powerGood straps) s = .next s' ∧ s'.powerGood = true ∧ s'.head.board.straps = straps ∧
      s'.head.board.strapFault = (straps.join && !strapsKeep straps) ∧ ∀ t, s.hasTile t = true → isReset s' t .powerOn) ∧
    exec .powerGoodLost s = .next { s with powerGood := false } ∧
    (∃ s', exec .externalReset s = .next s' ∧ ∀ t, s.hasTile t = true → isReset s' t .externalRst) ∧
    (∃ s', exec .referenceLoss s = .next s' ∧ s'.refOk = false ∧
      ∀ t, s.hasTile t = true → isReset s' t .clock ∧ .clock ∈ (s'.tile t).die.holds) ∧
    (∃ s', exec .referenceReturn s = .next s' ∧ s'.refOk = true ∧
      ∀ t, s.hasTile t = true → .clock ∉ (s'.tile t).die.holds ∧ (s'.tile t).die.inReset = (s.tile t).die.inReset) ∧
    (s.isHead = true →
      let ended := fun (s : State) => s.hostReset.modHead fun h => { h with pcie := Pcie.reset }
      exec .vpcieLoss s = .next (ended { s with powerGood := false }) ∧ exec .pllPcieLockLoss s = .next (ended s))
end

