-- ==== Sys2Proof/Laws/Memory.lean ====
section
/-!
SUPPORT. Host memory: every write keeps the canonical form, a read after a write, and what a write leaves.
-/

namespace Sys2Proof.Machine

/-- Every address of a canonical memory whose first address is above b is above b. -/
theorem Memory.wf_tail {c : Host.Cell} {m : List Host.Cell} (h : Memory.wf (c :: m) = true) : Memory.wf m = true := by
  obtain ⟨a, v⟩ := c
  cases m with
  | nil => rfl
  | cons d rest => obtain ⟨b, w⟩ := d; simp [Memory.wf] at h; exact h.2

theorem Memory.wf_cons {a : Nat} {v : Byte} {m : List Host.Cell} (hm : Memory.wf m = true) (hv : v ≠ 0)
    (ha : ∀ c ∈ m.head?, a < c.1) : Memory.wf ((a, v) :: m) = true := by
  cases m with
  | nil => have hv' : ¬ v = 0#8 := hv; simp [Memory.wf, hv']
  | cons d rest =>
    obtain ⟨b, w⟩ := d
    have hv' : ¬ v = 0#8 := hv
    have hab : a < b := ha (b, w) rfl
    simp [Memory.wf, hv', hab, hm]

theorem Memory.wf_head {a : Nat} {v : Byte} {m : List Host.Cell} (h : Memory.wf ((a, v) :: m) = true) :
    v ≠ 0 ∧ ∀ c ∈ m.head?, a < c.1 := by
  cases m with
  | nil => simpa [Memory.wf] using h
  | cons d rest =>
    obtain ⟨b, w⟩ := d; simp [Memory.wf] at h
    refine ⟨h.1.2, fun c hc => ?_⟩
    simp at hc; subst hc; exact h.1.1

theorem memWrite_head (m : List Host.Cell) (a : Nat) (v : Byte) (b : Nat) (hb : b < a) (h : ∀ c ∈ m.head?, b < c.1)
    (hm : Memory.wf m = true) : ∀ c ∈ (memWrite m a v).head?, b < c.1 := by
  cases m with
  | nil => intro c hc; unfold memWrite at hc; split at hc <;> simp at hc; subst hc; exact hb
  | cons d rest =>
    obtain ⟨e, w⟩ := d
    have he : b < e := h (e, w) rfl
    intro c hc
    unfold memWrite at hc
    split at hc
    · split at hc
      · cases rest with
        | nil => simp at hc
        | cons x r => simp at hc; subst hc; exact Nat.lt_trans he ((Memory.wf_head hm).2 _ rfl)
      · simp at hc; subst hc; exact hb
    · split at hc
      · split at hc <;> (simp at hc; subst hc; assumption)
      · simp at hc; subst hc; exact he

/-- A write keeps the canonical form. -/
theorem memWrite_wf (m : List Host.Cell) (a : Nat) (v : Byte) (h : Memory.wf m = true) : Memory.wf (memWrite m a v) = true := by
  induction m with
  | nil => unfold memWrite; split <;> simp_all [Memory.wf]
  | cons c rest ih =>
    obtain ⟨b, w⟩ := c
    obtain ⟨hw, hr⟩ := Memory.wf_head h
    have ht := Memory.wf_tail h
    unfold memWrite
    split
    · split
      · exact ht
      · rename_i hb hv; subst hb; exact Memory.wf_cons ht hv hr
    · split
      · split
        · exact h
        · rename_i hb hl hv; exact Memory.wf_cons h hv (fun c hc => by simp at hc; subst hc; exact hl)
      · rename_i hb hl
        exact Memory.wf_cons (ih ht) hw (memWrite_head rest a v b (by omega) hr ht)

theorem memWriteBytes_wf (bs : List Byte) (m : List Host.Cell) (a : Nat) (h : Memory.wf m = true) :
    Memory.wf (memWriteBytes m a bs) = true := by
  induction bs generalizing m a with
  | nil => exact h
  | cons b bs ih => exact ih _ _ (memWrite_wf m _ b h)

/-- A byte below the first listed address reads 0. -/
theorem memRead_below (m : List Host.Cell) (x : Nat) (h : ∀ c ∈ m.head?, x < c.1) : memRead m x = 0 := by
  cases m with
  | nil => rfl
  | cons d rest =>
    obtain ⟨b, w⟩ := d
    have hb : x < b := h (b, w) rfl
    have hne : ¬ b = x := by omega
    simp [memRead, hb, hne]

/-- A read of a memory whose first cell is given. -/
theorem memRead_cons (b : Nat) (w : Byte) (rest : List Host.Cell) (x : Nat) :
    memRead ((b, w) :: rest) x = if b = x then w else if x < b then 0 else memRead rest x := rfl

/-- A read after a write: the value written at its address, and every other byte as before. -/
theorem memRead_write (m : List Host.Cell) (a x : Nat) (v : Byte) (hm : Memory.wf m = true) :
    memRead (memWrite m a v) x = if x = a then v else memRead m x := by
  induction m with
  | nil =>
    rw [memWrite]
    split_ifs with h1 h2 h3
    · rw [h1]; rfl
    · rfl
    · rw [memRead_cons, if_pos h3.symm]
    · rw [memRead_cons, if_neg (fun e => h3 e.symm)]; split_ifs <;> rfl
  | cons d rest ih =>
    obtain ⟨b, w⟩ := d
    obtain ⟨hw, hr⟩ := Memory.wf_head hm
    have ht := Memory.wf_tail hm
    have below : ∀ y, y ≤ b → memRead rest y = 0 := fun y hy =>
      memRead_below rest y (fun c hc => Nat.lt_of_le_of_lt hy (hr c hc))
    rw [memWrite, memRead_cons]
    split_ifs with h1 h2 h3 h4 h5 h6 h7 h8 <;> (try subst h1) <;> (try rw [memRead_cons]) <;> (try rw [ih ht]) <;>
      (try split_ifs) <;>
      first | rfl | omega | (rw [below _ (by omega)]; exact h2.symm) | (rw [below _ (by omega)]) | simp_all [memRead_cons]

end Sys2Proof.Machine
end

