-- ==== Sys2Proof/Laws/State.lean ====
section
/-!
SUPPORT. The fields of the state after an update: one lemma for each update of Machine/Ops.lean and each field that it
leaves or sets.
-/

namespace Sys2Proof.Machine

/-! ### Tiles and axes -/

@[simp] theorem PerTile.get_set_self {α : Type} (v : PerTile α) (t : TileId) (x : α) : (v.set t x).get t = x := by
  cases t <;> rfl

theorem PerTile.get_set_ne {α : Type} (v : PerTile α) (t u : TileId) (x : α) (h : u ≠ t) : (v.set t x).get u = v.get u := by
  cases t <;> cases u <;> first | rfl | exact absurd rfl h

theorem PerTile.get_set {α : Type} (v : PerTile α) (t u : TileId) (x : α) :
    (v.set t x).get u = if u = t then x else v.get u := by
  cases t <;> cases u <;> rfl

@[simp] theorem PerAxis.get_set_self {α : Type} (v : PerAxis α) (a : AxisId) (x : α) : (v.set a x).get a = x := by
  cases a <;> rfl

theorem PerAxis.get_set {α : Type} (v : PerAxis α) (a b : AxisId) (x : α) :
    (v.set a x).get b = if b = a then x else v.get b := by
  cases a <;> cases b <;> rfl

@[simp] theorem PerTile.get_all {α : Type} (x : α) (t : TileId) : (PerTile.all x).get t = x := by cases t <;> rfl

@[simp] theorem PerAxis.get_all {α : Type} (x : α) (a : AxisId) : (PerAxis.all x).get a = x := by cases a <;> rfl

@[simp] theorem State.tile_setTile_self (s : State) (t : TileId) (x : Tile) : (s.setTile t x).tile t = x := by
  cases t <;> rfl

theorem State.tile_setTile (s : State) (t u : TileId) (x : Tile) :
    (s.setTile t x).tile u = if u = t then x else s.tile u := PerTile.get_set s.tiles t u x

@[simp] theorem State.tile_modTile_self (s : State) (t : TileId) (f : Tile → Tile) :
    (s.modTile t f).tile t = f (s.tile t) := by cases t <;> rfl

theorem State.tile_modTile (s : State) (t u : TileId) (f : Tile → Tile) :
    (s.modTile t f).tile u = if u = t then f (s.tile u) else s.tile u := by cases t <;> cases u <;> rfl

@[simp] theorem State.modTile_part (s : State) (t : TileId) (f : Tile → Tile) : (s.modTile t f).part = s.part := rfl
@[simp] theorem State.modTile_head (s : State) (t : TileId) (f : Tile → Tile) : (s.modTile t f).head = s.head := rfl
@[simp] theorem State.modTile_hostMem (s : State) (t : TileId) (f : Tile → Tile) : (s.modTile t f).hostMem = s.hostMem := rfl
@[simp] theorem State.modTile_windows (s : State) (t : TileId) (f : Tile → Tile) : (s.modTile t f).windows = s.windows := rfl
@[simp] theorem State.modTile_out (s : State) (t : TileId) (f : Tile → Tile) : (s.modTile t f).out = s.out := rfl
@[simp] theorem State.modTile_pending (s : State) (t : TileId) (f : Tile → Tile) : (s.modTile t f).pending = s.pending := rfl
@[simp] theorem State.modTile_now (s : State) (t : TileId) (f : Tile → Tile) : (s.modTile t f).now = s.now := rfl

@[simp] theorem State.tile_modHead (s : State) (f : Head → Head) (t : TileId) : (s.modHead f).tile t = s.tile t := rfl
@[simp] theorem State.modHead_head (s : State) (f : Head → Head) : (s.modHead f).head = f s.head := rfl
@[simp] theorem State.modHead_part (s : State) (f : Head → Head) : (s.modHead f).part = s.part := rfl
@[simp] theorem State.modHead_hostMem (s : State) (f : Head → Head) : (s.modHead f).hostMem = s.hostMem := rfl
@[simp] theorem State.modHead_windows (s : State) (f : Head → Head) : (s.modHead f).windows = s.windows := rfl
@[simp] theorem State.modHead_out (s : State) (f : Head → Head) : (s.modHead f).out = s.out := rfl
@[simp] theorem State.modHead_pending (s : State) (f : Head → Head) : (s.modHead f).pending = s.pending := rfl

@[simp] theorem State.tile_emit (s : State) (o : Output) (t : TileId) : (s.emit o).tile t = s.tile t := rfl
@[simp] theorem State.emit_head (s : State) (o : Output) : (s.emit o).head = s.head := rfl
@[simp] theorem State.emit_hostMem (s : State) (o : Output) : (s.emit o).hostMem = s.hostMem := rfl
@[simp] theorem State.emit_out (s : State) (o : Output) : (s.emit o).out = o :: s.out := rfl
@[simp] theorem State.emit_part (s : State) (o : Output) : (s.emit o).part = s.part := rfl
@[simp] theorem State.emit_pending (s : State) (o : Output) : (s.emit o).pending = s.pending := rfl

@[simp] theorem State.tile_dma (s : State) (a : Nat) (bs : List Byte) (t : TileId) : (s.dma a bs).tile t = s.tile t := rfl
@[simp] theorem State.dma_head (s : State) (a : Nat) (bs : List Byte) : (s.dma a bs).head = s.head := rfl
@[simp] theorem State.dma_out (s : State) (a : Nat) (bs : List Byte) : (s.dma a bs).out = s.out := rfl
@[simp] theorem State.dma_part (s : State) (a : Nat) (bs : List Byte) : (s.dma a bs).part = s.part := rfl
@[simp] theorem State.dma_pending (s : State) (a : Nat) (bs : List Byte) : (s.dma a bs).pending = s.pending := rfl

/-! ### Parts of a tile -/

@[simp] theorem State.door_modDoor (s : State) (t : TileId) (f : Doorway → Doorway) :
    ((s.modDoor t f).tile t).door = f (s.tile t).door := by cases t <;> rfl
@[simp] theorem State.field_modField (s : State) (t : TileId) (f : FieldDie → FieldDie) :
    ((s.modField t f).tile t).field = f (s.tile t).field := by cases t <;> rfl
@[simp] theorem State.link_modLink (s : State) (t : TileId) (f : Link → Link) :
    ((s.modLink t f).tile t).link = f (s.tile t).link := by cases t <;> rfl
@[simp] theorem State.triad_modTriad (s : State) (t : TileId) (f : Triad → Triad) :
    ((s.modTriad t f).tile t).triad = f (s.tile t).triad := by cases t <;> rfl
@[simp] theorem State.die_modDie (s : State) (t : TileId) (f : Die → Die) :
    ((s.modDie t f).tile t).die = f (s.tile t).die := by cases t <;> rfl
@[simp] theorem State.peat_modPeat (s : State) (t : TileId) (f : Peat → Peat) :
    ((s.modPeat t f).tile t).peat = f (s.tile t).peat := by cases t <;> rfl
@[simp] theorem State.axis_modAxis (s : State) (t : TileId) (a : AxisId) (f : Axis → Axis) :
    (s.modAxis t a f).axis t a = f (s.axis t a) := by cases t <;> cases a <;> rfl
@[simp] theorem State.fb_modFb (s : State) (t : TileId) (a : AxisId) (f : Feedback → Feedback) :
    ((s.modFb t a f).axis t a).fb = f (s.axis t a).fb := by cases t <;> cases a <;> rfl
@[simp] theorem State.mo_modMo (s : State) (t : TileId) (a : AxisId) (f : Motion → Motion) :
    ((s.modMo t a f).axis t a).mo = f (s.axis t a).mo := by cases t <;> cases a <;> rfl
@[simp] theorem State.fab_modFab (s : State) (t : TileId) (a : AxisId) (f : Fabric → Fabric) :
    ((s.modFab t a f).axis t a).fab = f (s.axis t a).fab := by cases t <;> cases a <;> rfl
@[simp] theorem State.pa_modPa (s : State) (t : TileId) (a : AxisId) (f : Pass → Pass) :
    ((s.modPa t a f).axis t a).pa = f (s.axis t a).pa := by cases t <;> cases a <;> rfl

@[simp] theorem State.die_modDoor (s : State) (t u : TileId) (f : Doorway → Doorway) :
    ((s.modDoor t f).tile u).die = (s.tile u).die := by cases t <;> cases u <;> rfl
@[simp] theorem State.field_modDoor (s : State) (t u : TileId) (f : Doorway → Doorway) :
    ((s.modDoor t f).tile u).field = (s.tile u).field := by cases t <;> cases u <;> rfl
@[simp] theorem State.triad_modDoor (s : State) (t u : TileId) (f : Doorway → Doorway) :
    ((s.modDoor t f).tile u).triad = (s.tile u).triad := by cases t <;> cases u <;> rfl
@[simp] theorem State.ax_modDoor (s : State) (t u : TileId) (f : Doorway → Doorway) :
    ((s.modDoor t f).tile u).ax = (s.tile u).ax := by cases t <;> cases u <;> rfl
@[simp] theorem State.link_modDoor (s : State) (t u : TileId) (f : Doorway → Doorway) :
    ((s.modDoor t f).tile u).link = (s.tile u).link := by cases t <;> cases u <;> rfl

theorem State.modTile_modTile (s : State) (t : TileId) (f g : Tile → Tile) :
    (s.modTile t f).modTile t g = s.modTile t (fun tl => g (f tl)) := by cases t <;> rfl

theorem State.modTile_congr (s : State) (t : TileId) (f g : Tile → Tile) (h : f (s.tile t) = g (s.tile t)) :
    s.modTile t f = s.modTile t g := by unfold State.modTile; rw [h]

theorem State.modTile_id (s : State) (t : TileId) : (s.modTile t fun tl => tl) = s := by cases t <;> rfl

/-! ### The shapes of a command -/

@[simp] theorem onTile_of (t : TileId) (s : State) (f : State → State) (h : s.hasTile t = true) :
    onTile t s f = .next (f s) := if_pos h

@[simp] theorem onTile_absent (t : TileId) (s : State) (f : State → State) (h : s.hasTile t = false) :
    onTile t s f = .fault .absentTile := by simp [onTile, h]

@[simp] theorem onHead_eq (s : State) (f : State → State) : onHead s f = .next (f s) := rfl

/-- A host command acts in its turn, while its entry is outstanding and released and both service cores that it needs are there (R305, R307,
R309, R316). -/
theorem onCmd_of (h : HostCmd) (op : Nat) (s : State) (f : State → State) (o : Outstanding) (ht : s.hasTile h.tile = true)
    (ho : s.findOut h op = some o) (hw : o.waiting = false) (h0 : (s.tile .t0).die.svc = true)
    (h1 : (s.tile h.tile).die.svc = true) (h2 : s.outOfTurn h.tile o = false) : onCmd h op s f = .next (f s) := by
  simp [onCmd, ht, ho, hw, h0, h1, h2]

@[simp] theorem Peat.nextSeq_eventsTaken (p : Peat) : p.eventsTaken.nextSeq = p.nextSeq := rfl
@[simp] theorem Peat.records_eventsTaken (p : Peat) : p.eventsTaken.records = p.records := rfl

@[simp] theorem State.each_nil {α : Type} (s : State) (f : State → α → State) : s.each [] f = s := rfl

@[simp] theorem State.each_cons {α : Type} (s : State) (a : α) (l : List α) (f : State → α → State) :
    s.each (a :: l) f = (f s a).each l f := rfl

/-! ### Vectors -/

theorem vset_get {α : Type} {n : Nat} (v : Vector α n) (i j : Fin n) (x : α) :
    (vset v i x)[j] = if i = j then x else v[j] := by
  show (v.set i.val x i.isLt)[j.val] = _
  rw [Vector.getElem_set]
  simp only [Fin.ext_iff]
  rfl

theorem vmod_get {α : Type} {n : Nat} (v : Vector α n) (i j : Fin n) (f : α → α) :
    (vmod v i f)[j] = if i = j then f v[i] else v[j] := vset_get _ _ _ _

theorem vmap_get {α β : Type} {n : Nat} (f : α → β) (v : Vector α n) (j : Fin n) : (vmap f v)[j] = f v[j] := by
  unfold vmap
  rcases v with ⟨⟨l⟩, h⟩
  subst h
  simp

end Sys2Proof.Machine
end

