-- ==== Sys2Proof/Laws/Later.lean ====
section
/-!
SUPPORT. What no command takes back (Safety.lean), for the updates that every meaning is made of: it is reflexive and
transitive, and each update of Machine/Ops.lean keeps it.
-/

namespace Sys2Proof.Machine

/-! ### Tiles -/

theorem Tile.Later.refl (a : Tile) : Tile.Later a a :=
  ⟨fun _ h => h, Nat.le_refl _, List.prefix_refl _, id, Nat.le_refl _, id⟩

theorem Tile.Later.trans {a b c : Tile} (h : Tile.Later a b) (k : Tile.Later b c) : Tile.Later a c :=
  ⟨fun x hx => k.key x (h.key x hx), Nat.le_trans h.counter k.counter, h.images.trans k.images,
   fun x => k.slots (h.slots x), Nat.le_trans h.seq k.seq, fun x => k.harmless (h.harmless x)⟩

/-- A tile whose logic-die record, image slots and log number stand, and which stays harmless. -/
theorem Tile.Later.mk' {a b : Tile} (hk : b.die.key = a.die.key) (hc : b.die.secCounter = a.die.secCounter)
    (hi : b.field.images = a.field.images) (hp : b.peat.nextSeq = a.peat.nextSeq) (hh : a.Harmless → b.Harmless) :
    Tile.Later a b :=
  ⟨fun x hx => hk ▸ hx, Nat.le_of_eq hc.symm, hi ▸ List.prefix_refl _, fun x => hi ▸ x, Nat.le_of_eq hp.symm, hh⟩

/-- A tile whose field die and axes stand stays harmless. -/
theorem Tile.Harmless.same {a b : Tile} (hf : b.field = a.field) (hx : b.ax = a.ax) (h : a.Harmless) : b.Harmless := by
  unfold Tile.Harmless at *; rw [hf, hx]; exact h

/-- A tile of which neither the field die, the axes, the logic-die record nor the log has changed. -/
theorem Tile.Later.same {a b : Tile} (hd : b.die = a.die) (hf : b.field = a.field) (hx : b.ax = a.ax) (hp : b.peat = a.peat) :
    Tile.Later a b :=
  Tile.Later.mk' (by rw [hd]) (by rw [hd]) (by rw [hf]) (by rw [hp]) (Tile.Harmless.same hf hx)

/-- A changed logic-die record. -/
theorem Tile.Later.die {a : Tile} {d : Die} (hk : ∀ k, a.die.key = some k → d.key = some k)
    (hc : a.die.secCounter ≤ d.secCounter) : Tile.Later a { a with die := d } :=
  ⟨hk, hc, List.prefix_refl _, id, Nat.le_refl _, id⟩

/-- A changed log. -/
theorem Tile.Later.peat {a : Tile} {p : Peat} (h : a.peat.nextSeq ≤ p.nextSeq) : Tile.Later a { a with peat := p } :=
  ⟨fun _ h => h, Nat.le_refl _, List.prefix_refl _, id, h, id⟩

/-- A field die that stays harmless: its image slots stand, and where the image is applied it was applied before, with SRA, SRB
and LS0 as they were. -/
theorem Tile.Later.field {a : Tile} {f : FieldDie} (hi : f.images = a.field.images)
    (hh : f.fallback = true → a.field.fallback = true ∧ (a.field.sra = false → f.sra = false) ∧
      (a.field.srb = false → f.srb = false) ∧ ((a.field.ls[0]).isOn = false → (f.ls[0]).isOn = false)) :
    Tile.Later a { a with field := f } := by
  refine Tile.Later.mk' rfl rfl hi rfl (fun h hf => ?_)
  obtain ⟨h1, h2, h3, h4⟩ := hh hf
  obtain ⟨k1, k2, k3, k4⟩ := h h1
  exact ⟨h2 k1, h3 k2, h4 k3, k4⟩

/-- What Tile.Later.field asks of a changed field die. -/
def FieldDie.Kept (f g : FieldDie) : Prop :=
  g.images = f.images ∧ (g.fallback = true → f.fallback = true ∧ (f.sra = false → g.sra = false) ∧
    (f.srb = false → g.srb = false) ∧ ((f.ls[0]).isOn = false → (g.ls[0]).isOn = false))

theorem FieldDie.Kept.refl (f : FieldDie) : FieldDie.Kept f f := ⟨rfl, fun h => ⟨h, id, id, id⟩⟩

theorem FieldDie.Kept.trans {f g k : FieldDie} (h : FieldDie.Kept f g) (h' : FieldDie.Kept g k) : FieldDie.Kept f k := by
  refine ⟨h'.1.trans h.1, fun e => ?_⟩
  obtain ⟨a, b, c, d⟩ := h'.2 e
  obtain ⟨a', b', c', d'⟩ := h.2 a
  exact ⟨a', fun x => b (b' x), fun x => c (c' x), fun x => d (d' x)⟩

/-- A changed axis whose bridge is driven only where the image is not applied. -/
theorem Tile.Later.modAxis {a : Tile} {i : AxisId} {g : Axis → Axis}
    (h : a.field.fallback = true → (a.ax.get i).mo.bridge ≠ .driven → (g (a.ax.get i)).mo.bridge ≠ .driven) :
    Tile.Later a (a.modAxis i g) := by
  refine Tile.Later.mk' rfl rfl rfl rfl (fun hh hf => ?_)
  obtain ⟨h1, h2, h3, h4⟩ := hh hf
  refine ⟨h1, h2, h3, fun b => ?_⟩
  show ((a.ax.set i _).get b).mo.bridge ≠ _
  rw [PerAxis.get_set]
  by_cases e : b = i
  · rw [if_pos e]; exact h hf (h4 i)
  · rw [if_neg e]; exact h4 b

/-! ### The state -/

theorem State.Later.refl (s : State) : State.Later s s :=
  ⟨rfl, rfl, rfl, Nat.le_refl _, id, ⟨[], rfl⟩, fun t => Tile.Later.refl _⟩

theorem State.Later.trans {a b c : State} (h : State.Later a b) (k : State.Later b c) : State.Later a c := by
  obtain ⟨l1, h1⟩ := h.outs
  obtain ⟨l2, h2⟩ := k.outs
  exact ⟨k.part.trans h.part, k.serial.trans h.serial, k.pending.trans h.pending, Nat.le_trans h.clock k.clock,
    fun x => k.mem (h.mem x), ⟨l2 ++ l1, by rw [h2, h1, List.append_assoc]⟩, fun t => (h.tiles t).trans (k.tiles t)⟩

section rules

variable {s0 s : State}

/-- A state of which only the windows, the supplies or the counter of free values have changed. -/
theorem later_same {s' : State} (h : State.Later s0 s) (hp : s'.part = s.part) (ht : s'.tiles = s.tiles) (hh : s'.head = s.head)
    (hm : s'.hostMem = s.hostMem) (ho : s'.out = s.out) (hq : s'.pending = s.pending) : State.Later s0 s' :=
  h.trans ⟨hp, by rw [hh], hq, by unfold State.now; rw [hh], fun x => hm ▸ x, ⟨[], ho⟩,
    fun t => by unfold State.tile; rw [ht]; exact Tile.Later.refl _⟩

theorem later_cut {x : State} {p : Prop} (h : State.Later s0 x) (k : State.Later s0 x → p) : p := k h

theorem later_ite {c : Prop} [Decidable c] {a b : State} (ha : c → State.Later s0 a) (hb : ¬ c → State.Later s0 b) :
    State.Later s0 (if c then a else b) := by
  by_cases h : c
  · rw [if_pos h]; exact ha h
  · rw [if_neg h]; exact hb h

theorem later_dite {c : Prop} [Decidable c] {a : c → State} {b : ¬ c → State} (ha : ∀ h, State.Later s0 (a h))
    (hb : ∀ h, State.Later s0 (b h)) : State.Later s0 (dite c a b) := by
  by_cases h : c
  · rw [dif_pos h]; exact ha h
  · rw [dif_neg h]; exact hb h

/-- A state that comes beside something else. -/
theorem later_pair {α : Type} {p : α × State} {x : α} {s' : State} (e : p = (x, s')) (h : State.Later s0 p.2) : State.Later s0 s' := by
  rw [e] at h; exact h

theorem later_snd_ite {α : Type} {c : Prop} [Decidable c] {p q : α × State} (ha : State.Later s0 p.2) (hb : State.Later s0 q.2) :
    State.Later s0 (if c then p else q).2 := by
  by_cases h : c
  · rw [if_pos h]; exact ha
  · rw [if_neg h]; exact hb

theorem later_setTile {t : TileId} {x : Tile} (h : State.Later s0 s) (hx : Tile.Later (s.tile t) x) :
    State.Later s0 (s.setTile t x) := by
  refine h.trans ⟨rfl, rfl, rfl, Nat.le_refl _, id, ⟨[], rfl⟩, fun u => ?_⟩
  rw [State.tile_setTile]
  by_cases e : u = t
  · subst e; rw [if_pos rfl]; exact hx
  · rw [if_neg e]; exact Tile.Later.refl _

theorem later_modTile {t : TileId} {f : Tile → Tile} (h : State.Later s0 s) (hf : Tile.Later (s.tile t) (f (s.tile t))) :
    State.Later s0 (s.modTile t f) := later_setTile h hf

theorem later_modDoor {t : TileId} {f : Doorway → Doorway} (h : State.Later s0 s) : State.Later s0 (s.modDoor t f) :=
  later_modTile h (Tile.Later.same rfl rfl rfl rfl)

theorem later_modLink {t : TileId} {f : Link → Link} (h : State.Later s0 s) : State.Later s0 (s.modLink t f) :=
  later_modTile h (Tile.Later.same rfl rfl rfl rfl)

theorem later_modTriad {t : TileId} {f : Triad → Triad} (h : State.Later s0 s) : State.Later s0 (s.modTriad t f) :=
  later_modTile h (Tile.Later.same rfl rfl rfl rfl)

theorem later_modDie {t : TileId} {f : Die → Die} (h : State.Later s0 s)
    (hk : ∀ k, (s.tile t).die.key = some k → (f (s.tile t).die).key = some k)
    (hc : (s.tile t).die.secCounter ≤ (f (s.tile t).die).secCounter) : State.Later s0 (s.modDie t f) :=
  later_modTile h (Tile.Later.die hk hc)

theorem later_modPeat {t : TileId} {f : Peat → Peat} (h : State.Later s0 s)
    (hp : (s.tile t).peat.nextSeq ≤ (f (s.tile t).peat).nextSeq) : State.Later s0 (s.modPeat t f) :=
  later_modTile h (Tile.Later.peat hp)

theorem later_modField {t : TileId} {f : FieldDie → FieldDie} (h : State.Later s0 s)
    (hi : (f (s.tile t).field).images = (s.tile t).field.images)
    (hh : (f (s.tile t).field).fallback = true → (s.tile t).field.fallback = true ∧
      ((s.tile t).field.sra = false → (f (s.tile t).field).sra = false) ∧
      ((s.tile t).field.srb = false → (f (s.tile t).field).srb = false) ∧
      (((s.tile t).field.ls[0]).isOn = false → ((f (s.tile t).field).ls[0]).isOn = false)) :
    State.Later s0 (s.modField t f) := later_modTile h (Tile.Later.field hi hh)

theorem later_modKept {t : TileId} {f : FieldDie → FieldDie} (h : State.Later s0 s)
    (hk : FieldDie.Kept (s.tile t).field (f (s.tile t).field)) : State.Later s0 (s.modField t f) :=
  later_modField h hk.1 hk.2

theorem later_modAxis {t : TileId} {a : AxisId} {f : Axis → Axis} (h : State.Later s0 s)
    (hf : (s.tile t).field.fallback = true → ((s.tile t).ax.get a).mo.bridge ≠ .driven →
      (f ((s.tile t).ax.get a)).mo.bridge ≠ .driven) : State.Later s0 (s.modAxis t a f) :=
  later_modTile h (Tile.Later.modAxis hf)

theorem later_modFb {t : TileId} {a : AxisId} {f : Feedback → Feedback} (h : State.Later s0 s) :
    State.Later s0 (s.modFb t a f) := later_modAxis h (fun _ k => k)

theorem later_modPa {t : TileId} {a : AxisId} {f : Pass → Pass} (h : State.Later s0 s) :
    State.Later s0 (s.modPa t a f) := later_modAxis h (fun _ k => k)

theorem later_modFab {t : TileId} {a : AxisId} {f : Fabric → Fabric} (h : State.Later s0 s) :
    State.Later s0 (s.modFab t a f) := later_modAxis h (fun _ k => k)

theorem later_modMo {t : TileId} {a : AxisId} {f : Motion → Motion} (h : State.Later s0 s)
    (hf : (s.tile t).field.fallback = true → ((s.tile t).ax.get a).mo.bridge ≠ .driven →
      (f ((s.tile t).ax.get a).mo).bridge ≠ .driven) : State.Later s0 (s.modMo t a f) :=
  later_modAxis h hf

theorem later_modHead {f : Head → Head} (h : State.Later s0 s) (hs : (f s.head).serial = s.head.serial)
    (hc : s.head.time.local_ ≤ (f s.head).time.local_) : State.Later s0 (s.modHead f) :=
  h.trans ⟨rfl, hs, rfl, hc, id, ⟨[], rfl⟩, fun _ => Tile.Later.refl _⟩

theorem later_modTime {f : TimeBase → TimeBase} (h : State.Later s0 s) (hc : s.head.time.local_ ≤ (f s.head.time).local_) :
    State.Later s0 (s.modTime f) := later_modHead h rfl hc

theorem later_modCwy {f : Causeway → Causeway} (h : State.Later s0 s) : State.Later s0 (s.modCwy f) :=
  later_modHead h rfl (Nat.le_refl _)

theorem later_modHost {f : HostIf → HostIf} (h : State.Later s0 s) : State.Later s0 (s.modHost f) :=
  later_modHead h rfl (Nat.le_refl _)

theorem later_modBoard {f : Board → Board} (h : State.Later s0 s) : State.Later s0 (s.modBoard f) :=
  later_modHead h rfl (Nat.le_refl _)

theorem later_emit {o : Output} (h : State.Later s0 s) : State.Later s0 (s.emit o) :=
  h.trans ⟨rfl, rfl, rfl, Nat.le_refl _, id, ⟨[o], rfl⟩, fun _ => Tile.Later.refl _⟩

theorem later_dma {a : Nat} {bs : List Byte} (h : State.Later s0 s) : State.Later s0 (s.dma a bs) :=
  h.trans ⟨rfl, rfl, rfl, Nat.le_refl _, fun x => memWriteBytes_wf bs s.hostMem a x, ⟨[], rfl⟩, fun _ => Tile.Later.refl _⟩

theorem later_draw (h : State.Later s0 s) : State.Later s0 s.draw.2 := later_same h rfl rfl rfl rfl rfl rfl

theorem later_each {α : Type} {l : List α} {f : State → α → State} (h : State.Later s0 s)
    (hf : ∀ x a, State.Later s0 x → State.Later s0 (f x a)) : State.Later s0 (s.each l f) := by
  induction l generalizing s with
  | nil => exact h
  | cons a l ih => exact ih (hf s a h)

theorem later_list {α : Type} {l : List α} {f : State → α → State} (h : State.Later s0 s)
    (hf : ∀ x a, State.Later s0 x → State.Later s0 (f x a)) : State.Later s0 (l.foldl f s) := later_each h hf

theorem later_id (h : State.Later s0 s) : State.Later s0 (id s) := h

theorem advance_local (tb : TimeBase) (dt : Nat) : (tb.advance dt).local_ = tb.local_ + dt := rfl

theorem later_at {now : Nat} (h : State.Later s0 s) : State.Later s0 (s.at now) := by
  refine later_modTime h ?_
  split
  · rw [advance_local]; exact Nat.le_add_right _ _
  · exact Nat.le_refl _

/-! ### Outcomes -/

/-- The same of an optional state. -/
def OptLater (s : State) (o : Option State) : Prop := ∀ s', o = some s' → State.Later s s'

theorem optLater_none : OptLater s0 none := fun _ e => by cases e

theorem optLater_some (h : State.Later s0 s) : OptLater s0 (some s) := fun _ e => by cases e; exact h

theorem optLater_ite {c : Prop} [Decidable c] {a b : Option State} (ha : c → OptLater s0 a) (hb : ¬ c → OptLater s0 b) :
    OptLater s0 (if c then a else b) := by
  by_cases h : c
  · rw [if_pos h]; exact ha h
  · rw [if_neg h]; exact hb h

theorem later_ofOpt {o : Option State} {s' : State} (h : o = some s') (k : OptLater s0 o) : State.Later s0 s' := k s' h

theorem later_getD {o : Option State} (ho : OptLater s0 o) (h : State.Later s0 s) : State.Later s0 (o.getD s) := by
  cases o with
  | none => exact h
  | some x => exact ho x rfl

theorem outcomeLater_next (h : State.Later s0 s) : OutcomeLater s0 (.next s) := by
  intro s' e; cases e; exact h

theorem outcomeLater_onTile {t : TileId} {f : State → State} (h : State.Later s0 s)
    (hf : ∀ x, State.Later s0 x → State.Later s0 (f x)) : OutcomeLater s0 (onTile t s f) := by
  unfold onTile
  by_cases e : s.hasTile t = true
  · rw [if_pos e]; exact outcomeLater_next (hf s h)
  · rw [if_neg e]; intro s' e; cases e

theorem outcomeLater_onHead {f : State → State} (h : State.Later s0 s)
    (hf : ∀ x, State.Later s0 x → State.Later s0 (f x)) : OutcomeLater s0 (onHead s f) := outcomeLater_next (hf s h)

end rules

end Sys2Proof.Machine
end

