-- ==== Sys2Proof/Laws/LaterOps.lean ====
section
/-!
SUPPORT. What no command takes back, for every operation and meaning of Machine/Ops.lean.
-/

namespace Sys2Proof.Machine

theorem later_dmaVia {s0 s : State} {t : TileId} {a : Nat} {bs : List Byte} (hs : State.Later s0 s) :
    State.Later s0 (s.dmaVia t a bs) := by
  unfold State.dmaVia
  repeat' first
    | with_reducible assumption
    | intro _
    | with_reducible refine later_ite ?_ ?_
    | with_reducible refine later_dma ?_

theorem later_signal {s0 s : State} {v : Nat} (hs : State.Later s0 s) :
    State.Later s0 (s.signal v) := by
  unfold State.signal
  repeat' first
    | with_reducible assumption
    | intro _
    | with_reducible refine later_ite ?_ ?_
    | with_reducible refine later_emit ?_
    | with_reducible refine later_modHost ?_

theorem later_bwkSend {s0 s : State} {k : Nat} {pl : BwkPayload} (hs : State.Later s0 s) :
    State.Later s0 (s.bwkSend k pl) := by
  unfold State.bwkSend
  repeat' first
    | with_reducible assumption
    | intro _
    | with_reducible refine later_emit ?_
    | exact later_same ‹_› rfl rfl rfl rfl rfl rfl
    | split

theorem later_bwkTell {s0 s : State} {pl : BwkPayload} (hs : State.Later s0 s) :
    State.Later s0 (s.bwkTell pl) := by
  unfold State.bwkTell
  repeat' first
    | with_reducible assumption
    | intro _
    | with_reducible refine later_ite ?_ ?_
    | with_reducible refine later_bwkSend ?_
    | with_reducible refine later_each ?_ ?_

theorem later_bwkKeep {s0 s : State} {r : BwkRef} {pl : BwkPayload} (hs : State.Later s0 s) :
    State.Later s0 (s.bwkKeep r pl) := by
  unfold State.bwkKeep
  repeat' first
    | with_reducible assumption
    | intro _
    | with_reducible refine later_bwkSend ?_
    | with_reducible refine later_modBoard ?_

theorem later_evtPut {s0 s : State} {e : Fin 8} {id : Nat} {ts : Word} {data : List Byte} {urgent : Bool} {mark : Bool} (hs : State.Later s0 s) :
    State.Later s0 (s.evtPut e id ts data urgent mark) := by
  unfold State.evtPut
  repeat' first
    | with_reducible assumption
    | ((try lift_lets -underBinder); intro x; first
        | (refine later_cut (s0 := s0) (x := x) ?_ ?_ <;> [unfold x; (intro hx; clear_value x)])
        | clear_value x)
    | intro _
    | with_reducible refine later_ite ?_ ?_
    | with_reducible refine later_signal ?_
    | with_reducible refine later_dma ?_
    | with_reducible refine later_modHost ?_
    | with_reducible refine later_id ?_

theorem later_evtSend {s0 s : State} {e : Fin 8} {id : Nat} {ts : Word} {data : List Byte} {urgent : Bool} (hs : State.Later s0 s) :
    State.Later s0 (s.evtSend e id ts data urgent) := by
  unfold State.evtSend
  repeat' first
    | with_reducible assumption
    | ((try lift_lets -underBinder); intro x; first
        | (refine later_cut (s0 := s0) (x := x) ?_ ?_ <;> [unfold x; (intro hx; clear_value x)])
        | clear_value x)
    | intro _
    | with_reducible refine later_ite ?_ ?_
    | with_reducible refine later_evtPut ?_
    | with_reducible refine later_id ?_

theorem later_epochMark {s0 s : State} (hs : State.Later s0 s) :
    State.Later s0 s.epochMark := by
  unfold State.epochMark
  repeat' first
    | with_reducible assumption
    | with_reducible exact Nat.le_refl _
    | with_reducible exact Nat.le_succ _
    | ((try lift_lets -underBinder); intro x; first
        | (refine later_cut (s0 := s0) (x := x) ?_ ?_ <;> [unfold x; (intro hx; clear_value x)])
        | clear_value x)
    | intro _
    | with_reducible refine later_ite ?_ ?_
    | with_reducible refine later_evtPut ?_
    | with_reducible refine later_each ?_ ?_
    | with_reducible refine later_modTime ?_ ?_

theorem later_eventOut {s0 s : State} {src : Option TileId} {code : Nat} {ts : Word} {data : List Byte} (hs : State.Later s0 s) :
    State.Later s0 (s.eventOut src code ts data) := by
  unfold State.eventOut
  repeat' first
    | with_reducible assumption
    | intro _
    | with_reducible refine later_ite ?_ ?_
    | with_reducible refine later_bwkSend ?_
    | with_reducible refine later_evtSend ?_
    | with_reducible refine later_each ?_ ?_

theorem later_openEntry {s0 s : State} {t : TileId} {id : Nat} {ts : Word} {data : List Byte} {src : Option Source} (hs : State.Later s0 s) :
    State.Later s0 (s.openEntry t id ts data src) := by
  unfold State.openEntry
  repeat' first
    | with_reducible assumption
    | with_reducible exact fun _ k => k
    | with_reducible exact fun _ _ => Bridge.noConfusion
    | with_reducible exact fun k => ⟨k, id, id, id⟩
    | with_reducible exact Nat.le_refl _
    | with_reducible exact Nat.le_succ _
    | intro _
    | with_reducible refine later_ite ?_ ?_
    | with_reducible refine later_modPeat ?_ ?_
    | with_reducible refine later_id ?_

theorem later_logHighCheck {s0 s : State} (hs : State.Later s0 s) :
    State.Later s0 s.logHighCheck := by
  unfold State.logHighCheck
  repeat' first
    | with_reducible assumption
    | with_reducible exact Nat.le_refl _
    | with_reducible exact Nat.le_succ _
    | with_reducible exact rfl
    | ((try lift_lets -underBinder); intro x; first
        | (refine later_cut (s0 := s0) (x := x) ?_ ?_ <;> [unfold x; (intro hx; clear_value x)])
        | clear_value x)
    | intro _
    | with_reducible refine later_dite ?_ ?_
    | with_reducible refine later_ite ?_ ?_
    | with_reducible refine later_eventOut ?_
    | with_reducible refine later_openEntry ?_
    | with_reducible refine later_modHead ?_ ?_ ?_

theorem later_peatStore {s0 s : State} {t : TileId} {type : Nat} {src : Source} {body : List Byte} {flags : Nat} (hs : State.Later s0 s) :
    State.Later s0 (s.peatStore t type src body flags) := by
  unfold State.peatStore
  repeat' first
    | with_reducible assumption
    | with_reducible exact fun _ k => k
    | with_reducible exact fun _ _ => Bridge.noConfusion
    | with_reducible exact fun k => ⟨k, id, id, id⟩
    | with_reducible exact Nat.le_refl _
    | with_reducible exact Nat.le_succ _
    | with_reducible exact rfl
    | ((try lift_lets -underBinder); intro x; first
        | (refine later_cut (s0 := s0) (x := x) ?_ ?_ <;> [unfold x; (intro hx; clear_value x)])
        | clear_value x)
    | intro _
    | with_reducible refine later_ite ?_ ?_
    | with_reducible refine later_logHighCheck ?_
    | with_reducible refine later_modHead ?_ ?_ ?_
    | with_reducible refine later_modPeat ?_ ?_
    | exact later_same ‹_› rfl rfl rfl rfl rfl rfl
    | split

theorem later_peatLose {s0 s : State} {t : TileId} {type : Nat} {full : Bool} (hs : State.Later s0 s) :
    State.Later s0 (s.peatLose t type full) := by
  unfold State.peatLose
  repeat' first
    | with_reducible assumption
    | with_reducible exact fun _ k => k
    | with_reducible exact fun _ _ => Bridge.noConfusion
    | with_reducible exact fun k => ⟨k, id, id, id⟩
    | with_reducible exact Nat.le_refl _
    | with_reducible exact Nat.le_succ _
    | ((try lift_lets -underBinder); intro x; first
        | (refine later_cut (s0 := s0) (x := x) ?_ ?_ <;> [unfold x; (intro hx; clear_value x)])
        | clear_value x)
    | intro _
    | with_reducible refine later_dite ?_ ?_
    | with_reducible refine later_ite ?_ ?_
    | with_reducible refine later_eventOut ?_
    | with_reducible refine later_openEntry ?_
    | with_reducible refine later_modPeat ?_ ?_

theorem later_peatToFlash {s0 s : State} {t : TileId} {b : Nat} {sector : Nat} (hs : State.Later s0 s) :
    State.Later s0 (s.peatToFlash t b sector) := by
  unfold State.peatToFlash
  repeat' first
    | with_reducible assumption
    | with_reducible exact fun _ k => k
    | with_reducible exact fun _ _ => Bridge.noConfusion
    | with_reducible exact fun k => ⟨k, id, id, id⟩
    | with_reducible exact Nat.le_refl _
    | with_reducible exact Nat.le_succ _
    | with_reducible exact rfl
    | ((try lift_lets -underBinder); intro x; first
        | (refine later_cut (s0 := s0) (x := x) ?_ ?_ <;> [unfold x; (intro hx; clear_value x)])
        | clear_value x)
    | intro _
    | with_reducible refine later_dite ?_ ?_
    | with_reducible refine later_ite ?_ ?_
    | with_reducible refine later_modHead ?_ ?_ ?_
    | with_reducible refine later_modPeat ?_ ?_

theorem later_peatRoom {s0 s : State} {t : TileId} (hs : State.Later s0 s) :
    State.Later s0 (s.peatRoom t) := by
  unfold State.peatRoom
  repeat' first
    | with_reducible assumption
    | ((try lift_lets -underBinder); intro x; first
        | (refine later_cut (s0 := s0) (x := x) ?_ ?_ <;> [unfold x; (intro hx; clear_value x)])
        | clear_value x)
    | intro _
    | with_reducible refine later_ite ?_ ?_
    | with_reducible refine later_peatToFlash ?_
    | split

theorem later_peatFree {s0 s : State} {t : TileId} {bs : List Nat} (hs : State.Later s0 s) :
    State.Later s0 (s.peatFree t bs) := by
  unfold State.peatFree
  repeat' first
    | with_reducible assumption
    | with_reducible exact fun _ k => k
    | with_reducible exact fun _ _ => Bridge.noConfusion
    | with_reducible exact fun k => ⟨k, id, id, id⟩
    | with_reducible exact Nat.le_refl _
    | with_reducible exact Nat.le_succ _
    | with_reducible exact rfl
    | ((try lift_lets -underBinder); intro x; first
        | (refine later_cut (s0 := s0) (x := x) ?_ ?_ <;> [unfold x; (intro hx; clear_value x)])
        | clear_value x)
    | intro _
    | with_reducible refine later_eventOut ?_
    | with_reducible refine later_openEntry ?_
    | with_reducible refine later_modHead ?_ ?_ ?_
    | with_reducible refine later_modPeat ?_ ?_

theorem later_peatWrap {s0 s : State} {t : TileId} (hs : State.Later s0 s) :
    State.Later s0 (s.peatWrap t) := by
  unfold State.peatWrap
  repeat' first
    | with_reducible assumption
    | with_reducible exact Nat.le_refl _
    | with_reducible exact Nat.le_succ _
    | with_reducible exact rfl
    | ((try lift_lets -underBinder); intro x; first
        | (refine later_cut (s0 := s0) (x := x) ?_ ?_ <;> [unfold x; (intro hx; clear_value x)])
        | clear_value x)
    | intro _
    | with_reducible refine later_ite ?_ ?_
    | with_reducible refine later_peatFree ?_
    | with_reducible refine later_peatToFlash ?_
    | with_reducible refine later_each ?_ ?_
    | with_reducible refine later_modHead ?_ ?_ ?_
    | split

theorem later_peatPut {s0 s : State} {t : TileId} {type : Nat} {src : Source} {body : List Byte} {flags : Nat} (hs : State.Later s0 s) :
    State.Later s0 (s.peatPut t type src body flags) := by
  unfold State.peatPut
  repeat' first
    | with_reducible assumption
    | with_reducible exact fun _ k => k
    | with_reducible exact fun _ _ => Bridge.noConfusion
    | with_reducible exact fun k => ⟨k, id, id, id⟩
    | with_reducible exact Nat.le_refl _
    | with_reducible exact Nat.le_succ _
    | with_reducible exact Nat.le_of_eq (Peat.nextSeq_eventsTaken _).symm
    | ((try lift_lets -underBinder); intro x; first
        | (refine later_cut (s0 := s0) (x := x) ?_ ?_ <;> [unfold x; (intro hx; clear_value x)])
        | clear_value x)
    | intro _
    | with_reducible refine later_ite ?_ ?_
    | with_reducible refine later_peatLose ?_
    | with_reducible refine later_peatRoom ?_
    | with_reducible refine later_peatStore ?_
    | with_reducible refine later_peatWrap ?_
    | with_reducible refine later_modPeat ?_ ?_

theorem later_closeEvents {s0 s : State} {t : TileId} {flags : Nat} (hs : State.Later s0 s) :
    State.Later s0 (s.closeEvents t flags) := by
  unfold State.closeEvents
  repeat' first
    | with_reducible assumption
    | with_reducible exact fun _ k => k
    | with_reducible exact fun _ _ => Bridge.noConfusion
    | with_reducible exact fun k => ⟨k, id, id, id⟩
    | with_reducible exact Nat.le_refl _
    | with_reducible exact Nat.le_succ _
    | with_reducible exact Nat.le_of_eq (Peat.nextSeq_eventsTaken _).symm
    | ((try lift_lets -underBinder); intro x; first
        | (refine later_cut (s0 := s0) (x := x) ?_ ?_ <;> [unfold x; (intro hx; clear_value x)])
        | clear_value x)
    | intro _
    | with_reducible refine later_ite ?_ ?_
    | with_reducible refine later_peatPut ?_
    | with_reducible refine later_modPeat ?_ ?_

theorem later_peatEntry {s0 s : State} {t : TileId} {type : Nat} {src : Source} {body : List Byte} (hs : State.Later s0 s) :
    State.Later s0 (s.peatEntry t type src body) := by
  unfold State.peatEntry
  repeat' first
    | with_reducible assumption
    | with_reducible exact fun _ k => k
    | with_reducible exact fun _ _ => Bridge.noConfusion
    | with_reducible exact fun k => ⟨k, id, id, id⟩
    | with_reducible exact Nat.le_refl _
    | with_reducible exact Nat.le_succ _
    | ((try lift_lets -underBinder); intro x; first
        | (refine later_cut (s0 := s0) (x := x) ?_ ?_ <;> [unfold x; (intro hx; clear_value x)])
        | clear_value x)
    | intro _
    | with_reducible refine later_ite ?_ ?_
    | with_reducible refine later_closeEvents ?_
    | with_reducible refine later_peatLose ?_
    | with_reducible refine later_peatPut ?_
    | with_reducible refine later_modPeat ?_ ?_

theorem later_logEvent {s0 s : State} {t : TileId} {id : Nat} {ts : Word} {data : List Byte} {src : Option Source} (hs : State.Later s0 s) :
    State.Later s0 (s.logEvent t id ts data src) := by
  unfold State.logEvent
  repeat' first
    | with_reducible assumption
    | with_reducible exact fun _ k => k
    | with_reducible exact fun _ _ => Bridge.noConfusion
    | with_reducible exact fun k => ⟨k, id, id, id⟩
    | with_reducible exact Nat.le_refl _
    | with_reducible exact Nat.le_succ _
    | ((try lift_lets -underBinder); intro x; first
        | (refine later_cut (s0 := s0) (x := x) ?_ ?_ <;> [unfold x; (intro hx; clear_value x)])
        | clear_value x)
    | intro _
    | with_reducible refine later_ite ?_ ?_
    | with_reducible refine later_closeEvents ?_
    | with_reducible refine later_openEntry ?_
    | with_reducible refine later_peatLose ?_
    | with_reducible refine later_modPeat ?_ ?_
    | with_reducible refine later_id ?_

theorem later_raiseAt {s0 s : State} {t : TileId} {code : Nat} {ts : Word} {data : List Byte} {logged : Bool} {src : Option Source} (hs : State.Later s0 s) :
    State.Later s0 (s.raiseAt t code ts data logged src) := by
  unfold State.raiseAt
  repeat' first
    | with_reducible assumption
    | ((try lift_lets -underBinder); intro x; first
        | (refine later_cut (s0 := s0) (x := x) ?_ ?_ <;> [unfold x; (intro hx; clear_value x)])
        | clear_value x)
    | intro _
    | with_reducible refine later_ite ?_ ?_
    | with_reducible refine later_eventOut ?_
    | with_reducible refine later_logEvent ?_

theorem later_raise {s0 s : State} {t : TileId} {code : Nat} {data : List Byte} {logged : Bool} {src : Option Source} (hs : State.Later s0 s) :
    State.Later s0 (s.raise t code data logged src) := by
  unfold State.raise
  repeat' first
    | with_reducible assumption
    | intro _
    | with_reducible refine later_raiseAt ?_

theorem later_raiseHead {s0 s : State} {code : Nat} {data : List Byte} {logged : Bool} (hs : State.Later s0 s) :
    State.Later s0 (s.raiseHead code data logged) := by
  unfold State.raiseHead
  repeat' first
    | with_reducible assumption
    | ((try lift_lets -underBinder); intro x; first
        | (refine later_cut (s0 := s0) (x := x) ?_ ?_ <;> [unfold x; (intro hx; clear_value x)])
        | clear_value x)
    | intro _
    | with_reducible refine later_ite ?_ ?_
    | with_reducible refine later_eventOut ?_
    | with_reducible refine later_logEvent ?_

theorem later_mailboxKeep {s0 s : State} (hs : State.Later s0 s) :
    State.Later s0 s.mailboxKeep := by
  unfold State.mailboxKeep
  repeat' first
    | with_reducible assumption
    | ((try lift_lets -underBinder); intro x; first
        | (refine later_cut (s0 := s0) (x := x) ?_ ?_ <;> [unfold x; (intro hx; clear_value x)])
        | clear_value x)
    | intro _
    | with_reducible refine later_each ?_ ?_
    | with_reducible refine later_modDoor ?_

theorem later_hostReset {s0 s : State} (hs : State.Later s0 s) :
    State.Later s0 s.hostReset := by
  unfold State.hostReset
  repeat' first
    | with_reducible assumption
    | ((try lift_lets -underBinder); intro x; first
        | (refine later_cut (s0 := s0) (x := x) ?_ ?_ <;> [unfold x; (intro hx; clear_value x)])
        | clear_value x)
    | intro _
    | with_reducible refine later_ite ?_ ?_
    | with_reducible refine later_bwkTell ?_
    | with_reducible refine later_mailboxKeep ?_
    | with_reducible refine later_modHost ?_

theorem later_completeRaw {s0 s : State} {o : Outstanding} {status : Nat} {detail : Nat} {result : List Byte} (hs : State.Later s0 s) :
    State.Later s0 (s.completeRaw o status detail result) := by
  unfold State.completeRaw
  repeat' first
    | with_reducible assumption
    | ((try lift_lets -underBinder); intro x; first
        | (refine later_cut (s0 := s0) (x := x) ?_ ?_ <;> [unfold x; (intro hx; clear_value x)])
        | clear_value x)
    | intro _
    | with_reducible refine later_ite ?_ ?_
    | with_reducible refine later_bwkKeep ?_
    | with_reducible refine later_signal ?_
    | with_reducible refine later_dma ?_
    | with_reducible refine later_modHost ?_
    | exact later_same ‹_› rfl rfl rfl rfl rfl rfl

theorem later_completeOut {s0 s : State} {o : Outstanding} {status : Nat} {detail : Nat} {result : List Byte} (hs : State.Later s0 s) :
    State.Later s0 (s.completeOut o status detail result) := by
  unfold State.completeOut
  repeat' first
    | with_reducible assumption
    | ((try lift_lets -underBinder); intro x; first
        | (refine later_cut (s0 := s0) (x := x) ?_ ?_ <;> [unfold x; (intro hx; clear_value x)])
        | clear_value x)
    | intro _
    | with_reducible refine later_ite ?_ ?_
    | with_reducible refine later_completeRaw ?_
    | with_reducible refine later_hostReset ?_
    | split

theorem later_complete {s0 s : State} {h : HostCmd} {op : Nat} {status : Nat} {detail : Nat} {result : List Byte} (hs : State.Later s0 s) :
    State.Later s0 (s.complete h op status detail result) := by
  unfold State.complete
  repeat' first
    | with_reducible assumption
    | intro _
    | with_reducible refine later_completeOut ?_
    | split

theorem later_loseCommands {s0 s : State} {t : TileId} (hs : State.Later s0 s) :
    State.Later s0 (s.loseCommands t) := by
  unfold State.loseCommands
  repeat' first
    | with_reducible assumption
    | ((try lift_lets -underBinder); intro x; first
        | (refine later_cut (s0 := s0) (x := x) ?_ ?_ <;> [unfold x; (intro hx; clear_value x)])
        | clear_value x)
    | intro _
    | with_reducible refine later_ite ?_ ?_
    | with_reducible refine later_bwkKeep ?_
    | with_reducible refine later_each ?_ ?_
    | with_reducible refine later_modDoor ?_
    | with_reducible refine later_modHost ?_

theorem outcomeLater_onCmd {s0 s : State} {h : HostCmd} {op : Nat} {f : State → State} (hs : State.Later s0 s)
    (hf : ∀ x, State.Later s0 x → State.Later s0 (f x)) : OutcomeLater s0 (onCmd h op s f) := by
  refine outcomeLater_onTile hs (fun x hx => ?_)
  split
  · exact hx
  · refine later_ite (fun _ => hx) (fun _ => later_ite (fun _ => later_completeOut hx) (fun _ => hf x hx))

theorem later_markAccepted {s0 s : State} {h : HostCmd} {op : Nat} (hs : State.Later s0 s) :
    State.Later s0 (s.markAccepted h op) := by
  unfold State.markAccepted
  repeat' first
    | with_reducible assumption
    | intro _
    | with_reducible refine later_ite ?_ ?_
    | with_reducible refine later_modHost ?_

theorem later_configRecord {s0 s : State} {t : TileId} {h : Option HostCmd} {op : Nat} {status : Nat} {before : List Byte} {after : List Byte} {entries : List Byte} (hs : State.Later s0 s) :
    State.Later s0 (s.configRecord t h op status before after entries) := by
  unfold State.configRecord
  repeat' first
    | with_reducible assumption
    | ((try lift_lets -underBinder); intro x; first
        | (refine later_cut (s0 := s0) (x := x) ?_ ?_ <;> [unfold x; (intro hx; clear_value x)])
        | clear_value x)
    | intro _
    | with_reducible refine later_dite ?_ ?_
    | with_reducible refine later_ite ?_ ?_
    | with_reducible refine later_peatEntry ?_
    | split

end Sys2Proof.Machine
end

