-- ==== Sys2Proof/Laws/LaterFlags.lean ====
section
/-!
SUPPORT. What no command takes back, for every operation and meaning of Machine/Flags.lean.
-/

namespace Sys2Proof.Machine

theorem later_holdBack {s0 s : State} {t : TileId} {i : Instr} (hs : State.Later s0 s) :
    State.Later s0 (s.holdBack t i) := by
  unfold State.holdBack
  repeat' first
    | with_reducible assumption
    | intro _
    | with_reducible refine later_ite ?_ ?_
    | with_reducible refine later_modTriad ?_

end Sys2Proof.Machine
end

