-- ==== Sys2Proof/Laws/LaterSoundings.lean ====
section
/-!
SUPPORT. What no command takes back, for every operation and meaning of Machine/Soundings.lean.
-/

namespace Sys2Proof.Machine

theorem later_soundingsCleared {s0 s : State} {t : TileId} {a : AxisId} (hs : State.Later s0 s) :
    State.Later s0 (s.soundingsCleared t a) := by
  unfold State.soundingsCleared
  repeat' first
    | with_reducible assumption
    | with_reducible exact fun _ k => k
    | with_reducible exact fun _ _ => Bridge.noConfusion
    | with_reducible exact fun k => ⟨k, id, id, id⟩
    | ((with_reducible refine fun (hf : _ = true) (hk : _ ≠ Bridge.driven) => ?_); dsimp only; (repeat' split) <;> first | exact hk | exact Bridge.noConfusion | (simp_all; done))
    | ((try lift_lets -underBinder); intro x; first
        | (refine later_cut (s0 := s0) (x := x) ?_ ?_ <;> [unfold x; (intro hx; clear_value x)])
        | clear_value x)
    | intro _
    | with_reducible refine later_raise ?_
    | with_reducible refine later_modAxis ?_ ?_
    | with_reducible refine later_modDoor ?_
    | split

theorem later_binClear {s0 s : State} {t : TileId} {a : AxisId} {d : Dir} {n : Nat} (hs : State.Later s0 s) :
    State.Later s0 (s.binClear t a d n) := by
  unfold State.binClear
  repeat' first
    | with_reducible assumption
    | with_reducible exact fun _ k => k
    | with_reducible exact fun _ _ => Bridge.noConfusion
    | with_reducible exact fun k => ⟨k, id, id, id⟩
    | ((with_reducible refine fun (hf : _ = true) (hk : _ ≠ Bridge.driven) => ?_); dsimp only; (repeat' split) <;> first | exact hk | exact Bridge.noConfusion | (simp_all; done))
    | ((try lift_lets -underBinder); intro x; first
        | (refine later_cut (s0 := s0) (x := x) ?_ ?_ <;> [unfold x; (intro hx; clear_value x)])
        | (have _ := (x : State → _); unfold x; try dsimp only)
        | (have _ := (x : _ → State); unfold x; try dsimp only)
        | (have _ := (x : _ → State → _); unfold x; try dsimp only)
        | clear_value x)
    | intro _
    | with_reducible refine later_ite ?_ ?_
    | with_reducible refine later_raise ?_
    | with_reducible refine later_modAxis ?_ ?_
    | split

theorem later_binLost {s0 s : State} {t : TileId} {a : AxisId} (hs : State.Later s0 s) :
    State.Later s0 (s.binLost t a) := by
  unfold State.binLost
  repeat' first
    | with_reducible assumption
    | ((try lift_lets -underBinder); intro x; first
        | (refine later_cut (s0 := s0) (x := x) ?_ ?_ <;> [unfold x; (intro hx; clear_value x)])
        | clear_value x)
    | intro _
    | with_reducible refine later_binClear ?_
    | split

theorem later_auditRecords {s0 : State} {t : TileId} {a : AxisId} {d : Dir} (n : Nat) {s : State} (es : List (List Byte))
    (hs : State.Later s0 s) : State.Later s0 (s.auditRecords t a d es n) := by
  induction n generalizing s es with
  | zero => unfold State.auditRecords; exact hs
  | succ n ih =>
    unfold State.auditRecords
    exact later_ite (fun _ => hs) (fun _ => ih _ (later_peatEntry hs))

/-- A fold that carries a state beside something else. -/
theorem later_foldl {s0 : State} {α β : Type} {l : List α} {f : State × β → α → State × β} {p : State × β}
    (h : State.Later s0 p.1) (hf : ∀ q a, State.Later s0 q.1 → State.Later s0 (f q a).1) :
    State.Later s0 (l.foldl f p).1 := by
  induction l generalizing p with
  | nil => exact h
  | cons a l ih => exact ih (hf p a h)

theorem later_learnPass {s0 s : State} {t : TileId} {a : AxisId} {d : Dir} (hs : State.Later s0 s) :
    State.Later s0 (s.learnPass t a d) := by
  unfold State.learnPass
  refine later_auditRecords 16 _ (later_foldl (p := (s, [])) hs (fun q b hq => ?_))
  split
  dsimp only at hq ⊢
  split
  repeat' first
    | with_reducible assumption
    | intro _
    | exact fun _ k => k
    | with_reducible refine later_ite ?_ ?_
    | with_reducible refine later_raise ?_
    | with_reducible refine later_modAxis ?_ ?_

theorem later_shadowJudge {s0 s : State} {t : TileId} {a : AxisId} {d : Dir} {m : Nat} (hs : State.Later s0 s) :
    State.Later s0 (s.shadowJudge t a d m) := by
  unfold State.shadowJudge
  repeat' first
    | with_reducible assumption
    | with_reducible exact fun _ k => k
    | with_reducible exact fun _ _ => Bridge.noConfusion
    | with_reducible exact fun k => ⟨k, id, id, id⟩
    | ((with_reducible refine fun (hf : _ = true) (hk : _ ≠ Bridge.driven) => ?_); dsimp only; (repeat' split) <;> first | exact hk | exact Bridge.noConfusion | (simp_all; done))
    | ((try lift_lets -underBinder); intro x; first
        | (refine later_cut (s0 := s0) (x := x) ?_ ?_ <;> [unfold x; (intro hx; clear_value x)])
        | clear_value x)
    | intro _
    | with_reducible refine later_ite ?_ ?_
    | with_reducible refine later_raise ?_
    | with_reducible refine later_each ?_ ?_
    | with_reducible refine later_modAxis ?_ ?_
    | with_reducible refine later_modDoor ?_

theorem later_shadowPass {s0 s : State} {t : TileId} {a : AxisId} {d : Dir} {clean : Bool} (hs : State.Later s0 s) :
    State.Later s0 (s.shadowPass t a d clean) := by
  unfold State.shadowPass
  repeat' first
    | with_reducible assumption
    | with_reducible exact fun _ k => k
    | with_reducible exact fun _ _ => Bridge.noConfusion
    | with_reducible exact fun k => ⟨k, id, id, id⟩
    | ((with_reducible refine fun (hf : _ = true) (hk : _ ≠ Bridge.driven) => ?_); dsimp only; (repeat' split) <;> first | exact hk | exact Bridge.noConfusion | (simp_all; done))
    | ((try lift_lets -underBinder); intro x; first
        | (refine later_cut (s0 := s0) (x := x) ?_ ?_ <;> [unfold x; (intro hx; clear_value x)])
        | clear_value x)
    | intro _
    | with_reducible refine later_ite ?_ ?_
    | with_reducible refine later_shadowJudge ?_
    | with_reducible refine later_modAxis ?_ ?_
    | split

end Sys2Proof.Machine
end

