-- ==== Sys2Proof/Laws/LaterMotion.lean ====
section
/-!
SUPPORT. What no command takes back, for every operation and meaning of Machine/Motion.lean.
-/

namespace Sys2Proof.Machine

theorem later_notClean {s0 s : State} {t : TileId} {a : AxisId} (hs : State.Later s0 s) :
    State.Later s0 (s.notClean t a) := by
  unfold State.notClean
  repeat' first
    | with_reducible assumption
    | intro _
    | with_reducible refine later_modPa ?_

theorem later_noneClean {s0 s : State} {t : TileId} (hs : State.Later s0 s) :
    State.Later s0 (s.noneClean t) := by
  unfold State.noneClean
  repeat' first
    | with_reducible assumption
    | intro _
    | with_reducible refine later_notClean ?_
    | with_reducible refine later_each ?_ ?_

theorem later_endPass {s0 s : State} {t : TileId} {a : AxisId} {atRest : Bool} (hs : State.Later s0 s) :
    State.Later s0 (s.endPass t a atRest) := by
  unfold State.endPass
  repeat' first
    | with_reducible assumption
    | with_reducible exact fun _ k => k
    | with_reducible exact fun _ _ => Bridge.noConfusion
    | with_reducible exact fun k => ⟨k, id, id, id⟩
    | ((with_reducible refine fun (hf : _ = true) (hk : _ ≠ Bridge.driven) => ?_); dsimp only; (repeat' split) <;> first | exact hk | exact Bridge.noConfusion | (simp_all; done))
    | ((try lift_lets -underBinder); intro x; first
        | (refine later_cut (s0 := s0) (x := x) ?_ ?_ <;> [unfold x; (intro hx; clear_value x)])
        | clear_value x)
    | intro _
    | with_reducible refine later_ite ?_ ?_
    | with_reducible refine later_learnPass ?_
    | with_reducible refine later_shadowPass ?_
    | with_reducible refine later_modAxis ?_ ?_
    | with_reducible refine later_modDoor ?_
    | split

theorem later_beginPass {s0 s : State} {t : TileId} {a : AxisId} {stepCmd : Bool} (hs : State.Later s0 s) :
    State.Later s0 (s.beginPass t a stepCmd) := by
  unfold State.beginPass
  repeat' first
    | with_reducible assumption
    | with_reducible exact fun _ k => k
    | with_reducible exact fun _ _ => Bridge.noConfusion
    | with_reducible exact fun k => ⟨k, id, id, id⟩
    | ((with_reducible refine fun (hf : _ = true) (hk : _ ≠ Bridge.driven) => ?_); dsimp only; (repeat' split) <;> first | exact hk | exact Bridge.noConfusion | (simp_all; done))
    | ((try lift_lets -underBinder); intro x; first
        | (refine later_cut (s0 := s0) (x := x) ?_ ?_ <;> [unfold x; (intro hx; clear_value x)])
        | clear_value x)
    | intro _
    | with_reducible refine later_ite ?_ ?_
    | with_reducible refine later_endPass ?_
    | with_reducible refine later_each ?_ ?_
    | with_reducible refine later_modAxis ?_ ?_
    | with_reducible refine later_modDoor ?_
    | with_reducible refine later_modTile ?_ ?_
    | exact Tile.Later.same rfl rfl rfl rfl
    | split

theorem later_noteTrip {s0 s : State} {t : TileId} {a : AxisId} {src : BitVec 16} (hs : State.Later s0 s) :
    State.Later s0 (s.noteTrip t a src) := by
  unfold State.noteTrip
  repeat' first
    | with_reducible assumption
    | with_reducible exact fun _ k => k
    | with_reducible exact fun _ _ => Bridge.noConfusion
    | with_reducible exact fun k => ⟨k, id, id, id⟩
    | ((with_reducible refine fun (hf : _ = true) (hk : _ ≠ Bridge.driven) => ?_); dsimp only; (repeat' split) <;> first | exact hk | exact Bridge.noConfusion | (simp_all; done))
    | ((try lift_lets -underBinder); intro x; first
        | (refine later_cut (s0 := s0) (x := x) ?_ ?_ <;> [unfold x; (intro hx; clear_value x)])
        | clear_value x)
    | intro _
    | with_reducible refine later_modMo ?_ ?_

theorem later_fabricTrip {s0 s : State} {t : TileId} {a : AxisId} {src : BitVec 16} (hs : State.Later s0 s) :
    State.Later s0 (s.fabricTrip t a src) := by
  unfold State.fabricTrip
  repeat' first
    | with_reducible assumption
    | with_reducible exact fun _ k => k
    | with_reducible exact fun _ _ => Bridge.noConfusion
    | with_reducible exact fun k => ⟨k, id, id, id⟩
    | ((with_reducible refine fun (hf : _ = true) (hk : _ ≠ Bridge.driven) => ?_); dsimp only; (repeat' split) <;> first | exact hk | exact Bridge.noConfusion | (simp_all; done))
    | ((try lift_lets -underBinder); intro x; first
        | (refine later_cut (s0 := s0) (x := x) ?_ ?_ <;> [unfold x; (intro hx; clear_value x)])
        | clear_value x)
    | intro _
    | with_reducible refine later_ite ?_ ?_
    | with_reducible refine later_noteTrip ?_
    | with_reducible refine later_modAxis ?_ ?_

theorem later_engineTrip {s0 s : State} {t : TileId} {a : AxisId} {src : BitVec 16} (hs : State.Later s0 s) :
    State.Later s0 (s.engineTrip t a src) := by
  unfold State.engineTrip
  repeat' first
    | with_reducible assumption
    | with_reducible exact fun _ k => k
    | with_reducible exact fun _ _ => Bridge.noConfusion
    | with_reducible exact fun k => ⟨k, id, id, id⟩
    | ((with_reducible refine fun (hf : _ = true) (hk : _ ≠ Bridge.driven) => ?_); dsimp only; (repeat' split) <;> first | exact hk | exact Bridge.noConfusion | (simp_all; done))
    | intro _
    | with_reducible refine later_noteTrip ?_
    | with_reducible refine later_modMo ?_ ?_

theorem later_triadTrip {s0 s : State} {t : TileId} {a : AxisId} {src : BitVec 16} (hs : State.Later s0 s) :
    State.Later s0 (s.triadTrip t a src) := by
  unfold State.triadTrip
  repeat' first
    | with_reducible assumption
    | with_reducible exact fun _ k => k
    | with_reducible exact fun _ _ => Bridge.noConfusion
    | with_reducible exact fun k => ⟨k, id, id, id⟩
    | ((with_reducible refine fun (hf : _ = true) (hk : _ ≠ Bridge.driven) => ?_); dsimp only; (repeat' split) <;> first | exact hk | exact Bridge.noConfusion | (simp_all; done))
    | ((try lift_lets -underBinder); intro x; first
        | (refine later_cut (s0 := s0) (x := x) ?_ ?_ <;> [unfold x; (intro hx; clear_value x)])
        | clear_value x)
    | intro _
    | with_reducible refine later_ite ?_ ?_
    | with_reducible refine later_noteTrip ?_
    | with_reducible refine later_modMo ?_ ?_

theorem later_pathForced {s0 s : State} {t : TileId} {a : AxisId} {p1 : Bool} {p2 : Bool} (hs : State.Later s0 s) :
    State.Later s0 (s.pathForced t a p1 p2) := by
  unfold State.pathForced
  repeat' first
    | with_reducible assumption
    | with_reducible exact fun _ k => k
    | with_reducible exact fun _ _ => Bridge.noConfusion
    | with_reducible exact fun k => ⟨k, id, id, id⟩
    | ((with_reducible refine fun (hf : _ = true) (hk : _ ≠ Bridge.driven) => ?_); dsimp only; (repeat' split) <;> first | exact hk | exact Bridge.noConfusion | (simp_all; done))
    | ((try lift_lets -underBinder); intro x; first
        | (refine later_cut (s0 := s0) (x := x) ?_ ?_ <;> [unfold x; (intro hx; clear_value x)])
        | clear_value x)
    | intro _
    | with_reducible refine later_ite ?_ ?_
    | with_reducible refine later_modAxis ?_ ?_

theorem later_edgeLevel {s0 s : State} {t : TileId} {a : AxisId} (hs : State.Later s0 s) :
    State.Later s0 (s.edgeLevel t a) := by
  unfold State.edgeLevel
  repeat' first
    | with_reducible assumption
    | ((try lift_lets -underBinder); intro x; first
        | (refine later_cut (s0 := s0) (x := x) ?_ ?_ <;> [unfold x; (intro hx; clear_value x)])
        | clear_value x)
    | intro _
    | with_reducible refine later_ite ?_ ?_
    | with_reducible refine later_fabricTrip ?_

theorem later_releasePair {s0 s : State} {t : TileId} {a : AxisId} (hs : State.Later s0 s) :
    State.Later s0 (s.releasePair t a) := by
  unfold State.releasePair
  repeat' first
    | with_reducible assumption
    | with_reducible exact fun _ k => k
    | with_reducible exact fun _ _ => Bridge.noConfusion
    | with_reducible exact fun k => ⟨k, id, id, id⟩
    | ((with_reducible refine fun (hf : _ = true) (hk : _ ≠ Bridge.driven) => ?_); dsimp only; (repeat' split) <;> first | exact hk | exact Bridge.noConfusion | (simp_all; done))
    | intro _
    | with_reducible refine later_modLink ?_
    | with_reducible refine later_modMo ?_ ?_

theorem later_driveBusEvent {s0 s : State} {t : TileId} {a : AxisId} {cause : Nat} (hs : State.Later s0 s) :
    State.Later s0 (s.driveBusEvent t a cause) := by
  unfold State.driveBusEvent
  repeat' first
    | with_reducible assumption
    | intro _
    | with_reducible refine later_raise ?_

theorem later_refuseMove {s0 s : State} {t : TileId} {a : AxisId} (hs : State.Later s0 s) :
    State.Later s0 (s.refuseMove t a) := by
  unfold State.refuseMove
  repeat' first
    | with_reducible assumption
    | intro _
    | with_reducible refine later_ite ?_ ?_
    | with_reducible refine later_modDoor ?_

theorem later_startMove {s0 s : State} {t : TileId} {a : AxisId} {kind : MoveKind} {target : Int} {set : LimitSet} {stepCmd : Bool} (hs : State.Later s0 s) :
    State.Later s0 (s.startMove t a kind target set stepCmd) := by
  unfold State.startMove
  repeat' first
    | with_reducible assumption
    | with_reducible exact fun _ k => k
    | with_reducible exact fun _ _ => Bridge.noConfusion
    | with_reducible exact fun k => ⟨k, id, id, id⟩
    | ((with_reducible refine fun (hf : _ = true) (hk : _ ≠ Bridge.driven) => ?_); dsimp only; (repeat' split) <;> first | exact hk | exact Bridge.noConfusion | (simp_all; done))
    | ((try lift_lets -underBinder); intro x; first
        | (refine later_cut (s0 := s0) (x := x) ?_ ?_ <;> [unfold x; (intro hx; clear_value x)])
        | clear_value x)
    | intro _
    | with_reducible refine later_ite ?_ ?_
    | with_reducible refine later_beginPass ?_
    | with_reducible refine later_driveBusEvent ?_
    | with_reducible refine later_refuseMove ?_
    | with_reducible refine later_releasePair ?_
    | with_reducible refine later_modDoor ?_
    | with_reducible refine later_modMo ?_ ?_

theorem later_stopMove {s0 s : State} {t : TileId} {a : AxisId} (hs : State.Later s0 s) :
    State.Later s0 (s.stopMove t a) := by
  unfold State.stopMove
  repeat' first
    | with_reducible assumption
    | with_reducible exact fun _ k => k
    | with_reducible exact fun _ _ => Bridge.noConfusion
    | with_reducible exact fun k => ⟨k, id, id, id⟩
    | ((with_reducible refine fun (hf : _ = true) (hk : _ ≠ Bridge.driven) => ?_); dsimp only; (repeat' split) <;> first | exact hk | exact Bridge.noConfusion | (simp_all; done))
    | intro _
    | with_reducible refine later_modMo ?_ ?_

theorem later_brakeAxis {s0 s : State} {t : TileId} {a : AxisId} (hs : State.Later s0 s) :
    State.Later s0 (s.brakeAxis t a) := by
  unfold State.brakeAxis
  repeat' first
    | with_reducible assumption
    | with_reducible exact fun _ k => k
    | with_reducible exact fun _ _ => Bridge.noConfusion
    | with_reducible exact fun k => ⟨k, id, id, id⟩
    | ((with_reducible refine fun (hf : _ = true) (hk : _ ≠ Bridge.driven) => ?_); dsimp only; (repeat' split) <;> first | exact hk | exact Bridge.noConfusion | (simp_all; done))
    | intro _
    | with_reducible refine later_endPass ?_
    | with_reducible refine later_modMo ?_ ?_

theorem later_brakeAll {s0 s : State} {t : TileId} (hs : State.Later s0 s) :
    State.Later s0 (s.brakeAll t) := by
  unfold State.brakeAll
  repeat' first
    | with_reducible assumption
    | intro _
    | with_reducible refine later_brakeAxis ?_
    | with_reducible refine later_each ?_ ?_

/-- A bridge that is driven only where the engine can drive its axis, so never under the fallback image. -/
theorem later_drive {s0 s : State} {t : TileId} {a : AxisId} {f : Motion → Motion} (hs : State.Later s0 s)
    (hc : (s.tile t).canDrive a = true) : State.Later s0 (s.modMo t a f) := by
  refine later_modMo hs (fun hf => ?_)
  unfold Tile.canDrive at hc
  simp [hf] at hc

theorem Tile.canHold_canDrive {tl : Tile} {a : AxisId} (h : tl.canHold a = true) : tl.canDrive a = true := by
  unfold Tile.canHold at h
  simp only [Bool.and_eq_true] at h
  exact h.1.1

theorem later_holdAxis {s0 s : State} {t : TileId} {a : AxisId} (hs : State.Later s0 s) :
    State.Later s0 (s.holdAxis t a) := by
  unfold State.holdAxis
  exact later_ite (fun _ => later_stopMove hs) (fun _ => later_ite (fun _ => later_modDoor hs)
    (fun _ => later_ite (fun hc => later_drive hs (Tile.canHold_canDrive hc)) (fun _ => hs)))

theorem later_fireStake {s0 s : State} {t : TileId} {a : AxisId} {d : Dir} {i : Nat} {replay : Bool} (hs : State.Later s0 s) :
    State.Later s0 (s.fireStake t a d i replay) := by
  unfold State.fireStake
  repeat' first
    | with_reducible assumption
    | with_reducible exact fun _ k => k
    | with_reducible exact fun _ _ => Bridge.noConfusion
    | with_reducible exact fun k => ⟨k, id, id, id⟩
    | ((with_reducible refine fun (hf : _ = true) (hk : _ ≠ Bridge.driven) => ?_); dsimp only; (repeat' split) <;> first | exact hk | exact Bridge.noConfusion | (simp_all; done))
    | ((try lift_lets -underBinder); intro x; first
        | (refine later_cut (s0 := s0) (x := x) ?_ ?_ <;> [unfold x; (intro hx; clear_value x)])
        | (have _ := (x : State → _); unfold x; try dsimp only)
        | (have _ := (x : _ → State); unfold x; try dsimp only)
        | (have _ := (x : _ → State → _); unfold x; try dsimp only)
        | clear_value x)
    | intro _
    | with_reducible refine later_ite ?_ ?_
    | with_reducible refine later_modDoor ?_
    | with_reducible refine later_modMo ?_ ?_
    | with_reducible refine later_modPa ?_
    | split

theorem later_armTable {s0 s : State} {t : TileId} {a : AxisId} {d : Dir} (hs : State.Later s0 s) :
    State.Later s0 (s.armTable t a d) := by
  unfold State.armTable
  repeat' first
    | with_reducible assumption
    | ((try lift_lets -underBinder); intro x; first
        | (refine later_cut (s0 := s0) (x := x) ?_ ?_ <;> [unfold x; (intro hx; clear_value x)])
        | clear_value x)
    | intro _
    | with_reducible refine later_ite ?_ ?_
    | with_reducible refine later_fireStake ?_
    | with_reducible refine later_modPa ?_
    | with_reducible refine later_list ?_ ?_
    | split

theorem later_runTable {s0 s : State} {t : TileId} {a : AxisId} {d : Dir} (hs : State.Later s0 s) :
    State.Later s0 (s.runTable t a d) := by
  unfold State.runTable
  repeat' first
    | with_reducible assumption
    | ((try lift_lets -underBinder); intro x; first
        | (refine later_cut (s0 := s0) (x := x) ?_ ?_ <;> [unfold x; (intro hx; clear_value x)])
        | clear_value x)
    | intro _
    | with_reducible refine later_ite ?_ ?_
    | with_reducible refine later_fireStake ?_
    | with_reducible refine later_modPa ?_
    | with_reducible refine later_list ?_ ?_
    | split

theorem later_boundReached {s0 s : State} {t : TileId} {a : AxisId} (hs : State.Later s0 s) :
    State.Later s0 (s.boundReached t a) := by
  unfold State.boundReached
  repeat' first
    | with_reducible assumption
    | with_reducible exact fun _ k => k
    | with_reducible exact fun _ _ => Bridge.noConfusion
    | with_reducible exact fun k => ⟨k, id, id, id⟩
    | ((with_reducible refine fun (hf : _ = true) (hk : _ ≠ Bridge.driven) => ?_); dsimp only; (repeat' split) <;> first | exact hk | exact Bridge.noConfusion | (simp_all; done))
    | ((try lift_lets -underBinder); intro x; first
        | (refine later_cut (s0 := s0) (x := x) ?_ ?_ <;> [unfold x; (intro hx; clear_value x)])
        | clear_value x)
    | intro _
    | with_reducible refine later_ite ?_ ?_
    | with_reducible refine later_modAxis ?_ ?_
    | split

theorem later_runStakes {s0 s : State} {t : TileId} {a : AxisId} (hs : State.Later s0 s) :
    State.Later s0 (s.runStakes t a) := by
  unfold State.runStakes
  repeat' first
    | with_reducible assumption
    | ((try lift_lets -underBinder); intro x; first
        | (refine later_cut (s0 := s0) (x := x) ?_ ?_ <;> [unfold x; (intro hx; clear_value x)])
        | clear_value x)
    | intro _
    | with_reducible refine later_ite ?_ ?_
    | with_reducible refine later_armTable ?_
    | with_reducible refine later_boundReached ?_
    | with_reducible refine later_runTable ?_
    | with_reducible refine later_modPa ?_

theorem later_forceTrip {s0 s : State} {t : TileId} {a : AxisId} {sat : Bool} (hs : State.Later s0 s) :
    State.Later s0 (s.forceTrip t a sat) := by
  unfold State.forceTrip
  repeat' first
    | with_reducible assumption
    | with_reducible exact fun _ k => k
    | with_reducible exact fun _ _ => Bridge.noConfusion
    | with_reducible exact fun k => ⟨k, id, id, id⟩
    | ((with_reducible refine fun (hf : _ = true) (hk : _ ≠ Bridge.driven) => ?_); dsimp only; (repeat' split) <;> first | exact hk | exact Bridge.noConfusion | (simp_all; done))
    | ((try lift_lets -underBinder); intro x; first
        | (refine later_cut (s0 := s0) (x := x) ?_ ?_ <;> [unfold x; (intro hx; clear_value x)])
        | clear_value x)
    | intro _
    | with_reducible refine later_ite ?_ ?_
    | with_reducible refine later_engineTrip ?_
    | with_reducible refine later_stopMove ?_
    | with_reducible refine later_modMo ?_ ?_
    | split

theorem later_residualTest {s0 s : State} {t : TileId} {a : AxisId} (hs : State.Later s0 s) :
    State.Later s0 (s.residualTest t a) := by
  unfold State.residualTest
  repeat' first
    | with_reducible assumption
    | with_reducible exact fun _ k => k
    | with_reducible exact fun _ _ => Bridge.noConfusion
    | with_reducible exact fun k => ⟨k, id, id, id⟩
    | ((with_reducible refine fun (hf : _ = true) (hk : _ ≠ Bridge.driven) => ?_); dsimp only; (repeat' split) <;> first | exact hk | exact Bridge.noConfusion | (simp_all; done))
    | ((try lift_lets -underBinder); intro x; first
        | (refine later_cut (s0 := s0) (x := x) ?_ ?_ <;> [unfold x; (intro hx; clear_value x)])
        | clear_value x)
    | intro _
    | with_reducible refine later_ite ?_ ?_
    | with_reducible refine later_forceTrip ?_
    | with_reducible refine later_modAxis ?_ ?_
    | split

theorem later_traceSample {s0 s : State} {t : TileId} {a : AxisId} (hs : State.Later s0 s) :
    State.Later s0 (s.traceSample t a) := by
  unfold State.traceSample
  repeat' first
    | with_reducible assumption
    | with_reducible exact fun _ k => k
    | with_reducible exact fun _ _ => Bridge.noConfusion
    | with_reducible exact fun k => ⟨k, id, id, id⟩
    | ((with_reducible refine fun (hf : _ = true) (hk : _ ≠ Bridge.driven) => ?_); dsimp only; (repeat' split) <;> first | exact hk | exact Bridge.noConfusion | (simp_all; done))
    | ((try lift_lets -underBinder); intro x; first
        | (refine later_cut (s0 := s0) (x := x) ?_ ?_ <;> [unfold x; (intro hx; clear_value x)])
        | clear_value x)
    | intro _
    | with_reducible refine later_ite ?_ ?_
    | with_reducible refine later_modAxis ?_ ?_

theorem later_tripRecord {s0 s : State} {t : TileId} {a : AxisId} (hs : State.Later s0 s) :
    State.Later s0 (s.tripRecord t a) := by
  unfold State.tripRecord
  repeat' first
    | with_reducible assumption
    | with_reducible exact fun _ k => k
    | with_reducible exact fun _ _ => Bridge.noConfusion
    | with_reducible exact fun k => ⟨k, id, id, id⟩
    | ((with_reducible refine fun (hf : _ = true) (hk : _ ≠ Bridge.driven) => ?_); dsimp only; (repeat' split) <;> first | exact hk | exact Bridge.noConfusion | (simp_all; done))
    | ((try lift_lets -underBinder); intro x; first
        | (refine later_cut (s0 := s0) (x := x) ?_ ?_ <;> [unfold x; (intro hx; clear_value x)])
        | clear_value x)
    | intro _
    | with_reducible refine later_peatEntry ?_
    | with_reducible refine later_each ?_ ?_
    | with_reducible refine later_modMo ?_ ?_

theorem later_recordTrip {s0 s : State} {t : TileId} {a : AxisId} {n : TripNote} (hs : State.Later s0 s) :
    State.Later s0 (s.recordTrip t a n) := by
  unfold State.recordTrip
  repeat' first
    | with_reducible assumption
    | with_reducible exact fun _ k => k
    | with_reducible exact fun _ _ => Bridge.noConfusion
    | with_reducible exact fun k => ⟨k, id, id, id⟩
    | ((with_reducible refine fun (hf : _ = true) (hk : _ ≠ Bridge.driven) => ?_); dsimp only; (repeat' split) <;> first | exact hk | exact Bridge.noConfusion | (simp_all; done))
    | intro _
    | with_reducible refine later_raise ?_
    | with_reducible refine later_modMo ?_ ?_

theorem later_tripAtRest {s0 s : State} {t : TileId} {a : AxisId} {src : BitVec 16} (hs : State.Later s0 s) :
    State.Later s0 (s.tripAtRest t a src) := by
  unfold State.tripAtRest
  repeat' first
    | with_reducible assumption
    | intro _
    | with_reducible refine later_recordTrip ?_

theorem later_tripEvent {s0 s : State} {t : TileId} {a : AxisId} (hs : State.Later s0 s) :
    State.Later s0 (s.tripEvent t a) := by
  unfold State.tripEvent
  repeat' first
    | with_reducible assumption
    | with_reducible exact fun _ k => k
    | with_reducible exact fun _ _ => Bridge.noConfusion
    | with_reducible exact fun k => ⟨k, id, id, id⟩
    | ((with_reducible refine fun (hf : _ = true) (hk : _ ≠ Bridge.driven) => ?_); dsimp only; (repeat' split) <;> first | exact hk | exact Bridge.noConfusion | (simp_all; done))
    | ((try lift_lets -underBinder); intro x; first
        | (refine later_cut (s0 := s0) (x := x) ?_ ?_ <;> [unfold x; (intro hx; clear_value x)])
        | clear_value x)
    | intro _
    | with_reducible refine later_dite ?_ ?_
    | with_reducible refine later_ite ?_ ?_
    | with_reducible refine later_endPass ?_
    | with_reducible refine later_noneClean ?_
    | with_reducible refine later_recordTrip ?_
    | with_reducible refine later_modDoor ?_
    | with_reducible refine later_modMo ?_ ?_
    | split

theorem later_extSample {s0 s : State} {t : TileId} {a : AxisId} {now : Nat} (hs : State.Later s0 s) :
    State.Later s0 (s.extSample t a now) := by
  unfold State.extSample
  repeat' first
    | with_reducible assumption
    | with_reducible exact fun _ k => k
    | with_reducible exact fun _ _ => Bridge.noConfusion
    | with_reducible exact fun k => ⟨k, id, id, id⟩
    | ((with_reducible refine fun (hf : _ = true) (hk : _ ≠ Bridge.driven) => ?_); dsimp only; (repeat' split) <;> first | exact hk | exact Bridge.noConfusion | (simp_all; done))
    | ((try lift_lets -underBinder); intro x; first
        | (refine later_cut (s0 := s0) (x := x) ?_ ?_ <;> [unfold x; (intro hx; clear_value x)])
        | clear_value x)
    | intro _
    | with_reducible refine later_ite ?_ ?_
    | with_reducible refine later_modAxis ?_ ?_
    | split

theorem later_coarseStep {s0 s : State} {t : TileId} {a : AxisId} {d : Dir} {period : Nat} (hs : State.Later s0 s) :
    State.Later s0 (s.coarseStep t a d period) := by
  unfold State.coarseStep
  repeat' first
    | with_reducible assumption
    | with_reducible exact fun _ k => k
    | with_reducible exact fun _ _ => Bridge.noConfusion
    | with_reducible exact fun k => ⟨k, id, id, id⟩
    | ((with_reducible refine fun (hf : _ = true) (hk : _ ≠ Bridge.driven) => ?_); dsimp only; (repeat' split) <;> first | exact hk | exact Bridge.noConfusion | (simp_all; done))
    | ((try lift_lets -underBinder); intro x; first
        | (refine later_cut (s0 := s0) (x := x) ?_ ?_ <;> [unfold x; (intro hx; clear_value x)])
        | clear_value x)
    | intro _
    | with_reducible refine later_ite ?_ ?_
    | with_reducible refine later_raise ?_
    | with_reducible refine later_modMo ?_ ?_

theorem later_planSample {s0 s : State} {t : TileId} {a : AxisId} (hs : State.Later s0 s) :
    State.Later s0 (s.planSample t a) := by
  unfold State.planSample
  repeat' first
    | with_reducible assumption
    | with_reducible exact fun _ k => k
    | with_reducible exact fun _ _ => Bridge.noConfusion
    | with_reducible exact fun k => ⟨k, id, id, id⟩
    | ((with_reducible refine fun (hf : _ = true) (hk : _ ≠ Bridge.driven) => ?_); dsimp only; (repeat' split) <;> first | exact hk | exact Bridge.noConfusion | (simp_all; done))
    | ((try lift_lets -underBinder); intro x; first
        | (refine later_cut (s0 := s0) (x := x) ?_ ?_ <;> [unfold x; (intro hx; clear_value x)])
        | (have _ := (x : State → _); unfold x; try dsimp only)
        | (have _ := (x : _ → State); unfold x; try dsimp only)
        | (have _ := (x : _ → State → _); unfold x; try dsimp only)
        | clear_value x)
    | intro _
    | with_reducible refine later_ite ?_ ?_
    | with_reducible refine later_draw ?_
    | with_reducible refine later_modMo ?_ ?_
    | split

theorem later_clampRef {s0 s : State} {t : TileId} {a : AxisId} (hs : State.Later s0 s) :
    State.Later s0 (s.clampRef t a) := by
  unfold State.clampRef
  repeat' first
    | with_reducible assumption
    | with_reducible exact fun _ k => k
    | with_reducible exact fun _ _ => Bridge.noConfusion
    | with_reducible exact fun k => ⟨k, id, id, id⟩
    | ((with_reducible refine fun (hf : _ = true) (hk : _ ≠ Bridge.driven) => ?_); dsimp only; (repeat' split) <;> first | exact hk | exact Bridge.noConfusion | (simp_all; done))
    | ((try lift_lets -underBinder); intro x; first
        | (refine later_cut (s0 := s0) (x := x) ?_ ?_ <;> [unfold x; (intro hx; clear_value x)])
        | clear_value x)
    | intro _
    | with_reducible refine later_modMo ?_ ?_

theorem later_controlSample {s0 s : State} {t : TileId} {a : AxisId} {hallSector : Option Nat} (hs : State.Later s0 s) :
    State.Later s0 (s.controlSample t a hallSector) := by
  unfold State.controlSample
  repeat' first
    | with_reducible assumption
    | with_reducible exact fun _ k => k
    | with_reducible exact fun _ _ => Bridge.noConfusion
    | with_reducible exact fun k => ⟨k, id, id, id⟩
    | ((with_reducible refine fun (hf : _ = true) (hk : _ ≠ Bridge.driven) => ?_); dsimp only; (repeat' split) <;> first | exact hk | exact Bridge.noConfusion | (simp_all; done))
    | ((try lift_lets -underBinder); intro x; first
        | (refine later_cut (s0 := s0) (x := x) ?_ ?_ <;> [unfold x; (intro hx; clear_value x)])
        | clear_value x)
    | intro _
    | with_reducible refine later_ite ?_ ?_
    | with_reducible refine later_draw ?_
    | with_reducible refine later_modMo ?_ ?_

theorem later_comeToRest {s0 s : State} {t : TileId} {a : AxisId} (hs : State.Later s0 s) :
    State.Later s0 (s.comeToRest t a) := by
  unfold State.comeToRest
  repeat' first
    | with_reducible assumption
    | with_reducible exact fun _ k => k
    | with_reducible exact fun _ _ => Bridge.noConfusion
    | with_reducible exact fun k => ⟨k, id, id, id⟩
    | ((with_reducible refine fun (hf : _ = true) (hk : _ ≠ Bridge.driven) => ?_); dsimp only; (repeat' split) <;> first | exact hk | exact Bridge.noConfusion | (simp_all; done))
    | ((try lift_lets -underBinder); intro x; first
        | (refine later_cut (s0 := s0) (x := x) ?_ ?_ <;> [unfold x; (intro hx; clear_value x)])
        | clear_value x)
    | intro _
    | with_reducible refine later_ite ?_ ?_
    | with_reducible refine later_endPass ?_
    | with_reducible refine later_engineTrip ?_
    | with_reducible refine later_notClean ?_
    | with_reducible refine later_raise ?_
    | with_reducible refine later_modMo ?_ ?_
    | split

theorem later_positionLost {s0 s : State} {t : TileId} {a : AxisId} {cause : Nat} (hs : State.Later s0 s) :
    State.Later s0 (s.positionLost t a cause) := by
  unfold State.positionLost
  repeat' first
    | with_reducible assumption
    | ((try lift_lets -underBinder); intro x; first
        | (refine later_cut (s0 := s0) (x := x) ?_ ?_ <;> [unfold x; (intro hx; clear_value x)])
        | (have _ := (x : State → _); unfold x; try dsimp only)
        | (have _ := (x : _ → State); unfold x; try dsimp only)
        | (have _ := (x : _ → State → _); unfold x; try dsimp only)
        | clear_value x)
    | intro _
    | with_reducible refine later_dite ?_ ?_
    | with_reducible refine later_ite ?_ ?_
    | with_reducible refine later_engineTrip ?_
    | with_reducible refine later_logEvent ?_
    | with_reducible refine later_raise ?_
    | with_reducible refine later_modDoor ?_
    | with_reducible refine later_modFb ?_
    | split

theorem later_causeCleared {s0 s : State} {t : TileId} {a : AxisId} {cause : Nat} (hs : State.Later s0 s) :
    State.Later s0 (s.causeCleared t a cause) := by
  unfold State.causeCleared
  repeat' first
    | with_reducible assumption
    | intro _
    | with_reducible refine later_modFb ?_

end Sys2Proof.Machine
end

