-- ==== Sys2Proof/Laws/LaterHoming.lean ====
section
/-!
SUPPORT. What no command takes back, for every operation and meaning of Machine/Homing.lean.
-/

namespace Sys2Proof.Machine

theorem later_setLs {s0 s : State} {t : TileId} {ch : Nat} {on : Bool} (hs : State.Later s0 s) :
    State.Later s0 (s.setLs t ch on) := by
  unfold State.setLs
  repeat' first
    | with_reducible assumption
    | intro _
    | with_reducible refine later_ite ?_ ?_
    | with_reducible refine later_modLink ?_

theorem later_setLock {s0 s : State} {t : TileId} {on : Bool} (hs : State.Later s0 s) :
    State.Later s0 (s.setLock t on) := by
  unfold State.setLock
  repeat' first
    | with_reducible assumption
    | intro _
    | with_reducible refine later_setLs ?_

theorem later_setBuzzer {s0 s : State} {t : TileId} {on : Bool} (hs : State.Later s0 s) :
    State.Later s0 (s.setBuzzer t on) := by
  unfold State.setBuzzer
  repeat' first
    | with_reducible assumption
    | intro _
    | with_reducible refine later_setLs ?_

theorem later_setOutputs16 {s0 s : State} {t : TileId} {mask : BitVec 16} {val : BitVec 16} (hs : State.Later s0 s) :
    State.Later s0 (s.setOutputs16 t mask val) := by
  unfold State.setOutputs16
  repeat' first
    | with_reducible assumption
    | ((try lift_lets -underBinder); intro x; first
        | (refine later_cut (s0 := s0) (x := x) ?_ ?_ <;> [unfold x; (intro hx; clear_value x)])
        | clear_value x)
    | intro _
    | with_reducible refine later_modLink ?_

theorem later_setOutputs26 {s0 s : State} {t : TileId} {mask : BitVec 26} {val : BitVec 26} (hs : State.Later s0 s) :
    State.Later s0 (s.setOutputs26 t mask val) := by
  unfold State.setOutputs26
  repeat' first
    | with_reducible assumption
    | ((try lift_lets -underBinder); intro x; first
        | (refine later_cut (s0 := s0) (x := x) ?_ ?_ <;> [unfold x; (intro hx; clear_value x)])
        | clear_value x)
    | intro _
    | with_reducible refine later_modLink ?_

theorem later_cycleRecord {s0 s : State} {t : TileId} {tno : Nat} (hs : State.Later s0 s) :
    State.Later s0 (s.cycleRecord t tno) := by
  unfold State.cycleRecord
  repeat' first
    | with_reducible assumption
    | ((try lift_lets -underBinder); intro x; first
        | (refine later_cut (s0 := s0) (x := x) ?_ ?_ <;> [unfold x; (intro hx; clear_value x)])
        | clear_value x)
    | intro _
    | with_reducible refine later_ite ?_ ?_
    | with_reducible refine later_peatEntry ?_
    | with_reducible refine later_modDoor ?_

theorem later_transition {s0 s : State} {t : TileId} {tno : Nat} {new : DoorState} (hs : State.Later s0 s) :
    State.Later s0 (s.transition t tno new) := by
  unfold State.transition
  repeat' first
    | with_reducible assumption
    | ((try lift_lets -underBinder); intro x; first
        | (refine later_cut (s0 := s0) (x := x) ?_ ?_ <;> [unfold x; (intro hx; clear_value x)])
        | clear_value x)
    | intro _
    | with_reducible refine later_ite ?_ ?_
    | with_reducible refine later_beginPass ?_
    | with_reducible refine later_cycleRecord ?_
    | with_reducible refine later_endPass ?_
    | with_reducible refine later_raise ?_
    | with_reducible refine later_setLock ?_
    | with_reducible refine later_each ?_ ?_
    | with_reducible refine later_modDoor ?_
    | with_reducible refine later_modPa ?_

theorem later_homeMove {s0 s : State} {t : TileId} {a : AxisId} {stage : HomeStage} {target : Int} (hs : State.Later s0 s) :
    State.Later s0 (s.homeMove t a stage target) := by
  unfold State.homeMove
  repeat' first
    | with_reducible assumption
    | with_reducible exact fun _ k => k
    | with_reducible exact fun _ _ => Bridge.noConfusion
    | with_reducible exact fun k => ⟨k, id, id, id⟩
    | ((with_reducible refine fun (hf : _ = true) (hk : _ ≠ Bridge.driven) => ?_); dsimp only; (repeat' split) <;> first | exact hk | exact Bridge.noConfusion | (simp_all; done))
    | ((try lift_lets -underBinder); intro x; first
        | (refine later_cut (s0 := s0) (x := x) ?_ ?_ <;> [unfold x; (intro hx; clear_value x)])
        | clear_value x)
    | intro _
    | with_reducible refine later_ite ?_ ?_
    | with_reducible refine later_startMove ?_
    | with_reducible refine later_modMo ?_ ?_

theorem later_homeFail {s0 s : State} {t : TileId} {cause : Nat} {a : Option AxisId} {takeT04 : Bool} {trip : Bool} (hs : State.Later s0 s) :
    State.Later s0 (s.homeFail t cause a takeT04 trip) := by
  unfold State.homeFail
  repeat' first
    | with_reducible assumption
    | with_reducible exact fun _ k => k
    | with_reducible exact fun _ _ => Bridge.noConfusion
    | with_reducible exact fun k => ⟨k, id, id, id⟩
    | ((with_reducible refine fun (hf : _ = true) (hk : _ ≠ Bridge.driven) => ?_); dsimp only; (repeat' split) <;> first | exact hk | exact Bridge.noConfusion | (simp_all; done))
    | ((try lift_lets -underBinder); intro x; first
        | (refine later_cut (s0 := s0) (x := x) ?_ ?_ <;> [unfold x; (intro hx; clear_value x)])
        | clear_value x)
    | intro _
    | with_reducible refine later_ite ?_ ?_
    | with_reducible refine later_raise ?_
    | with_reducible refine later_setLock ?_
    | with_reducible refine later_stopMove ?_
    | with_reducible refine later_transition ?_
    | with_reducible refine later_triadTrip ?_
    | with_reducible refine later_each ?_ ?_
    | with_reducible refine later_modDoor ?_
    | with_reducible refine later_modMo ?_ ?_
    | split

theorem later_indexStart {s0 s : State} {t : TileId} {a : AxisId} (hs : State.Later s0 s) :
    State.Later s0 (s.indexStart t a) := by
  unfold State.indexStart
  repeat' first
    | with_reducible assumption
    | intro _
    | with_reducible refine later_homeMove ?_

theorem later_indexHome {s0 s : State} {t : TileId} {a : AxisId} (hs : State.Later s0 s) :
    State.Later s0 (s.indexHome t a) := by
  unfold State.indexHome
  repeat' first
    | with_reducible assumption
    | with_reducible exact fun _ k => k
    | with_reducible exact fun _ _ => Bridge.noConfusion
    | with_reducible exact fun k => ⟨k, id, id, id⟩
    | ((with_reducible refine fun (hf : _ = true) (hk : _ ≠ Bridge.driven) => ?_); dsimp only; (repeat' split) <;> first | exact hk | exact Bridge.noConfusion | (simp_all; done))
    | intro _
    | with_reducible refine later_ite ?_ ?_
    | with_reducible refine later_indexStart ?_
    | with_reducible refine later_modDoor ?_
    | with_reducible refine later_modMo ?_ ?_

theorem later_switchHome {s0 s : State} {t : TileId} {a : AxisId} (hs : State.Later s0 s) :
    State.Later s0 (s.switchHome t a) := by
  unfold State.switchHome
  repeat' first
    | with_reducible assumption
    | ((try lift_lets -underBinder); intro x; first
        | (refine later_cut (s0 := s0) (x := x) ?_ ?_ <;> [unfold x; (intro hx; clear_value x)])
        | clear_value x)
    | intro _
    | with_reducible refine later_ite ?_ ?_
    | with_reducible refine later_homeMove ?_

theorem later_homeReference {s0 s : State} {t : TileId} {a : AxisId} (hs : State.Later s0 s) :
    State.Later s0 (s.homeReference t a) := by
  unfold State.homeReference
  repeat' first
    | with_reducible assumption
    | with_reducible exact fun _ k => k
    | with_reducible exact fun _ _ => Bridge.noConfusion
    | with_reducible exact fun k => ⟨k, id, id, id⟩
    | ((with_reducible refine fun (hf : _ = true) (hk : _ ≠ Bridge.driven) => ?_); dsimp only; (repeat' split) <;> first | exact hk | exact Bridge.noConfusion | (simp_all; done))
    | intro _
    | with_reducible refine later_ite ?_ ?_
    | with_reducible refine later_indexHome ?_
    | with_reducible refine later_switchHome ?_
    | with_reducible refine later_modMo ?_ ?_

theorem later_homeAxis {s0 s : State} {t : TileId} {a : AxisId} (hs : State.Later s0 s) :
    State.Later s0 (s.homeAxis t a) := by
  unfold State.homeAxis
  repeat' first
    | with_reducible assumption
    | intro _
    | with_reducible refine later_ite ?_ ?_
    | with_reducible refine later_homeMove ?_
    | with_reducible refine later_homeReference ?_

theorem later_homeStart {s0 s : State} {t : TileId} {inIsolated : Bool} (hs : State.Later s0 s) :
    State.Later s0 (s.homeStart t inIsolated) := by
  unfold State.homeStart
  repeat' first
    | with_reducible assumption
    | with_reducible exact fun _ k => k
    | with_reducible exact fun _ _ => Bridge.noConfusion
    | with_reducible exact fun k => ⟨k, id, id, id⟩
    | ((with_reducible refine fun (hf : _ = true) (hk : _ ≠ Bridge.driven) => ?_); dsimp only; (repeat' split) <;> first | exact hk | exact Bridge.noConfusion | (simp_all; done))
    | ((try lift_lets -underBinder); intro x; first
        | (refine later_cut (s0 := s0) (x := x) ?_ ?_ <;> [unfold x; (intro hx; clear_value x)])
        | clear_value x)
    | intro _
    | with_reducible refine later_ite ?_ ?_
    | with_reducible refine later_homeAxis ?_
    | with_reducible refine later_setLock ?_
    | with_reducible refine later_each ?_ ?_
    | with_reducible refine later_modDoor ?_
    | with_reducible refine later_modMo ?_ ?_

theorem later_moveCount {s0 s : State} {t : TileId} {a : AxisId} {by_ : Int} (hs : State.Later s0 s) :
    State.Later s0 (s.moveCount t a by_) := by
  unfold State.moveCount
  repeat' first
    | with_reducible assumption
    | with_reducible exact fun _ k => k
    | with_reducible exact fun _ _ => Bridge.noConfusion
    | with_reducible exact fun k => ⟨k, id, id, id⟩
    | ((with_reducible refine fun (hf : _ = true) (hk : _ ≠ Bridge.driven) => ?_); dsimp only; (repeat' split) <;> first | exact hk | exact Bridge.noConfusion | (simp_all; done))
    | intro _
    | with_reducible refine later_modMo ?_ ?_

theorem later_setPosition {s0 s : State} {t : TileId} {a : AxisId} {latched : Int} (hs : State.Later s0 s) :
    State.Later s0 (s.setPosition t a latched) := by
  unfold State.setPosition
  repeat' first
    | with_reducible assumption
    | ((try lift_lets -underBinder); intro x; first
        | (refine later_cut (s0 := s0) (x := x) ?_ ?_ <;> [unfold x; (intro hx; clear_value x)])
        | clear_value x)
    | intro _
    | with_reducible refine later_moveCount ?_
    | with_reducible refine later_modFb ?_

theorem later_setStage {s0 s : State} {t : TileId} {a : AxisId} {st : HomeStage} (hs : State.Later s0 s) :
    State.Later s0 (s.setStage t a st) := by
  unfold State.setStage
  repeat' first
    | with_reducible assumption
    | with_reducible exact fun _ k => k
    | with_reducible exact fun _ _ => Bridge.noConfusion
    | with_reducible exact fun k => ⟨k, id, id, id⟩
    | ((with_reducible refine fun (hf : _ = true) (hk : _ ≠ Bridge.driven) => ?_); dsimp only; (repeat' split) <;> first | exact hk | exact Bridge.noConfusion | (simp_all; done))
    | intro _
    | with_reducible refine later_modMo ?_ ?_

theorem later_homeRest {s0 s : State} {t : TileId} {a : AxisId} (hs : State.Later s0 s) :
    State.Later s0 (s.homeRest t a) := by
  unfold State.homeRest
  repeat' first
    | with_reducible assumption
    | with_reducible exact fun _ k => k
    | with_reducible exact fun _ _ => Bridge.noConfusion
    | with_reducible exact fun k => ⟨k, id, id, id⟩
    | ((with_reducible refine fun (hf : _ = true) (hk : _ ≠ Bridge.driven) => ?_); dsimp only; (repeat' split) <;> first | exact hk | exact Bridge.noConfusion | (simp_all; done))
    | ((try lift_lets -underBinder); intro x; first
        | (refine later_cut (s0 := s0) (x := x) ?_ ?_ <;> [unfold x; (intro hx; clear_value x)])
        | clear_value x)
    | intro _
    | with_reducible refine later_ite ?_ ?_
    | with_reducible refine later_homeMove ?_
    | with_reducible refine later_indexHome ?_
    | with_reducible refine later_indexStart ?_
    | with_reducible refine later_setStage ?_
    | with_reducible refine later_switchHome ?_
    | with_reducible refine later_modMo ?_ ?_
    | split

theorem later_homeEdge {s0 s : State} {t : TileId} {a : AxisId} {active : Bool} (hs : State.Later s0 s) :
    State.Later s0 (s.homeEdge t a active) := by
  unfold State.homeEdge
  repeat' first
    | with_reducible assumption
    | ((try lift_lets -underBinder); intro x; first
        | (refine later_cut (s0 := s0) (x := x) ?_ ?_ <;> [unfold x; (intro hx; clear_value x)])
        | clear_value x)
    | intro _
    | with_reducible refine later_ite ?_ ?_
    | with_reducible refine later_homeMove ?_
    | with_reducible refine later_setPosition ?_
    | with_reducible refine later_setStage ?_
    | with_reducible refine later_stopMove ?_
    | with_reducible refine later_modDoor ?_
    | split

theorem later_homeIndex {s0 s : State} {t : TileId} {a : AxisId} (hs : State.Later s0 s) :
    State.Later s0 (s.homeIndex t a) := by
  unfold State.homeIndex
  repeat' first
    | with_reducible assumption
    | intro _
    | with_reducible refine later_setPosition ?_
    | with_reducible refine later_setStage ?_
    | with_reducible refine later_stopMove ?_
    | split

theorem later_limitRetreat {s0 s : State} {t : TileId} {r : TripReport} (hs : State.Later s0 s) :
    State.Later s0 (s.limitRetreat t r) := by
  unfold State.limitRetreat
  repeat' first
    | with_reducible assumption
    | with_reducible exact fun _ k => k
    | with_reducible exact fun _ _ => Bridge.noConfusion
    | with_reducible exact fun k => ⟨k, id, id, id⟩
    | ((with_reducible refine fun (hf : _ = true) (hk : _ ≠ Bridge.driven) => ?_); dsimp only; (repeat' split) <;> first | exact hk | exact Bridge.noConfusion | (simp_all; done))
    | ((try lift_lets -underBinder); intro x; first
        | (refine later_cut (s0 := s0) (x := x) ?_ ?_ <;> [unfold x; (intro hx; clear_value x)])
        | clear_value x)
    | intro _
    | with_reducible refine later_ite ?_ ?_
    | with_reducible refine later_homeMove ?_
    | with_reducible refine later_modMo ?_ ?_

theorem later_homeTrips {s0 s : State} {t : TileId} {rs : List TripReport} (hs : State.Later s0 s) :
    State.Later s0 (s.homeTrips t rs) := by
  unfold State.homeTrips
  repeat' first
    | with_reducible assumption
    | intro _
    | with_reducible refine later_homeFail ?_
    | with_reducible refine later_limitRetreat ?_
    | with_reducible refine later_list ?_ ?_
    | split

theorem later_homeComplete {s0 s : State} {t : TileId} (hs : State.Later s0 s) :
    State.Later s0 (s.homeComplete t) := by
  unfold State.homeComplete
  repeat' first
    | with_reducible assumption
    | with_reducible exact fun _ k => k
    | with_reducible exact fun _ _ => Bridge.noConfusion
    | with_reducible exact fun k => ⟨k, id, id, id⟩
    | ((with_reducible refine fun (hf : _ = true) (hk : _ ≠ Bridge.driven) => ?_); dsimp only; (repeat' split) <;> first | exact hk | exact Bridge.noConfusion | (simp_all; done))
    | ((try lift_lets -underBinder); intro x; first
        | (refine later_cut (s0 := s0) (x := x) ?_ ?_ <;> [unfold x; (intro hx; clear_value x)])
        | clear_value x)
    | intro _
    | with_reducible refine later_ite ?_ ?_
    | with_reducible refine later_raise ?_
    | with_reducible refine later_transition ?_
    | with_reducible refine later_each ?_ ?_
    | with_reducible refine later_modDoor ?_
    | with_reducible refine later_modMo ?_ ?_
    | split

theorem later_homeProgress {s0 s : State} {t : TileId} (hs : State.Later s0 s) :
    State.Later s0 (s.homeProgress t) := by
  unfold State.homeProgress
  repeat' first
    | with_reducible assumption
    | ((try lift_lets -underBinder); intro x; first
        | (refine later_cut (s0 := s0) (x := x) ?_ ?_ <;> [unfold x; (intro hx; clear_value x)])
        | (have _ := (x : State → _); unfold x; try dsimp only)
        | (have _ := (x : _ → State); unfold x; try dsimp only)
        | (have _ := (x : _ → State → _); unfold x; try dsimp only)
        | clear_value x)
    | intro _
    | with_reducible refine later_ite ?_ ?_
    | with_reducible refine later_homeAxis ?_
    | with_reducible refine later_homeMove ?_
    | with_reducible refine later_setLock ?_
    | with_reducible refine later_each ?_ ?_
    | with_reducible refine later_modDoor ?_
    | split

end Sys2Proof.Machine
end

