-- ==== Sys2Proof/Laws/LaterDoorway.lean ====
section
/-!
SUPPORT. What no command takes back, for every operation and meaning of Machine/Doorway.lean.
-/

namespace Sys2Proof.Machine

theorem later_startLeaves {s0 s : State} {t : TileId} {kind : MoveKind} {d : Dir} {set : LimitSet} (hs : State.Later s0 s) :
    State.Later s0 (s.startLeaves t kind d set) := by
  unfold State.startLeaves
  repeat' first
    | with_reducible assumption
    | ((try lift_lets -underBinder); intro x; first
        | (refine later_cut (s0 := s0) (x := x) ?_ ?_ <;> [unfold x; (intro hx; clear_value x)])
        | clear_value x)
    | intro _
    | with_reducible refine later_startMove ?_
    | with_reducible refine later_each ?_ ?_
    | split

theorem later_startStep {s0 s : State} {t : TileId} {kind : MoveKind} {d : Dir} {stepCmd : Bool} (hs : State.Later s0 s) :
    State.Later s0 (s.startStep t kind d stepCmd) := by
  unfold State.startStep
  repeat' first
    | with_reducible assumption
    | ((try lift_lets -underBinder); intro x; first
        | (refine later_cut (s0 := s0) (x := x) ?_ ?_ <;> [unfold x; (intro hx; clear_value x)])
        | clear_value x)
    | intro _
    | with_reducible refine later_ite ?_ ?_
    | with_reducible refine later_startMove ?_
    | split

theorem later_driveAll {s0 s : State} {t : TileId} (hs : State.Later s0 s) : State.Later s0 (s.driveAll t) := by
  unfold State.driveAll
  refine later_each hs (fun x a hx => later_ite (fun _ => hx) (fun hc => later_drive hx (Tile.canHold_canDrive ?_)))
  cases h : (x.tile t).canHold a
  · rw [h] at hc; simp at hc
  · rfl

theorem later_startOpening {s0 s : State} {t : TileId} {kind : MoveKind} (hs : State.Later s0 s) :
    State.Later s0 (s.startOpening t kind) := by
  unfold State.startOpening
  repeat' first
    | with_reducible assumption
    | ((try lift_lets -underBinder); intro x; first
        | (refine later_cut (s0 := s0) (x := x) ?_ ?_ <;> [unfold x; (intro hx; clear_value x)])
        | clear_value x)
    | intro _
    | with_reducible refine later_ite ?_ ?_
    | with_reducible refine later_startLeaves ?_
    | with_reducible refine later_startStep ?_
    | with_reducible refine later_modDoor ?_

theorem later_startClosing {s0 s : State} {t : TileId} {kind : MoveKind} {set : LimitSet} (hs : State.Later s0 s) :
    State.Later s0 (s.startClosing t kind set) := by
  unfold State.startClosing
  repeat' first
    | with_reducible assumption
    | ((try lift_lets -underBinder); intro x; first
        | (refine later_cut (s0 := s0) (x := x) ?_ ?_ <;> [unfold x; (intro hx; clear_value x)])
        | clear_value x)
    | intro _
    | with_reducible refine later_ite ?_ ?_
    | with_reducible refine later_startLeaves ?_
    | with_reducible refine later_startStep ?_
    | with_reducible refine later_modDoor ?_

theorem later_firstProgress {s0 s : State} {t : TileId} (hs : State.Later s0 s) :
    State.Later s0 (s.firstProgress t) := by
  unfold State.firstProgress
  repeat' first
    | with_reducible assumption
    | ((try lift_lets -underBinder); intro x; first
        | (refine later_cut (s0 := s0) (x := x) ?_ ?_ <;> [unfold x; (intro hx; clear_value x)])
        | clear_value x)
    | intro _
    | with_reducible refine later_ite ?_ ?_
    | with_reducible refine later_startLeaves ?_
    | with_reducible refine later_modDoor ?_
    | split

theorem later_stopAll {s0 s : State} {t : TileId} (hs : State.Later s0 s) :
    State.Later s0 (s.stopAll t) := by
  unfold State.stopAll
  repeat' first
    | with_reducible assumption
    | intro _
    | with_reducible refine later_ite ?_ ?_
    | with_reducible refine later_stopMove ?_
    | with_reducible refine later_each ?_ ?_

theorem later_holdAll {s0 s : State} {t : TileId} (hs : State.Later s0 s) :
    State.Later s0 (s.holdAll t) := by
  unfold State.holdAll
  repeat' first
    | with_reducible assumption
    | intro _
    | with_reducible refine later_holdAxis ?_
    | with_reducible refine later_each ?_ ?_

theorem later_stopOthers {s0 s : State} {t : TileId} {but : List AxisId} (hs : State.Later s0 s) :
    State.Later s0 (s.stopOthers t but) := by
  unfold State.stopOthers
  repeat' first
    | with_reducible assumption
    | intro _
    | with_reducible refine later_ite ?_ ?_
    | with_reducible refine later_triadTrip ?_
    | with_reducible refine later_each ?_ ?_

theorem later_selftestFinish {s0 s : State} {t : TileId} (hs : State.Later s0 s) :
    State.Later s0 (s.selftestFinish t) := by
  unfold State.selftestFinish
  repeat' first
    | with_reducible assumption
    | ((try lift_lets -underBinder); intro x; first
        | (refine later_cut (s0 := s0) (x := x) ?_ ?_ <;> [unfold x; (intro hx; clear_value x)])
        | (have _ := (x : State → _); unfold x; try dsimp only)
        | (have _ := (x : _ → State); unfold x; try dsimp only)
        | (have _ := (x : _ → State → _); unfold x; try dsimp only)
        | clear_value x)
    | intro _
    | with_reducible refine later_dite ?_ ?_
    | with_reducible refine later_ite ?_ ?_
    | with_reducible refine later_complete ?_
    | with_reducible refine later_dmaVia ?_
    | with_reducible refine later_modDoor ?_
    | split

theorem later_proofStop {s0 s : State} {t : TileId} (hs : State.Later s0 s) :
    State.Later s0 (s.proofStop t) := by
  unfold State.proofStop
  repeat' first
    | with_reducible assumption
    | with_reducible exact fun _ k => k
    | with_reducible exact fun _ _ => Bridge.noConfusion
    | with_reducible exact fun k => ⟨k, id, id, id⟩
    | ((with_reducible refine fun (hf : _ = true) (hk : _ ≠ Bridge.driven) => ?_); dsimp only; (repeat' split) <;> first | exact hk | exact Bridge.noConfusion | (simp_all; done))
    | ((try lift_lets -underBinder); intro x; first
        | (refine later_cut (s0 := s0) (x := x) ?_ ?_ <;> [unfold x; (intro hx; clear_value x)])
        | clear_value x)
    | intro _
    | with_reducible refine later_ite ?_ ?_
    | with_reducible refine later_selftestFinish ?_
    | with_reducible refine later_each ?_ ?_
    | with_reducible refine later_modDoor ?_
    | with_reducible refine later_modMo ?_ ?_

theorem later_endCal {s0 s : State} {t : TileId} {cause : Nat} (hs : State.Later s0 s) :
    State.Later s0 (s.endCal t cause) := by
  unfold State.endCal
  repeat' first
    | with_reducible assumption
    | intro _
    | with_reducible refine later_raise ?_
    | with_reducible refine later_modDoor ?_
    | split

theorem later_harmless {s0 s : State} {t : TileId} (hs : State.Later s0 s) :
    State.Later s0 (s.harmless t) := by
  unfold State.harmless
  repeat' first
    | with_reducible assumption
    | ((try lift_lets -underBinder); intro x; first
        | (refine later_cut (s0 := s0) (x := x) ?_ ?_ <;> [unfold x; (intro hx; clear_value x)])
        | clear_value x)
    | intro _
    | with_reducible refine later_endCal ?_
    | with_reducible refine later_endPass ?_
    | with_reducible refine later_homeFail ?_
    | with_reducible refine later_proofStop ?_
    | with_reducible refine later_setLock ?_
    | with_reducible refine later_triadTrip ?_
    | with_reducible refine later_each ?_ ?_
    | with_reducible refine later_modDoor ?_
    | with_reducible refine later_modLink ?_

theorem later_enterFaultSafe {s0 s : State} {t : TileId} {tno : Nat} (hs : State.Later s0 s) :
    State.Later s0 (s.enterFaultSafe t tno) := by
  unfold State.enterFaultSafe
  repeat' first
    | with_reducible assumption
    | intro _
    | with_reducible refine later_harmless ?_
    | with_reducible refine later_transition ?_

theorem later_releaseImage {s0 s : State} {t : TileId} (hs : State.Later s0 s) :
    State.Later s0 (s.releaseImage t) := by
  unfold State.releaseImage
  repeat' first
    | with_reducible assumption
    | ((try lift_lets -underBinder); intro x; first
        | (refine later_cut (s0 := s0) (x := x) ?_ ?_ <;> [unfold x; (intro hx; clear_value x)])
        | clear_value x)
    | intro _
    | with_reducible refine later_releasePair ?_
    | with_reducible refine later_each ?_ ?_
    | with_reducible refine later_modLink ?_

theorem later_bitternSend {s0 s : State} {t : TileId} (hs : State.Later s0 s) :
    State.Later s0 (s.bitternSend t) := by
  unfold State.bitternSend
  repeat' first
    | with_reducible assumption
    | ((try lift_lets -underBinder); intro x; first
        | (refine later_cut (s0 := s0) (x := x) ?_ ?_ <;> [unfold x; (intro hx; clear_value x)])
        | clear_value x)
    | intro _
    | with_reducible refine later_ite ?_ ?_
    | with_reducible refine later_modLink ?_

theorem later_enterChosen {s0 s : State} {t : TileId} {tno : Nat} {st : DoorState} (hs : State.Later s0 s) :
    State.Later s0 (s.enterChosen t tno st) := by
  unfold State.enterChosen
  repeat' first
    | with_reducible assumption
    | ((try lift_lets -underBinder); intro x; first
        | (refine later_cut (s0 := s0) (x := x) ?_ ?_ <;> [unfold x; (intro hx; clear_value x)])
        | clear_value x)
    | intro _
    | with_reducible refine later_ite ?_ ?_
    | with_reducible refine later_harmless ?_
    | with_reducible refine later_holdAll ?_
    | with_reducible refine later_releaseImage ?_
    | with_reducible refine later_transition ?_
    | with_reducible refine later_modDoor ?_

theorem later_countObstruction {s0 s : State} {t : TileId} (hs : State.Later s0 s) :
    State.Later s0 (s.countObstruction t) := by
  unfold State.countObstruction
  repeat' first
    | with_reducible assumption
    | ((try lift_lets -underBinder); intro x; first
        | (refine later_cut (s0 := s0) (x := x) ?_ ?_ <;> [unfold x; (intro hx; clear_value x)])
        | clear_value x)
    | intro _
    | with_reducible refine later_raise ?_
    | with_reducible refine later_modDoor ?_

theorem later_ageObstructions {s0 s : State} {t : TileId} (hs : State.Later s0 s) :
    State.Later s0 (s.ageObstructions t) := by
  unfold State.ageObstructions
  repeat' first
    | with_reducible assumption
    | ((try lift_lets -underBinder); intro x; first
        | (refine later_cut (s0 := s0) (x := x) ?_ ?_ <;> [unfold x; (intro hx; clear_value x)])
        | clear_value x)
    | intro _
    | with_reducible refine later_ite ?_ ?_
    | with_reducible refine later_raise ?_
    | with_reducible refine later_modDoor ?_

theorem later_enterReversing {s0 s : State} {t : TileId} {tno : Nat} {zone : Fin 8} {closing : Bool} {cAlone : Bool} (hs : State.Later s0 s) :
    State.Later s0 (s.enterReversing t tno zone closing cAlone) := by
  unfold State.enterReversing
  repeat' first
    | with_reducible assumption
    | with_reducible exact fun _ k => k
    | with_reducible exact fun _ _ => Bridge.noConfusion
    | with_reducible exact fun k => ⟨k, id, id, id⟩
    | ((with_reducible refine fun (hf : _ = true) (hk : _ ≠ Bridge.driven) => ?_); dsimp only; (repeat' split) <;> first | exact hk | exact Bridge.noConfusion | (simp_all; done))
    | ((try lift_lets -underBinder); intro x; first
        | (refine later_cut (s0 := s0) (x := x) ?_ ?_ <;> [unfold x; (intro hx; clear_value x)])
        | (have _ := (x : State → _); unfold x; try dsimp only)
        | (have _ := (x : _ → State); unfold x; try dsimp only)
        | (have _ := (x : _ → State → _); unfold x; try dsimp only)
        | clear_value x)
    | intro _
    | with_reducible refine later_ite ?_ ?_
    | with_reducible refine later_stopMove ?_
    | with_reducible refine later_transition ?_
    | with_reducible refine later_each ?_ ?_
    | with_reducible refine later_modDoor ?_
    | with_reducible refine later_modMo ?_ ?_
    | split

theorem later_afterRest {s0 s : State} {t : TileId} {a : AxisId} {go : State → State} (hs : State.Later s0 s) (hf : ∀ x, State.Later s0 x → State.Later s0 (go x)) :
    State.Later s0 (s.afterRest t a go) := by
  unfold State.afterRest
  repeat' first
    | with_reducible assumption
    | ((try lift_lets -underBinder); intro x; first
        | (refine later_cut (s0 := s0) (x := x) ?_ ?_ <;> [unfold x; (intro hx; clear_value x)])
        | clear_value x)
    | intro _
    | with_reducible refine later_ite ?_ ?_
    | with_reducible refine later_releasePair ?_
    | with_reducible refine hf _ ?_

theorem later_reversalProgress {s0 s : State} {t : TileId} (hs : State.Later s0 s) :
    State.Later s0 (s.reversalProgress t) := by
  unfold State.reversalProgress
  repeat' first
    | with_reducible assumption
    | with_reducible exact fun _ k => k
    | with_reducible exact fun _ _ => Bridge.noConfusion
    | with_reducible exact fun k => ⟨k, id, id, id⟩
    | ((with_reducible refine fun (hf : _ = true) (hk : _ ≠ Bridge.driven) => ?_); dsimp only; (repeat' split) <;> first | exact hk | exact Bridge.noConfusion | (simp_all; done))
    | ((try lift_lets -underBinder); intro x; first
        | (refine later_cut (s0 := s0) (x := x) ?_ ?_ <;> [unfold x; (intro hx; clear_value x)])
        | (have _ := (x : State → _); unfold x; try dsimp only)
        | (have _ := (x : _ → State); unfold x; try dsimp only)
        | (have _ := (x : _ → State → _); unfold x; try dsimp only)
        | clear_value x)
    | intro _
    | with_reducible refine later_ite ?_ ?_
    | with_reducible refine later_afterRest ?_ ?_
    | with_reducible refine later_startMove ?_
    | with_reducible refine later_each ?_ ?_
    | with_reducible refine later_modDoor ?_
    | with_reducible refine later_modMo ?_ ?_
    | split

theorem later_nudgeProgress {s0 s : State} {t : TileId} (hs : State.Later s0 s) :
    State.Later s0 (s.nudgeProgress t) := by
  unfold State.nudgeProgress
  repeat' first
    | with_reducible assumption
    | ((try lift_lets -underBinder); intro x; first
        | (refine later_cut (s0 := s0) (x := x) ?_ ?_ <;> [unfold x; (intro hx; clear_value x)])
        | clear_value x)
    | intro _
    | with_reducible refine later_ite ?_ ?_
    | with_reducible refine later_afterRest ?_ ?_
    | with_reducible refine later_driveAll ?_
    | with_reducible refine later_startLeaves ?_
    | with_reducible refine later_startStep ?_
    | with_reducible refine later_each ?_ ?_
    | with_reducible refine later_modDoor ?_
    | with_reducible refine later_id ?_

theorem later_holdProgress {s0 s : State} {t : TileId} (hs : State.Later s0 s) :
    State.Later s0 (s.holdProgress t) := by
  unfold State.holdProgress
  refine later_ite (fun _ => hs) (fun _ => ?_)
  have h1 := later_each (l := (s.tile t).usedAxes) (f := fun s a =>
      let tl := s.tile t
      let x := tl.ax.get a
      if x.mo.tripNote.isSome then s
      else if x.owesClear then (if tl.fabInputs a then s else s.releasePair t a)
      else if tl.fabricClear a && !x.moving && tl.canHold a then s.modMo t a fun m => { m with bridge := .driven }
      else s) hs (fun x a hx => later_ite (fun _ => hx) (fun _ => later_ite
        (fun _ => later_ite (fun _ => hx) (fun _ => later_releasePair hx))
        (fun _ => later_ite (fun hc => later_drive hx (Tile.canHold_canDrive
          (by simp only [Bool.and_eq_true] at hc; exact hc.2))) (fun _ => hx))))
  exact later_ite (fun _ => later_modDoor h1) (fun _ => h1)

theorem later_closeDemand {s0 s : State} {t : TileId} {tno : Nat} (hs : State.Later s0 s) :
    State.Later s0 (s.closeDemand t tno) := by
  unfold State.closeDemand
  repeat' first
    | with_reducible assumption
    | ((try lift_lets -underBinder); intro x; first
        | (refine later_cut (s0 := s0) (x := x) ?_ ?_ <;> [unfold x; (intro hx; clear_value x)])
        | clear_value x)
    | intro _
    | with_reducible refine later_ite ?_ ?_
    | with_reducible refine later_driveAll ?_
    | with_reducible refine later_noneClean ?_
    | with_reducible refine later_setBuzzer ?_
    | with_reducible refine later_setLock ?_
    | with_reducible refine later_stopAll ?_
    | with_reducible refine later_transition ?_
    | with_reducible refine later_modDoor ?_

theorem later_reopen {s0 s : State} {t : TileId} (hs : State.Later s0 s) :
    State.Later s0 (s.reopen t) := by
  unfold State.reopen
  repeat' first
    | with_reducible assumption
    | ((try lift_lets -underBinder); intro x; first
        | (refine later_cut (s0 := s0) (x := x) ?_ ?_ <;> [unfold x; (intro hx; clear_value x)])
        | clear_value x)
    | intro _
    | with_reducible refine later_ite ?_ ?_
    | with_reducible refine later_driveAll ?_
    | with_reducible refine later_noneClean ?_
    | with_reducible refine later_setLock ?_
    | with_reducible refine later_stopAll ?_
    | with_reducible refine later_transition ?_
    | with_reducible refine later_modDoor ?_

theorem later_openFromReleased {s0 s : State} {t : TileId} (hs : State.Later s0 s) :
    State.Later s0 (s.openFromReleased t) := by
  unfold State.openFromReleased
  repeat' first
    | with_reducible assumption
    | ((try lift_lets -underBinder); intro x; first
        | (refine later_cut (s0 := s0) (x := x) ?_ ?_ <;> [unfold x; (intro hx; clear_value x)])
        | clear_value x)
    | intro _
    | with_reducible refine later_driveAll ?_
    | with_reducible refine later_setLock ?_
    | with_reducible refine later_transition ?_
    | with_reducible refine later_modDoor ?_

theorem later_enterNudging {s0 s : State} {t : TileId} {tno : Nat} (hs : State.Later s0 s) :
    State.Later s0 (s.enterNudging t tno) := by
  unfold State.enterNudging
  repeat' first
    | with_reducible assumption
    | ((try lift_lets -underBinder); intro x; first
        | (refine later_cut (s0 := s0) (x := x) ?_ ?_ <;> [unfold x; (intro hx; clear_value x)])
        | clear_value x)
    | intro _
    | with_reducible refine later_ite ?_ ?_
    | with_reducible refine later_raise ?_
    | with_reducible refine later_setBuzzer ?_
    | with_reducible refine later_transition ?_
    | with_reducible refine later_modDoor ?_

theorem later_nudge {s0 s : State} {t : TileId} (hs : State.Later s0 s) :
    State.Later s0 (s.nudge t) := by
  unfold State.nudge
  repeat' first
    | with_reducible assumption
    | ((try lift_lets -underBinder); intro x; first
        | (refine later_cut (s0 := s0) (x := x) ?_ ?_ <;> [unfold x; (intro hx; clear_value x)])
        | clear_value x)
    | intro _
    | with_reducible refine later_ite ?_ ?_
    | with_reducible refine later_driveAll ?_
    | with_reducible refine later_enterNudging ?_
    | with_reducible refine later_noneClean ?_
    | with_reducible refine later_startLeaves ?_
    | with_reducible refine later_startStep ?_

theorem later_nudgeFailed {s0 s : State} {t : TileId} {cause : Nat} (hs : State.Later s0 s) :
    State.Later s0 (s.nudgeFailed t cause) := by
  unfold State.nudgeFailed
  repeat' first
    | with_reducible assumption
    | intro _
    | with_reducible refine later_holdAll ?_
    | with_reducible refine later_raise ?_
    | with_reducible refine later_transition ?_

theorem later_closedReached {s0 s : State} {t : TileId} (hs : State.Later s0 s) :
    State.Later s0 (s.closedReached t) := by
  unfold State.closedReached
  repeat' first
    | with_reducible assumption
    | ((try lift_lets -underBinder); intro x; first
        | (refine later_cut (s0 := s0) (x := x) ?_ ?_ <;> [unfold x; (intro hx; clear_value x)])
        | clear_value x)
    | intro _
    | with_reducible refine later_brakeAll ?_
    | with_reducible refine later_endPass ?_
    | with_reducible refine later_transition ?_
    | with_reducible refine later_each ?_ ?_
    | with_reducible refine later_modDoor ?_

theorem later_openReached {s0 s : State} {t : TileId} {tno : Nat} (hs : State.Later s0 s) :
    State.Later s0 (s.openReached t tno) := by
  unfold State.openReached
  repeat' first
    | with_reducible assumption
    | ((try lift_lets -underBinder); intro x; first
        | (refine later_cut (s0 := s0) (x := x) ?_ ?_ <;> [unfold x; (intro hx; clear_value x)])
        | clear_value x)
    | intro _
    | with_reducible refine later_ite ?_ ?_
    | with_reducible refine later_brakeAll ?_
    | with_reducible refine later_endPass ?_
    | with_reducible refine later_transition ?_
    | with_reducible refine later_each ?_ ?_
    | with_reducible refine later_modDoor ?_

theorem later_openFailed {s0 s : State} {t : TileId} (hs : State.Later s0 s) :
    State.Later s0 (s.openFailed t) := by
  unfold State.openFailed
  repeat' first
    | with_reducible assumption
    | ((try lift_lets -underBinder); intro x; first
        | (refine later_cut (s0 := s0) (x := x) ?_ ?_ <;> [unfold x; (intro hx; clear_value x)])
        | clear_value x)
    | intro _
    | with_reducible refine later_holdAll ?_
    | with_reducible refine later_raise ?_
    | with_reducible refine later_transition ?_

theorem later_reversalFailed {s0 s : State} {t : TileId} {cause : Nat} (hs : State.Later s0 s) :
    State.Later s0 (s.reversalFailed t cause) := by
  unfold State.reversalFailed
  repeat' first
    | with_reducible assumption
    | with_reducible exact fun _ k => k
    | with_reducible exact fun _ _ => Bridge.noConfusion
    | with_reducible exact fun k => ⟨k, id, id, id⟩
    | ((with_reducible refine fun (hf : _ = true) (hk : _ ≠ Bridge.driven) => ?_); dsimp only; (repeat' split) <;> first | exact hk | exact Bridge.noConfusion | (simp_all; done))
    | ((try lift_lets -underBinder); intro x; first
        | (refine later_cut (s0 := s0) (x := x) ?_ ?_ <;> [unfold x; (intro hx; clear_value x)])
        | clear_value x)
    | intro _
    | with_reducible refine later_ite ?_ ?_
    | with_reducible refine later_brakeAxis ?_
    | with_reducible refine later_countObstruction ?_
    | with_reducible refine later_holdAll ?_
    | with_reducible refine later_raise ?_
    | with_reducible refine later_transition ?_
    | with_reducible refine later_each ?_ ?_
    | with_reducible refine later_modMo ?_ ?_

theorem later_egressOpen {s0 s : State} {t : TileId} (hs : State.Later s0 s) :
    State.Later s0 (s.egressOpen t) := by
  unfold State.egressOpen
  repeat' first
    | with_reducible assumption
    | ((try lift_lets -underBinder); intro x; first
        | (refine later_cut (s0 := s0) (x := x) ?_ ?_ <;> [unfold x; (intro hx; clear_value x)])
        | clear_value x)
    | intro _
    | with_reducible refine later_ite ?_ ?_
    | with_reducible refine later_driveAll ?_
    | with_reducible refine later_endCal ?_
    | with_reducible refine later_noneClean ?_
    | with_reducible refine later_setLock ?_
    | with_reducible refine later_startOpening ?_
    | with_reducible refine later_stopMove ?_
    | with_reducible refine later_transition ?_
    | with_reducible refine later_each ?_ ?_
    | with_reducible refine later_modDoor ?_
    | split

theorem later_egressFree {s0 s : State} {t : TileId} (hs : State.Later s0 s) :
    State.Later s0 (s.egressFree t) := by
  unfold State.egressFree
  repeat' first
    | with_reducible assumption
    | with_reducible exact fun _ k => k
    | with_reducible exact fun _ _ => Bridge.noConfusion
    | with_reducible exact fun k => ⟨k, id, id, id⟩
    | ((with_reducible refine fun (hf : _ = true) (hk : _ ≠ Bridge.driven) => ?_); dsimp only; (repeat' split) <;> first | exact hk | exact Bridge.noConfusion | (simp_all; done))
    | ((try lift_lets -underBinder); intro x; first
        | (refine later_cut (s0 := s0) (x := x) ?_ ?_ <;> [unfold x; (intro hx; clear_value x)])
        | clear_value x)
    | intro _
    | with_reducible refine later_brakeAll ?_
    | with_reducible refine later_homeFail ?_
    | with_reducible refine later_setLock ?_
    | with_reducible refine later_transition ?_
    | with_reducible refine later_each ?_ ?_
    | with_reducible refine later_modDoor ?_
    | with_reducible refine later_modMo ?_ ?_

theorem later_isolate {s0 s : State} {t : TileId} (hs : State.Later s0 s) :
    State.Later s0 (s.isolate t) := by
  unfold State.isolate
  repeat' first
    | with_reducible assumption
    | with_reducible exact fun _ k => k
    | with_reducible exact fun _ _ => Bridge.noConfusion
    | with_reducible exact fun k => ⟨k, id, id, id⟩
    | ((with_reducible refine fun (hf : _ = true) (hk : _ ≠ Bridge.driven) => ?_); dsimp only; (repeat' split) <;> first | exact hk | exact Bridge.noConfusion | (simp_all; done))
    | ((try lift_lets -underBinder); intro x; first
        | (refine later_cut (s0 := s0) (x := x) ?_ ?_ <;> [unfold x; (intro hx; clear_value x)])
        | clear_value x)
    | intro _
    | with_reducible refine later_ite ?_ ?_
    | with_reducible refine later_brakeAll ?_
    | with_reducible refine later_endCal ?_
    | with_reducible refine later_raise ?_
    | with_reducible refine later_setBuzzer ?_
    | with_reducible refine later_setLock ?_
    | with_reducible refine later_setOutputs26 ?_
    | with_reducible refine later_transition ?_
    | with_reducible refine later_each ?_ ?_
    | with_reducible refine later_modDoor ?_
    | with_reducible refine later_modMo ?_ ?_

theorem later_positionGone {s0 s : State} {t : TileId} (hs : State.Later s0 s) :
    State.Later s0 (s.positionGone t) := by
  unfold State.positionGone
  repeat' first
    | with_reducible assumption
    | ((try lift_lets -underBinder); intro x; first
        | (refine later_cut (s0 := s0) (x := x) ?_ ?_ <;> [unfold x; (intro hx; clear_value x)])
        | clear_value x)
    | intro _
    | with_reducible refine later_ite ?_ ?_
    | with_reducible refine later_brakeAll ?_
    | with_reducible refine later_endCal ?_
    | with_reducible refine later_setLock ?_
    | with_reducible refine later_transition ?_
    | with_reducible refine later_triadTrip ?_
    | with_reducible refine later_each ?_ ?_
    | with_reducible refine later_modDoor ?_

theorem later_onTrips {s0 s : State} {t : TileId} {rs : List TripReport} (hs : State.Later s0 s) :
    State.Later s0 (s.onTrips t rs) := by
  unfold State.onTrips
  repeat' first
    | with_reducible assumption
    | ((try lift_lets -underBinder); intro x; first
        | (refine later_cut (s0 := s0) (x := x) ?_ ?_ <;> [unfold x; (intro hx; clear_value x)])
        | (have _ := (x : State → _); unfold x; try dsimp only)
        | (have _ := (x : _ → State); unfold x; try dsimp only)
        | (have _ := (x : _ → State → _); unfold x; try dsimp only)
        | clear_value x)
    | intro _
    | with_reducible refine later_ite ?_ ?_
    | with_reducible refine later_countObstruction ?_
    | with_reducible refine later_enterNudging ?_
    | with_reducible refine later_enterReversing ?_
    | with_reducible refine later_holdAll ?_
    | with_reducible refine later_nudgeFailed ?_
    | with_reducible refine later_raise ?_
    | with_reducible refine later_stopOthers ?_
    | with_reducible refine later_transition ?_
    | with_reducible refine later_modDoor ?_
    | split

theorem later_expiryTrip {s0 s : State} {t : TileId} {src : BitVec 16} (hs : State.Later s0 s) :
    State.Later s0 (s.expiryTrip t src) := by
  unfold State.expiryTrip
  repeat' first
    | with_reducible assumption
    | ((try lift_lets -underBinder); intro x; first
        | (refine later_cut (s0 := s0) (x := x) ?_ ?_ <;> [unfold x; (intro hx; clear_value x)])
        | clear_value x)
    | intro _
    | with_reducible refine later_ite ?_ ?_
    | with_reducible refine later_onTrips ?_
    | with_reducible refine later_triadTrip ?_
    | with_reducible refine later_tripAtRest ?_
    | with_reducible refine later_each ?_ ?_

theorem later_isolatedPartsEnd {s0 s : State} {t : TileId} (hs : State.Later s0 s) :
    State.Later s0 (s.isolatedPartsEnd t) := by
  unfold State.isolatedPartsEnd
  repeat' first
    | with_reducible assumption
    | ((try lift_lets -underBinder); intro x; first
        | (refine later_cut (s0 := s0) (x := x) ?_ ?_ <;> [unfold x; (intro hx; clear_value x)])
        | (have _ := (x : State → _); unfold x; try dsimp only)
        | (have _ := (x : _ → State); unfold x; try dsimp only)
        | (have _ := (x : _ → State → _); unfold x; try dsimp only)
        | clear_value x)
    | intro _
    | with_reducible refine later_ite ?_ ?_
    | with_reducible refine later_setLock ?_
    | with_reducible refine later_modDoor ?_
    | with_reducible refine later_modLink ?_
    | with_reducible refine later_list ?_ ?_
    | split

end Sys2Proof.Machine
end

