-- ==== Sys2Proof/Laws/LaterEvaluate.lean ====
section
/-!
SUPPORT. What no command takes back, for every operation and meaning of Machine/Evaluate.lean.
-/

namespace Sys2Proof.Machine

theorem bridge_joinTail (m : Motion) (src : BitVec 16) : (m.joinTail src).bridge = m.bridge := by
  unfold Motion.joinTail
  split <;> rfl

theorem later_stakeTrip {s0 s : State} {t : TileId} {a : AxisId} (hs : State.Later s0 s) :
    State.Later s0 (s.stakeTrip t a) := by
  unfold State.stakeTrip
  repeat' first
    | with_reducible assumption
    | with_reducible exact fun _ k => k
    | with_reducible exact fun _ _ => Bridge.noConfusion
    | with_reducible exact fun k => ⟨k, id, id, id⟩
    | ((with_reducible refine fun (hf : _ = true) (hk : _ ≠ Bridge.driven) => ?_); dsimp only; (repeat' split) <;> first | exact hk | exact Bridge.noConfusion | (simp_all; done))
    | with_reducible exact fun _ k => by rw [bridge_joinTail]; exact k
    | ((try lift_lets -underBinder); intro x; first
        | (refine later_cut (s0 := s0) (x := x) ?_ ?_ <;> [unfold x; (intro hx; clear_value x)])
        | clear_value x)
    | intro _
    | with_reducible refine later_ite ?_ ?_
    | with_reducible refine later_triadTrip ?_
    | with_reducible refine later_tripAtRest ?_
    | with_reducible refine later_modDoor ?_
    | with_reducible refine later_modMo ?_ ?_

theorem later_applyStakeAct {s0 s : State} {t : TileId} {a : StakeAct} (hs : State.Later s0 s) :
    State.Later s0 (s.applyStakeAct t a) := by
  unfold State.applyStakeAct
  repeat' first
    | with_reducible assumption
    | ((try lift_lets -underBinder); intro x; first
        | (refine later_cut (s0 := s0) (x := x) ?_ ?_ <;> [unfold x; (intro hx; clear_value x)])
        | clear_value x)
    | intro _
    | with_reducible refine later_ite ?_ ?_
    | with_reducible refine later_raise ?_
    | with_reducible refine later_setOutputs16 ?_
    | with_reducible refine later_stakeTrip ?_
    | with_reducible refine later_modDoor ?_
    | split

theorem later_applyStakeActs {s0 s : State} {t : TileId} (hs : State.Later s0 s) :
    State.Later s0 (s.applyStakeActs t) := by
  unfold State.applyStakeActs
  repeat' first
    | with_reducible assumption
    | ((try lift_lets -underBinder); intro x; first
        | (refine later_cut (s0 := s0) (x := x) ?_ ?_ <;> [unfold x; (intro hx; clear_value x)])
        | clear_value x)
    | intro _
    | with_reducible refine later_applyStakeAct ?_
    | with_reducible refine later_modDoor ?_
    | with_reducible refine later_list ?_ ?_

theorem later_lockEarly {s0 s : State} {t : TileId} (hs : State.Later s0 s) :
    State.Later s0 (s.lockEarly t) := by
  unfold State.lockEarly
  repeat' first
    | with_reducible assumption
    | ((try lift_lets -underBinder); intro x; first
        | (refine later_cut (s0 := s0) (x := x) ?_ ?_ <;> [unfold x; (intro hx; clear_value x)])
        | clear_value x)
    | intro _
    | with_reducible refine later_ite ?_ ?_
    | with_reducible refine later_raise ?_
    | with_reducible refine later_stakeTrip ?_

theorem later_panelTrip {s0 s : State} {t : TileId} (hs : State.Later s0 s) :
    State.Later s0 (s.panelTrip t) := by
  unfold State.panelTrip
  repeat' first
    | with_reducible assumption
    | ((try lift_lets -underBinder); intro x; first
        | (refine later_cut (s0 := s0) (x := x) ?_ ?_ <;> [unfold x; (intro hx; clear_value x)])
        | clear_value x)
    | intro _
    | with_reducible refine later_ite ?_ ?_
    | with_reducible refine later_triadTrip ?_
    | with_reducible refine later_tripAtRest ?_
    | with_reducible refine later_each ?_ ?_
    | with_reducible refine later_modDoor ?_

theorem later_latchFault {s0 s : State} {t : TileId} {code : Nat} (hs : State.Later s0 s) :
    State.Later s0 (s.latchFault t code) := by
  unfold State.latchFault
  repeat' first
    | with_reducible assumption
    | ((try lift_lets -underBinder); intro x; first
        | (refine later_cut (s0 := s0) (x := x) ?_ ?_ <;> [unfold x; (intro hx; clear_value x)])
        | clear_value x)
    | intro _
    | with_reducible refine later_ite ?_ ?_
    | with_reducible refine later_raise ?_
    | with_reducible refine later_modDoor ?_

theorem later_judgeFaults {s0 s : State} {t : TileId} (hs : State.Later s0 s) :
    State.Later s0 (s.judgeFaults t) := by
  unfold State.judgeFaults
  repeat' first
    | with_reducible assumption
    | ((try lift_lets -underBinder); intro x; first
        | (refine later_cut (s0 := s0) (x := x) ?_ ?_ <;> [unfold x; (intro hx; clear_value x)])
        | clear_value x)
    | intro _
    | with_reducible refine later_ite ?_ ?_
    | with_reducible refine later_latchFault ?_
    | with_reducible refine later_raise ?_
    | with_reducible refine later_modDoor ?_
    | with_reducible refine later_list ?_ ?_

theorem later_pairEvents {s0 s : State} {t : TileId} (hs : State.Later s0 s) :
    State.Later s0 (s.pairEvents t) := by
  unfold State.pairEvents
  repeat' first
    | with_reducible assumption
    | ((try lift_lets -underBinder); intro x; first
        | (refine later_cut (s0 := s0) (x := x) ?_ ?_ <;> [unfold x; (intro hx; clear_value x)])
        | (have _ := (x : State → _); unfold x; try dsimp only)
        | (have _ := (x : _ → State); unfold x; try dsimp only)
        | (have _ := (x : _ → State → _); unfold x; try dsimp only)
        | clear_value x)
    | intro _
    | with_reducible refine later_ite ?_ ?_
    | with_reducible refine later_logEvent ?_
    | with_reducible refine later_raise ?_
    | with_reducible refine later_modDoor ?_
    | split

theorem later_calReady {s0 s : State} {t : TileId} (hs : State.Later s0 s) :
    State.Later s0 (s.calReady t) := by
  unfold State.calReady
  repeat' first
    | with_reducible assumption
    | ((try lift_lets -underBinder); intro x; first
        | (refine later_cut (s0 := s0) (x := x) ?_ ?_ <;> [unfold x; (intro hx; clear_value x)])
        | clear_value x)
    | intro _
    | with_reducible refine later_ite ?_ ?_
    | with_reducible refine later_raise ?_
    | with_reducible refine later_modDoor ?_
    | split

theorem later_proofStart {s0 s : State} {t : TileId} (hs : State.Later s0 s) :
    State.Later s0 (s.proofStart t) := by
  unfold State.proofStart
  repeat' first
    | with_reducible assumption
    | with_reducible exact fun _ k => k
    | with_reducible exact fun _ _ => Bridge.noConfusion
    | with_reducible exact fun k => ⟨k, id, id, id⟩
    | ((with_reducible refine fun (hf : _ = true) (hk : _ ≠ Bridge.driven) => ?_); dsimp only; (repeat' split) <;> first | exact hk | exact Bridge.noConfusion | (simp_all; done))
    | intro _
    | with_reducible refine later_releasePair ?_
    | with_reducible refine later_each ?_ ?_
    | with_reducible refine later_modDoor ?_
    | with_reducible refine later_modMo ?_ ?_

theorem later_calProgress {s0 s : State} {t : TileId} (hs : State.Later s0 s) :
    State.Later s0 (s.calProgress t) := by
  unfold State.calProgress
  repeat' first
    | with_reducible assumption
    | ((try lift_lets -underBinder); intro x; first
        | (refine later_cut (s0 := s0) (x := x) ?_ ?_ <;> [unfold x; (intro hx; clear_value x)])
        | (have _ := (x : State → _); unfold x; try dsimp only)
        | (have _ := (x : _ → State); unfold x; try dsimp only)
        | (have _ := (x : _ → State → _); unfold x; try dsimp only)
        | clear_value x)
    | intro _
    | with_reducible refine later_ite ?_ ?_
    | with_reducible refine later_brakeAll ?_
    | with_reducible refine later_endPass ?_
    | with_reducible refine later_nudge ?_
    | with_reducible refine later_proofStart ?_
    | with_reducible refine later_setBuzzer ?_
    | with_reducible refine later_setLock ?_
    | with_reducible refine later_startClosing ?_
    | with_reducible refine later_startOpening ?_
    | with_reducible refine later_each ?_ ?_
    | with_reducible refine later_modDoor ?_
    | split

theorem later_calRelease {s0 s : State} {t : TileId} (hs : State.Later s0 s) :
    State.Later s0 (s.calRelease t) := by
  unfold State.calRelease
  repeat' first
    | with_reducible assumption
    | ((try lift_lets -underBinder); intro x; first
        | (refine later_cut (s0 := s0) (x := x) ?_ ?_ <;> [unfold x; (intro hx; clear_value x)])
        | clear_value x)
    | intro _
    | with_reducible refine later_ite ?_ ?_
    | with_reducible refine later_raise ?_
    | with_reducible refine later_setBuzzer ?_
    | with_reducible refine later_setLock ?_
    | with_reducible refine later_stopAll ?_
    | with_reducible refine later_modDoor ?_
    | split

theorem later_calExpiry {s0 s : State} {t : TileId} (hs : State.Later s0 s) :
    State.Later s0 (s.calExpiry t) := by
  unfold State.calExpiry
  repeat' first
    | with_reducible assumption
    | ((try lift_lets -underBinder); intro x; first
        | (refine later_cut (s0 := s0) (x := x) ?_ ?_ <;> [unfold x; (intro hx; clear_value x)])
        | clear_value x)
    | intro _
    | with_reducible refine later_ite ?_ ?_
    | with_reducible refine later_expiryTrip ?_
    | with_reducible refine later_raise ?_
    | with_reducible refine later_setLock ?_
    | with_reducible refine later_modDoor ?_
    | split

theorem later_proofFault {s0 s : State} {t : TileId} (hs : State.Later s0 s) :
    State.Later s0 (s.proofFault t) := by
  unfold State.proofFault
  repeat' first
    | with_reducible assumption
    | intro _
    | with_reducible refine later_latchFault ?_
    | with_reducible refine later_raise ?_
    | with_reducible refine later_modDoor ?_
    | split

theorem later_by_ {s0 s : State} {t : TileId} {src : Source} (hs : State.Later s0 s) :
    State.Later s0 (s.by_ t src) := by
  unfold State.by_
  repeat' first
    | with_reducible assumption
    | intro _
    | with_reducible refine later_modDoor ?_

theorem optLater_evalFault {s0 s : State} {t : TileId} (hs : State.Later s0 s) :
    OptLater s0 (s.evalFault t) := by
  unfold State.evalFault
  repeat' first
    | with_reducible assumption
    | with_reducible refine optLater_none
    | with_reducible refine optLater_some ?_
    | with_reducible refine optLater_ite ?_ ?_
    | ((try lift_lets -underBinder); intro x; first
        | (refine later_cut (s0 := s0) (x := x) ?_ ?_ <;> [unfold x; (intro hx; clear_value x)])
        | clear_value x)
    | (with_reducible (fail_if_success (show OptLater _ _)); intro _)
    | with_reducible refine later_ite ?_ ?_
    | with_reducible refine later_enterFaultSafe ?_
    | with_reducible refine later_latchFault ?_
    | with_reducible refine later_proofFault ?_
    | with_reducible refine later_raise ?_
    | split

theorem optLater_evalEgress {s0 s : State} {t : TileId} (hs : State.Later s0 s) :
    OptLater s0 (s.evalEgress t) := by
  unfold State.evalEgress
  repeat' first
    | with_reducible assumption
    | with_reducible refine optLater_none
    | with_reducible refine optLater_some ?_
    | with_reducible refine optLater_ite ?_ ?_
    | ((try lift_lets -underBinder); intro x; first
        | (refine later_cut (s0 := s0) (x := x) ?_ ?_ <;> [unfold x; (intro hx; clear_value x)])
        | clear_value x)
    | (with_reducible (fail_if_success (show OptLater _ _)); intro _)
    | with_reducible refine later_ite ?_ ?_
    | with_reducible refine later_by_ ?_
    | with_reducible refine later_egressFree ?_
    | with_reducible refine later_egressOpen ?_

theorem optLater_evalTripOrBound {s0 s : State} {t : TileId} (hs : State.Later s0 s) :
    OptLater s0 (s.evalTripOrBound t) := by
  unfold State.evalTripOrBound
  repeat' first
    | with_reducible assumption
    | with_reducible refine optLater_none
    | with_reducible refine optLater_some ?_
    | with_reducible refine optLater_ite ?_ ?_
    | ((try lift_lets -underBinder); intro x; first
        | (refine later_cut (s0 := s0) (x := x) ?_ ?_ <;> [unfold x; (intro hx; clear_value x)])
        | (have _ := (x : State → _); unfold x; try dsimp only)
        | (have _ := (x : _ → State); unfold x; try dsimp only)
        | (have _ := (x : _ → State → _); unfold x; try dsimp only)
        | clear_value x)
    | (with_reducible (fail_if_success (show OptLater _ _)); intro _)
    | with_reducible refine later_ite ?_ ?_
    | with_reducible refine later_brakeAll ?_
    | with_reducible refine later_closeDemand ?_
    | with_reducible refine later_enterReversing ?_
    | with_reducible refine later_expiryTrip ?_
    | with_reducible refine later_homeFail ?_
    | with_reducible refine later_homeTrips ?_
    | with_reducible refine later_nudgeFailed ?_
    | with_reducible refine later_onTrips ?_
    | with_reducible refine later_openFailed ?_
    | with_reducible refine later_raise ?_
    | with_reducible refine later_reversalFailed ?_
    | with_reducible refine later_setLock ?_
    | with_reducible refine later_startClosing ?_
    | with_reducible refine later_transition ?_
    | with_reducible refine later_modDoor ?_
    | split

theorem optLater_evalLoss {s0 s : State} {t : TileId} (hs : State.Later s0 s) :
    OptLater s0 (s.evalLoss t) := by
  unfold State.evalLoss
  repeat' first
    | with_reducible assumption
    | with_reducible refine optLater_none
    | with_reducible refine optLater_some ?_
    | with_reducible refine optLater_ite ?_ ?_
    | ((try lift_lets -underBinder); intro x; first
        | (refine later_cut (s0 := s0) (x := x) ?_ ?_ <;> [unfold x; (intro hx; clear_value x)])
        | (have _ := (x : State → _); unfold x; try dsimp only)
        | (have _ := (x : _ → State); unfold x; try dsimp only)
        | (have _ := (x : _ → State → _); unfold x; try dsimp only)
        | clear_value x)
    | (with_reducible (fail_if_success (show OptLater _ _)); intro _)
    | with_reducible refine later_ite ?_ ?_
    | with_reducible refine later_by_ ?_
    | with_reducible refine later_closeDemand ?_
    | with_reducible refine later_transition ?_
    | with_reducible refine later_modDoor ?_
    | split

theorem later_reversalEnd {s0 s : State} {t : TileId} (hs : State.Later s0 s) :
    State.Later s0 (s.reversalEnd t) := by
  unfold State.reversalEnd
  repeat' first
    | with_reducible assumption
    | ((try lift_lets -underBinder); intro x; first
        | (refine later_cut (s0 := s0) (x := x) ?_ ?_ <;> [unfold x; (intro hx; clear_value x)])
        | clear_value x)
    | intro _
    | with_reducible refine later_ite ?_ ?_
    | with_reducible refine later_holdAll ?_
    | with_reducible refine later_openReached ?_
    | with_reducible refine later_transition ?_
    | split

theorem later_leaveIsolated {s0 s : State} {t : TileId} (hs : State.Later s0 s) :
    State.Later s0 (s.leaveIsolated t) := by
  unfold State.leaveIsolated
  repeat' first
    | with_reducible assumption
    | ((try lift_lets -underBinder); intro x; first
        | (refine later_cut (s0 := s0) (x := x) ?_ ?_ <;> [unfold x; (intro hx; clear_value x)])
        | clear_value x)
    | intro _
    | with_reducible refine later_by_ ?_
    | with_reducible refine later_enterChosen ?_
    | with_reducible refine later_homeFail ?_
    | with_reducible refine later_isolatedPartsEnd ?_
    | with_reducible refine later_selftestFinish ?_
    | with_reducible refine later_stopAll ?_
    | with_reducible refine later_modDoor ?_

theorem later_edgeResetTile {s0 s : State} {t : TileId} (hs : State.Later s0 s) :
    State.Later s0 (s.edgeResetTile t) := by
  unfold State.edgeResetTile
  repeat' first
    | with_reducible assumption
    | ((try lift_lets -underBinder); intro x; first
        | (refine later_cut (s0 := s0) (x := x) ?_ ?_ <;> [unfold x; (intro hx; clear_value x)])
        | clear_value x)
    | intro _
    | with_reducible refine later_ite ?_ ?_
    | with_reducible refine later_by_ ?_
    | with_reducible refine later_enterChosen ?_
    | with_reducible refine later_raise ?_
    | with_reducible refine later_modDoor ?_

theorem optLater_evalOther {s0 s : State} {t : TileId} (hs : State.Later s0 s) :
    OptLater s0 (s.evalOther t) := by
  unfold State.evalOther
  repeat' first
    | with_reducible assumption
    | with_reducible refine optLater_none
    | with_reducible refine optLater_some ?_
    | with_reducible refine optLater_ite ?_ ?_
    | ((try lift_lets -underBinder); intro x; first
        | (refine later_cut (s0 := s0) (x := x) ?_ ?_ <;> [unfold x; (intro hx; clear_value x)])
        | (have _ := (x : State → _); unfold x; try dsimp only)
        | (have _ := (x : _ → State); unfold x; try dsimp only)
        | (have _ := (x : _ → State → _); unfold x; try dsimp only)
        | clear_value x)
    | (with_reducible (fail_if_success (show OptLater _ _)); intro _)
    | with_reducible refine later_ite ?_ ?_
    | with_reducible refine later_by_ ?_
    | with_reducible refine later_closeDemand ?_
    | with_reducible refine later_closedReached ?_
    | with_reducible refine later_countObstruction ?_
    | with_reducible refine later_driveAll ?_
    | with_reducible refine later_edgeResetTile ?_
    | with_reducible refine later_homeComplete ?_
    | with_reducible refine later_homeStart ?_
    | with_reducible refine later_leaveIsolated ?_
    | with_reducible refine later_openFromReleased ?_
    | with_reducible refine later_openReached ?_
    | with_reducible refine later_reopen ?_
    | with_reducible refine later_reversalEnd ?_
    | with_reducible refine later_startClosing ?_
    | with_reducible refine later_startOpening ?_
    | with_reducible refine later_transition ?_
    | with_reducible refine later_modDoor ?_
    | split

theorem later_doorRefuse {s0 s : State} {t : TileId} {h : HostCmd} {op : Nat} {status : Nat} {detail : Nat} (hs : State.Later s0 s) :
    State.Later s0 (s.doorRefuse t h op status detail) := by
  unfold State.doorRefuse
  repeat' first
    | with_reducible assumption
    | intro _
    | with_reducible refine later_complete ?_

theorem later_doorAccept {s0 s : State} {t : TileId} {h : HostCmd} {op : Nat} {tno : Nat} (hs : State.Later s0 s) :
    State.Later s0 (s.doorAccept t h op tno) := by
  unfold State.doorAccept
  repeat' first
    | with_reducible assumption
    | intro _
    | with_reducible refine later_complete ?_

theorem later_acceptWith {s0 s : State} {t : TileId} {h : HostCmd} {op : Nat} {tno : Nat} {f : State → State} (hs : State.Later s0 s) (hf : ∀ x, State.Later s0 x → State.Later s0 (f x)) :
    State.Later s0 (s.acceptWith t h op tno f) := by
  unfold State.acceptWith
  repeat' first
    | with_reducible assumption
    | intro _
    | with_reducible refine later_complete ?_
    | with_reducible refine hf _ ?_

theorem later_cmdOpen {s0 s : State} {t : TileId} {h : HostCmd} (hs : State.Later s0 s) :
    State.Later s0 (s.cmdOpen t h) := by
  unfold State.cmdOpen
  repeat' first
    | with_reducible assumption
    | unfold State.cmdOpen.reopenCmd
    | ((try lift_lets -underBinder); intro x; first
        | (refine later_cut (s0 := s0) (x := x) ?_ ?_ <;> [unfold x; (intro hx; clear_value x)])
        | (have _ := (x : State → _); unfold x; try dsimp only)
        | (have _ := (x : _ → State); unfold x; try dsimp only)
        | (have _ := (x : _ → State → _); unfold x; try dsimp only)
        | clear_value x)
    | intro _
    | with_reducible refine later_ite ?_ ?_
    | with_reducible refine later_acceptWith ?_ ?_
    | with_reducible refine later_doorAccept ?_
    | with_reducible refine later_doorRefuse ?_
    | with_reducible refine later_openFromReleased ?_
    | with_reducible refine later_reopen ?_
    | with_reducible refine later_modDoor ?_
    | split

theorem later_logClearing {s0 s : State} {t : TileId} (hs : State.Later s0 s) :
    State.Later s0 (s.logClearing t) := by
  unfold State.logClearing
  repeat' first
    | with_reducible assumption
    | ((try lift_lets -underBinder); intro x; first
        | (refine later_cut (s0 := s0) (x := x) ?_ ?_ <;> [unfold x; (intro hx; clear_value x)])
        | clear_value x)
    | intro _
    | with_reducible refine later_by_ ?_
    | with_reducible refine later_logEvent ?_

theorem later_cmdClose {s0 s : State} {t : TileId} {h : HostCmd} (hs : State.Later s0 s) :
    State.Later s0 (s.cmdClose t h) := by
  unfold State.cmdClose
  repeat' first
    | with_reducible assumption
    | with_reducible exact fun _ k => k
    | with_reducible exact fun _ _ => Bridge.noConfusion
    | with_reducible exact fun k => ⟨k, id, id, id⟩
    | ((with_reducible refine fun (hf : _ = true) (hk : _ ≠ Bridge.driven) => ?_); dsimp only; (repeat' split) <;> first | exact hk | exact Bridge.noConfusion | (simp_all; done))
    | ((try lift_lets -underBinder); intro x; first
        | (refine later_cut (s0 := s0) (x := x) ?_ ?_ <;> [unfold x; (intro hx; clear_value x)])
        | (have _ := (x : State → _); unfold x; try dsimp only)
        | (have _ := (x : _ → State); unfold x; try dsimp only)
        | (have _ := (x : _ → State → _); unfold x; try dsimp only)
        | clear_value x)
    | intro _
    | with_reducible refine later_ite ?_ ?_
    | with_reducible refine later_acceptWith ?_ ?_
    | with_reducible refine later_closeDemand ?_
    | with_reducible refine later_doorAccept ?_
    | with_reducible refine later_doorRefuse ?_
    | with_reducible refine later_logClearing ?_
    | with_reducible refine later_setLock ?_
    | with_reducible refine later_each ?_ ?_
    | with_reducible refine later_modDoor ?_
    | with_reducible refine later_modMo ?_ ?_
    | split

theorem later_cmdHold {s0 s : State} {t : TileId} {h : HostCmd} (hs : State.Later s0 s) :
    State.Later s0 (s.cmdHold t h) := by
  unfold State.cmdHold
  repeat' first
    | with_reducible assumption
    | ((try lift_lets -underBinder); intro x; first
        | (refine later_cut (s0 := s0) (x := x) ?_ ?_ <;> [unfold x; (intro hx; clear_value x)])
        | clear_value x)
    | intro _
    | with_reducible refine later_acceptWith ?_ ?_
    | with_reducible refine later_doorAccept ?_
    | with_reducible refine later_doorRefuse ?_
    | with_reducible refine later_holdAll ?_
    | with_reducible refine later_noneClean ?_
    | with_reducible refine later_transition ?_
    | split

theorem later_cmdNudge {s0 s : State} {t : TileId} {h : HostCmd} (hs : State.Later s0 s) :
    State.Later s0 (s.cmdNudge t h) := by
  unfold State.cmdNudge
  repeat' first
    | with_reducible assumption
    | ((try lift_lets -underBinder); intro x; first
        | (refine later_cut (s0 := s0) (x := x) ?_ ?_ <;> [unfold x; (intro hx; clear_value x)])
        | clear_value x)
    | intro _
    | with_reducible refine later_acceptWith ?_ ?_
    | with_reducible refine later_doorAccept ?_
    | with_reducible refine later_doorRefuse ?_
    | with_reducible refine later_nudge ?_
    | split

theorem later_stepMove {s0 s : State} {t : TileId} {d : Dir} (hs : State.Later s0 s) :
    State.Later s0 (s.stepMove t d) := by
  unfold State.stepMove
  repeat' first
    | with_reducible assumption
    | intro _
    | with_reducible refine later_startStep ?_
    | with_reducible refine later_modDoor ?_

theorem later_cmdDeploy {s0 s : State} {t : TileId} {h : HostCmd} (hs : State.Later s0 s) :
    State.Later s0 (s.cmdDeploy t h) := by
  unfold State.cmdDeploy
  repeat' first
    | with_reducible assumption
    | ((try lift_lets -underBinder); intro x; first
        | (refine later_cut (s0 := s0) (x := x) ?_ ?_ <;> [unfold x; (intro hx; clear_value x)])
        | clear_value x)
    | intro _
    | with_reducible refine later_ite ?_ ?_
    | with_reducible refine later_acceptWith ?_ ?_
    | with_reducible refine later_doorAccept ?_
    | with_reducible refine later_doorRefuse ?_
    | with_reducible refine later_stepMove ?_
    | split

theorem later_cmdStow {s0 s : State} {t : TileId} {h : HostCmd} (hs : State.Later s0 s) :
    State.Later s0 (s.cmdStow t h) := by
  unfold State.cmdStow
  repeat' first
    | with_reducible assumption
    | ((try lift_lets -underBinder); intro x; first
        | (refine later_cut (s0 := s0) (x := x) ?_ ?_ <;> [unfold x; (intro hx; clear_value x)])
        | clear_value x)
    | intro _
    | with_reducible refine later_ite ?_ ?_
    | with_reducible refine later_acceptWith ?_ ?_
    | with_reducible refine later_doorAccept ?_
    | with_reducible refine later_doorRefuse ?_
    | with_reducible refine later_stepMove ?_
    | split

theorem later_cmdHome {s0 s : State} {t : TileId} {h : HostCmd} {clear : Bool} (hs : State.Later s0 s) :
    State.Later s0 (s.cmdHome t h clear) := by
  unfold State.cmdHome
  repeat' first
    | with_reducible assumption
    | ((try lift_lets -underBinder); intro x; first
        | (refine later_cut (s0 := s0) (x := x) ?_ ?_ <;> [unfold x; (intro hx; clear_value x)])
        | (have _ := (x : State → _); unfold x; try dsimp only)
        | (have _ := (x : _ → State); unfold x; try dsimp only)
        | (have _ := (x : _ → State → _); unfold x; try dsimp only)
        | clear_value x)
    | intro _
    | with_reducible refine later_ite ?_ ?_
    | with_reducible refine later_acceptWith ?_ ?_
    | with_reducible refine later_doorAccept ?_
    | with_reducible refine later_doorRefuse ?_
    | with_reducible refine later_homeStart ?_
    | with_reducible refine later_transition ?_
    | with_reducible refine later_each ?_ ?_
    | with_reducible refine later_modFb ?_
    | split

theorem later_cmdJog {s0 s : State} {t : TileId} {h : HostCmd} {a : AxisId} {dist : Int} (hs : State.Later s0 s) :
    State.Later s0 (s.cmdJog t h a dist) := by
  unfold State.cmdJog
  repeat' first
    | with_reducible assumption
    | ((try lift_lets -underBinder); intro x; first
        | (refine later_cut (s0 := s0) (x := x) ?_ ?_ <;> [unfold x; (intro hx; clear_value x)])
        | clear_value x)
    | intro _
    | with_reducible refine later_ite ?_ ?_
    | with_reducible refine later_acceptWith ?_ ?_
    | with_reducible refine later_doorRefuse ?_
    | with_reducible refine later_startMove ?_

theorem later_doorCommand {s0 s : State} {t : TileId} {h : HostCmd} {c : DoorCmd} (hs : State.Later s0 s) :
    State.Later s0 (s.doorCommand t h c) := by
  cases c with
  | openDoor => exact later_cmdOpen hs
  | closeDoor => exact later_cmdClose hs
  | hold => exact later_cmdHold hs
  | nudge => exact later_cmdNudge hs
  | stepDeploy => exact later_cmdDeploy hs
  | stepStow => exact later_cmdStow hs
  | axisHome c => exact later_cmdHome hs
  | axisJog a d => exact later_cmdJog hs

theorem later_evalCommand {s0 s : State} {t : TileId} (hs : State.Later s0 s) :
    State.Later s0 (s.evalCommand t) := by
  unfold State.evalCommand
  repeat' first
    | with_reducible assumption
    | ((try lift_lets -underBinder); intro x; first
        | (refine later_cut (s0 := s0) (x := x) ?_ ?_ <;> [unfold x; (intro hx; clear_value x)])
        | clear_value x)
    | intro _
    | with_reducible refine later_ite ?_ ?_
    | with_reducible refine later_doorCommand ?_
    | with_reducible refine later_modDoor ?_
    | split

theorem later_sraEval {s0 s : State} {t : TileId} (hs : State.Later s0 s) :
    State.Later s0 (s.sraEval t) := by
  unfold State.sraEval
  repeat' first
    | with_reducible assumption
    | ((try lift_lets -underBinder); intro x; first
        | (refine later_cut (s0 := s0) (x := x) ?_ ?_ <;> [unfold x; (intro hx; clear_value x)])
        | clear_value x)
    | intro _
    | with_reducible refine later_ite ?_ ?_
    | with_reducible refine later_proofStart ?_
    | with_reducible refine later_modDoor ?_

theorem later_evalEnd {s0 s : State} {t : TileId} {was : DoorState} (hs : State.Later s0 s) :
    State.Later s0 (s.evalEnd t was) := by
  unfold State.evalEnd
  repeat' first
    | with_reducible assumption
    | with_reducible exact fun _ k => k
    | with_reducible exact fun _ _ => Bridge.noConfusion
    | with_reducible exact fun k => ⟨k, id, id, id⟩
    | ((with_reducible refine fun (hf : _ = true) (hk : _ ≠ Bridge.driven) => ?_); dsimp only; (repeat' split) <;> first | exact hk | exact Bridge.noConfusion | (simp_all; done))
    | ((try lift_lets -underBinder); intro x; first
        | (refine later_cut (s0 := s0) (x := x) ?_ ?_ <;> [unfold x; (intro hx; clear_value x)])
        | clear_value x)
    | intro _
    | with_reducible refine later_ite ?_ ?_
    | with_reducible refine later_each ?_ ?_
    | with_reducible refine later_modDoor ?_
    | with_reducible refine later_modMo ?_ ?_

theorem later_evalBefore {s0 s : State} {t : TileId} (hs : State.Later s0 s) :
    State.Later s0 (s.evalBefore t) := by
  unfold State.evalBefore
  repeat' first
    | with_reducible assumption
    | ((try lift_lets -underBinder); intro x; first
        | (refine later_cut (s0 := s0) (x := x) ?_ ?_ <;> [unfold x; (intro hx; clear_value x)])
        | clear_value x)
    | intro _
    | with_reducible refine later_ite ?_ ?_
    | with_reducible refine later_ageObstructions ?_
    | with_reducible refine later_applyStakeActs ?_
    | with_reducible refine later_bitternSend ?_
    | with_reducible refine later_calExpiry ?_
    | with_reducible refine later_calProgress ?_
    | with_reducible refine later_calReady ?_
    | with_reducible refine later_calRelease ?_
    | with_reducible refine later_firstProgress ?_
    | with_reducible refine later_holdProgress ?_
    | with_reducible refine later_homeProgress ?_
    | with_reducible refine later_judgeFaults ?_
    | with_reducible refine later_lockEarly ?_
    | with_reducible refine later_nudgeProgress ?_
    | with_reducible refine later_onTrips ?_
    | with_reducible refine later_pairEvents ?_
    | with_reducible refine later_panelTrip ?_
    | with_reducible refine later_reversalProgress ?_
    | with_reducible refine later_modDoor ?_

theorem later_evalChoice {s0 s : State} {t : TileId} (hs : State.Later s0 s) : State.Later s0 (s.evalChoice t) := by
  unfold State.evalChoice
  exact later_getD (optLater_evalFault hs) (later_ite (fun _ => later_isolate (later_by_ hs)) (fun _ => later_ite
    (fun _ => later_positionGone hs) (fun _ => later_getD (optLater_evalEgress hs) (later_getD (optLater_evalTripOrBound hs)
      (later_getD (optLater_evalLoss hs) (later_getD (optLater_evalOther hs) (later_evalCommand hs)))))))

theorem later_evaluate {s0 s : State} {t : TileId} (hs : State.Later s0 s) :
    State.Later s0 (s.evaluate t) := by
  unfold State.evaluate
  repeat' first
    | with_reducible assumption
    | ((try lift_lets -underBinder); intro x; first
        | (refine later_cut (s0 := s0) (x := x) ?_ ?_ <;> [unfold x; (intro hx; clear_value x)])
        | clear_value x)
    | intro _
    | with_reducible refine later_ite ?_ ?_
    | with_reducible refine later_evalBefore ?_
    | with_reducible refine later_evalChoice ?_
    | with_reducible refine later_evalEnd ?_
    | with_reducible refine later_holdBack ?_
    | with_reducible refine later_sraEval ?_
    | with_reducible refine later_modDoor ?_

end Sys2Proof.Machine
end

