-- ==== Sys2Proof/Laws/LaterDoorCmds.lean ====
section
/-!
SUPPORT. What no command takes back, for every operation and meaning of Machine/DoorCmds.lean.
-/

namespace Sys2Proof.Machine

theorem outcomeLater_execDoorwayEvaluation {s0 s : State} {t : TileId} {now : Nat} (hs : State.Later s0 s) :
    OutcomeLater s0 (execDoorwayEvaluation t now s) := by
  unfold execDoorwayEvaluation
  repeat' first
    | with_reducible assumption
    | with_reducible refine outcomeLater_onTile ?_ ?_
    | (with_reducible (fail_if_success (show OutcomeLater _ _)); intro _)
    | with_reducible refine later_evaluate ?_
    | with_reducible refine later_at ?_

theorem later_boundExpires {s0 s : State} {t : TileId} {b : Doorway → Bound} {put : Doorway → Bound → Doorway} (hs : State.Later s0 s) :
    State.Later s0 (s.boundExpires t b put) := by
  unfold State.boundExpires
  repeat' first
    | with_reducible assumption
    | intro _
    | with_reducible refine later_ite ?_ ?_
    | with_reducible refine later_evaluate ?_
    | with_reducible refine later_modDoor ?_

theorem outcomeLater_execTUnlockExpiry {s0 s : State} {t : TileId} (hs : State.Later s0 s) :
    OutcomeLater s0 (execTUnlockExpiry t s) := by
  unfold execTUnlockExpiry
  repeat' first
    | with_reducible assumption
    | with_reducible refine outcomeLater_onTile ?_ ?_
    | (with_reducible (fail_if_success (show OutcomeLater _ _)); intro _)
    | with_reducible refine later_boundExpires ?_

theorem outcomeLater_execTOpenMaxExpiry {s0 s : State} {t : TileId} (hs : State.Later s0 s) :
    OutcomeLater s0 (execTOpenMaxExpiry t s) := by
  unfold execTOpenMaxExpiry
  repeat' first
    | with_reducible assumption
    | with_reducible refine outcomeLater_onTile ?_ ?_
    | (with_reducible (fail_if_success (show OutcomeLater _ _)); intro _)
    | with_reducible refine later_boundExpires ?_

theorem outcomeLater_execTWarnExpiry {s0 s : State} {t : TileId} (hs : State.Later s0 s) :
    OutcomeLater s0 (execTWarnExpiry t s) := by
  unfold execTWarnExpiry
  repeat' first
    | with_reducible assumption
    | with_reducible refine outcomeLater_onTile ?_ ?_
    | (with_reducible (fail_if_success (show OutcomeLater _ _)); intro _)
    | with_reducible refine later_boundExpires ?_

theorem outcomeLater_execTCloseMaxExpiry {s0 s : State} {t : TileId} (hs : State.Later s0 s) :
    OutcomeLater s0 (execTCloseMaxExpiry t s) := by
  unfold execTCloseMaxExpiry
  repeat' first
    | with_reducible assumption
    | with_reducible refine outcomeLater_onTile ?_ ?_
    | (with_reducible (fail_if_success (show OutcomeLater _ _)); intro _)
    | with_reducible refine later_boundExpires ?_

theorem outcomeLater_execTLockExpiry {s0 s : State} {t : TileId} (hs : State.Later s0 s) :
    OutcomeLater s0 (execTLockExpiry t s) := by
  unfold execTLockExpiry
  repeat' first
    | with_reducible assumption
    | with_reducible refine outcomeLater_onTile ?_ ?_
    | (with_reducible (fail_if_success (show OutcomeLater _ _)); intro _)
    | with_reducible refine later_boundExpires ?_

theorem outcomeLater_execTNudgeMaxExpiry {s0 s : State} {t : TileId} (hs : State.Later s0 s) :
    OutcomeLater s0 (execTNudgeMaxExpiry t s) := by
  unfold execTNudgeMaxExpiry
  repeat' first
    | with_reducible assumption
    | with_reducible refine outcomeLater_onTile ?_ ?_
    | (with_reducible (fail_if_success (show OutcomeLater _ _)); intro _)
    | with_reducible refine later_boundExpires ?_

theorem outcomeLater_execTOpenDwellExpiry {s0 s : State} {t : TileId} (hs : State.Later s0 s) :
    OutcomeLater s0 (execTOpenDwellExpiry t s) := by
  unfold execTOpenDwellExpiry
  repeat' first
    | with_reducible assumption
    | with_reducible refine outcomeLater_onTile ?_ ?_
    | (with_reducible (fail_if_success (show OutcomeLater _ _)); intro _)
    | with_reducible refine later_boundExpires ?_

theorem outcomeLater_execTStepMaxExpiry {s0 s : State} {t : TileId} (hs : State.Later s0 s) :
    OutcomeLater s0 (execTStepMaxExpiry t s) := by
  unfold execTStepMaxExpiry
  repeat' first
    | with_reducible assumption
    | with_reducible refine outcomeLater_onTile ?_ ?_
    | (with_reducible (fail_if_success (show OutcomeLater _ _)); intro _)
    | with_reducible refine later_boundExpires ?_

theorem outcomeLater_execTRevMaxExpiry {s0 s : State} {t : TileId} (hs : State.Later s0 s) :
    OutcomeLater s0 (execTRevMaxExpiry t s) := by
  unfold execTRevMaxExpiry
  repeat' first
    | with_reducible assumption
    | with_reducible refine outcomeLater_onTile ?_ ?_
    | (with_reducible (fail_if_success (show OutcomeLater _ _)); intro _)
    | with_reducible refine later_boundExpires ?_

theorem outcomeLater_execTBrakeMaxExpiry {s0 s : State} {t : TileId} (hs : State.Later s0 s) :
    OutcomeLater s0 (execTBrakeMaxExpiry t s) := by
  unfold execTBrakeMaxExpiry
  repeat' first
    | with_reducible assumption
    | with_reducible refine outcomeLater_onTile ?_ ?_
    | (with_reducible (fail_if_success (show OutcomeLater _ _)); intro _)
    | with_reducible refine later_boundExpires ?_

theorem outcomeLater_execTDwellExpiry {s0 s : State} {t : TileId} (hs : State.Later s0 s) :
    OutcomeLater s0 (execTDwellExpiry t s) := by
  unfold execTDwellExpiry
  repeat' first
    | with_reducible assumption
    | with_reducible refine outcomeLater_onTile ?_ ?_
    | (with_reducible (fail_if_success (show OutcomeLater _ _)); intro _)
    | with_reducible refine later_boundExpires ?_

theorem outcomeLater_execTHomeMaxExpiry {s0 s : State} {t : TileId} {a : AxisId} (hs : State.Later s0 s) :
    OutcomeLater s0 (execTHomeMaxExpiry t a s) := by
  unfold execTHomeMaxExpiry
  repeat' first
    | with_reducible assumption
    | with_reducible refine outcomeLater_onTile ?_ ?_
    | with_reducible exact fun _ k => k
    | with_reducible exact fun _ _ => Bridge.noConfusion
    | with_reducible exact fun k => ⟨k, id, id, id⟩
    | ((with_reducible refine fun (hf : _ = true) (hk : _ ≠ Bridge.driven) => ?_); dsimp only; (repeat' split) <;> first | exact hk | exact Bridge.noConfusion | (simp_all; done))
    | (with_reducible (fail_if_success (show OutcomeLater _ _)); intro _)
    | with_reducible refine later_ite ?_ ?_
    | with_reducible refine later_evaluate ?_
    | with_reducible refine later_modMo ?_ ?_

theorem outcomeLater_execStakeBoundExpiry {s0 s : State} {t : TileId} {a : AxisId} (hs : State.Later s0 s) :
    OutcomeLater s0 (execStakeBoundExpiry t a s) := by
  unfold execStakeBoundExpiry
  repeat' first
    | with_reducible assumption
    | with_reducible refine outcomeLater_onTile ?_ ?_
    | ((try lift_lets -underBinder); intro x; first
        | (refine later_cut (s0 := s0) (x := x) ?_ ?_ <;> [unfold x; (intro hx; clear_value x)])
        | clear_value x)
    | (with_reducible (fail_if_success (show OutcomeLater _ _)); intro _)
    | with_reducible refine later_ite ?_ ?_
    | with_reducible refine later_raise ?_
    | with_reducible refine later_modDoor ?_
    | with_reducible refine later_modPa ?_
    | split

theorem outcomeLater_execHomingRunComplete {s0 s : State} {t : TileId} (hs : State.Later s0 s) :
    OutcomeLater s0 (execHomingRunComplete t s) := by
  unfold execHomingRunComplete
  repeat' first
    | with_reducible assumption
    | with_reducible refine outcomeLater_onTile ?_ ?_
    | (with_reducible (fail_if_success (show OutcomeLater _ _)); intro _)
    | with_reducible refine later_ite ?_ ?_
    | with_reducible refine later_evaluate ?_

theorem later_moveEnds {s0 s : State} {t : TileId} {a : AxisId} (hs : State.Later s0 s) :
    State.Later s0 (s.moveEnds t a) := by
  unfold State.moveEnds
  repeat' first
    | with_reducible assumption
    | intro _
    | with_reducible refine later_ite ?_ ?_
    | with_reducible refine later_comeToRest ?_
    | with_reducible refine later_homeRest ?_
    | split

theorem outcomeLater_execHomingMoveComplete {s0 s : State} {t : TileId} {a : AxisId} (hs : State.Later s0 s) :
    OutcomeLater s0 (execHomingMoveComplete t a s) := by
  unfold execHomingMoveComplete
  repeat' first
    | with_reducible assumption
    | with_reducible refine outcomeLater_onTile ?_ ?_
    | (with_reducible (fail_if_success (show OutcomeLater _ _)); intro _)
    | with_reducible refine later_ite ?_ ?_
    | with_reducible refine later_moveEnds ?_

theorem outcomeLater_execMoveComesToRest {s0 s : State} {t : TileId} {a : AxisId} (hs : State.Later s0 s) :
    OutcomeLater s0 (execMoveComesToRest t a s) := by
  unfold execMoveComesToRest
  repeat' first
    | with_reducible assumption
    | with_reducible refine outcomeLater_onTile ?_ ?_
    | (with_reducible (fail_if_success (show OutcomeLater _ _)); intro _)
    | with_reducible refine later_moveEnds ?_

theorem later_calCycleDone {s0 s : State} {t : TileId} (hs : State.Later s0 s) :
    State.Later s0 (s.calCycleDone t) := by
  unfold State.calCycleDone
  repeat' first
    | with_reducible assumption
    | with_reducible exact fun _ k => k
    | with_reducible exact fun _ _ => Bridge.noConfusion
    | with_reducible exact fun k => ⟨k, id, id, id⟩
    | ((with_reducible refine fun (hf : _ = true) (hk : _ ≠ Bridge.driven) => ?_); dsimp only; (repeat' split) <;> first | exact hk | exact Bridge.noConfusion | (simp_all; done))
    | ((try lift_lets -underBinder); intro x; first
        | (refine later_cut (s0 := s0) (x := x) ?_ ?_ <;> [unfold x; (intro hx; clear_value x)])
        | clear_value x)
    | intro _
    | with_reducible refine later_ite ?_ ?_
    | with_reducible refine later_raise ?_
    | with_reducible refine later_each ?_ ?_
    | with_reducible refine later_modAxis ?_ ?_
    | with_reducible refine later_modDoor ?_
    | split

theorem outcomeLater_execProofTestResult {s0 s : State} {t : TileId} {now : Nat} (hs : State.Later s0 s) :
    OutcomeLater s0 (execProofTestResult t now s) := by
  unfold execProofTestResult
  repeat' first
    | with_reducible assumption
    | with_reducible refine outcomeLater_onTile ?_ ?_
    | ((try lift_lets -underBinder); intro x; first
        | (refine later_cut (s0 := s0) (x := x) ?_ ?_ <;> [unfold x; (intro hx; clear_value x)])
        | clear_value x)
    | (with_reducible (fail_if_success (show OutcomeLater _ _)); intro _)
    | with_reducible refine later_ite ?_ ?_
    | with_reducible refine later_calCycleDone ?_
    | with_reducible refine later_evaluate ?_
    | with_reducible refine later_holdBack ?_
    | with_reducible refine later_proofFault ?_
    | with_reducible refine later_releasePair ?_
    | with_reducible refine later_selftestFinish ?_
    | with_reducible refine later_at ?_
    | with_reducible refine later_each ?_ ?_
    | with_reducible refine later_modDoor ?_
    | split

theorem outcomeLater_execObstructionAgesOut {s0 s : State} {t : TileId} (hs : State.Later s0 s) :
    OutcomeLater s0 (execObstructionAgesOut t s) := by
  unfold execObstructionAgesOut
  repeat' first
    | with_reducible assumption
    | with_reducible refine outcomeLater_onTile ?_ ?_
    | (with_reducible (fail_if_success (show OutcomeLater _ _)); intro _)
    | with_reducible refine later_ite ?_ ?_
    | with_reducible refine later_ageObstructions ?_
    | with_reducible refine later_holdBack ?_

theorem outcomeLater_execCalibrationReady {s0 s : State} {t : TileId} (hs : State.Later s0 s) :
    OutcomeLater s0 (execCalibrationReady t s) := by
  unfold execCalibrationReady
  repeat' first
    | with_reducible assumption
    | with_reducible refine outcomeLater_onTile ?_ ?_
    | (with_reducible (fail_if_success (show OutcomeLater _ _)); intro _)
    | with_reducible refine later_ite ?_ ?_
    | with_reducible refine later_calReady ?_
    | with_reducible refine later_holdBack ?_

theorem outcomeLater_execCalPermitMaxExpiry {s0 s : State} {t : TileId} (hs : State.Later s0 s) :
    OutcomeLater s0 (execCalPermitMaxExpiry t s) := by
  unfold execCalPermitMaxExpiry
  repeat' first
    | with_reducible assumption
    | with_reducible refine outcomeLater_onTile ?_ ?_
    | ((try lift_lets -underBinder); intro x; first
        | (refine later_cut (s0 := s0) (x := x) ?_ ?_ <;> [unfold x; (intro hx; clear_value x)])
        | clear_value x)
    | (with_reducible (fail_if_success (show OutcomeLater _ _)); intro _)
    | with_reducible refine later_ite ?_ ?_
    | with_reducible refine later_holdBack ?_
    | with_reducible refine later_raise ?_
    | with_reducible refine later_modDoor ?_
    | split

theorem outcomeLater_execCalRestExpiry {s0 s : State} {t : TileId} (hs : State.Later s0 s) :
    OutcomeLater s0 (execCalRestExpiry t s) := by
  unfold execCalRestExpiry
  repeat' first
    | with_reducible assumption
    | with_reducible refine outcomeLater_onTile ?_ ?_
    | (with_reducible (fail_if_success (show OutcomeLater _ _)); intro _)
    | with_reducible refine later_boundExpires ?_

theorem outcomeLater_execCalEndMaxExpiry {s0 s : State} {t : TileId} (hs : State.Later s0 s) :
    OutcomeLater s0 (execCalEndMaxExpiry t s) := by
  unfold execCalEndMaxExpiry
  repeat' first
    | with_reducible assumption
    | with_reducible refine outcomeLater_onTile ?_ ?_
    | (with_reducible (fail_if_success (show OutcomeLater _ _)); intro _)
    | with_reducible refine later_boundExpires ?_

theorem later_hostReleaseSet {s0 s : State} {h : HostCmd} {op : Nat} {on : Bool} (hs : State.Later s0 s) :
    State.Later s0 (s.hostReleaseSet h op on) := by
  unfold State.hostReleaseSet
  repeat' first
    | with_reducible assumption
    | ((try lift_lets -underBinder); intro x; first
        | (refine later_cut (s0 := s0) (x := x) ?_ ?_ <;> [unfold x; (intro hx; clear_value x)])
        | clear_value x)
    | intro _
    | with_reducible refine later_complete ?_
    | with_reducible refine later_evaluate ?_
    | with_reducible refine later_modDoor ?_

theorem outcomeLater_execDoorRelease {s0 s : State} {h : HostCmd} (hs : State.Later s0 s) :
    OutcomeLater s0 (execDoorRelease h s) := by
  unfold execDoorRelease
  repeat' first
    | with_reducible assumption
    | with_reducible refine outcomeLater_onCmd ?_ ?_
    | (with_reducible (fail_if_success (show OutcomeLater _ _)); intro _)
    | with_reducible refine later_ite ?_ ?_
    | with_reducible refine later_holdBack ?_
    | with_reducible refine later_hostReleaseSet ?_

theorem outcomeLater_execDoorWithdraw {s0 s : State} {h : HostCmd} (hs : State.Later s0 s) :
    OutcomeLater s0 (execDoorWithdraw h s) := by
  unfold execDoorWithdraw
  repeat' first
    | with_reducible assumption
    | with_reducible refine outcomeLater_onCmd ?_ ?_
    | (with_reducible (fail_if_success (show OutcomeLater _ _)); intro _)
    | with_reducible refine later_ite ?_ ?_
    | with_reducible refine later_holdBack ?_
    | with_reducible refine later_hostReleaseSet ?_

theorem later_postDoor {s0 s : State} {h : HostCmd} {c : DoorCmd} (hs : State.Later s0 s) :
    State.Later s0 (s.postDoor h c) := by
  unfold State.postDoor
  repeat' first
    | with_reducible assumption
    | intro _
    | with_reducible refine later_ite ?_ ?_
    | with_reducible refine later_evaluate ?_
    | with_reducible refine later_modDoor ?_

theorem outcomeLater_execDoorOpen {s0 s : State} {h : HostCmd} (hs : State.Later s0 s) :
    OutcomeLater s0 (execDoorOpen h s) := by
  unfold execDoorOpen
  repeat' first
    | with_reducible assumption
    | with_reducible refine outcomeLater_onCmd ?_ ?_
    | (with_reducible (fail_if_success (show OutcomeLater _ _)); intro _)
    | with_reducible refine later_postDoor ?_

theorem outcomeLater_execDoorClose {s0 s : State} {h : HostCmd} (hs : State.Later s0 s) :
    OutcomeLater s0 (execDoorClose h s) := by
  unfold execDoorClose
  repeat' first
    | with_reducible assumption
    | with_reducible refine outcomeLater_onCmd ?_ ?_
    | (with_reducible (fail_if_success (show OutcomeLater _ _)); intro _)
    | with_reducible refine later_postDoor ?_

theorem outcomeLater_execDoorHold {s0 s : State} {h : HostCmd} (hs : State.Later s0 s) :
    OutcomeLater s0 (execDoorHold h s) := by
  unfold execDoorHold
  repeat' first
    | with_reducible assumption
    | with_reducible refine outcomeLater_onCmd ?_ ?_
    | (with_reducible (fail_if_success (show OutcomeLater _ _)); intro _)
    | with_reducible refine later_postDoor ?_

theorem outcomeLater_execDoorNudge {s0 s : State} {h : HostCmd} (hs : State.Later s0 s) :
    OutcomeLater s0 (execDoorNudge h s) := by
  unfold execDoorNudge
  repeat' first
    | with_reducible assumption
    | with_reducible refine outcomeLater_onCmd ?_ ?_
    | (with_reducible (fail_if_success (show OutcomeLater _ _)); intro _)
    | with_reducible refine later_nudge ?_
    | with_reducible refine later_postDoor ?_

theorem outcomeLater_execStepDeploy {s0 s : State} {h : HostCmd} (hs : State.Later s0 s) :
    OutcomeLater s0 (execStepDeploy h s) := by
  unfold execStepDeploy
  repeat' first
    | with_reducible assumption
    | with_reducible refine outcomeLater_onCmd ?_ ?_
    | (with_reducible (fail_if_success (show OutcomeLater _ _)); intro _)
    | with_reducible refine later_postDoor ?_

theorem outcomeLater_execStepStow {s0 s : State} {h : HostCmd} (hs : State.Later s0 s) :
    OutcomeLater s0 (execStepStow h s) := by
  unfold execStepStow
  repeat' first
    | with_reducible assumption
    | with_reducible refine outcomeLater_onCmd ?_ ?_
    | (with_reducible (fail_if_success (show OutcomeLater _ _)); intro _)
    | with_reducible refine later_postDoor ?_

theorem outcomeLater_execAxisHome {s0 s : State} {h : HostCmd} {suspectClear : Bool} (hs : State.Later s0 s) :
    OutcomeLater s0 (execAxisHome h suspectClear s) := by
  unfold execAxisHome
  repeat' first
    | with_reducible assumption
    | with_reducible refine outcomeLater_onCmd ?_ ?_
    | (with_reducible (fail_if_success (show OutcomeLater _ _)); intro _)
    | with_reducible refine later_postDoor ?_

theorem outcomeLater_execAxisJog {s0 s : State} {h : HostCmd} {distance : Int} (hs : State.Later s0 s) :
    OutcomeLater s0 (execAxisJog h distance s) := by
  unfold execAxisJog
  repeat' first
    | with_reducible assumption
    | with_reducible refine outcomeLater_onCmd ?_ ?_
    | (with_reducible (fail_if_success (show OutcomeLater _ _)); intro _)
    | with_reducible refine later_postDoor ?_

end Sys2Proof.Machine
end

