-- ==== Sys2Proof/Laws/LaterFeedbackCmds.lean ====
section
/-!
SUPPORT. What no command takes back, for every operation and meaning of Machine/FeedbackCmds.lean.
-/

namespace Sys2Proof.Machine

theorem later_dirEvent {s0 s : State} {t : TileId} {a : AxisId} (hs : State.Later s0 s) :
    State.Later s0 (s.dirEvent t a) := by
  unfold State.dirEvent
  repeat' first
    | with_reducible assumption
    | ((try lift_lets -underBinder); intro x; first
        | (refine later_cut (s0 := s0) (x := x) ?_ ?_ <;> [unfold x; (intro hx; clear_value x)])
        | clear_value x)
    | intro _
    | with_reducible refine later_raiseAt ?_

theorem later_dirUpdate {s0 s : State} {t : TileId} {a : AxisId} (hs : State.Later s0 s) :
    State.Later s0 (s.dirUpdate t a) := by
  unfold State.dirUpdate
  repeat' first
    | with_reducible assumption
    | ((try lift_lets -underBinder); intro x; first
        | (refine later_cut (s0 := s0) (x := x) ?_ ?_ <;> [unfold x; (intro hx; clear_value x)])
        | clear_value x)
    | intro _
    | with_reducible refine later_ite ?_ ?_
    | with_reducible refine later_dirEvent ?_
    | with_reducible refine later_modFb ?_

theorem later_uClear {s0 s : State} {t : TileId} {a : AxisId} (hs : State.Later s0 s) :
    State.Later s0 (s.uClear t a) := by
  unfold State.uClear
  repeat' first
    | with_reducible assumption
    | intro _
    | with_reducible refine later_causeCleared ?_
    | with_reducible refine later_modFb ?_

theorem later_uRaise {s0 s : State} {t : TileId} {a : AxisId} {n : Nat} (hs : State.Later s0 s) :
    State.Later s0 (s.uRaise t a n) := by
  unfold State.uRaise
  repeat' first
    | with_reducible assumption
    | ((try lift_lets -underBinder); intro x; first
        | (refine later_cut (s0 := s0) (x := x) ?_ ?_ <;> [unfold x; (intro hx; clear_value x)])
        | clear_value x)
    | intro _
    | with_reducible refine later_ite ?_ ?_
    | with_reducible refine later_positionLost ?_
    | with_reducible refine later_modFb ?_

theorem later_newLoss {s0 s : State} {t : TileId} {a : AxisId} {cause : Nat} (hs : State.Later s0 s) :
    State.Later s0 (s.newLoss t a cause) := by
  unfold State.newLoss
  repeat' first
    | with_reducible assumption
    | intro _
    | with_reducible refine later_causeCleared ?_
    | with_reducible refine later_positionLost ?_

theorem later_encoEdge {s0 s : State} {t : TileId} {up : Bool} (hs : State.Later s0 s) :
    State.Later s0 (s.encoEdge t up) := by
  unfold State.encoEdge
  repeat' first
    | with_reducible assumption
    | ((try lift_lets -underBinder); intro x; first
        | (refine later_cut (s0 := s0) (x := x) ?_ ?_ <;> [unfold x; (intro hx; clear_value x)])
        | clear_value x)
    | intro _
    | with_reducible refine later_ite ?_ ?_
    | with_reducible refine later_emit ?_
    | with_reducible refine later_modTile ?_ ?_
    | exact Tile.Later.same rfl rfl rfl rfl

theorem later_encoLow {s0 s : State} {t : TileId} (hs : State.Later s0 s) :
    State.Later s0 (s.encoLow t) := by
  unfold State.encoLow
  repeat' first
    | with_reducible assumption
    | ((try lift_lets -underBinder); intro x; first
        | (refine later_cut (s0 := s0) (x := x) ?_ ?_ <;> [unfold x; (intro hx; clear_value x)])
        | clear_value x)
    | intro _
    | with_reducible refine later_ite ?_ ?_
    | with_reducible refine later_emit ?_
    | with_reducible refine later_modTile ?_ ?_
    | exact Tile.Later.same rfl rfl rfl rfl

theorem later_setEnco {s0 s : State} {t : TileId} {src : Option AxisId} {n : Nat} {m : Nat} (hs : State.Later s0 s) :
    State.Later s0 (s.setEnco t src n m) := by
  unfold State.setEnco
  repeat' first
    | with_reducible assumption
    | ((try lift_lets -underBinder); intro x; first
        | (refine later_cut (s0 := s0) (x := x) ?_ ?_ <;> [unfold x; (intro hx; clear_value x)])
        | clear_value x)
    | intro _
    | with_reducible refine later_ite ?_ ?_
    | with_reducible refine later_encoLow ?_
    | with_reducible refine later_modTile ?_ ?_
    | exact Tile.Later.same rfl rfl rfl rfl

theorem later_encoCount {s0 s : State} {t : TileId} {a : AxisId} {up : Bool} (hs : State.Later s0 s) :
    State.Later s0 (s.encoCount t a up) := by
  unfold State.encoCount
  repeat' first
    | with_reducible assumption
    | ((try lift_lets -underBinder); intro x; first
        | (refine later_cut (s0 := s0) (x := x) ?_ ?_ <;> [unfold x; (intro hx; clear_value x)])
        | clear_value x)
    | intro _
    | with_reducible refine later_ite ?_ ?_
    | with_reducible refine later_encoEdge ?_
    | with_reducible refine later_modTile ?_ ?_
    | exact Tile.Later.same rfl rfl rfl rfl
    | split

theorem outcomeLater_execEncoQueuedEdge {s0 s : State} {t : TileId} (hs : State.Later s0 s) :
    OutcomeLater s0 (execEncoQueuedEdge t s) := by
  unfold execEncoQueuedEdge
  repeat' first
    | with_reducible assumption
    | with_reducible refine outcomeLater_onTile ?_ ?_
    | (with_reducible (fail_if_success (show OutcomeLater _ _)); intro _)
    | with_reducible refine later_encoEdge ?_
    | with_reducible refine later_modTile ?_ ?_
    | exact Tile.Later.same rfl rfl rfl rfl
    | split

theorem later_doubleEdge {s0 s : State} {t : TileId} {a : AxisId} {sample : Nat} (hs : State.Later s0 s) :
    State.Later s0 (s.doubleEdge t a sample) := by
  unfold State.doubleEdge
  repeat' first
    | with_reducible assumption
    | ((try lift_lets -underBinder); intro x; first
        | (refine later_cut (s0 := s0) (x := x) ?_ ?_ <;> [unfold x; (intro hx; clear_value x)])
        | clear_value x)
    | intro _
    | with_reducible refine later_ite ?_ ?_
    | with_reducible refine later_newLoss ?_
    | with_reducible refine later_notClean ?_
    | with_reducible refine later_uRaise ?_
    | with_reducible refine later_modFb ?_

theorem outcomeLater_execQuadratureEdge {s0 s : State} {t : TileId} {a : AxisId} {e : QuadEdge} (hs : State.Later s0 s) :
    OutcomeLater s0 (execQuadratureEdge t a e s) := by
  unfold execQuadratureEdge
  repeat' first
    | with_reducible assumption
    | with_reducible refine outcomeLater_onTile ?_ ?_
    | ((try lift_lets -underBinder); intro x; first
        | (refine later_cut (s0 := s0) (x := x) ?_ ?_ <;> [unfold x; (intro hx; clear_value x)])
        | (have _ := (x : State → _); unfold x; try dsimp only)
        | (have _ := (x : _ → State); unfold x; try dsimp only)
        | (have _ := (x : _ → State → _); unfold x; try dsimp only)
        | clear_value x)
    | (with_reducible (fail_if_success (show OutcomeLater _ _)); intro _)
    | with_reducible refine later_ite ?_ ?_
    | with_reducible refine later_dirUpdate ?_
    | with_reducible refine later_doubleEdge ?_
    | with_reducible refine later_encoCount ?_
    | with_reducible refine later_modFb ?_
    | split

theorem outcomeLater_execIndexPulse {s0 s : State} {t : TileId} {a : AxisId} (hs : State.Later s0 s) :
    OutcomeLater s0 (execIndexPulse t a s) := by
  unfold execIndexPulse
  repeat' first
    | with_reducible assumption
    | with_reducible refine outcomeLater_onTile ?_ ?_
    | ((try lift_lets -underBinder); intro x; first
        | (refine later_cut (s0 := s0) (x := x) ?_ ?_ <;> [unfold x; (intro hx; clear_value x)])
        | clear_value x)
    | (with_reducible (fail_if_success (show OutcomeLater _ _)); intro _)
    | with_reducible refine later_ite ?_ ?_
    | with_reducible refine later_causeCleared ?_
    | with_reducible refine later_homeIndex ?_
    | with_reducible refine later_newLoss ?_
    | with_reducible refine later_modFb ?_
    | split

theorem outcomeLater_execEncoderFault {s0 s : State} {t : TileId} {a : AxisId} (hs : State.Later s0 s) :
    OutcomeLater s0 (execEncoderFault t a s) := by
  unfold execEncoderFault
  repeat' first
    | with_reducible assumption
    | with_reducible refine outcomeLater_onTile ?_ ?_
    | (with_reducible (fail_if_success (show OutcomeLater _ _)); intro _)
    | with_reducible refine later_ite ?_ ?_
    | with_reducible refine later_positionLost ?_

theorem outcomeLater_execLineFault {s0 s : State} {t : TileId} {a : AxisId} {p : QuadPair} (hs : State.Later s0 s) :
    OutcomeLater s0 (execLineFault t a p s) := by
  unfold execLineFault
  repeat' first
    | with_reducible assumption
    | with_reducible refine outcomeLater_onTile ?_ ?_
    | ((try lift_lets -underBinder); intro x; first
        | (refine later_cut (s0 := s0) (x := x) ?_ ?_ <;> [unfold x; (intro hx; clear_value x)])
        | clear_value x)
    | (with_reducible (fail_if_success (show OutcomeLater _ _)); intro _)
    | with_reducible refine later_ite ?_ ?_
    | with_reducible refine later_newLoss ?_
    | split

theorem outcomeLater_execDirectionEventHoldoff {s0 s : State} {t : TileId} {a : AxisId} (hs : State.Later s0 s) :
    OutcomeLater s0 (execDirectionEventHoldoff t a s) := by
  unfold execDirectionEventHoldoff
  repeat' first
    | with_reducible assumption
    | with_reducible refine outcomeLater_onTile ?_ ?_
    | ((try lift_lets -underBinder); intro x; first
        | (refine later_cut (s0 := s0) (x := x) ?_ ?_ <;> [unfold x; (intro hx; clear_value x)])
        | clear_value x)
    | (with_reducible (fail_if_success (show OutcomeLater _ _)); intro _)
    | with_reducible refine later_ite ?_ ?_
    | with_reducible refine later_dirEvent ?_
    | with_reducible refine later_modFb ?_

theorem outcomeLater_execHallCodeChange {s0 s : State} {t : TileId} {a : AxisId} {code : BitVec 3} {now : Nat} (hs : State.Later s0 s) :
    OutcomeLater s0 (execHallCodeChange t a code now s) := by
  unfold execHallCodeChange
  repeat' first
    | with_reducible assumption
    | with_reducible refine outcomeLater_onTile ?_ ?_
    | with_reducible exact fun _ k => k
    | with_reducible exact fun _ _ => Bridge.noConfusion
    | with_reducible exact fun k => ⟨k, id, id, id⟩
    | ((with_reducible refine fun (hf : _ = true) (hk : _ ≠ Bridge.driven) => ?_); dsimp only; (repeat' split) <;> first | exact hk | exact Bridge.noConfusion | (simp_all; done))
    | ((try lift_lets -underBinder); intro x; first
        | (refine later_cut (s0 := s0) (x := x) ?_ ?_ <;> [unfold x; (intro hx; clear_value x)])
        | clear_value x)
    | (with_reducible (fail_if_success (show OutcomeLater _ _)); intro _)
    | with_reducible refine later_ite ?_ ?_
    | with_reducible refine later_newLoss ?_
    | with_reducible refine later_at ?_
    | with_reducible refine later_modAxis ?_ ?_
    | with_reducible refine later_modFb ?_
    | split

theorem outcomeLater_execHallInvalidTimeout {s0 s : State} {t : TileId} {a : AxisId} (hs : State.Later s0 s) :
    OutcomeLater s0 (execHallInvalidTimeout t a s) := by
  unfold execHallInvalidTimeout
  repeat' first
    | with_reducible assumption
    | with_reducible refine outcomeLater_onTile ?_ ?_
    | ((try lift_lets -underBinder); intro x; first
        | (refine later_cut (s0 := s0) (x := x) ?_ ?_ <;> [unfold x; (intro hx; clear_value x)])
        | clear_value x)
    | (with_reducible (fail_if_success (show OutcomeLater _ _)); intro _)
    | with_reducible refine later_ite ?_ ?_
    | with_reducible refine later_newLoss ?_

theorem later_chatter {s0 s : State} {t : TileId} {a : AxisId} (hs : State.Later s0 s) :
    State.Later s0 (s.chatter t a) := by
  unfold State.chatter
  repeat' first
    | with_reducible assumption
    | ((try lift_lets -underBinder); intro x; first
        | (refine later_cut (s0 := s0) (x := x) ?_ ?_ <;> [unfold x; (intro hx; clear_value x)])
        | clear_value x)
    | intro _
    | with_reducible refine later_ite ?_ ?_
    | with_reducible refine later_indexHome ?_
    | with_reducible refine later_raise ?_
    | with_reducible refine later_setStage ?_
    | with_reducible refine later_stopMove ?_
    | with_reducible refine later_modFb ?_
    | split

theorem outcomeLater_execHomeSwitchRawEdge {s0 s : State} {t : TileId} {a : AxisId} {sw : SwitchId} {level : Bool} {now : Nat} (hs : State.Later s0 s) :
    OutcomeLater s0 (execHomeSwitchRawEdge t a sw level now s) := by
  unfold execHomeSwitchRawEdge
  repeat' first
    | with_reducible assumption
    | with_reducible refine outcomeLater_onTile ?_ ?_
    | ((try lift_lets -underBinder); intro x; first
        | (refine later_cut (s0 := s0) (x := x) ?_ ?_ <;> [unfold x; (intro hx; clear_value x)])
        | clear_value x)
    | (with_reducible (fail_if_success (show OutcomeLater _ _)); intro _)
    | with_reducible refine later_ite ?_ ?_
    | with_reducible refine later_chatter ?_
    | with_reducible refine later_at ?_
    | with_reducible refine later_modFb ?_
    | split

theorem outcomeLater_execSwitchDebounceExpiry {s0 s : State} {t : TileId} {a : AxisId} {sw : SwitchId} (hs : State.Later s0 s) :
    OutcomeLater s0 (execSwitchDebounceExpiry t a sw s) := by
  unfold execSwitchDebounceExpiry
  repeat' first
    | with_reducible assumption
    | with_reducible refine outcomeLater_onTile ?_ ?_
    | ((try lift_lets -underBinder); intro x; first
        | (refine later_cut (s0 := s0) (x := x) ?_ ?_ <;> [unfold x; (intro hx; clear_value x)])
        | (have _ := (x : State → _); unfold x; try dsimp only)
        | (have _ := (x : _ → State); unfold x; try dsimp only)
        | (have _ := (x : _ → State → _); unfold x; try dsimp only)
        | clear_value x)
    | (with_reducible (fail_if_success (show OutcomeLater _ _)); intro _)
    | with_reducible refine later_ite ?_ ?_
    | with_reducible refine later_causeCleared ?_
    | with_reducible refine later_engineTrip ?_
    | with_reducible refine later_homeEdge ?_
    | with_reducible refine later_modFb ?_
    | split

theorem outcomeLater_execSwitchFault {s0 s : State} {t : TileId} {a : AxisId} (hs : State.Later s0 s) :
    OutcomeLater s0 (execSwitchFault t a s) := by
  unfold execSwitchFault
  repeat' first
    | with_reducible assumption
    | with_reducible refine outcomeLater_onTile ?_ ?_
    | ((try lift_lets -underBinder); intro x; first
        | (refine later_cut (s0 := s0) (x := x) ?_ ?_ <;> [unfold x; (intro hx; clear_value x)])
        | clear_value x)
    | (with_reducible (fail_if_success (show OutcomeLater _ _)); intro _)
    | with_reducible refine later_ite ?_ ?_
    | with_reducible refine later_positionLost ?_

theorem later_ssiAccept {s0 s : State} {t : TileId} {a : AxisId} {pos : Int} {latched : Int} {at_ : Nat} (hs : State.Later s0 s) :
    State.Later s0 (s.ssiAccept t a pos latched at_) := by
  unfold State.ssiAccept
  repeat' first
    | with_reducible assumption
    | ((try lift_lets -underBinder); intro x; first
        | (refine later_cut (s0 := s0) (x := x) ?_ ?_ <;> [unfold x; (intro hx; clear_value x)])
        | clear_value x)
    | intro _
    | with_reducible refine later_dite ?_ ?_
    | with_reducible refine later_ite ?_ ?_
    | with_reducible refine later_causeCleared ?_
    | with_reducible refine later_dirUpdate ?_
    | with_reducible refine later_moveCount ?_
    | with_reducible refine later_positionLost ?_
    | with_reducible refine later_setStage ?_
    | with_reducible refine later_uClear ?_
    | with_reducible refine later_modFb ?_

theorem later_ssiDiscard {s0 s : State} {t : TileId} {a : AxisId} {since : Nat} (hs : State.Later s0 s) :
    State.Later s0 (s.ssiDiscard t a since) := by
  unfold State.ssiDiscard
  repeat' first
    | with_reducible assumption
    | ((try lift_lets -underBinder); intro x; first
        | (refine later_cut (s0 := s0) (x := x) ?_ ?_ <;> [unfold x; (intro hx; clear_value x)])
        | clear_value x)
    | intro _
    | with_reducible refine later_ite ?_ ?_
    | with_reducible refine later_notClean ?_
    | with_reducible refine later_positionLost ?_
    | with_reducible refine later_uRaise ?_
    | with_reducible refine later_modFb ?_

theorem outcomeLater_execSsiWordComplete {s0 s : State} {t : TileId} {a : AxisId} {bits : Nat} {frameOk : Bool} {now : Nat} (hs : State.Later s0 s) :
    OutcomeLater s0 (execSsiWordComplete t a bits frameOk now s) := by
  unfold execSsiWordComplete
  repeat' first
    | with_reducible assumption
    | with_reducible refine outcomeLater_onTile ?_ ?_
    | ((try lift_lets -underBinder); intro x; first
        | (refine later_cut (s0 := s0) (x := x) ?_ ?_ <;> [unfold x; (intro hx; clear_value x)])
        | clear_value x)
    | (with_reducible (fail_if_success (show OutcomeLater _ _)); intro _)
    | with_reducible refine later_ite ?_ ?_
    | with_reducible refine later_ssiAccept ?_
    | with_reducible refine later_ssiDiscard ?_
    | with_reducible refine later_at ?_
    | with_reducible refine later_modFb ?_
    | split

end Sys2Proof.Machine
end

