-- ==== Sys2Proof/Laws/LaterMotionCmds.lean ====
section
/-!
SUPPORT. What no command takes back, for every operation and meaning of Machine/MotionCmds.lean.
-/

namespace Sys2Proof.Machine

theorem later_sampleMeasures {s0 s : State} {t : TileId} {a : AxisId} {m : LoopSample} (hs : State.Later s0 s) :
    State.Later s0 (s.sampleMeasures t a m) := by
  unfold State.sampleMeasures
  repeat' first
    | with_reducible assumption
    | with_reducible exact fun _ k => k
    | with_reducible exact fun _ _ => Bridge.noConfusion
    | with_reducible exact fun k => ⟨k, id, id, id⟩
    | with_reducible exact rfl
    | ((with_reducible refine fun (hf : _ = true) (hk : _ ≠ Bridge.driven) => ?_); dsimp only; (repeat' split) <;> first | exact hk | exact Bridge.noConfusion | (simp_all; done))
    | ((try lift_lets -underBinder); intro x; first
        | (refine later_cut (s0 := s0) (x := x) ?_ ?_ <;> [unfold x; (intro hx; clear_value x)])
        | (have _ := (x : State → _); unfold x; try dsimp only)
        | (have _ := (x : _ → State); unfold x; try dsimp only)
        | (have _ := (x : _ → State → _); unfold x; try dsimp only)
        | clear_value x)
    | intro _
    | with_reducible refine later_ite ?_ ?_
    | with_reducible refine later_modAxis ?_ ?_
    | with_reducible refine later_modField ?_ ?_ ?_
    | split

theorem later_sampleIndex {s0 s : State} {t : TileId} {a : AxisId} (hs : State.Later s0 s) :
    State.Later s0 (s.sampleIndex t a) := by
  unfold State.sampleIndex
  repeat' first
    | with_reducible assumption
    | with_reducible exact fun _ k => k
    | with_reducible exact fun _ _ => Bridge.noConfusion
    | with_reducible exact fun k => ⟨k, id, id, id⟩
    | ((with_reducible refine fun (hf : _ = true) (hk : _ ≠ Bridge.driven) => ?_); dsimp only; (repeat' split) <;> first | exact hk | exact Bridge.noConfusion | (simp_all; done))
    | ((try lift_lets -underBinder); intro x; first
        | (refine later_cut (s0 := s0) (x := x) ?_ ?_ <;> [unfold x; (intro hx; clear_value x)])
        | clear_value x)
    | intro _
    | with_reducible refine later_ite ?_ ?_
    | with_reducible refine later_causeCleared ?_
    | with_reducible refine later_notClean ?_
    | with_reducible refine later_modAxis ?_ ?_
    | split

theorem later_sampleBus {s0 s : State} {t : TileId} {a : AxisId} (hs : State.Later s0 s) :
    State.Later s0 (s.sampleBus t a) := by
  unfold State.sampleBus
  repeat' first
    | with_reducible assumption
    | with_reducible exact fun _ k => k
    | with_reducible exact fun _ _ => Bridge.noConfusion
    | with_reducible exact fun k => ⟨k, id, id, id⟩
    | ((with_reducible refine fun (hf : _ = true) (hk : _ ≠ Bridge.driven) => ?_); dsimp only; (repeat' split) <;> first | exact hk | exact Bridge.noConfusion | (simp_all; done))
    | ((try lift_lets -underBinder); intro x; first
        | (refine later_cut (s0 := s0) (x := x) ?_ ?_ <;> [unfold x; (intro hx; clear_value x)])
        | clear_value x)
    | intro _
    | with_reducible refine later_ite ?_ ?_
    | with_reducible refine later_driveBusEvent ?_
    | with_reducible refine later_engineTrip ?_
    | with_reducible refine later_noteTrip ?_
    | with_reducible refine later_modMo ?_ ?_
    | split

theorem later_sampleLimit {s0 s : State} {t : TileId} {a : AxisId} (hs : State.Later s0 s) :
    State.Later s0 (s.sampleLimit t a) := by
  unfold State.sampleLimit
  repeat' first
    | with_reducible assumption
    | ((try lift_lets -underBinder); intro x; first
        | (refine later_cut (s0 := s0) (x := x) ?_ ?_ <;> [unfold x; (intro hx; clear_value x)])
        | clear_value x)
    | intro _
    | with_reducible refine later_ite ?_ ?_
    | with_reducible refine later_engineTrip ?_
    | split

theorem later_sampleSsi {s0 s : State} {t : TileId} {a : AxisId} {high : Bool} (hs : State.Later s0 s) :
    State.Later s0 (s.sampleSsi t a high) := by
  unfold State.sampleSsi
  repeat' first
    | with_reducible assumption
    | ((try lift_lets -underBinder); intro x; first
        | (refine later_cut (s0 := s0) (x := x) ?_ ?_ <;> [unfold x; (intro hx; clear_value x)])
        | clear_value x)
    | intro _
    | with_reducible refine later_ite ?_ ?_
    | with_reducible refine later_modFb ?_

theorem later_sampleExtrapolate {s0 s : State} {t : TileId} {a : AxisId} (hs : State.Later s0 s) :
    State.Later s0 (s.sampleExtrapolate t a) := by
  unfold State.sampleExtrapolate
  repeat' first
    | with_reducible assumption
    | ((try lift_lets -underBinder); intro x; first
        | (refine later_cut (s0 := s0) (x := x) ?_ ?_ <;> [unfold x; (intro hx; clear_value x)])
        | clear_value x)
    | intro _
    | with_reducible refine later_ite ?_ ?_
    | with_reducible refine later_dirUpdate ?_
    | with_reducible refine later_modFb ?_
    | split

theorem later_sampleDuty {s0 s : State} {t : TileId} {a : AxisId} (hs : State.Later s0 s) :
    State.Later s0 (s.sampleDuty t a) := by
  unfold State.sampleDuty
  repeat' first
    | with_reducible assumption
    | with_reducible exact fun _ k => k
    | with_reducible exact fun _ _ => Bridge.noConfusion
    | with_reducible exact fun k => ⟨k, id, id, id⟩
    | ((with_reducible refine fun (hf : _ = true) (hk : _ ≠ Bridge.driven) => ?_); dsimp only; (repeat' split) <;> first | exact hk | exact Bridge.noConfusion | (simp_all; done))
    | ((try lift_lets -underBinder); intro x; first
        | (refine later_cut (s0 := s0) (x := x) ?_ ?_ <;> [unfold x; (intro hx; clear_value x)])
        | clear_value x)
    | intro _
    | with_reducible refine later_ite ?_ ?_
    | with_reducible refine later_draw ?_
    | with_reducible refine later_modMo ?_ ?_

theorem outcomeLater_execCurrentLoopSample {s0 s : State} {t : TileId} {a : AxisId} {m : LoopSample} {now : Nat} (hs : State.Later s0 s) :
    OutcomeLater s0 (execCurrentLoopSample t a m now s) := by
  unfold execCurrentLoopSample
  repeat' first
    | with_reducible assumption
    | with_reducible refine outcomeLater_onTile ?_ ?_
    | ((try lift_lets -underBinder); intro x; first
        | (refine later_cut (s0 := s0) (x := x) ?_ ?_ <;> [unfold x; (intro hx; clear_value x)])
        | clear_value x)
    | (with_reducible (fail_if_success (show OutcomeLater _ _)); intro _)
    | with_reducible refine later_ite ?_ ?_
    | with_reducible refine later_binLost ?_
    | with_reducible refine later_clampRef ?_
    | with_reducible refine later_extSample ?_
    | with_reducible refine later_residualTest ?_
    | with_reducible refine later_runStakes ?_
    | with_reducible refine later_sampleBus ?_
    | with_reducible refine later_sampleDuty ?_
    | with_reducible refine later_sampleExtrapolate ?_
    | with_reducible refine later_sampleIndex ?_
    | with_reducible refine later_sampleLimit ?_
    | with_reducible refine later_sampleMeasures ?_
    | with_reducible refine later_sampleSsi ?_
    | with_reducible refine later_traceSample ?_
    | with_reducible refine later_tripEvent ?_
    | with_reducible refine later_tripRecord ?_
    | with_reducible refine later_at ?_

theorem outcomeLater_execPositionLoopSample {s0 s : State} {t : TileId} {a : AxisId} (hs : State.Later s0 s) :
    OutcomeLater s0 (execPositionLoopSample t a s) := by
  unfold execPositionLoopSample
  repeat' first
    | with_reducible assumption
    | with_reducible refine outcomeLater_onTile ?_ ?_
    | ((try lift_lets -underBinder); intro x; first
        | (refine later_cut (s0 := s0) (x := x) ?_ ?_ <;> [unfold x; (intro hx; clear_value x)])
        | clear_value x)
    | (with_reducible (fail_if_success (show OutcomeLater _ _)); intro _)
    | with_reducible refine later_ite ?_ ?_
    | with_reducible refine later_controlSample ?_
    | with_reducible refine later_planSample ?_

theorem outcomeLater_execResidualTrip {s0 s : State} {t : TileId} {a : AxisId} (hs : State.Later s0 s) :
    OutcomeLater s0 (execResidualTrip t a s) := by
  unfold execResidualTrip
  repeat' first
    | with_reducible assumption
    | with_reducible refine outcomeLater_onTile ?_ ?_
    | ((try lift_lets -underBinder); intro x; first
        | (refine later_cut (s0 := s0) (x := x) ?_ ?_ <;> [unfold x; (intro hx; clear_value x)])
        | clear_value x)
    | (with_reducible (fail_if_success (show OutcomeLater _ _)); intro _)
    | with_reducible refine later_ite ?_ ?_
    | with_reducible refine later_forceTrip ?_

theorem outcomeLater_execSatTrip {s0 s : State} {t : TileId} {a : AxisId} (hs : State.Later s0 s) :
    OutcomeLater s0 (execSatTrip t a s) := by
  unfold execSatTrip
  repeat' first
    | with_reducible assumption
    | with_reducible refine outcomeLater_onTile ?_ ?_
    | ((try lift_lets -underBinder); intro x; first
        | (refine later_cut (s0 := s0) (x := x) ?_ ?_ <;> [unfold x; (intro hx; clear_value x)])
        | clear_value x)
    | (with_reducible (fail_if_success (show OutcomeLater _ _)); intro _)
    | with_reducible refine later_ite ?_ ?_
    | with_reducible refine later_forceTrip ?_

theorem outcomeLater_execFollowingErrorTrip {s0 s : State} {t : TileId} {a : AxisId} (hs : State.Later s0 s) :
    OutcomeLater s0 (execFollowingErrorTrip t a s) := by
  unfold execFollowingErrorTrip
  repeat' first
    | with_reducible assumption
    | with_reducible refine outcomeLater_onTile ?_ ?_
    | ((try lift_lets -underBinder); intro x; first
        | (refine later_cut (s0 := s0) (x := x) ?_ ?_ <;> [unfold x; (intro hx; clear_value x)])
        | clear_value x)
    | (with_reducible (fail_if_success (show OutcomeLater _ _)); intro _)
    | with_reducible refine later_ite ?_ ?_
    | with_reducible refine later_engineTrip ?_
    | split

theorem outcomeLater_execTripPairLevelChange {s0 s : State} {t : TileId} {a : AxisId} (hs : State.Later s0 s) :
    OutcomeLater s0 (execTripPairLevelChange t a s) := by
  unfold execTripPairLevelChange
  repeat' first
    | with_reducible assumption
    | with_reducible refine outcomeLater_onTile ?_ ?_
    | ((try lift_lets -underBinder); intro x; first
        | (refine later_cut (s0 := s0) (x := x) ?_ ?_ <;> [unfold x; (intro hx; clear_value x)])
        | clear_value x)
    | (with_reducible (fail_if_success (show OutcomeLater _ _)); intro _)
    | with_reducible refine later_ite ?_ ?_
    | with_reducible refine later_fabricTrip ?_
    | with_reducible refine later_pathForced ?_

theorem outcomeLater_execTripStopBrakeDelay {s0 s : State} {t : TileId} {a : AxisId} (hs : State.Later s0 s) :
    OutcomeLater s0 (execTripStopBrakeDelay t a s) := by
  unfold execTripStopBrakeDelay
  repeat' first
    | with_reducible assumption
    | with_reducible refine outcomeLater_onTile ?_ ?_
    | with_reducible exact fun _ k => k
    | with_reducible exact fun _ _ => Bridge.noConfusion
    | with_reducible exact fun k => ⟨k, id, id, id⟩
    | ((with_reducible refine fun (hf : _ = true) (hk : _ ≠ Bridge.driven) => ?_); dsimp only; (repeat' split) <;> first | exact hk | exact Bridge.noConfusion | (simp_all; done))
    | (with_reducible (fail_if_success (show OutcomeLater _ _)); intro _)
    | with_reducible refine later_ite ?_ ?_
    | with_reducible refine later_modMo ?_ ?_

theorem outcomeLater_execOvercurrentComparatorEdge {s0 s : State} {t : TileId} {a : AxisId} (hs : State.Later s0 s) :
    OutcomeLater s0 (execOvercurrentComparatorEdge t a s) := by
  unfold execOvercurrentComparatorEdge
  repeat' first
    | with_reducible assumption
    | with_reducible refine outcomeLater_onTile ?_ ?_
    | (with_reducible (fail_if_success (show OutcomeLater _ _)); intro _)
    | with_reducible refine later_fabricTrip ?_
    | with_reducible refine later_modFab ?_

theorem outcomeLater_execMotorBusComparatorTrip {s0 s : State} {t : TileId} (hs : State.Later s0 s) :
    OutcomeLater s0 (execMotorBusComparatorTrip t s) := by
  unfold execMotorBusComparatorTrip
  repeat' first
    | with_reducible assumption
    | with_reducible refine outcomeLater_onTile ?_ ?_
    | with_reducible exact fun _ k => k
    | with_reducible exact fun _ _ => Bridge.noConfusion
    | with_reducible exact fun k => ⟨k, id, id, id⟩
    | with_reducible exact rfl
    | (with_reducible (fail_if_success (show OutcomeLater _ _)); intro _)
    | with_reducible refine later_driveBusEvent ?_
    | with_reducible refine later_fabricTrip ?_
    | with_reducible refine later_each ?_ ?_
    | with_reducible refine later_modField ?_ ?_ ?_

theorem outcomeLater_execSensitiveEdgeActive {s0 s : State} {t : TileId} {e : EdgeId} (hs : State.Later s0 s) :
    OutcomeLater s0 (execSensitiveEdgeActive t e s) := by
  unfold execSensitiveEdgeActive
  repeat' first
    | with_reducible assumption
    | with_reducible refine outcomeLater_onTile ?_ ?_
    | ((try lift_lets -underBinder); intro x; first
        | (refine later_cut (s0 := s0) (x := x) ?_ ?_ <;> [unfold x; (intro hx; clear_value x)])
        | clear_value x)
    | (with_reducible (fail_if_success (show OutcomeLater _ _)); intro _)
    | with_reducible refine later_ite ?_ ?_
    | with_reducible refine later_fabricTrip ?_
    | with_reducible refine later_each ?_ ?_
    | split

theorem outcomeLater_execFabricFault {s0 s : State} {t : TileId} {a : AxisId} (hs : State.Later s0 s) :
    OutcomeLater s0 (execFabricFault t a s) := by
  unfold execFabricFault
  repeat' first
    | with_reducible assumption
    | with_reducible refine outcomeLater_onTile ?_ ?_
    | ((try lift_lets -underBinder); intro x; first
        | (refine later_cut (s0 := s0) (x := x) ?_ ?_ <;> [unfold x; (intro hx; clear_value x)])
        | clear_value x)
    | (with_reducible (fail_if_success (show OutcomeLater _ _)); intro _)
    | with_reducible refine later_ite ?_ ?_
    | with_reducible refine later_modFab ?_

theorem outcomeLater_execAlignmentComplete {s0 s : State} {t : TileId} {a : AxisId} {motion : Int} (hs : State.Later s0 s) :
    OutcomeLater s0 (execAlignmentComplete t a motion s) := by
  unfold execAlignmentComplete
  repeat' first
    | with_reducible assumption
    | with_reducible refine outcomeLater_onTile ?_ ?_
    | with_reducible exact fun _ k => k
    | with_reducible exact fun _ _ => Bridge.noConfusion
    | with_reducible exact fun k => ⟨k, id, id, id⟩
    | ((with_reducible refine fun (hf : _ = true) (hk : _ ≠ Bridge.driven) => ?_); dsimp only; (repeat' split) <;> first | exact hk | exact Bridge.noConfusion | (simp_all; done))
    | ((try lift_lets -underBinder); intro x; first
        | (refine later_cut (s0 := s0) (x := x) ?_ ?_ <;> [unfold x; (intro hx; clear_value x)])
        | clear_value x)
    | (with_reducible (fail_if_success (show OutcomeLater _ _)); intro _)
    | with_reducible refine later_ite ?_ ?_
    | with_reducible refine later_brakeAxis ?_
    | with_reducible refine later_homeReference ?_
    | with_reducible refine later_raise ?_
    | with_reducible refine later_refuseMove ?_
    | with_reducible refine later_modDoor ?_
    | with_reducible refine later_modMo ?_ ?_

theorem outcomeLater_execCoarseStepEdge {s0 s : State} {t : TileId} {a : AxisId} {dirOpen : Bool} {period : Nat} (hs : State.Later s0 s) :
    OutcomeLater s0 (execCoarseStepEdge t a dirOpen period s) := by
  unfold execCoarseStepEdge
  repeat' first
    | with_reducible assumption
    | with_reducible refine outcomeLater_onTile ?_ ?_
    | (with_reducible (fail_if_success (show OutcomeLater _ _)); intro _)
    | with_reducible refine later_ite ?_ ?_
    | with_reducible refine later_coarseStep ?_

end Sys2Proof.Machine
end

