-- ==== Sys2Proof/Laws/LaterLoadSwitch.lean ====
section
/-!
SUPPORT. What no command takes back, for every operation and meaning of Machine/LoadSwitch.lean.
-/

namespace Sys2Proof.Machine

theorem later_raiseField {s0 s : State} {t : TileId} {code : Nat} {data : List Byte} (hs : State.Later s0 s) :
    State.Later s0 (s.raiseField t code data) := by
  unfold State.raiseField
  repeat' first
    | with_reducible assumption
    | intro _
    | with_reducible refine later_ite ?_ ?_
    | with_reducible refine later_raise ?_

/-- What the refresh of one channel does: the other channels stand, and the channel is on as R152 says. -/
theorem lsRefresh1_shape (s : State) (t : TileId) (restart : Bool) (ch : Fin 10) :
    ∃ ls, s.lsRefresh1 t restart ch = s.modField t (fun f => { f with ls := ls }) ∧
      (∀ j, j ≠ ch → ls[j] = (s.tile t).field.ls[j]) ∧ (ls[ch]).isOn = (s.tile t).lsOn ch := by
  unfold State.lsRefresh1
  dsimp only
  by_cases h1 : ((s.tile t).lsOn ch && !((s.tile t).field.ls[ch]).isOn) = true
  · rw [if_pos h1]
    refine ⟨_, rfl, fun j hj => ?_, ?_⟩
    · rw [vset_get, if_neg (Ne.symm hj)]
    · rw [vset_get, if_pos rfl]
      simp only [Bool.and_eq_true] at h1
      exact h1.1.symm
  · rw [if_neg h1]
    by_cases h2 : (((s.tile t).field.ls[ch]).isOn && !(s.tile t).lsOn ch) = true
    · rw [if_pos h2]
      refine ⟨_, rfl, fun j hj => ?_, ?_⟩
      · rw [vset_get, if_neg (Ne.symm hj)]
      · rw [vset_get, if_pos rfl]
        simp only [Bool.and_eq_true, Bool.not_eq_true'] at h2
        exact h2.2.symm
    · rw [if_neg h2]
      refine ⟨(s.tile t).field.ls, by cases t <;> rfl, fun _ _ => rfl, ?_⟩
      have k : ∀ a b : Bool, ¬ (a && !b) = true → ¬ (b && !a) = true → b = a := by decide
      exact k _ _ h1 h2

theorem lsRefresh_rest (t : TileId) (restart : Bool) (l : List (Fin 10)) (hl : ∀ j ∈ l, j ≠ 0) (s : State) :
    ∃ ls, (s.each l fun s ch => s.lsRefresh1 t restart ch) = s.modField t (fun f => { f with ls := ls }) ∧
      ls[(0 : Fin 10)] = (s.tile t).field.ls[(0 : Fin 10)] := by
  induction l generalizing s with
  | nil => exact ⟨(s.tile t).field.ls, by cases t <;> rfl, rfl⟩
  | cons j l ih =>
    obtain ⟨l1, e1, k1, _⟩ := lsRefresh1_shape s t restart j
    obtain ⟨l2, e2, k2⟩ := ih (fun j hj => hl j (List.mem_cons_of_mem _ hj)) (s.lsRefresh1 t restart j)
    refine ⟨l2, ?_, ?_⟩
    · rw [State.each_cons, e2, e1]; cases t <;> rfl
    · rw [k2, e1, State.field_modField]; exact k1 0 (Ne.symm (hl j List.mem_cons_self))

/-- What a refresh of every channel does: only the switches change, and LS0 is on as R152 says. -/
theorem lsRefresh_shape (s : State) (t : TileId) (restart : Bool) :
    ∃ ls, s.lsRefresh t restart = s.modField t (fun f => { f with ls := ls }) ∧
      (ls[(0 : Fin 10)]).isOn = (s.tile t).lsOn 0 := by
  obtain ⟨l1, e1, _, k1⟩ := lsRefresh1_shape s t restart 0
  obtain ⟨l2, e2, k2⟩ := lsRefresh_rest t restart [1, 2, 3, 4, 5, 6, 7, 8, 9] (by decide) (s.lsRefresh1 t restart 0)
  refine ⟨l2, ?_, ?_⟩
  · show ((s.lsRefresh1 t restart 0).each [1, 2, 3, 4, 5, 6, 7, 8, 9] fun s ch => s.lsRefresh1 t restart ch) = _
    rw [e2, e1]; cases t <;> rfl
  · rw [k2, e1, State.field_modField]; exact k1

theorem kept_ls {f : FieldDie} {ch : Fin 10} {c : LsChannel}
    (h : f.fallback = true → ch = 0 → (f.ls[0]).isOn = false → c.isOn = false) :
    FieldDie.Kept f { f with ls := vset f.ls ch c } := by
  refine ⟨rfl, fun hf => ⟨hf, id, id, fun h0 => ?_⟩⟩
  show ((vset f.ls ch c)[(0 : Fin 10)]).isOn = false
  rw [vset_get]
  by_cases e : ch = 0
  · rw [if_pos e]; exact h hf e h0
  · rw [if_neg e]; exact h0

theorem later_lsRefresh1 {s0 s : State} {t : TileId} {restart : Bool} {ch : Fin 10} (hs : State.Later s0 s) :
    State.Later s0 (s.lsRefresh1 t restart ch) := by
  unfold State.lsRefresh1
  refine later_ite (fun hc => ?_) (fun _ => later_ite (fun _ => later_modKept hs (kept_ls (fun _ _ _ => rfl))) (fun _ => hs))
  refine later_modKept hs (kept_ls (fun hf h0 _ => ?_))
  subst h0
  have hw : (s.tile t).lsOn 0 = true := by
    cases h : (s.tile t).lsOn 0
    · rw [h] at hc; cases hc
    · rfl
  unfold Tile.lsOn at hw
  simp [hf] at hw

theorem later_lsRefresh {s0 s : State} {t : TileId} {restart : Bool} (hs : State.Later s0 s) :
    State.Later s0 (s.lsRefresh t restart) := by
  unfold State.lsRefresh
  repeat' first
    | with_reducible assumption
    | intro _
    | with_reducible refine later_lsRefresh1 ?_
    | with_reducible refine later_each ?_ ?_

theorem later_modLs {s0 s : State} {t : TileId} {ch : Fin 10} {f : LsChannel → LsChannel} (hs : State.Later s0 s)
    (hf : ∀ c, (f c).isOn = c.isOn) : State.Later s0 (s.modLs t ch f) := by
  unfold State.modLs
  refine later_modKept hs (kept_ls (fun _ e h0 => ?_))
  subst e
  rw [hf]; exact h0

theorem later_lsEvent {s0 s : State} {t : TileId} {code : Nat} {ch : Fin 10} {latched : Bool} {sense : BitVec 16} (hs : State.Later s0 s) :
    State.Later s0 (s.lsEvent t code ch latched sense) := by
  unfold State.lsEvent
  repeat' first
    | with_reducible assumption
    | intro _
    | with_reducible refine later_raiseField ?_

theorem later_lsNote {s0 s : State} {t : TileId} {ch : Fin 10} (hs : State.Later s0 s) :
    State.Later s0 (s.lsNote t ch) := by
  unfold State.lsNote
  repeat' first
    | with_reducible assumption
    | intro _
    | with_reducible refine later_ite ?_ ?_
    | with_reducible refine later_modDoor ?_

theorem outcomeLater_execLsinPinEdge {s0 s : State} {t : TileId} {ch : Fin 10} {level : Bool} (hs : State.Later s0 s) :
    OutcomeLater s0 (execLsinPinEdge t ch level s) := by
  unfold execLsinPinEdge
  repeat' first
    | with_reducible assumption
    | with_reducible refine outcomeLater_onTile ?_ ?_
    | (with_reducible (fail_if_success (show OutcomeLater _ _)); intro _)
    | with_reducible refine later_lsRefresh ?_
    | with_reducible refine later_modLs ?_ (fun _ => rfl)

theorem outcomeLater_execLsOvercurrent {s0 s : State} {t : TileId} {load : Fin 10 × Nat} (hs : State.Later s0 s) :
    OutcomeLater s0 (execLsOvercurrent t load s) := by
  unfold execLsOvercurrent
  repeat' first
    | with_reducible assumption
    | with_reducible refine outcomeLater_onTile ?_ ?_
    | ((try lift_lets -underBinder); intro x; first
        | (refine later_cut (s0 := s0) (x := x) ?_ ?_ <;> [unfold x; (intro hx; clear_value x)])
        | clear_value x)
    | (with_reducible (fail_if_success (show OutcomeLater _ _)); intro _)
    | with_reducible refine later_ite ?_ ?_
    | with_reducible refine later_lsEvent ?_
    | with_reducible refine later_lsRefresh ?_
    | with_reducible refine later_modLs ?_ (fun _ => rfl)

theorem outcomeLater_execInrushBlankingEnd {s0 s : State} {t : TileId} {ch : Fin 10} (hs : State.Later s0 s) :
    OutcomeLater s0 (execInrushBlankingEnd t ch s) := by
  unfold execInrushBlankingEnd
  repeat' first
    | with_reducible assumption
    | with_reducible refine outcomeLater_onTile ?_ ?_
    | (with_reducible (fail_if_success (show OutcomeLater _ _)); intro _)
    | with_reducible refine later_modLs ?_ (fun _ => rfl)

theorem outcomeLater_execLsThermalShutdown {s0 s : State} {t : TileId} {ch : Fin 10} (hs : State.Later s0 s) :
    OutcomeLater s0 (execLsThermalShutdown t ch s) := by
  unfold execLsThermalShutdown
  repeat' first
    | with_reducible assumption
    | with_reducible refine outcomeLater_onTile ?_ ?_
    | ((try lift_lets -underBinder); intro x; first
        | (refine later_cut (s0 := s0) (x := x) ?_ ?_ <;> [unfold x; (intro hx; clear_value x)])
        | clear_value x)
    | (with_reducible (fail_if_success (show OutcomeLater _ _)); intro _)
    | with_reducible refine later_ite ?_ ?_
    | with_reducible refine later_lsEvent ?_
    | with_reducible refine later_lsRefresh ?_
    | with_reducible refine later_modLs ?_ (fun _ => rfl)

theorem outcomeLater_execLsThermalRestart {s0 s : State} {t : TileId} {ch : Fin 10} {now : Nat} (hs : State.Later s0 s) :
    OutcomeLater s0 (execLsThermalRestart t ch now s) := by
  unfold execLsThermalRestart
  repeat' first
    | with_reducible assumption
    | with_reducible refine outcomeLater_onTile ?_ ?_
    | ((try lift_lets -underBinder); intro x; first
        | (refine later_cut (s0 := s0) (x := x) ?_ ?_ <;> [unfold x; (intro hx; clear_value x)])
        | clear_value x)
    | (with_reducible (fail_if_success (show OutcomeLater _ _)); intro _)
    | with_reducible refine later_ite ?_ ?_
    | with_reducible refine later_lsEvent ?_
    | with_reducible refine later_lsRefresh1 ?_
    | with_reducible refine later_modLs ?_ (fun _ => rfl)
    | with_reducible refine later_at ?_

theorem outcomeLater_execVbatUndervoltage {s0 s : State} {t : TileId} {vbat : Nat} {tripped : BitVec 10} (hs : State.Later s0 s) :
    OutcomeLater s0 (execVbatUndervoltage t vbat tripped s) := by
  unfold execVbatUndervoltage
  repeat' first
    | with_reducible assumption
    | with_reducible refine outcomeLater_onTile ?_ ?_
    | with_reducible exact fun _ k => k
    | with_reducible exact fun _ _ => Bridge.noConfusion
    | with_reducible exact fun k => ⟨k, id, id, id⟩
    | with_reducible exact rfl
    | ((try lift_lets -underBinder); intro x; first
        | (refine later_cut (s0 := s0) (x := x) ?_ ?_ <;> [unfold x; (intro hx; clear_value x)])
        | clear_value x)
    | (with_reducible (fail_if_success (show OutcomeLater _ _)); intro _)
    | with_reducible refine later_ite ?_ ?_
    | with_reducible refine later_lsEvent ?_
    | with_reducible refine later_lsRefresh ?_
    | with_reducible refine later_modLs ?_ (fun _ => rfl)
    | with_reducible refine later_raiseField ?_
    | with_reducible refine later_each ?_ ?_
    | with_reducible refine later_modField ?_ ?_ ?_

theorem outcomeLater_execVbatRecovery {s0 s : State} {level : TileId × Nat} (hs : State.Later s0 s) :
    OutcomeLater s0 (execVbatRecovery level s) := by
  unfold execVbatRecovery
  repeat' first
    | with_reducible assumption
    | with_reducible refine outcomeLater_onTile ?_ ?_
    | with_reducible exact fun _ k => k
    | with_reducible exact fun _ _ => Bridge.noConfusion
    | with_reducible exact fun k => ⟨k, id, id, id⟩
    | with_reducible exact rfl
    | ((try lift_lets -underBinder); intro x; first
        | (refine later_cut (s0 := s0) (x := x) ?_ ?_ <;> [unfold x; (intro hx; clear_value x)])
        | clear_value x)
    | (with_reducible (fail_if_success (show OutcomeLater _ _)); intro _)
    | with_reducible refine later_ite ?_ ?_
    | with_reducible refine later_lsRefresh ?_
    | with_reducible refine later_modField ?_ ?_ ?_

theorem outcomeLater_execGroupHeatShed {s0 s : State} {t : TileId} (hs : State.Later s0 s) :
    OutcomeLater s0 (execGroupHeatShed t s) := by
  unfold execGroupHeatShed
  repeat' first
    | with_reducible assumption
    | with_reducible refine outcomeLater_onTile ?_ ?_
    | with_reducible exact fun _ k => k
    | with_reducible exact fun _ _ => Bridge.noConfusion
    | with_reducible exact fun k => ⟨k, id, id, id⟩
    | with_reducible exact rfl
    | (with_reducible (fail_if_success (show OutcomeLater _ _)); intro _)
    | with_reducible refine later_ite ?_ ?_
    | with_reducible refine later_lsRefresh ?_
    | with_reducible refine later_raiseField ?_
    | with_reducible refine later_modField ?_ ?_ ?_

theorem outcomeLater_execGroupHeatRestart {s0 s : State} {t : TileId} (hs : State.Later s0 s) :
    OutcomeLater s0 (execGroupHeatRestart t s) := by
  unfold execGroupHeatRestart
  repeat' first
    | with_reducible assumption
    | with_reducible refine outcomeLater_onTile ?_ ?_
    | with_reducible exact fun _ k => k
    | with_reducible exact fun _ _ => Bridge.noConfusion
    | with_reducible exact fun k => ⟨k, id, id, id⟩
    | with_reducible exact rfl
    | (with_reducible (fail_if_success (show OutcomeLater _ _)); intro _)
    | with_reducible refine later_ite ?_ ?_
    | with_reducible refine later_lsRefresh ?_
    | with_reducible refine later_modField ?_ ?_ ?_

theorem later_lsCheckStart {s0 s : State} {t : TileId} {mask : BitVec 10} (hs : State.Later s0 s) :
    State.Later s0 (s.lsCheckStart t mask) := by
  unfold State.lsCheckStart
  repeat' first
    | with_reducible assumption
    | intro _
    | with_reducible refine later_ite ?_ ?_
    | with_reducible refine later_modLs ?_ (fun _ => rfl)
    | with_reducible refine later_each ?_ ?_

theorem outcomeLater_execOpenLoadCheckPeriod {s0 s : State} {t : TileId} (hs : State.Later s0 s) :
    OutcomeLater s0 (execOpenLoadCheckPeriod t s) := by
  unfold execOpenLoadCheckPeriod
  repeat' first
    | with_reducible assumption
    | with_reducible refine outcomeLater_onTile ?_ ?_
    | ((try lift_lets -underBinder); intro x; first
        | (refine later_cut (s0 := s0) (x := x) ?_ ?_ <;> [unfold x; (intro hx; clear_value x)])
        | clear_value x)
    | (with_reducible (fail_if_success (show OutcomeLater _ _)); intro _)
    | with_reducible refine later_ite ?_ ?_
    | with_reducible refine later_holdBack ?_
    | with_reducible refine later_modLink ?_

theorem outcomeLater_execOffStateCheckMeasure {s0 s : State} {t : TileId} {ch : Fin 10} {highBefore : Bool} {highAfter : Bool} (hs : State.Later s0 s) :
    OutcomeLater s0 (execOffStateCheckMeasure t ch highBefore highAfter s) := by
  unfold execOffStateCheckMeasure
  repeat' first
    | with_reducible assumption
    | with_reducible refine outcomeLater_onTile ?_ ?_
    | ((try lift_lets -underBinder); intro x; first
        | (refine later_cut (s0 := s0) (x := x) ?_ ?_ <;> [unfold x; (intro hx; clear_value x)])
        | clear_value x)
    | (with_reducible (fail_if_success (show OutcomeLater _ _)); intro _)
    | with_reducible refine later_ite ?_ ?_
    | with_reducible refine later_lsEvent ?_
    | with_reducible refine later_lsNote ?_
    | with_reducible refine later_modLs ?_ (fun _ => rfl)

theorem outcomeLater_execLsSenseConversion {s0 s : State} {t : TileId} {codes : Vector Nat 10} (hs : State.Later s0 s) :
    OutcomeLater s0 (execLsSenseConversion t codes s) := by
  unfold execLsSenseConversion
  repeat' first
    | with_reducible assumption
    | with_reducible refine outcomeLater_onTile ?_ ?_
    | ((try lift_lets -underBinder); intro x; first
        | (refine later_cut (s0 := s0) (x := x) ?_ ?_ <;> [unfold x; (intro hx; clear_value x)])
        | clear_value x)
    | (with_reducible (fail_if_success (show OutcomeLater _ _)); intro _)
    | with_reducible refine later_ite ?_ ?_
    | with_reducible refine later_lsEvent ?_
    | with_reducible refine later_lsNote ?_
    | with_reducible refine later_modLs ?_ (fun _ => rfl)
    | with_reducible refine later_each ?_ ?_

theorem outcomeLater_execLs0AgainstCommand {s0 s : State} {t : TileId} (hs : State.Later s0 s) :
    OutcomeLater s0 (execLs0AgainstCommand t s) := by
  unfold execLs0AgainstCommand
  repeat' first
    | with_reducible assumption
    | with_reducible refine outcomeLater_onTile ?_ ?_
    | (with_reducible (fail_if_success (show OutcomeLater _ _)); intro _)
    | with_reducible refine later_ite ?_ ?_
    | with_reducible refine later_latchFault ?_

theorem outcomeLater_execLswSet {s0 s : State} {h : HostCmd} {mask : BitVec 16} {levels : BitVec 16} (hs : State.Later s0 s) :
    OutcomeLater s0 (execLswSet h mask levels s) := by
  unfold execLswSet
  repeat' first
    | with_reducible assumption
    | with_reducible refine outcomeLater_onCmd ?_ ?_
    | ((try lift_lets -underBinder); intro x; first
        | (refine later_cut (s0 := s0) (x := x) ?_ ?_ <;> [unfold x; (intro hx; clear_value x)])
        | clear_value x)
    | (with_reducible (fail_if_success (show OutcomeLater _ _)); intro _)
    | with_reducible refine later_ite ?_ ?_
    | with_reducible refine later_complete ?_
    | with_reducible refine later_holdBack ?_
    | with_reducible refine later_modLink ?_

theorem outcomeLater_execLswSetClear {s0 s : State} {h : HostCmd} {mask : BitVec 16} {levels : BitVec 16} (hs : State.Later s0 s) :
    OutcomeLater s0 (execLswSetClear h mask levels s) := by
  unfold execLswSetClear
  repeat' first
    | with_reducible assumption
    | with_reducible refine outcomeLater_onCmd ?_ ?_
    | ((try lift_lets -underBinder); intro x; first
        | (refine later_cut (s0 := s0) (x := x) ?_ ?_ <;> [unfold x; (intro hx; clear_value x)])
        | clear_value x)
    | (with_reducible (fail_if_success (show OutcomeLater _ _)); intro _)
    | with_reducible refine later_ite ?_ ?_
    | with_reducible refine later_complete ?_
    | with_reducible refine later_holdBack ?_
    | with_reducible refine later_modLink ?_

theorem later_lsClearNow {s0 s : State} {t : TileId} {mask : BitVec 10} (hs : State.Later s0 s) :
    State.Later s0 (s.lsClearNow t mask) := by
  unfold State.lsClearNow
  repeat' first
    | with_reducible assumption
    | intro _
    | with_reducible refine later_ite ?_ ?_
    | with_reducible refine later_lsRefresh ?_
    | with_reducible refine later_modLs ?_ (fun _ => rfl)
    | with_reducible refine later_each ?_ ?_

end Sys2Proof.Machine
end

