-- ==== Sys2Proof/Laws/LaterFieldIo.lean ====
section
/-!
SUPPORT. What no command takes back, for every operation and meaning of Machine/FieldIo.lean.
-/

namespace Sys2Proof.Machine

theorem later_modIo {s0 s : State} {t : TileId} {p : Fin 16} {f : IoPin → IoPin} (hs : State.Later s0 s) :
    State.Later s0 (s.modIo t p f) := by
  unfold State.modIo
  repeat' first
    | with_reducible assumption
    | with_reducible exact fun _ k => k
    | with_reducible exact fun _ _ => Bridge.noConfusion
    | with_reducible exact fun k => ⟨k, id, id, id⟩
    | with_reducible exact rfl
    | intro _
    | with_reducible refine later_modField ?_ ?_ ?_

theorem kept_setPair {f : FieldDie} {p : PairId} {v : Pair} : FieldDie.Kept f (f.setPair p v) := by
  cases p <;> exact FieldDie.Kept.refl _

theorem later_pairRefresh {s0 s : State} {t : TileId} {p : PairId} (hs : State.Later s0 s) :
    State.Later s0 (s.pairRefresh t p) := by
  unfold State.pairRefresh
  have h1 : ∀ v : FieldDie → Pair, State.Later s0 (s.modField t fun f => f.setPair p (v f)) :=
    fun _ => later_modKept hs kept_setPair
  dsimp only
  exact later_ite (fun _ => later_raiseField (h1 _)) (fun _ => h1 _)

theorem later_pairsRefresh {s0 s : State} {t : TileId} (hs : State.Later s0 s) :
    State.Later s0 (s.pairsRefresh t) := by
  unfold State.pairsRefresh
  repeat' first
    | with_reducible assumption
    | intro _
    | with_reducible refine later_pairRefresh ?_
    | with_reducible refine later_each ?_ ?_

theorem later_edgeFaults {s0 s : State} {t : TileId} {which : Nat → Bool} {flag : Nat} (hs : State.Later s0 s) :
    State.Later s0 (s.edgeFaults t which flag) := by
  unfold State.edgeFaults
  repeat' first
    | with_reducible assumption
    | intro _
    | with_reducible refine later_ite ?_ ?_
    | with_reducible refine later_raiseField ?_
    | with_reducible refine later_each ?_ ?_

theorem outcomeLater_execIoInputChange {s0 s : State} {t : TileId} {pin : Fin 16} {level : Bool} (hs : State.Later s0 s) :
    OutcomeLater s0 (execIoInputChange t pin level s) := by
  unfold execIoInputChange
  repeat' first
    | with_reducible assumption
    | with_reducible refine outcomeLater_onTile ?_ ?_
    | ((try lift_lets -underBinder); intro x; first
        | (refine later_cut (s0 := s0) (x := x) ?_ ?_ <;> [unfold x; (intro hx; clear_value x)])
        | clear_value x)
    | (with_reducible (fail_if_success (show OutcomeLater _ _)); intro _)
    | with_reducible refine later_modIo ?_

theorem outcomeLater_execIoDebounceExpiry {s0 s : State} {t : TileId} {pin : Fin 16} (hs : State.Later s0 s) :
    OutcomeLater s0 (execIoDebounceExpiry t pin s) := by
  unfold execIoDebounceExpiry
  repeat' first
    | with_reducible assumption
    | with_reducible refine outcomeLater_onTile ?_ ?_
    | ((try lift_lets -underBinder); intro x; first
        | (refine later_cut (s0 := s0) (x := x) ?_ ?_ <;> [unfold x; (intro hx; clear_value x)])
        | clear_value x)
    | (with_reducible (fail_if_success (show OutcomeLater _ _)); intro _)
    | with_reducible refine later_ite ?_ ?_
    | with_reducible refine later_modIo ?_
    | with_reducible refine later_pairsRefresh ?_

theorem outcomeLater_execPairDiscrepancyTimeout {s0 s : State} {t : TileId} {p : PairId} (hs : State.Later s0 s) :
    OutcomeLater s0 (execPairDiscrepancyTimeout t p s) := by
  unfold execPairDiscrepancyTimeout
  repeat' first
    | with_reducible assumption
    | with_reducible refine outcomeLater_onTile ?_ ?_
    | with_reducible exact fun _ k => k
    | with_reducible exact fun _ _ => Bridge.noConfusion
    | with_reducible exact fun k => ⟨k, id, id, id⟩
    | with_reducible exact rfl
    | with_reducible refine later_modKept ?_ kept_setPair
    | ((try lift_lets -underBinder); intro x; first
        | (refine later_cut (s0 := s0) (x := x) ?_ ?_ <;> [unfold x; (intro hx; clear_value x)])
        | clear_value x)
    | (with_reducible (fail_if_success (show OutcomeLater _ _)); intro _)
    | with_reducible refine later_ite ?_ ?_
    | with_reducible refine later_pairRefresh ?_
    | with_reducible refine later_modField ?_ ?_ ?_

theorem outcomeLater_execPairDiscrepantClear {s0 s : State} {t : TileId} {p : PairId} (hs : State.Later s0 s) :
    OutcomeLater s0 (execPairDiscrepantClear t p s) := by
  unfold execPairDiscrepantClear
  repeat' first
    | with_reducible assumption
    | with_reducible refine outcomeLater_onTile ?_ ?_
    | with_reducible exact fun _ k => k
    | with_reducible exact fun _ _ => Bridge.noConfusion
    | with_reducible exact fun k => ⟨k, id, id, id⟩
    | with_reducible exact rfl
    | with_reducible refine later_modKept ?_ kept_setPair
    | ((try lift_lets -underBinder); intro x; first
        | (refine later_cut (s0 := s0) (x := x) ?_ ?_ <;> [unfold x; (intro hx; clear_value x)])
        | clear_value x)
    | (with_reducible (fail_if_success (show OutcomeLater _ _)); intro _)
    | with_reducible refine later_ite ?_ ?_
    | with_reducible refine later_pairRefresh ?_
    | with_reducible refine later_modField ?_ ?_ ?_

theorem outcomeLater_execOutputReadbackFault {s0 s : State} {t : TileId} {pin : Fin 16} {c : ReadbackCond} (hs : State.Later s0 s) :
    OutcomeLater s0 (execOutputReadbackFault t pin c s) := by
  unfold execOutputReadbackFault
  repeat' first
    | with_reducible assumption
    | with_reducible refine outcomeLater_onTile ?_ ?_
    | ((try lift_lets -underBinder); intro x; first
        | (refine later_cut (s0 := s0) (x := x) ?_ ?_ <;> [unfold x; (intro hx; clear_value x)])
        | clear_value x)
    | (with_reducible (fail_if_success (show OutcomeLater _ _)); intro _)
    | with_reducible refine later_dite ?_ ?_
    | with_reducible refine later_ite ?_ ?_
    | with_reducible refine later_modIo ?_
    | split

theorem outcomeLater_execOutputThermalShutdown {s0 s : State} {t : TileId} {pin : Fin 16} (hs : State.Later s0 s) :
    OutcomeLater s0 (execOutputThermalShutdown t pin s) := by
  unfold execOutputThermalShutdown
  repeat' first
    | with_reducible assumption
    | with_reducible refine outcomeLater_onTile ?_ ?_
    | (with_reducible (fail_if_success (show OutcomeLater _ _)); intro _)
    | with_reducible refine later_ite ?_ ?_
    | with_reducible refine later_modIo ?_

theorem outcomeLater_execTlInputChange {s0 s : State} {t : TileId} {tl : Fin 4} {level : Bool} (hs : State.Later s0 s) :
    OutcomeLater s0 (execTlInputChange t tl level s) := by
  unfold execTlInputChange
  repeat' first
    | with_reducible assumption
    | with_reducible refine outcomeLater_onTile ?_ ?_
    | with_reducible exact fun _ k => k
    | with_reducible exact fun _ _ => Bridge.noConfusion
    | with_reducible exact fun k => ⟨k, id, id, id⟩
    | with_reducible exact rfl
    | (with_reducible (fail_if_success (show OutcomeLater _ _)); intro _)
    | with_reducible refine later_modField ?_ ?_ ?_

theorem outcomeLater_execTlDebounceExpiry {s0 s : State} {t : TileId} {tl : Fin 4} (hs : State.Later s0 s) :
    OutcomeLater s0 (execTlDebounceExpiry t tl s) := by
  unfold execTlDebounceExpiry
  repeat' first
    | with_reducible assumption
    | with_reducible refine outcomeLater_onTile ?_ ?_
    | with_reducible exact fun _ k => k
    | with_reducible exact fun _ _ => Bridge.noConfusion
    | with_reducible exact fun k => ⟨k, id, id, id⟩
    | with_reducible exact rfl
    | (with_reducible (fail_if_success (show OutcomeLater _ _)); intro _)
    | with_reducible refine later_ite ?_ ?_
    | with_reducible refine later_modField ?_ ?_ ?_

theorem outcomeLater_execTrainLineDiscrepancy {s0 s : State} {t : TileId} {p : TlPair} (hs : State.Later s0 s) :
    OutcomeLater s0 (execTrainLineDiscrepancy t p s) := by
  unfold execTrainLineDiscrepancy
  repeat' first
    | with_reducible assumption
    | with_reducible refine outcomeLater_onTile ?_ ?_
    | ((try lift_lets -underBinder); intro x; first
        | (refine later_cut (s0 := s0) (x := x) ?_ ?_ <;> [unfold x; (intro hx; clear_value x)])
        | clear_value x)
    | (with_reducible (fail_if_success (show OutcomeLater _ _)); intro _)
    | with_reducible refine later_ite ?_ ?_
    | with_reducible refine later_raise ?_
    | with_reducible refine later_modDoor ?_
    | split

theorem later_tlDiscClear {s0 s : State} {t : TileId} (hs : State.Later s0 s) :
    State.Later s0 (s.tlDiscClear t) := by
  unfold State.tlDiscClear
  repeat' first
    | with_reducible assumption
    | ((try lift_lets -underBinder); intro x; first
        | (refine later_cut (s0 := s0) (x := x) ?_ ?_ <;> [unfold x; (intro hx; clear_value x)])
        | clear_value x)
    | intro _
    | with_reducible refine later_modDoor ?_

theorem outcomeLater_execTestPulseStart {s0 s : State} {t : TileId} {src : TestSource} (hs : State.Later s0 s) :
    OutcomeLater s0 (execTestPulseStart t src s) := by
  unfold execTestPulseStart
  repeat' first
    | with_reducible assumption
    | with_reducible refine outcomeLater_onTile ?_ ?_
    | with_reducible exact fun _ k => k
    | with_reducible exact fun _ _ => Bridge.noConfusion
    | with_reducible exact fun k => ⟨k, id, id, id⟩
    | with_reducible exact rfl
    | ((try lift_lets -underBinder); intro x; first
        | (refine later_cut (s0 := s0) (x := x) ?_ ?_ <;> [unfold x; (intro hx; clear_value x)])
        | clear_value x)
    | (with_reducible (fail_if_success (show OutcomeLater _ _)); intro _)
    | with_reducible refine later_ite ?_ ?_
    | with_reducible refine later_modField ?_ ?_ ?_

theorem outcomeLater_execTestPulseEnd {s0 s : State} {t : TileId} {src : TestSource} (hs : State.Later s0 s) :
    OutcomeLater s0 (execTestPulseEnd t src s) := by
  unfold execTestPulseEnd
  repeat' first
    | with_reducible assumption
    | with_reducible refine outcomeLater_onTile ?_ ?_
    | with_reducible exact fun _ k => k
    | with_reducible exact fun _ _ => Bridge.noConfusion
    | with_reducible exact fun k => ⟨k, id, id, id⟩
    | with_reducible exact rfl
    | (with_reducible (fail_if_success (show OutcomeLater _ _)); intro _)
    | with_reducible refine later_modField ?_ ?_ ?_

theorem later_pulseCheck {s0 s : State} {t : TileId} {src : TestSource} {pin : Fin 16} (hs : State.Later s0 s) :
    State.Later s0 (s.pulseCheck t src pin) := by
  unfold State.pulseCheck
  repeat' first
    | with_reducible assumption
    | ((try lift_lets -underBinder); intro x; first
        | (refine later_cut (s0 := s0) (x := x) ?_ ?_ <;> [unfold x; (intro hx; clear_value x)])
        | clear_value x)
    | intro _
    | with_reducible refine later_ite ?_ ?_
    | with_reducible refine later_edgeFaults ?_
    | with_reducible refine later_modIo ?_
    | with_reducible refine later_raiseField ?_

theorem kept_bitternEval {f : FieldDie} : FieldDie.Kept f f.bitternEval := by
  refine ⟨rfl, fun hf => ⟨hf, id, fun _ => ?_, id⟩⟩
  have hf : f.fallback = true := hf
  unfold FieldDie.bitternEval
  cases hb : f.bittern <;> simp [hf]

theorem kept_bitternProof {f : FieldDie} {ch : Fin 4} {on : Bool} : FieldDie.Kept f (f.bitternProof ch on) := by
  unfold FieldDie.bitternProof
  exact FieldDie.Kept.trans ⟨rfl, fun hf => ⟨hf, id, id, id⟩⟩ kept_bitternEval

theorem kept_ite {c : Prop} [Decidable c] {f g k : FieldDie} (h : FieldDie.Kept f g) (h' : FieldDie.Kept f k) :
    FieldDie.Kept f (if c then g else k) := by
  by_cases e : c
  · rw [if_pos e]; exact h
  · rw [if_neg e]; exact h'

theorem kept_foldl {α : Type} {F : FieldDie → α → FieldDie} {l : List α} {f : FieldDie} (h : ∀ g a, FieldDie.Kept g (F g a)) :
    FieldDie.Kept f (l.foldl F f) := by
  induction l generalizing f with
  | nil => exact FieldDie.Kept.refl f
  | cons a l ih => exact FieldDie.Kept.trans (h f a) ih

theorem kept_bitternPulse {f : FieldDie} {src : TestSource} {now : Nat} : FieldDie.Kept f (f.bitternPulse src now) := by
  unfold FieldDie.bitternPulse
  exact kept_foldl fun g _ => kept_ite (FieldDie.Kept.refl _) (kept_ite ⟨rfl, fun hf => ⟨hf, id, id, id⟩⟩
    (kept_ite (FieldDie.Kept.trans ⟨rfl, fun hf => ⟨hf, id, id, id⟩⟩ kept_bitternProof) (FieldDie.Kept.refl _)))

theorem outcomeLater_execBlankingWindowClose {s0 s : State} {t : TileId} {src : TestSource} (hs : State.Later s0 s) :
    OutcomeLater s0 (execBlankingWindowClose t src s) := by
  unfold execBlankingWindowClose
  repeat' first
    | with_reducible assumption
    | with_reducible refine outcomeLater_onTile ?_ ?_
    | with_reducible exact fun _ k => k
    | with_reducible exact fun _ _ => Bridge.noConfusion
    | with_reducible exact fun k => ⟨k, id, id, id⟩
    | with_reducible exact rfl
    | with_reducible refine later_modKept ?_ kept_bitternPulse
    | ((try lift_lets -underBinder); intro x; first
        | (refine later_cut (s0 := s0) (x := x) ?_ ?_ <;> [unfold x; (intro hx; clear_value x)])
        | clear_value x)
    | (with_reducible (fail_if_success (show OutcomeLater _ _)); intro _)
    | with_reducible refine later_ite ?_ ?_
    | with_reducible refine later_edgeLevel ?_
    | with_reducible refine later_pairsRefresh ?_
    | with_reducible refine later_pulseCheck ?_
    | with_reducible refine later_each ?_ ?_
    | with_reducible refine later_modField ?_ ?_ ?_

theorem later_sourceSet {s0 s : State} {t : TileId} {src : TestSource} {bad : Bool} (hs : State.Later s0 s) :
    State.Later s0 (s.sourceSet t src bad) := by
  unfold State.sourceSet
  repeat' first
    | with_reducible assumption
    | with_reducible exact fun _ k => k
    | with_reducible exact fun _ _ => Bridge.noConfusion
    | with_reducible exact fun k => ⟨k, id, id, id⟩
    | with_reducible exact rfl
    | ((try lift_lets -underBinder); intro x; first
        | (refine later_cut (s0 := s0) (x := x) ?_ ?_ <;> [unfold x; (intro hx; clear_value x)])
        | clear_value x)
    | intro _
    | with_reducible refine later_ite ?_ ?_
    | with_reducible refine later_edgeFaults ?_
    | with_reducible refine later_pairsRefresh ?_
    | with_reducible refine later_modField ?_ ?_ ?_

theorem outcomeLater_execTestSourceFault {s0 s : State} {t : TileId} {src : TestSource} (hs : State.Later s0 s) :
    OutcomeLater s0 (execTestSourceFault t src s) := by
  unfold execTestSourceFault
  repeat' first
    | with_reducible assumption
    | with_reducible refine outcomeLater_onTile ?_ ?_
    | (with_reducible (fail_if_success (show OutcomeLater _ _)); intro _)
    | with_reducible refine later_ite ?_ ?_
    | with_reducible refine later_sourceSet ?_

theorem outcomeLater_execTestSourceRetry {s0 s : State} {t : TileId} {src : TestSource} {holds : Bool} (hs : State.Later s0 s) :
    OutcomeLater s0 (execTestSourceRetry t src holds s) := by
  unfold execTestSourceRetry
  repeat' first
    | with_reducible assumption
    | with_reducible refine outcomeLater_onTile ?_ ?_
    | ((try lift_lets -underBinder); intro x; first
        | (refine later_cut (s0 := s0) (x := x) ?_ ?_ <;> [unfold x; (intro hx; clear_value x)])
        | clear_value x)
    | (with_reducible (fail_if_success (show OutcomeLater _ _)); intro _)
    | with_reducible refine later_ite ?_ ?_
    | with_reducible refine later_sourceSet ?_

theorem later_vioFalls {s0 s : State} {t : TileId} (hs : State.Later s0 s) :
    State.Later s0 (s.vioFalls t) := by
  unfold State.vioFalls
  repeat' first
    | with_reducible assumption
    | with_reducible exact fun _ k => k
    | with_reducible exact fun _ _ => Bridge.noConfusion
    | with_reducible exact fun k => ⟨k, id, id, id⟩
    | with_reducible exact rfl
    | ((try lift_lets -underBinder); intro x; first
        | (refine later_cut (s0 := s0) (x := x) ?_ ?_ <;> [unfold x; (intro hx; clear_value x)])
        | clear_value x)
    | intro _
    | with_reducible refine later_ite ?_ ?_
    | with_reducible refine later_raiseField ?_
    | with_reducible refine later_sourceSet ?_
    | with_reducible refine later_modField ?_ ?_ ?_

theorem later_vioReturns {s0 s : State} {t : TileId} (hs : State.Later s0 s) :
    State.Later s0 (s.vioReturns t) := by
  unfold State.vioReturns
  repeat' first
    | with_reducible assumption
    | with_reducible exact fun _ k => k
    | with_reducible exact fun _ _ => Bridge.noConfusion
    | with_reducible exact fun k => ⟨k, id, id, id⟩
    | with_reducible exact rfl
    | intro _
    | with_reducible refine later_ite ?_ ?_
    | with_reducible refine later_sourceSet ?_
    | with_reducible refine later_modField ?_ ?_ ?_

theorem outcomeLater_execVioLoss {s0 s : State} (hs : State.Later s0 s) :
    OutcomeLater s0 (execVioLoss s) := by
  unfold execVioLoss
  repeat' first
    | with_reducible assumption
    | with_reducible refine outcomeLater_onHead ?_ ?_
    | (with_reducible (fail_if_success (show OutcomeLater _ _)); intro _)
    | with_reducible refine later_vioFalls ?_
    | with_reducible refine later_each ?_ ?_

theorem outcomeLater_execVioRecovery {s0 s : State} (hs : State.Later s0 s) :
    OutcomeLater s0 (execVioRecovery s) := by
  unfold execVioRecovery
  repeat' first
    | with_reducible assumption
    | with_reducible refine outcomeLater_onHead ?_ ?_
    | (with_reducible (fail_if_success (show OutcomeLater _ _)); intro _)
    | with_reducible refine later_vioReturns ?_
    | with_reducible refine later_each ?_ ?_

theorem outcomeLater_execIoSet {s0 s : State} {h : HostCmd} {mask : BitVec 16} {levels : BitVec 16} (hs : State.Later s0 s) :
    OutcomeLater s0 (execIoSet h mask levels s) := by
  unfold execIoSet
  repeat' first
    | with_reducible assumption
    | with_reducible refine outcomeLater_onCmd ?_ ?_
    | ((try lift_lets -underBinder); intro x; first
        | (refine later_cut (s0 := s0) (x := x) ?_ ?_ <;> [unfold x; (intro hx; clear_value x)])
        | clear_value x)
    | (with_reducible (fail_if_success (show OutcomeLater _ _)); intro _)
    | with_reducible refine later_ite ?_ ?_
    | with_reducible refine later_complete ?_
    | with_reducible refine later_holdBack ?_
    | with_reducible refine later_modLink ?_

theorem outcomeLater_execIoSetClear {s0 s : State} {h : HostCmd} {mask : BitVec 16} {levels : BitVec 16} (hs : State.Later s0 s) :
    OutcomeLater s0 (execIoSetClear h mask levels s) := by
  unfold execIoSetClear
  repeat' first
    | with_reducible assumption
    | with_reducible refine outcomeLater_onCmd ?_ ?_
    | (with_reducible (fail_if_success (show OutcomeLater _ _)); intro _)
    | with_reducible refine later_ite ?_ ?_
    | with_reducible refine later_complete ?_
    | with_reducible refine later_holdBack ?_
    | with_reducible refine later_modLink ?_

theorem later_ioClearNow {s0 s : State} {t : TileId} {mask : BitVec 16} (hs : State.Later s0 s) :
    State.Later s0 (s.ioClearNow t mask) := by
  unfold State.ioClearNow
  repeat' first
    | with_reducible assumption
    | intro _
    | with_reducible refine later_ite ?_ ?_
    | with_reducible refine later_modIo ?_
    | with_reducible refine later_each ?_ ?_
    | split

theorem outcomeLater_execIoRead {s0 s : State} {h : HostCmd} {addr : BitVec 64} (hs : State.Later s0 s) :
    OutcomeLater s0 (execIoRead h addr s) := by
  unfold execIoRead
  repeat' first
    | with_reducible assumption
    | with_reducible refine outcomeLater_onCmd ?_ ?_
    | (with_reducible (fail_if_success (show OutcomeLater _ _)); intro _)
    | with_reducible refine later_dite ?_ ?_
    | with_reducible refine later_ite ?_ ?_
    | with_reducible refine later_complete ?_
    | with_reducible refine later_dma ?_

end Sys2Proof.Machine
end

