-- ==== Sys2Proof/Laws/LaterInterlock.lean ====
section
/-!
SUPPORT. What no command takes back, for every operation and meaning of Machine/Interlock.lean.
-/

namespace Sys2Proof.Machine

theorem outcomeLater_execSraReadbackDisagreement {s0 s : State} {t : TileId} (hs : State.Later s0 s) :
    OutcomeLater s0 (execSraReadbackDisagreement t s) := by
  unfold execSraReadbackDisagreement
  repeat' first
    | with_reducible assumption
    | with_reducible refine outcomeLater_onTile ?_ ?_
    | (with_reducible (fail_if_success (show OutcomeLater _ _)); intro _)
    | with_reducible refine later_ite ?_ ?_
    | with_reducible refine later_modDoor ?_

theorem outcomeLater_execBitternChannelProven {s0 s : State} {t : TileId} {ch : Fin 4} (hs : State.Later s0 s) :
    OutcomeLater s0 (execBitternChannelProven t ch s) := by
  unfold execBitternChannelProven
  repeat' first
    | with_reducible assumption
    | with_reducible refine outcomeLater_onTile ?_ ?_
    | with_reducible exact fun _ k => k
    | with_reducible exact fun _ _ => Bridge.noConfusion
    | with_reducible exact fun k => ⟨k, id, id, id⟩
    | with_reducible exact rfl
    | with_reducible refine later_modKept ?_ ?_
    | exact kept_ite kept_bitternProof (FieldDie.Kept.refl _)
    | (with_reducible (fail_if_success (show OutcomeLater _ _)); intro _)
    | with_reducible refine later_ite ?_ ?_
    | with_reducible refine later_modField ?_ ?_ ?_

theorem outcomeLater_execBitternChannelUnproven {s0 s : State} {t : TileId} {ch : Fin 4} (hs : State.Later s0 s) :
    OutcomeLater s0 (execBitternChannelUnproven t ch s) := by
  unfold execBitternChannelUnproven
  repeat' first
    | with_reducible assumption
    | with_reducible refine outcomeLater_onTile ?_ ?_
    | with_reducible exact fun _ k => k
    | with_reducible exact fun _ _ => Bridge.noConfusion
    | with_reducible exact fun k => ⟨k, id, id, id⟩
    | with_reducible exact rfl
    | with_reducible refine later_modKept ?_ ?_
    | exact kept_ite (FieldDie.Kept.refl _) kept_bitternProof
    | (with_reducible (fail_if_success (show OutcomeLater _ _)); intro _)
    | with_reducible refine later_ite ?_ ?_
    | with_reducible refine later_modField ?_ ?_ ?_

theorem outcomeLater_execBitternPulseAgeExpiry {s0 s : State} {t : TileId} {ch : Fin 4} (hs : State.Later s0 s) :
    OutcomeLater s0 (execBitternPulseAgeExpiry t ch s) := by
  unfold execBitternPulseAgeExpiry
  repeat' first
    | with_reducible assumption
    | with_reducible refine outcomeLater_onTile ?_ ?_
    | with_reducible exact fun _ k => k
    | with_reducible exact fun _ _ => Bridge.noConfusion
    | with_reducible exact fun k => ⟨k, id, id, id⟩
    | with_reducible exact rfl
    | with_reducible refine later_modKept ?_ ?_
    | exact kept_bitternProof
    | (with_reducible (fail_if_success (show OutcomeLater _ _)); intro _)
    | with_reducible refine later_modField ?_ ?_ ?_

theorem kept_bitternFault {f : FieldDie} : FieldDie.Kept f f.bitternFault := ⟨rfl, fun hf => ⟨hf, id, fun _ => rfl, id⟩⟩

theorem outcomeLater_execBitternPeriodicCheck {s0 s : State} {t : TileId} {oscOk : Bool} {configOk : Bool} (hs : State.Later s0 s) :
    OutcomeLater s0 (execBitternPeriodicCheck t oscOk configOk s) := by
  unfold execBitternPeriodicCheck
  repeat' first
    | with_reducible assumption
    | with_reducible refine outcomeLater_onTile ?_ ?_
    | with_reducible exact fun _ k => k
    | with_reducible exact fun _ _ => Bridge.noConfusion
    | with_reducible exact fun k => ⟨k, id, id, id⟩
    | with_reducible exact rfl
    | with_reducible refine later_modKept ?_ ?_
    | exact kept_ite (FieldDie.Kept.refl _) kept_bitternFault
    | (with_reducible (fail_if_success (show OutcomeLater _ _)); intro _)
    | with_reducible refine later_ite ?_ ?_
    | with_reducible refine later_modField ?_ ?_ ?_

theorem outcomeLater_execBitternReadbackFault {s0 s : State} {level : TileId × Bool} (hs : State.Later s0 s) :
    OutcomeLater s0 (execBitternReadbackFault level s) := by
  unfold execBitternReadbackFault
  repeat' first
    | with_reducible assumption
    | with_reducible refine outcomeLater_onTile ?_ ?_
    | with_reducible exact fun _ k => k
    | with_reducible exact fun _ _ => Bridge.noConfusion
    | with_reducible exact fun k => ⟨k, id, id, id⟩
    | with_reducible exact rfl
    | with_reducible refine later_modKept ?_ ?_
    | exact kept_ite (FieldDie.Kept.refl _) kept_bitternFault
    | (with_reducible (fail_if_success (show OutcomeLater _ _)); intro _)
    | with_reducible refine later_ite ?_ ?_
    | with_reducible refine later_modField ?_ ?_ ?_

theorem outcomeLater_execBitternProofDisagreement {s0 s : State} {t : TileId} (hs : State.Later s0 s) :
    OutcomeLater s0 (execBitternProofDisagreement t s) := by
  unfold execBitternProofDisagreement
  repeat' first
    | with_reducible assumption
    | with_reducible refine outcomeLater_onTile ?_ ?_
    | (with_reducible (fail_if_success (show OutcomeLater _ _)); intro _)
    | with_reducible refine later_ite ?_ ?_
    | with_reducible refine later_modDoor ?_

theorem outcomeLater_execSealDebounceExpiry {s0 s : State} {n : Fin 16} {level : Bool} (hs : State.Later s0 s) :
    OutcomeLater s0 (execSealDebounceExpiry n level s) := by
  unfold execSealDebounceExpiry
  repeat' first
    | with_reducible assumption
    | with_reducible refine outcomeLater_onHead ?_ ?_
    | with_reducible exact Nat.le_refl _
    | with_reducible exact Nat.le_succ _
    | with_reducible exact rfl
    | ((try lift_lets -underBinder); intro x; first
        | (refine later_cut (s0 := s0) (x := x) ?_ ?_ <;> [unfold x; (intro hx; clear_value x)])
        | clear_value x)
    | (with_reducible (fail_if_success (show OutcomeLater _ _)); intro _)
    | with_reducible refine later_ite ?_ ?_
    | with_reducible refine later_modHead ?_ ?_ ?_

theorem outcomeLater_execProofAgeExpiry {s0 s : State} {t : TileId} (hs : State.Later s0 s) :
    OutcomeLater s0 (execProofAgeExpiry t s) := by
  unfold execProofAgeExpiry
  repeat' first
    | with_reducible assumption
    | with_reducible refine outcomeLater_onTile ?_ ?_
    | (with_reducible (fail_if_success (show OutcomeLater _ _)); intro _)
    | with_reducible refine later_modDoor ?_

theorem later_resetReject {s0 s : State} {row : Nat} (hs : State.Later s0 s) :
    State.Later s0 (s.resetReject row) := by
  unfold State.resetReject
  repeat' first
    | with_reducible assumption
    | with_reducible exact Nat.le_refl _
    | with_reducible exact Nat.le_succ _
    | with_reducible exact rfl
    | with_reducible exact later_modHead ‹_› rfl (Nat.le_refl _)
    | exact later_modHead ‹State.Later _ _› rfl (Nat.le_refl _)
    | intro _
    | with_reducible refine later_raiseHead ?_
    | with_reducible refine later_modHead ?_ ?_ ?_

theorem later_resetStuck {s0 s : State} {powerOn : Bool} (hs : State.Later s0 s) :
    State.Later s0 (s.resetStuck powerOn) := by
  unfold State.resetStuck
  repeat' first
    | with_reducible assumption
    | with_reducible exact Nat.le_refl _
    | with_reducible exact Nat.le_succ _
    | with_reducible exact rfl
    | with_reducible exact later_modHead ‹_› rfl (Nat.le_refl _)
    | exact later_modHead ‹State.Later _ _› rfl (Nat.le_refl _)
    | ((try lift_lets -underBinder); intro x; first
        | (refine later_cut (s0 := s0) (x := x) ?_ ?_ <;> [unfold x; (intro hx; clear_value x)])
        | clear_value x)
    | intro _
    | with_reducible refine later_raiseHead ?_
    | with_reducible refine later_modHead ?_ ?_ ?_

theorem later_resetAccept {s0 s : State} (hs : State.Later s0 s) :
    State.Later s0 s.resetAccept := by
  unfold State.resetAccept
  repeat' first
    | with_reducible assumption
    | with_reducible exact Nat.le_refl _
    | with_reducible exact Nat.le_succ _
    | with_reducible exact rfl
    | with_reducible exact later_modHead ‹_› rfl (Nat.le_refl _)
    | exact later_modHead ‹State.Later _ _› rfl (Nat.le_refl _)
    | ((try lift_lets -underBinder); intro x; first
        | (refine later_cut (s0 := s0) (x := x) ?_ ?_ <;> [unfold x; (intro hx; clear_value x)])
        | clear_value x)
    | intro _
    | with_reducible refine later_evaluate ?_
    | with_reducible refine later_raiseHead ?_
    | with_reducible refine later_each ?_ ?_
    | with_reducible refine later_modDoor ?_
    | with_reducible refine later_modHead ?_ ?_ ?_

theorem setRes_serial {h : Head} {r : ResumeId} {v : Resume} : (h.setRes r v).serial = h.serial := by cases r <;> rfl

theorem setRes_time {h : Head} {r : ResumeId} {v : Resume} : (h.setRes r v).time = h.time := by cases r <;> rfl

theorem later_setRes {s0 s : State} {r : ResumeId} {v : Head → Resume} (hs : State.Later s0 s) :
    State.Later s0 (s.modHead fun h => h.setRes r (v h)) :=
  later_modHead hs setRes_serial (by rw [setRes_time])

theorem later_setResAttempt {s0 s : State} {r : ResumeId} {v : Head → Resume} (hs : State.Later s0 s) :
    State.Later s0 (s.modHead fun h => { h.setRes r (v h) with attempt := true }) :=
  later_modHead hs setRes_serial (Nat.le_of_eq (by show _ = (Head.setRes _ r _).time.local_; rw [setRes_time]))

theorem later_resumeRise {s0 s : State} {r : ResumeId} (hs : State.Later s0 s) :
    State.Later s0 (s.resumeRise r) := by
  unfold State.resumeRise
  repeat' first
    | with_reducible assumption
    | with_reducible exact Nat.le_refl _
    | with_reducible exact Nat.le_succ _
    | with_reducible exact rfl
    | with_reducible refine later_setRes ?_
    | with_reducible refine later_setResAttempt ?_
    | ((try lift_lets -underBinder); intro x; first
        | (refine later_cut (s0 := s0) (x := x) ?_ ?_ <;> [unfold x; (intro hx; clear_value x)])
        | (have _ := (x : State → _); unfold x; try dsimp only)
        | (have _ := (x : _ → State); unfold x; try dsimp only)
        | (have _ := (x : _ → State → _); unfold x; try dsimp only)
        | clear_value x)
    | intro _
    | with_reducible refine later_ite ?_ ?_
    | with_reducible refine later_resetReject ?_
    | with_reducible refine later_resetStuck ?_
    | with_reducible refine later_modHead ?_ ?_ ?_
    | split

theorem later_resumeFall {s0 s : State} {r : ResumeId} (hs : State.Later s0 s) :
    State.Later s0 (s.resumeFall r) := by
  unfold State.resumeFall
  repeat' first
    | with_reducible assumption
    | with_reducible exact Nat.le_refl _
    | with_reducible exact Nat.le_succ _
    | with_reducible exact rfl
    | with_reducible refine later_setRes ?_
    | with_reducible refine later_setResAttempt ?_
    | ((try lift_lets -underBinder); intro x; first
        | (refine later_cut (s0 := s0) (x := x) ?_ ?_ <;> [unfold x; (intro hx; clear_value x)])
        | clear_value x)
    | intro _
    | with_reducible refine later_ite ?_ ?_
    | with_reducible refine later_resetAccept ?_
    | with_reducible refine later_resetReject ?_
    | with_reducible refine later_modHead ?_ ?_ ?_
    | split

theorem outcomeLater_execResumeDebounceExpiry {s0 s : State} {r : ResumeId} {level : Bool} {now : Nat} (hs : State.Later s0 s) :
    OutcomeLater s0 (execResumeDebounceExpiry r level now s) := by
  unfold execResumeDebounceExpiry
  repeat' first
    | with_reducible assumption
    | with_reducible refine outcomeLater_onHead ?_ ?_
    | ((try lift_lets -underBinder); intro x; first
        | (refine later_cut (s0 := s0) (x := x) ?_ ?_ <;> [unfold x; (intro hx; clear_value x)])
        | clear_value x)
    | (with_reducible (fail_if_success (show OutcomeLater _ _)); intro _)
    | with_reducible refine later_ite ?_ ?_
    | with_reducible refine later_resumeFall ?_
    | with_reducible refine later_resumeRise ?_
    | with_reducible refine later_at ?_

theorem outcomeLater_execResumeHighTimeout {s0 s : State} {r : ResumeId} (hs : State.Later s0 s) :
    OutcomeLater s0 (execResumeHighTimeout r s) := by
  unfold execResumeHighTimeout
  repeat' first
    | with_reducible assumption
    | with_reducible refine outcomeLater_onHead ?_ ?_
    | (with_reducible (fail_if_success (show OutcomeLater _ _)); intro _)
    | with_reducible refine later_ite ?_ ?_
    | with_reducible refine later_resetReject ?_
    | with_reducible refine later_resetStuck ?_

theorem outcomeLater_execStuckResetClear {s0 s : State} (hs : State.Later s0 s) :
    OutcomeLater s0 (execStuckResetClear s) := by
  unfold execStuckResetClear
  repeat' first
    | with_reducible assumption
    | with_reducible refine outcomeLater_onHead ?_ ?_
    | with_reducible exact Nat.le_refl _
    | with_reducible exact Nat.le_succ _
    | with_reducible exact rfl
    | (with_reducible (fail_if_success (show OutcomeLater _ _)); intro _)
    | with_reducible refine later_ite ?_ ?_
    | with_reducible refine later_modHead ?_ ?_ ?_

end Sys2Proof.Machine
end

