-- ==== Sys2Proof/Laws/LaterFieldLink.lean ====
section
/-!
SUPPORT. What no command takes back, for every operation and meaning of Machine/FieldLink.lean.
-/

namespace Sys2Proof.Machine

theorem outcomeLater_execKeepAliveWord {s0 s : State} {t : TileId} (hs : State.Later s0 s) :
    OutcomeLater s0 (execKeepAliveWord t s) := by
  unfold execKeepAliveWord
  repeat' first
    | with_reducible assumption
    | with_reducible refine outcomeLater_onTile ?_ ?_
    | with_reducible exact fun _ k => k
    | with_reducible exact fun _ _ => Bridge.noConfusion
    | with_reducible exact fun k => ⟨k, id, id, id⟩
    | with_reducible exact Nat.le_refl _
    | with_reducible exact Nat.le_succ _
    | ((try lift_lets -underBinder); intro x; first
        | (refine later_cut (s0 := s0) (x := x) ?_ ?_ <;> [unfold x; (intro hx; clear_value x)])
        | clear_value x)
    | (with_reducible (fail_if_success (show OutcomeLater _ _)); intro _)
    | with_reducible refine later_ite ?_ ?_
    | with_reducible refine later_holdBack ?_
    | with_reducible refine later_modDie ?_ ?_ ?_
    | with_reducible refine later_modLink ?_

theorem bitternEval_open {f : FieldDie} (h : f.fallback = true) : f.bitternEval.srb = false := by
  unfold FieldDie.bitternEval
  cases f.bittern <;> simp [h]

/-- A refresh under the fallback image leaves LS0 off (R161). -/
theorem lsRefresh_fallback {s0 s : State} {t : TileId} {restart : Bool} {f : Tile → Tile} (hs : State.Later s0 s)
    (h : Tile.Later (s.tile t) { f (s.tile t) with field := { (f (s.tile t)).field with fallback := false } })
    (hf : (f (s.tile t)).field.fallback = true) (ha : (f (s.tile t)).field.sra = false) (hb : (f (s.tile t)).field.srb = false)
    (hx : ∀ a, ((f (s.tile t)).ax.get a).mo.bridge ≠ .driven) :
    State.Later s0 ((s.modTile t f).lsRefresh t restart) := by
  obtain ⟨ls, e, k⟩ := lsRefresh_shape (s.modTile t f) t restart
  rw [State.tile_modTile_self] at k
  rw [e, State.modField, State.modTile_modTile]
  refine later_modTile hs ⟨h.key, h.counter, h.images, h.slots, h.seq, fun _ _ => ⟨ha, hb, ?_, hx⟩⟩
  refine Eq.trans k ?_
  unfold Tile.lsOn
  simp [hf]

theorem later_applyFallback {s0 s : State} {t : TileId} (hs : State.Later s0 s) :
    State.Later s0 (s.applyFallback t) := by
  have e : ∀ (s : State) (g : Motion → Bridge),
      (s.each AxisId.all fun s a => s.modMo t a fun m => { m with bridge := g m, freeDelay := false }) =
      s.modTile t fun tl => { tl with ax := ⟨{ tl.ax.a with mo := { tl.ax.a.mo with bridge := g tl.ax.a.mo, freeDelay := false } },
        { tl.ax.b with mo := { tl.ax.b.mo with bridge := g tl.ax.b.mo, freeDelay := false } },
        { tl.ax.c with mo := { tl.ax.c.mo with bridge := g tl.ax.c.mo, freeDelay := false } }⟩ } := by
    intro s g; cases t <;> rfl
  have hb : ∀ b : Bridge, (if b == .driven then Bridge.brake else b) ≠ .driven := by
    intro b; cases b <;> decide
  unfold State.applyFallback
  dsimp only
  rw [e _ (fun m => if m.bridge == .driven then .brake else m.bridge), State.modField, State.modTile_modTile]
  refine lsRefresh_fallback hs ⟨fun _ h => h, Nat.le_refl _, List.prefix_refl _, id, Nat.le_refl _, fun _ h => ?_⟩ rfl rfl
    (bitternEval_open rfl) (fun a => ?_)
  · cases h
  · cases a <;> exact hb _

theorem later_watchdogOut {s0 s : State} {t : TileId} (hs : State.Later s0 s) :
    State.Later s0 (s.watchdogOut t) := by
  unfold State.watchdogOut
  repeat' first
    | with_reducible assumption
    | with_reducible exact fun _ k => k
    | with_reducible exact fun _ _ => Bridge.noConfusion
    | with_reducible exact fun k => ⟨k, id, id, id⟩
    | with_reducible exact rfl
    | intro _
    | with_reducible refine later_ite ?_ ?_
    | with_reducible refine later_applyFallback ?_
    | with_reducible refine later_modField ?_ ?_ ?_

theorem outcomeLater_execSerialWatchdogExpiry {s0 s : State} {t : TileId} (hs : State.Later s0 s) :
    OutcomeLater s0 (execSerialWatchdogExpiry t s) := by
  unfold execSerialWatchdogExpiry
  repeat' first
    | with_reducible assumption
    | with_reducible refine outcomeLater_onTile ?_ ?_
    | (with_reducible (fail_if_success (show OutcomeLater _ _)); intro _)
    | with_reducible refine later_watchdogOut ?_

theorem later_downEdge {s0 s : State} {t : TileId} {a : AxisId} {en : Bool} (hs : State.Later s0 s) :
    State.Later s0 (s.downEdge t a en) := by
  unfold State.downEdge
  repeat' first
    | with_reducible assumption
    | intro _
    | with_reducible refine later_edgeLevel ?_
    | with_reducible refine later_modFab ?_

@[simp] theorem State.field_modLink (s : State) (t u : TileId) (f : Link → Link) :
    ((s.modLink t f).tile u).field = (s.tile u).field := by cases t <;> cases u <;> rfl

theorem later_downClear {s0 s : State} {t : TileId} {a : AxisId} (hs : State.Later s0 s) :
    State.Later s0 (s.downClear t a) := by
  unfold State.downClear
  dsimp only
  refine later_ite (fun _ => hs) (fun _ => later_ite (fun _ => later_ite
    (fun _ => later_refuseMove (later_brakeAxis (later_modLink hs))) (fun _ => later_modLink hs)) (fun _ => ?_))
  refine later_modAxis (later_modLink hs) (fun hf hk => ?_)
  rw [State.field_modLink] at hf
  dsimp only
  rw [hf]
  simp only [Bool.not_true, Bool.and_false, Bool.false_eq_true, if_false]
  exact hk

theorem later_proofForce {s0 s : State} {t : TileId} {fr : DownFrame} {a : AxisId} (hs : State.Later s0 s) :
    State.Later s0 (s.proofForce t fr a) := by
  unfold State.proofForce
  repeat' first
    | with_reducible assumption
    | ((try lift_lets -underBinder); intro x; first
        | (refine later_cut (s0 := s0) (x := x) ?_ ?_ <;> [unfold x; (intro hx; clear_value x)])
        | clear_value x)
    | intro _
    | with_reducible refine later_pathForced ?_

theorem later_downForce {s0 s : State} {t : TileId} {fr : DownFrame} (hs : State.Later s0 s) :
    State.Later s0 (s.downForce t fr) := by
  unfold State.downForce
  repeat' first
    | with_reducible assumption
    | with_reducible exact fun _ k => k
    | with_reducible exact fun _ _ => Bridge.noConfusion
    | with_reducible exact fun k => ⟨k, id, id, id⟩
    | with_reducible exact rfl
    | ((try lift_lets -underBinder); intro x; first
        | (refine later_cut (s0 := s0) (x := x) ?_ ?_ <;> [unfold x; (intro hx; clear_value x)])
        | clear_value x)
    | intro _
    | with_reducible refine later_ite ?_ ?_
    | with_reducible refine later_proofForce ?_
    | with_reducible refine later_each ?_ ?_
    | with_reducible refine later_modField ?_ ?_ ?_

theorem later_downOutputs {s0 s : State} {t : TileId} {fr : DownFrame} (hs : State.Later s0 s) :
    State.Later s0 (s.downOutputs t fr) := by
  unfold State.downOutputs
  refine later_lsCheckStart (later_ioClearNow (later_lsClearNow (later_lsRefresh (later_modKept hs ?_))))
  dsimp only
  refine FieldDie.Kept.trans ?_ kept_bitternEval
  refine ⟨rfl, fun hf => ?_⟩
  dsimp only at hf
  refine ⟨(Bool.and_eq_true_iff.mp hf).1, fun _ => ?_, id, id⟩
  dsimp only
  rw [hf]
  simp

theorem kept_configPart {f : FieldDie} {i : Nat} {part : List Byte} : FieldDie.Kept f (f.configPart i part) := by
  unfold FieldDie.configPart
  exact kept_ite (FieldDie.Kept.refl _) (kept_ite (FieldDie.Kept.trans ⟨rfl, fun hf => ⟨hf, id, id, id⟩⟩ kept_bitternEval)
    ⟨rfl, fun hf => ⟨hf, id, id, id⟩⟩)

theorem kept_keepAlive {f : FieldDie} {w : KaWord} : FieldDie.Kept f (f.keepAlive w) := by
  unfold FieldDie.keepAlive
  exact kept_ite ⟨rfl, fun hf => ⟨hf, id, id, id⟩⟩ (FieldDie.Kept.refl _)

theorem later_downApply {s0 s : State} {t : TileId} {fr : DownFrame} (hs : State.Later s0 s) :
    State.Later s0 (s.downApply t fr) := by
  unfold State.downApply
  repeat' first
    | with_reducible assumption
    | with_reducible exact fun _ k => k
    | with_reducible exact fun _ _ => Bridge.noConfusion
    | with_reducible exact fun k => ⟨k, id, id, id⟩
    | with_reducible exact rfl
    | with_reducible refine later_modKept ?_ kept_keepAlive
    | with_reducible refine later_modKept ?_ kept_configPart
    | ((try lift_lets -underBinder); intro x; first
        | (refine later_cut (s0 := s0) (x := x) ?_ ?_ <;> [unfold x; (intro hx; clear_value x)])
        | clear_value x)
    | intro _
    | with_reducible refine later_downClear ?_
    | with_reducible refine later_downEdge ?_
    | with_reducible refine later_downForce ?_
    | with_reducible refine later_downOutputs ?_
    | with_reducible refine later_each ?_ ?_
    | with_reducible refine later_modField ?_ ?_ ?_
    | split

theorem later_downFrameSent {s0 s : State} {t : TileId} (hs : State.Later s0 s) :
    State.Later s0 (s.downFrameSent t) := by
  unfold State.downFrameSent
  repeat' first
    | with_reducible assumption
    | intro _
    | with_reducible refine later_downApply ?_
    | with_reducible refine later_modLink ?_

theorem later_writeConfig {s0 s : State} {t : TileId} (hs : State.Later s0 s) :
    State.Later s0 (s.writeConfig t) := by
  unfold State.writeConfig
  repeat' first
    | with_reducible assumption
    | intro _
    | with_reducible refine later_ite ?_ ?_
    | with_reducible refine later_downFrameSent ?_
    | with_reducible refine later_each ?_ ?_
    | with_reducible refine later_modLink ?_

theorem outcomeLater_execFieldLinkDownFrame {s0 s : State} {t : TileId} {intact : Bool} (hs : State.Later s0 s) :
    OutcomeLater s0 (execFieldLinkDownFrame t intact s) := by
  unfold execFieldLinkDownFrame
  repeat' first
    | with_reducible assumption
    | with_reducible refine outcomeLater_onTile ?_ ?_
    | with_reducible refine later_modKept ?_ kept_keepAlive
    | ((try lift_lets -underBinder); intro x; first
        | (refine later_cut (s0 := s0) (x := x) ?_ ?_ <;> [unfold x; (intro hx; clear_value x)])
        | clear_value x)
    | (with_reducible (fail_if_success (show OutcomeLater _ _)); intro _)
    | with_reducible refine later_ite ?_ ?_
    | with_reducible refine later_downFrameSent ?_
    | with_reducible refine later_modLink ?_

theorem later_upEffects {s0 s : State} {t : TileId} (hs : State.Later s0 s) :
    State.Later s0 (s.upEffects t) := by
  unfold State.upEffects
  repeat' first
    | with_reducible assumption
    | ((try lift_lets -underBinder); intro x; first
        | (refine later_cut (s0 := s0) (x := x) ?_ ?_ <;> [unfold x; (intro hx; clear_value x)])
        | clear_value x)
    | intro _
    | with_reducible refine later_tlDiscClear ?_
    | with_reducible refine later_modDoor ?_
    | with_reducible refine later_modLink ?_

theorem later_proofCheck {s0 s : State} {t : TileId} (hs : State.Later s0 s) :
    State.Later s0 (s.proofCheck t) := by
  unfold State.proofCheck
  repeat' first
    | with_reducible assumption
    | with_reducible exact fun _ k => k
    | with_reducible exact fun _ _ => Bridge.noConfusion
    | with_reducible exact fun k => ⟨k, id, id, id⟩
    | ((with_reducible refine fun (hf : _ = true) (hk : _ ≠ Bridge.driven) => ?_); dsimp only; (repeat' split) <;> first | exact hk | exact Bridge.noConfusion | (simp_all; done))
    | ((try lift_lets -underBinder); intro x; first
        | (refine later_cut (s0 := s0) (x := x) ?_ ?_ <;> [unfold x; (intro hx; clear_value x)])
        | clear_value x)
    | intro _
    | with_reducible refine later_ite ?_ ?_
    | with_reducible refine later_releasePair ?_
    | with_reducible refine later_each ?_ ?_
    | with_reducible refine later_modDoor ?_
    | with_reducible refine later_modMo ?_ ?_

theorem outcomeLater_execFieldLinkUpFrame {s0 s : State} {t : TileId} {intact : Bool} {obs : UpObs} (hs : State.Later s0 s) :
    OutcomeLater s0 (execFieldLinkUpFrame t intact obs s) := by
  unfold execFieldLinkUpFrame
  repeat' first
    | with_reducible assumption
    | with_reducible refine outcomeLater_onTile ?_ ?_
    | (with_reducible (fail_if_success (show OutcomeLater _ _)); intro _)
    | with_reducible refine later_ite ?_ ?_
    | with_reducible refine later_proofCheck ?_
    | with_reducible refine later_upEffects ?_
    | with_reducible refine later_modLink ?_

theorem outcomeLater_execFieldLinkFault {s0 s : State} {t : TileId} (hs : State.Later s0 s) :
    OutcomeLater s0 (execFieldLinkFault t s) := by
  unfold execFieldLinkFault
  repeat' first
    | with_reducible assumption
    | with_reducible refine outcomeLater_onTile ?_ ?_
    | ((try lift_lets -underBinder); intro x; first
        | (refine later_cut (s0 := s0) (x := x) ?_ ?_ <;> [unfold x; (intro hx; clear_value x)])
        | clear_value x)
    | (with_reducible (fail_if_success (show OutcomeLater _ _)); intro _)
    | with_reducible refine later_ite ?_ ?_
    | with_reducible refine later_evaluate ?_
    | with_reducible refine later_latchFault ?_
    | with_reducible refine later_triadTrip ?_
    | with_reducible refine later_each ?_ ?_
    | with_reducible refine later_modLink ?_

theorem outcomeLater_execSvcHeartbeat {s0 s : State} {t : TileId} (hs : State.Later s0 s) :
    OutcomeLater s0 (execSvcHeartbeat t s) := by
  unfold execSvcHeartbeat
  repeat' first
    | with_reducible assumption
    | with_reducible refine outcomeLater_onTile ?_ ?_
    | with_reducible exact fun _ k => k
    | with_reducible exact fun _ _ => Bridge.noConfusion
    | with_reducible exact fun k => ⟨k, id, id, id⟩
    | with_reducible exact Nat.le_refl _
    | with_reducible exact Nat.le_succ _
    | (with_reducible (fail_if_success (show OutcomeLater _ _)); intro _)
    | with_reducible refine later_modDie ?_ ?_ ?_

theorem outcomeLater_execSvcHeartbeatMissed {s0 s : State} {t : TileId} {now : Nat} (hs : State.Later s0 s) :
    OutcomeLater s0 (execSvcHeartbeatMissed t now s) := by
  unfold execSvcHeartbeatMissed
  repeat' first
    | with_reducible assumption
    | with_reducible refine outcomeLater_onTile ?_ ?_
    | with_reducible exact fun _ k => k
    | with_reducible exact fun _ _ => Bridge.noConfusion
    | with_reducible exact fun k => ⟨k, id, id, id⟩
    | with_reducible exact Nat.le_refl _
    | with_reducible exact Nat.le_succ _
    | ((try lift_lets -underBinder); intro x; first
        | (refine later_cut (s0 := s0) (x := x) ?_ ?_ <;> [unfold x; (intro hx; clear_value x)])
        | clear_value x)
    | (with_reducible (fail_if_success (show OutcomeLater _ _)); intro _)
    | with_reducible refine later_ite ?_ ?_
    | with_reducible refine later_loseCommands ?_
    | with_reducible refine later_raise ?_
    | with_reducible refine later_at ?_
    | with_reducible refine later_modDie ?_ ?_ ?_

theorem later_writeHeld {s0 s : State} {t : TileId} {e : Nat × Source × List Byte} (hs : State.Later s0 s) :
    State.Later s0 (s.writeHeld t e) := by
  unfold State.writeHeld
  repeat' first
    | with_reducible assumption
    | with_reducible exact fun _ k => k
    | with_reducible exact fun _ _ => Bridge.noConfusion
    | with_reducible exact fun k => ⟨k, id, id, id⟩
    | with_reducible exact Nat.le_refl _
    | with_reducible exact Nat.le_succ _
    | ((try lift_lets -underBinder); intro x; first
        | (refine later_cut (s0 := s0) (x := x) ?_ ?_ <;> [unfold x; (intro hx; clear_value x)])
        | clear_value x)
    | intro _
    | with_reducible refine later_ite ?_ ?_
    | with_reducible refine later_closeEvents ?_
    | with_reducible refine later_peatPut ?_
    | with_reducible refine later_modPeat ?_ ?_

theorem later_writeAllHeld {s0 s : State} {t : TileId} (hs : State.Later s0 s) :
    State.Later s0 (s.writeAllHeld t) := by
  unfold State.writeAllHeld
  repeat' first
    | with_reducible assumption
    | with_reducible exact fun _ k => k
    | with_reducible exact fun _ _ => Bridge.noConfusion
    | with_reducible exact fun k => ⟨k, id, id, id⟩
    | with_reducible exact Nat.le_refl _
    | with_reducible exact Nat.le_succ _
    | ((try lift_lets -underBinder); intro x; first
        | (refine later_cut (s0 := s0) (x := x) ?_ ?_ <;> [unfold x; (intro hx; clear_value x)])
        | clear_value x)
    | intro _
    | with_reducible refine later_ite ?_ ?_
    | with_reducible refine later_closeEvents ?_
    | with_reducible refine later_peatRoom ?_
    | with_reducible refine later_peatStore ?_
    | with_reducible refine later_writeHeld ?_
    | with_reducible refine later_each ?_ ?_
    | with_reducible refine later_modPeat ?_ ?_

theorem outcomeLater_execSvcReturn {s0 s : State} {t : TileId} (hs : State.Later s0 s) :
    OutcomeLater s0 (execSvcReturn t s) := by
  unfold execSvcReturn
  repeat' first
    | with_reducible assumption
    | with_reducible refine outcomeLater_onTile ?_ ?_
    | with_reducible exact fun _ k => k
    | with_reducible exact fun _ _ => Bridge.noConfusion
    | with_reducible exact fun k => ⟨k, id, id, id⟩
    | with_reducible exact Nat.le_refl _
    | with_reducible exact Nat.le_succ _
    | ((try lift_lets -underBinder); intro x; first
        | (refine later_cut (s0 := s0) (x := x) ?_ ?_ <;> [unfold x; (intro hx; clear_value x)])
        | clear_value x)
    | (with_reducible (fail_if_success (show OutcomeLater _ _)); intro _)
    | with_reducible refine later_ite ?_ ?_
    | with_reducible refine later_writeAllHeld ?_
    | with_reducible refine later_modDie ?_ ?_ ?_

end Sys2Proof.Machine
end

