-- ==== Sys2Proof/Laws/LaterTriad.lean ====
section
/-!
SUPPORT. What no command takes back, for every operation and meaning of Machine/Triad.lean.
-/

namespace Sys2Proof.Machine

theorem later_triadRecord {s0 s : State} {t : TileId} {h : Option HostCmd} (hs : State.Later s0 s) :
    State.Later s0 (s.triadRecord t h) := by
  unfold State.triadRecord
  repeat' first
    | with_reducible assumption
    | intro _
    | with_reducible refine later_dite ?_ ?_
    | with_reducible refine later_ite ?_ ?_
    | with_reducible refine later_peatEntry ?_
    | split

theorem later_readmitDone {s0 s : State} {t : TileId} {core : Fin 4} {pass : Bool} (hs : State.Later s0 s) :
    State.Later s0 (s.readmitDone t core pass) := by
  unfold State.readmitDone
  repeat' first
    | with_reducible assumption
    | ((try lift_lets -underBinder); intro x; first
        | (refine later_cut (s0 := s0) (x := x) ?_ ?_ <;> [unfold x; (intro hx; clear_value x)])
        | clear_value x)
    | intro _
    | with_reducible refine later_ite ?_ ?_
    | with_reducible refine later_complete ?_
    | with_reducible refine later_triadRecord ?_
    | with_reducible refine later_modTriad ?_
    | split

theorem later_bistAbort {s0 s : State} {t : TileId} (hs : State.Later s0 s) :
    State.Later s0 (s.bistAbort t) := by
  unfold State.bistAbort
  repeat' first
    | with_reducible assumption
    | ((try lift_lets -underBinder); intro x; first
        | (refine later_cut (s0 := s0) (x := x) ?_ ?_ <;> [unfold x; (intro hx; clear_value x)])
        | clear_value x)
    | intro _
    | with_reducible refine later_ite ?_ ?_
    | with_reducible refine later_selftestFinish ?_
    | with_reducible refine later_modDoor ?_
    | with_reducible refine later_modTriad ?_
    | split

theorem later_readmitAborted {s0 s : State} {t : TileId} (hs : State.Later s0 s) :
    State.Later s0 (s.readmitAborted t) := by
  unfold State.readmitAborted
  repeat' first
    | with_reducible assumption
    | intro _
    | with_reducible refine later_readmitDone ?_
    | with_reducible refine later_modTriad ?_
    | split

theorem later_triadLose {s0 s : State} {t : TileId} {cause : Nat} (hs : State.Later s0 s) :
    State.Later s0 (s.triadLose t cause) := by
  unfold State.triadLose
  repeat' first
    | with_reducible assumption
    | ((try lift_lets -underBinder); intro x; first
        | (refine later_cut (s0 := s0) (x := x) ?_ ?_ <;> [unfold x; (intro hx; clear_value x)])
        | clear_value x)
    | intro _
    | with_reducible refine later_ite ?_ ?_
    | with_reducible refine later_bistAbort ?_
    | with_reducible refine later_endPass ?_
    | with_reducible refine later_proofStop ?_
    | with_reducible refine later_raise ?_
    | with_reducible refine later_readmitAborted ?_
    | with_reducible refine later_triadRecord ?_
    | with_reducible refine later_triadTrip ?_
    | with_reducible refine later_each ?_ ?_
    | with_reducible refine later_modDoor ?_
    | with_reducible refine later_modLink ?_
    | with_reducible refine later_modTriad ?_

theorem later_fence {s0 s : State} {t : TileId} {d : Disagreement} {cause : Nat} (hs : State.Later s0 s) :
    State.Later s0 (s.fence t d cause) := by
  unfold State.fence
  repeat' first
    | with_reducible assumption
    | ((try lift_lets -underBinder); intro x; first
        | (refine later_cut (s0 := s0) (x := x) ?_ ?_ <;> [unfold x; (intro hx; clear_value x)])
        | clear_value x)
    | intro _
    | with_reducible refine later_ite ?_ ?_
    | with_reducible refine later_bistAbort ?_
    | with_reducible refine later_raise ?_
    | with_reducible refine later_triadRecord ?_
    | with_reducible refine later_modTriad ?_
    | split

theorem later_disagree {s0 s : State} {t : TileId} {d : Disagreement} {cause : Nat} (hs : State.Later s0 s) :
    State.Later s0 (s.disagree t d cause) := by
  unfold State.disagree
  repeat' first
    | with_reducible assumption
    | ((try lift_lets -underBinder); intro x; first
        | (refine later_cut (s0 := s0) (x := x) ?_ ?_ <;> [unfold x; (intro hx; clear_value x)])
        | (have _ := (x : State → _); unfold x; try dsimp only)
        | (have _ := (x : _ → State); unfold x; try dsimp only)
        | (have _ := (x : _ → State → _); unfold x; try dsimp only)
        | clear_value x)
    | intro _
    | with_reducible refine later_ite ?_ ?_
    | with_reducible refine later_fence ?_
    | with_reducible refine later_triadLose ?_
    | with_reducible refine later_modTriad ?_
    | split

theorem outcomeLater_execVoterDisagreement {s0 s : State} {t : TileId} {d : Disagreement} {now : Nat} (hs : State.Later s0 s) :
    OutcomeLater s0 (execVoterDisagreement t d now s) := by
  unfold execVoterDisagreement
  repeat' first
    | with_reducible assumption
    | with_reducible refine outcomeLater_onTile ?_ ?_
    | (with_reducible (fail_if_success (show OutcomeLater _ _)); intro _)
    | with_reducible refine later_disagree ?_
    | with_reducible refine later_at ?_

theorem outcomeLater_execWriteCopyTimeout {s0 s : State} {t : TileId} {d : Disagreement} {now : Nat} (hs : State.Later s0 s) :
    OutcomeLater s0 (execWriteCopyTimeout t d now s) := by
  unfold execWriteCopyTimeout
  repeat' first
    | with_reducible assumption
    | with_reducible refine outcomeLater_onTile ?_ ?_
    | (with_reducible (fail_if_success (show OutcomeLater _ _)); intro _)
    | with_reducible refine later_disagree ?_
    | with_reducible refine later_at ?_

theorem later_signaturesDiffer {s0 s : State} {t : TileId} (hs : State.Later s0 s) :
    State.Later s0 (s.signaturesDiffer t) := by
  unfold State.signaturesDiffer
  repeat' first
    | with_reducible assumption
    | intro _
    | with_reducible refine later_triadLose ?_
    | with_reducible refine later_modTriad ?_

theorem later_maskCore {s0 s : State} {t : TileId} {core : Fin 4} (hs : State.Later s0 s) :
    State.Later s0 (s.maskCore t core) := by
  unfold State.maskCore
  repeat' first
    | with_reducible assumption
    | ((try lift_lets -underBinder); intro x; first
        | (refine later_cut (s0 := s0) (x := x) ?_ ?_ <;> [unfold x; (intro hx; clear_value x)])
        | clear_value x)
    | intro _
    | with_reducible refine later_triadRecord ?_
    | with_reducible refine later_modTriad ?_

theorem later_checkpoint {s0 s : State} {t : TileId} (hs : State.Later s0 s) :
    State.Later s0 (s.checkpoint t) := by
  unfold State.checkpoint
  repeat' first
    | with_reducible assumption
    | ((try lift_lets -underBinder); intro x; first
        | (refine later_cut (s0 := s0) (x := x) ?_ ?_ <;> [unfold x; (intro hx; clear_value x)])
        | clear_value x)
    | intro _
    | with_reducible refine later_ite ?_ ?_
    | with_reducible refine later_draw ?_
    | with_reducible refine later_modTriad ?_
    | exact later_same ‹_› rfl rfl rfl rfl rfl rfl
    | split

theorem outcomeLater_execCheckpointWrite {s0 s : State} {t : TileId} (hs : State.Later s0 s) :
    OutcomeLater s0 (execCheckpointWrite t s) := by
  unfold execCheckpointWrite
  repeat' first
    | with_reducible assumption
    | with_reducible refine outcomeLater_onTile ?_ ?_
    | (with_reducible (fail_if_success (show OutcomeLater _ _)); intro _)
    | with_reducible refine later_ite ?_ ?_
    | with_reducible refine later_checkpoint ?_
    | with_reducible refine later_holdBack ?_

theorem later_joinFail {s0 s : State} {t : TileId} {core : Fin 4} {cause : Nat} (hs : State.Later s0 s) :
    State.Later s0 (s.joinFail t core cause) := by
  unfold State.joinFail
  repeat' first
    | with_reducible assumption
    | intro _
    | with_reducible refine later_raise ?_
    | with_reducible refine later_triadRecord ?_
    | with_reducible refine later_modTriad ?_

theorem outcomeLater_execSpareOutOfReset {s0 s : State} {t : TileId} (hs : State.Later s0 s) :
    OutcomeLater s0 (execSpareOutOfReset t s) := by
  unfold execSpareOutOfReset
  repeat' first
    | with_reducible assumption
    | with_reducible refine outcomeLater_onTile ?_ ?_
    | (with_reducible (fail_if_success (show OutcomeLater _ _)); intro _)
    | with_reducible refine later_modTriad ?_
    | split

theorem outcomeLater_execSpareResetTimeout {s0 s : State} {t : TileId} (hs : State.Later s0 s) :
    OutcomeLater s0 (execSpareResetTimeout t s) := by
  unfold execSpareResetTimeout
  repeat' first
    | with_reducible assumption
    | with_reducible refine outcomeLater_onTile ?_ ?_
    | (with_reducible (fail_if_success (show OutcomeLater _ _)); intro _)
    | with_reducible refine later_joinFail ?_
    | split

theorem outcomeLater_execSpareCheckpointLoaded {s0 s : State} {t : TileId} {crcs : Bool × Bool} (hs : State.Later s0 s) :
    OutcomeLater s0 (execSpareCheckpointLoaded t crcs s) := by
  unfold execSpareCheckpointLoaded
  repeat' first
    | with_reducible assumption
    | with_reducible refine outcomeLater_onTile ?_ ?_
    | ((try lift_lets -underBinder); intro x; first
        | (refine later_cut (s0 := s0) (x := x) ?_ ?_ <;> [unfold x; (intro hx; clear_value x)])
        | clear_value x)
    | (with_reducible (fail_if_success (show OutcomeLater _ _)); intro _)
    | with_reducible refine later_joinFail ?_
    | with_reducible refine later_modTriad ?_
    | split

theorem outcomeLater_execSpareJoinPause {s0 s : State} {t : TileId} {now : Nat} (hs : State.Later s0 s) :
    OutcomeLater s0 (execSpareJoinPause t now s) := by
  unfold execSpareJoinPause
  repeat' first
    | with_reducible assumption
    | with_reducible refine outcomeLater_onTile ?_ ?_
    | ((try lift_lets -underBinder); intro x; first
        | (refine later_cut (s0 := s0) (x := x) ?_ ?_ <;> [unfold x; (intro hx; clear_value x)])
        | clear_value x)
    | (with_reducible (fail_if_success (show OutcomeLater _ _)); intro _)
    | with_reducible refine later_raise ?_
    | with_reducible refine later_triadRecord ?_
    | with_reducible refine later_at ?_
    | with_reducible refine later_modTriad ?_
    | split

theorem later_bootRecord {s0 s : State} {t : TileId} {cause : Nat} {copied : Bool} (hs : State.Later s0 s) :
    State.Later s0 (s.bootRecord t cause copied) := by
  unfold State.bootRecord
  repeat' first
    | with_reducible assumption
    | with_reducible exact fun _ k => k
    | with_reducible exact fun _ _ => Bridge.noConfusion
    | with_reducible exact fun k => ⟨k, id, id, id⟩
    | with_reducible exact Nat.le_refl _
    | with_reducible exact Nat.le_succ _
    | ((try lift_lets -underBinder); intro x; first
        | (refine later_cut (s0 := s0) (x := x) ?_ ?_ <;> [unfold x; (intro hx; clear_value x)])
        | clear_value x)
    | intro _
    | with_reducible refine later_peatEntry ?_
    | with_reducible refine later_modDie ?_ ?_ ?_
    | split

theorem later_selftestAbort {s0 s : State} {t : TileId} (hs : State.Later s0 s) :
    State.Later s0 (s.selftestAbort t) := by
  unfold State.selftestAbort
  repeat' first
    | with_reducible assumption
    | intro _
    | with_reducible refine later_ite ?_ ?_
    | with_reducible refine later_selftestFinish ?_
    | with_reducible refine later_modDoor ?_
    | with_reducible refine later_modLink ?_

theorem boot_key (d : Die) (r : BootReport) : (d.boot r).1.key = d.key := by
  unfold Die.boot
  dsimp only
  split
  · rfl
  · split <;> rfl

theorem boot_counter (d : Die) (r : BootReport) : d.secCounter ≤ (d.boot r).1.secCounter := by
  unfold Die.boot
  dsimp only
  split
  · exact Nat.le_max_left _ _
  · split <;> exact Nat.le_refl _

theorem outcomeLater_execTriadRestart {s0 s : State} {t : TileId} {r : BootReport} (hs : State.Later s0 s) :
    OutcomeLater s0 (execTriadRestart t r s) := by
  unfold execTriadRestart
  refine outcomeLater_onTile hs (fun x hx => later_ite (fun _ => hx) (fun _ => ?_))
  have h0 : State.Later s0 ((x.modDie t fun _ => ((x.tile t).die.boot r).1).selftestAbort t) :=
    later_selftestAbort (later_modDie hx (fun k e => (boot_key _ _).trans e) (boot_counter _ _))
  exact later_ite (fun _ => later_triadRecord (later_modTriad (later_modTriad h0))) (fun _ => later_ite
    (fun _ => later_triadRecord (later_bootRecord (later_modDoor (later_modTriad h0))))
    (fun _ => later_triadRecord (later_modDoor (later_modTriad h0))))

theorem outcomeLater_execDuplexLimitExpiry {s0 s : State} {t : TileId} (hs : State.Later s0 s) :
    OutcomeLater s0 (execDuplexLimitExpiry t s) := by
  unfold execDuplexLimitExpiry
  repeat' first
    | with_reducible assumption
    | with_reducible refine outcomeLater_onTile ?_ ?_
    | (with_reducible (fail_if_success (show OutcomeLater _ _)); intro _)
    | with_reducible refine later_ite ?_ ?_
    | with_reducible refine later_evaluate ?_
    | with_reducible refine later_modDoor ?_

theorem later_spareBist {s0 s : State} {t : TileId} {kind : Fin 3} (hs : State.Later s0 s) :
    State.Later s0 (s.spareBist t kind) := by
  unfold State.spareBist
  repeat' first
    | with_reducible assumption
    | ((try lift_lets -underBinder); intro x; first
        | (refine later_cut (s0 := s0) (x := x) ?_ ?_ <;> [unfold x; (intro hx; clear_value x)])
        | clear_value x)
    | intro _
    | with_reducible refine later_ite ?_ ?_
    | with_reducible refine later_modTriad ?_
    | split

theorem outcomeLater_execSpareBistPeriod {s0 s : State} {t : TileId} (hs : State.Later s0 s) :
    OutcomeLater s0 (execSpareBistPeriod t s) := by
  unfold execSpareBistPeriod
  repeat' first
    | with_reducible assumption
    | with_reducible refine outcomeLater_onTile ?_ ?_
    | (with_reducible (fail_if_success (show OutcomeLater _ _)); intro _)
    | with_reducible refine later_ite ?_ ?_
    | with_reducible refine later_spareBist ?_

theorem outcomeLater_execBistComplete {s0 s : State} {t : TileId} {core : Fin 4} {pass : Bool} (hs : State.Later s0 s) :
    OutcomeLater s0 (execBistComplete t core pass s) := by
  unfold execBistComplete
  repeat' first
    | with_reducible assumption
    | with_reducible refine outcomeLater_onTile ?_ ?_
    | ((try lift_lets -underBinder); intro x; first
        | (refine later_cut (s0 := s0) (x := x) ?_ ?_ <;> [unfold x; (intro hx; clear_value x)])
        | clear_value x)
    | (with_reducible (fail_if_success (show OutcomeLater _ _)); intro _)
    | with_reducible refine later_ite ?_ ?_
    | with_reducible refine later_raise ?_
    | with_reducible refine later_readmitDone ?_
    | with_reducible refine later_selftestFinish ?_
    | with_reducible refine later_triadRecord ?_
    | with_reducible refine later_modDoor ?_
    | with_reducible refine later_modTriad ?_
    | split

theorem outcomeLater_execTriadStatus {s0 s : State} {h : HostCmd} {addr : BitVec 64} (hs : State.Later s0 s) :
    OutcomeLater s0 (execTriadStatus h addr s) := by
  unfold execTriadStatus
  repeat' first
    | with_reducible assumption
    | with_reducible refine outcomeLater_onCmd ?_ ?_
    | (with_reducible (fail_if_success (show OutcomeLater _ _)); intro _)
    | with_reducible refine later_dite ?_ ?_
    | with_reducible refine later_ite ?_ ?_
    | with_reducible refine later_complete ?_
    | with_reducible refine later_dma ?_

theorem outcomeLater_execTriadReadmit {s0 s : State} {h : HostCmd} {core : Nat} (hs : State.Later s0 s) :
    OutcomeLater s0 (execTriadReadmit h core s) := by
  unfold execTriadReadmit
  repeat' first
    | with_reducible assumption
    | with_reducible refine outcomeLater_onCmd ?_ ?_
    | ((try lift_lets -underBinder); intro x; first
        | (refine later_cut (s0 := s0) (x := x) ?_ ?_ <;> [unfold x; (intro hx; clear_value x)])
        | clear_value x)
    | (with_reducible (fail_if_success (show OutcomeLater _ _)); intro _)
    | with_reducible refine later_dite ?_ ?_
    | with_reducible refine later_ite ?_ ?_
    | with_reducible refine later_complete ?_
    | with_reducible refine later_holdBack ?_
    | with_reducible refine later_markAccepted ?_
    | with_reducible refine later_modTriad ?_

end Sys2Proof.Machine
end

