-- ==== Sys2Proof/Laws/LaterCalTest.lean ====
section
/-!
SUPPORT. What no command takes back, for every operation and meaning of Machine/CalTest.lean.
-/

namespace Sys2Proof.Machine

theorem outcomeLater_execCalRequestFull {s0 s : State} {h : HostCmd} (hs : State.Later s0 s) :
    OutcomeLater s0 (execCalRequestFull h s) := by
  unfold execCalRequestFull
  repeat' first
    | with_reducible assumption
    | with_reducible refine outcomeLater_onCmd ?_ ?_
    | ((try lift_lets -underBinder); intro x; first
        | (refine later_cut (s0 := s0) (x := x) ?_ ?_ <;> [unfold x; (intro hx; clear_value x)])
        | clear_value x)
    | (with_reducible (fail_if_success (show OutcomeLater _ _)); intro _)
    | with_reducible refine later_ite ?_ ?_
    | with_reducible refine later_complete ?_
    | with_reducible refine later_holdBack ?_
    | with_reducible refine later_modDoor ?_

theorem outcomeLater_execCalRequestShadow {s0 s : State} {h : HostCmd} {m : Nat} (hs : State.Later s0 s) :
    OutcomeLater s0 (execCalRequestShadow h m s) := by
  unfold execCalRequestShadow
  repeat' first
    | with_reducible assumption
    | with_reducible refine outcomeLater_onCmd ?_ ?_
    | ((try lift_lets -underBinder); intro x; first
        | (refine later_cut (s0 := s0) (x := x) ?_ ?_ <;> [unfold x; (intro hx; clear_value x)])
        | clear_value x)
    | (with_reducible (fail_if_success (show OutcomeLater _ _)); intro _)
    | with_reducible refine later_ite ?_ ?_
    | with_reducible refine later_complete ?_
    | with_reducible refine later_holdBack ?_
    | with_reducible refine later_modDoor ?_
    | split

theorem later_calCycleStart {s0 s : State} {t : TileId} {n : Nat} (hs : State.Later s0 s) :
    State.Later s0 (s.calCycleStart t n) := by
  unfold State.calCycleStart
  repeat' first
    | with_reducible assumption
    | with_reducible exact fun _ k => k
    | with_reducible exact fun _ _ => Bridge.noConfusion
    | with_reducible exact fun k => ⟨k, id, id, id⟩
    | ((with_reducible refine fun (hf : _ = true) (hk : _ ≠ Bridge.driven) => ?_); dsimp only; (repeat' split) <;> first | exact hk | exact Bridge.noConfusion | (simp_all; done))
    | ((try lift_lets -underBinder); intro x; first
        | (refine later_cut (s0 := s0) (x := x) ?_ ?_ <;> [unfold x; (intro hx; clear_value x)])
        | clear_value x)
    | intro _
    | with_reducible refine later_ite ?_ ?_
    | with_reducible refine later_setLock ?_
    | with_reducible refine later_each ?_ ?_
    | with_reducible refine later_modAxis ?_ ?_
    | with_reducible refine later_modDoor ?_

theorem outcomeLater_execCalPermit {s0 s : State} {h : HostCmd} (hs : State.Later s0 s) :
    OutcomeLater s0 (execCalPermit h s) := by
  unfold execCalPermit
  repeat' first
    | with_reducible assumption
    | with_reducible refine outcomeLater_onCmd ?_ ?_
    | ((try lift_lets -underBinder); intro x; first
        | (refine later_cut (s0 := s0) (x := x) ?_ ?_ <;> [unfold x; (intro hx; clear_value x)])
        | clear_value x)
    | (with_reducible (fail_if_success (show OutcomeLater _ _)); intro _)
    | with_reducible refine later_ite ?_ ?_
    | with_reducible refine later_calCycleStart ?_
    | with_reducible refine later_complete ?_
    | with_reducible refine later_holdBack ?_
    | split

theorem outcomeLater_execCalCancel {s0 s : State} {h : HostCmd} (hs : State.Later s0 s) :
    OutcomeLater s0 (execCalCancel h s) := by
  unfold execCalCancel
  repeat' first
    | with_reducible assumption
    | with_reducible refine outcomeLater_onCmd ?_ ?_
    | ((try lift_lets -underBinder); intro x; first
        | (refine later_cut (s0 := s0) (x := x) ?_ ?_ <;> [unfold x; (intro hx; clear_value x)])
        | (have _ := (x : State → _); unfold x; try dsimp only)
        | (have _ := (x : _ → State); unfold x; try dsimp only)
        | (have _ := (x : _ → State → _); unfold x; try dsimp only)
        | clear_value x)
    | (with_reducible (fail_if_success (show OutcomeLater _ _)); intro _)
    | with_reducible refine later_ite ?_ ?_
    | with_reducible refine later_complete ?_
    | with_reducible refine later_holdBack ?_
    | with_reducible refine later_raise ?_
    | with_reducible refine later_modDoor ?_
    | split

theorem outcomeLater_execCalRecover {s0 s : State} {h : HostCmd} (hs : State.Later s0 s) :
    OutcomeLater s0 (execCalRecover h s) := by
  unfold execCalRecover
  repeat' first
    | with_reducible assumption
    | with_reducible refine outcomeLater_onCmd ?_ ?_
    | ((try lift_lets -underBinder); intro x; first
        | (refine later_cut (s0 := s0) (x := x) ?_ ?_ <;> [unfold x; (intro hx; clear_value x)])
        | clear_value x)
    | (with_reducible (fail_if_success (show OutcomeLater _ _)); intro _)
    | with_reducible refine later_ite ?_ ?_
    | with_reducible refine later_complete ?_
    | with_reducible refine later_holdBack ?_
    | with_reducible refine later_setBuzzer ?_
    | with_reducible refine later_setLock ?_
    | with_reducible refine later_modDoor ?_
    | split

theorem later_partStart {s0 s : State} {t : TileId} {i : Fin 8} (hs : State.Later s0 s) :
    State.Later s0 (s.partStart t i) := by
  unfold State.partStart
  repeat' first
    | with_reducible assumption
    | intro _
    | with_reducible refine later_modDoor ?_

theorem later_partMask {s0 s : State} {t : TileId} {i : Fin 8} {m : BitVec 10} (hs : State.Later s0 s) :
    State.Later s0 (s.partMask t i m) := by
  unfold State.partMask
  repeat' first
    | with_reducible assumption
    | intro _
    | with_reducible refine later_modDoor ?_

theorem later_partBegin {s0 s : State} {t : TileId} {i : Fin 8} (hs : State.Later s0 s) :
    State.Later s0 (s.partBegin t i) := by
  unfold State.partBegin
  repeat' first
    | with_reducible assumption
    | ((try lift_lets -underBinder); intro x; first
        | (refine later_cut (s0 := s0) (x := x) ?_ ?_ <;> [unfold x; (intro hx; clear_value x)])
        | clear_value x)
    | intro _
    | with_reducible refine later_ite ?_ ?_
    | with_reducible refine later_partMask ?_
    | with_reducible refine later_partStart ?_
    | with_reducible refine later_proofStart ?_
    | with_reducible refine later_setLock ?_
    | with_reducible refine later_spareBist ?_
    | with_reducible refine later_modDoor ?_
    | with_reducible refine later_modLink ?_
    | with_reducible refine later_modTriad ?_
    | split

theorem outcomeLater_execSelftestRequest {s0 s : State} {h : HostCmd} {mask : BitVec 16} {addr : BitVec 64}
    (hs : State.Later s0 s) : OutcomeLater s0 (execSelftestRequest h mask addr s) := by
  unfold execSelftestRequest
  refine outcomeLater_onCmd hs (fun x hx => ?_)
  refine later_ite (fun _ => later_complete hx) (fun _ => later_ite (fun _ => later_holdBack hx) (fun _ => ?_))
  split
  · exact later_ite (fun _ => hx) (fun _ => later_complete hx)
  · exact later_selftestFinish (later_each (later_each (later_modDoor (later_markAccepted hx))
      (fun _ _ h => later_partBegin h)) (fun _ _ h => later_ite (fun _ => later_partBegin h) (fun _ => later_modDoor h)))

theorem outcomeLater_execSelftestDwellPartStart {s0 s : State} {t : TileId} (hs : State.Later s0 s) :
    OutcomeLater s0 (execSelftestDwellPartStart t s) := by
  unfold execSelftestDwellPartStart
  repeat' first
    | with_reducible assumption
    | with_reducible refine outcomeLater_onTile ?_ ?_
    | ((try lift_lets -underBinder); intro x; first
        | (refine later_cut (s0 := s0) (x := x) ?_ ?_ <;> [unfold x; (intro hx; clear_value x)])
        | clear_value x)
    | (with_reducible (fail_if_success (show OutcomeLater _ _)); intro _)
    | with_reducible refine later_ite ?_ ?_
    | with_reducible refine later_holdBack ?_
    | with_reducible refine later_partBegin ?_
    | with_reducible refine later_modDoor ?_

theorem later_partUndo {s0 s : State} {t : TileId} {part : Fin 8} {r : PartResult} (hs : State.Later s0 s) :
    State.Later s0 (s.partUndo t part r) := by
  unfold State.partUndo
  repeat' first
    | with_reducible assumption
    | ((try lift_lets -underBinder); intro x; first
        | (refine later_cut (s0 := s0) (x := x) ?_ ?_ <;> [unfold x; (intro hx; clear_value x)])
        | clear_value x)
    | intro _
    | with_reducible refine later_ite ?_ ?_
    | with_reducible refine later_latchFault ?_
    | with_reducible refine later_setLock ?_
    | with_reducible refine later_modDoor ?_
    | with_reducible refine later_modLink ?_
    | split

theorem later_binsLost {s0 s : State} {t : TileId} {part : Fin 8} {bins : List (AxisId × Dir × Fin 512)} (hs : State.Later s0 s) :
    State.Later s0 (s.binsLost t part bins) := by
  unfold State.binsLost
  repeat' first
    | with_reducible assumption
    | intro _
    | with_reducible refine later_ite ?_ ?_
    | with_reducible refine later_binClear ?_
    | with_reducible refine later_each ?_ ?_

theorem outcomeLater_execSelftestPartComplete {s0 s : State} {t : TileId} {part : Fin 8} {r : PartResult} {detail : PartFinding} (hs : State.Later s0 s) :
    OutcomeLater s0 (execSelftestPartComplete t part r detail s) := by
  unfold execSelftestPartComplete
  repeat' first
    | with_reducible assumption
    | with_reducible refine outcomeLater_onTile ?_ ?_
    | ((try lift_lets -underBinder); intro x; first
        | (refine later_cut (s0 := s0) (x := x) ?_ ?_ <;> [unfold x; (intro hx; clear_value x)])
        | clear_value x)
    | (with_reducible (fail_if_success (show OutcomeLater _ _)); intro _)
    | with_reducible refine later_ite ?_ ?_
    | with_reducible refine later_binsLost ?_
    | with_reducible refine later_partUndo ?_
    | with_reducible refine later_selftestFinish ?_
    | with_reducible refine later_modDoor ?_

theorem outcomeLater_execStDwellMaxExpiry {s0 s : State} {t : TileId} (hs : State.Later s0 s) :
    OutcomeLater s0 (execStDwellMaxExpiry t s) := by
  unfold execStDwellMaxExpiry
  repeat' first
    | with_reducible assumption
    | with_reducible refine outcomeLater_onTile ?_ ?_
    | (with_reducible (fail_if_success (show OutcomeLater _ _)); intro _)
    | with_reducible refine later_ite ?_ ?_
    | with_reducible refine later_selftestFinish ?_
    | with_reducible refine later_modDoor ?_
    | with_reducible refine later_list ?_ ?_

theorem outcomeLater_execSoundingRead {s0 s : State} {h : HostCmd} {shadow : Bool} {d : Dir} {first : Nat} {count : Nat} {addr : BitVec 64} (hs : State.Later s0 s) :
    OutcomeLater s0 (execSoundingRead h shadow d first count addr s) := by
  unfold execSoundingRead
  repeat' first
    | with_reducible assumption
    | with_reducible refine outcomeLater_onCmd ?_ ?_
    | ((try lift_lets -underBinder); intro x; first
        | (refine later_cut (s0 := s0) (x := x) ?_ ?_ <;> [unfold x; (intro hx; clear_value x)])
        | clear_value x)
    | (with_reducible (fail_if_success (show OutcomeLater _ _)); intro _)
    | with_reducible refine later_dite ?_ ?_
    | with_reducible refine later_ite ?_ ?_
    | with_reducible refine later_complete ?_
    | with_reducible refine later_dma ?_

theorem outcomeLater_execSoundingWrite {s0 s : State} {h : HostCmd} {d : Dir} {first : Nat} {count : Nat} {data : List Byte} (hs : State.Later s0 s) :
    OutcomeLater s0 (execSoundingWrite h d first count data s) := by
  unfold execSoundingWrite
  repeat' first
    | with_reducible assumption
    | with_reducible refine outcomeLater_onCmd ?_ ?_
    | with_reducible exact fun _ k => k
    | with_reducible exact fun _ _ => Bridge.noConfusion
    | with_reducible exact fun k => ⟨k, id, id, id⟩
    | ((with_reducible refine fun (hf : _ = true) (hk : _ ≠ Bridge.driven) => ?_); dsimp only; (repeat' split) <;> first | exact hk | exact Bridge.noConfusion | (simp_all; done))
    | ((try lift_lets -underBinder); intro x; first
        | (refine later_cut (s0 := s0) (x := x) ?_ ?_ <;> [unfold x; (intro hx; clear_value x)])
        | clear_value x)
    | (with_reducible (fail_if_success (show OutcomeLater _ _)); intro _)
    | with_reducible refine later_dite ?_ ?_
    | with_reducible refine later_ite ?_ ?_
    | with_reducible refine later_complete ?_
    | with_reducible refine later_configRecord ?_
    | with_reducible refine later_holdBack ?_
    | with_reducible refine later_modAxis ?_ ?_
    | with_reducible refine later_list ?_ ?_
    | split

theorem outcomeLater_execShadowConfirmAccept {s0 s : State} {h : HostCmd} (hs : State.Later s0 s) :
    OutcomeLater s0 (execShadowConfirmAccept h s) := by
  unfold execShadowConfirmAccept
  repeat' first
    | with_reducible assumption
    | with_reducible refine outcomeLater_onCmd ?_ ?_
    | ((try lift_lets -underBinder); intro x; first
        | (refine later_cut (s0 := s0) (x := x) ?_ ?_ <;> [unfold x; (intro hx; clear_value x)])
        | clear_value x)
    | (with_reducible (fail_if_success (show OutcomeLater _ _)); intro _)
    | with_reducible refine later_ite ?_ ?_
    | with_reducible refine later_complete ?_
    | with_reducible refine later_holdBack ?_
    | with_reducible refine later_markAccepted ?_
    | with_reducible refine later_modDoor ?_
    | split

theorem outcomeLater_execShadowConfirmDiscard {s0 s : State} {h : HostCmd} (hs : State.Later s0 s) :
    OutcomeLater s0 (execShadowConfirmDiscard h s) := by
  unfold execShadowConfirmDiscard
  repeat' first
    | with_reducible assumption
    | with_reducible refine outcomeLater_onCmd ?_ ?_
    | with_reducible exact fun _ k => k
    | with_reducible exact fun _ _ => Bridge.noConfusion
    | with_reducible exact fun k => ⟨k, id, id, id⟩
    | ((with_reducible refine fun (hf : _ = true) (hk : _ ≠ Bridge.driven) => ?_); dsimp only; (repeat' split) <;> first | exact hk | exact Bridge.noConfusion | (simp_all; done))
    | ((try lift_lets -underBinder); intro x; first
        | (refine later_cut (s0 := s0) (x := x) ?_ ?_ <;> [unfold x; (intro hx; clear_value x)])
        | clear_value x)
    | (with_reducible (fail_if_success (show OutcomeLater _ _)); intro _)
    | with_reducible refine later_ite ?_ ?_
    | with_reducible refine later_complete ?_
    | with_reducible refine later_configRecord ?_
    | with_reducible refine later_holdBack ?_
    | with_reducible refine later_each ?_ ?_
    | with_reducible refine later_modAxis ?_ ?_
    | with_reducible refine later_modDoor ?_
    | split

theorem installShadow_mo (tl : Tile) (a : AxisId) (x : Axis) : (tl.installShadow a x).mo = x.mo := by
  unfold Tile.installShadow; rfl

theorem outcomeLater_execShadowSetInstall {s0 s : State} {t : TileId} (hs : State.Later s0 s) :
    OutcomeLater s0 (execShadowSetInstall t s) := by
  unfold execShadowSetInstall
  refine outcomeLater_onTile hs (fun x hx => ?_)
  dsimp only
  split
  · exact hx
  · refine later_ite (fun _ => later_holdBack hx) (fun _ => later_ite (fun _ => hx) (fun _ => ?_))
    split
    · exact later_configRecord (later_complete (later_modDoor (later_each hx (fun _ _ h => later_modAxis h (fun _ k => by rw [installShadow_mo]; exact k)))))
    · exact later_complete (later_modDoor hx)

end Sys2Proof.Machine
end

