-- ==== Sys2Proof/Laws/LaterTimeSync.lean ====
section
/-!
SUPPORT. What no command takes back, for every operation and meaning of Machine/TimeSync.lean.
-/

namespace Sys2Proof.Machine

theorem later_ringSyncNote {s0 s : State} (hs : State.Later s0 s) :
    State.Later s0 s.ringSyncNote := by
  unfold State.ringSyncNote
  repeat' first
    | with_reducible assumption
    | with_reducible exact Nat.le_refl _
    | with_reducible exact Nat.le_succ _
    | intro _
    | with_reducible refine later_ite ?_ ?_
    | with_reducible refine later_raiseHead ?_
    | with_reducible refine later_modTime ?_ ?_

theorem later_modTimer {s0 s : State} {i : Fin 8} {f : Timer → Timer} (hs : State.Later s0 s) :
    State.Later s0 (s.modTimer i f) := by
  unfold State.modTimer
  repeat' first
    | with_reducible assumption
    | with_reducible exact Nat.le_refl _
    | with_reducible exact Nat.le_succ _
    | intro _
    | with_reducible refine later_modTime ?_ ?_

theorem later_timerLevel {s0 s : State} {i : Fin 8} {high : Bool} (hs : State.Later s0 s) :
    State.Later s0 (s.timerLevel i high) := by
  unfold State.timerLevel
  repeat' first
    | with_reducible assumption
    | intro _
    | with_reducible refine later_modTimer ?_
    | with_reducible refine later_emit ?_

theorem later_timerLead {s0 s : State} {i : Fin 8} {edge : Nat} {late : Bool} (hs : State.Later s0 s) :
    State.Later s0 (s.timerLead i edge late) := by
  unfold State.timerLead
  repeat' first
    | with_reducible assumption
    | ((try lift_lets -underBinder); intro x; first
        | (refine later_cut (s0 := s0) (x := x) ?_ ?_ <;> [unfold x; (intro hx; clear_value x)])
        | clear_value x)
    | intro _
    | with_reducible refine later_ite ?_ ?_
    | with_reducible refine later_modTimer ?_
    | with_reducible refine later_raiseHead ?_
    | with_reducible refine later_timerLevel ?_

theorem later_timerStepped {s0 s : State} {ring : Bool} {i : Fin 8} (hs : State.Later s0 s) :
    State.Later s0 (s.timerStepped ring i) := by
  unfold State.timerStepped
  repeat' first
    | with_reducible assumption
    | ((try lift_lets -underBinder); intro x; first
        | (refine later_cut (s0 := s0) (x := x) ?_ ?_ <;> [unfold x; (intro hx; clear_value x)])
        | clear_value x)
    | intro _
    | with_reducible refine later_ite ?_ ?_
    | with_reducible refine later_modTimer ?_
    | with_reducible refine later_timerLead ?_

theorem later_stepRecord {s0 s : State} {d : Int} (hs : State.Later s0 s) :
    State.Later s0 (s.stepRecord d) := by
  unfold State.stepRecord
  repeat' first
    | with_reducible assumption
    | with_reducible exact Nat.le_refl _
    | with_reducible exact Nat.le_succ _
    | ((try lift_lets -underBinder); intro x; first
        | (refine later_cut (s0 := s0) (x := x) ?_ ?_ <;> [unfold x; (intro hx; clear_value x)])
        | clear_value x)
    | intro _
    | with_reducible refine later_epochMark ?_
    | with_reducible refine later_timerStepped ?_
    | with_reducible refine later_each ?_ ?_
    | with_reducible refine later_modTime ?_ ?_

theorem later_stepRingTo {s0 s : State} {ns : Nat} (hs : State.Later s0 s) :
    State.Later s0 (s.stepRingTo ns) := by
  unfold State.stepRingTo
  repeat' first
    | with_reducible assumption
    | with_reducible exact Nat.le_refl _
    | with_reducible exact Nat.le_succ _
    | ((try lift_lets -underBinder); intro x; first
        | (refine later_cut (s0 := s0) (x := x) ?_ ?_ <;> [unfold x; (intro hx; clear_value x)])
        | clear_value x)
    | intro _
    | with_reducible refine later_epochMark ?_
    | with_reducible refine later_timerStepped ?_
    | with_reducible refine later_each ?_ ?_
    | with_reducible refine later_modTime ?_ ?_

theorem outcomeLater_execTimerOutputEdge {s0 s : State} {tpo : Fin 8} (hs : State.Later s0 s) :
    OutcomeLater s0 (execTimerOutputEdge tpo s) := by
  unfold execTimerOutputEdge
  repeat' first
    | with_reducible assumption
    | with_reducible refine outcomeLater_onHead ?_ ?_
    | ((try lift_lets -underBinder); intro x; first
        | (refine later_cut (s0 := s0) (x := x) ?_ ?_ <;> [unfold x; (intro hx; clear_value x)])
        | clear_value x)
    | (with_reducible (fail_if_success (show OutcomeLater _ _)); intro _)
    | with_reducible refine later_ite ?_ ?_
    | with_reducible refine later_modTimer ?_
    | with_reducible refine later_timerLead ?_
    | with_reducible refine later_timerLevel ?_

theorem later_setRec {s0 s : State} {st : RecState} (hs : State.Later s0 s) :
    State.Later s0 (s.setRec st) := by
  unfold State.setRec
  repeat' first
    | with_reducible assumption
    | with_reducible exact Nat.le_refl _
    | with_reducible exact Nat.le_succ _
    | ((try lift_lets -underBinder); intro x; first
        | (refine later_cut (s0 := s0) (x := x) ?_ ?_ <;> [unfold x; (intro hx; clear_value x)])
        | clear_value x)
    | intro _
    | with_reducible refine later_ite ?_ ?_
    | with_reducible refine later_raiseHead ?_
    | with_reducible refine later_modTime ?_ ?_
    | split

theorem later_servoRecord {s0 s : State} {o : Int} (hs : State.Later s0 s) :
    State.Later s0 (s.servoRecord o) := by
  unfold State.servoRecord
  repeat' first
    | with_reducible assumption
    | with_reducible exact Nat.le_refl _
    | with_reducible exact Nat.le_succ _
    | ((try lift_lets -underBinder); intro x; first
        | (refine later_cut (s0 := s0) (x := x) ?_ ?_ <;> [unfold x; (intro hx; clear_value x)])
        | clear_value x)
    | intro _
    | with_reducible refine later_draw ?_
    | with_reducible refine later_modTime ?_ ?_

theorem later_refuseOffset {s0 s : State} {o : Int} (hs : State.Later s0 s) :
    State.Later s0 (s.refuseOffset o) := by
  unfold State.refuseOffset
  repeat' first
    | with_reducible assumption
    | with_reducible exact Nat.le_refl _
    | with_reducible exact Nat.le_succ _
    | ((try lift_lets -underBinder); intro x; first
        | (refine later_cut (s0 := s0) (x := x) ?_ ?_ <;> [unfold x; (intro hx; clear_value x)])
        | clear_value x)
    | intro _
    | with_reducible refine later_ite ?_ ?_
    | with_reducible refine later_raiseHead ?_
    | with_reducible refine later_modTime ?_ ?_

theorem later_pendStep {s0 s : State} {o : Int} (hs : State.Later s0 s) :
    State.Later s0 (s.pendStep o) := by
  unfold State.pendStep
  repeat' first
    | with_reducible assumption
    | with_reducible exact Nat.le_refl _
    | with_reducible exact Nat.le_succ _
    | ((try lift_lets -underBinder); intro x; first
        | (refine later_cut (s0 := s0) (x := x) ?_ ?_ <;> [unfold x; (intro hx; clear_value x)])
        | clear_value x)
    | intro _
    | with_reducible refine later_raiseHead ?_
    | with_reducible refine later_modTime ?_ ?_

theorem later_offsetLocked {s0 s : State} {o : Int} (hs : State.Later s0 s) :
    State.Later s0 (s.offsetLocked o) := by
  unfold State.offsetLocked
  repeat' first
    | with_reducible assumption
    | with_reducible exact Nat.le_refl _
    | with_reducible exact Nat.le_succ _
    | intro _
    | with_reducible refine later_ite ?_ ?_
    | with_reducible refine later_pendStep ?_
    | with_reducible refine later_refuseOffset ?_
    | with_reducible refine later_servoRecord ?_
    | with_reducible refine later_setRec ?_
    | with_reducible refine later_modTime ?_ ?_
    | split

theorem later_offsetPending {s0 s : State} {o : Int} (hs : State.Later s0 s) :
    State.Later s0 (s.offsetPending o) := by
  unfold State.offsetPending
  repeat' first
    | with_reducible assumption
    | with_reducible exact Nat.le_refl _
    | with_reducible exact Nat.le_succ _
    | ((try lift_lets -underBinder); intro x; first
        | (refine later_cut (s0 := s0) (x := x) ?_ ?_ <;> [unfold x; (intro hx; clear_value x)])
        | clear_value x)
    | intro _
    | with_reducible refine later_ite ?_ ?_
    | with_reducible refine later_pendStep ?_
    | with_reducible refine later_refuseOffset ?_
    | with_reducible refine later_servoRecord ?_
    | with_reducible refine later_setRec ?_
    | with_reducible refine later_stepRecord ?_
    | with_reducible refine later_modTime ?_ ?_

theorem later_recOffset {s0 s : State} {o : Int} (hs : State.Later s0 s) :
    State.Later s0 (s.recOffset o) := by
  unfold State.recOffset
  repeat' first
    | with_reducible assumption
    | with_reducible exact Nat.le_refl _
    | with_reducible exact Nat.le_succ _
    | intro _
    | with_reducible refine later_ite ?_ ?_
    | with_reducible refine later_offsetLocked ?_
    | with_reducible refine later_offsetPending ?_
    | with_reducible refine later_refuseOffset ?_
    | with_reducible refine later_setRec ?_
    | with_reducible refine later_stepRecord ?_
    | with_reducible refine later_modTime ?_ ?_
    | split

theorem later_holdRecord {s0 s : State} (hs : State.Later s0 s) :
    State.Later s0 s.holdRecord := by
  unfold State.holdRecord
  repeat' first
    | with_reducible assumption
    | intro _
    | with_reducible refine later_ite ?_ ?_
    | with_reducible refine later_setRec ?_

theorem later_modEth {s0 s : State} {p : EthPort} {f : EthPortState → EthPortState} (hs : State.Later s0 s) :
    State.Later s0 (s.modEth p f) := by
  unfold State.modEth
  repeat' first
    | with_reducible assumption
    | with_reducible exact Nat.le_refl _
    | with_reducible exact Nat.le_succ _
    | intro _
    | with_reducible refine later_modTime ?_ ?_
    | split

theorem later_ethEmit {s0 s : State} {p : EthPort} {body : List Byte} (hs : State.Later s0 s) :
    State.Later s0 (s.ethEmit p body) := by
  unfold State.ethEmit
  repeat' first
    | with_reducible assumption
    | ((try lift_lets -underBinder); intro x; first
        | (refine later_cut (s0 := s0) (x := x) ?_ ?_ <;> [unfold x; (intro hx; clear_value x)])
        | clear_value x)
    | intro _
    | with_reducible refine later_ite ?_ ?_
    | with_reducible refine later_emit ?_

theorem later_ptpEmit {s0 s : State} {p : EthPort} {peer : Bool} {event : Bool} {kind : Nat} {seq : Nat} {time : List Byte} (hs : State.Later s0 s) :
    State.Later s0 (s.ptpEmit p peer event kind seq time) := by
  unfold State.ptpEmit
  repeat' first
    | with_reducible assumption
    | ((try lift_lets -underBinder); intro x; first
        | (refine later_cut (s0 := s0) (x := x) ?_ ?_ <;> [unfold x; (intro hx; clear_value x)])
        | clear_value x)
    | intro _
    | with_reducible refine later_ite ?_ ?_
    | with_reducible refine later_ethEmit ?_

theorem later_selectMaster {s0 s : State} (hs : State.Later s0 s) :
    State.Later s0 s.selectMaster := by
  unfold State.selectMaster
  repeat' first
    | with_reducible assumption
    | with_reducible exact Nat.le_refl _
    | with_reducible exact Nat.le_succ _
    | ((try lift_lets -underBinder); intro x; first
        | (refine later_cut (s0 := s0) (x := x) ?_ ?_ <;> [unfold x; (intro hx; clear_value x)])
        | clear_value x)
    | intro _
    | with_reducible refine later_ite ?_ ?_
    | with_reducible refine later_modEth ?_
    | with_reducible refine later_raiseHead ?_
    | with_reducible refine later_modTime ?_ ?_
    | split

theorem outcomeLater_execPtpAnnounce {s0 s : State} {p : EthPort} {x : PtpVia × Announce} (hs : State.Later s0 s) :
    OutcomeLater s0 (execPtpAnnounce p x s) := by
  unfold execPtpAnnounce
  repeat' first
    | with_reducible assumption
    | with_reducible refine outcomeLater_onHead ?_ ?_
    | ((try lift_lets -underBinder); intro x; first
        | (refine later_cut (s0 := s0) (x := x) ?_ ?_ <;> [unfold x; (intro hx; clear_value x)])
        | clear_value x)
    | (with_reducible (fail_if_success (show OutcomeLater _ _)); intro _)
    | with_reducible refine later_ite ?_ ?_
    | with_reducible refine later_modEth ?_
    | with_reducible refine later_selectMaster ?_
    | split

theorem later_syncOffset {s0 s : State} {p : EthPort} {origin : Int} {t2 : Int} (hs : State.Later s0 s) :
    State.Later s0 (s.syncOffset p origin t2) := by
  unfold State.syncOffset
  repeat' first
    | with_reducible assumption
    | ((try lift_lets -underBinder); intro x; first
        | (refine later_cut (s0 := s0) (x := x) ?_ ?_ <;> [unfold x; (intro hx; clear_value x)])
        | clear_value x)
    | intro _
    | with_reducible refine later_modEth ?_
    | with_reducible refine later_recOffset ?_

theorem outcomeLater_execPtpSync {s0 s : State} {p : EthPort} {x : PtpVia × SyncMsg} (hs : State.Later s0 s) :
    OutcomeLater s0 (execPtpSync p x s) := by
  unfold execPtpSync
  repeat' first
    | with_reducible assumption
    | with_reducible refine outcomeLater_onHead ?_ ?_
    | (with_reducible (fail_if_success (show OutcomeLater _ _)); intro _)
    | with_reducible refine later_ite ?_ ?_
    | with_reducible refine later_modEth ?_
    | with_reducible refine later_syncOffset ?_

theorem outcomeLater_execPtpFollowUp {s0 s : State} {p : EthPort} {x : PtpVia × PtpTime} (hs : State.Later s0 s) :
    OutcomeLater s0 (execPtpFollowUp p x s) := by
  unfold execPtpFollowUp
  repeat' first
    | with_reducible assumption
    | with_reducible refine outcomeLater_onHead ?_ ?_
    | (with_reducible (fail_if_success (show OutcomeLater _ _)); intro _)
    | with_reducible refine later_ite ?_ ?_
    | with_reducible refine later_syncOffset ?_
    | split

theorem outcomeLater_execPtpDelayRequestSend {s0 s : State} {p : EthPort} {stamp : Int} (hs : State.Later s0 s) :
    OutcomeLater s0 (execPtpDelayRequestSend p stamp s) := by
  unfold execPtpDelayRequestSend
  repeat' first
    | with_reducible assumption
    | with_reducible refine outcomeLater_onHead ?_ ?_
    | ((try lift_lets -underBinder); intro x; first
        | (refine later_cut (s0 := s0) (x := x) ?_ ?_ <;> [unfold x; (intro hx; clear_value x)])
        | clear_value x)
    | (with_reducible (fail_if_success (show OutcomeLater _ _)); intro _)
    | with_reducible refine later_ite ?_ ?_
    | with_reducible refine later_modEth ?_
    | with_reducible refine later_ptpEmit ?_

theorem outcomeLater_execPtpDelayResp {s0 s : State} {p : EthPort} {x : PtpVia × PtpTime} (hs : State.Later s0 s) :
    OutcomeLater s0 (execPtpDelayResp p x s) := by
  unfold execPtpDelayResp
  repeat' first
    | with_reducible assumption
    | with_reducible refine outcomeLater_onHead ?_ ?_
    | (with_reducible (fail_if_success (show OutcomeLater _ _)); intro _)
    | with_reducible refine later_ite ?_ ?_
    | with_reducible refine later_modEth ?_
    | split

theorem outcomeLater_execPtpPdelayReq {s0 s : State} {p : EthPort} {x : PtpVia × PtpTime} (hs : State.Later s0 s) :
    OutcomeLater s0 (execPtpPdelayReq p x s) := by
  unfold execPtpPdelayReq
  repeat' first
    | with_reducible assumption
    | with_reducible refine outcomeLater_onHead ?_ ?_
    | (with_reducible (fail_if_success (show OutcomeLater _ _)); intro _)
    | with_reducible refine later_ite ?_ ?_
    | with_reducible refine later_ptpEmit ?_

theorem outcomeLater_execPtpPdelayResp {s0 s : State} {p : EthPort} {x : PtpVia × PtpTime} (hs : State.Later s0 s) :
    OutcomeLater s0 (execPtpPdelayResp p x s) := by
  unfold execPtpPdelayResp
  repeat' first
    | with_reducible assumption
    | with_reducible refine outcomeLater_onHead ?_ ?_
    | ((try lift_lets -underBinder); intro x; first
        | (refine later_cut (s0 := s0) (x := x) ?_ ?_ <;> [unfold x; (intro hx; clear_value x)])
        | clear_value x)
    | (with_reducible (fail_if_success (show OutcomeLater _ _)); intro _)
    | with_reducible refine later_ite ?_ ?_
    | with_reducible refine later_modEth ?_
    | split

theorem outcomeLater_execPtpPdelayRespFollowUp {s0 s : State} {p : EthPort} {x : PtpVia × PtpTime} (hs : State.Later s0 s) :
    OutcomeLater s0 (execPtpPdelayRespFollowUp p x s) := by
  unfold execPtpPdelayRespFollowUp
  repeat' first
    | with_reducible assumption
    | with_reducible refine outcomeLater_onHead ?_ ?_
    | (with_reducible (fail_if_success (show OutcomeLater _ _)); intro _)
    | with_reducible refine later_ite ?_ ?_
    | with_reducible refine later_modEth ?_
    | split

theorem outcomeLater_execAnnounceReceiptTimeout {s0 s : State} {p : EthPort} (hs : State.Later s0 s) :
    OutcomeLater s0 (execAnnounceReceiptTimeout p s) := by
  unfold execAnnounceReceiptTimeout
  repeat' first
    | with_reducible assumption
    | with_reducible refine outcomeLater_onHead ?_ ?_
    | ((try lift_lets -underBinder); intro x; first
        | (refine later_cut (s0 := s0) (x := x) ?_ ?_ <;> [unfold x; (intro hx; clear_value x)])
        | clear_value x)
    | (with_reducible (fail_if_success (show OutcomeLater _ _)); intro _)
    | with_reducible refine later_ite ?_ ?_
    | with_reducible refine later_holdRecord ?_
    | with_reducible refine later_modEth ?_
    | with_reducible refine later_selectMaster ?_

theorem outcomeLater_execSyncLossTimeout {s0 s : State} {p : EthPort} (hs : State.Later s0 s) :
    OutcomeLater s0 (execSyncLossTimeout p s) := by
  unfold execSyncLossTimeout
  repeat' first
    | with_reducible assumption
    | with_reducible refine outcomeLater_onHead ?_ ?_
    | (with_reducible (fail_if_success (show OutcomeLater _ _)); intro _)
    | with_reducible refine later_ite ?_ ?_
    | with_reducible refine later_holdRecord ?_

theorem outcomeLater_execHoldoverMaxExpiry {s0 s : State} (hs : State.Later s0 s) :
    OutcomeLater s0 (execHoldoverMaxExpiry s) := by
  unfold execHoldoverMaxExpiry
  repeat' first
    | with_reducible assumption
    | with_reducible refine outcomeLater_onHead ?_ ?_
    | with_reducible exact Nat.le_refl _
    | with_reducible exact Nat.le_succ _
    | (with_reducible (fail_if_success (show OutcomeLater _ _)); intro _)
    | with_reducible refine later_ite ?_ ?_
    | with_reducible refine later_modTime ?_ ?_

theorem outcomeLater_execEpochMarkTimer {s0 s : State} {now : Nat} (hs : State.Later s0 s) :
    OutcomeLater s0 (execEpochMarkTimer now s) := by
  unfold execEpochMarkTimer
  repeat' first
    | with_reducible assumption
    | with_reducible refine outcomeLater_onHead ?_ ?_
    | (with_reducible (fail_if_success (show OutcomeLater _ _)); intro _)
    | with_reducible refine later_epochMark ?_
    | with_reducible refine later_at ?_

theorem later_ptpOff {s0 s : State} (hs : State.Later s0 s) :
    State.Later s0 s.ptpOff := by
  unfold State.ptpOff
  repeat' first
    | with_reducible assumption
    | with_reducible exact Nat.le_refl _
    | with_reducible exact Nat.le_succ _
    | ((try lift_lets -underBinder); intro x; first
        | (refine later_cut (s0 := s0) (x := x) ?_ ?_ <;> [unfold x; (intro hx; clear_value x)])
        | clear_value x)
    | intro _
    | with_reducible refine later_ite ?_ ?_
    | with_reducible refine later_selectMaster ?_
    | with_reducible refine later_setRec ?_
    | with_reducible refine later_modTime ?_ ?_

theorem outcomeLater_execTimeStepAccept {s0 s : State} {h : HostCmd} {number : Word} (hs : State.Later s0 s) :
    OutcomeLater s0 (execTimeStepAccept h number s) := by
  unfold execTimeStepAccept
  repeat' first
    | with_reducible assumption
    | with_reducible refine outcomeLater_onCmd ?_ ?_
    | with_reducible exact Nat.le_refl _
    | with_reducible exact Nat.le_succ _
    | ((try lift_lets -underBinder); intro x; first
        | (refine later_cut (s0 := s0) (x := x) ?_ ?_ <;> [unfold x; (intro hx; clear_value x)])
        | clear_value x)
    | (with_reducible (fail_if_success (show OutcomeLater _ _)); intro _)
    | with_reducible refine later_ite ?_ ?_
    | with_reducible refine later_complete ?_
    | with_reducible refine later_modTime ?_ ?_

theorem outcomeLater_execTimerArm {s0 s : State} {h : HostCmd} {p : TimerPayload} (hs : State.Later s0 s) :
    OutcomeLater s0 (execTimerArm h p s) := by
  unfold execTimerArm
  repeat' first
    | with_reducible assumption
    | with_reducible refine outcomeLater_onCmd ?_ ?_
    | ((try lift_lets -underBinder); intro x; first
        | (refine later_cut (s0 := s0) (x := x) ?_ ?_ <;> [unfold x; (intro hx; clear_value x)])
        | clear_value x)
    | (with_reducible (fail_if_success (show OutcomeLater _ _)); intro _)
    | with_reducible refine later_ite ?_ ?_
    | with_reducible refine later_complete ?_
    | with_reducible refine later_modTimer ?_
    | with_reducible refine later_timerLead ?_
    | with_reducible refine later_timerLevel ?_
    | split

theorem outcomeLater_execTimerCancel {s0 s : State} {h : HostCmd} {tpo : Nat} (hs : State.Later s0 s) :
    OutcomeLater s0 (execTimerCancel h tpo s) := by
  unfold execTimerCancel
  repeat' first
    | with_reducible assumption
    | with_reducible refine outcomeLater_onCmd ?_ ?_
    | ((try lift_lets -underBinder); intro x; first
        | (refine later_cut (s0 := s0) (x := x) ?_ ?_ <;> [unfold x; (intro hx; clear_value x)])
        | clear_value x)
    | (with_reducible (fail_if_success (show OutcomeLater _ _)); intro _)
    | with_reducible refine later_ite ?_ ?_
    | with_reducible refine later_complete ?_
    | with_reducible refine later_modTimer ?_
    | with_reducible refine later_timerLevel ?_

end Sys2Proof.Machine
end

