-- ==== Sys2Proof/Laws/LaterEthernet.lean ====
section
/-!
SUPPORT. What no command takes back, for every operation and meaning of Machine/Ethernet.lean.
-/

namespace Sys2Proof.Machine

theorem later_arpEmit {s0 s : State} {p : EthPort} {op : Nat} {ip : Word} (hs : State.Later s0 s) :
    State.Later s0 (s.arpEmit p op ip) := by
  unfold State.arpEmit
  repeat' first
    | with_reducible assumption
    | intro _
    | with_reducible refine later_ethEmit ?_

theorem later_ethSend {s0 s : State} {p : EthPort} {ip : Word} {udp : List Byte} (hs : State.Later s0 s) :
    State.Later s0 (s.ethSend p ip udp) := by
  unfold State.ethSend
  repeat' first
    | with_reducible assumption
    | ((try lift_lets -underBinder); intro x; first
        | (refine later_cut (s0 := s0) (x := x) ?_ ?_ <;> [unfold x; (intro hx; clear_value x)])
        | clear_value x)
    | intro _
    | with_reducible refine later_ite ?_ ?_
    | with_reducible refine later_arpEmit ?_
    | with_reducible refine later_ethEmit ?_
    | with_reducible refine later_modEth ?_
    | split

theorem outcomeLater_execEthPhyStatusPoll {s0 s : State} {p : EthPort} {linkUp : Bool} {fullDuplex : Bool} {speed : Nat} (hs : State.Later s0 s) :
    OutcomeLater s0 (execEthPhyStatusPoll p linkUp fullDuplex speed s) := by
  unfold execEthPhyStatusPoll
  repeat' first
    | with_reducible assumption
    | with_reducible refine outcomeLater_onHead ?_ ?_
    | ((try lift_lets -underBinder); intro x; first
        | (refine later_cut (s0 := s0) (x := x) ?_ ?_ <;> [unfold x; (intro hx; clear_value x)])
        | clear_value x)
    | (with_reducible (fail_if_success (show OutcomeLater _ _)); intro _)
    | with_reducible refine later_ite ?_ ?_
    | with_reducible refine later_arpEmit ?_
    | with_reducible refine later_modEth ?_
    | with_reducible refine later_raiseHead ?_
    | with_reducible refine later_emit ?_
    | with_reducible refine later_modTile ?_ ?_
    | with_reducible refine later_list ?_ ?_
    | exact Tile.Later.same rfl rfl rfl rfl
    | split

theorem later_udpDeliver {s0 s : State} {p : EthPort} {src : Nat} {dst : Nat} {ip : Word} {payload : List Byte} (hs : State.Later s0 s) :
    State.Later s0 (s.udpDeliver p src dst ip payload) := by
  unfold State.udpDeliver
  repeat' first
    | with_reducible assumption
    | ((try lift_lets -underBinder); intro x; first
        | (refine later_cut (s0 := s0) (x := x) ?_ ?_ <;> [unfold x; (intro hx; clear_value x)])
        | (have _ := (x : State → _); unfold x; try dsimp only)
        | (have _ := (x : _ → State); unfold x; try dsimp only)
        | (have _ := (x : _ → State → _); unfold x; try dsimp only)
        | clear_value x)
    | intro _
    | with_reducible refine later_ite ?_ ?_
    | with_reducible refine later_each ?_ ?_
    | with_reducible refine later_emit ?_
    | with_reducible refine later_modTile ?_ ?_
    | exact Tile.Later.same rfl rfl rfl rfl
    | split

theorem outcomeLater_execEthFrameReceived {s0 s : State} {p : EthPort} {f : EthFrame} (hs : State.Later s0 s) :
    OutcomeLater s0 (execEthFrameReceived p f s) := by
  unfold execEthFrameReceived
  repeat' first
    | with_reducible assumption
    | with_reducible refine outcomeLater_onHead ?_ ?_
    | (with_reducible (fail_if_success (show OutcomeLater _ _)); intro _)
    | with_reducible refine later_ite ?_ ?_
    | with_reducible refine later_udpDeliver ?_
    | split

theorem outcomeLater_execArpRequestReceived {s0 s : State} {p : EthPort} {sender : Nat × BitVec 48} {senderIp : Word} {targetIp : Word} (hs : State.Later s0 s) :
    OutcomeLater s0 (execArpRequestReceived p sender senderIp targetIp s) := by
  unfold execArpRequestReceived
  repeat' first
    | with_reducible assumption
    | with_reducible refine outcomeLater_onHead ?_ ?_
    | (with_reducible (fail_if_success (show OutcomeLater _ _)); intro _)
    | with_reducible refine later_ite ?_ ?_
    | with_reducible refine later_ethEmit ?_

theorem outcomeLater_execArpReplyReceived {s0 s : State} {p : EthPort} {sender : Nat × BitVec 48} {senderIp : Word} (hs : State.Later s0 s) :
    OutcomeLater s0 (execArpReplyReceived p sender senderIp s) := by
  unfold execArpReplyReceived
  repeat' first
    | with_reducible assumption
    | with_reducible refine outcomeLater_onHead ?_ ?_
    | ((try lift_lets -underBinder); intro x; first
        | (refine later_cut (s0 := s0) (x := x) ?_ ?_ <;> [unfold x; (intro hx; clear_value x)])
        | clear_value x)
    | (with_reducible (fail_if_success (show OutcomeLater _ _)); intro _)
    | with_reducible refine later_ite ?_ ?_
    | with_reducible refine later_ethEmit ?_
    | with_reducible refine later_modEth ?_
    | with_reducible refine later_each ?_ ?_
    | split

theorem outcomeLater_execArpRetryTimeout {s0 s : State} {p : EthPort} {ip : Word} (hs : State.Later s0 s) :
    OutcomeLater s0 (execArpRetryTimeout p ip s) := by
  unfold execArpRetryTimeout
  repeat' first
    | with_reducible assumption
    | with_reducible refine outcomeLater_onHead ?_ ?_
    | (with_reducible (fail_if_success (show OutcomeLater _ _)); intro _)
    | with_reducible refine later_ite ?_ ?_
    | with_reducible refine later_arpEmit ?_
    | with_reducible refine later_modEth ?_
    | split

theorem outcomeLater_execArpEntryRefresh {s0 s : State} {p : EthPort} {ip : Word} (hs : State.Later s0 s) :
    OutcomeLater s0 (execArpEntryRefresh p ip s) := by
  unfold execArpEntryRefresh
  repeat' first
    | with_reducible assumption
    | with_reducible refine outcomeLater_onHead ?_ ?_
    | ((try lift_lets -underBinder); intro x; first
        | (refine later_cut (s0 := s0) (x := x) ?_ ?_ <;> [unfold x; (intro hx; clear_value x)])
        | clear_value x)
    | (with_reducible (fail_if_success (show OutcomeLater _ _)); intro _)
    | with_reducible refine later_ite ?_ ?_
    | with_reducible refine later_arpEmit ?_
    | with_reducible refine later_modEth ?_

theorem outcomeLater_execIcmpEchoRequest {s0 s : State} {p : EthPort} {sender : Nat × Word} {targetIp : Word} {data : List Byte} {now : Nat} (hs : State.Later s0 s) :
    OutcomeLater s0 (execIcmpEchoRequest p sender targetIp data now s) := by
  unfold execIcmpEchoRequest
  repeat' first
    | with_reducible assumption
    | with_reducible refine outcomeLater_onHead ?_ ?_
    | ((try lift_lets -underBinder); intro x; first
        | (refine later_cut (s0 := s0) (x := x) ?_ ?_ <;> [unfold x; (intro hx; clear_value x)])
        | clear_value x)
    | (with_reducible (fail_if_success (show OutcomeLater _ _)); intro _)
    | with_reducible refine later_ite ?_ ?_
    | with_reducible refine later_ethSend ?_
    | with_reducible refine later_modEth ?_
    | with_reducible refine later_at ?_

end Sys2Proof.Machine
end

