-- ==== Sys2Proof/Laws/LaterCauseway.lean ====
section
/-!
SUPPORT. What no command takes back, for every operation and meaning of Machine/Causeway.lean.
-/

namespace Sys2Proof.Machine

theorem later_setCwy {s0 s : State} {st : CwyState} (hs : State.Later s0 s) :
    State.Later s0 (s.setCwy st) := by
  unfold State.setCwy
  repeat' first
    | with_reducible assumption
    | ((try lift_lets -underBinder); intro x; first
        | (refine later_cut (s0 := s0) (x := x) ?_ ?_ <;> [unfold x; (intro hx; clear_value x)])
        | clear_value x)
    | intro _
    | with_reducible refine later_ite ?_ ?_
    | with_reducible refine later_raiseHead ?_
    | with_reducible refine later_ringSyncNote ?_
    | with_reducible refine later_modCwy ?_

theorem later_cwyListen {s0 s : State} (hs : State.Later s0 s) :
    State.Later s0 s.cwyListen := by
  unfold State.cwyListen
  repeat' first
    | with_reducible assumption
    | ((try lift_lets -underBinder); intro x; first
        | (refine later_cut (s0 := s0) (x := x) ?_ ?_ <;> [unfold x; (intro hx; clear_value x)])
        | (have _ := (x : State → _); unfold x; try dsimp only)
        | (have _ := (x : _ → State); unfold x; try dsimp only)
        | (have _ := (x : _ → State → _); unfold x; try dsimp only)
        | clear_value x)
    | intro _
    | with_reducible refine later_setCwy ?_
    | with_reducible refine later_modCwy ?_
    | with_reducible refine later_modTile ?_ ?_
    | with_reducible refine later_list ?_ ?_
    | exact Tile.Later.same rfl rfl rfl rfl
    | split

theorem later_cwySwitch {s0 s : State} (hs : State.Later s0 s) :
    State.Later s0 s.cwySwitch := by
  unfold State.cwySwitch
  repeat' first
    | with_reducible assumption
    | intro _
    | with_reducible refine later_ite ?_ ?_
    | with_reducible refine later_cwyListen ?_
    | with_reducible refine later_setCwy ?_
    | with_reducible refine later_modCwy ?_

theorem later_cwyRewritten {s0 s : State} (hs : State.Later s0 s) :
    State.Later s0 s.cwyRewritten := by
  unfold State.cwyRewritten
  repeat' first
    | with_reducible assumption
    | intro _
    | with_reducible refine later_cwyListen ?_
    | with_reducible refine later_modCwy ?_
    | split

theorem later_cwyReintegrate {s0 s : State} (hs : State.Later s0 s) :
    State.Later s0 s.cwyReintegrate := by
  unfold State.cwyReintegrate
  repeat' first
    | with_reducible assumption
    | intro _
    | with_reducible refine later_setCwy ?_
    | with_reducible refine later_modCwy ?_

theorem later_cwyIntegrate {s0 s : State} {f : CwyFrame} {tObs : Int} (hs : State.Later s0 s) :
    State.Later s0 (s.cwyIntegrate f tObs) := by
  unfold State.cwyIntegrate
  repeat' first
    | with_reducible assumption
    | ((try lift_lets -underBinder); intro x; first
        | (refine later_cut (s0 := s0) (x := x) ?_ ?_ <;> [unfold x; (intro hx; clear_value x)])
        | clear_value x)
    | intro _
    | with_reducible refine later_ite ?_ ?_
    | with_reducible refine later_setCwy ?_
    | with_reducible refine later_stepRingTo ?_
    | with_reducible refine later_draw ?_
    | with_reducible refine later_modCwy ?_
    | split

theorem later_cwyBegin {s0 s : State} (hs : State.Later s0 s) :
    State.Later s0 s.cwyBegin := by
  unfold State.cwyBegin
  repeat' first
    | with_reducible assumption
    | intro _
    | with_reducible refine later_ite ?_ ?_
    | with_reducible refine later_modCwy ?_

theorem later_cwyColdstart {s0 s : State} (hs : State.Later s0 s) :
    State.Later s0 s.cwyColdstart := by
  unfold State.cwyColdstart
  repeat' first
    | with_reducible assumption
    | ((try lift_lets -underBinder); intro x; first
        | (refine later_cut (s0 := s0) (x := x) ?_ ?_ <;> [unfold x; (intro hx; clear_value x)])
        | clear_value x)
    | intro _
    | with_reducible refine later_ite ?_ ?_
    | with_reducible refine later_setCwy ?_
    | with_reducible refine later_stepRingTo ?_
    | with_reducible refine later_modCwy ?_
    | split

theorem later_cwyCount {s0 s : State} {i : Fin 7} (hs : State.Later s0 s) :
    State.Later s0 (s.cwyCount i) := by
  unfold State.cwyCount
  repeat' first
    | with_reducible assumption
    | intro _
    | with_reducible refine later_modCwy ?_

theorem later_cwyDiscard {s0 s : State} {p : CwyPort} {f : CwyFrame} (hs : State.Later s0 s) :
    State.Later s0 (s.cwyDiscard p f) := by
  unfold State.cwyDiscard
  repeat' first
    | with_reducible assumption
    | ((try lift_lets -underBinder); intro x; first
        | (refine later_cut (s0 := s0) (x := x) ?_ ?_ <;> [unfold x; (intro hx; clear_value x)])
        | clear_value x)
    | intro _
    | with_reducible refine later_ite ?_ ?_
    | with_reducible refine later_cwyCount ?_
    | with_reducible refine later_raiseHead ?_
    | with_reducible refine later_modCwy ?_
    | split

theorem later_cwyDeliver {s0 s : State} {f : CwyFrame} (hs : State.Later s0 s) :
    State.Later s0 (s.cwyDeliver f) := by
  unfold State.cwyDeliver
  repeat' first
    | with_reducible assumption
    | ((try lift_lets -underBinder); intro x; first
        | (refine later_cut (s0 := s0) (x := x) ?_ ?_ <;> [unfold x; (intro hx; clear_value x)])
        | clear_value x)
    | intro _
    | with_reducible refine later_ite ?_ ?_
    | with_reducible refine later_each ?_ ?_
    | with_reducible refine later_emit ?_
    | with_reducible refine later_modCwy ?_
    | split

theorem later_cwyNote {s0 s : State} {f : CwyFrame} {tObs : Int} (hs : State.Later s0 s) :
    State.Later s0 (s.cwyNote f tObs) := by
  unfold State.cwyNote
  repeat' first
    | with_reducible assumption
    | ((try lift_lets -underBinder); intro x; first
        | (refine later_cut (s0 := s0) (x := x) ?_ ?_ <;> [unfold x; (intro hx; clear_value x)])
        | clear_value x)
    | intro _
    | with_reducible refine later_ite ?_ ?_
    | with_reducible refine later_modCwy ?_
    | split

theorem later_cwyAdopt {s0 s : State} {f : CwyFrame} (hs : State.Later s0 s) :
    State.Later s0 (s.cwyAdopt f) := by
  unfold State.cwyAdopt
  repeat' first
    | with_reducible assumption
    | intro _
    | with_reducible refine later_ite ?_ ?_
    | with_reducible refine later_modCwy ?_

theorem later_cwyHeardCold {s0 s : State} {f : CwyFrame} (hs : State.Later s0 s) :
    State.Later s0 (s.cwyHeardCold f) := by
  unfold State.cwyHeardCold
  repeat' first
    | with_reducible assumption
    | intro _
    | with_reducible refine later_ite ?_ ?_
    | with_reducible refine later_modCwy ?_

theorem later_cwyAccept {s0 s : State} {f : CwyFrame} {tObs : Int} (hs : State.Later s0 s) :
    State.Later s0 (s.cwyAccept f tObs) := by
  unfold State.cwyAccept
  repeat' first
    | with_reducible assumption
    | ((try lift_lets -underBinder); intro x; first
        | (refine later_cut (s0 := s0) (x := x) ?_ ?_ <;> [unfold x; (intro hx; clear_value x)])
        | clear_value x)
    | intro _
    | with_reducible refine later_ite ?_ ?_
    | with_reducible refine later_cwyAdopt ?_
    | with_reducible refine later_cwyCount ?_
    | with_reducible refine later_cwyDeliver ?_
    | with_reducible refine later_cwyHeardCold ?_
    | with_reducible refine later_cwyIntegrate ?_
    | with_reducible refine later_cwyListen ?_
    | with_reducible refine later_cwyNote ?_
    | with_reducible refine later_raiseHead ?_
    | with_reducible refine later_setCwy ?_
    | with_reducible refine later_modCwy ?_
    | split

theorem later_cwyRelay {s0 s : State} {p : CwyPort} {f : CwyFrame} (hs : State.Later s0 s) :
    State.Later s0 (s.cwyRelay p f) := by
  unfold State.cwyRelay
  repeat' first
    | with_reducible assumption
    | intro _
    | with_reducible refine later_ite ?_ ?_
    | with_reducible refine later_emit ?_

theorem outcomeLater_execCwyFrameReceived {s0 s : State} {p : CwyPort} {f : CwyFrame} {tObs : Int} {now : Nat} (hs : State.Later s0 s) :
    OutcomeLater s0 (execCwyFrameReceived p f tObs now s) := by
  unfold execCwyFrameReceived
  repeat' first
    | with_reducible assumption
    | with_reducible refine outcomeLater_onHead ?_ ?_
    | ((try lift_lets -underBinder); intro x; first
        | (refine later_cut (s0 := s0) (x := x) ?_ ?_ <;> [unfold x; (intro hx; clear_value x)])
        | clear_value x)
    | (with_reducible (fail_if_success (show OutcomeLater _ _)); intro _)
    | with_reducible refine later_ite ?_ ?_
    | with_reducible refine later_cwyAccept ?_
    | with_reducible refine later_cwyBegin ?_
    | with_reducible refine later_cwyDiscard ?_
    | with_reducible refine later_cwyRelay ?_
    | with_reducible refine later_at ?_

theorem later_cwySend {s0 s : State} {f : CwyFrame} (hs : State.Later s0 s) :
    State.Later s0 (s.cwySend f) := by
  unfold State.cwySend
  repeat' first
    | with_reducible assumption
    | intro _
    | with_reducible refine later_ite ?_ ?_
    | with_reducible refine later_each ?_ ?_
    | with_reducible refine later_emit ?_

theorem outcomeLater_execSlotActionPoint {s0 s : State} {slot : Fin 256} {now : Nat} (hs : State.Later s0 s) :
    OutcomeLater s0 (execSlotActionPoint slot now s) := by
  unfold execSlotActionPoint
  repeat' first
    | with_reducible assumption
    | with_reducible refine outcomeLater_onHead ?_ ?_
    | ((try lift_lets -underBinder); intro x; first
        | (refine later_cut (s0 := s0) (x := x) ?_ ?_ <;> [unfold x; (intro hx; clear_value x)])
        | clear_value x)
    | (with_reducible (fail_if_success (show OutcomeLater _ _)); intro _)
    | with_reducible refine later_ite ?_ ?_
    | with_reducible refine later_cwyBegin ?_
    | with_reducible refine later_cwyCount ?_
    | with_reducible refine later_cwyReintegrate ?_
    | with_reducible refine later_cwySend ?_
    | with_reducible refine later_raiseHead ?_
    | with_reducible refine later_at ?_
    | with_reducible refine later_modCwy ?_
    | split

theorem outcomeLater_execSlotEnd {s0 s : State} {slot : Fin 256} {now : Nat} (hs : State.Later s0 s) :
    OutcomeLater s0 (execSlotEnd slot now s) := by
  unfold execSlotEnd
  repeat' first
    | with_reducible assumption
    | with_reducible refine outcomeLater_onHead ?_ ?_
    | ((try lift_lets -underBinder); intro x; first
        | (refine later_cut (s0 := s0) (x := x) ?_ ?_ <;> [unfold x; (intro hx; clear_value x)])
        | clear_value x)
    | (with_reducible (fail_if_success (show OutcomeLater _ _)); intro _)
    | with_reducible refine later_ite ?_ ?_
    | with_reducible refine later_cwyBegin ?_
    | with_reducible refine later_raiseHead ?_
    | with_reducible refine later_at ?_
    | with_reducible refine later_modCwy ?_

theorem later_ringServo {s0 s : State} (hs : State.Later s0 s) :
    State.Later s0 s.ringServo := by
  unfold State.ringServo
  repeat' first
    | with_reducible assumption
    | with_reducible exact Nat.le_refl _
    | with_reducible exact Nat.le_succ _
    | ((try lift_lets -underBinder); intro x; first
        | (refine later_cut (s0 := s0) (x := x) ?_ ?_ <;> [unfold x; (intro hx; clear_value x)])
        | clear_value x)
    | intro _
    | with_reducible refine later_ite ?_ ?_
    | with_reducible refine later_ringSyncNote ?_
    | with_reducible refine later_modCwy ?_
    | with_reducible refine later_modTime ?_ ?_
    | split

theorem later_guardianAlign {s0 s : State} (hs : State.Later s0 s) :
    State.Later s0 s.guardianAlign := by
  unfold State.guardianAlign
  repeat' first
    | with_reducible assumption
    | ((try lift_lets -underBinder); intro x; first
        | (refine later_cut (s0 := s0) (x := x) ?_ ?_ <;> [unfold x; (intro hx; clear_value x)])
        | clear_value x)
    | intro _
    | with_reducible refine later_ite ?_ ?_
    | with_reducible refine later_modCwy ?_

theorem later_cwyBreak {s0 s : State} {p : CwyPort} (hs : State.Later s0 s) :
    State.Later s0 (s.cwyBreak p) := by
  unfold State.cwyBreak
  repeat' first
    | with_reducible assumption
    | ((try lift_lets -underBinder); intro x; first
        | (refine later_cut (s0 := s0) (x := x) ?_ ?_ <;> [unfold x; (intro hx; clear_value x)])
        | clear_value x)
    | intro _
    | with_reducible refine later_raiseHead ?_
    | with_reducible refine later_emit ?_
    | with_reducible refine later_modCwy ?_

theorem later_cwyRepair {s0 s : State} {p : CwyPort} {seen : LinkSeen} (hs : State.Later s0 s) :
    State.Later s0 (s.cwyRepair p seen) := by
  unfold State.cwyRepair
  repeat' first
    | with_reducible assumption
    | ((try lift_lets -underBinder); intro x; first
        | (refine later_cut (s0 := s0) (x := x) ?_ ?_ <;> [unfold x; (intro hx; clear_value x)])
        | clear_value x)
    | intro _
    | with_reducible refine later_ite ?_ ?_
    | with_reducible refine later_emit ?_
    | with_reducible refine later_modCwy ?_

theorem later_cwyCountdown {s0 s : State} (hs : State.Later s0 s) :
    State.Later s0 s.cwyCountdown := by
  unfold State.cwyCountdown
  repeat' first
    | with_reducible assumption
    | ((try lift_lets -underBinder); intro x; first
        | (refine later_cut (s0 := s0) (x := x) ?_ ?_ <;> [unfold x; (intro hx; clear_value x)])
        | clear_value x)
    | intro _
    | with_reducible refine later_ite ?_ ?_
    | with_reducible refine later_modCwy ?_
    | split

theorem later_cwyProgress {s0 s : State} (hs : State.Later s0 s) :
    State.Later s0 s.cwyProgress := by
  unfold State.cwyProgress
  repeat' first
    | with_reducible assumption
    | ((try lift_lets -underBinder); intro x; first
        | (refine later_cut (s0 := s0) (x := x) ?_ ?_ <;> [unfold x; (intro hx; clear_value x)])
        | clear_value x)
    | intro _
    | with_reducible refine later_ite ?_ ?_
    | with_reducible refine later_cwyListen ?_
    | with_reducible refine later_cwyReintegrate ?_
    | with_reducible refine later_setCwy ?_
    | with_reducible refine later_modCwy ?_
    | split

theorem outcomeLater_execNitStart {s0 s : State} {a : LinkSeen} {b : LinkSeen} (hs : State.Later s0 s) :
    OutcomeLater s0 (execNitStart a b s) := by
  unfold execNitStart
  repeat' first
    | with_reducible assumption
    | with_reducible refine outcomeLater_onHead ?_ ?_
    | ((try lift_lets -underBinder); intro x; first
        | (refine later_cut (s0 := s0) (x := x) ?_ ?_ <;> [unfold x; (intro hx; clear_value x)])
        | clear_value x)
    | (with_reducible (fail_if_success (show OutcomeLater _ _)); intro _)
    | with_reducible refine later_ite ?_ ?_
    | with_reducible refine later_cwyBegin ?_
    | with_reducible refine later_cwyBreak ?_
    | with_reducible refine later_cwyCountdown ?_
    | with_reducible refine later_cwyListen ?_
    | with_reducible refine later_cwyProgress ?_
    | with_reducible refine later_cwyRepair ?_
    | with_reducible refine later_guardianAlign ?_
    | with_reducible refine later_ringServo ?_
    | with_reducible refine later_modCwy ?_
    | with_reducible refine later_list ?_ ?_

theorem outcomeLater_execListenTimeout {s0 s : State} (hs : State.Later s0 s) :
    OutcomeLater s0 (execListenTimeout s) := by
  unfold execListenTimeout
  repeat' first
    | with_reducible assumption
    | with_reducible refine outcomeLater_onHead ?_ ?_
    | (with_reducible (fail_if_success (show OutcomeLater _ _)); intro _)
    | with_reducible refine later_ite ?_ ?_
    | with_reducible refine later_cwyColdstart ?_

theorem outcomeLater_execBackoffEnd {s0 s : State} (hs : State.Later s0 s) :
    OutcomeLater s0 (execBackoffEnd s) := by
  unfold execBackoffEnd
  repeat' first
    | with_reducible assumption
    | with_reducible refine outcomeLater_onHead ?_ ?_
    | (with_reducible (fail_if_success (show OutcomeLater _ _)); intro _)
    | with_reducible refine later_ite ?_ ?_
    | with_reducible refine later_cwyColdstart ?_

theorem outcomeLater_execPortLos {s0 s : State} {l : PortLoss} (hs : State.Later s0 s) :
    OutcomeLater s0 (execPortLos l s) := by
  unfold execPortLos
  repeat' first
    | with_reducible assumption
    | with_reducible refine outcomeLater_onHead ?_ ?_
    | ((try lift_lets -underBinder); intro x; first
        | (refine later_cut (s0 := s0) (x := x) ?_ ?_ <;> [unfold x; (intro hx; clear_value x)])
        | clear_value x)
    | (with_reducible (fail_if_success (show OutcomeLater _ _)); intro _)
    | with_reducible refine later_ite ?_ ?_
    | with_reducible refine later_cwyBegin ?_
    | with_reducible refine later_cwyBreak ?_
    | with_reducible refine later_cwyCount ?_
    | with_reducible refine later_at ?_
    | with_reducible refine later_modCwy ?_

theorem outcomeLater_execCyclePoint {s0 s : State} {i : Fin 8} (hs : State.Later s0 s) :
    OutcomeLater s0 (execCyclePoint i s) := by
  unfold execCyclePoint
  repeat' first
    | with_reducible assumption
    | with_reducible refine outcomeLater_onHead ?_ ?_
    | ((try lift_lets -underBinder); intro x; first
        | (refine later_cut (s0 := s0) (x := x) ?_ ?_ <;> [unfold x; (intro hx; clear_value x)])
        | clear_value x)
    | (with_reducible (fail_if_success (show OutcomeLater _ _)); intro _)
    | with_reducible refine later_ite ?_ ?_
    | with_reducible refine later_cwyBegin ?_
    | with_reducible refine later_each ?_ ?_
    | with_reducible refine later_emit ?_

end Sys2Proof.Machine
end

