-- ==== Sys2Proof/Laws/LaterCan.lean ====
section
/-!
SUPPORT. What no command takes back, for every operation and meaning of Machine/Can.lean.
-/

namespace Sys2Proof.Machine

theorem later_modCan {s0 s : State} {t : TileId} {c : Fin 2} {f : CanCtl → CanCtl} (hs : State.Later s0 s) :
    State.Later s0 (s.modCan t c f) := by
  unfold State.modCan
  repeat' first
    | with_reducible assumption
    | intro _
    | with_reducible refine later_modTile ?_ ?_
    | exact Tile.Later.same rfl rfl rfl rfl

theorem later_modBuf {s0 s : State} {t : TileId} {c : Fin 2} {b : Fin 64} {f : CanBuffer → CanBuffer} (hs : State.Later s0 s) :
    State.Later s0 (s.modBuf t c b f) := by
  unfold State.modBuf
  repeat' first
    | with_reducible assumption
    | intro _
    | with_reducible refine later_modCan ?_

theorem later_canStateEvent {s0 s : State} {t : TileId} {c : Fin 2} (hs : State.Later s0 s) :
    State.Later s0 (s.canStateEvent t c) := by
  unfold State.canStateEvent
  repeat' first
    | with_reducible assumption
    | ((try lift_lets -underBinder); intro x; first
        | (refine later_cut (s0 := s0) (x := x) ?_ ?_ <;> [unfold x; (intro hx; clear_value x)])
        | clear_value x)
    | intro _
    | with_reducible refine later_raise ?_

theorem later_canCount {s0 s : State} {t : TileId} {c : Fin 2} {f : CanCtl → CanCtl} (hs : State.Later s0 s) :
    State.Later s0 (s.canCount t c f) := by
  unfold State.canCount
  repeat' first
    | with_reducible assumption
    | ((try lift_lets -underBinder); intro x; first
        | (refine later_cut (s0 := s0) (x := x) ?_ ?_ <;> [unfold x; (intro hx; clear_value x)])
        | clear_value x)
    | intro _
    | with_reducible refine later_ite ?_ ?_
    | with_reducible refine later_canStateEvent ?_
    | with_reducible refine later_modCan ?_

theorem later_canDeliver {s0 s : State} {t : TileId} {c : Fin 2} {b : Fin 64} {f : CanFrame} (hs : State.Later s0 s) :
    State.Later s0 (s.canDeliver t c b f) := by
  unfold State.canDeliver
  repeat' first
    | with_reducible assumption
    | ((try lift_lets -underBinder); intro x; first
        | (refine later_cut (s0 := s0) (x := x) ?_ ?_ <;> [unfold x; (intro hx; clear_value x)])
        | clear_value x)
    | intro _
    | with_reducible refine later_ite ?_ ?_
    | with_reducible refine later_modBuf ?_
    | with_reducible refine later_raise ?_
    | with_reducible refine later_dma ?_
    | with_reducible refine later_draw ?_
    | with_reducible refine later_emit ?_
    | split

theorem later_canStore {s0 s : State} {t : TileId} {c : Fin 2} {b : Fin 64} {f : CanFrame} {ts : Word} (hs : State.Later s0 s) :
    State.Later s0 (s.canStore t c b f ts) := by
  unfold State.canStore
  repeat' first
    | with_reducible assumption
    | intro _
    | with_reducible refine later_canDeliver ?_
    | with_reducible refine later_modBuf ?_

theorem outcomeLater_execCanFrameReceived {s0 s : State} {t : TileId} {c : Fin 2} {f : CanRx} (hs : State.Later s0 s) :
    OutcomeLater s0 (execCanFrameReceived t c f s) := by
  unfold execCanFrameReceived
  repeat' first
    | with_reducible assumption
    | with_reducible refine outcomeLater_onTile ?_ ?_
    | (with_reducible refine later_pair (by assumption) ?_)
    | with_reducible refine later_snd_ite ?_ ?_
    | ((try lift_lets -underBinder); intro x; first
        | (refine later_cut (s0 := s0) (x := x) ?_ ?_ <;> [unfold x; (intro hx; clear_value x)])
        | clear_value x)
    | (with_reducible (fail_if_success (show OutcomeLater _ _)); intro _)
    | with_reducible refine later_ite ?_ ?_
    | with_reducible refine later_canCount ?_
    | with_reducible refine later_canStore ?_
    | with_reducible refine later_modBuf ?_
    | with_reducible refine later_draw ?_
    | split

theorem outcomeLater_execCanBufferLockEnd {s0 s : State} {t : TileId} {c : Fin 2} {b : Fin 64} (hs : State.Later s0 s) :
    OutcomeLater s0 (execCanBufferLockEnd t c b s) := by
  unfold execCanBufferLockEnd
  repeat' first
    | with_reducible assumption
    | with_reducible refine outcomeLater_onTile ?_ ?_
    | ((try lift_lets -underBinder); intro x; first
        | (refine later_cut (s0 := s0) (x := x) ?_ ?_ <;> [unfold x; (intro hx; clear_value x)])
        | clear_value x)
    | (with_reducible (fail_if_success (show OutcomeLater _ _)); intro _)
    | with_reducible refine later_ite ?_ ?_
    | with_reducible refine later_canStore ?_
    | with_reducible refine later_modBuf ?_
    | split

theorem later_canDone {s0 s : State} {cmd : Option HostCmd} {status : Nat} {gen : BitVec 4} {ts : Word} (hs : State.Later s0 s) :
    State.Later s0 (s.canDone cmd status gen ts) := by
  unfold State.canDone
  repeat' first
    | with_reducible assumption
    | intro _
    | with_reducible refine later_complete ?_
    | split

theorem later_canLoad {s0 s : State} {t : TileId} {c : Fin 2} {b : Fin 64} {f : CanFrame} {once : Bool} {cmd : Option HostCmd} (hs : State.Later s0 s) :
    State.Later s0 (s.canLoad t c b f once cmd) := by
  unfold State.canLoad
  repeat' first
    | with_reducible assumption
    | ((try lift_lets -underBinder); intro x; first
        | (refine later_cut (s0 := s0) (x := x) ?_ ?_ <;> [unfold x; (intro hx; clear_value x)])
        | clear_value x)
    | intro _
    | with_reducible refine later_ite ?_ ?_
    | with_reducible refine later_canDone ?_
    | with_reducible refine later_modBuf ?_
    | split

theorem outcomeLater_execCanArbitrationStart {s0 s : State} {t : TileId} {c : Fin 2} (hs : State.Later s0 s) :
    OutcomeLater s0 (execCanArbitrationStart t c s) := by
  unfold execCanArbitrationStart
  repeat' first
    | with_reducible assumption
    | with_reducible refine outcomeLater_onTile ?_ ?_
    | ((try lift_lets -underBinder); intro x; first
        | (refine later_cut (s0 := s0) (x := x) ?_ ?_ <;> [unfold x; (intro hx; clear_value x)])
        | clear_value x)
    | (with_reducible (fail_if_success (show OutcomeLater _ _)); intro _)
    | with_reducible refine later_ite ?_ ?_
    | with_reducible refine later_modBuf ?_
    | split

theorem later_canAttemptOver {s0 s : State} {t : TileId} {c : Fin 2} {b : Fin 64} {sent : Bool} (hs : State.Later s0 s) :
    State.Later s0 (s.canAttemptOver t c b sent) := by
  unfold State.canAttemptOver
  repeat' first
    | with_reducible assumption
    | ((try lift_lets -underBinder); intro x; first
        | (refine later_cut (s0 := s0) (x := x) ?_ ?_ <;> [unfold x; (intro hx; clear_value x)])
        | (have _ := (x : State → _); unfold x; try dsimp only)
        | (have _ := (x : _ → State); unfold x; try dsimp only)
        | (have _ := (x : _ → State → _); unfold x; try dsimp only)
        | clear_value x)
    | intro _
    | with_reducible refine later_ite ?_ ?_
    | with_reducible refine later_canDone ?_
    | with_reducible refine later_modBuf ?_
    | split

theorem outcomeLater_execCanTxAttemptEnd {s0 s : State} {t : TileId} {c : Fin 2} {e : CanTxEnd} {err : CanErr} (hs : State.Later s0 s) :
    OutcomeLater s0 (execCanTxAttemptEnd t c e err s) := by
  unfold execCanTxAttemptEnd
  repeat' first
    | with_reducible assumption
    | with_reducible refine outcomeLater_onTile ?_ ?_
    | ((try lift_lets -underBinder); intro x; first
        | (refine later_cut (s0 := s0) (x := x) ?_ ?_ <;> [unfold x; (intro hx; clear_value x)])
        | clear_value x)
    | (with_reducible (fail_if_success (show OutcomeLater _ _)); intro _)
    | with_reducible refine later_ite ?_ ?_
    | with_reducible refine later_canAttemptOver ?_
    | with_reducible refine later_canCount ?_
    | with_reducible refine later_each ?_ ?_
    | with_reducible refine later_emit ?_
    | split

theorem outcomeLater_execCanReceiveError {s0 s : State} {t : TileId} {c : Fin 2} {e : CanErr} (hs : State.Later s0 s) :
    OutcomeLater s0 (execCanReceiveError t c e s) := by
  unfold execCanReceiveError
  repeat' first
    | with_reducible assumption
    | with_reducible refine outcomeLater_onTile ?_ ?_
    | (with_reducible refine later_pair (by assumption) ?_)
    | with_reducible refine later_snd_ite ?_ ?_
    | ((try lift_lets -underBinder); intro x; first
        | (refine later_cut (s0 := s0) (x := x) ?_ ?_ <;> [unfold x; (intro hx; clear_value x)])
        | clear_value x)
    | (with_reducible (fail_if_success (show OutcomeLater _ _)); intro _)
    | with_reducible refine later_ite ?_ ?_
    | with_reducible refine later_canCount ?_
    | with_reducible refine later_draw ?_

theorem outcomeLater_execCanBusOffRecovery {s0 s : State} {t : TileId} {c : Fin 2} (hs : State.Later s0 s) :
    OutcomeLater s0 (execCanBusOffRecovery t c s) := by
  unfold execCanBusOffRecovery
  repeat' first
    | with_reducible assumption
    | with_reducible refine outcomeLater_onTile ?_ ?_
    | (with_reducible (fail_if_success (show OutcomeLater _ _)); intro _)
    | with_reducible refine later_ite ?_ ?_
    | with_reducible refine later_canCount ?_

theorem later_canDiscard {s0 s : State} {t : TileId} {c : Fin 2} {b : Fin 64} (hs : State.Later s0 s) :
    State.Later s0 (s.canDiscard t c b) := by
  unfold State.canDiscard
  repeat' first
    | with_reducible assumption
    | ((try lift_lets -underBinder); intro x; first
        | (refine later_cut (s0 := s0) (x := x) ?_ ?_ <;> [unfold x; (intro hx; clear_value x)])
        | clear_value x)
    | intro _
    | with_reducible refine later_ite ?_ ?_
    | with_reducible refine later_canAttemptOver ?_
    | with_reducible refine later_canDone ?_
    | with_reducible refine later_modBuf ?_
    | split

theorem later_canModeSet {s0 s : State} {t : TileId} {c : Fin 2} (hs : State.Later s0 s) :
    State.Later s0 (s.canModeSet t c) := by
  unfold State.canModeSet
  repeat' first
    | with_reducible assumption
    | ((try lift_lets -underBinder); intro x; first
        | (refine later_cut (s0 := s0) (x := x) ?_ ?_ <;> [unfold x; (intro hx; clear_value x)])
        | clear_value x)
    | intro _
    | with_reducible refine later_ite ?_ ?_
    | with_reducible refine later_canAttemptOver ?_
    | with_reducible refine later_canCount ?_
    | with_reducible refine later_canDiscard ?_
    | with_reducible refine later_modCan ?_
    | with_reducible refine later_each ?_ ?_

theorem later_canWoken {s0 s : State} {t : TileId} {c : Fin 2} {cause : Nat} {id : Nat} (hs : State.Later s0 s) :
    State.Later s0 (s.canWoken t c cause id) := by
  unfold State.canWoken
  repeat' first
    | with_reducible assumption
    | ((try lift_lets -underBinder); intro x; first
        | (refine later_cut (s0 := s0) (x := x) ?_ ?_ <;> [unfold x; (intro hx; clear_value x)])
        | clear_value x)
    | intro _
    | with_reducible refine later_canModeSet ?_
    | with_reducible refine later_raise ?_
    | with_reducible refine later_modTile ?_ ?_
    | with_reducible refine later_id ?_
    | exact Tile.Later.same rfl rfl rfl rfl

theorem outcomeLater_execCanWake {s0 s : State} {t : TileId} {c : Fin 2} {cause : CanWakeCause} (hs : State.Later s0 s) :
    OutcomeLater s0 (execCanWake t c cause s) := by
  unfold execCanWake
  repeat' first
    | with_reducible assumption
    | with_reducible refine outcomeLater_onTile ?_ ?_
    | ((try lift_lets -underBinder); intro x; first
        | (refine later_cut (s0 := s0) (x := x) ?_ ?_ <;> [unfold x; (intro hx; clear_value x)])
        | clear_value x)
    | (with_reducible (fail_if_success (show OutcomeLater _ _)); intro _)
    | with_reducible refine later_ite ?_ ?_
    | with_reducible refine later_canWoken ?_
    | with_reducible refine later_modCan ?_
    | with_reducible refine later_id ?_
    | split

theorem outcomeLater_execCanTx {s0 s : State} {h : HostCmd} {p : CanTxPayload} (hs : State.Later s0 s) :
    OutcomeLater s0 (execCanTx h p s) := by
  unfold execCanTx
  repeat' first
    | with_reducible assumption
    | with_reducible refine outcomeLater_onCmd ?_ ?_
    | with_reducible refine later_dite ?_ ?_
    | ((try lift_lets -underBinder); intro x; first
        | (refine later_cut (s0 := s0) (x := x) ?_ ?_ <;> [unfold x; (intro hx; clear_value x)])
        | clear_value x)
    | (with_reducible (fail_if_success (show OutcomeLater _ _)); intro _)
    | with_reducible refine later_dite ?_ ?_
    | with_reducible refine later_ite ?_ ?_
    | with_reducible refine later_canLoad ?_
    | with_reducible refine later_complete ?_

theorem outcomeLater_execCanAbort {s0 s : State} {h : HostCmd} {controller : Nat} {buffer : Nat} (hs : State.Later s0 s) :
    OutcomeLater s0 (execCanAbort h controller buffer s) := by
  unfold execCanAbort
  repeat' first
    | with_reducible assumption
    | with_reducible refine outcomeLater_onCmd ?_ ?_
    | ((try lift_lets -underBinder); intro x; first
        | (refine later_cut (s0 := s0) (x := x) ?_ ?_ <;> [unfold x; (intro hx; clear_value x)])
        | clear_value x)
    | (with_reducible (fail_if_success (show OutcomeLater _ _)); intro _)
    | with_reducible refine later_dite ?_ ?_
    | with_reducible refine later_ite ?_ ?_
    | with_reducible refine later_canDone ?_
    | with_reducible refine later_complete ?_
    | with_reducible refine later_modBuf ?_
    | split

theorem later_canSedgePut {s0 s : State} {t : TileId} {c : Fin 2} {b : Fin 64} {ext : Bool} {brs : Bool} {id : BitVec 29} {frame : List Byte} (hs : State.Later s0 s) :
    State.Later s0 (s.canSedgePut t c b ext brs id frame) := by
  unfold State.canSedgePut
  repeat' first
    | with_reducible assumption
    | ((try lift_lets -underBinder); intro x; first
        | (refine later_cut (s0 := s0) (x := x) ?_ ?_ <;> [unfold x; (intro hx; clear_value x)])
        | clear_value x)
    | intro _
    | with_reducible refine later_ite ?_ ?_
    | with_reducible refine later_canLoad ?_
    | with_reducible refine later_id ?_

end Sys2Proof.Machine
end

