-- ==== Sys2Proof/Laws/LaterLin.lean ====
section
/-!
SUPPORT. What no command takes back, for every operation and meaning of Machine/Lin.lean.
-/

namespace Sys2Proof.Machine

theorem later_modLin {s0 s : State} {t : TileId} {l : Fin 2} {f : LinMaster → LinMaster} (hs : State.Later s0 s) :
    State.Later s0 (s.modLin t l f) := by
  unfold State.modLin
  repeat' first
    | with_reducible assumption
    | intro _
    | with_reducible refine later_modTile ?_ ?_
    | exact Tile.Later.same rfl rfl rfl rfl

theorem outcomeLater_execLinSlotStart {s0 s : State} {t : TileId} {l : Fin 2} (hs : State.Later s0 s) :
    OutcomeLater s0 (execLinSlotStart t l s) := by
  unfold execLinSlotStart
  repeat' first
    | with_reducible assumption
    | with_reducible refine outcomeLater_onTile ?_ ?_
    | ((try lift_lets -underBinder); intro x; first
        | (refine later_cut (s0 := s0) (x := x) ?_ ?_ <;> [unfold x; (intro hx; clear_value x)])
        | clear_value x)
    | (with_reducible (fail_if_success (show OutcomeLater _ _)); intro _)
    | with_reducible refine later_ite ?_ ?_
    | with_reducible refine later_modLin ?_
    | with_reducible refine later_emit ?_
    | split

theorem later_linError {s0 s : State} {t : TileId} {l : Fin 2} {i : Nat} {slave : Bool} {err : Nat} (hs : State.Later s0 s) :
    State.Later s0 (s.linError t l i slave err) := by
  unfold State.linError
  repeat' first
    | with_reducible assumption
    | ((try lift_lets -underBinder); intro x; first
        | (refine later_cut (s0 := s0) (x := x) ?_ ?_ <;> [unfold x; (intro hx; clear_value x)])
        | clear_value x)
    | intro _
    | with_reducible refine later_ite ?_ ?_
    | with_reducible refine later_modLin ?_
    | with_reducible refine later_raise ?_
    | split

theorem later_linGood {s0 s : State} {t : TileId} {l : Fin 2} {i : Nat} {data : List Byte} (hs : State.Later s0 s) :
    State.Later s0 (s.linGood t l i data) := by
  unfold State.linGood
  repeat' first
    | with_reducible assumption
    | ((try lift_lets -underBinder); intro x; first
        | (refine later_cut (s0 := s0) (x := x) ?_ ?_ <;> [unfold x; (intro hx; clear_value x)])
        | clear_value x)
    | intro _
    | with_reducible refine later_modLin ?_
    | with_reducible refine later_modDoor ?_

theorem outcomeLater_execLinResponseReceived {s0 s : State} {t : TileId} {l : Fin 2} {r : LinResp} {now : Nat} (hs : State.Later s0 s) :
    OutcomeLater s0 (execLinResponseReceived t l r now s) := by
  unfold execLinResponseReceived
  repeat' first
    | with_reducible assumption
    | with_reducible refine outcomeLater_onTile ?_ ?_
    | ((try lift_lets -underBinder); intro x; first
        | (refine later_cut (s0 := s0) (x := x) ?_ ?_ <;> [unfold x; (intro hx; clear_value x)])
        | clear_value x)
    | (with_reducible (fail_if_success (show OutcomeLater _ _)); intro _)
    | with_reducible refine later_ite ?_ ?_
    | with_reducible refine later_linError ?_
    | with_reducible refine later_linGood ?_
    | with_reducible refine later_at ?_
    | split

theorem outcomeLater_execLinResponseTimeout {s0 s : State} {t : TileId} {l : Fin 2} {bytes : Nat} {now : Nat} (hs : State.Later s0 s) :
    OutcomeLater s0 (execLinResponseTimeout t l bytes now s) := by
  unfold execLinResponseTimeout
  repeat' first
    | with_reducible assumption
    | with_reducible refine outcomeLater_onTile ?_ ?_
    | ((try lift_lets -underBinder); intro x; first
        | (refine later_cut (s0 := s0) (x := x) ?_ ?_ <;> [unfold x; (intro hx; clear_value x)])
        | clear_value x)
    | (with_reducible (fail_if_success (show OutcomeLater _ _)); intro _)
    | with_reducible refine later_ite ?_ ?_
    | with_reducible refine later_linError ?_
    | with_reducible refine later_at ?_
    | split

theorem later_linWake {s0 s : State} {t : TileId} {l : Fin 2} {cause : Fin 2} (hs : State.Later s0 s) :
    State.Later s0 (s.linWake t l cause) := by
  unfold State.linWake
  repeat' first
    | with_reducible assumption
    | intro _
    | with_reducible refine later_ite ?_ ?_
    | with_reducible refine later_modLin ?_

theorem outcomeLater_execLinWakePulse {s0 s : State} {t : TileId} {l : Fin 2} (hs : State.Later s0 s) :
    OutcomeLater s0 (execLinWakePulse t l s) := by
  unfold execLinWakePulse
  repeat' first
    | with_reducible assumption
    | with_reducible refine outcomeLater_onTile ?_ ?_
    | (with_reducible (fail_if_success (show OutcomeLater _ _)); intro _)
    | with_reducible refine later_ite ?_ ?_
    | with_reducible refine later_linWake ?_

theorem outcomeLater_execLinWakeDelayEnd {s0 s : State} {t : TileId} {l : Fin 2} (hs : State.Later s0 s) :
    OutcomeLater s0 (execLinWakeDelayEnd t l s) := by
  unfold execLinWakeDelayEnd
  repeat' first
    | with_reducible assumption
    | with_reducible refine outcomeLater_onTile ?_ ?_
    | (with_reducible (fail_if_success (show OutcomeLater _ _)); intro _)
    | with_reducible refine later_modLin ?_
    | with_reducible refine later_raise ?_
    | split

theorem outcomeLater_execLinSchedLoad {s0 s : State} {h : HostCmd} {master : Nat} {table : Nat} {entries : List LinEntry} (hs : State.Later s0 s) :
    OutcomeLater s0 (execLinSchedLoad h master table entries s) := by
  unfold execLinSchedLoad
  repeat' first
    | with_reducible assumption
    | with_reducible refine outcomeLater_onCmd ?_ ?_
    | ((try lift_lets -underBinder); intro x; first
        | (refine later_cut (s0 := s0) (x := x) ?_ ?_ <;> [unfold x; (intro hx; clear_value x)])
        | clear_value x)
    | (with_reducible (fail_if_success (show OutcomeLater _ _)); intro _)
    | with_reducible refine later_dite ?_ ?_
    | with_reducible refine later_ite ?_ ?_
    | with_reducible refine later_complete ?_
    | with_reducible refine later_modLin ?_
    | split

theorem outcomeLater_execLinSchedLoadDataOnly {s0 s : State} {h : HostCmd} {master : Nat} {table : Nat} {entries : List LinEntry} (hs : State.Later s0 s) :
    OutcomeLater s0 (execLinSchedLoadDataOnly h master table entries s) := by
  unfold execLinSchedLoadDataOnly
  repeat' first
    | with_reducible assumption
    | with_reducible refine outcomeLater_onCmd ?_ ?_
    | with_reducible refine later_dite ?_ ?_
    | ((try lift_lets -underBinder); intro x; first
        | (refine later_cut (s0 := s0) (x := x) ?_ ?_ <;> [unfold x; (intro hx; clear_value x)])
        | clear_value x)
    | (with_reducible (fail_if_success (show OutcomeLater _ _)); intro _)
    | with_reducible refine later_dite ?_ ?_
    | with_reducible refine later_ite ?_ ?_
    | with_reducible refine later_complete ?_
    | with_reducible refine later_modLin ?_

theorem outcomeLater_execLinSchedSelect {s0 s : State} {h : HostCmd} {master : Nat} {table : Nat} (hs : State.Later s0 s) :
    OutcomeLater s0 (execLinSchedSelect h master table s) := by
  unfold execLinSchedSelect
  repeat' first
    | with_reducible assumption
    | with_reducible refine outcomeLater_onCmd ?_ ?_
    | with_reducible refine later_dite ?_ ?_
    | ((try lift_lets -underBinder); intro x; first
        | (refine later_cut (s0 := s0) (x := x) ?_ ?_ <;> [unfold x; (intro hx; clear_value x)])
        | clear_value x)
    | (with_reducible (fail_if_success (show OutcomeLater _ _)); intro _)
    | with_reducible refine later_dite ?_ ?_
    | with_reducible refine later_ite ?_ ?_
    | with_reducible refine later_complete ?_
    | with_reducible refine later_linWake ?_
    | with_reducible refine later_modLin ?_

end Sys2Proof.Machine
end

