-- ==== Sys2Proof/Laws/LaterSedge.lean ====
section
/-!
SUPPORT. What no command takes back, for every operation and meaning of Machine/Sedge.lean.
-/

namespace Sys2Proof.Machine

theorem later_modConn {s0 s : State} {t : TileId} {k : Fin 32} {f : SedgeConn → SedgeConn} (hs : State.Later s0 s) :
    State.Later s0 (s.modConn t k f) := by
  unfold State.modConn
  repeat' first
    | with_reducible assumption
    | intro _
    | with_reducible refine later_modTile ?_ ?_
    | exact Tile.Later.same rfl rfl rfl rfl

theorem later_sedgeGrade {s0 s : State} {t : TileId} {k : Fin 32} (hs : State.Later s0 s) :
    State.Later s0 (s.sedgeGrade t k) := by
  unfold State.sedgeGrade
  repeat' first
    | with_reducible assumption
    | ((try lift_lets -underBinder); intro x; first
        | (refine later_cut (s0 := s0) (x := x) ?_ ?_ <;> [unfold x; (intro hx; clear_value x)])
        | clear_value x)
    | intro _
    | with_reducible refine later_ite ?_ ?_
    | with_reducible refine later_each ?_ ?_
    | with_reducible refine later_modTile ?_ ?_
    | exact Tile.Later.same rfl rfl rfl rfl

theorem later_sedgeDemand {s0 s : State} {t : TileId} {k : Fin 32} {before : List Byte} (hs : State.Later s0 s) :
    State.Later s0 (s.sedgeDemand t k before) := by
  unfold State.sedgeDemand
  repeat' first
    | with_reducible assumption
    | ((try lift_lets -underBinder); intro x; first
        | (refine later_cut (s0 := s0) (x := x) ?_ ?_ <;> [unfold x; (intro hx; clear_value x)])
        | (have _ := (x : State → _); unfold x; try dsimp only)
        | (have _ := (x : _ → State); unfold x; try dsimp only)
        | (have _ := (x : _ → State → _); unfold x; try dsimp only)
        | clear_value x)
    | intro _
    | with_reducible refine later_ite ?_ ?_
    | with_reducible refine later_modDoor ?_
    | split

theorem later_setSedge {s0 s : State} {t : TileId} {k : Fin 32} {st : SedgeState} (hs : State.Later s0 s) :
    State.Later s0 (s.setSedge t k st) := by
  unfold State.setSedge
  repeat' first
    | with_reducible assumption
    | ((try lift_lets -underBinder); intro x; first
        | (refine later_cut (s0 := s0) (x := x) ?_ ?_ <;> [unfold x; (intro hx; clear_value x)])
        | clear_value x)
    | intro _
    | with_reducible refine later_ite ?_ ?_
    | with_reducible refine later_modConn ?_
    | with_reducible refine later_raise ?_
    | with_reducible refine later_sedgeGrade ?_

theorem later_sedgeStart {s0 s : State} {t : TileId} {k : Fin 32} (hs : State.Later s0 s) :
    State.Later s0 (s.sedgeStart t k) := by
  unfold State.sedgeStart
  repeat' first
    | with_reducible assumption
    | intro _
    | with_reducible refine later_modConn ?_
    | with_reducible refine later_setSedge ?_

theorem later_sedgeReopen {s0 s : State} {t : TileId} (hs : State.Later s0 s) :
    State.Later s0 (s.sedgeReopen t) := by
  unfold State.sedgeReopen
  repeat' first
    | with_reducible assumption
    | intro _
    | with_reducible refine later_ite ?_ ?_
    | with_reducible refine later_sedgeStart ?_
    | with_reducible refine later_each ?_ ?_

theorem later_sedgeRebase {s0 s : State} {t : TileId} {old : Tile} (hs : State.Later s0 s) :
    State.Later s0 (s.sedgeRebase t old) := by
  unfold State.sedgeRebase
  repeat' first
    | with_reducible assumption
    | ((try lift_lets -underBinder); intro x; first
        | (refine later_cut (s0 := s0) (x := x) ?_ ?_ <;> [unfold x; (intro hx; clear_value x)])
        | clear_value x)
    | intro _
    | with_reducible refine later_ite ?_ ?_
    | with_reducible refine later_sedgeStart ?_
    | with_reducible refine later_each ?_ ?_

theorem later_sedgeRegrade {s0 s : State} {t : TileId} {old : Tile} (hs : State.Later s0 s) :
    State.Later s0 (s.sedgeRegrade t old) := by
  unfold State.sedgeRegrade
  repeat' first
    | with_reducible assumption
    | ((try lift_lets -underBinder); intro x; first
        | (refine later_cut (s0 := s0) (x := x) ?_ ?_ <;> [unfold x; (intro hx; clear_value x)])
        | clear_value x)
    | intro _
    | with_reducible refine later_ite ?_ ?_
    | with_reducible refine later_sedgeGrade ?_
    | with_reducible refine later_each ?_ ?_

theorem later_sedgeFail {s0 s : State} {t : TileId} {k : Fin 32} {check : Fin 5} (hs : State.Later s0 s) :
    State.Later s0 (s.sedgeFail t k check) := by
  unfold State.sedgeFail
  repeat' first
    | with_reducible assumption
    | ((try lift_lets -underBinder); intro x; first
        | (refine later_cut (s0 := s0) (x := x) ?_ ?_ <;> [unfold x; (intro hx; clear_value x)])
        | clear_value x)
    | intro _
    | with_reducible refine later_ite ?_ ?_
    | with_reducible refine later_modConn ?_
    | with_reducible refine later_raise ?_
    | with_reducible refine later_setSedge ?_
    | split

theorem later_sedgeCount {s0 s : State} {t : TileId} {k : Fin 32} (hs : State.Later s0 s) :
    State.Later s0 (s.sedgeCount t k) := by
  unfold State.sedgeCount
  repeat' first
    | with_reducible assumption
    | ((try lift_lets -underBinder); intro x; first
        | (refine later_cut (s0 := s0) (x := x) ?_ ?_ <;> [unfold x; (intro hx; clear_value x)])
        | clear_value x)
    | intro _
    | with_reducible refine later_ite ?_ ?_
    | with_reducible refine later_modConn ?_
    | with_reducible refine later_setSedge ?_

theorem later_sedgeLate {s0 s : State} {t : TileId} {k : Fin 32} (hs : State.Later s0 s) :
    State.Later s0 (s.sedgeLate t k) := by
  unfold State.sedgeLate
  repeat' first
    | with_reducible assumption
    | ((try lift_lets -underBinder); intro x; first
        | (refine later_cut (s0 := s0) (x := x) ?_ ?_ <;> [unfold x; (intro hx; clear_value x)])
        | clear_value x)
    | intro _
    | with_reducible refine later_ite ?_ ?_
    | with_reducible refine later_modConn ?_
    | with_reducible refine later_setSedge ?_

theorem later_sedgeAccept {s0 s : State} {t : TileId} {k : Fin 32} {seq : BitVec 16} {payload : List Byte} (hs : State.Later s0 s) :
    State.Later s0 (s.sedgeAccept t k seq payload) := by
  unfold State.sedgeAccept
  repeat' first
    | with_reducible assumption
    | ((try lift_lets -underBinder); intro x; first
        | (refine later_cut (s0 := s0) (x := x) ?_ ?_ <;> [unfold x; (intro hx; clear_value x)])
        | clear_value x)
    | intro _
    | with_reducible refine later_ite ?_ ?_
    | with_reducible refine later_modConn ?_
    | with_reducible refine later_sedgeCount ?_
    | with_reducible refine later_sedgeDemand ?_
    | with_reducible refine later_sedgeGrade ?_
    | with_reducible refine later_sedgeLate ?_

theorem outcomeLater_execSedgeFrameReceived {s0 s : State} {t : TileId} {conn : Fin 32} {frame : List Byte} {now : Nat} (hs : State.Later s0 s) :
    OutcomeLater s0 (execSedgeFrameReceived t conn frame now s) := by
  unfold execSedgeFrameReceived
  repeat' first
    | with_reducible assumption
    | with_reducible refine outcomeLater_onTile ?_ ?_
    | ((try lift_lets -underBinder); intro x; first
        | (refine later_cut (s0 := s0) (x := x) ?_ ?_ <;> [unfold x; (intro hx; clear_value x)])
        | clear_value x)
    | (with_reducible (fail_if_success (show OutcomeLater _ _)); intro _)
    | with_reducible refine later_ite ?_ ?_
    | with_reducible refine later_holdBack ?_
    | with_reducible refine later_sedgeAccept ?_
    | with_reducible refine later_sedgeFail ?_
    | with_reducible refine later_at ?_
    | split

theorem outcomeLater_execSedgeWatchdogExpiry {s0 s : State} {t : TileId} {due : Fin 32 × Nat} (hs : State.Later s0 s) :
    OutcomeLater s0 (execSedgeWatchdogExpiry t due s) := by
  unfold execSedgeWatchdogExpiry
  repeat' first
    | with_reducible assumption
    | with_reducible refine outcomeLater_onTile ?_ ?_
    | ((try lift_lets -underBinder); intro x; first
        | (refine later_cut (s0 := s0) (x := x) ?_ ?_ <;> [unfold x; (intro hx; clear_value x)])
        | clear_value x)
    | (with_reducible (fail_if_success (show OutcomeLater _ _)); intro _)
    | with_reducible refine later_ite ?_ ?_
    | with_reducible refine later_holdBack ?_
    | with_reducible refine later_sedgeLate ?_
    | with_reducible refine later_at ?_

theorem later_fabricDeliver {s0 s : State} {peer : Nat} {from_ : Nat} {frame : List Byte} (hs : State.Later s0 s) :
    State.Later s0 (s.fabricDeliver peer from_ frame) := by
  unfold State.fabricDeliver
  repeat' first
    | with_reducible assumption
    | intro _
    | with_reducible refine later_ite ?_ ?_
    | with_reducible refine later_each ?_ ?_
    | with_reducible refine later_emit ?_
    | split

theorem later_sedgeSend {s0 s : State} {t : TileId} {addr : SedgeAddr} {frame : List Byte} (hs : State.Later s0 s) :
    State.Later s0 (s.sedgeSend t addr frame) := by
  unfold State.sedgeSend
  repeat' first
    | with_reducible assumption
    | intro _
    | with_reducible refine later_dite ?_ ?_
    | with_reducible refine later_ite ?_ ?_
    | with_reducible refine later_bwkSend ?_
    | with_reducible refine later_canSedgePut ?_
    | with_reducible refine later_ethSend ?_
    | with_reducible refine later_fabricDeliver ?_
    | with_reducible refine later_each ?_ ?_
    | with_reducible refine later_emit ?_
    | with_reducible refine later_modCwy ?_
    | with_reducible refine later_id ?_
    | split

theorem later_txPayload {s0 s : State} {t : TileId} {k : Fin 32} (hs : State.Later s0 s) :
    State.Later s0 (s.txPayload t k).2 := later_draw (later_draw hs)

theorem outcomeLater_execSedgeTxPeriod {s0 s : State} {t : TileId} {conn : Fin 32} (hs : State.Later s0 s) :
    OutcomeLater s0 (execSedgeTxPeriod t conn s) := by
  unfold execSedgeTxPeriod
  repeat' first
    | with_reducible assumption
    | with_reducible refine outcomeLater_onTile ?_ ?_
    | (with_reducible refine later_txPayload ?_)
    | ((try lift_lets -underBinder); intro x; first
        | (refine later_cut (s0 := s0) (x := x) ?_ ?_ <;> [unfold x; (intro hx; clear_value x)])
        | clear_value x)
    | (with_reducible (fail_if_success (show OutcomeLater _ _)); intro _)
    | with_reducible refine later_ite ?_ ?_
    | with_reducible refine later_holdBack ?_
    | with_reducible refine later_modConn ?_
    | with_reducible refine later_sedgeSend ?_
    | split

theorem later_bindBuffer {s0 s : State} {t : TileId} {addr : SedgeAddr} {owner : Option (Fin 32)} (hs : State.Later s0 s) :
    State.Later s0 (s.bindBuffer t addr owner) := by
  unfold State.bindBuffer
  repeat' first
    | with_reducible assumption
    | intro _
    | with_reducible refine later_dite ?_ ?_
    | with_reducible refine later_ite ?_ ?_
    | with_reducible refine later_modBuf ?_
    | split

theorem outcomeLater_execSedgeOpen {s0 s : State} {h : HostCmd} {conn : Nat} {addr : SedgeAddr} (hs : State.Later s0 s) :
    OutcomeLater s0 (execSedgeOpen h conn addr s) := by
  unfold execSedgeOpen
  repeat' first
    | with_reducible assumption
    | with_reducible refine outcomeLater_onCmd ?_ ?_
    | ((try lift_lets -underBinder); intro x; first
        | (refine later_cut (s0 := s0) (x := x) ?_ ?_ <;> [unfold x; (intro hx; clear_value x)])
        | clear_value x)
    | (with_reducible (fail_if_success (show OutcomeLater _ _)); intro _)
    | with_reducible refine later_dite ?_ ?_
    | with_reducible refine later_ite ?_ ?_
    | with_reducible refine later_bindBuffer ?_
    | with_reducible refine later_complete ?_
    | with_reducible refine later_configRecord ?_
    | with_reducible refine later_holdBack ?_
    | with_reducible refine later_modConn ?_
    | with_reducible refine later_sedgeStart ?_
    | split

theorem outcomeLater_execSedgeClose {s0 s : State} {h : HostCmd} {conn : Nat} (hs : State.Later s0 s) :
    OutcomeLater s0 (execSedgeClose h conn s) := by
  unfold execSedgeClose
  repeat' first
    | with_reducible assumption
    | with_reducible refine outcomeLater_onCmd ?_ ?_
    | ((try lift_lets -underBinder); intro x; first
        | (refine later_cut (s0 := s0) (x := x) ?_ ?_ <;> [unfold x; (intro hx; clear_value x)])
        | clear_value x)
    | (with_reducible (fail_if_success (show OutcomeLater _ _)); intro _)
    | with_reducible refine later_dite ?_ ?_
    | with_reducible refine later_ite ?_ ?_
    | with_reducible refine later_bindBuffer ?_
    | with_reducible refine later_complete ?_
    | with_reducible refine later_configRecord ?_
    | with_reducible refine later_holdBack ?_
    | with_reducible refine later_modConn ?_
    | with_reducible refine later_setSedge ?_
    | with_reducible refine later_modDoor ?_
    | split

end Sys2Proof.Machine
end

