-- ==== Sys2Proof/Laws/LaterRings.lean ====
section
/-!
SUPPORT. What no command takes back, for every operation and meaning of Machine/Rings.lean.
-/

namespace Sys2Proof.Machine

theorem later_modRing {s0 s : State} {k : RingKind} {n : Fin 32} {f : Ring → Ring} (hs : State.Later s0 s) :
    State.Later s0 (s.modRing k n f) := by
  unfold State.modRing
  repeat' first
    | with_reducible assumption
    | intro _
    | with_reducible refine later_modHost ?_

theorem later_doorbell {s0 s : State} {k : RingKind} {n : Fin 32} {value : BitVec 64} (hs : State.Later s0 s) :
    State.Later s0 (s.doorbell k n value) := by
  unfold State.doorbell
  repeat' first
    | with_reducible assumption
    | ((try lift_lets -underBinder); intro x; first
        | (refine later_cut (s0 := s0) (x := x) ?_ ?_ <;> [unfold x; (intro hx; clear_value x)])
        | clear_value x)
    | intro _
    | with_reducible refine later_ite ?_ ?_
    | with_reducible refine later_modRing ?_
    | with_reducible refine later_raiseHead ?_
    | split

theorem outcomeLater_execCmdqDoorbell {s0 s : State} {q : Fin 32} {value : BitVec 64} (hs : State.Later s0 s) :
    OutcomeLater s0 (execCmdqDoorbell q value s) := by
  unfold execCmdqDoorbell
  repeat' first
    | with_reducible assumption
    | with_reducible refine outcomeLater_onHead ?_ ?_
    | (with_reducible (fail_if_success (show OutcomeLater _ _)); intro _)
    | with_reducible refine later_doorbell ?_

theorem outcomeLater_execCplDoorbell {s0 s : State} {c : Fin 32} {value : BitVec 64} (hs : State.Later s0 s) :
    OutcomeLater s0 (execCplDoorbell c value s) := by
  unfold execCplDoorbell
  repeat' first
    | with_reducible assumption
    | with_reducible refine outcomeLater_onHead ?_ ?_
    | (with_reducible (fail_if_success (show OutcomeLater _ _)); intro _)
    | with_reducible refine later_doorbell ?_

theorem outcomeLater_execEvtDoorbell {s0 s : State} {e : Fin 8} {value : BitVec 64} (hs : State.Later s0 s) :
    OutcomeLater s0 (execEvtDoorbell e value s) := by
  unfold execEvtDoorbell
  repeat' first
    | with_reducible assumption
    | with_reducible refine outcomeLater_onHead ?_ ?_
    | (with_reducible (fail_if_success (show OutcomeLater _ _)); intro _)
    | with_reducible refine later_doorbell ?_

theorem later_ringDisable {s0 s : State} {k : RingKind} {n : Fin 32} (hs : State.Later s0 s) :
    State.Later s0 (s.ringDisable k n) := by
  unfold State.ringDisable
  repeat' first
    | with_reducible assumption
    | ((try lift_lets -underBinder); intro x; first
        | (refine later_cut (s0 := s0) (x := x) ?_ ?_ <;> [unfold x; (intro hx; clear_value x)])
        | clear_value x)
    | intro _
    | with_reducible refine later_ite ?_ ?_
    | with_reducible refine later_modRing ?_
    | split

theorem later_ctlWrite {s0 s : State} {k : RingKind} {n : Fin 32} {value : Word} (hs : State.Later s0 s) :
    State.Later s0 (s.ctlWrite k n value) := by
  unfold State.ctlWrite
  repeat' first
    | with_reducible assumption
    | ((try lift_lets -underBinder); intro x; first
        | (refine later_cut (s0 := s0) (x := x) ?_ ?_ <;> [unfold x; (intro hx; clear_value x)])
        | clear_value x)
    | intro _
    | with_reducible refine later_ite ?_ ?_
    | with_reducible refine later_modRing ?_
    | with_reducible refine later_ringDisable ?_
    | split

theorem later_ctlClear {s0 s : State} {k : RingKind} {n : Fin 32} (hs : State.Later s0 s) :
    State.Later s0 (s.ctlClear k n) := by
  unfold State.ctlClear
  repeat' first
    | with_reducible assumption
    | intro _
    | with_reducible refine later_ite ?_ ?_
    | with_reducible refine later_ringDisable ?_

theorem outcomeLater_execCmdqEnable {s0 s : State} {q : Fin 32} {ctl : Word} (hs : State.Later s0 s) :
    OutcomeLater s0 (execCmdqEnable q ctl s) := by
  unfold execCmdqEnable
  repeat' first
    | with_reducible assumption
    | with_reducible refine outcomeLater_onHead ?_ ?_
    | (with_reducible (fail_if_success (show OutcomeLater _ _)); intro _)
    | with_reducible refine later_ctlWrite ?_

theorem outcomeLater_execCmdqDisable {s0 s : State} {q : Fin 32} (hs : State.Later s0 s) :
    OutcomeLater s0 (execCmdqDisable q s) := by
  unfold execCmdqDisable
  repeat' first
    | with_reducible assumption
    | with_reducible refine outcomeLater_onHead ?_ ?_
    | (with_reducible (fail_if_success (show OutcomeLater _ _)); intro _)
    | with_reducible refine later_ctlClear ?_

theorem outcomeLater_execCplRingEnable {s0 s : State} {c : Fin 32} {ctl : Word} (hs : State.Later s0 s) :
    OutcomeLater s0 (execCplRingEnable c ctl s) := by
  unfold execCplRingEnable
  repeat' first
    | with_reducible assumption
    | with_reducible refine outcomeLater_onHead ?_ ?_
    | (with_reducible (fail_if_success (show OutcomeLater _ _)); intro _)
    | with_reducible refine later_ctlWrite ?_

theorem outcomeLater_execCplRingDisable {s0 s : State} {c : Fin 32} (hs : State.Later s0 s) :
    OutcomeLater s0 (execCplRingDisable c s) := by
  unfold execCplRingDisable
  repeat' first
    | with_reducible assumption
    | with_reducible refine outcomeLater_onHead ?_ ?_
    | (with_reducible (fail_if_success (show OutcomeLater _ _)); intro _)
    | with_reducible refine later_ctlClear ?_

theorem outcomeLater_execEvtRingEnable {s0 s : State} {e : Fin 8} {ctl : Word} (hs : State.Later s0 s) :
    OutcomeLater s0 (execEvtRingEnable e ctl s) := by
  unfold execEvtRingEnable
  repeat' first
    | with_reducible assumption
    | with_reducible refine outcomeLater_onHead ?_ ?_
    | (with_reducible (fail_if_success (show OutcomeLater _ _)); intro _)
    | with_reducible refine later_ctlWrite ?_

theorem outcomeLater_execEvtRingDisable {s0 s : State} {e : Fin 8} (hs : State.Later s0 s) :
    OutcomeLater s0 (execEvtRingDisable e s) := by
  unfold execEvtRingDisable
  repeat' first
    | with_reducible assumption
    | with_reducible refine outcomeLater_onHead ?_ ?_
    | (with_reducible (fail_if_success (show OutcomeLater _ _)); intro _)
    | with_reducible refine later_ctlClear ?_

theorem outcomeLater_execRingDisableComplete {s0 s : State} {k : RingKind} {n : Fin 32} (hs : State.Later s0 s) :
    OutcomeLater s0 (execRingDisableComplete k n s) := by
  unfold execRingDisableComplete
  repeat' first
    | with_reducible assumption
    | with_reducible refine outcomeLater_onHead ?_ ?_
    | (with_reducible (fail_if_success (show OutcomeLater _ _)); intro _)
    | with_reducible refine later_ite ?_ ?_
    | with_reducible refine later_modRing ?_

theorem outcomeLater_execInterruptModerationTimeout {s0 s : State} {k : RingKind} {n : Fin 32} (hs : State.Later s0 s) :
    OutcomeLater s0 (execInterruptModerationTimeout k n s) := by
  unfold execInterruptModerationTimeout
  repeat' first
    | with_reducible assumption
    | with_reducible refine outcomeLater_onHead ?_ ?_
    | ((try lift_lets -underBinder); intro x; first
        | (refine later_cut (s0 := s0) (x := x) ?_ ?_ <;> [unfold x; (intro hx; clear_value x)])
        | clear_value x)
    | (with_reducible (fail_if_success (show OutcomeLater _ _)); intro _)
    | with_reducible refine later_ite ?_ ?_
    | with_reducible refine later_modRing ?_
    | with_reducible refine later_signal ?_

theorem later_msixWrite {s0 s : State} {i : Nat} {value : Nat} (hs : State.Later s0 s) :
    State.Later s0 (s.msixWrite i value) := by
  unfold State.msixWrite
  repeat' first
    | with_reducible assumption
    | ((try lift_lets -underBinder); intro x; first
        | (refine later_cut (s0 := s0) (x := x) ?_ ?_ <;> [unfold x; (intro hx; clear_value x)])
        | clear_value x)
    | intro _
    | with_reducible refine later_ite ?_ ?_
    | with_reducible refine later_emit ?_
    | with_reducible refine later_modHost ?_

theorem outcomeLater_execMsixVectorUnmask {s0 s : State} {v : Fin 64} (hs : State.Later s0 s) :
    OutcomeLater s0 (execMsixVectorUnmask v s) := by
  unfold execMsixVectorUnmask
  repeat' first
    | with_reducible assumption
    | with_reducible refine outcomeLater_onHead ?_ ?_
    | (with_reducible (fail_if_success (show OutcomeLater _ _)); intro _)
    | with_reducible refine later_ite ?_ ?_
    | with_reducible refine later_msixWrite ?_

theorem later_endpointReset {s0 s : State} (hs : State.Later s0 s) :
    State.Later s0 s.endpointReset := by
  unfold State.endpointReset
  repeat' first
    | with_reducible assumption
    | with_reducible exact Nat.le_refl _
    | with_reducible exact Nat.le_succ _
    | with_reducible exact rfl
    | intro _
    | with_reducible refine later_ite ?_ ?_
    | with_reducible refine later_hostReset ?_
    | with_reducible refine later_modHead ?_ ?_ ?_

theorem outcomeLater_execPcieConventionalReset {s0 s : State} (hs : State.Later s0 s) :
    OutcomeLater s0 (execPcieConventionalReset s) := by
  unfold execPcieConventionalReset
  repeat' first
    | with_reducible assumption
    | with_reducible refine outcomeLater_onHead ?_ ?_
    | (with_reducible (fail_if_success (show OutcomeLater _ _)); intro _)
    | with_reducible refine later_endpointReset ?_

theorem outcomeLater_execPcieHotReset {s0 s : State} (hs : State.Later s0 s) :
    OutcomeLater s0 (execPcieHotReset s) := by
  unfold execPcieHotReset
  repeat' first
    | with_reducible assumption
    | with_reducible refine outcomeLater_onHead ?_ ?_
    | (with_reducible (fail_if_success (show OutcomeLater _ _)); intro _)
    | with_reducible refine later_endpointReset ?_

theorem outcomeLater_execFunctionLevelReset {s0 s : State} (hs : State.Later s0 s) :
    OutcomeLater s0 (execFunctionLevelReset s) := by
  unfold execFunctionLevelReset
  repeat' first
    | with_reducible assumption
    | with_reducible refine outcomeLater_onHead ?_ ?_
    | (with_reducible (fail_if_success (show OutcomeLater _ _)); intro _)
    | with_reducible refine later_endpointReset ?_

theorem outcomeLater_execPcieLinkDown {s0 s : State} (hs : State.Later s0 s) :
    OutcomeLater s0 (execPcieLinkDown s) := by
  unfold execPcieLinkDown
  repeat' first
    | with_reducible assumption
    | with_reducible refine outcomeLater_onHead ?_ ?_
    | (with_reducible (fail_if_success (show OutcomeLater _ _)); intro _)
    | with_reducible refine later_endpointReset ?_

theorem outcomeLater_execBusMasterEnableCleared {s0 s : State} (hs : State.Later s0 s) :
    OutcomeLater s0 (execBusMasterEnableCleared s) := by
  unfold execBusMasterEnableCleared
  repeat' first
    | with_reducible assumption
    | with_reducible refine outcomeLater_onHead ?_ ?_
    | (with_reducible (fail_if_success (show OutcomeLater _ _)); intro _)
    | with_reducible refine later_ite ?_ ?_
    | with_reducible refine later_hostReset ?_

theorem later_sessEnd {s0 s : State} (hs : State.Later s0 s) :
    State.Later s0 s.sessEnd := by
  unfold State.sessEnd
  repeat' first
    | with_reducible assumption
    | intro _
    | with_reducible refine later_ite ?_ ?_
    | with_reducible refine later_hostReset ?_

theorem outcomeLater_execSessEnd {s0 s : State} (hs : State.Later s0 s) :
    OutcomeLater s0 (execSessEnd s) := by
  unfold execSessEnd
  repeat' first
    | with_reducible assumption
    | with_reducible refine outcomeLater_onHead ?_ ?_
    | (with_reducible (fail_if_success (show OutcomeLater _ _)); intro _)
    | with_reducible refine later_sessEnd ?_

theorem later_abortHeld {s0 s : State} {o : Outstanding} (hs : State.Later s0 s) :
    State.Later s0 (s.abortHeld o) := by
  unfold State.abortHeld
  repeat' first
    | with_reducible assumption
    | ((try lift_lets -underBinder); intro x; first
        | (refine later_cut (s0 := s0) (x := x) ?_ ?_ <;> [unfold x; (intro hx; clear_value x)])
        | clear_value x)
    | intro _
    | with_reducible refine later_bwkSend ?_
    | with_reducible refine later_completeOut ?_
    | split

theorem outcomeLater_execBye {s0 s : State} {h : HostCmd} (hs : State.Later s0 s) :
    OutcomeLater s0 (execBye h s) := by
  unfold execBye
  repeat' first
    | with_reducible assumption
    | with_reducible refine outcomeLater_onCmd ?_ ?_
    | ((try lift_lets -underBinder); intro x; first
        | (refine later_cut (s0 := s0) (x := x) ?_ ?_ <;> [unfold x; (intro hx; clear_value x)])
        | clear_value x)
    | (with_reducible (fail_if_success (show OutcomeLater _ _)); intro _)
    | with_reducible refine later_ite ?_ ?_
    | with_reducible refine later_abortHeld ?_
    | with_reducible refine later_completeRaw ?_
    | with_reducible refine later_hostReset ?_
    | with_reducible refine later_each ?_ ?_
    | with_reducible refine later_modHost ?_
    | split

theorem outcomeLater_execByeTimeout {s0 s : State} (hs : State.Later s0 s) :
    OutcomeLater s0 (execByeTimeout s) := by
  unfold execByeTimeout
  repeat' first
    | with_reducible assumption
    | with_reducible refine outcomeLater_onHead ?_ ?_
    | (with_reducible (fail_if_success (show OutcomeLater _ _)); intro _)
    | with_reducible refine later_ite ?_ ?_
    | with_reducible refine later_completeRaw ?_
    | with_reducible refine later_hostReset ?_
    | split

theorem later_ifcWrite {s0 s : State} {value : Word} (hs : State.Later s0 s) :
    State.Later s0 (s.ifcWrite value) := by
  unfold State.ifcWrite
  repeat' first
    | with_reducible assumption
    | with_reducible exact Nat.le_refl _
    | with_reducible exact Nat.le_succ _
    | intro _
    | with_reducible refine later_ite ?_ ?_
    | with_reducible refine later_bwkTell ?_
    | with_reducible refine later_modTime ?_ ?_

theorem outcomeLater_execIfcCtlWrite {s0 s : State} {value : Word} (hs : State.Later s0 s) :
    OutcomeLater s0 (execIfcCtlWrite value s) := by
  unfold execIfcCtlWrite
  repeat' first
    | with_reducible assumption
    | with_reducible refine outcomeLater_onHead ?_ ?_
    | (with_reducible (fail_if_success (show OutcomeLater _ _)); intro _)
    | with_reducible refine later_ifcWrite ?_

theorem later_changesRead {s0 s : State} {count : Nat} (hs : State.Later s0 s) :
    State.Later s0 (s.changesRead count) := by
  unfold State.changesRead
  repeat' first
    | with_reducible assumption
    | intro _
    | with_reducible refine later_modBoard ?_

/-- A state of which only the windows have changed. -/
theorem later_windows {s0 s : State} {w : SMap} (hs : State.Later s0 s) : State.Later s0 { s with windows := w } :=
  later_same hs rfl rfl rfl rfl rfl rfl

theorem outcomeLater_execBwkStatusRead {s0 s : State} {pkg : Fin 4} (hs : State.Later s0 s) :
    OutcomeLater s0 (execBwkStatusRead pkg s) := by
  unfold execBwkStatusRead
  exact outcomeLater_onHead hs (fun x hx => later_ite (fun _ => hx) (fun _ => later_ite
    (fun _ => later_changesRead (later_windows hx)) (fun _ => later_bwkSend (later_windows hx))))

theorem later_baseWrite {s0 s : State} {k : RingKind} {n : Fin 32} {off : Nat} {high : Bool} {value : Word} (hs : State.Later s0 s) :
    State.Later s0 (s.baseWrite k n off high value) := by
  unfold State.baseWrite
  repeat' first
    | with_reducible assumption
    | ((try lift_lets -underBinder); intro x; first
        | (refine later_cut (s0 := s0) (x := x) ?_ ?_ <;> [unfold x; (intro hx; clear_value x)])
        | clear_value x)
    | intro _
    | with_reducible refine later_ite ?_ ?_
    | with_reducible refine later_modRing ?_
    | with_reducible refine later_modHost ?_
    | split

theorem later_imodWrite {s0 s : State} {k : RingKind} {n : Fin 32} {value : Word} (hs : State.Later s0 s) :
    State.Later s0 (s.imodWrite k n value) := by
  unfold State.imodWrite
  repeat' first
    | with_reducible assumption
    | ((try lift_lets -underBinder); intro x; first
        | (refine later_cut (s0 := s0) (x := x) ?_ ?_ <;> [unfold x; (intro hx; clear_value x)])
        | clear_value x)
    | intro _
    | with_reducible refine later_ite ?_ ?_
    | with_reducible refine later_modRing ?_

theorem later_filterWrite {s0 s : State} {n : Fin 32} {value : Word} (hs : State.Later s0 s) :
    State.Later s0 (s.filterWrite n value) := by
  unfold State.filterWrite
  repeat' first
    | with_reducible assumption
    | ((try lift_lets -underBinder); intro x; first
        | (refine later_cut (s0 := s0) (x := x) ?_ ?_ <;> [unfold x; (intro hx; clear_value x)])
        | clear_value x)
    | intro _
    | with_reducible refine later_ite ?_ ?_
    | with_reducible refine later_modRing ?_

theorem later_ringWrite {s0 s : State} {k : RingKind} {n : Fin 32} {off : Nat} {value : Word} (hs : State.Later s0 s) :
    State.Later s0 (s.ringWrite k n off value) := by
  unfold State.ringWrite
  repeat' first
    | with_reducible assumption
    | intro _
    | with_reducible refine later_ite ?_ ?_
    | with_reducible refine later_baseWrite ?_
    | with_reducible refine later_ctlWrite ?_
    | with_reducible refine later_filterWrite ?_
    | with_reducible refine later_imodWrite ?_
    | split

theorem later_timWrite {s0 s : State} {p : EthPort} {asym : Bool} {value : Word} (hs : State.Later s0 s) :
    State.Later s0 (s.timWrite p asym value) := by
  unfold State.timWrite
  repeat' first
    | with_reducible assumption
    | intro _
    | with_reducible refine later_ite ?_ ?_
    | with_reducible refine later_modEth ?_

theorem later_registerWrite {s0 s : State} {o : Nat} {value : Word} (hs : State.Later s0 s) :
    State.Later s0 (s.registerWrite o value) := by
  unfold State.registerWrite
  repeat' first
    | with_reducible assumption
    | intro _
    | with_reducible refine later_ite ?_ ?_
    | with_reducible refine later_ifcWrite ?_
    | with_reducible refine later_msixWrite ?_
    | with_reducible refine later_ringWrite ?_
    | with_reducible refine later_sessEnd ?_
    | with_reducible refine later_timWrite ?_

theorem outcomeLater_execRegisterWrite {s0 s : State} {offset : BitVec 16} {data : Nat × BitVec 64} (hs : State.Later s0 s) :
    OutcomeLater s0 (execRegisterWrite offset data s) := by
  unfold execRegisterWrite
  repeat' first
    | with_reducible assumption
    | with_reducible refine outcomeLater_onHead ?_ ?_
    | ((try lift_lets -underBinder); intro x; first
        | (refine later_cut (s0 := s0) (x := x) ?_ ?_ <;> [unfold x; (intro hx; clear_value x)])
        | clear_value x)
    | (with_reducible (fail_if_success (show OutcomeLater _ _)); intro _)
    | with_reducible refine later_ite ?_ ?_
    | with_reducible refine later_registerWrite ?_

theorem later_setOut {s0 s : State} {o : Outstanding} {new : Outstanding} (hs : State.Later s0 s) :
    State.Later s0 (s.setOut o new) := by
  unfold State.setOut
  repeat' first
    | with_reducible assumption
    | intro _
    | with_reducible refine later_ite ?_ ?_
    | with_reducible refine later_modHost ?_

theorem later_forward {s0 s : State} {o : Outstanding} {hold : Bool} (hs : State.Later s0 s) :
    State.Later s0 (s.forward o hold) := by
  unfold State.forward
  repeat' first
    | with_reducible assumption
    | ((try lift_lets -underBinder); intro x; first
        | (refine later_cut (s0 := s0) (x := x) ?_ ?_ <;> [unfold x; (intro hx; clear_value x)])
        | clear_value x)
    | intro _
    | with_reducible refine later_ite ?_ ?_
    | with_reducible refine later_bwkSend ?_
    | with_reducible refine later_setOut ?_
    | with_reducible refine later_modHost ?_

theorem outcomeLater_execDescriptorFetch {s0 s : State} {q : Fin 32} {desc : Vector Byte 64} (hs : State.Later s0 s) :
    OutcomeLater s0 (execDescriptorFetch q desc s) := by
  unfold execDescriptorFetch
  repeat' first
    | with_reducible assumption
    | with_reducible refine outcomeLater_onHead ?_ ?_
    | ((try lift_lets -underBinder); intro x; first
        | (refine later_cut (s0 := s0) (x := x) ?_ ?_ <;> [unfold x; (intro hx; clear_value x)])
        | clear_value x)
    | (with_reducible (fail_if_success (show OutcomeLater _ _)); intro _)
    | with_reducible refine later_dite ?_ ?_
    | with_reducible refine later_ite ?_ ?_
    | with_reducible refine later_completeOut ?_
    | with_reducible refine later_forward ?_
    | with_reducible refine later_modRing ?_
    | with_reducible refine later_setOut ?_
    | with_reducible refine later_modHost ?_
    | exact later_same ‹_› rfl rfl rfl rfl rfl rfl
    | split

theorem later_releaseHeld {s0 : State} (l : List Outstanding) {s : State} (hs : State.Later s0 s) :
    State.Later s0 (s.releaseHeld l) := by
  induction l generalizing s with
  | nil => exact hs
  | cons o l ih =>
    have h1 : State.Later s0 (if o.behind then s.forward o (s.tooSoon o) else if s.tooSoon o then s
        else s.setOut o { o with waiting := false }) :=
      later_ite (fun _ => later_forward hs) (fun _ => later_ite (fun _ => hs) (fun _ => later_setOut hs))
    exact later_ite (fun _ => ih (later_completeOut hs)) (fun _ => later_ite (fun _ => h1) (fun _ => ih h1))

theorem outcomeLater_execNotBeforeRelease {s0 s : State} {q : Fin 32} (hs : State.Later s0 s) :
    OutcomeLater s0 (execNotBeforeRelease q s) := by
  unfold execNotBeforeRelease
  repeat' first
    | with_reducible assumption
    | with_reducible refine outcomeLater_onHead ?_ ?_
    | with_reducible refine later_releaseHeld _ ?_
    | ((try lift_lets -underBinder); intro x; first
        | (refine later_cut (s0 := s0) (x := x) ?_ ?_ <;> [unfold x; (intro hx; clear_value x)])
        | clear_value x)
    | (with_reducible (fail_if_success (show OutcomeLater _ _)); intro _)
    | with_reducible refine later_ite ?_ ?_
    | with_reducible refine later_setOut ?_
    | with_reducible refine later_each ?_ ?_

theorem later_eventById {s0 s : State} {id : Nat} {ts : Word} {data : List Byte} (hs : State.Later s0 s) :
    State.Later s0 (s.eventById id ts data) := by
  unfold State.eventById
  repeat' first
    | with_reducible assumption
    | ((try lift_lets -underBinder); intro x; first
        | (refine later_cut (s0 := s0) (x := x) ?_ ?_ <;> [unfold x; (intro hx; clear_value x)])
        | clear_value x)
    | intro _
    | with_reducible refine later_ite ?_ ?_
    | with_reducible refine later_evtSend ?_
    | with_reducible refine later_each ?_ ?_
    | with_reducible refine later_id ?_

theorem later_remoteDoorEvent {s0 s : State} {bt : Nat} (hs : State.Later s0 s) :
    State.Later s0 (s.remoteDoorEvent bt) := by
  unfold State.remoteDoorEvent
  repeat' first
    | with_reducible assumption
    | ((try lift_lets -underBinder); intro x; first
        | (refine later_cut (s0 := s0) (x := x) ?_ ?_ <;> [unfold x; (intro hx; clear_value x)])
        | clear_value x)
    | intro _
    | with_reducible refine later_eventById ?_

theorem later_strapEvent {s0 s : State} (hs : State.Later s0 s) :
    State.Later s0 s.strapEvent := by
  unfold State.strapEvent
  repeat' first
    | with_reducible assumption
    | ((try lift_lets -underBinder); intro x; first
        | (refine later_cut (s0 := s0) (x := x) ?_ ?_ <;> [unfold x; (intro hx; clear_value x)])
        | clear_value x)
    | intro _
    | with_reducible refine later_raiseHead ?_

theorem later_standingDoor {s0 s : State} {t : TileId} (hs : State.Later s0 s) :
    State.Later s0 (s.standingDoor t) := by
  unfold State.standingDoor
  repeat' first
    | with_reducible assumption
    | ((try lift_lets -underBinder); intro x; first
        | (refine later_cut (s0 := s0) (x := x) ?_ ?_ <;> [unfold x; (intro hx; clear_value x)])
        | clear_value x)
    | intro _
    | with_reducible refine later_raise ?_

theorem later_standingFaults {s0 s : State} (hs : State.Later s0 s) :
    State.Later s0 s.standingFaults := by
  unfold State.standingFaults
  repeat' first
    | with_reducible assumption
    | intro _
    | with_reducible refine later_raise ?_
    | with_reducible refine later_each ?_ ?_

theorem later_standingConditions {s0 s : State} (hs : State.Later s0 s) :
    State.Later s0 s.standingConditions := by
  unfold State.standingConditions
  repeat' first
    | with_reducible assumption
    | ((try lift_lets -underBinder); intro x; first
        | (refine later_cut (s0 := s0) (x := x) ?_ ?_ <;> [unfold x; (intro hx; clear_value x)])
        | clear_value x)
    | intro _
    | with_reducible refine later_dite ?_ ?_
    | with_reducible refine later_ite ?_ ?_
    | with_reducible refine later_raise ?_
    | with_reducible refine later_raiseHead ?_
    | with_reducible refine later_each ?_ ?_
    | split

theorem later_standingStep {s0 s : State} (hs : State.Later s0 s) :
    State.Later s0 s.standingStep := by
  unfold State.standingStep
  repeat' first
    | with_reducible assumption
    | ((try lift_lets -underBinder); intro x; first
        | (refine later_cut (s0 := s0) (x := x) ?_ ?_ <;> [unfold x; (intro hx; clear_value x)])
        | clear_value x)
    | intro _
    | with_reducible refine later_raiseHead ?_
    | split

theorem later_standingEvents {s0 s : State} (hs : State.Later s0 s) :
    State.Later s0 s.standingEvents := by
  unfold State.standingEvents
  repeat' first
    | with_reducible assumption
    | ((try lift_lets -underBinder); intro x; first
        | (refine later_cut (s0 := s0) (x := x) ?_ ?_ <;> [unfold x; (intro hx; clear_value x)])
        | clear_value x)
    | intro _
    | with_reducible refine later_ite ?_ ?_
    | with_reducible refine later_bwkTell ?_
    | with_reducible refine later_epochMark ?_
    | with_reducible refine later_remoteDoorEvent ?_
    | with_reducible refine later_standingConditions ?_
    | with_reducible refine later_standingDoor ?_
    | with_reducible refine later_standingFaults ?_
    | with_reducible refine later_standingStep ?_
    | with_reducible refine later_strapEvent ?_
    | with_reducible refine later_each ?_ ?_

theorem outcomeLater_execHello {s0 s : State} {h : HostCmd} {verMin : BitVec 16} {verMax : BitVec 16} {hostId : BitVec 64} (hs : State.Later s0 s) :
    OutcomeLater s0 (execHello h verMin verMax hostId s) := by
  unfold execHello
  repeat' first
    | with_reducible assumption
    | with_reducible refine outcomeLater_onCmd ?_ ?_
    | ((try lift_lets -underBinder); intro x; first
        | (refine later_cut (s0 := s0) (x := x) ?_ ?_ <;> [unfold x; (intro hx; clear_value x)])
        | clear_value x)
    | (with_reducible (fail_if_success (show OutcomeLater _ _)); intro _)
    | with_reducible refine later_ite ?_ ?_
    | with_reducible refine later_complete ?_
    | with_reducible refine later_hostReset ?_
    | with_reducible refine later_ringDisable ?_
    | with_reducible refine later_standingEvents ?_
    | with_reducible refine later_each ?_ ?_
    | with_reducible refine later_modHost ?_
    | split

end Sys2Proof.Machine
end

