-- ==== Sys2Proof/Laws/LaterPolicy.lean ====
section
/-!
SUPPORT. What no command takes back, for every operation and meaning of Machine/Policy.lean.
-/

namespace Sys2Proof.Machine

theorem outcomeLater_execPolicyLoad {s0 s : State} {h : HostCmd} {bundle : List Byte} (hs : State.Later s0 s) :
    OutcomeLater s0 (execPolicyLoad h bundle s) := by
  unfold execPolicyLoad
  repeat' first
    | with_reducible assumption
    | with_reducible refine outcomeLater_onCmd ?_ ?_
    | with_reducible exact fun _ k => k
    | with_reducible exact fun _ _ => Bridge.noConfusion
    | with_reducible exact fun k => ⟨k, id, id, id⟩
    | with_reducible exact Nat.le_refl _
    | with_reducible exact Nat.le_succ _
    | ((try lift_lets -underBinder); intro x; first
        | (refine later_cut (s0 := s0) (x := x) ?_ ?_ <;> [unfold x; (intro hx; clear_value x)])
        | clear_value x)
    | (with_reducible (fail_if_success (show OutcomeLater _ _)); intro _)
    | with_reducible refine later_dite ?_ ?_
    | with_reducible refine later_ite ?_ ?_
    | with_reducible refine later_complete ?_
    | with_reducible refine later_modDie ?_ ?_ ?_
    | split

theorem outcomeLater_execPolicyActivate {s0 s : State} {h : HostCmd} (hs : State.Later s0 s) :
    OutcomeLater s0 (execPolicyActivate h s) := by
  unfold execPolicyActivate
  repeat' first
    | with_reducible assumption
    | with_reducible refine outcomeLater_onCmd ?_ ?_
    | with_reducible exact fun _ k => k
    | with_reducible exact fun _ _ => Bridge.noConfusion
    | with_reducible exact fun k => ⟨k, id, id, id⟩
    | with_reducible exact Nat.le_refl _
    | with_reducible exact Nat.le_succ _
    | ((try lift_lets -underBinder); intro x; first
        | (refine later_cut (s0 := s0) (x := x) ?_ ?_ <;> [unfold x; (intro hx; clear_value x)])
        | clear_value x)
    | (with_reducible (fail_if_success (show OutcomeLater _ _)); intro _)
    | with_reducible refine later_ite ?_ ?_
    | with_reducible refine later_complete ?_
    | with_reducible refine later_configRecord ?_
    | with_reducible refine later_holdBack ?_
    | with_reducible refine later_modDie ?_ ?_ ?_
    | with_reducible refine later_modDoor ?_
    | split

theorem outcomeLater_execPolicyBundleTakesEffect {s0 s : State} {t : TileId} (hs : State.Later s0 s) :
    OutcomeLater s0 (execPolicyBundleTakesEffect t s) := by
  unfold execPolicyBundleTakesEffect
  repeat' first
    | with_reducible assumption
    | with_reducible refine outcomeLater_onTile ?_ ?_
    | with_reducible exact fun _ k => k
    | with_reducible exact fun _ _ => Bridge.noConfusion
    | with_reducible exact fun k => ⟨k, id, id, id⟩
    | with_reducible exact rfl
    | (with_reducible refine later_modKept ?_ ?_)
    | exact FieldDie.Kept.refl _
    | exact Tile.Later.mk' rfl rfl rfl rfl (Tile.Harmless.same rfl rfl)
    | exact (⟨rfl, fun hf => ⟨hf, id, id, id⟩⟩ : FieldDie.Kept _ _)
    | ((try lift_lets -underBinder); intro x; first
        | (refine later_cut (s0 := s0) (x := x) ?_ ?_ <;> [unfold x; (intro hx; clear_value x)])
        | clear_value x)
    | (with_reducible (fail_if_success (show OutcomeLater _ _)); intro _)
    | with_reducible refine later_ite ?_ ?_
    | with_reducible refine later_configRecord ?_
    | with_reducible refine later_holdBack ?_
    | with_reducible refine later_pairsRefresh ?_
    | with_reducible refine later_raise ?_
    | with_reducible refine later_sedgeRebase ?_
    | with_reducible refine later_sedgeRegrade ?_
    | with_reducible refine later_soundingsCleared ?_
    | with_reducible refine later_each ?_ ?_
    | with_reducible refine later_modField ?_ ?_ ?_
    | with_reducible refine later_modTile ?_ ?_
    | exact Tile.Later.same rfl rfl rfl rfl
    | split

theorem outcomeLater_execTileParametersTakeEffect {s0 s : State} {t : TileId} (hs : State.Later s0 s) :
    OutcomeLater s0 (execTileParametersTakeEffect t s) := by
  unfold execTileParametersTakeEffect
  repeat' first
    | with_reducible assumption
    | with_reducible refine outcomeLater_onTile ?_ ?_
    | ((try lift_lets -underBinder); intro x; first
        | (refine later_cut (s0 := s0) (x := x) ?_ ?_ <;> [unfold x; (intro hx; clear_value x)])
        | clear_value x)
    | (with_reducible (fail_if_success (show OutcomeLater _ _)); intro _)
    | with_reducible refine later_ite ?_ ?_
    | with_reducible refine later_holdBack ?_
    | with_reducible refine later_modTile ?_ ?_
    | with_reducible refine later_list ?_ ?_
    | exact Tile.Later.same rfl rfl rfl rfl

theorem outcomeLater_execAxisParametersTakeEffect {s0 s : State} {t : TileId} {a : AxisId} (hs : State.Later s0 s) :
    OutcomeLater s0 (execAxisParametersTakeEffect t a s) := by
  unfold execAxisParametersTakeEffect
  repeat' first
    | with_reducible assumption
    | with_reducible refine outcomeLater_onTile ?_ ?_
    | with_reducible exact fun _ k => k
    | with_reducible exact fun _ _ => Bridge.noConfusion
    | with_reducible exact fun k => ⟨k, id, id, id⟩
    | ((with_reducible refine fun (hf : _ = true) (hk : _ ≠ Bridge.driven) => ?_); dsimp only; (repeat' split) <;> first | exact hk | exact Bridge.noConfusion | (simp_all; done))
    | ((try lift_lets -underBinder); intro x; first
        | (refine later_cut (s0 := s0) (x := x) ?_ ?_ <;> [unfold x; (intro hx; clear_value x)])
        | clear_value x)
    | (with_reducible (fail_if_success (show OutcomeLater _ _)); intro _)
    | with_reducible refine later_ite ?_ ?_
    | with_reducible refine later_soundingsCleared ?_
    | with_reducible refine later_modAxis ?_ ?_
    | with_reducible refine later_list ?_ ?_

end Sys2Proof.Machine
end

