-- ==== Sys2Proof/Laws/LaterCfg.lean ====
section
/-!
SUPPORT. What no command takes back, for every operation and meaning of Machine/Cfg.lean.
-/

namespace Sys2Proof.Machine

theorem later_cfgFollow {s0 s : State} {t : TileId} {touched : List (Nat × Nat × Nat)} (hs : State.Later s0 s) :
    State.Later s0 (s.cfgFollow t touched) := by
  unfold State.cfgFollow
  repeat' first
    | with_reducible assumption
    | ((try lift_lets -underBinder); intro x; first
        | (refine later_cut (s0 := s0) (x := x) ?_ ?_ <;> [unfold x; (intro hx; clear_value x)])
        | (have _ := (x : State → _); unfold x; try dsimp only)
        | (have _ := (x : _ → State); unfold x; try dsimp only)
        | (have _ := (x : _ → State → _); unfold x; try dsimp only)
        | clear_value x)
    | intro _
    | with_reducible refine later_dite ?_ ?_
    | with_reducible refine later_ite ?_ ?_
    | with_reducible refine later_canModeSet ?_
    | with_reducible refine later_cwyRewritten ?_
    | with_reducible refine later_cwySwitch ?_
    | with_reducible refine later_lsRefresh ?_
    | with_reducible refine later_ptpOff ?_
    | with_reducible refine later_ringSyncNote ?_
    | with_reducible refine later_each ?_ ?_
    | split

theorem lowestRefusal_none {l : List CfgRefusal} (h : lowestRefusal l = none) : l = [] := by
  cases l with
  | nil => rfl
  | cons x l =>
    have h : l.foldl (fun best x =>
        match best with
        | none => some x
        | some b => if x.1 < b.1 || (x.1 == b.1 && x.2.2 < b.2.2) then some x else some b) (some x) = none := h
    have k : ∀ (l : List CfgRefusal) (b : CfgRefusal), ∃ c, l.foldl (fun best x =>
        match best with
        | none => some x
        | some b => if x.1 < b.1 || (x.1 == b.1 && x.2.2 < b.2.2) then some x else some b) (some b) = some c := by
      intro l
      induction l with
      | nil => exact fun b => ⟨b, rfl⟩
      | cons y l ih =>
        intro b
        rw [List.foldl_cons]
        dsimp only
        split <;> exact ih _
    obtain ⟨c, e⟩ := k l x
    rw [e] at h
    cases h

/-- An image is written only while a slot is free (R162). -/
theorem imageFree {s : State} {h : HostCmd} {i : Nat} {e : CfgEntry} (k : s.entryRefusals h i e = [])
    (hp : e.param = imageParam) (he : e.enco = none) : (s.tile h.tile).field.images.length < 8 := by
  unfold State.entryRefusals at k
  rw [he] at k
  dsimp only at k
  rw [List.append_eq_nil_iff] at k
  obtain ⟨_, k⟩ := k
  split at k
  · cases k
  · rw [List.append_eq_nil_iff, if_pos hp] at k
    have k := k.2
    unfold State.imageRefusals at k
    dsimp only at k
    rw [List.append_eq_nil_iff] at k
    have k := k.2
    by_cases g : (s.tile h.tile).field.images.length ≥ 8
    · rw [if_pos g] at k; cases k
    · omega

theorem later_image {s0 s : State} {t : TileId} {v : BitVec 26} (hs : State.Later s0 s)
    (h : (s.tile t).field.images.length < 8) :
    State.Later s0 (s.modField t fun f => { f with images := f.images ++ [v] }) := by
  refine later_modTile hs ⟨fun _ h => h, Nat.le_refl _, List.prefix_append _ _, fun _ => ?_, Nat.le_refl _, fun k => k⟩
  show ((s.tile t).field.images ++ [v]).length ≤ 8
  rw [List.length_append]; exact h

theorem outcomeLater_execCfgWriteEntries {s0 s : State} {h : HostCmd} {entries : Vector CfgEntry 5} (hs : State.Later s0 s) :
    OutcomeLater s0 (execCfgWriteEntries h entries s) := by
  unfold execCfgWriteEntries
  refine outcomeLater_onCmd hs (fun x hx => later_ite (fun _ => later_holdBack hx) (fun _ => ?_))
  generalize hes : usedEntries entries = es
  dsimp only
  split
  · refine later_complete ?_
    exact later_ite (fun _ => later_configRecord hx) (fun _ => hx)
  · rename_i hn
    have hown := (List.append_eq_nil_iff.mp (List.append_eq_nil_iff.mp (lowestRefusal_none hn)).1).1
    refine later_cfgFollow (later_complete (later_setEnco (later_configRecord ?_)))
    have h1 : ∀ (w : SMap) (m : Tile → SMap), State.Later s0 (x.modTile h.tile fun tl => { tl with written := w, inForce := m tl }) :=
      fun w m => later_modTile hx (Tile.Later.same rfl rfl rfl rfl)
    split
    · rename_i p e hf
      refine later_image (h1 _ _) ?_
      rw [State.tile_modTile_self]
      have hm := List.mem_of_find?_eq_some hf
      have hp := List.find?_some hf
      simp only [Bool.and_eq_true, beq_iff_eq, Option.isNone_iff_eq_none] at hp
      refine imageFree (i := p) (e := e) ?_ hp.1 hp.2
      exact List.flatMap_eq_nil_iff.mp hown _ hm
    · exact h1 _ _

/-- What a sum that may hold a state takes back. -/
theorem later_blockWrite {s0 s s1 : State} {h : HostCmd} {block index : Nat} {data old : List Byte} (hs : State.Later s0 s)
    (e : s.blockWrite h block index data = .inr (s1, old)) : State.Later s0 s1 := by
  unfold State.blockWrite at e
  dsimp only at e
  have hc : ∀ (f : Causeway → Causeway), State.Later s0 ((s.modCwy f).cwyRewritten) := fun f => later_cwyRewritten (later_modCwy hs)
  split at e <;> (repeat' split at e) <;> first
    | (cases e; done)
    | (cases e; exact hc _)
    | (cases e; exact later_modCan hs)

theorem outcomeLater_execCfgWriteBlock {s0 s : State} {h : HostCmd} {block : BitVec 16} {index : Byte} {data : List Byte}
    (hs : State.Later s0 s) : OutcomeLater s0 (execCfgWriteBlock h block index data s) := by
  unfold execCfgWriteBlock
  refine outcomeLater_onCmd hs (fun x hx => later_ite (fun _ => later_holdBack hx) (fun _ => later_ite (fun _ => later_complete hx) (fun _ => ?_)))
  split
  · exact later_complete hx
  · exact later_complete (later_configRecord (later_blockWrite hx (by assumption)))

theorem outcomeLater_execCfgReadEntries {s0 s : State} {h : HostCmd} {addr : BitVec 64} {selectors : Vector CfgSelector 8} (hs : State.Later s0 s) :
    OutcomeLater s0 (execCfgReadEntries h addr selectors s) := by
  unfold execCfgReadEntries
  repeat' first
    | with_reducible assumption
    | with_reducible refine outcomeLater_onCmd ?_ ?_
    | ((try lift_lets -underBinder); intro x; first
        | (refine later_cut (s0 := s0) (x := x) ?_ ?_ <;> [unfold x; (intro hx; clear_value x)])
        | clear_value x)
    | (with_reducible (fail_if_success (show OutcomeLater _ _)); intro _)
    | with_reducible refine later_dite ?_ ?_
    | with_reducible refine later_ite ?_ ?_
    | with_reducible refine later_complete ?_
    | with_reducible refine later_dma ?_
    | split

theorem outcomeLater_execCfgReadBlock {s0 s : State} {h : HostCmd} {addr : BitVec 64} {block : BitVec 16} {index : Byte} {size : Nat} (hs : State.Later s0 s) :
    OutcomeLater s0 (execCfgReadBlock h addr block index size s) := by
  unfold execCfgReadBlock
  repeat' first
    | with_reducible assumption
    | with_reducible refine outcomeLater_onCmd ?_ ?_
    | (with_reducible (fail_if_success (show OutcomeLater _ _)); intro _)
    | with_reducible refine later_dite ?_ ?_
    | with_reducible refine later_ite ?_ ?_
    | with_reducible refine later_complete ?_
    | with_reducible refine later_dma ?_
    | split

end Sys2Proof.Machine
end

