-- ==== Sys2Proof/Laws/LaterPeat.lean ====
section
/-!
SUPPORT. What no command takes back, for every operation and meaning of Machine/Peat.lean.
-/

namespace Sys2Proof.Machine

theorem outcomeLater_execEventsRecordTimeout {s0 s : State} {t : TileId} (hs : State.Later s0 s) :
    OutcomeLater s0 (execEventsRecordTimeout t s) := by
  unfold execEventsRecordTimeout
  repeat' first
    | with_reducible assumption
    | with_reducible refine outcomeLater_onTile ?_ ?_
    | ((try lift_lets -underBinder); intro x; first
        | (refine later_cut (s0 := s0) (x := x) ?_ ?_ <;> [unfold x; (intro hx; clear_value x)])
        | clear_value x)
    | (with_reducible (fail_if_success (show OutcomeLater _ _)); intro _)
    | with_reducible refine later_ite ?_ ?_
    | with_reducible refine later_closeEvents ?_

theorem outcomeLater_execBlockSignatureComplete {s0 s : State} {t : TileId} (hs : State.Later s0 s) :
    OutcomeLater s0 (execBlockSignatureComplete t s) := by
  unfold execBlockSignatureComplete
  repeat' first
    | with_reducible assumption
    | with_reducible refine outcomeLater_onTile ?_ ?_
    | with_reducible exact fun _ k => k
    | with_reducible exact fun _ _ => Bridge.noConfusion
    | with_reducible exact fun k => ⟨k, id, id, id⟩
    | with_reducible exact Nat.le_refl _
    | with_reducible exact Nat.le_succ _
    | with_reducible exact rfl
    | ((try lift_lets -underBinder); intro x; first
        | (refine later_cut (s0 := s0) (x := x) ?_ ?_ <;> [unfold x; (intro hx; clear_value x)])
        | clear_value x)
    | (with_reducible (fail_if_success (show OutcomeLater _ _)); intro _)
    | with_reducible refine later_ite ?_ ?_
    | with_reducible refine later_logHighCheck ?_
    | with_reducible refine later_modHead ?_ ?_ ?_
    | with_reducible refine later_modPeat ?_ ?_
    | split

theorem outcomeLater_execFlashBlockCopyComplete {s0 s : State} {t : TileId} {good : Bool} (hs : State.Later s0 s) :
    OutcomeLater s0 (execFlashBlockCopyComplete t good s) := by
  unfold execFlashBlockCopyComplete
  repeat' first
    | with_reducible assumption
    | with_reducible refine outcomeLater_onTile ?_ ?_
    | with_reducible exact Nat.le_refl _
    | with_reducible exact Nat.le_succ _
    | with_reducible exact rfl
    | ((try lift_lets -underBinder); intro x; first
        | (refine later_cut (s0 := s0) (x := x) ?_ ?_ <;> [unfold x; (intro hx; clear_value x)])
        | clear_value x)
    | (with_reducible (fail_if_success (show OutcomeLater _ _)); intro _)
    | with_reducible refine later_ite ?_ ?_
    | with_reducible refine later_logHighCheck ?_
    | with_reducible refine later_peatToFlash ?_
    | with_reducible refine later_raiseHead ?_
    | with_reducible refine later_draw ?_
    | with_reducible refine later_modHead ?_ ?_ ?_
    | split

theorem later_drainBlock {s0 s : State} {t : TileId} {b : Nat} (hs : State.Later s0 s) :
    State.Later s0 (s.drainBlock t b) := by
  unfold State.drainBlock
  repeat' first
    | with_reducible assumption
    | with_reducible exact fun _ k => k
    | with_reducible exact fun _ _ => Bridge.noConfusion
    | with_reducible exact fun k => ⟨k, id, id, id⟩
    | with_reducible exact Nat.le_refl _
    | with_reducible exact Nat.le_succ _
    | with_reducible exact rfl
    | ((try lift_lets -underBinder); intro x; first
        | (refine later_cut (s0 := s0) (x := x) ?_ ?_ <;> [unfold x; (intro hx; clear_value x)])
        | clear_value x)
    | intro _
    | with_reducible refine later_modHead ?_ ?_ ?_
    | with_reducible refine later_modPeat ?_ ?_

theorem outcomeLater_execLogDrain {s0 s : State} {h : HostCmd} {addr : BitVec 64} {size : Nat} {most : Nat} (hs : State.Later s0 s) :
    OutcomeLater s0 (execLogDrain h addr size most s) := by
  unfold execLogDrain
  repeat' first
    | with_reducible assumption
    | with_reducible refine outcomeLater_onCmd ?_ ?_
    | with_reducible exact fun _ k => k
    | with_reducible exact fun _ _ => Bridge.noConfusion
    | with_reducible exact fun k => ⟨k, id, id, id⟩
    | with_reducible exact Nat.le_refl _
    | with_reducible exact Nat.le_succ _
    | ((try lift_lets -underBinder); intro x; first
        | (refine later_cut (s0 := s0) (x := x) ?_ ?_ <;> [unfold x; (intro hx; clear_value x)])
        | (have _ := (x : State → _); unfold x; try dsimp only)
        | (have _ := (x : _ → State); unfold x; try dsimp only)
        | (have _ := (x : _ → State → _); unfold x; try dsimp only)
        | clear_value x)
    | (with_reducible (fail_if_success (show OutcomeLater _ _)); intro _)
    | with_reducible refine later_dite ?_ ?_
    | with_reducible refine later_ite ?_ ?_
    | with_reducible refine later_bwkKeep ?_
    | with_reducible refine later_complete ?_
    | with_reducible refine later_completeOut ?_
    | with_reducible refine later_drainBlock ?_
    | with_reducible refine later_logHighCheck ?_
    | with_reducible refine later_dma ?_
    | with_reducible refine later_each ?_ ?_
    | with_reducible refine later_modPeat ?_ ?_
    | split

theorem later_sealTile {s0 s : State} {t : TileId} (hs : State.Later s0 s) :
    State.Later s0 (s.sealTile t) := by
  unfold State.sealTile
  repeat' first
    | with_reducible assumption
    | ((try lift_lets -underBinder); intro x; first
        | (refine later_cut (s0 := s0) (x := x) ?_ ?_ <;> [unfold x; (intro hx; clear_value x)])
        | clear_value x)
    | intro _
    | with_reducible refine later_closeEvents ?_
    | with_reducible refine later_peatPut ?_
    | with_reducible refine later_each ?_ ?_

theorem outcomeLater_execLogSeal {s0 s : State} {h : HostCmd} (hs : State.Later s0 s) :
    OutcomeLater s0 (execLogSeal h s) := by
  unfold execLogSeal
  repeat' first
    | with_reducible assumption
    | with_reducible refine outcomeLater_onCmd ?_ ?_
    | ((try lift_lets -underBinder); intro x; first
        | (refine later_cut (s0 := s0) (x := x) ?_ ?_ <;> [unfold x; (intro hx; clear_value x)])
        | clear_value x)
    | (with_reducible (fail_if_success (show OutcomeLater _ _)); intro _)
    | with_reducible refine later_ite ?_ ?_
    | with_reducible refine later_complete ?_
    | with_reducible refine later_sealTile ?_
    | with_reducible refine later_each ?_ ?_

theorem outcomeLater_execLogMark {s0 s : State} {h : HostCmd} {marker : Vector Byte 32} (hs : State.Later s0 s) :
    OutcomeLater s0 (execLogMark h marker s) := by
  unfold execLogMark
  repeat' first
    | with_reducible assumption
    | with_reducible refine outcomeLater_onCmd ?_ ?_
    | ((try lift_lets -underBinder); intro x; first
        | (refine later_cut (s0 := s0) (x := x) ?_ ?_ <;> [unfold x; (intro hx; clear_value x)])
        | clear_value x)
    | (with_reducible (fail_if_success (show OutcomeLater _ _)); intro _)
    | with_reducible refine later_ite ?_ ?_
    | with_reducible refine later_complete ?_
    | with_reducible refine later_peatEntry ?_
    | with_reducible refine later_draw ?_
    | split

theorem outcomeLater_execFwStage {s0 s : State} {h : HostCmd} {offset : Nat} {total : Nat} {chunk : List Byte} (hs : State.Later s0 s) :
    OutcomeLater s0 (execFwStage h offset total chunk s) := by
  unfold execFwStage
  repeat' first
    | with_reducible assumption
    | with_reducible refine outcomeLater_onCmd ?_ ?_
    | with_reducible exact fun _ k => k
    | with_reducible exact fun _ _ => Bridge.noConfusion
    | with_reducible exact fun k => ⟨k, id, id, id⟩
    | with_reducible exact Nat.le_refl _
    | with_reducible exact Nat.le_succ _
    | ((try lift_lets -underBinder); intro x; first
        | (refine later_cut (s0 := s0) (x := x) ?_ ?_ <;> [unfold x; (intro hx; clear_value x)])
        | clear_value x)
    | (with_reducible (fail_if_success (show OutcomeLater _ _)); intro _)
    | with_reducible refine later_dite ?_ ?_
    | with_reducible refine later_ite ?_ ?_
    | with_reducible refine later_complete ?_
    | with_reducible refine later_each ?_ ?_
    | with_reducible refine later_modDie ?_ ?_ ?_

theorem outcomeLater_execFwCommit {s0 s : State} {h : HostCmd} (hs : State.Later s0 s) :
    OutcomeLater s0 (execFwCommit h s) := by
  unfold execFwCommit
  repeat' first
    | with_reducible assumption
    | with_reducible refine outcomeLater_onCmd ?_ ?_
    | with_reducible exact fun _ k => k
    | with_reducible exact fun _ _ => Bridge.noConfusion
    | with_reducible exact fun k => ⟨k, id, id, id⟩
    | with_reducible exact Nat.le_refl _
    | with_reducible exact Nat.le_succ _
    | ((try lift_lets -underBinder); intro x; first
        | (refine later_cut (s0 := s0) (x := x) ?_ ?_ <;> [unfold x; (intro hx; clear_value x)])
        | clear_value x)
    | (with_reducible (fail_if_success (show OutcomeLater _ _)); intro _)
    | with_reducible refine later_ite ?_ ?_
    | with_reducible refine later_complete ?_
    | with_reducible refine later_configRecord ?_
    | with_reducible refine later_each ?_ ?_
    | with_reducible refine later_modDie ?_ ?_ ?_

theorem outcomeLater_execKeyRegister {s0 s : State} {h : HostCmd} {key : List Byte} (hs : State.Later s0 s) :
    OutcomeLater s0 (execKeyRegister h key s) := by
  unfold execKeyRegister
  refine outcomeLater_onCmd hs (fun x hx => later_ite (fun _ => later_holdBack hx) (fun _ => later_ite (fun _ => later_complete hx)
    (fun _ => later_ite (fun _ => later_complete (later_configRecord hx)) (fun _ => later_ite (fun _ => later_complete hx)
      (fun _ => later_ite (fun _ => later_complete hx) (fun _ => later_complete (later_configRecord ?_)))))))
  refine later_each hx (fun y t hy => later_modDie hy (fun k hk => ?_) (Nat.le_refl _))
  show (_ : Option _).or _ = _
  rw [hk]; rfl

theorem later_attestSeal {s0 s : State} (hs : State.Later s0 s) : State.Later s0 s.attestSeal.2 := by
  unfold State.attestSeal
  exact later_snd_ite hs (later_draw hs)

theorem later_attestTile {s0 s : State} {t : TileId} (hs : State.Later s0 s) : State.Later s0 (s.attestTile t).2 := by
  unfold State.attestTile
  split
  · exact hs
  · exact later_draw hs

theorem later_statement {s0 s : State} {nonce : List Byte} (hs : State.Later s0 s) : State.Later s0 (s.statement nonce).2 :=
  later_attestTile (later_attestTile (later_attestTile (later_attestTile (later_attestSeal hs))))

theorem outcomeLater_execAttest {s0 s : State} {h : HostCmd} {nonce : Vector Byte 24} {addr : BitVec 64}
    (hs : State.Later s0 s) : OutcomeLater s0 (execAttest h nonce addr s) := by
  unfold execAttest
  exact outcomeLater_onCmd hs (fun x hx => later_ite (fun _ => later_complete hx)
    (fun _ => later_complete (later_dma (later_statement (nonce := nonce.toList) hx))))

end Sys2Proof.Machine
end

