-- ==== Sys2Proof/Laws/LaterBoardwalk.lean ====
section
/-!
SUPPORT. What no command takes back, for every operation and meaning of Machine/Boardwalk.lean.
-/

namespace Sys2Proof.Machine

theorem later_startDone {s0 s : State} (hs : State.Later s0 s) :
    State.Later s0 s.startDone := by
  unfold State.startDone
  repeat' first
    | with_reducible assumption
    | intro _
    | with_reducible refine later_ite ?_ ?_
    | with_reducible refine later_modHost ?_

theorem later_reportTiles {s0 s : State} (hs : State.Later s0 s) :
    State.Later s0 s.reportTiles := by
  unfold State.reportTiles
  repeat' first
    | with_reducible assumption
    | ((try lift_lets -underBinder); intro x; first
        | (refine later_cut (s0 := s0) (x := x) ?_ ?_ <;> [unfold x; (intro hx; clear_value x)])
        | clear_value x)
    | intro _
    | with_reducible refine later_modBoard ?_

theorem later_strapsFail {s0 s : State} (hs : State.Later s0 s) :
    State.Later s0 s.strapsFail := by
  unfold State.strapsFail
  repeat' first
    | with_reducible assumption
    | ((try lift_lets -underBinder); intro x; first
        | (refine later_cut (s0 := s0) (x := x) ?_ ?_ <;> [unfold x; (intro hx; clear_value x)])
        | (have _ := (x : State → _); unfold x; try dsimp only)
        | (have _ := (x : _ → State); unfold x; try dsimp only)
        | (have _ := (x : _ → State → _); unfold x; try dsimp only)
        | clear_value x)
    | intro _
    | with_reducible refine later_ite ?_ ?_
    | with_reducible refine later_startDone ?_
    | with_reducible refine later_strapEvent ?_
    | with_reducible refine later_modBoard ?_
    | split

theorem later_tellStraps {s0 s : State} (hs : State.Later s0 s) :
    State.Later s0 s.tellStraps := by
  unfold State.tellStraps
  repeat' first
    | with_reducible assumption
    | ((try lift_lets -underBinder); intro x; first
        | (refine later_cut (s0 := s0) (x := x) ?_ ?_ <;> [unfold x; (intro hx; clear_value x)])
        | clear_value x)
    | intro _
    | with_reducible refine later_ite ?_ ?_
    | with_reducible refine later_each ?_ ?_
    | with_reducible refine later_emit ?_
    | exact later_same ‹_› rfl rfl rfl rfl rfl rfl

theorem later_recount {s0 s : State} (hs : State.Later s0 s) :
    State.Later s0 s.recount := by
  unfold State.recount
  repeat' first
    | with_reducible assumption
    | intro _
    | with_reducible refine later_ite ?_ ?_
    | with_reducible refine later_modBoard ?_

theorem later_strapCheck {s0 s : State} (hs : State.Later s0 s) :
    State.Later s0 s.strapCheck := by
  unfold State.strapCheck
  repeat' first
    | with_reducible assumption
    | ((try lift_lets -underBinder); intro x; first
        | (refine later_cut (s0 := s0) (x := x) ?_ ?_ <;> [unfold x; (intro hx; clear_value x)])
        | clear_value x)
    | intro _
    | with_reducible refine later_ite ?_ ?_
    | with_reducible refine later_recount ?_
    | with_reducible refine later_strapsFail ?_
    | with_reducible refine later_tellStraps ?_
    | with_reducible refine later_modBoard ?_
    | with_reducible refine later_list ?_ ?_

theorem later_strapsTold {s0 s : State} {known : List (BitVec 64 × Straps)} {fault : Bool} (hs : State.Later s0 s) :
    State.Later s0 (s.strapsTold known fault) := by
  unfold State.strapsTold
  repeat' first
    | with_reducible assumption
    | ((try lift_lets -underBinder); intro x; first
        | (refine later_cut (s0 := s0) (x := x) ?_ ?_ <;> [unfold x; (intro hx; clear_value x)])
        | clear_value x)
    | intro _
    | with_reducible refine later_ite ?_ ?_
    | with_reducible refine later_strapCheck ?_
    | with_reducible refine later_strapsFail ?_
    | with_reducible refine later_tellStraps ?_
    | with_reducible refine later_modBoard ?_

theorem later_routeChanged {s0 s : State} (hs : State.Later s0 s) :
    State.Later s0 s.routeChanged := by
  unfold State.routeChanged
  repeat' first
    | with_reducible assumption
    | with_reducible exact Nat.le_refl _
    | with_reducible exact Nat.le_succ _
    | intro _
    | with_reducible refine later_ite ?_ ?_
    | with_reducible refine later_holdRecord ?_
    | with_reducible refine later_modTime ?_ ?_

theorem later_routeBy {s0 s : State} {port : Fin 2} (hs : State.Later s0 s) :
    State.Later s0 (s.routeBy port) := by
  unfold State.routeBy
  repeat' first
    | with_reducible assumption
    | intro _
    | with_reducible refine later_ite ?_ ?_
    | with_reducible refine later_routeChanged ?_
    | with_reducible refine later_modBoard ?_

theorem outcomeLater_execBoardwalkLinkTrained {s0 s : State} {port : Fin 2} {neighbour : Straps} (hs : State.Later s0 s) :
    OutcomeLater s0 (execBoardwalkLinkTrained port neighbour s) := by
  unfold execBoardwalkLinkTrained
  repeat' first
    | with_reducible assumption
    | with_reducible refine outcomeLater_onHead ?_ ?_
    | ((try lift_lets -underBinder); intro x; first
        | (refine later_cut (s0 := s0) (x := x) ?_ ?_ <;> [unfold x; (intro hx; clear_value x)])
        | clear_value x)
    | (with_reducible (fail_if_success (show OutcomeLater _ _)); intro _)
    | with_reducible refine later_ite ?_ ?_
    | with_reducible refine later_recount ?_
    | with_reducible refine later_routeBy ?_
    | with_reducible refine later_startDone ?_
    | with_reducible refine later_strapCheck ?_
    | with_reducible refine later_tellStraps ?_
    | with_reducible refine later_modBoard ?_

theorem outcomeLater_execBoardwalkTrainingRetry {s0 s : State} {port : Fin 2} (hs : State.Later s0 s) :
    OutcomeLater s0 (execBoardwalkTrainingRetry port s) := by
  unfold execBoardwalkTrainingRetry
  repeat' first
    | with_reducible assumption
    | with_reducible refine outcomeLater_onHead ?_ ?_
    | ((try lift_lets -underBinder); intro x; first
        | (refine later_cut (s0 := s0) (x := x) ?_ ?_ <;> [unfold x; (intro hx; clear_value x)])
        | clear_value x)
    | (with_reducible (fail_if_success (show OutcomeLater _ _)); intro _)
    | with_reducible refine later_ite ?_ ?_
    | with_reducible refine later_startDone ?_
    | with_reducible refine later_modBoard ?_

theorem later_packageLost {s0 s : State} {k : Nat} {cause : Nat} (hs : State.Later s0 s) :
    State.Later s0 (s.packageLost k cause) := by
  unfold State.packageLost
  repeat' first
    | with_reducible assumption
    | ((try lift_lets -underBinder); intro x; first
        | (refine later_cut (s0 := s0) (x := x) ?_ ?_ <;> [unfold x; (intro hx; clear_value x)])
        | (have _ := (x : State → _); unfold x; try dsimp only)
        | (have _ := (x : _ → State); unfold x; try dsimp only)
        | (have _ := (x : _ → State → _); unfold x; try dsimp only)
        | clear_value x)
    | intro _
    | with_reducible refine later_ite ?_ ?_
    | with_reducible refine later_raiseHead ?_
    | with_reducible refine later_modBoard ?_
    | with_reducible refine later_modHost ?_
    | split

theorem later_losePaths {s0 s : State} (hs : State.Later s0 s) :
    State.Later s0 s.losePaths := by
  unfold State.losePaths
  repeat' first
    | with_reducible assumption
    | intro _
    | with_reducible refine later_ite ?_ ?_
    | with_reducible refine later_packageLost ?_
    | with_reducible refine later_each ?_ ?_

theorem later_portDown {s0 s : State} {port : Fin 2} (hs : State.Later s0 s) :
    State.Later s0 (s.portDown port) := by
  unfold State.portDown
  repeat' first
    | with_reducible assumption
    | ((try lift_lets -underBinder); intro x; first
        | (refine later_cut (s0 := s0) (x := x) ?_ ?_ <;> [unfold x; (intro hx; clear_value x)])
        | clear_value x)
    | intro _
    | with_reducible refine later_ite ?_ ?_
    | with_reducible refine later_losePaths ?_
    | with_reducible refine later_raiseHead ?_
    | with_reducible refine later_routeBy ?_
    | with_reducible refine later_routeChanged ?_
    | with_reducible refine later_startDone ?_
    | with_reducible refine later_modBoard ?_

theorem outcomeLater_execBoardwalkPortDown {s0 s : State} {port : Fin 2} (hs : State.Later s0 s) :
    OutcomeLater s0 (execBoardwalkPortDown port s) := by
  unfold execBoardwalkPortDown
  repeat' first
    | with_reducible assumption
    | with_reducible refine outcomeLater_onHead ?_ ?_
    | (with_reducible (fail_if_success (show OutcomeLater _ _)); intro _)
    | with_reducible refine later_portDown ?_

theorem later_bwkCrcError {s0 s : State} {port : Fin 2} (hs : State.Later s0 s) :
    State.Later s0 (s.bwkCrcError port) := by
  unfold State.bwkCrcError
  repeat' first
    | with_reducible assumption
    | ((try lift_lets -underBinder); intro x; first
        | (refine later_cut (s0 := s0) (x := x) ?_ ?_ <;> [unfold x; (intro hx; clear_value x)])
        | clear_value x)
    | intro _
    | with_reducible refine later_ite ?_ ?_
    | with_reducible refine later_portDown ?_
    | with_reducible refine later_modBoard ?_

theorem later_bwkDescriptor {s0 s : State} {r : BwkRef} {session : Word} {hostId : BitVec 64} {d : List Byte} (hs : State.Later s0 s) :
    State.Later s0 (s.bwkDescriptor r session hostId d) := by
  unfold State.bwkDescriptor
  repeat' first
    | with_reducible assumption
    | ((try lift_lets -underBinder); intro x; first
        | (refine later_cut (s0 := s0) (x := x) ?_ ?_ <;> [unfold x; (intro hx; clear_value x)])
        | clear_value x)
    | intro _
    | with_reducible refine later_ite ?_ ?_
    | with_reducible refine later_bwkSend ?_
    | with_reducible refine later_modBoard ?_
    | with_reducible refine later_modHost ?_
    | split

theorem later_bwkAcknowledge {s0 s : State} {k : Fin 4} {r : BwkRef} (hs : State.Later s0 s) :
    State.Later s0 (s.bwkAcknowledge k r) := by
  unfold State.bwkAcknowledge
  repeat' first
    | with_reducible assumption
    | ((try lift_lets -underBinder); intro x; first
        | (refine later_cut (s0 := s0) (x := x) ?_ ?_ <;> [unfold x; (intro hx; clear_value x)])
        | clear_value x)
    | intro _
    | with_reducible refine later_ite ?_ ?_
    | with_reducible refine later_bwkSend ?_
    | with_reducible refine later_drainBlock ?_
    | with_reducible refine later_setOut ?_
    | with_reducible refine later_each ?_ ?_
    | with_reducible refine later_modBoard ?_
    | split

theorem later_bwkCompletion {s0 s : State} {k : Fin 4} {r : BwkRef} {status : Byte} {detail : Nat} {result : List Byte} (hs : State.Later s0 s) :
    State.Later s0 (s.bwkCompletion k r status detail result) := by
  unfold State.bwkCompletion
  repeat' first
    | with_reducible assumption
    | intro _
    | with_reducible refine later_ite ?_ ?_
    | with_reducible refine later_bwkSend ?_
    | with_reducible refine later_completeOut ?_
    | split

theorem later_bwkLost {s0 s : State} {k : Fin 4} {r : BwkRef} (hs : State.Later s0 s) :
    State.Later s0 (s.bwkLost k r) := by
  unfold State.bwkLost
  repeat' first
    | with_reducible assumption
    | ((try lift_lets -underBinder); intro x; first
        | (refine later_cut (s0 := s0) (x := x) ?_ ?_ <;> [unfold x; (intro hx; clear_value x)])
        | clear_value x)
    | intro _
    | with_reducible refine later_bwkSend ?_
    | with_reducible refine later_setOut ?_
    | split

theorem later_bwkLogBlock {s0 s : State} {k : Fin 4} {r : BwkRef} {bt : Nat} {b : Nat} {bytes : List Byte} (hs : State.Later s0 s) :
    State.Later s0 (s.bwkLogBlock k r bt b bytes) := by
  unfold State.bwkLogBlock
  repeat' first
    | with_reducible assumption
    | intro _
    | with_reducible refine later_ite ?_ ?_
    | with_reducible refine later_setOut ?_
    | with_reducible refine later_dma ?_
    | split

theorem later_bwkSession {s0 s : State} {session : Option Word} (hs : State.Later s0 s) :
    State.Later s0 (s.bwkSession session) := by
  unfold State.bwkSession
  repeat' first
    | with_reducible assumption
    | ((try lift_lets -underBinder); intro x; first
        | (refine later_cut (s0 := s0) (x := x) ?_ ?_ <;> [unfold x; (intro hx; clear_value x)])
        | clear_value x)
    | intro _
    | with_reducible refine later_ite ?_ ?_
    | with_reducible refine later_mailboxKeep ?_
    | with_reducible refine later_standingConditions ?_
    | with_reducible refine later_standingFaults ?_
    | with_reducible refine later_modBoard ?_
    | with_reducible refine later_modHost ?_

theorem later_putWindow {s0 s : State} {off : Nat} {v : Nat} (hs : State.Later s0 s) :
    State.Later s0 (s.putWindow off v) := by
  unfold State.putWindow
  repeat' first
    | with_reducible assumption
    | exact later_same hs rfl rfl rfl rfl rfl rfl
    | intro _
    | exact later_same ‹_› rfl rfl rfl rfl rfl rfl

theorem later_putPort {s0 s : State} {k : Nat} {port : Nat} {state : Nat} (hs : State.Later s0 s) :
    State.Later s0 (s.putPort k port state) := by
  unfold State.putPort
  repeat' first
    | with_reducible assumption
    | ((try lift_lets -underBinder); intro x; first
        | (refine later_cut (s0 := s0) (x := x) ?_ ?_ <;> [unfold x; (intro hx; clear_value x)])
        | clear_value x)
    | intro _
    | with_reducible refine later_ite ?_ ?_
    | with_reducible refine later_putWindow ?_

theorem later_noteLink {s0 s : State} {id : Nat} {data : List Byte} (hs : State.Later s0 s) :
    State.Later s0 (s.noteLink id data) := by
  unfold State.noteLink
  repeat' first
    | with_reducible assumption
    | ((try lift_lets -underBinder); intro x; first
        | (refine later_cut (s0 := s0) (x := x) ?_ ?_ <;> [unfold x; (intro hx; clear_value x)])
        | clear_value x)
    | intro _
    | with_reducible refine later_ite ?_ ?_
    | with_reducible refine later_losePaths ?_
    | with_reducible refine later_putPort ?_
    | with_reducible refine later_id ?_

theorem later_noteEnds {s0 s : State} {k : Nat} {status : Nat} (hs : State.Later s0 s) :
    State.Later s0 (s.noteEnds k status) := by
  unfold State.noteEnds
  repeat' first
    | with_reducible assumption
    | ((try lift_lets -underBinder); intro x; first
        | (refine later_cut (s0 := s0) (x := x) ?_ ?_ <;> [unfold x; (intro hx; clear_value x)])
        | clear_value x)
    | intro _
    | with_reducible refine later_ite ?_ ?_
    | with_reducible refine later_putPort ?_
    | with_reducible refine later_each ?_ ?_

theorem later_bwkReport {s0 s : State} {k : Nat} {tiles : Nat} {armed : Bool} {w : List Byte} (hs : State.Later s0 s) :
    State.Later s0 (s.bwkReport k tiles armed w) := by
  unfold State.bwkReport
  repeat' first
    | with_reducible assumption
    | ((try lift_lets -underBinder); intro x; first
        | (refine later_cut (s0 := s0) (x := x) ?_ ?_ <;> [unfold x; (intro hx; clear_value x)])
        | clear_value x)
    | intro _
    | with_reducible refine later_ite ?_ ?_
    | with_reducible refine later_bwkSend ?_
    | with_reducible refine later_losePaths ?_
    | with_reducible refine later_noteEnds ?_
    | with_reducible refine later_putWindow ?_
    | with_reducible refine later_raiseHead ?_
    | with_reducible refine later_recount ?_
    | with_reducible refine later_remoteDoorEvent ?_
    | with_reducible refine later_startDone ?_
    | with_reducible refine later_each ?_ ?_
    | with_reducible refine later_modBoard ?_

theorem later_bwkDeliver {s0 s : State} {f : BwkFrame} (hs : State.Later s0 s) :
    State.Later s0 (s.bwkDeliver f) := by
  unfold State.bwkDeliver
  repeat' first
    | with_reducible assumption
    | with_reducible exact Nat.le_refl _
    | with_reducible exact Nat.le_succ _
    | intro _
    | with_reducible refine later_ite ?_ ?_
    | with_reducible refine later_bwkAcknowledge ?_
    | with_reducible refine later_bwkCompletion ?_
    | with_reducible refine later_bwkDescriptor ?_
    | with_reducible refine later_bwkLogBlock ?_
    | with_reducible refine later_bwkLost ?_
    | with_reducible refine later_bwkReport ?_
    | with_reducible refine later_bwkSession ?_
    | with_reducible refine later_changesRead ?_
    | with_reducible refine later_eventById ?_
    | with_reducible refine later_fabricDeliver ?_
    | with_reducible refine later_noteLink ?_
    | with_reducible refine later_packageLost ?_
    | with_reducible refine later_modBoard ?_
    | with_reducible refine later_modHost ?_
    | with_reducible refine later_modTime ?_ ?_
    | with_reducible refine later_id ?_
    | split

theorem later_bwkRelay {s0 s : State} {port : Fin 2} {f : BwkFrame} (hs : State.Later s0 s) :
    State.Later s0 (s.bwkRelay port f) := by
  unfold State.bwkRelay
  repeat' first
    | with_reducible assumption
    | intro _
    | with_reducible refine later_ite ?_ ?_
    | with_reducible refine later_emit ?_
    | split

theorem later_noteRoute {s0 s : State} {port : Fin 2} {src : Fin 4} (hs : State.Later s0 s) :
    State.Later s0 (s.noteRoute port src) := by
  unfold State.noteRoute
  repeat' first
    | with_reducible assumption
    | intro _
    | with_reducible refine later_ite ?_ ?_
    | with_reducible refine later_routeBy ?_

theorem outcomeLater_execBoardwalkFrameReceived {s0 s : State} {port : Fin 2} {arrival : BwkFrame × Nat} (hs : State.Later s0 s) :
    OutcomeLater s0 (execBoardwalkFrameReceived port arrival s) := by
  unfold execBoardwalkFrameReceived
  repeat' first
    | with_reducible assumption
    | with_reducible refine outcomeLater_onHead ?_ ?_
    | ((try lift_lets -underBinder); intro x; first
        | (refine later_cut (s0 := s0) (x := x) ?_ ?_ <;> [unfold x; (intro hx; clear_value x)])
        | clear_value x)
    | (with_reducible (fail_if_success (show OutcomeLater _ _)); intro _)
    | with_reducible refine later_ite ?_ ?_
    | with_reducible refine later_bwkCrcError ?_
    | with_reducible refine later_bwkDeliver ?_
    | with_reducible refine later_bwkRelay ?_
    | with_reducible refine later_noteRoute ?_
    | with_reducible refine later_strapsTold ?_
    | with_reducible refine later_at ?_
    | split

theorem outcomeLater_execBwkRetransmitTimer {s0 s : State} (hs : State.Later s0 s) :
    OutcomeLater s0 (execBwkRetransmitTimer s) := by
  unfold execBwkRetransmitTimer
  repeat' first
    | with_reducible assumption
    | with_reducible refine outcomeLater_onHead ?_ ?_
    | ((try lift_lets -underBinder); intro x; first
        | (refine later_cut (s0 := s0) (x := x) ?_ ?_ <;> [unfold x; (intro hx; clear_value x)])
        | clear_value x)
    | (with_reducible (fail_if_success (show OutcomeLater _ _)); intro _)
    | with_reducible refine later_ite ?_ ?_
    | with_reducible refine later_bwkSend ?_
    | with_reducible refine later_each ?_ ?_

theorem outcomeLater_execForwardAckTimeout {s0 s : State} {q : Fin 32} {tag : Word} (hs : State.Later s0 s) :
    OutcomeLater s0 (execForwardAckTimeout q tag s) := by
  unfold execForwardAckTimeout
  repeat' first
    | with_reducible assumption
    | with_reducible refine outcomeLater_onHead ?_ ?_
    | (with_reducible (fail_if_success (show OutcomeLater _ _)); intro _)
    | with_reducible refine later_ite ?_ ?_
    | with_reducible refine later_completeOut ?_
    | split

theorem later_followHead {s0 s : State} {o : Int} {st : RecState} (hs : State.Later s0 s) :
    State.Later s0 (s.followHead o st) := by
  unfold State.followHead
  repeat' first
    | with_reducible assumption
    | ((try lift_lets -underBinder); intro x; first
        | (refine later_cut (s0 := s0) (x := x) ?_ ?_ <;> [unfold x; (intro hx; clear_value x)])
        | clear_value x)
    | intro _
    | with_reducible refine later_ite ?_ ?_
    | with_reducible refine later_servoRecord ?_
    | with_reducible refine later_setRec ?_
    | with_reducible refine later_stepRecord ?_

theorem later_takeLead {s0 s : State} {l : BwkLead} {delay : Nat} (hs : State.Later s0 s) :
    State.Later s0 (s.takeLead l delay) := by
  unfold State.takeLead
  repeat' first
    | with_reducible assumption
    | with_reducible exact Nat.le_refl _
    | with_reducible exact Nat.le_succ _
    | intro _
    | with_reducible refine later_ite ?_ ?_
    | with_reducible refine later_followHead ?_
    | with_reducible refine later_routeChanged ?_
    | with_reducible refine later_modTime ?_ ?_

theorem outcomeLater_execBwkTimingExchange {s0 s : State} {port : Fin 2} {roundTrip : Nat} {lead : Option BwkLead} (hs : State.Later s0 s) :
    OutcomeLater s0 (execBwkTimingExchange port roundTrip lead s) := by
  unfold execBwkTimingExchange
  repeat' first
    | with_reducible assumption
    | with_reducible refine outcomeLater_onHead ?_ ?_
    | ((try lift_lets -underBinder); intro x; first
        | (refine later_cut (s0 := s0) (x := x) ?_ ?_ <;> [unfold x; (intro hx; clear_value x)])
        | clear_value x)
    | (with_reducible (fail_if_success (show OutcomeLater _ _)); intro _)
    | with_reducible refine later_ite ?_ ?_
    | with_reducible refine later_routeBy ?_
    | with_reducible refine later_routeChanged ?_
    | with_reducible refine later_takeLead ?_
    | with_reducible refine later_modBoard ?_
    | split

end Sys2Proof.Machine
end

