-- ==== Sys2Proof/Laws/LaterPower.lean ====
section
/-!
SUPPORT. What no command takes back, for every operation and meaning of Machine/Power.lean.
-/

namespace Sys2Proof.Machine

theorem later_headReset {s0 s : State} {power : Bool} (hs : State.Later s0 s) : State.Later s0 (s.headReset power) := by
  unfold State.headReset
  refine later_windows (later_modHead (later_each (later_hostReset hs) (fun _ _ h => later_emit h)) rfl (Nat.le_refl _))

theorem later_tileReset (tl : Tile) (cause : ResetCause) : Tile.Later tl (tl.afterReset cause) := by
  have hb : ∀ a, ((tl.afterReset cause).ax.get a).mo.bridge ≠ .driven := by
    intro a
    cases a <;> (unfold Tile.afterReset Axis.afterReset; dsimp only [PerAxis.get]; split <;> exact Bridge.noConfusion)
  refine Tile.Later.mk' rfl rfl ?_ rfl (fun h => ?_)
  · unfold Tile.afterReset
    dsimp only
    split <;> rfl
  · unfold Tile.Harmless
    intro hf
    by_cases hp : (cause == .powerOn) = true
    · have e : (tl.afterReset cause).field = tl.field.powerOn (fun i => tl.par 0x0C 3 i == 1) := by unfold Tile.afterReset; exact if_pos hp
      rw [e]
      exact ⟨rfl, rfl, rfl, hb⟩
    · have e : (tl.afterReset cause).field = tl.field := by unfold Tile.afterReset; exact if_neg hp
      rw [e] at hf ⊢
      obtain ⟨h1, h2, h3, _⟩ := h hf
      exact ⟨h1, h2, h3, hb⟩

theorem later_dieReset {s0 s : State} {t : TileId} {cause : ResetCause} (hs : State.Later s0 s) :
    State.Later s0 (s.dieReset t cause) := by
  unfold State.dieReset
  have h1 : State.Later s0 ((s.loseCommands t).modTile t fun tl => tl.afterReset cause) :=
    later_modTile (later_loseCommands hs) (later_tileReset _ _)
  generalize (s.loseCommands t).modTile t (fun tl => tl.afterReset cause) = s1 at h1
  have h2 : State.Later s0 (if (s.tile t).encoA || (s.tile t).encoB then s1.emit (.enco t false false) else s1) :=
    later_ite (fun _ => later_emit h1) (fun _ => h1)
  dsimp only
  generalize (if (s.tile t).encoA || (s.tile t).encoB then s1.emit (.enco t false false) else s1) = s2 at h2
  have h3 : State.Later s0 (s2.modBoard fun b => { b with tilesUp := b.tilesUp &&& ~~~(pkgTiles s.pkg (2 ^ t.num)) }) :=
    later_modBoard h2
  generalize (s2.modBoard fun b => { b with tilesUp := b.tilesUp &&& ~~~(pkgTiles s.pkg (2 ^ t.num)) }) = s3 at h3
  have h4 : State.Later s0 (if cause == .powerOn then ((s3.modField t FieldDie.bitternEval).lsRefresh t).pairsRefresh t else s3) :=
    later_ite (fun _ => later_pairsRefresh (later_lsRefresh (later_modKept h3 kept_bitternEval))) (fun _ => h3)
  exact later_ite (fun _ => later_headReset h4) (fun _ => h4)

/-- A state of which only what the supplies and the reference say has changed. -/
theorem later_supply {s0 s : State} {p r : Bool} (hs : State.Later s0 s) :
    State.Later s0 { s with powerGood := p, refOk := r } := later_same hs rfl rfl rfl rfl rfl rfl

theorem later_resetAll {s0 s : State} {cause : ResetCause} (hs : State.Later s0 s) :
    State.Later s0 (s.resetAll cause) := by
  unfold State.resetAll
  repeat' first
    | with_reducible assumption
    | intro _
    | with_reducible refine later_dieReset ?_
    | with_reducible refine later_each ?_ ?_

theorem later_hold {s0 s : State} {t : TileId} {c : ResetCause} {on : Bool} (hs : State.Later s0 s) :
    State.Later s0 (s.hold t c on) := by
  unfold State.hold
  repeat' first
    | with_reducible assumption
    | with_reducible exact fun _ k => k
    | with_reducible exact fun _ _ => Bridge.noConfusion
    | with_reducible exact fun k => ⟨k, id, id, id⟩
    | with_reducible exact Nat.le_refl _
    | with_reducible exact Nat.le_succ _
    | intro _
    | with_reducible refine later_ite ?_ ?_
    | with_reducible refine later_modDie ?_ ?_ ?_

theorem outcomeLater_execPowerGood {s0 s : State} {straps : Straps} (hs : State.Later s0 s) :
    OutcomeLater s0 (execPowerGood straps s) := by
  unfold execPowerGood
  exact outcomeLater_onHead hs (fun x hx => later_each (later_resetAll (later_modBoard (later_supply hx))) (fun _ _ h => later_hold h))

theorem outcomeLater_execPowerGoodLost {s0 s : State} (hs : State.Later s0 s) :
    OutcomeLater s0 (execPowerGoodLost s) := by
  unfold execPowerGoodLost
  exact outcomeLater_onHead hs (fun x hx => later_supply hx)

theorem outcomeLater_execBrownOut {s0 s : State} {t : TileId} (hs : State.Later s0 s) :
    OutcomeLater s0 (execBrownOut t s) := by
  unfold execBrownOut
  repeat' first
    | with_reducible assumption
    | with_reducible refine outcomeLater_onTile ?_ ?_
    | with_reducible exact later_supply ‹_›
    | (with_reducible (fail_if_success (show OutcomeLater _ _)); intro _)
    | with_reducible refine later_dieReset ?_
    | with_reducible refine later_hold ?_
    | exact later_same ‹_› rfl rfl rfl rfl rfl rfl

theorem outcomeLater_execVdd33Loss {s0 s : State} {t : TileId} (hs : State.Later s0 s) :
    OutcomeLater s0 (execVdd33Loss t s) := by
  unfold execVdd33Loss
  repeat' first
    | with_reducible assumption
    | with_reducible refine outcomeLater_onTile ?_ ?_
    | with_reducible exact later_supply ‹_›
    | (with_reducible (fail_if_success (show OutcomeLater _ _)); intro _)
    | with_reducible refine later_dieReset ?_
    | exact later_same ‹_› rfl rfl rfl rfl rfl rfl

theorem outcomeLater_execVpcieLoss {s0 s : State} (hs : State.Later s0 s) :
    OutcomeLater s0 (execVpcieLoss s) := by
  unfold execVpcieLoss
  repeat' first
    | with_reducible assumption
    | with_reducible refine outcomeLater_onHead ?_ ?_
    | with_reducible exact later_supply ‹_›
    | (with_reducible (fail_if_success (show OutcomeLater _ _)); intro _)
    | with_reducible refine later_endpointReset ?_
    | exact later_same ‹_› rfl rfl rfl rfl rfl rfl

theorem later_vdrvTrip {s0 s : State} {t : TileId} {a : AxisId} (hs : State.Later s0 s) :
    State.Later s0 (s.vdrvTrip t a) := by
  unfold State.vdrvTrip
  repeat' first
    | with_reducible assumption
    | with_reducible exact fun _ k => k
    | with_reducible exact fun _ _ => Bridge.noConfusion
    | with_reducible exact fun k => ⟨k, id, id, id⟩
    | ((with_reducible refine fun (hf : _ = true) (hk : _ ≠ Bridge.driven) => ?_); dsimp only; (repeat' split) <;> first | exact hk | exact Bridge.noConfusion | (simp_all; done))
    | ((try lift_lets -underBinder); intro x; first
        | (refine later_cut (s0 := s0) (x := x) ?_ ?_ <;> [unfold x; (intro hx; clear_value x)])
        | clear_value x)
    | intro _
    | with_reducible refine later_ite ?_ ?_
    | with_reducible refine later_driveBusEvent ?_
    | with_reducible refine later_fabricTrip ?_
    | with_reducible refine later_modMo ?_ ?_

theorem outcomeLater_execVdrvLow {s0 s : State} {t : TileId} (hs : State.Later s0 s) :
    OutcomeLater s0 (execVdrvLow t s) := by
  unfold execVdrvLow
  repeat' first
    | with_reducible assumption
    | with_reducible refine outcomeLater_onTile ?_ ?_
    | with_reducible exact fun _ k => k
    | with_reducible exact fun _ _ => Bridge.noConfusion
    | with_reducible exact fun k => ⟨k, id, id, id⟩
    | with_reducible exact rfl
    | (with_reducible (fail_if_success (show OutcomeLater _ _)); intro _)
    | with_reducible refine later_ite ?_ ?_
    | with_reducible refine later_vdrvTrip ?_
    | with_reducible refine later_each ?_ ?_
    | with_reducible refine later_modField ?_ ?_ ?_

theorem outcomeLater_execVdrvRestored {s0 s : State} {t : TileId} (hs : State.Later s0 s) :
    OutcomeLater s0 (execVdrvRestored t s) := by
  unfold execVdrvRestored
  repeat' first
    | with_reducible assumption
    | with_reducible refine outcomeLater_onTile ?_ ?_
    | with_reducible exact fun _ k => k
    | with_reducible exact fun _ _ => Bridge.noConfusion
    | with_reducible exact fun k => ⟨k, id, id, id⟩
    | with_reducible exact rfl
    | ((with_reducible refine fun (hf : _ = true) (hk : _ ≠ Bridge.driven) => ?_); dsimp only; (repeat' split) <;> first | exact hk | exact Bridge.noConfusion | (simp_all; done))
    | (with_reducible (fail_if_success (show OutcomeLater _ _)); intro _)
    | with_reducible refine later_ite ?_ ?_
    | with_reducible refine later_each ?_ ?_
    | with_reducible refine later_modField ?_ ?_ ?_
    | with_reducible refine later_modMo ?_ ?_

theorem outcomeLater_execVbatDomainLoss {s0 s : State} {t : TileId} (hs : State.Later s0 s) :
    OutcomeLater s0 (execVbatDomainLoss t s) := by
  unfold execVbatDomainLoss
  exact outcomeLater_onTile hs (fun x hx => later_lsRefresh (later_modKept hx ⟨rfl, fun k => ⟨k, id, id, fun h =>
    (congrArg LsChannel.isOn (vmap_get _ _ (0 : Fin 10))).trans h⟩⟩))

theorem outcomeLater_execVbatDomainReturn {s0 s : State} {t : TileId} (hs : State.Later s0 s) :
    OutcomeLater s0 (execVbatDomainReturn t s) := by
  unfold execVbatDomainReturn
  repeat' first
    | with_reducible assumption
    | with_reducible refine outcomeLater_onTile ?_ ?_
    | with_reducible exact fun _ k => k
    | with_reducible exact fun _ _ => Bridge.noConfusion
    | with_reducible exact fun k => ⟨k, id, id, id⟩
    | with_reducible exact rfl
    | (with_reducible (fail_if_success (show OutcomeLater _ _)); intro _)
    | with_reducible refine later_lsRefresh ?_
    | with_reducible refine later_modField ?_ ?_ ?_

theorem outcomeLater_execExternalReset {s0 s : State} (hs : State.Later s0 s) :
    OutcomeLater s0 (execExternalReset s) := by
  unfold execExternalReset
  repeat' first
    | with_reducible assumption
    | with_reducible refine outcomeLater_onHead ?_ ?_
    | (with_reducible (fail_if_success (show OutcomeLater _ _)); intro _)
    | with_reducible refine later_resetAll ?_

theorem outcomeLater_execThermalReset {s0 s : State} {t : TileId} {hot : Bool} (hs : State.Later s0 s) :
    OutcomeLater s0 (execThermalReset t hot s) := by
  unfold execThermalReset
  repeat' first
    | with_reducible assumption
    | with_reducible refine outcomeLater_onTile ?_ ?_
    | (with_reducible (fail_if_success (show OutcomeLater _ _)); intro _)
    | with_reducible refine later_dite ?_ ?_
    | with_reducible refine later_ite ?_ ?_
    | with_reducible refine later_dieReset ?_
    | with_reducible refine later_hold ?_
    | with_reducible refine later_startDone ?_

theorem outcomeLater_execReferenceLoss {s0 s : State} (hs : State.Later s0 s) :
    OutcomeLater s0 (execReferenceLoss s) := by
  unfold execReferenceLoss
  exact outcomeLater_onHead hs (fun x hx => later_each (later_resetAll (later_supply hx)) (fun _ _ h => later_hold h))

theorem outcomeLater_execReferenceReturn {s0 s : State} (hs : State.Later s0 s) :
    OutcomeLater s0 (execReferenceReturn s) := by
  unfold execReferenceReturn
  exact outcomeLater_onHead hs (fun x hx => later_each (later_supply hx) (fun _ _ h => later_hold h))

theorem outcomeLater_execPllPcieLockLoss {s0 s : State} (hs : State.Later s0 s) :
    OutcomeLater s0 (execPllPcieLockLoss s) := by
  unfold execPllPcieLockLoss
  repeat' first
    | with_reducible assumption
    | with_reducible refine outcomeLater_onHead ?_ ?_
    | (with_reducible (fail_if_success (show OutcomeLater _ _)); intro _)
    | with_reducible refine later_endpointReset ?_

theorem later_startAxis {s0 s : State} {t : TileId} {r : BootReport} {a : AxisId} (hs : State.Later s0 s) :
    State.Later s0 (s.startAxis t r a) := by
  unfold State.startAxis
  repeat' first
    | with_reducible assumption
    | ((try lift_lets -underBinder); intro x; first
        | (refine later_cut (s0 := s0) (x := x) ?_ ?_ <;> [unfold x; (intro hx; clear_value x)])
        | clear_value x)
    | intro _
    | with_reducible refine later_ite ?_ ?_
    | with_reducible refine later_causeCleared ?_
    | with_reducible refine later_positionLost ?_
    | with_reducible refine later_modDoor ?_
    | with_reducible refine later_modFb ?_
    | split

theorem later_flashLose {s0 s : State} {t : TileId} {sectors : Nat} (hs : State.Later s0 s) :
    State.Later s0 (s.flashLose t sectors) := by
  unfold State.flashLose
  repeat' first
    | with_reducible assumption
    | with_reducible exact fun _ k => k
    | with_reducible exact fun _ _ => Bridge.noConfusion
    | with_reducible exact fun k => ⟨k, id, id, id⟩
    | with_reducible exact Nat.le_refl _
    | with_reducible exact Nat.le_succ _
    | with_reducible exact rfl
    | ((try lift_lets -underBinder); intro x; first
        | (refine later_cut (s0 := s0) (x := x) ?_ ?_ <;> [unfold x; (intro hx; clear_value x)])
        | clear_value x)
    | intro _
    | with_reducible refine later_modHead ?_ ?_ ?_
    | with_reducible refine later_modPeat ?_ ?_

theorem later_flashRead {s0 s : State} {n : Nat} (hs : State.Later s0 s) :
    State.Later s0 (s.flashRead n) := by
  unfold State.flashRead
  repeat' first
    | with_reducible assumption
    | with_reducible exact Nat.le_refl _
    | with_reducible exact Nat.le_succ _
    | with_reducible exact rfl
    | ((try lift_lets -underBinder); intro x; first
        | (refine later_cut (s0 := s0) (x := x) ?_ ?_ <;> [unfold x; (intro hx; clear_value x)])
        | clear_value x)
    | intro _
    | with_reducible refine later_ite ?_ ?_
    | with_reducible refine later_flashLose ?_
    | with_reducible refine later_raiseHead ?_
    | with_reducible refine later_each ?_ ?_
    | with_reducible refine later_modHead ?_ ?_ ?_
    | with_reducible refine later_list ?_ ?_
    | split

theorem later_headStart {s0 s : State} {r : BootReport} (hs : State.Later s0 s) :
    State.Later s0 (s.headStart r) := by
  unfold State.headStart
  repeat' first
    | with_reducible assumption
    | with_reducible exact fun _ k => k
    | with_reducible exact fun _ _ => Bridge.noConfusion
    | with_reducible exact fun k => ⟨k, id, id, id⟩
    | with_reducible exact Nat.le_refl _
    | with_reducible exact Nat.le_succ _
    | ((try lift_lets -underBinder); intro x; first
        | (refine later_cut (s0 := s0) (x := x) ?_ ?_ <;> [unfold x; (intro hx; clear_value x)])
        | clear_value x)
    | intro _
    | with_reducible refine later_ite ?_ ?_
    | with_reducible refine later_cwySwitch ?_
    | with_reducible refine later_flashRead ?_
    | with_reducible refine later_resetStuck ?_
    | with_reducible refine later_each ?_ ?_
    | with_reducible refine later_modBoard ?_
    | with_reducible refine later_modDie ?_ ?_ ?_
    | with_reducible refine later_modTime ?_ ?_

theorem later_startSoundings {s0 s : State} {t : TileId} {old : Tile} (hs : State.Later s0 s) :
    State.Later s0 (s.startSoundings t old) := by
  unfold State.startSoundings
  repeat' first
    | with_reducible assumption
    | ((try lift_lets -underBinder); intro x; first
        | (refine later_cut (s0 := s0) (x := x) ?_ ?_ <;> [unfold x; (intro hx; clear_value x)])
        | clear_value x)
    | intro _
    | with_reducible refine later_ite ?_ ?_
    | with_reducible refine later_soundingsCleared ?_
    | with_reducible refine later_each ?_ ?_

theorem later_triadStart {s0 s : State} {t : TileId} {r : BootReport} {copied : Bool} (hs : State.Later s0 s) :
    State.Later s0 (s.triadStart t r copied) := by
  unfold State.triadStart
  repeat' first
    | with_reducible assumption
    | with_reducible exact fun _ k => k
    | with_reducible exact fun _ _ => Bridge.noConfusion
    | with_reducible exact fun k => ⟨k, id, id, id⟩
    | with_reducible exact Nat.le_refl _
    | with_reducible exact Nat.le_succ _
    | ((try lift_lets -underBinder); intro x; first
        | (refine later_cut (s0 := s0) (x := x) ?_ ?_ <;> [unfold x; (intro hx; clear_value x)])
        | clear_value x)
    | intro _
    | with_reducible refine later_ite ?_ ?_
    | with_reducible refine later_bootRecord ?_
    | with_reducible refine later_enterChosen ?_
    | with_reducible refine later_releaseImage ?_
    | with_reducible refine later_sedgeReopen ?_
    | with_reducible refine later_startAxis ?_
    | with_reducible refine later_triadRecord ?_
    | with_reducible refine later_watchdogOut ?_
    | with_reducible refine later_writeConfig ?_
    | with_reducible refine later_each ?_ ?_
    | with_reducible refine later_modDie ?_ ?_ ?_
    | with_reducible refine later_modDoor ?_
    | with_reducible refine later_modLink ?_

theorem later_imageLoaded {s0 s : State} {t : TileId} (hs : State.Later s0 s) :
    State.Later s0 (s.imageLoaded t) := by
  unfold State.imageLoaded
  repeat' first
    | with_reducible assumption
    | with_reducible exact fun _ k => k
    | with_reducible exact fun _ _ => Bridge.noConfusion
    | with_reducible exact fun k => ⟨k, id, id, id⟩
    | with_reducible exact rfl
    | intro _
    | with_reducible refine later_ite ?_ ?_
    | with_reducible refine later_lsRefresh ?_
    | with_reducible refine later_pairsRefresh ?_
    | with_reducible refine later_modField ?_ ?_ ?_

theorem later_boot (tl : Tile) (d : Die) (hk : d.key = tl.die.key) (hc : tl.die.secCounter ≤ d.secCounter) :
    Tile.Later tl { tl.allInForce with die := d } := by
  refine ⟨fun k e => by show d.key = _; rw [hk]; exact e, hc, List.prefix_refl _, id, Nat.le_refl _, fun h hf => ?_⟩
  obtain ⟨h1, h2, h3, h4⟩ := h hf
  refine ⟨h1, h2, h3, fun a => ?_⟩
  cases a
  · exact h4 .A
  · exact h4 .B
  · exact h4 .C

theorem outcomeLater_execLogicDieResetRelease {s0 s : State} {t : TileId} {r : BootReport} (hs : State.Later s0 s) :
    OutcomeLater s0 (execLogicDieResetRelease t r s) := by
  unfold execLogicDieResetRelease
  refine outcomeLater_onTile hs (fun y hy => ?_)
  have hx : State.Later s0 (if y.powerGood then y.imageLoaded t else y) := later_ite (fun _ => later_imageLoaded hy) (fun _ => hy)
  generalize (if y.powerGood then y.imageLoaded t else y) = x at hx ⊢
  refine later_ite (fun _ => hx) (fun _ => later_startDone (later_reportTiles ?_))
  have h1 : State.Later s0 (x.modTile t fun tl => { tl.allInForce with
      die := { ((x.tile t).die.boot r).1 with
        inReset := false, svc := ((x.tile t).die.boot r).1.fwVerified && !((x.tile t).die.boot r).1.svcOff, svcMissed := 0
        base := x.now } }) := later_modTile hx (later_boot _ _ (boot_key _ _) (boot_counter _ _))
  have h2 := later_ite (c := ((x.modTile t fun tl => { tl.allInForce with
      die := { ((x.tile t).die.boot r).1 with
        inReset := false, svc := ((x.tile t).die.boot r).1.fwVerified && !((x.tile t).die.boot r).1.svcOff, svcMissed := 0
        base := x.now } }).tile t).die.svc = true) (fun _ => later_closeEvents (t := t) (flags := 4) h1) (fun _ => h1)
  have h3 := later_startSoundings (t := t) (old := x.tile t)
    (later_ite (c := (t == .t0) = true) (fun _ => later_headStart (r := r) h2) (fun _ => h2))
  exact later_ite (fun _ => later_triadStart (later_ite (fun _ => later_modTriad h3) (fun _ => h3)))
    (fun _ => later_ite (fun _ => later_modTriad h3) (fun _ => h3))

theorem outcomeLater_execStartSupervisorTimeout {s0 s : State} {t : TileId} (hs : State.Later s0 s) :
    OutcomeLater s0 (execStartSupervisorTimeout t s) := by
  unfold execStartSupervisorTimeout
  repeat' first
    | with_reducible assumption
    | with_reducible refine outcomeLater_onTile ?_ ?_
    | with_reducible exact fun _ k => k
    | with_reducible exact fun _ _ => Bridge.noConfusion
    | with_reducible exact fun k => ⟨k, id, id, id⟩
    | with_reducible exact Nat.le_refl _
    | with_reducible exact Nat.le_succ _
    | (with_reducible (fail_if_success (show OutcomeLater _ _)); intro _)
    | with_reducible refine later_ite ?_ ?_
    | with_reducible refine later_dieReset ?_
    | with_reducible refine later_startDone ?_
    | with_reducible refine later_modDie ?_ ?_ ?_

end Sys2Proof.Machine
end

