-- ==== Sys2Proof/Laws/LaterWindows.lean ====
section
/-!
SUPPORT. What no command takes back, for every operation and meaning of Machine/Windows.lean.
-/

namespace Sys2Proof.Machine

theorem later_putReported {s0 s : State} {off : Nat} {on : Bool} (hs : State.Later s0 s) :
    State.Later s0 (s.putReported off on) := by
  unfold State.putReported
  repeat' first
    | with_reducible assumption
    | intro _
    | with_reducible refine later_putWindow ?_

theorem later_refreshOwn {s0 s : State} (hs : State.Later s0 s) :
    State.Later s0 s.refreshOwn := by
  unfold State.refreshOwn
  repeat' first
    | with_reducible assumption
    | ((try lift_lets -underBinder); intro x; first
        | (refine later_cut (s0 := s0) (x := x) ?_ ?_ <;> [unfold x; (intro hx; clear_value x)])
        | clear_value x)
    | intro _
    | with_reducible refine later_ite ?_ ?_
    | with_reducible refine later_putReported ?_
    | with_reducible refine later_putWindow ?_
    | with_reducible refine later_each ?_ ?_

theorem later_refreshFar {s0 s : State} (hs : State.Later s0 s) :
    State.Later s0 s.refreshFar := by
  unfold State.refreshFar
  repeat' first
    | with_reducible assumption
    | intro _
    | with_reducible refine later_ite ?_ ?_
    | with_reducible refine later_putReported ?_
    | with_reducible refine later_each ?_ ?_

theorem outcomeLater_execWindowRefresh {s0 s : State} (hs : State.Later s0 s) :
    OutcomeLater s0 (execWindowRefresh s) := by
  unfold execWindowRefresh
  repeat' first
    | with_reducible assumption
    | with_reducible refine outcomeLater_onHead ?_ ?_
    | (with_reducible (fail_if_success (show OutcomeLater _ _)); intro _)
    | with_reducible refine later_ite ?_ ?_
    | with_reducible refine later_bwkSend ?_
    | with_reducible refine later_refreshFar ?_
    | with_reducible refine later_refreshOwn ?_

end Sys2Proof.Machine
end

