-- ==== Sys2Proof/Laws/LaterCommit.lean ====
section
/-!
SUPPORT. What no command takes back, for every operation and meaning of Machine/Commit.lean.
-/

namespace Sys2Proof.Machine

theorem later_stateOf {s0 s : State} {o : Host.Outcome State Fault Refusal} (hs : State.Later s0 s) (h : OutcomeLater s0 o) :
    State.Later s0 (stateOf s o) := by
  unfold stateOf
  split
  · exact h _ rfl
  · exact hs

theorem later_runHeld {s0 s : State} {i : Instr} (hs : State.Later s0 s) : State.Later s0 (s.runHeld i) := by
  unfold State.runHeld
  refine later_stateOf hs ?_
  split
  · exact outcomeLater_execDoorwayEvaluation hs
  · exact outcomeLater_execKeepAliveWord hs
  · exact outcomeLater_execCheckpointWrite hs
  · exact outcomeLater_execPolicyBundleTakesEffect hs
  · exact outcomeLater_execTileParametersTakeEffect hs
  · exact outcomeLater_execShadowSetInstall hs
  · exact outcomeLater_execSelftestDwellPartStart hs
  · exact outcomeLater_execSedgeFrameReceived hs
  · exact outcomeLater_execSedgeWatchdogExpiry hs
  · exact outcomeLater_execSedgeTxPeriod hs
  · exact outcomeLater_execLswSet hs
  · exact outcomeLater_execLswSetClear hs
  · exact outcomeLater_execIoSet hs
  · exact outcomeLater_execIoSetClear hs
  · exact outcomeLater_execDoorRelease hs
  · exact outcomeLater_execDoorWithdraw hs
  · exact outcomeLater_execCalRequestFull hs
  · exact outcomeLater_execCalRequestShadow hs
  · exact outcomeLater_execCalPermit hs
  · exact outcomeLater_execCalCancel hs
  · exact outcomeLater_execCalRecover hs
  · exact outcomeLater_execSelftestRequest hs
  · exact outcomeLater_execSoundingWrite hs
  · exact outcomeLater_execShadowConfirmAccept hs
  · exact outcomeLater_execShadowConfirmDiscard hs
  · exact outcomeLater_execKeyRegister hs
  · exact outcomeLater_execCfgWriteEntries hs
  · exact outcomeLater_execCfgWriteBlock hs
  · exact outcomeLater_execPolicyActivate hs
  · exact outcomeLater_execSedgeOpen hs
  · exact outcomeLater_execSedgeClose hs
  · exact outcomeLater_execProofTestResult hs
  · exact outcomeLater_execCalibrationReady hs
  · exact outcomeLater_execObstructionAgesOut hs
  · exact outcomeLater_execCalPermitMaxExpiry hs
  · exact outcomeLater_execOpenLoadCheckPeriod hs
  · exact outcomeLater_execTriadReadmit hs
  · intro s' e
    cases e
    exact hs

theorem later_commitHeld {s0 s : State} {t : TileId} (hs : State.Later s0 s) : State.Later s0 (s.commitHeld t) := by
  unfold State.commitHeld
  exact later_list (later_modTriad hs) (fun _ _ h => later_runHeld h)

theorem outcomeLater_execSignatureComparisonComplete {s0 s : State} {t : TileId} {agree : Bool} {now : Nat} (hs : State.Later s0 s) :
    OutcomeLater s0 (execSignatureComparisonComplete t agree now s) := by
  unfold execSignatureComparisonComplete
  repeat' first
    | with_reducible assumption
    | with_reducible refine outcomeLater_onTile ?_ ?_
    | ((try lift_lets -underBinder); intro x; first
        | (refine later_cut (s0 := s0) (x := x) ?_ ?_ <;> [unfold x; (intro hx; clear_value x)])
        | clear_value x)
    | (with_reducible (fail_if_success (show OutcomeLater _ _)); intro _)
    | with_reducible refine later_ite ?_ ?_
    | with_reducible refine later_commitHeld ?_
    | with_reducible refine later_maskCore ?_
    | with_reducible refine later_readmitAborted ?_
    | with_reducible refine later_signaturesDiffer ?_
    | with_reducible refine later_at ?_
    | split

end Sys2Proof.Machine
end

