-- ==== Sys2Proof/Laws/LaterExec.lean ====
section
/-!
SUPPORT. What no command takes back: every command of the table, by the lemma of its meaning.
-/

namespace Sys2Proof.Machine

/-- Every command: what it does not take back. -/
theorem later_exec (i : Instr) (s : State) : OutcomeLater s (exec i s) := by
  have h : State.Later s s := State.Later.refl s
  cases i with
  | doorwayEvaluation _ _ => exact outcomeLater_execDoorwayEvaluation h
  | fieldLinkDownFrame _ _ => exact outcomeLater_execFieldLinkDownFrame h
  | fieldLinkUpFrame _ _ _ => exact outcomeLater_execFieldLinkUpFrame h
  | fieldLinkFault _ => exact outcomeLater_execFieldLinkFault h
  | keepAliveWord _ => exact outcomeLater_execKeepAliveWord h
  | serialWatchdogExpiry _ => exact outcomeLater_execSerialWatchdogExpiry h
  | svcHeartbeat _ => exact outcomeLater_execSvcHeartbeat h
  | svcHeartbeatMissed _ _ => exact outcomeLater_execSvcHeartbeatMissed h
  | svcReturn _ => exact outcomeLater_execSvcReturn h
  | tUnlockExpiry _ => exact outcomeLater_execTUnlockExpiry h
  | tOpenMaxExpiry _ => exact outcomeLater_execTOpenMaxExpiry h
  | tWarnExpiry _ => exact outcomeLater_execTWarnExpiry h
  | tCloseMaxExpiry _ => exact outcomeLater_execTCloseMaxExpiry h
  | tLockExpiry _ => exact outcomeLater_execTLockExpiry h
  | tNudgeMaxExpiry _ => exact outcomeLater_execTNudgeMaxExpiry h
  | tOpenDwellExpiry _ => exact outcomeLater_execTOpenDwellExpiry h
  | tStepMaxExpiry _ => exact outcomeLater_execTStepMaxExpiry h
  | tRevMaxExpiry _ => exact outcomeLater_execTRevMaxExpiry h
  | tBrakeMaxExpiry _ => exact outcomeLater_execTBrakeMaxExpiry h
  | tDwellExpiry _ => exact outcomeLater_execTDwellExpiry h
  | tHomeMaxExpiry _ _ => exact outcomeLater_execTHomeMaxExpiry h
  | stakeBoundExpiry _ _ => exact outcomeLater_execStakeBoundExpiry h
  | homingRunComplete _ => exact outcomeLater_execHomingRunComplete h
  | homingMoveComplete _ _ => exact outcomeLater_execHomingMoveComplete h
  | moveComesToRest _ _ => exact outcomeLater_execMoveComesToRest h
  | currentLoopSample _ _ _ _ => exact outcomeLater_execCurrentLoopSample h
  | positionLoopSample _ _ => exact outcomeLater_execPositionLoopSample h
  | residualTrip _ _ => exact outcomeLater_execResidualTrip h
  | satTrip _ _ => exact outcomeLater_execSatTrip h
  | followingErrorTrip _ _ => exact outcomeLater_execFollowingErrorTrip h
  | tripPairLevelChange _ _ => exact outcomeLater_execTripPairLevelChange h
  | tripStopBrakeDelay _ _ => exact outcomeLater_execTripStopBrakeDelay h
  | overcurrentComparatorEdge _ _ => exact outcomeLater_execOvercurrentComparatorEdge h
  | motorBusComparatorTrip _ => exact outcomeLater_execMotorBusComparatorTrip h
  | sensitiveEdgeActive _ _ => exact outcomeLater_execSensitiveEdgeActive h
  | fabricFault _ _ => exact outcomeLater_execFabricFault h
  | proofTestResult _ _ => exact outcomeLater_execProofTestResult h
  | alignmentComplete _ _ _ => exact outcomeLater_execAlignmentComplete h
  | hallCodeChange _ _ _ _ => exact outcomeLater_execHallCodeChange h
  | hallInvalidTimeout _ _ => exact outcomeLater_execHallInvalidTimeout h
  | coarseStepEdge _ _ _ _ => exact outcomeLater_execCoarseStepEdge h
  | homeSwitchRawEdge _ _ _ _ _ => exact outcomeLater_execHomeSwitchRawEdge h
  | switchDebounceExpiry _ _ _ => exact outcomeLater_execSwitchDebounceExpiry h
  | switchFault _ _ => exact outcomeLater_execSwitchFault h
  | indexPulse _ _ => exact outcomeLater_execIndexPulse h
  | quadratureEdge _ _ _ => exact outcomeLater_execQuadratureEdge h
  | encoQueuedEdge _ => exact outcomeLater_execEncoQueuedEdge h
  | directionEventHoldoff _ _ => exact outcomeLater_execDirectionEventHoldoff h
  | encoderFault _ _ => exact outcomeLater_execEncoderFault h
  | lineFault _ _ _ => exact outcomeLater_execLineFault h
  | ssiWordComplete _ _ _ _ _ => exact outcomeLater_execSsiWordComplete h
  | policyBundleTakesEffect _ => exact outcomeLater_execPolicyBundleTakesEffect h
  | tileParametersTakeEffect _ => exact outcomeLater_execTileParametersTakeEffect h
  | axisParametersTakeEffect _ _ => exact outcomeLater_execAxisParametersTakeEffect h
  | obstructionAgesOut _ => exact outcomeLater_execObstructionAgesOut h
  | calibrationReady _ => exact outcomeLater_execCalibrationReady h
  | calPermitMaxExpiry _ => exact outcomeLater_execCalPermitMaxExpiry h
  | calRestExpiry _ => exact outcomeLater_execCalRestExpiry h
  | calEndMaxExpiry _ => exact outcomeLater_execCalEndMaxExpiry h
  | shadowSetInstall _ => exact outcomeLater_execShadowSetInstall h
  | selftestDwellPartStart _ => exact outcomeLater_execSelftestDwellPartStart h
  | selftestPartComplete _ _ _ _ => exact outcomeLater_execSelftestPartComplete h
  | stDwellMaxExpiry _ => exact outcomeLater_execStDwellMaxExpiry h
  | lsinPinEdge _ _ _ => exact outcomeLater_execLsinPinEdge h
  | lsOvercurrent _ _ => exact outcomeLater_execLsOvercurrent h
  | inrushBlankingEnd _ _ => exact outcomeLater_execInrushBlankingEnd h
  | lsThermalShutdown _ _ => exact outcomeLater_execLsThermalShutdown h
  | lsThermalRestart _ _ _ => exact outcomeLater_execLsThermalRestart h
  | vbatUndervoltage _ _ _ => exact outcomeLater_execVbatUndervoltage h
  | vbatRecovery _ => exact outcomeLater_execVbatRecovery h
  | groupHeatShed _ => exact outcomeLater_execGroupHeatShed h
  | groupHeatRestart _ => exact outcomeLater_execGroupHeatRestart h
  | openLoadCheckPeriod _ => exact outcomeLater_execOpenLoadCheckPeriod h
  | offStateCheckMeasure _ _ _ _ => exact outcomeLater_execOffStateCheckMeasure h
  | lsSenseConversion _ _ => exact outcomeLater_execLsSenseConversion h
  | ls0AgainstCommand _ => exact outcomeLater_execLs0AgainstCommand h
  | ioInputChange _ _ _ => exact outcomeLater_execIoInputChange h
  | ioDebounceExpiry _ _ => exact outcomeLater_execIoDebounceExpiry h
  | pairDiscrepancyTimeout _ _ => exact outcomeLater_execPairDiscrepancyTimeout h
  | outputReadbackFault _ _ _ => exact outcomeLater_execOutputReadbackFault h
  | outputThermalShutdown _ _ => exact outcomeLater_execOutputThermalShutdown h
  | tlInputChange _ _ _ => exact outcomeLater_execTlInputChange h
  | tlDebounceExpiry _ _ => exact outcomeLater_execTlDebounceExpiry h
  | trainLineDiscrepancy _ _ => exact outcomeLater_execTrainLineDiscrepancy h
  | testPulseStart _ _ => exact outcomeLater_execTestPulseStart h
  | testPulseEnd _ _ => exact outcomeLater_execTestPulseEnd h
  | blankingWindowClose _ _ => exact outcomeLater_execBlankingWindowClose h
  | testSourceFault _ _ => exact outcomeLater_execTestSourceFault h
  | testSourceRetry _ _ _ => exact outcomeLater_execTestSourceRetry h
  | vioLoss => exact outcomeLater_execVioLoss h
  | vioRecovery => exact outcomeLater_execVioRecovery h
  | sraReadbackDisagreement _ => exact outcomeLater_execSraReadbackDisagreement h
  | bitternChannelProven _ _ => exact outcomeLater_execBitternChannelProven h
  | bitternChannelUnproven _ _ => exact outcomeLater_execBitternChannelUnproven h
  | bitternPulseAgeExpiry _ _ => exact outcomeLater_execBitternPulseAgeExpiry h
  | bitternPeriodicCheck _ _ _ => exact outcomeLater_execBitternPeriodicCheck h
  | bitternReadbackFault _ => exact outcomeLater_execBitternReadbackFault h
  | bitternProofDisagreement _ => exact outcomeLater_execBitternProofDisagreement h
  | sealDebounceExpiry _ _ => exact outcomeLater_execSealDebounceExpiry h
  | resumeDebounceExpiry _ _ _ => exact outcomeLater_execResumeDebounceExpiry h
  | resumeHighTimeout _ => exact outcomeLater_execResumeHighTimeout h
  | stuckResetClear => exact outcomeLater_execStuckResetClear h
  | proofAgeExpiry _ => exact outcomeLater_execProofAgeExpiry h
  | sedgeFrameReceived _ _ _ _ => exact outcomeLater_execSedgeFrameReceived h
  | sedgeWatchdogExpiry _ _ => exact outcomeLater_execSedgeWatchdogExpiry h
  | sedgeTxPeriod _ _ => exact outcomeLater_execSedgeTxPeriod h
  | voterDisagreement _ _ _ => exact outcomeLater_execVoterDisagreement h
  | writeCopyTimeout _ _ _ => exact outcomeLater_execWriteCopyTimeout h
  | signatureComparisonComplete _ _ _ => exact outcomeLater_execSignatureComparisonComplete h
  | checkpointWrite _ => exact outcomeLater_execCheckpointWrite h
  | spareOutOfReset _ => exact outcomeLater_execSpareOutOfReset h
  | spareResetTimeout _ => exact outcomeLater_execSpareResetTimeout h
  | spareCheckpointLoaded _ _ => exact outcomeLater_execSpareCheckpointLoaded h
  | spareJoinPause _ _ => exact outcomeLater_execSpareJoinPause h
  | triadRestart _ _ => exact outcomeLater_execTriadRestart h
  | duplexLimitExpiry _ => exact outcomeLater_execDuplexLimitExpiry h
  | spareBistPeriod _ => exact outcomeLater_execSpareBistPeriod h
  | bistComplete _ _ _ => exact outcomeLater_execBistComplete h
  | ptpAnnounce _ _ => exact outcomeLater_execPtpAnnounce h
  | ptpSync _ _ => exact outcomeLater_execPtpSync h
  | ptpFollowUp _ _ => exact outcomeLater_execPtpFollowUp h
  | ptpDelayResp _ _ => exact outcomeLater_execPtpDelayResp h
  | ptpPdelayReq _ _ => exact outcomeLater_execPtpPdelayReq h
  | ptpPdelayResp _ _ => exact outcomeLater_execPtpPdelayResp h
  | ptpPdelayRespFollowUp _ _ => exact outcomeLater_execPtpPdelayRespFollowUp h
  | announceReceiptTimeout _ => exact outcomeLater_execAnnounceReceiptTimeout h
  | syncLossTimeout _ => exact outcomeLater_execSyncLossTimeout h
  | holdoverMaxExpiry => exact outcomeLater_execHoldoverMaxExpiry h
  | epochMarkTimer _ => exact outcomeLater_execEpochMarkTimer h
  | timerOutputEdge _ => exact outcomeLater_execTimerOutputEdge h
  | ethPhyStatusPoll _ _ _ _ => exact outcomeLater_execEthPhyStatusPoll h
  | ethFrameReceived _ _ => exact outcomeLater_execEthFrameReceived h
  | arpRequestReceived _ _ _ _ => exact outcomeLater_execArpRequestReceived h
  | arpReplyReceived _ _ _ => exact outcomeLater_execArpReplyReceived h
  | arpRetryTimeout _ _ => exact outcomeLater_execArpRetryTimeout h
  | arpEntryRefresh _ _ => exact outcomeLater_execArpEntryRefresh h
  | icmpEchoRequest _ _ _ _ _ => exact outcomeLater_execIcmpEchoRequest h
  | cwyFrameReceived _ _ _ _ => exact outcomeLater_execCwyFrameReceived h
  | slotActionPoint _ _ => exact outcomeLater_execSlotActionPoint h
  | slotEnd _ _ => exact outcomeLater_execSlotEnd h
  | nitStart _ _ => exact outcomeLater_execNitStart h
  | listenTimeout => exact outcomeLater_execListenTimeout h
  | backoffEnd => exact outcomeLater_execBackoffEnd h
  | portLos _ => exact outcomeLater_execPortLos h
  | cyclePoint _ => exact outcomeLater_execCyclePoint h
  | canFrameReceived _ _ _ => exact outcomeLater_execCanFrameReceived h
  | canBufferLockEnd _ _ _ => exact outcomeLater_execCanBufferLockEnd h
  | canArbitrationStart _ _ => exact outcomeLater_execCanArbitrationStart h
  | canTxAttemptEnd _ _ _ _ => exact outcomeLater_execCanTxAttemptEnd h
  | canBusOffRecovery _ _ => exact outcomeLater_execCanBusOffRecovery h
  | canWake _ _ _ => exact outcomeLater_execCanWake h
  | linSlotStart _ _ => exact outcomeLater_execLinSlotStart h
  | linResponseReceived _ _ _ _ => exact outcomeLater_execLinResponseReceived h
  | linResponseTimeout _ _ _ _ => exact outcomeLater_execLinResponseTimeout h
  | linWakePulse _ _ => exact outcomeLater_execLinWakePulse h
  | linWakeDelayEnd _ _ => exact outcomeLater_execLinWakeDelayEnd h
  | cmdqDoorbell _ _ => exact outcomeLater_execCmdqDoorbell h
  | cplDoorbell _ _ => exact outcomeLater_execCplDoorbell h
  | evtDoorbell _ _ => exact outcomeLater_execEvtDoorbell h
  | descriptorFetch _ _ => exact outcomeLater_execDescriptorFetch h
  | notBeforeRelease _ => exact outcomeLater_execNotBeforeRelease h
  | interruptModerationTimeout _ _ => exact outcomeLater_execInterruptModerationTimeout h
  | msixVectorUnmask _ => exact outcomeLater_execMsixVectorUnmask h
  | hello _ _ _ _ => exact outcomeLater_execHello h
  | bye _ => exact outcomeLater_execBye h
  | byeTimeout => exact outcomeLater_execByeTimeout h
  | pcieConventionalReset => exact outcomeLater_execPcieConventionalReset h
  | pcieHotReset => exact outcomeLater_execPcieHotReset h
  | functionLevelReset => exact outcomeLater_execFunctionLevelReset h
  | pcieLinkDown => exact outcomeLater_execPcieLinkDown h
  | busMasterEnableCleared => exact outcomeLater_execBusMasterEnableCleared h
  | sessEnd => exact outcomeLater_execSessEnd h
  | cmdqEnable _ _ => exact outcomeLater_execCmdqEnable h
  | cmdqDisable _ => exact outcomeLater_execCmdqDisable h
  | cplRingEnable _ _ => exact outcomeLater_execCplRingEnable h
  | cplRingDisable _ => exact outcomeLater_execCplRingDisable h
  | evtRingEnable _ _ => exact outcomeLater_execEvtRingEnable h
  | evtRingDisable _ => exact outcomeLater_execEvtRingDisable h
  | ringDisableComplete _ _ => exact outcomeLater_execRingDisableComplete h
  | ifcCtlWrite _ => exact outcomeLater_execIfcCtlWrite h
  | bwkStatusRead _ => exact outcomeLater_execBwkStatusRead h
  | registerWrite _ _ => exact outcomeLater_execRegisterWrite h
  | cfgWriteEntries _ _ => exact outcomeLater_execCfgWriteEntries h
  | cfgWriteBlock _ _ _ _ => exact outcomeLater_execCfgWriteBlock h
  | cfgReadEntries _ _ _ => exact outcomeLater_execCfgReadEntries h
  | cfgReadBlock _ _ _ _ _ => exact outcomeLater_execCfgReadBlock h
  | policyLoad _ _ => exact outcomeLater_execPolicyLoad h
  | policyActivate _ => exact outcomeLater_execPolicyActivate h
  | doorRelease _ => exact outcomeLater_execDoorRelease h
  | doorWithdraw _ => exact outcomeLater_execDoorWithdraw h
  | doorOpen _ => exact outcomeLater_execDoorOpen h
  | doorClose _ => exact outcomeLater_execDoorClose h
  | doorHold _ => exact outcomeLater_execDoorHold h
  | doorNudge _ => exact outcomeLater_execDoorNudge h
  | stepDeploy _ => exact outcomeLater_execStepDeploy h
  | stepStow _ => exact outcomeLater_execStepStow h
  | axisHome _ _ => exact outcomeLater_execAxisHome h
  | axisJog _ _ => exact outcomeLater_execAxisJog h
  | lswSet _ _ _ => exact outcomeLater_execLswSet h
  | lswSetClear _ _ _ => exact outcomeLater_execLswSetClear h
  | ioSet _ _ _ => exact outcomeLater_execIoSet h
  | ioSetClear _ _ _ => exact outcomeLater_execIoSetClear h
  | ioRead _ _ => exact outcomeLater_execIoRead h
  | calRequestFull _ => exact outcomeLater_execCalRequestFull h
  | calRequestShadow _ _ => exact outcomeLater_execCalRequestShadow h
  | calPermit _ => exact outcomeLater_execCalPermit h
  | calCancel _ => exact outcomeLater_execCalCancel h
  | calRecover _ => exact outcomeLater_execCalRecover h
  | selftestRequest _ _ _ => exact outcomeLater_execSelftestRequest h
  | soundingRead _ _ _ _ _ _ => exact outcomeLater_execSoundingRead h
  | soundingWrite _ _ _ _ _ => exact outcomeLater_execSoundingWrite h
  | shadowConfirmAccept _ => exact outcomeLater_execShadowConfirmAccept h
  | shadowConfirmDiscard _ => exact outcomeLater_execShadowConfirmDiscard h
  | timeStepAccept _ _ => exact outcomeLater_execTimeStepAccept h
  | timerArm _ _ => exact outcomeLater_execTimerArm h
  | timerCancel _ _ => exact outcomeLater_execTimerCancel h
  | canTx _ _ => exact outcomeLater_execCanTx h
  | canAbort _ _ _ => exact outcomeLater_execCanAbort h
  | linSchedLoad _ _ _ _ => exact outcomeLater_execLinSchedLoad h
  | linSchedLoadDataOnly _ _ _ _ => exact outcomeLater_execLinSchedLoadDataOnly h
  | linSchedSelect _ _ _ => exact outcomeLater_execLinSchedSelect h
  | sedgeOpen _ _ _ => exact outcomeLater_execSedgeOpen h
  | sedgeClose _ _ => exact outcomeLater_execSedgeClose h
  | logDrain _ _ _ _ => exact outcomeLater_execLogDrain h
  | logSeal _ => exact outcomeLater_execLogSeal h
  | logMark _ _ => exact outcomeLater_execLogMark h
  | triadStatus _ _ => exact outcomeLater_execTriadStatus h
  | triadReadmit _ _ => exact outcomeLater_execTriadReadmit h
  | fwStage _ _ _ _ => exact outcomeLater_execFwStage h
  | fwCommit _ => exact outcomeLater_execFwCommit h
  | keyRegister _ _ => exact outcomeLater_execKeyRegister h
  | attest _ _ _ => exact outcomeLater_execAttest h
  | eventsRecordTimeout _ => exact outcomeLater_execEventsRecordTimeout h
  | blockSignatureComplete _ => exact outcomeLater_execBlockSignatureComplete h
  | flashBlockCopyComplete _ _ => exact outcomeLater_execFlashBlockCopyComplete h
  | boardwalkLinkTrained _ _ => exact outcomeLater_execBoardwalkLinkTrained h
  | boardwalkTrainingRetry _ => exact outcomeLater_execBoardwalkTrainingRetry h
  | boardwalkPortDown _ => exact outcomeLater_execBoardwalkPortDown h
  | boardwalkFrameReceived _ _ => exact outcomeLater_execBoardwalkFrameReceived h
  | bwkRetransmitTimer => exact outcomeLater_execBwkRetransmitTimer h
  | forwardAckTimeout _ _ => exact outcomeLater_execForwardAckTimeout h
  | bwkTimingExchange _ _ _ => exact outcomeLater_execBwkTimingExchange h
  | powerGood _ => exact outcomeLater_execPowerGood h
  | powerGoodLost => exact outcomeLater_execPowerGoodLost h
  | brownOut _ => exact outcomeLater_execBrownOut h
  | vdd33Loss _ => exact outcomeLater_execVdd33Loss h
  | vpcieLoss => exact outcomeLater_execVpcieLoss h
  | vdrvLow _ => exact outcomeLater_execVdrvLow h
  | vdrvRestored _ => exact outcomeLater_execVdrvRestored h
  | vbatDomainLoss _ => exact outcomeLater_execVbatDomainLoss h
  | vbatDomainReturn _ => exact outcomeLater_execVbatDomainReturn h
  | externalReset => exact outcomeLater_execExternalReset h
  | thermalReset _ _ => exact outcomeLater_execThermalReset h
  | referenceLoss => exact outcomeLater_execReferenceLoss h
  | referenceReturn => exact outcomeLater_execReferenceReturn h
  | pllPcieLockLoss => exact outcomeLater_execPllPcieLockLoss h
  | logicDieResetRelease _ _ => exact outcomeLater_execLogicDieResetRelease h
  | startSupervisorTimeout _ => exact outcomeLater_execStartSupervisorTimeout h
  | pairDiscrepantClear _ _ => exact outcomeLater_execPairDiscrepantClear h
  | canReceiveError _ _ _ => exact outcomeLater_execCanReceiveError h
  | ptpDelayRequestSend _ _ => exact outcomeLater_execPtpDelayRequestSend h
  | windowRefresh => exact outcomeLater_execWindowRefresh h

end Sys2Proof.Machine
end

