-- ==== Sys2Proof/Laws/Told.lean ====
section
/-!
SUPPORT. The frame of telling (Safety.lean): an event, a log record, a completion or a host reset leaves everything but the
host's side and the logs as it was.
-/

namespace Sys2Proof.Machine

theorem Tile.Told.refl (a : Tile) : Tile.Told a a := rfl

theorem Tile.Told.trans {a b c : Tile} (h : Tile.Told a b) (k : Tile.Told b c) : Tile.Told a c := by
  unfold Tile.Told at *
  rw [h] at k
  exact k

theorem State.Told.refl (s : State) : State.Told s s := ⟨rfl, rfl, ⟨rfl, rfl⟩, rfl, rfl, rfl, fun _ => rfl⟩

theorem State.Told.trans {a b c : State} (h : State.Told a b) (k : State.Told b c) : State.Told a c := by
  refine ⟨k.part.trans h.part, k.windows.trans h.windows, ⟨k.supply.1.trans h.supply.1, k.supply.2.trans h.supply.2⟩,
    k.draws.trans h.draws, k.pending.trans h.pending, ?_, fun t => (h.tiles t).trans (k.tiles t)⟩
  have e := k.head
  rw [h.head] at e
  exact e

section rules

variable {s0 s : State}

theorem told_cut {x : State} {p : Prop} (h : State.Told s0 x) (k : State.Told s0 x → p) : p := k h

theorem told_ite {c : Prop} [Decidable c] {a b : State} (ha : c → State.Told s0 a) (hb : ¬ c → State.Told s0 b) :
    State.Told s0 (if c then a else b) := by
  by_cases h : c
  · rw [if_pos h]; exact ha h
  · rw [if_neg h]; exact hb h

theorem told_emit {o : Output} (h : State.Told s0 s) : State.Told s0 (s.emit o) :=
  h.trans ⟨rfl, rfl, ⟨rfl, rfl⟩, rfl, rfl, rfl, fun _ => rfl⟩

theorem told_dma {a : Nat} {bs : List Byte} (h : State.Told s0 s) : State.Told s0 (s.dma a bs) :=
  h.trans ⟨rfl, rfl, ⟨rfl, rfl⟩, rfl, rfl, rfl, fun _ => rfl⟩

theorem told_modHead {f : Head → Head} (h : State.Told s0 s) (e : f s.head = { s.head with
    host := (f s.head).host, sectors := (f s.head).sectors, signQueue := (f s.head).signQueue
    drainQueue := (f s.head).drainQueue, logHigh := (f s.head).logHigh
    board := { s.head.board with keep := (f s.head).board.keep } }) : State.Told s0 (s.modHead f) :=
  h.trans ⟨rfl, rfl, ⟨rfl, rfl⟩, rfl, rfl, e, fun _ => rfl⟩

theorem told_modHost {f : HostIf → HostIf} (h : State.Told s0 s) : State.Told s0 (s.modHost f) := told_modHead h rfl

theorem told_modBoard {f : Board → Board} (h : State.Told s0 s)
    (e : f s.head.board = { s.head.board with keep := (f s.head.board).keep }) : State.Told s0 (s.modBoard f) :=
  told_modHead h (by rw [e])

theorem told_modTile {t : TileId} {f : Tile → Tile} (h : State.Told s0 s) (e : Tile.Told (s.tile t) (f (s.tile t))) :
    State.Told s0 (s.modTile t f) := by
  refine h.trans ⟨rfl, rfl, ⟨rfl, rfl⟩, rfl, rfl, rfl, fun u => ?_⟩
  rw [State.tile_modTile]
  by_cases k : u = t
  · subst k; rw [if_pos rfl]; exact e
  · rw [if_neg k]; exact Tile.Told.refl _

theorem told_modPeat {t : TileId} {f : Peat → Peat} (h : State.Told s0 s) : State.Told s0 (s.modPeat t f) :=
  told_modTile h rfl

theorem told_modDoor {t : TileId} {f : Doorway → Doorway} (h : State.Told s0 s)
    (e : f (s.tile t).door = { (s.tile t).door with mailbox := (f (s.tile t).door).mailbox }) :
    State.Told s0 (s.modDoor t f) := told_modTile h (by unfold Tile.Told; dsimp only; rw [e])

theorem told_each {α : Type} {l : List α} {f : State → α → State} (h : State.Told s0 s)
    (hf : ∀ x a, State.Told s0 x → State.Told s0 (f x a)) : State.Told s0 (s.each l f) := by
  induction l generalizing s with
  | nil => exact h
  | cons a l ih => exact ih (hf s a h)

end rules

theorem told_signal {s0 s : State} {v : Nat} (hs : State.Told s0 s) :
    State.Told s0 (s.signal v) := by
  unfold State.signal
  repeat' first
    | with_reducible assumption
    | intro _
    | with_reducible refine told_ite ?_ ?_
    | with_reducible refine told_emit ?_
    | with_reducible refine told_modHost ?_

theorem told_bwkSend {s0 s : State} {k : Nat} {pl : BwkPayload} (hs : State.Told s0 s) :
    State.Told s0 (s.bwkSend k pl) := by
  unfold State.bwkSend
  repeat' first
    | with_reducible assumption
    | intro _
    | with_reducible refine told_emit ?_
    | split

theorem told_bwkTell {s0 s : State} {pl : BwkPayload} (hs : State.Told s0 s) :
    State.Told s0 (s.bwkTell pl) := by
  unfold State.bwkTell
  repeat' first
    | with_reducible assumption
    | intro _
    | with_reducible refine told_ite ?_ ?_
    | with_reducible refine told_bwkSend ?_
    | with_reducible refine told_each ?_ ?_

theorem told_bwkKeep {s0 s : State} {r : BwkRef} {pl : BwkPayload} (hs : State.Told s0 s) :
    State.Told s0 (s.bwkKeep r pl) := by
  unfold State.bwkKeep
  repeat' first
    | with_reducible assumption
    | intro _
    | with_reducible refine told_bwkSend ?_
    | with_reducible refine told_modBoard ?_ rfl

theorem told_evtPut {s0 s : State} {e : Fin 8} {id : Nat} {ts : Word} {data : List Byte} {urgent : Bool} {mark : Bool} (hs : State.Told s0 s) :
    State.Told s0 (s.evtPut e id ts data urgent mark) := by
  unfold State.evtPut
  repeat' first
    | with_reducible assumption
    | ((try lift_lets -underBinder); intro x; first
        | (refine told_cut (s0 := s0) (x := x) ?_ ?_ <;> [unfold x; (intro hx; clear_value x)])
        | clear_value x)
    | intro _
    | with_reducible refine told_ite ?_ ?_
    | with_reducible refine told_signal ?_
    | with_reducible refine told_dma ?_
    | with_reducible refine told_modHost ?_

theorem told_evtSend {s0 s : State} {e : Fin 8} {id : Nat} {ts : Word} {data : List Byte} {urgent : Bool} (hs : State.Told s0 s) :
    State.Told s0 (s.evtSend e id ts data urgent) := by
  unfold State.evtSend
  repeat' first
    | with_reducible assumption
    | ((try lift_lets -underBinder); intro x; first
        | (refine told_cut (s0 := s0) (x := x) ?_ ?_ <;> [unfold x; (intro hx; clear_value x)])
        | clear_value x)
    | intro _
    | with_reducible refine told_ite ?_ ?_
    | with_reducible refine told_evtPut ?_

theorem told_eventOut {s0 s : State} {src : Option TileId} {code : Nat} {ts : Word} {data : List Byte} (hs : State.Told s0 s) :
    State.Told s0 (s.eventOut src code ts data) := by
  unfold State.eventOut
  repeat' first
    | with_reducible assumption
    | intro _
    | with_reducible refine told_ite ?_ ?_
    | with_reducible refine told_bwkSend ?_
    | with_reducible refine told_evtSend ?_
    | with_reducible refine told_each ?_ ?_

theorem told_openEntry {s0 s : State} {t : TileId} {id : Nat} {ts : Word} {data : List Byte} {src : Option Source} (hs : State.Told s0 s) :
    State.Told s0 (s.openEntry t id ts data src) := by
  unfold State.openEntry
  repeat' first
    | with_reducible assumption
    | intro _
    | with_reducible refine told_ite ?_ ?_
    | with_reducible refine told_modPeat ?_

theorem told_logHighCheck {s0 s : State} (hs : State.Told s0 s) :
    State.Told s0 s.logHighCheck := by
  unfold State.logHighCheck
  repeat' first
    | with_reducible assumption
    | ((try lift_lets -underBinder); intro x; first
        | (refine told_cut (s0 := s0) (x := x) ?_ ?_ <;> [unfold x; (intro hx; clear_value x)])
        | clear_value x)
    | intro _
    | with_reducible refine told_ite ?_ ?_
    | with_reducible refine told_eventOut ?_
    | with_reducible refine told_openEntry ?_
    | with_reducible refine told_modHead ?_ rfl

theorem told_peatStore {s0 s : State} {t : TileId} {type : Nat} {src : Source} {body : List Byte} {flags : Nat} (hs : State.Told s0 s) :
    State.Told s0 (s.peatStore t type src body flags) := by
  unfold State.peatStore
  repeat' first
    | with_reducible assumption
    | ((try lift_lets -underBinder); intro x; first
        | (refine told_cut (s0 := s0) (x := x) ?_ ?_ <;> [unfold x; (intro hx; clear_value x)])
        | clear_value x)
    | intro _
    | with_reducible refine told_ite ?_ ?_
    | with_reducible refine told_logHighCheck ?_
    | with_reducible refine told_modPeat ?_
    | with_reducible refine told_modHead ?_ rfl
    | split

theorem told_peatLose {s0 s : State} {t : TileId} {type : Nat} {full : Bool} (hs : State.Told s0 s) :
    State.Told s0 (s.peatLose t type full) := by
  unfold State.peatLose
  repeat' first
    | with_reducible assumption
    | ((try lift_lets -underBinder); intro x; first
        | (refine told_cut (s0 := s0) (x := x) ?_ ?_ <;> [unfold x; (intro hx; clear_value x)])
        | clear_value x)
    | intro _
    | with_reducible refine told_ite ?_ ?_
    | with_reducible refine told_eventOut ?_
    | with_reducible refine told_openEntry ?_
    | with_reducible refine told_modPeat ?_

theorem told_peatToFlash {s0 s : State} {t : TileId} {b : Nat} {sector : Nat} (hs : State.Told s0 s) :
    State.Told s0 (s.peatToFlash t b sector) := by
  unfold State.peatToFlash
  repeat' first
    | with_reducible assumption
    | ((try lift_lets -underBinder); intro x; first
        | (refine told_cut (s0 := s0) (x := x) ?_ ?_ <;> [unfold x; (intro hx; clear_value x)])
        | clear_value x)
    | intro _
    | with_reducible refine told_ite ?_ ?_
    | with_reducible refine told_modPeat ?_
    | with_reducible refine told_modHead ?_ rfl

theorem told_peatRoom {s0 s : State} {t : TileId} (hs : State.Told s0 s) :
    State.Told s0 (s.peatRoom t) := by
  unfold State.peatRoom
  repeat' first
    | with_reducible assumption
    | ((try lift_lets -underBinder); intro x; first
        | (refine told_cut (s0 := s0) (x := x) ?_ ?_ <;> [unfold x; (intro hx; clear_value x)])
        | clear_value x)
    | intro _
    | with_reducible refine told_ite ?_ ?_
    | with_reducible refine told_peatToFlash ?_
    | split

theorem told_peatFree {s0 s : State} {t : TileId} {bs : List Nat} (hs : State.Told s0 s) :
    State.Told s0 (s.peatFree t bs) := by
  unfold State.peatFree
  repeat' first
    | with_reducible assumption
    | ((try lift_lets -underBinder); intro x; first
        | (refine told_cut (s0 := s0) (x := x) ?_ ?_ <;> [unfold x; (intro hx; clear_value x)])
        | clear_value x)
    | intro _
    | with_reducible refine told_eventOut ?_
    | with_reducible refine told_openEntry ?_
    | with_reducible refine told_modPeat ?_
    | with_reducible refine told_modHead ?_ rfl

theorem told_peatWrap {s0 s : State} {t : TileId} (hs : State.Told s0 s) :
    State.Told s0 (s.peatWrap t) := by
  unfold State.peatWrap
  repeat' first
    | with_reducible assumption
    | ((try lift_lets -underBinder); intro x; first
        | (refine told_cut (s0 := s0) (x := x) ?_ ?_ <;> [unfold x; (intro hx; clear_value x)])
        | clear_value x)
    | intro _
    | with_reducible refine told_ite ?_ ?_
    | with_reducible refine told_peatToFlash ?_
    | with_reducible refine told_peatFree ?_
    | with_reducible refine told_each ?_ ?_
    | with_reducible refine told_modHead ?_ rfl
    | split

theorem told_peatPut {s0 s : State} {t : TileId} {type : Nat} {src : Source} {body : List Byte} {flags : Nat} (hs : State.Told s0 s) :
    State.Told s0 (s.peatPut t type src body flags) := by
  unfold State.peatPut
  repeat' first
    | with_reducible assumption
    | ((try lift_lets -underBinder); intro x; first
        | (refine told_cut (s0 := s0) (x := x) ?_ ?_ <;> [unfold x; (intro hx; clear_value x)])
        | clear_value x)
    | intro _
    | with_reducible refine told_ite ?_ ?_
    | with_reducible refine told_peatStore ?_
    | with_reducible refine told_peatLose ?_
    | with_reducible refine told_peatRoom ?_
    | with_reducible refine told_peatWrap ?_
    | with_reducible refine told_modPeat ?_

theorem told_closeEvents {s0 s : State} {t : TileId} {flags : Nat} (hs : State.Told s0 s) :
    State.Told s0 (s.closeEvents t flags) := by
  unfold State.closeEvents
  repeat' first
    | with_reducible assumption
    | ((try lift_lets -underBinder); intro x; first
        | (refine told_cut (s0 := s0) (x := x) ?_ ?_ <;> [unfold x; (intro hx; clear_value x)])
        | clear_value x)
    | intro _
    | with_reducible refine told_ite ?_ ?_
    | with_reducible refine told_peatPut ?_
    | with_reducible refine told_modPeat ?_

theorem told_peatEntry {s0 s : State} {t : TileId} {type : Nat} {src : Source} {body : List Byte} (hs : State.Told s0 s) :
    State.Told s0 (s.peatEntry t type src body) := by
  unfold State.peatEntry
  repeat' first
    | with_reducible assumption
    | ((try lift_lets -underBinder); intro x; first
        | (refine told_cut (s0 := s0) (x := x) ?_ ?_ <;> [unfold x; (intro hx; clear_value x)])
        | clear_value x)
    | intro _
    | with_reducible refine told_ite ?_ ?_
    | with_reducible refine told_peatLose ?_
    | with_reducible refine told_peatPut ?_
    | with_reducible refine told_closeEvents ?_
    | with_reducible refine told_modPeat ?_

theorem told_logEvent {s0 s : State} {t : TileId} {id : Nat} {ts : Word} {data : List Byte} {src : Option Source} (hs : State.Told s0 s) :
    State.Told s0 (s.logEvent t id ts data src) := by
  unfold State.logEvent
  repeat' first
    | with_reducible assumption
    | ((try lift_lets -underBinder); intro x; first
        | (refine told_cut (s0 := s0) (x := x) ?_ ?_ <;> [unfold x; (intro hx; clear_value x)])
        | clear_value x)
    | intro _
    | with_reducible refine told_ite ?_ ?_
    | with_reducible refine told_openEntry ?_
    | with_reducible refine told_peatLose ?_
    | with_reducible refine told_closeEvents ?_
    | with_reducible refine told_modPeat ?_

theorem told_raiseAt {s0 s : State} {t : TileId} {code : Nat} {ts : Word} {data : List Byte} {logged : Bool} {src : Option Source} (hs : State.Told s0 s) :
    State.Told s0 (s.raiseAt t code ts data logged src) := by
  unfold State.raiseAt
  repeat' first
    | with_reducible assumption
    | ((try lift_lets -underBinder); intro x; first
        | (refine told_cut (s0 := s0) (x := x) ?_ ?_ <;> [unfold x; (intro hx; clear_value x)])
        | clear_value x)
    | intro _
    | with_reducible refine told_ite ?_ ?_
    | with_reducible refine told_eventOut ?_
    | with_reducible refine told_logEvent ?_

theorem told_raise {s0 s : State} {t : TileId} {code : Nat} {data : List Byte} {logged : Bool} {src : Option Source} (hs : State.Told s0 s) :
    State.Told s0 (s.raise t code data logged src) := by
  unfold State.raise
  repeat' first
    | with_reducible assumption
    | intro _
    | with_reducible refine told_raiseAt ?_

theorem told_raiseHead {s0 s : State} {code : Nat} {data : List Byte} {logged : Bool} (hs : State.Told s0 s) :
    State.Told s0 (s.raiseHead code data logged) := by
  unfold State.raiseHead
  repeat' first
    | with_reducible assumption
    | ((try lift_lets -underBinder); intro x; first
        | (refine told_cut (s0 := s0) (x := x) ?_ ?_ <;> [unfold x; (intro hx; clear_value x)])
        | clear_value x)
    | intro _
    | with_reducible refine told_ite ?_ ?_
    | with_reducible refine told_eventOut ?_
    | with_reducible refine told_logEvent ?_

theorem told_mailboxKeep {s0 s : State} (hs : State.Told s0 s) :
    State.Told s0 s.mailboxKeep := by
  unfold State.mailboxKeep
  repeat' first
    | with_reducible assumption
    | ((try lift_lets -underBinder); intro x; first
        | (refine told_cut (s0 := s0) (x := x) ?_ ?_ <;> [unfold x; (intro hx; clear_value x)])
        | clear_value x)
    | intro _
    | with_reducible refine told_each ?_ ?_
    | with_reducible refine told_modDoor ?_ rfl

theorem told_hostReset {s0 s : State} (hs : State.Told s0 s) :
    State.Told s0 s.hostReset := by
  unfold State.hostReset
  repeat' first
    | with_reducible assumption
    | ((try lift_lets -underBinder); intro x; first
        | (refine told_cut (s0 := s0) (x := x) ?_ ?_ <;> [unfold x; (intro hx; clear_value x)])
        | clear_value x)
    | intro _
    | with_reducible refine told_ite ?_ ?_
    | with_reducible refine told_bwkTell ?_
    | with_reducible refine told_mailboxKeep ?_
    | with_reducible refine told_modHost ?_

theorem told_completeRaw {s0 s : State} {o : Outstanding} {status : Nat} {detail : Nat} {result : List Byte} (hs : State.Told s0 s) :
    State.Told s0 (s.completeRaw o status detail result) := by
  unfold State.completeRaw
  repeat' first
    | with_reducible assumption
    | ((try lift_lets -underBinder); intro x; first
        | (refine told_cut (s0 := s0) (x := x) ?_ ?_ <;> [unfold x; (intro hx; clear_value x)])
        | clear_value x)
    | intro _
    | with_reducible refine told_ite ?_ ?_
    | with_reducible refine told_signal ?_
    | with_reducible refine told_bwkKeep ?_
    | with_reducible refine told_dma ?_
    | with_reducible refine told_modHost ?_

theorem told_completeOut {s0 s : State} {o : Outstanding} {status : Nat} {detail : Nat} {result : List Byte} (hs : State.Told s0 s) :
    State.Told s0 (s.completeOut o status detail result) := by
  unfold State.completeOut
  repeat' first
    | with_reducible assumption
    | ((try lift_lets -underBinder); intro x; first
        | (refine told_cut (s0 := s0) (x := x) ?_ ?_ <;> [unfold x; (intro hx; clear_value x)])
        | clear_value x)
    | intro _
    | with_reducible refine told_ite ?_ ?_
    | with_reducible refine told_hostReset ?_
    | with_reducible refine told_completeRaw ?_
    | split

theorem told_complete {s0 s : State} {h : HostCmd} {op : Nat} {status : Nat} {detail : Nat} {result : List Byte} (hs : State.Told s0 s) :
    State.Told s0 (s.complete h op status detail result) := by
  unfold State.complete
  repeat' first
    | with_reducible assumption
    | intro _
    | with_reducible refine told_completeOut ?_
    | split

theorem told_loseCommands {s0 s : State} {t : TileId} (hs : State.Told s0 s) :
    State.Told s0 (s.loseCommands t) := by
  unfold State.loseCommands
  repeat' first
    | with_reducible assumption
    | ((try lift_lets -underBinder); intro x; first
        | (refine told_cut (s0 := s0) (x := x) ?_ ?_ <;> [unfold x; (intro hx; clear_value x)])
        | clear_value x)
    | intro _
    | with_reducible refine told_ite ?_ ?_
    | with_reducible refine told_bwkKeep ?_
    | with_reducible refine told_modHost ?_
    | with_reducible refine told_each ?_ ?_
    | with_reducible refine told_modDoor ?_ rfl

theorem told_markAccepted {s0 s : State} {h : HostCmd} {op : Nat} (hs : State.Told s0 s) :
    State.Told s0 (s.markAccepted h op) := by
  unfold State.markAccepted
  repeat' first
    | with_reducible assumption
    | intro _
    | with_reducible refine told_ite ?_ ?_
    | with_reducible refine told_modHost ?_

theorem told_configRecord {s0 s : State} {t : TileId} {h : Option HostCmd} {op : Nat} {status : Nat} {before : List Byte} {after : List Byte} {entries : List Byte} (hs : State.Told s0 s) :
    State.Told s0 (s.configRecord t h op status before after entries) := by
  unfold State.configRecord
  repeat' first
    | with_reducible assumption
    | ((try lift_lets -underBinder); intro x; first
        | (refine told_cut (s0 := s0) (x := x) ?_ ?_ <;> [unfold x; (intro hx; clear_value x)])
        | clear_value x)
    | intro _
    | with_reducible refine told_ite ?_ ?_
    | with_reducible refine told_peatEntry ?_
    | split

theorem told_raiseField {s0 s : State} {t : TileId} {code : Nat} {data : List Byte} (hs : State.Told s0 s) :
    State.Told s0 (s.raiseField t code data) := by
  unfold State.raiseField
  repeat' first
    | with_reducible assumption
    | intro _
    | with_reducible refine told_ite ?_ ?_
    | with_reducible refine told_raise ?_

theorem told_lsEvent {s0 s : State} {t : TileId} {code : Nat} {ch : Fin 10} {latched : Bool} {sense : BitVec 16} (hs : State.Told s0 s) :
    State.Told s0 (s.lsEvent t code ch latched sense) := by
  unfold State.lsEvent
  repeat' first
    | with_reducible assumption
    | intro _
    | with_reducible refine told_raiseField ?_

theorem told_driveBusEvent {s0 s : State} {t : TileId} {a : AxisId} {cause : Nat} (hs : State.Told s0 s) :
    State.Told s0 (s.driveBusEvent t a cause) := by
  unfold State.driveBusEvent
  repeat' first
    | with_reducible assumption
    | intro _
    | with_reducible refine told_raise ?_

theorem told_dirEvent {s0 s : State} {t : TileId} {a : AxisId} (hs : State.Told s0 s) :
    State.Told s0 (s.dirEvent t a) := by
  unfold State.dirEvent
  repeat' first
    | with_reducible assumption
    | ((try lift_lets -underBinder); intro x; first
        | (refine told_cut (s0 := s0) (x := x) ?_ ?_ <;> [unfold x; (intro hx; clear_value x)])
        | clear_value x)
    | intro _
    | with_reducible refine told_raiseAt ?_

theorem told_triadRecord {s0 s : State} {t : TileId} {h : Option HostCmd} (hs : State.Told s0 s) :
    State.Told s0 (s.triadRecord t h) := by
  unfold State.triadRecord
  repeat' first
    | with_reducible assumption
    | intro _
    | with_reducible refine told_ite ?_ ?_
    | with_reducible refine told_peatEntry ?_
    | split

/-! ### What the frame gives -/

section gives

variable {s s' : State}

theorem State.Told.field (h : State.Told s s') (t : TileId) : (s'.tile t).field = (s.tile t).field := by rw [h.tiles t]
theorem State.Told.ax (h : State.Told s s') (t : TileId) : (s'.tile t).ax = (s.tile t).ax := by rw [h.tiles t]
theorem State.Told.link (h : State.Told s s') (t : TileId) : (s'.tile t).link = (s.tile t).link := by rw [h.tiles t]
theorem State.Told.triad (h : State.Told s s') (t : TileId) : (s'.tile t).triad = (s.tile t).triad := by rw [h.tiles t]
theorem State.Told.die (h : State.Told s s') (t : TileId) : (s'.tile t).die = (s.tile t).die := by rw [h.tiles t]
theorem State.Told.inForce (h : State.Told s s') (t : TileId) : (s'.tile t).inForce = (s.tile t).inForce := by rw [h.tiles t]
theorem State.Told.door (h : State.Told s s') (t : TileId) :
    (s'.tile t).door = { (s.tile t).door with mailbox := (s'.tile t).door.mailbox } := by
  have e := h.tiles t
  unfold Tile.Told at e
  exact congrArg Tile.door e
theorem State.Told.time (h : State.Told s s') : s'.head.time = s.head.time := by rw [h.head]
theorem State.Told.cwy (h : State.Told s s') : s'.head.cwy = s.head.cwy := by rw [h.head]

end gives

end Sys2Proof.Machine
end

