-- ==== Sys2Proof/Tests/Slice0.lean ====
section
/-!
SUPPORT. The row's own tests: ill-formed operands that Instr.wf refuses, states and operands that meet the hypotheses of each
statement (witness_…), and single steps with results taken from the manual's examples and tables (test_…).
-/

namespace Sys2Proof.Tests

open Sys2Proof Sys2Proof.Machine

set_option Elab.async false

/-! ### States to test on -/

/-- A tile in service: its dies run, its triad is in TRIPLEX and the keep-alive is sent. -/
def live : Tile :=
  { Tile.reset with
    die := { Die.reset with inReset := false, svc := true, fwVerified := true, reported := true }
    triad := { Triad.reset with formed := true, mode := .triplex }
    link := { Link.reset with keepAlive := true } }

/-- A ZK8608 with every tile in service. -/
def up : State := { State.reset with tiles := PerTile.all live }

/-- The same with tile 0 changed. -/
def wt (f : Tile → Tile) : State := up.modTile .t0 f
def wd (f : Doorway → Doorway) : State := up.modDoor .t0 f
def wf (f : FieldDie → FieldDie) : State := up.modField .t0 f
def wl (f : Link → Link) : State := up.modLink .t0 f
def wr (f : Triad → Triad) : State := up.modTriad .t0 f
def wp (f : Peat → Peat) : State := up.modPeat .t0 f
def wm (f : Motion → Motion) : State := up.modMo .t0 .A f
def wb (f : Feedback → Feedback) : State := up.modFb .t0 .A f
def wi (f : Die → Die) : State := up.modDie .t0 f
def wh (f : HostIf → HostIf) : State := up.modHost f

/-- Parameters of tile 0 set, written and in force on the tile and its axis A. -/
def par (s : State) (l : List (Nat × Int)) : State :=
  let put := fun (m : SMap) => l.foldl (fun m x => pSet m x.1 x.2) m
  (s.modTile .t0 fun tl => { tl with written := put tl.written, inForce := put tl.inForce }).modAxis .t0 .A fun x =>
    { x with inForce := put x.inForce }

/-- A key of axis A. -/
def ka (table row : Nat) (idx : Nat := 0) : Nat := pKey table row idx (some .A)

/-- A key of the tile. -/
def kt (table row : Nat) (idx : Nat := 0) : Nat := pKey table row idx none

/-- The command of queue 0 with tag 7 in session 1, at tile 0. -/
def hc : HostCmd := { session := 1, queue := 0, tag := 7, tile := .t0, axis := some .A, dmaFault := false }

/-- Its entry among the fetched commands. -/
def entry (op : Nat) : Outstanding :=
  { queue := 0, tag := 7, opcode := op, flags := 0, target := 0x70, sqHead := 1, notBefore := 0, waiting := false, behind := false
    accepted := false, lost := false, session := 1, forwarded := none, remote := false, desc := [], blocks := [] }

/-- A state in a version 3.0 session with that command fetched. -/
def asked (s : State) (op : Nat) : State :=
  s.modHost fun h => { h with ready := true, sessionOpen := true, session := 1, version := 0x0300, outstanding := [entry op] }

/-- A completion ring and a command queue enabled, both with four entries given by the host. -/
def rings (s : State) : State :=
  s.modHost fun h =>
    { h with ready := true
             cmdq := vset h.cmdq 0 { Ring.reset with enabled := true, hostIndex := 4 }
             cpl := vset h.cpl 0 { Ring.reset with enabled := true, hostIndex := 4, base := 0x1000, imodTime := 5, imodCount := 8 } }

/-- A fetched command is due where the service core of tile 0 is present. -/
theorem asked_due (s : State) (op : Nat) (hs : (s.tile .t0).die.svc = true) (ht : s.hasTile .t0 = true) :
    (asked s op).Due hc op := by
  refine ⟨ht, ⟨entry op, ?_, rfl, ?_⟩, hs, hs⟩
  · simp [asked, State.findOut, State.modHost, State.modHead, hc, entry]
  · have : (asked s op).head.host.outstanding = [entry op] := rfl
    simp [State.outOfTurn, this]

/-! ### Operands that no command can carry -/

theorem test_wf_lsin0 : (Instr.lsinPinEdge .t0 0 true).wf = false := by decide
theorem test_wf_sense : (Instr.lsSenseConversion .t0 (Vector.replicate 10 0x10000)).wf = false := by decide
theorem test_wf_can_id : (Instr.canFrameReceived .t0 0 ⟨⟨0x800, false, true, false, false, 0, [], false⟩, 0⟩).wf = false := by decide
theorem test_wf_can_length : (Instr.canFrameReceived .t0 0 ⟨⟨0x100, false, true, false, false, 9, [1], false⟩, 0⟩).wf = false := by decide
theorem test_wf_evt_moderation : (Instr.interruptModerationTimeout .evt 8).wf = false := by decide
theorem test_wf_evt_disable : (Instr.ringDisableComplete .evt 8).wf = false := by decide
theorem test_wf_policy (b : List Byte) (h : b.length = 65537) : (Instr.policyLoad hc b).wf = false := by simp [Instr.wf, h]
theorem test_wf_block (b : List Byte) (h : b.length = 65537) : (Instr.cfgWriteBlock hc 0x0F01 0 b).wf = false := by
  simp [Instr.wf, h]
theorem test_wf_causeway (f : CwyFrame) (h : f.hop = 256) : (Instr.cwyFrameReceived .portA f 0 0).wf = false := by
  simp [Instr.wf, CwyFrame.wf, h]

/-! ### What the statements assume, met -/

theorem witness_FrontCommandRunsWithTheRestOfTheQueue :
    ({ up with pending := [.windowRefresh, .sessEnd] } : State).pending = .windowRefresh :: [.sessEnd] := rfl

theorem witness_EmptyQueueAdvancesTheClocksOneTick : up.pending = [] ∧ up.head.time.record.rate = 0 ∧
    up.head.time.record.frac < 2 ^ 40 := by decide +kernel

theorem witness_EveryCommandAnswersUnlessItsTileIsAbsent :
    (addressee (.svcHeartbeat .t1) = some .t1 ∧ up.hasTile .t1 = true) ∧
    ({ up with part := .zk8602 } : State).hasTile .t1 = false ∧ addressee .vioLoss = none := by decide +kernel

theorem witness_EveryStepKeepsTheInvariant : up.Inv ∧ ∃ s', step up = .next s' := by
  refine ⟨⟨rfl, fun t => ?_⟩, ⟨_, rfl⟩⟩
  cases t <;> exact ⟨fun _ => ⟨rfl, rfl, rfl, fun a => by cases a <;> decide +kernel⟩, by decide +kernel⟩

theorem witness_NoCommandTakesBackWhatIsOneTime :
    ∃ s', step (up.modDie .t0 fun d => { d with key := some [1], secCounter := 3 }) = .next s' ∧
      ((up.modDie .t0 fun d => { d with key := some [1] }).tile .t0).die.key = some [1] := ⟨_, rfl, rfl⟩

/-- Axis A in a closing move of a pass, planned as it is measured, with what its trips and its rest look for. -/
def moving : State :=
  up.modAxis .t0 .A fun x =>
    { x with mo := { x.mo with bridge := .driven, persist := 9, satCount := 9, planPos := 900000, feSince := some 0, vbus := 3000
                               move := some { kind := .leaf, target := 0, set := .close, dir := .closing
                                              profileDone := false, fresh := false } }
             pa := { x.pa with active := true, door := .closing } }

theorem witness_FabricTripsStopTheBridge : up.hasTile .t0 = true ∧ (moving.axis .t0 .A).stoppable = true ∧
    (moving.tile .t0).used .A = true ∧
    ((wm fun m => { m with tripEngine := true }).axis .t0 .A).pairRaised = true ∧ (up.tile .t0).used .A = true ∧
    ((par up [(kt 0x11 0, 1)]).tile .t0).used .B = false := by decide +kernel

theorem witness_FabricTripsStopTheBridge_edge :
    let s := (up.modField .t0 id).modFab .t0 .A fun f => { f with edgeEn := true }
    let m := (moving.modFab .t0 .A fun f => { f with edgeEn := true }).modIo .t0 8 fun p => { p with level := false }
    s.hasTile .t0 = true ∧ (s.tile .t0).edgeActs .edgeA .A = false ∧ (m.axis .t0 .A).fab.edgeEn = true ∧
    (m.tile .t0).edgeActs .edgeA .A = true ∧ (m.axis .t0 .A).stoppable = true ∧ (m.tile .t0).used .A = true := by decide +kernel

theorem witness_TripsAndBrakesOfAnAxis : moving.hasTile .t0 = true ∧ (moving.axis .t0 .A).moving = true ∧
    (moving.axis .t0 .A).pa.active = true ∧ (moving.axis .t0 .A).mo.bridge = .driven ∧
    (moving.axis .t0 .A).mo.persist ≥ (moving.tile .t0).parN 0x82 2 (moving.axis .t0 .A).mo.zone.val ∧
    (moving.axis .t0 .A).mo.satCount ≥ (moving.tile .t0).parN 0x82 2 (moving.axis .t0 .A).mo.zone.val ∧
    (let late := moving.at 1000000001
     (late.axis .t0 .A).mo.feSince = some 0 ∧ late.now > 0 + 1000000 * (late.tile .t0).parAN .A 0x05 6) ∧
    ((wm fun m => { m with freeDelay := true }).axis .t0 .A).mo.freeDelay = true := by decide +kernel

/-- Axis C deploying with contact in its zone. -/
def deploying (zone : Int) : State :=
  (up.modTile .t0 fun tl => { tl with inForce := pSet tl.inForce (kt 0x82 11 0) zone }).modAxis .t0 .C fun x =>
    { x with mo := { x.mo with bridge := .driven, persist := 9, satCount := 9
                               move := some { kind := .stepCmd, target := 1000, set := .step, dir := .opening
                                              profileDone := false, fresh := false } }
             pa := { x.pa with active := true } }

theorem witness_TripsAndBrakesOfAnAxis_contact :
    let s := deploying 1
    (s.axis .t0 .C).mo.move = some { kind := .stepCmd, target := 1000, set := .step, dir := .opening, profileDone := false, fresh := false } ∧
    (s.axis .t0 .C).pa.active = true ∧ (s.axis .t0 .C).mo.bridge = .driven ∧ (s.axis .t0 .C).mo.contact = none ∧
    (s.tile .t0).par 0x82 11 (s.axis .t0 .C).mo.zone.val = 1 ∧
    (s.axis .t0 .C).mo.persist ≥ (s.tile .t0).parN 0x82 2 (s.axis .t0 .C).mo.zone.val ∧
    (s.axis .t0 .C).mo.satCount ≥ (s.tile .t0).parN 0x82 2 (s.axis .t0 .C).mo.zone.val := by decide +kernel

theorem witness_TripsAndBrakesOfAnAxis_fabric :
    let s := (up.modAxis .t0 .A fun x => { x with fab := { x.fab with tripped := false }, mo := { x.mo with tripTriad := false } }).modField
      .t0 fun f => { f with vdrvOk := true }
    (s.axis .t0 .A).fab.tripped = false ∧ (s.axis .t0 .A).pairRaised = false ∧ (s.tile .t0).fabInputs .A = false := by
  decide +kernel

theorem witness_BoundsExpireIntoAnEvaluation :
    let b : Bound := .running 1
    let s := (wd fun d => { d with tUnlock := b, tOpenMax := b, tWarn := b, tCloseMax := b, tLock := b, tNudgeMax := b
                                   tOpenDwell := b, tStepMax := b, tRevMax := b, tBrakeMax := b, tDwell := b, calRest := b
                                   calEndMax := b }).modMo .t0 .A fun m => { m with tHomeMax := b }
    let d := (s.tile .t0).door
    d.tUnlock.isRunning = true ∧ d.tOpenMax.isRunning = true ∧ d.tWarn.isRunning = true ∧ d.tCloseMax.isRunning = true ∧
    d.tLock.isRunning = true ∧ d.tNudgeMax.isRunning = true ∧ d.tOpenDwell.isRunning = true ∧ d.tStepMax.isRunning = true ∧
    d.tRevMax.isRunning = true ∧ d.tBrakeMax.isRunning = true ∧ d.tDwell.isRunning = true ∧ d.calRest.isRunning = true ∧
    d.calEndMax.isRunning = true ∧ (s.axis .t0 .A).mo.tHomeMax.isRunning = true ∧
    ((wr fun tr => { tr with mode := .lost }).tile .t0).triadActs = false ∧
    ((wr fun tr => { tr with mode := .lost }).tile .t0).triadRuns = false ∧
    ((wr fun tr => { tr with mode := .confirm }).tile .t0).triadActs = false ∧
    ((wr fun tr => { tr with mode := .confirm }).tile .t0).triadRuns = true := by decide +kernel

/-- A doorway in a state with nothing pending: no position is lost, no trip is reported, no fault is latched. -/
def calm (st : DoorState) : State := wd fun d => { d with st := st, latched := [] }

theorem witness_EvaluationJudgesItsTriggersInOrder :
    let iso := (calm .locked).modLink .t0 fun l => { l with up := { l.up with pIso := .active } }
    ((calm .locked).tile .t0).door.posLost = false ∧ (iso.tile .t0).link.up.pIso = .active ∧
    (iso.tile .t0).door.st ≠ .isolated := by decide +kernel

theorem ofLe_two (l : List Byte) : ofLe (l.take 2) < 65536 := by
  rcases l with _ | ⟨a, _ | ⟨b, l⟩⟩
  · simp [ofLe]
  · simp [ofLe]; omega
  · simp [ofLe]; omega

/-- A package whose bundles are verified and whose seal switches show the code. -/
def sealedUp : State :=
  let s := { up with tiles := PerTile.all { live with die := { live.die with policyOk := true } } }
  s.modHead fun h => { h with sealSw := BitVec.ofNat 16 s.sealCode }

theorem witness_seal : sealedUp.sealOk = true := by
  have h : sealedUp.sealInForce = true := by decide +kernel
  have hc : sealedUp.head.sealSw.toNat = sealedUp.sealCode := by
    show (BitVec.ofNat 16 sealedUp.sealCode).toNat = _
    rw [BitVec.toNat_ofNat]
    exact Nat.mod_eq_of_lt (ofLe_two _)
  simp [State.sealOk, h, hc]

/-- A doorway in LOCKED without a fault. -/
def clean : State :=
  (sealedUp.modDoor .t0 fun d => { d with st := .locked, latched := [] }).modLink .t0 fun l =>
    { l with up := { l.up with bitConfig := some live.bitternConfig } }

theorem witness_clean : clean.faults .t0 = [] := by
  have h : clean.sealOk = true := witness_seal
  unfold State.faults
  rw [h]
  decide +kernel

theorem witness_EvaluationJudgesItsTriggersInOrder_none :
    clean.evalFault .t0 = none ∧ (clean.tile .t0).link.up.pIso ≠ .active ∧ (clean.evalEgress .t0).isNone = true ∧
    (clean.evalTripOrBound .t0).isNone = true ∧ (clean.evalLoss .t0).isNone = true ∧ (clean.evalOther .t0).isNone = true ∧
    ((clean.modDoor .t0 fun d => { d with posLost := true }).tile .t0).door.posLost = true ∧
    ((calm .released).evalLoss .t0).isSome = true ∧ ((calm .locked).evalFault .t0).isSome = true := by
  refine ⟨?_, by decide +kernel⟩
  unfold State.evalFault
  rw [witness_clean]
  rfl

theorem witness_TransitionEntersItsStateAndEndsItsBounds : ((calm .released).tile .t0).door.st ≠ .opening ∧
    ((calm .released).tile .t0).door.st ≠ .held ∧ DoorState.opening ≠ .held ∧ ((calm .opening).tile .t0).door.st = .opening := by decide +kernel

theorem witness_ExpiredBoundsAndLossesTakeTheirTransitions :
    let s := fun st => (calm st).modDoor .t0 fun d => { d with tUnlock := .expired, tNudgeMax := .expired, tWarn := .expired }
    ((s .opening).tile .t0).door.homing = none ∧ ((s .opening).tile .t0).door.trips = [] ∧
    ((s .opening).tile .t0).door.stakeExpired = [] ∧ ((s .opening).tile .t0).door.tUnlock = .expired ∧
    ((s .opening).tile .t0).door.egress = false ∧ ((s .nudging).tile .t0).door.tNudgeMax = .expired ∧
    ((s .closing).tile .t0).door.tCloseMax.isExpired = false ∧ ((s .closing).tile .t0).door.tStepMax.isExpired = false ∧
    ((s .closing).tile .t0).door.tWarn = .expired ∧ ((s .released).tile .t0).releaseValid = false ∧
    ((s .openSt).tile .t0).door.st = .openSt ∧ ((s .held).tile .t0).door.st = .held := by decide +kernel

theorem witness_DoorCommandsEnterTheMailboxAndAreEvaluated : (asked up 0x21).Due hc 0x21 ∧ (asked up 0x20).Due hc 0x20 ∧
    ((asked up 0x21).tile .t0).door.mailbox = [] ∧ ((asked up 0x20).tile .t0).triadActs = true :=
  ⟨asked_due _ _ rfl rfl, asked_due _ _ rfl rfl, by decide +kernel, by decide +kernel⟩

/-- RELEASED by the host with leaves and lock proven and DOOR_OPEN at the head of the mailbox. -/
def releasedOpen (lock : PairStatus) (rel : Bool) : State :=
  ((calm .released).modDoor .t0 fun d => { d with mailbox := [(hc, .openDoor)], hostRelease := rel, tlDisc := (false, false) }).modLink .t0
    fun l => { l with up := { l.up with pLeaf := .active, pLock := lock, tlLevel := #v[true, true, rel, rel] } }

theorem witness_DoorOpenFromReleasedUnlocks :
    let tl := (releasedOpen .active true).tile .t0
    tl.door.mailbox = [(hc, .openDoor)] ∧ tl.door.st = .released ∧ tl.door.proofRun = false ∧ tl.releaseValid = true ∧
    tl.lockProven = true ∧ tl.lsRole 14 < 10 ∧ ((releasedOpen .active false).tile .t0).releaseValid = false ∧
    ((releasedOpen .inactive true).tile .t0).lockProven = false ∧ ((releasedOpen .inactive true).tile .t0).releaseValid = true := by
  decide +kernel

theorem witness_HomingRestAndTheStakeBound :
    let run := (wd fun d => { d with homing := some { inIsolated := false, unlocked := false, phase := 3 } }).modLink .t0 fun l =>
      { l with up := { l.up with pLock := .active } }
    let rest := (moving.modMo .t0 .A fun m => { m with slowSince := some 0
                                                       move := m.move.map fun v => { v with profileDone := true } }).at 10000000
    let stage := rest.modMo .t0 .A fun m => { m with homeStage := some .index }
    let bound := ((calm .opening).modPa .t0 .A fun p => { p with bound := some (100, .opening, 3), boundTime := .running 5 })
    let old := ((wd fun d => { d with obstructions := [0] }).modTime fun tb => { tb with local_ := 10 ^ 12 })
    (run.tile .t0).homeDone = true ∧ rest.atRest .t0 .A = true ∧ stage.atRest .t0 .A = true ∧
    moving.atRest .t0 .A = false ∧ (rest.axis .t0 .A).mo.homeStage = none ∧ (stage.axis .t0 .A).mo.homeStage.isSome = true ∧
    (stage.axis .t0 .A).mo.move.isSome = true ∧
    ((moving.axis .t0 .A).mo.move.map (·.kind)) = some .leaf ∧ (bound.axis .t0 .A).pa.bound = some (100, .opening, 3) ∧
    (bound.axis .t0 .A).pa.boundTime.isRunning = true ∧ (bound.tile .t0).door.st = .opening ∧
    (old.tile .t0).triadRuns = true ∧
    (old.tile .t0).door.obstructions.any (fun i => decide (i + (old.tile .t0).parN 0x83 4 * 1000000000 < old.now)) = true := by
  decide +kernel

theorem witness_ComingToRestEndsTheMove : (moving.axis .t0 .A).mo.move.isSome = true ∧
    (moving.axis .t0 .A).mo.contact = none ∧ (moving.axis .t0 .A).mo.bridge = .driven ∧
    (let short := (deploying 1).modMo .t0 .C fun m => { m with contact := some 0 }
     let far := short.modFb .t0 .C fun f => { f with pos := 1000000 }
     (short.axis .t0 .C).mo.contact = some 0 ∧ (short.axis .t0 .C).mo.move.isSome = true ∧
     (short.axis .t0 .C).fb.pos < min ((short.tile .t0).par 0x83 6) ((short.tile .t0).travel .C) ∧
     min ((far.tile .t0).par 0x83 6) ((far.tile .t0).travel .C) ≤ (far.axis .t0 .C).fb.pos) := by decide +kernel

/-- Calibration allowed at a doorway in LOCKED at zero speed, asked for by the host. -/
def calm40 (f : Doorway → Doorway) : State :=
  asked (((par (calm .locked) [(kt 0x09 7, 1)]).modDoor .t0 f).modLink .t0 fun l => { l with up := { l.up with tlLevel := #v[true, true, false, false] } }) 0x40

theorem witness_ProofTestAndCalibrationReadiness :
    let s := (calm .locked).modDoor .t0 fun d => { d with proofRun := true, proofSelf := false, cal := .idle, proofPhase := 5 }
    let f := s.modDoor .t0 fun d => { d with proofBad := some (.A, 3) }
    let q := calm40 fun d => { d with cal := .queued }
    let r := (calm .locked).modDoor .t0 fun d => { d with cal := .ready 0, calPermitMax := .running 5 }
    (s.tile .t0).door.proofBad = none ∧ (s.tile .t0).door.proofPhase = 5 ∧ (f.tile .t0).door.proofBad = some (.A, 3) ∧
    ((s.modDoor .t0 fun d => { d with proofPhase := 2 }).tile .t0).door.proofPhase ≠ 5 ∧
    (q.tile .t0).triadRuns = true ∧ (q.tile .t0).door.cal = .queued ∧ (q.tile .t0).calConditions = true ∧
    (s.tile .t0).door.proofRun = true ∧ (s.tile .t0).door.proofSelf = false ∧ (s.tile .t0).door.cal = .idle ∧
    (s.tile .t0).door.st ≠ .isolated ∧ (s.tile .t0).door.st ≠ .faultSafe ∧ (r.tile .t0).door.cal = .ready 0 ∧
    (r.tile .t0).door.calPermitMax.isRunning = true := by decide +kernel

theorem witness_CurrentLoopSampleTakesItsMeasures : up.hasTile .t0 = true ∧ (up.tile .t0).used .A = true ∧
    ((par up [(kt 0x11 0, 1)]).tile .t0).used .B = false := by decide +kernel

theorem witness_PlannerKeepsItsLimits :
    let rest := wm fun m => { m with bridge := .driven }
    (moving.tile .t0).used .A = true ∧ (moving.axis .t0 .A).mo.move.map (·.profileDone) = some false ∧
    (moving.axis .t0 .A).mo.bridge = .driven ∧ (moving.axis .t0 .A).mo.aligning = false ∧ (moving.tile .t0).streams .A = false ∧
    ((moving.axis .t0 .A).mo.planAcc.natAbs : Int) ≤ (max 1 ((moving.tile .t0).parAN .A 0x03 1 LimitSet.close.idx) : Nat) ∧
    (up.axis .t0 .A).mo.move = none ∧ (up.axis .t0 .A).mo.bridge ≠ .driven ∧ (rest.axis .t0 .A).mo.move = none ∧
    (rest.axis .t0 .A).mo.bridge = .driven ∧ (rest.axis .t0 .A).mo.aligning = false ∧ (rest.tile .t0).used .A = true ∧
    ((par up [(kt 0x11 0, 1)]).tile .t0).used .B = false := by decide +kernel

theorem witness_AlignmentAndExternalSteps :
    let s := wm fun m => { m with aligning := true }
    let e := (par moving [(ka 0x06 0, 1)]).modDoor .t0 fun d => { d with st := .closing }
    (s.axis .t0 .A).mo.aligning = true ∧ (s.axis .t0 .A).mo.homeStage ≠ some .align ∧ (s.tile .t0).door.homing = none ∧
    2 * ((10 : Int).natAbs : Int) * (s.tile .t0).parA .A 0x04 2 ≤ (s.tile .t0).parA .A 0x04 1 ∧
    2 * ((100000 : Int).natAbs : Int) * (s.tile .t0).parA .A 0x04 2 > (s.tile .t0).parA .A 0x04 1 ∧
    (e.tile .t0).parA .A 0x06 0 ≠ 0 ∧ (e.tile .t0).follows .A .opening = false ∧ (e.tile .t0).follows .A .closing = true ∧
    (e.axis .t0 .A).mo.extReported = false := by decide +kernel

/-- Axis A counts quadrature and is referenced. -/
def quad : State := (par up [(ka 0x08 0, 1), (ka 0x08 4, 4000)]).modFb .t0 .A fun f => { f with referenced := true, causes := [] }

theorem witness_QuadratureEdgesCount :
    let ph := quad.modFb .t0 .A fun f => { f with indexPhase := some 0, pos := 4008 }
    let far := quad.modFb .t0 .A fun f => { f with indexPhase := some 0, pos := 4009 }
    (quad.tile .t0).used .A = true ∧ (quad.tile .t0).parA .A 0x08 0 ≠ 0 ∧
    (((quad.axis .t0 .A).fb.u + 2 : Nat) : Int) ≤ (quad.tile .t0).parA .A 0x08 3 ∧
    ((par up [(ka 0x08 0, 0)]).tile .t0).parA .A 0x08 0 = 0 ∧
    (quad.tile .t0).parA .A 0x08 4 ≠ 0 ∧ (quad.axis .t0 .A).fb.indexPhase = none ∧
    (quad.axis .t0 .A).mo.homeStage ≠ some .index ∧ (quad.axis .t0 .A).fb.referenced = true ∧
    ((quad.modMo .t0 .A fun m => { m with homeStage := some .index }).axis .t0 .A).mo.homeStage = some .index ∧
    ((indexError 4008 0 4000).natAbs : Int) ≤ (ph.tile .t0).parA .A 0x08 5 ∧
    ((indexError 4009 0 4000).natAbs : Int) > (far.tile .t0).parA .A 0x08 5 := by decide +kernel

theorem witness_FeedbackFaultsLoseThePosition :
    let hall := (par up [(ka 0x08 6, 1), (ka 0x04 0, 0)]).modFb .t0 .A fun f => { f with hallCode := 7 }
    let sw := (par up []).modFb .t0 .A fun f => { f with swLevel := ⟨true, false, false⟩, causes := [] }
    (quad.tile .t0).used .A = true ∧ (quad.tile .t0).parA .A 0x08 0 ≠ 0 ∧ (hall.tile .t0).motor .A = 0 ∧ (hall.tile .t0).parA .A 0x08 6 ≠ 0 ∧
    hallPlace (hall.axis .t0 .A).fb.hallCode = none ∧ (sw.axis .t0 .A).swActive .A .limC = true ∧
    (sw.axis .t0 .A).swActive .A .limO = true ∧ (sw.axis .t0 .A).fb.causes.contains 7 = false := by decide +kernel

theorem witness_HallCodesAreFollowed :
    let s := (par up [(ka 0x08 6, 1), (ka 0x04 0, 0)]).modFb .t0 .A fun f => { f with hallCode := 1, hallLast := 1 }
    let near := s.modMo .t0 .A fun m => { m with elecOff := some (0, 3413) }
    let k := s.modFb .t0 .A fun f => { f with hallSkipped := true }
    (s.tile .t0).used .A = true ∧ (s.tile .t0).parA .A 0x08 6 ≠ 0 ∧ hallPlace 7 = none ∧
    (hallPlace 5 ≠ none ∧ hallSkip (s.axis .t0 .A).fb.hallLast 5 = false ∧ (s.axis .t0 .A).mo.elecOff = none) ∧
    ((near.axis .t0 .A).mo.elecOff = some (0, 3413) ∧ (near.tile .t0).motor .A = 0 ∧
      ((angleDist ((near.tile .t0).angleAt .A (0, 3413) (near.axis .t0 .A).fb.pos)
        (hallEdgeAngle (near.axis .t0 .A).fb.hallLast 5) * 360 : Nat) : Int) ≤ (near.tile .t0).parA .A 0x08 7 * 4096) ∧
    hallPlace 2 ≠ none ∧ hallSkip (k.axis .t0 .A).fb.hallLast 2 = true ∧ (k.axis .t0 .A).fb.hallSkipped = true := by
  decide +kernel

theorem witness_HallCodesAreFollowed_switches :
    let s := up.modFb .t0 .A fun f => { f with swRaw := ⟨true, true, true⟩, chatter := [] }
    let busy := up.modFb .t0 .A fun f => { f with swRaw := ⟨true, true, true⟩, chatter := [0, 0, 0, 0] }
    let edges := fun (c : List Nat) => (c ++ [0]).filter fun i => decide (0 ≤ i + 8 * (up.tile .t0).parAN .A 0x08 8 * 1000)
    let l := (moving.modFb .t0 .A fun f => { f with swRaw := ⟨true, false, true⟩, swLevel := ⟨false, true, false⟩ })
    (s.tile .t0).used .A = true ∧ swGet (s.axis .t0 .A).fb.swRaw .limC ≠ false ∧ swGet (s.axis .t0 .A).fb.swRaw .limO ≠ false ∧
    swGet (s.axis .t0 .A).fb.swRaw .home ≠ false ∧ (edges (s.axis .t0 .A).fb.chatter).length ≤ 4 ∧
    (edges (busy.axis .t0 .A).fb.chatter).length > 4 ∧
    swGet (l.axis .t0 .A).fb.swLevel .home ≠ swGet (l.axis .t0 .A).fb.swRaw .home ∧ (l.axis .t0 .A).mo.homeStage = none ∧
    swGet (l.axis .t0 .A).fb.swLevel .limC ≠ swGet (l.axis .t0 .A).fb.swRaw .limC ∧
    swGet (l.axis .t0 .A).fb.swRaw .limC = (pGet (l.axis .t0 .A).inForce (pKey 0x08 9 0 (some .A)) != 0) ∧
    (l.axis .t0 .A).mo.move.map (·.dir) = some .closing := by decide +kernel

theorem witness_SsiWordsAreAcceptedOrDiscarded :
    let s := (par up [(ka 0x08 0, 0), (ka 0x08 10, 1)]).modFb .t0 .A fun f => { f with ssiLatch := some 5 }
    let q := (par up [(ka 0x08 0, 1), (ka 0x08 10, 1)]).modFb .t0 .A fun f => { f with ssiLatch := some 5, causes := [] }
    (s.tile .t0).used .A = true ∧ (s.axis .t0 .A).fb.ssiLatch = some 5 ∧ (s.axis .t0 .A).fb.ssiLast = none ∧
    (s.axis .t0 .A).mo.homeStage = none ∧ (s.tile .t0).parA .A 0x08 0 = 0 ∧ (s.axis .t0 .A).fb.ssiIdleBad = false ∧
    ((s.tile .t0).ssiDecode .A 6).2 = true ∧ (q.tile .t0).parA .A 0x08 0 ≠ 0 ∧
    ((q.axis .t0 .A).fb.u : Int) ≤ (q.tile .t0).parA .A 0x08 3 ∧ (q.axis .t0 .A).fb.ssiWindow.count true < 8 ∧
    (q.axis .t0 .A).fb.ssiRun < 2 ∧ (q.axis .t0 .A).fb.causes.contains 6 = false := by decide +kernel

theorem witness_DirectionEventsAndTheDividedOutput :
    let s := wb fun f => { f with dirHoldoff := true, dirPending := true }
    (s.axis .t0 .A).fb.dirHoldoff = true ∧ (s.axis .t0 .A).fb.dirPending = true ∧
    ((wb fun f => { f with dirHoldoff := true }).axis .t0 .A).fb.dirPending = false ∧
    ((wt fun tl => { tl with encoQueue := [true] }).tile .t0).encoQueue = [true] := by decide +kernel

/-- Every channel on, with its domain up and no image applied. -/
def lit : State :=
  (wf fun f => { f with lswOn := true, fioOn := true, vioOk := true, fallback := false
                        ls := vmap (fun (c : LsChannel) => { c with isOn := true, line := true }) f.ls })

theorem witness_LoadSwitchChannelsFollowTheirRows :
    (lit.tile .t0).field.lswOn = true ∧ (((lit.tile .t0).field.ls)[9]).isOn = true ∧ (lit.tile .t0).field.undervolt = false ∧
    0 < 10 * (lit.tile .t0).parN 0x0B 6 ∧ (lit.tile .t0).field.groupHeat = false ∧
    ((wf fun f => { f with undervolt := true }).tile .t0).field.undervolt = true ∧
    ((wf fun f => { f with groupHeat := true }).tile .t0).field.groupHeat = true := by decide +kernel

theorem witness_LoadSwitchChecksAndSense :
    let s := lit.modField .t0 fun f =>
      { f with ls := vmod f.ls 9 fun c => { c with thDown := true, checking := true, isOn := false, line := false } }
    let a := lit.modField .t0 fun f => { f with ls := vmod f.ls 0 fun c => { c with isOn := false, offCurrent := true } }
    let cool := fun (s : State) => ((s.modLs .t0 9 fun c => { c with thDown := false }).tile .t0).lsOn 9
    (((s.tile .t0).field.ls)[9]).thDown = true ∧ (((s.tile .t0).field.ls)[9]).checking = true ∧
    ((((s.tile .t0).field.ls)[9]).restarts.filter fun i => decide ((s.at 0).now < i + 60000000000)).length ≤ 30 ∧
    (s.tile .t0).lsRole 14 ≠ 9 ∧ (s.tile .t0).field.lswOn = true ∧ cool s = false ∧ cool lit = true ∧
    lsChannels.any (a.tile .t0).lsAgainst = true ∧ (a.tile .t0).triadRuns = true := by decide +kernel

theorem witness_OutputCommandsOfTheHost :
    (asked (calm .locked) 0x30).Due hc 0x30 ∧ (asked (calm .locked) 0x31).Due hc 0x31 ∧ (asked up 0x32).Due hc 0x32 ∧
    (let tl := (asked (calm .locked) 0x30).tile .t0
     tl.triadActs = true ∧ (2 : BitVec 16) >>> 10 = 0 ∧ tl.door.st ≠ .faultSafe ∧ (2 : BitVec 16) &&& tl.stakeOutputs &&& 0x3FF = 0 ∧
     (2 : BitVec 16).getLsbD 0 = false ∧ (1 : BitVec 16) &&& tl.stakeOutputs &&& 0x3FF = 0 ∧ (1 : BitVec 16).getLsbD 0 = true) ∧
    ((asked (calm .faultSafe) 0x30).tile .t0).door.st = .faultSafe ∧
    (let s := asked (par (calm .locked) [(kt 0x0C 0 12, 1)]) 0x31
     (s.tile .t0).isOut 12 = true ∧ (s.tile .t0).hasRole 12 = false ∧
     (0x1000 : BitVec 16) &&& (s.tile .t0).stakeOutputs &&& 0xFC00 = 0) ∧
    (let s := par (calm .locked) [(kt 0x0C 0 12, 1), (ka 0x84 2 0, 1), (ka 0x84 9 0, 0x1002)]
     (2 : BitVec 16) &&& (s.tile .t0).stakeOutputs &&& 0x3FF ≠ 0 ∧ (0x1000 : BitVec 16) &&& (s.tile .t0).stakeOutputs &&& 0xFC00 ≠ 0 ∧
     (s.tile .t0).isOut 12 = true ∧ (s.tile .t0).hasRole 12 = false) ∧
    ((asked (wr fun tr => { tr with mode := .confirm }) 0x30).tile .t0).triadRuns = true :=
  ⟨asked_due _ _ rfl rfl, asked_due _ _ rfl rfl, asked_due _ _ rfl rfl, by decide +kernel, by decide +kernel, by decide +kernel,
    by decide +kernel, by decide +kernel⟩

theorem witness_FieldInputsPairsAndTrainLines :
    let s := lit.modField .t0 fun f => { f with io := vmod f.io 0 fun p => { p with level := true } }
    let tl := (wl fun l => { l with up := { l.up with tlLevel := #v[true, false, true, false] } }).modDoor .t0
      fun d => { d with tlDisc := (false, false) }
    let off := lit.modField .t0 fun f => { f with io := vmap (fun p => { p with level := false }) f.io }
    (off.tile .t0).pinActive ((off.tile .t0).pairPins .leafClosed).1 = false ∧
    (off.tile .t0).pinActive ((off.tile .t0).pairPins .leafClosed).2 = false ∧
    (lit.tile .t0).field.fioOn = true ∧ (lit.tile .t0).isOut 0 = false ∧ (lit.tile .t0).blanked 0 = false ∧
    (s.tile .t0).pinActive ((s.tile .t0).pairPins .leafClosed).1 ≠ (s.tile .t0).pinActive ((s.tile .t0).pairPins .leafClosed).2 ∧
    (tl.tile .t0).triadRuns = true ∧ (tl.tile .t0).tlRole 10 ≠ (tl.tile .t0).tlRole 11 ∧ (tl.tile .t0).door.tlDisc.1 = false ∧
    (tl.tile .t0).tlRole 12 ≠ (tl.tile .t0).tlRole 13 ∧ (tl.tile .t0).door.tlDisc.2 = false := by decide +kernel

theorem witness_OutputReadbackAndTestPulses :
    let out := par lit [(kt 0x0C 0 12, 1)]
    let high := out.modField .t0 fun f => { f with io := vmod f.io 12 fun p => { p with cmd := true } }
    let win := lit.modField .t0 fun f =>
      { f with tpWindow := (true, true), io := vmap (fun (p : IoPin) => { p with before := true, ownFails := 1 }) f.io }
    let bad := lit.modField .t0 fun f => { f with tpFault := (true, true) }
    (out.tile .t0).isOut 12 = true ∧ (out.tile .t0).outLevel 12 = false ∧ (high.tile .t0).outLevel 12 = true ∧
    srcGet (lit.tile .t0).field.tpFault .tpa = false ∧ (lit.tile .t0).field.vioOk = true ∧
    srcGet (win.tile .t0).field.tpWindow .tpa = true ∧ (((win.tile .t0).field.io)[0]).before = true ∧
    (((win.tile .t0).field.io)[0]).wentLow = false ∧ (((win.tile .t0).field.io)[0]).ownFails ≥ 1 ∧ (win.tile .t0).isOut 0 = false ∧
    (let low := win.modField .t0 fun f => { f with io := vmap (fun p => { p with wentLow := true, ownPasses := 3 }) f.io }
     (((low.tile .t0).field.io)[0]).wentLow = true ∧ (((low.tile .t0).field.io)[0]).ownPasses ≥ 3) ∧ (win.tile .t0).par 0x0C 4 0 = srcCode .tpa ∧
    srcGet (bad.tile .t0).field.tpFault .tpa = true ∧
    ((wf fun f => { f with vioOk := false }).tile .t0).field.vioOk = false := by decide +kernel

theorem witness_BitternMonitorHoldsSrb :
    let s := wf fun f => { f with bitConfig := some [2, 0, 0, 1], bittern := .openSt, bitLow := 1, tpWindow := (false, true)
                                  io := vmod f.io 2 fun p => { p with raw := true, wentLow := true } }
    let own := s.modField .t0 fun f => { f with tpWindow := (true, false) }
    let off := s.modIo .t0 2 fun p => { p with raw := false }
    let l := wl fun l => { l with up := { l.up with sra := false, sraFb := false, pLeaf := .active, proofs := 0 } }
    (s.tile .t0).field.bitActive 0 = true ∧ (s.tile .t0).field.bitPulsesOk 0 s.now = true ∧ (off.tile .t0).field.bitActive 0 = false ∧
    (off.tile .t0).field.bitBlanked 0 = false ∧ (s.tile .t0).field.bitPulsesOk 1 s.now = false ∧
    srcGet (s.tile .t0).field.tpWindow .tpb = true ∧ ((s.tile .t0).field.pin ((s.tile .t0).field.bitField 0 0)).wentLow = true ∧
    ((s.tile .t0).field.bitField 0 3 : Int) ≠ srcCode .tpb ∧ (s.tile .t0).field.bitField 0 3 ≠ 0 ∧
    ((s.tile .t0).field.pin ((s.tile .t0).field.bitField 0 0)).raw = true ∧ srcGet (own.tile .t0).field.tpWindow .tpa = true ∧
    ((own.tile .t0).field.bitField 0 3 : Int) = srcCode .tpa ∧
    (s.tile .t0).field.bitConfig.isSome = true ∧ (s.tile .t0).field.bittern ≠ .fault ∧
    ((wf fun f => { f with bittern := .fault }).tile .t0).field.bittern = .fault ∧
    (l.tile .t0).link.up.sraFb = (l.tile .t0).link.up.sra ∧
    (l.tile .t0).link.up.proofsAgree = false ∧ (l.tile .t0).triadRuns = true := by decide +kernel

/-- The head of a package in service changed. -/
def hd (f : Head → Head) : State := up.modHead f

theorem witness_EdgeResetSequence :
    let low := hd fun h => h.setRes .resumeA { h.resA with level := false, fall := some 0 }
    let high := hd fun h => ({ h with attempt := true, stuck := false }.setRes .resumeA
      { h.resA with level := true, rise := some 0 }).setRes .resumeB { h.resB with level := true, rise := some 0, fell := false }
    let fell := high.modHead fun h => h.setRes .resumeB { h.resB with fell := true }
    (low.head.res .resumeA).level = false ∧ low.head.stuck = false ∧ low.head.attempt = false ∧
    (low.head.res .resumeA).fall = some 0 ∧ 0 + 100000000 ≤ (low.at 100000000).now ∧ (low.at 99999999).now < 0 + 100000000 ∧
    (hd fun h => { h with stuck := true }).head.stuck = true ∧
    (high.head.res .resumeA).level = true ∧ high.head.stuck = false ∧ high.head.attempt = true ∧
    (high.head.res .resumeA).rise = some 0 ∧ (high.head.res (otherRes .resumeA)).rise.isSome = true ∧
    (high.at 79999999).now < 0 + 80000000 ∧ 0 + 3000000000 < (high.at 3000000001).now ∧
    0 + 80000000 ≤ (high.at 80000000).now ∧ (high.at 3000000000).now ≤ 0 + 3000000000 ∧
    (high.head.res (otherRes .resumeA)).fell = false ∧ (fell.head.res (otherRes .resumeA)).fell = true ∧
    (high.modHead fun h => { h with attempt := false }).head.attempt = false ∧
    up.head.resA.level = false ∧ up.head.resB.level = false := by decide +kernel

theorem witness_FieldLinkKeepsTheImageAway :
    let s := (wf fun f => { f with fallback := false }).modLink .t0 fun l => { l with missed := 4 }
    s.hasTile .t0 = true ∧ (s.tile .t0).triadRuns = true ∧ (s.tile .t0).link.keepAlive = true ∧
    (s.tile .t0).triadActs = true ∧ ((s.modTriad .t0 fun tr => { tr with mode := .confirm }).tile .t0).triadRuns = true ∧
    (let w := (s.modLink .t0 fun l => { l with kaWord := some ⟨9, ~~~9, true⟩ }).modField .t0 fun f => { f with wdLast := some 5 }
     (w.tile .t0).link.kaWord = some ⟨9, ~~~9, true⟩ ∧ (w.tile .t0).field.wdLast = some 5) ∧
    (s.tile .t0).field.fallback = false ∧ (s.tile .t0).die.inReset = false ∧ 4 ≤ (s.tile .t0).link.missed ∧
    (State.reset.tile .t0).die.inReset = true := by decide +kernel

theorem witness_ServiceCoreComesAndGoes :
    let two := wi fun d => { d with svcMissed := 2 }
    let gone := wi fun d => { d with svc := false, svcOff := false }
    (up.tile .t0).triadRuns = true ∧ (up.tile .t0).die.svcOff = false ∧ (up.tile .t0).die.svcMissed < 2 ∧
    (two.tile .t0).die.svcMissed ≥ 2 ∧ (two.tile .t0).triadRuns = true ∧ (two.tile .t0).die.svcOff = false ∧
    (gone.tile .t0).die.svc = false ∧ (gone.tile .t0).die.svcOff = false ∧ (gone.tile .t0).die.inReset = false ∧
    (gone.tile .t0).peat.lostCount.toList.sum = 0 := by decide +kernel

/-- A disagreement that names the core at position 1. -/
def oneCore : Disagreement := ⟨1, 1, 0, 0, 0, 0, false, false⟩

theorem witness_TriadMasksASingleFaultOrIsLost :
    let dup := wr fun tr => { tr with mode := .duplex }
    let con := wr fun tr => { tr with mode := .confirm, fenced := some 1 }
    let bare := con.modTriad .t0 fun tr => { tr with roles := #v[.active, .active, .active, .excluded] }
    (up.tile .t0).triadRuns = true ∧ (up.tile .t0).triad.mode = .triplex ∧ oneCore.halvesDiffer = false ∧
    oneCore.noTwoAgree = false ∧ (dup.tile .t0).triadRuns = true ∧ (dup.tile .t0).triad.mode ≠ .triplex ∧
    (con.tile .t0).triadRuns = true ∧ (con.tile .t0).triad.mode = .confirm ∧ (con.tile .t0).triad.fenced = some 1 ∧
    (({ (con.tile .t0).triad with roles := vset (con.tile .t0).triad.roles 1 .excluded } : Triad)).spare = some 3 ∧
    (({ (bare.tile .t0).triad with roles := vset (bare.tile .t0).triad.roles 1 .excluded } : Triad)).spare = none := by
  decide +kernel

theorem witness_SpareJoinsStepByStep :
    let j := fun (k : Fin 6) => wr fun tr => { tr with mode := .joining, joining := some (3, k) }
    let p := par up [(kt 0x88 2, 1)]
    (j 1).hasTile .t0 = true ∧ ((j 1).tile .t0).triad.joining = some (3, 1) ∧ ((j 2).tile .t0).triad.joining = some (3, 2) ∧
    (up.tile .t0).triadActs = true ∧ ((wr fun tr => { tr with mode := .confirm }).tile .t0).triadRuns = true ∧
    ((j 3).tile .t0).triad.joining = some (3, 3) ∧ (p.tile .t0).triadRuns = true ∧ (p.tile .t0).par 0x88 2 ≠ 0 ∧
    (p.tile .t0).triad.spare = some 3 ∧ (p.tile .t0).triad.bist = none ∧ (p.tile .t0).triad.joining = none := by decide +kernel

theorem witness_TriadRestartsAndReadmits :
    let lost := wr fun tr => { tr with mode := .lost, noRestart := false }
    let dl := wr fun tr => { tr with mode := .duplex, duplexSince := some 0 }
    let b := wr fun tr => { tr with bist := some (3, 0) }
    let r := wr fun tr => { tr with mode := .duplex, bist := some (3, 2), readmit := some hc
                                    roles := #v[.active, .active, .excluded, .excluded] }
    let q := asked (wr fun tr => { tr with roles := #v[.active, .active, .active, .excluded] }) 0x81
    (lost.tile .t0).triad.mode = .lost ∧ (lost.tile .t0).triad.formed = true ∧ (lost.tile .t0).triad.noRestart = false ∧
    (lost.tile .t0).die.inReset = false ∧
    ((lost.tile .t0).triad.roles[0] = .active ∧ (lost.tile .t0).triad.roles[1] = .active ∧
      (lost.tile .t0).triad.roles[2] = .active ∧ (0xF : BitVec 4).getLsbD 2 = true) ∧
    (dl.tile .t0).triadRuns = true ∧ (dl.tile .t0).triad.duplexSince.isSome = true ∧
    (b.tile .t0).triadRuns = true ∧ (b.tile .t0).triad.bist = some (3, 0) ∧
    (r.tile .t0).triadRuns = true ∧ (r.tile .t0).triad.bist = some (3, 2) ∧ (r.tile .t0).triad.readmit = some hc ∧
    (r.tile .t0).triad.mode = .duplex ∧ (q.tile .t0).triad.readmit = none ∧ (q.tile .t0).triad.mode = .triplex ∧
    (q.tile .t0).triad.roles[3] = .excluded ∧ (q.tile .t0).triad.bist = none ∧ (q.tile .t0).triad.excl[3] < 4 ∧
    (q.tile .t0).triad.roles[0] ≠ .excluded := by decide +kernel

theorem witness_TriadRestartsAndReadmits_due :
    (asked up 0x80).Due hc 0x80 ∧ hc.dmaFault = false ∧
    (asked (wr fun tr => { tr with roles := #v[.active, .active, .active, .excluded] }) 0x81).Due hc 0x81 :=
  ⟨asked_due _ _ rfl rfl, rfl, asked_due _ _ rfl rfl⟩

theorem witness_CalibrationCommands :
    let q := calm40 id
    let r := calm40 fun d => { d with cal := .ready 0 }
    ((q.tile .t0).triadActs = true ∧ (q.tile .t0).door.calStarted = false ∧ (q.tile .t0).door.shadowAccept = none ∧
      (q.tile .t0).calForbidden = false ∧ ((q.tile .t0).door.shadow = .none)) ∧
    ((r.tile .t0).door.cal = .ready 0 ∧ (r.tile .t0).calConditions = true) ∧
    (((calm40 fun d => { d with cal := .ready 0, st := .held }).tile .t0).calConditions = false) ∧
    ((calm40 fun d => { d with cal := .queued }).tile .t0).door.cal = .queued ∧
    ((calm40 fun d => { d with cal := .cycle 0 1 false }).tile .t0).door.cal = .cycle 0 1 false ∧
    ((calm40 fun d => { d with cal := .aborted false 4 }).tile .t0).door.cal = .aborted false 4 ∧
    (q.tile .t0).door.cal = .idle := by decide +kernel

theorem witness_CalibrationCommands_due : (calm40 id).Due hc 0x40 ∧ (calm40 fun d => { d with cal := .ready 0 }).Due hc 0x40 :=
  ⟨asked_due _ _ rfl rfl, asked_due _ _ rfl rfl⟩

/-- A self-test request for the parts of a mask, of which a part runs. -/
def testing (parts : Nat) (run : Option (Fin 8)) : State :=
  (calm .locked).modDoor .t0 fun d =>
    { d with selftest := some (hc, 0, 0x38), stDwellMax := .running 5
             parts := (List.finRange 8).foldl (fun v i => vmod v i fun p =>
               { p with requested := parts.testBit i.val, running := run == some i }) d.parts }

theorem witness_SelfTestsRunAndEnd :
    let w := testing 0x10 none
    let r := testing 0x20 (some 5)
    ((asked (calm .locked) 0x41).tile .t0).triadActs = true ∧ ((asked (calm .locked) 0x41).tile .t0).door.selftest = none ∧
    ((asked (calm .locked) 0x41).tile .t0).door.st ≠ .isolated ∧
    ((w.tile .t0).triadActs = true ∧ (w.tile .t0).door.selftest.isSome = true ∧ (w.tile .t0).door.st = .locked ∧
      (w.tile .t0).releaseValid = false ∧ (w.tile .t0).door.calHolds = false ∧ (w.tile .t0).door.proofRun = false ∧
      ((w.tile .t0).door.parts[3]).running = false ∧ ((w.tile .t0).door.parts[4]).running = false ∧
      (w.tile .t0).door.dwellWaits 3 = false ∧ (w.tile .t0).door.dwellWaits 4 = true) ∧
    ((r.tile .t0).door.parts[5]).running = true ∧ (w.tile .t0).door.stDwellMax.isRunning = true := by decide +kernel

theorem witness_SelfTestsRunAndEnd_due : (asked (calm .locked) 0x41).Due hc 0x41 := asked_due _ _ rfl rfl

theorem witness_SoundingsAreReadWrittenAndConfirmed :
    let iso := asked (calm .isolated) 0x43
    let rdy := asked (wd fun d => { d with shadow := .ready 4, shadowAccept := none }) 0x44
    let ins := wd fun d => { d with shadow := .ready 4, shadowAccept := some hc }
    (up.tile .t0).used .A = true ∧ hc.dmaFault = false ∧ (iso.tile .t0).triadActs = true ∧
    (iso.tile .t0).door.st = .isolated ∧ iso.sealOk = false ∧ up.hasTile .t0 = true ∧
    (up.tile .t0).binOk (binOfBytes ([0, 0] ++ leBytes 2 0xFFFF ++ List.replicate 12 0)) = true ∧
    (rdy.tile .t0).triadActs = true ∧ (rdy.tile .t0).door.shadowAccept = none ∧ (rdy.tile .t0).door.shadow = .ready 4 ∧
    (ins.tile .t0).triadActs = true ∧ (ins.tile .t0).anyPass = false ∧ (ins.tile .t0).door.shadowAccept = some hc ∧
    (ins.tile .t0).used .A = true ∧ ((par ins [(kt 0x11 1, 0)]).tile .t0).used .C = false := by decide +kernel

theorem witness_SoundingsAreReadWrittenAndConfirmed_due :
    (asked up 0x42).Due hc 0x42 ∧ (asked (calm .isolated) 0x43).Due hc 0x43 ∧ (asked up 0x44).Due hc 0x44 :=
  ⟨asked_due _ _ rfl rfl, asked_due _ _ rfl rfl, asked_due _ _ rfl rfl⟩

/-- Port 0 enabled with an address and PTP on, its master heard twice. -/
def ann : Announce := ⟨128, 0, 128, 0xAA, 0, 0xAA, 0⟩
def ether : State :=
  (par up [(kt 0x12 0, 1), (kt 0x12 5, 0xC0A80105), (kt 0x12 6, 24), (kt 0x0D 0, 1)]).modEth .eth0 fun e =>
    { e with up := true, foreign := [(ann, 2)] }

/-- How a message of the port's VLAN and transport comes, and one of another VLAN. -/
def via0 : PtpVia := ⟨0, false⟩
def via9 : PtpVia := ⟨9, false⟩

theorem witness_PtpMessagesGiveOffsetAndDelay_via :
    via0.vlan = ether.parH 0x12 8 0 ∧ via0.udp = ether.ptpUdp .eth0 ∧ via9.vlan ≠ ether.parH 0x12 8 0 ∧
    ({ via0 with udp := true } : PtpVia).udp ≠ ether.ptpUdp .eth0 ∧ ether.ethIp .eth0 ≠ 0 ∧
    ((⟨0xAA, 0, 5, true, 0, 400, 0⟩ : SyncMsg).twoStep = true ∧ (⟨0xAA, 0, 5, false, -4, 400, 0⟩ : SyncMsg).twoStep = false ∧
      (⟨0xAA, 0, 5, true, 0, 400, 0⟩ : SyncMsg).domain = ether.parH 0x0D 1) ∧
    ((⟨0xBB, 0, 7, true, 40, 900⟩ : PtpTime).twoStep = true ∧ (⟨0xBB, 0, 7, false, 40, 900⟩ : PtpTime).twoStep = false ∧
      (⟨0xBB, 0, 7, true, 40, 900⟩ : PtpTime).domain = ether.parH 0x0D 1) := by decide +kernel

theorem witness_PtpMessagesGiveOffsetAndDelay :
    let one := ether.modEth .eth0 fun e => { e with foreign := [(ann, 1)] }
    let s := (ether.modTime fun tb => { tb with slave := some .eth0 }).modEth .eth0 fun e =>
      { e with sync := some (0xAA, 5, 100), delayReq := some (6, 200) }
    let p := (par ether [(kt 0x0D 3, 1)]).modEth .eth0 fun e => { e with pdelay := some (7, 1, 2, 3) }
    one.ptpOn .eth0 = true ∧ ann.domain = one.parH 0x0D 1 ∧ (one.eth .eth0).foreign = [(ann, 1)] ∧
    (one.eth .eth1).foreign = [] ∧ s.fromMaster .eth0 0xAA = true ∧ s.head.time.recState = .unset ∧
    (0 : Int) ≤ (s.head.time.record.ns : Int) + (1000 + (s.eth .eth0).path + (s.eth .eth0).asymNs - (400 - (s.eth .eth0).rxLat)) ∧
    (s.eth .eth0).sync = some (0xAA, 5, 100) ∧ s.p2p .eth0 = false ∧ (s.eth .eth0).delayReq = some (6, 200) ∧
    s.head.time.slave = some .eth0 ∧ p.p2p .eth0 = true ∧ p.ptpOn .eth0 = true ∧
    (p.eth .eth0).pdelay = some (7, 1, 2, 3) := by decide +kernel

theorem witness_RecordTimeLosesAndKeepsItsMaster :
    let s := ether.modTime fun tb => { tb with slave := some .eth0, recState := .locked }
    s.head.time.slave = some .eth0 ∧ s.head.time.recState = .locked ∧ s.ptpOn .eth0 = true ∧
    (ether.modTime fun tb => { tb with recState := .holdover }).head.time.recState = .holdover ∧
    (let q := asked (ether.modTime fun tb => { tb with recState := .stepPending, stepNum := 3 }) 0x50
     q.head.time.recState = .stepPending ∧ q.head.time.stepNum = 3) ∧
    (asked ether 0x50).head.time.recState ≠ .stepPending := by decide +kernel

theorem witness_RecordTimeLosesAndKeepsItsMaster_due : (asked ether 0x50).Due hc 0x50 := asked_due _ _ rfl rfl

/-- A single pulse of 1 µs on output 2, at 10 µs of record time. -/
def pulse : TimerPayload := ⟨2, false, false, 0, 10000, 0, 1000, 1⟩

theorem witness_TimerOutputsPulse :
    let q := asked up 0x51
    let arm := up.modTimer 2 fun y => { y with armed := true, next := 10000, width := 1000, count := 1 }
    q.head.time.compat = false ∧ pulse.broken false = none ∧ (q.head.time.timers[2]).armed = false ∧
    (q.head.time.timers[2]).inPulse = false ∧ q.classNs pulse.ring + 10000 ≤ pulse.startSec * 1000000000 + pulse.startNs ∧
    pulse.period = 0 ∧ ({ pulse with startNs := 9999 } : TimerPayload).broken false = none ∧ 9999 < q.classNs pulse.ring + 10000 ∧
    (arm.head.time.timers[2]).armed = true ∧ (arm.head.time.timers[2]).inPulse = false ∧
    ((arm.modTimer 2 fun y => { y with inPulse := true }).head.time.timers[2]).inPulse = true := by decide +kernel

theorem witness_TimerOutputsPulse_due : (asked up 0x51).Due hc 0x51 ∧ (asked up 0x52).Due hc 0x52 :=
  ⟨asked_due _ _ rfl rfl, asked_due _ _ rfl rfl⟩

theorem witness_EthernetPortsResolveAndDeliver :
    let n := fun (n : Nat) => ether.modEth .eth0 fun e => { e with arpTry := [(0xC0A80107, n, [])] }
    let a := ether.modEth .eth0 fun e => { e with arp := [(0xC0A80107, 9)] }
    let b := (ether.modTile .t0 fun tl =>
      { tl with sedge := vmod tl.sedge 4 fun c => { c with binding := some (.ethernet 0xC0A80107 40000 41000 0) } })
    ether.headRuns = true ∧ (up.eth .eth0).up = false ∧ (ether.eth .eth0).up = true ∧ (5 : Nat) ≠ ether.parH 0x12 8 0 ∧
    ether.ethOn .eth0 = true ∧ (0 : Nat) = ether.parH 0x12 8 0 ∧ (0xC0A80105 : Word).toNat = ether.ethIp .eth0 ∧
    b.hasTile .t0 = true ∧ (b.tile .t0).die.svc = true ∧
    ((b.tile .t0).sedge[4]).takesEth .eth0 40000 41000 0xC0A80107 = some false ∧ ether.ethIp .eth0 ≠ 0 ∧
    ((0xC0A80107 : Word), 1, ([] : List (List Byte))) ∈ ((n 1).eth .eth0).arpTry ∧
    ((n 2).eth .eth0).arpTry = [(0xC0A80107, 2, [])] ∧ ((n 3).eth .eth0).arpTry = [(0xC0A80107, 3, [])] ∧
    ((0xC0A80107 : Word), (9 : BitVec 48)) ∈ (a.eth .eth0).arp ∧ (a.eth .eth0).arpTry = [] ∧
    ((ether.eth .eth0).echoes.filter fun i => decide ((ether.at 5).now < i + 1000000000)).length < 10 := by decide +kernel

/-- A ring of three nodes at 250 m, of which node 0 owns slot 0 and node 1 slot 1; this package is node 0. -/
def ring3 : State :=
  (par up [(kt 0x0E 0, 1), (kt 0x0E 1, 0), (kt 0x0E 2, 1000), (kt 0x0E 3, 900), (kt 0x0E 5, 1)]).modCwy fun c =>
    { c with nodeTable := [(0, 7), (2, 226), (3, 4), (4, 7), (6, 226), (7, 4), (8, 7), (10, 226), (11, 4)]
             slotTable := [(6, 3), (8, 0x40), (9, 0x9C), (12, 1), (14, 3)], state := .active }

/-- A frame of node 1 in its slot. -/
def frame1 : CwyFrame := ⟨0, false, false, .portA, 1, true, true, 0, 1, 0, 0, 0, false, false, true, ring3.schedId, [1], true, true⟩

theorem valid_of_sched (s : State) (f : CwyFrame) (x : Int) (h : f.schedId = s.schedId) (ok : let m := s.head.cwy.slotTable
    let pos := x % (max 1 s.cwyCycle : Nat)
    f.delimOk = true ∧ f.crcOk = true ∧ f.reservedOk = true ∧ f.generation = ringGen s.head.cwy.nodeTable ∧
    slotValid m f.slot = true ∧ slotOwner m f.slot = f.origin ∧ (slotStart m f.slot : Int) ≤ pos ∧
    pos < slotEnd m s.cwyNit f.slot) : s.cwyValid f x = true := by
  obtain ⟨h1, h2, h3, h4, h5, h6, h7, h8⟩ := ok
  simp only [State.cwyValid, h, h1, h2, h3, h4, h5, h6]
  simp_all

theorem at_sched (s : State) (n : Nat) : (s.at n).schedId = s.schedId := rfl

theorem state_sched (s : State) (x : CwyState) : (s.modCwy fun c => { c with state := x }).schedId = s.schedId := rfl

theorem witness_CausewayNodeKeepsItsSchedule_frame :
    ring3.head.cwy.state = .active ∧ (ring3.at 5).cwyValid frame1 42300 = true ∧
    (ring3.at 5).cwyValid { frame1 with crcOk := false } 42300 = false ∧ frame1.hop + 1 < ring3.hopLimit ∧
    CwyPort.portA.other.of ring3.head.cwy.loop = false :=
  ⟨rfl, valid_of_sched _ _ _ (at_sched ring3 5).symm (by decide +kernel), by simp [State.cwyValid], by decide +kernel, rfl⟩

/-- The same node in LISTEN. -/
def listen3 : State := ring3.modCwy fun c => { c with state := .listen }

theorem witness_CausewayNodeKeepsItsSchedule_listen : (listen3.at 5).cwyValid frame1 42300 = true :=
  valid_of_sched _ _ _ ((at_sched listen3 5).trans (state_sched ring3 .listen)).symm (by decide +kernel)

theorem witness_CausewayNodeKeepsItsSchedule_states :
    listen3.head.cwy.state = .listen ∧ frame1.coldStart = false ∧ ((listen3.at 5).cwyExpected frame1).isSome = true ∧
    nodeCold listen3.head.cwy.nodeTable listen3.cwyNode = true ∧
    (validSlots listen3.head.cwy.slotTable).find? (fun j => slotOwner listen3.head.cwy.slotTable j == listen3.cwyNode &&
      slotSync listen3.head.cwy.slotTable j) = some 0 ∧
    (ring3.modCwy fun c => { c with state := .backoff }).head.cwy.state = .backoff := by decide +kernel

theorem witness_CausewayNodeKeepsItsSchedule :
    let b := ring3.modCwy fun c => { c with txBuf := [(0, 0, [7])], seen := [1], notReady := [1] }
    ring3.head.cwy.state = .active ∧ slotValid b.head.cwy.slotTable 0 = true ∧ slotOwner b.head.cwy.slotTable 0 = b.cwyNode ∧
    (b.at 5000).slotData 0 = some [7] ∧ (b.at 4999).slotData 0 = none ∧ slotValid b.head.cwy.slotTable 1 = true ∧
    ring3.head.cwy.seen.contains 1 = false ∧ b.head.cwy.seen.contains 1 = true ∧ b.head.cwy.notReady.contains 1 = true ∧
    ring3.head.cwy.restart = false ∧ CwyPort.portB.of ring3.head.cwy.los = false ∧
    CwyPort.portB.of ring3.head.cwy.broken = false ∧ ring3.hasTile .t0 = true ∧ (ring3.parH 0x0E 5 0).testBit 0 = true := by
  decide +kernel

theorem witness_CausewayNodeKeepsItsSchedule_window :
    let c := ring3.modCwy fun c => { c with cutLast := true }
    (ring3.at 3000).inWindow 0 = true ∧ (ring3.at 3001).inWindow 0 = false ∧ (ring3.at 3000).slotData 0 = none ∧
    ring3.head.cwy.cutLast = false ∧ c.head.cwy.cutLast = true ∧ slotValid ring3.head.cwy.slotTable 0 = true ∧
    slotOwner ring3.head.cwy.slotTable 0 = ring3.cwyNode ∧ slotSync ring3.head.cwy.slotTable 0 = true := by decide +kernel

/-- The same ring with every node of generation 3. -/
def gen3 : State := ring3.modCwy fun c =>
  { c with nodeTable := [(0, 31), (2, 226), (3, 4), (4, 31), (6, 226), (7, 4), (8, 31), (10, 226), (11, 4)] }

theorem witness_CausewayNodeKeepsItsSchedule_generation :
    ringGen gen3.head.cwy.nodeTable = 3 ∧ slotSync gen3.head.cwy.slotTable 0 = true ∧ (gen3.at 3000).inWindow 0 = true ∧
    (gen3.at 3000).slotData 0 = none ∧ gen3.head.cwy.state = .active ∧ slotOwner gen3.head.cwy.slotTable 0 = gen3.cwyNode ∧
    (let q := gen3.modCwy fun c => { c with slotTable := [(6, 1), (8, 0x40), (9, 0x9C), (12, 1), (14, 3)] }
     slotSync q.head.cwy.slotTable 0 = false ∧ slotValid q.head.cwy.slotTable 0 = true ∧
     slotOwner q.head.cwy.slotTable 0 = q.cwyNode) := by decide +kernel

/-- Controller 0 runs, with buffer 3 for one identifier and buffer 5 sending. -/
def can0 (f3 f5 : CanBuffer → CanBuffer) (mode : Int := 1) : State :=
  (par up [(kt 0x0F 0, mode)]).modTile .t0 fun tl =>
    { tl with can := vmod tl.can 0 fun x => { x with bufs := vmod (vmod x.bufs 3 fun b =>
        f3 { b with acceptClassic := true, ident := 0x100, mask := 0x7FF }) 5 fun b => f5 { b with tx := true } } }

def canF : CanFrame := ⟨0x100, false, false, false, false, 1, [0x11], false⟩
def otherF : CanFrame := { canF with id := 0x101 }

theorem witness_CanControllersReceiveSendAndCount :
    let a := can0 id fun b => { b with pending := some (canF, 1, false, none) }
    let b := can0 (fun b => { b with locked := true, shadowEnt := some (canF, 9), tx := true, pending := some (otherF, 0, false, none) })
      fun b => { b with pending := some (canF, 1, true, none) }
    a.hasTile .t0 = true ∧ a.canOn .t0 0 false = true ∧
    (bufIds.find? fun k => (a.tile .t0).bufTakes (a.canBuf .t0 0 k) otherF) = none ∧
    (bufIds.find? fun k => (a.tile .t0).bufTakes (a.canBuf .t0 0 k) canF) = some 3 ∧
    (a.canBuf .t0 0 3).locked = false ∧ (b.canBuf .t0 0 3).locked = true ∧ (b.canBuf .t0 0 3).shadowEnt = some (canF, 9) ∧
    b.canOn .t0 0 true = true ∧ (bufIds.all fun k => (b.canBuf .t0 0 k).inArb.isNone) = true ∧
    (b.canBuf .t0 0 5).pending = some (canF, 1, true, none) ∧ canPriority canF < canPriority otherF := by decide +kernel

theorem witness_CanControllersReceiveSendAndCount_end :
    let w := can0 id fun b => { b with inArb := some (canF, 1, true, none, 4) }
    (bufIds.find? fun k => (w.canBuf .t0 0 k).inArb.isSome) = some 5 ∧
    (w.canBuf .t0 0 5).inArb = some (canF, 1, true, none, 4) ∧ (w.canBuf .t0 0 5).abortWait = false ∧
    (w.canBuf .t0 0 5).heldTx = none ∧ (w.canCtl .t0 0).state ≠ .errorPassive := by decide +kernel

theorem witness_CanControllersReceiveSendAndCount_modes :
    let off := (can0 id id).modTile .t0 fun tl => { tl with can := vmod tl.can 0 fun x => { x with state := .busOff } }
    let sel := par (can0 id id 4) [(kt 0x0F 10, 0x100), (kt 0x0F 11, 0x7FF), (kt 0x0F 12, 1), (kt 0x0F 13, 0x10), (kt 0x0F 14, 0)]
    let late := sel.modTile .t0 fun tl => { tl with can := vmod tl.can 0 fun x => { x with wakeErrs := 31 } }
    (off.canCtl .t0 0).state = .busOff ∧ (off.tile .t0).par 0x0F 7 0 = 0 ∧ ((can0 id id 3).tile .t0).canMode 0 = 3 ∧
    (sel.tile .t0).die.svc = true ∧ (sel.tile .t0).canMode 0 = 4 ∧ (sel.tile .t0).isWakeFrame 0 canF = true ∧
    32 ≤ (late.canCtl .t0 0).wakeErrs + 1 ∧ (sel.canCtl .t0 0).wakeErrs + 1 < 32 ∧
    (let q := asked (can0 id id) 0x60
     (q.canBuf .t0 0 5).sedge = none ∧ canF.wf = true ∧ canF.dlc.val ≤ 8 ∧ (q.canBuf .t0 0 5).tx = true ∧
     (q.tile .t0).canMode 0 = 1 ∧ (q.canBuf .t0 0 5).inArb = none ∧ (q.canBuf .t0 0 5).pending = none) := by decide +kernel

theorem witness_CanControllersReceiveSendAndCount_due :
    (asked (can0 id id) 0x60).Due hc 0x60 ∧ (asked (can0 id id) 0x61).Due hc 0x61 :=
  ⟨asked_due _ _ rfl rfl, asked_due _ _ rfl rfl⟩

/-- LIN master 0 with two entries in table 0, a panel's response and a go-to-sleep. -/
def lin0 (f : LinMaster → LinMaster) : State :=
  let m0 : LinMaster := (up.linOf .t0 0)
  let m1 : LinMaster :=
    { m0 with tables := #v[[⟨0x10, 1, 2, 1, 10, []⟩, ⟨0x3C, 2, 8, 0, 10, [0]⟩, ⟨0x11, 0, 1, 1, 10, [7]⟩], [], [], []]
              running := some 0, entry := some 0, asleep := false, waking := none, selected := none, dataLoad := [] }
  up.modLin .t0 0 fun _ => f m1

theorem witness_LinMastersRunTheirSchedules :
    let m := (lin0 id).linOf .t0 0
    let w := (lin0 fun m => { m with awaiting := true }).linOf .t0 0
    let last := (lin0 fun m => { m with entry := some 2 }).linOf .t0 0
    (lin0 id).hasTile .t0 = true ∧ ((lin0 id).tile .t0).die.svc = true ∧ m.asleep = false ∧ m.waking = none ∧
    m.selected = none ∧ m.dataLoad = [] ∧ m.running = some 0 ∧ m.entry = some 0 ∧
    ((m.tables[0])[1]? = some ⟨0x3C, 2, 8, 0, 10, [0]⟩) ∧ (padTo 8 [0]).head? = some 0 ∧
    (last.entry = some 2 ∧ (last.tables[0]).length = 3 ∧ (last.tables[0])[0]? = some ⟨0x10, 1, 2, 1, 10, []⟩) ∧
    w.awaiting = true ∧ w.current = some (0, ⟨0x10, 1, 2, 1, 10, []⟩) ∧
    ((lin0 fun m => { m with asleep := true }).linOf .t0 0).asleep = true ∧
    ((lin0 fun m => { m with waking := some 1 }).linOf .t0 0).waking = some 1 ∧
    ([⟨0x10, 1, 2, 1, 10, []⟩, ⟨0x40, 0, 1, 0, 9, []⟩] : List LinEntry).findIdx?
      (linEntryBroken (((lin0 id).tile .t0).parN 0x10 0 0)) = some 1 ∧
    linEntryBroken (((lin0 id).tile .t0).parN 0x10 0 0) ⟨0x10, 1, 2, 1, 10, []⟩ = false ∧ m.running ≠ some 1 ∧
    SMap.wf w.silence = true ∧ ([1, 2] : List Byte).length = 2 ∧
    linChecksum ⟨0x10, 1, 2, 1, 10, []⟩ [1, 2] + 1 ≠ linChecksum ⟨0x10, 1, 2, 1, 10, []⟩ [1, 2] := by decide +kernel

theorem witness_LinMastersRunTheirSchedules_due : (asked (lin0 id) 0x62).Due hc 0x62 ∧ (asked (lin0 id) 0x63).Due hc 0x63 :=
  ⟨asked_due _ _ rfl rfl, asked_due _ _ rfl rfl⟩

/-- Connection 4 of tile 0 receives over port 0 on synchronised ring time. -/
def conn4 (rx : Int) (f : SedgeConn → SedgeConn) : State :=
  (((par ether [(kt 0x89 0 4, rx), (kt 0x89 1 4, 9), (kt 0x89 3 4, 0), (kt 0x89 4 4, 1000), (kt 0x89 6 4, 50), (kt 0x89 7 4, 5),
    (kt 0x89 8 4, 3), (kt 0x89 10 4, 4)]).modTime fun tb => { tb with ringSync := true }).modTile .t0 fun tl =>
    { tl with sedge := vmod tl.sedge 4 f })

theorem witness_SedgeFramesAreCheckedInOrder :
    let s := conn4 1 fun c => { c with binding := some (.ethernet 1 40000 41000 0), state := .valid, lastSeq := 7 }
    let n := conn4 1 fun c => { c with binding := some (.ethernet 1 40000 41000 0), state := .starting, run := 1 }
    s.hasTile .t0 = true ∧ (s.tile .t0).triadRuns = true ∧ (s.tile .t0).die.svc = true ∧ (s.tile .t0).connRx 4 = true ∧
    (s.conn .t0 4).binding = some (.ethernet 1 40000 41000 0) ∧ (s.at 0).classSync ((s.tile .t0).connRing 4) = true ∧
    (let age := tsDiff ((s.at 0).classTs ((s.tile .t0).connRing 4)) 0;
     -((s.tile .t0).par 0x89 7 4 * 1000) ≤ age ∧ age ≤ min ((100 : Int) * 10000) ((s.tile .t0).par 0x89 6 4 * 1000)) ∧
    (s.conn .t0 4).state = .valid ∧ ((8 : BitVec 16) - (s.conn .t0 4).lastSeq).toNat ≠ 0 ∧
    ((((10 : BitVec 16) - (s.conn .t0 4).lastSeq).toNat : Nat) : Int) ≤ (s.tile .t0).par 0x89 8 4 ∧
    ((7 : BitVec 16) - (s.conn .t0 4).lastSeq).toNat = 0 ∧
    (s.tile .t0).par 0x89 8 4 < ((((11 : BitVec 16) - (s.conn .t0 4).lastSeq).toNat : Nat) : Int) ∧
    (n.conn .t0 4).state = .starting ∧ (((n.conn .t0 4).run + 1 : Nat) : Int) < (n.tile .t0).par 0x89 10 4 ∧
    (let due := (s.conn .t0 4).wdAt + 1000000 * (s.tile .t0).parN 0x89 9 4;
     (s.at 0).now < due ∧ due ≤ (s.at due).now ∧ 1 < (s.tile .t0).par 0x89 10 4 ∧
     (let ring := (s.tile .t0).connRing 4; tsDiff ((s.at due).classTs ring) ((s.at due).classTs ring) = 0)) := by
  decide +kernel

theorem witness_SedgeFramesAreCheckedInOrder_check (v : Nat) : ∃ w, w ≠ v ∧ w < 2 ^ 32 :=
  ⟨(v + 1) % 2 ^ 32, by omega, by omega⟩

theorem witness_SedgeCommandsComplete :
    let s := conn4 1 fun c => { c with binding := some (.ethernet 1 40000 41000 0), state := .valid, lastSeq := 7 }
    let due := (s.conn .t0 4).wdAt + 1000000 * (s.tile .t0).parN 0x89 9 4
    let x := conn4 0 fun c => { c with binding := some (.causeway 2) }
    let y := conn4 0 fun c => { c with binding := some (.fabric 1) }
    let h := x.modTriad .t0 fun tr => { tr with mode := .confirm }
    (s.tile .t0).triadActs = true ∧ (s.conn .t0 4).binding.isSome = true ∧ (s.conn .t0 4).state = .valid ∧
    (s.conn .t0 4).state ≠ .closed ∧ (s.tile .t0).connRx 4 = true ∧ due ≤ (s.at due).now ∧ (s.at 0).now < due ∧
    (x.conn .t0 4).binding = some (.causeway 2) ∧ (x.tile .t0).triadActs = true ∧ (x.tile .t0).connRx 4 = false ∧
    (y.conn .t0 4).binding = some (.fabric 1) ∧ 1 / 4 = y.pkg ∧ (y.tile .t0).triadActs = true ∧
    (h.tile .t0).triadRuns = true ∧ (h.tile .t0).triad.mode = .confirm ∧ (h.tile .t0).die.svc = true := by decide +kernel

theorem witness_SedgeCommandsComplete_open :
    let s := asked (conn4 1 id) 0x64
    let addr := SedgeAddr.ethernet 0xC0A80107 40000 41000 0
    (s.tile .t0).triadActs = true ∧ (s.tile .t0).connId 4 ≠ 0 ∧ s.addrBroken .t0 4 addr = none ∧
    s.bufferTaken .t0 addr = none ∧ s.sedgeRate .t0 4 ≤ 16000 ∧ (s.conn .t0 4).binding = none ∧
    ((asked (conn4 1 fun c => { c with binding := some (.fabric 1) }) 0x65).conn .t0 4).binding.isSome = true := by decide +kernel

theorem witness_SedgeCommandsComplete_bound :
    let s := asked (conn4 1 fun c => { c with binding := some (.fabric 1) }) 0x64
    let addr := SedgeAddr.ethernet 0xC0A80107 40000 41000 0
    (s.tile .t0).triadActs = true ∧ (s.tile .t0).connId 4 ≠ 0 ∧ s.addrBroken .t0 4 addr = none ∧
    s.bufferTaken .t0 addr = none ∧ s.sedgeRate .t0 4 ≤ 16000 ∧ (s.conn .t0 4).binding.isSome = true := by decide +kernel

theorem witness_SedgeCommandsComplete_due :
    (asked (conn4 1 id) 0x64).Due hc 0x64 ∧ (asked (conn4 1 id) 0x65).Due hc 0x65 :=
  ⟨asked_due _ _ rfl rfl, asked_due _ _ rfl rfl⟩

theorem witness_DoorbellsMoveTheIndexOrStopTheRing :
    let s := rings up
    let r := s.ring .cmdq 0
    let past := fun (v : Nat) => decide ((r.devIndex + r.size - 1 - r.hostIndex) % r.size < (v + r.size - r.hostIndex) % r.size)
    s.hostReady = true ∧ r.enabled = true ∧ s.v1 = false ∧ (5 : Word).toNat ≠ r.hostIndex ∧ r.size ≤ (16 : Word).toNat ∧
    past 15 = false ∧ past 0 = true ∧ (15 : Word).toNat < r.size ∧ (s.ring .cmdq 1).enabled = false ∧
    (s.ring .evt 7).enabled = false ∧ (4 : Word).toNat = r.hostIndex ∧
    ((s.modRing .cmdq 0 fun r => { r with stopped := true }).ring .cmdq 0).stopped = true ∧
    (s.ring .cpl (Fin.ofNat 32 (s.ring .cmdq 0).route)).enabled = true ∧
    (s.ring .cpl (Fin.ofNat 32 (s.ring .cmdq 0).route)).stopped = false ∧ 2 ^ 32 ≤ (0x100000005 : BitVec 64).toNat ∧
    (s.tile .t0).die.svc = true ∧ ¬(((entry 0x33).flags.getLsbD 2 = true) ∧ (0 : Nat) = 0) ∧ (entry 0x33).remote = false ∧
    ((wi fun d => { d with svc := false }).tile .t0).die.svc = false ∧
    (let e := s.modRing .evt 7 fun r => { r with stopped := true, enabled := true }
     (e.ring .evt 7).stopped = true ∧ ((e.head.host.evt)[(7 : Fin 8)]).stopped = true ∧ ((e.head.host.evt)[(7 : Fin 8)]).enabled = true) := by
  decide +kernel

theorem witness_RingRegistersAndInterrupts :
    let s := rings up
    let t := (s.modRing .evt 7 fun r => { r with busy := true, route := 63, enabled := true, unsignalled := 2 })
    let low := s.modHost fun h => { h with lowWord := some (0x500, 0x1000) }
    let low := low.modRing .cpl 0 fun r => { r with enabled := false }
    s.hostReady = true ∧ s.v1 = false ∧ (s.ring .cmdq 31).enabled = false ∧ (s.ring .cmdq 31).busy = false ∧
    (s.ring .cmdq 31).base.toNat + 2 ^ 12 * ringEntry .cmdq ≤ 2 ^ 64 ∧ (s.ring .cpl 0).enabled = true ∧
    (s.ring .cpl 0).busy = false ∧ low.head.host.lowWord = some (0x500 + 32 * 0, 0x1000) ∧ (low.ring .cpl 0).enabled = false ∧
    (0x1000 : Word).toNat % 4096 = 0 ∧ (t.ring .evt 7).busy = true ∧ (t.ring .evt 7).unsignalled ≠ 0 ∧
    t.head.host.masked (t.ring .evt 7).route = true ∧ (s.ring .cmdq 0).route = 0 ∧ (s.ring .cpl 0).reserved = 0 ∧
    ((s.modTimer 7 fun x => { x with armed := true }).head.time.timers[7]).armed = true ∧ s.isHead = true ∧
    (s.tile .t0).die.inReset = false ∧ SMap.wf s.windows = true ∧ (s.tile .t0).die.reported = true ∧
    (0 : Fin 4).val = s.pkg ∧ (1 : Fin 4).val ≠ s.pkg ∧ (s.ring .cpl 1).enabled = false ∧ (s.ring .cpl 1).busy = false ∧
    (0x123400000 : BitVec 64).toNat % 4096 = 0 ∧ ((2 : Nat) ≠ 4 ∧ (0x500 : BitVec 16).toNat % 4 = 0) ∧
    ((0x504 : BitVec 16).toNat % 8 ≠ 0) ∧
    (let m := s.modBoard fun b => { b with straps := ⟨true, false, 1⟩ }; m.isHead = false) ∧
    (let u := t.modHost fun h => { h with msix := [(4 * 63 + 3, 0)] }
     u.head.host.masked (u.ring .evt 7).route = false ∧ (u.ring .evt 7).unsignalled ≠ 0) := by
  decide +kernel

theorem witness_RingRegistersAndInterrupts_open :
    let s := (rings up).modRing .cpl 3 fun r => { r with enabled := true }
    (s.ring .cpl 3).enabled = true ∧ (s.ring .cpl 3).reserved = 0 ∧
    ((List.finRange 32).all fun q => !(s.ring .cmdq q).enabled || (s.ring .cmdq q).route != 3) = true ∧
    ((List.finRange 8).all fun i => !((s.head.time.timers)[i]).armed) = true ∧ s.head.time.compatStrap = false := by
  decide +kernel

theorem witness_SessionsOpenAndEnd :
    up.isHead = true ∧ up.head.host.sessionOpen = false ∧ (asked up 0x01).head.host.sessionOpen = true ∧
    (asked up 0x01).head.host.bye = none ∧ hc.queue.val < 8 ∧
    ((asked up 0x01).modHost fun h => { h with sessionOpen := false }).head.host.sessionOpen = false ∧
    ((0x0400 : BitVec 16) < 0x0300 ∨ (0x0300 : BitVec 16) < 0x0400) := by decide +kernel

theorem witness_SessionsOpenAndEnd_due : (asked up 0x01).Due hc 0x01 := asked_due _ _ rfl rfl

/-- BYE beside a command that waits for its time, and beside one that does not. -/
def bye (waiting : Bool) : State :=
  (asked up 0x02).modHost fun h => { h with outstanding := [{ entry 0x33 with tag := 8, waiting := waiting }, entry 0x02] }

theorem witness_ByeEndsTheSessionCleanly :
    (asked up 0x02).findOut hc 0x02 = some (entry 0x02) ∧
    (asked up 0x02).head.host.outstanding.filter (!·.remote) = [entry 0x02] ∧
    (bye true).findOut hc 0x02 = some (entry 0x02) ∧
    (bye true).head.host.outstanding.filter (!·.remote) = [{ entry 0x33 with tag := 8, waiting := true }, entry 0x02] ∧
    2 ≤ ((bye false).head.host.outstanding.filter (!·.remote)).length ∧
    ((bye false).head.host.outstanding.filter (!·.remote)).all (fun o => !o.waiting) = true ∧ entry 0x33 ≠ entry 0x02 ∧
    ((bye false).modHost fun h => { h with bye := some hc }).head.host.bye = some hc ∧
    ((bye false).modHost fun h => { h with bye := some hc }).findOut hc 0x02 = some (entry 0x02) ∧ (entry 0x02).opcode = 0x02 := by
  decide +kernel

theorem witness_ByeEndsTheSessionCleanly_due : (asked up 0x02).Due hc 0x02 := asked_due _ _ rfl rfl

/-- A descriptor of HELLO with some flags. -/
def desc (flags : Nat) : Vector Byte 64 :=
  ⟨⟨leBytes 1 0x01 ++ leBytes 1 flags ++ leBytes 2 12 ++ leBytes 4 7 ++ leBytes 4 0x70 ++ leBytes 4 100 ++ List.replicate 48 0⟩, by
    simp [leBytes]⟩

/-- A session on queue 0 with descriptors waiting. -/
def served (out : List Outstanding) : State :=
  (rings up).modHost fun h => { h with sessionOpen := true, session := 1, version := 0x0300, outstanding := out }

theorem witness_DescriptorsAreFetchedInTurn :
    let s := served []
    let st := fun (fl : Nat) => s.commonStatus 1 fl 12 0x70 ((desc fl).toList.drop 16)
    let held := { entry 0x33 with waiting := true, flags := 1, notBefore := 100 }
    let w := served [held]
    s.nextQueue = some 0 ∧ s.nextQueue ≠ some 1 ∧ s.hostReady = true ∧ (s.tile .t0).die.svc = true ∧
    s.head.host.sessionOpen = true ∧ s.head.host.version = 0x0300 ∧ s.joined = false ∧ fieldLe (desc 0).toList 0 1 = 1 ∧
    st 0 = none ∧ st 1 = none ∧ 0 < tsDiff 100 s.ts ∧ (s.commonStatus 0xFE 0 8 0 []).isSome = true ∧
    (w.head.host.outstanding.filter fun x => x.queue == 0 && x.waiting && !x.remote) = [held] ∧
    w.head.host.outstanding.Nodup ∧ w.tooSoon held = true ∧ (w.at 200).tooSoon held = false ∧
    (rings up).head.host.sessionOpen = false ∧ (held.behind && (w.ring .cmdq 0).stopped) = false ∧
    (let back := { held with behind := true }
     let z := (served [back]).modRing .cmdq 0 fun r => { r with stopped := true }
     (z.head.host.outstanding.filter fun x => x.queue == 0 && x.waiting && !x.remote) = [back] ∧ z.joined = false ∧
     z.head.host.outstanding.Nodup ∧ (back.behind && (z.ring .cmdq 0).stopped) = true) := by decide +kernel

theorem witness_PolicyBundlesAreStagedAndTakeEffect :
    let st := asked (wi fun d => { d with staged := some [1] }) 0x13
    let act := wd fun d => { d with activating := some (hc, [1]) }
    let pass := act.modAxis .t0 .A fun x => { x with pa := { x.pa with active := true } }
    (up.tile .t0).die.bundleSigned [1] = false ∧ (up.tile .t0).bundleBroken [1] = some (360, 0xFF) ∧
    ((asked up 0x13).tile .t0).triadActs = true ∧ ((asked up 0x13).tile .t0).die.staged = none ∧
    (st.tile .t0).die.staged = some [1] ∧ st.sealInForce = false ∧ (st.tile .t0).door.activating = none ∧
    (act.tile .t0).door.activating = some (hc, [1]) ∧ (act.tile .t0).triadActs = true ∧ (pass.tile .t0).anyPass = true ∧
    (act.tile .t0).anyPass = false ∧ (act.tile .t0).door.calRun = false ∧ SMap.wf (act.tile .t0).inForce = true ∧
    (asked (wd fun d => { d with activating := some (hc, [1]) }) 0x13).sealInForce = false ∧
    (let z := asked ((wi fun d => { d with staged := some [2] }).modDoor .t0 fun d => { d with activating := some (hc, [1]) }) 0x13
     (z.tile .t0).die.staged = some [2] ∧ (z.tile .t0).door.activating.isSome = true ∧ z.sealInForce = false ∧
     (z.tile .t0).triadActs = true) ∧
    (pass.axis .t0 .A).pa.active = true ∧ (act.axis .t0 .A).pa.active = false ∧ SMap.wf (act.axis .t0 .A).inForce = true := by
  decide +kernel

theorem witness_PolicyBundlesAreStagedAndTakeEffect_due :
    (asked up 0x12).Due hc 0x12 ∧ (asked (wi fun d => { d with staged := some [1] }) 0x13).Due hc 0x13 :=
  ⟨asked_due _ _ rfl rfl, asked_due _ _ rfl rfl⟩

/-- Whether a signature verifies is open: what the clauses on a signed bundle assume holds whenever the check answers so. -/
theorem witness_PolicyBundlesAreStagedAndTakeEffect_signed (key b : List Byte) (hl : 48 + sigLen ≤ b.length)
    (hk : slice b 16 32 = digest key)
    (hv : Config.falconVerify key (b.take (b.length - sigLen)) (b.drop (b.length - sigLen)) = true) :
    ({ live.die with key := some key }).bundleSigned b = true := by
  simp [Die.bundleSigned, hl, hk, hv]

/-- Entries that write one parameter of axis A. -/
def oneEntry (param : BitVec 16) (v : Word) : Vector CfgEntry 5 :=
  #v[⟨param, 0, 0, v, none⟩, ⟨0, 0, 0, 0, none⟩, ⟨0, 0, 0, 0, none⟩, ⟨0, 0, 0, 0, none⟩, ⟨0, 0, 0, 0, none⟩]

theorem witness_ParameterSetsAreTakenOrRefusedWhole :
    let s := asked up 0x10
    let vals := fun (es : List (Nat × CfgEntry)) => es.filterMap fun x => match cfgRow x.2.param x.2.index with
      | some r => if x.2.param = imageParam || x.2.enco.isSome then none else some (s.cfgKey hc x.2.param x.2.index, r.decode x.2.value.toNat)
      | none => none
    let high := usedEntries (oneEntry 0x0403 100000)
    let p := (s.tile .t0).prospect (vals high)
    let good := usedEntries (oneEntry 0x0403 6000)
    let g := (s.tile .t0).prospect (vals good)
    (s.tile .t0).triadActs = true ∧ 250000 < p.parAN .A 0x04 3 * p.parAN .A 0x04 4 ∧
    (good.flatMap fun x => s.entryRefusals hc x.1 x.2) = [] ∧ duplicateRefusals good = [] ∧
    s.setBroken .t0 g (good.map fun x => x.2.param.toNat / 256) = [] ∧ hc.dmaFault = false ∧
    (let enco := (s.tile .t0).encoSetup good; 1 ≤ enco.2.1 ∧ enco.2.1 ≤ enco.2.2 ∧ enco.2.2 ≤ 65535) ∧
    (∀ b : Fin 64, (s.canBuf .t0 0 b).sedge = none ∧ filterClean (slice (List.replicate 1024 0) (16 * b.val) 16) = true) ∧
    (let sel : Vector CfgSelector 8 := #v[⟨0x0403, 0, 0⟩, ⟨0, 0, 0⟩, ⟨0, 0, 0⟩, ⟨0, 0, 0⟩, ⟨0, 0, 0⟩, ⟨0, 0, 0⟩, ⟨0, 0, 0⟩, ⟨0, 0, 0⟩]
     (((List.range 8).zip sel.toList).filter fun x => x.2.param != 0) = [(0, ⟨0x0403, 0, 0⟩)]) ∧
    s.cfgBadTarget hc 0x0403 0 = false ∧ (cfgRow 0x0403 0).isSome = true := by decide +kernel

theorem witness_ParameterSetsAreTakenOrRefusedWhole_due : (asked up 0x10).Due hc 0x10 ∧ (asked up 0x11).Due hc 0x11 :=
  ⟨asked_due _ _ rfl rfl, asked_due _ _ rfl rfl⟩

/-- The same package with one bit of the seal switches wrong, a bundle staged and a key registered. -/
def openSeal : State :=
  (sealedUp.modDie .t0 fun d => { d with staged := some [1], key := some [] }).modHead fun h =>
    { h with sealSw := BitVec.ofNat 16 (sealedUp.sealCode + 1) }

theorem witness_PolicyBundlesAreStagedAndTakeEffect_seal :
    openSeal.sealInForce = true ∧ openSeal.sealOk = false ∧ (openSeal.tile .t0).die.staged = some [1] ∧
    bundleSafety [1] ≠ (openSeal.tile .t0).safetySectionBytes ∧ (openSeal.tile .t0).triadActs = true ∧
    (openSeal.tile .t0).die.key.isSome = true := by
  refine ⟨by decide +kernel, ?_, by decide +kernel⟩
  have hc : openSeal.head.sealSw.toNat ≠ openSeal.sealCode := by
    show (BitVec.ofNat 16 (sealedUp.sealCode + 1)).toNat ≠ sealedUp.sealCode
    have h : sealedUp.sealCode < 2 ^ 16 := ofLe_two _
    rw [BitVec.toNat_ofNat]
    omega
  simp [State.sealOk, hc]

theorem witness_TheLogIsSignedDrainedAndSealed_key :
    let s := sealedUp.modDie .t0 fun d => { d with key := some [] }
    s.sealOk = true ∧ (s.tile .t0).die.key.isSome = true ∧ (s.tile .t0).triadActs = true :=
  ⟨witness_seal, by decide +kernel⟩

/-- A record of a tile's log. -/
def rec (seq : Nat) : PeatRecord := ⟨seq, 8, 0, 0, 0, 0, 0, .tile, [], [], []⟩

/-- Tile 1 with one signed block in MRAM, and a log flash on the package. -/
def logged : State :=
  (up.modTile .t1 fun tl => { tl with peat := { tl.peat with
    nextSeq := 33, signed := [0], records := (List.range 32).map rec } }).modHead fun h =>
    { h with signQueue := [(.t1, 0)], drainQueue := [(.t1, 0)], flashSectors := 16, logHigh := true }

theorem witness_TheLogIsSignedDrainedAndSealed :
    let o := logged.modTile .t0 fun tl => { tl with peat := { tl.peat with openEvents := [[1]], openTimer := .running 9 } }
    (o.tile .t0).peat.openEvents.length ≤ 16 ∧ (o.head.logHigh = true) ∧
    let d := (asked (rings logged) 0x70)
    (o.tile .t0).peat.records.length < peatCapacity ∧ (o.tile .t0).peat.openTimer.isRunning = true ∧ (o.tile .t0).peat.openEvents ≠ [] ∧ (o.tile .t0).die.svc = true ∧
    logged.head.signQueue = [(.t1, 0)] ∧ logged.head.logHigh = true ∧
    ((logged.tile .t1).peat.signed.find? fun b => (logged.tile .t1).peat.records.any (·.seq / 32 == b)) = some 0 ∧
    logged.flashPlace .t1 = some 1 ∧ d.findOut hc 0x70 = some (entry 0x70) ∧ d.completionWritten (entry 0x70) = true ∧
    d.head.host.bye = none ∧ d.head.drainQueue = [(.t1, 0)] ∧ (logged.tile .t1).peat.nextSeq % 32 ≠ 0 ∧
    (logged.tile .t1).peat.openEvents = [] ∧ (logged.tile .t1).peat.wrapped = [] ∧
    (logged.tile .t1).peat.lostCount.toList.sum = 0 ∧ (logged.tile .t1).peat.records.length + 32 ≤ peatCapacity ∧
    ((up.tile .t0).peat.nextSeq % 32 = 0 ∧ (up.tile .t1).peat.nextSeq % 32 = 0 ∧ (up.tile .t2).peat.nextSeq % 32 = 0 ∧
      (up.tile .t3).peat.nextSeq % 32 = 0) := by decide +kernel

theorem witness_TheLogIsSignedDrainedAndSealed_full : 32 * 720 < (List.replicate 23041 (rec 0)).length := by
  rw [List.length_replicate]; decide

theorem witness_TheLogIsSignedDrainedAndSealed_firmware :
    let s := wi fun d => { d with slotB := [1, 2], stageTotal := 3 }
    let c := wi fun d => { d with slotB := [1, 2], stageTotal := 2 }
    (1 + ([9] : List Byte).length ≤ 3 ∧ 3 ≤ fwMax ∧ 1 ≠ 0 ∧ 1 ≠ (s.tile .t0).die.slotB.length) ∧
    ((s.tile .t0).die.stageTotal ≠ 0 ∧ 2 = (s.tile .t0).die.slotB.length) ∧
    (s.tile .t0).die.slotB.length ≠ (s.tile .t0).die.stageTotal ∧ (c.tile .t0).die.slotB.length = (c.tile .t0).die.stageTotal ∧
    (up.tile .t0).die.key = none ∧ ((wi fun d => { d with key := some [] }).tile .t0).die.key.isSome = true := by decide +kernel

/-- A firmware image of one zero signature: whether it verifies is open. -/
def image : List Byte := leBytes 4 1 ++ leBytes 4 1344 ++ leBytes 4 0 ++ leBytes 4 4 ++ List.replicate 1328 0

/-- Every tile holds some bytes in slot B, all that were announced. -/
def staged (img : List Byte) : State :=
  { up with tiles := PerTile.all { live with die := { live.die with slotB := img, stageTotal := img.length } } }

theorem witness_TheLogIsSignedDrainedAndSealed_broken :
    let c := staged [1, 2]
    (c.tile .t0).die.stageTotal ≠ 0 ∧ (c.tile .t0).die.slotB.length = (c.tile .t0).die.stageTotal ∧
    (c.tile .t1).die.imageOk (c.tile .t1).die.slotB = false ∧ c.hasTile .t1 = true ∧ 0 + ([1, 2] : List Byte).length ≤ 2 := by
  decide +kernel

/-- Where the signature of the image verifies, the clauses on a verified image are met. -/
theorem witness_TheLogIsSignedDrainedAndSealed_image
    (hv : Config.falconVerify Config.firmwareKey (image.take (image.length - sigLen)) (image.drop (image.length - sigLen)) = true) :
    (∀ t, ((staged image).tile t).die.imageOk ((staged image).tile t).die.slotB = true) ∧
    ((staged image).tile .t0).die.stageTotal ≠ 0 ∧
    ((staged image).tile .t0).die.slotB.length = ((staged image).tile .t0).die.stageTotal := by
  have hd : ({ live.die with slotB := image, stageTotal := image.length }).imageOk image = true := by
    have h1 : (decide (image.length ≥ 64 + sigLen) && decide (image.length ≤ fwMax) && fieldLe image 0 4 == 1 &&
      fieldLe image 4 4 == image.length && decide (fieldLe image 8 4 ≥ live.die.secCounter) &&
      fieldLe image 12 4 / 4 % 2 == 1 && ofLe (slice image 16 48) == 0) = true := by decide +kernel
    unfold Die.imageOk
    rw [hv, Bool.and_true]
    exact h1
  exact ⟨fun t => by cases t <;> exact hd, by decide +kernel⟩

theorem witness_TheLogIsSignedDrainedAndSealed_due : (asked up 0x70).Due hc 0x70 ∧ (asked up 0x71).Due hc 0x71 ∧
    (asked up 0x72).Due hc 0x72 ∧ (asked up 0x90).Due hc 0x90 ∧ (asked up 0x91).Due hc 0x91 ∧ (asked up 0x92).Due hc 0x92 ∧
    (asked up 0x93).Due hc 0x93 :=
  ⟨asked_due _ _ rfl rfl, asked_due _ _ rfl rfl, asked_due _ _ rfl rfl, asked_due _ _ rfl rfl, asked_due _ _ rfl rfl,
    asked_due _ _ rfl rfl, asked_due _ _ rfl rfl⟩

/-- A package on a board: the head, or package 1. -/
def board (head : Bool) : State :=
  { up with powerGood := true }.modBoard fun b =>
    { b with straps := ⟨true, head, if head then 0 else 1⟩, ports := #v[.training, .up], reachable := 3, present := 3 }

theorem witness_BoardwalkJoinsPackagesAndCarriesCommands :
    let s := board true
    let m := board false
    let next : Straps := ⟨true, false, 1⟩
    s.head.board.straps.join = true ∧ s.startHalted = false ∧ (s.tile .t0).die.inReset = false ∧
    (s.head.board.ports)[0] ≠ .up ∧ s.neighbourFine 1 next = true ∧ s.neighbourFine 1 ⟨true, true, 1⟩ = false ∧
    (s.modBoard fun b => { b with neighbours := vset b.neighbours 1 (some next) }).strapsFine = true ∧
    (s.modBoard fun b => { b with neighbours := vset b.neighbours 1 (some ⟨true, true, 1⟩) }).strapsFine = false ∧
    s.head.board.strapFault = false ∧ s.head.board.straps.head = true ∧ s.head.host.ready = false ∧
    ((s.modBoard fun b => { b with ports := #v[.down, .up] }).head.board.ports)[0] = .down ∧
    s.isHead = true ∧ (s.head.board.ports)[1] ≠ .down ∧ (s.head.board.ports)[0] ≠ .up ∧ s.portCarries 0 = false ∧
    s.portCarries 1 = true ∧ m.isHead = false ∧ m.portCarries 1 = true ∧ m.pkg = 1 ∧ m.joined = true ∧
    (let both := m.modBoard fun b => { b with ports := #v[.up, .up], headPort := 0 }
     both.portCarries 1 = true ∧ both.head.board.headPort = 0) := by decide +kernel

/-- A reference of a forwarded command: the seventh tag of queue 0. -/
def r0 : BwkRef := ⟨0, 7, 0⟩

theorem witness_BoardwalkJoinsPackagesAndCarriesCommands_commands :
    let s := board true
    let m := board false
    let fwd := s.modHost fun h => { h with outstanding := [{ entry 0x33 with forwarded := some (1, false) }] }
    let ack := s.modHost fun h => { h with outstanding := [{ entry 0x33 with forwarded := some (1, true) }] }
    (TileId.ofNat? (fieldLe [0, 0, 0, 0, 0, 0, 0, 0, 0x76, 0, 0, 0] 8 4 % 4) = some .t2) ∧ m.hasTile .t2 = true ∧
    (m.tile .t2).die.svc = true ∧ (BitVec.ofNat 8 (fieldLe [0, 0, 0, 0, 0, 0, 0, 0, 0x76, 0, 0, 0] 1 1)).getLsbD 0 = false ∧
    fwd.forwardedTo 1 r0 = some { entry 0x33 with forwarded := some (1, false) } ∧
    fwd.head.host.outstanding = [{ entry 0x33 with forwarded := some (1, false) }] ∧ (entry 0x33).lost = false ∧
    ack.head.host.outstanding = [{ entry 0x33 with forwarded := some (1, true) }] ∧ (fwd.tile .t0).die.svc = true ∧
    (some ((1 : Fin 4), true) ≠ some (1, false)) ∧ ({ entry 0x33 with lost := true } : Outstanding).lost = true ∧
    (entry 0x33).opcode ≠ 0x70 ∧ (entry 0x33).queue = hc.queue ∧ (entry 0x33).tag = hc.tag := by decide +kernel

theorem witness_BoardwalkJoinsPackagesAndCarriesCommands_frames :
    let s := board true
    let m := board false
    let noisy := s.modBoard fun b => { b with crcErrors := vset b.crcErrors 1 (List.replicate 15 5) }
    let both := m.modBoard fun b => { b with ports := #v[.up, .up] }
    let f : BwkFrame := ⟨0, 2, true, .confirm r0⟩
    f.crcOk = true ∧ (⟨0, 2, false, .confirm r0⟩ : BwkFrame).crcOk = false ∧ s.portTrained 1 = true ∧ s.portTrained 0 = false ∧
    (((noisy.head.board.crcErrors)[(1 : Fin 2)].filter fun i => decide ((noisy.at 6).now < i + 1000000)).length = 15) ∧
    (((s.head.board.crcErrors)[(1 : Fin 2)].filter fun i => decide ((s.at 6).now < i + 1000000)).length < 15) ∧
    f.dst.val ≠ m.pkg ∧ both.portCarries 0 = true ∧ m.portCarries 0 = false ∧ f.dst.val ≠ s.pkg ∧ s.bwkRoute 2 = some 1 ∧
    (⟨0, 1, true, .confirm r0⟩ : BwkFrame).dst.val = m.pkg ∧ (m.tile .t0).die.svc = true ∧ m.joined = true ∧
    ((m.modDie .t0 fun d => { d with svc := false }).tile .t0).die.svc = false ∧
    (⟨1, 0, true, .completion r0 0 0 []⟩ : BwkFrame).dst.val = s.pkg := by decide +kernel

theorem witness_BoardwalkJoinsPackagesAndCarriesCommands_timing :
    let m := board false
    let hp := fun (p : Fin 2) => m.modBoard fun b => { b with headPort := p, ports := #v[.up, .up] }
    (hp 1).portCarries 1 = true ∧ (hp 1).head.board.headPort = 1 ∧ (hp 0).head.board.headPort ≠ 1 ∧ (hp 0).portCarries 0 = true ∧
    (hp 0).portCarries 1 = true ∧ m.isHead = false ∧ (board true).isHead = true ∧ (board true).portCarries 1 = true ∧
    ((m.modBoard fun b => { b with headPort := 0 }).portCarries 0 = false) ∧ (⟨5, 1, true⟩ : BwkLead).measured = true ∧
    (⟨5, 1, false⟩ : BwkLead).measured = false := by decide +kernel

/-- A boot ROM's report of a start: which slots and whether the bundle verify as stored. -/
def booted (a b : Bool) : BootReport := ⟨a, b, true, 0, ⟨none, none, none⟩, false, ⟨true, ⟨true, true, true⟩, ⟨(0, 0, 0), (0, 0, 0), (0, 0, 0)⟩, 0⟩, 0⟩

theorem witness_SuppliesResetAndStartTheDies_slots :
    (booted true false).slotAOk = true ∧ (booted false true).slotAOk = false ∧
    ((booted false true).slotBOk && (State.reset.tile .t0).die.imageOk (State.reset.tile .t0).die.slotB) = false := by decide +kernel

/-- Where the image of slot B verifies, a start may run it, pending or not. -/
theorem witness_SuppliesResetAndStartTheDies_image
    (hv : Config.falconVerify Config.firmwareKey (image.take (image.length - sigLen)) (image.drop (image.length - sigLen)) = true) :
    ((booted false true).slotBOk && ((staged image).tile .t0).die.imageOk ((staged image).tile .t0).die.slotB) = true := by
  rw [(witness_TheLogIsSignedDrainedAndSealed_image hv).1 .t0]; rfl

theorem witness_SuppliesResetAndStartTheDies :
    let r := State.reset
    let b := r.modDie .t0 fun d => { d with fwPending := true }
    r.hasTile .t0 = true ∧ (r.tile .t0).die.inReset = true ∧ (r.tile .t0).die.holds = [] ∧ (r.tile .t0).die.heldDown = false ∧
    r.powerGood = true ∧ r.refOk = true ∧ SMap.wf (r.tile .t0).written = true ∧ (r.tile .t0).die.fwPending = false ∧
    (r.tile .t0).triad.formed = false ∧ (b.tile .t0).die.fwPending = true ∧ (up.tile .t0).die.inReset = false ∧
    ((wf fun f => { f with vdrvOk := true }).tile .t0).field.vdrvOk = true ∧
    ((wf fun f => { f with vdrvOk := false }).tile .t0).field.vdrvOk = false ∧ r.isHead = true ∧
    ((3 : Nat) ≤ ((r.modDie .t0 fun d => { d with supervisor := 2 }).tile .t0).die.supervisor + 1) := by decide +kernel


/-! ### Single steps and figures of the manual -/

/-- The result of a step, where there is one. -/
def after (i : Instr) (s : State) : Option State :=
  match step { s with pending := [i] } with
  | .next t => some t
  | _ => none

/-- R109: position 15 000 of a travel of 65 000 counts lies in bin 118. -/
theorem test_bin_of_the_example_car : binOf 15000 65000 = 118 := by decide

/-- Zone 2 of the example car: k 4, offset 30 N, F_abs 150 N; learn_shift 4. -/
def winter : Tile := (par up [(kt 0x82 0 2, 4000000), (kt 0x82 1 2, 30), (kt 0x82 3 2, 150), (kt 0x09 1, 4)]).tile .t0

/-- R137: a clean pass of 41 N with 3.5 N moves a bin of 38 N and 2.5 N to 38.1875 N and 2.5625 N, in 1/16 N. -/
theorem test_learn_winter_morning :
    let b : Bin := ⟨608, 40, 608, 40, 1248, 1, 0, 0⟩
    let n := (winter.learn b (41 * 16) (7 / 2 * 16) 2).1
    (n.mean, n.spread) = (611, 41) := by decide +kernel

/-- R137: strokes 2 and 3 at 70 N take a mean of 40 N to 41.875 N and then to 43.625 N, the spread held at 2.5 N, and the
third is audited. -/
theorem test_learn_loose_strap :
    let b : Bin := ⟨640, 40, 608, 40, 1248, 1, 0, 0⟩
    let n := (winter.learn b (70 * 16) 0 2).1
    let m := winter.learn n (70 * 16) 0 2
    (n.mean, n.spread, m.1.mean, m.1.spread, m.2.2.2) = (670, 40, 698, 40, true) := by decide +kernel

/-- R85: 25 bits at 1 MHz with 200 ns and 20 µs last 46.2 µs: more than one sample at 40 kHz, less than two. -/
theorem test_ssi_request_time :
    let s := fun (every : Int) => (par up [(ka 0x05 0, 40000), (ka 0x05 1, 40000), (ka 0x08 11, 25), (ka 0x08 15, 1000000),
      (ka 0x08 16, 200), (ka 0x08 17, 20), (ka 0x08 18, every)]).tile .t0
    (((s 1).axisBroken .A).contains 85, ((s 2).axisBroken .A).contains 85) = (true, false) := by decide +kernel

/-- R267: 12 nodes of 200 ns and 48 bytes need 68.8 µs; a frame of 48 bytes lasts 5.60 µs. -/
theorem test_causeway_slot_of_the_example_car :
    slotMin ((List.range 12).flatMap fun i => [(4 * i, 1), (4 * i + 2, 200)]) 48 = 68800 ∧ cwyFrameNs 48 = 5600 := by
  decide +kernel

/-- R293: at 19.2 kbit/s a response of 2 bytes needs a slot of 4.667 ms, one of 8 bytes 9.042 ms. -/
theorem test_lin_least_slots :
    (linEntryBroken 19200 ⟨0x21, 1, 2, 1, 5, []⟩, linEntryBroken 19200 ⟨0x21, 1, 2, 1, 4, []⟩,
      linEntryBroken 19200 ⟨0x21, 1, 8, 1, 10, []⟩, linEntryBroken 19200 ⟨0x21, 1, 8, 1, 9, []⟩) = (false, true, false, true) := by
  decide

/-- R260: the CRC-32 of IEEE 802.3 over the digits 1 to 9. -/
theorem test_crc32_check : crc32 [0x31, 0x32, 0x33, 0x34, 0x35, 0x36, 0x37, 0x38, 0x39] = 0xCBF43926 := by decide +kernel

/-- R239: TS32 differences wrap. -/
theorem test_ts32_wraps : (tsDiff 5 0xFFFFFFFB, tsDiff 0xFFFFFFFB 5) = (10, -10) := by decide

/-- The first ring of the bring-up in Setup Registers. -/
theorem test_bring_up_completion_ring :
    let s := up.modHost fun h => { h with ready := true }
    let b := (after (.registerWrite 0x0500 (4, 0x23400000)) s).bind (after (.registerWrite 0x0504 (4, 1)))
    let e := (b.bind (after (.registerWrite 0x050C (4, 0x00320008)))).bind (after (.registerWrite 0x0508 (4, 0x51)))
    e.map (fun s => let r := s.ring .cpl 0
      (r.base, r.enabled, r.size, r.route, r.imodCount, r.imodTime)) = some (0x123400000, true, 256, 1, 8, 50) := by
  decide +kernel

/-- The event ring of the bring-up. -/
theorem test_bring_up_event_ring :
    let s := up.modHost fun h => { h with ready := true }
    (after (.registerWrite 0x0908 (4, 0x95)) s).map (fun s => let r := s.ring .evt 0
      (r.enabled, r.size, r.route, r.tiles, r.classes)) = some (true, 1024, 2, 0xFFFF, 0x1F) := by decide +kernel

/-- The command queue of the bring-up, and what its step does before step 5. -/
theorem test_bring_up_command_queue :
    let s := up.modHost fun h => { h with ready := true }
    let q := fun (s : State) => (after (.registerWrite 0x0108 (4, 0x2000D)) s).map fun s => let r := s.ring .cmdq 0
      (r.enabled, r.size, r.route, r.prio)
    (q s, (after (.registerWrite 0x0508 (4, 0x51)) s).bind q) = (some (false, 16, 0, 0), some (true, 64, 0, 2)) := by decide +kernel

/-- Entries of the CFG_WRITE of the example car, with a value of lsw_uv. -/
def lswEntries (uv : Word) : Vector CfgEntry 5 :=
  #v[⟨0x0B06, 0, 0, uv, none⟩, ⟨0x0B01, 1, 0, 1500, none⟩, ⟨0x0B01, 2, 0, 1500, none⟩, ⟨0x0B02, 1, 0, 20, none⟩,
    ⟨0x0B02, 2, 0, 20, none⟩]

/-- The load-switch settings of the example car (R333). -/
theorem test_cfg_write_example :
    ((after (.cfgWriteEntries hc (lswEntries 66)) (asked up 0x10)).map fun s =>
      [(0x0B, 6, 0), (0x0B, 1, 1), (0x0B, 1, 2), (0x0B, 2, 1), (0x0B, 2, 2)].map fun (tb, r, i) =>
        pGet (s.tile .t0).written (kt tb r i)) = some [66, 1500, 1500, 20, 20] := by decide +kernel

/-- With 92 V the command completes PARAM_REFUSED, detail 7, result byte 20 at 0, and nothing changes (R333). -/
theorem test_cfg_write_refused :
    ((after (.cfgWriteEntries hc (lswEntries 92)) (asked (rings up) 0x10)).map fun s =>
      (decide ((s.tile .t0).written = (up.tile .t0).written), memRead s.hostMem 0x1005, memRead s.hostMem 0x100A,
        memRead s.hostMem 0x1014)) = some (true, 0x14, 7, 0) := by decide +kernel

/-- R285: a generation wraps from 15 to 0. -/
theorem test_can_generation_wraps :
    let s := asked (can0 id fun b => { b with gen := 15 }) 0x60
    ((after (.canTx hc ⟨0, 5, canF, false, 0⟩) s).map fun s => (s.canBuf .t0 0 5).gen) = some 0 := by decide +kernel

/-- R237: an empty queue lets 4 ns pass. -/
theorem test_idle_tick : (match step up with
    | .next t => t.now
    | _ => 0) = 4 := by decide +kernel

/-- R149: LS0 goes off with the fallback image (R161). -/
theorem test_watchdog_opens_the_relays :
    ((after (.serialWatchdogExpiry .t0) lit).map fun s =>
      ((s.tile .t0).field.fallback, (s.tile .t0).field.sra, (s.tile .t0).field.srb, ((s.tile .t0).field.ls[0]).isOn)) =
      some (true, false, false, false) := by decide +kernel

/-! ### Further premises of the statements, met -/

theorem witness_AnEvaluationWithoutItsTriadDoesNothing :
    let lost := (wd fun d => { d with tUnlock := .running 1 }).modTriad .t0 fun tr => { tr with mode := .lost }
    let con := (wd fun d => { d with tUnlock := .running 1 }).modTriad .t0 fun tr => { tr with mode := .confirm }
    (lost.tile .t0).triadActs = false ∧ (lost.tile .t0).triadRuns = false ∧ (lost.tile .t0).door.tUnlock.isRunning = true ∧
    (con.tile .t0).triadActs = false ∧ (con.tile .t0).triadRuns = true ∧ (con.tile .t0).door.tUnlock.isRunning = true := by
  decide +kernel

/-- A doorway in a state with one command at the head of its mailbox. -/
def headOf (st : DoorState) (c : DoorCmd) : State :=
  (clean.modDoor .t0 fun d => { d with st := st, mailbox := [(hc, c)] }).modLink .t0 fun l =>
    { l with up := { l.up with pLeaf := .active, pLock := .active, fallback := false } }

theorem witness_DoorCommandsEnterTheMailboxAndAreEvaluated_heads :
    let m := fun st c => (headOf st c).tile .t0
    ((m .openSt .closeDoor).door.st = .openSt ∧ (m .openSt .closeDoor).door.mailbox = [(hc, .closeDoor)] ∧
      (m .openSt .closeDoor).door.egress = false ∧ (m .openSt .nudge).door.mailbox = [(hc, .nudge)]) ∧
    ((m .opening .hold).door.st = .opening ∧ (m .opening .hold).door.mailbox = [(hc, .hold)]) ∧
    ((m .released .stepDeploy).door.st = .released ∧ (m .released .stepDeploy).stepFitted = true ∧
      (m .released .stepDeploy).door.mailbox = [(hc, .stepDeploy)] ∧ (m .released .stepStow).door.mailbox = [(hc, .stepStow)]) ∧
    (let h := m .unreferenced (.axisHome false)
     h.door.st = .unreferenced ∧ h.door.homing = none ∧ h.leafProven = true ∧ h.lockProven = true ∧
     h.door.mailbox = [(hc, .axisHome false)]) ∧
    (let j := (headOf .isolated (.axisJog .A 100))
     (j.tile .t0).door.st = .isolated ∧ (j.tile .t0).door.homing = none ∧ (j.tile .t0).link.up.fallback = false ∧
     ((100 : Int).natAbs : Int) ≤ (j.tile .t0).par 0x11 6 ∧ (j.tile .t0).used .A = true ∧
     (j.axis .t0 .A).fb.referenced = false ∧ (j.tile .t0).door.mailbox = [(hc, .axisJog .A 100)]) := by decide +kernel

theorem witness_DoorCommandsEnterTheMailboxAndAreEvaluated_jog : (headOf .isolated (.axisJog .A 100)).faults .t0 = [] := by
  have h : (headOf .isolated (.axisJog .A 100)).sealOk = true := witness_seal
  unfold State.faults
  rw [h]
  decide +kernel

theorem witness_HomingRestAndTheStakeBound_ages :
    let old := ((wd fun d => { d with obstructions := [0] }).modTime fun tb => { tb with local_ := 10 ^ 12 })
    (old.tile .t0).triadActs = true ∧
    (old.tile .t0).door.obstructions.any (fun i => decide (i + (old.tile .t0).parN 0x83 4 * 1000000000 < old.now)) = true := by
  decide +kernel

theorem witness_ProofTestAndCalibrationReadiness_acts :
    let s := (calm .locked).modDoor .t0 fun d => { d with proofRun := true, proofSelf := false, cal := .idle, proofPhase := 5 }
    let q := calm40 fun d => { d with cal := .queued }
    let r := (calm .locked).modDoor .t0 fun d => { d with cal := .ready 0, calPermitMax := .running 5 }
    (s.tile .t0).triadActs = true ∧ (q.tile .t0).triadActs = true ∧ (r.tile .t0).triadActs = true := by decide +kernel

theorem witness_AlignmentAndExternalSteps_reported :
    let e := ((par moving [(ka 0x06 0, 1)]).modDoor .t0 fun d => { d with st := .closing }).modMo .t0 .A fun m => { m with extReported := true }
    (e.tile .t0).parA .A 0x06 0 ≠ 0 ∧ (e.tile .t0).follows .A .opening = false ∧ (e.axis .t0 .A).mo.extReported = true := by
  decide +kernel

theorem witness_QuadratureEdgesCount_window :
    let eight := quad.modFb .t0 .A fun f => { f with qerrWindow := List.replicate 8 100 }
    let seven := quad.modFb .t0 .A fun f => { f with qerrWindow := List.replicate 7 100 }
    ((eight.axis .t0 .A).fb.qerrRecent 100).length = 8 ∧ ((seven.axis .t0 .A).fb.qerrRecent 100).length ≠ 8 ∧
    ((((eight.axis .t0 .A).fb.u + 2 : Nat) : Int) ≤ (eight.tile .t0).parA .A 0x08 3) ∧
    ((quad.axis .t0 .A).fb.qerrRecent 0).length ≠ 8 := by decide +kernel

theorem witness_FeedbackFaultsLoseThePosition_encoder :
    let bad := quad.modFb .t0 .A fun f => { f with qerrWindow := List.replicate 9 0, causes := [] }
    (bad.axis .t0 .A).fb.encoderBad = true ∧ (bad.axis .t0 .A).fb.causes.contains 1 = false ∧
    (bad.tile .t0).parA .A 0x08 0 ≠ 0 := by decide +kernel

theorem witness_HallCodesAreFollowed_same :
    let s := (par up [(ka 0x08 6, 1), (ka 0x04 0, 0)]).modFb .t0 .A fun f => { f with hallCode := 7, hallLast := 1 }
    (1 : BitVec 3) = (s.axis .t0 .A).fb.hallLast ∧ hallPlace 5 ≠ none ∧ (5 : BitVec 3) ≠ (s.axis .t0 .A).fb.hallLast ∧
    ((par s [(ka 0x04 0, 1)]).tile .t0).motor .A ≠ 0 := by decide +kernel

theorem witness_SsiWordsAreAcceptedOrDiscarded_third :
    let q := (par up [(ka 0x08 0, 1), (ka 0x08 10, 1)]).modFb .t0 .A fun f =>
      { f with ssiLatch := some 5, causes := [], ssiRun := 2, ssiIdleBad := true }
    (q.tile .t0).parA .A 0x08 10 ≠ 0 ∧ (q.axis .t0 .A).fb.ssiRun ≥ 2 ∧ (q.axis .t0 .A).fb.causes.contains 6 = false ∧
    (q.axis .t0 .A).fb.ssiIdleBad = true ∧ (q.axis .t0 .A).fb.ssiLast = none ∧ (q.axis .t0 .A).mo.homeStage = none ∧
    ((q.axis .t0 .A).fb.u : Int) ≤ (q.tile .t0).parA .A 0x08 3 ∧ (q.axis .t0 .A).fb.ssiWindow.count true < 8 := by decide +kernel

theorem witness_LoadSwitchChannelsFollowTheirRows_up :
    let high := lit.modField .t0 fun f => { f with ls := vmod f.ls 9 fun c => { c with blanking := true, ocThr := 100 } }
    (lit.tile .t0).field.lswUp = true ∧ (((high.tile .t0).field.ls)[9]).isOn = true ∧
    251 > (((high.tile .t0).field.ls)[9]).ocThr * 5 / 2 ∧ 250 ≤ (((high.tile .t0).field.ls)[9]).ocThr * 5 / 2 ∧
    (let u := wf fun f => { f with undervolt := true }
     100000 > 10 * ((u.tile .t0).parN 0x0B 6 + (u.tile .t0).parN 0x0B 7) ∧
     0 ≤ 10 * ((u.tile .t0).parN 0x0B 6 + (u.tile .t0).parN 0x0B 7)) := by decide +kernel

theorem witness_LoadSwitchChecksAndSense_period :
    let s := lit.modField .t0 fun f =>
      { f with ls := vmod f.ls 9 fun c => { c with thDown := true, isOn := false, line := true, restarts := List.replicate 31 0 } }
    (up.tile .t0).triadActs = true ∧ (lit.tile .t0).field.lswUp = true ∧
    ((((s.tile .t0).field.ls)[9]).restarts.filter fun i => decide ((s.at 0).now < i + 60000000000)).length ≥ 31 := by decide +kernel

theorem witness_OutputReadbackAndTestPulses_foreign :
    let win := fun r n m => lit.modField .t0 fun f =>
      { f with tpWindow := (true, true)
               io := vmap (fun (p : IoPin) => { p with before := true, returned := r, othFails := n, othPasses := m }) f.io }
    let a := win true 1 0
    let b := win false 0 3
    srcGet (a.tile .t0).field.tpWindow .tpb = true ∧ (((a.tile .t0).field.io)[0]).before = true ∧ (a.tile .t0).isOut 0 = false ∧
    (a.tile .t0).par 0x0C 4 0 ≠ srcCode .tpb ∧ (a.tile .t0).par 0x0C 4 0 ≠ 0 ∧ (((a.tile .t0).field.io)[0]).returned = true ∧
    (((a.tile .t0).field.io)[0]).othFails ≥ 1 ∧ (((b.tile .t0).field.io)[0]).returned = false ∧
    (((b.tile .t0).field.io)[0]).othPasses ≥ 3 := by decide +kernel

theorem witness_VioIsCommonToEveryTile :
    up.hasTile .t0 = true ∧ ((wf fun f => { f with vioOk := true }).tile .t0).field.vioOk = true ∧
    ((wf fun f => { f with vioOk := false }).tile .t0).field.vioOk = false := by decide +kernel

theorem witness_BitternMonitorHoldsSrb_foreign :
    let s := wf fun f => { f with bitConfig := some [2, 0, 0, 1], bittern := .openSt, bitLow := 1, tpWindow := (false, true)
                                  io := vmod f.io 2 fun p => { p with raw := true, wentLow := true, returned := true } }
    srcGet (s.tile .t0).field.tpWindow .tpb = true ∧ ((s.tile .t0).field.pin ((s.tile .t0).field.bitField 0 0)).wentLow = true ∧
    ((s.tile .t0).field.pin ((s.tile .t0).field.bitField 0 0)).returned = true ∧
    ((s.tile .t0).field.bitField 0 3 : Int) ≠ srcCode .tpb ∧ (s.tile .t0).field.bitField 0 3 ≠ 0 := by decide +kernel

theorem witness_FieldLinkKeepsTheImageAway_frames :
    let s := (lit.modLink .t0 fun l => { l with lsCheck := 0x200, lsClear := 0x200, ioClear := 1 }).modField .t0 fun f =>
      { f with ls := vmod f.ls 9 fun c => { c with isOn := false, line := false } }
    (s.tile .t0).die.inReset = false ∧ (s.tile .t0).link.lsCheck.getLsbD 9 = true ∧ (s.tile .t0).field.lswUp = true ∧
    (((s.tile .t0).field.ls)[9]).isOn = false ∧ (s.tile .t0).link.lsClear.getLsbD 9 = true ∧
    (s.tile .t0).link.ioClear.getLsbD 0 = true ∧ (s.tile .t0).door.proofRun = false ∧
    ((wf fun f => { f with fallback := true }).tile .t0).field.fallback = true := by decide +kernel

theorem witness_SpareJoinsStepByStep_checkpoint :
    let j := wr fun tr => { tr with mode := .joining, joining := some (3, 2) }
    (j.tile .t0).triadActs = true ∧ (j.tile .t0).triad.joining = some (3, 2) ∧ 2 ≤ (2 : Fin 6) ∧
    (j.tile .t0).triad.roles[0] = .active ∧ ((wr fun tr => { tr with mode := .confirm }).tile .t0).triad.mode = .confirm := by
  decide +kernel

theorem witness_TriadRestartsAndReadmits_readmit :
    let q := asked (wr fun tr => { tr with roles := #v[.active, .active, .active, .excluded] }) 0x81
    (q.tile .t0).triad.joining = none ∧ (q.tile .t0).triad.roles[3] = .excluded ∧ (q.tile .t0).triad.bist = none ∧
    (booted true false).slotAOk = true ∧
    ((booted false false).slotBOk && (up.tile .t0).die.imageOk (up.tile .t0).die.slotB) = false := by decide +kernel

theorem witness_CalibrationCommands_permit :
    let r := calm40 fun d => { d with cal := .ready 0 }
    let f := par r [(kt 0x09 7, 0)]
    (r.tile .t0).calCanRun = true ∧ (r.tile .t0).calForbidden = false ∧ (f.tile .t0).calCanRun = true ∧
    (f.tile .t0).calForbidden = true ∧ (f.tile .t0).door.cal = .ready 0 ∧
    ((calm40 fun d => { d with cal := .ready 0, st := .held }).tile .t0).calCanRun = false ∧
    (r.tile .t0).triadActs = true := by decide +kernel

theorem witness_SelfTestsRunAndEnd_parts :
    let r := fun (p : Fin 8) => testing (2 ^ p.val) (some p)
    (((r 2).tile .t0).partBusy 2 = false ∧ (((r 2).tile .t0).door.parts[2]).running = true) ∧
    (((r 4).tile .t0).partBusy 4 = false ∧ (((r 4).tile .t0).door.parts[4]).running = true) ∧
    (((r 1).tile .t0).partBusy 1 = false ∧ (((r 1).tile .t0).door.parts[1]).running = true) ∧
    (((r 5).tile .t0).partBusy 5 = false ∧ (((r 5).tile .t0).door.parts[5]).running = true) ∧
    (((r 6).tile .t0).partBusy 6 = false ∧ (((r 6).tile .t0).door.parts[6]).running = true) ∧
    (((testing 0x18 none).tile .t0).door.dwellWaits 3 = true ∧ ((testing 0x18 none).tile .t0).door.stDwellMax.isRunning = true) ∧
    (⟨0, []⟩ : PartFinding).bins = [] := by decide +kernel

/-- The seal matches in ISOLATED, with a SOUNDING_WRITE of one bin fetched. -/
def sealedIsolated : State := asked (sealedUp.modDoor .t0 fun d => { d with st := .isolated }) 0x43

theorem witness_SoundingsAreReadWrittenAndConfirmed_sealed :
    sealedIsolated.sealOk = true ∧ sealedIsolated.Due hc 0x43 ∧ (sealedIsolated.tile .t0).triadActs = true ∧
    (sealedIsolated.tile .t0).door.st = .isolated ∧ (sealedIsolated.tile .t0).used .A = true ∧
    (let data := [0, 0] ++ leBytes 2 0xFFFF ++ List.replicate 12 0
     data.length = 16 * 1 ∧ (sealedIsolated.tile .t0).binOk (binOfBytes (slice data (16 * 0) 16)) = true) :=
  ⟨witness_seal, asked_due _ _ rfl rfl, by decide +kernel⟩

theorem begin_same (s : State) (h : s.head.cwy.inNit = false) : s.cwyBegin = s := by simp [State.cwyBegin, h]

theorem witness_CausewayNodeKeepsItsSchedule_begun :
    (ring3.at 5).cwyBegin.cwyValid frame1 42300 = true ∧ (listen3.at 5).cwyBegin.cwyValid frame1 42300 = true ∧
    (ring3.at 5).cwyBegin.cwyValid { frame1 with crcOk := false } 42300 = false := by
  rw [begin_same (ring3.at 5) rfl, begin_same (listen3.at 5) rfl]
  exact ⟨witness_CausewayNodeKeepsItsSchedule_frame.2.1, witness_CausewayNodeKeepsItsSchedule_listen,
    witness_CausewayNodeKeepsItsSchedule_frame.2.2.1⟩

theorem witness_CausewayNodeKeepsItsSchedule_slots :
    let b := ring3.modCwy fun c => { c with txBuf := [(0, 0, [7])] }
    let c := b.modCwy fun c => { c with cutLast := true }
    (b.at 5001).cwyBegin.slotData 0 = some [7] ∧ (b.at 5001).cwyBegin.inWindow 0 = false ∧ b.head.cwy.cutLast = false ∧
    (c.at 5001).cwyBegin.slotData 0 = some [7] ∧ c.head.cwy.cutLast = true ∧
    (let e := (b.modCwy fun c => { c with guardian := 2500 }).at 5000
     e.cwyBegin.slotData 0 = some [7] ∧ e.cwyBegin.inWindow 0 = true) ∧
    (CwyPort.portB.of ring3.head.cwy.broken && CwyPort.portB.of ring3.head.cwy.sendH) = false := by decide +kernel

theorem witness_CanControllersReceiveSendAndCount_lock :
    let l := can0 (fun b => { b with locked := true, shadowEnt := none }) id
    (l.tile .t0).die.svc = true ∧ (l.canBuf .t0 0 3).locked = true ∧ (l.canBuf .t0 0 3).shadowEnt = none ∧
    canF.data.length ≤ 32 ∧
    (let w := can0 id fun b => { b with inArb := some (canF, 1, true, none, 4) }
     (w.canBuf .t0 0 5).inArb.isSome = true ∧ (w.canBuf .t0 0 5).heldTx = none ∧ (w.canBuf .t0 0 5).sedge = none) := by
  decide +kernel

theorem witness_RingRegistersAndInterrupts_far :
    let s := rings up
    let f := s.modBoard fun b => { b with timersArmed := 2, reachable := 2 }
    s.farArmed = false ∧ f.farArmed = true := by decide +kernel

theorem witness_ByeEndsTheSessionCleanly_held :
    (let o : Outstanding := { entry 0x33 with tag := 8, waiting := true }
     o.waiting = true ∧ o.forwarded = none) ∧ (entry 0x02).waiting = false ∧
    ((bye false).modHost fun h => { h with bye := some hc }).head.host.bye.isSome = true ∧
    (bye false).head.host.outstanding.filter (!·.remote) = [{ entry 0x33 with tag := 8, waiting := false }, entry 0x02] ∧
    (bye true).Due hc 0x02 := by
  refine ⟨by decide +kernel, by decide +kernel, by decide +kernel, by decide +kernel, by decide +kernel, ⟨entry 0x02, ?_, rfl, ?_⟩, rfl, rfl⟩
  · decide +kernel
  · decide +kernel

theorem witness_DescriptorsAreFetchedInTurn_more :
    let w := served [entry 0x33]
    let back : Outstanding := { entry 0x33 with waiting := true, behind := true, flags := 1, notBefore := 100 }
    let z := served [back]
    (w.head.host.outstanding.filter fun x => x.queue == 0 && !x.remote) ≠ [] ∧ w.nextQueue = some 0 ∧
    (back.behind && (z.ring .cmdq 0).stopped) = false ∧ z.tooSoon back = true ∧ (z.at 200).tooSoon back = false ∧
    (∀ y ∈ z.head.host.outstanding, y.queue = 0 → y.waiting = true → y.remote = false) ∧ z.head.host.outstanding.Nodup := by
  decide +kernel

theorem witness_SuppliesResetAndStartTheDies_supervised :
    let n := wi fun d => { d with kaSent := false }
    let k := wi fun d => { d with kaSent := true }
    (n.tile .t0).die.inReset = false ∧ (n.tile .t0).triad.formed = true ∧ (n.tile .t0).die.fwVerified = true ∧
    (n.tile .t0).die.kaSent = false ∧ (k.tile .t0).die.kaSent = true ∧
    ((wi fun d => { d with supervisor := 1 }).tile .t0).die.supervisor + 1 < 3 := by decide +kernel

end Sys2Proof.Tests
end

section
/-!
PROOFS. Every command has one of two shapes: that of a tile's command, or that of a command of the package (R1).
-/

namespace Sys2Proof.Machine

/-- An outcome has the shape of a command with the given addressee: it acts on the tile that it names, which the part may not have,
or on the package. -/
def ActsFor (s : State) (o : Host.Outcome State Fault Refusal) : Option TileId → Prop
  | some t => ∃ f, o = onTile t s f
  | none => ∃ f, o = onHead s f

/-- The meaning of each command is, by its definition, onTile or onCmd at the tile that it is addressed to (onCmd is onTile
with the checks of a host command), or onHead where it is addressed to none. -/
theorem exec_actsFor_addressee (c : Instr) (s : State) : ActsFor s (exec c s) (addressee c) := by
  cases c <;> exact ⟨_, by rfl⟩

theorem ActsFor.answers_or_faults {s : State} {o : Host.Outcome State Fault Refusal} {t : TileId} (h : ActsFor s o (some t)) :
    if s.hasTile t then ∃ s', o = .next s' else o = .fault .absentTile := by
  obtain ⟨f, rfl⟩ := h
  split
  case isTrue ht => exact ⟨f s, onTile_of t s f ht⟩
  case isFalse ht => exact onTile_absent t s f (Bool.eq_false_of_not_eq_true ht)

theorem ActsFor.answers {s : State} {o : Host.Outcome State Fault Refusal} (h : ActsFor s o none) : ∃ s', o = .next s' := by
  obtain ⟨f, rfl⟩ := h
  exact ⟨f s, onHead_eq s f⟩

/-- Settles O3: the addressee of a command gives the shape of its meaning, and the shape says when it answers. -/
theorem everyCommandAnswersUnlessItsTileIsAbsent : Obligations.EveryCommandAnswersUnlessItsTileIsAbsent := by
  unfold Obligations.EveryCommandAnswersUnlessItsTileIsAbsent
  intro c s
  have hc := exec_actsFor_addressee c s
  cases ha : addressee c with
  | some t => rw [ha] at hc; exact hc.answers_or_faults
  | none => rw [ha] at hc; exact hc.answers

end Sys2Proof.Machine
end

section
/-!
PROOFS. Sorted maps and the parameters kept in them: a read after a write, and what a list of values taken into force gives.
-/

namespace Sys2Proof.Machine

/-! ### Sorted maps -/

/-- The canonical form: every key is below those behind it. -/
theorem SMap.wf_iff_pairwise (m : SMap) : SMap.wf m = true ↔ m.Pairwise fun x y => x.1 < y.1 := by
  have : IsTrans (Nat × Int) fun x y => x.1 < y.1 := ⟨fun _ _ _ => Nat.lt_trans⟩
  rw [← List.isChain_iff_pairwise]
  induction m with
  | nil => simp [SMap.wf]
  | cons c m ih => cases m <;> simp_all [SMap.wf]

/-- A key below every listed one reads as an unlisted key does. -/
theorem SMap.get_below (m : SMap) (k : Nat) (d : Int) (h : ∀ x ∈ m, k < x.1) : m.get k d = d := by
  cases m with
  | nil => rfl
  | cons c m =>
    have hk : k < c.1 := h c List.mem_cons_self
    rw [SMap.get, if_neg (by omega), if_pos hk]

/-- A write adds no key but its own. -/
theorem SMap.mem_set {m : SMap} {k : Nat} {v d : Int} {x : Nat × Int} (h : x ∈ m.set k v d) : x.1 = k ∨ x ∈ m := by
  induction m with
  | nil => unfold SMap.set at h; split at h <;> simp_all
  | cons c m ih =>
    unfold SMap.set at h
    split_ifs at h <;> grind

/-- A write keeps the canonical form. -/
theorem SMap.wf_set (m : SMap) (k : Nat) (v d : Int) (h : SMap.wf m = true) : SMap.wf (m.set k v d) = true := by
  rw [SMap.wf_iff_pairwise] at h ⊢
  induction m with
  | nil => unfold SMap.set; split <;> simp
  | cons c m ih =>
    obtain ⟨hc, hm⟩ := List.pairwise_cons.mp h
    unfold SMap.set
    split_ifs with hk hv hlt hv
    · exact hm
    · exact List.pairwise_cons.mpr ⟨fun x hx => hk ▸ hc x hx, hm⟩
    · exact h
    · refine List.pairwise_cons.mpr ⟨fun x hx => ?_, h⟩
      rcases List.mem_cons.mp hx with rfl | hx
      · exact hlt
      · exact hlt.trans (hc x hx)
    · refine List.pairwise_cons.mpr ⟨fun x hx => ?_, ih hm⟩
      rcases SMap.mem_set hx with hx | hx
      · omega
      · exact hc x hx

/-- A key reads the value written to it. -/
theorem SMap.get_set_self (m : SMap) (k : Nat) (v d : Int) (h : SMap.wf m = true) : (m.set k v d).get k d = v := by
  rw [SMap.wf_iff_pairwise] at h
  induction m with
  | nil => unfold SMap.set; split <;> simp_all [SMap.get]
  | cons c m ih =>
    obtain ⟨hc, hm⟩ := List.pairwise_cons.mp h
    unfold SMap.set
    split_ifs with hk hv hlt hv
    · rw [SMap.get_below m k d fun x hx => hk ▸ hc x hx, hv]
    · simp [SMap.get]
    · simp [SMap.get, hk, hlt, hv]
    · simp [SMap.get]
    · simp [SMap.get, hk, hlt, ih hm]

/-- Every other key reads as before. -/
theorem SMap.get_set_ne (m : SMap) (k x : Nat) (v d e : Int) (h : SMap.wf m = true) (hx : x ≠ k) :
    (m.set k v d).get x e = m.get x e := by
  rw [SMap.wf_iff_pairwise] at h
  induction m with
  | nil => unfold SMap.set; split <;> simp [SMap.get, hx.symm]
  | cons c m ih =>
    obtain ⟨hc, hm⟩ := List.pairwise_cons.mp h
    unfold SMap.set
    split_ifs with hk hv hlt hv
    · have hcx : ¬ c.1 = x := fun hcx => hx (hcx.symm.trans hk)
      simp only [SMap.get, hcx, if_false]
      split_ifs with hlow
      · exact SMap.get_below m x e fun y hy => hlow.trans (hc y hy)
      · rfl
    · simp only [SMap.get, hk, hx.symm, if_false]
    · rfl
    · simp only [SMap.get, hx.symm, if_false]
      split_ifs <;> omega
    · simp only [SMap.get, ih hm]

/-! ### Parameters -/

theorem wf_pSet (m : SMap) (k : Nat) (v : Int) (h : SMap.wf m = true) : SMap.wf (pSet m k v) = true := SMap.wf_set m k v _ h

theorem pGet_pSet (m : SMap) (k x : Nat) (v : Int) (h : SMap.wf m = true) :
    pGet (pSet m k v) x = if x = k then v else pGet m x := by
  split_ifs with hx
  · subst hx; exact SMap.get_set_self m x v _ h
  · exact SMap.get_set_ne m k x v _ _ h hx

/-- After a list of keys is taken into force, those read as written and every other as before. -/
theorem pGet_foldl_takeIn (written : SMap) (l : List Nat) (m : SMap) (x : Nat) (h : SMap.wf m = true) :
    pGet (l.foldl (takeIn written) m) x = if x ∈ l then pGet written x else pGet m x := by
  induction l generalizing m with
  | nil => simp
  | cons k l ih =>
    rw [List.foldl_cons, takeIn, ih _ (wf_pSet m k _ h), pGet_pSet m k x _ h]
    by_cases hx : x = k
    · subst hx; simp
    · simp [hx]

end Sys2Proof.Machine
end

section
/-!
PROOFS. The policy bundle and the parameters: loading, activating and coming into force (R32, R194, R332, R334).
-/

namespace Sys2Proof.Machine

/-! ### What stands while a bundle comes into force -/

/-- What the consequences of a bundle (R134, R172, R211, R213) leave as it is on its tile: the die, the parameters in force for the tile
and its axes, the doorway state, and which bundle, if any, waits; on the other tiles only logs and mailboxes differ. -/
structure State.KeepsForce (t : TileId) (s s' : State) : Prop where
  die : (s'.tile t).die = (s.tile t).die
  inForce : (s'.tile t).inForce = (s.tile t).inForce
  st : (s'.tile t).door.st = (s.tile t).door.st
  activating : (s'.tile t).door.activating = (s.tile t).door.activating
  axes : ∀ a, (s'.axis t a).inForce = (s.axis t a).inForce
  others : ∀ u, u ≠ t → Tile.Told (s.tile u) (s'.tile u)

section keepsForce

variable {t : TileId} {s s' s'' : State}

theorem State.KeepsForce.refl (s : State) : State.KeepsForce t s s := ⟨rfl, rfl, rfl, rfl, fun _ => rfl, fun _ _ => rfl⟩

theorem State.KeepsForce.trans (h : State.KeepsForce t s s') (k : State.KeepsForce t s' s'') : State.KeepsForce t s s'' :=
  ⟨k.die.trans h.die, k.inForce.trans h.inForce, k.st.trans h.st, k.activating.trans h.activating,
    fun a => (k.axes a).trans (h.axes a), fun u hu => (h.others u hu).trans (k.others u hu)⟩

theorem State.Told.keepsForce (h : State.Told s s') : State.KeepsForce t s s' where
  die := h.die t
  inForce := h.inForce t
  st := by rw [h.door t]
  activating := by rw [h.door t]
  axes a := by simp only [State.axis, h.ax t]
  others u _ := h.tiles u

theorem State.KeepsForce.told (h : State.KeepsForce t s s') (k : State.Told s' s'') : State.KeepsForce t s s'' :=
  h.trans k.keepsForce

theorem keepsForce_modTile {f : Tile → Tile} (hd : (f (s.tile t)).die = (s.tile t).die)
    (hi : (f (s.tile t)).inForce = (s.tile t).inForce) (hst : (f (s.tile t)).door.st = (s.tile t).door.st)
    (ha : (f (s.tile t)).door.activating = (s.tile t).door.activating)
    (hx : ∀ a, ((f (s.tile t)).ax.get a).inForce = ((s.tile t).ax.get a).inForce) :
    State.KeepsForce t s (s.modTile t f) := by
  refine ⟨?_, ?_, ?_, ?_, fun a => ?_, fun u hu => ?_⟩
  case refine_6 => rw [State.tile_modTile, if_neg hu]; exact Tile.Told.refl _
  all_goals simp only [State.axis, State.tile_modTile_self, hd, hi, hst, ha, hx]

theorem keepsForce_each {α : Type} (l : List α) (f : State → α → State) (hf : ∀ s a, State.KeepsForce t s (f s a)) (s : State) :
    State.KeepsForce t s (s.each l f) := by
  induction l generalizing s with
  | nil => exact .refl s
  | cons a l ih => exact (hf s a).trans (ih (f s a))

theorem keepsForce_ite {c : Prop} [Decidable c] (h : State.KeepsForce t s s') : State.KeepsForce t s (if c then s' else s) := by
  split
  · exact h
  · exact .refl s

end keepsForce

/-- One axis changed, as the axes of its tile read it. -/
theorem State.axis_modAxis_eq_ite (s : State) (t : TileId) (a b : AxisId) (f : Axis → Axis) :
    (s.modAxis t a f).axis t b = if b = a then f (s.axis t b) else s.axis t b := by
  cases t <;> cases a <;> cases b <;> rfl

@[simp] theorem State.field_modAxis (s : State) (t : TileId) (a : AxisId) (f : Axis → Axis) :
    ((s.modAxis t a f).tile t).field = (s.tile t).field := by cases t <;> rfl

/-- Clearing the soundings of an axis changes of the axes of its tile only the sets of that one. -/
theorem State.axis_soundingsCleared (s : State) (t : TileId) (a b : AxisId) :
    (s.soundingsCleared t a).axis t b = if b = a then
      { s.axis t b with soundings := clearLearned (s.axis t b).soundings, shadow := clearLearned (s.axis t b).shadow
                        detect := clearLearned (s.axis t b).detect }
    else s.axis t b := by
  rw [State.axis, State.soundingsCleared, (told_raise (.refl _)).ax t, State.ax_modDoor]
  exact State.axis_modAxis_eq_ite s t a b _

@[simp] theorem State.field_soundingsCleared (s : State) (t : TileId) (a : AxisId) :
    ((s.soundingsCleared t a).tile t).field = (s.tile t).field := by
  rw [State.soundingsCleared, (told_raise (.refl _)).field t, State.field_modDoor, State.field_modAxis]

theorem keepsForce_soundingsCleared (t : TileId) (s : State) (a : AxisId) : State.KeepsForce t s (s.soundingsCleared t a) := by
  refine .told (.trans (s' := s.modAxis t a _) (keepsForce_modTile rfl rfl rfl rfl fun b => ?_)
    (keepsForce_modTile rfl rfl rfl rfl fun _ => rfl)) (told_raise (.refl _))
  simp only [Tile.modAxis, PerAxis.get_set]
  split
  case isTrue h => rw [h]
  case isFalse => rfl

theorem keepsForce_pairRefresh (t : TileId) (s : State) (p : PairId) : State.KeepsForce t s (s.pairRefresh t p) := by
  have h : State.KeepsForce t s (s.modField t fun f => f.setPair p { f.pair p with status := (s.tile t).pairStatus p }) :=
    keepsForce_modTile rfl rfl rfl rfl fun _ => rfl
  unfold State.pairRefresh
  dsimp only
  split
  · exact h.told (told_raiseField (.refl _))
  · exact h

theorem keepsForce_sedgeGrade (t : TileId) (s : State) (k : Fin 32) : State.KeepsForce t s (s.sedgeGrade t k) :=
  keepsForce_each _ _ (fun _ _ => keepsForce_ite (keepsForce_modTile rfl rfl rfl rfl fun _ => rfl)) s

theorem keepsForce_modConn (t : TileId) (s : State) (k : Fin 32) (f : SedgeConn → SedgeConn) : State.KeepsForce t s (s.modConn t k f) :=
  keepsForce_modTile rfl rfl rfl rfl fun _ => rfl

theorem keepsForce_setSedge (t : TileId) (s : State) (k : Fin 32) (st : SedgeState) : State.KeepsForce t s (s.setSedge t k st) := by
  have h := keepsForce_modConn t s k fun c => { c with state := st }
  unfold State.setSedge
  dsimp only
  split_ifs
  · exact .refl s
  · exact (h.told (told_raise (.refl _))).trans (keepsForce_sedgeGrade t _ k)
  · exact h.told (told_raise (.refl _))

theorem keepsForce_sedgeRebase (t : TileId) (s : State) (old : Tile) : State.KeepsForce t s (s.sedgeRebase t old) :=
  keepsForce_each _ _ (fun s k => keepsForce_ite ((keepsForce_modConn t s k _).trans (keepsForce_setSedge t _ k _))) s

theorem keepsForce_sedgeRegrade (t : TileId) (s : State) (old : Tile) : State.KeepsForce t s (s.sedgeRegrade t old) :=
  keepsForce_each _ _ (fun s k => keepsForce_ite (keepsForce_sedgeGrade t s k)) s

/-! ### Host commands of a bundle (R334) -/

/-- A host command that is due runs. -/
theorem onCmd_of_due {s : State} {h : HostCmd} {op : Nat} (hd : s.Due h op) (f : State → State) :
    onCmd h op s f = .next (f s) := by
  obtain ⟨ht, ⟨o, ho, hw, hturn⟩, h0, h1⟩ := hd
  exact onCmd_of h op s f o ht ho hw h0 h1 hturn

@[simp] theorem State.inForce_modDie (s : State) (t : TileId) (f : Die → Die) : ((s.modDie t f).tile t).inForce = (s.tile t).inForce := by
  cases t <;> rfl

@[simp] theorem State.inForce_modDoor (s : State) (t : TileId) (f : Doorway → Doorway) :
    ((s.modDoor t f).tile t).inForce = (s.tile t).inForce := by cases t <;> rfl

theorem exec_policyLoad (h : HostCmd) (b : List Byte) (s : State) : exec (.policyLoad h b) s = execPolicyLoad h b s := rfl

theorem exec_policyActivate (h : HostCmd) (s : State) : exec (.policyActivate h) s = execPolicyActivate h s := rfl

section policyLoad

variable {s : State} {h : HostCmd} {b : List Byte} (hd : s.Due h 0x12) (hf : h.dmaFault = false) (hl : b.length ≤ 65536)
include hd hf hl

theorem policyLoad_unsigned (hs : (s.tile h.tile).die.bundleSigned b = false) :
    exec (.policyLoad h b) s = .next (s.complete h 0x12 0x1F 0) := by
  rw [exec_policyLoad, execPolicyLoad, onCmd_of_due hd]
  simp [hf, hl.not_gt, hs]

theorem policyLoad_broken {r i : Nat} (hs : (s.tile h.tile).die.bundleSigned b = true)
    (hb : (s.tile h.tile).bundleBroken b = some (r, i)) :
    exec (.policyLoad h b) s = .next (s.complete h 0x12 0x14 r (leBytes 1 i)) := by
  rw [exec_policyLoad, execPolicyLoad, onCmd_of_due hd]
  simp [hf, hl.not_gt, hs, hb]

theorem policyLoad_in_order (hs : (s.tile h.tile).die.bundleSigned b = true) (hb : (s.tile h.tile).bundleBroken b = none) :
    exec (.policyLoad h b) s = .next ((s.modDie h.tile fun d => { d with staged := some b }).complete h 0x12 0 0) := by
  rw [exec_policyLoad, execPolicyLoad, onCmd_of_due hd]
  simp [hf, hl.not_gt, hs, hb]

end policyLoad

section policyActivate

variable {s : State} {h : HostCmd} (hd : s.Due h 0x13) (ha : (s.tile h.tile).triadActs = true)
include hd ha

theorem policyActivate_nothing_staged (hs : (s.tile h.tile).die.staged = none) : exec (.policyActivate h) s =
    .next (s.complete h 0x13 (if (s.tile h.tile).door.activating.isSome then 0x17 else 0x18) 0) := by
  rw [exec_policyActivate, execPolicyActivate, onCmd_of_due hd]
  simp [ha, hs]

variable {b : List Byte} (hs : (s.tile h.tile).die.staged = some b)
include hs

/-- Under a seal code in force that the switches do not match, a bundle with other safety parameters is refused (R194): that is
recorded and completed, and no more. -/
theorem policyActivate_seal_open (hi : s.sealInForce = true) (hb : bundleSafety b ≠ (s.tile h.tile).safetySectionBytes)
    (hk : s.sealOk = false) : ∃ s', exec (.policyActivate h) s = .next s' ∧ State.Told s s' := by
  rw [exec_policyActivate, execPolicyActivate, onCmd_of_due hd]
  simp only [ha, hs, hi, bne_iff_ne.mpr hb, hk, Bool.not_true, Bool.not_false, Bool.and_true, Bool.false_eq_true, if_false, if_true]
  exact ⟨_, rfl, told_complete (told_configRecord (.refl s))⟩

variable (hk : s.sealInForce = false ∨ bundleSafety b = (s.tile h.tile).safetySectionBytes ∨ s.sealOk = true)
include hk

theorem policyActivate_while_one_waits (hw : (s.tile h.tile).door.activating.isSome = true) :
    exec (.policyActivate h) s = .next (s.complete h 0x13 0x17 0) := by
  rw [exec_policyActivate, execPolicyActivate, onCmd_of_due hd]
  rcases hk with hk | hk | hk <;> simp [ha, hs, hk, hw]

/-- Else the bundle leaves its place on the die and waits at the doorway (R334); the completion only tells. -/
theorem policyActivate_waits (hw : (s.tile h.tile).door.activating = none) : ∃ s', exec (.policyActivate h) s = .next s' ∧
    State.Told ((s.modDie h.tile fun d => { d with staged := none }).modDoor h.tile fun d => { d with activating := some (h, b) })
      s' := by
  have hseal : (s.sealInForce && bundleSafety b != (s.tile h.tile).safetySectionBytes && !s.sealOk) = false := by
    rcases hk with hk | hk | hk <;> simp [hk]
  rw [exec_policyActivate, execPolicyActivate, onCmd_of_due hd]
  simp only [ha, hs, hseal, hw, Option.isSome_none, Bool.not_true, Bool.false_eq_true, if_false]
  exact ⟨_, rfl, told_complete (.refl _)⟩

end policyActivate

/-! ### Coming into force (R32, R142, R332, R334) -/

theorem Tile.inForce_applyBundle (tl : Tile) (b : List Byte) :
    (tl.applyBundle b).inForce = (bundleValues b).foldl (fun m p => pSet m p.1 p.2) tl.inForce := by
  simp only [Tile.applyBundle]

theorem exec_policyBundleTakesEffect (t : TileId) (s : State) :
    exec (.policyBundleTakesEffect t) s = execPolicyBundleTakesEffect t s := rfl

theorem exec_tileParametersTakeEffect (t : TileId) (s : State) :
    exec (.tileParametersTakeEffect t) s = execTileParametersTakeEffect t s := rfl

theorem exec_axisParametersTakeEffect (t : TileId) (a : AxisId) (s : State) :
    exec (.axisParametersTakeEffect t a) s = execAxisParametersTakeEffect t a s := rfl

/-- An axis with the parameters of its tables taken into force as written. -/
def Axis.taken (written : SMap) (a : AxisId) (x : Axis) : Axis :=
  { x with inForce := (axisKeys a).foldl (takeIn written) x.inForce }

section takesEffect

variable {s : State} {t : TileId} (ht : s.hasTile t = true)
include ht

/-- During a pass or a calibration run the bundle waits on. -/
theorem policyBundle_waits_on {h : HostCmd} {b : List Byte} (hw : (s.tile t).door.activating = some (h, b))
    (ha : (s.tile t).triadActs = true) (hp : (s.tile t).anyPass = true ∨ (s.tile t).door.calRun = true) :
    exec (.policyBundleTakesEffect t) s = .next s := by
  rw [exec_policyBundleTakesEffect, execPolicyBundleTakesEffect, onTile_of t s _ ht]
  rcases hp with hp | hp <;> simp [hw, ha, hp]

/-- Else every value of the bundle is put in force, and what follows from that keeps it so. -/
theorem policyBundle_applied {h : HostCmd} {b : List Byte} (hw : (s.tile t).door.activating = some (h, b))
    (ha : (s.tile t).triadActs = true) (hp : (s.tile t).anyPass = false) (hc : (s.tile t).door.calRun = false) :
    ∃ s', exec (.policyBundleTakesEffect t) s = .next s' ∧ State.KeepsForce t (s.modTile t fun tl => tl.applyBundle b) s' := by
  rw [exec_policyBundleTakesEffect, execPolicyBundleTakesEffect, onTile_of t s _ ht]
  simp only [hw, ha, hp, hc, Bool.not_true, Bool.and_false, Bool.or_false, Bool.false_eq_true, if_false]
  refine ⟨_, rfl, .told ?_ (told_raise (told_configRecord (.refl _)))⟩
  refine .trans ?_ (keepsForce_sedgeRegrade t _ _)
  refine .trans ?_ (keepsForce_sedgeRebase t _ _)
  refine .trans ?_ (keepsForce_each _ _ (keepsForce_pairRefresh t) _)
  refine .trans ?_ (keepsForce_ite (keepsForce_modTile rfl rfl rfl rfl fun _ => rfl))
  exact keepsForce_each _ _ (keepsForce_soundingsCleared t) _

theorem tileParameters_wait (ha : (s.tile t).triadActs = true) (hp : (s.tile t).anyPass = true) :
    exec (.tileParametersTakeEffect t) s = .next s := by
  rw [exec_tileParametersTakeEffect, execTileParametersTakeEffect, onTile_of t s _ ht]
  simp [ha, hp]

/-- Rows 0 to 4 of table 0x11 are taken into force as written (R32). -/
theorem tileParameters_taken (ha : (s.tile t).triadActs = true) (hp : (s.tile t).anyPass = false) :
    exec (.tileParametersTakeEffect t) s = .next (s.modTile t fun tl =>
      { tl with inForce := ((List.range 5).map fun r => pKey 0x11 r 0 none).foldl (takeIn tl.written) tl.inForce }) := by
  rw [exec_tileParametersTakeEffect, execTileParametersTakeEffect, onTile_of t s _ ht]
  simp [ha, hp, List.foldl_map]

theorem axisParameters_wait {a : AxisId} (hp : (s.axis t a).pa.active = true) :
    exec (.axisParametersTakeEffect t a) s = .next s := by
  rw [exec_axisParametersTakeEffect, execAxisParametersTakeEffect, onTile_of t s _ ht]
  simp only [State.axis] at hp
  simp [hp]

/-- The keys of an axis are taken into force as written (R332); its soundings are cleared after it or not (R134). -/
theorem axisParameters_taken {a : AxisId} (hp : (s.axis t a).pa.active = false) :
    exec (.axisParametersTakeEffect t a) s = .next (s.modAxis t a (Axis.taken (s.tile t).written a)) ∨
      exec (.axisParametersTakeEffect t a) s = .next ((s.modAxis t a (Axis.taken (s.tile t).written a)).soundingsCleared t a) := by
  rw [exec_axisParametersTakeEffect, execAxisParametersTakeEffect, onTile_of t s _ ht]
  simp only [State.axis] at hp
  simp only [hp, Bool.false_eq_true, if_false]
  split
  · exact .inr rfl
  · exact .inl rfl

/-- Either way, of the axes only this one differs, and in its position and motion it does not; the field die stands. -/
theorem axisParameters_taken_frame {a : AxisId} (hp : (s.axis t a).pa.active = false) :
    ∃ s', exec (.axisParametersTakeEffect t a) s = .next s' ∧
      (s'.axis t a).inForce = (axisKeys a).foldl (takeIn (s.tile t).written) (s.axis t a).inForce ∧
      (s'.axis t a).fb = (s.axis t a).fb ∧ (s'.axis t a).mo = (s.axis t a).mo ∧ (∀ b, b ≠ a → s'.axis t b = s.axis t b) ∧
      (s'.tile t).field = (s.tile t).field := by
  rcases axisParameters_taken ht hp with h | h
  · refine ⟨_, h, ?_⟩
    simp +contextual [State.axis_modAxis_eq_ite, Axis.taken]
  · refine ⟨_, h, ?_⟩
    simp +contextual [State.axis_soundingsCleared, State.axis_modAxis_eq_ite, Axis.taken]

end takesEffect

/-- Settles O56, by the lemmas on loading, activating and coming into force above. -/
theorem policyBundlesAreStagedAndTakeEffect : Obligations.PolicyBundlesAreStagedAndTakeEffect := by
  unfold Obligations.PolicyBundlesAreStagedAndTakeEffect
  intro s t ht
  refine ⟨?load, ?activate, ?bundle, ?tile, ?axis⟩
  case load =>
    rintro h b rfl hd hf hl
    exact ⟨policyLoad_unsigned hd hf hl, fun _ _ => policyLoad_broken hd hf hl, policyLoad_in_order hd hf hl⟩
  case activate =>
    rintro h rfl hd ha
    refine ⟨policyActivate_nothing_staged hd ha, fun b hs => ⟨fun hi hb hk => ?_, fun hk => ⟨?_, fun hw => ?_⟩⟩⟩
    · obtain ⟨s', hs', told⟩ := policyActivate_seal_open hd ha hs hi hb hk
      exact ⟨s', hs', told.die _, by rw [told.door], told.inForce _⟩
    · exact policyActivate_while_one_waits hd ha hs hk
    · obtain ⟨s', hs', told⟩ := policyActivate_waits hd ha hs hk hw
      refine ⟨s', hs', ?_⟩
      rw [told.die, told.door, told.inForce]
      simp
  case bundle =>
    intro h b hw ha
    refine ⟨policyBundle_waits_on ht hw ha, fun hp hc => ?_⟩
    obtain ⟨s', hs', keeps⟩ := policyBundle_applied ht hw ha hp hc
    refine ⟨s', hs', ?_⟩
    rw [keeps.die, keeps.st, keeps.activating, keeps.inForce, State.tile_modTile_self]
    refine ⟨rfl, rfl, rfl, Tile.inForce_applyBundle _ b, rfl, fun a => ?_, fun u hu => ?_⟩
    · rw [keeps.axes a, State.axis, State.tile_modTile_self]; rfl
    · have told := keeps.others u hu
      rwa [State.tile_modTile, if_neg hu] at told
  case tile =>
    intro ha
    refine ⟨tileParameters_wait ht ha, fun hp hwf => ⟨_, tileParameters_taken ht ha hp, ?_, fun r hr => ?_, ?_⟩⟩
    · rw [State.tile_modTile_self]
      exact State.modTile_congr s t _ _ rfl
    · rw [State.tile_modTile_self, Tile.par, pGet_foldl_takeIn _ _ _ _ hwf, if_pos (by simpa using ⟨r, hr, rfl⟩)]
    · rw [State.tile_modTile_self, Tile.par, pGet_foldl_takeIn _ _ _ _ hwf, if_neg (by decide)]
      rfl
  case axis =>
    intro a
    refine ⟨axisParameters_wait ht, fun hp hwf => ?_⟩
    obtain ⟨s', hs', hin, hframe⟩ := axisParameters_taken_frame ht hp
    refine ⟨s', hs', fun k hk => ?_, hframe⟩
    rw [hin, pGet_foldl_takeIn _ _ _ _ hwf, if_pos hk]

end Sys2Proof.Machine
end

section
/-!
PROOFS. What an event or a log record leaves beside what State.Told says: the commands in the host interface and in the mailboxes stand, and
entries are held only while the service core is absent (R311, R348, R352).
-/

namespace Sys2Proof.Machine

/-- Of the host interface only the event rings and the pending interrupts differ, of a tile only its log, in which the held entries stand
while its service core is present. -/
structure State.Logged (s s' : State) : Prop where
  host  : s'.head.host = { s.head.host with evt := s'.head.host.evt, pba := s'.head.host.pba }
  tiles : ∀ u, s'.tile u = { s.tile u with peat := (s'.tile u).peat }
  held  : ∀ u, (s.tile u).die.svc = true → (s'.tile u).peat.held = (s.tile u).peat.held

section logged

variable {s0 s s' s'' : State}

theorem State.Logged.refl (s : State) : State.Logged s s := ⟨rfl, fun _ => rfl, fun _ _ => rfl⟩

theorem State.Logged.die (h : State.Logged s s') (u : TileId) : (s'.tile u).die = (s.tile u).die := by rw [h.tiles u]

theorem State.Logged.trans (h : State.Logged s s') (k : State.Logged s' s'') : State.Logged s s'' := by
  refine ⟨?_, fun u => ?_, fun u hu => ?_⟩
  · have e := k.host
    rw [h.host] at e
    exact e
  · have e := k.tiles u
    rw [h.tiles u] at e
    exact e
  · rw [k.held u (by rw [h.die]; exact hu), h.held u hu]

theorem State.Logged.outstanding (h : State.Logged s s') : s'.head.host.outstanding = s.head.host.outstanding := by rw [h.host]

theorem State.Logged.door (h : State.Logged s s') (u : TileId) : (s'.tile u).door = (s.tile u).door := by rw [h.tiles u]

theorem logged_ite {c : Prop} [Decidable c] {a b : State} (ha : State.Logged s a) (hb : State.Logged s b) :
    State.Logged s (if c then a else b) := by
  split
  · exact ha
  · exact hb

theorem logged_else {c : Prop} [Decidable c] {a b : State} (ha : State.Logged s0 a) (hb : State.Logged s0 a → State.Logged s0 b) :
    State.Logged s0 (if c then a else b) := logged_ite ha (hb ha)

theorem logged_each {α : Type} {l : List α} {f : State → α → State} (h : State.Logged s0 s)
    (hf : ∀ s a, State.Logged s0 s → State.Logged s0 (f s a)) : State.Logged s0 (s.each l f) := by
  induction l generalizing s with
  | nil => exact h
  | cons a l ih => exact ih (hf s a h)

theorem logged_modHost {f : HostIf → HostIf} (h : State.Logged s0 s)
    (e : f s.head.host = { s.head.host with evt := (f s.head.host).evt, pba := (f s.head.host).pba }) :
    State.Logged s0 (s.modHost f) := h.trans ⟨e, fun _ => rfl, fun _ _ => rfl⟩

theorem logged_modHead {f : Head → Head} (h : State.Logged s0 s) (e : (f s.head).host = s.head.host) :
    State.Logged s0 (s.modHead f) := h.trans ⟨by rw [State.modHead, e], fun _ => rfl, fun _ _ => rfl⟩

theorem logged_emit {o : Output} (h : State.Logged s0 s) : State.Logged s0 (s.emit o) :=
  h.trans ⟨rfl, fun _ => rfl, fun _ _ => rfl⟩

theorem logged_dma {a : Nat} {bs : List Byte} (h : State.Logged s0 s) : State.Logged s0 (s.dma a bs) :=
  h.trans ⟨rfl, fun _ => rfl, fun _ _ => rfl⟩

theorem logged_modPeat {t : TileId} {f : Peat → Peat} (h : State.Logged s0 s)
    (e : (s.tile t).die.svc = true → (f (s.tile t).peat).held = (s.tile t).peat.held) : State.Logged s0 (s.modPeat t f) := by
  refine h.trans ⟨rfl, fun u => ?_, fun u hu => ?_⟩
  · rw [State.modPeat, State.tile_modTile]; split <;> rfl
  · rw [State.modPeat, State.tile_modTile]
    split
    case isTrue h => subst h; exact e hu
    case isFalse => rfl

/-! ### The event rings (R310 to R312, R371) -/

theorem logged_signal {v : Nat} (h : State.Logged s0 s) : State.Logged s0 (s.signal v) :=
  logged_ite (logged_modHost h rfl) (logged_emit h)

theorem logged_bwkSend {k : Nat} {pl : BwkPayload} (h : State.Logged s0 s) : State.Logged s0 (s.bwkSend k pl) := by
  unfold State.bwkSend
  split
  · exact logged_emit h
  · exact h

theorem logged_evtPut {e : Fin 8} {id : Nat} {ts : Word} {data : List Byte} {urgent mark : Bool} (h : State.Logged s0 s) :
    State.Logged s0 (s.evtPut e id ts data urgent mark) := by
  unfold State.evtPut
  refine logged_ite h (logged_ite (logged_modHost h rfl) (logged_ite (logged_signal ?_) ?_))
  all_goals exact logged_modHost (logged_dma h) rfl

theorem logged_evtSend {e : Fin 8} {id : Nat} {ts : Word} {data : List Byte} {urgent : Bool} (h : State.Logged s0 s) :
    State.Logged s0 (s.evtSend e id ts data urgent) := logged_evtPut (logged_ite (logged_evtPut h) h)

theorem logged_eventOut {src : Option TileId} {code : Nat} {ts : Word} {data : List Byte} (h : State.Logged s0 s) :
    State.Logged s0 (s.eventOut src code ts data) := by
  unfold State.eventOut
  refine logged_ite h (logged_ite (logged_ite (logged_each h fun s e h => ?_) h) (logged_ite (logged_bwkSend h) h))
  exact logged_ite (logged_evtSend h) h

/-! ### The log (R344 to R355) -/

theorem logged_openEntry {t : TileId} {id : Nat} {ts : Word} {data : List Byte} {src : Option Source} (h : State.Logged s0 s) :
    State.Logged s0 (s.openEntry t id ts data src) := logged_modPeat h fun _ => rfl

theorem logged_logHighCheck (h : State.Logged s0 s) : State.Logged s0 s.logHighCheck :=
  logged_ite h (logged_ite (logged_eventOut (logged_openEntry (logged_modHead h rfl))) (logged_modHead h rfl))

theorem logged_peatStore {t : TileId} {type : Nat} {src : Source} {body : List Byte} {flags : Nat} (h : State.Logged s0 s) :
    State.Logged s0 (s.peatStore t type src body flags) := by
  unfold State.peatStore
  refine logged_ite (logged_logHighCheck (logged_modHead ?_ rfl)) ?_
  all_goals exact logged_modPeat h fun _ => rfl

theorem logged_peatLose {t : TileId} {type : Nat} {full : Bool} (h : State.Logged s0 s) :
    State.Logged s0 (s.peatLose t type full) := by
  unfold State.peatLose
  refine logged_ite ?_ (logged_eventOut (logged_openEntry ?_))
  all_goals exact logged_modPeat h fun _ => rfl

theorem logged_peatToFlash {t : TileId} {b sector : Nat} (h : State.Logged s0 s) : State.Logged s0 (s.peatToFlash t b sector) := by
  unfold State.peatToFlash
  exact logged_modHead (logged_modPeat h fun _ => rfl) rfl

theorem logged_peatRoom {t : TileId} (h : State.Logged s0 s) : State.Logged s0 (s.peatRoom t) := by
  unfold State.peatRoom
  refine logged_ite h ?_
  split
  · exact logged_peatToFlash h
  · exact h

theorem logged_peatFree {t : TileId} {bs : List Nat} (h : State.Logged s0 s) : State.Logged s0 (s.peatFree t bs) :=
  logged_eventOut (logged_openEntry (logged_modHead (logged_modPeat h fun _ => rfl) rfl))

theorem logged_peatWrap {t : TileId} (h : State.Logged s0 s) : State.Logged s0 (s.peatWrap t) := by
  unfold State.peatWrap
  dsimp only
  split
  · exact logged_peatFree h
  · refine logged_ite (logged_peatFree ?_) (logged_each ?_ fun s b h => logged_peatToFlash h)
    all_goals exact logged_modHead (logged_peatFree h) rfl

theorem logged_peatPut {t : TileId} {type : Nat} {src : Source} {body : List Byte} {flags : Nat} (h : State.Logged s0 s) :
    State.Logged s0 (s.peatPut t type src body flags) := by
  unfold State.peatPut
  refine logged_ite (logged_peatLose (logged_peatRoom h)) (logged_peatStore ?_)
  refine logged_else (logged_else (logged_else ?_ fun h => ?_) fun h => ?_) fun h => ?_
  · exact logged_ite (logged_peatWrap (logged_peatRoom h)) (logged_peatRoom h)
  · exact logged_modPeat (logged_peatStore h) fun _ => rfl
  · exact logged_peatStore (logged_modPeat h fun _ => rfl)
  · exact logged_modPeat (logged_peatStore h) fun _ => rfl

theorem logged_closeEvents {t : TileId} {flags : Nat} (h : State.Logged s0 s) : State.Logged s0 (s.closeEvents t flags) :=
  logged_ite h (logged_peatPut (logged_modPeat h fun _ => rfl))

theorem logged_logEvent {t : TileId} {id : Nat} {ts : Word} {data : List Byte} {src : Option Source} (h : State.Logged s0 s) :
    State.Logged s0 (s.logEvent t id ts data src) := by
  unfold State.logEvent
  dsimp only
  split
  case isTrue => exact logged_ite (logged_closeEvents (logged_openEntry h)) (logged_openEntry h)
  case isFalse hsvc => exact logged_ite (logged_modPeat h fun k => absurd k hsvc) (logged_peatLose h)

theorem logged_raise {t : TileId} {code : Nat} {data : List Byte} {logged : Bool} {src : Option Source} (h : State.Logged s0 s) :
    State.Logged s0 (s.raise t code data logged src) :=
  logged_eventOut (logged_ite (logged_logEvent h) h)

end logged

/-! ### The service core (R27, R320, R352) -/

theorem State.outstanding_bwkKeep (s : State) (r : BwkRef) (pl : BwkPayload) :
    (s.bwkKeep r pl).head.host.outstanding = s.head.host.outstanding := (logged_bwkSend (.refl s)).outstanding

theorem State.door_bwkKeep (s : State) (r : BwkRef) (pl : BwkPayload) (u : TileId) :
    ((s.bwkKeep r pl).tile u).door = (s.tile u).door := (logged_bwkSend (.refl s)).door u

/-- A part of the state that every step of a run leaves stands after the run. -/
theorem State.each_keeps {α β : Type} {g : State → β} {f : State → α → State} (hf : ∀ s a, g (f s a) = g s) (l : List α) (s : State) :
    g (s.each l f) = g s := by
  induction l generalizing s with
  | nil => rfl
  | cons a l ih => rw [State.each_cons, ih, hf]

/-- The commands that stood in a tile's service core are lost, and its mailbox is empty. -/
theorem State.outstanding_loseCommands (s : State) (t : TileId) : (s.loseCommands t).head.host.outstanding =
    (s.head.host.outstanding.filter fun o => !(o.remote && s.standsAt t o)).map fun o =>
      if s.standsAt t o then { o with lost := true } else o := by
  unfold State.loseCommands
  dsimp only
  split
  · rfl
  · rw [State.each_keeps (g := fun s => s.head.host.outstanding) fun s o => State.outstanding_bwkKeep s _ _]
    rfl

theorem State.mailbox_loseCommands (s : State) (t : TileId) : ((s.loseCommands t).tile t).door.mailbox = [] := by
  unfold State.loseCommands
  dsimp only
  split
  · rw [State.door_modDoor]
  · rw [State.each_keeps (g := fun s => (s.tile t).door.mailbox) fun s o => by rw [State.door_bwkKeep], State.door_modDoor]

theorem lost_of_mem_loseCommands {s : State} {t : TileId} {o : Outstanding}
    (ho : o ∈ (s.loseCommands t).head.host.outstanding) (hs : s.standsAt t o = true) : o.lost = true := by
  rw [State.outstanding_loseCommands] at ho
  obtain ⟨x, -, rfl⟩ := List.mem_map.mp ho
  by_cases hx : s.standsAt t x = true
  · rw [if_pos hx]
  · rw [if_neg hx] at hs
    exact absurd hs hx

theorem logged_writeHeld {s0 s : State} {t : TileId} {e : Nat × Source × List Byte} (h : State.Logged s0 s) :
    State.Logged s0 (s.writeHeld t e) := by
  unfold State.writeHeld
  refine logged_ite (logged_ite (logged_closeEvents ?_) ?_) (logged_peatPut (logged_closeEvents h))
  all_goals exact logged_modPeat h fun _ => rfl

theorem told_writeHeld {s0 s : State} {t : TileId} {e : Nat × Source × List Byte} (h : State.Told s0 s) :
    State.Told s0 (s.writeHeld t e) := by
  unfold State.writeHeld
  refine told_ite (fun _ => told_ite (fun _ => told_closeEvents ?_) fun _ => ?_) fun _ => told_peatPut (told_closeEvents h)
  all_goals exact told_modPeat h

theorem told_writeAllHeld {s0 s : State} {t : TileId} (h : State.Told s0 s) : State.Told s0 (s.writeAllHeld t) := by
  have written {l : List (Nat × Source × List Byte)} {f : Peat → Peat} :
      State.Told s0 ((s.modPeat t f).each l fun s e => s.writeHeld t e) := told_each (told_modPeat h) fun _ _ => told_writeHeld
  unfold State.writeAllHeld
  refine told_ite (fun _ => written) fun _ => told_ite (fun _ => ?_) fun _ => told_modPeat (told_peatStore ?_)
  all_goals exact told_peatRoom (told_modPeat (told_closeEvents written))

/-- Without losses the held entries are all written, and none is held again, for the service core is present. -/
theorem held_writeAllHeld {s : State} {t : TileId} (hsvc : (s.tile t).die.svc = true)
    (hl : (s.tile t).peat.lostCount.toList.sum = 0) : ((s.writeAllHeld t).tile t).peat.held = [] := by
  unfold State.writeAllHeld
  rw [if_pos hl]
  have written (s : State) (l : List (Nat × Source × List Byte)) : State.Logged s (s.each l fun s e => s.writeHeld t e) :=
    logged_each (.refl s) fun _ _ => logged_writeHeld
  rw [(written _ _).held t (by rw [State.modPeat, State.tile_modTile_self]; exact hsvc), State.peat_modPeat]

/-- A service core that goes: its commands are lost with it, its die's record changes as given, and an event tells of it. -/
theorem svcGone {s s' : State} {t : TileId} {d : Die → Die} {code : Nat} {data : List Byte}
    (hs : s' = ((s.loseCommands t).modDie t d).raise t code data) :
    (s'.tile t).die = d (s.tile t).die ∧ (s'.tile t).door.mailbox = [] ∧
      (∀ o ∈ s'.head.host.outstanding, s.standsAt t o = true → o.lost = true) ∧
      (s'.tile t).field = (s.tile t).field ∧ (s'.tile t).triad = (s.tile t).triad ∧ (s'.tile t).ax = (s.tile t).ax := by
  have hlost := told_loseCommands (t := t) (State.Told.refl s)
  have hlog : State.Logged ((s.loseCommands t).modDie t d) s' := hs ▸ logged_raise (.refl _)
  have htile := hlog.tiles t
  rw [State.modDie, State.tile_modTile_self] at htile
  refine ⟨?_, ?_, fun o ho hst => ?_, ?_, ?_, ?_⟩
  · rw [htile, ← hlost.die t]
  · rw [htile, ← s.mailbox_loseCommands t]
  · rw [hlog.outstanding] at ho
    exact lost_of_mem_loseCommands ho hst
  · rw [htile, ← hlost.field t]
  · rw [htile, ← hlost.triad t]
  · rw [htile, ← hlost.ax t]

theorem exec_svcHeartbeat (t : TileId) (s : State) : exec (.svcHeartbeat t) s = execSvcHeartbeat t s := rfl

theorem exec_svcHeartbeatMissed (t : TileId) (now : Nat) (s : State) :
    exec (.svcHeartbeatMissed t now) s = execSvcHeartbeatMissed t now s := rfl

theorem exec_svcReturn (t : TileId) (s : State) : exec (.svcReturn t) s = execSvcReturn t s := rfl

@[simp] theorem State.tile_at (s : State) (now : Nat) (t : TileId) : (s.at now).tile t = s.tile t := rfl

section serviceCore

variable {s : State} {t : TileId} (ht : s.hasTile t = true)
include ht

theorem svcHeartbeatMissed_counts {now : Nat} (hr : (s.tile t).triadRuns = true) (ho : (s.tile t).die.svcOff = false)
    (hm : (s.tile t).die.svcMissed < 2) : exec (.svcHeartbeatMissed t now) s =
      .next ((s.at now).modDie t fun d => { d with svcMissed := d.svcMissed + 1 }) := by
  have hm' : (s.tile t).die.svcMissed + 1 < 3 := by omega
  rw [exec_svcHeartbeatMissed, execSvcHeartbeatMissed, onTile_of t s _ ht]
  simp [hr, ho, hm']

/-- The third missed heartbeat in a row restarts the core, or leaves it off. -/
theorem svcHeartbeatMissed_third {now : Nat} (hr : (s.tile t).triadRuns = true) (ho : (s.tile t).die.svcOff = false)
    (hm : (s.tile t).die.svcMissed ≥ 2) :
    let recent := (s.tile t).die.svcRestarts.filter fun i => decide ((s.at now).now < i + 600000000000)
    exec (.svcHeartbeatMissed t now) s = .next (if recent.length ≥ 3 then
      (((s.at now).loseCommands t).modDie t fun d =>
        { d with svc := false, svcMissed := 0, svcOff := true, svcRestarts := recent }).raise t 0x75 (leBytes 1 2)
      else (((s.at now).loseCommands t).modDie t fun d =>
        { d with svc := false, svcMissed := 0, svcRestarts := recent ++ [(s.at now).now] }).raise t 0x75 (leBytes 1 1)) := by
  have hm' : ¬ (s.tile t).die.svcMissed + 1 < 3 := by omega
  rw [exec_svcHeartbeatMissed, execSvcHeartbeatMissed, onTile_of t s _ ht]
  simp [hr, ho, hm']

theorem svcReturn_writes (hs : (s.tile t).die.svc = false) (ho : (s.tile t).die.svcOff = false)
    (hr : (s.tile t).die.inReset = false) : exec (.svcReturn t) s =
      .next ((s.modDie t fun d => { d with svc := true, svcMissed := 0 }).writeAllHeld t) := by
  rw [exec_svcReturn, execSvcReturn, onTile_of t s _ ht]
  simp [hs, ho, hr]

end serviceCore

/-- Settles O35, by the lemmas on a core that goes and on the held entries that its return writes. -/
theorem serviceCoreComesAndGoes : Obligations.ServiceCoreComesAndGoes := by
  unfold Obligations.ServiceCoreComesAndGoes
  intro s t ht
  refine ⟨?beat, fun now hr ho => ⟨svcHeartbeatMissed_counts ht hr ho, fun hm => ?third⟩, fun hs ho hr => ?comesBack⟩
  case beat => rw [exec_svcHeartbeat, execSvcHeartbeat, onTile_of t s _ ht]
  case third =>
    intro recent
    refine ⟨_, svcHeartbeatMissed_third ht hr ho hm, ?_⟩
    by_cases hn : recent.length ≥ 3
    · obtain ⟨hdie, hrest⟩ := svcGone (if_pos hn)
      rw [hdie]
      exact ⟨rfl, rfl, hrest.1, (decide_eq_true hn).symm, hrest.2⟩
    · obtain ⟨hdie, hrest⟩ := svcGone (if_neg hn)
      rw [hdie]
      exact ⟨rfl, rfl, hrest.1, ho.trans (decide_eq_false hn).symm, hrest.2⟩
  case comesBack =>
    have told := told_writeAllHeld (t := t) (.refl (s.modDie t fun d => { d with svc := true, svcMissed := 0 }))
    refine ⟨_, svcReturn_writes ht hs ho hr, ?_, ?_, ?_, ?_, ?_, fun hl => held_writeAllHeld ?_ ?_⟩
    · rw [told.die, State.die_modDie]
    · rw [told.die, State.die_modDie]
    · rw [told.field, State.modDie, State.tile_modTile_self]
    · rw [told.triad, State.modDie, State.tile_modTile_self]
    · rw [told.ax, State.modDie, State.tile_modTile_self]
    · rw [State.die_modDie]
    · rw [State.modDie, State.tile_modTile_self]; exact hl

end Sys2Proof.Machine
end

section
/-!
PROOFS. Beside telling, only one tile differs; and what the motion engine and the doorway leave on it: a step of theirs changes its axes, doorway,
link and log, but no measure and no fabric of an axis, and takes parameters into force only as written (R47, R97, R108, R135).
-/

namespace Sys2Proof.Machine

/-! ### Beside telling, only one tile differs -/

section onlyTile

variable {s s' s'' : State} {t : TileId}

theorem State.Told.modTile (h : State.Told s s') (t : TileId) (x : Tile) :
    State.Told (s.modTile t fun _ => x) (s'.modTile t fun _ => x) := by
  refine ⟨h.part, h.windows, h.supply, h.draws, h.pending, h.head, fun u => ?_⟩
  rw [State.tile_modTile, State.tile_modTile]
  split
  · exact Tile.Told.refl x
  · exact h.tiles u

theorem State.modTile_self (s : State) (t : TileId) : (s.modTile t fun _ => s.tile t) = s := State.modTile_id s t

theorem State.OnlyTile.refl (s : State) (t : TileId) : s.OnlyTile s t := by
  rw [State.OnlyTile, State.modTile_self]
  exact .refl s

theorem State.OnlyTile.trans (h : s.OnlyTile s' t) (k : s'.OnlyTile s'' t) : s.OnlyTile s'' t := by
  have h' := State.Told.modTile h t (s''.tile t)
  rw [State.modTile_modTile] at h'
  exact h'.trans k

theorem State.Told.onlyTile (h : State.Told s s') (t : TileId) : s.OnlyTile s' t := by
  have h' := h.modTile t (s'.tile t)
  rwa [State.modTile_self] at h'

theorem onlyTile_modTile (s : State) (t : TileId) (f : Tile → Tile) : s.OnlyTile (s.modTile t f) t := by
  rw [State.OnlyTile, State.tile_modTile_self]
  exact .refl _

theorem State.OnlyTile.others (h : s.OnlyTile s' t) (u : TileId) (hu : u ≠ t) : Tile.Told (s.tile u) (s'.tile u) := by
  have e := State.Told.tiles h u
  rwa [State.tile_modTile, if_neg hu] at e

end onlyTile

/-! ### Frames: what a step leaves of its tile -/

/-- The measures and the fabric of an axis stand. -/
structure Axis.Engine (x y : Axis) : Prop where
  iq    : y.mo.iq = x.mo.iq
  speed : y.mo.speed = x.mo.speed
  vbus  : y.mo.vbus = x.mo.vbus
  sense : y.mo.senseFault = x.mo.senseFault
  fab   : y.fab = x.fab

theorem Axis.Engine.refl (x : Axis) : Axis.Engine x x := ⟨rfl, rfl, rfl, rfl, rfl⟩

theorem Axis.Engine.trans {x y z : Axis} (h : Axis.Engine x y) (k : Axis.Engine y z) : Axis.Engine x z :=
  ⟨k.iq.trans h.iq, k.speed.trans h.speed, k.vbus.trans h.vbus, k.sense.trans h.sense, k.fab.trans h.fab⟩

/-- The step that a proof test has come to stands. -/
structure Doorway.SameProof (d e : Doorway) : Prop where
  run   : e.proofRun = d.proofRun
  phase : e.proofPhase = d.proofPhase

/-- A relation of a tile before and after that the steps of the engine keep to, whatever they do to the log, to the doorway but for its
proof test, and to an axis but for its measures and its fabric. -/
structure Framing where
  rel : Tile → Tile → Prop
  refl : ∀ x, rel x x
  trans : ∀ {x y z}, rel x y → rel y z → rel x z
  door : ∀ x d p, Doorway.SameProof x.door d → rel x { x with door := d, peat := p }
  axis : ∀ x a f, (∀ y, Axis.Engine y (f y)) → rel x (x.modAxis a f)

/-- A step that, beside telling, changes its tile alone, and keeps there to a relation. -/
structure State.Frame (F : Framing) (t : TileId) (s s' : State) : Prop where
  only : s.OnlyTile s' t
  tile : F.rel (s.tile t) (s'.tile t)

theorem Framing.told (F : Framing) {x y : Tile} (h : Tile.Told x y) : F.rel x y := by
  rw [h]
  exact F.door _ _ _ ⟨rfl, rfl⟩

section frame

variable {F : Framing} {s0 s s' s'' : State} {t : TileId}

theorem State.Frame.refl (F : Framing) (t : TileId) (s : State) : State.Frame F t s s := ⟨.refl s t, F.refl _⟩

theorem State.Frame.trans (h : State.Frame F t s s') (k : State.Frame F t s' s'') : State.Frame F t s s'' :=
  ⟨h.only.trans k.only, F.trans h.tile k.tile⟩

theorem State.Frame.told (h : State.Frame F t s0 s) (k : State.Told s s') : State.Frame F t s0 s' :=
  h.trans ⟨k.onlyTile t, F.told (k.tiles t)⟩

theorem frame_modTile {f : Tile → Tile} (h : State.Frame F t s0 s) (hf : F.rel (s.tile t) (f (s.tile t))) :
    State.Frame F t s0 (s.modTile t f) := h.trans ⟨onlyTile_modTile s t f, by rwa [State.tile_modTile_self]⟩

theorem frame_modDoor {f : Doorway → Doorway} (h : State.Frame F t s0 s) (hf : ∀ d, Doorway.SameProof d (f d)) :
    State.Frame F t s0 (s.modDoor t f) := frame_modTile h (F.door _ _ _ (hf _))

theorem frame_modAxis {a : AxisId} {f : Axis → Axis} (h : State.Frame F t s0 s) (hf : ∀ x, Axis.Engine x (f x)) :
    State.Frame F t s0 (s.modAxis t a f) := frame_modTile h (F.axis _ a f hf)

theorem frame_modMo {a : AxisId} {f : Motion → Motion} (h : State.Frame F t s0 s)
    (hf : ∀ m, (f m).iq = m.iq ∧ (f m).speed = m.speed ∧ (f m).vbus = m.vbus ∧ (f m).senseFault = m.senseFault) :
    State.Frame F t s0 (s.modMo t a f) :=
  frame_modAxis h fun x => ⟨(hf x.mo).1, (hf x.mo).2.1, (hf x.mo).2.2.1, (hf x.mo).2.2.2, rfl⟩

theorem frame_modPa {a : AxisId} {f : Pass → Pass} (h : State.Frame F t s0 s) : State.Frame F t s0 (s.modPa t a f) :=
  frame_modAxis h fun _ => ⟨rfl, rfl, rfl, rfl, rfl⟩

theorem frame_modFb {a : AxisId} {f : Feedback → Feedback} (h : State.Frame F t s0 s) : State.Frame F t s0 (s.modFb t a f) :=
  frame_modAxis h fun _ => ⟨rfl, rfl, rfl, rfl, rfl⟩

theorem frame_ite {c : Prop} [Decidable c] {a b : State} (ha : State.Frame F t s a) (hb : State.Frame F t s b) :
    State.Frame F t s (if c then a else b) := by
  split
  · exact ha
  · exact hb

theorem frame_else {c : Prop} [Decidable c] {a b : State} (ha : State.Frame F t s a) (hb : State.Frame F t s a → State.Frame F t s b) :
    State.Frame F t s (if c then b else a) := frame_ite (hb ha) ha

theorem frame_each {α : Type} {l : List α} {f : State → α → State} (h : State.Frame F t s0 s)
    (hf : ∀ s a, State.Frame F t s0 s → State.Frame F t s0 (f s a)) : State.Frame F t s0 (s.each l f) := by
  induction l generalizing s with
  | nil => exact h
  | cons a l ih => exact ih (hf s a h)

theorem frame_raise {code : Nat} {data : List Byte} {logged : Bool} {src : Option Source} (h : State.Frame F t s0 s) :
    State.Frame F t s0 (s.raise t code data logged src) := h.told (told_raise (.refl s))

theorem frame_peatEntry {type : Nat} {src : Source} {body : List Byte} (h : State.Frame F t s0 s) :
    State.Frame F t s0 (s.peatEntry t type src body) := h.told (told_peatEntry (.refl s))

/-! ### Soundings (R137, R138, R143) -/

theorem frame_auditRecords {a : AxisId} {d : Dir} (n : Nat) (l : List (List Byte)) (h : State.Frame F t s0 s) :
    State.Frame F t s0 (s.auditRecords t a d l n) := by
  induction n generalizing s l with
  | zero => exact h
  | succ n ih => exact frame_ite h (ih _ (frame_peatEntry h))

theorem frame_learnPass {a : AxisId} {d : Dir} (h : State.Frame F t s0 s) : State.Frame F t s0 (s.learnPass t a d) := by
  unfold State.learnPass
  refine frame_auditRecords 16 _ ?_
  refine List.foldlRecOn (motive := fun acc : State × List (List Byte) => State.Frame F t s0 acc.1) _ _ h fun acc hacc b _ => ?_
  refine frame_else (frame_else (frame_modAxis hacc fun _ => ⟨rfl, rfl, rfl, rfl, rfl⟩) frame_raise) frame_raise

theorem frame_shadowJudge {a : AxisId} {d : Dir} {m : Nat} (h : State.Frame F t s0 s) :
    State.Frame F t s0 (s.shadowJudge t a d m) := by
  unfold State.shadowJudge
  refine frame_ite (frame_raise (frame_modDoor (frame_each h fun s x h => ?_) fun _ => ⟨rfl, rfl⟩))
    (frame_ite (frame_raise (frame_modDoor h fun _ => ⟨rfl, rfl⟩)) h)
  exact frame_modAxis h fun _ => ⟨rfl, rfl, rfl, rfl, rfl⟩

theorem frame_shadowPass {a : AxisId} {d : Dir} {clean : Bool} (h : State.Frame F t s0 s) :
    State.Frame F t s0 (s.shadowPass t a d clean) := by
  unfold State.shadowPass
  split
  · exact frame_shadowJudge (frame_modAxis h fun _ => ⟨rfl, rfl, rfl, rfl, rfl⟩)
  · exact h

/-! ### Passes and trips (R59, R97, R99, R121) -/

theorem frame_notClean {a : AxisId} (h : State.Frame F t s0 s) : State.Frame F t s0 (s.notClean t a) := frame_modPa h

theorem frame_noneClean (h : State.Frame F t s0 s) : State.Frame F t s0 (s.noneClean t) := frame_each h fun _ _ => frame_notClean

theorem frame_endPass {a : AxisId} {atRest : Bool} (h : State.Frame F t s0 s) : State.Frame F t s0 (s.endPass t a atRest) := by
  unfold State.endPass
  refine frame_ite h (frame_modAxis (frame_modDoor ?_ fun d => ?_) fun _ => ⟨rfl, rfl, rfl, rfl, rfl⟩)
  case refine_2 =>
    dsimp only
    split_ifs <;> exact ⟨rfl, rfl⟩
  refine frame_else (frame_else (frame_else h frame_learnPass) frame_shadowPass) fun h => ?_
  exact frame_modAxis h fun _ => ⟨rfl, rfl, rfl, rfl, rfl⟩

theorem frame_noteTrip {a : AxisId} {src : BitVec 16} (h : State.Frame F t s0 s) : State.Frame F t s0 (s.noteTrip t a src) := by
  unfold State.noteTrip
  exact frame_modMo h fun _ => ⟨rfl, rfl, rfl, rfl⟩

theorem frame_engineTrip {a : AxisId} {src : BitVec 16} (h : State.Frame F t s0 s) : State.Frame F t s0 (s.engineTrip t a src) :=
  frame_modMo (frame_noteTrip h) fun _ => ⟨rfl, rfl, rfl, rfl⟩

theorem frame_triadTrip {a : AxisId} {src : BitVec 16} (h : State.Frame F t s0 s) : State.Frame F t s0 (s.triadTrip t a src) := by
  unfold State.triadTrip
  exact frame_modMo (frame_else h frame_noteTrip) fun _ => ⟨rfl, rfl, rfl, rfl⟩

theorem frame_recordTrip {a : AxisId} {n : TripNote} (h : State.Frame F t s0 s) : State.Frame F t s0 (s.recordTrip t a n) :=
  frame_raise (frame_modMo h fun _ => ⟨rfl, rfl, rfl, rfl⟩)

theorem frame_driveBusEvent {a : AxisId} {cause : Nat} (h : State.Frame F t s0 s) : State.Frame F t s0 (s.driveBusEvent t a cause) :=
  frame_raise h

theorem frame_tripEvent {a : AxisId} (h : State.Frame F t s0 s) : State.Frame F t s0 (s.tripEvent t a) := by
  unfold State.tripEvent
  dsimp only
  split
  · exact h
  · have step : ∀ {s}, State.Frame F t s0 s → ∀ {c : Prop} [Decidable c],
        State.Frame F t s0 (if c then s.modDoor t fun d => { d with stepStopped := true } else s) :=
      fun h _ _ => frame_else h fun h => frame_modDoor h fun _ => ⟨rfl, rfl⟩
    refine frame_ite (step ?_) (frame_modDoor (step ?_) fun _ => ⟨rfl, rfl⟩)
    all_goals
      refine frame_recordTrip (frame_modMo (frame_ite (frame_noneClean h) (frame_endPass (frame_noneClean h))) ?_)
      exact fun _ => ⟨rfl, rfl, rfl, rfl⟩

/-! ### Moves (R47, R54, R58, R60) -/

theorem frame_refuseMove {a : AxisId} (h : State.Frame F t s0 s) : State.Frame F t s0 (s.refuseMove t a) :=
  frame_modDoor h fun _ => ⟨rfl, rfl⟩

theorem frame_stopMove {a : AxisId} (h : State.Frame F t s0 s) : State.Frame F t s0 (s.stopMove t a) :=
  frame_modMo h fun _ => ⟨rfl, rfl, rfl, rfl⟩

theorem frame_brakeAxis {a : AxisId} (h : State.Frame F t s0 s) : State.Frame F t s0 (s.brakeAxis t a) :=
  frame_modMo (frame_endPass h) fun _ => ⟨rfl, rfl, rfl, rfl⟩

theorem frame_holdAxis {a : AxisId} (h : State.Frame F t s0 s) : State.Frame F t s0 (s.holdAxis t a) :=
  frame_ite (frame_stopMove h) (frame_ite (frame_modDoor h fun _ => ⟨rfl, rfl⟩)
    (frame_ite (frame_modMo h fun _ => ⟨rfl, rfl, rfl, rfl⟩) h))

theorem frame_forceTrip {a : AxisId} {sat : Bool} (h : State.Frame F t s0 s) : State.Frame F t s0 (s.forceTrip t a sat) :=
  frame_ite (frame_ite h (frame_modMo (frame_stopMove h) fun _ => ⟨rfl, rfl, rfl, rfl⟩)) (frame_engineTrip h)

/-! ### Stakes (R95, R98 to R101, R105) -/

theorem frame_fireStake {a : AxisId} {d : Dir} {i : Nat} {replay : Bool} (h : State.Frame F t s0 s) :
    State.Frame F t s0 (s.fireStake t a d i replay) := by
  unfold State.fireStake
  refine frame_ite ?_ (frame_modDoor ?_ fun _ => ⟨rfl, rfl⟩)
  all_goals exact frame_else (frame_modMo h fun _ => ⟨rfl, rfl, rfl, rfl⟩) frame_modPa

theorem frame_armTable {a : AxisId} {d : Dir} (h : State.Frame F t s0 s) : State.Frame F t s0 (s.armTable t a d) :=
  frame_each h fun _ _ h => frame_ite (frame_modPa h) (frame_ite (frame_fireStake h) h)

theorem frame_runTable {a : AxisId} {d : Dir} (h : State.Frame F t s0 s) : State.Frame F t s0 (s.runTable t a d) :=
  frame_each h fun _ _ h => frame_ite (frame_fireStake (frame_modPa h)) (frame_ite (frame_modPa h) h)

theorem frame_boundReached {a : AxisId} (h : State.Frame F t s0 s) : State.Frame F t s0 (s.boundReached t a) := by
  refine frame_modAxis h fun x => ?_
  split
  · dsimp only
    split_ifs <;> exact ⟨rfl, rfl, rfl, rfl, rfl⟩
  · exact .refl x

theorem frame_runStakes {a : AxisId} (h : State.Frame F t s0 s) : State.Frame F t s0 (s.runStakes t a) := by
  unfold State.runStakes
  refine frame_ite h (frame_boundReached (frame_runTable (frame_runTable (frame_ite h ?_))))
  exact frame_modPa (frame_armTable (frame_armTable h))

/-! ### The samples of the engine (R53, R54, R59, R81, R84, R87, R110, R121) -/

theorem frame_dirUpdate {a : AxisId} (h : State.Frame F t s0 s) : State.Frame F t s0 (s.dirUpdate t a) := by
  unfold State.dirUpdate
  refine frame_ite (frame_ite ?_ (.told ?_ (told_dirEvent (.refl _)))) (frame_modFb h)
  all_goals exact frame_modFb h

theorem frame_causeCleared {a : AxisId} {cause : Nat} (h : State.Frame F t s0 s) : State.Frame F t s0 (s.causeCleared t a cause) :=
  frame_modFb h

theorem frame_sampleSsi {a : AxisId} {high : Bool} (h : State.Frame F t s0 s) : State.Frame F t s0 (s.sampleSsi t a high) :=
  frame_ite h (frame_modFb h)

theorem frame_sampleExtrapolate {a : AxisId} (h : State.Frame F t s0 s) : State.Frame F t s0 (s.sampleExtrapolate t a) := by
  unfold State.sampleExtrapolate
  dsimp only
  split
  · exact frame_ite (frame_dirUpdate (frame_modFb h)) h
  · exact h

theorem frame_sampleIndex {a : AxisId} (h : State.Frame F t s0 s) : State.Frame F t s0 (s.sampleIndex t a) := by
  unfold State.sampleIndex
  split
  · exact h
  · refine frame_else (frame_causeCleared (frame_modAxis h fun x => ?_)) frame_notClean
    dsimp only
    split <;> exact ⟨rfl, rfl, rfl, rfl, rfl⟩

theorem frame_sampleBus {a : AxisId} (h : State.Frame F t s0 s) : State.Frame F t s0 (s.sampleBus t a) := by
  unfold State.sampleBus
  have hm {s : State} {f : Bridge} (h : State.Frame F t s0 s) : State.Frame F t s0 (s.modMo t a fun m => { m with bridge := f }) :=
    frame_modMo h fun _ => ⟨rfl, rfl, rfl, rfl⟩
  refine frame_ite (frame_engineTrip (frame_driveBusEvent ?_))
    (frame_ite (frame_noteTrip (frame_driveBusEvent (hm ?_))) ?_)
  all_goals exact frame_else (frame_modMo h fun _ => ⟨rfl, rfl, rfl, rfl⟩) frame_driveBusEvent

theorem frame_sampleLimit {a : AxisId} (h : State.Frame F t s0 s) : State.Frame F t s0 (s.sampleLimit t a) := by
  unfold State.sampleLimit
  dsimp only
  split
  · exact frame_else h frame_engineTrip
  · exact h

theorem frame_binLost {a : AxisId} (h : State.Frame F t s0 s) : State.Frame F t s0 (s.binLost t a) := by
  unfold State.binLost
  dsimp only
  split
  · exact h
  · exact frame_ite h (frame_raise (frame_modAxis h fun _ => ⟨rfl, rfl, rfl, rfl, rfl⟩))

theorem frame_residualTest {a : AxisId} (h : State.Frame F t s0 s) : State.Frame F t s0 (s.residualTest t a) := by
  unfold State.residualTest
  dsimp only
  split
  · exact h
  · refine frame_ite h (frame_else (frame_else (frame_modAxis h fun x => ?_) frame_forceTrip) frame_forceTrip)
    exact ⟨rfl, rfl, rfl, rfl, rfl⟩

theorem frame_traceSample {a : AxisId} (h : State.Frame F t s0 s) : State.Frame F t s0 (s.traceSample t a) :=
  frame_modAxis h fun _ => ⟨rfl, rfl, rfl, rfl, rfl⟩

theorem frame_tripRecord {a : AxisId} (h : State.Frame F t s0 s) : State.Frame F t s0 (s.tripRecord t a) :=
  frame_each (frame_modMo h fun _ => ⟨rfl, rfl, rfl, rfl⟩) fun _ _ => frame_peatEntry

theorem frame_extSample {a : AxisId} {now : Nat} (h : State.Frame F t s0 s) : State.Frame F t s0 (s.extSample t a now) := by
  unfold State.extSample
  refine frame_ite h (frame_modAxis h fun x => ?_)
  dsimp only
  split <;> exact ⟨rfl, rfl, rfl, rfl, rfl⟩

theorem frame_clampRef {a : AxisId} (h : State.Frame F t s0 s) : State.Frame F t s0 (s.clampRef t a) := by
  unfold State.clampRef
  exact frame_modMo h fun _ => ⟨rfl, rfl, rfl, rfl⟩

end frame

/-! ### The current-loop sample (R16, R53, R54, R118, R132) -/

theorem exec_currentLoopSample (t : TileId) (a : AxisId) (m : LoopSample) (now : Nat) (s : State) :
    exec (.currentLoopSample t a m now) s = execCurrentLoopSample t a m now s := rfl

@[simp] theorem State.axis_modField (s : State) (t u : TileId) (f : FieldDie → FieldDie) (b : AxisId) :
    (s.modField t f).axis u b = s.axis u b := by cases t <;> cases u <;> rfl

/-- The measures of a sample, taken over. -/
structure State.Measured (t : TileId) (a : AxisId) (m : LoopSample) (s s' : State) : Prop where
  iq    : (s'.axis t a).mo.iq = m.iq
  speed : (s'.axis t a).mo.speed = m.speed
  vbus  : (s'.axis t a).mo.vbus = m.vbus
  sense : (s'.axis t a).mo.senseFault = !m.senseOk
  fab   : (s'.axis t a).fab = { (s.axis t a).fab with overcurrent := false }
  bus   : (s'.tile t).field.busComp = ((s.tile t).field.busComp && decide (1600 < m.vbus))
  axes  : ∀ b, b ≠ a → Axis.Engine (s.axis t b) (s'.axis t b)
  tiles : ∀ u, u ≠ t → Tile.Told (s.tile u) (s'.tile u)

/-- The duty words change no measure, no fabric and nothing of the field die or of another tile; on a bridge that is not driven they are 0
(R53). -/
structure State.DutySet (t : TileId) (a : AxisId) (s s' : State) : Prop where
  axes  : ∀ b, Axis.Engine (s.axis t b) (s'.axis t b)
  duty  : (s'.axis t a).mo.bridge ≠ .driven → (s'.axis t a).mo.duty = (0, 0, 0)
  field : (s'.tile t).field = (s.tile t).field
  tiles : ∀ u, u ≠ t → s'.tile u = s.tile u

/-- The field die and the measures and fabric of every axis stand. -/
def measureFraming : Framing where
  rel x y := y.field = x.field ∧ ∀ b, Axis.Engine (x.ax.get b) (y.ax.get b)
  refl _ := ⟨rfl, fun _ => .refl _⟩
  trans h k := ⟨k.1.trans h.1, fun b => (h.2 b).trans (k.2 b)⟩
  door _ _ _ _ := ⟨rfl, fun _ => .refl _⟩
  axis x a f hf := ⟨rfl, fun b => by
    rw [Tile.modAxis, PerAxis.get_set]
    split
    case isTrue h => exact h ▸ hf _
    case isFalse => exact .refl _⟩

section sample

variable (s : State) (t : TileId) (a : AxisId) (m : LoopSample)

/-- The steps of a sample between its measures and its duty words. -/
def State.sampleSteps (now : Nat) : State :=
  let s2 := (s.sampleExtrapolate t a).tripEvent t a
  let s3 := (((s2.sampleIndex t a).sampleBus t a).sampleLimit t a).runStakes t a
  let s4 := (((if m.binEcc then s3.binLost t a else s3).residualTest t a).traceSample t a).tripRecord t a
  (s4.extSample t a now).clampRef t a

theorem frame_sampleSteps (F : Framing) (now : Nat) : State.Frame F t s (s.sampleSteps t a m now) := by
  have h3 := frame_runStakes (frame_sampleLimit (frame_sampleBus (frame_sampleIndex
    (frame_tripEvent (frame_sampleExtrapolate (State.Frame.refl F t s) (a := a)) (a := a)) (a := a)) (a := a)) (a := a)) (a := a)
  exact frame_clampRef (frame_extSample (frame_tripRecord (frame_traceSample (frame_residualTest
    (frame_else h3 frame_binLost)))))

theorem execCurrentLoopSample_used {now : Nat} (ht : s.hasTile t = true) (hu : (s.tile t).used a = true) :
    exec (.currentLoopSample t a m now) s = .next
      (((((s.at now).sampleSsi t a m.ssiHigh).sampleMeasures t a m).sampleSteps t a m now).sampleDuty t a) := by
  rw [exec_currentLoopSample, execCurrentLoopSample, onTile_of t s _ ht]
  simp only [hu, Bool.not_true, Bool.false_eq_true, if_false, State.sampleSteps]

theorem measured_sampleMeasures : State.Measured t a m s (s.sampleMeasures t a m) := by
  have hbus : (m.vbus ≤ 1600) = ¬ 1600 < m.vbus := by rw [Nat.not_lt]
  unfold State.sampleMeasures
  dsimp only
  split
  case isTrue h =>
    have hlow : ¬ 1600 < m.vbus := hbus ▸ h
    refine ⟨?_, ?_, ?_, ?_, ?_, by simp [hlow], fun b hb => ?_, fun u hu => ?_⟩
    case refine_6 => rw [State.axis_modField, State.axis_modAxis_eq_ite, if_neg hb]; exact .refl _
    case refine_7 => exact ((onlyTile_modTile s t _).trans (onlyTile_modTile _ t _)).others u hu
    all_goals rw [State.axis_modField, State.axis_modAxis]
  case isFalse h =>
    have hhigh : 1600 < m.vbus := Nat.lt_of_not_le h
    refine ⟨?_, ?_, ?_, ?_, ?_, by simp [hhigh], fun b hb => ?_, (onlyTile_modTile s t _).others⟩
    case refine_6 => rw [State.axis_modAxis_eq_ite, if_neg hb]; exact .refl _
    all_goals rw [State.axis_modAxis]

theorem dutySet_sampleDuty : State.DutySet t a s (s.sampleDuty t a) := by
  have set (s : State) {f : Motion → Motion} (hf : ∀ x, (f x).iq = x.iq ∧ (f x).speed = x.speed ∧ (f x).vbus = x.vbus ∧
      (f x).senseFault = x.senseFault) (hd : (f (s.axis t a).mo).bridge ≠ .driven → (f (s.axis t a).mo).duty = (0, 0, 0)) :
      State.DutySet t a s (s.modMo t a f) :=
    ⟨(frame_modMo (.refl measureFraming t s) hf).tile.2, by rw [State.mo_modMo]; exact hd, State.field_modAxis .., fun u hu => by
      rw [State.modMo, State.modAxis, State.tile_modTile, if_neg hu]⟩
  unfold State.sampleDuty
  split
  case isTrue h =>
    have driven : (s.axis t a).mo.bridge = .driven := by simpa using h
    obtain ⟨axes, duty, field, tiles⟩ := set s.draw.2.draw.2.draw.2 (f := fun m =>
      { m with duty := (s.draw.1, s.draw.2.draw.1, s.draw.2.draw.2.draw.1), move := m.move.map fun x => { x with fresh := false } })
      (fun _ => ⟨rfl, rfl, rfl, rfl⟩) (fun hb => absurd driven hb)
    exact ⟨axes, duty, field, tiles⟩
  case isFalse => exact set s (fun _ => ⟨rfl, rfl, rfl, rfl⟩) fun _ => rfl

end sample

/-- Settles O19: the measures are taken over, the steps of the engine leave them, and the duty words come last. -/
theorem currentLoopSampleTakesItsMeasures : Obligations.CurrentLoopSampleTakesItsMeasures := by
  unfold Obligations.CurrentLoopSampleTakesItsMeasures
  intro s t a m now ht
  refine ⟨fun hu => ?unused, fun hu => ?used⟩
  case unused =>
    rw [exec_currentLoopSample, execCurrentLoopSample, onTile_of t s _ ht]
    simp [hu]
  case used =>
    obtain ⟨ssiOnly, ssiField, ssiAxes⟩ := frame_sampleSsi (.refl measureFraming t (s.at now)) (a := a) (high := m.ssiHigh)
    have taken := measured_sampleMeasures ((s.at now).sampleSsi t a m.ssiHigh) t a m
    obtain ⟨stepsOnly, stepsField, stepsAxes⟩ :=
      frame_sampleSteps (((s.at now).sampleSsi t a m.ssiHigh).sampleMeasures t a m) t a m measureFraming now
    have duty := dutySet_sampleDuty ((((s.at now).sampleSsi t a m.ssiHigh).sampleMeasures t a m).sampleSteps t a m now) t a
    have self := (stepsAxes a).trans (duty.axes a)
    have before : ((((s.at now).sampleSsi t a m.ssiHigh).axis t a).fab) = (s.axis t a).fab := (ssiAxes a).fab
    have fab := self.fab.trans taken.fab
    refine ⟨_, execCurrentLoopSample_used s t a m ht hu, ?_, ?_, ?_, ?_, ?_, ?_, duty.duty, ?_, ?_, fun b hb => ?_, fun u hu => ?_⟩
    · exact self.iq.trans taken.iq
    · exact self.speed.trans taken.speed
    · exact self.vbus.trans taken.vbus
    · exact self.sense.trans taken.sense
    · exact congrArg Fabric.overcurrent fab
    · rw [duty.field, stepsField, taken.bus, ssiField, State.tile_at]
    · have path : _ = (s.axis t a).fab.path1 := congrArg Fabric.path1 before
      exact (congrArg Fabric.path1 fab).trans path
    · have path : _ = (s.axis t a).fab.path2 := congrArg Fabric.path2 before
      exact (congrArg Fabric.path2 fab).trans path
    · have other := (((ssiAxes b).trans (taken.axes b hb)).trans (stepsAxes b)).trans (duty.axes b)
      exact ⟨other.iq, other.vbus, other.fab⟩
    · rw [duty.tiles u hu]
      exact ((ssiOnly.others u hu).trans (taken.tiles u hu)).trans (stepsOnly.others u hu)

end Sys2Proof.Machine
end

section
/-!
PROOFS. The load switches after a refresh, and the field link: keep-alive, watchdog and frames (R16 to R18, R152, R161, R163, R187).
-/

namespace Sys2Proof.Machine

/-! ### The load switches after a refresh (R152) -/

/-- What R152 judges a channel by stands. -/
structure LsChannel.SameInputs (c d : LsChannel) : Prop where
  line    : d.line = c.line
  pin     : d.pin = c.pin
  ocLatch : d.ocLatch = c.ocLatch
  thLatch : d.thLatch = c.thLatch
  thDown  : d.thDown = c.thDown

theorem LsChannel.SameInputs.refl (c : LsChannel) : LsChannel.SameInputs c c := ⟨rfl, rfl, rfl, rfl, rfl⟩

theorem LsChannel.SameInputs.trans {c d e : LsChannel} (h : LsChannel.SameInputs c d) (k : LsChannel.SameInputs d e) :
    LsChannel.SameInputs c e :=
  ⟨k.line.trans h.line, k.pin.trans h.pin, k.ocLatch.trans h.ocLatch, k.thLatch.trans h.thLatch, k.thDown.trans h.thDown⟩

/-- The tile with other records of its channels. -/
def Tile.withLs (tl : Tile) (ls : Vector LsChannel 10) : Tile := { tl with field := { tl.field with ls := ls } }

/-- The state of a channel is judged by its own inputs, by the field die and by the parameters in force. -/
theorem Tile.lsOn_congr {x y : Tile} {ch : Fin 10} (h : LsChannel.SameInputs x.field.ls[ch] y.field.ls[ch])
    (hf : y.field = { x.field with ls := y.field.ls, io := y.field.io, force := y.field.force }) (hp : y.inForce = x.inForce) :
    y.lsOn ch = x.lsOn ch := by
  obtain ⟨line, pin, ocLatch, thLatch, thDown⟩ := h
  simp only [Tile.lsOn, Tile.lsPin, Tile.par, hp, line, pin, ocLatch, thLatch, thDown]
  rw [hf]
  rfl

theorem Tile.lsOn_withLs (tl : Tile) (ls : Vector LsChannel 10) (ch : Fin 10)
    (h : LsChannel.SameInputs tl.field.ls[ch] ls[ch]) : (tl.withLs ls).lsOn ch = tl.lsOn ch := Tile.lsOn_congr h rfl rfl

theorem Tile.LsSettled.congr {x y : Tile} (h : x.LsSettled)
    (same : ∀ ch : Fin 10, LsChannel.SameInputs x.field.ls[ch] y.field.ls[ch] ∧ (y.field.ls[ch]).isOn = (x.field.ls[ch]).isOn)
    (hf : y.field = { x.field with ls := y.field.ls, io := y.field.io, force := y.field.force }) (hp : y.inForce = x.inForce) :
    y.LsSettled := fun ch => ((same ch).2.trans (h ch)).trans (Tile.lsOn_congr (same ch).1 hf hp).symm

/-- Channel records that a refresh leaves: what R152 judges by stands, and the channels of a list, and those that were, are as it says. -/
structure Tile.Settles (tl : Tile) (l : List (Fin 10)) (ls : Vector LsChannel 10) : Prop where
  same : ∀ ch : Fin 10, LsChannel.SameInputs tl.field.ls[ch] ls[ch]
  isOn : ∀ ch : Fin 10, ch ∈ l ∨ (tl.field.ls[ch]).isOn = tl.lsOn ch → (ls[ch]).isOn = tl.lsOn ch

theorem lsRefresh1_settles (s : State) (t : TileId) (restart : Bool) (ch : Fin 10) :
    ∃ ls, s.lsRefresh1 t restart ch = s.modField t (fun f => { f with ls := ls }) ∧ Tile.Settles (s.tile t) [ch] ls := by
  have settles (c : LsChannel) (h : LsChannel.SameInputs (s.tile t).field.ls[ch] c) (on : c.isOn = (s.tile t).lsOn ch) :
      Tile.Settles (s.tile t) [ch] (vset (s.tile t).field.ls ch c) := by
    refine ⟨fun j => ?_, fun j hj => ?_⟩
    all_goals
      rw [vset_get]
      split
    case refine_1.isTrue e => exact e ▸ h
    case refine_1.isFalse => exact .refl _
    case refine_2.isTrue e => exact e ▸ on
    case refine_2.isFalse e => exact hj.resolve_left fun m => e (List.mem_singleton.mp m).symm
  unfold State.lsRefresh1
  dsimp only
  split
  case isTrue h =>
    exact ⟨_, rfl, settles _ ⟨rfl, rfl, rfl, rfl, rfl⟩ (Bool.and_eq_true_iff.mp h).1.symm⟩
  case isFalse h =>
    split
    case isTrue k =>
      have off : (s.tile t).lsOn ch = false := by simpa using (Bool.and_eq_true_iff.mp k).2
      exact ⟨_, rfl, settles _ ⟨rfl, rfl, rfl, rfl, rfl⟩ off.symm⟩
    case isFalse k =>
      have same : ((s.tile t).field.ls[ch]).isOn = (s.tile t).lsOn ch := by
        revert h k
        cases ((s.tile t).field.ls[ch]).isOn <;> cases (s.tile t).lsOn ch <;> decide
      refine ⟨(s.tile t).field.ls, by cases t <;> rfl, fun _ => .refl _, fun j hj => ?_⟩
      exact hj.elim (fun m => by rw [List.mem_singleton.mp m]; exact same) id

theorem State.modField_modField (s : State) (t : TileId) (f g : FieldDie → FieldDie) :
    (s.modField t f).modField t g = s.modField t fun x => g (f x) := by cases t <;> rfl

theorem lsRefresh_list_settles (t : TileId) (restart : Bool) (l : List (Fin 10)) (s : State) :
    ∃ ls, (s.each l fun s ch => s.lsRefresh1 t restart ch) = s.modField t (fun f => { f with ls := ls }) ∧
      Tile.Settles (s.tile t) l ls := by
  induction l generalizing s with
  | nil => exact ⟨(s.tile t).field.ls, by cases t <;> rfl, fun _ => .refl _, fun _ h => h.resolve_left List.not_mem_nil⟩
  | cons ch l ih =>
    obtain ⟨v, ev, sameV, onV⟩ := lsRefresh1_settles s t restart ch
    obtain ⟨w, ew, sameW, onW⟩ := ih (s.lsRefresh1 t restart ch)
    have tile : (s.lsRefresh1 t restart ch).tile t = (s.tile t).withLs v := by rw [ev, State.modField, State.tile_modTile_self]; rfl
    rw [tile] at sameW onW
    refine ⟨w, by rw [State.each_cons, ew, ev, State.modField_modField], fun j => (sameV j).trans (sameW j), fun j hj => ?_⟩
    have on : ((s.tile t).withLs v).lsOn j = (s.tile t).lsOn j := Tile.lsOn_withLs _ v j (sameV j)
    rw [← on]
    refine onW j ?_
    rcases hj with m | same
    · rcases List.mem_cons.mp m with rfl | m
      · exact .inr ((onV j (.inl List.mem_cons_self)).trans on.symm)
      · exact .inl m
    · exact .inr ((onV j (.inr same)).trans on.symm)

/-- A refresh changes channel records alone, nothing that R152 judges by, and leaves every channel as it says. -/
theorem lsRefresh_settles (s : State) (t : TileId) (restart : Bool) :
    ∃ ls, s.lsRefresh t restart = s.modField t (fun f => { f with ls := ls }) ∧
      (∀ ch : Fin 10, LsChannel.SameInputs (s.tile t).field.ls[ch] ls[ch]) ∧ ((s.tile t).withLs ls).LsSettled := by
  obtain ⟨ls, e, same, on⟩ := lsRefresh_list_settles t restart lsChannels s
  refine ⟨ls, e, same, fun ch => (on ch (.inl ?_)).trans (Tile.lsOn_withLs _ ls ch (same ch)).symm⟩
  revert ch
  decide

/-! ### Channels and pins changed one by one -/

theorem foldl_vmod_get {α : Type} {n : Nat} (g : Fin n → α → α) (l : List (Fin n)) (hl : l.Nodup) (v : Vector α n) (j : Fin n) :
    (l.foldl (fun v i => vmod v i (g i)) v)[j] = if j ∈ l then g j v[j] else v[j] := by
  induction l generalizing v with
  | nil => rfl
  | cons i l ih =>
    obtain ⟨hi, hl⟩ := List.nodup_cons.mp hl
    rw [List.foldl_cons, ih hl, vmod_get]
    by_cases e : i = j
    · subst e
      simp [hi]
    · simp [e, Ne.symm e]

theorem vmod_congr {α : Type} {n : Nat} {v : Vector α n} {i : Fin n} {f g : α → α} (h : f v[i] = g v[i]) : vmod v i f = vmod v i g := by
  rw [vmod, h, vmod]

theorem vmod_self {α : Type} {n : Nat} (v : Vector α n) (i : Fin n) : (vmod v i fun x => x) = v := Vector.set_getElem_self _

section each

variable (s : State) (t : TileId)

theorem modLs_congr {ch : Fin 10} {f g : LsChannel → LsChannel} (h : f (s.tile t).field.ls[ch] = g (s.tile t).field.ls[ch]) :
    s.modLs t ch f = s.modLs t ch g := by
  unfold State.modLs State.modField
  exact State.modTile_congr _ _ _ _ (by dsimp only; rw [vmod_congr h])

theorem modLs_if (ch : Fin 10) (p : LsChannel → Bool) (f : LsChannel → LsChannel) :
    (if p (s.tile t).field.ls[ch] then s.modLs t ch f else s) = s.modLs t ch fun c => if p c then f c else c := by
  split
  case isTrue h => exact modLs_congr s t (if_pos h).symm
  case isFalse h =>
    rw [← modLs_congr s t (f := fun c => c) (g := fun c => if p c then f c else c) (if_neg h).symm]
    simp only [State.modLs, vmod_self]
    exact (State.modTile_id s t).symm

theorem modIo_if (pin : Fin 16) (p : Bool) (f : IoPin → IoPin) :
    (if p then s.modIo t pin f else s) = s.modIo t pin fun x => if p then f x else x := by
  cases p
  · simp only [State.modIo, Bool.false_eq_true, if_false, vmod_self]
    exact (State.modTile_id s t).symm
  · rfl

theorem each_modLs (g : Fin 10 → LsChannel → LsChannel) (l : List (Fin 10)) :
    (s.each l fun s ch => s.modLs t ch (g ch)) =
      s.modField t fun f => { f with ls := l.foldl (fun v ch => vmod v ch (g ch)) f.ls } := by
  induction l generalizing s with
  | nil => exact (State.modTile_id s t).symm
  | cons ch l ih => rw [State.each_cons, ih, State.modLs, State.modField_modField]; rfl

theorem each_modIo (g : Fin 16 → IoPin → IoPin) (l : List (Fin 16)) :
    (s.each l fun s p => s.modIo t p (g p)) = s.modField t fun f => { f with io := l.foldl (fun v p => vmod v p (g p)) f.io } := by
  induction l generalizing s with
  | nil => exact (State.modTile_id s t).symm
  | cons p l ih => rw [State.each_cons, ih, State.modIo, State.modField_modField]; rfl

theorem all_lsChannels (ch : Fin 10) : ch ∈ lsChannels := by
  revert ch
  decide

theorem all_ioPins (p : Fin 16) : p ∈ ioPins := by
  revert p
  decide

/-- Every channel changed by its own function. -/
theorem each_lsChannels (g : Fin 10 → LsChannel → LsChannel) :
    ∃ ls, (s.each lsChannels fun s ch => s.modLs t ch (g ch)) = s.modField t (fun f => { f with ls := ls }) ∧
      ∀ ch : Fin 10, ls[ch] = g ch (s.tile t).field.ls[ch] := by
  refine ⟨_, (each_modLs s t g lsChannels).trans (State.modTile_congr _ _ _ _ rfl), fun ch => ?_⟩
  rw [foldl_vmod_get _ _ (by decide), if_pos (all_lsChannels ch)]

/-! ### What a down-frame brings to the switches and pins (R16, R152, R158) -/

theorem lsClearNow_settles (mask : BitVec 10) (h : (s.tile t).LsSettled) :
    ∃ ls, s.lsClearNow t mask = s.modField t (fun f => { f with ls := ls }) ∧ ((s.tile t).withLs ls).LsSettled ∧
      ∀ ch : Fin 10, (ls[ch]).line = ((s.tile t).field.ls[ch]).line ∧
        (mask.getLsbD ch.val = true → (ls[ch]).ocLatch = false ∧ (ls[ch]).thLatch = false) := by
  unfold State.lsClearNow
  split
  case isTrue e => exact ⟨_, (State.modTile_self s t).symm, h, fun ch => ⟨rfl, by simp [e]⟩⟩
  case isFalse =>
    simp only [fun s ch => modLs_if s t ch fun _ => mask.getLsbD ch.val]
    obtain ⟨v, ev, gv⟩ := each_lsChannels s t fun ch c => if mask.getLsbD ch.val then { c with ocLatch := false, thLatch := false } else c
    obtain ⟨w, ew, same, settled⟩ := lsRefresh_settles (s.modField t fun f => { f with ls := v }) t false
    rw [ev]
    have tile : (s.modField t fun f => { f with ls := v }).tile t = (s.tile t).withLs v := State.tile_modTile_self ..
    rw [tile] at same settled
    refine ⟨w, ew.trans (State.modField_modField ..), settled, fun ch => ?_⟩
    obtain ⟨line, -, oc, th, -⟩ := same ch
    have cleared : v[ch] = _ := gv ch
    refine ⟨line.trans ?_, fun m => ⟨oc.trans ?_, th.trans ?_⟩⟩
    · exact (congrArg LsChannel.line cleared).trans (by split <;> rfl)
    · exact (congrArg LsChannel.ocLatch cleared).trans (by rw [if_pos m])
    · exact (congrArg LsChannel.thLatch cleared).trans (by rw [if_pos m])

theorem ioClearNow_pins (mask : BitVec 16) :
    ∃ io, s.ioClearNow t mask = s.modField t (fun f => { f with io := io }) ∧
      ∀ p : Fin 16, (io[p]).cmd = ((s.tile t).field.io[p]).cmd ∧
        (mask.getLsbD p.val = true → (io[p]).mismatch = false ∧ (io[p]).thermal = false) := by
  unfold State.ioClearNow
  simp only [modIo_if]
  refine ⟨_, (each_modIo s t (fun p x => if mask.getLsbD p.val then { x with mismatch := false, thermal := false } else x)
    ioPins).trans (State.modTile_congr _ _ _ _ rfl), fun p => ?_⟩
  rw [foldl_vmod_get _ _ (by decide), if_pos (all_ioPins p)]
  exact ⟨by split <;> rfl, fun m => by rw [if_pos m]; exact ⟨rfl, rfl⟩⟩

theorem lsCheckStart_checks (mask : BitVec 10) :
    ∃ ls, s.lsCheckStart t mask = s.modField t (fun f => { f with ls := ls }) ∧
      ∀ ch : Fin 10, ls[ch] = { (s.tile t).field.ls[ch] with checking := (ls[ch]).checking } ∧
        (mask.getLsbD ch.val = true → (s.tile t).field.lswUp = true → ((s.tile t).field.ls[ch]).isOn = false →
          (ls[ch]).checking = true) := by
  unfold State.lsCheckStart
  split
  case isTrue h =>
    have down : (s.tile t).field.lswUp = false := by simpa using h
    exact ⟨_, (State.modTile_self s t).symm, fun ch => ⟨rfl, fun _ up => absurd (up.symm.trans down) (by decide)⟩⟩
  case isFalse =>
    simp only [fun s ch => modLs_if s t ch fun c => mask.getLsbD ch.val && !c.isOn]
    obtain ⟨ls, e, get⟩ := each_lsChannels s t fun ch c => if mask.getLsbD ch.val && !c.isOn then { c with checking := true } else c
    refine ⟨ls, e, fun ch => ?_⟩
    rw [get]
    exact ⟨by split <;> rfl, fun m _ off => by simp only [m, off, Bool.not_false, Bool.and_true, if_true]⟩

end each

theorem map_lsChannels_get {α : Type} (f : Fin 10 → α) (ch : Fin 10) : ((⟨⟨lsChannels.map f⟩, rfl⟩ : Vector α 10))[ch] = f ch := by
  fin_cases ch <;> rfl

theorem map_ioPins_get {α : Type} (f : Fin 16 → α) (p : Fin 16) : ((⟨⟨ioPins.map f⟩, rfl⟩ : Vector α 16))[p] = f p := by
  fin_cases p <;> rfl

/-- The fallback image stands after a frame but where it carries the release after 16 words in a row (R163). -/
def FieldDie.stays (f : FieldDie) (release : Bool) : Bool := f.fallback && !(decide (f.wdRun ≥ 16) && release)

/-- The field die after the output and SRA commands of a frame. -/
structure Tile.TakesOutputs (tl : Tile) (fr : DownFrame) (g : FieldDie) : Prop where
  rest : g = { tl.field with
    fallback := tl.field.stays fr.release, sra := fr.sra && !tl.field.stays fr.release, duty := fr.duty, pwm := fr.pwm
    onTest := g.onTest, gateTest := g.gateTest, bittern := g.bittern, srb := g.srb, ls := g.ls, io := g.io }
  settled : Tile.LsSettled { tl with field := g }
  channels : ∀ ch : Fin 10, (g.ls[ch]).line = fr.lsLine.getLsbD ch.val ∧
    (fr.lsClear.getLsbD ch.val = true → (g.ls[ch]).ocLatch = false ∧ (g.ls[ch]).thLatch = false) ∧
    (fr.lsCheck.getLsbD ch.val = true → g.lswUp = true → (g.ls[ch]).isOn = false → (g.ls[ch]).checking = true)
  pins : ∀ p : Fin 16, (g.io[p]).cmd = fr.io.getLsbD p.val ∧
    (fr.ioClear.getLsbD p.val = true → (g.io[p]).mismatch = false ∧ (g.io[p]).thermal = false)

/-- The field die with the commands of a frame, before they act on its switches. -/
def FieldDie.commanded (f : FieldDie) (fr : DownFrame) : FieldDie :=
  FieldDie.bitternEval
    { f with
      fallback := f.stays fr.release, sra := fr.sra && !f.stays fr.release, duty := fr.duty, pwm := fr.pwm
      onTest := if f.stays fr.release then 0 else fr.onTest, gateTest := fr.gateTest && !f.stays fr.release
      ls := ⟨⟨lsChannels.map fun ch => { f.ls[ch] with line := fr.lsLine.getLsbD ch.val }⟩, rfl⟩
      io := ⟨⟨ioPins.map fun p => { f.io[p] with cmd := fr.io.getLsbD p.val }⟩, rfl⟩ }

section outputs

variable (s : State) (t : TileId) (fr : DownFrame)

theorem tile_modField (f : FieldDie → FieldDie) : (s.modField t f).tile t = { s.tile t with field := f (s.tile t).field } :=
  State.tile_modTile_self ..

theorem downOutputs_eq : s.downOutputs t fr =
    ((((s.modField t fun f => f.commanded fr).lsRefresh t).lsClearNow t fr.lsClear).ioClearNow t fr.ioClear).lsCheckStart t fr.lsCheck := by
  have commanded : (s.modField t fun f => f.commanded fr) = _ :=
    State.modTile_congr s t _ (fun tl => { tl with field := (s.tile t).field.commanded fr }) rfl
  rw [commanded]
  exact congrArg (fun s => (((State.lsRefresh s t).lsClearNow t fr.lsClear).ioClearNow t fr.ioClear).lsCheckStart t fr.lsCheck)
    (State.modTile_congr s t _ _ rfl)

theorem takesOutputs_downOutputs :
    ∃ g, s.downOutputs t fr = s.modField t (fun _ => g) ∧ Tile.TakesOutputs (s.tile t) fr g := by
  rw [downOutputs_eq]
  generalize hs1 : (s.modField t fun f => f.commanded fr) = s1
  have tile1 : s1.tile t = { s.tile t with field := (s.tile t).field.commanded fr } := hs1 ▸ tile_modField ..
  obtain ⟨v, ev, same, settled⟩ := lsRefresh_settles s1 t false
  obtain ⟨w, ew, settledW, cleared⟩ := lsClearNow_settles (s1.lsRefresh t) t fr.lsClear (by rw [ev, tile_modField]; exact settled)
  obtain ⟨io, eio, pins⟩ := ioClearNow_pins ((s1.lsRefresh t).lsClearNow t fr.lsClear) t fr.ioClear
  obtain ⟨u, eu, checks⟩ := lsCheckStart_checks (((s1.lsRefresh t).lsClearNow t fr.lsClear).ioClearNow t fr.ioClear) t fr.lsCheck
  rw [eio, ew, ev, tile_modField, tile_modField, tile_modField, tile1] at checks
  rw [ew, ev, tile_modField, tile_modField, tile1] at pins
  rw [ev, tile_modField, tile1] at cleared settledW
  rw [tile1] at same
  dsimp only at checks pins cleared same
  have settledW : Tile.LsSettled { s.tile t with field := { (s.tile t).field.commanded fr with ls := w } } := settledW
  have checked (ch : Fin 10) : u[ch] = { w[ch] with checking := (u[ch]).checking } := (checks ch).1
  have inputs (ch : Fin 10) : LsChannel.SameInputs w[ch] u[ch] := by
    rw [checked ch]
    exact ⟨rfl, rfl, rfl, rfl, rfl⟩
  have isOn (ch : Fin 10) : (u[ch]).isOn = (w[ch]).isOn := by rw [checked ch]
  refine ⟨{ (s.tile t).field.commanded fr with ls := u, io := io }, ?_, rfl, ?_,
    fun ch => ⟨?_, fun m => ?_, fun m up off => ?_⟩, fun p => ⟨?_, (pins p).2⟩⟩
  · rw [eu, eio, ew, ev, ← hs1]
    simp only [State.modField_modField]
    exact State.modTile_congr _ _ _ _ rfl
  · exact settledW.congr (fun ch => ⟨inputs ch, isOn ch⟩) rfl rfl
  · have line := (same ch).line.trans (congrArg LsChannel.line (map_lsChannels_get _ ch))
    exact ((inputs ch).line.trans (cleared ch).1).trans line
  · obtain ⟨oc, th⟩ := (cleared ch).2 m
    exact ⟨(inputs ch).ocLatch.trans oc, (inputs ch).thLatch.trans th⟩
  · exact (checks ch).2 m up ((isOn ch).symm.trans off)
  · exact (pins p).1.trans (congrArg IoPin.cmd (map_ioPins_get _ p))

end outputs

/-! ### What a down-frame brings to the axes (R60, R115, R118, R119) -/

/-- Beside the doorway, the log and the axes a tile stands, and so do the proof test's step and the edge-enable bits. -/
structure Tile.KeepsEdges (x y : Tile) : Prop where
  rest  : y = { x with ax := y.ax, door := y.door, peat := y.peat }
  proof : Doorway.SameProof x.door y.door
  edges : ∀ b, (y.ax.get b).fab.edgeEn = (x.ax.get b).fab.edgeEn

theorem keepsEdges_modAxis {a : AxisId} {f : Axis → Axis} (hf : ∀ x, (f x).fab.edgeEn = x.fab.edgeEn) (x : Tile) :
    Tile.KeepsEdges x (x.modAxis a f) := by
  refine ⟨rfl, ⟨rfl, rfl⟩, fun b => ?_⟩
  rw [Tile.modAxis, PerAxis.get_set]
  split
  case isTrue h => rw [h, hf]
  case isFalse => rfl

def edgeFraming : Framing where
  rel := Tile.KeepsEdges
  refl _ := ⟨rfl, ⟨rfl, rfl⟩, fun _ => rfl⟩
  trans h k := by
    refine ⟨?_, ⟨k.proof.run.trans h.proof.run, k.proof.phase.trans h.proof.phase⟩, fun b => (k.edges b).trans (h.edges b)⟩
    have e := k.rest
    rw [h.rest] at e
    exact e
  door _ _ _ h := ⟨rfl, h, fun _ => rfl⟩
  axis x _ _ hf := keepsEdges_modAxis (fun y => congrArg Fabric.edgeEn (hf y).fab) x

section axes

variable {s0 s : State} {t : TileId} {a : AxisId}

theorem edgeFrame_modAxis {f : Axis → Axis} (h : State.Frame edgeFraming t s0 s) (hf : ∀ x, (f x).fab.edgeEn = x.fab.edgeEn) :
    State.Frame edgeFraming t s0 (s.modAxis t a f) := frame_modTile h (keepsEdges_modAxis hf _)

theorem edgeFrame_fabricTrip {src : BitVec 16} (h : State.Frame edgeFraming t s0 s) :
    State.Frame edgeFraming t s0 (s.fabricTrip t a src) := edgeFrame_modAxis (frame_else h frame_noteTrip) fun _ => rfl

theorem edgeFrame_downEdge (s : State) (en : Bool) :
    State.Frame edgeFraming t (s.modFab t a fun f => { f with edgeEn := en }) (s.downEdge t a en) :=
  frame_else (.refl _ t _) edgeFrame_fabricTrip

theorem modLink_clear (s : State) (h : (s.tile t).link.clear.get a = false) :
    (s.modLink t fun l => { l with clear := l.clear.set a false }) = s := by
  have same : (s.tile t).link.clear.set a false = (s.tile t).link.clear := by
    rw [← h]
    cases a <;> rfl
  exact (State.modTile_congr s t _ (fun tl => tl) (by dsimp only; rw [same])).trans (State.modTile_id s t)

theorem edgeFrame_downClear (s : State) :
    State.Frame edgeFraming t (s.modLink t fun l => { l with clear := l.clear.set a false }) (s.downClear t a) := by
  unfold State.downClear
  dsimp only
  split
  case isTrue h =>
    rw [modLink_clear s (by simpa using h)]
    exact .refl _ t s
  case isFalse =>
    refine frame_ite (frame_else (.refl _ t _) fun h => frame_refuseMove (frame_brakeAxis h)) (edgeFrame_modAxis (.refl _ t _) fun _ => rfl)

theorem edgeFrame_downForce (s : State) (fr : DownFrame) :
    State.Frame edgeFraming t (s.modField t fun f => { f with force := (s.tile t).proofStepNow }) (s.downForce t fr) := by
  unfold State.downForce
  dsimp only
  split
  case isTrue h =>
    have same : (s.modField t fun f => { f with force := (s.tile t).proofStepNow }) = s :=
      (State.modTile_congr s t _ (fun tl => tl) (by rw [← h])).trans (State.modTile_id s t)
    rw [same]
    exact .refl _ t s
  case isFalse =>
    refine frame_ite (.refl _ t _) (frame_each (.refl _ t _) fun s a h => ?_)
    exact frame_ite h (edgeFrame_modAxis h fun _ => rfl)

/-- What the edge-enable bit and the clear of a frame do to the tile of an axis. -/
structure State.AxisTaken (t : TileId) (a : AxisId) (en : Bool) (s s' : State) : Prop where
  only  : s.OnlyTile s' t
  rest  : s'.tile t = { s.tile t with
    ax := (s'.tile t).ax, door := (s'.tile t).door, peat := (s'.tile t).peat
    link := { (s.tile t).link with clear := (s.tile t).link.clear.set a false } }
  proof : Doorway.SameProof (s.tile t).door (s'.tile t).door
  edges : ∀ b, (s'.axis t b).fab.edgeEn = if b = a then en else (s.axis t b).fab.edgeEn

theorem axisTaken_downAxis (s : State) (en : Bool) : State.AxisTaken t a en s ((s.downEdge t a en).downClear t a) := by
  have edge := edgeFrame_downEdge (t := t) (a := a) s en
  have clear := edgeFrame_downClear (t := t) (a := a) (s.downEdge t a en)
  have enabled : (s.modFab t a fun f => { f with edgeEn := en }).tile t = (s.tile t).modAxis a fun x => { x with fab := { x.fab with edgeEn := en } } :=
    State.tile_modTile_self ..
  have cleared : ((s.downEdge t a en).modLink t fun l => { l with clear := l.clear.set a false }).tile t =
      { (s.downEdge t a en).tile t with link := { ((s.downEdge t a en).tile t).link with clear := ((s.downEdge t a en).tile t).link.clear.set a false } } :=
    State.tile_modTile_self ..
  have er := edge.tile.rest
  have cr := clear.tile.rest
  rw [enabled] at er
  rw [cleared, er] at cr
  refine ⟨((onlyTile_modTile s t _).trans edge.only).trans ((onlyTile_modTile _ t _).trans clear.only), cr, ?_, fun b => ?_⟩
  · have ep := edge.tile.proof
    have cp := clear.tile.proof
    rw [enabled] at ep
    rw [cleared] at cp
    exact ⟨cp.run.trans ep.run, cp.phase.trans ep.phase⟩
  · have ee := edge.tile.edges b
    have ce := clear.tile.edges b
    rw [enabled, Tile.modAxis, PerAxis.get_set] at ee
    rw [cleared] at ce
    refine (ce.trans ee).trans ?_
    split <;> rfl

end axes

/-! ### A down-frame (R16, R17) -/

/-- The field die after the keep-alive word, if any, that a frame carries. -/
def FieldDie.watched (f : FieldDie) (ka : Option KaWord) : FieldDie :=
  match ka with
  | some w => f.keepAlive w
  | none => f

/-- The field die after the keep-alive word and the part of the configuration that a frame carries. -/
def DownFrame.received (fr : DownFrame) (f : FieldDie) : FieldDie :=
  match fr.config with
  | some (i, part) => (f.watched fr.ka).configPart i part
  | none => f.watched fr.ka

theorem configPart_rest (f : FieldDie) (i : Nat) (part : List Byte) :
    f.configPart i part = { f with
      bitConfig := (f.configPart i part).bitConfig, cfgBuf := (f.configPart i part).cfgBuf, proofs := (f.configPart i part).proofs
      bitLow := (f.configPart i part).bitLow, bitForeign := (f.configPart i part).bitForeign
      bittern := (f.configPart i part).bittern, srb := (f.configPart i part).srb } := by
  unfold FieldDie.configPart
  dsimp only
  split_ifs <;> rfl

theorem keepAlive_rest (f : FieldDie) (w : KaWord) :
    f.keepAlive w = { f with wdLast := (f.keepAlive w).wdLast, wdRun := (f.keepAlive w).wdRun } := by
  unfold FieldDie.keepAlive
  dsimp only
  split_ifs <;> rfl

/-- What an intact frame leaves of its tile. -/
structure State.FrameApplied (t : TileId) (fr : DownFrame) (s s' : State) : Prop where
  only    : s.OnlyTile s' t
  field   : ∃ g, Tile.TakesOutputs { s.tile t with field := fr.received (s.tile t).field } fr g ∧
    (s'.tile t).field = { g with force := (s.tile t).proofStepNow }
  rest    : s'.tile t = { s.tile t with
    ax := (s'.tile t).ax, door := (s'.tile t).door, peat := (s'.tile t).peat, field := (s'.tile t).field, link := (s'.tile t).link }
  link    : (s'.tile t).link = { (s.tile t).link with clear := ⟨false, false, false⟩ }
  edges   : ∀ a, (s'.axis t a).fab.edgeEn = fr.edgeEn.get a

theorem modField_id (s : State) (t : TileId) : (s.modField t fun f => f) = s := State.modTile_id s t

theorem downApply_eq (s : State) (t : TileId) (fr : DownFrame) : s.downApply t fr =
    (((s.modField t fr.received).downOutputs t fr).each AxisId.all fun s a =>
      (s.downEdge t a (fr.edgeEn.get a)).downClear t a).downForce t fr := by
  unfold State.downApply DownFrame.received FieldDie.watched
  rcases fr.ka with _ | w <;> rcases fr.config with _ | ⟨i, part⟩
  · rw [modField_id]
  · rfl
  · rfl
  · simp only [State.modField_modField]

theorem frameApplied_downApply (s : State) (t : TileId) (fr : DownFrame) : State.FrameApplied t fr s (s.downApply t fr) := by
  obtain ⟨g, eg, took⟩ := takesOutputs_downOutputs (s.modField t fr.received) t fr
  rw [tile_modField] at took
  rw [downApply_eq, eg, State.modField_modField]
  have tile0 : (s.modField t fun _ => g).tile t = { s.tile t with field := g } := tile_modField ..
  have only0 : s.OnlyTile (s.modField t fun _ => g) t := onlyTile_modTile ..
  have axis0 (b : AxisId) : (s.modField t fun _ => g).axis t b = s.axis t b := State.axis_modField ..
  simp only [AxisId.all, State.each_cons, State.each_nil]
  generalize (s.modField t fun _ => g) = s0 at tile0 only0 axis0 ⊢
  have A := axisTaken_downAxis (t := t) (a := .A) s0 (fr.edgeEn.get .A)
  generalize ((s0.downEdge t .A (fr.edgeEn.get .A)).downClear t .A) = s1 at A ⊢
  have B := axisTaken_downAxis (t := t) (a := .B) s1 (fr.edgeEn.get .B)
  generalize ((s1.downEdge t .B (fr.edgeEn.get .B)).downClear t .B) = s2 at B ⊢
  have C := axisTaken_downAxis (t := t) (a := .C) s2 (fr.edgeEn.get .C)
  generalize ((s2.downEdge t .C (fr.edgeEn.get .C)).downClear t .C) = s3 at C ⊢
  have step : (s3.tile t).proofStepNow = (s.tile t).proofStepNow := by
    have d0 : (s0.tile t).door = (s.tile t).door := by rw [tile0]
    have run := (C.proof.run.trans B.proof.run).trans A.proof.run
    have phase := (C.proof.phase.trans B.proof.phase).trans A.proof.phase
    rw [Tile.proofStepNow, run, phase, d0, Tile.proofStepNow]
  obtain ⟨forceOnly, ⟨forceRest, -, forceEdges⟩⟩ := edgeFrame_downForce (t := t) s3 fr
  rw [tile_modField] at forceRest forceEdges
  rw [step, C.rest, B.rest, A.rest, tile0] at forceRest
  refine ⟨?_, ⟨g, took, ?_⟩, ?_, ?_, fun a => ?_⟩
  · exact (((only0.trans A.only).trans B.only).trans C.only).trans ((onlyTile_modTile _ t _).trans forceOnly)
  · rw [forceRest]
  · rw [forceRest]
  · rw [forceRest]
    rfl
  · refine (forceEdges a).trans ?_
    have edges := (C.edges a).trans (by rw [B.edges a, A.edges a])
    cases a <;> exact edges

theorem fallback_watched (f : FieldDie) (ka : Option KaWord) : (f.watched ka).fallback = f.fallback := by
  unfold FieldDie.watched
  split
  · rw [keepAlive_rest]
  · rfl

theorem received_rest (fr : DownFrame) (f : FieldDie) : fr.received f = { f.watched fr.ka with
    bitConfig := (fr.received f).bitConfig, cfgBuf := (fr.received f).cfgBuf, proofs := (fr.received f).proofs
    bitLow := (fr.received f).bitLow, bitForeign := (fr.received f).bitForeign
    bittern := (fr.received f).bittern, srb := (fr.received f).srb } := by
  unfold DownFrame.received
  split
  · exact configPart_rest ..
  · rfl

theorem wdLast_received (fr : DownFrame) (f : FieldDie) : (fr.received f).wdLast = (f.watched fr.ka).wdLast := by
  rw [received_rest]

theorem wdRun_received (fr : DownFrame) (f : FieldDie) : (fr.received f).wdRun = (f.watched fr.ka).wdRun := by
  rw [received_rest]

theorem stays_received (fr : DownFrame) (f : FieldDie) (release : Bool) :
    (fr.received f).stays release = (f.fallback && !(decide ((f.watched fr.ka).wdRun ≥ 16) && release)) := by
  rw [FieldDie.stays, wdRun_received, received_rest, ← fallback_watched f fr.ka]

theorem keepAlive_takes_next_count {f : FieldDie} (w : KaWord) {last : BitVec 8} (hl : f.wdLast = some last) :
    if w.voted = true ∧ w.comp = ~~~w.count ∧ 1 ≤ (w.count - last).toNat ∧ (w.count - last).toNat ≤ 64
    then (f.keepAlive w).wdLast = some w.count else f.keepAlive w = f := by
  unfold FieldDie.keepAlive
  rw [hl]
  dsimp only
  simp only [Bool.and_eq_true, beq_iff_eq, decide_eq_true_eq, and_assoc]
  split_ifs <;> rfl

/-! ### The fallback image (R161) -/

/-- The tile with the fallback image applied, before it acts on its switches. -/
def Tile.inFallback (tl : Tile) : Tile :=
  let brake := fun (m : Motion) => { m with bridge := if m.bridge == .driven then .brake else m.bridge, freeDelay := false }
  { tl with
    ax := ⟨{ tl.ax.a with mo := brake tl.ax.a.mo }, { tl.ax.b with mo := brake tl.ax.b.mo }, { tl.ax.c with mo := brake tl.ax.c.mo }⟩
    field := FieldDie.bitternEval { tl.field with
      fallback := true, wdLast := none, wdRun := 0, sra := false, onTest := 0, gateTest := false, cfgBuf := []
      pwm := ⟨false, false, false⟩, ls := vmap (fun (c : LsChannel) => { c with checking := false }) tl.field.ls } }

section link

variable (s : State) (t : TileId)

theorem applyFallback_eq : s.applyFallback t = (s.modTile t Tile.inFallback).lsRefresh t := by
  unfold State.applyFallback
  refine congrArg (fun s => State.lsRefresh s t) ?_
  cases t <;> rfl

/-- The image is applied: its switches are settled, and beside the field die only the bridges differ. -/
theorem applyFallback_settles : ∃ ls, s.applyFallback t = s.modTile t (fun tl => tl.inFallback.withLs ls) ∧
    ((s.tile t).inFallback.withLs ls).LsSettled := by
  obtain ⟨ls, e, -, settled⟩ := lsRefresh_settles (s.modTile t Tile.inFallback) t false
  rw [State.tile_modTile_self] at settled
  exact ⟨ls, by rw [applyFallback_eq, e, State.modField, State.modTile_modTile]; rfl, settled⟩

theorem Tile.LsSettled.first_off {tl : Tile} (h : tl.LsSettled) (hf : tl.field.fallback = true) : (tl.field.ls[0]).isOn = false := by
  refine (h 0).trans ?_
  unfold Tile.lsOn
  simp [hf]

theorem mo_inFallback (tl : Tile) (ls : Vector LsChannel 10) (a : AxisId) :
    ((tl.inFallback.withLs ls).ax.get a).mo.bridge = if (tl.ax.get a).mo.bridge = .driven then .brake else (tl.ax.get a).mo.bridge := by
  have brake (b : Bridge) : (if b == .driven then .brake else b) = if b = .driven then Bridge.brake else b := by cases b <;> rfl
  cases a <;> exact brake _

theorem fb_inFallback (tl : Tile) (ls : Vector LsChannel 10) (a : AxisId) :
    ((tl.inFallback.withLs ls).ax.get a).fb = (tl.ax.get a).fb := by cases a <;> rfl

/-! ### Up-frames (R16, R17) -/

/-- The field die, and what the last up-frame showed of it, stand. -/
structure Tile.Shows (x y : Tile) : Prop where
  field  : y.field = x.field
  up     : y.link.up = x.link.up
  missed : y.link.missed = x.link.missed

def showFraming : Framing where
  rel := Tile.Shows
  refl _ := ⟨rfl, rfl, rfl⟩
  trans h k := ⟨k.field.trans h.field, k.up.trans h.up, k.missed.trans h.missed⟩
  door _ _ _ _ := ⟨rfl, rfl, rfl⟩
  axis _ _ _ _ := ⟨rfl, rfl, rfl⟩

theorem shows_releasePair {s0 s : State} {a : AxisId} (h : State.Frame showFraming t s0 s) :
    State.Frame showFraming t s0 (s.releasePair t a) := by
  unfold State.releasePair
  exact frame_modTile (frame_modMo h fun _ => ⟨rfl, rfl, rfl, rfl⟩) ⟨rfl, rfl, rfl⟩

theorem shows_proofCheck {s0 : State} (h : State.Frame showFraming t s0 s) : State.Frame showFraming t s0 (s.proofCheck t) := by
  unfold State.proofCheck
  refine frame_ite h (frame_modTile (frame_each h fun s a h => ?_) ⟨rfl, rfl, rfl⟩)
  exact frame_modMo (shows_releasePair t h) fun _ => ⟨rfl, rfl, rfl, rfl⟩

theorem shows_upEffects {s0 : State} (h : State.Frame showFraming t s0 s) : State.Frame showFraming t s0 (s.upEffects t) := by
  unfold State.upEffects State.tlDiscClear
  exact frame_modTile (frame_modTile (frame_modTile h ⟨rfl, rfl, rfl⟩) ⟨rfl, rfl, rfl⟩) ⟨rfl, rfl, rfl⟩

theorem proofCheck_without_test (h : (s.tile t).door.proofRun = false) : s.proofCheck t = s := by
  unfold State.proofCheck
  simp [h]

theorem ax_upEffects : ((s.upEffects t).tile t).ax = (s.tile t).ax := by
  unfold State.upEffects State.tlDiscClear
  cases t <;> rfl

theorem proofRun_upEffects : ((s.upEffects t).tile t).door.proofRun = (s.tile t).door.proofRun := by
  unfold State.upEffects State.tlDiscClear
  cases t <;> rfl

end link

/-! ### The commands of the field link -/

theorem exec_keepAliveWord (t : TileId) (s : State) : exec (.keepAliveWord t) s = execKeepAliveWord t s := rfl

theorem exec_serialWatchdogExpiry (t : TileId) (s : State) :
    exec (.serialWatchdogExpiry t) s = execSerialWatchdogExpiry t s := rfl

theorem exec_fieldLinkDownFrame (t : TileId) (b : Bool) (s : State) :
    exec (.fieldLinkDownFrame t b) s = execFieldLinkDownFrame t b s := rfl

theorem exec_fieldLinkUpFrame (t : TileId) (b : Bool) (obs : UpObs) (s : State) :
    exec (.fieldLinkUpFrame t b obs) s = execFieldLinkUpFrame t b obs s := rfl

theorem exec_fieldLinkFault (t : TileId) (s : State) : exec (.fieldLinkFault t) s = execFieldLinkFault t s := rfl

section commands

variable {s : State} {t : TileId} (ht : s.hasTile t = true)

include ht

theorem keepAliveWord_sent (hk : (s.tile t).link.keepAlive = true) (ha : (s.tile t).triadActs = true) :
    exec (.keepAliveWord t) s =
      .next ((s.modDie t fun d => { d with kaSent := true, supervisor := 0 }).modLink t fun l =>
        { l with kaCount := l.kaCount + 1, kaWord := some ⟨l.kaCount + 1, ~~~(l.kaCount + 1), true⟩ }) := by
  rw [exec_keepAliveWord, execKeepAliveWord, onTile_of t s _ ht]
  simp [hk, ha]

theorem keepAliveWord_held (hk : (s.tile t).link.keepAlive = true) (hr : (s.tile t).triadRuns = true)
    (hm : (s.tile t).triad.mode = .confirm) :
    exec (.keepAliveWord t) s = .next (s.modTriad t fun tr => { tr with held := tr.held ++ [.keepAliveWord t] }) := by
  rw [exec_keepAliveWord, execKeepAliveWord, onTile_of t s _ ht]
  simp [hk, Tile.triadActs, hr, hm, State.holdBack]

theorem serialWatchdogExpiry_applies (hf : (s.tile t).field.fallback = false) :
    ∃ s', exec (.serialWatchdogExpiry t) s = .next s' ∧
      (s'.tile t).field.fallback = true ∧ (s'.tile t).field.sra = false ∧ (s'.tile t).field.srb = false ∧
      ((s'.tile t).field.ls[0]).isOn = false ∧ (s'.tile t).LsSettled ∧ (s'.tile t).field.wdRun = 0 ∧
      (s'.tile t).field.wdLast = none ∧
      (∀ a, (s'.axis t a).mo.bridge = (if (s.axis t a).mo.bridge = .driven then .brake else (s.axis t a).mo.bridge) ∧
        (s'.axis t a).fb = (s.axis t a).fb) ∧ (s'.tile t).door = (s.tile t).door ∧ s'.head = s.head := by
  obtain ⟨ls, e, settled⟩ := applyFallback_settles s t
  refine ⟨s.applyFallback t, ?_, ?_⟩
  · rw [exec_serialWatchdogExpiry, execSerialWatchdogExpiry, onTile_of t s _ ht, State.watchdogOut, hf]
    rfl
  · simp only [e, State.axis, State.tile_modTile_self]
    have image : ((s.tile t).inFallback.withLs ls).field.fallback = true := rfl
    exact ⟨image, rfl, bitternEval_open rfl, settled.first_off image, settled, rfl, rfl,
      fun a => ⟨mo_inFallback _ ls a, fb_inFallback _ ls a⟩, rfl, rfl⟩

theorem serialWatchdogExpiry_again (hf : (s.tile t).field.fallback = true) :
    exec (.serialWatchdogExpiry t) s = .next (s.modField t fun f => { f with wdLast := none, wdRun := 0 }) := by
  rw [exec_serialWatchdogExpiry, execSerialWatchdogExpiry, onTile_of t s _ ht, State.watchdogOut, if_pos hf]

theorem fieldLink_in_reset (hr : (s.tile t).die.inReset = true) (b : Bool) (obs : UpObs) :
    exec (.fieldLinkDownFrame t b) s = .next s ∧ exec (.fieldLinkUpFrame t b obs) s = .next s := by
  rw [exec_fieldLinkDownFrame, execFieldLinkDownFrame, onTile_of t s _ ht, exec_fieldLinkUpFrame, execFieldLinkUpFrame,
    onTile_of t s _ ht]
  simp [hr]

theorem fieldLinkFault_faults (hm : 4 ≤ (s.tile t).link.missed) (hr : (s.tile t).triadRuns = true) :
    exec (.fieldLinkFault t) s = .next ((((s.each AxisId.all fun s a => s.triadTrip t a srcTriad).modLink t fun l =>
      { l with keepAlive := false, faultAt := some s.now }).latchFault t 0x01).evaluate t) := by
  rw [exec_fieldLinkFault, execFieldLinkFault, onTile_of t s _ ht]
  simp [Nat.not_lt.mpr hm, hr]

variable (hr : (s.tile t).die.inReset = false)

include hr

theorem downFrame_damaged : exec (.fieldLinkDownFrame t false) s = .next (s.modLink t fun l =>
    { l with kaWord := none, cfgNext := if l.sendConfig then (l.cfgNext + 1) % 9 else 0 }) := by
  rw [exec_fieldLinkDownFrame, execFieldLinkDownFrame, onTile_of t s _ ht]
  simp [hr]
  rfl

theorem downFrame_intact : exec (.fieldLinkDownFrame t true) s = .next (s.downFrameSent t) := by
  rw [exec_fieldLinkDownFrame, execFieldLinkDownFrame, onTile_of t s _ ht]
  simp [hr]

theorem upFrame_missing (obs : UpObs) : exec (.fieldLinkUpFrame t false obs) s = .next (s.modLink t fun l =>
    { l with missed := l.missed + 1, faultAt := if l.missed + 1 ≥ 4 then some s.now else l.faultAt }) := by
  rw [exec_fieldLinkUpFrame, execFieldLinkUpFrame, onTile_of t s _ ht]
  simp only [hr, Bool.false_eq_true, if_false]
  rfl

theorem upFrame_intact (obs : UpObs) : ∃ s', exec (.fieldLinkUpFrame t true obs) s = .next s' ∧
    (s'.tile t).link.missed = 0 ∧ (s'.tile t).link.up = s.upFrame t obs ∧ (s'.tile t).field = (s.tile t).field ∧
    ((s.tile t).door.proofRun = false → (s'.tile t).ax = (s.tile t).ax) := by
  have shows := shows_proofCheck _ t (shows_upEffects _ t (.refl showFraming t (s.modLink t fun l => l.gotFrame (s.upFrame t obs) s.now)))
  refine ⟨_, ?_, shows.tile.missed.trans ?_, shows.tile.up.trans ?_, shows.tile.field.trans ?_, fun run => ?_⟩
  · rw [exec_fieldLinkUpFrame, execFieldLinkUpFrame, onTile_of t s _ ht]
    simp [hr]
  · rw [State.link_modLink]; rfl
  · rw [State.link_modLink]; rfl
  · rw [State.field_modLink]
  · rw [proofCheck_without_test, ax_upEffects]
    · cases t <;> rfl
    · rw [proofRun_upEffects]
      cases t <;> exact run

theorem downFrame_applied : ∃ s', exec (.fieldLinkDownFrame t true) s = .next s' ∧ s.OnlyTile s' t ∧
    (∃ g, Tile.TakesOutputs { s.tile t with
        link := (s.tile t).link.sent.arrived, field := (s.tile t).downFrame.received (s.tile t).field } (s.tile t).downFrame g ∧
      (s'.tile t).field = { g with force := (s.tile t).proofStepNow }) ∧
    (s'.tile t).inForce = (s.tile t).inForce ∧ (s'.tile t).link = { (s.tile t).link.sent.arrived with clear := ⟨false, false, false⟩ } ∧
    ∀ a, (s'.axis t a).fab.edgeEn = (s.tile t).downFrame.edgeEn.get a := by
  have e : (s.modLink t Link.sent).modLink t Link.arrived = s.modLink t fun l => l.sent.arrived := by cases t <;> rfl
  have sent : (s.modLink t fun l => l.sent.arrived).tile t = { s.tile t with link := (s.tile t).link.sent.arrived } :=
    State.tile_modTile_self ..
  obtain ⟨only, field, rest, link, edges⟩ := frameApplied_downApply (s.modLink t fun l => l.sent.arrived) t (s.tile t).downFrame
  rw [sent] at field rest link
  have params : ((((s.modLink t fun l => l.sent.arrived).downApply t (s.tile t).downFrame)).tile t).inForce = (s.tile t).inForce := by rw [rest]
  exact ⟨_, by rw [downFrame_intact ht hr, State.downFrameSent, e], (onlyTile_modTile s t _).trans only, field, params, link, edges⟩

end commands

/-- Settles O34: each command by its cases; an intact down-frame by what its outputs, its axes' bits and the step of the proof test leave. -/
theorem fieldLinkKeepsTheImageAway : Obligations.FieldLinkKeepsTheImageAway := by
  unfold Obligations.FieldLinkKeepsTheImageAway
  intro s t ht
  refine ⟨fun hk => ⟨keepAliveWord_sent ht hk, keepAliveWord_held ht hk⟩, serialWatchdogExpiry_applies ht, serialWatchdogExpiry_again ht,
    fun hr b c => fieldLink_in_reset ht hr b c, fun hr => ⟨downFrame_damaged ht hr, ?down, fun obs => ?up, upFrame_missing ht hr⟩,
    fieldLinkFault_faults ht⟩
  case up =>
    obtain ⟨s', e, missed, up, field, ax⟩ := upFrame_intact ht hr obs
    refine ⟨s', e, missed, up, ?_⟩
    rw [up]
    refine ⟨rfl, rfl, rfl, rfl, rfl, rfl, rfl, rfl, rfl, rfl, rfl, fun a => ?_, rfl, rfl, fun a => ?_, field, ax⟩
    · cases a <;> rfl
    · cases a <;> exact ⟨rfl, rfl⟩
  case down =>
    obtain ⟨s', e, only, ⟨g, ⟨rest, settled, channels, pins⟩, field⟩, params, link, edges⟩ := downFrame_applied ht hr
    refine ⟨s', e, only, fun w last hw hl => ?watch, ?wdLast, ?wdRun, ?fallback, ?sra, ?settled, fun a => ?duty, ?channels, ?pins,
      fun a => (edges a).trans ?edges, ?force, ?config, ?link⟩
    case watch =>
      rw [hw]
      exact keepAlive_takes_next_count w hl
    case wdLast =>
      rw [field]
      exact (congrArg FieldDie.wdLast rest).trans (wdLast_received ..)
    case wdRun =>
      rw [field]
      exact (congrArg FieldDie.wdRun rest).trans (wdRun_received ..)
    case fallback =>
      rw [field]
      exact (congrArg FieldDie.fallback rest).trans (stays_received ..)
    case sra =>
      rw [field]
      have fallback := congrArg FieldDie.fallback rest
      refine (congrArg FieldDie.sra rest).trans ?_
      exact congrArg (fun b => (s.tile t).downFrame.sra && !b) fallback.symm
    case settled =>
      exact settled.congr (fun ch => by rw [field]; exact ⟨.refl _, rfl⟩) (by rw [field]) params
    case duty =>
      rw [field]
      have duty := congrArg FieldDie.duty rest
      have pwm := congrArg FieldDie.pwm rest
      cases a <;> exact ⟨congrArg (PerAxis.get · _) duty, congrArg (PerAxis.get · _) pwm⟩
    case channels =>
      rw [field]
      exact channels
    case pins =>
      rw [field]
      exact pins
    case edges => cases a <;> rfl
    case force => rw [field]
    case config =>
      rw [field]
      refine (congrArg FieldDie.bitConfig rest).trans ?_
      unfold DownFrame.received Tile.downFrame
      dsimp only
      split_ifs <;> rfl
    case link =>
      rw [link]
      exact ⟨rfl, rfl, rfl, rfl, rfl⟩

end Sys2Proof.Machine
end

section
/-!
PROOFS. Boardwalk: what a route, a lost package and a record-time step leave of a package, and the commands of the links (R22, R320,
R367 to R376).
-/

namespace Sys2Proof.Machine

/-! ### What Boardwalk leaves of a package -/

/-- Beside record time, the host's side and the logs, of the board's record only the route, what is reached and the frames kept differ. -/
structure State.Ring (s s' : State) : Prop where
  part   : s'.part = s.part
  serial : s'.head.serial = s.head.serial
  board  : s'.head.board = { s.head.board with
    keep := s'.head.board.keep, reachable := s'.head.board.reachable, tilesUp := s'.head.board.tilesUp, headPort := s'.head.board.headPort }
  tiles  : ∀ t, Tile.Told (s.tile t) (s'.tile t)

section ring

variable {s0 s s' s'' : State}

theorem State.Ring.refl (s : State) : State.Ring s s := ⟨rfl, rfl, rfl, fun _ => .refl _⟩

theorem State.Ring.trans (h : State.Ring s s') (k : State.Ring s' s'') : State.Ring s s'' := by
  refine ⟨k.part.trans h.part, k.serial.trans h.serial, ?_, fun t => (h.tiles t).trans (k.tiles t)⟩
  have e := k.board
  rw [h.board] at e
  exact e

theorem State.Told.ring (h : State.Told s s') : State.Ring s s' := ⟨h.part, by rw [h.head], by rw [h.head], h.tiles⟩

theorem State.Ring.told (h : State.Ring s0 s) (k : State.Told s s') : State.Ring s0 s' := h.trans k.ring

theorem ring_ite {c : Prop} [Decidable c] {a b : State} (ha : State.Ring s a) (hb : State.Ring s b) : State.Ring s (if c then a else b) := by
  split
  · exact ha
  · exact hb

theorem ring_each {α : Type} {l : List α} {f : State → α → State} (h : State.Ring s0 s)
    (hf : ∀ s a, State.Ring s0 s → State.Ring s0 (f s a)) : State.Ring s0 (s.each l f) := by
  induction l generalizing s with
  | nil => exact h
  | cons a l ih => exact ih (hf s a h)

theorem ring_modHost {f : HostIf → HostIf} (h : State.Ring s0 s) : State.Ring s0 (s.modHost f) := h.trans ⟨rfl, rfl, rfl, fun _ => .refl _⟩

theorem ring_modTime {f : TimeBase → TimeBase} (h : State.Ring s0 s) : State.Ring s0 (s.modTime f) := h.trans ⟨rfl, rfl, rfl, fun _ => .refl _⟩

theorem ring_modBoard {f : Board → Board} (h : State.Ring s0 s) (e : f s.head.board = { s.head.board with
    keep := (f s.head.board).keep, reachable := (f s.head.board).reachable, tilesUp := (f s.head.board).tilesUp
    headPort := (f s.head.board).headPort }) : State.Ring s0 (s.modBoard f) := h.trans ⟨rfl, rfl, e, fun _ => .refl _⟩

theorem ring_emit {o : Output} (h : State.Ring s0 s) : State.Ring s0 (s.emit o) := h.told (told_emit (.refl s))

theorem ring_raiseHead {code : Nat} {data : List Byte} {logged : Bool} (h : State.Ring s0 s) :
    State.Ring s0 (s.raiseHead code data logged) := h.told (told_raiseHead (.refl s))

theorem ring_setRec {st : RecState} (h : State.Ring s0 s) : State.Ring s0 (s.setRec st) :=
  ring_ite h (ring_raiseHead (ring_modTime h))

theorem ring_routeChanged (h : State.Ring s0 s) : State.Ring s0 s.routeChanged :=
  ring_ite h (ring_ite (ring_setRec (ring_modTime h)) (ring_modTime h))

theorem ring_routeBy {port : Fin 2} (h : State.Ring s0 s) : State.Ring s0 (s.routeBy port) :=
  ring_ite h (ring_routeChanged (ring_modBoard h rfl))

theorem ring_noteRoute {port : Fin 2} {src : Fin 4} (h : State.Ring s0 s) : State.Ring s0 (s.noteRoute port src) :=
  ring_ite (ring_routeBy h) h

theorem ring_tellStraps (h : State.Ring s0 s) : State.Ring s0 s.tellStraps := by
  unfold State.tellStraps
  exact ring_each h fun s p h => ring_ite (ring_emit h) h

theorem ring_startDone (h : State.Ring s0 s) : State.Ring s0 s.startDone := ring_ite (ring_modHost h) h

theorem ring_packageLost {k cause : Nat} (h : State.Ring s0 s) : State.Ring s0 (s.packageLost k cause) :=
  ring_ite h (ring_raiseHead (ring_modHost (ring_modBoard h rfl)))

theorem ring_losePaths (h : State.Ring s0 s) : State.Ring s0 s.losePaths :=
  ring_ite (ring_each h fun _ _ h => ring_ite h (ring_packageLost h)) h

/-! ### Record time (R237, R373) -/

theorem ring_modTimer {i : Fin 8} {f : Timer → Timer} (h : State.Ring s0 s) : State.Ring s0 (s.modTimer i f) := ring_modTime h

theorem ring_timerLead {i : Fin 8} {edge : Nat} {late : Bool} (h : State.Ring s0 s) : State.Ring s0 (s.timerLead i edge late) := by
  unfold State.timerLead
  refine ring_ite (ring_raiseHead ?_) ?_
  all_goals exact ring_modTimer (ring_emit (ring_modTimer h))

theorem ring_timerStepped {byRing : Bool} {i : Fin 8} (h : State.Ring s0 s) : State.Ring s0 (s.timerStepped byRing i) := by
  unfold State.timerStepped
  refine ring_ite h (ring_ite (ring_ite (ring_timerLead h) (ring_modTimer h)) (ring_ite (ring_ite (ring_timerLead h) h) (ring_modTimer h)))

theorem told_marks (s : State) : State.Told s (s.each evtRings fun s e =>
    s.evtPut e (s.eventId none 0) s.ts (s.head.time.markData s.head.host.evt[e]) false true) :=
  told_each (.refl s) fun _ _ => told_evtPut

theorem ring_epochMark (h : State.Ring s0 s) : State.Ring s0 s.epochMark := by
  unfold State.epochMark
  exact ring_modTime (ring_ite (h.told (told_marks s)) h)

theorem ring_stepRecord {d : Int} (h : State.Ring s0 s) : State.Ring s0 (s.stepRecord d) :=
  ring_each (ring_epochMark (ring_modTime h)) fun _ _ => ring_timerStepped

theorem ring_servoRecord {o : Int} (h : State.Ring s0 s) : State.Ring s0 (s.servoRecord o) := by
  unfold State.servoRecord
  exact ring_modTime (h.trans (s'' := s.draw.2) ⟨rfl, rfl, rfl, fun _ => .refl _⟩)

theorem ring_followHead {o : Int} {st : RecState} (h : State.Ring s0 s) : State.Ring s0 (s.followHead o st) :=
  ring_setRec (ring_ite (ring_stepRecord h) (ring_servoRecord h))

theorem ring_takeLead {l : BwkLead} {delay : Nat} (h : State.Ring s0 s) : State.Ring s0 (s.takeLead l delay) :=
  ring_ite (ring_followHead (ring_modTime h)) (ring_routeChanged h)

end ring

/-! ### The route and whether its delays are known (R371, R374) -/

/-- The package's route, and whether it counts as measured, stand. -/
structure State.SameRoute (s s' : State) : Prop where
  hold : s'.head.time.routeHold = s.head.time.routeHold
  port : s'.head.board.headPort = s.head.board.headPort

section routeHold

variable {s0 s : State}

theorem State.SameRoute.refl (s : State) : State.SameRoute s s := ⟨rfl, rfl⟩

theorem State.SameRoute.told {s' : State} (h : State.SameRoute s0 s) (k : State.Told s s') : State.SameRoute s0 s' :=
  ⟨(congrArg TimeBase.routeHold k.time).trans h.hold, by rw [k.head]; exact h.port⟩

theorem sameRoute_ite {c : Prop} [Decidable c] {a b : State} (ha : State.SameRoute s a) (hb : State.SameRoute s b) :
    State.SameRoute s (if c then a else b) := by
  split
  · exact ha
  · exact hb

theorem sameRoute_modTime {f : TimeBase → TimeBase} (h : State.SameRoute s0 s) (hf : ∀ tb, (f tb).routeHold = tb.routeHold) :
    State.SameRoute s0 (s.modTime f) := ⟨(hf _).trans h.hold, h.port⟩

theorem sameRoute_raiseHead {code : Nat} {data : List Byte} {logged : Bool} (h : State.SameRoute s0 s) :
    State.SameRoute s0 (s.raiseHead code data logged) := h.told (told_raiseHead (.refl s))

theorem sameRoute_setRec {st : RecState} (h : State.SameRoute s0 s) : State.SameRoute s0 (s.setRec st) :=
  sameRoute_ite h (sameRoute_raiseHead (sameRoute_modTime h fun _ => rfl))

theorem sameRoute_modTimer {i : Fin 8} {f : Timer → Timer} (h : State.SameRoute s0 s) : State.SameRoute s0 (s.modTimer i f) :=
  sameRoute_modTime h fun _ => rfl

theorem sameRoute_timerLead {i : Fin 8} {edge : Nat} {late : Bool} (h : State.SameRoute s0 s) :
    State.SameRoute s0 (s.timerLead i edge late) := by
  unfold State.timerLead
  refine sameRoute_ite (sameRoute_raiseHead ?_) ?_
  all_goals exact sameRoute_modTimer ((sameRoute_modTimer h).told (told_emit (.refl _)))

theorem sameRoute_timerStepped {byRing : Bool} {i : Fin 8} (h : State.SameRoute s0 s) : State.SameRoute s0 (s.timerStepped byRing i) := by
  unfold State.timerStepped
  exact sameRoute_ite h (sameRoute_ite (sameRoute_ite (sameRoute_timerLead h) (sameRoute_modTimer h))
    (sameRoute_ite (sameRoute_ite (sameRoute_timerLead h) h) (sameRoute_modTimer h)))

theorem sameRoute_stepRecord {d : Int} (h : State.SameRoute s0 s) : State.SameRoute s0 (s.stepRecord d) := by
  have steps {s : State} (l : List (Fin 8)) (h : State.SameRoute s0 s) :
      State.SameRoute s0 (s.each l fun s i => s.timerStepped false i) := by
    induction l generalizing s with
    | nil => exact h
    | cons i l ih => exact ih (sameRoute_timerStepped h)
  have stepped := sameRoute_modTime (f := fun tb => { tb with record := tb.record.stepBy d, recStepped := true }) h fun _ => rfl
  refine steps timerIds ?_
  unfold State.epochMark
  exact sameRoute_modTime (sameRoute_ite (stepped.told (told_marks _)) stepped) fun _ => rfl

theorem sameRoute_servoRecord {o : Int} (h : State.SameRoute s0 s) : State.SameRoute s0 (s.servoRecord o) := by
  unfold State.servoRecord
  exact sameRoute_modTime (s := s.draw.2) ⟨h.hold, h.port⟩ fun _ => rfl

theorem sameRoute_followHead {o : Int} {st : RecState} (h : State.SameRoute s0 s) : State.SameRoute s0 (s.followHead o st) :=
  sameRoute_setRec (sameRoute_ite (sameRoute_stepRecord h) (sameRoute_servoRecord h))

theorem recState_setRec (s : State) (st : RecState) : (s.setRec st).head.time.recState = st := by
  unfold State.setRec
  dsimp only
  split
  case isTrue h => exact h
  case isFalse => exact congrArg TimeBase.recState (told_raiseHead (.refl _)).time

theorem sameRoute_routeChanged (h : s.isHead = false) (hj : s.joined = true) :
    State.SameRoute (s.modTime fun tb => { tb with routeHold := true }) s.routeChanged := by
  unfold State.routeChanged State.holdRecord
  simp only [h, hj, Bool.not_true, Bool.or_self, Bool.false_eq_true, if_false]
  exact sameRoute_ite (sameRoute_setRec ⟨rfl, rfl⟩) ⟨rfl, rfl⟩

theorem routeHold_routeChanged (h : s.isHead = false) (hj : s.joined = true) : s.routeChanged.head.time.routeHold = true :=
  (sameRoute_routeChanged h hj).hold

end routeHold

/-! ### The route (R370, R371, R374) -/

section route

variable {s s' : State} {port : Fin 2}

/-- What names a package's place on the board stands. -/
theorem State.Ring.isHead (h : State.Ring s s') : s'.isHead = s.isHead := by rw [State.isHead, h.board]; rfl

theorem State.Ring.joined (h : State.Ring s s') : s'.joined = s.joined := by rw [State.joined, h.board]; rfl

theorem State.Ring.portCarries (h : State.Ring s s') (port : Fin 2) : s'.portCarries port = s.portCarries port := by
  have die : (s'.tile .t0).die = (s.tile .t0).die := by rw [h.tiles .t0]
  rw [State.portCarries, h.joined, h.board, die]
  rfl

theorem headPort_routeChanged (s : State) : s.routeChanged.head.board.headPort = s.head.board.headPort := by
  unfold State.routeChanged
  split
  · rfl
  · exact (sameRoute_ite (sameRoute_setRec (.refl _)) (.refl _)).port

theorem headPort_routeBy (h : s.isHead = false) : (s.routeBy port).head.board.headPort = port := by
  unfold State.routeBy
  split
  case isTrue e => simpa [h] using e
  case isFalse => exact headPort_routeChanged _

end route

/-! ### The check of the straps (R367, R369, R376) -/

theorem State.strapsFine_congr {s s' : State} (h1 : s'.head.serial = s.head.serial) (h2 : s'.head.board.straps = s.head.board.straps)
    (h3 : s'.head.board.known = s.head.board.known) (h4 : s'.head.board.neighbours = s.head.board.neighbours) :
    s'.strapsFine = s.strapsFine := by
  simp only [State.strapsFine, State.boardStraps, State.neighbourFine, h1, h2, h3, h4]

theorem neighbourFine_of_strapsFine {s : State} {port : Fin 2} {n : Straps} (h : s.strapsFine = true)
    (hn : (s.head.board.neighbours)[port] = some n) : s.neighbourFine port n = true := by
  unfold State.strapsFine at h
  have ends := List.all_eq_true.mp (Bool.and_eq_true_iff.mp h).2 port (by fin_cases port <;> decide)
  rwa [hn] at ends

theorem getLsbD_pkgBit (k : Fin 4) : (pkgBit k.val).getLsbD k.val = true := by
  revert k
  decide

/-- The packages that a recount numbers. -/
def Board.counted (b : Board) : Nat := ((List.range 4).filter b.present.getLsbD).length

theorem recount_eq (s : State) : s.recount = s.modBoard fun b =>
    { b with packages := if s.head.host.ready || !s.joined then b.packages else b.counted } := by
  unfold State.recount
  split <;> rfl

/-- What a check of the straps leaves: beside what it learns, the board's record stands. -/
structure State.Checked (s s' : State) : Prop where
  serial  : s'.head.serial = s.head.serial
  board   : s'.head.board = { s.head.board with
    keep := s'.head.board.keep, reachable := s'.head.board.reachable, tilesUp := s'.head.board.tilesUp, headPort := s'.head.board.headPort
    strapFault := s'.head.board.strapFault, packages := s'.head.board.packages, present := s'.head.board.present
    tilesPresent := s'.head.board.tilesPresent }
  tiles   : ∀ t, Tile.Told (s.tile t) (s'.tile t)
  fault   : s'.head.board.strapFault = (s.head.board.strapFault || !s.strapsFine)
  present : s'.head.board.strapFault = false → ∀ k, s.head.board.present.getLsbD k = true → s'.head.board.present.getLsbD k = true
  counted : s'.head.board.strapFault = false → s.head.host.ready = false → s'.head.board.packages = s'.head.board.counted
  alone   : s.head.board.strapFault = false → s'.head.board.strapFault = true → s'.head.board.packages = 1

theorem State.Checked.ring {s s' s'' : State} (h : State.Checked s s') (k : State.Ring s' s'') : State.Checked s s'' := by
  have e := k.board
  have present : s''.head.board.present = s'.head.board.present := by rw [e]
  have fault : s''.head.board.strapFault = s'.head.board.strapFault := by rw [e]
  have packages : s''.head.board.packages = s'.head.board.packages := by rw [e]
  refine ⟨k.serial.trans h.serial, ?_, fun t => (h.tiles t).trans (k.tiles t), fault.trans h.fault, ?_, ?_, ?_⟩
  · have tiles : s''.head.board.tilesPresent = s'.head.board.tilesPresent := by rw [e]
    rw [h.board] at e
    rw [present, fault, packages, tiles]
    exact e
  · rw [fault, present]
    exact h.present
  · rw [fault, packages, Board.counted, present]
    exact h.counted
  · rw [fault, packages]
    exact h.alone

/-- The board's record of a package that forms no board. -/
def Board.failed (b : Board) : Board :=
  let own := fun (m : BitVec 16) => (m >>> (4 * b.straps.num.val)) &&& 15
  { b with strapFault := true, packages := 1, tilesPresent := own b.tilesPresent, tilesUp := own b.tilesUp
           present := if b.straps.head then 1 else 0, reachable := if b.straps.head then 1 else 0 }

theorem ring_strapsFail {s : State} (h : s.head.board.strapFault = false) : State.Ring (s.modBoard Board.failed) s.strapsFail := by
  unfold State.strapsFail
  simp only [h, Bool.false_eq_true, if_false]
  exact ring_startDone (ring_ite (ring_raiseHead (.refl _)) (.refl _))

theorem checked_strapCheck (s : State) : State.Checked s s.strapCheck := by
  unfold State.strapCheck
  split
  case isTrue h =>
    refine ⟨rfl, rfl, fun _ => .refl _, by simp [h], fun _ _ => id, fun h' => ?_, fun h' => ?_⟩
    all_goals exact absurd (h.symm.trans h') (by decide)
  case isFalse h =>
    have none : s.head.board.strapFault = false := by simpa using h
    split
    case isTrue fine =>
      rw [recount_eq]
      have joins : s.head.board.straps.join = true := by
        unfold State.strapsFine State.boardStraps at fine
        simp only [List.all_cons, strapsKeep, Bool.and_eq_true] at fine
        exact fine.1.1.1.1
      refine ⟨rfl, rfl, fun _ => .refl _, none.trans ?_, fun _ k hk => ?_, fun _ hr => ?_, fun _ h' => ?_⟩
      · rw [none, fine]
        rfl
      · show BitVec.getLsbD (if _ then _ else _) k = true
        split
        · rw [BitVec.getLsbD_or, hk, Bool.true_or]
        · exact hk
      · have numbers : ((s.head.host.ready || !(s.head.board.straps.join && !s.head.board.strapFault)) = true) = False := by
          simp [hr, joins, none]
        exact if_neg (numbers ▸ id)
      · exact absurd (none.symm.trans h') (by decide)
    case isFalse unfit =>
      have failed := ring_tellStraps (ring_strapsFail none)
      have board := failed.board
      have fault : s.strapsFail.tellStraps.head.board.strapFault = true := by rw [board]; rfl
      refine ⟨failed.serial, ?_, failed.tiles, ?_, fun h' => absurd (fault.symm.trans h') (by decide),
        fun h' => absurd (fault.symm.trans h') (by decide), fun _ _ => by rw [board]; rfl⟩
      · have present : s.strapsFail.tellStraps.head.board.present = (s.modBoard Board.failed).head.board.present := by rw [board]
        have packages : s.strapsFail.tellStraps.head.board.packages = 1 := by rw [board]; rfl
        have tiles : s.strapsFail.tellStraps.head.board.tilesPresent = (s.modBoard Board.failed).head.board.tilesPresent := by rw [board]
        rw [present, fault, packages, tiles]
        exact board
      · rw [fault, Bool.eq_false_iff.mpr unfit]
        simp

/-! ### The commands of the links -/

theorem exec_boardwalkLinkTrained (port : Fin 2) (n : Straps) (s : State) :
    exec (.boardwalkLinkTrained port n) s = execBoardwalkLinkTrained port n s := rfl

theorem exec_boardwalkTrainingRetry (port : Fin 2) (s : State) :
    exec (.boardwalkTrainingRetry port) s = execBoardwalkTrainingRetry port s := rfl

theorem exec_boardwalkPortDown (port : Fin 2) (s : State) : exec (.boardwalkPortDown port) s = .next (s.portDown port) := rfl

theorem exec_boardwalkFrameReceived (port : Fin 2) (a : BwkFrame × Nat) (s : State) :
    exec (.boardwalkFrameReceived port a) s = execBoardwalkFrameReceived port a s := rfl

theorem exec_bwkRetransmitTimer (s : State) : exec .bwkRetransmitTimer s = execBwkRetransmitTimer s := rfl

theorem exec_forwardAckTimeout (q : Fin 32) (tag : Word) (s : State) :
    exec (.forwardAckTimeout q tag) s = execForwardAckTimeout q tag s := rfl

theorem exec_bwkTimingExchange (port : Fin 2) (roundTrip : Nat) (lead : Option BwkLead) (s : State) :
    exec (.bwkTimingExchange port roundTrip lead) s = execBwkTimingExchange port roundTrip lead s := rfl

section trained

variable {s : State} {port : Fin 2}

theorem other_ne (port : Fin 2) : 1 - port ≠ port := by
  revert port
  decide

/-- The board's record of a port that has just trained. -/
def Board.trained (b : Board) (port : Fin 2) (n : Straps) (ok : Bool) : Board :=
  { b with ports := vset b.ports port (if ok then .up else .strapFailed)
           neighbours := vset b.neighbours port (some n), trying := vset b.trying port false
           present := if ok && b.straps.head && !b.strapFault then b.present ||| pkgBit b.straps.num.val ||| pkgBit n.num.val
                      else b.present }

/-- The state in which a trained link has its straps checked. -/
def State.linkTrained (s : State) (port : Fin 2) (n : Straps) : State :=
  let s1 := s.modBoard fun b => b.trained port n (s.neighbourFine port n)
  if s.neighbourFine port n && !s.portCarries s.head.board.headPort then s1.recount.routeBy port else s1.recount

theorem linkTrained_checks (n : Straps) (hj : s.head.board.straps.join = true) (hh : s.startHalted = false)
    (hr : (s.tile .t0).die.inReset = false) (hp : (s.head.board.ports)[port] ≠ .up) :
    exec (.boardwalkLinkTrained port n) s = .next (s.linkTrained port n).strapCheck.tellStraps.startDone := by
  have down : ((s.head.board.ports)[port] == BwkPortState.up) = false := by simpa using hp
  rw [exec_boardwalkLinkTrained, execBoardwalkLinkTrained, onHead_eq]
  simp only [hj, hh, hr, down, Bool.not_true, Bool.or_self, Bool.false_eq_true, if_false]
  rfl

theorem logged_routeBy {s0 s : State} (h : State.Logged s0 s) : State.Logged s0 (s.routeBy port) := by
  unfold State.routeBy State.routeChanged State.holdRecord State.setRec State.raiseHead
  have h1 := logged_modHead (f := fun h => { h with board := { h.board with headPort := port } }) h rfl
  have h2 := logged_modHead (f := fun h => { h with time := { h.time with routeHold := true } }) h1 rfl
  refine logged_ite h (logged_ite h1 (logged_ite (logged_ite h2 ?_) h2))
  exact logged_eventOut (logged_ite (logged_logEvent (logged_modHead h2 rfl)) (logged_modHead h2 rfl))

/-- Of the board's record, a trained link changes beside its own port what is numbered, and the route. -/
theorem linkTrained_board (s : State) (port : Fin 2) (n : Straps) :
    (s.linkTrained port n).head.serial = s.head.serial ∧ (s.linkTrained port n).head.host.ready = s.head.host.ready ∧
    (s.linkTrained port n).head.board = { s.head.board.trained port n (s.neighbourFine port n) with
      keep := (s.linkTrained port n).head.board.keep, reachable := (s.linkTrained port n).head.board.reachable
      tilesUp := (s.linkTrained port n).head.board.tilesUp, headPort := (s.linkTrained port n).head.board.headPort
      packages := (s.linkTrained port n).head.board.packages } ∧
    ∀ t, Tile.Told (s.tile t) ((s.linkTrained port n).tile t) := by
  have ring : State.Ring (s.modBoard fun b => b.trained port n (s.neighbourFine port n)).recount (s.linkTrained port n) :=
    ring_ite (ring_routeBy (.refl _)) (.refl _)
  have logged : State.Logged (s.modBoard fun b => b.trained port n (s.neighbourFine port n)).recount (s.linkTrained port n) :=
    logged_ite (logged_routeBy (.refl _)) (.refl _)
  rw [recount_eq] at ring logged
  refine ⟨ring.serial, ?_, ?_, ring.tiles⟩
  · rw [logged.host]
    rfl
  · have packages : (s.linkTrained port n).head.board.packages = _ := congrArg Board.packages ring.board
    rw [packages]
    exact ring.board

theorem vset_port {α : Type} (v : Vector α 2) (port : Fin 2) (x : α) : (vset v port x)[port] = x := by
  rw [vset_get, if_pos rfl]

theorem vset_other {α : Type} (v : Vector α 2) (port : Fin 2) (x : α) : (vset v port x)[1 - port] = v[1 - port] := by
  rw [vset_get, if_neg (other_ne port).symm]

theorem boardwalkLinkTrained_trains (n : Straps) (hj : s.head.board.straps.join = true) (hh : s.startHalted = false)
    (hr : (s.tile .t0).die.inReset = false) (hp : (s.head.board.ports)[port] ≠ .up) :
    ∃ s', exec (.boardwalkLinkTrained port n) s = .next s' ∧ (s'.head.board.neighbours)[port] = some n ∧
      (s'.head.board.ports)[port] = (if s.neighbourFine port n then .up else .strapFailed) ∧
      s'.head.board.strapFault =
        (s.head.board.strapFault || !(s.modBoard fun b => { b with neighbours := vset b.neighbours port (some n) }).strapsFine) ∧
      (s'.head.board.ports)[1 - port] = (s.head.board.ports)[1 - port] ∧
      (s'.head.board.strapFault = false → s.head.board.straps.head = true → s'.head.board.present.getLsbD n.num.val = true) ∧
      (s'.head.board.strapFault = false → s.head.host.ready = false →
        s'.head.board.packages = ((List.range 4).filter s'.head.board.present.getLsbD).length) ∧
      (s.head.board.strapFault = false → s'.head.board.strapFault = true → s'.head.board.packages = 1) ∧
      ∀ t, Tile.Told (s.tile t) (s'.tile t) := by
  obtain ⟨serial, ready, board, tiles⟩ := linkTrained_board s port n
  have checked := (checked_strapCheck (s.linkTrained port n)).ring (ring_startDone (ring_tellStraps (.refl _)))
  have fault2 : (s.linkTrained port n).head.board.strapFault = s.head.board.strapFault := by rw [board]; rfl
  have fine2 : (s.linkTrained port n).strapsFine =
      (s.modBoard fun b => { b with neighbours := vset b.neighbours port (some n) }).strapsFine :=
    State.strapsFine_congr serial (by rw [board]; rfl) (by rw [board]; rfl) (by rw [board]; rfl)
  have fault := checked.fault
  refine ⟨_, linkTrained_checks n hj hh hr hp, ?_, ?_, fault.trans (by rw [fault2, fine2]), ?_, fun h hd => ?_, fun h hr => ?_,
    fun h => checked.alone (fault2.trans h), fun t => (tiles t).trans (checked.tiles t)⟩
  · rw [checked.board, board]
    exact vset_port ..
  · rw [checked.board, board]
    exact vset_port ..
  · rw [checked.board, board]
    exact vset_other ..
  · refine checked.present h _ ?_
    rw [h, fault2, fine2] at fault
    obtain ⟨none, fine⟩ : s.head.board.strapFault = false ∧
        (s.modBoard fun b => { b with neighbours := vset b.neighbours port (some n) }).strapsFine = true := by
      simpa using fault.symm
    have fits := neighbourFine_of_strapsFine (port := port) (n := n) fine (vset_port ..)
    have ok : s.neighbourFine port n = true := fits
    have present : (s.linkTrained port n).head.board.present =
        s.head.board.present ||| pkgBit s.head.board.straps.num.val ||| pkgBit n.num.val := by
      rw [board]
      exact if_pos (by simp [ok, hd, none])
    rw [present, BitVec.getLsbD_or, getLsbD_pkgBit, Bool.or_true]
  · exact checked.counted h (ready.trans hr)

theorem boardwalkTrainingRetry_trains (hj : s.head.board.straps.join = true) (hh : s.startHalted = false)
    (hr : (s.tile .t0).die.inReset = false) :
    ∃ s', exec (.boardwalkTrainingRetry port) s = .next s' ∧ (s'.head.board.trying)[port] = false ∧
      (s'.head.board.ports)[port] = (if (s.head.board.ports)[port] = .down then .training else (s.head.board.ports)[port]) ∧
      (s'.head.board.ports)[1 - port] = (s.head.board.ports)[1 - port] ∧ s'.tiles = s.tiles ∧ s'.out = s.out := by
  have started (s : State) : s.startDone.head.board = s.head.board ∧ s.startDone.tiles = s.tiles ∧ s.startDone.out = s.out := by
    unfold State.startDone
    split <;> exact ⟨rfl, rfl, rfl⟩
  refine ⟨State.startDone (s.modBoard fun b =>
    { b with ports := if b.ports[port] == .down then vset b.ports port .training else b.ports
             trying := vset b.trying port false }), ?_, ?_⟩
  · rw [exec_boardwalkTrainingRetry, execBoardwalkTrainingRetry, onHead_eq]
    simp only [hj, hh, hr, Bool.not_false, Bool.and_self, if_true]
  · obtain ⟨board, tiles, out⟩ := started (s.modBoard fun b =>
      { b with ports := if b.ports[port] == .down then vset b.ports port .training else b.ports
               trying := vset b.trying port false })
    rw [board]
    refine ⟨vset_port .., ?_, ?_, tiles, out⟩
    · show (if _ then _ else _ : Vector BwkPortState 2)[port] = _
      by_cases down : (s.head.board.ports)[port] = .down
      · rw [if_pos (beq_iff_eq.mpr down), if_pos down, vset_port]
      · rw [if_neg (fun h => down (beq_iff_eq.mp h)), if_neg down]
    · show (if _ then _ else _ : Vector BwkPortState 2)[1 - port] = _
      split
      · exact vset_other ..
      · rfl

end trained

/-! ### A port that goes down (R370, R372, R374) -/

section down

variable {s s' : State} {port : Fin 2}

theorem port_cases (p port : Fin 2) : p = port ∨ p = 1 - port := by
  revert p port
  decide

/-- The board's record of a port that has gone down. -/
def Board.portLost (b : Board) (port : Fin 2) : Board :=
  { b with ports := vset b.ports port .down, neighbours := vset b.neighbours port none, crcErrors := vset b.crcErrors port []
           delays := vset b.delays port 0xFFFF, trying := vset b.trying port false, linkChanges := min 255 (b.linkChanges + 1) }

/-- The state in which the routes are looked at when a port has gone down. -/
def State.portLost (s : State) (port : Fin 2) : State :=
  (s.modBoard fun b => b.portLost port).raiseHead 0x71 (leBytes 1 s.head.board.straps.num.val ++ leBytes 1 port.val ++ leBytes 1 0)

theorem ring_portLost (s : State) (port : Fin 2) : State.Ring (s.modBoard fun b => b.portLost port) (s.portLost port) := ring_raiseHead (.refl _)

theorem isHead_portLost (s : State) (port : Fin 2) : (s.portLost port).isHead = s.isHead := (ring_portLost s port).isHead

theorem portDown_eq (hj : s.head.board.straps.join = true) (hp : (s.head.board.ports)[port] ≠ .down) :
    s.portDown port = if s.isHead then (s.portLost port).losePaths.startDone
      else if s.head.board.headPort ≠ port then s.portLost port
      else if (s.portLost port).portCarries (1 - port) then (s.portLost port).routeBy (1 - port)
      else (s.portLost port).routeChanged := by
  have up : ((s.head.board.ports)[port] == BwkPortState.down) = false := by simpa using hp
  rw [← isHead_portLost s port]
  unfold State.portDown
  simp only [up, hj, Bool.not_true, Bool.or_self, Bool.false_eq_true, if_false]
  rfl

theorem ring_portDown (hj : s.head.board.straps.join = true) (hp : (s.head.board.ports)[port] ≠ .down) :
    State.Ring (s.modBoard fun b => b.portLost port) (s.portDown port) := by
  rw [portDown_eq hj hp]
  have lost := ring_portLost s port
  exact ring_ite (ring_startDone (ring_losePaths lost)) (ring_ite lost (ring_ite (ring_routeBy lost) (ring_routeChanged lost)))

/-! #### At the board head -/

theorem bwkRoute_none (h : s.isHead = true) (hc : ∀ p, s.portCarries p = false) (k : Nat) : s.bwkRoute k = none := by
  unfold State.bwkRoute State.wayOpen
  simp [h, hc]

theorem reachable_packageLost (s : State) (k cause : Nat) :
    (s.packageLost k cause).head.board.reachable =
      if s.head.board.reachable.getLsbD k then s.head.board.reachable &&& ~~~(pkgBit k) else s.head.board.reachable := by
  unfold State.packageLost
  by_cases h : s.head.board.reachable.getLsbD k = true
  · simp only [h, Bool.not_true, Bool.false_eq_true, if_false, if_true]
    exact congrArg (fun h : Head => h.board.reachable) (told_raiseHead (.refl _)).head
  · simp [h]

theorem unreachable_packageLost (s : State) (k : Fin 4) (cause : Nat) :
    (s.packageLost k.val cause).head.board.reachable.getLsbD k.val = false := by
  rw [reachable_packageLost]
  split
  · rw [BitVec.getLsbD_and, BitVec.getLsbD_not, getLsbD_pkgBit]
    simp
  case isFalse h => simpa using h

theorem unreachable_stays (s : State) (k j cause : Nat) (h : s.head.board.reachable.getLsbD j = false) :
    (s.packageLost k cause).head.board.reachable.getLsbD j = false := by
  rw [reachable_packageLost]
  split
  · rw [BitVec.getLsbD_and, h, Bool.false_and]
  · exact h

/-- Without a port the board head reaches no package. -/
theorem unreachable_losePaths (h : s.isHead = true) (hc : ∀ p, s.portCarries p = false) (k : Nat) (h1 : 1 ≤ k) (h4 : k < 4) :
    s.losePaths.head.board.reachable.getLsbD k = false := by
  have lost {x : State} (r : State.Ring s x) (j : Nat) : (if (x.bwkRoute j).isSome then x else x.packageLost j 1) = x.packageLost j 1 := by
    rw [bwkRoute_none (r.isHead.trans h) (fun p => (r.portCarries p).trans (hc p))]
    rfl
  have r1 : State.Ring s (s.packageLost 1 1) := ring_packageLost (.refl s)
  have r2 : State.Ring s ((s.packageLost 1 1).packageLost 2 1) := ring_packageLost r1
  unfold State.losePaths
  rw [if_pos h]
  simp only [State.each_cons, State.each_nil]
  rw [lost (.refl s), lost r1, lost r2]
  obtain rfl | rfl | rfl : k = 1 ∨ k = 2 ∨ k = 3 := by omega
  · exact unreachable_stays _ _ _ _ (unreachable_stays _ _ _ _ (unreachable_packageLost s 1 1))
  · exact unreachable_stays _ _ _ _ (unreachable_packageLost _ 2 1)
  · exact unreachable_packageLost _ 3 1

theorem carries_portLost_other (s : State) (port : Fin 2) : (s.portLost port).portCarries (1 - port) = s.portCarries (1 - port) := by
  rw [(ring_portLost s port).portCarries]
  have same : ((s.modBoard fun b => b.portLost port).head.board.ports)[1 - port] = (s.head.board.ports)[1 - port] := vset_other ..
  rw [State.portCarries, same]
  rfl

theorem carries_portLost_none (ho : (s.head.board.ports)[1 - port] ≠ .up) (p : Fin 2) : (s.portLost port).portCarries p = false := by
  rcases port_cases p port with rfl | rfl
  · rw [(ring_portLost s p).portCarries]
    have down : ((s.modBoard fun b => b.portLost p).head.board.ports)[p] = .down := vset_port ..
    rw [State.portCarries, down]
    simp
  · rw [carries_portLost_other, State.portCarries, beq_eq_false_iff_ne.mpr ho]
    simp

theorem unreachable_portDown (hj : s.head.board.straps.join = true) (hp : (s.head.board.ports)[port] ≠ .down) (h : s.isHead = true)
    (ho : (s.head.board.ports)[1 - port] ≠ .up) (k : Nat) (h1 : 1 ≤ k) (h4 : k < 4) :
    (s.portDown port).head.board.reachable.getLsbD k = false := by
  rw [portDown_eq hj hp, if_pos h]
  have started (s : State) : s.startDone.head.board = s.head.board := by
    unfold State.startDone
    split <;> rfl
  rw [started]
  exact unreachable_losePaths ((isHead_portLost s port).trans h) (carries_portLost_none ho) k h1 h4

/-! #### At another package -/

theorem routeHold_routeBy (h : s.isHead = false) (hj : s.joined = true) (hp : s.head.board.headPort ≠ port) :
    (s.routeBy port).head.time.routeHold = true := by
  unfold State.routeBy
  rw [if_neg (by simp [h, hp])]
  exact routeHold_routeChanged h hj

theorem portDown_reroutes (hj : s.head.board.straps.join = true) (hp : (s.head.board.ports)[port] ≠ .down) (h : s.isHead = false)
    (joined : s.joined = true) (hh : s.head.board.headPort = port) :
    (s.portDown port).head.time.routeHold = true ∧
      (s.portCarries (1 - port) = true → (s.portDown port).head.board.headPort = 1 - port) := by
  have head2 := (isHead_portLost s port).trans h
  have joined2 := (ring_portLost s port).joined.trans joined
  have port2 : (s.portLost port).head.board.headPort = port :=
    (congrArg (fun h : Head => h.board.headPort) (told_raiseHead (.refl _)).head).trans hh
  rw [portDown_eq hj hp, if_neg (by simp [h]), if_neg (by simp [hh]), carries_portLost_other]
  split
  · exact ⟨routeHold_routeBy head2 joined2 (by rw [port2]; exact (other_ne port).symm), fun _ => headPort_routeBy head2⟩
  case isFalse hn => exact ⟨routeHold_routeChanged head2 joined2, fun hc => absurd hc hn⟩

theorem boardwalkPortDown_goes (hj : s.head.board.straps.join = true) (hp : (s.head.board.ports)[port] ≠ .down) :
    ∃ s', exec (.boardwalkPortDown port) s = .next s' ∧
      (s'.head.board.ports)[port] = .down ∧ (s'.head.board.ports)[1 - port] = (s.head.board.ports)[1 - port] ∧
      (s'.head.board.neighbours)[port] = none ∧ (s'.head.board.delays)[port] = 0xFFFF ∧
      (s'.head.board.crcErrors)[port] = [] ∧ s'.head.board.linkChanges = min 255 (s.head.board.linkChanges + 1) ∧
      (s.isHead = true → (s.head.board.ports)[1 - port] ≠ .up → ∀ k, 1 ≤ k → k < 4 → s'.head.board.reachable.getLsbD k = false) ∧
      (s.isHead = false → s.joined = true → s.head.board.headPort = port → s'.head.time.routeHold = true ∧
        (s.portCarries (1 - port) = true → s'.head.board.headPort = 1 - port)) ∧
      ∀ t, Tile.Told (s.tile t) (s'.tile t) := by
  have ring := ring_portDown hj hp
  refine ⟨_, exec_boardwalkPortDown .., ?_, ?_, ?_, ?_, ?_, ?_, unreachable_portDown hj hp, portDown_reroutes hj hp, ring.tiles⟩
  case refine_2 =>
    rw [ring.board]
    exact vset_other ..
  case refine_6 =>
    rw [ring.board]
    rfl
  all_goals
    rw [ring.board]
    exact vset_port ..

end down

/-! ### Frames (R369 to R372) -/

section frames

variable {s : State} {port : Fin 2} {f : BwkFrame} {now : Nat}

theorem frame_untrained (ht : s.portTrained port = false) : exec (.boardwalkFrameReceived port (f, now)) s = .next (s.at now) := by
  have ht : (s.at now).portTrained port = false := ht
  rw [exec_boardwalkFrameReceived, execBoardwalkFrameReceived, onHead_eq]
  simp only [ht, Bool.not_false, if_true]

section trained

variable (ht : s.portTrained port = true)

include ht

theorem frame_damaged (hc : f.crcOk = false) :
    exec (.boardwalkFrameReceived port (f, now)) s = .next ((s.at now).bwkCrcError port) := by
  have ht : (s.at now).portTrained port = true := ht
  rw [exec_boardwalkFrameReceived, execBoardwalkFrameReceived, onHead_eq]
  simp only [ht, hc, Bool.not_true, Bool.not_false, Bool.false_eq_true, if_false, if_true]

theorem frame_straps (hc : f.crcOk = true) {known : List (BitVec 64 × Straps)} {fault : Bool} (hf : f.payload = .straps known fault) :
    exec (.boardwalkFrameReceived port (f, now)) s = .next ((s.at now).strapsTold known fault) := by
  have ht : (s.at now).portTrained port = true := ht
  rw [exec_boardwalkFrameReceived, execBoardwalkFrameReceived, onHead_eq]
  simp only [ht, hc, hf, Bool.not_true, Bool.false_eq_true, if_false]

/-- A frame that tells no straps goes on, or is delivered. -/
theorem frame_carried (hc : f.crcOk = true) (hf : ∀ known fault, f.payload ≠ .straps known fault) (hp : s.portCarries port = true) :
    exec (.boardwalkFrameReceived port (f, now)) s = .next
      (if f.dst.val ≠ s.pkg then (s.at now).bwkRelay port f
       else if !(s.tile .t0).die.svc then s.at now else ((s.at now).noteRoute port f.src).bwkDeliver f) := by
  have ht : (s.at now).portTrained port = true := ht
  have hp : (s.at now).portCarries port = true := hp
  rw [exec_boardwalkFrameReceived, execBoardwalkFrameReceived, onHead_eq]
  simp only [ht, hc, hp, Bool.not_true, Bool.false_eq_true, if_false]
  cases e : f.payload with
  | straps known fault => exact absurd e (hf known fault)
  | _ => rfl

end trained

theorem trained_of_carries (h : s.portCarries port = true) : s.portTrained port = true := by
  unfold State.portCarries State.joined at h
  unfold State.portTrained
  simp only [Bool.and_eq_true] at h ⊢
  obtain ⟨⟨⟨join, -⟩, up⟩, runs⟩ := h
  exact ⟨⟨join, by rw [up, Bool.true_or]⟩, runs⟩

theorem bwkCrcError_at (s : State) (port : Fin 2) :
    (15 ≤ ((s.head.board.crcErrors)[port].filter fun i => decide (s.now < i + 1000000)).length → s.bwkCrcError port = s.portDown port) ∧
    (((s.head.board.crcErrors)[port].filter fun i => decide (s.now < i + 1000000)).length < 15 → s.bwkCrcError port =
      s.modBoard fun b =>
        { b with crcErrors := vset b.crcErrors port (((s.head.board.crcErrors)[port].filter fun i => decide (s.now < i + 1000000)) ++ [s.now]) }) := by
  unfold State.bwkCrcError
  simp only [List.length_append, List.length_singleton]
  exact ⟨fun h => if_pos (by omega), fun h => if_neg (by omega)⟩

/-! #### Straps -/

theorem known_strapsTold (s : State) (known : List (BitVec 64 × Straps)) (fault : Bool) :
    (s.strapsTold known fault).head.board.known = s.head.board.known ++ (known.filter fun x => !s.boardStraps.contains x) ∧
    (fault = true → (s.strapsTold known fault).head.board.strapFault = true) := by
  have told (x y : State) (h : x.head.board.known = y.head.board.known ∧ (fault = true → x.head.board.strapFault = true)) {c : Prop} [Decidable c] :
      (if c then x else x.tellStraps).head.board.known = y.head.board.known ∧
      (fault = true → (if c then x else x.tellStraps).head.board.strapFault = true) := by
    split
    · exact h
    · rw [(ring_tellStraps (.refl x)).board]
      exact h
  unfold State.strapsTold
  refine told _ (s.modBoard fun b => { b with known := b.known ++ (known.filter fun x => !s.boardStraps.contains x) }) ?_
  split
  case isTrue h =>
    have none : s.head.board.strapFault = false := by simpa using (Bool.and_eq_true_iff.mp h).2
    rw [(ring_tellStraps (ring_strapsFail (s := s.modBoard fun b => { b with known := b.known ++ (known.filter fun x => !s.boardStraps.contains x) }) none)).board]
    exact ⟨rfl, fun _ => rfl⟩
  case isFalse h =>
    have checked := checked_strapCheck (s.modBoard fun b => { b with known := b.known ++ (known.filter fun x => !s.boardStraps.contains x) })
    refine ⟨by rw [checked.board], fun hf => ?_⟩
    have stands : s.head.board.strapFault = true := by simpa [hf] using h
    refine checked.fault.trans ?_
    exact (congrArg (· || _) stands).trans (Bool.true_or _)

/-! #### Frames for another package -/

theorem bwkRelay_head (h : s.isHead = true) : (s.at now).bwkRelay port f =
    match s.bwkRoute f.dst.val with
    | some p => (s.at now).emit (.boardwalk p f)
    | none => s.at now := if_pos h

theorem bwkRelay_ring (h : s.isHead = false) : (s.at now).bwkRelay port f =
    if s.portCarries (1 - port) then (s.at now).emit (.boardwalk (1 - port) f) else s.at now := if_neg (by
  show ¬ s.isHead = true
  simp [h])

/-! #### Frames for this package -/

theorem noteRoute_head (src : Fin 4) (h : s.isHead = true) : s.noteRoute port src = s := by
  unfold State.noteRoute State.routeBy
  simp [h]

theorem headPort_noteRoute (h : s.isHead = false) : (s.noteRoute port 0).head.board.headPort = port := headPort_routeBy h

theorem outstanding_noteRoute (s : State) (src : Fin 4) : (s.noteRoute port src).head.host.outstanding = s.head.host.outstanding := by
  unfold State.noteRoute
  split
  · exact (logged_routeBy (.refl s)).outstanding
  · rfl

/-- On another package a frame for the head leaves by the route's port, or by the other (R370). -/
theorem bwkSend_to_head (h : s.isHead = false) (hp : s.portCarries port = true) (pl : BwkPayload) :
    ∃ p, s.bwkSend 0 pl = s.emit (.boardwalk p { src := s.head.board.straps.num, dst := 0, crcOk := true, payload := pl }) := by
  have route : ∃ p, s.bwkRoute 0 = some p := by
    unfold State.bwkRoute
    simp only [h, Bool.false_eq_true, if_false, ne_eq, not_true_eq_false, false_and]
    split
    · exact ⟨_, rfl⟩
    case isFalse k =>
      rw [if_pos]
      · exact ⟨_, rfl⟩
      · rcases port_cases port s.head.board.headPort with e | e
        · exact absurd (e ▸ hp) k
        · exact e ▸ hp
  obtain ⟨p, route⟩ := route
  refine ⟨p, ?_⟩
  rw [State.bwkSend, route]
  rfl

/-- A descriptor for a tile of the package becomes outstanding, and is acknowledged. -/
theorem bwkDescriptor_taken {r : BwkRef} {session : Word} {hostId : BitVec 64} {d : List Byte} {t : TileId}
    (ht : TileId.ofNat? (fieldLe d 8 4 % 4) = some t) (hh : s.hasTile t = true) (hs : (s.tile t).die.svc = true)
    (hn : s.isHead = false) (hp : s.portCarries port = true) :
    ∃ o p, (s.bwkDescriptor r session hostId d).head.host.outstanding = s.head.host.outstanding ++ [o] ∧ o.ref = r ∧ o.remote = true ∧
      o.opcode = fieldLe d 0 1 ∧ o.session = session ∧ o.hostId = hostId ∧
      ((BitVec.ofNat 8 (fieldLe d 1 1)).getLsbD 0 = false → o.waiting = false) ∧
      (s.bwkDescriptor r session hostId d).head.board = { s.head.board with acks := s.head.board.acks ++ [r] } ∧
      (s.bwkDescriptor r session hostId d).tiles = s.tiles ∧
      (s.bwkDescriptor r session hostId d).out.head? =
        some (.boardwalk p { src := s.head.board.straps.num, dst := 0, crcOk := true, payload := .acknowledge r }) := by
  unfold State.bwkDescriptor
  rw [ht]
  simp only [hh, hs, Bool.not_true, Bool.or_self, Bool.false_eq_true, if_false]
  generalize hx : State.modBoard _ _ = x
  obtain ⟨p, sent⟩ := bwkSend_to_head (s := x) (port := port) (by rw [← hx]; exact hn) (by rw [← hx]; exact hp) (.acknowledge r)
  rw [sent]
  subst hx
  refine ⟨_, p, rfl, rfl, rfl, rfl, rfl, rfl, fun h => ?_, rfl, rfl, rfl⟩
  show (BitVec.getLsbD _ 0 && _) = false
  rw [h, Bool.false_and]

theorem bwkCompletion_done {k : Fin 4} {r : BwkRef} {st : Byte} {detail : Nat} {result : List Byte} {o : Outstanding}
    (ho : s.forwardedTo k r = some o) (hd : o.opcode ≠ 0x70) :
    s.bwkCompletion k r st detail result = (s.completeOut o st.toNat detail result).bwkSend k.val (.acknowledge r) := by
  unfold State.bwkCompletion
  rw [ho]
  simp [hd]

end frames

/-! ### Repetition (R320, R371) -/

section repetition

variable {s : State} {port : Fin 2}

theorem bwkRetransmitTimer_head (h : s.isHead = true) : exec .bwkRetransmitTimer s = .next s := by
  rw [exec_bwkRetransmitTimer, execBwkRetransmitTimer, onHead_eq]
  simp only [h, Bool.true_or, if_true]

/-- Frames that go out one by one leave the head and the tiles, and each is put out once. -/
theorem each_bwkSend {α : Type} (pl : α → BwkPayload) (l : List α) (s : State) (h : s.isHead = false) (hp : s.portCarries port = true) :
    (s.each l fun s x => s.bwkSend 0 (pl x)).out.length = s.out.length + l.length ∧
      (s.each l fun s x => s.bwkSend 0 (pl x)).head = s.head ∧ (s.each l fun s x => s.bwkSend 0 (pl x)).tiles = s.tiles := by
  induction l generalizing s with
  | nil => exact ⟨rfl, rfl, rfl⟩
  | cons x l ih =>
    obtain ⟨p, sent⟩ := bwkSend_to_head h hp (pl x)
    rw [State.each_cons, sent]
    obtain ⟨out, head, tiles⟩ := ih _ (show State.isHead (s.emit _) = false from h) (show State.portCarries (s.emit _) port = true from hp)
    refine ⟨out.trans ?_, head, tiles⟩
    rw [State.emit_out, List.length_cons, List.length_cons]
    omega

theorem bwkRetransmitTimer_sends (h : s.isHead = false) (hp : s.portCarries port = true) (hs : (s.tile .t0).die.svc = true) :
    ∃ s', exec .bwkRetransmitTimer s = .next s' ∧
      s'.out.length = s.out.length + s.head.board.acks.length + s.head.board.keep.length ∧ s'.head = s.head ∧ s'.tiles = s.tiles := by
  have carries : (s.portCarries 0 || s.portCarries 1) = true := by
    obtain rfl | rfl : port = 0 ∨ port = 1 := by omega
    · rw [hp, Bool.true_or]
    · rw [hp, Bool.or_true]
  obtain ⟨out1, head1, tiles1⟩ := each_bwkSend .acknowledge s.head.board.acks s h hp
  obtain ⟨out2, head2, tiles2⟩ := each_bwkSend (port := port) Prod.snd s.head.board.keep
    (s.each s.head.board.acks fun s r => s.bwkSend 0 (.acknowledge r))
    (by rw [State.isHead, head1]; exact h) (by rw [State.portCarries, State.joined, head1, State.tile, tiles1]; exact hp)
  refine ⟨_, ?_, out2.trans (by rw [out1]), head2.trans head1, tiles2.trans tiles1⟩
  rw [exec_bwkRetransmitTimer, execBwkRetransmitTimer, onHead_eq]
  simp only [h, carries, hs, Bool.not_true, Bool.or_self, Bool.false_eq_true, if_false]

theorem forwardAckTimeout_absent (q : Fin 32) (tag : Word) (hs : (s.tile .t0).die.svc = false) :
    exec (.forwardAckTimeout q tag) s = .next s := by
  rw [exec_forwardAckTimeout, execForwardAckTimeout, onHead_eq]
  simp only [hs, Bool.not_false, if_true]

theorem forwardAckTimeout_one {q : Fin 32} {tag : Word} {o : Outstanding} (ho : s.head.host.outstanding = [o]) (hq : o.queue = q)
    (ht : o.tag = tag) (hr : o.remote = false) (hs : (s.tile .t0).die.svc = true) :
    ((o.lost = true ∨ ∃ k, o.forwarded = some (k, false)) → exec (.forwardAckTimeout q tag) s = .next (s.completeOut o 0x0A 0 [])) ∧
      (o.lost = false → (∀ k, o.forwarded ≠ some (k, false)) → exec (.forwardAckTimeout q tag) s = .next s) := by
  rw [exec_forwardAckTimeout, execForwardAckTimeout, onHead_eq]
  simp only [hs, ho, Bool.not_true, Bool.false_eq_true, if_false]
  refine ⟨fun h => ?_, fun hl hf => ?_⟩
  · rcases h with h | ⟨k, h⟩
    all_goals rw [List.find?_cons_of_pos (by simp [hq, ht, hr, h])]
  · rcases e : o.forwarded with _ | ⟨k, _ | _⟩
    · rw [List.find?_cons_of_neg (by simp [hl, e]), List.find?_nil]
    · exact absurd e (hf k)
    · rw [List.find?_cons_of_neg (by simp [hl, e]), List.find?_nil]

end repetition

/-! ### Time over the links (R373, R374) -/

section timing

variable {s : State} {port : Fin 2}

/-- The measured delay of a link, kept. -/
def State.delayKept (s : State) (port : Fin 2) (roundTrip : Nat) : State :=
  s.modBoard fun b => { b with delays := vset b.delays port (min 0xFFFE (roundTrip / 2)) }

theorem bwkTimingExchange_eq (roundTrip : Nat) (lead : Option BwkLead) (hp : s.portCarries port = true) :
    exec (.bwkTimingExchange port roundTrip lead) s = .next
      (if s.isHead || (s.head.board.headPort ≠ port && s.portCarries s.head.board.headPort) then s.delayKept port roundTrip
       else match lead with
        | some l => ((s.delayKept port roundTrip).routeBy port).takeLead l (roundTrip / 2)
        | none => (s.delayKept port roundTrip).routeChanged) := by
  rw [exec_bwkTimingExchange, execBwkTimingExchange, onHead_eq]
  simp only [hp, Bool.not_true, Bool.false_eq_true, if_false]
  rfl

theorem bwkTimingExchange_other (roundTrip : Nat) (lead : Option BwkLead) (hp : s.portCarries port = true)
    (h : s.isHead = true ∨ (s.head.board.headPort ≠ port ∧ s.portCarries s.head.board.headPort = true)) :
    exec (.bwkTimingExchange port roundTrip lead) s = .next (s.delayKept port roundTrip) := by
  rw [bwkTimingExchange_eq _ _ hp, if_pos]
  simpa using h

theorem joined_of_carries (h : s.portCarries port = true) : s.joined = true := by
  unfold State.portCarries at h
  simp only [Bool.and_eq_true] at h
  obtain ⟨⟨joined, -⟩, -⟩ := h
  exact joined

theorem bwkTimingExchange_route (roundTrip : Nat) (lead : Option BwkLead) (hp : s.portCarries port = true) (hn : s.isHead = false)
    (h : s.head.board.headPort = port ∨ s.portCarries s.head.board.headPort = false) :
    ∃ s', exec (.bwkTimingExchange port roundTrip lead) s = .next s' ∧
      (s'.head.board.delays)[port] = min 0xFFFE (roundTrip / 2) ∧ (∀ t, Tile.Told (s.tile t) (s'.tile t)) ∧
      (∀ l, lead = some l → s'.head.board.headPort = port) ∧
      (∀ l, lead = some l → l.measured = true → s'.head.time.recState = recOfCode l.state ∧ s'.head.time.routeHold = false) ∧
      ((lead = none ∨ ∃ l, lead = some l ∧ l.measured = false) → s'.head.time.routeHold = true) := by
  have joined := joined_of_carries hp
  have taken : ¬ (s.isHead || (s.head.board.headPort ≠ port && s.portCarries s.head.board.headPort)) = true := by
    rcases h with h | h <;> simp [hn, h]
  have delay {x : State} (r : State.Ring (s.delayKept port roundTrip) x) : (x.head.board.delays)[port] = min 0xFFFE (roundTrip / 2) := by
    rw [r.board]
    exact vset_port ..
  rw [bwkTimingExchange_eq _ _ hp, if_neg taken]
  rcases lead with _ | l
  · have ring := ring_routeChanged (.refl (s.delayKept port roundTrip))
    refine ⟨_, rfl, delay ring, ring.tiles, ?_, ?_, fun _ => routeHold_routeChanged (s := s.delayKept port roundTrip) hn joined⟩
    · rintro l ⟨⟩
    · rintro l ⟨⟩
  · have routed := ring_routeBy (port := port) (.refl (s.delayKept port roundTrip))
    have port1 : ((s.delayKept port roundTrip).routeBy port).head.board.headPort = port := headPort_routeBy hn
    have ring := ring_takeLead (l := l) (delay := roundTrip / 2) routed
    refine ⟨_, rfl, delay ring, ring.tiles, fun _ _ => ?_, fun m e hm => ?_, fun hm => ?_⟩
    all_goals dsimp only
    · unfold State.takeLead
      split
      · exact (sameRoute_followHead (.refl _)).port.trans port1
      · exact (headPort_routeChanged _).trans port1
    · cases e
      rw [State.takeLead, if_pos hm]
      exact ⟨recState_setRec .., (sameRoute_followHead (.refl _)).hold⟩
    · have unmeasured : l.measured = false := by
        rcases hm with hm | ⟨m, e, hm⟩
        · cases hm
        · cases e; exact hm
      rw [State.takeLead, if_neg (by simp [unmeasured])]
      exact routeHold_routeChanged (routed.isHead.trans hn) (routed.joined.trans joined)

end timing

section delivered

variable {s : State} {port : Fin 2} {f : BwkFrame} {now : Nat}

/-- A frame for this package while its service core is present. -/
theorem frame_delivered (hc : f.crcOk = true) (hp : s.portCarries port = true) (hf : ∀ known fault, f.payload ≠ .straps known fault)
    (hd : f.dst.val = s.pkg) (hs : (s.tile .t0).die.svc = true) :
    exec (.boardwalkFrameReceived port (f, now)) s = .next (((s.at now).noteRoute port f.src).bwkDeliver f) := by
  rw [frame_carried (trained_of_carries hp) hc hf hp, if_neg (by simp [hd])]
  simp [hs]

theorem frame_descriptor (hc : f.crcOk = true) (hp : s.portCarries port = true) (hd : f.dst.val = s.pkg)
    (hs : (s.tile .t0).die.svc = true) {r : BwkRef} {session : Word} {hostId : BitVec 64} {d : List Byte} {t : TileId}
    (hn : s.isHead = false) (hf : f.payload = .descriptor r session hostId d) (ht : TileId.ofNat? (fieldLe d 8 4 % 4) = some t)
    (hh : s.hasTile t = true) (hst : (s.tile t).die.svc = true) :
    ∃ s' o p, exec (.boardwalkFrameReceived port (f, now)) s = .next s' ∧
      s'.head.host.outstanding = s.head.host.outstanding ++ [o] ∧ o.ref = r ∧ o.remote = true ∧
      o.opcode = fieldLe d 0 1 ∧ o.session = session ∧ o.hostId = hostId ∧
      ((BitVec.ofNat 8 (fieldLe d 1 1)).getLsbD 0 = false → o.waiting = false) ∧ r ∈ s'.head.board.acks ∧
      (f.src = 0 → s'.head.board.headPort = port) ∧ (∀ u, Tile.Told (s.tile u) (s'.tile u)) ∧
      s'.out.head? = some (.boardwalk p { src := s.head.board.straps.num, dst := 0, crcOk := true, payload := .acknowledge r }) := by
  have ring : State.Ring (s.at now) ((s.at now).noteRoute port f.src) := ring_noteRoute (.refl _)
  have svc : (((s.at now).noteRoute port f.src).tile t).die.svc = true := by
    rw [ring.tiles t]
    exact hst
  have part : ((s.at now).noteRoute port f.src).hasTile t = true := by
    rw [State.hasTile, ring.part]
    exact hh
  obtain ⟨o, p, outstanding, ref, remote, opcode, sess, host, waits, board, tiles, out⟩ := bwkDescriptor_taken
    (s := (s.at now).noteRoute port f.src) (port := port) (r := r) (session := session) (hostId := hostId)
    ht part svc (ring.isHead.trans hn) ((ring.portCarries port).trans hp)
  refine ⟨((s.at now).noteRoute port f.src).bwkDescriptor r session hostId d, o, p, ?_, ?_, ref, remote, opcode, sess, host, waits, ?_,
    fun h0 => ?_, fun u => ?_, ?_⟩
  · rw [frame_delivered hc hp (by simp [hf]) hd hs, State.bwkDeliver, hf]
    simp only [ring.isHead.trans hn, Bool.false_eq_true, if_false]
  · rw [outstanding, outstanding_noteRoute]
    rfl
  · rw [board]
    simp
  · rw [board, h0]
    exact headPort_noteRoute hn
  · have same : (((s.at now).noteRoute port f.src).bwkDescriptor r session hostId d).tile u = ((s.at now).noteRoute port f.src).tile u :=
      congrArg (PerTile.get · u) tiles
    rw [same]
    exact ring.tiles u
  · rw [out, ring.board]
    rfl

end delivered

/-- Settles O59, command by command: what a link that trains or goes down leaves of the board's record, and each frame by its payload. -/
theorem boardwalkJoinsPackagesAndCarriesCommands : Obligations.BoardwalkJoinsPackagesAndCarriesCommands := by
  unfold Obligations.BoardwalkJoinsPackagesAndCarriesCommands
  intro s port b other
  refine ⟨boardwalkLinkTrained_trains, boardwalkTrainingRetry_trains, boardwalkPortDown_goes, fun f now => ?frames, bwkRetransmitTimer_head,
    bwkRetransmitTimer_sends, forwardAckTimeout_absent, fun q tag o => forwardAckTimeout_one,
    fun roundTrip lead hp => ⟨bwkTimingExchange_other roundTrip lead hp, bwkTimingExchange_route roundTrip lead hp⟩⟩
  case frames =>
    intro s0 run recent
    have crc := bwkCrcError_at s0 port
    refine ⟨frame_untrained, fun ht hc => ⟨fun h => ?_, fun h => ?_⟩, fun ht hc known fault hf => ?_, fun hp hc hf =>
      ⟨fun hd hn => ?_, fun hd hn => ?_, fun hd hs => ?_, fun hd hs => ⟨fun r session hostId d t hn hf' => ?_, fun r hf' => ?_,
        fun r st detail result o hn hf' ho hop => ?_⟩⟩⟩
    · exact (frame_damaged ht hc).trans (congrArg _ (crc.1 h))
    · exact (frame_damaged ht hc).trans (congrArg _ (crc.2 h))
    · exact ⟨_, frame_straps ht hc hf, known_strapsTold s0 known fault⟩
    · exact (frame_carried (trained_of_carries hp) hc hf hp).trans (congrArg _ ((if_pos hd).trans (bwkRelay_head hn)))
    · exact (frame_carried (trained_of_carries hp) hc hf hp).trans (congrArg _ ((if_pos hd).trans (bwkRelay_ring hn)))
    · exact (frame_carried (trained_of_carries hp) hc hf hp).trans (congrArg _ ((if_neg (not_not_intro hd)).trans (if_pos (by simp [hs]))))
    · exact frame_descriptor hc hp hd hs hn hf'
    · rw [show run = _ from frame_delivered hc hp hf hd hs, State.bwkDeliver, hf']
    · rw [show run = _ from frame_delivered hc hp hf hd hs, noteRoute_head (s := s.at now) _ hn, State.bwkDeliver, hf']
      exact congrArg _ ((if_pos hn).trans (bwkCompletion_done ho hop))

end Sys2Proof.Machine
end

section
/-!
PROOFS. The reset of a logic die: what it leaves of its tile and of the other tiles, for one die and for all (R13, R61, R164, R378, R381).
-/

namespace Sys2Proof.Machine

/-! ### What a reset leaves of a tile -/

/-- What a logic-die reset retains of its tile (R13, R381). -/
structure Tile.Retained (c : ResetCause) (x y : Tile) : Prop where
  written   : y.written = x.written
  bundle    : y.die.bundle = x.die.bundle
  key       : y.die.key = x.die.key
  records   : y.peat.records = x.peat.records
  soundings : ∀ a, (y.ax.get a).soundings = (x.ax.get a).soundings
  field     : c ≠ .powerOn → y.field = x.field

/-- What reads on a tile whose logic die was reset with a cause (R61, R161, R164, R381). -/
structure Tile.IsReset (c : ResetCause) (y : Tile) : Prop where
  inReset : y.die.inReset = true
  cause   : y.die.cause = c
  svc     : y.die.svc = false
  formed  : y.triad.formed = false
  axes    : ∀ a, (y.ax.get a).fb.referenced = false ∧ (y.ax.get a).mo.bridge ≠ .driven ∧ (y.ax.get a).mo.move = none
  sra     : c = .powerOn → y.field.sra = false

theorem Tile.Retained.refl (c : ResetCause) (x : Tile) : Tile.Retained c x x := ⟨rfl, rfl, rfl, rfl, fun _ => rfl, fun _ => rfl⟩

theorem Tile.Retained.trans {c : ResetCause} {x y z : Tile} (h : Tile.Retained c x y) (k : Tile.Retained c y z) : Tile.Retained c x z :=
  ⟨k.written.trans h.written, k.bundle.trans h.bundle, k.key.trans h.key, k.records.trans h.records,
    fun a => (k.soundings a).trans (h.soundings a), fun hc => (k.field hc).trans (h.field hc)⟩

/-- Beside the doorway only the field die differs, and it does not on a reset other than a power-on; its SRA driver stands. -/
structure Tile.Aside (c : ResetCause) (x y : Tile) : Prop where
  rest  : y = { x with door := y.door, field := y.field }
  field : c ≠ .powerOn → y.field = x.field
  sra   : y.field.sra = x.field.sra

theorem Tile.Aside.refl (c : ResetCause) (x : Tile) : Tile.Aside c x x := ⟨rfl, fun _ => rfl, rfl⟩

theorem Tile.Aside.trans {c : ResetCause} {x y z : Tile} (h : Tile.Aside c x y) (k : Tile.Aside c y z) : Tile.Aside c x z := by
  refine ⟨?_, fun hc => (k.field hc).trans (h.field hc), k.sra.trans h.sra⟩
  have e := k.rest
  rw [h.rest] at e
  exact e

theorem Tile.Aside.retained {c : ResetCause} {x y : Tile} (h : Tile.Aside c x y) : Tile.Retained c x y := by
  refine ⟨?_, ?_, ?_, ?_, fun a => ?_, h.field⟩
  all_goals rw [h.rest]

theorem Tile.Aside.isReset {c : ResetCause} {x y : Tile} (h : Tile.Aside c x y) (k : Tile.IsReset c x) : Tile.IsReset c y := by
  obtain ⟨inReset, cause, svc, formed, axes, sra⟩ := k
  refine ⟨?_, ?_, ?_, ?_, fun a => ?_, fun hc => h.sra.trans (sra hc)⟩
  all_goals rw [h.rest]
  · exact inReset
  · exact cause
  · exact svc
  · exact formed
  · exact axes a

theorem bridge_afterReset (x : Axis) (power vdrvOk : Bool) : (x.afterReset power vdrvOk).mo.bridge ≠ .driven := by
  show (if (power && vdrvOk) = true then Bridge.brake else Bridge.free) ≠ .driven
  split
  · decide
  · decide

theorem isReset_afterReset (tl : Tile) (c : ResetCause) : Tile.IsReset c (tl.afterReset c) := by
  refine ⟨rfl, rfl, rfl, rfl, fun a => ⟨?_, ?_, ?_⟩, fun hc => ?_⟩
  · cases a <;> rfl
  · cases a with
    | A => exact bridge_afterReset tl.ax.a _ _
    | B => exact bridge_afterReset tl.ax.b _ _
    | C => exact bridge_afterReset tl.ax.c _ _
  · cases a <;> rfl
  · subst hc
    rfl

theorem retained_afterReset (tl : Tile) (c : ResetCause) : Tile.Retained c tl (tl.afterReset c) := by
  refine ⟨rfl, rfl, rfl, rfl, fun a => ?_, fun hc => ?_⟩
  · cases a <;> rfl
  · exact if_neg fun h => hc (beq_iff_eq.mp h)

/-! ### What a reset leaves of the other tiles -/

/-- Of a tile only the commands in its mailbox differ. -/
def Tile.MailOnly (x y : Tile) : Prop := y = { x with door := { x.door with mailbox := y.door.mailbox } }

theorem Tile.MailOnly.refl (x : Tile) : Tile.MailOnly x x := rfl

theorem Tile.MailOnly.trans {x y z : Tile} (h : Tile.MailOnly x y) (k : Tile.MailOnly y z) : Tile.MailOnly x z := by
  unfold Tile.MailOnly at *
  rw [h] at k
  exact k

theorem Tile.MailOnly.aside {x y : Tile} (h : Tile.MailOnly x y) (c : ResetCause) : Tile.Aside c x y := by
  unfold Tile.MailOnly at h
  rw [h]
  exact ⟨rfl, fun _ => rfl, rfl⟩

theorem Tile.MailOnly.told {x y : Tile} (h : Tile.MailOnly x y) : Tile.Told x y := by
  unfold Tile.MailOnly at h
  rw [h]
  rfl

section mail

variable (s : State) (t u : TileId)

theorem tile_bwkSend (k : Nat) (pl : BwkPayload) : (s.bwkSend k pl).tile u = s.tile u := by
  unfold State.bwkSend
  split <;> rfl

theorem tile_bwkKeep (r : BwkRef) (pl : BwkPayload) : (s.bwkKeep r pl).tile u = s.tile u := tile_bwkSend s u 0 pl

theorem tile_bwkTell (pl : BwkPayload) : (s.bwkTell pl).tile u = s.tile u := by
  unfold State.bwkTell
  split
  · rfl
  · exact State.each_keeps (g := fun s => s.tile u) (fun s k => tile_bwkSend s u k pl) _ s

theorem mailOnly_modDoor (f : Doorway → Doorway) (hf : ∀ d, f d = { d with mailbox := (f d).mailbox }) :
    Tile.MailOnly (s.tile u) ((s.modDoor t f).tile u) := by
  rw [State.modDoor, State.tile_modTile]
  split
  · unfold Tile.MailOnly
    dsimp only
    rw [hf]
  · exact .refl _

theorem mailOnly_loseCommands : Tile.MailOnly (s.tile u) ((s.loseCommands t).tile u) := by
  unfold State.loseCommands
  dsimp only
  have emptied := mailOnly_modDoor (s.modHost fun h =>
    { h with outstanding := (h.outstanding.filter fun o => !(o.remote && s.standsAt t o)).map fun o =>
        if s.standsAt t o then { o with lost := true } else o }) t u (fun d => { d with mailbox := [] }) fun _ => rfl
  split
  · exact emptied
  · rw [State.each_keeps (g := fun s => s.tile u) fun s o => tile_bwkKeep s u _ _]
    exact emptied

theorem mailOnly_hostReset : Tile.MailOnly (s.tile u) (s.hostReset.tile u) := by
  have kept (l : List TileId) (f : Doorway → Doorway) (hf : ∀ d, f d = { d with mailbox := (f d).mailbox }) (s : State) :
      Tile.MailOnly (s.tile u) ((s.each l fun s t => s.modDoor t f).tile u) := by
    induction l generalizing s with
    | nil => exact .refl _
    | cons t l ih => exact (mailOnly_modDoor s t u f hf).trans (ih _)
  unfold State.hostReset State.mailboxKeep
  refine Tile.MailOnly.trans (y := (if s.head.host.sessionOpen then s.bwkTell (.session none) else s).tile u) ?_ (kept _ _ (fun _ => rfl) _)
  split
  · rw [tile_bwkTell]
    exact .refl _
  · exact .refl _

theorem mailOnly_headReset (power : Bool) : Tile.MailOnly (s.tile u) ((s.headReset power).tile u) := by
  have lowered : (s.headReset power).tile u = s.hostReset.tile u :=
    State.each_keeps (g := fun s => s.tile u) (f := fun s (i : Fin 8) => s.emit (.timer i.val false)) (fun _ _ => rfl) _ _
  rw [lowered]
  exact mailOnly_hostReset s u

end mail

/-! ### A reset of one die -/

theorem pairRefresh_inReset (s : State) (t : TileId) (p : PairId) (h : (s.tile t).die.inReset = true) :
    ∃ f, s.pairRefresh t p = s.modField t (fun _ => f) ∧ f.sra = (s.tile t).field.sra := by
  have sra (f : FieldDie) (q : Pair) : (f.setPair p q).sra = f.sra := by cases p <;> rfl
  unfold State.pairRefresh State.raiseField
  dsimp only
  rw [tile_modField]
  simp only [h, if_true, ite_self]
  exact ⟨_, State.modTile_congr _ _ _ _ rfl, sra _ _⟩

theorem pairsRefresh_inReset (s : State) (t : TileId) (h : (s.tile t).die.inReset = true) :
    ∃ f, s.pairsRefresh t = s.modField t (fun _ => f) ∧ f.sra = (s.tile t).field.sra := by
  unfold State.pairsRefresh
  generalize pairIds = l
  induction l generalizing s with
  | nil => exact ⟨_, (State.modTile_self s t).symm, rfl⟩
  | cons p l ih =>
    obtain ⟨f, ef, sf⟩ := pairRefresh_inReset s t p h
    obtain ⟨g, eg, sg⟩ := ih (s.modField t fun _ => f) (by rw [tile_modField]; exact h)
    refine ⟨g, ?_, sg.trans (by rw [tile_modField]; exact sf)⟩
    rw [State.each_cons, ef, eg, State.modField_modField]

/-- The field die after a power-on reset of its tile. -/
theorem fieldSettled (s : State) (t : TileId) (h : (s.tile t).die.inReset = true) :
    ∃ f, ((s.modField t FieldDie.bitternEval).lsRefresh t).pairsRefresh t = s.modField t (fun _ => f) ∧ f.sra = (s.tile t).field.sra := by
  obtain ⟨ls, els, -⟩ := lsRefresh_settles (s.modField t FieldDie.bitternEval) t false
  obtain ⟨f, ef, sf⟩ := pairsRefresh_inReset ((s.modField t FieldDie.bitternEval).lsRefresh t) t (by
    rw [els, tile_modField, tile_modField]; exact h)
  rw [els, tile_modField, tile_modField] at sf
  exact ⟨f, by rw [ef, els, State.modField_modField, State.modField_modField], sf⟩

/-- A step of a die's reset: of its tile it leaves all but the doorway and, on a power-on, the field die, of the others all but the mailboxes,
and of the board's record the straps, with a strap fault that the package's own straps give. -/
structure State.ResetStep (t : TileId) (c : ResetCause) (s s' : State) : Prop where
  tile   : Tile.Aside c (s.tile t) (s'.tile t)
  others : ∀ u, u ≠ t → Tile.MailOnly (s.tile u) (s'.tile u)
  part   : s'.part = s.part
  supply : s'.powerGood = s.powerGood ∧ s'.refOk = s.refOk
  straps : s'.head.board.straps = s.head.board.straps
  fault  : (s.head.board.strapFault = true → strapsKeep s.head.board.straps = false) → s'.head.board.strapFault = s.head.board.strapFault

theorem State.Told.straps {s s' : State} (h : State.Told s s') : s'.head.board.straps = s.head.board.straps := by rw [h.head]

theorem State.Told.strapFault {s s' : State} (h : State.Told s s') : s'.head.board.strapFault = s.head.board.strapFault := by rw [h.head]

theorem afterReset_mailOnly {x y : Tile} (h : Tile.MailOnly x y) (c : ResetCause) : y.afterReset c = x.afterReset c := by
  unfold Tile.MailOnly at h
  rw [h]
  rfl

section step

variable {s0 s s' s'' : State} {t : TileId} {c : ResetCause}

theorem State.ResetStep.trans (h : State.ResetStep t c s s') (k : State.ResetStep t c s' s'') : State.ResetStep t c s s'' := by
  refine ⟨h.tile.trans k.tile, fun u hu => (h.others u hu).trans (k.others u hu), k.part.trans h.part,
    ⟨k.supply.1.trans h.supply.1, k.supply.2.trans h.supply.2⟩, k.straps.trans h.straps, fun own => ?_⟩
  have e := h.fault own
  exact (k.fault (by rw [e, h.straps]; exact own)).trans e

theorem resetStep_ite {p : Prop} [Decidable p] {a b : State} (ha : p → State.ResetStep t c s a) (hb : State.ResetStep t c s b) :
    State.ResetStep t c s (if p then a else b) := by
  split
  case isTrue h => exact ha h
  case isFalse => exact hb

theorem resetStep_lost (s : State) : State.ResetStep t c (s.modTile t fun tl => tl.afterReset c)
    ((s.loseCommands t).modTile t fun tl => tl.afterReset c) := by
  have lost := told_loseCommands (t := t) (.refl s)
  refine ⟨?_, fun u hu => ?_, lost.part, lost.supply, ?_, fun _ => ?_⟩
  · rw [State.tile_modTile_self, State.tile_modTile_self, afterReset_mailOnly (mailOnly_loseCommands s t t)]
    exact .refl c _
  · rw [State.tile_modTile, State.tile_modTile, if_neg hu, if_neg hu]
    exact mailOnly_loseCommands s t u
  · exact lost.straps
  · exact lost.strapFault

theorem resetStep_settled (hc : (c == .powerOn) = true) (hr : (s.tile t).die.inReset = true) :
    State.ResetStep t c s (((s.modField t FieldDie.bitternEval).lsRefresh t).pairsRefresh t) := by
  obtain ⟨f, e, sra⟩ := fieldSettled s t hr
  rw [e]
  refine ⟨?_, fun u hu => ?_, rfl, ⟨rfl, rfl⟩, rfl, fun _ => rfl⟩
  · rw [tile_modField]
    exact ⟨rfl, fun h => absurd (beq_iff_eq.mp hc) h, sra⟩
  · rw [State.modField, State.tile_modTile, if_neg hu]
    exact .refl _

theorem resetStep_head : State.ResetStep t c s (s.headReset (c == .powerOn)) := by
  have told := told_hostReset (.refl s)
  have lowered {β : Type} (g : State → β) (hg : ∀ s i, g (s.emit (.timer i false)) = g s) :
      g ((s.hostReset).each (timerIds.filter fun i => (s.head.time.timers)[i].outHigh) fun s i => s.emit (.timer i.val false)) =
        g s.hostReset := State.each_keeps (f := fun s (i : Fin 8) => s.emit (.timer i.val false)) (fun s i => hg s i.val) _ _
  refine ⟨(mailOnly_headReset s t _).aside c, fun u _ => mailOnly_headReset s u _, ?_, ⟨?_, ?_⟩, ?_, fun own => ?_⟩
  · exact (lowered (fun s => s.part) fun _ _ => rfl).trans told.part
  · exact (lowered (fun s => s.powerGood) fun _ _ => rfl).trans told.supply.1
  · exact (lowered (fun s => s.refOk) fun _ _ => rfl).trans told.supply.2
  · exact (lowered (fun s => s.head.board.straps) fun _ _ => rfl).trans told.straps
  · have straps := (lowered (fun s => s.head.board.straps) fun _ _ => rfl).trans told.straps
    have fault := (lowered (fun s => s.head.board.strapFault) fun _ _ => rfl).trans told.strapFault
    have read : (s.headReset (c == .powerOn)).head.board.strapFault =
        (s.head.board.strapFault && (!(c == .powerOn) || !strapsKeep s.head.board.straps)) :=
      congr (congrArg (fun f x => f && (!(c == .powerOn) || !strapsKeep x)) fault) straps
    rw [read]
    cases e : s.head.board.strapFault with
    | false => rfl
    | true => rw [own e, Bool.not_false, Bool.or_true, Bool.true_and]

theorem resetStep_dieReset (s : State) : State.ResetStep t c (s.modTile t fun tl => tl.afterReset c) (s.dieReset t c) := by
  unfold State.dieReset
  dsimp only
  have same {s : State} (o : Output) : State.ResetStep t c s (s.emit o) := ⟨.refl c _, fun _ _ => .refl _, rfl, ⟨rfl, rfl⟩, rfl, fun _ => rfl⟩
  have told {s : State} (k : Nat) : State.ResetStep t c s (s.modBoard fun b => { b with tilesUp := b.tilesUp &&& ~~~(pkgTiles k (2 ^ t.num)) }) :=
    ⟨.refl c _, fun _ _ => .refl _, rfl, ⟨rfl, rfl⟩, rfl, fun _ => rfl⟩
  have lost := (resetStep_ite (p := ((s.tile t).encoA || (s.tile t).encoB) = true)
    (fun _ => (resetStep_lost s).trans (same (.enco t false false))) (resetStep_lost (t := t) (c := c) s)).trans (told s.pkg)
  have inReset := ((lost.tile.isReset (by rw [State.tile_modTile_self]; exact isReset_afterReset _ c)).inReset)
  have settled := resetStep_ite (p := (c == .powerOn) = true) (fun hc => lost.trans (resetStep_settled hc inReset)) lost
  exact resetStep_ite (fun _ => settled.trans resetStep_head) settled

end step

/-! ### A tile whose die was reset -/

/-- A tile whose logic die was reset with a cause: it reads so, and what is retained stands (R13, R381). -/
structure State.IsReset (s s' : State) (t : TileId) (c : ResetCause) : Prop where
  retained : Tile.Retained c (s.tile t) (s'.tile t)
  reads    : Tile.IsReset c (s'.tile t)

section reset

variable {s s' s'' : State} {t u : TileId} {c : ResetCause}

theorem State.IsReset.aside (h : State.IsReset s s' t c) (k : Tile.Aside c (s'.tile t) (s''.tile t)) : State.IsReset s s'' t c :=
  ⟨h.retained.trans k.retained, k.isReset h.reads⟩

theorem isReset_dieReset (h : Tile.Retained c (s.tile t) (s'.tile t)) : State.IsReset s (s'.dieReset t c) t c := by
  have aside := (resetStep_dieReset (t := t) (c := c) s').tile
  rw [State.tile_modTile_self] at aside
  exact ⟨(h.trans (retained_afterReset _ c)).trans aside.retained, aside.isReset (isReset_afterReset _ c)⟩

/-- The reset of another tile's die leaves all but the mailbox. -/
theorem mailOnly_dieReset (s : State) (hu : u ≠ t) : Tile.MailOnly (s.tile u) ((s.dieReset t c).tile u) := by
  have others := (resetStep_dieReset (t := t) (c := c) s).others u hu
  rwa [State.tile_modTile, if_neg hu] at others

theorem State.IsReset.dieReset (h : State.IsReset s s' t c) (u : TileId) : State.IsReset s (s'.dieReset u c) t c := by
  by_cases e : t = u
  · subst e
    exact isReset_dieReset h.retained
  · exact h.aside ((mailOnly_dieReset s' e).aside c)

theorem State.IsReset.dieResets (h : State.IsReset s s' t c) (l : List TileId) :
    State.IsReset s (s'.each l fun s u => s.dieReset u c) t c := by
  induction l generalizing s' with
  | nil => exact h
  | cons u l ih => exact ih (h.dieReset u)

/-- A tile of a run of resets is reset once its turn has come. -/
theorem isReset_dieResets (l : List TileId) (ht : t ∈ l) (h : Tile.Retained c (s.tile t) (s'.tile t)) :
    State.IsReset s (s'.each l fun s u => s.dieReset u c) t c := by
  induction l generalizing s' with
  | nil => exact absurd ht List.not_mem_nil
  | cons u l ih =>
    by_cases e : t = u
    · subst e
      exact (isReset_dieReset h).dieResets l
    · exact ih ((List.mem_cons.mp ht).resolve_left e) (h.trans ((mailOnly_dieReset s' e).aside c).retained)

theorem mem_tileIds (h : s.hasTile t = true) : t ∈ s.tileIds := by
  refine List.mem_filter.mpr ⟨?_, h⟩
  cases t <;> decide

theorem isReset_resetAll (ht : s.hasTile t = true) : State.IsReset s (s.resetAll c) t c :=
  isReset_dieResets s.tileIds (mem_tileIds ht) (.refl c _)

theorem part_resetAll (s : State) (c : ResetCause) : (s.resetAll c).part = s.part :=
  State.each_keeps (g := fun s => s.part) (fun s u => (resetStep_dieReset (t := u) (c := c) s).part) s.tileIds s

theorem powerGood_resetAll (s : State) (c : ResetCause) : (s.resetAll c).powerGood = s.powerGood :=
  State.each_keeps (g := fun s => s.powerGood) (fun s u => (resetStep_dieReset (t := u) (c := c) s).supply.1) s.tileIds s

theorem refOk_resetAll (s : State) (c : ResetCause) : (s.resetAll c).refOk = s.refOk :=
  State.each_keeps (g := fun s => s.refOk) (fun s u => (resetStep_dieReset (t := u) (c := c) s).supply.2) s.tileIds s

/-- A strap fault that the package's own straps give outlasts the resets, and so do the straps (R367, R369). -/
theorem straps_resetAll (own : s.head.board.strapFault = true → strapsKeep s.head.board.straps = false) :
    (s.resetAll c).head.board.straps = s.head.board.straps ∧ (s.resetAll c).head.board.strapFault = s.head.board.strapFault := by
  unfold State.resetAll
  generalize s.tileIds = l
  induction l generalizing s with
  | nil => exact ⟨rfl, rfl⟩
  | cons u l ih =>
    have one := resetStep_dieReset (t := u) (c := c) s
    have fault := one.fault own
    obtain ⟨straps2, fault2⟩ := ih (s := s.dieReset u c) (fun h => by
      rw [one.straps]
      exact own (fault.symm.trans h))
    exact ⟨straps2.trans one.straps, fault2.trans fault⟩

/-! ### Causes that hold a die (R381) -/

/-- The causes that hold a die once one of them holds it, or no longer does. -/
def Die.holding (d : Die) (c : ResetCause) (on : Bool) : List ResetCause :=
  if on then (if d.holds.contains c then d.holds else d.holds ++ [c]) else d.holds.filter (· != c)

theorem tile_hold (s : State) (u t : TileId) (c : ResetCause) (on : Bool) : (s.hold u c on).tile t =
    if t = u then { s.tile t with die := { (s.tile t).die with holds := (s.tile t).die.holding c on } } else s.tile t :=
  State.tile_modTile ..

/-- What a die's holds and its supervisor's count say is no part of what a reset leaves. -/
theorem State.IsReset.die (h : State.IsReset s s' t c) {d : Die}
    (tile : s''.tile t = { s'.tile t with die := { d with
      inReset := (s'.tile t).die.inReset, cause := (s'.tile t).die.cause, svc := (s'.tile t).die.svc
      bundle := (s'.tile t).die.bundle, key := (s'.tile t).die.key } }) : State.IsReset s s'' t c := by
  obtain ⟨retained, reads⟩ := h
  obtain ⟨written, bundle, key, records, soundings, field⟩ := retained
  obtain ⟨inReset, cause, svc, formed, axes, sra⟩ := reads
  refine ⟨⟨?_, ?_, ?_, ?_, fun a => ?_, fun hc => ?_⟩, ⟨?_, ?_, ?_, ?_, fun a => ?_, fun hc => ?_⟩⟩
  all_goals rw [tile]
  · exact written
  · exact bundle
  · exact key
  · exact records
  · exact soundings a
  · exact field hc
  · exact inReset
  · exact cause
  · exact svc
  · exact formed
  · exact axes a
  · exact sra hc

theorem State.IsReset.hold (h : State.IsReset s s' t c) (u : TileId) (d : ResetCause) (on : Bool) :
    State.IsReset s (s'.hold u d on) t c := by
  by_cases e : t = u
  · exact h.die (d := ((s'.hold u d on).tile t).die) (by rw [tile_hold, if_pos e])
  · refine h.aside ?_
    rw [tile_hold, if_neg e]
    exact .refl c _

theorem State.IsReset.holds (h : State.IsReset s s' t c) (l : List TileId) (d : ResetCause) (on : Bool) :
    State.IsReset s (s'.each l fun s u => s.hold u d on) t c := by
  induction l generalizing s' with
  | nil => exact h
  | cons u l ih => exact ih (h.hold u d on)

theorem held_hold (s : State) (t : TileId) (c : ResetCause) : c ∈ ((s.hold t c true).tile t).die.holds := by
  rw [tile_hold, if_pos rfl]
  show c ∈ if (s.tile t).die.holds.contains c then _ else _
  split
  case isTrue h => exact List.contains_iff_mem.mp h
  case isFalse => exact List.mem_append_right _ (List.mem_singleton.mpr rfl)

theorem free_hold (s : State) (t : TileId) (c : ResetCause) : c ∉ ((s.hold t c false).tile t).die.holds := by
  rw [tile_hold, if_pos rfl]
  exact fun h => absurd (List.mem_filter.mp h).2 (by simp)

theorem held_stays (s : State) (u : TileId) (h : c ∈ (s.tile t).die.holds) : c ∈ ((s.hold u c true).tile t).die.holds := by
  by_cases e : t = u
  · subst e
    exact held_hold s t c
  · rw [tile_hold, if_neg e]
    exact h

theorem free_stays (s : State) (u : TileId) (h : c ∉ (s.tile t).die.holds) : c ∉ ((s.hold u c false).tile t).die.holds := by
  by_cases e : t = u
  · subst e
    exact free_hold s t c
  · rw [tile_hold, if_neg e]
    exact h

/-- A property that one step of a run establishes, and every other step keeps, holds after the run. -/
theorem each_establishes {α : Type} {x : α} {P : State → Prop} {f : State → α → State} (l : List α) (hx : x ∈ l) (own : ∀ s, P (f s x))
    (kept : ∀ s y, P s → P (f s y)) (s : State) : P (s.each l f) := by
  have stays (l : List α) (s : State) (h : P s) : P (s.each l f) := by
    induction l generalizing s with
    | nil => exact h
    | cons y l ih => exact ih _ (kept s y h)
  induction l generalizing s with
  | nil => exact absurd hx List.not_mem_nil
  | cons y l ih =>
    rcases List.mem_cons.mp hx with rfl | hm
    · exact stays l _ (own s)
    · exact ih hm _

theorem held_holds (l : List TileId) (ht : t ∈ l) (s : State) (c : ResetCause) :
    c ∈ ((s.each l fun s u => s.hold u c true).tile t).die.holds :=
  each_establishes (P := fun s => c ∈ (s.tile t).die.holds) l ht (fun s => held_hold s t c) (fun s u => held_stays s u) s

theorem free_holds (l : List TileId) (ht : t ∈ l) (s : State) (c : ResetCause) :
    c ∉ ((s.each l fun s u => s.hold u c false).tile t).die.holds :=
  each_establishes (P := fun s => c ∉ (s.tile t).die.holds) l ht (fun s => free_hold s t c) (fun s u => free_stays s u) s

theorem inReset_hold (s : State) (u : TileId) (c : ResetCause) (on : Bool) :
    ((s.hold u c on).tile t).die.inReset = (s.tile t).die.inReset := by
  rw [tile_hold]
  split <;> rfl

end reset

end Sys2Proof.Machine
end

section
/-!
PROOFS. The start of a tile: whatever the steps after a die's release do, the die's record, the triad and the written parameters in force stand
(R42, R163, R187, R332, R359, R376).
-/

namespace Sys2Proof.Machine

/-! ### Parameters in force as written (R332) -/

/-- The row of the unlock volume, which a Sedge signal may set (R32). -/
def gradeKey : Nat := pKey 0x11 7 0 none

/-- The parameters are in force as they were written. -/
structure Tile.AsWritten (w : SMap) (tl : Tile) : Prop where
  wfForce   : SMap.wf tl.inForce = true
  wfWritten : SMap.wf tl.written = true
  inForce   : ∀ k, k ≠ gradeKey → pGet tl.inForce k = pGet w k
  written   : ∀ k, k ≠ gradeKey → pGet tl.written k = pGet w k

theorem asWritten_of_same {w : SMap} {tl : Tile} (h : SMap.wf w = true) (hi : tl.inForce = w) (hw : tl.written = w) : Tile.AsWritten w tl :=
  ⟨by rwa [hi], by rwa [hw], fun _ _ => by rw [hi], fun _ _ => by rw [hw]⟩

/-- What the steps of a start leave of a tile. -/
structure Tile.Starts (x y : Tile) : Prop where
  die    : y.die = { x.die with bootCount := y.die.bootCount, base := y.die.base }
  triad  : y.triad = x.triad
  params : ∀ w, Tile.AsWritten w x → Tile.AsWritten w y

theorem Tile.Starts.refl (x : Tile) : Tile.Starts x x := ⟨rfl, rfl, fun _ => id⟩

theorem Tile.Starts.trans {x y z : Tile} (h : Tile.Starts x y) (k : Tile.Starts y z) : Tile.Starts x z := by
  refine ⟨?_, k.triad.trans h.triad, fun w a => k.params w (h.params w a)⟩
  have e := k.die
  rw [h.die] at e
  exact e

theorem starts_of_same {x y : Tile} (hd : y.die = x.die) (ht : y.triad = x.triad) (hi : y.inForce = x.inForce) (hw : y.written = x.written) :
    Tile.Starts x y := by
  refine ⟨by rw [hd], ht, fun w ⟨a, b, c, d⟩ => ⟨?_, ?_, ?_, ?_⟩⟩
  · rwa [hi]
  · rwa [hw]
  · rwa [hi]
  · rwa [hw]

theorem wf_foldl_takeIn (written : SMap) (l : List Nat) (m : SMap) (h : SMap.wf m = true) :
    SMap.wf (l.foldl (takeIn written) m) = true := by
  induction l generalizing m with
  | nil => exact h
  | cons k l ih => exact ih _ (wf_pSet m k _ h)

/-- Parameters taken in where they are in force as written stay so. -/
theorem starts_takeIn {x y : Tile} (l : List Nat) (hd : y.die = x.die) (ht : y.triad = x.triad) (hw : y.written = x.written)
    (hi : y.inForce = l.foldl (takeIn x.written) x.inForce) : Tile.Starts x y := by
  refine ⟨by rw [hd], ht, fun w ⟨wfForce, wfWritten, inForce, written⟩ => ⟨?_, ?_, fun k hk => ?_, ?_⟩⟩
  · rw [hi]
    exact wf_foldl_takeIn _ _ _ wfForce
  · rwa [hw]
  · rw [hi, pGet_foldl_takeIn _ _ _ _ wfForce]
    split
    · exact written k hk
    · exact inForce k hk
  · rwa [hw]

def startFraming : Framing where
  rel := Tile.Starts
  refl := .refl
  trans := .trans
  door _ _ _ _ := starts_of_same rfl rfl rfl rfl
  axis _ _ _ _ := starts_of_same rfl rfl rfl rfl

/-- A step of a tile's start: beside telling it changes its tile alone. -/
abbrev State.Starting (t : TileId) (s s' : State) : Prop := State.Frame startFraming t s s'

section starting

variable {s0 s : State} {t : TileId}

theorem starting_modTile {f : Tile → Tile} (h : State.Starting t s0 s) (hf : ∀ x, (f x).die = x.die ∧ (f x).triad = x.triad ∧
    (f x).inForce = x.inForce ∧ (f x).written = x.written) : State.Starting t s0 (s.modTile t f) := by
  obtain ⟨die, triad, inForce, written⟩ := hf (s.tile t)
  exact frame_modTile h (starts_of_same die triad inForce written)

theorem starting_modDoor {f : Doorway → Doorway} (h : State.Starting t s0 s) : State.Starting t s0 (s.modDoor t f) :=
  starting_modTile h fun _ => ⟨rfl, rfl, rfl, rfl⟩

theorem starting_modLink {f : Link → Link} (h : State.Starting t s0 s) : State.Starting t s0 (s.modLink t f) :=
  starting_modTile h fun _ => ⟨rfl, rfl, rfl, rfl⟩

theorem starting_modAxis {a : AxisId} {f : Axis → Axis} (h : State.Starting t s0 s) : State.Starting t s0 (s.modAxis t a f) :=
  starting_modTile h fun _ => ⟨rfl, rfl, rfl, rfl⟩

theorem starting_modConn {k : Fin 32} {f : SedgeConn → SedgeConn} (h : State.Starting t s0 s) : State.Starting t s0 (s.modConn t k f) :=
  starting_modTile h fun _ => ⟨rfl, rfl, rfl, rfl⟩

/-! ### The ends of what a reset interrupted (R42, R119, R200) -/

theorem starting_selftestFinish (h : State.Starting t s0 s) : State.Starting t s0 (s.selftestFinish t) := by
  unfold State.selftestFinish
  dsimp only
  split
  · exact h
  · have taken : State.Starting t s0 (s.modDoor t fun d => { d with selftest := none }) := starting_modDoor h
    refine frame_ite h (frame_ite taken (frame_ite (.told taken (told_complete (.refl _))) ?_))
    exact .told taken (told_complete (told_ite (fun _ => told_dma (.refl _)) fun _ => .refl _))

theorem starting_proofStop (h : State.Starting t s0 s) : State.Starting t s0 (s.proofStop t) := by
  unfold State.proofStop
  exact frame_ite h (starting_selftestFinish (starting_modDoor (frame_each h fun _ _ h => starting_modAxis h)))

theorem starting_beginPass {a : AxisId} {stepCmd : Bool} (h : State.Starting t s0 s) : State.Starting t s0 (s.beginPass t a stepCmd) := by
  unfold State.beginPass
  have taken : State.Starting t s0 ((s.endPass t a false).modTile t Tile.passParams) := frame_modTile (frame_endPass h)
    (starts_takeIn [pKey 0x09 0 0 none, pKey 0x09 6 0 none, pKey 0x09 7 0 none, pKey 0x11 7 0 none] rfl rfl rfl rfl)
  refine frame_else (starting_modAxis ?_) starting_modDoor
  split
  · exact frame_each (starting_modDoor taken) fun _ _ h => starting_modAxis h
  · exact taken

theorem starting_cycleRecord {tno : Nat} (h : State.Starting t s0 s) : State.Starting t s0 (s.cycleRecord t tno) :=
  frame_peatEntry (starting_modDoor h)

theorem starting_setLock {on : Bool} (h : State.Starting t s0 s) : State.Starting t s0 (s.setLock t on) := by
  unfold State.setLock
  exact starting_modLink h

theorem starting_transition {tno : Nat} {new : DoorState} (h : State.Starting t s0 s) : State.Starting t s0 (s.transition t tno new) := by
  unfold State.transition
  have bounds : State.Starting t s0 (s.each AxisId.all fun s a => s.modPa t a fun p => { p with bound := none, boundTime := .idle }) :=
    frame_each h fun _ _ => frame_modPa
  refine frame_ite (frame_each ?_ fun s a h => starting_beginPass h) ?_
  all_goals
    refine frame_else (frame_else (frame_else (frame_raise (starting_modDoor ?_)) starting_setLock) starting_cycleRecord)
      fun h => frame_raise (starting_modDoor h)
    exact frame_else bounds fun h => frame_each h fun _ _ h => frame_ite (frame_endPass h) h

theorem starting_homeFail {cause : Nat} {a : Option AxisId} {takeT04 trip : Bool} (h : State.Starting t s0 s) :
    State.Starting t s0 (s.homeFail t cause a takeT04 trip) := by
  unfold State.homeFail
  split
  · exact h
  · have stopped := starting_modDoor (f := fun d => { d with homing := none, homeFault := none, homeFailed := true, tUnlock := .idle, tLock := .idle })
      (starting_setLock (on := false) (frame_each (l := (s.tile t).usedAxes) (f := fun s x =>
        (if trip then s.triadTrip t x srcTriad else s.stopMove t x).modMo t x fun m =>
          { m with homeStage := none, tHomeMax := .idle, vLim := none, aligning := false
                   bridge := if m.move.isNone && m.bridge == .driven then .brake else m.bridge }) h
        fun s x h => starting_modAxis (frame_ite (frame_triadTrip h) (frame_stopMove h))))
    exact frame_ite (frame_raise stopped) (starting_transition (frame_raise stopped))

theorem starting_endCal {cause : Nat} (h : State.Starting t s0 s) : State.Starting t s0 (s.endCal t cause) := by
  unfold State.endCal
  split
  · exact frame_raise (starting_modDoor h)
  · exact starting_modDoor h
  · exact h

theorem starting_harmless (h : State.Starting t s0 s) : State.Starting t s0 (s.harmless t) := by
  unfold State.harmless
  have ended := starting_endCal (cause := 6) (starting_homeFail (cause := 7) (a := none) (takeT04 := false) (trip := true) (starting_proofStop h))
  refine starting_modDoor (starting_modLink (starting_setLock (frame_each (frame_each ended ?_) ?_)))
  · exact fun _ _ => frame_triadTrip
  · exact fun _ _ => frame_endPass

theorem starting_releasePair {a : AxisId} (h : State.Starting t s0 s) : State.Starting t s0 (s.releasePair t a) := by
  unfold State.releasePair
  exact starting_modLink (starting_modAxis h)

theorem starting_releaseImage (h : State.Starting t s0 s) : State.Starting t s0 (s.releaseImage t) := by
  unfold State.releaseImage
  exact starting_modLink (frame_each h fun _ _ => starting_releasePair)

theorem starting_enterChosen {tno : Nat} {st : DoorState} (h : State.Starting t s0 s) : State.Starting t s0 (s.enterChosen t tno st) := by
  unfold State.enterChosen
  have entered := starting_modDoor (f := fun d => { d with posLost := false, isoFaults := if st == .faultSafe then d.isoFaults else [] })
    (starting_transition (tno := tno) (new := st) (frame_else (c := (st == .faultSafe) = true) h starting_harmless))
  exact frame_ite entered (frame_ite (starting_releaseImage entered) (frame_ite (frame_each entered fun _ _ => frame_holdAxis) entered))

/-! ### Axes, records and connections (R89, R187, R363) -/

theorem starting_positionLost {a : AxisId} {cause : Nat} (h : State.Starting t s0 s) : State.Starting t s0 (s.positionLost t a cause) := by
  have failing {s : State} (h : State.Starting t s0 s) {c : Prop} [Decidable c] {f : Doorway → Doorway} :
      State.Starting t s0 (if c then s.modDoor t f else s) := frame_else h starting_modDoor
  unfold State.positionLost
  refine frame_ite h (frame_ite (failing h) (failing (frame_else (frame_ite ?_ ?_) frame_engineTrip)))
  · exact starting_modDoor (frame_raise (frame_modFb h))
  · exact .told (frame_modFb h) (told_logEvent (.refl _))

theorem starting_startAxis {r : BootReport} {a : AxisId} (h : State.Starting t s0 s) : State.Starting t s0 (s.startAxis t r a) := by
  have lost {s : State} (h : State.Starting t s0 s) : State.Starting t s0 (((s.positionLost t a 8).causeCleared t a 8).modDoor t fun d =>
      { d with posLost := false }) := starting_modDoor (frame_causeCleared (starting_positionLost h))
  unfold State.startAxis
  dsimp only
  split
  · exact frame_else (lost (frame_modFb h)) frame_modFb
  · exact lost (frame_modFb h)

theorem starting_bootRecord {cause : Nat} {copied : Bool} (h : State.Starting t s0 s) : State.Starting t s0 (s.bootRecord t cause copied) := by
  unfold State.bootRecord
  exact frame_peatEntry (frame_modTile h ⟨rfl, rfl, fun _ ⟨a, b, c, d⟩ => ⟨a, b, c, d⟩⟩)

theorem starting_sedgeGrade {k : Fin 32} (h : State.Starting t s0 s) : State.Starting t s0 (s.sedgeGrade t k) := by
  unfold State.sedgeGrade
  refine frame_each h fun s b h => frame_else h fun h => frame_modTile h ⟨rfl, rfl, fun w ⟨a, b, c, d⟩ => ?_⟩
  refine ⟨a, wf_pSet _ _ _ b, c, fun k hk => ?_⟩
  refine (pGet_pSet _ _ _ _ b).trans ?_
  exact (if_neg hk).trans (d k hk)

theorem starting_sedgeStart {k : Fin 32} (h : State.Starting t s0 s) : State.Starting t s0 (s.sedgeStart t k) := by
  unfold State.sedgeStart State.setSedge
  exact frame_ite (starting_modConn h) (frame_else (frame_raise (starting_modConn (starting_modConn h))) starting_sedgeGrade)

theorem starting_sedgeReopen (h : State.Starting t s0 s) : State.Starting t s0 (s.sedgeReopen t) :=
  frame_each h fun _ _ h => frame_ite (starting_sedgeStart h) h

/-! ### The fallback image and the bittern configuration (R161, R187) -/

theorem starting_watchdogOut (h : State.Starting t s0 s) : State.Starting t s0 (s.watchdogOut t) := by
  unfold State.watchdogOut
  refine frame_ite (starting_modTile h fun _ => ⟨rfl, rfl, rfl, rfl⟩) ?_
  obtain ⟨ls, e, -⟩ := applyFallback_settles s t
  rw [e]
  exact starting_modTile h fun _ => ⟨rfl, rfl, rfl, rfl⟩

theorem starting_downFrameSent (h : State.Starting t s0 s) : State.Starting t s0 (s.downFrameSent t) := by
  unfold State.downFrameSent
  have sent : State.Starting t s0 ((s.modLink t Link.sent).modLink t Link.arrived) := starting_modLink (starting_modLink h)
  have applied := frameApplied_downApply ((s.modLink t Link.sent).modLink t Link.arrived) t (s.tile t).downFrame
  refine sent.trans ⟨applied.only, starts_of_same ?_ ?_ ?_ ?_⟩
  all_goals rw [applied.rest]

theorem starting_writeConfig (h : State.Starting t s0 s) : State.Starting t s0 (s.writeConfig t) := by
  unfold State.writeConfig
  exact frame_ite h (starting_modLink (frame_each (starting_modLink h) fun _ _ => starting_downFrameSent))

theorem starting_startSoundings {old : Tile} (h : State.Starting t s0 s) : State.Starting t s0 (s.startSoundings t old) := by
  unfold State.startSoundings State.soundingsCleared
  exact frame_each h fun s a h => frame_ite (frame_raise (starting_modDoor (starting_modAxis h))) h

/-- A tile whose triad has formed starts, and reports. -/
theorem starts_triadStart (s : State) (t : TileId) (r : BootReport) (copied : Bool) :
    ∃ x, State.Starting t s x ∧ s.triadStart t r copied = x.modDie t fun d => { d with reported := true } := by
  unfold State.triadStart
  refine ⟨_, ?_, rfl⟩
  have axes : State.Starting t s ((s.watchdogOut t).each AxisId.all fun s a => s.startAxis t r a) :=
    frame_each (starting_watchdogOut (.refl _ t s)) fun _ _ => starting_startAxis
  have opened := starting_sedgeReopen (starting_writeConfig (.told (starting_bootRecord (cause := (s.tile t).die.cause.code) (copied := copied) axes)
    (told_triadRecord (t := t) (h := none) (.refl _))))
  exact frame_else (starting_enterChosen (starting_modDoor (starting_modLink opened))) starting_releaseImage

end starting

end Sys2Proof.Machine
end

section
/-!
PROOFS. The release of a logic die from its reset: the head's start, what boot ROM runs, and the tile that starts (R22, R161, R332, R359, R382).
-/

namespace Sys2Proof.Machine

/-! ### The head's start, as a tile sees it (R22, R262, R353) -/

section head

variable (s : State) (t : TileId)

theorem starts_told {s s' : State} (h : State.Told s s') (t : TileId) : Tile.Starts (s.tile t) (s'.tile t) := startFraming.told (h.tiles t)

theorem starts_modTile (u : TileId) {f : Tile → Tile} (hf : Tile.Starts (s.tile u) (f (s.tile u))) :
    Tile.Starts (s.tile t) ((s.modTile u f).tile t) := by
  rw [State.tile_modTile]
  split
  case isTrue e => exact e ▸ hf
  case isFalse => exact .refl _

theorem starts_each {α : Type} {f : State → α → State} (hf : ∀ s a, Tile.Starts (s.tile t) ((f s a).tile t)) (l : List α) :
    Tile.Starts (s.tile t) ((s.each l f).tile t) := by
  induction l generalizing s with
  | nil => exact .refl _
  | cons a l ih => exact (hf s a).trans (ih (f s a))

theorem starts_ite {c : Prop} [Decidable c] {x : Tile} {a b : State} (ha : Tile.Starts x (a.tile t)) (hb : Tile.Starts x (b.tile t)) :
    Tile.Starts x ((if c then a else b).tile t) := by
  split
  · exact ha
  · exact hb

theorem starts_ringSyncNote : Tile.Starts (s.tile t) (s.ringSyncNote.tile t) := by
  unfold State.ringSyncNote
  split
  · exact .refl _
  · exact starts_told (s := s.modTime fun tb => { tb with ringSync := s.ringSynced }) (told_raiseHead (.refl _)) t

theorem starts_setCwy (st : CwyState) : Tile.Starts (s.tile t) ((s.setCwy st).tile t) := by
  unfold State.setCwy
  dsimp only
  split
  · exact .refl _
  · refine .trans ?_ (starts_ringSyncNote _ t)
    exact starts_told (s := s.modCwy fun c => { c with state := st }) (told_raiseHead (.refl _)) t

theorem starts_cwyListen : Tile.Starts (s.tile t) (s.cwyListen.tile t) := by
  unfold State.cwyListen
  refine .trans ?_ (starts_setCwy _ t _)
  rw [State.modCwy, State.tile_modHead]
  refine starts_modTile s t .t0 ?_
  exact starts_takeIn [pKey 0x0E 2 0 none, pKey 0x0E 3 0 none] rfl rfl rfl rfl

theorem starts_cwySwitch : Tile.Starts (s.tile t) (s.cwySwitch.tile t) := by
  unfold State.cwySwitch
  split_ifs
  · exact starts_cwyListen s t
  · exact .refl _
  · refine .trans ?_ (starts_setCwy _ t _)
    exact .refl (s.tile t)

theorem starts_flashLose (u : TileId) (n : Nat) : Tile.Starts (s.tile t) ((s.flashLose u n).tile t) := by
  unfold State.flashLose
  dsimp only
  rw [State.tile_modHead]
  refine starts_modTile s t u ?_
  exact starts_of_same rfl rfl rfl rfl

theorem starts_resetStuck (powerOn : Bool) : Tile.Starts (s.tile t) ((s.resetStuck powerOn).tile t) :=
  starts_told (s := s.modHead fun h => { h.endAttempt with stuck := true, stuckPower := powerOn }) (told_raiseHead (.refl _)) t

theorem starts_flashRead (n : Nat) : Tile.Starts (s.tile t) ((s.flashRead n).tile t) := by
  unfold State.flashRead
  dsimp only
  split
  · exact .refl (s.tile t)
  · refine .trans ?_ (starts_told (told_raiseHead (.refl _)) t)
    exact starts_each (s.modHead _) t (fun s u => starts_flashLose s t u _) _

theorem starts_headStart (r : BootReport) : Tile.Starts (s.tile t) ((s.headStart r).tile t) := by
  unfold State.headStart
  have based : Tile.Starts (s.tile t) ((s.each s.tileIds fun s t => s.modDie t fun d => { d with base := s.now }).tile t) :=
    starts_each s t (fun s u => starts_modTile s t u ⟨rfl, rfl, fun _ ⟨a, b, c, d⟩ => ⟨a, b, c, d⟩⟩) _
  dsimp only
  generalize (s.each s.tileIds fun s t => s.modDie t fun d => { d with base := s.now }) = s0 at based ⊢
  refine .trans (.trans ?_ (starts_flashRead _ t _)) (starts_cwySwitch _ t)
  refine starts_ite t (.trans ?_ (starts_resetStuck _ t true)) ?_
  all_goals
    rw [State.modBoard, State.tile_modHead, State.modTime, State.tile_modHead]
    exact based

end head

/-! ### Boot ROM (R356, R359) -/

section boot

variable {d : Die} {r : BootReport}

/-- The policy that a boot accepts. -/
def Die.bootPolicy (d : Die) (r : BootReport) : Bool := r.bundleOk && d.bundle.any d.bundleSigned

theorem boot_pending (hp : d.fwPending = true) (hb : (r.slotBOk && d.imageOk d.slotB) = true) : (d.boot r).1 =
    { d with policyOk := d.bootPolicy r, policyStart := d.bootPolicy r, slotA := d.slotB, fwPending := false, fwVerified := true
             secCounter := max d.secCounter (min 64 (fieldLe d.slotB 8 4)) } := by
  unfold Die.boot
  simp only [hp, hb, Bool.and_self, if_true]
  rfl

theorem boot_slotA (hp : d.fwPending = false) (ha : r.slotAOk = true) : (d.boot r).1 =
    { d with policyOk := d.bootPolicy r, policyStart := d.bootPolicy r, fwVerified := true } := by
  unfold Die.boot
  simp only [hp, ha, Bool.false_and, Bool.not_true, Bool.false_eq_true, if_false]
  rfl

theorem boot_slotB (hp : d.fwPending = false) (ha : r.slotAOk = false) (hb : (r.slotBOk && d.imageOk d.slotB) = true) : (d.boot r).1 =
    { d with policyOk := d.bootPolicy r, policyStart := d.bootPolicy r, slotA := d.slotB, fwVerified := true } := by
  unfold Die.boot
  simp only [hp, ha, hb, Bool.false_and, Bool.not_false, Bool.and_self, Bool.false_eq_true, if_false, if_true]
  rfl

theorem boot_none (ha : r.slotAOk = false) (hb : (r.slotBOk && d.imageOk d.slotB) = false) : (d.boot r).1 =
    { d with policyOk := d.bootPolicy r, policyStart := d.bootPolicy r, fwVerified := false } := by
  unfold Die.boot
  simp only [ha, hb, Bool.and_false, Bool.false_eq_true, if_false]
  rfl

theorem boot_policy : (d.boot r).1.policyOk = d.bootPolicy r := by
  unfold Die.boot
  dsimp only
  split_ifs <;> rfl

end boot

/-! ### The image of the field die (R161) -/

section image

variable (s : State) (t : TileId)

/-- What the start of a die is judged by, and the domain of its IO. -/
def State.supplied : Bool × Bool × Die × Bool := (s.powerGood, s.refOk, (s.tile t).die, (s.tile t).field.fioOn)

theorem State.Told.supplied {s s' : State} (h : State.Told s s') : s'.supplied t = s.supplied t := by
  unfold State.supplied
  rw [h.supply.1, h.supply.2, h.tiles t]

theorem supplied_modField (f : FieldDie → FieldDie) (hf : (f (s.tile t).field).fioOn = (s.tile t).field.fioOn) :
    (s.modField t f).supplied t = s.supplied t := by
  unfold State.supplied
  rw [tile_modField, hf]
  rfl

theorem supplied_pairRefresh (p : PairId) : (s.pairRefresh t p).supplied t = s.supplied t := by
  unfold State.pairRefresh
  have set := supplied_modField s t (fun f => f.setPair p { f.pair p with status := (s.tile t).pairStatus p }) (by cases p <;> rfl)
  dsimp only
  split
  · exact (State.Told.supplied t (told_raiseField (.refl _))).trans set
  · exact set

theorem supplied_pairsRefresh : (s.pairsRefresh t).supplied t = s.supplied t :=
  State.each_keeps (g := fun s => s.supplied t) (fun s p => supplied_pairRefresh s t p) _ s

/-- A refresh of the load switches after a change of the field die changes it alone, and every channel settles. -/
theorem lsRefresh_modField (f : FieldDie → FieldDie) (restart : Bool) :
    ∃ ls, (s.modField t f).lsRefresh t restart = s.modField t (fun _ => { f (s.tile t).field with ls := ls }) ∧
      Tile.LsSettled { s.tile t with field := { f (s.tile t).field with ls := ls } } := by
  obtain ⟨ls, e, -, settled⟩ := lsRefresh_settles (s.modField t f) t restart
  rw [tile_modField] at settled
  exact ⟨ls, by rw [e, State.modField_modField]; exact State.modTile_congr _ _ _ _ rfl, settled⟩

theorem supplied_imageLoaded : (s.imageLoaded t).supplied t = (s.powerGood, s.refOk, (s.tile t).die, true) := by
  unfold State.imageLoaded
  split
  case isTrue on => rw [State.supplied, on]
  case isFalse =>
    obtain ⟨ls, e, -⟩ := lsRefresh_modField s t (fun f => { f with fioOn := true }) false
    rw [supplied_pairsRefresh, e, State.supplied, tile_modField]
    rfl

theorem imageLoaded_inReset (h : (s.tile t).die.inReset = true) : ∃ f, s.imageLoaded t = s.modField t fun _ => f := by
  unfold State.imageLoaded
  split
  · exact ⟨_, (State.modTile_self s t).symm⟩
  · obtain ⟨ls, e, -⟩ := lsRefresh_modField s t (fun f => { f with fioOn := true }) false
    obtain ⟨f, ef, -⟩ := pairsRefresh_inReset ((s.modField t fun f => { f with fioOn := true }).lsRefresh t) t (by
      rw [e, tile_modField]; exact h)
    exact ⟨f, by rw [ef, e, State.modField_modField]⟩

end image

/-! ### The release (R332, R352, R382) -/

theorem tile_startDone (s : State) (t : TileId) : s.startDone.tile t = s.tile t := by
  unfold State.startDone
  split <;> rfl

theorem tile_reportTiles (s : State) (t : TileId) : s.reportTiles.tile t = s.tile t := rfl

/-- A die released into its start: the written parameters are in force, boot ROM has run, and the service core runs with verified firmware. -/
def State.released (s : State) (t : TileId) (d : Die) : State :=
  s.modTile t fun tl =>
    { tl.allInForce with die := { d with inReset := false, svc := d.fwVerified && !d.svcOff, svcMissed := 0, base := s.now } }

theorem params_allInForce (tl : Tile) : tl.allInForce.inForce = tl.written ∧ tl.allInForce.written = tl.written ∧
    tl.allInForce.triad = tl.triad := by
  unfold Tile.allInForce
  dsimp only
  exact ⟨rfl, rfl, rfl⟩

theorem asWritten_released (s : State) (t : TileId) (d : Die) (h : SMap.wf (s.tile t).written = true) :
    Tile.AsWritten (s.tile t).written ((s.released t d).tile t) := by
  obtain ⟨inForce, written, -⟩ := params_allInForce (s.tile t)
  rw [State.released, State.tile_modTile_self]
  refine asWritten_of_same h ?_ ?_
  all_goals dsimp only
  · exact inForce
  · exact written

theorem die_released (s : State) (t : TileId) (d : Die) : ((s.released t d).tile t).die =
    { d with inReset := false, svc := d.fwVerified && !d.svcOff, svcMissed := 0, base := s.now } := by
  rw [State.released, State.tile_modTile_self]

theorem triad_released (s : State) (t : TileId) (d : Die) : ((s.released t d).tile t).triad = (s.tile t).triad := by
  rw [State.released, State.tile_modTile_self]
  dsimp only
  exact (params_allInForce (s.tile t)).2.2

/-- The start of a released die up to its triad. -/
def State.startBegun (s : State) (t : TileId) (r : BootReport) : State :=
  let s1 := s.released t ((s.tile t).die.boot r).1
  let s1 := if (s1.tile t).die.svc then s1.closeEvents t 4 else s1
  (if t == .t0 then s1.headStart r else s1).startSoundings t (s.tile t)

/-- The start of a released die from its triad on. -/
def State.startEnded (s2 : State) (t : TileId) (r : BootReport) (d : Die) : State :=
  let s3 := if (d.boot r).1.fwVerified then s2.modTriad t fun tr => tr.form r.bist s2.ts s2.now (d.cause == .powerOn) else s2
  if (s3.tile t).triad.formed then s3.triadStart t r (d.boot r).2 else s3

/-- What a die's start leaves of its tile, beside its triad: the die's record but for its times, its count of starts and its report, and
parameters in force as written. -/
structure Tile.Started (x y : Tile) : Prop where
  die    : y.die = { x.die with bootCount := y.die.bootCount, base := y.die.base, reported := y.die.reported }
  params : ∀ w, Tile.AsWritten w x → Tile.AsWritten w y

theorem Tile.Starts.started {x y : Tile} (h : Tile.Starts x y) : Tile.Started x y := ⟨by rw [h.die], h.params⟩

theorem Tile.Started.trans {x y z : Tile} (h : Tile.Started x y) (k : Tile.Started y z) : Tile.Started x z := by
  refine ⟨?_, fun w a => k.params w (h.params w a)⟩
  have e := k.die
  rw [h.die] at e
  exact e

section release

variable (s : State) (t : TileId) (r : BootReport)

theorem starts_startBegun : Tile.Starts (((s.released t ((s.tile t).die.boot r).1)).tile t) ((s.startBegun t r).tile t) := by
  unfold State.startBegun
  dsimp only
  generalize s.released t ((s.tile t).die.boot r).1 = s1
  have closed : Tile.Starts (s1.tile t) ((if (s1.tile t).die.svc then s1.closeEvents t 4 else s1).tile t) := by
    split
    · exact starts_told (told_closeEvents (.refl s1)) t
    · exact .refl _
  refine .trans ?_ (starting_startSoundings (.refl startFraming t _)).tile
  split
  · exact closed.trans (starts_headStart _ t r)
  · exact closed

theorem started_startEnded (d : Die) : Tile.Started (s.tile t) ((s.startEnded t r d).tile t) := by
  unfold State.startEnded
  dsimp only
  have formed : Tile.Started (s.tile t) ((if (d.boot r).1.fwVerified then
      s.modTriad t fun tr => tr.form r.bist s.ts s.now (d.cause == .powerOn) else s).tile t) := by
    split
    · rw [State.modTriad, State.tile_modTile_self]
      exact ⟨rfl, fun _ ⟨a, b, c, d⟩ => ⟨a, b, c, d⟩⟩
    · exact Tile.Starts.started (.refl _)
  generalize (if (d.boot r).1.fwVerified then s.modTriad t fun tr => tr.form r.bist s.ts s.now (d.cause == .powerOn) else s) = s3 at formed ⊢
  split
  · obtain ⟨x, starting, e⟩ := starts_triadStart s3 t r (d.boot r).2
    rw [e, State.modDie, State.tile_modTile_self]
    refine (formed.trans starting.tile.started).trans ⟨rfl, fun _ ⟨a, b, c, d⟩ => ⟨a, b, c, d⟩⟩
  · exact formed

/-- Without a triad and without firmware the start ends before it. -/
theorem startEnded_stops {d : Die} (hv : (d.boot r).1.fwVerified = false) (hf : (s.tile t).triad.formed = false) :
    s.startEnded t r d = s := by
  unfold State.startEnded
  simp only [hv, hf, Bool.false_eq_true, if_false]

theorem exec_logicDieResetRelease : exec (.logicDieResetRelease t r) s = execLogicDieResetRelease t r s := rfl

/-- A die that nothing holds starts at its release. -/
theorem logicDieResetRelease_starts (ht : s.hasTile t = true) (hr : (s.tile t).die.inReset = true) (hh : (s.tile t).die.holds = [])
    (hd : (s.tile t).die.heldDown = false) (hp : s.powerGood = true) (hk : s.refOk = true) :
    ∃ f, exec (.logicDieResetRelease t r) s =
      .next (((s.modField t fun _ => f).startBegun t r).startEnded t r (s.tile t).die).reportTiles.startDone := by
  obtain ⟨f, e⟩ := imageLoaded_inReset s t hr
  refine ⟨f, ?_⟩
  have die : ((s.modField t fun _ => f).tile t).die = (s.tile t).die := by rw [tile_modField]
  have power : (s.modField t fun _ => f).powerGood = true := hp
  have clock : (s.modField t fun _ => f).refOk = true := hk
  rw [exec_logicDieResetRelease, execLogicDieResetRelease, onTile_of t s _ ht]
  dsimp only
  rw [if_pos hp, e, die, hr, hh, hd, power, clock]
  unfold State.startEnded State.startBegun State.released
  dsimp only
  rw [die]
  rfl

/-- A die that is held, without power good or reference, or not in reset, does not start. -/
theorem logicDieResetRelease_stays (ht : s.hasTile t = true) (h : (s.tile t).die.inReset = false ∨ (s.tile t).die.holds ≠ [] ∨
    (s.tile t).die.heldDown = true ∨ s.powerGood = false ∨ s.refOk = false) :
    exec (.logicDieResetRelease t r) s = .next (if s.powerGood then s.imageLoaded t else s) := by
  have same : ∀ x : State, x = (if s.powerGood then s.imageLoaded t else s) →
      x.powerGood = s.powerGood ∧ x.refOk = s.refOk ∧ (x.tile t).die = (s.tile t).die := by
    rintro x rfl
    split
    · have kept := supplied_imageLoaded s t
      exact ⟨congrArg (·.1) kept, congrArg (·.2.1) kept, congrArg (·.2.2.1) kept⟩
    · exact ⟨rfl, rfl, rfl⟩
  rw [exec_logicDieResetRelease, execLogicDieResetRelease, onTile_of t s _ ht]
  dsimp only
  obtain ⟨power, clock, die⟩ := same _ rfl
  rw [power, clock, die, if_pos]
  simp only [Bool.or_eq_true, Bool.not_eq_true', List.isEmpty_eq_false_iff, or_assoc]
  exact h

end release

end Sys2Proof.Machine
end

section
/-!
PROOFS. Power good, the supplies, the reset sources and the start supervisor (R13, R61, R161, R164, R316, R359, R378, R379, R381, R382, R385).
-/

namespace Sys2Proof.Machine

/-! ### A die that starts (R332, R359, R382) -/

section start

variable {s : State} {t : TileId}

/-- What a start that nothing holds leaves: the die with what boot ROM ran, out of reset, and the written parameters in force. -/
structure State.StartedFrom (t : TileId) (r : BootReport) (s s' : State) : Prop where
  die : (s'.tile t).die = { ((s.tile t).die.boot r).1 with
    inReset := false, svc := ((s.tile t).die.boot r).1.fwVerified && !((s.tile t).die.boot r).1.svcOff, svcMissed := 0
    bootCount := (s'.tile t).die.bootCount, base := (s'.tile t).die.base, reported := (s'.tile t).die.reported }
  inForce : SMap.wf (s.tile t).written = true → ∀ k, k ≠ gradeKey → pGet (s'.tile t).inForce k = pGet (s.tile t).written k
  silent : ((s.tile t).die.boot r).1.fwVerified = false → (s.tile t).triad.formed = false →
    (s'.tile t).die.reported = ((s.tile t).die.boot r).1.reported

theorem started_release (r : BootReport) (ht : s.hasTile t = true) (hr : (s.tile t).die.inReset = true) (hh : (s.tile t).die.holds = [])
    (hd : (s.tile t).die.heldDown = false) (hp : s.powerGood = true) (hk : s.refOk = true) :
    ∃ s', exec (.logicDieResetRelease t r) s = .next s' ∧ State.StartedFrom t r s s' := by
  obtain ⟨f, e⟩ := logicDieResetRelease_starts s t r ht hr hh hd hp hk
  have same : ((s.modField t fun _ => f).tile t).die = (s.tile t).die ∧ ((s.modField t fun _ => f).tile t).triad = (s.tile t).triad ∧
      ((s.modField t fun _ => f).tile t).written = (s.tile t).written := by
    rw [tile_modField]
    exact ⟨rfl, rfl, rfl⟩
  generalize s.modField t (fun _ => f) = s0 at e same
  obtain ⟨die, triad, written⟩ := same
  have begun := starts_startBegun s0 t r
  have ended := started_startEnded (s0.startBegun t r) t r (s.tile t).die
  have whole := begun.started.trans ended
  rw [die] at begun whole
  refine ⟨_, e, ?_, fun hw k hk => ?_, fun hv hf => ?_⟩
  all_goals rw [tile_startDone, tile_reportTiles]
  · rw [whole.die, die_released]
  · rw [← written] at hw ⊢
    exact (whole.params _ (asWritten_released s0 t _ hw)).inForce k hk
  · have unformed : ((s0.startBegun t r).tile t).triad.formed = false := by rw [begun.triad, triad_released, triad, hf]
    rw [startEnded_stops _ t r hv unformed, begun.die, die_released]

end start

/-! ### A reset read off (R381) -/

section sources

variable {s s' : State} {t : TileId} {c : ResetCause}

/-- The die's record after its reset is that of the reset, whatever follows on the other tiles and the head. -/
theorem die_dieReset (s : State) (t : TileId) (c : ResetCause) : ((s.dieReset t c).tile t).die = (s.tile t).die.afterReset c := by
  rw [(resetStep_dieReset (t := t) (c := c) s).tile.rest, State.tile_modTile_self]
  rfl

theorem powerGood_dieReset (s : State) (t : TileId) (c : ResetCause) : (s.dieReset t c).powerGood = s.powerGood :=
  (resetStep_dieReset (t := t) (c := c) s).supply.1

theorem State.IsReset.startDone (h : State.IsReset s s' t c) : State.IsReset s s'.startDone t c :=
  h.aside (by rw [tile_startDone]; exact .refl c _)

theorem hasTile_of_part (h : s'.part = s.part) (t : TileId) : s'.hasTile t = s.hasTile t := by
  unfold State.hasTile
  rw [h]

theorem exec_brownOut (ht : s.hasTile t = true) :
    exec (.brownOut t) s = .next (({ s with powerGood := false }.dieReset t .brownOut).hold t .brownOut true) := by
  change execBrownOut t s = _
  exact onTile_of t s _ ht

theorem exec_vdd33Loss (ht : s.hasTile t = true) : exec (.vdd33Loss t) s = .next ({ s with powerGood := false }.dieReset t .powerOn) := by
  change execVdd33Loss t s = _
  exact onTile_of t s _ ht

theorem exec_thermalReset (hot : Bool) (ht : s.hasTile t = true) : exec (.thermalReset t hot) s =
    .next (if hot then ((s.dieReset t .thermal).hold t .thermal true).startDone else s.hold t .thermal false) := by
  change execThermalReset t hot s = _
  exact onTile_of t s _ ht

theorem brownOut_resets (ht : s.hasTile t = true) : ∃ s', exec (.brownOut t) s = .next s' ∧ State.IsReset s s' t .brownOut ∧
    .brownOut ∈ (s'.tile t).die.holds ∧ s'.powerGood = false ∧ ∀ u, u ≠ t → Tile.Told (s.tile u) (s'.tile u) := by
  have reset : State.IsReset s ({ s with powerGood := false }.dieReset t .brownOut) t .brownOut := isReset_dieReset (.refl _ (s.tile t))
  refine ⟨_, exec_brownOut ht, reset.hold t _ true, held_hold _ t _, ?_, fun u hu => ?_⟩
  · exact powerGood_dieReset { s with powerGood := false } t .brownOut
  · rw [tile_hold, if_neg hu]
    exact (mailOnly_dieReset { s with powerGood := false } hu).told

theorem vdd33Loss_resets (ht : s.hasTile t = true) : ∃ s', exec (.vdd33Loss t) s = .next s' ∧ State.IsReset s s' t .powerOn ∧
    s'.powerGood = false ∧ ∀ u, u ≠ t → Tile.Told (s.tile u) (s'.tile u) := by
  refine ⟨_, exec_vdd33Loss ht, isReset_dieReset (.refl _ (s.tile t)), ?_, fun u hu => ?_⟩
  · exact powerGood_dieReset { s with powerGood := false } t .powerOn
  · exact (mailOnly_dieReset { s with powerGood := false } hu).told

theorem thermalReset_holds (ht : s.hasTile t = true) : ∃ s', exec (.thermalReset t true) s = .next s' ∧ State.IsReset s s' t .thermal ∧
    .thermal ∈ (s'.tile t).die.holds := by
  refine ⟨_, exec_thermalReset true ht, ?_⟩
  rw [if_pos rfl, tile_startDone]
  exact ⟨((isReset_dieReset (.refl _ _)).hold t _ true).startDone, held_hold _ t _⟩

theorem thermalReset_frees (ht : s.hasTile t = true) : ∃ s', exec (.thermalReset t false) s = .next s' ∧
    .thermal ∉ (s'.tile t).die.holds ∧ s'.head = s.head ∧ (s'.tile t).die.inReset = (s.tile t).die.inReset :=
  ⟨_, exec_thermalReset false ht, free_hold s t .thermal, rfl, inReset_hold s t .thermal false⟩

/-! ### The start supervisor (R382) -/

theorem supervised_of (h : (s.tile t).die.inReset = true ∧ (s.tile t).die.holds = [] ∧ (s.tile t).die.heldDown = false ∧
      s.powerGood = true ∧ s.refOk = true ∨
    (s.tile t).die.inReset = false ∧ (s.tile t).triad.formed = true ∧ (s.tile t).die.fwVerified = true ∧ (s.tile t).die.kaSent = false) :
    s.supervised t = true := by
  unfold State.supervised
  dsimp only
  rcases h with ⟨inReset, holds, heldDown, power, clock⟩ | ⟨inReset, formed, verified, sent⟩
  · rw [inReset, holds, heldDown, power, clock]
    rfl
  · rw [inReset, formed, verified, sent]
    rfl

/-- The count of a supervisor's reset, of which the third in a row holds the die (R382). -/
def Die.supervise (d : Die) : Die := { d with supervisor := d.supervisor + 1, heldDown := decide (d.supervisor + 1 ≥ 3) }

theorem exec_startSupervisorTimeout (ht : s.hasTile t = true) : exec (.startSupervisorTimeout t) s =
    .next (if !s.supervised t then s else ((s.dieReset t .supervisor).modDie t Die.supervise).startDone) := by
  change execStartSupervisorTimeout t s = _
  exact onTile_of t s _ ht

theorem startSupervisorTimeout_resets (ht : s.hasTile t = true) (h : s.supervised t = true) :
    ∃ s', exec (.startSupervisorTimeout t) s = .next s' ∧ State.IsReset s s' t .supervisor ∧
      (s'.tile t).die.supervisor = (s.tile t).die.supervisor + 1 ∧
      ((s'.tile t).die.heldDown = true ↔ 3 ≤ (s.tile t).die.supervisor + 1) := by
  have tile : ((s.dieReset t .supervisor).modDie t Die.supervise).tile t =
      { (s.dieReset t .supervisor).tile t with die := ((s.dieReset t .supervisor).tile t).die.supervise } := State.tile_modTile_self ..
  have die : ((s.dieReset t .supervisor).modDie t Die.supervise |>.tile t).die = ((s.tile t).die.afterReset .supervisor).supervise := by
    rw [tile, die_dieReset]
  have reset : State.IsReset s (s.dieReset t .supervisor) t .supervisor := isReset_dieReset (.refl _ _)
  refine ⟨_, exec_startSupervisorTimeout ht, ?_⟩
  rw [h, Bool.not_true, if_neg Bool.false_ne_true, tile_startDone, die]
  exact ⟨(reset.die (d := ((s.dieReset t .supervisor).tile t).die.supervise) tile).startDone, rfl, decide_eq_true_iff⟩

theorem startSupervisorTimeout_passes (ht : s.hasTile t = true) (hr : (s.tile t).die.inReset = false) (hk : (s.tile t).die.kaSent = true) :
    exec (.startSupervisorTimeout t) s = .next s := by
  have silent : s.supervised t = false := by
    unfold State.supervised
    simp only [hr, hk, Bool.not_true, Bool.and_false, Bool.false_eq_true, if_false]
  rw [exec_startSupervisorTimeout ht, silent]
  rfl

/-! ### Sources of the whole package (R367, R369, R379, R381, R385) -/

theorem board_holds (l : List TileId) (s : State) (c : ResetCause) (on : Bool) :
    (s.each l fun s t => s.hold t c on).head = s.head ∧ (s.each l fun s t => s.hold t c on).powerGood = s.powerGood ∧
      (s.each l fun s t => s.hold t c on).refOk = s.refOk :=
  ⟨State.each_keeps (g := fun s => s.head) (f := fun s t => s.hold t c on) (fun _ _ => rfl) l s, State.each_keeps (g := fun s => s.powerGood) (f := fun s t => s.hold t c on) (fun _ _ => rfl) l s,
    State.each_keeps (g := fun s => s.refOk) (f := fun s t => s.hold t c on) (fun _ _ => rfl) l s⟩

theorem powerGood_resets (straps : Straps) : ∃ s', exec (.powerGood straps) s = .next s' ∧ s'.powerGood = true ∧
    s'.head.board.straps = straps ∧ s'.head.board.strapFault = (straps.join && !strapsKeep straps) ∧
    ∀ t, s.hasTile t = true → State.IsReset s s' t .powerOn := by
  refine ⟨_, rfl, ?_⟩
  dsimp only
  generalize read : ({ s with powerGood := true }.modBoard fun b =>
    { b with straps := straps, strapFault := straps.join && !strapsKeep straps }) = s1
  have power : s1.powerGood = true := by rw [← read]; rfl
  have board : s1.head.board.straps = straps ∧ s1.head.board.strapFault = (straps.join && !strapsKeep straps) := by
    rw [← read]
    exact ⟨rfl, rfl⟩
  have tiles (t : TileId) : s1.tile t = s.tile t := by rw [← read]; rfl
  have part : s1.part = s.part := by rw [← read]; rfl
  obtain ⟨head, powerKept, -⟩ := board_holds s.tileIds (s1.resetAll .powerOn) .brownOut false
  obtain ⟨strapsKept, faultKept⟩ := straps_resetAll (s := s1) (c := .powerOn) (by
    rw [board.1, board.2, Bool.and_eq_true, Bool.not_eq_true']
    exact And.right)
  refine ⟨?_, ?_, ?_, fun t ht => ?_⟩
  · rw [powerKept, powerGood_resetAll, power]
  · rw [head, strapsKept, board.1]
  · rw [head, faultKept, board.2]
  · have reset : State.IsReset s1 (s1.resetAll .powerOn) t .powerOn := isReset_resetAll ((hasTile_of_part part t).trans ht)
    refine State.IsReset.holds ⟨?_, reset.reads⟩ s.tileIds .brownOut false
    rw [← tiles t]
    exact reset.retained

theorem externalReset_resets : ∃ s', exec .externalReset s = .next s' ∧ ∀ t, s.hasTile t = true → State.IsReset s s' t .externalRst :=
  ⟨_, rfl, fun _ ht => isReset_resetAll ht⟩

theorem referenceLoss_holds : ∃ s', exec .referenceLoss s = .next s' ∧ s'.refOk = false ∧
    ∀ t, s.hasTile t = true → State.IsReset s s' t .clock ∧ .clock ∈ (s'.tile t).die.holds := by
  refine ⟨_, rfl, ?_, fun t ht => ⟨?_, ?_⟩⟩
  · exact (board_holds _ _ .clock true).2.2.trans (refOk_resetAll { s with refOk := false } .clock)
  · have reset : State.IsReset { s with refOk := false } ({ s with refOk := false }.resetAll .clock) t .clock := isReset_resetAll ht
    have own : State.IsReset s ({ s with refOk := false }.resetAll .clock) t .clock := ⟨reset.retained, reset.reads⟩
    exact own.holds _ .clock true
  · refine held_holds _ (mem_tileIds ?_) _ .clock
    exact (hasTile_of_part (part_resetAll { s with refOk := false } .clock) t).trans ht

theorem referenceReturn_frees : ∃ s', exec .referenceReturn s = .next s' ∧ s'.refOk = true ∧
    ∀ t, s.hasTile t = true → .clock ∉ (s'.tile t).die.holds ∧ (s'.tile t).die.inReset = (s.tile t).die.inReset := by
  refine ⟨_, rfl, ?_, fun t ht => ⟨free_holds _ (mem_tileIds ht) _ .clock, ?_⟩⟩
  · exact (board_holds s.tileIds { s with refOk := true } .clock false).2.2
  · exact State.each_keeps (g := fun s => (s.tile t).die.inReset) (fun s u => inReset_hold s u .clock false) s.tileIds { s with refOk := true }

end sources

/-! ### The gate drivers' supply (R54, R378) -/

/-- The field die stands. -/
def fieldFraming : Framing where
  rel x y := y.field = x.field
  refl _ := rfl
  trans h k := k.trans h
  door _ _ _ _ := rfl
  axis _ _ _ _ := rfl

/-- An axis whose gates are off after a trip (R59, R378). -/
def Axis.GatesOff (x : Axis) : Prop := x.mo.bridge = .free ∧ x.fab.tripped = true

section gates

variable {s0 s : State} {t : TileId} {a b : AxisId}

theorem State.Told.axis {s' : State} (h : State.Told s s') (t : TileId) (a : AxisId) : s'.axis t a = s.axis t a := by
  rw [State.axis, h.tiles t]
  rfl

theorem fieldFrame_vdrvTrip (h : State.Frame fieldFraming t s0 s) : State.Frame fieldFraming t s0 (s.vdrvTrip t a) := by
  unfold State.vdrvTrip State.fabricTrip
  dsimp only
  refine frame_ite ?_ (.told ?_ (told_driveBusEvent (.refl _)))
  all_goals exact frame_modMo (frame_modTile (frame_ite (frame_noteTrip h) h) rfl) fun _ => ⟨rfl, rfl, rfl, rfl⟩

theorem axis_noteTrip (s : State) (t : TileId) (a b : AxisId) (src : BitVec 16) :
    ((s.noteTrip t a src).axis t b).fb = (s.axis t b).fb ∧ (b ≠ a → (s.noteTrip t a src).axis t b = s.axis t b) := by
  unfold State.noteTrip
  rw [State.modMo, State.axis_modAxis_eq_ite]
  exact ⟨by split <;> rfl, fun h => if_neg h⟩

/-- A trip of the fabric turns the gates of its axis off; no axis's feedback, and no other axis, changes (R59). -/
theorem axis_fabricTrip (s : State) (t : TileId) (a b : AxisId) (src : BitVec 16) :
    ((s.fabricTrip t a src).axis t b).fb = (s.axis t b).fb ∧ (b = a → ((s.fabricTrip t a src).axis t b).GatesOff) ∧
      (b ≠ a → (s.fabricTrip t a src).axis t b = s.axis t b) := by
  unfold State.fabricTrip
  dsimp only
  have noted : ∀ {c : Prop} [Decidable c], ((if c then s.noteTrip t a src else s).axis t b).fb = (s.axis t b).fb ∧
      (b ≠ a → (if c then s.noteTrip t a src else s).axis t b = s.axis t b) := by
    intro c _
    split
    · exact axis_noteTrip s t a b src
    · exact ⟨rfl, fun _ => rfl⟩
  rw [State.axis_modAxis_eq_ite]
  split
  case isTrue e => exact ⟨noted.1, fun _ => ⟨rfl, rfl⟩, fun h => absurd e h⟩
  case isFalse e => exact ⟨noted.1, fun h => absurd h e, noted.2⟩

theorem axis_vdrvTrip (s : State) (t : TileId) (a b : AxisId) :
    ((s.vdrvTrip t a).axis t b).fb = (s.axis t b).fb ∧ (b = a → ((s.vdrvTrip t a).axis t b).GatesOff) ∧
      (b ≠ a → (s.vdrvTrip t a).axis t b = s.axis t b) := by
  have read : (s.vdrvTrip t a).axis t b =
      ((s.fabricTrip t a srcDriveBus).modMo t a fun m => { m with freeDelay := false }).axis t b := by
    unfold State.vdrvTrip
    dsimp only
    split
    · rfl
    · exact (told_driveBusEvent (.refl _)).axis t b
  obtain ⟨fb, off, same⟩ := axis_fabricTrip s t a b srcDriveBus
  rw [read, State.modMo, State.axis_modAxis_eq_ite]
  split
  case isTrue e => exact ⟨fb, off, fun h => absurd e h⟩
  case isFalse => exact ⟨fb, off, same⟩

theorem AxisId.mem_all (a : AxisId) : a ∈ AxisId.all := by cases a <;> decide

theorem exec_vdrvLow (ht : s.hasTile t = true) : exec (.vdrvLow t) s = .next (if !(s.tile t).field.vdrvOk then s
    else (s.modField t fun f => { f with vdrvOk := false }).each AxisId.all fun s a => s.vdrvTrip t a) := by
  change execVdrvLow t s = _
  exact onTile_of t s _ ht

theorem vdrvLow_turns_off (ht : s.hasTile t = true) (hv : (s.tile t).field.vdrvOk = true) :
    ∃ s', exec (.vdrvLow t) s = .next s' ∧ (s'.tile t).field.vdrvOk = false ∧
      (∀ a, (s'.axis t a).mo.bridge = .free ∧ (s'.axis t a).fab.tripped = true ∧ (s'.axis t a).fb = (s.axis t a).fb) ∧
      ∀ u, u ≠ t → Tile.Told (s.tile u) (s'.tile u) := by
  have frame : State.Frame fieldFraming t (s.modField t fun f => { f with vdrvOk := false })
      ((s.modField t fun f => { f with vdrvOk := false }).each AxisId.all fun s a => s.vdrvTrip t a) :=
    frame_each (.refl _ _ _) fun _ _ => fieldFrame_vdrvTrip
  refine ⟨_, exec_vdrvLow ht, ?_⟩
  rw [hv, Bool.not_true, if_neg Bool.false_ne_true]
  refine ⟨?_, fun a => ?_, fun u hu => ((onlyTile_modTile s t _).trans frame.only).others u hu⟩
  · have field : _ = _ := frame.tile
    rw [field, tile_modField]
  · obtain ⟨free, tripped⟩ := each_establishes (P := fun s => (s.axis t a).GatesOff) AxisId.all (AxisId.mem_all a)
      (fun s => (axis_vdrvTrip s t a a).2.1 rfl) (fun s b h => by
        obtain ⟨-, off, same⟩ := axis_vdrvTrip s t b a
        by_cases e : a = b
        · exact off e
        · rw [same e]
          exact h) (s.modField t fun f => { f with vdrvOk := false })
    refine ⟨free, tripped, ?_⟩
    rw [State.each_keeps (g := fun s => (s.axis t a).fb) (fun s b => (axis_vdrvTrip s t b a).1), State.axis_modField]

theorem exec_vdrvRestored (ht : s.hasTile t = true) : exec (.vdrvRestored t) s = .next (if (s.tile t).field.vdrvOk then s
    else (s.modField t fun f => { f with vdrvOk := true }).each AxisId.all fun s a => s.modMo t a fun m => { m with bridge := .brake }) := by
  change execVdrvRestored t s = _
  exact onTile_of t s _ ht

theorem vdrvRestored_brakes (ht : s.hasTile t = true) (hv : (s.tile t).field.vdrvOk = false) :
    ∃ s', exec (.vdrvRestored t) s = .next s' ∧ (s'.tile t).field.vdrvOk = true ∧
      (∀ a, (s'.axis t a).mo.bridge = .brake) ∧ s'.head = s.head ∧ ∀ u, u ≠ t → s'.tile u = s.tile u := by
  refine ⟨_, exec_vdrvRestored ht, ?_⟩
  rw [hv, if_neg Bool.false_ne_true]
  refine ⟨?_, fun a => ?_, State.each_keeps (g := fun s => s.head) (fun _ _ => rfl) AxisId.all _, fun u hu => ?_⟩
  · rw [State.each_keeps (g := fun s => (s.tile t).field) (f := fun s a => s.modMo t a fun m => { m with bridge := .brake })
      (fun s a => State.field_modAxis ..), tile_modField]
  · refine each_establishes (P := fun s => (s.axis t a).mo.bridge = .brake) AxisId.all (AxisId.mem_all a) (fun s => ?_) (fun s b h => ?_) _
    · rw [State.mo_modMo]
    · rw [State.modMo, State.axis_modAxis_eq_ite]
      split
      · rfl
      · exact h
  · rw [State.each_keeps (g := fun s => s.tile u) (f := fun s a => s.modMo t a fun m => { m with bridge := .brake })
      (fun s a => by rw [State.modMo, State.modAxis, State.tile_modTile, if_neg hu]), State.modField, State.tile_modTile, if_neg hu]

end gates

/-! ### The domain of VBAT (R152, R159, R378) -/

section vbat

variable {s : State} {t : TileId}

/-- The field die without the domain of VBAT: nothing is measured on its channels. -/
def FieldDie.vbatLost (f : FieldDie) : FieldDie :=
  { f with lswOn := false, ls := vmap (fun (c : LsChannel) => { c with offCurrent := false, code := 0, checking := false }) f.ls }

theorem exec_vbatDomainLoss (ht : s.hasTile t = true) : exec (.vbatDomainLoss t) s = .next ((s.modField t FieldDie.vbatLost).lsRefresh t) := by
  change execVbatDomainLoss t s = _
  exact onTile_of t s _ ht

theorem exec_vbatDomainReturn (ht : s.hasTile t = true) :
    exec (.vbatDomainReturn t) s = .next ((s.modField t fun f => { f with lswOn := true }).lsRefresh t true) := by
  change execVbatDomainReturn t s = _
  exact onTile_of t s _ ht

theorem vbatDomainLoss_turns_off (ht : s.hasTile t = true) : ∃ s', exec (.vbatDomainLoss t) s = .next s' ∧
    s' = s.modField t (fun _ => (s'.tile t).field) ∧ ∀ ch : Fin 10, (((s'.tile t).field.ls)[ch]).isOn = false := by
  obtain ⟨ls, e, settled⟩ := lsRefresh_modField s t FieldDie.vbatLost false
  refine ⟨_, (exec_vbatDomainLoss ht).trans (congrArg _ e), ?_⟩
  rw [tile_modField]
  refine ⟨rfl, fun ch => (settled ch).trans ?_⟩
  rw [Tile.lsOn]
  exact Bool.and_eq_false_imp.mpr fun on => absurd on (by simp [FieldDie.vbatLost, FieldDie.lswUp])

theorem vbatDomainReturn_settles (ht : s.hasTile t = true) : ∃ s', exec (.vbatDomainReturn t) s = .next s' ∧
    s' = s.modField t (fun _ => (s'.tile t).field) ∧ (s'.tile t).field.lswOn = true ∧ (s'.tile t).LsSettled := by
  obtain ⟨ls, e, settled⟩ := lsRefresh_modField s t (fun f => { f with lswOn := true }) true
  refine ⟨_, (exec_vbatDomainReturn ht).trans (congrArg _ e), ?_⟩
  rw [tile_modField]
  exact ⟨rfl, rfl, settled⟩

end vbat

/-- Settles O60: a reset leaves what State.IsReset says, a start what State.StartedFrom says, and a supply acts on its domain alone. -/
theorem suppliesResetAndStartTheDies : Obligations.SuppliesResetAndStartTheDies := by
  unfold Obligations.SuppliesResetAndStartTheDies
  intro s isReset
  have reads {s' : State} {t : TileId} {c : ResetCause} (h : State.IsReset s s' t c) : isReset s' t c := by
    obtain ⟨written, bundle, key, records, soundings, field⟩ := h.retained
    obtain ⟨inReset, cause, svc, formed, axes, sra⟩ := h.reads
    exact ⟨inReset, cause, svc, formed, written, bundle, key, records,
      fun a => ⟨(axes a).1, (axes a).2.1, (axes a).2.2, soundings a⟩, field, sra⟩
  refine ⟨fun t ht => ?_, fun straps => ?_, rfl, ?_, ?_, referenceReturn_frees, fun hh => ?_⟩
  · refine ⟨?_, ?_, ?_, thermalReset_frees ht, ?_, ?_, fun r => logicDieResetRelease_stays s t r ht, ?_,
      startSupervisorTimeout_passes ht, fun h => ?_, vdrvLow_turns_off ht, vdrvRestored_brakes ht, vbatDomainLoss_turns_off ht,
      vbatDomainReturn_settles ht⟩
    · obtain ⟨s', e, reset, rest⟩ := brownOut_resets ht
      exact ⟨s', e, reads reset, rest⟩
    · obtain ⟨s', e, reset, rest⟩ := vdd33Loss_resets ht
      exact ⟨s', e, reads reset, rest⟩
    · obtain ⟨s', e, reset, rest⟩ := thermalReset_holds ht
      exact ⟨s', e, reads reset, rest⟩
    · exact congrArg (·.1) (supplied_imageLoaded s t)
    · exact congrArg (·.2.2.2) (supplied_imageLoaded s t)
    · intro inReset holds heldDown power clock r
      obtain ⟨s', e, ⟨die, inForce, silent⟩⟩ := started_release r ht inReset holds heldDown power clock
      refine ⟨s', e, by rw [die], inForce, fun hp ha => ?_, fun hp hb => ?_, fun hp ha hb => ?_, fun ha hb hf => ?_, ?_⟩
      · rw [die, boot_slotA hp ha]
        exact ⟨rfl, rfl, rfl⟩
      · rw [die, boot_pending hp hb]
        exact ⟨rfl, rfl, rfl, le_max_left _ _⟩
      · rw [die, boot_slotB hp ha hb]
        exact ⟨rfl, rfl⟩
      · have boot := boot_none ha hb
        have reported := silent (by rw [boot]) hf
        rw [boot] at die reported
        exact ⟨by rw [die]; rfl, by rw [die], reported⟩
      · rw [die]
        exact boot_policy
    · obtain ⟨s', e, reset, rest⟩ := startSupervisorTimeout_resets ht (supervised_of h)
      exact ⟨s', e, reads reset, rest⟩
  · obtain ⟨s', e, power, straps, fault, reset⟩ := powerGood_resets (s := s) straps
    exact ⟨s', e, power, straps, fault, fun t ht => reads (reset t ht)⟩
  · obtain ⟨s', e, reset⟩ := externalReset_resets (s := s)
    exact ⟨s', e, fun t ht => reads (reset t ht)⟩
  · obtain ⟨s', e, clock, reset⟩ := referenceLoss_holds (s := s)
    exact ⟨s', e, clock, fun t ht => ⟨reads (reset t ht).1, (reset t ht).2⟩⟩
  · exact ⟨congrArg _ (if_pos hh), congrArg _ (if_pos hh)⟩

end Sys2Proof.Machine
end

section
/-!
PROOFS. One evaluation of the doorway: what sets it off, the order in which it judges its triggers, and what expired bounds and a loss of
release lead to (R35, R37, R38, R223, R224).
-/

namespace Sys2Proof.Machine

/-! ### What sets an evaluation off (R35, R38, R66, R223) -/

section bounds

variable {s : State} {t : TileId}

theorem exec_doorwayEvaluation (ht : s.hasTile t = true) (now : Nat) : exec (.doorwayEvaluation t now) s = .next ((s.at now).evaluate t) :=
  onTile_of t s (fun s => (s.at now).evaluate t) ht

/-- The expiry of a running bound is noted and evaluated. -/
theorem onTile_boundExpires (ht : s.hasTile t = true) {b : Doorway → Bound} (put : Doorway → Bound → Doorway)
    (hb : (b (s.tile t).door).isRunning = true) :
    onTile t s (fun s => s.boundExpires t b put) = .next ((s.modDoor t fun d => put d .expired).evaluate t) := by
  rw [onTile_of t s _ ht, State.boundExpires, if_pos hb]

theorem exec_tUnlockExpiry (ht : s.hasTile t = true) (hb : (s.tile t).door.tUnlock.isRunning = true) :
    exec (.tUnlockExpiry t) s = .next ((s.modDoor t fun d => { d with tUnlock := .expired }).evaluate t) :=
  onTile_boundExpires ht (b := (·.tUnlock)) (fun d b => { d with tUnlock := b }) hb

theorem exec_tHomeMaxExpiry (ht : s.hasTile t = true) {a : AxisId} (hb : (s.axis t a).mo.tHomeMax.isRunning = true) :
    exec (.tHomeMaxExpiry t a) s = .next ((s.modMo t a fun m => { m with tHomeMax := .expired }).evaluate t) := by
  change execTHomeMaxExpiry t a s = _
  rw [execTHomeMaxExpiry, onTile_of t s _ ht, if_pos hb]

/-- A triad that does not run evaluates nothing. -/
theorem evaluate_of_not_runs (hr : (s.tile t).triadRuns = false) : s.evaluate t = s := by
  simp [State.evaluate, Tile.triadActs, State.holdBack, hr]

/-- While the signatures are compared, the evaluation is kept for the commit. -/
theorem evaluate_of_held (hr : (s.tile t).triadRuns = true) (ha : (s.tile t).triadActs = false) :
    s.evaluate t = s.modTriad t fun tr => { tr with held := tr.held ++ [.doorwayEvaluation t s.now] } := by
  simp [State.evaluate, State.holdBack, hr, ha]

@[simp] theorem triadRuns_modDoor (f : Doorway → Doorway) : ((s.modDoor t f).tile t).triadRuns = (s.tile t).triadRuns := by
  simp [Tile.triadRuns]

@[simp] theorem triadActs_modDoor (f : Doorway → Doorway) : ((s.modDoor t f).tile t).triadActs = (s.tile t).triadActs := by
  simp [Tile.triadActs]

end bounds

/-- Settles O9: each expiry is one of a running bound, and an evaluation of a triad that does not act does nothing or waits. -/
theorem boundsExpireIntoAnEvaluation : Obligations.BoundsExpireIntoAnEvaluation := by
  unfold Obligations.BoundsExpireIntoAnEvaluation
  refine ⟨fun s t ht => ⟨exec_doorwayEvaluation ht, exec_tUnlockExpiry ht, ?_, ?_, ?_, ?_, ?_, ?_, ?_, ?_, ?_, ?_, ?_, ?_,
    fun a => exec_tHomeMaxExpiry ht⟩, fun s t ht ha => ⟨fun hr => ⟨fun now => ?_, fun hb => ?_⟩, fun hr => ⟨fun now => ?_, fun hb => ?_⟩⟩⟩
  · exact onTile_boundExpires ht (b := (·.tOpenMax)) fun d b => { d with tOpenMax := b }
  · exact onTile_boundExpires ht (b := (·.tWarn)) fun d b => { d with tWarn := b }
  · exact onTile_boundExpires ht (b := (·.tCloseMax)) fun d b => { d with tCloseMax := b }
  · exact onTile_boundExpires ht (b := (·.tLock)) fun d b => { d with tLock := b }
  · exact onTile_boundExpires ht (b := (·.tNudgeMax)) fun d b => { d with tNudgeMax := b }
  · exact onTile_boundExpires ht (b := (·.tOpenDwell)) fun d b => { d with tOpenDwell := b }
  · exact onTile_boundExpires ht (b := (·.tStepMax)) fun d b => { d with tStepMax := b }
  · exact onTile_boundExpires ht (b := (·.tRevMax)) fun d b => { d with tRevMax := b }
  · exact onTile_boundExpires ht (b := (·.tBrakeMax)) fun d b => { d with tBrakeMax := b }
  · exact onTile_boundExpires ht (b := (·.tDwell)) fun d b => { d with tDwell := b }
  · exact onTile_boundExpires ht (b := (·.calRest)) fun d b => { d with calRest := b }
  · exact onTile_boundExpires ht (b := (·.calEndMax)) fun d b => { d with calEndMax := b }
  · rw [exec_doorwayEvaluation ht, evaluate_of_not_runs (by rw [State.tile_at, hr])]
  · rw [exec_tUnlockExpiry ht hb, evaluate_of_not_runs (by rw [triadRuns_modDoor, hr])]
  · rw [exec_doorwayEvaluation ht, evaluate_of_held (by rw [State.tile_at, hr]) (by rw [State.tile_at, ha])]
  · rw [exec_tUnlockExpiry ht hb, evaluate_of_held (by rw [triadRuns_modDoor, hr]) (by rw [triadActs_modDoor, ha])]
    rfl

/-! ### The order of its triggers (R38) -/

/-- Settles O10: the choice is written in the order of R38, each group standing where those before it give nothing. -/
theorem evaluationJudgesItsTriggersInOrder : Obligations.EvaluationJudgesItsTriggersInOrder := by
  unfold Obligations.EvaluationJudgesItsTriggersInOrder
  intro s t
  dsimp only
  refine ⟨fun x hx => ?fault, fun hf hi hst => ?isolate, fun hf hi => ⟨fun hp hh hst hsafe => ?lost, fun hp => ?rest⟩⟩
  case fault => rw [State.evalChoice, hx, Option.getD_some]
  case isolate => simp [State.evalChoice, hf, hi, hst]
  all_goals
    have noIso : ((s.tile t).link.up.pIso == .active && (s.tile t).door.st != .isolated) = false := by
      rcases hi with hi | hi <;> simp [hi]
  case lost =>
    have gone : ((s.tile t).door.posLost && (s.tile t).door.homing.isNone && (s.tile t).door.st != .isolated &&
        (s.tile t).door.st != .faultSafe) = true := by
      simp [hp, hh, hst, hsafe]
    rw [State.evalChoice, hf, noIso, gone]
    rfl
  case rest =>
    have kept : ((s.tile t).door.posLost && (s.tile t).door.homing.isNone && (s.tile t).door.st != .isolated &&
        (s.tile t).door.st != .faultSafe) = false := by
      rcases hp with hp | hp | hp | hp <;> simp [hp]
    have choice : s.evalChoice t =
        (s.evalEgress t).getD ((s.evalTripOrBound t).getD ((s.evalLoss t).getD ((s.evalOther t).getD (s.evalCommand t)))) := by
      rw [State.evalChoice, hf, noIso, kept]
      rfl
    rw [choice]
    refine ⟨fun x hx => ?_, fun he => ⟨fun x hx => ?_, fun hb => ⟨fun x hx => ?_, fun hl => ⟨fun x hx => ?_, fun ho => ?_⟩⟩⟩⟩
    · rw [hx, Option.getD_some]
    · rw [he, hx, Option.getD_none, Option.getD_some]
    · rw [he, hb, hx, Option.getD_none, Option.getD_none, Option.getD_some]
    · rw [he, hb, hl, hx, Option.getD_none, Option.getD_none, Option.getD_none, Option.getD_some]
    · rw [he, hb, hl, ho, Option.getD_none, Option.getD_none, Option.getD_none, Option.getD_none]

/-! ### Expired bounds and the loss of release (R35, R37, R39) -/

section expired

variable {s : State} {t : TileId}

/-- Without a homing run none fails. -/
theorem Tile.homeFailure_of_no_run {tl : Tile} (h : tl.door.homing = none) : tl.homeFailure = none := by rw [Tile.homeFailure, h]

section noTrip

variable (hh : (s.tile t).door.homing = none) (ht : (s.tile t).door.trips = []) (hs : (s.tile t).door.stakeExpired = [])
include hh ht hs

theorem evalTripOrBound_unlock (hst : (s.tile t).door.st = .opening) (hb : (s.tile t).door.tUnlock = .expired)
    (he : (s.tile t).door.egress = false) :
    s.evalTripOrBound t = some ((((s.setLock t false).raise t 0x02 []).transition t 8 .released).brakeAll t) := by
  simp [State.evalTripOrBound, Tile.homeFailure_of_no_run hh, hh, ht, hs, hst, hb, he, Bound.isExpired]

theorem evalTripOrBound_nudgeMax (hst : (s.tile t).door.st = .nudging) (hb : (s.tile t).door.tNudgeMax = .expired) :
    s.evalTripOrBound t = some (s.nudgeFailed t 2) := by
  simp [State.evalTripOrBound, Tile.homeFailure_of_no_run hh, hh, ht, hs, hst, hb, Bound.isExpired]

theorem evalTripOrBound_warn (hst : (s.tile t).door.st = .closing) (hc : (s.tile t).door.tCloseMax.isExpired = false)
    (hm : (s.tile t).door.tStepMax.isExpired = false) (hb : (s.tile t).door.tWarn = .expired) :
    s.evalTripOrBound t = some (((s.transition t 15 .closing).modDoor t fun d => { d with tWarn := .idle }).startClosing t) := by
  have hw : (s.tile t).door.tWarn.isExpired = true := by rw [hb]; rfl
  simp [State.evalTripOrBound, Tile.homeFailure_of_no_run hh, hh, ht, hs, hst, hc, hm, hw]

end noTrip

section loss

variable (hr : (s.tile t).releaseValid = false)
include hr

theorem evalLoss_released (hst : (s.tile t).door.st = .released) : s.evalLoss t = some ((s.by_ t .trainLine).transition t 6 .locked) := by
  simp [State.evalLoss, hr, hst]

theorem evalLoss_open (hst : (s.tile t).door.st = .opening ∨ (s.tile t).door.st = .openSt) (he : (s.tile t).door.egress = false) :
    s.evalLoss t = some (((s.by_ t .trainLine).modDoor t fun d => { d with srcClose := .trainLine }).closeDemand t 11) := by
  rcases hst with hst | hst <;> simp [State.evalLoss, hr, hst, he]

theorem evalLoss_held (hst : (s.tile t).door.st = .held) (he : (s.tile t).door.egress = false) :
    s.evalLoss t = some (((s.by_ t .trainLine).modDoor t fun d => { d with srcClose := .trainLine }).closeDemand t 26) := by
  simp [State.evalLoss, hr, hst, he]

end loss

end expired

/-- Settles O12, by the lemmas on each bound and on each state that a loss of release finds. -/
theorem expiredBoundsAndLossesTakeTheirTransitions : Obligations.ExpiredBoundsAndLossesTakeTheirTransitions := by
  unfold Obligations.ExpiredBoundsAndLossesTakeTheirTransitions
  intro s t tl d
  refine ⟨fun hh ht hs => ?_, fun hr => ?_⟩
  · exact ⟨evalTripOrBound_unlock hh ht hs, evalTripOrBound_nudgeMax hh ht hs, evalTripOrBound_warn hh ht hs⟩
  · exact ⟨evalLoss_released hr, evalLoss_open hr, evalLoss_held hr⟩

end Sys2Proof.Machine
end

section
/-!
PROOFS. The quadrature lines and the index: counting, the QERR window, and a position that is lost (R78, R79, R81, R89, R90).
-/

namespace Sys2Proof.Machine

section feedback

variable {s s' s'' : State} {t : TileId} {a : AxisId}

theorem State.modAxis_modAxis (s : State) (t : TileId) (a : AxisId) (f g : Axis → Axis) :
    (s.modAxis t a f).modAxis t a g = s.modAxis t a fun x => g (f x) := by cases t <;> cases a <;> rfl

@[simp] theorem State.axis_modDoor (s : State) (t u : TileId) (f : Doorway → Doorway) (b : AxisId) :
    (s.modDoor t f).axis u b = s.axis u b := by rw [State.axis, State.ax_modDoor, State.axis]

@[simp] theorem State.door_modAxis (s : State) (t : TileId) (a : AxisId) (f : Axis → Axis) :
    ((s.modAxis t a f).tile t).door = (s.tile t).door := by cases t <;> rfl

@[simp] theorem used_modAxis (b : AxisId) (f : Axis → Axis) : ((s.modAxis t b f).tile t).used a = (s.tile t).used a := by
  cases t <;> rfl

/-! ### A change made after something was told -/

theorem State.modDoor_id (s : State) (t : TileId) : (s.modDoor t fun d => d) = s := State.modTile_id s t

theorem State.Told.modTile_congr (h : State.Told s s') {f : Tile → Tile} (hf : Tile.Told (f (s.tile t)) (f (s'.tile t))) :
    State.Told (s.modTile t f) (s'.modTile t f) := by
  refine ⟨h.part, h.windows, h.supply, h.draws, h.pending, h.head, fun u => ?_⟩
  rw [State.tile_modTile, State.tile_modTile]
  split
  case isTrue e => exact e ▸ hf
  case isFalse => exact h.tiles u

theorem State.Told.modAxis_congr (h : State.Told s s') (f : Axis → Axis) : State.Told (s.modAxis t a f) (s'.modAxis t a f) := by
  refine h.modTile_congr ?_
  rw [h.tiles t]
  rfl

/-- A change of the doorway that passes by the mailbox. -/
def Doorway.Beside (f : Doorway → Doorway) : Prop := ∀ d m, f { d with mailbox := m } = { f d with mailbox := m }

theorem State.Told.modDoor_congr (h : State.Told s s') {f : Doorway → Doorway} (hf : Doorway.Beside f) :
    State.Told (s.modDoor t f) (s'.modDoor t f) := by
  refine h.modTile_congr ?_
  rw [h.tiles t, Tile.Told]
  dsimp only
  rw [hf]

/-- Told of either way of a choice. -/
theorem told_cond {c : Prop} [Decidable c] {x y x' y' : State} (hx : c → State.Told x x') (hy : ¬ c → State.Told y y') :
    State.Told (if c then x else y) (if c then x' else y') := by
  split
  case isTrue h => exact hx h
  case isFalse h => exact hy h

theorem State.Told.ts (h : State.Told s s') : s'.ts = s.ts := by rw [State.ts, h.time, State.ts]

theorem State.Told.st (h : State.Told s s') (t : TileId) : (s'.tile t).door.st = (s.tile t).door.st := by rw [h.door t]

/-! ### A position that is lost (R89, R90) -/

theorem engineTrip_eq (s : State) (t : TileId) (a : AxisId) (src : BitVec 16) : s.engineTrip t a src = s.modMo t a fun m =>
    { m with tripNote := some ((s.axis t a).noted src (s.tile t).door.st s.ts), clearOwed := true, tripEngine := true } :=
  State.modAxis_modAxis ..

/-- A loss is judged by the count, the reference and the motion of its axis, and by the rest of the state as it is. -/
theorem losesPosition_of_modAxis {f : Axis → Axis} {c : Nat} (hp : (f (s.axis t a)).fb.pos = (s.axis t a).fb.pos)
    (hr : (f (s.axis t a)).fb.referenced = (s.axis t a).fb.referenced) (hm : (f (s.axis t a)).mo = (s.axis t a).mo)
    (h : (s.modAxis t a f).LosesPosition s' t a c) : s.LosesPosition s' t a c := by
  have others (b : AxisId) (hb : b ≠ a) : (s.modAxis t a f).axis t b = s.axis t b := by rw [State.axis_modAxis_eq_ite, if_neg hb]
  have tiles (u : TileId) (hu : u ≠ t) : (s.modAxis t a f).tile u = s.tile u := by rw [State.modAxis, State.tile_modTile, if_neg hu]
  unfold State.LosesPosition at h ⊢
  simp only [State.axis_modAxis, State.door_modAxis, State.field_modAxis, Axis.moving, hp, hr, hm] at h ⊢
  obtain ⟨reference, cause, pos, trip, told, run, axes, field, other⟩ := h
  exact ⟨reference, cause, pos, trip, told, run, fun b hb => (axes b hb).trans (others b hb), field,
    fun u hu => tiles u hu ▸ other u hu⟩

theorem State.Told.engineTrip_congr (h : State.Told s s') (src : BitVec 16) :
    State.Told (s.engineTrip t a src) (s'.engineTrip t a src) := by
  rw [engineTrip_eq, engineTrip_eq, h.axis, h.st, h.ts]
  exact h.modAxis_congr _

/-- The feedback of an axis whose position is lost for a cause. -/
def Feedback.lost (f : Feedback) (cause : Nat) (hall : Bool) : Feedback :=
  { f with causes := f.causes ++ [cause], referenced := false, indexPhase := none, hallForbid := f.hallForbid || hall }

/-- The state with the position of an axis lost, before anything is told of it. -/
def State.loses (s : State) (t : TileId) (a : AxisId) (cause : Nat) : State :=
  let x := s.axis t a
  let homing := (s.tile t).door.homing.isSome
  let s1 := s.modFb t a fun f => f.lost cause (cause == 5 && (s.tile t).motor a == 0)
  let s2 := if x.fb.referenced then s1.modDoor t fun d =>
      { d with posLost := d.posLost || !(homing || d.st == .isolated || d.st == .faultSafe) } else s1
  let s3 := if x.moving && !homing then s2.engineTrip t a 0 else s2
  if homing then s3.modDoor t fun d => { d with homeFault := some (d.homeFault.getD (7, some a)) } else s3

theorem told_positionLost {c : Nat} (hu : (s.tile t).used a = true) (hc : (s.axis t a).fb.causes.contains c = false) :
    State.Told (s.loses t a c) (s.positionLost t a c) := by
  unfold State.positionLost State.loses
  simp only [hu, hc, Bool.not_true, Bool.false_eq_true, if_false]
  refine told_cond (fun _ => .modDoor_congr ?_ fun _ _ => rfl) fun _ => ?_
  all_goals
    refine told_cond (fun _ => .engineTrip_congr ?_ 0) fun _ => ?_
    all_goals exact told_cond (fun _ => .modDoor_congr (told_raise (.refl _)) fun _ _ => rfl) fun _ => told_logEvent (.refl _)

theorem State.ite_modDoor (s : State) (t : TileId) (c : Prop) [Decidable c] (f : Doorway → Doorway) :
    (if c then s.modDoor t f else s) = s.modDoor t fun d => if c then f d else d := by
  split
  · rfl
  · rw [State.modDoor_id]

theorem State.ite_modMo (s : State) (t : TileId) (a : AxisId) (c : Prop) [Decidable c] (f : Motion → Motion) :
    (if c then s.modMo t a f else s) = s.modMo t a fun m => if c then f m else m := by
  split
  · rfl
  · cases t <;> cases a <;> rfl

theorem losesPosition_loses (s : State) (t : TileId) (a : AxisId) (c : Nat) : s.LosesPosition (s.loses t a c) t a c := by
  unfold State.loses State.LosesPosition
  simp only [engineTrip_eq, State.ite_modDoor, State.ite_modMo]
  simp only [State.axis_modDoor, State.modMo, State.modFb, State.axis_modAxis, State.door_modDoor, State.door_modAxis, State.field_modDoor,
    State.field_modAxis, Feedback.lost]
  refine ⟨trivial, by simp, trivial, ?trip, ?told, ?run, fun b hb => ?axes, trivial, fun u hu => ?others⟩
  case trip => cases (s.axis t a).moving <;> cases (s.tile t).door.homing <;> simp
  case told =>
    intro hr hh hi hf
    simp [hr, hh, hi, hf]
  case run =>
    intro hh
    cases (s.axis t a).fb.referenced <;> simp [hh]
  case axes => simp only [State.axis_modAxis_eq_ite, State.axis_modDoor, if_neg hb]
  case others => simp only [State.modDoor, State.modAxis, State.tile_modTile, if_neg hu, Tile.Told.refl]

/-- The same of what is told of it. -/
theorem losesPosition_of_told {x y : State} {c : Nat} (h : s.LosesPosition x t a c) (k : State.Told x y) : s.LosesPosition y t a c := by
  have lost : (y.tile t).door.posLost = (x.tile t).door.posLost := by rw [k.door]
  have fault : (y.tile t).door.homeFault = (x.tile t).door.homeFault := by rw [k.door]
  unfold State.LosesPosition at h ⊢
  simp only [k.axis, k.field, lost, fault]
  obtain ⟨reference, cause, pos, trip, told, run, axes, field, others⟩ := h
  exact ⟨reference, cause, pos, trip, told, run, axes, field, fun u hu => (others u hu).trans (k.tiles u)⟩

theorem fb_loses (s : State) (t : TileId) (a : AxisId) (c : Nat) :
    ((s.loses t a c).axis t a).fb = (s.axis t a).fb.lost c (c == 5 && (s.tile t).motor a == 0) := by
  unfold State.loses
  simp only [engineTrip_eq, State.ite_modDoor, State.ite_modMo]
  simp only [State.axis_modDoor, State.modMo, State.modFb, State.axis_modAxis]

/-- A cause that arises afresh loses the position; what was counted of double changes stands. -/
theorem newLoss_loses (s : State) (t : TileId) (a : AxisId) (c : Nat) (hu : (s.tile t).used a = true) :
    s.LosesPosition (s.newLoss t a c) t a c ∧ ((s.newLoss t a c).axis t a).fb.qerr = (s.axis t a).fb.qerr ∧
      ((s.newLoss t a c).axis t a).fb.qerrWindow = (s.axis t a).fb.qerrWindow := by
  have cleared : (((s.causeCleared t a c).axis t a).fb.causes.contains c) = false := by
    rw [State.causeCleared, State.fb_modFb]
    simp
  have told : State.Told ((s.causeCleared t a c).loses t a c) (s.newLoss t a c) :=
    told_positionLost (by rw [State.causeCleared, State.modFb, used_modAxis, hu]) cleared
  refine ⟨?_, ?_⟩
  · exact losesPosition_of_modAxis rfl rfl rfl (losesPosition_of_told (losesPosition_loses _ t a c) told)
  · rw [told.axis, fb_loses, Feedback.lost, State.causeCleared, State.fb_modFb]
    exact ⟨rfl, rfl⟩

/-! ### Counting (R78, R79, R91, R92) -/

/-- Of an axis only the direction record differs, and the rest of its tile's axes and the doorway stand. -/
structure State.Turned (t : TileId) (a : AxisId) (s s' : State) : Prop where
  pos        : (s'.axis t a).fb.pos = (s.axis t a).fb.pos
  referenced : (s'.axis t a).fb.referenced = (s.axis t a).fb.referenced
  u          : (s'.axis t a).fb.u = (s.axis t a).fb.u
  mo         : (s'.axis t a).mo = (s.axis t a).mo
  fab        : (s'.axis t a).fab = (s.axis t a).fab
  door       : (s'.tile t).door = (s.tile t).door
  axes       : ∀ b, b ≠ a → s'.axis t b = s.axis t b

theorem State.Turned.refl (s : State) : State.Turned t a s s := ⟨rfl, rfl, rfl, rfl, rfl, rfl, fun _ _ => rfl⟩

theorem State.Turned.trans (h : State.Turned t a s s') (k : State.Turned t a s' s'') : State.Turned t a s s'' :=
  ⟨k.pos.trans h.pos, k.referenced.trans h.referenced, k.u.trans h.u, k.mo.trans h.mo, k.fab.trans h.fab, k.door.trans h.door,
    fun b hb => (k.axes b hb).trans (h.axes b hb)⟩

theorem turned_of_same (hx : (s'.tile t).ax = (s.tile t).ax) (hd : (s'.tile t).door = (s.tile t).door) : State.Turned t a s s' := by
  have same (b : AxisId) : s'.axis t b = s.axis t b := by rw [State.axis, hx, State.axis]
  exact ⟨by rw [same], by rw [same], by rw [same], by rw [same], by rw [same], hd, fun b _ => same b⟩

theorem State.Logged.turned (h : State.Logged s s') : State.Turned t a s s' := turned_of_same (by rw [h.tiles]) (h.door t)

theorem turned_modFb {f : Feedback → Feedback} (hf : ∀ x, (f x).pos = x.pos ∧ (f x).referenced = x.referenced ∧ (f x).u = x.u) :
    State.Turned t a s (s.modFb t a f) := by
  obtain ⟨pos, referenced, u⟩ := hf (s.axis t a).fb
  have moved : (s.modFb t a f).axis t a = { s.axis t a with fb := f (s.axis t a).fb } := State.axis_modAxis ..
  exact ⟨by rw [moved, pos], by rw [moved, referenced], by rw [moved, u], by rw [moved], by rw [moved], State.door_modAxis ..,
    fun b hb => by rw [State.modFb, State.axis_modAxis_eq_ite, if_neg hb]⟩

theorem turned_ite {c : Prop} [Decidable c] (hs : State.Turned t a s s') (ht : State.Turned t a s s'') :
    State.Turned t a s (if c then s' else s'') := by
  split
  · exact hs
  · exact ht

theorem logged_dirEvent (s : State) (t : TileId) (a : AxisId) : State.Logged s (s.dirEvent t a) :=
  logged_eventOut (logged_ite (logged_logEvent (.refl s)) (.refl s))

theorem turned_dirUpdate (s : State) (t : TileId) (a : AxisId) : State.Turned t a s (s.dirUpdate t a) := by
  unfold State.dirUpdate
  refine turned_ite (turned_ite ?_ (.trans ?_ (logged_dirEvent _ t a).turned)) ?_
  all_goals exact turned_modFb fun _ => ⟨rfl, rfl, rfl⟩

/-- The divided output is its tile's, and no axis nor the doorway takes part in it. -/
theorem tile_encoCount (s : State) (t : TileId) (a : AxisId) (up : Bool) :
    ((s.encoCount t a up).tile t).ax = (s.tile t).ax ∧ ((s.encoCount t a up).tile t).door = (s.tile t).door := by
  unfold State.encoCount State.encoEdge
  dsimp only
  split_ifs <;> simp

/-- One edge counted in a sense. -/
def State.counted (s : State) (t : TileId) (a : AxisId) (up : Bool) : State :=
  ((s.modFb t a fun f => { f with pos := wrap32 (f.pos + (if up then 1 else -1)) }).dirUpdate t a).encoCount t a up

theorem turned_counted (s : State) (t : TileId) (a : AxisId) (up : Bool) :
    State.Turned t a (s.modFb t a fun f => { f with pos := wrap32 (f.pos + (if up then 1 else -1)) }) (s.counted t a up) := by
  obtain ⟨ax, door⟩ := tile_encoCount ((s.modFb t a fun f => { f with pos := wrap32 (f.pos + (if up then 1 else -1)) }).dirUpdate t a) t a up
  exact (turned_dirUpdate _ t a).trans (turned_of_same ax door)

theorem exec_quadratureEdge (ht : s.hasTile t = true) (e : QuadEdge) : exec (.quadratureEdge t a e) s = .next
    (if !(s.tile t).used a || (s.tile t).parA a 0x08 0 = 0 then s else match e with
      | .up => s.counted t a (!((s.tile t).parA a 0x08 2 == 1))
      | .down => s.counted t a ((s.tile t).parA a 0x08 2 == 1)
      | .double n => s.doubleEdge t a n) := by
  change execQuadratureEdge t a e s = _
  rw [execQuadratureEdge, onTile_of t s _ ht]
  rfl

/-! ### A double change (R79, R89) -/

theorem parA_modAxis (b : AxisId) (f : Axis → Axis) (hf : (f (s.axis t b)).inForce = (s.axis t b).inForce) (table row idx : Nat) :
    ((s.modAxis t b f).tile t).parA a table row idx = (s.tile t).parA a table row idx := by
  have inForce : (((s.modAxis t b f).tile t).ax.get a).inForce = ((s.tile t).ax.get a).inForce := by
    have read := State.axis_modAxis_eq_ite s t b a f
    rw [State.axis, State.axis] at read
    rw [read]
    split
    case isTrue e => exact e ▸ hf
    case isFalse => rfl
  have tiles : ((s.modAxis t b f).tile t).inForce = (s.tile t).inForce := by cases t <;> rfl
  rw [Tile.parA, Tile.parA, inForce, tiles]

/-- The axis after a double change in a sample that leaves u within its bound. -/
def Axis.doubled (x : Axis) (sample : Nat) : Axis :=
  { x with fb := { x.fb with qerr := sat32 (x.fb.qerr + 1), qerrWindow := x.fb.qerrRecent sample ++ [sample], u := x.fb.u + 2 }
           pa := { x.pa with clean := false } }

/-- A double change is noted in QERR and in its window, and the pass is unclean. -/
def State.doubleNoted (s : State) (t : TileId) (a : AxisId) (sample : Nat) : State :=
  (s.modFb t a fun f => { f with qerr := sat32 (f.qerr + 1), qerrWindow := (s.axis t a).fb.qerrRecent sample ++ [sample] }).notClean t a

theorem parA_doubleNoted (n : Nat) (table row : Nat) : ((s.doubleNoted t a n).tile t).parA a table row = (s.tile t).parA a table row :=
  (parA_modAxis a _ rfl table row 0).trans (parA_modAxis a _ rfl table row 0)

/-- Within u_max the uncertainty that a double change adds loses nothing. -/
theorem uRaise_doubleNoted {n : Nat} (hu : ((s.axis t a).fb.u + 2 : Nat) ≤ (s.tile t).parA a 0x08 3) :
    (s.doubleNoted t a n).uRaise t a 2 = s.modAxis t a fun x => x.doubled n := by
  have raised : ((s.doubleNoted t a n).modFb t a fun f => { f with u := f.u + 2 }) = s.modAxis t a fun x => x.doubled n := by
    simp only [State.doubleNoted, State.notClean, State.modPa, State.modFb, State.modAxis_modAxis]
    exact State.modTile_congr s t _ _ rfl
  have within : ¬ (((s.modAxis t a fun x => x.doubled n).axis t a).fb.u : Int) > (s.tile t).parA a 0x08 3 := by
    rw [State.axis_modAxis]
    exact not_lt.mpr hu
  rw [State.uRaise, raised, parA_doubleNoted, decide_eq_false within, if_neg Bool.false_ne_true]

theorem doubleEdge_eq {n : Nat} (hu : ((s.axis t a).fb.u + 2 : Nat) ≤ (s.tile t).parA a 0x08 3) : s.doubleEdge t a n =
    if ((s.axis t a).fb.qerrRecent n).length = 8 then (s.modAxis t a fun x => x.doubled n).newLoss t a 1
    else s.modAxis t a fun x => x.doubled n := by
  have raised := uRaise_doubleNoted (n := n) hu
  have bad : ((s.modAxis t a fun x => x.doubled n).axis t a).fb.encoderBad =
      decide (8 ≤ ((s.axis t a).fb.qerrRecent n).length) := by
    rw [State.axis_modAxis, Feedback.encoderBad, Axis.doubled]
    simp
  rw [State.doubleNoted] at raised
  rw [State.doubleEdge, raised, bad]
  rcases lt_trichotomy ((s.axis t a).fb.qerrRecent n).length 8 with few | eight | many
  · simp [few.ne, few.le.not_gt, few.not_ge]
  · simp [eight]
  · simp [many.ne', many]

theorem exec_indexPulse (ht : s.hasTile t = true) (hu : (s.tile t).used a = true) (hq : (s.tile t).parA a 0x08 0 ≠ 0) :
    exec (.indexPulse t a) s = .next
      (if (s.axis t a).mo.homeStage == some .index then s.homeIndex t a
      else if (s.tile t).parA a 0x08 4 = 0 || !(s.axis t a).fb.referenced then s
      else match (s.axis t a).fb.indexPhase with
      | none => s.modFb t a fun f => { f with indexPhase := some f.pos }
      | some p =>
        if ((indexError (s.axis t a).fb.pos p ((s.tile t).parA a 0x08 4)).natAbs : Int) ≤ (s.tile t).parA a 0x08 5 then
          (s.modFb t a fun f => { f with indexErr := some (indexError (s.axis t a).fb.pos p ((s.tile t).parA a 0x08 4)) }).causeCleared t a 4
        else s.newLoss t a 4) := by
  change execIndexPulse t a s = _
  rw [execIndexPulse, onTile_of t s _ ht]
  simp only [hu, hq, Bool.not_true, decide_false, Bool.false_or, Bool.false_eq_true, if_false]
  rfl

/-- In the index stage of a homing run the count becomes home_pos, and the axis is referenced (R66). -/
theorem homeIndex_references (hh : (s.axis t a).mo.homeStage = some .index) :
    ((s.homeIndex t a).axis t a).fb.pos = wrap32 ((s.tile t).parA a 0x07 2) ∧ ((s.homeIndex t a).axis t a).fb.referenced = true ∧
      ((s.homeIndex t a).axis t a).fb.u = 0 ∧ ((s.homeIndex t a).axis t a).mo.homeStage = some .stopIndex := by
  have stage : s.homeStage t a = some .index := hh
  rw [State.homeIndex, stage]
  simp [State.setStage, State.stopMove, State.setPosition, State.moveCount, State.modMo, State.modFb]

end feedback

/-- Settles O22: one edge is counted and the rest stands; a double change and an index pulse go by their cases, and a loss is one of newLoss. -/
theorem quadratureEdgesCount : Obligations.QuadratureEdgesCount := by
  unfold Obligations.QuadratureEdgesCount
  refine ⟨fun s t a ht hu => ⟨fun hq e => ?unfitted, fun hq => ⟨fun up => ?edge, fun n hn => ⟨fun hr => ?double, fun hr => ?ninth⟩⟩⟩,
    fun s t a ht hu hq => ⟨fun hh => ?reference, fun hh hp href => ⟨fun hi => ?phase, fun p hi => ⟨fun he => ?within, fun he => ?beyond⟩⟩⟩⟩
  case unfitted => rw [exec_quadratureEdge ht]; simp [hq]
  case edge =>
    have counts : exec (.quadratureEdge t a (if up then .up else .down)) s =
        .next (s.counted t a (decide (up = ((s.tile t).parA a 0x08 2 != 1)))) := by
      rw [exec_quadratureEdge ht, bne]
      generalize ((s.tile t).parA a 0x08 2 == 1) = inverted
      cases up <;> cases inverted <;> simp [hu, hq]
    obtain ⟨pos, referenced, u, mo, fab, door, axes⟩ := turned_counted s t a (decide (up = ((s.tile t).parA a 0x08 2 != 1)))
    rw [State.fb_modFb] at pos referenced u
    refine ⟨_, counts, pos.trans ?_, referenced, u, mo.trans ?_, fab.trans ?_, door.trans ?_, fun b hb => (axes b hb).trans ?_⟩
    · simp only [decide_eq_true_eq]
    · rw [State.modFb, State.axis_modAxis]
    · rw [State.modFb, State.axis_modAxis]
    · exact State.door_modAxis ..
    · rw [State.modFb, State.axis_modAxis_eq_ite, if_neg hb]
  case double =>
    rw [exec_quadratureEdge ht]
    simp only [hu, hq, doubleEdge_eq hn, if_neg hr, Bool.not_true, decide_false, Bool.false_or, Bool.false_eq_true, if_false]
    exact congrArg _ (State.modTile_congr s t _ _ rfl)
  case ninth =>
    obtain ⟨lost, qerr, window⟩ := newLoss_loses (s.modAxis t a fun x => x.doubled n) t a 1 (by rw [used_modAxis, hu])
    refine ⟨(s.modAxis t a fun x => x.doubled n).newLoss t a 1, ?_, losesPosition_of_modAxis rfl rfl rfl lost, qerr.trans ?_, window.trans ?_⟩
    · rw [exec_quadratureEdge ht]
      simp only [hu, hq, doubleEdge_eq hn, if_pos hr, Bool.not_true, decide_false, Bool.false_or, Bool.false_eq_true, if_false]
    · rw [State.axis_modAxis, Axis.doubled]
    · rw [State.axis_modAxis, Axis.doubled]
  case reference =>
    refine ⟨_, exec_indexPulse ht hu hq, ?_⟩
    rw [hh, if_pos (by rfl)]
    exact homeIndex_references hh
  case phase =>
    rw [exec_indexPulse ht hu hq, hi]
    simp [hh, hp, href]
  case within =>
    rw [exec_indexPulse ht hu hq, hi]
    simp only [hh, hp, href, he, beq_iff_eq, Bool.not_true, decide_false, Bool.or_false, Bool.false_eq_true, if_false, if_true]
    exact congrArg _ (State.modAxis_modAxis ..)
  case beyond =>
    refine ⟨_, ?_, (newLoss_loses s t a 4 hu).1⟩
    rw [exec_indexPulse ht hu hq, hi]
    simp only [hh, hp, href, not_le.mpr he, beq_iff_eq, Bool.not_true, decide_false, Bool.or_false, Bool.false_eq_true, if_false]

end Sys2Proof.Machine
end

section
/-!
PROOFS. A transition of the doorway that leads neither into nor out of HELD: the state entered, the bounds ended, and LS0 as OPENING is left
(R35, R36, R39, R105).
-/

namespace Sys2Proof.Machine

/-! ### The state that a transition leads to (R35, R39, R105, R346) -/

/-- The axis with no stake bound. -/
def Axis.unbound (x : Axis) : Axis := { x with pa := { x.pa with bound := none, boundTime := .idle } }

/-- The tile with no stake bound on any axis. -/
def Tile.unbound (tl : Tile) : Tile := { tl with ax := ⟨tl.ax.a.unbound, tl.ax.b.unbound, tl.ax.c.unbound⟩ }

/-- The doorway in a new state: the bounds of the old one are cleared, and the cycle notes the transition. -/
def Doorway.shifted (d : Doorway) (tno : Nat) (new : DoorState) (now : Nat) : Doorway :=
  let d1 := if new != d.st then d.clearBounds else d
  let d2 := d1.cycleNote tno now
  { d2 with st := new, lastTrans := tno, stepStopped := false, closePass := []
            traceClose := if tno = 16 && !d2.closePass.isEmpty then d2.closePass else d2.traceClose
            openByT07 := tno == 7 || (d2.openByT07 && new != .opening) }

/-- The obstruction count clears at LOCKED (R129). -/
def Doorway.counted (d : Doorway) (new : DoorState) : Doorway :=
  { d with obstructions := if new == .locked then [] else d.obstructions }

/-- The doorway as a transition leaves it, beside the mailbox. -/
def Doorway.entered (d : Doorway) (tno : Nat) (new : DoorState) (now : Nat) : Doorway :=
  let shifted := d.shifted tno new now
  (if (tno == 1 || d.cycleOpen) && tno != 1 && endsCycle new then { shifted with cycleOpen := false } else shifted).counted new

/-- LS0 goes off where OPENING is left for a state of R36 in which it is off. -/
def leavesOpening (old new : DoorState) : Bool := old == .opening && new != .opening && new != .unreferenced

/-- The tile as a transition leaves it, beside the log and the mailbox. -/
def Tile.entered (tl : Tile) (tno : Nat) (new : DoorState) (now : Nat) : Tile :=
  { tl.unbound with
    door := tl.door.entered tno new now
    link := if leavesOpening tl.door.st new then
      { tl.link with lsCmd := tl.link.lsCmd &&& ~~~(BitVec.ofNat 10 (2 ^ tl.lsRole 14)) } else tl.link }

section transition

variable {s s' : State} {t : TileId}

theorem each_unbound (s : State) (t : TileId) :
    (s.each AxisId.all fun s a => s.modPa t a fun p => { p with bound := none, boundTime := .idle }) = s.modTile t Tile.unbound := by
  cases t <;> rfl

theorem State.Told.modLink_congr (h : State.Told s s') (f : Link → Link) : State.Told (s.modLink t f) (s'.modLink t f) := by
  refine h.modTile_congr ?_
  rw [h.tiles t]
  rfl

theorem State.Told.setLock_congr (h : State.Told s s') (on : Bool) : State.Told (s.setLock t on) (s'.setLock t on) := by
  have role : (s'.tile t).lsRole 14 = (s.tile t).lsRole 14 := by
    rw [h.tiles t]
    rfl
  rw [State.setLock, State.setLock, role]
  exact h.modLink_congr _

theorem State.ite_modLink (s : State) (t : TileId) (c : Prop) [Decidable c] (f : Link → Link) :
    (if c then s.modLink t f else s) = s.modLink t fun l => if c then f l else l := by
  split
  · rfl
  · cases t <;> rfl

theorem told_cycleRecord (s : State) (t : TileId) (tno : Nat) :
    State.Told (s.modDoor t fun d => { d with cycleOpen := false }) (s.cycleRecord t tno) := told_peatEntry (.refl _)

/-- Clearing a count that is empty changes nothing, so that only its event tells of it. -/
theorem told_counted (s : State) (t : TileId) (new : DoorState) : State.Told (s.modDoor t fun d => d.counted new)
    (if new == .locked && !(s.tile t).door.obstructions.isEmpty then
      (s.modDoor t fun d => { d with obstructions := [] }).raise t 0x24 (leBytes 1 0 ++ leBytes 1 2) else s) := by
  cases hl : new == .locked
  case false =>
    have same : (fun d : Doorway => d.counted new) = fun d => d := by simp [Doorway.counted, hl]
    rw [same, State.modDoor_id]
    exact .refl s
  case true =>
    have clears : (fun d : Doorway => d.counted new) = fun d => { d with obstructions := [] } := by simp [Doorway.counted, hl]
    rw [clears]
    split
    case isTrue => exact told_raise (.refl _)
    case isFalse h =>
      have none : (s.tile t).door.obstructions = [] := by simpa using h
      have same : (s.modDoor t fun d => { d with obstructions := [] }) = s.modDoor t fun d => d :=
        State.modTile_congr s t _ _ (by dsimp only; rw [← none])
      rw [same, State.modDoor_id]
      exact .refl s

theorem told_transition {tno : Nat} {new : DoorState} (ho : (s.tile t).door.st ≠ .held) (hn : new ≠ .held) :
    State.Told (s.modTile t fun tl => tl.entered tno new s.head.time.record.ns) (s.transition t tno new) := by
  unfold State.transition
  extract_lets old s0 s1 opened ends s2 data logged source s3a s3 s4 s5
  have unheld : s1 = s.modTile t Tile.unbound := by
    have no : (old == .held && new != .held) = false := by rw [beq_eq_false_iff_ne.mpr ho, Bool.false_and]
    simp only [s1, no, Bool.false_eq_true, if_false]
    exact each_unbound s t
  let x3 := if leavesOpening old new then s2.setLock t false else s2
  let x4 := if ends then x3.modDoor t fun d => { d with cycleOpen := false } else x3
  have told3 : State.Told x3 s3 := told_cond (fun _ => .setLock_congr (told_raise (.refl _)) false) fun _ => told_raise (.refl _)
  have told4 : State.Told x4 s4 :=
    told_cond (fun _ => (told3.modDoor_congr fun _ _ => rfl).trans (told_cycleRecord s3 t tno)) fun _ => told3
  have told5 : State.Told (x4.modDoor t fun d => d.counted new) s5 := (told4.modDoor_congr fun _ _ => rfl).trans (told_counted s4 t new)
  have last : (new == .held && old != .held) = false := by rw [beq_eq_false_iff_ne.mpr hn, Bool.false_and]
  rw [last, if_neg Bool.false_ne_true]
  convert told5 using 1
  simp only [x4, x3, s2, unheld, State.setLock, State.setLs, State.ite_modLink, State.ite_modDoor]
  simp only [State.modDoor, State.modLink, State.modTile_modTile, State.tile_modTile_self]
  exact State.modTile_congr s t _ _ rfl

theorem get_unbound (tl : Tile) (a : AxisId) : tl.unbound.ax.get a = (tl.ax.get a).unbound := by cases a <;> rfl

/-- The axes after a transition, each with no stake bound. -/
theorem axis_transition {tno : Nat} {new : DoorState} (ho : (s.tile t).door.st ≠ .held) (hn : new ≠ .held) (a : AxisId) :
    (s.transition t tno new).axis t a = (s.axis t a).unbound := by
  rw [(told_transition ho hn).axis, State.axis, State.tile_modTile_self]
  exact get_unbound (s.tile t) a

end transition

theorem st_entered (d : Doorway) (tno : Nat) (new : DoorState) (now : Nat) : (d.entered tno new now).st = new := by
  unfold Doorway.entered
  dsimp only
  split <;> rfl

/-- What the cycle notes of a transition touches no bound. -/
theorem clearBounds_cycleNote (d : Doorway) (tno now : Nat) : (d.cycleNote tno now).clearBounds = d.clearBounds.cycleNote tno now := by
  unfold Doorway.cycleNote
  cases cycleSlot tno with
  | none =>
    dsimp only
    split <;> rfl
  | some i =>
    have opened : d.clearBounds.cycleOpen = d.cycleOpen := rfl
    by_cases h : tno = 1
    · simp only [h, if_true]
      rfl
    · simp only [h, if_false, opened]
      split <;> rfl

/-- A new state starts with no bound and no wait (R35). -/
theorem clearBounds_entered (d : Doorway) (tno : Nat) (new : DoorState) (now : Nat) (h : d.st ≠ new) :
    (d.entered tno new now).clearBounds = d.entered tno new now := by
  have left : (new != d.st) = true := bne_iff_ne.mpr h.symm
  have idle : (d.clearBounds.cycleNote tno now).clearBounds = d.clearBounds.cycleNote tno now := by
    rw [clearBounds_cycleNote]
    rfl
  unfold Doorway.entered Doorway.shifted
  simp only [left, if_true]
  rw [← idle]
  split <;> rfl

/-- Settles O11: the transition is the one of told_transition, whose state is read off. -/
theorem transitionEntersItsStateAndEndsItsBounds : Obligations.TransitionEntersItsStateAndEndsItsBounds := by
  unfold Obligations.TransitionEntersItsStateAndEndsItsBounds
  intro s t n st hst ho hn
  have told := told_transition (s := s) (t := t) (tno := n) ho hn
  have axis (a : AxisId) := axis_transition (s := s) (t := t) (tno := n) ho hn a
  dsimp only
  rw [told.door, told.field, told.triad, told.link, State.tile_modTile_self, Tile.entered, ← clearBounds_entered _ _ _ _ hst]
  refine ⟨st_entered .., rfl, rfl, rfl, rfl, rfl, rfl, rfl, rfl, rfl, rfl, rfl, fun a => ?_, rfl, rfl, ?_, fun u hu => ?_⟩
  · rw [axis]
    exact ⟨rfl, rfl, rfl⟩
  · have leaves : leavesOpening (s.tile t).door.st st = true ↔ (s.tile t).door.st = .opening ∧ st ≠ .unreferenced := by
      rw [leavesOpening, Bool.and_eq_true, Bool.and_eq_true, beq_iff_eq, bne_iff_ne, bne_iff_ne]
      exact ⟨fun h => ⟨h.1.1, h.2⟩, fun h => ⟨⟨h.1, fun e => hst (h.1.trans e.symm)⟩, h.2⟩⟩
    exact if_congr leaves rfl rfl
  · have others := told.tiles u
    rwa [State.tile_modTile, if_neg hu] at others

end Sys2Proof.Machine
end

section
/-!
PROOFS. The command at the head of the mailbox, and DOOR_OPEN: from RELEASED it unlocks by T05 (R36, R39, R43, R325, R326).
-/

namespace Sys2Proof.Machine

/-! ### The head of the mailbox (R38, R325) -/

/-- The state whose mailbox has given up its head to the host's command that is now carried out. -/
def State.taken (s : State) (t : TileId) (rest : List (HostCmd × DoorCmd)) : State :=
  s.modDoor t fun d => { d with mailbox := rest, by_ := .host }

section taken

variable {s : State} {t : TileId} {h : HostCmd} {c : DoorCmd} {rest : List (HostCmd × DoorCmd)}

theorem evalCommand_head (hm : (s.tile t).door.mailbox = (h, c) :: rest)
    (hp : ((s.tile t).door.st == .released && (s.tile t).door.proofRun && c == .openDoor) = false) :
    s.evalCommand t = (s.taken t rest).doorCommand t h c := by
  rw [State.evalCommand, hm]
  simp only [hp, Bool.false_eq_true, if_false]
  rfl

theorem tile_taken (s : State) (t : TileId) (rest : List (HostCmd × DoorCmd)) :
    (s.taken t rest).tile t = { s.tile t with door := { (s.tile t).door with mailbox := rest, by_ := .host } } := State.tile_modTile_self ..

@[simp] theorem st_taken : ((s.taken t rest).tile t).door.st = (s.tile t).door.st := by rw [tile_taken]

@[simp] theorem releaseValid_taken : ((s.taken t rest).tile t).releaseValid = (s.tile t).releaseValid := by
  rw [tile_taken]
  rfl

@[simp] theorem lockProven_taken : ((s.taken t rest).tile t).lockProven = (s.tile t).lockProven := by
  rw [tile_taken]
  rfl

@[simp] theorem egress_taken : ((s.taken t rest).tile t).door.egress = (s.tile t).door.egress := by rw [tile_taken]
@[simp] theorem homing_taken : ((s.taken t rest).tile t).door.homing = (s.tile t).door.homing := by rw [tile_taken]
@[simp] theorem link_taken : ((s.taken t rest).tile t).link = (s.tile t).link := by rw [tile_taken]
@[simp] theorem stepFitted_taken : ((s.taken t rest).tile t).stepFitted = (s.tile t).stepFitted := by
  rw [tile_taken]
  rfl
@[simp] theorem leafProven_taken : ((s.taken t rest).tile t).leafProven = (s.tile t).leafProven := by
  rw [tile_taken]
  rfl
@[simp] theorem par_taken (table row : Nat) : ((s.taken t rest).tile t).par table row = (s.tile t).par table row := by
  rw [tile_taken]
  rfl
@[simp] theorem used_taken (a : AxisId) : ((s.taken t rest).tile t).used a = (s.tile t).used a := by
  rw [tile_taken]
  rfl
@[simp] theorem ax_taken : ((s.taken t rest).tile t).ax = (s.tile t).ax := by rw [tile_taken]

/-- A command accepted has its effect on the state once its completion is told. -/
theorem acceptWith_told (s : State) (t : TileId) (h : HostCmd) (op tno : Nat) (f : State → State) :
    ∃ s1, State.Told s s1 ∧ s.acceptWith t h op tno f = f s1 := ⟨_, told_complete (.refl s), rfl⟩

theorem told_doorAccept (s : State) (t : TileId) (h : HostCmd) (op tno : Nat) : State.Told s (s.doorAccept t h op tno) :=
  told_complete (.refl s)

end taken

/-! ### Holding force on every axis at rest (R36) -/

/-- The engine can take an axis that rests with no trip under holding force. -/
def Tile.drives (tl : Tile) (a : AxisId) : Bool :=
  let x := tl.ax.get a
  !(x.moving || x.pairRaised || x.fab.path1 || x.fab.path2 || !tl.canHold a)

/-- The axis with its bridge driven, where it is. -/
def Axis.drivenIf (x : Axis) (on : Bool) : Axis :=
  { x with mo := { x.mo with bridge := if on then .driven else x.mo.bridge } }

section drive

variable {s s' : State} {t : TileId} {a : AxisId}

theorem drivenIf_not (x : Axis) (c : Bool) :
    x.drivenIf (!c) = { x with mo := { x.mo with bridge := if c then x.mo.bridge else .driven } } := by cases c <;> rfl

theorem drives_modAxis (tl : Tile) (a b : AxisId) (on : Bool) : (tl.modAxis b fun x => x.drivenIf on).drives a = tl.drives a := by
  cases a <;> cases b <;> rfl

theorem drivenIf_false (x : Axis) : x.drivenIf false = x := rfl

/-- One step of driveAll. -/
def State.driveStep (t : TileId) (s : State) (a : AxisId) : State := s.modAxis t a fun x => x.drivenIf ((s.tile t).drives a)

theorem driveAll_eq (s : State) (t : TileId) : s.driveAll t = s.each (s.tile t).usedAxes (State.driveStep t) := by
  unfold State.driveAll
  congr 1
  funext s a
  rw [State.driveStep, Tile.drives]
  dsimp only
  split
  case isTrue h =>
    rw [h]
    exact (State.modTile_id s t).symm.trans (State.modTile_congr s t _ _ (by cases a <;> rfl))
  case isFalse h =>
    rw [Bool.eq_false_of_not_eq_true h]
    rfl

theorem drives_driveStep (s : State) (t : TileId) (a b : AxisId) : ((s.driveStep t b).tile t).drives a = (s.tile t).drives a := by
  rw [State.driveStep, State.modAxis, State.tile_modTile_self, drives_modAxis]

theorem axis_driveSteps (l : List AxisId) (s : State) :
    (s.each l (State.driveStep t)).axis t a = if a ∈ l then (s.axis t a).drivenIf ((s.tile t).drives a) else s.axis t a := by
  induction l generalizing s with
  | nil => rfl
  | cons b l ih =>
    have step : (s.driveStep t b).axis t a = if a = b then (s.axis t a).drivenIf ((s.tile t).drives b) else s.axis t a :=
      State.axis_modAxis_eq_ite ..
    rw [State.each_cons, ih, drives_driveStep, step]
    by_cases e : a = b
    · subst e
      simp only [List.mem_cons_self, if_true]
      split
      · cases (s.tile t).drives a <;> rfl
      · rfl
    · simp only [List.mem_cons, e, false_or, if_false]

/-- An axis after driveAll: its bridge is driven where it is used, rests with no trip and can be held. -/
theorem axis_driveAll (s : State) (t : TileId) (a : AxisId) :
    (s.driveAll t).axis t a = (s.axis t a).drivenIf ((s.tile t).drives a) := by
  rw [driveAll_eq, axis_driveSteps]
  split
  · rfl
  case isFalse h =>
    have unused : (s.tile t).drives a = false := by
      simp [Tile.drives, Tile.canHold, Tile.canDrive, Tile.used, h]
    rw [unused, drivenIf_false]

theorem door_driveAll (s : State) (t : TileId) : ((s.driveAll t).tile t).door = (s.tile t).door := by
  rw [driveAll_eq, State.each_keeps (g := fun s => (s.tile t).door) (f := State.driveStep t) fun s a => State.door_modAxis ..]

theorem link_driveAll (s : State) (t : TileId) : ((s.driveAll t).tile t).link = (s.tile t).link := by
  rw [driveAll_eq, State.each_keeps (g := fun s => (s.tile t).link) (f := State.driveStep t) fun s a => by cases t <;> rfl]

end drive

/-! ### T05 (R36, R39) -/

section unlock

variable {s s' : State} {t : TileId}

theorem sources_cycleNote (d : Doorway) (tno now : Nat) :
    (d.cycleNote tno now).srcOpen = d.srcOpen ∧ (d.cycleNote tno now).srcClose = d.srcClose := by
  unfold Doorway.cycleNote
  dsimp only
  split <;> split_ifs <;> exact ⟨rfl, rfl⟩

/-- The commanding sources of the last opening and closing stand in a transition. -/
theorem sources_entered (d : Doorway) (tno : Nat) (new : DoorState) (now : Nat) :
    (d.entered tno new now).srcOpen = d.srcOpen ∧ (d.entered tno new now).srcClose = d.srcClose := by
  have cleared : (if new != d.st then d.clearBounds else d).srcOpen = d.srcOpen ∧
      (if new != d.st then d.clearBounds else d).srcClose = d.srcClose := by split <;> exact ⟨rfl, rfl⟩
  obtain ⟨srcOpen, srcClose⟩ := sources_cycleNote (if new != d.st then d.clearBounds else d) tno now
  rw [← cleared.1, ← cleared.2, ← srcOpen, ← srcClose]
  unfold Doorway.entered
  dsimp only
  split <;> exact ⟨rfl, rfl⟩

theorem State.Told.drives (h : State.Told s s') (t : TileId) (a : AxisId) : (s'.tile t).drives a = (s.tile t).drives a := by
  rw [h.tiles t]
  rfl

theorem State.Told.parN (h : State.Told s s') (t : TileId) (table row idx : Nat) :
    (s'.tile t).parN table row idx = (s.tile t).parN table row idx := by
  rw [h.tiles t]
  rfl

theorem State.Told.lsRole (h : State.Told s s') (t : TileId) (i : Nat) : (s'.tile t).lsRole i = (s.tile t).lsRole i := by
  rw [h.tiles t]
  rfl

theorem State.door_setLock (s : State) (t : TileId) (on : Bool) : ((s.setLock t on).tile t).door = (s.tile t).door := by cases t <;> rfl

theorem State.axis_setLock (s : State) (t : TileId) (on : Bool) (a : AxisId) : (s.setLock t on).axis t a = s.axis t a := by
  cases t <;> rfl

/-- T05 from a state other than HELD: LS0 on, SRA open, t_unlock started, and axis A under holding force where it can be. -/
theorem openFromReleased_opens (ho : (s.tile t).door.st ≠ .held) :
    ((s.openFromReleased t).tile t).door.st = .opening ∧ ((s.openFromReleased t).tile t).door.sraCmd = false ∧
      ((s.openFromReleased t).tile t).door.srcOpen = (s.tile t).door.srcOpen ∧
      ((s.openFromReleased t).tile t).door.tUnlock = .running ((s.tile t).parN 0x02 0) ∧
      ((s.openFromReleased t).tile t).link.lsCmd = (s.tile t).link.lsCmd ||| BitVec.ofNat 10 (2 ^ (s.tile t).lsRole 14) ∧
      (s.openFromReleased t).axis t .A = (s.axis t .A).unbound.drivenIf ((s.tile t).drives .A) := by
  have told := told_transition (tno := 5) (new := .opening) ho (by decide)
  have unbound := axis_transition (tno := 5) (new := .opening) ho (by decide) .A
  unfold State.openFromReleased
  generalize s.transition t 5 .opening = y at told unbound
  let now := s.head.time.record.ns
  have door : (y.tile t).door = { (s.tile t).door.entered 5 .opening now with mailbox := (y.tile t).door.mailbox } := by
    rw [told.door, State.tile_modTile_self]
    rfl
  have lines : (y.tile t).link.lsCmd = (s.tile t).link.lsCmd := by
    rw [told.link, State.tile_modTile_self]
    exact congrArg Link.lsCmd (if_neg (by simp [leavesOpening]))
  have role : (y.tile t).lsRole 14 = (s.tile t).lsRole 14 := by
    rw [told.lsRole, State.tile_modTile_self]
    rfl
  have drives : (y.tile t).drives .A = (s.tile t).drives .A := by
    rw [told.drives, State.tile_modTile_self]
    rfl
  have locked : ((y.setLock t true).tile t).drives .A = (y.tile t).drives .A := by
    rw [State.setLock, State.setLs, State.modLink, State.tile_modTile_self]
    rfl
  have on : ((y.setLock t true).tile t).link.lsCmd = (y.tile t).link.lsCmd ||| BitVec.ofNat 10 (2 ^ (y.tile t).lsRole 14) := by
    rw [State.setLock, State.setLs, State.link_modLink]
    rfl
  simp only [State.door_modDoor, State.link_modDoor, State.axis_modDoor, door_driveAll, link_driveAll, axis_driveAll, State.door_setLock,
    State.axis_setLock]
  rw [door, on, lines, role, locked, drives, unbound]
  exact ⟨st_entered .., trivial, (sources_entered ..).1, trivial, rfl, rfl⟩

end unlock

/-- A line switched on reads on, where there is such a line. -/
theorem getLsbD_or_line (v : BitVec 10) {ch : Nat} (h : ch < 10) : (v ||| BitVec.ofNat 10 (2 ^ ch)).getLsbD ch = true := by
  rw [BitVec.getLsbD_or, BitVec.getLsbD_ofNat, Nat.testBit_two_pow_self, decide_eq_true h, Bool.and_true, Bool.or_true]

/-! ### DOOR_OPEN (R39, R43, R326) -/

section openDoor

variable {s : State} {t : TileId} {h : HostCmd} {rest : List (HostCmd × DoorCmd)}

theorem evalCommand_openDoor (hm : (s.tile t).door.mailbox = (h, .openDoor) :: rest)
    (hp : (s.tile t).door.st = .released → (s.tile t).door.proofRun = false) :
    s.evalCommand t = (s.taken t rest).cmdOpen t h := by
  refine evalCommand_head hm ?_
  by_cases hst : (s.tile t).door.st = .released
  · rw [hp hst, Bool.and_false, Bool.false_and]
  · rw [beq_eq_false_iff_ne.mpr hst, Bool.false_and, Bool.false_and]

theorem cmdOpen_released (hst : (s.tile t).door.st = .released) : s.cmdOpen t h =
    if !(s.tile t).releaseValid then s.doorRefuse t h 0x21 0x11 43
    else if !(s.tile t).lockProven then s.doorRefuse t h 0x21 0x10 39
    else s.acceptWith t h 0x21 5 fun s => (s.modDoor t fun d => { d with srcOpen := .host }).openFromReleased t := by
  rw [State.cmdOpen, hst]

theorem cmdOpen_accepts (hst : (s.tile t).door.st = .opening ∨ (s.tile t).door.st = .openSt ∨ (s.tile t).door.st = .reversing) :
    s.cmdOpen t h = s.doorAccept t h 0x21 0 := by
  rw [State.cmdOpen]
  obtain hst | hst | hst := hst <;> rw [hst]

/-- The tile of the command taken, with the host as the source of the opening. -/
theorem tile_taken_sourced (s : State) (t : TileId) (rest : List (HostCmd × DoorCmd)) :
    (((s.taken t rest).modDoor t fun d => { d with srcOpen := .host }).tile t) =
      { s.tile t with door := { (s.tile t).door with mailbox := rest, by_ := .host, srcOpen := .host } } := by
  rw [State.modDoor, State.tile_modTile_self, tile_taken]

/-- Settles O15: accepted, the command unlocks on the state that its completion leaves; refused or without effect, it only completes. -/
theorem doorOpenFromReleasedUnlocks : Obligations.DoorOpenFromReleasedUnlocks := by
  unfold Obligations.DoorOpenFromReleasedUnlocks
  intro s t h rest tl s1 hm
  have released (hst : tl.door.st = .released) (hp : tl.door.proofRun = false) := (evalCommand_openDoor hm fun _ => hp).trans
    (cmdOpen_released (s := s.taken t rest) (by rwa [st_taken]))
  refine ⟨fun hst hp hr hl hline => ?_, fun hst hp hr => ?_, fun hst hp hr hl => ?_, fun hst => ?_⟩
  · obtain ⟨s2, told, eff⟩ := acceptWith_told (s.taken t rest) t h 0x21 5
      fun s => (s.modDoor t fun d => { d with srcOpen := .host }).openFromReleased t
    have unlocks : s.evalCommand t = (s2.modDoor t fun d => { d with srcOpen := .host }).openFromReleased t := by
      simpa [tl, hr, hl, eff] using released hst hp
    have sourced := told.modDoor_congr (t := t) (f := fun d => { d with srcOpen := .host }) fun _ _ => rfl
    have tile := tile_taken_sourced s t rest
    have axis : (s.taken t rest).axis t .A = s.axis t .A := State.axis_modDoor ..
    rw [unlocks]
    generalize (s2.modDoor t fun d => { d with srcOpen := .host }) = s3 at sourced
    have st : (s3.tile t).door.st = .released := by rw [sourced.st, tile, hst]
    obtain ⟨opening, sra, src, unlock, line, bridge⟩ := openFromReleased_opens (s := s3) (t := t) (by rw [st]; decide)
    dsimp only
    rw [opening, sra, src, unlock, line, bridge, sourced.axis, State.axis_modDoor, axis, sourced.drives, sourced.lsRole, sourced.parN,
      sourced.door, tile]
    refine ⟨rfl, rfl, rfl, rfl, getLsbD_or_line _ hline, ?_⟩
    exact (drivenIf_not ..).trans rfl
  · refine (released hst hp).trans ?_
    rw [releaseValid_taken, hr]
    rfl
  · refine (released hst hp).trans ?_
    rw [releaseValid_taken, lockProven_taken, hr, hl]
    rfl
  · have waits : tl.door.st = .released → tl.door.proofRun = false := fun e => by simp [e] at hst
    rw [evalCommand_openDoor hm waits, cmdOpen_accepts (by rwa [st_taken])]
    exact ⟨rfl, told_doorAccept ..⟩

end openDoor

end Sys2Proof.Machine
end

section
/-!
PROOFS. The doorway state and the source of the closing, which the passes and the moves of the axes leave as they are; and the door and axis
commands, into the mailbox and at its head (R36, R37, R43, R68, R73, R74, R325, R326).
-/

namespace Sys2Proof.Machine

/-! ### What the motion engine leaves of the doorway (R36) -/

/-- The doorway state, and the source that commands the closing. -/
def Doorway.stand (d : Doorway) : DoorState × Source := (d.st, d.srcClose)

def State.stand (s : State) (t : TileId) : DoorState × Source := (s.tile t).door.stand

section stand

variable {s s' : State} {t : TileId} {a : AxisId}

theorem State.Told.stand (h : State.Told s s') (t : TileId) : s'.stand t = s.stand t := by
  rw [State.stand, h.door t]
  rfl

theorem stand_eq_iff {x : DoorState × Source} : s.stand t = x ↔ (s.tile t).door.st = x.1 ∧ (s.tile t).door.srcClose = x.2 := Prod.ext_iff

theorem stand_modTile {f : Tile → Tile} (hf : (f (s.tile t)).door.stand = (s.tile t).door.stand) : (s.modTile t f).stand t = s.stand t := by
  rw [State.stand, State.tile_modTile_self, hf, State.stand]

@[simp] theorem stand_modDoor {f : Doorway → Doorway} (hf : ∀ d, (f d).st = d.st ∧ (f d).srcClose = d.srcClose) :
    (s.modDoor t f).stand t = s.stand t := stand_modTile (Prod.ext (hf _).1 (hf _).2)

@[simp] theorem stand_modAxis {f : Axis → Axis} : (s.modAxis t a f).stand t = s.stand t := stand_modTile rfl
@[simp] theorem stand_modMo {f : Motion → Motion} : (s.modMo t a f).stand t = s.stand t := stand_modAxis
@[simp] theorem stand_modPa {f : Pass → Pass} : (s.modPa t a f).stand t = s.stand t := stand_modAxis
@[simp] theorem stand_modLink {f : Link → Link} : (s.modLink t f).stand t = s.stand t := stand_modTile rfl

@[simp] theorem stand_raise {u : TileId} {code : Nat} {data : List Byte} {logged : Bool} {src : Option Source} :
    (s.raise u code data logged src).stand t = s.stand t := (told_raise (.refl s)).stand t

@[simp] theorem stand_peatEntry {type : Nat} {src : Source} {body : List Byte} : (s.peatEntry t type src body).stand t = s.stand t :=
  (told_peatEntry (.refl s)).stand t

@[simp] theorem stand_each {α : Type} {l : List α} {f : State → α → State} (hf : ∀ s a, (f s a).stand t = s.stand t) :
    (s.each l f).stand t = s.stand t := State.each_keeps (g := fun s => s.stand t) hf l s

@[simp] theorem stand_ite {c : Prop} [Decidable c] : (if c then s else s').stand t = if c then s.stand t else s'.stand t :=
  apply_ite (State.stand · t) ..

/-! Passes (R97, R135, R137, R143) -/

@[simp] theorem stand_auditRecords {d : Dir} (n : Nat) (l : List (List Byte)) : (s.auditRecords t a d l n).stand t = s.stand t := by
  induction n generalizing s l with
  | zero => rfl
  | succ n ih =>
    simp [State.auditRecords, ih]

@[simp] theorem stand_learnPass {d : Dir} : (s.learnPass t a d).stand t = s.stand t := by
  rw [State.learnPass, stand_auditRecords]
  exact List.foldlRecOn (motive := fun acc : State × List (List Byte) => acc.1.stand t = s.stand t) _ _ rfl fun acc hacc b _ => by
    simp [hacc]

@[simp] theorem stand_shadowJudge {d : Dir} {m : Nat} : (s.shadowJudge t a d m).stand t = s.stand t := by
  simp [State.shadowJudge]

@[simp] theorem stand_shadowPass {d : Dir} {clean : Bool} : (s.shadowPass t a d clean).stand t = s.stand t := by
  unfold State.shadowPass
  split <;> simp

@[simp] theorem stand_noneClean : (s.noneClean t).stand t = s.stand t := stand_each fun _ _ => stand_modPa

@[simp] theorem stand_endPass {atRest : Bool} : (s.endPass t a atRest).stand t = s.stand t := by
  unfold State.endPass
  dsimp only
  rw [stand_ite, stand_modAxis, stand_modDoor]
  · simp
  · intro d
    split_ifs <;> exact ⟨rfl, rfl⟩

@[simp] theorem stand_beginPass {stepCmd : Bool} : (s.beginPass t a stepCmd).stand t = s.stand t := by
  unfold State.beginPass
  have taken : ((s.endPass t a false).modTile t Tile.passParams).stand t = s.stand t := (stand_modTile rfl).trans stand_endPass
  dsimp only
  split <;> simp [taken]

/-! Moves (R54, R58, R60) -/

@[simp] theorem stand_releasePair : (s.releasePair t a).stand t = s.stand t := stand_modLink.trans stand_modMo

@[simp] theorem stand_startMove {kind : MoveKind} {target : Int} {set : LimitSet} {stepCmd : Bool} :
    (s.startMove t a kind target set stepCmd).stand t = s.stand t := by
  simp [State.startMove, State.driveBusEvent, State.refuseMove]

@[simp] theorem stand_stopMove : (s.stopMove t a).stand t = s.stand t := stand_modMo

@[simp] theorem stand_stopAll : (s.stopAll t).stand t = s.stand t := stand_each fun _ _ => by simp

@[simp] theorem stand_holdAll : (s.holdAll t).stand t = s.stand t := stand_each fun _ _ => by
  simp [State.holdAxis]

@[simp] theorem stand_driveAll : (s.driveAll t).stand t = s.stand t := by rw [State.stand, door_driveAll, State.stand]

@[simp] theorem stand_setLock {on : Bool} : (s.setLock t on).stand t = s.stand t := stand_modLink
@[simp] theorem stand_setBuzzer {on : Bool} : (s.setBuzzer t on).stand t = s.stand t := stand_modLink

@[simp] theorem stand_startLeaves {kind : MoveKind} {d : Dir} {set : LimitSet} : (s.startLeaves t kind d set).stand t = s.stand t :=
  stand_each fun _ _ => stand_startMove

@[simp] theorem stand_startStep {kind : MoveKind} {d : Dir} {stepCmd : Bool} : (s.startStep t kind d stepCmd).stand t = s.stand t := by
  cases d <;> simp [State.startStep]

/-- A transition, from HELD and into HELD too, enters its state; the source of the closing stands. -/
theorem stand_transition {tno : Nat} {new : DoorState} : (s.transition t tno new).stand t = (new, (s.stand t).2) := by
  unfold State.transition
  extract_lets old s0 s1 opened ends s2 data logged source s3a s3 s4 s5
  have ended : s1.stand t = s.stand t := by simp [s1, s0]
  have entered : s2.stand t = (new, (s1.stand t).2) := by
    rw [State.stand, State.door_modDoor]
    exact Prod.ext rfl ((sources_cycleNote ..).2.trans (by split <;> rfl))
  have counted : s5.stand t = s2.stand t := by
    simp [s5, s4, s3, s3a, State.cycleRecord]
  rw [stand_ite, stand_each fun _ _ => stand_beginPass, counted, entered, ended, ite_self]

/-! Transition actions (R39, R129) -/

theorem stand_closeDemand {tno : Nat} : (s.closeDemand t tno).stand t = (.closing, (s.stand t).2) := by
  simp [State.closeDemand, stand_transition]

theorem stand_nudge : (s.nudge t).stand t = (.nudging, (s.stand t).2) := by
  simp [State.nudge, State.enterNudging, stand_transition]

theorem stand_hold {tno : Nat} : (((s.noneClean t).transition t tno .held).holdAll t).stand t = (.held, (s.stand t).2) := by
  simp [stand_transition]

end stand

/-! ### The commands at the head of the mailbox (R43, R68, R73, R74, R326) -/

section commands

variable {s : State} {t : TileId} {h : HostCmd} {c : DoorCmd} {rest : List (HostCmd × DoorCmd)}

theorem evalCommand_other (hc : c ≠ .openDoor) (hm : (s.tile t).door.mailbox = (h, c) :: rest) :
    s.evalCommand t = (s.taken t rest).doorCommand t h c :=
  evalCommand_head hm (by rw [beq_eq_false_iff_ne.mpr hc, Bool.and_false])

/-- The seal is judged by the parameters and the bundles, and not by the doorway. -/
theorem sealOk_modDoor {f : Doorway → Doorway} : (s.modDoor t f).sealOk = s.sealOk := by
  have ids : (s.modDoor t f).tileIds = s.tileIds := by cases t <;> rfl
  have head : (s.modDoor t f).head = s.head := by cases t <;> rfl
  have sealed (u : TileId) : ((s.modDoor t f).tile u).safetyBlock = (s.tile u).safetyBlock ∧
      ((s.modDoor t f).tile u).die = (s.tile u).die := by
    rw [State.modDoor, State.tile_modTile]
    split
    case isTrue e => exact e ▸ ⟨rfl, rfl⟩
    case isFalse => exact ⟨rfl, rfl⟩
  have force : (s.modDoor t f).sealInForce = s.sealInForce := by simp only [State.sealInForce, ids, sealed]
  have code : (s.modDoor t f).sealCode = s.sealCode := by simp only [State.sealCode, State.safetyBlock, ids, sealed]
  rw [State.sealOk, force, head, code, State.sealOk]

theorem faults_taken : (s.taken t rest).faults t = s.faults t := by
  have sealed : (s.taken t rest).sealOk = s.sealOk := sealOk_modDoor
  unfold State.faults
  rw [tile_taken, sealed]
  rfl

/-- What a command accepted does may be read before or after its completion is told. -/
theorem acceptWith_congr {op tno : Nat} {f g : State → State} (hfg : ∀ s', State.Told s s' → f s' = g s') :
    s.acceptWith t h op tno f = s.acceptWith t h op tno g := by
  rw [State.acceptWith, State.acceptWith, hfg s (.refl s), hfg _ (told_complete (.refl s))]

/-- The host has the doorway close: its egress latch is cleared. -/
def Doorway.hostCloses (d : Doorway) : Doorway := { d with egress := false, egressOpening := false, srcClose := .host }

/-- A command accepted to close leaves CLOSING, with the host as its source. -/
theorem evalCommand_closeDoor (hst : (s.tile t).door.st = .openSt) (hm : (s.tile t).door.mailbox = (h, .closeDoor) :: rest)
    (he : (s.tile t).door.egress = false) :
    ((s.evalCommand t).tile t).door.st = .closing ∧ ((s.evalCommand t).tile t).door.srcClose = .host := by
  obtain ⟨s1, -, effect⟩ := acceptWith_told (s.taken t rest) t h 0x22 11 fun s => (s.modDoor t Doorway.hostCloses).closeDemand t 11
  have accepted : s.evalCommand t = (s1.modDoor t Doorway.hostCloses).closeDemand t 11 := by
    rw [evalCommand_other (by decide) hm, State.doorCommand, State.cmdClose]
    simp only [st_taken, hst, egress_taken, he, Bool.false_and, Bool.false_eq_true, if_false]
    exact effect
  have source : ((s1.modDoor t Doorway.hostCloses).stand t).2 = .host := by
    rw [State.stand, State.door_modDoor]
    rfl
  rw [accepted]
  exact stand_eq_iff.mp (stand_closeDemand.trans (by rw [source]))

theorem evalCommand_nudge (hst : (s.tile t).door.st = .openSt) (hm : (s.tile t).door.mailbox = (h, .nudge) :: rest) :
    ((s.evalCommand t).tile t).door.st = .nudging := by
  obtain ⟨s1, -, effect⟩ := acceptWith_told (s.taken t rest) t h 0x29 19 fun s => s.nudge t
  rw [evalCommand_other (by decide) hm, State.doorCommand, State.cmdNudge, st_taken, hst]
  rw [effect]
  exact (stand_eq_iff.mp stand_nudge).1

theorem evalCommand_hold (hst : (s.tile t).door.st = .opening) (hm : (s.tile t).door.mailbox = (h, .hold) :: rest) :
    ((s.evalCommand t).tile t).door.st = .held := by
  obtain ⟨s1, -, effect⟩ := acceptWith_told (s.taken t rest) t h 0x23 12 fun s => ((s.noneClean t).transition t 12 .held).holdAll t
  rw [evalCommand_other (by decide) hm, State.doorCommand, State.cmdHold, st_taken, hst]
  rw [effect]
  exact (stand_eq_iff.mp stand_hold).1

theorem evalCommand_step (hst : (s.tile t).door.st = .released) (hf : (s.tile t).stepFitted = true) :
    ((s.tile t).door.mailbox = (h, .stepDeploy) :: rest →
      s.evalCommand t = (s.taken t rest).acceptWith t h 0x25 0 fun s => s.stepMove t .opening) ∧
    ((s.tile t).door.mailbox = (h, .stepStow) :: rest →
      s.evalCommand t = (s.taken t rest).acceptWith t h 0x26 0 fun s => s.stepMove t .closing) := by
  constructor <;> intro hm
  · rw [evalCommand_other (by decide) hm, State.doorCommand, State.cmdDeploy]
    simp [hst, hf]
  · rw [evalCommand_other (by decide) hm, State.doorCommand, State.cmdStow]
    simp [hst, hf]

theorem evalCommand_axisHome (hst : (s.tile t).door.st = .unreferenced) (hh : (s.tile t).door.homing = none)
    (hleaf : (s.tile t).leafProven = true) (hlock : (s.tile t).lockProven = true)
    (hm : (s.tile t).door.mailbox = (h, .axisHome false) :: rest) :
    s.evalCommand t = (s.taken t rest).acceptWith t h 0x27 2 fun s => (s.transition t 2 .unreferenced).homeStart t false := by
  rw [evalCommand_other (by simp) hm, State.doorCommand, State.cmdHome]
  simp [hst, hh, hleaf, hlock]

theorem evalCommand_axisJog {a : AxisId} {dist : Int} (hst : (s.tile t).door.st = .isolated) (hh : (s.tile t).door.homing = none)
    (hf : s.faults t = []) (hi : (s.tile t).link.up.fallback = false) (h0 : dist ≠ 0) (hd : (dist.natAbs : Int) ≤ (s.tile t).par 0x11 6)
    (hu : (s.tile t).used a = true) (hr : (s.axis t a).fb.referenced = false)
    (hm : (s.tile t).door.mailbox = (h, .axisJog a dist) :: rest) :
    s.evalCommand t = (s.taken t rest).acceptWith t h 0x28 0 fun s => s.startMove t a .jog ((s.axis t a).fb.pos + dist) .jog := by
  have free : (s.taken t rest).isoBlocked t = false := by rw [State.isoBlocked, link_taken, faults_taken, hi, hf]; rfl
  rw [State.axis] at hr
  rw [Int.natCast_natAbs] at hd
  have starts : s.evalCommand t = (s.taken t rest).acceptWith t h 0x28 0 fun s1 =>
      s1.startMove t a .jog (((s.tile t).ax.get a).fb.pos + dist) .jog := by
    rw [evalCommand_other (by simp) hm, State.doorCommand, State.cmdJog]
    simp [hst, hh, free, h0, hd.not_gt, hu, hr]
  rw [starts]
  refine acceptWith_congr fun s' told => ?_
  rw [told.axis, State.axis, ax_taken]

end commands

/-- Settles O14: a due command is put into the mailbox or sets the release; at the head each is accepted, and its state is read off. -/
theorem doorCommandsEnterTheMailboxAndAreEvaluated : Obligations.DoorCommandsEnterTheMailboxAndAreEvaluated := by
  unfold Obligations.DoorCommandsEnterTheMailboxAndAreEvaluated
  intro s h fresh post
  have posted (c : DoorCmd) : s.postDoor h c = post c := by simp only [State.postDoor, fresh, Bool.false_eq_true, if_false, post]
  have enters {op : Nat} (c : DoorCmd) (due : s.Due h op) : onCmd h op s (fun s => s.postDoor h c) = .next (post c) := by
    rw [onCmd_of_due due, posted]
  have sets {op : Nat} (on : Bool) (c : Instr) (acts : (s.tile h.tile).triadActs = true) (due : s.Due h op) :
      onCmd h op s (fun s => if (s.tile h.tile).triadActs then s.hostReleaseSet h op on else s.holdBack h.tile c) =
        .next (s.hostReleaseSet h op on) := by rw [onCmd_of_due due, if_pos acts]
  refine ⟨enters _, enters _, enters _, enters _, enters _, enters _, fun _ => enters _, fun _ => enters _,
    fun acts => ⟨sets true _ acts, sets false _ acts⟩, fun rest => ?_⟩
  refine ⟨fun hst => ⟨evalCommand_closeDoor hst, evalCommand_nudge hst⟩, evalCommand_hold,
    fun hst hf => ⟨fun hm => ?_, fun hm => ?_⟩, fun hst hh hleaf hlock hm => ?_, fun a dist hst hh hf hi h0 hd hu hr hm => ?_⟩
  · rw [(evalCommand_step hst hf).1 hm, State.acceptWith]
    rfl
  · rw [(evalCommand_step hst hf).2 hm, State.acceptWith]
    rfl
  · rw [evalCommand_axisHome hst hh hleaf hlock hm, State.acceptWith]
    rfl
  · rw [evalCommand_axisJog hst hh hf hi h0 hd hu hr hm, State.acceptWith]
    rfl

end Sys2Proof.Machine
end

section
/-!
PROOFS. What the end of a pass leaves of the axes: their feedback, their fabric, and of their motion all but what belongs to the pass; and
the end of a move at rest (R58, R97, R127, R418).
-/

namespace Sys2Proof.Machine

/-! ### What the soundings leave of an axis (R133, R137, R143) -/

/-- The feedback, the motion and the fabric of an axis: what it holds beside its pass, its parameters and its soundings. -/
def Axis.core (x : Axis) : Feedback × Motion × Fabric := (x.fb, x.mo, x.fab)

def State.core (s : State) (t : TileId) (b : AxisId) : Feedback × Motion × Fabric := (s.axis t b).core

section core

variable {s s' : State} {t : TileId} {a b : AxisId}

theorem core_eq_iff : s'.core t b = s.core t b ↔
    (s'.axis t b).fb = (s.axis t b).fb ∧ (s'.axis t b).mo = (s.axis t b).mo ∧ (s'.axis t b).fab = (s.axis t b).fab := by
  simp only [State.core, Axis.core, Prod.mk.injEq]

theorem State.Told.core (h : State.Told s s') : s'.core t b = s.core t b := by rw [State.core, h.axis, State.core]

theorem core_modAxis {f : Axis → Axis} (hf : ∀ x, (f x).core = x.core) : (s.modAxis t a f).core t b = s.core t b := by
  rw [State.core, State.axis_modAxis_eq_ite]
  split
  · exact hf _
  · rfl

@[simp] theorem core_modPa {f : Pass → Pass} : (s.modPa t a f).core t b = s.core t b := core_modAxis fun _ => rfl

@[simp] theorem core_modDoor {f : Doorway → Doorway} : (s.modDoor t f).core t b = s.core t b := by
  rw [State.core, State.axis_modDoor, State.core]

@[simp] theorem core_raise {u : TileId} {code : Nat} {data : List Byte} {logged : Bool} {src : Option Source} :
    (s.raise u code data logged src).core t b = s.core t b := (told_raise (.refl s)).core

@[simp] theorem core_peatEntry {type : Nat} {src : Source} {body : List Byte} : (s.peatEntry t type src body).core t b = s.core t b :=
  (told_peatEntry (.refl s)).core

@[simp] theorem core_ite {c : Prop} [Decidable c] : (if c then s else s').core t b = if c then s.core t b else s'.core t b :=
  apply_ite (State.core · t b) ..

@[simp] theorem core_auditRecords {d : Dir} (n : Nat) (l : List (List Byte)) : (s.auditRecords t a d l n).core t b = s.core t b := by
  induction n generalizing s l with
  | zero => rfl
  | succ n ih => simp [State.auditRecords, ih]

@[simp] theorem core_learnPass {d : Dir} : (s.learnPass t a d).core t b = s.core t b := by
  rw [State.learnPass, core_auditRecords]
  refine List.foldlRecOn (motive := fun acc : State × List (List Byte) => acc.1.core t b = s.core t b) _ _ rfl fun acc hacc n _ => ?_
  have stored (m : Axis → SMap) : (acc.1.modAxis t a fun x => { x with soundings := m x }).core t b = s.core t b := by
    rw [core_modAxis, hacc]
    exact fun _ => rfl
  simp [stored]

@[simp] theorem core_shadowJudge {d : Dir} {m : Nat} : (s.shadowJudge t a d m).core t b = s.core t b := by
  have stored (l : List AxisId) (f : AxisId → Axis → SMap) :
      (s.each l fun s x => s.modAxis t x fun y => { y with shadow := f x y }).core t b = s.core t b := by
    refine State.each_keeps (g := fun s => s.core t b) (fun s x => core_modAxis ?_) l s
    exact fun _ => rfl
  unfold State.shadowJudge
  extract_lets tl done s1
  simp [s1, stored]

@[simp] theorem core_shadowPass {d : Dir} {clean : Bool} : (s.shadowPass t a d clean).core t b = s.core t b := by
  unfold State.shadowPass
  split
  · exact core_shadowJudge.trans (core_modAxis fun _ => rfl)
  · rfl

/-! ### The end of a pass (R97) -/

/-- The motion of an axis whose pass has ended: zone profile 0, no stake limit, no count of the force tests. -/
def Motion.passEnded (m : Motion) : Motion := { m with zone := 0, vLim := none, fLim := none, persist := 0, satCount := 0 }

theorem core_endPass {atRest : Bool} : (s.endPass t a atRest).core t b =
    if b = a ∧ (s.axis t a).pa.active = true then ((s.axis t b).fb, (s.axis t b).mo.passEnded, (s.axis t b).fab) else s.core t b := by
  unfold State.endPass
  extract_lets tl x p d clean learning s1 s2 s3 others s4
  have gathered : s4.core t b = s.core t b := by
    have shadowed : s2.core t b = s.core t b := by simp [s2, s1]
    have summed : s3.core t b = s2.core t b := by
      unfold s3
      split
      · exact core_modAxis fun _ => rfl
      · rfl
    exact core_modDoor.trans (summed.trans shadowed)
  obtain ⟨fb, mo, fab⟩ := core_eq_iff.mp gathered
  cases active : p.active
  case false =>
    have off : (s.axis t a).pa.active = false := active
    simp [off]
  case true =>
    have on : (s.axis t a).pa.active = true := active
    rw [Bool.not_true, if_neg Bool.false_ne_true, State.core, State.axis_modAxis_eq_ite]
    by_cases e : b = a
    · rw [if_pos e, if_pos ⟨e, on⟩, Axis.core, fb, mo, fab, Motion.passEnded]
    · rw [if_neg e, if_neg fun h => e h.1]
      exact gathered

theorem fb_endPass (atRest : Bool) : ((s.endPass t a atRest).axis t b).fb = (s.axis t b).fb := by
  refine (congrArg Prod.fst (core_endPass (s := s) (t := t) (a := a) (b := b) (atRest := atRest))).trans ?_
  split <;> rfl

theorem fab_endPass (atRest : Bool) : ((s.endPass t a atRest).axis t b).fab = (s.axis t b).fab := by
  refine (congrArg (·.2.2) (core_endPass (s := s) (t := t) (a := a) (b := b) (atRest := atRest))).trans ?_
  split <;> rfl

theorem mo_endPass (atRest : Bool) : ((s.endPass t a atRest).axis t b).mo =
    if b = a ∧ (s.axis t a).pa.active = true then (s.axis t b).mo.passEnded else (s.axis t b).mo := by
  refine (congrArg (·.2.1) (core_endPass (s := s) (t := t) (a := a) (b := b) (atRest := atRest))).trans ?_
  split <;> rfl

end core

/-! ### A move at rest (R58, R127, R418) -/

section rest

variable {s s' s'' : State} {t : TileId} {a b : AxisId}

/-- The axis lies at or beyond the least deployment, or at the travel of axis C, where that is less (R127). -/
def Tile.deployed (tl : Tile) (a : AxisId) : Bool := decide ((tl.ax.get a).fb.pos ≥ min (tl.par 0x83 6) (tl.travel .C))

/-- The source that a contact stop replaces (R127). -/
def contactSource (c : Fin 2) : BitVec 16 := if c = 0 then srcResidual else srcSat

/-- The motion of an axis that rests at a position (R58, R418). -/
def Motion.rests (m : Motion) (pos : Int) (driven : Bool) : Motion :=
  { m with
    move := none, planVel := 0, planAcc := 0, planPos := pos, planFrac := 0, profVel := 0, profAcc := 0, feSince := none
    bridge := if m.bridge == .brake || !(driven || m.contact.isSome) then (if m.bridge == .free then .free else .brake) else m.bridge }

/-- The same once its contact stop, if there was one, is over (R127). -/
def Motion.atRest (m : Motion) (pos : Int) (driven deployed : Bool) : Motion :=
  match m.contact with
  | none => m.rests pos driven
  | some _ =>
    if deployed then { m.rests pos driven with contact := none, contactDeployed := true } else { m.rests pos driven with contact := none }

/-- Of the feedback, the motion and the fabric of the axes, the motion of one axis alone changes, and it becomes m. -/
def State.Moves (s s' : State) (t : TileId) (a : AxisId) (m : Motion) : Prop :=
  ∀ b, s'.core t b = if b = a then ((s.axis t a).fb, m, (s.axis t a).fab) else s.core t b

theorem State.Moves.self {m : Motion} (h : s.Moves s' t a m) :
    (s'.axis t a).fb = (s.axis t a).fb ∧ (s'.axis t a).mo = m ∧ (s'.axis t a).fab = (s.axis t a).fab := by
  have e := h a
  rw [if_pos rfl, State.core, Axis.core] at e
  simpa only [Prod.mk.injEq] using e

theorem State.Moves.other {m : Motion} (h : s.Moves s' t a m) (hb : b ≠ a) : s'.core t b = s.core t b := by rw [h b, if_neg hb]

theorem State.Moves.trans {m n : Motion} (h : s.Moves s' t a m) (k : s'.Moves s'' t a n) : s.Moves s'' t a n := fun b => by
  obtain ⟨fb, -, fab⟩ := h.self
  rw [k b, fb, fab]
  split
  case isTrue => rfl
  case isFalse e => exact h.other e

theorem moves_of_core (h : ∀ b, s'.core t b = s.core t b) : s.Moves s' t a (s.axis t a).mo := fun b => by
  rw [h b]
  split
  case isTrue e => rw [e]; rfl
  case isFalse => rfl

theorem State.Moves.told {m : Motion} (h : s.Moves s' t a m) (k : State.Told s' s'') : s.Moves s'' t a m := fun b => k.core.trans (h b)

theorem State.Moves.modMo {m : Motion} (h : s.Moves s' t a m) (f : Motion → Motion) : s.Moves (s'.modMo t a f) t a (f m) := by
  refine h.trans fun b => ?_
  rw [State.core, State.modMo, State.axis_modAxis_eq_ite]
  split
  case isTrue e => rw [e, ← h.self.2.1]; rfl
  case isFalse => rfl

theorem moves_endPass (atRest : Bool) : s.Moves (s.endPass t a atRest) t a
    (if (s.axis t a).pa.active = true then (s.axis t a).mo.passEnded else (s.axis t a).mo) := fun b => by
  rw [core_endPass]
  by_cases e : b = a
  · rw [e, if_pos rfl]
    split <;> simp_all [State.core, Axis.core]
  · rw [if_neg e, if_neg fun h => e h.1]

/-- A contact stop that fell short trips its axis with the source that it replaces. -/
theorem moves_contactShort (src : BitVec 16) : s.Moves ((s.notClean t a).engineTrip t a src) t a { (s.axis t a).mo with
    tripNote := some ((s.axis t a).noted src (s.tile t).door.st s.ts), clearOwed := true, tripEngine := true } := by
  have unclean : (s.notClean t a).axis t a = { s.axis t a with pa := { (s.axis t a).pa with clean := false } } := State.axis_modAxis ..
  have door : ((s.notClean t a).tile t).door = (s.tile t).door := State.door_modAxis ..
  rw [engineTrip_eq, unclean, door]
  exact (moves_of_core fun _ => core_modPa).modMo _

/-- The motion of an axis with its contact stop judged at rest: one short of the least deployment is a trip (R127). -/
def Axis.contactJudged (x : Axis) (deployed : Bool) (st : DoorState) (ts : Word) : Motion :=
  match x.mo.contact with
  | some c =>
    if deployed then x.mo
    else { x.mo with tripNote := some (x.noted (contactSource c) st ts), clearOwed := true, tripEngine := true }
  | none => x.mo

theorem contact_contactJudged (x : Axis) (deployed : Bool) (st : DoorState) (ts : Word) :
    (x.contactJudged deployed st ts).contact = x.mo.contact := by
  unfold Axis.contactJudged
  split
  · split <;> rfl
  · rfl

theorem bridge_contactJudged (x : Axis) (deployed : Bool) (st : DoorState) (ts : Word) :
    (x.contactJudged deployed st ts).bridge = x.mo.bridge := by
  unfold Axis.contactJudged
  split
  · split <;> rfl
  · rfl

/-- A source that joins a trip is among its sources. -/
theorem noted_sources (x : Axis) (src : BitVec 16) (st : DoorState) (ts : Word) (hs : src ≠ 0) :
    (x.noted src st ts).sources &&& src ≠ 0 := by
  have joined (v : BitVec 16) : (v ||| src) &&& src = src := by
    ext i
    simp +contextual
  unfold Axis.noted
  split
  · rw [joined]
    exact hs
  · rw [BitVec.and_self]
    exact hs

theorem contactSource_ne (c : Fin 2) : contactSource c ≠ 0 := by
  unfold contactSource
  split <;> decide

/-- A move at rest: its contact stop is judged, its pass ends or goes on, and its axis rests at the measured position. -/
theorem moves_comeToRest {mv : Move} (hm : (s.axis t a).mo.move = some mv) : ∃ m driven,
    (m = (s.axis t a).contactJudged ((s.tile t).deployed a) (s.tile t).door.st s.ts ∨
      m = ((s.axis t a).contactJudged ((s.tile t).deployed a) (s.tile t).door.st s.ts).passEnded) ∧
    ((mv.kind = .homing ∨ mv.kind = .jog ∨ mv.kind = .calibration) → driven = false) ∧
    s.Moves (s.comeToRest t a) t a (m.atRest (s.axis t a).fb.pos driven ((s.tile t).deployed a)) := by
  unfold State.comeToRest
  extract_lets tl x st keep deep s0 s1
  split
  case h_1 none => exact absurd (none.symm.trans hm) (by simp)
  case h_2 mv' some =>
  obtain rfl : mv' = mv := Option.some.inj (some.symm.trans hm)
  extract_lets driven s2
  have judged : s.Moves s0 t a (x.contactJudged deep st s.ts) := by
    have stands : s.Moves s t a x.mo := moves_of_core fun _ => rfl
    unfold s0 Axis.contactJudged
    cases x.mo.contact with
    | none => exact stands
    | some c =>
      cases deep with
      | true => exact stands
      | false => exact moves_contactShort _
  obtain ⟨m, hm', ended⟩ : ∃ m, (m = x.contactJudged deep st s.ts ∨ m = (x.contactJudged deep st s.ts).passEnded) ∧
      s.Moves s1 t a m := by
    by_cases k : keep = true
    · exact ⟨_, .inl rfl, by rw [show s1 = s0 from if_pos k]; exact judged⟩
    · have e : s1 = s0.endPass t a true := if_neg k
      have passed := judged.trans (moves_endPass (s := s0) true)
      rw [judged.self.2.1] at passed
      rw [e]
      exact ⟨_, (by split <;> simp), passed⟩
  have rested : s.Moves s2 t a (m.rests x.fb.pos driven) := ended.modMo fun m => m.rests x.fb.pos driven
  have contact : m.contact = x.mo.contact := by
    rcases hm' with e | e <;> rw [e] <;> exact contact_contactJudged ..
  refine ⟨m, driven, hm', ?_, ?_⟩
  · rintro (e | e | e) <;> simp [driven, e]
  · rw [Motion.atRest, contact]
    cases x.mo.contact with
    | none => exact rested
    | some _ =>
      cases deployed : deep with
      | true =>
        have within : (s.tile t).deployed a = true := deployed
        simp only [within, if_true]
        exact (rested.modMo _).told (told_raise (.refl _))
      | false =>
        have beyond : (s.tile t).deployed a = false := deployed
        simp only [beyond, Bool.false_eq_true, if_false]
        exact rested.modMo _

theorem atRest_eq (m : Motion) (pos : Int) (driven deployed : Bool) : m.atRest pos driven deployed =
    { m.rests pos driven with contact := none, contactDeployed := m.contactDeployed || (m.contact.isSome && deployed) } := by
  unfold Motion.atRest
  cases c : m.contact with
  | none => simp [Motion.rests, c]
  | some _ => cases deployed <;> simp [Motion.rests]

end rest

/-- Settles O17: the axis rests as its motion was, with its contact stop judged and its pass ended, at the measured position. -/
theorem comingToRestEndsTheMove : Obligations.ComingToRestEndsTheMove := by
  unfold Obligations.ComingToRestEndsTheMove
  intro s t a mv hm
  obtain ⟨m, driven, judged, brakes, moves⟩ := moves_comeToRest hm
  obtain ⟨fb, mo, fab⟩ := moves.self
  have same {α : Type} (f : Motion → α) (hf : ∀ m, f m.passEnded = f m) :
      f m = f ((s.axis t a).contactJudged ((s.tile t).deployed a) (s.tile t).door.st s.ts) := by
    rcases judged with e | e
    · rw [e]
    · rw [e, hf]
  have bridge : m.bridge = (s.axis t a).mo.bridge := (same Motion.bridge fun _ => rfl).trans (bridge_contactJudged ..)
  have contact : m.contact = (s.axis t a).mo.contact := (same Motion.contact fun _ => rfl).trans (contact_contactJudged ..)
  refine ⟨?_, ?_, ?_, ?_, ?_, fun hk hc hb => ?brakes, fun c hc hp => ?deployed, fun c hc hp => ?short, fb, fab,
    fun b hb => (core_eq_iff.mp (moves.other hb)).2.1⟩
  case brakes =>
    rw [mo, atRest_eq, Motion.rests, contact, bridge, hc, hb, brakes hk]
    rfl
  case deployed =>
    have within : (s.tile t).deployed a = true := decide_eq_true hp
    rw [mo, atRest_eq, contact, hc, within]
    simp
  case short =>
    have beyond : (s.tile t).deployed a = false := decide_eq_false (not_le.mpr hp)
    have tripped : m.tripEngine = true ∧ m.tripNote = some ((s.axis t a).noted (contactSource c) (s.tile t).door.st s.ts) := by
      rw [same Motion.tripEngine fun _ => rfl, same Motion.tripNote fun _ => rfl, Axis.contactJudged, hc, beyond]
      exact ⟨rfl, rfl⟩
    rw [mo, atRest_eq]
    exact ⟨tripped.1, _, tripped.2, noted_sources _ _ _ _ (contactSource_ne c)⟩
  all_goals rw [mo, atRest_eq, Motion.rests]

end Sys2Proof.Machine
end

section
/-!
PROOFS. The trip fabric: its inputs assert both paths and turn the gates off (R54, R59, R115, R118, R121).
-/

namespace Sys2Proof.Machine

/-! ### A trip of the fabric (R59, R118) -/

/-- A trip with this source counts on this axis: it has something to stop, or the doorway is in a state in which a trip counts at rest. -/
def Tile.tripCounted (tl : Tile) (a : AxisId) (x : Axis) : Bool := tl.used a && (x.stoppable || tripCounts tl.door.st)

/-- The axis with both paths of its fabric tripped by a source. -/
def State.fabricTripped (s : State) (t : TileId) (a : AxisId) (src : BitVec 16) (x : Axis) : Axis :=
  let counts := (s.tile t).tripCounted a x
  { x with
    fab := { x.fab with path1 := true, path2 := true, tripped := true, fault := false }
    mo := { x.mo with
      bridge := .free, freeDelay := true, clearOwed := x.mo.clearOwed || counts
      tripNote := if counts then some (x.noted src (s.tile t).door.st s.ts) else x.mo.tripNote } }

section fabric

variable {s s' : State} {t : TileId} {a b : AxisId} {src : BitVec 16}

/-- A change of an axis is read at the axis as it is. -/
theorem State.modAxis_congr {f g : Axis → Axis} (h : f (s.axis t a) = g (s.axis t a)) : s.modAxis t a f = s.modAxis t a g :=
  State.modTile_congr s t _ _ (by rw [Tile.modAxis, Tile.modAxis]; exact congrArg (fun x => { s.tile t with ax := (s.tile t).ax.set a x }) h)

theorem fabricTrip_eq (hs : src ≠ 0) : s.fabricTrip t a src = s.modAxis t a (s.fabricTripped t a src) := by
  have named : (src != 0) = true := bne_iff_ne.mpr hs
  have counts : (src != 0 && (s.tile t).used a && ((s.axis t a).stoppable || tripCounts (s.tile t).door.st)) =
      (s.tile t).tripCounted a (s.axis t a) := by rw [named, Bool.true_and, Tile.tripCounted]
  unfold State.fabricTrip
  dsimp only
  rw [counts]
  cases c : (s.tile t).tripCounted a (s.axis t a)
  case false =>
    refine State.modAxis_congr ?_
    simp [State.fabricTripped, c]
  case true =>
    refine (State.modAxis_modAxis ..).trans (State.modAxis_congr ?_)
    simp [State.fabricTripped, c]

/-- What a trip makes of an axis depends on the tile's doorway and parameters and on the time, and not on another axis. -/
theorem fabricTripped_modAxis (f : Axis → Axis) : (s.modAxis t b f).fabricTripped t a src = s.fabricTripped t a src := by
  cases t <;> rfl

theorem State.Told.fabricTrip_congr (h : State.Told s s') (hs : src ≠ 0) : State.Told (s.fabricTrip t a src) (s'.fabricTrip t a src) := by
  have same : s'.fabricTripped t a src = s.fabricTripped t a src := by
    funext x
    have counts : (s'.tile t).tripCounted a x = (s.tile t).tripCounted a x := by rw [h.tiles t]; rfl
    rw [State.fabricTripped, State.fabricTripped, counts, h.st, h.ts]
  rw [fabricTrip_eq hs, fabricTrip_eq hs, same]
  exact h.modAxis_congr _

/-- Steps that each change one axis by itself, over different axes, change each axis of the list and no other. -/
theorem each_modAxis {l : List AxisId} (hl : l.Nodup) {F : State → AxisId → Axis → Axis}
    (hF : ∀ s b f, F (s.modAxis t b f) = F s) (s : State) :
    ∃ ax, (s.each l fun s a => s.modAxis t a (F s a)) = s.modTile t (fun tl => { tl with ax := ax }) ∧
      ∀ a, ax.get a = if a ∈ l then F s a (s.axis t a) else s.axis t a := by
  induction l generalizing s with
  | nil => exact ⟨(s.tile t).ax, (State.modTile_id s t).symm, fun a => rfl⟩
  | cons b l ih =>
    obtain ⟨hb, hl⟩ := List.nodup_cons.mp hl
    obtain ⟨ax, steps, read⟩ := ih hl (s.modAxis t b (F s b))
    refine ⟨ax, ?_, fun a => ?_⟩
    · rw [State.each_cons, steps, State.modAxis, State.modTile_modTile]
      rfl
    · rw [read a, hF, State.axis_modAxis_eq_ite]
      by_cases e : a = b
      · simp [e, hb]
      · simp [e]

theorem nodup_usedAxes (tl : Tile) : tl.usedAxes.Nodup := by
  unfold Tile.usedAxes Tile.leafAxes
  split_ifs <;> decide

theorem nodup_allAxes : AxisId.all.Nodup := by decide

end fabric

/-! ### Its inputs (R54, R115, R118) -/

section inputs

variable {s : State} {t : TileId} {a : AxisId}

theorem overcurrentComparatorEdge_trips (ht : s.hasTile t = true) :
    exec (.overcurrentComparatorEdge t a) s = .next (s.modAxis t a fun x =>
      { s.fabricTripped t a srcOvercurrent x with fab := { (s.fabricTripped t a srcOvercurrent x).fab with overcurrent := true } }) := by
  change execOvercurrentComparatorEdge t a s = _
  rw [execOvercurrentComparatorEdge, onTile_of t s _ ht, fabricTrip_eq (by decide), State.modFab, State.modAxis_modAxis]

/-- The trip pair has no source of its own. -/
theorem tripPairLevelChange_trips (ht : s.hasTile t = true) (hp : (s.axis t a).pairRaised = true) :
    exec (.tripPairLevelChange t a) s = .next (s.modAxis t a fun x =>
      { x with
        fab := { x.fab with path1 := true, path2 := true, tripped := true, fault := false }
        mo := { x.mo with bridge := .free, freeDelay := true } }) := by
  change execTripPairLevelChange t a s = _
  rw [execTripPairLevelChange, onTile_of t s _ ht, if_pos hp, State.fabricTrip]
  simp

/-- The source of an edge. -/
def edgeSource : EdgeId → BitVec 16
  | .edgeA => srcEdgeA
  | .edgeB => srcEdgeB

theorem edgeSource_ne (e : EdgeId) : edgeSource e ≠ 0 := by cases e <;> decide

/-- The axis after a sensitive edge: tripped where its edge is enabled and the edge acts on it (R115). -/
def State.edgeTripped (t : TileId) (e : EdgeId) (s : State) (a : AxisId) (x : Axis) : Axis :=
  if x.fab.edgeEn && (s.tile t).edgeActs e a then s.fabricTripped t a (edgeSource e) x else x

theorem edgeTripped_modAxis {e : EdgeId} (s : State) (b : AxisId) (f : Axis → Axis) :
    State.edgeTripped t e (s.modAxis t b f) = State.edgeTripped t e s := by
  funext a x
  have acts : ((s.modAxis t b f).tile t).edgeActs e a = (s.tile t).edgeActs e a := by cases t <;> rfl
  rw [State.edgeTripped, State.edgeTripped, acts, fabricTripped_modAxis]

theorem edgeStep_eq (s : State) (t : TileId) (e : EdgeId) (a : AxisId) :
    (if (s.axis t a).fab.edgeEn && (s.tile t).edgeActs e a then s.fabricTrip t a (edgeSource e) else s) =
      s.modAxis t a (State.edgeTripped t e s a) := by
  cases acts : (s.axis t a).fab.edgeEn && (s.tile t).edgeActs e a
  case false =>
    have stands : s.modAxis t a (fun x => x) = s := by cases t <;> cases a <;> rfl
    rw [if_neg Bool.false_ne_true]
    refine stands.symm.trans (State.modAxis_congr ?_)
    rw [State.edgeTripped, acts, if_neg Bool.false_ne_true]
  case true =>
    rw [if_pos rfl, fabricTrip_eq (edgeSource_ne e)]
    refine State.modAxis_congr ?_
    rw [State.edgeTripped, acts, if_pos rfl]

theorem sensitiveEdgeActive_trips (e : EdgeId) (ht : s.hasTile t = true) :
    ∃ ax, exec (.sensitiveEdgeActive t e) s = .next (s.modTile t fun tl => { tl with ax := ax }) ∧
      ∀ a, ax.get a = if (s.axis t a).fab.edgeEn = true ∧ (s.tile t).edgeActs e a = true then
        s.fabricTripped t a (edgeSource e) (s.axis t a) else s.axis t a := by
  obtain ⟨ax, steps, read⟩ := each_modAxis nodup_allAxes (edgeTripped_modAxis (t := t) (e := e)) s
  refine ⟨ax, ?_, fun a => ?_⟩
  · rw [← steps]
    simp only [← edgeStep_eq]
    change execSensitiveEdgeActive t e s = _
    refine (onTile_of t s _ ht).trans ?_
    cases e <;> rfl
  · rw [read a, if_pos (AxisId.mem_all a), State.edgeTripped]
    simp only [Bool.and_eq_true]

/-! ### The motor bus comparator (R54, R118) -/

theorem told_busTrips (l : List AxisId) {s s' : State} (h : State.Told s s') :
    State.Told (s.each l fun s a => s.fabricTrip t a srcDriveBus)
      (s'.each l fun s a => (s.fabricTrip t a srcDriveBus).driveBusEvent t a 2) := by
  induction l generalizing s s' with
  | nil => exact h
  | cons a l ih => exact ih ((h.fabricTrip_congr (by decide)).trans (told_driveBusEvent (.refl _)))

def FieldDie.busTripped (f : FieldDie) : FieldDie := { f with busComp := true }

/-- The comparator is active, every used axis is tripped by the motor bus, and it is told. -/
theorem motorBusComparatorTrip_trips (ht : s.hasTile t = true) : ∃ s' ax, exec (.motorBusComparatorTrip t) s = .next s' ∧
    State.Told ((s.modField t FieldDie.busTripped).modTile t fun tl => { tl with ax := ax }) s' ∧
    ∀ a, ax.get a = if (s.tile t).used a = true then s.fabricTripped t a srcDriveBus (s.axis t a) else s.axis t a := by
  obtain ⟨ax, steps, read⟩ := each_modAxis (nodup_usedAxes (s.tile t)) (F := fun s a => s.fabricTripped t a srcDriveBus)
    (fun s b f => funext fun a => fabricTripped_modAxis f) (s.modField t FieldDie.busTripped)
  have run : exec (.motorBusComparatorTrip t) s = .next ((s.modField t FieldDie.busTripped).each (s.tile t).usedAxes fun s a =>
      (s.fabricTrip t a srcDriveBus).driveBusEvent t a 2) := by
    change execMotorBusComparatorTrip t s = _
    exact onTile_of t s _ ht
  have trips (s : State) (a : AxisId) : s.modAxis t a (s.fabricTripped t a srcDriveBus) = s.fabricTrip t a srcDriveBus :=
    (fabricTrip_eq (by decide)).symm
  refine ⟨_, ax, run, ?_, fun a => ?_⟩
  · rw [← steps]
    simp only [trips]
    exact told_busTrips _ (.refl _)
  · have tripped : (s.modField t FieldDie.busTripped).fabricTripped t a srcDriveBus = s.fabricTripped t a srcDriveBus := by
      cases t <;> rfl
    simp only [read a, State.axis_modField, tripped, Tile.used, List.contains_iff_mem]

end inputs

/-- Settles O7: the inputs trip one axis, the mapped axes or every used axis, and a trip of the motor bus is told of beside. -/
theorem fabricTripsStopTheBridge : Obligations.FabricTripsStopTheBridge := by
  unfold Obligations.FabricTripsStopTheBridge
  refine ⟨?inputs, fun s t ht => ?bus⟩
  case inputs =>
    intro tripped
    exact ⟨fun s t a => overcurrentComparatorEdge_trips, fun s t a => tripPairLevelChange_trips,
      fun s t e => sensitiveEdgeActive_trips e⟩
  case bus =>
    obtain ⟨s', ax, run, told, read⟩ := motorBusComparatorTrip_trips ht
    have axis (a : AxisId) : s'.axis t a = ax.get a := by
      rw [told.axis, State.axis, State.tile_modTile_self]
    have tile : ((s.modField t FieldDie.busTripped).modTile t fun tl => { tl with ax := ax }).tile t =
        { s.tile t with ax := ax, field := (s.tile t).field.busTripped } := by rw [State.tile_modTile_self, tile_modField]
    refine ⟨s', run, fun a hu => ?used, fun a hu => ?unused, ?_, ?_, ?_, fun u hu => ?_, ?_⟩
    case used =>
      rw [axis, read, if_pos hu]
      refine ⟨rfl, rfl, rfl, rfl, rfl, fun stops => ⟨(s.axis t a).noted srcDriveBus (s.tile t).door.st s.ts, ?_, ?_⟩⟩
      · rw [State.fabricTripped, Tile.tripCounted, hu, stops]
        rfl
      · exact noted_sources _ _ _ _ (by decide)
    case unused => rw [axis, read, hu, if_neg Bool.false_ne_true]
    · rw [told.field, tile]
      rfl
    · rw [told.triad, tile]
    · rw [told.door, tile]
    · have other := told.tiles u
      rwa [State.tile_modTile, if_neg hu, State.modField, State.tile_modTile, if_neg hu] at other
    · exact told.time

end Sys2Proof.Machine
end

section
/-!
PROOFS. The planner keeps its limits whatever the free values are, and the references of the loops stay within their clamp (R44, R46, R47, R53,
R54).
-/

namespace Sys2Proof.Machine

/-! ### Values brought into an interval -/

theorem clampInt_mem {lo hi : Int} (v : Int) (h : lo ≤ hi) : lo ≤ clampInt v lo hi ∧ clampInt v lo hi ≤ hi := by
  unfold clampInt
  omega

/-- A value brought into an interval, and then into one about 0 that meets it, lies in both. -/
theorem clampInt_clampInt_mem {lo hi c : Int} (v : Int) (h : lo ≤ hi) (hc : 0 ≤ c) (hl : lo ≤ c) (hh : -c ≤ hi) :
    let r := clampInt (clampInt v lo hi) (-c) c
    (lo ≤ r ∧ r ≤ hi) ∧ r.natAbs ≤ c.toNat := by
  unfold clampInt
  omega

theorem natAbs_clampInt_le (v : Int) (c : Nat) : (clampInt v (-c) c).natAbs ≤ c := by
  unfold clampInt
  omega

/-! ### The acceleration planned for the next sample (R47, R54) -/

/-- The planned acceleration lies within a_max, and within the jerk of one period of the one before, whatever is asked for. -/
theorem planClamp_mem {lim : KinLimits} {dt : Rat} {before : Int} (limited : Bool) (free want : Int) (v : Rat)
    (hb : (before.natAbs : Int) ≤ lim.a.floor) (hj : 0 ≤ (lim.j * dt).floor) :
    ((planClamp lim dt limited free before want v).natAbs : Int) ≤ lim.a.floor ∧
      (planClamp lim dt limited free before want v - before).natAbs ≤ (lim.j * dt).floor.toNat := by
  unfold planClamp
  extract_lets dj amax a
  obtain ⟨low, high⟩ := clampInt_mem want (show max (-amax) (before - dj) ≤ min amax (before + dj) by omega)
  have within (r : Int) (hlow : max (-amax) (before - dj) ≤ r) (hhigh : r ≤ min amax (before + dj)) :
      (r.natAbs : Int) ≤ amax ∧ (r - before).natAbs ≤ dj.toNat := by omega
  split_ifs with unlimited slows slows
  · exact within a low high
  · obtain ⟨low', high'⟩ := clampInt_mem free (show a ≤ min 0 (before + dj) by omega)
    exact within _ (low.trans low') (by omega)
  · obtain ⟨low', high'⟩ := clampInt_mem free (show max 0 (before - dj) ≤ a by omega)
    exact within _ (by omega) (high'.trans high)
  · exact within a low high

theorem floor_kinLimits (tl : Tile) (a : AxisId) (set : LimitSet) (rate : Int) (hr : 0 < rate) :
    (tl.kinLimits a set).a.floor = max 1 (tl.parAN a 0x03 1 set.idx : Int) ∧
      ((tl.kinLimits a set).j * (1 / (rate : Rat))).floor = (max 1 (tl.parAN a 0x03 2 set.idx) : Nat) / rate := by
  constructor
  · change ⌊((max 1 (tl.parAN a 0x03 1 set.idx) : Nat) : Rat)⌋ = _
    rw [Int.floor_natCast, Nat.cast_max, Nat.cast_one]
  · change ⌊((max 1 (tl.parAN a 0x03 2 set.idx) : Nat) : Rat) * (1 / (rate : Rat))⌋ = _
    rw [mul_one_div, Int.floor_div_cast_of_nonneg hr.le, Int.floor_natCast]

section planner

variable {s : State} {t : TileId} {a : AxisId}

/-- The samples of the position loop in a second (R53). -/
def Tile.loopRate (tl : Tile) (a : AxisId) : Int := max 1 (tl.parA a 0x05 1 / 4)

/-- The bounds that the planner keeps to in one sample (R46, R47). -/
structure Tile.Within (tl : Tile) (a : AxisId) (set : LimitSet) (m m' : Motion) : Prop where
  acc  : (m'.planAcc.natAbs : Int) ≤ max 1 (tl.parAN a 0x03 1 set.idx : Int)
  jerk : (m'.planAcc - m.planAcc).natAbs ≤ ((max 1 (tl.parAN a 0x03 2 set.idx) : Nat) / tl.loopRate a).toNat
  vel  : m'.planVel.natAbs ≤ max (tl.vMax a set) (max m.planVel.natAbs m.speed.natAbs)
  low  : min m.planVel m.speed - (max 1 (tl.parAN a 0x03 1 set.idx : Int) / tl.loopRate a + 1) ≤ m'.planVel
  high : m'.planVel ≤ max m.planVel m.speed + (max 1 (tl.parAN a 0x03 1 set.idx : Int) / tl.loopRate a + 1)

/-- One recomputation of the planner: it changes the plan and the profile, the end of the move and its way, and keeps to its bounds unless the
profile ends. -/
structure Tile.Planned (tl : Tile) (a : AxisId) (mv : Move) (m m' : Motion) : Prop where
  rest : m' = { m with
    planAcc := m'.planAcc, planVel := m'.planVel, planPos := m'.planPos, planFrac := m'.planFrac, profVel := m'.profVel
    profAcc := m'.profAcc, move := m'.move }
  move : ∃ mv', m'.move = some mv' ∧ mv' = { mv with profileDone := mv'.profileDone, dir := mv'.dir } ∧
    if mv'.profileDone then m'.planAcc = 0 ∧ m'.planVel = 0 else tl.Within a mv.set m m'

theorem planSample_plans {mv : Move} (hm : (s.axis t a).mo.move = some mv) (hp : mv.profileDone = false)
    (hb : (s.axis t a).mo.bridge = .driven) (hal : (s.axis t a).mo.aligning = false) (hst : (s.tile t).streams a = false)
    (hacc : ((s.axis t a).mo.planAcc.natAbs : Int) ≤ max 1 ((s.tile t).parAN a 0x03 1 mv.set.idx : Int)) :
    ∃ f, s.planSample t a = s.draw.2.modMo t a f ∧ (s.tile t).Planned a mv (s.axis t a).mo (f (s.axis t a).mo) := by
  unfold State.planSample
  extract_lets tl x m rate dt
  split
  case h_1 none => exact absurd (none.symm.trans hm) (by simp)
  case h_2 mv' some =>
  obtain rfl : mv' = mv := Option.some.inj (some.symm.trans hm)
  have plans : ¬ (x.mo.aligning || x.mo.bridge != .driven || (tl.streams a && mv'.kind != .stop) || mv'.profileDone) = true := by
    have h1 : x.mo.aligning = false := hal
    have h2 : x.mo.bridge = .driven := hb
    have h3 : tl.streams a = false := hst
    simp [h1, h2, h3, hp]
  rw [if_neg plans]
  split
  next free s1 draws =>
  extract_lets lim go vcap dv
  split
  next q _ _ =>
  split
  next p done _ =>
  extract_lets acc lower pa pv px vel ends pos
  have drawn : s.draw.2 = s1 := by rw [draws]
  have hrate : 0 < rate := lt_of_lt_of_le one_pos (le_max_left ..)
  obtain ⟨amax, dj⟩ := floor_kinLimits tl a mv'.set rate hrate
  have hj : 0 ≤ (lim.j * dt).floor := dj ▸ Int.ediv_nonneg (by omega) hrate.le
  have hdv : 0 ≤ dv := Int.add_nonneg (Int.ediv_nonneg (amax ▸ by omega) hrate.le) (by decide)
  have hcap : vcap = max (tl.vMax a mv'.set : Int) (max m.planVel.natAbs m.speed.natAbs) := rfl
  have cap : vcap.toNat = max (tl.vMax a mv'.set) (max m.planVel.natAbs m.speed.natAbs) := by omega
  obtain ⟨within, jerk⟩ := planClamp_mem m.decelLimited free (roundRat q.a) m.speed (dt := dt) (amax ▸ hacc) hj
  obtain ⟨⟨low, high⟩, fast⟩ := clampInt_clampInt_mem (lo := min m.planVel m.speed - dv) (hi := max m.planVel m.speed + dv) (c := vcap)
    (if lower then m.speed + acc / rate else roundRat q.v) (by omega) (by omega) (by omega) (by omega)
  rw [drawn]
  refine ⟨_, rfl, rfl, _, rfl, rfl, ?_⟩
  dsimp only
  cases ends with
  | true => exact ⟨rfl, rfl⟩
  | false => exact ⟨amax ▸ within, dj ▸ jerk, cap ▸ fast, amax ▸ low, amax ▸ high⟩

/-! ### The clamp on the reference (R44, R46) -/

/-- The clamp is judged by the parameters in force, the inputs of the field die, the pass and the force limit. -/
theorem iClamp_congr {x y : Tile} {set : LimitSet} (hf : y.inForce = x.inForce) (hd : y.field = x.field)
    (ha : (y.ax.get a).inForce = (x.ax.get a).inForce) (hp : (y.ax.get a).pa = (x.ax.get a).pa)
    (hl : (y.ax.get a).mo.fLim = (x.ax.get a).mo.fLim) : y.iClamp a set = x.iClamp a set := by
  have par (table row idx : Nat) : y.par table row idx = x.par table row idx := by rw [Tile.par, Tile.par, hf]
  have parA (table row idx : Nat) : y.parA a table row idx = x.parA a table row idx := by rw [Tile.parA, Tile.parA, hf, ha]
  have single : y.single = x.single := by rw [Tile.single, Tile.single, par]
  have mask (e : EdgeId) : y.edgeMask e = x.edgeMask e := by
    unfold Tile.edgeMask
    rw [single, Tile.parN, Tile.parN, par]
  have bad (e : EdgeId) : y.edgeBad e = x.edgeBad e := by
    simp only [Tile.edgeBad, Tile.sourceFault, Tile.role, Tile.parN, par, hd]
  have degraded : y.degraded a = x.degraded a := by simp only [Tile.degraded, mask, bad, hp]
  simp only [Tile.iClamp, Tile.fMax, Tile.parAN, parA, degraded, hl]

theorem iClamp_modMo {f : Motion → Motion} {set : LimitSet} (hl : (f (s.axis t a).mo).fLim = (s.axis t a).mo.fLim) :
    ((s.modMo t a f).tile t).iClamp a set = (s.tile t).iClamp a set := by
  have read : (((s.modMo t a f).tile t).ax.get a) = { s.axis t a with mo := f (s.axis t a).mo } := State.axis_modAxis ..
  refine iClamp_congr ?_ ?_ ?_ ?_ ?_
  · cases t <;> rfl
  · exact State.field_modAxis ..
  · rw [read]; rfl
  · rw [read]; rfl
  · rw [read]; exact hl

/-- The motion with an i_q reference at an electrical angle, and i_d at 0 (R50, R53). -/
def Motion.referenced (m : Motion) (iq : Int) (angle : Nat) : Motion := { m with iqRef := iq, idRef := 0, elecAngle := angle }

/-- On a driven bridge the i_q reference is brought within the clamp of the set in force, and i_d is 0 (R44, R46, R53). -/
theorem controlSample_clamps {sector : Option Nat} (hb : (s.axis t a).mo.bridge = .driven) (hal : (s.axis t a).mo.aligning = false) :
    ∃ iq angle, s.controlSample t a sector = s.draw.2.modMo t a (·.referenced iq angle) ∧
      iq.natAbs ≤ (s.tile t).iClamp a ((s.tile t).setInForce a) := by
  unfold State.controlSample
  extract_lets tl x
  have driven : x.mo.bridge = .driven := hb
  have aligned : x.mo.aligning = false := hal
  rw [driven, aligned]
  exact ⟨_, _, rfl, natAbs_clampInt_le ..⟩

theorem controlSample_undriven {sector : Option Nat} (hb : (s.axis t a).mo.bridge ≠ .driven) :
    s.controlSample t a sector = s.modMo t a fun m => { m with iqRef := 0, idRef := 0 } :=
  if_pos (bne_iff_ne.mpr hb)

theorem planSample_without_move (hm : (s.axis t a).mo.move = none) : s.planSample t a = s := by
  unfold State.planSample
  extract_lets tl x
  split
  case h_1 => rfl
  case h_2 mv some => exact absurd (some.symm.trans hm) (by simp)

/-- The Hall sector that the loops read on an axis with Hall sensors (R50). -/
def Tile.hallSector (tl : Tile) (a : AxisId) : Option Nat :=
  if tl.parA a 0x08 6 = 0 then none else hallPlace (tl.ax.get a).fb.hallLast

theorem exec_positionLoopSample (ht : s.hasTile t = true) : exec (.positionLoopSample t a) s = .next
    (if (s.tile t).used a then (s.planSample t a).controlSample t a ((s.tile t).hallSector a) else s) := by
  change execPositionLoopSample t a s = _
  exact onTile_of t s _ ht

end planner

/-- Settles O20: the planner clamps what its trajectory asks for, and the loops clamp the reference. -/
theorem plannerKeepsItsLimits : Obligations.PlannerKeepsItsLimits := by
  unfold Obligations.PlannerKeepsItsLimits
  intro s t a ht
  refine ⟨fun hu => ?unused, fun hu hm => ⟨fun hb => ?undriven, fun hb hal => ?held⟩, fun mv hu hm hp hb hal hst => ?planned⟩
  case unused => rw [exec_positionLoopSample ht, hu, if_neg Bool.false_ne_true]
  case undriven => rw [exec_positionLoopSample ht, if_pos hu, planSample_without_move hm, controlSample_undriven hb]
  case held =>
    obtain ⟨iq, angle, run, clamped⟩ := controlSample_clamps (sector := (s.tile t).hallSector a) hb hal
    have hold : (s.tile t).setInForce a = .hold := by
      unfold Tile.setInForce
      rw [show ((s.tile t).ax.get a).mo.move = none from hm]
    rw [hold] at clamped
    rw [exec_positionLoopSample ht, if_pos hu, planSample_without_move hm, run]
    refine ⟨_, rfl, ?_⟩
    rw [State.mo_modMo]
    exact ⟨rfl, clamped⟩
  case planned =>
    intro amax rate dj hacc
    obtain ⟨f, plan, rest, mv', move, same, bounds⟩ := planSample_plans hm hp hb hal hst hacc
    have planned : (s.draw.2.modMo t a f).axis t a = { s.axis t a with mo := f (s.axis t a).mo } := State.axis_modAxis ..
    have driven : ((s.planSample t a).axis t a).mo.bridge = .driven := by
      rw [plan, planned, rest]
      exact hb
    have aligned : ((s.planSample t a).axis t a).mo.aligning = false := by
      rw [plan, planned, rest]
      exact hal
    have clamp (set : LimitSet) : ((s.planSample t a).tile t).iClamp a set = (s.tile t).iClamp a set := by
      rw [plan]
      have fLim : (f (s.axis t a).mo).fLim = (s.axis t a).mo.fLim := by rw [rest]
      exact iClamp_modMo (s := s.draw.2) fLim
    have force : ((s.planSample t a).tile t).setInForce a = mv.set := by
      have read : (((s.planSample t a).tile t).ax.get a).mo.move = some mv' := by
        rw [plan]
        exact (congrArg (·.mo.move) planned).trans move
      unfold Tile.setInForce
      rw [read, same]
    obtain ⟨iq, angle, run, clamped⟩ := controlSample_clamps (sector := (s.tile t).hallSector a) driven aligned
    rw [clamp, force] at clamped
    rw [exec_positionLoopSample ht, if_pos hu, run]
    have ends : ((s.planSample t a).draw.2.modMo t a (·.referenced iq angle)).axis t a =
        { s.axis t a with mo := (f (s.axis t a).mo).referenced iq angle } := by
      rw [plan]
      exact (State.axis_modAxis ..).trans (congrArg (fun x : Axis => { x with mo := x.mo.referenced iq angle }) planned)
    have others (b : AxisId) (hb : b ≠ a) :
        ((s.planSample t a).draw.2.modMo t a (·.referenced iq angle)).axis t b = s.axis t b := by
      rw [plan, State.modMo, State.axis_modAxis_eq_ite, if_neg hb]
      exact (State.axis_modAxis_eq_ite ..).trans (if_neg hb)
    refine ⟨_, mv', rfl, ?_⟩
    rw [ends]
    refine ⟨move, same, ?_, clamped, rfl, rfl, rfl, ?_, others⟩
    · split
      case isTrue done =>
        rwa [if_pos done] at bounds
      case isFalse runs =>
        rw [if_neg runs] at bounds
        obtain ⟨acc, jerk, vel, low, high⟩ := bounds
        exact ⟨acc, jerk, vel, low, high⟩
    · exact (congrArg Motion.bridge rest).trans hb

end Sys2Proof.Machine
end

section
/-!
PROOFS. The trips that the engine raises by itself, the brake delay and the fabric fault (R55, R59, R110, R111, R120, R127).
-/

namespace Sys2Proof.Machine

section trips

variable {s : State} {t : TileId} {a : AxisId}

/-! ### The force tests (R110, R111, R127) -/

/-- A force test trips, but on axis C in a zone with contact. -/
theorem forceTrip_trips (sat : Bool) (hc : a ≠ .C ∨ (s.tile t).par 0x82 11 (s.axis t a).mo.zone.val ≠ 1) :
    s.forceTrip t a sat = s.engineTrip t a (if sat then srcSat else srcResidual) := by
  unfold State.forceTrip
  extract_lets tl m deploying
  refine if_neg fun h => ?_
  simp only [Bool.and_eq_true, beq_iff_eq] at h
  exact hc.elim (· h.1.1) (· h.2)

/-- On axis C, while it deploys with contact in its zone, the first force test makes a controlled stop. -/
theorem forceTrip_stops (sat : Bool) {v : Move} (hm : (s.axis t .C).mo.move = some v) (hv : v.dir = .opening)
    (hn : (s.axis t .C).mo.contact = none) (hz : (s.tile t).par 0x82 11 (s.axis t .C).mo.zone.val = 1) :
    s.forceTrip t .C sat = (s.stopMove t .C).modMo t .C fun m => { m with contact := some (if sat then 1 else 0) } := by
  unfold State.forceTrip
  extract_lets tl m deploying
  have move : m.move = some v := hm
  have contact : m.contact = none := hn
  have zone : tl.par 0x82 11 m.zone.val = 1 := hz
  have deploys : deploying = true := by
    unfold deploying
    rw [move]
    exact beq_iff_eq.mpr hv
  rw [deploys, zone, contact]
  rfl

theorem residualTrip_tests (ht : s.hasTile t = true) (hm : (s.axis t a).moving = true) (hp : (s.axis t a).pa.active = true)
    (hb : (s.axis t a).mo.bridge = .driven) (hn : (s.axis t a).mo.persist ≥ (s.tile t).parN 0x82 2 (s.axis t a).mo.zone.val) :
    exec (.residualTrip t a) s = .next (s.forceTrip t a false) := by
  change execResidualTrip t a s = _
  rw [execResidualTrip, onTile_of t s _ ht]
  refine congrArg _ (if_pos ?_)
  simp only [Bool.and_eq_true, decide_eq_true_eq, beq_iff_eq]
  exact ⟨⟨⟨hm, hp⟩, hb⟩, hn⟩

theorem satTrip_tests (ht : s.hasTile t = true) (hm : (s.axis t a).moving = true) (hp : (s.axis t a).pa.active = true)
    (hb : (s.axis t a).mo.bridge = .driven) (hn : (s.axis t a).mo.satCount ≥ (s.tile t).parN 0x82 2 (s.axis t a).mo.zone.val) :
    exec (.satTrip t a) s = .next (s.forceTrip t a true) := by
  change execSatTrip t a s = _
  rw [execSatTrip, onTile_of t s _ ht]
  refine congrArg _ (if_pos ?_)
  simp only [Bool.and_eq_true, decide_eq_true_eq, beq_iff_eq]
  exact ⟨⟨⟨hm, hp⟩, hb⟩, hn⟩

/-! ### The following error, the brake delay and the fabric fault (R55, R59, R120) -/

theorem followingErrorTrip_trips {i : Nat} (ht : s.hasTile t = true) (hm : (s.axis t a).moving = true)
    (hi : (s.axis t a).mo.feSince = some i) (hlong : s.now > i + 1000000 * (s.tile t).parAN a 0x05 6) :
    exec (.followingErrorTrip t a) s = .next (s.engineTrip t a srcFollow) := by
  have since : ((s.tile t).ax.get a).mo.feSince = some i := hi
  have moving : ((s.tile t).ax.get a).moving = true := hm
  change execFollowingErrorTrip t a s = _
  rw [execFollowingErrorTrip, onTile_of t s _ ht]
  simp only [since, moving, hlong, decide_true, Bool.and_self, if_true]

theorem tripStopBrakeDelay_brakes (ht : s.hasTile t = true) (hf : (s.axis t a).mo.freeDelay = true) :
    exec (.tripStopBrakeDelay t a) s = .next (s.modMo t a fun m => { m with freeDelay := false, bridge := .brake }) := by
  change execTripStopBrakeDelay t a s = _
  rw [execTripStopBrakeDelay, onTile_of t s _ ht, if_pos hf]

theorem fabricFault_noted (ht : s.hasTile t = true) (hr : (s.axis t a).fab.tripped = false) (hp : (s.axis t a).pairRaised = false)
    (hi : (s.tile t).fabInputs a = false) : exec (.fabricFault t a) s = .next (s.modFab t a fun f => { f with fault := true }) := by
  have tripped : ((s.tile t).ax.get a).fab.tripped = false := hr
  have raised : ((s.tile t).ax.get a).pairRaised = false := hp
  change execFabricFault t a s = _
  rw [execFabricFault, onTile_of t s _ ht]
  simp only [tripped, raised, hi, Bool.or_self, Bool.false_eq_true, if_false]

end trips

/-- Settles O8: each test that is met raises the engine's trip with its source, or stops axis C on contact. -/
theorem tripsAndBrakesOfAnAxis : Obligations.TripsAndBrakesOfAnAxis := by
  unfold Obligations.TripsAndBrakesOfAnAxis
  refine ⟨fun s t a ht hm hp hb hc => ⟨fun hn => ?residual, fun hn => ?sat⟩,
    fun s t v ht hm hv hp hb hn hz => ⟨fun hk => ?residualContact, fun hk => ?satContact⟩,
    fun s t a i ht hm hi hlong => ?following, fun s t a => tripStopBrakeDelay_brakes, fun s t a => fabricFault_noted⟩
  case residual => rw [residualTrip_tests ht hm hp hb hn, forceTrip_trips false hc, engineTrip_eq]; rfl
  case sat => rw [satTrip_tests ht hm hp hb hn, forceTrip_trips true hc, engineTrip_eq]; rfl
  case residualContact =>
    have moving : (s.axis t .C).moving = true := by rw [Axis.moving, hm]; rfl
    rw [residualTrip_tests ht moving hp hb hk, forceTrip_stops false hm hv hn hz]
    rfl
  case satContact =>
    have moving : (s.axis t .C).moving = true := by rw [Axis.moving, hm]; rfl
    rw [satTrip_tests ht moving hp hb hk, forceTrip_stops true hm hv hn hz]
    rfl
  case following => rw [followingErrorTrip_trips ht hm hi hlong, engineTrip_eq]

end Sys2Proof.Machine
end

section
/-!
PROOFS. The ends of a homing run and of a move, a stake bound, and obstructions that age (R66, R105, R129, R418).
-/

namespace Sys2Proof.Machine

section rest

variable {s : State} {t : TileId} {a : AxisId}

/-! ### Homing and rest (R66, R418) -/

theorem homingRunComplete_evaluates (ht : s.hasTile t = true) (hd : (s.tile t).homeDone = true) :
    exec (.homingRunComplete t) s = .next (s.evaluate t) := by
  change execHomingRunComplete t s = _
  rw [execHomingRunComplete, onTile_of t s _ ht, if_pos hd]

/-- A move is at rest once its profile has ended, outside an alignment, and its speed has been low for 10 ms (R418). -/
theorem atRest_iff : s.atRest t a = true ↔ (∃ mv, (s.axis t a).mo.move = some mv ∧ mv.profileDone = true) ∧
    (s.axis t a).mo.aligning = false ∧ ∃ i, (s.axis t a).mo.slowSince = some i ∧ i + 10000000 ≤ s.now := by
  unfold State.atRest
  dsimp only
  cases (s.axis t a).mo.move <;> cases (s.axis t a).mo.slowSince <;> simp [and_assoc]

/-- A move at rest ends; in a homing run its axis goes on to the next step of its procedure (R66, R418). -/
theorem moveEnds_atRest {mv : Move} (hm : (s.axis t a).mo.move = some mv) (hr : s.atRest t a = true) :
    s.moveEnds t a = if mv.kind == .homing || (s.axis t a).mo.homeStage.isSome then (s.comeToRest t a).homeRest t a
      else s.comeToRest t a := by
  rw [State.moveEnds, hm]
  simp only [hr, Bool.not_true, Bool.false_eq_true, if_false]

theorem moveEnds_moving (hr : s.atRest t a = false) : s.moveEnds t a = s := by
  unfold State.moveEnds
  split
  · rfl
  · rw [hr]
    rfl

theorem exec_moveComesToRest (ht : s.hasTile t = true) : exec (.moveComesToRest t a) s = .next (s.moveEnds t a) := by
  change execMoveComesToRest t a s = _
  exact onTile_of t s _ ht

theorem homingMoveComplete_ends (ht : s.hasTile t = true) (hh : (s.axis t a).mo.homeStage.isSome = true) :
    exec (.homingMoveComplete t a) s = .next (s.moveEnds t a) := by
  change execHomingMoveComplete t a s = _
  rw [execHomingMoveComplete, onTile_of t s _ ht, if_pos hh]

/-! ### The stake bound (R105) -/

/-- The doorway told that the stake bound of an axis has expired. -/
def Doorway.stakeExpires (d : Doorway) (a : AxisId) : Doorway := { d with stakeExpired := d.stakeExpired ++ [a] }

/-- In a state with a pass the expiry is handed to the doorway. -/
def Doorway.stakeHanded (d : Doorway) (a : AxisId) : Doorway :=
  if d.st == .opening || d.st == .closing || d.st == .nudging || d.st == .reversing then d.stakeExpires a else d

/-- An expired stake bound is dropped, told of, and handed to the doorway. -/
theorem exec_stakeBoundExpiry {p : Int} {d : Dir} {i : Nat} (ht : s.hasTile t = true) (hb : (s.axis t a).pa.bound = some (p, d, i))
    (hr : (s.axis t a).pa.boundTime.isRunning = true) :
    exec (.stakeBoundExpiry t a) s = .next (((s.modAxis t a Axis.unbound).raise t 0x13
      (leBytes 1 a.num ++ leBytes 1 d.num ++ leBytes 1 i ++ [0] ++ leInt 4 (s.axis t a).fb.pos ++ leBytes 4 s.ts.toNat)).modDoor t
        (·.stakeHanded a)) := by
  change execStakeBoundExpiry t a s = _
  rw [execStakeBoundExpiry, onTile_of t s _ ht]
  simp only [hb, hr, Bool.not_true, Bool.false_eq_true, if_false]
  rfl

theorem told_stakeHanded {code : Nat} {data : List Byte} (hst : (s.tile t).door.st = .opening) :
    State.Told (s.modDoor t (·.stakeExpires a)) ((s.raise t code data).modDoor t (·.stakeHanded a)) := by
  have hands : s.modDoor t (·.stakeHanded a) = s.modDoor t (·.stakeExpires a) := by
    refine State.modTile_congr s t _ _ ?_
    simp only [Doorway.stakeHanded, hst, beq_self_eq_true, Bool.true_or, if_true]
  rw [← hands]
  refine (told_raise (.refl s)).modDoor_congr fun d m => ?_
  unfold Doorway.stakeHanded
  split <;> rfl

/-! ### Obstructions (R129) -/

/-- Obstructions outside the window leave the count, and it is told. -/
theorem obstructionAgesOut_ages (ht : s.hasTile t = true) (ha : (s.tile t).triadActs = true)
    (hold : (s.tile t).door.obstructions.any (fun i => decide (i + (s.tile t).parN 0x83 4 * 1000000000 < s.now)) = true) :
    let left := (s.tile t).door.obstructions.filter fun i => decide (s.now ≤ i + (s.tile t).parN 0x83 4 * 1000000000)
    exec (.obstructionAgesOut t) s =
      .next ((s.modDoor t fun d => { d with obstructions := left }).raise t 0x24 (leBytes 1 left.length ++ leBytes 1 1)) := by
  intro left
  have fewer : ¬ left.length = (s.tile t).door.obstructions.length := by
    intro same
    obtain ⟨i, member, gone⟩ := List.any_eq_true.mp hold
    have stays := List.length_filter_eq_length_iff.mp same i member
    simp only [decide_eq_true_eq] at gone stays
    omega
  change execObstructionAgesOut t s = _
  rw [execObstructionAgesOut, onTile_of t s _ ht, if_pos ha]
  exact congrArg _ (if_neg fewer)

end rest

/-- Settles O16: a move at rest is closed by its rest, an expired stake bound is handed on, and obstructions age by a filter that drops one. -/
theorem homingRestAndTheStakeBound : Obligations.HomingRestAndTheStakeBound := by
  unfold Obligations.HomingRestAndTheStakeBound
  intro s t ht
  refine ⟨homingRunComplete_evaluates ht, fun a => atRest_iff, fun a hr hh => ?homing, fun a mv hm hk hh hr => ?rests,
    fun a hr => ?moves, fun a p d i hb hrun hst => ?bound, obstructionAgesOut_ages ht⟩
  case homing =>
    obtain ⟨⟨mv, hm, -⟩, -⟩ := atRest_iff.mp hr
    rw [homingMoveComplete_ends ht hh, moveEnds_atRest hm hr, hh, Bool.or_true, if_pos rfl]
  case rests =>
    have other : (mv.kind == .homing || (s.axis t a).mo.homeStage.isSome) = false := by rw [hh]; simpa using hk
    rw [exec_moveComesToRest ht, moveEnds_atRest hm hr, other, if_neg Bool.false_ne_true]
  case moves => rw [exec_moveComesToRest ht, moveEnds_moving hr]
  case bound =>
    have opens : ((s.modAxis t a Axis.unbound).tile t).door.st = .opening := by rw [State.door_modAxis, hst]
    refine ⟨_, exec_stakeBoundExpiry ht hb hrun, ?_⟩
    generalize leBytes 1 a.num ++ leBytes 1 d.num ++ leBytes 1 i ++ [0] ++ leInt 4 (s.axis t a).fb.pos ++ leBytes 4 s.ts.toNat = data
    have told := told_stakeHanded (a := a) (code := 0x13) (data := data) opens
    have axis (b) : _ = if b = a then (s.axis t b).unbound else s.axis t b :=
      (told.axis t b).trans (by rw [State.axis_modDoor, State.axis_modAxis_eq_ite])
    have self := (axis a).trans (if_pos rfl)
    have door := (congrArg Doorway.stakeExpired (told.door t)).trans (by rw [State.door_modDoor, State.door_modAxis])
    exact ⟨door, self ▸ rfl, self ▸ rfl, self ▸ rfl, fun b hb => (axis b).trans (if_neg hb)⟩

end Sys2Proof.Machine
end

section
/-!
PROOFS. An alignment is fixed or fails (R51), and a coarse step enters the stream or is counted (R63, R64).
-/

namespace Sys2Proof.Machine

section align

variable {s : State} {t : TileId} {a : AxisId}

/-! ### Alignment (R51) -/

/-- An alignment with little motion, outside the alignment step of a homing run, is fixed at the count. -/
theorem alignmentComplete_fixes {motion : Int} (ht : s.hasTile t = true) (hal : (s.axis t a).mo.aligning = true)
    (hm : 2 * (motion.natAbs : Int) * (s.tile t).parA a 0x04 2 ≤ (s.tile t).parA a 0x04 1)
    (hh : (s.axis t a).mo.homeStage ≠ some .align) :
    exec (.alignmentComplete t a motion) s = .next (s.modMo t a fun m =>
      { m with aligning := false, aligned := true, elecOff := some ((s.axis t a).fb.pos, 0) }) := by
  have runs : ((s.tile t).ax.get a).mo.aligning = true := hal
  have elsewhere : ((s.axis t a).mo.homeStage == some .align) = false := beq_eq_false_iff_ne.mpr hh
  change execAlignmentComplete t a motion s = _
  rw [execAlignmentComplete, onTile_of t s _ ht]
  simp only [runs, elsewhere, not_lt.mpr hm, Bool.not_true, Bool.false_eq_true, if_false]

/-- With more motion, outside a homing run, the alignment fails. -/
theorem alignmentComplete_fails {motion : Int} (ht : s.hasTile t = true) (hal : (s.axis t a).mo.aligning = true)
    (hm : 2 * (motion.natAbs : Int) * (s.tile t).parA a 0x04 2 > (s.tile t).parA a 0x04 1) (hh : (s.tile t).door.homing = none) :
    exec (.alignmentComplete t a motion) s =
      .next (((s.brakeAxis t a).refuseMove t a).raise t 0x09 (leBytes 1 a.num ++ [0, 0, 0] ++ leInt 4 motion)) := by
  have runs : ((s.tile t).ax.get a).mo.aligning = true := hal
  change execAlignmentComplete t a motion s = _
  rw [execAlignmentComplete, onTile_of t s _ ht]
  simp only [runs, hh, hm, Option.isSome_none, Bool.not_true, Bool.false_eq_true, if_false, if_true]

/-! ### Coarse steps (R63, R64) -/

theorem exec_coarseStepEdge {up : Bool} {period : Nat} (ht : s.hasTile t = true) :
    exec (.coarseStepEdge t a up period) s = .next (s.coarseStep t a (if up then .opening else .closing) period) := by
  change execCoarseStepEdge t a up period s = _
  exact onTile_of t s _ ht

/-- A step that the axis follows enters the stream. -/
theorem coarseStep_follows {d : Dir} {period : Nat} (hx : (s.tile t).parA a 0x06 0 ≠ 0) (hf : (s.tile t).follows a d = true) :
    s.coarseStep t a d period = s.modMo t a fun m =>
      { m with extPending := m.extPending + (if m.extPeriod = 0 then 0 else
                 (s.tile t).extFine a ((s.tile t).parAN a 0x06 2) - (s.tile t).extFine a m.extDone)
               extPeriod := max 1 (if period > 1000000 * (s.tile t).parAN a 0x06 3 then 1000 * (s.tile t).parAN a 0x06 4 else period)
               extAt := s.now, extDone := 0 } := by
  rw [State.coarseStep]
  simp only [hx, hf, if_false, if_true]

/-- A step that the axis does not follow is counted, and told of once in a move. -/
theorem coarseStep_ignored {d : Dir} {period : Nat} (hx : (s.tile t).parA a 0x06 0 ≠ 0) (hf : (s.tile t).follows a d = false) :
    s.coarseStep t a d period =
      let counted := s.modMo t a fun m => { m with extIgnored := (s.axis t a).mo.extIgnored + 1, extReported := true }
      if (s.axis t a).mo.extReported then counted
      else counted.raise t 0x0B (leBytes 1 a.num ++ [0, 0, 0] ++ leBytes 4 ((s.axis t a).mo.extIgnored + 1)) := by
  rw [State.coarseStep]
  simp only [hx, hf, Bool.false_eq_true, if_false]

end align

/-- Settles O21: the motion decides between the two ends of an alignment, and the stream followed between the two uses of a step. -/
theorem alignmentAndExternalSteps : Obligations.AlignmentAndExternalSteps := by
  unfold Obligations.AlignmentAndExternalSteps
  intro s t a ht
  refine ⟨fun hal motion => ⟨alignmentComplete_fixes ht hal, alignmentComplete_fails ht hal⟩, fun hx up period =>
    ⟨fun hf => ?followed, fun hf => ⟨fun told => ?counted, fun told => ?reported⟩⟩⟩
  case followed => rw [exec_coarseStepEdge ht, coarseStep_follows hx hf]
  case counted =>
    rw [exec_coarseStepEdge ht, coarseStep_ignored hx hf]
    simp only [told, if_true]
  case reported =>
    rw [exec_coarseStepEdge ht, coarseStep_ignored hx hf]
    simp only [told, Bool.false_eq_true, if_false]

end Sys2Proof.Machine
end

section
/-!
PROOFS. Hall codes and their faults (R50, R82), the raw edges of the switches and chatter (R66, R69), and their debounce (R59, R83).
-/

namespace Sys2Proof.Machine

section hall

variable {s : State} {t : TileId} {a : AxisId} {c : BitVec 3} {now : Nat}

/-! ### Hall codes (R50, R82) -/

/-- No code skips to itself. -/
theorem hallSkip_self (c : BitVec 3) : hallSkip c c = false := by
  unfold hallSkip
  cases hallPlace c <;> simp

/-- The axis after a valid new code with its edge angle, on a PMSM motor or another: it follows the last code or skips one, and one that
follows fixes an offset that is not yet fixed. -/
def Axis.hallTaken (x : Axis) (c : BitVec 3) (edge : Nat) (pmsm skip : Bool) : Axis :=
  { x with
    fb := { x.fb with hallCode := c, hallLast := c, hallSkipped := skip
                      hallSkips := if skip then x.fb.hallSkips + 1 else x.fb.hallSkips }
    mo := if x.mo.elecOff.isNone && pmsm && x.mo.bridge == .driven && !skip then
        { x.mo with elecOff := some (x.fb.pos, edge) } else x.mo }

/-- A valid new code lies further than hall_tol from the angle that the count gives. -/
def State.hallOff (s : State) (t : TileId) (a : AxisId) (c : BitVec 3) : Bool :=
  match (s.axis t a).mo.elecOff with
  | some o => (s.tile t).motor a == 0 && !hallSkip (s.axis t a).fb.hallLast c &&
      decide ((angleDist ((s.tile t).angleAt a o (s.axis t a).fb.pos) (hallEdgeAngle (s.axis t a).fb.hallLast c) * 360 : Nat) >
        (s.tile t).parA a 0x08 7 * 4096)
  | none => false

/-- A valid new code is taken; a skip after a skip, or an edge out of tolerance, is a Hall fault. -/
theorem hallCodeChange_valid (ht : s.hasTile t = true) (hu : (s.tile t).used a = true) (hs : (s.tile t).parA a 0x08 6 ≠ 0)
    (hv : hallPlace c ≠ none) (hn : c ≠ (s.axis t a).fb.hallLast) :
    let skip := hallSkip (s.axis t a).fb.hallLast c
    let taken := (s.at now).modAxis t a (·.hallTaken c (hallEdgeAngle (s.axis t a).fb.hallLast c) ((s.tile t).motor a == 0) skip)
    exec (.hallCodeChange t a c now) s =
      .next (if (skip && (s.axis t a).fb.hallSkipped) || s.hallOff t a c then taken.newLoss t a 5 else taken) := by
  intro skip taken
  have valid : (hallPlace c).isNone = false := Option.isNone_eq_false_iff.mpr (Option.isSome_iff_ne_none.mpr hv)
  have new : (c == ((s.tile t).ax.get a).fb.hallLast) = false := beq_eq_false_iff_ne.mpr hn
  change execHallCodeChange t a c now s = _
  rw [execHallCodeChange, onTile_of t s _ ht]
  simp only [State.tile_at, hu, hs, valid, new, decide_false, Bool.not_true, Bool.or_false, Bool.false_eq_true, if_false]
  rfl

/-- An invalid code, and the last one again, is held. -/
theorem hallCodeChange_held (ht : s.hasTile t = true) (hu : (s.tile t).used a = true) (hs : (s.tile t).parA a 0x08 6 ≠ 0)
    (hc : hallPlace c = none ∨ c = (s.axis t a).fb.hallLast) :
    exec (.hallCodeChange t a c now) s = .next ((s.at now).modFb t a fun f => { f with hallCode := c }) := by
  have held : ((hallPlace c).isNone || c == ((s.tile t).ax.get a).fb.hallLast) = true :=
    Bool.or_eq_true_iff.mpr (hc.imp (fun h => by rw [h]; rfl) fun h => beq_iff_eq.mpr h)
  change execHallCodeChange t a c now s = _
  rw [execHallCodeChange, onTile_of t s _ ht]
  simp only [State.tile_at, hu, hs, held, decide_false, Bool.not_true, Bool.or_false, Bool.false_eq_true, if_false, if_true]

/-- An axis whose offset is not fixed, without a PMSM motor, or with its edge within hall_tol, is not off. -/
theorem hallOff_eq_false (hd : ∀ o, (s.axis t a).mo.elecOff = some o → (s.tile t).motor a ≠ 0 ∨
    (angleDist ((s.tile t).angleAt a o (s.axis t a).fb.pos) (hallEdgeAngle (s.axis t a).fb.hallLast c) * 360 : Nat) ≤
      (s.tile t).parA a 0x08 7 * 4096) : s.hallOff t a c = false := by
  unfold State.hallOff
  split
  case h_1 o fixed =>
    rcases hd o fixed with motor | near
    · rw [beq_eq_false_iff_ne.mpr motor, Bool.false_and, Bool.false_and]
    · rw [decide_eq_false (not_lt.mpr near), Bool.and_false]
  case h_2 => rfl

/-- A skip after a skip loses the position. -/
theorem hallCodeChange_skips (ht : s.hasTile t = true) (hu : (s.tile t).used a = true) (hs : (s.tile t).parA a 0x08 6 ≠ 0)
    (hv : hallPlace c ≠ none) (hskip : hallSkip (s.axis t a).fb.hallLast c = true) (hlast : (s.axis t a).fb.hallSkipped = true) :
    ∃ s', exec (.hallCodeChange t a c now) s = .next s' ∧ s.LosesPosition s' t a 5 := by
  have new : c ≠ (s.axis t a).fb.hallLast := by
    rintro rfl
    rw [hallSkip_self] at hskip
    exact Bool.false_ne_true hskip
  refine ⟨_, hallCodeChange_valid ht hu hs hv new, ?_⟩
  rw [hskip, hlast, Bool.and_self, Bool.true_or, if_pos rfl]
  have lost := (newLoss_loses ((s.at now).modAxis t a (·.hallTaken c (hallEdgeAngle (s.axis t a).fb.hallLast c) ((s.tile t).motor a == 0) true))
    t a 5 (by rw [used_modAxis, State.tile_at, hu])).1
  exact losesPosition_of_modAxis (s := s.at now) rfl rfl (by simp [Axis.hallTaken]) lost

end hall

/-! ### What a homing move leaves of the feedback (R54, R58, R60, R66) -/

/-- The feedback of an axis. -/
def State.feedback (s : State) (t : TileId) (b : AxisId) : Feedback := (s.axis t b).fb

section feedback

variable {s s' : State} {t : TileId} {a b : AxisId}

theorem State.Told.feedback (h : State.Told s s') : s'.feedback t b = s.feedback t b := by rw [State.feedback, h.axis, State.feedback]

@[simp] theorem feedback_modAxis {f : Axis → Axis} (hf : ∀ x, (f x).fb = x.fb) : (s.modAxis t a f).feedback t b = s.feedback t b := by
  rw [State.feedback, State.axis_modAxis_eq_ite]
  split
  · exact hf _
  · rfl

@[simp] theorem feedback_modMo {f : Motion → Motion} : (s.modMo t a f).feedback t b = s.feedback t b := feedback_modAxis fun _ => rfl

@[simp] theorem feedback_modDoor {f : Doorway → Doorway} : (s.modDoor t f).feedback t b = s.feedback t b := by
  rw [State.feedback, State.axis_modDoor, State.feedback]

@[simp] theorem feedback_modLink {f : Link → Link} : (s.modLink t f).feedback t b = s.feedback t b := by cases t <;> rfl

@[simp] theorem feedback_passParams : (s.modTile t Tile.passParams).feedback t b = s.feedback t b := by cases t <;> rfl

@[simp] theorem feedback_raise {u : TileId} {code : Nat} {data : List Byte} {logged : Bool} {src : Option Source} :
    (s.raise u code data logged src).feedback t b = s.feedback t b := (told_raise (.refl s)).feedback

@[simp] theorem feedback_each {α : Type} {l : List α} {f : State → α → State} (hf : ∀ s a, (f s a).feedback t b = s.feedback t b) :
    (s.each l f).feedback t b = s.feedback t b := State.each_keeps (g := fun s => s.feedback t b) hf l s

@[simp] theorem feedback_ite {c : Prop} [Decidable c] :
    (if c then s else s').feedback t b = if c then s.feedback t b else s'.feedback t b := apply_ite (State.feedback · t b) ..

@[simp] theorem feedback_endPass {atRest : Bool} : (s.endPass t a atRest).feedback t b = s.feedback t b := fb_endPass atRest

@[simp] theorem feedback_beginPass {stepCmd : Bool} : (s.beginPass t a stepCmd).feedback t b = s.feedback t b := by
  unfold State.beginPass
  dsimp only
  split <;> simp

@[simp] theorem feedback_releasePair : (s.releasePair t a).feedback t b = s.feedback t b := feedback_modLink.trans feedback_modMo

@[simp] theorem feedback_startMove {kind : MoveKind} {target : Int} {set : LimitSet} {stepCmd : Bool} :
    (s.startMove t a kind target set stepCmd).feedback t b = s.feedback t b := by
  simp [State.startMove, State.driveBusEvent, State.refuseMove]

@[simp] theorem feedback_stopMove : (s.stopMove t a).feedback t b = s.feedback t b := feedback_modMo

@[simp] theorem feedback_setStage {st : HomeStage} : (s.setStage t a st).feedback t b = s.feedback t b := feedback_modMo

@[simp] theorem feedback_homeMove {stage : HomeStage} {target : Int} : (s.homeMove t a stage target).feedback t b = s.feedback t b :=
  feedback_modMo.trans feedback_startMove

@[simp] theorem feedback_indexHome : (s.indexHome t a).feedback t b = s.feedback t b := by
  simp [State.indexHome, State.indexStart]

/-- Chatter marks the switch and, whatever the homing run then does, leaves the rest of the feedback (R69). -/
theorem feedback_chatter : (s.chatter t a).feedback t a = { s.feedback t a with suspect := true } := by
  have marked (data : List Byte) : ((s.modFb t a fun f => { f with suspect := true }).raise t 0x0C data).feedback t a =
      { s.feedback t a with suspect := true } := feedback_raise.trans (State.fb_modFb ..)
  unfold State.chatter
  dsimp only
  split
  · simp [marked]
  · exact marked _

end feedback

section switches

variable {s : State} {t : TileId} {a : AxisId} {level : Bool} {now : Nat}

/-! ### Raw edges (R66, R69) -/

/-- A new level of a switch other than HOME is stored. -/
theorem homeSwitchRawEdge_limit {sw : SwitchId} (ht : s.hasTile t = true) (hu : (s.tile t).used a = true)
    (hn : swGet (s.axis t a).fb.swRaw sw ≠ level) (hh : sw ≠ .home) :
    exec (.homeSwitchRawEdge t a sw level now) s = .next ((s.at now).modFb t a fun f => { f with swRaw := swSet f.swRaw sw level }) := by
  have new : (swGet ((s.tile t).ax.get a).fb.swRaw sw == level) = false := beq_eq_false_iff_ne.mpr hn
  change execHomeSwitchRawEdge t a sw level now s = _
  rw [execHomeSwitchRawEdge, onTile_of t s _ ht]
  simp only [State.tile_at, hu, new, Bool.not_true, Bool.or_false, Bool.false_eq_true, if_false]

/-- The feedback after an edge of HOME: the raw level, the count latched for its direction, and the edges in the chatter window. -/
def Feedback.homeLatched (f : Feedback) (level active : Bool) (edges : List Nat) : Feedback :=
  { f with swRaw := swSet f.swRaw .home level, latchActive := if active then f.pos else f.latchActive
           latchInactive := if active then f.latchInactive else f.pos, chatter := edges }

/-- An edge of HOME latches the count; with more than four edges in the window a switch not yet suspect chatters. -/
theorem homeSwitchRawEdge_home (ht : s.hasTile t = true) (hu : (s.tile t).used a = true) (hn : swGet (s.axis t a).fb.swRaw .home ≠ level) :
    let edges := ((s.axis t a).fb.chatter ++ [now]).filter fun i => decide (now ≤ i + 8 * (s.tile t).parAN a 0x08 8 * 1000)
    let latched := (s.at now).modFb t a (·.homeLatched level (level == ((s.tile t).parA a 0x08 9 != 0)) edges)
    exec (.homeSwitchRawEdge t a .home level now) s =
      .next (if decide (edges.length > 4) && !(s.axis t a).fb.suspect then latched.chatter t a else latched) := by
  intro edges latched
  have new : (!(s.tile t).used a || swGet ((s.tile t).ax.get a).fb.swRaw .home == level) = false := by
    rw [hu]
    exact beq_eq_false_iff_ne.mpr hn
  change execHomeSwitchRawEdge t a .home level now s = _
  rw [execHomeSwitchRawEdge, onTile_of t s _ ht]
  refine congrArg _ ((if_neg (Bool.not_eq_true _ ▸ new)).trans ?_)
  dsimp only
  rw [State.modFb, State.modFb, State.modAxis_modAxis]
  rfl

/-- A fifth edge in the window leaves the switch suspect, whether or not it was before. -/
theorem homeSwitchRawEdge_suspects (ht : s.hasTile t = true) (hu : (s.tile t).used a = true)
    (hn : swGet (s.axis t a).fb.swRaw .home ≠ level)
    (hl : (((s.axis t a).fb.chatter ++ [now]).filter fun i => decide (now ≤ i + 8 * (s.tile t).parAN a 0x08 8 * 1000)).length > 4) :
    ∃ s', exec (.homeSwitchRawEdge t a .home level now) s = .next s' ∧ (s'.axis t a).fb.suspect = true ∧
      (s'.axis t a).fb.swRaw = swSet (s.axis t a).fb.swRaw .home level := by
  refine ⟨_, homeSwitchRawEdge_home ht hu hn, ?_⟩
  rw [decide_eq_true hl, Bool.true_and]
  cases suspect : (s.axis t a).fb.suspect
  case false =>
    rw [Bool.not_false, if_pos rfl, ← State.feedback, feedback_chatter, State.feedback, State.fb_modFb]
    exact ⟨rfl, rfl⟩
  case true =>
    rw [Bool.not_true, if_neg Bool.false_ne_true, State.fb_modFb]
    exact ⟨suspect, rfl⟩

/-! ### Debounced levels (R59, R83) -/

/-- The debounced level of a switch takes the raw one. -/
def Feedback.debounced (f : Feedback) (sw : SwitchId) : Feedback := { f with swLevel := swSet f.swLevel sw (swGet f.swRaw sw) }

theorem modFb_debounced (s : State) (t : TileId) (a : AxisId) (sw : SwitchId) : (s.modFb t a fun f =>
    { f with swLevel := swSet f.swLevel sw (swGet ((s.tile t).ax.get a).fb.swRaw sw) }) = s.modFb t a (·.debounced sw) :=
  State.modAxis_congr rfl

/-- The engine's trip notes nothing of a debounced level. -/
theorem engineTrip_debounced (s : State) (t : TileId) (a : AxisId) (sw : SwitchId) (src : BitVec 16) :
    (s.modFb t a (·.debounced sw)).engineTrip t a src = (s.modFb t a (·.debounced sw)).modMo t a fun m =>
      { m with tripNote := some ((s.axis t a).noted src (s.tile t).door.st s.ts), clearOwed := true, tripEngine := true } := by
  rw [engineTrip_eq, State.modFb, State.axis_modAxis, State.door_modAxis]
  rfl

/-- Outside a homing run a debounced edge of HOME does nothing more. -/
theorem homeEdge_idle {active : Bool} (hh : (s.axis t a).mo.homeStage = none) : s.homeEdge t a active = s := by
  have idle : s.homeStage t a = none := hh
  unfold State.homeEdge
  rw [idle]

theorem switchDebounceExpiry_home (ht : s.hasTile t = true) (hu : (s.tile t).used a = true)
    (hn : swGet (s.axis t a).fb.swLevel .home ≠ swGet (s.axis t a).fb.swRaw .home) (hh : (s.axis t a).mo.homeStage = none) :
    exec (.switchDebounceExpiry t a .home) s =
      .next (s.modFb t a fun f => { f with swLevel := swSet f.swLevel .home (swGet f.swRaw .home) }) := by
  have new : (swGet ((s.tile t).ax.get a).fb.swLevel .home == swGet ((s.tile t).ax.get a).fb.swRaw .home) = false :=
    beq_eq_false_iff_ne.mpr hn
  change execSwitchDebounceExpiry t a .home s = _
  rw [execSwitchDebounceExpiry, onTile_of t s _ ht]
  simp only [hu, new, Bool.not_true, Bool.or_false, Bool.false_eq_true, if_false]
  rw [modFb_debounced, homeEdge_idle (by rw [State.modFb, State.axis_modAxis, hh])]
  rfl

/-- LIMC becoming active in a move towards closed trips it. -/
theorem switchDebounceExpiry_limC {mv : Move} (ht : s.hasTile t = true) (hu : (s.tile t).used a = true)
    (hn : swGet (s.axis t a).fb.swLevel .limC ≠ swGet (s.axis t a).fb.swRaw .limC)
    (hact : swGet (s.axis t a).fb.swRaw .limC = (pGet (s.axis t a).inForce (pKey 0x08 9 0 (some a)) != 0))
    (hm : (s.axis t a).mo.move = some mv) (hd : mv.dir = .closing) :
    exec (.switchDebounceExpiry t a .limC) s = .next ((s.modFb t a fun f =>
      { f with swLevel := swSet f.swLevel .limC (swGet f.swRaw .limC) }).modMo t a fun m =>
        { m with tripEngine := true, clearOwed := true, tripNote := some ((s.axis t a).noted srcLimit (s.tile t).door.st s.ts) }) := by
  have new : (swGet ((s.tile t).ax.get a).fb.swLevel .limC == swGet ((s.tile t).ax.get a).fb.swRaw .limC) = false :=
    beq_eq_false_iff_ne.mpr hn
  have moves : ((s.tile t).ax.get a).mo.move = some mv := hm
  have active : ((s.modFb t a (·.debounced .limC)).axis t a).swActive a .limC = true := by
    rw [State.modFb, State.axis_modAxis]
    exact beq_iff_eq.mpr hact
  change execSwitchDebounceExpiry t a .limC s = _
  rw [execSwitchDebounceExpiry, onTile_of t s _ ht]
  simp only [hu, new, modFb_debounced, moves, hd, active, beq_self_eq_true, Bool.true_or, Bool.not_true, Bool.or_false, Bool.false_eq_true, if_false,
    if_true]
  rw [engineTrip_debounced]
  rfl

end switches

/-- Settles O24: what a valid new code and a new switch level do, read off by whether the code skips, whether the switch chatters, and
whether the limit lies ahead of the move. -/
theorem hallCodesAreFollowed : Obligations.HallCodesAreFollowed := by
  unfold Obligations.HallCodesAreFollowed
  refine ⟨fun s t a c now ht hu hs => ⟨hallCodeChange_held ht hu hs, fun hv hn hk hd => ?follows, hallCodeChange_skips ht hu hs⟩,
    fun s t a ht hu => ⟨fun level now => ⟨fun hn => homeSwitchRawEdge_limit ht hu hn nofun, fun hn => homeSwitchRawEdge_limit ht hu hn nofun,
      fun hn => ⟨fun hl => ?latches, homeSwitchRawEdge_suspects ht hu hn⟩⟩,
    switchDebounceExpiry_home ht hu, fun hn hact mv => switchDebounceExpiry_limC ht hu hn hact⟩⟩
  case follows =>
    rw [hallCodeChange_valid ht hu hs hv hn, hallOff_eq_false hd, hk, Bool.false_and, Bool.or_false, if_neg Bool.false_ne_true]
    simp only [Axis.hallTaken, Bool.not_false, Bool.and_true, Bool.false_eq_true, if_false]
  case latches =>
    rw [homeSwitchRawEdge_home ht hu hn, decide_eq_false (not_lt.mpr hl), Bool.false_and, if_neg Bool.false_ne_true]
    rfl

end Sys2Proof.Machine
end

section
/-!
PROOFS. The faults of the feedback (R79, R80, R82, R83, R89), the direction event (R91) and the divided output (R92).
-/

namespace Sys2Proof.Machine

section faults

variable {s : State} {t : TileId} {a : AxisId}

/-! ### Faults (R79, R80, R82, R83, R89) -/

/-- A cause that does not stand yet loses the position. -/
theorem positionLost_loses {c : Nat} (hu : (s.tile t).used a = true) (hc : (s.axis t a).fb.causes.contains c = false) :
    s.LosesPosition (s.positionLost t a c) t a c :=
  losesPosition_of_told (losesPosition_loses s t a c) (told_positionLost hu hc)

theorem told_newLoss (c : Nat) (hu : (s.tile t).used a = true) :
    State.Told ((s.causeCleared t a c).loses t a c) (s.newLoss t a c) := by
  refine told_positionLost ?_ ?_
  · rw [State.causeCleared, State.modFb, used_modAxis, hu]
  · rw [State.causeCleared, State.fb_modFb]
    simp

/-- A Hall fault of a PMSM axis forbids powered moves. -/
theorem hallForbid_newLoss (hu : (s.tile t).used a = true) (hm : (s.tile t).motor a = 0) :
    ((s.newLoss t a 5).axis t a).fb.hallForbid = true := by
  have pmsm : ((s.causeCleared t a 5).tile t).motor a = 0 := (parA_modAxis a _ rfl 0x04 0 0).trans hm
  rw [(told_newLoss 5 hu).axis, fb_loses, pmsm, Feedback.lost]
  exact Bool.or_true _

theorem exec_encoderFault (ht : s.hasTile t = true) (hq : (s.tile t).parA a 0x08 0 ≠ 0) (hb : (s.axis t a).fb.encoderBad = true) :
    exec (.encoderFault t a) s = .next (s.positionLost t a 1) := by
  change execEncoderFault t a s = _
  rw [execEncoderFault, onTile_of t s _ ht, decide_eq_false hq, hb]
  rfl

/-- A pair other than the index is always in use. -/
theorem exec_lineFault {p : QuadPair} (ht : s.hasTile t = true) (hq : (s.tile t).parA a 0x08 0 ≠ 0) (hp : p ≠ .qi) :
    exec (.lineFault t a p) s = .next (s.newLoss t a 3) := by
  change execLineFault t a p s = _
  rw [execLineFault, onTile_of t s _ ht]
  dsimp only
  rw [decide_eq_false hq]
  cases p with
  | qi => exact absurd rfl hp
  | qa | qb => rfl

theorem exec_hallInvalidTimeout (ht : s.hasTile t = true) (hs : (s.tile t).parA a 0x08 6 ≠ 0)
    (hv : hallPlace (s.axis t a).fb.hallCode = none) : exec (.hallInvalidTimeout t a) s = .next (s.newLoss t a 5) := by
  have invalid : hallPlace ((s.tile t).ax.get a).fb.hallCode = none := hv
  change execHallInvalidTimeout t a s = _
  rw [execHallInvalidTimeout, onTile_of t s _ ht]
  dsimp only
  rw [decide_eq_false hs, invalid]
  rfl

theorem exec_switchFault (ht : s.hasTile t = true) (hc : (s.axis t a).swActive a .limC = true)
    (ho : (s.axis t a).swActive a .limO = true) : exec (.switchFault t a) s = .next (s.positionLost t a 7) := by
  change execSwitchFault t a s = _
  rw [execSwitchFault, onTile_of t s _ ht]
  exact congrArg _ (if_pos (by rw [hc, ho]; rfl))

end faults

/-- Settles O23: an encoder or a switch fault loses a position whose cause does not stand yet, a line or a Hall fault loses it afresh. -/
theorem feedbackFaultsLoseThePosition : Obligations.FeedbackFaultsLoseThePosition := by
  unfold Obligations.FeedbackFaultsLoseThePosition
  refine fun s t a ht hu => ⟨fun hq => ⟨fun hb hc => ?encoder, fun p hp => ?line⟩, fun hs hv => ?hall, fun hC hO hc => ?switch⟩
  case encoder => exact ⟨_, exec_encoderFault ht hq hb, positionLost_loses hu hc⟩
  case line => exact ⟨_, exec_lineFault ht hq hp, (newLoss_loses s t a 3 hu).1⟩
  case hall => exact ⟨_, exec_hallInvalidTimeout ht hs hv, (newLoss_loses s t a 5 hu).1, hallForbid_newLoss hu⟩
  case switch => exact ⟨_, exec_switchFault ht hC hO, positionLost_loses hu hc⟩

section divided

variable {s : State} {t : TileId} {a : AxisId}

/-! ### The direction event and the divided output (R91, R92) -/

/-- A held-back change is reported as it was noted, and the hold-off runs again. -/
theorem directionEventHoldoff_pending (ht : s.hasTile t = true) (hh : (s.axis t a).fb.dirHoldoff = true)
    (hp : (s.axis t a).fb.dirPending = true) :
    exec (.directionEventHoldoff t a) s = .next ((s.modFb t a fun f => { f with dirPending := false }).dirEvent t a) := by
  change execDirectionEventHoldoff t a s = _
  rw [execDirectionEventHoldoff, onTile_of t s _ ht]
  simp only [hh, hp, Bool.not_true, Bool.false_eq_true, if_false, if_true]

theorem directionEventHoldoff_idle (ht : s.hasTile t = true) (hh : (s.axis t a).fb.dirHoldoff = true)
    (hp : (s.axis t a).fb.dirPending = false) :
    exec (.directionEventHoldoff t a) s = .next (s.modFb t a fun f => { f with dirHoldoff := false }) := by
  change execDirectionEventHoldoff t a s = _
  rw [execDirectionEventHoldoff, onTile_of t s _ ht]
  simp only [hh, hp, Bool.not_true, Bool.false_eq_true, if_false]

/-- The oldest queued edge leaves the queue and goes to the outputs. -/
theorem exec_encoQueuedEdge {up : Bool} {rest : List Bool} (ht : s.hasTile t = true) (hq : (s.tile t).encoQueue = up :: rest) :
    exec (.encoQueuedEdge t) s = .next ((s.modTile t fun tl => { tl with encoQueue := rest }).encoEdge t up) := by
  change execEncoQueuedEdge t s = _
  rw [execEncoQueuedEdge, onTile_of t s _ ht, hq]

end divided

/-- Settles O26: the pending change is the event of the direction record, and the queued edge is one edge of the divided output. -/
theorem directionEventsAndTheDividedOutput : Obligations.DirectionEventsAndTheDividedOutput := by
  unfold Obligations.DirectionEventsAndTheDividedOutput
  refine fun s t ht => ⟨fun a hh => ⟨directionEventHoldoff_idle ht hh, fun hp => ?reported⟩, fun up rest hq => ?queued⟩
  case reported =>
    rw [directionEventHoldoff_pending ht hh hp, State.dirEvent, State.fb_modFb]
  case queued =>
    rw [exec_encoQueuedEdge ht hq, State.encoEdge, State.tile_modTile_self]
    cases up <;> simp [State.modTile_modTile, State.now]

end Sys2Proof.Machine
end

section
/-!
PROOFS. The absolute word: accepted as the position, or discarded (R84, R86, R87, R89).
-/

namespace Sys2Proof.Machine

section ssi

variable {s : State} {t : TileId} {a : AxisId} {bits now : Nat} {ok : Bool} {l : Int}

/-! ### What a completed word does (R84, R87) -/

/-- The state in which the word under way is over. -/
def State.wordOver (s : State) (t : TileId) (a : AxisId) (now : Nat) : State :=
  (s.at now).modFb t a fun f => { f with ssiLatch := none, ssiIdleBad := false }

/-- A word passes the checks that need no word before it: its frame, its idle level, its parity and its error bit. -/
def State.wordSound (s : State) (t : TileId) (a : AxisId) (bits : Nat) (ok : Bool) : Bool :=
  ok && !(s.axis t a).fb.ssiIdleBad && ((s.tile t).ssiDecode a bits).2

/-- With no word accepted before, a sound word is accepted and any other discarded. -/
theorem exec_ssiWordComplete (ht : s.hasTile t = true) (hu : (s.tile t).used a = true) (hs : (s.tile t).parA a 0x08 10 ≠ 0)
    (hl : (s.axis t a).fb.ssiLatch = some l) (hn : (s.axis t a).fb.ssiLast = none) : ∃ since,
    exec (.ssiWordComplete t a bits ok now) s = .next (if s.wordSound t a bits ok then
      (s.wordOver t a now).ssiAccept t a ((s.tile t).ssiDecode a bits).1 l (s.axis t a).fb.ssiLatchAt
    else (s.wordOver t a now).ssiDiscard t a since) := by
  have near (pos : Int) : (s.tile t).ssiNear a pos = true := by
    have first : ((s.tile t).ax.get a).fb.ssiLast = none := hn
    rw [Tile.ssiNear, first]
  have latch : ((s.tile t).ax.get a).fb.ssiLatch = some l := hl
  refine ⟨(s.axis t a).fb.ssiLatchAt - (s.axis t a).fb.ssiLastAt, ?_⟩
  change execSsiWordComplete t a bits ok now s = _
  rw [execSsiWordComplete, onTile_of t s _ ht]
  simp only [State.tile_at, latch, hu, hs, near, Bool.not_true, decide_false, Bool.or_false, Bool.false_eq_true, if_false, Bool.and_true]
  rfl

/-! ### A word accepted (R87) -/

/-- Of the absolute word nothing differs. -/
structure Feedback.SameWord (f g : Feedback) : Prop where
  last   : g.ssiLast = f.ssiLast
  lastAt : g.ssiLastAt = f.ssiLastAt
  latch  : g.ssiLatch = f.ssiLatch
  run    : g.ssiRun = f.ssiRun

theorem sameWord_ite {c : Prop} [Decidable c] {f : Feedback} {x y : State} (hx : Feedback.SameWord f (x.axis t a).fb)
    (hy : Feedback.SameWord f (y.axis t a).fb) : Feedback.SameWord f ((if c then x else y).axis t a).fb := by
  split
  · exact hx
  · exact hy

theorem sameWord_dirUpdate (s : State) (t : TileId) (a : AxisId) :
    Feedback.SameWord (s.axis t a).fb ((s.dirUpdate t a).axis t a).fb := by
  unfold State.dirUpdate
  refine sameWord_ite (sameWord_ite ?_ ?_) ?_
  case refine_2 => rw [(told_dirEvent (.refl _)).axis, State.fb_modFb]; exact ⟨rfl, rfl, rfl, rfl⟩
  all_goals rw [State.fb_modFb]; exact ⟨rfl, rfl, rfl, rfl⟩

/-- The feedback of an axis without quadrature with a word accepted, the direction not yet judged. -/
def Feedback.accepted (f : Feedback) (pos : Int) (latched : Nat) (causes : List Nat) : Feedback :=
  { f with ssiLast := some pos, ssiRun := 0, ssiWindow := (false :: f.ssiWindow).take 1000, ssiLastAt := latched
           u := 0, causes := causes, pos := wrap32 pos }

/-- Outside a homing run a word accepted on an axis without quadrature is its position. -/
theorem ssiAccept_position {pos latched : Int} {instant : Nat} (hq : (s.tile t).parA a 0x08 0 = 0)
    (hh : (s.axis t a).mo.homeStage = none) : ∃ causes,
    s.ssiAccept t a pos latched instant = (s.modFb t a (·.accepted pos instant causes)).dirUpdate t a := by
  have stage : ((s.tile t).ax.get a).mo.homeStage = none := hh
  have homing : (none == some HomeStage.absolute) = false := rfl
  unfold State.ssiAccept
  simp only [hq, stage, homing, bne_self_eq_false, Bool.false_and, Bool.false_eq_true, if_false, Bool.not_false, if_true]
  split
  · refine ⟨(s.axis t a).fb.causes.filter (· != 2), congrArg (State.dirUpdate · t a) ?_⟩
    simp only [State.uClear, State.causeCleared, State.modFb, State.modAxis_modAxis]
    exact State.modAxis_congr rfl
  · refine ⟨((s.axis t a).fb.causes.filter (· != 2)).filter (· != 6), congrArg (State.dirUpdate · t a) ?_⟩
    simp only [State.uClear, State.causeCleared, State.modFb, State.modAxis_modAxis]
    exact State.modAxis_congr rfl

/-! ### A word discarded (R87, R89) -/

/-- The axis with a word discarded. -/
def Axis.discarded (x : Axis) : Axis :=
  { x with fb := { x.fb with ssiRun := x.fb.ssiRun + 1, ssiWindow := (true :: x.fb.ssiWindow).take 1000 }
           pa := { x.pa with clean := false } }

/-- On an axis with quadrature a discarded word leaves u; the third in a row is an SSI fault, and with few discards before it the window
gives none. -/
theorem ssiDiscard_eq {since : Nat} (hq : (s.tile t).parA a 0x08 0 ≠ 0) (hu : (s.axis t a).fb.u ≤ (s.tile t).parA a 0x08 3)
    (hc : (s.axis t a).fb.ssiWindow.count true < 8) : s.ssiDiscard t a since =
      if 2 ≤ (s.axis t a).fb.ssiRun then (s.modAxis t a Axis.discarded).positionLost t a 6 else s.modAxis t a Axis.discarded := by
  have quad : ((s.tile t).parA a 0x08 0 != 0) = true := bne_iff_ne.mpr hq
  have noted : ((s.modFb t a fun f => { f with ssiRun := f.ssiRun + 1, ssiWindow := (true :: f.ssiWindow).take 1000 }).notClean t a) =
      s.modAxis t a Axis.discarded := State.modAxis_modAxis ..
  have raised : (s.modAxis t a Axis.discarded).uRaise t a 0 = s.modAxis t a Axis.discarded := by
    have within : ¬ (((s.modAxis t a Axis.discarded).axis t a).fb.u : Int) > (s.tile t).parA a 0x08 3 := by
      rw [State.axis_modAxis]
      exact not_lt.mpr hu
    have same : ((s.modAxis t a Axis.discarded).modFb t a fun f => { f with u := f.u + 0 }) = s.modAxis t a Axis.discarded :=
      State.modAxis_modAxis ..
    rw [State.uRaise, same, parA_modAxis a _ rfl, decide_eq_false within, if_neg Bool.false_ne_true]
  have few : ((true :: (s.axis t a).fb.ssiWindow).take 1000).count true ≤ 8 :=
    ((List.take_sublist 1000 _).count_le true).trans (by rw [List.count_cons_self]; exact hc)
  have bad : ((s.modAxis t a Axis.discarded).axis t a).fb.ssiBad = decide (2 ≤ (s.axis t a).fb.ssiRun) := by
    rw [State.axis_modAxis, Feedback.ssiBad, Axis.discarded, decide_eq_false (not_lt.mpr few), Bool.or_false]
    exact decide_eq_decide.mpr Nat.succ_le_succ_iff
  rw [State.ssiDiscard, noted, quad, Bool.true_or, if_pos rfl, raised, bad]
  simp only [decide_eq_true_eq]

/-- A loss leaves the pass, and the feedback but for what it marks. -/
theorem axis_positionLost {c : Nat} (hu : (s.tile t).used a = true) : ((s.positionLost t a c).axis t a).pa = (s.axis t a).pa ∧
    (((s.positionLost t a c).axis t a).fb = (s.axis t a).fb ∨
      ((s.positionLost t a c).axis t a).fb = (s.axis t a).fb.lost c (c == 5 && (s.tile t).motor a == 0)) := by
  cases hc : (s.axis t a).fb.causes.contains c
  case false =>
    have told := told_positionLost hu hc
    refine ⟨?_, .inr (by rw [told.axis, fb_loses])⟩
    rw [told.axis]
    unfold State.loses
    simp only [engineTrip_eq, State.ite_modDoor, State.ite_modMo]
    simp only [State.axis_modDoor, State.modMo, State.modFb, State.axis_modAxis]
  case true =>
    have same : (s.positionLost t a c).axis t a = s.axis t a := by
      unfold State.positionLost
      simp only [hu, hc, Bool.not_true, Bool.false_eq_true, if_false, if_true, State.ite_modDoor, State.axis_modDoor]
    rw [same]
    exact ⟨rfl, .inl rfl⟩

/-- A third discarded word in a row loses a position that cause 6 had not lost yet. -/
theorem discarded_loses (hu : (s.tile t).used a = true) (hc : (s.axis t a).fb.causes.contains 6 = false) :
    s.LosesPosition ((s.modAxis t a Axis.discarded).positionLost t a 6) t a 6 := by
  refine losesPosition_of_modAxis rfl rfl rfl (positionLost_loses ?_ ?_)
  · rw [used_modAxis, hu]
  · rw [State.axis_modAxis]
    exact hc

/-- The word accepted is the position, with u 0, and the run of discarded words is over; the reference and the other axes stand. -/
theorem ssiAccept_reads {pos latched : Int} {instant : Nat} (hq : (s.tile t).parA a 0x08 0 = 0) (hh : (s.axis t a).mo.homeStage = none) :
    let s' := s.ssiAccept t a pos latched instant
    ((s'.axis t a).fb.pos = wrap32 pos ∧ (s'.axis t a).fb.ssiLastAt = instant ∧ (s'.axis t a).fb.ssiLast = some pos ∧
      (s'.axis t a).fb.u = 0 ∧ (s'.axis t a).fb.ssiRun = 0 ∧ (s'.axis t a).fb.ssiLatch = (s.axis t a).fb.ssiLatch ∧
      (s'.axis t a).fb.referenced = (s.axis t a).fb.referenced) ∧ ∀ b, b ≠ a → s'.axis t b = s.axis t b := by
  obtain ⟨causes, position⟩ := ssiAccept_position (pos := pos) (latched := latched) (instant := instant) hq hh
  have turned := turned_dirUpdate (s.modFb t a (·.accepted pos instant causes)) t a
  have word := sameWord_dirUpdate (s.modFb t a (·.accepted pos instant causes)) t a
  have taken := State.fb_modFb s t a (·.accepted pos instant causes)
  rw [position]
  refine ⟨⟨turned.pos.trans ?_, word.lastAt.trans ?_, word.last.trans ?_, turned.u.trans ?_, word.run.trans ?_, word.latch.trans ?_,
    turned.referenced.trans ?_⟩, fun b hb => (turned.axes b hb).trans ?_⟩
  case refine_8 => rw [State.modFb, State.axis_modAxis_eq_ite, if_neg hb]
  all_goals rw [taken, Feedback.accepted]

/-- The word discarded counts, makes the pass unclean and leaves the count; what it loses is lost as the third in a row alone. -/
theorem ssiDiscard_reads {since : Nat} (hused : (s.tile t).used a = true) (hq : (s.tile t).parA a 0x08 0 ≠ 0)
    (hu : (s.axis t a).fb.u ≤ (s.tile t).parA a 0x08 3) (hc : (s.axis t a).fb.ssiWindow.count true < 8) :
    let s' := s.ssiDiscard t a since
    ((s'.axis t a).fb.ssiRun = (s.axis t a).fb.ssiRun + 1 ∧
      (s'.axis t a).fb.ssiWindow = (true :: (s.axis t a).fb.ssiWindow).take 1000 ∧
      (s'.axis t a).fb.ssiLatch = (s.axis t a).fb.ssiLatch ∧ (s'.axis t a).pa.clean = false ∧
      (s'.axis t a).fb.pos = (s.axis t a).fb.pos) ∧
    ((s.axis t a).fb.ssiRun < 2 → (s'.axis t a).fb.referenced = (s.axis t a).fb.referenced) ∧
    ((s.axis t a).fb.ssiRun ≥ 2 → (s.axis t a).fb.causes.contains 6 = false → s.LosesPosition s' t a 6) := by
  rw [ssiDiscard_eq hq hu hc]
  dsimp only
  split
  case isTrue third =>
    refine ⟨?_, fun few => absurd third (not_le.mpr few), fun _ => discarded_loses hused⟩
    obtain ⟨pass, same | lost⟩ := axis_positionLost (c := 6) ((used_modAxis a Axis.discarded).trans hused)
    · rw [pass, same, State.axis_modAxis]
      exact ⟨rfl, rfl, rfl, rfl, rfl⟩
    · rw [pass, lost, State.axis_modAxis]
      exact ⟨rfl, rfl, rfl, rfl, rfl⟩
  case isFalse few =>
    refine ⟨?_, fun _ => ?_, fun third => absurd third few⟩
    all_goals rw [State.axis_modAxis]
    · exact ⟨rfl, rfl, rfl, rfl, rfl⟩
    · rfl

end ssi

/-- Settles O25: a sound first word is accepted as the position, and any other is discarded, which the third time in a row loses it. -/
theorem ssiWordsAreAcceptedOrDiscarded : Obligations.SsiWordsAreAcceptedOrDiscarded := by
  unfold Obligations.SsiWordsAreAcceptedOrDiscarded
  intro s t a bits ok l now ht hu hs hl hn hh
  obtain ⟨since, runs⟩ := exec_ssiWordComplete (bits := bits) (now := now) (ok := ok) ht hu hs hl hn
  have ended : (s.wordOver t a now).axis t a =
      { s.axis t a with fb := { (s.axis t a).fb with ssiLatch := none, ssiIdleBad := false } } := State.axis_modAxis ..
  have par (row : Nat) : ((s.wordOver t a now).tile t).parA a 0x08 row = (s.tile t).parA a 0x08 row :=
    parA_modAxis (s := s.at now) a _ rfl 0x08 row 0
  refine ⟨fun hq hok hi hd => ?accepted, fun hq hbad hmax hw => ?discarded⟩
  case accepted =>
    have sound : s.wordSound t a bits ok = true := by rw [State.wordSound, hok, hi, hd]; rfl
    rw [if_pos sound] at runs
    obtain ⟨⟨pos, lastAt, last, u, run, latch, referenced⟩, axes⟩ := ssiAccept_reads (s := s.wordOver t a now)
      (pos := ((s.tile t).ssiDecode a bits).1) (latched := l) (instant := (s.axis t a).fb.ssiLatchAt)
      ((par 0).trans hq) (by rw [ended]; exact hh)
    rw [ended] at latch referenced
    refine ⟨_, runs, pos, lastAt, last, u, run, latch, referenced, fun b hb => (axes b hb).trans ?_⟩
    rw [State.wordOver, State.modFb, State.axis_modAxis_eq_ite, if_neg hb]
    rfl
  case discarded =>
    have unsound : ¬ s.wordSound t a bits ok = true := by
      rw [State.wordSound]
      rcases hbad with h | h | h <;> simp [h]
    rw [if_neg unsound] at runs
    obtain ⟨⟨run, window, latch, clean, pos⟩, kept, lost⟩ := ssiDiscard_reads (s := s.wordOver t a now) (since := since)
      ((used_modAxis a _).trans hu) (by rw [par]; exact hq) (by rw [par, ended]; exact hmax) (by rw [ended]; exact hw)
    rw [ended] at run window latch pos kept lost
    exact ⟨_, runs, run, window, latch, clean, pos, kept, fun third hc =>
      losesPosition_of_modAxis (s := s.at now) rfl rfl rfl (lost third hc)⟩

end Sys2Proof.Machine
end

section
/-!
PROOFS. What follows a write of parameters at once leaves of what is written (R92, R332).
-/

namespace Sys2Proof.Machine

/-- What CFG_WRITE writes of a tile: its parameters, and the set-up of the divided encoder output. -/
def State.setup (s : State) (u : TileId) : SMap × Option AxisId × Nat × Nat :=
  ((s.tile u).written, (s.tile u).encoSrc, (s.tile u).encoN, (s.tile u).encoM)

section setup

variable {s s' : State} {t u : TileId}

theorem State.Told.setup (h : State.Told s s') : s'.setup u = s.setup u := by
  rw [State.setup, h.tiles u, State.setup]

theorem State.Told.written (h : State.Told s s') (u : TileId) : (s'.tile u).written = (s.tile u).written :=
  congrArg Prod.fst (h.setup (u := u))

theorem setup_modTile {f : Tile → Tile} (hf : ∀ x, (f x).written = x.written ∧ (f x).encoSrc = x.encoSrc ∧ (f x).encoN = x.encoN ∧
    (f x).encoM = x.encoM) : (s.modTile t f).setup u = s.setup u := by
  obtain ⟨written, src, n, m⟩ := hf (s.tile u)
  rw [State.setup, State.tile_modTile]
  split
  · rw [written, src, n, m, State.setup]
  · rfl

@[simp] theorem setup_modHead {f : Head → Head} : (s.modHead f).setup u = s.setup u := rfl

@[simp] theorem setup_modTime {f : TimeBase → TimeBase} : (s.modTime f).setup u = s.setup u := rfl

@[simp] theorem setup_modCwy {f : Causeway → Causeway} : (s.modCwy f).setup u = s.setup u := rfl

@[simp] theorem setup_modEth {p : EthPort} {f : EthPortState → EthPortState} : (s.modEth p f).setup u = s.setup u := rfl

@[simp] theorem setup_emit {o : Output} : (s.emit o).setup u = s.setup u := rfl

@[simp] theorem setup_modField {f : FieldDie → FieldDie} : (s.modField t f).setup u = s.setup u :=
  setup_modTile fun _ => ⟨rfl, rfl, rfl, rfl⟩

@[simp] theorem setup_modCan {c : Fin 2} {f : CanCtl → CanCtl} : (s.modCan t c f).setup u = s.setup u :=
  setup_modTile fun _ => ⟨rfl, rfl, rfl, rfl⟩

@[simp] theorem setup_modBuf {c : Fin 2} {b : Fin 64} {f : CanBuffer → CanBuffer} : (s.modBuf t c b f).setup u = s.setup u := setup_modCan

@[simp] theorem setup_raise {code : Nat} {data : List Byte} {logged : Bool} {src : Option Source} :
    (s.raise t code data logged src).setup u = s.setup u := (told_raise (.refl s)).setup

@[simp] theorem setup_raiseHead {code : Nat} {data : List Byte} {logged : Bool} : (s.raiseHead code data logged).setup u = s.setup u :=
  (told_raiseHead (.refl s)).setup

@[simp] theorem setup_complete {h : HostCmd} {op status detail : Nat} {result : List Byte} :
    (s.complete h op status detail result).setup u = s.setup u := (told_complete (.refl s)).setup

@[simp] theorem setup_configRecord {h : Option HostCmd} {op status : Nat} {before after entries : List Byte} :
    (s.configRecord t h op status before after entries).setup u = s.setup u := (told_configRecord (.refl s)).setup

@[simp] theorem setup_each {α : Type} {l : List α} {f : State → α → State} (hf : ∀ s a, (f s a).setup u = s.setup u) :
    (s.each l f).setup u = s.setup u := State.each_keeps (g := fun s => s.setup u) hf l s

@[simp] theorem setup_ite {c : Prop} [Decidable c] : (if c then s else s').setup u = if c then s.setup u else s'.setup u :=
  apply_ite (State.setup · u) ..

/-! ### Time (R246, R249, R253) -/

@[simp] theorem setup_setRec {st : RecState} : (s.setRec st).setup u = s.setup u := by simp [State.setRec]

@[simp] theorem setup_selectMaster : s.selectMaster.setup u = s.setup u := by
  unfold State.selectMaster
  split
  · simp
  · dsimp only
    split <;> simp

@[simp] theorem setup_ptpOff : s.ptpOff.setup u = s.setup u := by simp [State.ptpOff]

@[simp] theorem setup_ringSyncNote : s.ringSyncNote.setup u = s.setup u := by simp [State.ringSyncNote]

/-! ### The Causeway node (R262, R271) -/

@[simp] theorem setup_setCwy {st : CwyState} : (s.setCwy st).setup u = s.setup u := by simp [State.setCwy]

/-- The rows taken into force at an entry to LISTEN stand as written. -/
@[simp] theorem setup_cwyListen : s.cwyListen.setup u = s.setup u := by
  unfold State.cwyListen
  rw [setup_setCwy, setup_modCwy]
  exact setup_modTile fun _ => ⟨rfl, rfl, rfl, rfl⟩

@[simp] theorem setup_cwyRewritten : s.cwyRewritten.setup u = s.setup u := by
  unfold State.cwyRewritten
  split <;> simp

@[simp] theorem setup_cwySwitch : s.cwySwitch.setup u = s.setup u := by simp [State.cwySwitch]

/-! ### The CAN controllers (R284, R287 to R291) -/

@[simp] theorem setup_canDone {cmd : Option HostCmd} {status : Nat} {gen : BitVec 4} {ts : Word} :
    (s.canDone cmd status gen ts).setup u = s.setup u := by
  unfold State.canDone
  split <;> simp

@[simp] theorem setup_canCount {c : Fin 2} {f : CanCtl → CanCtl} : (s.canCount t c f).setup u = s.setup u := by
  simp [State.canCount, State.canStateEvent]

@[simp] theorem setup_canAttemptOver {c : Fin 2} {b : Fin 64} {sent : Bool} : (s.canAttemptOver t c b sent).setup u = s.setup u := by
  unfold State.canAttemptOver
  dsimp only
  split <;> simp

@[simp] theorem setup_canDiscard {c : Fin 2} {b : Fin 64} : (s.canDiscard t c b).setup u = s.setup u := by
  unfold State.canDiscard
  dsimp only
  split
  · simp
  · split <;> split <;> split <;> simp

@[simp] theorem setup_canModeSet {c : Fin 2} : (s.canModeSet t c).setup u = s.setup u := by simp [State.canModeSet]

/-! ### The load switches, and all that follows (R150, R152, R332) -/

@[simp] theorem setup_lsRefresh {restart : Bool} : (s.lsRefresh t restart).setup u = s.setup u := by
  obtain ⟨ls, refreshed, -⟩ := lsRefresh_settles s t restart
  rw [refreshed, setup_modField]

theorem setup_cfgFollow {touched : List (Nat × Nat × Nat)} : (s.cfgFollow t touched).setup u = s.setup u := by
  simp [State.cfgFollow]

/-! ### The divided encoder output (R92) -/

theorem setup_encoLow : (s.encoLow t).setup u = s.setup u := by
  have low : (s.modTile t fun tl => { tl with encoA := false, encoB := false, encoQueue := [], encoAt := none }).setup u = s.setup u :=
    setup_modTile fun _ => ⟨rfl, rfl, rfl, rfl⟩
  simp [State.encoLow, low]

/-- A sound set-up is taken, whatever the outputs then do. -/
theorem setup_setEnco {src : Option AxisId} {n m : Nat} (hn : 1 ≤ n) (hm : n ≤ m) (ht : m ≤ 65535) :
    (s.setEnco t src n m).setup u = if u = t then ((s.setup u).1, src, n, m) else s.setup u := by
  have taken : (s.modTile t fun tl => { tl with encoSrc := src, encoN := n, encoM := m, encoAcc := 0 }).setup u =
      if u = t then ((s.setup u).1, src, n, m) else s.setup u := by
    rw [State.setup, State.tile_modTile]
    split <;> rfl
  unfold State.setEnco
  dsimp only
  rw [if_neg (by omega)]
  split
  case isTrue same =>
    obtain ⟨⟨rfl, rfl⟩, rfl⟩ : ((s.tile t).encoSrc = src ∧ (s.tile t).encoN = n) ∧ (s.tile t).encoM = m := by
      simpa only [Bool.and_eq_true, beq_iff_eq] using same
    split
    case isTrue e => rw [e, State.setup]
    case isFalse => rfl
  case isFalse => simp [setup_encoLow, taken]

end setup

end Sys2Proof.Machine
end

section
/-!
PROOFS. CFG_WRITE and CFG_READ: a set of parameters refused or taken whole, the filter block of a CAN controller, and what a read answers
(R7, R85, R92, R329 to R333, R406).
-/

namespace Sys2Proof.Machine

/-! ### The rules on an axis (R85, R406) -/

section broken

variable {p : Tile} {a : AxisId}

/-- More than 250 mV at i_max breaks the rule of R406. -/
theorem mem_axisBroken_voltage (h : 250000 < p.parAN a 0x04 3 * p.parAN a 0x04 4) : 406 ∈ p.axisBroken a :=
  List.mem_append_right _ (by rw [if_pos h]; exact List.mem_singleton_self 406)

/-- The rule of R85 in whole numbers is the one in seconds: the request time at clock f, with its delay in ns and its monoflop in µs, against
every so many periods of the loop rate fl. -/
theorem ssi_request_outlasts {f fl len delay tm every : Nat} (hf : 0 < f) (hl : 0 < fl)
    (h : (every : Rat) / fl < (len + 1 : Rat) / f + (delay : Rat) / 1000000000 + (tm : Rat) / 1000000) :
    ¬ (len + 1) * 1000000000 * fl + (delay + 1000 * tm) * f * fl ≤ every * 1000000000 * f := by
  have hf' : (0 : Rat) < f := Nat.cast_pos.mpr hf
  have hl' : (0 : Rat) < fl := Nat.cast_pos.mpr hl
  have request : (len + 1 : Rat) / f + (delay : Rat) / 1000000000 + (tm : Rat) / 1000000 =
      ((len + 1) * 1000000000 * fl + (delay + 1000 * tm) * f * fl) / (1000000000 * f * fl) := by
    field_simp
    ring
  have budget : (every : Rat) / fl = every * 1000000000 * f / (1000000000 * f * fl) := by
    field_simp
  rw [request, budget, div_lt_div_iff_of_pos_right (by positivity)] at h
  exact not_le.mpr (by exact_mod_cast h)

theorem mem_axisBroken_ssi (hf : 0 < p.parAN a 0x08 15) (hl : 0 < p.parAN a 0x05 1)
    (h : (p.parAN a 0x08 18 : Rat) / p.parAN a 0x05 1 <
      (p.parAN a 0x08 11 + 1 : Rat) / p.parAN a 0x08 15 + (p.parAN a 0x08 16 : Rat) / 1000000000 +
        (p.parAN a 0x08 17 : Rat) / 1000000) : 85 ∈ p.axisBroken a :=
  List.mem_append_left _ (List.mem_append_right _ (by
    dsimp only
    rw [if_neg (ssi_request_outlasts hf hl h)]
    exact List.mem_singleton_self 85))

theorem mem_setBroken (s : State) (t : TileId) {tables : List Nat} {r : Nat} (h : r ∈ p.axisBroken a) : r ∈ s.setBroken t p tables := by
  have axis : r ∈ AxisId.all.flatMap p.axisBroken := List.mem_flatMap.mpr ⟨a, by cases a <;> decide, h⟩
  unfold State.setBroken
  simp only [List.append_assoc]
  exact List.mem_append_left _ axis

end broken

/-! ### CFG_WRITE of entries (R7, R92, R329 to R332) -/

/-- The values that the entries give to rows, other than the fallback image and the divided output. -/
def State.cfgVals (s : State) (h : HostCmd) (es : List (Nat × CfgEntry)) : List (Nat × Int) :=
  es.filterMap fun x => match cfgRow x.2.param x.2.index with
    | some r => if x.2.param = imageParam || x.2.enco.isSome then none else some (s.cfgKey h x.2.param x.2.index, r.decode x.2.value.toNat)
    | none => none

/-- The parameters of the tile with those values in place. -/
def State.cfgSet (s : State) (h : HostCmd) (es : List (Nat × CfgEntry)) : Tile := (s.tile h.tile).prospect (s.cfgVals h es)

/-- The refusals of the entries, each for itself. -/
def State.ownRefusals (s : State) (h : HostCmd) (es : List (Nat × CfgEntry)) : List CfgRefusal :=
  es.flatMap (fun x => s.entryRefusals h x.1 x.2) ++ duplicateRefusals es

/-- The refusals of the set that the entries would give. -/
def State.setRefusals (s : State) (h : HostCmd) (es : List (Nat × CfgEntry)) : List CfgRefusal :=
  (s.setBroken h.tile (s.cfgSet h es) (es.map fun (x : Nat × CfgEntry) => x.2.param.toNat / 256) ++
    if ((s.tile h.tile).encoSetup es).2.1 ≤ ((s.tile h.tile).encoSetup es).2.2 then [] else [92]).map fun r => (0x14, r, 0xFF)

/-- The refusals of the command: those of the set stand where no refusal of an entry has its status or a lower one. -/
def State.cfgRefusals (s : State) (h : HostCmd) (es : List (Nat × CfgEntry)) : List CfgRefusal :=
  s.ownRefusals h es ++ if (s.ownRefusals h es).any (fun r => r.1 ≤ 0x14) then [] else s.setRefusals h es

section entries

variable {s : State} {h : HostCmd} {entries : Vector CfgEntry 5} (hd : s.Due h 0x10) (ha : (s.tile h.tile).triadActs = true)

/-- A set that breaks a rule is refused, by this rule or another. -/
theorem cfgRefusals_ne_nil {es : List (Nat × CfgEntry)} (hs : s.setRefusals h es ≠ []) : s.cfgRefusals h es ≠ [] := by
  unfold State.cfgRefusals
  split
  case isTrue own =>
    intro none
    rw [List.append_nil] at none
    rw [none] at own
    exact absurd own (by decide)
  case isFalse => exact fun none => hs (List.append_eq_nil_iff.mp none).2

theorem setRefusals_ne_nil {es : List (Nat × CfgEntry)} {a : AxisId} (hb : ∃ r, r ∈ (s.cfgSet h es).axisBroken a) :
    s.setRefusals h es ≠ [] := by
  obtain ⟨r, broken⟩ := hb
  exact List.ne_nil_of_mem (List.mem_map_of_mem (List.mem_append_left _ (mem_setBroken s h.tile broken)))

/-- Entries that break nothing, in a set that breaks nothing, are not refused. -/
theorem cfgRefusals_eq_nil {es : List (Nat × CfgEntry)} (ho : (es.flatMap fun x => s.entryRefusals h x.1 x.2) = [])
    (hdup : duplicateRefusals es = []) (hs : s.setBroken h.tile (s.cfgSet h es) (es.map fun x => x.2.param.toNat / 256) = [])
    (he : ((s.tile h.tile).encoSetup es).2.1 ≤ ((s.tile h.tile).encoSetup es).2.2) : s.cfgRefusals h es = [] := by
  rw [State.cfgRefusals, State.ownRefusals, State.setRefusals, ho, hdup, hs, if_pos he]
  rfl

include hd ha

/-- A refused write only tells. -/
theorem cfgWriteEntries_refused (hr : s.cfgRefusals h (usedEntries entries) ≠ []) :
    ∃ s', exec (.cfgWriteEntries h entries) s = .next s' ∧ State.Told s s' := by
  obtain ⟨r, refused⟩ : ∃ r, lowestRefusal (s.cfgRefusals h (usedEntries entries)) = some r :=
    Option.ne_none_iff_exists'.mp fun none => hr (lowestRefusal_none none)
  have runs : exec (.cfgWriteEntries h entries) s = .next ((if r.1 = 0x13 || r.1 = 0x16 then
      s.configRecord h.tile (some h) 0x10 r.1 [] [] (s.configEntries h (usedEntries entries)) else s).complete h 0x10 r.1 r.2.1
        (if r.1 = 0x14 then leBytes 1 r.2.2 else [])) := by
    change execCfgWriteEntries h entries s = _
    rw [execCfgWriteEntries, onCmd_of_due hd]
    simp only [ha, Bool.not_true, Bool.false_eq_true, if_false]
    generalize given : lowestRefusal _ = answer
    obtain rfl : answer = some r := given.symm.trans refused
    rfl
  exact ⟨_, runs, told_complete (told_ite (fun _ => told_configRecord (.refl s)) fun _ => .refl s)⟩

/-- Entries that break nothing are written together with the set-up of the divided output, on their tile alone. -/
theorem cfgWriteEntries_written (hr : s.cfgRefusals h (usedEntries entries) = [])
    (hn : 1 ≤ ((s.tile h.tile).encoSetup (usedEntries entries)).2.1)
    (hm : ((s.tile h.tile).encoSetup (usedEntries entries)).2.1 ≤ ((s.tile h.tile).encoSetup (usedEntries entries)).2.2)
    (ht : ((s.tile h.tile).encoSetup (usedEntries entries)).2.2 ≤ 65535) :
    ∃ s', exec (.cfgWriteEntries h entries) s = .next s' ∧ ∀ u, s'.setup u = if u = h.tile then
      ((s.cfgSet h (usedEntries entries)).written, (s.tile h.tile).encoSetup (usedEntries entries))
    else s.setup u := by
  change ∃ s', execCfgWriteEntries h entries s = _ ∧ _
  rw [execCfgWriteEntries, onCmd_of_due hd]
  simp only [ha, Bool.not_true, Bool.false_eq_true, if_false]
  generalize given : lowestRefusal _ = answer
  obtain rfl : answer = none := given.symm.trans (congrArg lowestRefusal hr)
  refine ⟨_, rfl, fun u => ?_⟩
  rw [setup_cfgFollow, setup_complete, setup_setEnco hn hm ht, setup_configRecord]
  have put (f : Tile → Tile) (hf : ∀ x, (f x).written = (s.cfgSet h (usedEntries entries)).written) :
      (if u = h.tile then (((s.modTile h.tile f).setup u).1, (s.tile h.tile).encoSetup (usedEntries entries))
        else (s.modTile h.tile f).setup u) =
      if u = h.tile then ((s.cfgSet h (usedEntries entries)).written,
        (s.tile h.tile).encoSetup (usedEntries entries)) else s.setup u := by
    rw [State.setup, State.tile_modTile]
    split
    · rw [hf]
    · rfl
  generalize List.find? _ (usedEntries entries) = image
  cases image with
  | none => exact put _ fun _ => rfl
  | some e =>
    dsimp only
    rw [setup_modField]
    exact put _ fun _ => rfl

end entries

/-! ### The filter block of a CAN controller (R284, R333) -/

/-- Buffers changed one after another, each by its own change. -/
theorem bufs_foldl_vmod (l : List (Fin 64)) (hl : l.Nodup) (f : Fin 64 → CanBuffer → CanBuffer) (c : CanCtl) (b : Fin 64) :
    ((l.foldl (fun c k => { c with bufs := vmod c.bufs k (f k) }) c).bufs)[b] = if b ∈ l then f b (c.bufs)[b] else (c.bufs)[b] := by
  induction l generalizing c with
  | nil => rfl
  | cons k l ih =>
    obtain ⟨hk, hl⟩ := List.nodup_cons.mp hl
    rw [List.foldl_cons, ih hl, vmod_get]
    by_cases hb : k = b
    · subst hb
      simp [hk]
    · simp [hb, Ne.symm hb]

theorem bufs_refilter (c : CanCtl) (data : List Byte) (b : Fin 64) :
    ((c.refilter data).bufs)[b] = ((c.bufs)[b]).refilter (slice data (16 * b.val) 16) := by
  rw [CanCtl.refilter, bufs_foldl_vmod bufIds (List.nodup_finRange 64) fun b x => x.refilter (slice data (16 * b.val) 16)]
  exact if_pos (List.mem_finRange b)

section block

variable {s : State} {h : HostCmd} {c : Fin 2} {data : List Byte}

theorem toNat_index (c : Fin 2) : (BitVec.ofNat 8 c.val).toNat = c.val := Nat.mod_eq_of_lt (by omega)

/-- The filter block of a controller breaks a rule, or is taken. -/
theorem blockWrite_filters : s.blockWrite h 0x0F01 c.val data = if (decide (data.length ≠ 1024) || bufIds.any fun b =>
      (s.canBuf h.tile c b).sedge.isNone && !filterClean (slice data (16 * b.val) 16)) then .inl (0x14, 333) else
      .inr (s.modCan h.tile c fun x => x.refilter data, (s.canCtl h.tile c).filterBytes) := by
  unfold State.blockWrite
  simp only [c.isLt, dif_pos]
  rfl

variable (hd : s.Due h 0x10) (ha : (s.tile h.tile).triadActs = true) (hf : h.dmaFault = false)
include hd ha hf

theorem cfgWriteBlock_refused {block : BitVec 16} {index : Byte} {r : Nat × Nat} (hb : s.blockWrite h block.toNat index.toNat data = .inl r) :
    exec (.cfgWriteBlock h block index data) s = .next (s.complete h 0x10 r.1 r.2 (if r.1 = 0x14 then [0xFF] else [])) := by
  change execCfgWriteBlock h block index data s = _
  rw [execCfgWriteBlock, onCmd_of_due hd]
  simp only [ha, hf, hb, Bool.not_true, Bool.false_eq_true, if_false]

theorem cfgWriteBlock_taken {block : BitVec 16} {index : Byte} {s1 : State} {old : List Byte}
    (hb : s.blockWrite h block.toNat index.toNat data = .inr (s1, old)) :
    ∃ s', exec (.cfgWriteBlock h block index data) s = .next s' ∧ State.Told s1 s' := by
  change ∃ s', execCfgWriteBlock h block index data s = _ ∧ _
  rw [execCfgWriteBlock, onCmd_of_due hd]
  simp only [ha, hf, hb, Bool.not_true, Bool.false_eq_true, if_false]
  exact ⟨_, rfl, told_complete (told_configRecord (.refl _))⟩

theorem cfgWriteBlock_short (hl : data.length ≠ 1024) :
    exec (.cfgWriteBlock h 0x0F01 (BitVec.ofNat 8 c.val) data) s = .next (s.complete h 0x10 0x14 333 [0xFF]) := by
  refine cfgWriteBlock_refused hd ha hf (r := (0x14, 333)) ?_
  rw [toNat_index]
  exact blockWrite_filters.trans (if_pos (by rw [decide_eq_true hl, Bool.true_or]))

/-- Clean entries of the whole length set every buffer, and no parameter. -/
theorem cfgWriteBlock_filters (hl : data.length = 1024)
    (hc : ∀ b : Fin 64, (s.canBuf h.tile c b).sedge = none → filterClean (slice data (16 * b.val) 16) = true) :
    ∃ s', exec (.cfgWriteBlock h 0x0F01 (BitVec.ofNat 8 c.val) data) s = .next s' ∧
      (∀ b : Fin 64, s'.canBuf h.tile c b = (s.canBuf h.tile c b).refilter (slice data (16 * b.val) 16)) ∧
      (s'.tile h.tile).written = (s.tile h.tile).written := by
  have clean (b : Fin 64) : ((s.canBuf h.tile c b).sedge.isNone && !filterClean (slice data (16 * b.val) 16)) = false := by
    cases owner : (s.canBuf h.tile c b).sedge with
    | none => rw [hc b owner]; rfl
    | some k => rfl
  have taken : s.blockWrite h (0x0F01 : BitVec 16).toNat (BitVec.ofNat 8 c.val).toNat data =
      .inr (s.modCan h.tile c fun x => x.refilter data, (s.canCtl h.tile c).filterBytes) := by
    rw [toNat_index]
    refine blockWrite_filters.trans (if_neg ?_)
    rw [decide_eq_false (not_not.mpr hl), Bool.false_or, Bool.not_eq_true, List.any_eq_false]
    exact fun b _ => Bool.eq_false_iff.mp (clean b)
  obtain ⟨s', runs, told⟩ := cfgWriteBlock_taken hd ha hf taken
  have can : (s'.tile h.tile).can = vmod (s.tile h.tile).can c fun x => x.refilter data := by
    rw [told.tiles h.tile, State.modCan, State.tile_modTile_self]
  refine ⟨s', runs, fun b => ?_, (told.written h.tile).trans (congrArg Prod.fst (setup_modCan (u := h.tile)))⟩
  rw [State.canBuf, State.canCtl, can, vmod_get, if_pos rfl, bufs_refilter, State.canBuf, State.canCtl]

end block

/-! ### CFG_READ (R329, R330, R333) -/

section read

variable {s : State} {h : HostCmd} {addr : BitVec 64} (hd : s.Due h 0x11) (hf : h.dmaFault = false)
include hd hf

/-- One selector that names a row of the target reads as its value. -/
theorem cfgReadEntries_one {selectors : Vector CfgSelector 8} {i : Nat} {e : CfgSelector}
    (hs : (((List.range 8).zip selectors.toList).filter fun x => x.2.param != 0) = [(i, e)])
    (ht : s.cfgBadTarget h e.param e.index = false) (hr : (cfgRow e.param e.index).isSome = true) :
    exec (.cfgReadEntries h addr selectors) s = .next ((s.dma addr.toNat (leBytes 2 e.param.toNat ++ leBytes 1 e.index.toNat ++
      [0] ++ leBytes 4 (pEncode (s.cfgValue h e.param e.index)))).complete h 0x11 0 0) := by
  have row : (cfgRow e.param e.index).isNone = false := Option.isNone_eq_false_iff.mpr hr
  change execCfgReadEntries h addr selectors s = _
  rw [execCfgReadEntries, onCmd_of_due hd]
  simp only [hs, ht, row, hf, List.flatMap_singleton, Bool.false_eq_true, if_false, List.append_nil]
  rfl

/-- The fallback image is a block of eight bytes. -/
theorem exec_cfgReadBlock_image (size : Nat) : exec (.cfgReadBlock h addr 0x8006 0 size) s = .next (if size < 8 then
      s.complete h 0x11 0x14 333 [0xFF]
    else (s.dma addr.toNat (s.tile h.tile).field.imageBlock).complete h 0x11 0 0) := by
  have read : s.blockRead h (0x8006 : BitVec 16).toNat (0 : Byte).toNat = .inr (s.tile h.tile).field.imageBlock := rfl
  have length : (s.tile h.tile).field.imageBlock.length = 8 := rfl
  change execCfgReadBlock h addr 0x8006 0 size s = _
  rw [execCfgReadBlock, onCmd_of_due hd, read]
  simp only [hf, length, Bool.false_eq_true, if_false]

end read

/-- Settles O57: a rule of the set refuses it whole, and with no refusal it is written whole; a filter block is judged by its length and its
reserved bits; a read answers with the value and the block. -/
theorem parameterSetsAreTakenOrRefusedWhole : Obligations.ParameterSetsAreTakenOrRefusedWhole := by
  unfold Obligations.ParameterSetsAreTakenOrRefusedWhole
  refine ⟨fun a => ?defaults, fun s h => ⟨fun entries hd ha => ⟨?refused, ?written⟩,
    fun c data hd ha hf => ⟨cfgWriteBlock_short hd ha hf, cfgWriteBlock_filters hd ha hf⟩,
    fun addr selectors i e hd hf hs ht hr => cfgReadEntries_one hd hf hs ht hr,
    fun addr size hd hf => ⟨fun hn => ?small, fun hn => ?image⟩⟩⟩
  case defaults => cases a <;> rfl
  case refused =>
    rintro ⟨a, rule⟩
    have broken : ∃ r, r ∈ (s.cfgSet h (usedEntries entries)).axisBroken a :=
      rule.elim (fun above => ⟨406, mem_axisBroken_voltage above⟩) fun ⟨hf, hl, slow⟩ => ⟨85, mem_axisBroken_ssi hf hl slow⟩
    obtain ⟨s', runs, told⟩ := cfgWriteEntries_refused hd ha (cfgRefusals_ne_nil (setRefusals_ne_nil broken))
    exact ⟨s', runs, told.written h.tile, told.inForce h.tile, told.ax h.tile, told.field h.tile, by rw [told.head]⟩
  case written =>
    intro own duplicates set enco hn hm hu
    obtain ⟨s', runs, setup⟩ := cfgWriteEntries_written hd ha (cfgRefusals_eq_nil own duplicates set hm) hn hm hu
    have put := (setup h.tile).trans (if_pos rfl)
    exact ⟨s', runs, congrArg Prod.fst put, congrArg Prod.snd put, fun u hu => congrArg Prod.fst ((setup u).trans (if_neg hu))⟩
  case small => rw [exec_cfgReadBlock_image hd hf, if_pos hn]
  case image =>
    rw [exec_cfgReadBlock_image hd hf, if_neg (not_lt.mpr hn)]
    rfl

end Sys2Proof.Machine
end

