-- ==== Sys2Proof/Proofs/OutputCommands.lean ====
section
/-!
PROOFS. The host commands on the load-switch lines and the IO outputs: each acts on the command word of the next down-frame, or completes with
its refusal (R102, R150, R169, R197, R223, R327, R328).
-/

namespace Sys2Proof.Machine

/-! ### LSW_SET (R102, R150, R197, R327) -/

/-- The lines that LSW_SET leads: those masked, apart from the channels that follow their pin. -/
def Tile.lsLed (tl : Tile) (mask : BitVec 16) : BitVec 10 := mask.truncate 10 &&& ~~~(BitVec.ofNat 10 (tl.lsPinMask mask))

/-- LSW_SET once nothing refuses it. -/
def State.lswTaken (s : State) (h : HostCmd) (mask levels : BitVec 16) : State :=
  let tl := s.tile h.tile
  (s.modLink h.tile fun l => { l with lsCmd := (l.lsCmd &&& ~~~(tl.lsLed mask)) ||| (levels.truncate 10 &&& tl.lsLed mask) }).complete
    h 0x30 0 0 (leBytes 2 (tl.lsPinMask mask))

section lsw

variable {s : State} {h : HostCmd} {mask levels : BitVec 16} (hd : s.Due h 0x30) (hm : mask >>> 10 = 0)
include hd hm

/-- While the triad acts, LSW_SET meets its refusals in the order of R327, or is taken. -/
theorem exec_lswSet (ha : (s.tile h.tile).triadActs = true) (hl : levels >>> 10 = 0) :
    exec (.lswSet h mask levels) s = .next (
      if (s.tile h.tile).door.st = .faultSafe then s.complete h 0x30 0x10 197
      else if mask &&& (s.tile h.tile).stakeOutputs &&& 0x3FF ≠ 0 then s.complete h 0x30 0x15 102
      else if mask.getLsbD 0 = true then s.complete h 0x30 0x15 327
      else s.lswTaken h mask levels) := by
  change execLswSet h mask levels s = _
  rw [execLswSet, onCmd_of_due hd]
  simp only [hm, hl, ha, bne_self_eq_false, Bool.or_false, Bool.not_true, Bool.false_eq_true, if_false, beq_iff_eq, bne_iff_ne]
  rfl

/-- In the hold of R223 the command waits for the commit. -/
theorem exec_lswSet_held (hr : (s.tile h.tile).triadRuns = true) (hc : (s.tile h.tile).triad.mode = .confirm) (hl : levels >>> 10 = 0) :
    exec (.lswSet h mask levels) s =
      .next (s.modTriad h.tile fun tr => { tr with held := tr.held ++ [.lswSet h mask levels] }) := by
  have waits : (s.tile h.tile).triadActs = false := by rw [Tile.triadActs, hc, bne_self_eq_false, Bool.and_false]
  change execLswSet h mask levels s = _
  rw [execLswSet, onCmd_of_due hd]
  simp only [hm, hl, waits, State.holdBack, hr, bne_self_eq_false, Bool.or_false, Bool.not_false, Bool.false_eq_true, if_false, if_true]

theorem exec_lswSetClear (ha : (s.tile h.tile).triadActs = true) (hl : levels = 0) :
    exec (.lswSetClear h mask levels) s =
      .next ((s.modLink h.tile fun l => { l with lsClear := l.lsClear ||| mask.truncate 10 }).complete h 0x30 0 0
        (leBytes 2 ((s.tile h.tile).lsPinMask mask))) := by
  change execLswSetClear h mask levels s = _
  rw [execLswSetClear, onCmd_of_due hd]
  simp only [hm, hl, ha, bne_self_eq_false, Bool.not_true, Bool.false_eq_true, if_false]

end lsw

/-! ### IO_SET (R102, R169, R197, R327) -/

/-- Every masked pin is an output that carries no role. -/
def Tile.FreeOutputs (tl : Tile) (mask : BitVec 16) : Prop :=
  ∀ p : Fin 16, mask.getLsbD p.val = true → tl.isOut p.val = true ∧ tl.hasRole p.val = false

theorem Tile.FreeOutputs.none_refused {tl : Tile} {mask : BitVec 16} (hp : tl.FreeOutputs mask) :
    (ioPins.any fun p => mask.getLsbD p.val && (!tl.isOut p.val || tl.hasRole p.val)) = false := by
  refine List.any_eq_false.mpr fun p _ => ?_
  cases masked : mask.getLsbD p.val with
  | false => simp
  | true => simp [hp p masked]

section io

variable {s : State} {h : HostCmd} {mask levels : BitVec 16} (hd : s.Due h 0x31) (ha : (s.tile h.tile).triadActs = true)
include hd ha

/-- On outputs that carry no role, IO_SET meets its refusals in the order of R327, or is taken. -/
theorem exec_ioSet (hp : (s.tile h.tile).door.st ≠ .faultSafe → (s.tile h.tile).FreeOutputs mask) :
    exec (.ioSet h mask levels) s = .next (
      if (s.tile h.tile).door.st = .faultSafe then s.complete h 0x31 0x10 197
      else if mask &&& (s.tile h.tile).stakeOutputs &&& 0xFC00 ≠ 0 then s.complete h 0x31 0x15 102
      else (s.modLink h.tile fun l => { l with ioCmd := (l.ioCmd &&& ~~~mask) ||| (levels &&& mask) }).complete h 0x31 0 0) := by
  change execIoSet h mask levels s = _
  rw [execIoSet, onCmd_of_due hd]
  simp only [ha, Bool.not_true, Bool.false_eq_true, if_false, beq_iff_eq, bne_iff_ne]
  by_cases safe : (s.tile h.tile).door.st = .faultSafe
  · rw [if_pos safe, if_pos safe]
  · rw [if_neg safe, if_neg safe, (hp safe).none_refused, if_neg Bool.false_ne_true]

theorem exec_ioSetClear (hl : levels = 0) : exec (.ioSetClear h mask levels) s =
    .next ((s.modLink h.tile fun l => { l with ioClear := l.ioClear ||| mask }).complete h 0x31 0 0) := by
  change execIoSetClear h mask levels s = _
  rw [execIoSetClear, onCmd_of_due hd]
  simp only [ha, hl, bne_self_eq_false, Bool.not_true, Bool.false_eq_true, if_false]

end io

/-! ### IO_READ (R328) -/

theorem exec_ioRead {s : State} {h : HostCmd} (hd : s.Due h 0x32) (addr : BitVec 64) : exec (.ioRead h addr) s = .next (
    if h.dmaFault then s.complete h 0x32 0x09 0
    else (s.dma addr.toNat (padTo 64 (s.tile h.tile).ioReport)).complete h 0x32 0 0) := by
  change execIoRead h addr s = _
  rw [execIoRead, onCmd_of_due hd]

/-- Settles O29: each command is its chain of refusals, of which the first that is met answers. -/
theorem outputCommandsOfTheHost : Obligations.OutputCommandsOfTheHost := by
  unfold Obligations.OutputCommandsOfTheHost
  intro s h mask levels t tl
  refine ⟨fun hd ha hm => ⟨fun hl safe free ls0 => ?taken, fun hl safe => ?faultSafe, fun hl safe free ls0 => ?lock,
      fun hl safe staked => ?staked, exec_lswSetClear hd hm ha⟩, fun hd hr hc hm hl => exec_lswSet_held hd hm hr hc hl,
    fun hd ha => ⟨fun safe hp free => ?ioTaken, fun safe => ?ioFaultSafe, fun safe hp staked => ?ioStaked, exec_ioSetClear hd ha⟩,
    fun hd addr => ⟨fun hf => ?read, fun hf => ?readFault⟩⟩
  case taken =>
    rw [exec_lswSet hd hm ha hl, if_neg safe, if_neg (not_not.mpr free), if_neg (Bool.eq_false_iff.mp ls0)]
    rfl
  case faultSafe => rw [exec_lswSet hd hm ha hl, if_pos safe]
  case lock => rw [exec_lswSet hd hm ha hl, if_neg safe, if_neg (not_not.mpr free), if_pos ls0]
  case staked => rw [exec_lswSet hd hm ha hl, if_neg safe, if_pos staked]
  case ioTaken => rw [exec_ioSet hd ha fun _ => hp, if_neg safe, if_neg (not_not.mpr free)]
  case ioFaultSafe => rw [exec_ioSet hd ha fun off => absurd safe off, if_pos safe]
  case ioStaked => rw [exec_ioSet hd ha fun _ => hp, if_neg safe, if_pos staked]
  case read => rw [exec_ioRead hd, if_neg (Bool.eq_false_iff.mp hf)]
  case readFault => rw [exec_ioRead hd, if_pos hf]

end Sys2Proof.Machine
end

