-- ==== Sys2Proof/Proofs/SelfTests.lean ====
section
/-!
PROOFS. The self-tests: what asking for them, starting a part, ending a part and the end of the waiting time leave of the parts, of the command
word of the next down-frame and of the rest of the tile (R102, R145, R146, R195, R336).
-/

namespace Sys2Proof.Machine

/-! ### Masks of the load-switch channels -/

theorem testBit_ofBits (l : List Bool) (i : Nat) : (ofBits l).testBit i = l.getD i false := by
  induction l generalizing i with
  | nil => simp [ofBits]
  | cons b l ih => cases i with
    | zero => cases b <;> simp [ofBits, Nat.testBit_zero, Nat.add_mod]
    | succ i =>
      have half : ((if b then 1 else 0) + 2 * ofBits l) / 2 = ofBits l := by split <;> omega
      rw [ofBits, Nat.testBit_succ, half, ih, List.getD_cons_succ]

/-- A mask of channels holds those that its predicate holds of. -/
@[simp] theorem getLsbD_lsMask (p : Fin 10 → Bool) (ch : Fin 10) : (lsMask p).getLsbD ch.val = p ch := by
  rw [lsMask, maskOf, BitVec.getLsbD_ofNat, testBit_ofBits, decide_eq_true ch.isLt, Bool.true_and]
  revert ch
  simp [Fin.forall_fin_succ, lsChannels]

theorem lsMask_ne_zero_iff {p : Fin 10 → Bool} : lsMask p ≠ 0 ↔ ∃ ch, p ch = true := by
  constructor
  · intro h
    by_contra none
    push Not at none
    refine h (BitVec.eq_of_getLsbD_eq fun i hi => ?_)
    rw [getLsbD_lsMask p ⟨i, hi⟩, Bool.eq_false_iff.mpr (none _)]
    exact BitVec.getLsbD_zero.symm
  · rintro ⟨ch, h⟩ zero
    rw [← getLsbD_lsMask p, zero] at h
    exact Bool.false_ne_true (BitVec.getLsbD_zero.symm.trans h)

/-! ### The parts of a self-test (R145, R146, R336) -/

theorem parts_partResult (d : Doorway) (i j : Fin 8) (code : Fin 6) (detail : BitVec 16) : ((d.partResult i code detail).parts)[j] =
    if i = j then { (d.parts)[i] with running := false, result := some code, detail := detail } else (d.parts)[j] := vmod_get ..

/-- A part that is asked for has no result yet. -/
def Doorway.testPending (d : Doorway) : Bool := d.parts.toList.any fun p => p.requested && p.result.isNone

/-- What the end of a request leaves of a tile: the parts, the faults latched, the wait for the DWELL parts, the link and the field die. -/
structure Bench where
  parts      : Vector PartState 8
  eccBad     : Bool
  latched    : List Nat
  stDwellMax : Bound
  link       : Link
  field      : FieldDie

def State.bench (s : State) (t : TileId) : Bench :=
  let tl := s.tile t
  ⟨tl.door.parts, tl.door.eccBad, tl.door.latched, tl.door.stDwellMax, tl.link, tl.field⟩

section bench

variable {s s' : State} {t : TileId}

theorem State.Told.bench (h : State.Told s s') (t : TileId) : s'.bench t = s.bench t := by
  rw [State.bench, h.door, h.link, h.field]
  rfl

theorem bench_modAxis {a : AxisId} {f : Axis → Axis} : (s.modAxis t a f).bench t = s.bench t := by cases t <;> rfl

/-- A request with a pending part stands. -/
theorem selftestFinish_pending (hp : (s.tile t).door.testPending = true) : s.selftestFinish t = s := by
  unfold State.selftestFinish
  dsimp only
  split
  · rfl
  · exact if_pos hp

/-- The end of a request is told to the host, and no part of it is left in the doorway. -/
theorem told_selftestFinish (hp : (s.tile t).door.testPending = false) :
    State.Told (s.modDoor t fun d => { d with selftest := none }) (s.selftestFinish t) := by
  unfold State.selftestFinish
  dsimp only
  split
  case h_1 asked =>
    have same : (s.modDoor t fun d => { d with selftest := none }) = s.modDoor t fun d => d :=
      State.modTile_congr s t _ _ (by dsimp only; rw [← asked])
    rw [same, State.modDoor_id]
    exact .refl s
  case h_2 =>
    refine told_ite (fun pending => absurd pending (Bool.eq_false_iff.mp hp)) fun _ => told_ite (fun _ => .refl _) fun _ => ?_
    refine told_ite (fun _ => told_complete (.refl _)) fun _ => told_complete ?_
    exact told_ite (fun _ => told_dma (.refl _)) fun _ => .refl _

theorem bench_selftestFinish : (s.selftestFinish t).bench t = s.bench t := by
  cases hp : (s.tile t).door.testPending with
  | true => rw [selftestFinish_pending hp]
  | false =>
    rw [(told_selftestFinish hp).bench, State.bench, State.door_modDoor, State.link_modDoor, State.field_modDoor]
    rfl

theorem parts_selftestFinish : ((s.selftestFinish t).tile t).door.parts = (s.tile t).door.parts := congrArg Bench.parts bench_selftestFinish

theorem ax_selftestFinish : ((s.selftestFinish t).tile t).ax = (s.tile t).ax := by
  cases hp : (s.tile t).door.testPending with
  | true => rw [selftestFinish_pending hp]
  | false => rw [(told_selftestFinish hp).ax, State.ax_modDoor]

end bench

/-! ### SELFTEST_REQUEST (R145, R146) -/

/-- The request noted, with its parts as yet without a result. -/
def State.testsAsked (s : State) (h : HostCmd) (mask : BitVec 16) (addr : BitVec 64) : State :=
  (s.markAccepted h 0x41).modDoor h.tile fun d =>
    { d with selftest := some (h, addr, mask)
             parts := ⟨⟨([0, 1, 2, 3, 4, 5, 6, 7] : List (Fin 8)).map fun i =>
               { PartState.reset with requested := mask.getLsbD i.val }⟩, rfl⟩
             stDwellMax := if mask.getLsbD 3 || mask.getLsbD 4 then .running (1000 * (s.tile h.tile).parN 0x11 8) else .idle }

/-- The IMMEDIATE parts asked for begin, and the ISOLATED parts begin where the tile is in ISOLATED, and are not run elsewhere. -/
def State.testsBegun (s : State) (h : HostCmd) (mask : BitVec 16) (addr : BitVec 64) : State :=
  let begun := (s.testsAsked h mask addr).each (([0, 1, 2] : List (Fin 8)).filter fun i => mask.getLsbD i.val) fun s i => s.partBegin h.tile i
  begun.each (([5, 6, 7] : List (Fin 8)).filter fun i => mask.getLsbD i.val) fun x i =>
    if (s.tile h.tile).door.st == .isolated then x.partBegin h.tile i else x.modDoor h.tile fun d => d.partResult i 4 0

section request

variable {s : State} {h : HostCmd} (addr : BitVec 64) (hd : s.Due h 0x41) (ha : (s.tile h.tile).triadActs = true)
  (hn : (s.tile h.tile).door.selftest = none)
include hd ha hn

theorem exec_selftestRequest {mask : BitVec 16} (hm : mask >>> 8 = 0) :
    exec (.selftestRequest h mask addr) s = .next ((s.testsBegun h mask addr).selftestFinish h.tile) := by
  change execSelftestRequest h mask addr s = _
  rw [execSelftestRequest, onCmd_of_due hd]
  simp only [hm, ha, hn, bne_self_eq_false, Bool.not_true, Bool.false_eq_true, if_false]
  rfl

/-- The two DWELL parts wait, and so does the request. -/
theorem exec_selftestRequest_dwell : exec (.selftestRequest h 0x0018 addr) s = .next (s.testsAsked h 0x0018 addr) := by
  rw [exec_selftestRequest addr hd ha hn (by decide)]
  refine congrArg Host.Outcome.next (selftestFinish_pending (s := s.testsAsked h 0x0018 addr) ?_)
  rw [State.testsAsked, State.door_modDoor]
  rfl

/-- Outside ISOLATED the part of the half-bridges has its result at once. -/
theorem exec_selftestRequest_isolated (hst : (s.tile h.tile).door.st ≠ .isolated) : exec (.selftestRequest h 0x0040 addr) s =
    .next (((s.testsAsked h 0x0040 addr).modDoor h.tile fun d => d.partResult 6 4 0).selftestFinish h.tile) := by
  rw [exec_selftestRequest addr hd ha hn (by decide), State.testsBegun, beq_eq_false_iff_ne.mpr hst]
  rfl

end request

/-! ### SELFTEST_DWELL_PART_START (R145) -/

section dwell

variable {s : State} {t : TileId}

theorem State.door_modLink (s : State) (t : TileId) (f : Link → Link) : ((s.modLink t f).tile t).door = (s.tile t).door := by
  cases t <;> rfl

/-- The channels that the on check skips: those that are on already, LS0 apart, which it never takes. -/
def Tile.onCheckSkips (tl : Tile) : BitVec 10 := lsMask fun ch => ch != 0 && (tl.field.ls[ch]).isOn

theorem partBegin_onCheck (s : State) (t : TileId) : s.partBegin t 4 =
    ((s.partStart t 4).modLink t fun l => { l with onTest := ~~~((s.tile t).onCheckSkips ||| 1) }).partMask t 4 (s.tile t).onCheckSkips := rfl

/-- The on check runs once it has begun, and no other part is touched. -/
theorem parts_partBegin_onCheck (s : State) (t : TileId) (i : Fin 8) : (((s.partBegin t 4).tile t).door.parts)[i] =
    if 4 = i then { ((s.tile t).door.parts)[(4 : Fin 8)] with
      running := true, ts := s.ts, detail := (s.tile t).onCheckSkips.setWidth 16 } else ((s.tile t).door.parts)[i] := by
  rw [partBegin_onCheck, State.partMask, State.door_modDoor, State.door_modLink, State.partStart, State.door_modDoor]
  simp only [vmod_get, if_true]
  split <;> rfl

/-- Every channel that is off, LS0 apart, goes on for the test. -/
theorem onTest_partBegin_onCheck (s : State) (t : TileId) (ch : Fin 10) : ((s.partBegin t 4).tile t).link.onTest.getLsbD ch.val =
    (ch != 0 && !((s.tile t).field.ls[ch]).isOn) := by
  rw [partBegin_onCheck, State.partMask, State.link_modDoor, State.link_modLink]
  have ls0 : (1 : BitVec 10).getLsbD ch.val = (ch == 0) := by revert ch; decide
  simp only [Tile.onCheckSkips, BitVec.getLsbD_not, BitVec.getLsbD_or, getLsbD_lsMask, ls0, ch.isLt, decide_true, bne]
  cases ch == 0 <;> simp

theorem exec_selftestDwellPartStart_onCheck (ht : s.hasTile t = true) (ha : (s.tile t).triadActs = true)
    (hs : (s.tile t).door.selftest.isSome = true) (hst : (s.tile t).door.st = .locked) (hr : (s.tile t).releaseValid = false)
    (hc : (s.tile t).door.calHolds = false) (h3 : ((s.tile t).door.parts[3]).running = false)
    (h4 : ((s.tile t).door.parts[4]).running = false) (w3 : (s.tile t).door.dwellWaits 3 = false) (w4 : (s.tile t).door.dwellWaits 4 = true) :
    exec (.selftestDwellPartStart t) s = .next ((s.partBegin t 4).modDoor t fun d => { d with stDwellMax := .idle }) := by
  change execSelftestDwellPartStart t s = _
  have r3 : ((s.tile t).door.parts[(3 : Fin 8)]).running = false := h3
  have r4 : ((s.tile t).door.parts[(4 : Fin 8)]).running = false := h4
  have asked : (s.tile t).door.selftest.isNone = false := Option.isNone_eq_false_iff.mpr hs
  have none3 : ((s.partBegin t 4).tile t).door.dwellWaits 3 = false := by
    rwa [Doorway.dwellWaits, parts_partBegin_onCheck, if_neg (by decide)]
  have none4 : ((s.partBegin t 4).tile t).door.dwellWaits 4 = false := by
    rw [Doorway.dwellWaits, parts_partBegin_onCheck, if_pos rfl, Bool.not_true, Bool.and_false]
  rw [execSelftestDwellPartStart, onTile_of t s _ ht]
  simp only [ha, asked, hst, hr, hc, r3, r4, w3, w4, none3, none4, bne_self_eq_false, Bool.not_true, Bool.and_false,
    Bool.or_false, Bool.false_and, Bool.false_eq_true, if_false, if_true]

end dwell

/-! ### The end of a part (R102, R132, R145, R146, R195, R336) -/

theorem partCode_eq_one_iff {r : PartResult} : partCode r = 1 ↔ r = .fail := by cases r <;> decide

section outcome

variable {tl : Tile} {part : Fin 8} {r : PartResult} {mask : BitVec 16}

theorem partOutcome_measured (h2 : part ≠ 2) (h4 : part ≠ 4) : tl.partOutcome part r mask = (r, mask) :=
  if_neg (not_or.mpr ⟨h2, h4⟩)

theorem partOutcome_fail_iff (h : part = 2 ∨ part = 4) :
    (tl.partOutcome part r mask).1 = .fail ↔ tl.partFailed part (tl.door.parts[part]).detail ≠ 0 := by
  rw [Tile.partOutcome, if_pos h]
  dsimp only
  split_ifs with bad
  · exact iff_of_true rfl bad
  all_goals exact iff_of_false (by decide) bad

/-- The off-state check fails on a channel checked that is open or shorted to VBAT. -/
theorem partFailed_offState_iff {skip : BitVec 16} : tl.partFailed 2 skip ≠ 0 ↔ ∃ ch : Fin 10, skip.getLsbD ch.val = false ∧
    ((tl.link.up.lsFlags[ch]).getLsbD 3 = true ∨ (tl.link.up.lsFlags[ch]).getLsbD 4 = true) := by
  rw [Tile.partFailed, lsMask_ne_zero_iff]
  simp

/-- The on check fails on a channel tested, LS0 apart, with a latch or a shutdown. -/
theorem partFailed_onCheck_iff {skip : BitVec 16} : tl.partFailed 4 skip ≠ 0 ↔ ∃ ch : Fin 10, ch ≠ 0 ∧ skip.getLsbD ch.val = false ∧
    ((tl.link.up.lsFlags[ch]).getLsbD 0 = true ∨ (tl.link.up.lsFlags[ch]).getLsbD 1 = true ∨
      (tl.link.up.lsFlags[ch]).getLsbD 2 = true) := by
  rw [Tile.partFailed, lsMask_ne_zero_iff]
  simp [and_left_comm, or_assoc]

end outcome

/-- A fault latched: its code is kept until it clears, and its event is raised once. -/
def Doorway.latches (d : Doorway) (code : Nat) : Doorway :=
  { d with latched := if d.latched.contains code then d.latched else d.latched ++ [code]
           pendingSeen := if d.pendingSeen.contains code then d.pendingSeen else d.pendingSeen ++ [code] }

theorem contains_latches (d : Doorway) (code : Nat) : (d.latches code).latched.contains code = true := by
  unfold Doorway.latches
  dsimp only
  split
  case isTrue h => exact h
  case isFalse => simp

section ends

variable {s : State} {t : TileId} {part : Fin 8} {r : PartResult}

theorem State.modDoor_modDoor (s : State) (t : TileId) (f g : Doorway → Doorway) :
    (s.modDoor t f).modDoor t g = s.modDoor t fun d => g (f d) := State.modTile_modTile ..

theorem told_latchFault {code : Nat} : State.Told (s.modDoor t fun d => d.latches code) (s.latchFault t code) := by
  unfold State.latchFault
  dsimp only
  split
  case isTrue seen =>
    have once : (s.modDoor t fun d => d.latches code) =
        s.modDoor t fun d => { d with latched := if d.latched.contains code then d.latched else d.latched ++ [code] } :=
      State.modTile_congr s t _ _ (by dsimp only; rw [Doorway.latches, if_pos seen])
    rw [once]
    exact .refl _
  case isFalse fresh =>
    have once : (s.modDoor t fun d => d.latches code) = (s.modDoor t fun d =>
        { d with latched := if d.latched.contains code then d.latched else d.latched ++ [code] }).modDoor t fun d =>
          { d with pendingSeen := d.pendingSeen ++ [code] } := by
      rw [State.modDoor_modDoor]
      exact State.modTile_congr s t _ _ (by dsimp only; rw [Doorway.latches, if_neg fresh])
    rw [once]
    exact (told_raise (.refl _)).modDoor_congr fun _ _ => rfl

/-- A scrub leaves the mark of its finding, and latches fault 0x0D where it failed. -/
theorem told_partUndo_scrub : State.Told (s.modDoor t fun d =>
    if r == .fail then { d with eccBad := true }.latches 0x0D else { d with eccBad := false }) (s.partUndo t 1 r) := by
  cases r with
  | fail =>
    have both := State.modDoor_modDoor s t (fun d => { d with eccBad := true }) fun d => d.latches 0x0D
    exact both ▸ told_latchFault
  | pass => exact .refl _
  | skipped => exact .refl _

/-- What a part set is undone without a change of the parts, of the field die or of an axis. -/
theorem partUndo_leaves : ((s.partUndo t part r).tile t).door.parts = (s.tile t).door.parts ∧
    ((s.partUndo t part r).tile t).field = (s.tile t).field ∧ ((s.partUndo t part r).tile t).ax = (s.tile t).ax := by
  by_cases scrub : part = 1
  · subst scrub
    have told := told_partUndo_scrub (s := s) (t := t) (r := r)
    rw [told.door, told.field, told.ax, State.door_modDoor, State.field_modDoor, State.ax_modDoor]
    exact ⟨by split <;> rfl, rfl, rfl⟩
  · unfold State.partUndo
    split
    case h_1 => exact absurd rfl scrub
    all_goals cases t <;> exact ⟨rfl, rfl, rfl⟩

theorem lsCmd_setLock_off : ((s.setLock t false).tile t).link.lsCmd.getLsbD ((s.tile t).lsRole 14) = false := by
  rw [State.setLock, State.setLs, State.link_modLink, if_neg Bool.false_ne_true, BitVec.getLsbD_and, BitVec.getLsbD_not, BitVec.getLsbD_ofNat,
    Nat.testBit_two_pow_self]
  simp

theorem bench_binClear {a : AxisId} {d : Dir} {n : Nat} : (s.binClear t a d n).bench t = s.bench t := by
  unfold State.binClear
  dsimp only
  split
  · rfl
  · rw [(told_raise (.refl _)).bench, bench_modAxis]

theorem bench_binsLost {bins : List (AxisId × Dir × Fin 512)} : (s.binsLost t part bins).bench t = s.bench t := by
  unfold State.binsLost
  split
  · exact State.each_keeps (g := fun s => s.bench t) (fun _ _ => bench_binClear) bins s
  · rfl

theorem binsLost_none {bins : List (AxisId × Dir × Fin 512)} (h : part = 1 → bins = []) : s.binsLost t part bins = s := by
  unfold State.binsLost
  split
  case isTrue scrub => rw [h scrub, State.each_nil]
  case isFalse => rfl

/-- A part with its result stored and with what it set undone. -/
def State.partEnded (s : State) (t : TileId) (part : Fin 8) (r : PartResult) (mask : BitVec 16) : State :=
  let out := (s.tile t).partOutcome part r mask
  (s.modDoor t fun d => d.partResult part (partCode out.1) out.2).partUndo t part out.1

theorem exec_selftestPartComplete {detail : PartFinding} (ht : s.hasTile t = true) (hr : ((s.tile t).door.parts[part]).running = true)
    (hb : (s.tile t).partBusy part = false) : exec (.selftestPartComplete t part r detail) s =
      .next (((s.partEnded t part r detail.mask).binsLost t part detail.bins).selftestFinish t) := by
  change execSelftestPartComplete t part r detail s = _
  rw [execSelftestPartComplete, onTile_of t s _ ht]
  simp only [hr, hb, Bool.not_true, Bool.or_false, Bool.false_eq_true, if_false]
  rfl

theorem part_partEnded {mask : BitVec 16} : (((s.partEnded t part r mask).tile t).door.parts)[part] =
    { ((s.tile t).door.parts)[part] with
      running := false, result := some (partCode ((s.tile t).partOutcome part r mask).1), detail := ((s.tile t).partOutcome part r mask).2 } := by
  rw [State.partEnded, partUndo_leaves.1, State.door_modDoor, parts_partResult, if_pos rfl]

theorem field_partEnded {mask : BitVec 16} : ((s.partEnded t part r mask).tile t).field = (s.tile t).field :=
  partUndo_leaves.2.1.trans (State.field_modDoor ..)

theorem ax_partEnded {mask : BitVec 16} : ((s.partEnded t part r mask).tile t).ax = (s.tile t).ax :=
  partUndo_leaves.2.2.trans (State.ax_modDoor ..)

/-- A load-switch part ends as failed exactly if a channel failed. -/
theorem result_partEnded_iff {mask : BitVec 16} (h : part = 2 ∨ part = 4) :
    ((((s.partEnded t part r mask).tile t).door.parts)[part]).result = some 1 ↔
      (s.tile t).partFailed part (((s.tile t).door.parts)[part]).detail ≠ 0 := by
  rw [part_partEnded, Option.some_inj, partCode_eq_one_iff, partOutcome_fail_iff h]

theorem scrub_partEnded {mask : BitVec 16} : ((s.partEnded t 1 r mask).tile t).door.eccBad = (r == .fail) ∧
    (r = .fail → ((s.partEnded t 1 r mask).tile t).door.latched.contains 0x0D = true) := by
  rw [State.partEnded, partOutcome_measured (by decide) (by decide)]
  rw [told_partUndo_scrub.door, State.door_modDoor]
  cases r with
  | fail => exact ⟨rfl, fun _ => contains_latches ..⟩
  | pass => exact ⟨rfl, nofun⟩
  | skipped => exact ⟨rfl, nofun⟩

theorem onTest_partEnded {mask : BitVec 16} : ((s.partEnded t 4 r mask).tile t).link.onTest = 0 :=
  congrArg Link.onTest (State.link_modLink ..)

theorem gateTest_partEnded {mask : BitVec 16} : ((s.partEnded t 6 r mask).tile t).link.gateTest = false :=
  congrArg Link.gateTest (State.link_modLink ..)

theorem lsRole_modDoor {f : Doorway → Doorway} {i : Nat} : ((s.modDoor t f).tile t).lsRole i = (s.tile t).lsRole i := by
  cases t <;> rfl

theorem lock_partEnded {mask : BitVec 16} : ((s.partEnded t 5 r mask).tile t).link.lsCmd.getLsbD ((s.tile t).lsRole 14) = false :=
  lsRole_modDoor (s := s) (t := t) (i := 14) ▸ lsCmd_setLock_off

/-- The bins that a scrub lost and the end of the request leave the bench as the part left it. -/
theorem bench_complete {bins : List (AxisId × Dir × Fin 512)} : ((s.binsLost t part bins).selftestFinish t).bench t = s.bench t :=
  bench_selftestFinish.trans bench_binsLost

end ends

/-! ### ST_DWELL_MAX_EXPIRY (R146) -/

/-- A waiting part gets its time-out. -/
def Doorway.timeOut (d : Doorway) (i : Fin 8) : Doorway := if d.dwellWaits i then d.partResult i 3 0 else d

theorem result_timeOut {d : Doorway} {i : Fin 8} (h : d.dwellWaits i = true) : (((d.timeOut i).parts)[i]).result = some 3 := by
  rw [Doorway.timeOut, if_pos h, parts_partResult, if_pos rfl]

theorem parts_timeOut {i j : Fin 8} (d : Doorway) (hij : i ≠ j) : ((d.timeOut i).parts)[j] = (d.parts)[j] := by
  unfold Doorway.timeOut
  split
  · rw [parts_partResult, if_neg hij]
  · rfl

theorem dwellWaits_timeOut {i j : Fin 8} (d : Doorway) (hij : i ≠ j) : (d.timeOut i).dwellWaits j = d.dwellWaits j := by
  rw [Doorway.dwellWaits, parts_timeOut d hij, Doorway.dwellWaits]

/-- Every DWELL part that still waits gets its time-out, and none is waited for. -/
def Doorway.dwellTimesOut (d : Doorway) : Doorway := { (d.timeOut 3).timeOut 4 with stDwellMax := .idle }

theorem result_dwellTimesOut (d : Doorway) : (d.dwellWaits 3 = true → ((d.dwellTimesOut.parts)[(3 : Fin 8)]).result = some 3) ∧
    (d.dwellWaits 4 = true → ((d.dwellTimesOut.parts)[(4 : Fin 8)]).result = some 3) := by
  have parts : d.dwellTimesOut.parts = ((d.timeOut 3).timeOut 4).parts := rfl
  rw [parts, parts_timeOut (d.timeOut 3) (i := 4) (j := 3) (by decide), ← dwellWaits_timeOut d (i := 3) (j := 4) (by decide)]
  exact ⟨result_timeOut, result_timeOut⟩

theorem exec_stDwellMaxExpiry {s : State} {t : TileId} (ht : s.hasTile t = true) (hr : (s.tile t).door.stDwellMax.isRunning = true) :
    exec (.stDwellMaxExpiry t) s = .next ((s.modDoor t Doorway.dwellTimesOut).selftestFinish t) := by
  change execStDwellMaxExpiry t s = _
  rw [execStDwellMaxExpiry, onTile_of t s _ ht]
  simp only [hr, Bool.not_true, Bool.false_eq_true, if_false]
  rfl

/-- Settles O40: a request notes its parts, a part begins and ends on its own, and the end of the request leaves the bench as the part left it. -/
theorem selfTestsRunAndEnd : Obligations.SelfTestsRunAndEnd := by
  unfold Obligations.SelfTestsRunAndEnd
  refine ⟨fun s h addr hd ha hn => ⟨⟨_, exec_selftestRequest_dwell addr hd ha hn, ?dwell⟩,
      fun hst => ⟨_, exec_selftestRequest_isolated addr hd ha hn hst, ?isolated⟩⟩,
    fun s t ht => ⟨fun ha hs hst hr hc h3 h4 w3 w4 =>
        ⟨_, exec_selftestDwellPartStart_onCheck ht ha hs hst hr hc h3 h4 w3 w4, ?start⟩,
      fun part r detail hr hb => ⟨_, exec_selftestPartComplete ht hr hb, ?complete⟩,
      fun hr => ⟨_, exec_stDwellMaxExpiry ht hr, ?expiry⟩⟩⟩
  case dwell =>
    rw [State.testsAsked, State.door_modDoor]
    exact ⟨rfl, rfl, rfl, rfl⟩
  case isolated =>
    have ended : (((s.testsAsked h 0x0040 addr).modDoor h.tile fun d => d.partResult 6 4 0).tile h.tile).door.testPending = false := by
      rw [State.testsAsked, State.door_modDoor, State.door_modDoor]
      rfl
    refine ⟨by rw [(told_selftestFinish ended).door, State.door_modDoor], ?_⟩
    rw [parts_selftestFinish, State.door_modDoor]
    exact congrArg PartState.result ((parts_partResult ..).trans (if_pos rfl))
  case start =>
    rw [State.door_modDoor, State.link_modDoor, State.field_modDoor]
    refine ⟨congrArg PartState.running ((parts_partBegin_onCheck s t 4).trans (if_pos rfl)), rfl, onTest_partBegin_onCheck s t, ?_⟩
    rw [partBegin_onCheck, State.partMask, State.partStart, State.field_modDoor, State.field_modLink, State.field_modDoor]
  case complete =>
    have bench := bench_complete (s := s.partEnded t part r detail.mask) (t := t) (part := part) (bins := detail.bins)
    simp only [State.bench, Bench.mk.injEq] at bench
    obtain ⟨parts, eccBad, latched, -, link, field⟩ := bench
    rw [parts, eccBad, latched, link, field, field_partEnded]
    refine ⟨by rw [part_partEnded], fun h2 h4 => ?_, ?_, ?_, ?_, ?_, ?_, rfl, fun none => ?_⟩
    · rw [part_partEnded, partOutcome_measured h2 h4]
      exact ⟨rfl, rfl⟩
    · rintro rfl
      rw [result_partEnded_iff (.inl rfl), partFailed_offState_iff]
    · rintro rfl
      exact ⟨by rw [result_partEnded_iff (.inr rfl), partFailed_onCheck_iff], onTest_partEnded⟩
    · rintro rfl
      exact scrub_partEnded
    · rintro rfl
      exact lock_partEnded
    · rintro rfl
      exact gateTest_partEnded
    · rw [ax_selftestFinish, binsLost_none none, ax_partEnded]
  case expiry =>
    have bench := bench_selftestFinish (s := s.modDoor t Doorway.dwellTimesOut) (t := t)
    have timed := result_dwellTimesOut (s.tile t).door
    rw [parts_selftestFinish, ax_selftestFinish, State.ax_modDoor, State.door_modDoor]
    exact ⟨(congrArg Bench.stDwellMax bench).trans (congrArg Doorway.stDwellMax (State.door_modDoor ..)), timed.1, timed.2, rfl⟩

end Sys2Proof.Machine
end


-- ==== Sys2Proof/Proofs/ProofTest.lean ====
section
/-!
PROOFS. The verdict of a proof test, and the FULL request that becomes ready for PERMIT or is cancelled (R119, R139, R182).
-/

namespace Sys2Proof.Machine

section proofTest

variable {s : State} {t : TileId}

/-! ### The verdict (R119) -/

theorem Tile.proofVerdict_passed {tl : Tile} (hb : tl.door.proofBad = none) (hp : tl.door.proofPhase = 5) : tl.proofVerdict = none := by
  rw [Tile.proofVerdict, hb, hp]
  rfl

/-- The first failed check is the verdict, and without one the first check that was not made. -/
theorem Tile.proofVerdict_failed {tl : Tile} {f : AxisId × Nat} (hf : tl.door.proofBad = some f ∨
    (tl.door.proofBad = none ∧ tl.door.proofPhase ≠ 5 ∧ f = (tl.usedAxes.headD .A, proofStep tl.door.proofPhase))) :
    tl.proofVerdict = some f := by
  obtain hb | ⟨hb, hp, rfl⟩ := hf
  · rw [Tile.proofVerdict, hb]
  · rw [Tile.proofVerdict, hb]
    exact if_neg fun done => hp (beq_iff_eq.mp done)

/-! ### The end of a test (R119, R123, R182) -/

/-- The doorway with its proof test over. -/
def Doorway.proofEnds (d : Doorway) : Doorway := { d with proofRun := false, proofSelf := false, proofPhase := 0, proofBad := none }

/-- Row 5 of R182 takes the value of rows 1 and 2. -/
def Doorway.proofPasses (d : Doorway) : Doorway := { d.proofEnds with proofOk := d.rows12, proofOld := false }

/-- A failed check waits for T23. -/
def Doorway.proofFails (d : Doorway) (f : AxisId × Nat) : Doorway := { d.proofEnds with proofFailed := some f }

/-- Every pair of a used axis released with a fabric-clear. -/
def State.pairsReleased (s : State) (t : TileId) (now : Nat) : State :=
  (s.at now).each (s.tile t).usedAxes fun s a => s.releasePair t a

theorem State.door_releasePair (s : State) (t : TileId) (a : AxisId) : ((s.releasePair t a).tile t).door = (s.tile t).door :=
  (State.door_modLink ..).trans (State.door_modAxis ..)

theorem State.door_pairsReleased (s : State) (t : TileId) (now : Nat) : ((s.pairsReleased t now).tile t).door = (s.tile t).door :=
  State.each_keeps (g := fun s => (s.tile t).door) (fun s a => State.door_releasePair s t a) _ _

/-- The end of a test that no self-test asked for gives no self-test its result. -/
theorem modDoor_proofEnds (hs : (s.tile t).door.proofSelf = false) (now : Nat) (code : Fin 6) :
    ((s.pairsReleased t now).modDoor t fun d => if d.proofSelf then d.proofEnds.partResult 3 code 0 else d.proofEnds) =
      (s.pairsReleased t now).modDoor t Doorway.proofEnds := by
  refine State.modTile_congr _ t _ _ ?_
  simp only [State.door_pairsReleased, hs, Bool.false_eq_true, if_false]

theorem calCycleDone_idle (hc : (s.tile t).door.cal = .idle) : s.calCycleDone t = s := by
  rw [State.calCycleDone, hc]

theorem Doorway.calHolds_idle {d : Doorway} (hc : d.cal = .idle) : d.calHolds = false := by rw [Doorway.calHolds, hc]

theorem Tile.triadRuns_of_acts {tl : Tile} (ha : tl.triadActs = true) : tl.triadRuns = true := (Bool.and_eq_true_iff.mp ha).1

section verdict

variable (ht : s.hasTile t = true) (hr : (s.tile t).door.proofRun = true) (hs : (s.tile t).door.proofSelf = false)
  (ha : (s.tile t).triadActs = true) (now : Nat)
include ht hr hs ha

theorem exec_proofTestResult_passed (hv : (s.tile t).proofVerdict = none) (hc : (s.tile t).door.cal = .idle) :
    exec (.proofTestResult t now) s =
      .next ((((s.pairsReleased t now).modDoor t Doorway.proofPasses).evaluate t).selftestFinish t) := by
  have idle : (((s.pairsReleased t now).modDoor t Doorway.proofPasses).tile t).door.cal = .idle := by
    rw [State.door_modDoor, State.door_pairsReleased]
    exact hc
  change execProofTestResult t now s = _
  rw [execProofTestResult, onTile_of t s _ ht]
  simp only [State.tile_at, hr, Tile.triadRuns_of_acts ha, ha, hv, Doorway.calHolds_idle hc, Bool.not_true, Bool.or_self,
    Bool.false_eq_true, if_false]
  change Host.Outcome.next ((((((s.pairsReleased t now).modDoor t fun d =>
    if d.proofSelf then d.proofEnds.partResult 3 0 0 else d.proofEnds).modDoor t fun d =>
      { d with proofOk := d.rows12, proofOld := false }).calCycleDone t).evaluate t).selftestFinish t) = _
  rw [modDoor_proofEnds hs, State.modDoor_modDoor]
  exact congrArg (fun x => Host.Outcome.next ((State.evaluate x t).selftestFinish t)) (calCycleDone_idle idle)

theorem exec_proofTestResult_failed {f : AxisId × Nat} (hv : (s.tile t).proofVerdict = some f)
    (hi : (s.tile t).door.st ≠ .isolated) (hf : (s.tile t).door.st ≠ .faultSafe) :
    exec (.proofTestResult t now) s =
      .next ((((s.pairsReleased t now).modDoor t (·.proofFails f)).evaluate t).selftestFinish t) := by
  change execProofTestResult t now s = _
  rw [execProofTestResult, onTile_of t s _ ht]
  simp only [State.tile_at, hr, Tile.triadRuns_of_acts ha, ha, hv, beq_false_of_ne hi, beq_false_of_ne hf, Bool.not_true, Bool.or_self,
    Bool.false_eq_true, if_false]
  change Host.Outcome.next (((((s.pairsReleased t now).modDoor t fun d =>
    if d.proofSelf then d.proofEnds.partResult 3 1 0 else d.proofEnds).modDoor t fun d =>
      { d with proofFailed := some f }).evaluate t).selftestFinish t) = _
  rw [modDoor_proofEnds hs, State.modDoor_modDoor]
  rfl

end verdict

end proofTest

/-! ### A FULL request (R139) -/

section calibration

variable {s : State} {t : TileId} (ht : s.hasTile t = true)
include ht

theorem exec_calibrationReady (ha : (s.tile t).triadActs = true) (hc : (s.tile t).door.cal = .queued)
    (hr : (s.tile t).calConditions = true) : exec (.calibrationReady t) s =
      .next ((s.modDoor t fun d => { d with cal := .ready 0, calPermitMax := .running (1000 * (s.tile t).parN 0x0A 1) }).raise t 0x2C []) := by
  change execCalibrationReady t s = _
  rw [execCalibrationReady, onTile_of t s _ ht, if_pos ha, State.calReady]
  simp only [hc, hr, if_true]

/-- A run that waits for PERMIT too long is cancelled, unless the writes of the triad are held. -/
theorem exec_calPermitMaxExpiry {n : Nat} (hc : (s.tile t).door.cal = .ready n) (hb : (s.tile t).door.calPermitMax.isRunning = true)
    (ha : (s.tile t).triadRuns = false ∨ (s.tile t).triadActs = true) : exec (.calPermitMaxExpiry t) s =
      .next ((s.modDoor t fun d => { d with cal := .idle, calPermitMax := .idle }).raise t 0x2F (leBytes 1 9)) := by
  have free : ((s.tile t).triadRuns && !(s.tile t).triadActs) = false := by
    obtain off | acts := ha
    · rw [off, Bool.false_and]
    · rw [acts, Bool.not_true, Bool.and_false]
  change execCalPermitMaxExpiry t s = _
  rw [execCalPermitMaxExpiry, onTile_of t s _ ht]
  simp only [hc, free, hb, Bool.false_eq_true, if_false, if_true]

end calibration

/-- Settles O18: the test ends by its verdict, and a FULL request that waits becomes ready or is cancelled. -/
theorem proofTestAndCalibrationReadiness : Obligations.ProofTestAndCalibrationReadiness := by
  unfold Obligations.ProofTestAndCalibrationReadiness
  intro s t ht
  refine ⟨fun now => ?verdict, exec_calibrationReady ht, fun n => exec_calPermitMaxExpiry ht⟩
  case verdict =>
    intro d s1 hr hs ha
    exact ⟨fun hb hp hc => exec_proofTestResult_passed ht hr hs ha now (Tile.proofVerdict_passed hb hp) hc,
      fun f hf hi hfs => exec_proofTestResult_failed ht hr hs ha now (Tile.proofVerdict_failed hf) hi hfs⟩

end Sys2Proof.Machine
end

