-- ==== Sys2Proof/Proofs/Soundings.lean ====
section
/-!
PROOFS. The sounding sets read as they stand and written under the seal, and a ready shadow set accepted, discarded or installed (R144, R147,
R148, R194, R335).
-/

namespace Sys2Proof.Machine

/-! ### Axes changed one by one -/

section axes

variable {s : State} {t : TileId}

/-- Every axis of a list changed, each by itself. -/
def State.axesChanged (s : State) (t : TileId) (l : List AxisId) (f : AxisId → Axis → Axis) : State :=
  s.each l fun s a => s.modAxis t a (f a)

theorem axis_axesChanged {l : List AxisId} (hl : l.Nodup) (f : AxisId → Axis → Axis) (a : AxisId) :
    (s.axesChanged t l f).axis t a = if a ∈ l then f a (s.axis t a) else s.axis t a := by
  obtain ⟨ax, changed, read⟩ := each_modAxis (t := t) hl (F := fun _ => f) (fun _ _ _ => rfl) s
  rw [State.axesChanged, changed, State.axis, State.tile_modTile_self, read]

theorem onlyTile_axesChanged (l : List AxisId) (f : AxisId → Axis → Axis) : s.OnlyTile (s.axesChanged t l f) t := by
  refine List.foldlRecOn (motive := fun x => s.OnlyTile x t) l _ (.refl s t) fun x only a _ => ?_
  exact only.trans (onlyTile_modTile x t _)

end axes

section host

variable {s : State} {h : HostCmd}

/-! ### SOUNDING_READ (R147) -/

/-- The set that a read asks for. -/
def Axis.askedSet (x : Axis) (shadow : Bool) : SMap := if shadow then x.shadow else x.soundings

theorem exec_soundingRead (hd : s.Due h 0x42) {sh : Bool} {d : Dir} {first count : Nat} {addr : BitVec 64} (hc : 0 < count)
    (hr : first + count ≤ 512) (hu : (s.tile h.tile).used (h.axis.getD .A) = true) (hf : h.dmaFault = false) :
    exec (.soundingRead h sh d first count addr) s = .next ((s.dma addr.toNat
      (setBytes ((s.axis h.tile (h.axis.getD .A)).askedSet sh) d first count)).complete h 0x42 0 0) := by
  have inRange : ¬ (count = 0 ∨ first + count > 512) := by omega
  change execSoundingRead h sh d first count addr s = _
  rw [execSoundingRead, onCmd_of_due hd]
  simp only [inRange, hu, hf, Bool.not_true, Bool.false_eq_true, if_false]
  rfl

/-! ### SOUNDING_WRITE (R148, R194) -/

/-- The record of a written bin in the data of a write. -/
def writtenRecord (data : List Byte) (i : Nat) : Bin := binOfBytes (slice data (16 * i) 16)

/-- The bins of a write installed in the set of their axis. -/
def Tile.binsInstalled (tl : Tile) (a : AxisId) (d : Dir) (first count : Nat) (data : List Byte) (m : SMap) : SMap :=
  (List.range count).foldl (fun m i => writeBin m d (first + i) (tl.writtenBin a d (first + i) (writtenRecord data i))) m

/-- The axis of a write with its bins installed. -/
def State.binsWritten (s : State) (t : TileId) (a : AxisId) (d : Dir) (first count : Nat) (data : List Byte) : State :=
  s.modAxis t a fun x => { x with soundings := (s.tile t).binsInstalled a d first count data x.soundings }

/-- The digest of the bins that a write names, as they stand. -/
def State.binsDigest (s : State) (t : TileId) (a : AxisId) (d : Dir) (first count : Nat) : List Byte :=
  digest (setBytes (s.axis t a).soundings d first count)

/-- A write whose records all keep R148 has no first one that does not. -/
theorem findIdx?_binOk {tl : Tile} {count : Nat} {data : List Byte} (hb : ∀ i, i < count → tl.binOk (writtenRecord data i) = true) :
    ((List.range count).map (writtenRecord data)).findIdx? (fun b => !tl.binOk b) = none := by
  refine List.findIdx?_eq_none_iff.mpr fun b hmem => ?_
  obtain ⟨i, hi, rfl⟩ := List.mem_map.mp hmem
  rw [hb i (List.mem_range.mp hi), Bool.not_true]

section write

variable (hd : s.Due h 0x43) (ha : (s.tile h.tile).triadActs = true) (hf : h.dmaFault = false)
  (hst : (s.tile h.tile).door.st = .isolated) {d : Dir} {first count : Nat} {data : List Byte}
include hd ha hf hst

/-- Without the seal a write is recorded and refused. -/
theorem exec_soundingWrite_unsealed (hs : s.sealOk = false) : exec (.soundingWrite h d first count data) s =
    .next ((s.configRecord h.tile (some h) 0x43 0x13 (s.binsDigest h.tile (h.axis.getD .A) d first count)
      (s.binsDigest h.tile (h.axis.getD .A) d first count) []).complete h 0x43 0x13 194) := by
  change execSoundingWrite h d first count data s = _
  rw [execSoundingWrite, onCmd_of_due hd]
  simp only [ha, hf, hst, hs, beq_self_eq_true, Bool.true_or, Bool.not_true, Bool.not_false, Bool.false_eq_true, if_false, if_true]
  rfl

/-- With the seal and the data in order, a write installs its bins, completes and is recorded. -/
theorem exec_soundingWrite_sealed (hs : s.sealOk = true) (hc : 0 < count) (hr : first + count ≤ 512) (hl : data.length = 16 * count)
    (hu : (s.tile h.tile).used (h.axis.getD .A) = true)
    (hb : ∀ i, i < count → (s.tile h.tile).binOk (writtenRecord data i) = true) : exec (.soundingWrite h d first count data) s =
    .next (((s.binsWritten h.tile (h.axis.getD .A) d first count data).complete h 0x43 0 0).configRecord h.tile (some h) 0x43 0
      (s.binsDigest h.tile (h.axis.getD .A) d first count) (digest data) []) := by
  have inOrder : ¬ (count = 0 ∨ first + count > 512 ∨ data.length ≠ 16 * count) := by omega
  have sound := findIdx?_binOk hb
  unfold writtenRecord at sound
  change execSoundingWrite h d first count data s = _
  rw [execSoundingWrite, onCmd_of_due hd]
  simp only [ha, hf, hst, hs, inOrder, sound, hu, beq_self_eq_true, Bool.true_or, Bool.not_true, Bool.false_eq_true, if_false]
  rfl

end write

/-- Beside telling, a write changes the set of its axis alone. -/
theorem binsWritten_told {s' : State} {t : TileId} {a : AxisId} {d : Dir} {first count : Nat} {data : List Byte}
    (told : State.Told (s.binsWritten t a d first count data) s') :
    (s'.axis t a).soundings = (s.tile t).binsInstalled a d first count data (s.axis t a).soundings ∧
      (s'.axis t a).shadow = (s.axis t a).shadow ∧ (s'.axis t a).mo = (s.axis t a).mo ∧ (∀ b, b ≠ a → s'.axis t b = s.axis t b) ∧
      ∀ u, u ≠ t → Tile.Told (s.tile u) (s'.tile u) := by
  have axes := fun b => (told.axis t b).trans (State.axis_modAxis_eq_ite s t a b _)
  have own := (axes a).trans (if_pos rfl)
  exact ⟨by rw [own], by rw [own], by rw [own], fun b hb => (axes b).trans (if_neg hb),
    ((onlyTile_modTile s t _).trans (told.onlyTile t)).others⟩

/-! ### SHADOW_CONFIRM (R144, R335) -/

/-- The shadow sets of a tile emptied. -/
def State.shadowsEmptied (s : State) (t : TileId) : State := s.axesChanged t AxisId.all fun _ x => { x with shadow := [] }

/-- The shadow sets of a tile discarded. -/
def State.shadowDiscarded (s : State) (t : TileId) : State := (s.shadowsEmptied t).modDoor t fun d => { d with shadow := .none }

section confirm

variable (hd : s.Due h 0x44) (ha : (s.tile h.tile).triadActs = true) (hn : (s.tile h.tile).door.shadowAccept = none) {m : Nat}
  (hr : (s.tile h.tile).door.shadow = .ready m)
include hd ha hn hr

theorem exec_shadowConfirmAccept : exec (.shadowConfirmAccept h) s =
    .next ((s.markAccepted h 0x44).modDoor h.tile fun d => { d with shadowAccept := some h }) := by
  have fresh : (none == some h) = false := rfl
  change execShadowConfirmAccept h s = _
  rw [execShadowConfirmAccept, onCmd_of_due hd]
  simp only [hn, ha, hr, fresh, Option.isSome_none, Bool.not_true, Bool.false_eq_true, if_false]

/-- A discard completes and is recorded. -/
theorem exec_shadowConfirmDiscard : exec (.shadowConfirmDiscard h) s =
    .next (((s.shadowDiscarded h.tile).complete h 0x44 0 0).configRecord h.tile (some h) 0x44 0 (digest (s.tile h.tile).shadowBytes)
      (digest ((s.shadowsEmptied h.tile).tile h.tile).shadowBytes) []) := by
  change execShadowConfirmDiscard h s = _
  rw [execShadowConfirmDiscard, onCmd_of_due hd]
  simp only [ha, hn, hr, Option.isSome_none, Bool.not_true, Bool.false_eq_true, if_false]
  rfl

end confirm

theorem axis_shadowDiscarded (t : TileId) (a : AxisId) : (s.shadowDiscarded t).axis t a = { s.axis t a with shadow := [] } := by
  have all : a ∈ AxisId.all := by cases a <;> decide
  rw [State.shadowDiscarded, State.axis_modDoor, State.shadowsEmptied, axis_axesChanged nodup_allAxes, if_pos all]

/-- Beside telling, a discard leaves the tile no shadow set, and the active ones as they stand. -/
theorem shadowDiscarded_told {s' : State} {t : TileId} (told : State.Told (s.shadowDiscarded t) s') :
    (s'.tile t).door.shadow = .none ∧ ∀ a, (s'.axis t a).shadow = [] ∧ (s'.axis t a).soundings = (s.axis t a).soundings := by
  refine ⟨by rw [told.door, State.shadowDiscarded, State.door_modDoor], fun a => ?_⟩
  rw [told.axis, axis_shadowDiscarded]
  exact ⟨rfl, rfl⟩

end host

/-! ### SHADOW_SET_INSTALL (R144) -/

section install

variable {s : State} {t : TileId} {h : HostCmd} {m : Nat}

/-- The shadow sets of the used axes installed, with nothing more to confirm. -/
def State.shadowInstalled (s : State) (t : TileId) : State :=
  (s.axesChanged t (s.tile t).usedAxes (s.tile t).installShadow).modDoor t fun d => { d with shadow := .none, shadowAccept := none }

/-- With no pass on the tile, an accepted set is installed, and its command completes and is recorded. -/
theorem exec_shadowSetInstall (ht : s.hasTile t = true) (ha : (s.tile t).triadActs = true) (hp : (s.tile t).anyPass = false)
    (hc : (s.tile t).door.shadowAccept = some h) (hr : (s.tile t).door.shadow = .ready m) :
    exec (.shadowSetInstall t) s =
      .next (((s.shadowInstalled t).complete h 0x44 0 0 ((digest ((s.shadowInstalled t).tile t).activeBytes).take 8)).configRecord t
        (some h) 0x44 0 (digest (s.tile t).activeBytes) (digest ((s.shadowInstalled t).tile t).activeBytes) []) := by
  change execShadowSetInstall t s = _
  rw [execShadowSetInstall, onTile_of t s _ ht]
  simp only [ha, hp, hc, hr, Bool.not_true, Bool.and_false, Bool.or_false, Bool.false_eq_true, if_false]
  rfl

theorem axis_shadowInstalled (a : AxisId) : (s.shadowInstalled t).axis t a =
    if (s.tile t).used a = true then (s.tile t).installShadow a (s.axis t a) else s.axis t a := by
  rw [State.shadowInstalled, State.axis_modDoor, axis_axesChanged (nodup_usedAxes _), Tile.used]
  simp only [List.contains_iff_mem]

/-- Beside telling, an install changes the sets of the used axes of its tile, and leaves no shadow set to confirm. -/
theorem shadowInstalled_told {s' : State} (told : State.Told (s.shadowInstalled t) s') :
    (s'.tile t).door.shadow = .none ∧ (s'.tile t).door.shadowAccept = none ∧
      (∀ a, (s.tile t).used a = true → (s'.axis t a).soundings = ((s.tile t).installShadow a (s.axis t a)).soundings) ∧
      (∀ a, (s.tile t).used a = false → s'.axis t a = s.axis t a) ∧ ∀ u, u ≠ t → Tile.Told (s.tile u) (s'.tile u) := by
  have door := (told.door t).trans (by rw [State.shadowInstalled, State.door_modDoor])
  have axes := fun a => (told.axis t a).trans (axis_shadowInstalled a)
  exact ⟨congrArg Doorway.shadow door, congrArg Doorway.shadowAccept door,
    fun a used => congrArg Axis.soundings ((axes a).trans (if_pos used)),
    fun a unused => (axes a).trans (if_neg (Bool.eq_false_iff.mp unused)),
    (((onlyTile_axesChanged _ _).trans (onlyTile_modTile _ t _)).trans (told.onlyTile t)).others⟩

end install

/-- Settles O41: beside telling, a write changes the set of its axis, a discard empties the shadow sets, and an install changes the sets of the
used axes. -/
theorem soundingsAreReadWrittenAndConfirmed : Obligations.SoundingsAreReadWrittenAndConfirmed := by
  unfold Obligations.SoundingsAreReadWrittenAndConfirmed
  refine ⟨fun s h => ⟨fun hd sh d first count addr hc hr hu hf => exec_soundingRead hd hc hr hu hf,
      fun hd ha hf hst d first count data =>
        ⟨fun hs => ⟨_, exec_soundingWrite_unsealed hd ha hf hst hs, told_complete (told_configRecord (.refl s))⟩,
          fun hs hc hr hl hu hb => ⟨_, exec_soundingWrite_sealed hd ha hf hst hs hc hr hl hu hb, ?sealed⟩⟩,
      fun hd ha hn m hr => ⟨exec_shadowConfirmAccept hd ha hn hr, _, exec_shadowConfirmDiscard hd ha hn hr, ?discard⟩⟩,
    fun s t h m ht ha hp hc hr => ⟨_, exec_shadowSetInstall ht ha hp hc hr, ?install⟩⟩
  case sealed => exact binsWritten_told (told_configRecord (told_complete (.refl _)))
  case discard => exact shadowDiscarded_told (told_configRecord (told_complete (.refl _)))
  case install => exact shadowInstalled_told (told_configRecord (told_complete (.refl _)))

end Sys2Proof.Machine
end

