-- ==== Sys2Proof/Proofs/CalibrationCommands.lean ====
section
/-!
PROOFS. CAL_REQUEST: a request that is queued, a run that is permitted, cancelled or recovered, and a command with nothing to act on (R139, R140,
R142, R143, R335).
-/

namespace Sys2Proof.Machine

/-- The number of passes that a SHADOW request asks for, 16 where it names none, lies in its range. -/
theorem shadowPasses_inRange {m : Nat} (hm : m = 0 ∨ 4 ≤ m ∧ m ≤ 64) :
    ¬ ((if m = 0 then 16 else m) < 4 ∨ (if m = 0 then 16 else m) > 64) := by
  split_ifs <;> omega

section calibration

variable {s : State} {h : HostCmd} (hd : s.Due h 0x40) (ha : (s.tile h.tile).triadActs = true)
include hd ha

/-! ### REQUEST (R139, R143) -/

section request

variable (hs : (s.tile h.tile).door.calStarted = false) (hn : (s.tile h.tile).door.shadowAccept = none)
  (hf : (s.tile h.tile).calForbidden = false)
include hs hn hf

theorem exec_calRequestFull : exec (.calRequestFull h) s =
    .next ((s.modDoor h.tile fun d => { d.calReplace with cal := .queued }).complete h 0x40 0 0
      (leBytes 1 (bit (s.tile h.tile).door.calUnstarted))) := by
  change execCalRequestFull h s = _
  rw [execCalRequestFull, onCmd_of_due hd]
  simp only [ha, hs, hn, hf, Option.isSome_none, Bool.or_false, Bool.not_true, Bool.false_eq_true, if_false]

theorem exec_calRequestShadow {m : Nat} (hm : m = 0 ∨ 4 ≤ m ∧ m ≤ 64) (hc : ∀ k, (s.tile h.tile).door.shadow ≠ .collecting k) :
    exec (.calRequestShadow h m) s =
      .next ((s.modDoor h.tile fun d => { d.calReplace with shadow := .requested (if m = 0 then 16 else m) }).complete h 0x40 0 0
        (leBytes 1 (bit (s.tile h.tile).door.calUnstarted))) := by
  change execCalRequestShadow h m s = _
  rw [execCalRequestShadow, onCmd_of_due hd]
  cases shadow : (s.tile h.tile).door.shadow
  case collecting k => exact absurd shadow (hc k)
  all_goals
    simp only [ha, hs, hn, hf, shadowPasses_inRange hm, Option.isSome_none, Bool.or_false, Bool.not_true, Bool.false_eq_true, if_false]

end request

/-! ### PERMIT, CANCEL and RECOVER (R139, R140, R142, R335) -/

/-- PERMIT of a ready run meets its refusals in their order, or starts the cycle; with no run there is nothing to permit. -/
theorem exec_calPermit :
    (∀ n, (s.tile h.tile).door.cal = .ready n → exec (.calPermit h) s = .next (
      if (s.tile h.tile).calCanRun = false then s.complete h 0x40 0x10 139
      else if (s.tile h.tile).calForbidden = true then s.complete h 0x40 0x27 135
      else (s.complete h 0x40 0 0 [0]).calCycleStart h.tile n)) ∧
    ((s.tile h.tile).door.cal = .idle → exec (.calPermit h) s = .next (s.complete h 0x40 0x18 0)) := by
  refine ⟨fun n hc => ?ready, fun hc => ?idle⟩
  all_goals
    change execCalPermit h s = _
    rw [execCalPermit, onCmd_of_due hd]
    simp only [ha, hc, Bool.not_true, Bool.not_eq_true', Bool.false_eq_true, if_false]

/-- CANCEL ends a queued run, with cause 8, and a running cycle takes note of it, whether or not it has before. -/
theorem exec_calCancel :
    ((s.tile h.tile).door.cal = .queued → exec (.calCancel h) s =
      .next (((s.complete h 0x40 0 0 [0]).modDoor h.tile fun d => { d with cal := .idle, calPermitMax := .idle }).raise h.tile 0x2F
        (leBytes 1 8))) ∧
    (∀ n k c, (s.tile h.tile).door.cal = .cycle n k c → exec (.calCancel h) s =
      .next ((s.modDoor h.tile fun d => { d with cal := .cycle n k true }).complete h 0x40 0 0 [0])) ∧
    ((s.tile h.tile).door.cal = .idle → exec (.calCancel h) s = .next (s.complete h 0x40 0x18 0)) := by
  refine ⟨fun hc => ?queued, fun n k c hc => ?cycle, fun hc => ?idle⟩
  all_goals
    change execCalCancel h s = _
    rw [execCalCancel, onCmd_of_due hd]
    simp only [ha, hc, Bool.not_true, Bool.false_eq_true, if_false]

/-- RECOVER starts the close of an aborted run. -/
theorem exec_calRecover :
    (∀ k, (s.tile h.tile).door.cal = .aborted false k → exec (.calRecover h) s =
      .next ((((s.setLock h.tile false).setBuzzer h.tile true).modDoor h.tile fun d =>
        { d with cal := .aborted true 5, tWarn := .running ((s.tile h.tile).parN 0x02 2) }).complete h 0x40 0 0 [0])) ∧
    ((s.tile h.tile).door.cal = .idle → exec (.calRecover h) s = .next (s.complete h 0x40 0x18 0)) := by
  refine ⟨fun k hc => ?aborted, fun hc => ?idle⟩
  all_goals
    change execCalRecover h s = _
    rw [execCalRecover, onCmd_of_due hd]
    simp only [ha, hc, Bool.not_true, Bool.false_eq_true, if_false]

end calibration

/-- Settles O39: each action is decided by the state of the run, and PERMIT of a ready run by its chain of refusals. -/
theorem calibrationCommands : Obligations.CalibrationCommands := by
  unfold Obligations.CalibrationCommands
  intro s h hd ha t d
  obtain ⟨permitReady, permitIdle⟩ := exec_calPermit hd ha
  obtain ⟨cancelQueued, cancelCycle, cancelIdle⟩ := exec_calCancel hd ha
  obtain ⟨recoverAborted, recoverIdle⟩ := exec_calRecover hd ha
  refine ⟨fun hs hn hf => ⟨exec_calRequestFull hd ha hs hn hf, fun m hm hc => exec_calRequestShadow hd ha hs hn hf hm hc⟩,
    fun n hc => ⟨fun runs allowed => ?starts, fun runs forbidden => ?forbidden, fun stays => ?stays⟩,
    cancelQueued, cancelCycle, recoverAborted, fun hc => ⟨permitIdle hc, cancelIdle hc, recoverIdle hc⟩⟩
  case starts => rw [permitReady n hc, if_neg (ne_false_of_eq_true runs), if_neg (Bool.eq_false_iff.mp allowed)]
  case forbidden => rw [permitReady n hc, if_neg (ne_false_of_eq_true runs), if_pos forbidden]
  case stays => rw [permitReady n hc, if_pos stays]

end Sys2Proof.Machine
end

