-- ==== Sys2Proof/Proofs/Safety.lean ====
section
/-!
PROOFS. What every step keeps and what none takes back, and the state after reset (R161, R162, R181, R299, R344, R358, R362, R376).
-/

namespace Sys2Proof.Machine

/-! ### Every step (R161, R162, R237, R344, R358, R362) -/

section step

variable {s s' : State}

/-- A command takes nothing back of the state with the rest of its queue, and neither does a tick. -/
theorem step_later (h : step s = .next s') : State.Later { s with pending := s.pending.tail } s' := by
  unfold step at h
  cases queue : s.pending with
  | nil =>
    rw [queue] at h
    have idle : { s with pending := ([] : List Instr) } = s := by rw [← queue]
    rw [List.tail_nil, idle]
    exact outcomeLater_next (later_modTime (.refl s) (Nat.le_add_right ..)) s' h
  | cons c rest =>
    rw [queue] at h
    exact later_exec c _ s' h

theorem State.Later.inv (h : State.Later s s') (inv : s.Inv) : s'.Inv := by
  obtain ⟨canonical, tiles⟩ := inv
  exact ⟨h.mem canonical, fun t => ⟨(h.tiles t).harmless (tiles t).1, (h.tiles t).slots (tiles t).2⟩⟩

end step

/-- Settles O4: what no step takes back holds the invariant, in which the queue has no part. -/
theorem everyStepKeepsTheInvariant : Obligations.EveryStepKeepsTheInvariant := by
  unfold Obligations.EveryStepKeepsTheInvariant
  intro s s' inv h
  have shorter : State.Inv { s with pending := s.pending.tail } := inv
  exact (step_later h).inv shorter

/-- Settles O5: the parts of what no step takes back. -/
theorem noCommandTakesBackWhatIsOneTime : Obligations.NoCommandTakesBackWhatIsOneTime := by
  unfold Obligations.NoCommandTakesBackWhatIsOneTime
  intro s s' h
  obtain ⟨part, serial, pending, clock, -, outs, tiles⟩ := step_later h
  exact ⟨fun t => (tiles t).key, fun t => (tiles t).counter, fun t => (tiles t).seq, fun t => (tiles t).images, part, serial,
    pending, clock, outs⟩

/-! ### Reset (R161, R162, R181, R186, R299, R376) -/

theorem tile_reset (t : TileId) : State.reset.tile t = Tile.reset := PerTile.get_all ..

/-- The fallback image holds its outputs at reset: the switches are off and no bridge is driven. -/
theorem harmless_reset : Tile.reset.Harmless :=
  fun _ => ⟨rfl, rfl, rfl, fun a => by rw [Tile.reset, PerAxis.get_all]; exact Bridge.noConfusion⟩

theorem inv_reset : State.reset.Inv := by
  refine ⟨rfl, fun t => ?_⟩
  rw [tile_reset]
  exact ⟨harmless_reset, Nat.zero_le _⟩

/-- Settles O6: every tile of State.reset is Tile.reset, whose fallback image is applied. -/
theorem resetLeavesEverythingHarmless : Obligations.ResetLeavesEverythingHarmless := by
  unfold Obligations.ResetLeavesEverythingHarmless
  refine ⟨⟨fun t => ?tile, rfl, rfl, rfl, rfl⟩, inv_reset⟩
  case tile =>
    obtain ⟨sra, srb, ls0, bridges⟩ := harmless_reset rfl
    simp only [State.axis, tile_reset]
    exact ⟨rfl, rfl, sra, srb, ls0, bridges⟩

end Sys2Proof.Machine
end

