-- ==== Sys2Proof/Proofs/LoadSwitches.lean ====
section
/-!
PROOFS. The findings of the load switches: after each, every channel stands as the first row of R152 that holds (R149, R150, R152 to R154, R156,
R157).
-/

namespace Sys2Proof.Machine

/-! ### The field die alone -/

section onlyField

variable {s s' s'' : State} {t : TileId} {f : FieldDie → FieldDie}

theorem State.Told.field_of_modField (h : State.Told (s.modField t f) s') : (s'.tile t).field = f (s.tile t).field :=
  (h.field t).trans (State.field_modField ..)

theorem State.Told.onlyField (h : State.Told (s.modField t f) s') : s.OnlyField s' t := by
  have same : (s.modField t fun _ => (s'.tile t).field) = s.modField t f := State.modTile_congr s t _ _ (by rw [h.field_of_modField])
  rw [State.OnlyField, same]
  exact h

theorem State.OnlyField.told (h : s.OnlyField s' t) (k : State.Told s' s'') : s.OnlyField s'' t :=
  State.Told.onlyField (State.Told.trans h k)

end onlyField

/-- The field die with the record of one channel changed. -/
def FieldDie.modLs (f : FieldDie) (ch : Fin 10) (g : LsChannel → LsChannel) : FieldDie := { f with ls := vmod f.ls ch g }

theorem State.modLs_eq (s : State) (t : TileId) (ch : Fin 10) (g : LsChannel → LsChannel) :
    s.modLs t ch g = s.modField t fun f => f.modLs ch g := rfl

theorem FieldDie.ls_modLs (f : FieldDie) (ch k : Fin 10) (g : LsChannel → LsChannel) :
    (f.modLs ch g).ls[k] = if ch = k then g f.ls[ch] else f.ls[k] := vmod_get ..

@[simp] theorem FieldDie.ls_modLs_self (f : FieldDie) (ch : Fin 10) (g : LsChannel → LsChannel) :
    (f.modLs ch g).ls[ch] = g f.ls[ch] := (f.ls_modLs ..).trans (if_pos rfl)

/-! ### What a finding leaves (R152) -/

/-- Beside telling, the field die as a finding changed it, with every channel brought to the state that R152 gives it. -/
structure State.Finds (s s' : State) (t : TileId) (f : FieldDie → FieldDie) : Prop where
  only    : s.OnlyField s' t
  settled : (s'.tile t).LsSettled
  rest    : (s'.tile t).field = { f (s.tile t).field with ls := (s'.tile t).field.ls }
  same    : ∀ ch : Fin 10, LsChannel.SameInputs (f (s.tile t).field).ls[ch] (s'.tile t).field.ls[ch]

theorem finds_lsRefresh (s : State) (t : TileId) (f : FieldDie → FieldDie) (restart : Bool) :
    s.Finds ((s.modField t f).lsRefresh t restart) t f := by
  obtain ⟨ls, e, same, settled⟩ := lsRefresh_settles (s.modField t f) t restart
  rw [State.modField_modField] at e
  rw [tile_modField] at same settled
  rw [e]
  refine ⟨State.Told.onlyField (.refl _), ?_, ?_, ?_⟩
  all_goals rw [tile_modField]
  · exact settled
  · exact same

/-- One of the rows 2 to 5 of R152 keeps a channel off. -/
inductive FieldDie.Barred (f : FieldDie) (ch : Fin 10) : Prop
  | overcurrent (h : (f.ls[ch]).ocLatch = true)
  | thermal (h : (f.ls[ch]).thLatch = true)
  | cooling (h : (f.ls[ch]).thDown = true)
  | undervoltage (h : f.undervolt = true)
  | groupHeat (h : f.groupHeat = true) (high : 8 ≤ ch.val)

theorem Tile.lsOn_of_barred {tl : Tile} {ch : Fin 10} (h : tl.field.Barred ch) : tl.lsOn ch = false := by
  unfold Tile.lsOn
  cases h with
  | overcurrent h => simp only [h, Bool.not_true, Bool.and_false, Bool.false_and]
  | thermal h => simp only [h, Bool.not_true, Bool.and_false, Bool.false_and]
  | cooling h => simp only [h, Bool.not_true, Bool.and_false, Bool.false_and]
  | undervoltage h => simp only [h, Bool.not_true, Bool.and_false, Bool.false_and]
  | groupHeat h high => simp only [h, decide_eq_true high, Bool.and_self, Bool.not_true, Bool.and_false, Bool.false_and]

theorem Tile.LsSettled.off {tl : Tile} {ch : Fin 10} (h : tl.LsSettled) (barred : tl.field.Barred ch) : (tl.field.ls[ch]).isOn = false :=
  (h ch).trans (Tile.lsOn_of_barred barred)

section finds

variable {s s' s'' : State} {t : TileId} {f : FieldDie → FieldDie}

/-- What a finding tells changes nothing of the switches. -/
theorem State.Finds.told (h : s.Finds s' t f) (k : State.Told s' s'') : s.Finds s'' t f := by
  obtain ⟨only, settled, rest, same⟩ := h
  have field := k.field t
  refine ⟨only.told k, settled.congr (fun ch => ?_) (by rw [field]) (k.inForce t), ?_, ?_⟩
  all_goals rw [field]
  · exact ⟨.refl _, rfl⟩
  · exact rest
  · exact same

/-- The inputs of a channel whose record the finding changed. -/
theorem State.Finds.changed {ch : Fin 10} {g : LsChannel → LsChannel} (h : s.Finds s' t fun f => f.modLs ch g) :
    LsChannel.SameInputs (g (s.tile t).field.ls[ch]) (s'.tile t).field.ls[ch] := by
  have same := h.same ch
  rwa [FieldDie.ls_modLs_self] at same

end finds

/-! ### The findings (R150, R153, R154, R156, R157) -/

/-- LATCH sets the thermal latch, RESTART waits for the sensor to cool (R154). -/
def LsChannel.overheated (c : LsChannel) (latch : Bool) : LsChannel :=
  { c with thLatch := c.thLatch || latch, thDown := c.thDown || !latch }

/-- The channels of a mask that are on. -/
def FieldDie.lsHit (f : FieldDie) (trip : BitVec 10) : List (Fin 10) :=
  lsChannels.filter fun ch => trip.getLsbD ch.val && (f.ls[ch]).isOn

/-- The field die under a VBAT too low, with the channels that were hit latched (R156). -/
def FieldDie.vbatLow (f : FieldDie) (trip : BitVec 10) : FieldDie :=
  { f with undervolt := true, ls := (f.lsHit trip).foldl (fun v ch => vmod v ch fun c => { c with ocLatch := true }) f.ls }

theorem ocLatch_vbatLow (f : FieldDie) (trip : BitVec 10) (ch : Fin 10) :
    ((f.vbatLow trip).ls[ch]).ocLatch = ((f.ls[ch]).ocLatch || (trip.getLsbD ch.val && (f.ls[ch]).isOn)) := by
  have nodup : (f.lsHit trip).Nodup := List.Nodup.filter _ (by decide)
  have hit : ch ∈ f.lsHit trip ↔ (trip.getLsbD ch.val && (f.ls[ch]).isOn) = true := by
    rw [FieldDie.lsHit, List.mem_filter]
    exact and_iff_right (all_lsChannels ch)
  rw [FieldDie.vbatLow]
  dsimp only
  rw [foldl_vmod_get _ _ nodup]
  by_cases member : ch ∈ f.lsHit trip
  · rw [if_pos member, hit.mp member, Bool.or_true]
  · rw [if_neg member, Bool.eq_false_iff.mpr (mt hit.mpr member), Bool.or_false]

section commands

variable {s : State} {t : TileId} (ht : s.hasTile t = true)
include ht

theorem lsinPinEdge_finds (ch : Fin 10) (level : Bool) : ∃ s', exec (.lsinPinEdge t ch level) s = .next s' ∧
    s.Finds s' t fun f => f.modLs ch fun c => { c with pin := level } := by
  refine ⟨_, ?_, finds_lsRefresh s t _ false⟩
  change execLsinPinEdge t ch level s = _
  exact onTile_of t s _ ht

/-- A channel that is on is judged by the threshold in force. -/
theorem exec_lsOvercurrent {ch : Fin 10} (current : Nat) (on : ((s.tile t).field.ls[ch]).isOn = true) :
    exec (.lsOvercurrent t (ch, current)) s = .next (
      if current ≤ ((s.tile t).field.ls[ch]).threshold then s
      else ((s.modLs t ch fun c => { c with ocLatch := true }).lsRefresh t).lsEvent t 0x40 ch true ((s.tile t).field.ls[ch]).sense) := by
  change execLsOvercurrent t (ch, current) s = _
  rw [execLsOvercurrent, onTile_of t s _ ht]
  simp only [LsChannel.judged, LsChannel.judgedBy, on, Bool.true_or, Bool.not_true, Bool.false_or, if_true, decide_eq_true_eq]

theorem lsOvercurrent_finds {ch : Fin 10} {current : Nat} (on : ((s.tile t).field.ls[ch]).isOn = true)
    (above : current > ((s.tile t).field.ls[ch]).threshold) : ∃ s', exec (.lsOvercurrent t (ch, current)) s = .next s' ∧
    s.Finds s' t fun f => f.modLs ch fun c => { c with ocLatch := true } := by
  rw [exec_lsOvercurrent ht current on, if_neg (not_le.mpr above)]
  exact ⟨_, rfl, (finds_lsRefresh s t _ false).told (told_lsEvent (.refl _))⟩

theorem lsThermalShutdown_finds (up : (s.tile t).field.lswUp = true) (ch : Fin 10) :
    ∃ s', exec (.lsThermalShutdown t ch) s = .next s' ∧
      s.Finds s' t fun f => f.modLs ch fun c => c.overheated ((s.tile t).par 0x0B 3 ch.val == 1) := by
  change ∃ s', execLsThermalShutdown t ch s = .next s' ∧ _
  simp only [execLsThermalShutdown, onTile_of t s _ ht, up, Bool.not_true, Bool.false_eq_true, if_false]
  exact ⟨_, rfl, (finds_lsRefresh s t _ false).told (told_lsEvent (.refl _))⟩

theorem vbatUndervoltage_finds {vbat : Nat} (trip : BitVec 10) (up : (s.tile t).field.lswUp = true)
    (first : (s.tile t).field.undervolt = false) (low : vbat < 10 * (s.tile t).parN 0x0B 6) :
    ∃ s', exec (.vbatUndervoltage t vbat trip) s = .next s' ∧ s.Finds s' t fun f => f.vbatLow trip := by
  have latched : ((s.each ((s.tile t).field.lsHit trip) fun s ch => s.modLs t ch fun c => { c with ocLatch := true }).modField t
      fun f => { f with undervolt := true }) = s.modField t fun f => f.vbatLow trip := by
    rw [each_modLs, State.modField_modField]
    exact State.modTile_congr s t _ _ rfl
  have found := finds_lsRefresh s t (fun f => f.vbatLow trip) false
  rw [← latched] at found
  change ∃ s', execVbatUndervoltage t vbat trip s = .next s' ∧ _
  simp only [execVbatUndervoltage, onTile_of t s _ ht, first, up, not_le.mpr low, ge_iff_le, Bool.not_true, Bool.or_self, decide_false,
    Bool.false_eq_true, if_false]
  exact ⟨_, rfl, found.told (told_each (told_raiseField (.refl _)) fun x ch h => told_lsEvent h)⟩

theorem exec_vbatRecovery (vbat : Nat) (low : (s.tile t).field.undervolt = true) : exec (.vbatRecovery (t, vbat)) s = .next (
    if vbat > 10 * ((s.tile t).parN 0x0B 6 + (s.tile t).parN 0x0B 7) then
      (s.modField t fun f => { f with undervolt := false }).lsRefresh t true
    else s) := by
  change execVbatRecovery (t, vbat) s = _
  rw [execVbatRecovery, onTile_of t s _ ht]
  simp only [low, Bool.true_and, decide_eq_true_eq]

theorem groupHeatShed_finds (up : (s.tile t).field.lswUp = true) (cool : (s.tile t).field.groupHeat = false) :
    ∃ s', exec (.groupHeatShed t) s = .next s' ∧ s.Finds s' t fun f => { f with groupHeat := true } := by
  change ∃ s', execGroupHeatShed t s = .next s' ∧ _
  simp only [execGroupHeatShed, onTile_of t s _ ht, cool, up, Bool.not_true, Bool.or_self, Bool.false_eq_true, if_false]
  exact ⟨_, rfl, (finds_lsRefresh s t _ false).told (told_raiseField (.refl _))⟩

theorem groupHeatRestart_finds (hot : (s.tile t).field.groupHeat = true) :
    ∃ s', exec (.groupHeatRestart t) s = .next s' ∧ s.Finds s' t fun f => { f with groupHeat := false } := by
  change ∃ s', execGroupHeatRestart t s = .next s' ∧ _
  simp only [execGroupHeatRestart, onTile_of t s _ ht, hot, if_true]
  exact ⟨_, rfl, finds_lsRefresh s t _ true⟩

end commands

/-- Settles O27: each finding changes what R152 judges by, and a refresh follows it. -/
theorem loadSwitchChannelsFollowTheirRows : Obligations.LoadSwitchChannelsFollowTheirRows := by
  unfold Obligations.LoadSwitchChannelsFollowTheirRows
  intro s t ht
  refine ⟨fun ch level => ?pin, fun ch current on => ⟨fun above => ?overcurrent, fun below => ?within⟩,
    fun up => ⟨fun ch => ?thermal, fun vbat trip first low => ?undervoltage, fun cool => ?shed⟩,
    fun vbat low => ⟨fun above => ?recovery, fun below => ?stays⟩, fun hot => ?restart⟩
  case pin =>
    obtain ⟨s', e, found⟩ := lsinPinEdge_finds ht ch level
    exact ⟨s', e, found.only, found.settled, found.changed.pin⟩
  case overcurrent =>
    obtain ⟨s', e, found⟩ := lsOvercurrent_finds ht on above
    exact ⟨s', e, found.only, found.settled, found.changed.ocLatch, found.settled.off (.overcurrent found.changed.ocLatch)⟩
  case within =>
    rw [exec_lsOvercurrent ht current on]
    exact congrArg _ (if_pos below)
  case thermal =>
    obtain ⟨s', e, found⟩ := lsThermalShutdown_finds ht up ch
    refine ⟨s', e, found.only, found.settled, ?_⟩
    by_cases latch : (s.tile t).par 0x0B 3 ch.val = 1
    · have th : ((s'.tile t).field.ls[ch]).thLatch = true := found.changed.thLatch.trans (by simp [LsChannel.overheated, latch])
      exact ⟨found.settled.off (.thermal th), by rwa [if_pos latch]⟩
    · have down : ((s'.tile t).field.ls[ch]).thDown = true := found.changed.thDown.trans (by simp [LsChannel.overheated, latch])
      exact ⟨found.settled.off (.cooling down), by rwa [if_neg latch]⟩
  case undervoltage =>
    obtain ⟨s', e, found⟩ := vbatUndervoltage_finds ht trip up first low
    have tooLow : (s'.tile t).field.undervolt = true := congrArg FieldDie.undervolt found.rest
    exact ⟨s', e, found.only, found.settled, tooLow, fun ch =>
      ⟨found.settled.off (.undervoltage tooLow), (found.same ch).ocLatch.trans (ocLatch_vbatLow ..)⟩⟩
  case shed =>
    obtain ⟨s', e, found⟩ := groupHeatShed_finds ht up cool
    have hot : (s'.tile t).field.groupHeat = true := congrArg FieldDie.groupHeat found.rest
    have off (ch : Fin 10) (high : 8 ≤ ch.val) : ((s'.tile t).field.ls[ch]).isOn = false :=
      found.settled.off (.groupHeat hot high)
    exact ⟨s', e, found.only, found.settled, hot, off 8 (le_refl 8), off 9 (by decide)⟩
  case recovery =>
    have found := finds_lsRefresh s t (fun f => { f with undervolt := false }) true
    rw [exec_vbatRecovery ht vbat low, if_pos above]
    exact ⟨_, rfl, found.only, found.settled, congrArg FieldDie.undervolt found.rest⟩
  case stays => rw [exec_vbatRecovery ht vbat low, if_neg (not_lt.mpr below)]
  case restart =>
    obtain ⟨s', e, found⟩ := groupHeatRestart_finds ht hot
    exact ⟨s', e, found.only, found.settled, congrArg FieldDie.groupHeat found.rest⟩

end Sys2Proof.Machine
end

