-- ==== Sys2Proof/Proofs/LoadSwitchChecks.lean ====
section
/-!
PROOFS. The checks and readings of the load switches and the watch over LS0: the record of one channel, or of each, changed alone (R153, R154,
R158 to R160, R195).
-/

namespace Sys2Proof.Machine

/-! ### The record of one channel -/

theorem vmod_vmod {α : Type} {n : Nat} (v : Vector α n) (i : Fin n) (f g : α → α) :
    vmod (vmod v i f) i g = vmod v i fun x => g (f x) := by
  unfold vmod vset
  simp

theorem State.modLs_modLs (s : State) (t : TileId) (ch : Fin 10) (f g : LsChannel → LsChannel) :
    (s.modLs t ch f).modLs t ch g = s.modLs t ch fun c => g (f c) := by
  simp only [State.modLs, State.modField_modField, vmod_vmod]

theorem State.field_modLs (s : State) (t : TileId) (ch : Fin 10) (f : LsChannel → LsChannel) :
    ((s.modLs t ch f).tile t).field = (s.tile t).field.modLs ch f := by
  rw [State.modLs_eq, tile_modField]

theorem State.modLs_same (s : State) (t : TileId) (ch : Fin 10) : (s.modLs t ch fun _ => (s.tile t).field.ls[ch]) = s := by
  rw [modLs_congr s t (f := fun _ => (s.tile t).field.ls[ch]) (g := fun c => c) rfl]
  simp only [State.modLs, vmod_self]
  exact State.modTile_id s t

/-- Beside telling, the record of one channel became c. -/
def State.Records (s s' : State) (t : TileId) (ch : Fin 10) (c : LsChannel) : Prop := State.Told (s.modLs t ch fun _ => c) s'

section records

variable {s s' : State} {t : TileId} {ch : Fin 10} {c : LsChannel}

theorem State.Records.onlyField (h : s.Records s' t ch c) : s.OnlyField s' t := State.Told.onlyField h

theorem State.Records.field (h : s.Records s' t ch c) : (s'.tile t).field = (s.tile t).field.modLs ch fun _ => c :=
  State.Told.field_of_modField h

theorem State.Records.self (h : s.Records s' t ch c) : (s'.tile t).field.ls[ch] = c := by
  rw [h.field, FieldDie.ls_modLs_self]

theorem State.Records.other (h : s.Records s' t ch c) (k : Fin 10) (hk : k ≠ ch) :
    (s'.tile t).field.ls[k] = (s.tile t).field.ls[k] := by
  rw [h.field, FieldDie.ls_modLs, if_neg hk.symm]

end records

/-! ### A cooled channel (R152, R154) -/

/-- A channel switched on or off: its thermal inputs and its restarts stand. -/
structure LsChannel.Switched (c d : LsChannel) (on : Bool) : Prop where
  isOn     : d.isOn = on
  thLatch  : d.thLatch = c.thLatch
  thDown   : d.thDown = c.thDown
  restarts : d.restarts = c.restarts

theorem LsChannel.Switched.trans {c d e : LsChannel} {on off : Bool} (h : LsChannel.Switched c d on) (k : LsChannel.Switched d e off) :
    LsChannel.Switched c e off :=
  ⟨k.isOn, k.thLatch.trans h.thLatch, k.thDown.trans h.thDown, k.restarts.trans h.restarts⟩

theorem lsRefresh1_switches (s : State) (t : TileId) (restart : Bool) (ch : Fin 10) :
    ∃ d, s.lsRefresh1 t restart ch = s.modLs t ch (fun _ => d) ∧ LsChannel.Switched (s.tile t).field.ls[ch] d ((s.tile t).lsOn ch) := by
  unfold State.lsRefresh1
  dsimp only
  cases want : (s.tile t).lsOn ch <;> cases on : ((s.tile t).field.ls[ch]).isOn
  case true.false => exact ⟨_, rfl, rfl, rfl, rfl, rfl⟩
  case false.true => exact ⟨_, rfl, rfl, rfl, rfl, rfl⟩
  all_goals exact ⟨_, (State.modLs_same s t ch).symm, on, rfl, rfl, rfl⟩

/-- The restarts of the last 60 s. -/
def LsChannel.recent (c : LsChannel) (now : Nat) : List Nat := c.restarts.filter fun i => decide (now < i + 60000000000)

/-- A restart is counted; the 32nd of the last 60 s sets the thermal latch. -/
def LsChannel.restarted (c : LsChannel) (now : Nat) : LsChannel :=
  { c with restarts := c.recent now ++ [now], thLatch := c.thLatch || decide (31 ≤ (c.recent now).length) }

theorem LsChannel.Switched.restarted {c d : LsChannel} {on : Bool} (h : LsChannel.Switched c d on) (now : Nat) :
    LsChannel.Switched (c.restarted now) (d.restarted now) on := by
  obtain ⟨isOn, thLatch, thDown, restarts⟩ := h
  have recent : d.recent now = c.recent now := by rw [LsChannel.recent, restarts, LsChannel.recent]
  refine ⟨isOn, ?_, thDown, ?_⟩
  · rw [LsChannel.restarted, LsChannel.restarted, recent, thLatch]
  · rw [LsChannel.restarted, LsChannel.restarted, recent]

theorem thLatch_restarted {c : LsChannel} {now : Nat} (last : 31 ≤ (c.recent now).length) : (c.restarted now).thLatch = true := by
  simp [LsChannel.restarted, last]

/-- A channel that waits no longer for its sensor to cool. -/
def LsChannel.cooled (c : LsChannel) : LsChannel := { c with thDown := false }

theorem lsRefresh1_cooled (s : State) (t : TileId) (ch : Fin 10) : ∃ d,
    (s.modLs t ch LsChannel.cooled).lsRefresh1 t true ch = s.modLs t ch (fun _ => d) ∧
      LsChannel.Switched ((s.tile t).field.ls[ch]).cooled d (((s.modLs t ch LsChannel.cooled).tile t).lsOn ch) := by
  obtain ⟨d, e, switched⟩ := lsRefresh1_switches (s.modLs t ch LsChannel.cooled) t true ch
  rw [State.field_modLs, FieldDie.ls_modLs_self] at switched
  exact ⟨d, by rw [e, State.modLs_modLs], switched⟩

/-- A channel whose thermal latch was set is off. -/
theorem lsRefresh1_latched (s : State) (t : TileId) (ch : Fin 10) {c : LsChannel} (latched : c.thLatch = true) : ∃ d,
    (s.modLs t ch fun _ => c).lsRefresh1 t false ch = s.modLs t ch (fun _ => d) ∧ LsChannel.Switched c d false := by
  obtain ⟨d, e, switched⟩ := lsRefresh1_switches (s.modLs t ch fun _ => c) t false ch
  have self : ((s.modLs t ch fun _ => c).tile t).field.ls[ch] = c := by rw [State.field_modLs, FieldDie.ls_modLs_self]
  have off : ((s.modLs t ch fun _ => c).tile t).lsOn ch = false := Tile.lsOn_of_barred (.thermal (by rw [self]; exact latched))
  rw [self, off] at switched
  exact ⟨d, by rw [e, State.modLs_modLs], switched⟩

section restart

variable {s : State} {t : TileId} (ht : s.hasTile t = true) {ch : Fin 10} (now : Nat)
  (down : ((s.tile t).field.ls[ch]).thDown = true)
include ht down

/-- Once the channel stands as R152 gives it, one that came on has made a restart; the 32nd within 60 s is one too many. -/
theorem exec_lsThermalRestart : ∃ d, LsChannel.Switched ((s.tile t).field.ls[ch]).cooled d (((s.modLs t ch LsChannel.cooled).tile t).lsOn ch) ∧
    exec (.lsThermalRestart t ch now) s = .next (
      if d.isOn = false then (s.at now).modLs t ch fun _ => d
      else if 31 ≤ (((s.tile t).field.ls[ch]).recent (s.at now).now).length then
        (((s.at now).modLs t ch fun _ => d.restarted (s.at now).now).lsRefresh1 t false ch).lsEvent t 0x41 ch true
          ((s.tile t).field.ls[ch]).sense
      else (s.at now).modLs t ch fun _ => d.restarted (s.at now).now) := by
  obtain ⟨d, e, switched⟩ := lsRefresh1_cooled (s.at now) t ch
  have waits : (((s.at now).tile t).field.ls[ch]).thDown = true := down
  have counted : ((s.at now).modLs t ch fun _ => d).modLs t ch (fun c => { c with
      restarts := (((s.at now).tile t).field.ls[ch]).recent (s.at now).now ++ [(s.at now).now]
      thLatch := c.thLatch || decide (31 ≤ ((((s.at now).tile t).field.ls[ch]).recent (s.at now).now).length) }) =
      (s.at now).modLs t ch fun _ => d.restarted (s.at now).now := by
    rw [State.modLs_modLs, LsChannel.restarted, LsChannel.recent, LsChannel.recent, switched.restarts]
    rfl
  refine ⟨d, switched, ?_⟩
  change execLsThermalRestart t ch now s = _
  unfold LsChannel.cooled at e
  unfold LsChannel.recent at counted ⊢
  simp only [execLsThermalRestart, onTile_of t s _ ht, waits, e, State.field_modLs, FieldDie.ls_modLs_self, Bool.not_eq_true',
    Bool.true_eq_false, if_false, List.length_append, List.length_singleton, ge_iff_le, Nat.reduceLeDiff, decide_eq_true_eq, counted]
  rfl

/-- A channel that R152 keeps off makes no restart. -/
theorem lsThermalRestart_stays_off (off : ((s.modLs t ch LsChannel.cooled).tile t).lsOn ch = false) :
    ∃ s' d, exec (.lsThermalRestart t ch now) s = .next s' ∧ (s.at now).Records s' t ch d ∧
      LsChannel.Switched ((s.tile t).field.ls[ch]).cooled d false := by
  obtain ⟨d, switched, e⟩ := exec_lsThermalRestart ht now down
  rw [off] at switched
  rw [if_pos switched.isOn] at e
  exact ⟨_, d, e, .refl _, switched⟩

/-- A channel that R152 turns on has made a restart, and stays on but at the 32nd. -/
theorem lsThermalRestart_restarts (on : ((s.modLs t ch LsChannel.cooled).tile t).lsOn ch = true) :
    ∃ s' d, exec (.lsThermalRestart t ch now) s = .next s' ∧ (s.at now).Records s' t ch d ∧
      LsChannel.Switched (((s.tile t).field.ls[ch]).cooled.restarted (s.at now).now) d
        (decide ((((s.tile t).field.ls[ch]).recent (s.at now).now).length ≤ 30)) := by
  obtain ⟨d, switched, e⟩ := exec_lsThermalRestart ht now down
  rw [on] at switched
  rw [if_neg (ne_false_of_eq_true switched.isOn)] at e
  have counted := switched.restarted (s.at now).now
  by_cases last : 31 ≤ (((s.tile t).field.ls[ch]).recent (s.at now).now).length
  · have latched : (d.restarted (s.at now).now).thLatch = true := counted.thLatch.trans (thLatch_restarted last)
    obtain ⟨c, latch, off⟩ := lsRefresh1_latched (s.at now) t ch latched
    rw [if_pos last, latch] at e
    rw [decide_eq_false (by omega)]
    exact ⟨_, c, e, told_lsEvent (.refl _), counted.trans off⟩
  · rw [if_neg last] at e
    rw [decide_eq_true (by omega)]
    exact ⟨_, _, e, .refl _, counted⟩

end restart

/-! ### The checks and readings (R153, R158 to R160, R195) -/

/-- An off-state check judged: high before the pull-up is a short to VBAT, high only after it an open load (R158). -/
def LsChannel.measured (c : LsChannel) (before after : Bool) : LsChannel :=
  { c with checking := false, openLoad := !before && after, shortVbat := before }

/-- A reading stored, with the current of a channel that is off (R159). -/
def LsChannel.converted (c : LsChannel) (ch : Fin 10) (code : Nat) : LsChannel :=
  { c with code := BitVec.ofNat 16 (min code 0xFFFE), offCurrent := !c.isOn && lsFlows ch (min code 0xFFFE) }

@[simp] theorem field_lsNote (s : State) (t : TileId) (ch : Fin 10) : ((s.lsNote t ch).tile t).field = (s.tile t).field := by
  unfold State.lsNote
  split
  · exact State.field_modDoor ..
  · rfl

/-- Only the lock channel's findings are noted. -/
theorem lsNote_of_lsRole_ne {s : State} {t : TileId} {ch : Fin 10} (h : (s.tile t).lsRole 14 ≠ ch.val) : s.lsNote t ch = s := by
  rw [State.lsNote, Tile.lsAgainst, beq_false_of_ne h, Bool.false_and, if_neg Bool.false_ne_true]

/-- An event that goes with a finding. -/
theorem told_if_lsEvent {p : Prop} [Decidable p] (s : State) (t : TileId) (code : Nat) (ch : Fin 10) (sense : BitVec 16) :
    State.Told s (if p then s.lsEvent t code ch false sense else s) := told_ite (fun _ => told_lsEvent (.refl s)) fun _ => .refl s

/-- Steps that each change the record of their channel alone change, over a list, the records of its channels. -/
theorem ls_each {t : TileId} {step : State → Fin 10 → State} {g : Fin 10 → LsChannel → LsChannel}
    (h : ∀ s ch, ((step s ch).tile t).field = (s.tile t).field.modLs ch (g ch)) (l : List (Fin 10)) (s : State) :
    ((s.each l step).tile t).field.ls = l.foldl (fun v ch => vmod v ch (g ch)) (s.tile t).field.ls := by
  induction l generalizing s with
  | nil => rfl
  | cons ch l ih =>
    rw [State.each_cons, ih, h]
    rfl

section commands

variable {s : State} {t : TileId} (ht : s.hasTile t = true)
include ht

theorem exec_inrushBlankingEnd (ch : Fin 10) :
    exec (.inrushBlankingEnd t ch) s = .next (s.modLs t ch fun c => { c with blanking := false }) := by
  change execInrushBlankingEnd t ch s = _
  exact onTile_of t s _ ht

theorem exec_openLoadCheckPeriod (acts : (s.tile t).triadActs = true) : exec (.openLoadCheckPeriod t) s =
    .next (s.modLink t fun l => { l with lsCheck := l.lsCheck ||| lsMask fun ch => (s.tile t).olMode ch == 2 }) := by
  change execOpenLoadCheckPeriod t s = _
  rw [execOpenLoadCheckPeriod, onTile_of t s _ ht]
  simp only [acts, if_true]

theorem offStateCheckMeasure_measures {ch : Fin 10} (before after : Bool) (checking : ((s.tile t).field.ls[ch]).checking = true) :
    ∃ s', exec (.offStateCheckMeasure t ch before after) s = .next s' ∧
      State.Told ((s.modLs t ch fun c => c.measured before after).lsNote t ch) s' := by
  change ∃ s', execOffStateCheckMeasure t ch before after s = .next s' ∧ _
  simp only [execOffStateCheckMeasure, onTile_of t s _ ht, checking, Bool.not_true, Bool.false_eq_true, if_false]
  refine ⟨_, rfl, ?_⟩
  exact (told_if_lsEvent _ t 0x42 ch _).trans (told_if_lsEvent _ t 0x43 ch _)

theorem lsSenseConversion_converts (codes : Vector Nat 10) (up : (s.tile t).field.lswUp = true) :
    ∃ s', exec (.lsSenseConversion t codes) s = .next s' ∧
      ∀ ch : Fin 10, (s'.tile t).field.ls[ch] = ((s.tile t).field.ls[ch]).converted ch codes[ch] := by
  change ∃ s', execLsSenseConversion t codes s = .next s' ∧ _
  simp only [execLsSenseConversion, onTile_of t s _ ht, up, Bool.not_true, Bool.false_eq_true, if_false]
  refine ⟨_, rfl, fun ch => ?_⟩
  rw [ls_each (g := fun ch c => c.converted ch codes[ch]) fun s ch => ?_]
  · rw [foldl_vmod_get _ _ (by decide), if_pos (all_lsChannels ch)]
  · have one : (s.modLs t ch fun c => { c with
        code := BitVec.ofNat 16 (min codes[ch] 0xFFFE)
        offCurrent := !((s.tile t).field.ls[ch]).isOn && lsFlows ch (min codes[ch] 0xFFFE) }) =
        s.modLs t ch fun c => c.converted ch codes[ch] := modLs_congr s t rfl
    rw [one, (told_if_lsEvent _ t 0x44 ch _).field, field_lsNote, State.field_modLs]

theorem exec_ls0AgainstCommand (against : lsChannels.any (s.tile t).lsAgainst = true) (runs : (s.tile t).triadRuns = true) :
    exec (.ls0AgainstCommand t) s = .next (s.latchFault t 0x0A) := by
  change execLs0AgainstCommand t s = _
  rw [execLs0AgainstCommand, onTile_of t s _ ht, against, runs]
  rfl

end commands

/-- Settles O28: a check or reading changes the record of its channel, and a restart the record of one that R152 then turns on. -/
theorem loadSwitchChecksAndSense : Obligations.LoadSwitchChecksAndSense := by
  unfold Obligations.LoadSwitchChecksAndSense
  intro s t ht
  refine ⟨exec_inrushBlankingEnd ht, fun ch now down => ?restart, fun acts => ?period, fun ch before after checking => ?measure,
    fun codes up => lsSenseConversion_converts ht codes up, fun against runs => ?against⟩
  case restart =>
    intro recent cooled
    cases on : cooled with
    | false =>
      obtain ⟨s', d, e, records, switched⟩ := lsThermalRestart_stays_off ht now down on
      refine ⟨s', e, records.onlyField, ?_, fun _ => ?_, fun h => absurd h Bool.false_ne_true, records.other⟩
      all_goals rw [records.self]
      · exact switched.thDown
      · exact ⟨switched.isOn, switched.restarts⟩
    | true =>
      obtain ⟨s', d, e, records, switched⟩ := lsThermalRestart_restarts ht now down on
      refine ⟨s', e, records.onlyField, ?_, fun h => absurd h.symm Bool.false_ne_true, fun _ => ?_, records.other⟩
      all_goals rw [records.self]
      · exact switched.thDown
      · exact ⟨switched.restarts, switched.isOn, fun last => switched.thLatch.trans (thLatch_restarted last)⟩
  case period =>
    refine ⟨_, exec_openLoadCheckPeriod ht acts, ?_, fun ch => ?_⟩
    · exact State.modTile_congr s t _ _ (by rw [State.link_modLink])
    · rw [State.link_modLink]
      dsimp only
      rw [BitVec.getLsbD_or, getLsbD_lsMask]
      rfl
  case measure =>
    obtain ⟨s', e, told⟩ := offStateCheckMeasure_measures ht before after checking
    have field : (s'.tile t).field = (s.tile t).field.modLs ch fun c => c.measured before after := by
      rw [told.field, field_lsNote, State.field_modLs]
    refine ⟨s', e, ?_, fun k hk => ?_, fun lock => ?_⟩
    · rw [field, FieldDie.ls_modLs_self]
      rfl
    · rw [field, FieldDie.ls_modLs, if_neg hk.symm]
    · rw [lsNote_of_lsRole_ne (by rw [State.modLs, tile_modField]; exact lock)] at told
      exact State.Told.onlyField told
  case against =>
    have told : State.Told (s.modDoor t fun d => d.latches 0x0A) (s.latchFault t 0x0A) := told_latchFault
    refine ⟨_, exec_ls0AgainstCommand ht against runs, ?_, ?_, ?_⟩
    · rw [told.door, State.door_modDoor]
      exact contains_latches ..
    · rw [told.door, State.door_modDoor]
      rfl
    · rw [told.field, State.field_modDoor]

end Sys2Proof.Machine
end

