-- ==== Sys2Proof/Proofs/FieldInputs.lean ====
section
/-!
PROOFS. The field inputs: raw and debounced levels, the pairs at the first row of R175 that holds, and the train lines (R166, R168, R171, R175,
R188).
-/

namespace Sys2Proof.Machine

/-! ### The record of one pin or pair -/

/-- The field die with the record of one pin changed. -/
def FieldDie.modIo (f : FieldDie) (p : Fin 16) (g : IoPin → IoPin) : FieldDie := { f with io := vmod f.io p g }

theorem FieldDie.io_modIo (f : FieldDie) (p q : Fin 16) (g : IoPin → IoPin) :
    (f.modIo p g).io[q] = if p = q then g f.io[p] else f.io[q] := vmod_get ..

section setPair

variable (f : FieldDie) (p q : PairId) (v : Pair)

theorem FieldDie.pair_setPair : (f.setPair p v).pair q = if q = p then v else f.pair q := by
  cases p <;> cases q <;> rfl

@[simp] theorem FieldDie.pair_setPair_self : (f.setPair p v).pair p = v := by rw [FieldDie.pair_setPair, if_pos rfl]

@[simp] theorem FieldDie.io_setPair : (f.setPair p v).io = f.io := by cases p <;> rfl

@[simp] theorem FieldDie.tpFault_setPair : (f.setPair p v).tpFault = f.tpFault := by cases p <;> rfl

/-- A new status leaves the latches. -/
theorem FieldDie.discLatch_setPair (x : PairStatus) :
    ((f.setPair p { f.pair p with status := x }).pair q).discLatch = (f.pair q).discLatch := by
  rw [FieldDie.pair_setPair]
  split
  case isTrue e => rw [e]
  case isFalse => rfl

end setPair

@[simp] theorem State.inForce_modField (s : State) (t : TileId) (f : FieldDie → FieldDie) :
    ((s.modField t f).tile t).inForce = (s.tile t).inForce := by rw [tile_modField]

/-! ### What R175 judges a pair by -/

section congr

variable {x y : Tile} (hio : y.field.io = x.field.io) (hp : y.inForce = x.inForce)
include hio hp

theorem Tile.pinActive_congr (n : Nat) : y.pinActive n = x.pinActive n := by
  simp only [Tile.pinActive, FieldDie.pin, Tile.par, hio, hp]

theorem Tile.pinFault_congr (ht : y.field.tpFault = x.field.tpFault) (n : Nat) : y.pinFault n = x.pinFault n := by
  simp only [Tile.pinFault, Tile.sourceFault, FieldDie.pin, Tile.par, hio, hp, ht]

end congr

theorem Tile.pairPins_congr {x y : Tile} (hp : y.inForce = x.inForce) (p : PairId) : y.pairPins p = x.pairPins p := by
  simp only [Tile.pairPins, Tile.role, Tile.parN, Tile.par, hp]

/-- What R175 judges the pairs by stands. -/
structure Tile.SamePairInputs (x y : Tile) : Prop where
  io      : y.field.io = x.field.io
  tpFault : y.field.tpFault = x.field.tpFault
  latch   : ∀ p, (y.field.pair p).discLatch = (x.field.pair p).discLatch
  inForce : y.inForce = x.inForce

theorem Tile.SamePairInputs.pairStatus {x y : Tile} (h : Tile.SamePairInputs x y) : y.pairStatus = x.pairStatus := by
  obtain ⟨io, tpFault, latch, inForce⟩ := h
  funext p
  simp only [Tile.pairStatus, Tile.pairPins_congr inForce, Tile.pinFault_congr io inForce tpFault, Tile.pinActive_congr io inForce, latch]

theorem Tile.SamePairInputs.of_field {x y : Tile} (hf : y.field = x.field) (hp : y.inForce = x.inForce) : Tile.SamePairInputs x y :=
  ⟨by rw [hf], by rw [hf], fun _ => by rw [hf], hp⟩

theorem Tile.PairsSettled.congr {x y : Tile} (h : x.PairsSettled) (hf : y.field = x.field) (hp : y.inForce = x.inForce) :
    y.PairsSettled := fun p => by
  rw [hf, (Tile.SamePairInputs.of_field hf hp).pairStatus]
  exact h p

/-- A latched pair is DISCREPANT unless its supervision fails. -/
theorem Tile.pairStatus_of_latched {tl : Tile} {p : PairId} (h : (tl.field.pair p).discLatch = true) :
    tl.pairStatus p = .fault ∨ tl.pairStatus p = .discrepant := by
  simp only [Tile.pairStatus, h, if_true]
  exact ite_eq_or_eq ..

/-- A pair that is not latched, with both channels inactive, is INACTIVE unless its supervision fails. -/
theorem Tile.pairStatus_of_inactive {tl : Tile} {p : PairId} (h : (tl.field.pair p).discLatch = false)
    (h1 : tl.pinActive (tl.pairPins p).1 = false) (h2 : tl.pinActive (tl.pairPins p).2 = false) :
    tl.pairStatus p = .fault ∨ tl.pairStatus p = .inactive := by
  simp only [Tile.pairStatus, h, h1, h2, bne_self_eq_false, Bool.false_eq_true, if_false]
  exact ite_eq_or_eq ..

/-! ### Pairs brought to their status (R175) -/

theorem told_pairRefresh (s : State) (t : TileId) (p : PairId) :
    State.Told (s.modField t fun f => f.setPair p { f.pair p with status := (s.tile t).pairStatus p }) (s.pairRefresh t p) := by
  unfold State.pairRefresh
  exact told_ite (fun _ => told_raiseField (.refl _)) fun _ => .refl _

/-- A new status leaves what the pairs are judged by. -/
theorem samePairInputs_pairRefresh (s : State) (t : TileId) (p : PairId) :
    Tile.SamePairInputs (s.tile t) ((s.pairRefresh t p).tile t) := by
  have told := told_pairRefresh s t p
  have field := told.field_of_modField
  refine ⟨?_, ?_, fun q => ?_, (told.inForce t).trans (State.inForce_modField ..)⟩
  all_goals rw [field]
  · exact FieldDie.io_setPair ..
  · exact FieldDie.tpFault_setPair ..
  · exact FieldDie.discLatch_setPair ..

/-- A change of the field die after it was set. -/
theorem State.Told.modField_after {s s' : State} {t : TileId} {f : FieldDie} (h : State.Told (s.modField t fun _ => f) s')
    (g : FieldDie → FieldDie) : State.Told (s.modField t fun _ => g f) (s'.modField t g) := by
  have set : State.Told ((s.modField t fun _ => f).modField t g) (s'.modField t g) := h.modTile_congr (by rw [h.tiles t]; rfl)
  rwa [State.modField_modField] at set

/-- Steps that, beside telling, each change the field die of a tile, while a condition holds that they keep. -/
theorem told_each_modField {α : Type} {t : TileId} {step : State → α → State} {g : α → FieldDie → FieldDie} {inv : State → Prop}
    (h : ∀ s a, inv s → State.Told (s.modField t (g a)) (step s a) ∧ inv (step s a)) (l : List α) {s : State} (hs : inv s) :
    State.Told (s.modField t fun f => l.foldl (fun f a => g a f) f) (s.each l step) := by
  induction l generalizing s with
  | nil =>
    have same : (s.modField t fun f => f) = s := State.modTile_id s t
    simp only [List.foldl_nil, State.each_nil, same]
    exact .refl s
  | cons a l ih =>
    obtain ⟨told, keeps⟩ := h s a hs
    have rest : State.Told ((s.modField t (g a)).modField t fun f => l.foldl (fun f a => g a f) f)
        ((step s a).modField t fun f => l.foldl (fun f a => g a f) f) := told.modTile_congr (by rw [told.tiles t]; rfl)
    rw [State.modField_modField] at rest
    exact rest.trans (ih keeps)

/-- The field die of a tile, with each pair at the status that R175 gives it. -/
def Tile.judged (tl : Tile) : FieldDie :=
  { tl.field with
    pLeaf := { tl.field.pLeaf with status := tl.pairStatus .leafClosed }
    pLock := { tl.field.pLock with status := tl.pairStatus .lockEngaged }
    pEgress := { tl.field.pEgress with status := tl.pairStatus .egress }
    pIso := { tl.field.pIso with status := tl.pairStatus .isolation } }

@[simp] theorem Tile.io_judged (tl : Tile) : tl.judged.io = tl.field.io := rfl
@[simp] theorem Tile.tpFault_judged (tl : Tile) : tl.judged.tpFault = tl.field.tpFault := rfl
@[simp] theorem Tile.tpPulse_judged (tl : Tile) : tl.judged.tpPulse = tl.field.tpPulse := rfl
@[simp] theorem Tile.tpWindow_judged (tl : Tile) : tl.judged.tpWindow = tl.field.tpWindow := rfl

theorem Tile.judged_congr {x y : Tile} (hf : y.field = x.field) (hp : y.inForce = x.inForce) : y.judged = x.judged := by
  rw [Tile.judged, Tile.judged, (Tile.SamePairInputs.of_field hf hp).pairStatus, hf]

theorem told_pairsRefresh (s : State) (t : TileId) : State.Told (s.modField t fun _ => (s.tile t).judged) (s.pairsRefresh t) := by
  have told := told_each_modField (t := t) (step := fun s p => s.pairRefresh t p)
    (g := fun p f => f.setPair p { f.pair p with status := (s.tile t).pairStatus p })
    (inv := fun x => (x.tile t).pairStatus = (s.tile t).pairStatus)
    (fun x p same => ⟨same ▸ told_pairRefresh x t p, (samePairInputs_pairRefresh x t p).pairStatus.trans same⟩) pairIds rfl
  have judged : (s.modField t fun f => pairIds.foldl (fun f p => f.setPair p { f.pair p with status := (s.tile t).pairStatus p }) f) =
      s.modField t fun _ => (s.tile t).judged := State.modTile_congr s t _ _ rfl
  rwa [judged] at told

/-- Beside telling, the field die became f, with each pair at the status that R175 gives it. -/
def State.Settles (s s' : State) (t : TileId) (f : FieldDie) : Prop :=
  State.Told (s.modField t fun _ => Tile.judged { s.tile t with field := f }) s'

section settles

variable {s s' : State} {t : TileId} {f : FieldDie}

theorem State.Settles.onlyField (h : s.Settles s' t f) : s.OnlyField s' t := State.Told.onlyField h

theorem State.Settles.field (h : s.Settles s' t f) : (s'.tile t).field = Tile.judged { s.tile t with field := f } :=
  State.Told.field_of_modField h

theorem State.Settles.inForce (h : s.Settles s' t f) : (s'.tile t).inForce = (s.tile t).inForce :=
  (State.Told.inForce h t).trans (State.inForce_modField ..)

theorem State.Settles.pairs (h : s.Settles s' t f) : (s'.tile t).PairsSettled := by
  have inputs : Tile.SamePairInputs { s.tile t with field := f } (s'.tile t) := by
    refine ⟨by rw [h.field, Tile.io_judged], by rw [h.field, Tile.tpFault_judged], fun p => ?_, h.inForce⟩
    rw [h.field]
    cases p <;> rfl
  intro p
  rw [inputs.pairStatus, h.field]
  cases p <;> rfl

theorem settles_pairsRefresh (h : State.Told (s.modField t fun _ => f) s') : s.Settles (s'.pairsRefresh t) t f := by
  have judged : (s'.tile t).judged = Tile.judged { s.tile t with field := f } :=
    Tile.judged_congr h.field_of_modField ((h.inForce t).trans (State.inForce_modField ..))
  rw [State.Settles, ← judged]
  exact (h.modField_after fun _ => (s'.tile t).judged).trans (told_pairsRefresh s' t)

end settles

/-- Beside telling, the field die has the discrepancy latch of a pair set to b, and the pair at the status that R175 then gives it. -/
structure State.Latches (s s' : State) (t : TileId) (p : PairId) (b : Bool) : Prop where
  only   : s.OnlyField s' t
  latch  : ((s'.tile t).field.pair p).discLatch = b
  status : ((s'.tile t).field.pair p).status = (s'.tile t).pairStatus p
  active : ∀ n, (s'.tile t).pinActive n = (s.tile t).pinActive n
  pins   : (s'.tile t).pairPins p = (s.tile t).pairPins p

theorem latches_pairRefresh (s : State) (t : TileId) (p : PairId) (b : Bool) :
    s.Latches ((s.modField t fun f => f.setPair p { f.pair p with discLatch := b }).pairRefresh t p) t p b := by
  have told := told_pairRefresh (s.modField t fun f => f.setPair p { f.pair p with discLatch := b }) t p
  have inputs := samePairInputs_pairRefresh (s.modField t fun f => f.setPair p { f.pair p with discLatch := b }) t p
  have field := told.field_of_modField
  rw [State.modField_modField] at told
  have inForce : _ = (s.tile t).inForce := inputs.inForce.trans (State.inForce_modField ..)
  have io : _ = (s.tile t).field.io := inputs.io.trans (by rw [State.field_modField, FieldDie.io_setPair])
  refine ⟨told.onlyField, ?_, ?_, Tile.pinActive_congr io inForce, Tile.pairPins_congr inForce p⟩
  · rw [inputs.latch, State.field_modField, FieldDie.pair_setPair_self]
  · rw [inputs.pairStatus, field, FieldDie.pair_setPair_self]

/-! ### The commands of the inputs -/

/-- The number of a train-line pair (R399). -/
def tlNum : TlPair → Nat
  | .zeroSpeed => 0
  | .release => 1

/-- A train-line pair is held invalid (R188). -/
def Doorway.tlHeld (d : Doorway) : TlPair → Bool
  | .zeroSpeed => d.tlDisc.1
  | .release => d.tlDisc.2

/-- The doorway with a train-line pair held invalid (R188). -/
def Doorway.holdTl (d : Doorway) : TlPair → Doorway
  | .zeroSpeed => { d with tlDisc := (true, d.tlDisc.2) }
  | .release => { d with tlDisc := (d.tlDisc.1, true) }

section commands

variable {s : State} {t : TileId} (ht : s.hasTile t = true)
include ht

theorem exec_ioInputChange (pin : Fin 16) (level : Bool) : exec (.ioInputChange t pin level) s = .next (s.modIo t pin fun p =>
    { p with raw := level
             wentLow := p.wentLow || (((s.tile t).field.tpPulse.1 || (s.tile t).field.tpPulse.2) && !level)
             returned := p.returned || (((s.tile t).field.tpWindow.1 || (s.tile t).field.tpWindow.2) && p.wentLow && level) }) := by
  change execIoInputChange t pin level s = _
  exact onTile_of t s _ ht

theorem ioDebounceExpiry_settles {pin : Fin 16} (on : (s.tile t).field.fioOn = true) (input : (s.tile t).isOut pin.val = false)
    (seen : (s.tile t).blanked pin.val = false) : ∃ s', exec (.ioDebounceExpiry t pin) s = .next s' ∧
      s.Settles s' t ((s.tile t).field.modIo pin fun p => { p with level := p.raw }) := by
  refine ⟨(s.modIo t pin fun p => { p with level := p.raw }).pairsRefresh t, ?_, settles_pairsRefresh (.refl _)⟩
  change execIoDebounceExpiry t pin s = _
  simp only [execIoDebounceExpiry, onTile_of t s _ ht, on, input, seen, Bool.not_true, Bool.or_self, Bool.false_eq_true, if_false]

theorem pairDiscrepancyTimeout_latches {p : PairId}
    (differ : (s.tile t).pinActive ((s.tile t).pairPins p).1 ≠ (s.tile t).pinActive ((s.tile t).pairPins p).2) :
    ∃ s', exec (.pairDiscrepancyTimeout t p) s = .next s' ∧ s.Latches s' t p true := by
  refine ⟨_, ?_, latches_pairRefresh s t p true⟩
  change execPairDiscrepancyTimeout t p s = _
  simp only [execPairDiscrepancyTimeout, onTile_of t s _ ht, beq_iff_eq, differ, if_false]

theorem pairDiscrepantClear_latches {p : PairId} (h1 : (s.tile t).pinActive ((s.tile t).pairPins p).1 = false)
    (h2 : (s.tile t).pinActive ((s.tile t).pairPins p).2 = false) :
    ∃ s', exec (.pairDiscrepantClear t p) s = .next s' ∧ s.Latches s' t p false := by
  refine ⟨_, ?_, latches_pairRefresh s t p false⟩
  change execPairDiscrepantClear t p s = _
  simp only [execPairDiscrepantClear, onTile_of t s _ ht, h1, h2, Bool.or_self, Bool.false_eq_true, if_false]

theorem exec_tlInputChange (l : Fin 4) (level : Bool) :
    exec (.tlInputChange t l level) s = .next (s.modField t fun f => { f with tlRaw := vset f.tlRaw l level }) := by
  change execTlInputChange t l level s = _
  exact onTile_of t s _ ht

theorem exec_tlDebounceExpiry (l : Fin 4) (on : (s.tile t).field.fioOn = true) :
    exec (.tlDebounceExpiry t l) s = .next (s.modField t fun f => { f with tlLevel := vset f.tlLevel l f.tlRaw[l] }) := by
  change execTlDebounceExpiry t l s = _
  simp only [execTlDebounceExpiry, onTile_of t s _ ht, on, if_true]

/-- Of a train-line pair whose channels differ, the first discrepancy is held and told. -/
theorem exec_trainLineDiscrepancy {p : TlPair} (runs : (s.tile t).triadRuns = true)
    (differ : ((s.tile t).tlPair p).1 ≠ ((s.tile t).tlPair p).2) (first : (s.tile t).door.tlHeld p = false) :
    exec (.trainLineDiscrepancy t p) s = .next ((s.modDoor t fun d => d.holdTl p).raise t 0x62 (leBytes 1 (tlNum p))) := by
  change execTrainLineDiscrepancy t p s = _
  cases p <;> rw [Doorway.tlHeld] at first
  all_goals
    simp only [execTrainLineDiscrepancy, onTile_of t s _ ht, runs, Bool.not_true, Bool.false_or, beq_iff_eq, differ, first,
      Bool.false_eq_true, if_false]
    rfl

end commands

/-- Settles O30: an input changes its own record, and every pair that is judged anew stands at the first row of R175 that holds. -/
theorem fieldInputsPairsAndTrainLines : Obligations.FieldInputsPairsAndTrainLines := by
  unfold Obligations.FieldInputsPairsAndTrainLines
  intro s t ht
  refine ⟨exec_ioInputChange ht, fun pin on input seen => ?debounce, fun p differ => ?timeout, fun p h1 h2 => ?clear,
    exec_tlInputChange ht, exec_tlDebounceExpiry ht, fun runs =>
      ⟨exec_trainLineDiscrepancy ht (p := .zeroSpeed) runs, exec_trainLineDiscrepancy ht (p := .release) runs⟩⟩
  case debounce =>
    obtain ⟨s', e, settles⟩ := ioDebounceExpiry_settles ht on input seen
    have io : (s'.tile t).field.io = ((s.tile t).field.modIo pin fun p => { p with level := p.raw }).io := by
      rw [settles.field, Tile.io_judged]
    refine ⟨s', e, settles.onlyField, settles.pairs, ?_, fun q hq => ?_⟩
    all_goals rw [io, FieldDie.io_modIo]
    · rw [if_pos rfl]
    · rw [if_neg hq.symm]
  case timeout =>
    obtain ⟨s', e, latches⟩ := pairDiscrepancyTimeout_latches ht differ
    exact ⟨s', e, latches.only, latches.latch, latches.status, latches.status ▸ Tile.pairStatus_of_latched latches.latch⟩
  case clear =>
    obtain ⟨s', e, latches⟩ := pairDiscrepantClear_latches ht h1 h2
    refine ⟨s', e, latches.only, latches.latch, latches.status ▸ Tile.pairStatus_of_inactive latches.latch ?_ ?_⟩
    all_goals rw [latches.active, latches.pins]
    · exact h1
    · exact h2

end Sys2Proof.Machine
end

