-- ==== Sys2Proof/Proofs/TestPulses.lean ====
section
/-!
PROOFS. The readback of the outputs, the test pulses with their checks, and VIO on every tile (R169, R172 to R174, R177).
-/

namespace Sys2Proof.Machine

/-! ### Outputs (R169, R170, R177) -/

/-- The commanded level to which a readback condition applies (R169). -/
def readbackLevel : ReadbackCond → Bool
  | .highReadsLow => true
  | .lowReadsHigh | .lowSinks | .lowReadsLow => false

/-- The flag that a readback condition sets or clears (R169). -/
def readbackFlag : ReadbackCond → IoPin → IoPin
  | .lowReadsHigh, p => { p with stuckHigh := true }
  | .highReadsLow, p => { p with mismatch := true }
  | .lowSinks, p => { p with mismatch := true }
  | .lowReadsLow, p => { p with stuckHigh := false }

theorem Tile.ioDrive_of_thermal {tl : Tile} {p : Fin 16} (h : (tl.field.io[p]).thermal = true) : tl.ioDrive p = none := by
  rw [Tile.ioDrive, h, Bool.or_true, if_pos rfl]

theorem Tile.ioDrive_of_vioLow {tl : Tile} (h : tl.field.vioOk = false) (p : Fin 16) : tl.ioDrive p = none := by
  rw [Tile.ioDrive, h, Bool.not_false, Bool.or_true, Bool.true_or, if_pos rfl]

theorem State.field_modIo (s : State) (t : TileId) (p : Fin 16) (g : IoPin → IoPin) :
    ((s.modIo t p g).tile t).field = (s.tile t).field.modIo p g := State.field_modField ..

section outputs

variable {s : State} {t : TileId} (ht : s.hasTile t = true) {pin : Fin 16} (on : (s.tile t).field.fioOn = true)
  (out : (s.tile t).isOut pin.val = true)
include ht on out

/-- A condition that meets the commanded level acts on its flag. -/
theorem exec_outputReadbackFault (c : ReadbackCond) (level : (s.tile t).outLevel pin = readbackLevel c) :
    exec (.outputReadbackFault t pin c) s = .next (s.modIo t pin (readbackFlag c)) := by
  change execOutputReadbackFault t pin c s = _
  simp only [execOutputReadbackFault, onTile_of t s _ ht, on, out, level, Bool.not_true, Bool.or_self, Bool.false_eq_true, if_false]
  cases c <;> rfl

theorem exec_outputThermalShutdown :
    exec (.outputThermalShutdown t pin) s = .next (s.modIo t pin fun p => { p with thermal := true }) := by
  change execOutputThermalShutdown t pin s = _
  simp only [execOutputThermalShutdown, onTile_of t s _ ht, on, out, Bool.and_self, if_true]

end outputs

/-! ### The field die alone -/

section onlyField

variable {s s' : State} {t : TileId}

theorem State.OnlyField.refl (s : State) (t : TileId) : s.OnlyField s t := by
  have same : (s.modField t fun _ => (s.tile t).field) = s := State.modTile_self s t
  rw [State.OnlyField, same]
  exact .refl s

theorem State.OnlyField.onlyTile (h : s.OnlyField s' t) : s.OnlyTile s' t :=
  (onlyTile_modTile s t _).trans (State.Told.onlyTile h t)

theorem State.OnlyField.others (h : s.OnlyField s' t) {u : TileId} (hu : u ≠ t) : Tile.Told (s.tile u) (s'.tile u) :=
  h.onlyTile.others u hu

theorem State.OnlyField.self (h : s.OnlyField s' t) : Tile.Told { s.tile t with field := (s'.tile t).field } (s'.tile t) := by
  have told := State.Told.tiles h t
  rwa [tile_modField] at told

end onlyField

/-! ### The sources (R172) -/

@[simp] theorem srcGet_srcSet (v : Bool × Bool) (src : TestSource) (x : Bool) : srcGet (srcSet v src x) src = x := by
  cases src <;> rfl

theorem srcCode_ne_zero (src : TestSource) : srcCode src ≠ 0 := by cases src <;> decide

/-- The field die as a pulse and its window begin, the levels before it taken (R172 to R174). -/
def FieldDie.pulsed (f : FieldDie) (src : TestSource) : FieldDie :=
  { f with
    tpPulse := srcSet f.tpPulse src true, tpWindow := srcSet f.tpWindow src true
    io := vmap (fun p => { p with before := p.raw, wentLow := false, returned := false }) f.io }

/-- The field die with the fault of a source set or cleared; a fault ends pulse and window (R172). -/
def FieldDie.sourced (f : FieldDie) (src : TestSource) (bad : Bool) : FieldDie :=
  { f with
    tpFault := srcSet f.tpFault src bad, tpPulse := srcSet f.tpPulse src (srcGet f.tpPulse src && !bad)
    tpWindow := srcSet f.tpWindow src (srcGet f.tpWindow src && !bad) }

theorem told_edgeFaults {s0 s : State} {t : TileId} {which : Nat → Bool} {flag : Nat} (h : State.Told s0 s) :
    State.Told s0 (s.edgeFaults t which flag) :=
  told_each h fun _ _ h => told_ite (fun _ => told_raiseField h) fun _ => h

theorem settles_sourceSet {s s' : State} {t : TileId} {f : FieldDie} (h : State.Told (s.modField t fun _ => f) s') (src : TestSource)
    (bad : Bool) : s.Settles (s'.sourceSet t src bad) t (f.sourced src bad) :=
  have set := h.modField_after fun f => f.sourced src bad
  settles_pairsRefresh (told_ite (fun _ => told_edgeFaults set) fun _ => set)

section sources

variable {s : State} {t : TileId} (ht : s.hasTile t = true) (src : TestSource)
include ht

theorem exec_testPulseStart (on : (s.tile t).field.fioOn = true) (vio : (s.tile t).field.vioOk = true)
    (works : srcGet (s.tile t).field.tpFault src = false) :
    exec (.testPulseStart t src) s = .next (s.modField t fun f => f.pulsed src) := by
  change execTestPulseStart t src s = _
  simp only [execTestPulseStart, onTile_of t s _ ht, on, vio, works, Bool.not_true, Bool.or_self, Bool.false_eq_true, if_false]
  rfl

theorem exec_testPulseEnd :
    exec (.testPulseEnd t src) s = .next (s.modField t fun f => { f with tpPulse := srcSet f.tpPulse src false }) := by
  change execTestPulseEnd t src s = _
  exact onTile_of t s _ ht

theorem testSourceFault_settles (on : (s.tile t).field.fioOn = true) : ∃ s', exec (.testSourceFault t src) s = .next s' ∧
    s.Settles s' t ((s.tile t).field.sourced src true) := by
  refine ⟨_, ?_, settles_sourceSet (State.OnlyField.refl s t) src true⟩
  change execTestSourceFault t src s = _
  simp only [execTestSourceFault, onTile_of t s _ ht, on, if_true]

theorem testSourceRetry_settles (on : (s.tile t).field.fioOn = true) (vio : (s.tile t).field.vioOk = true)
    (fault : srcGet (s.tile t).field.tpFault src = true) : ∃ s', exec (.testSourceRetry t src true) s = .next s' ∧
      s.Settles s' t ((s.tile t).field.sourced src false) := by
  refine ⟨_, ?_, settles_sourceSet (State.OnlyField.refl s t) src false⟩
  change execTestSourceRetry t src true s = _
  simp only [execTestSourceRetry, onTile_of t s _ ht, on, vio, fault, Bool.and_self, if_true]

end sources

/-! ### The checks of a pulse (R174) -/

theorem checkCount_fail (fails passes : Nat) (flag : Bool) :
    (checkCount fails passes flag true).2.1 = 0 ∧ (fails ≥ 1 → (checkCount fails passes flag true).2.2.1 = true) := by
  refine ⟨rfl, fun second => ?_⟩
  have : fails + 1 ≥ 2 := Nat.succ_le_succ second
  simp [checkCount, this]

theorem checkCount_pass (fails passes : Nat) (flag : Bool) :
    (checkCount fails passes flag false).1 = 0 ∧ (passes ≥ 3 → (checkCount fails passes flag false).2.2.1 = false) := by
  refine ⟨rfl, fun fourth => ?_⟩
  have : passes + 1 ≥ 4 := Nat.succ_le_succ fourth
  simp [checkCount, this]

/-- A pin after the check of a pulse of its own source. -/
def IoPin.ownChecked (p : IoPin) : IoPin :=
  let c := checkCount p.ownFails p.ownPasses p.noPulse (!p.wentLow)
  { p with ownFails := c.1, ownPasses := c.2.1, noPulse := c.2.2.1 }

/-- A pin after the check of a pulse of the other source. -/
def IoPin.othChecked (p : IoPin) : IoPin :=
  let c := checkCount p.othFails p.othPasses p.foreign p.returned
  { p with othFails := c.1, othPasses := c.2.1, foreign := c.2.2.1 }

section pinChecks

variable {p : IoPin}

theorem IoPin.ownChecked_fail (h : p.wentLow = false) :
    p.ownChecked.ownPasses = 0 ∧ (p.ownFails ≥ 1 → p.ownChecked.noPulse = true) := by
  rw [IoPin.ownChecked, h]
  exact checkCount_fail p.ownFails p.ownPasses p.noPulse

theorem IoPin.ownChecked_pass (h : p.wentLow = true) :
    p.ownChecked.ownFails = 0 ∧ (p.ownPasses ≥ 3 → p.ownChecked.noPulse = false) := by
  rw [IoPin.ownChecked, h]
  exact checkCount_pass p.ownFails p.ownPasses p.noPulse

theorem IoPin.othChecked_fail (h : p.returned = true) :
    p.othChecked.othPasses = 0 ∧ (p.othFails ≥ 1 → p.othChecked.foreign = true) := by
  rw [IoPin.othChecked, h]
  exact checkCount_fail p.othFails p.othPasses p.foreign

theorem IoPin.othChecked_pass (h : p.returned = false) :
    p.othChecked.othFails = 0 ∧ (p.othPasses ≥ 3 → p.othChecked.foreign = false) := by
  rw [IoPin.othChecked, h]
  exact checkCount_pass p.othFails p.othPasses p.foreign

end pinChecks

/-- A pin after the close of a window: an input that was high before the pulse and has a source is checked (R174). -/
def Tile.pinChecked (tl : Tile) (src : TestSource) (pin : Fin 16) (p : IoPin) : IoPin :=
  if !p.before || tl.isOut pin.val || tl.par 0x0C 4 pin.val == 0 then p
  else if tl.par 0x0C 4 pin.val == srcCode src then p.ownChecked
  else p.othChecked

section checked

variable {tl : Tile} {src : TestSource} {pin : Fin 16} {p : IoPin} (before : p.before = true) (input : tl.isOut pin.val = false)
include before input

theorem Tile.pinChecked_own (own : tl.par 0x0C 4 pin.val = srcCode src) : tl.pinChecked src pin p = p.ownChecked := by
  simp [Tile.pinChecked, before, input, own, srcCode_ne_zero]

theorem Tile.pinChecked_oth (other : tl.par 0x0C 4 pin.val ≠ srcCode src) (fed : tl.par 0x0C 4 pin.val ≠ 0) :
    tl.pinChecked src pin p = p.othChecked := by
  simp [Tile.pinChecked, before, input, other, fed]

end checked

theorem Tile.pinChecked_congr {x y : Tile} (hp : y.inForce = x.inForce) : y.pinChecked = x.pinChecked := by
  have par (table row idx : Nat) : y.par table row idx = x.par table row idx := by rw [Tile.par, hp, Tile.par]
  funext src pin p
  rw [Tile.pinChecked, Tile.isOut, par, par]
  rfl

theorem modIo_congr (s : State) (t : TileId) {p : Fin 16} {f g : IoPin → IoPin}
    (h : f (s.tile t).field.io[p] = g (s.tile t).field.io[p]) : s.modIo t p f = s.modIo t p g := by
  unfold State.modIo State.modField
  exact State.modTile_congr _ _ _ _ (by dsimp only; rw [vmod_congr h])

theorem modIo_id (s : State) (t : TileId) (p : Fin 16) : (s.modIo t p fun x => x) = s := by
  simp only [State.modIo, vmod_self]
  exact State.modTile_id s t

/-- The check of an input changes its own record and tells of a flag that is set. -/
theorem told_pulseCheck (s : State) (t : TileId) (src : TestSource) (pin : Fin 16) :
    State.Told (s.modIo t pin ((s.tile t).pinChecked src pin)) (s.pulseCheck t src pin) := by
  have record {g : IoPin → IoPin} (h : (s.tile t).pinChecked src pin (s.tile t).field.io[pin] = g (s.tile t).field.io[pin]) :
      State.Told (s.modIo t pin ((s.tile t).pinChecked src pin)) (s.modIo t pin g) := by
    rw [modIo_congr s t h]
    exact .refl _
  unfold State.pulseCheck
  dsimp only
  split
  case isTrue skipped =>
    have told := record (g := fun p => p) (if_pos skipped)
    rwa [modIo_id] at told
  case isFalse checked =>
    split
    case isTrue own =>
      refine told_ite (fun _ => told_edgeFaults (told_raiseField (record ?_))) fun _ => record ?_
      all_goals exact (if_neg checked).trans (if_pos own)
    case isFalse other =>
      refine told_ite (fun _ => told_edgeFaults (told_raiseField (record ?_))) fun _ => record ?_
      all_goals exact (if_neg checked).trans (if_neg other)

theorem FieldDie.foldl_modIo (g : Fin 16 → IoPin → IoPin) (l : List (Fin 16)) (f : FieldDie) :
    l.foldl (fun f p => f.modIo p (g p)) f = { f with io := l.foldl (fun v p => vmod v p (g p)) f.io } := by
  induction l generalizing f with
  | nil => rfl
  | cons p l ih => exact ih _

/-- The field die with every pin checked. -/
def Tile.pulseChecked (tl : Tile) (src : TestSource) (f : FieldDie) : FieldDie :=
  { f with io := ioPins.foldl (fun v p => vmod v p (tl.pinChecked src p)) f.io }

theorem Tile.io_pulseChecked (tl : Tile) (src : TestSource) (f : FieldDie) (p : Fin 16) :
    (tl.pulseChecked src f).io[p] = tl.pinChecked src p f.io[p] :=
  (foldl_vmod_get _ _ (by decide) _ _).trans (if_pos (all_ioPins p))

theorem told_pulseChecks {s s' : State} {t : TileId} {f : FieldDie} (h : State.Told (s.modField t fun _ => f) s') (src : TestSource) :
    State.Told (s.modField t fun _ => (s.tile t).pulseChecked src f) (s'.each ioPins fun s p => s.pulseCheck t src p) := by
  have told := told_each_modField (t := t) (step := fun s p => s.pulseCheck t src p)
    (g := fun p f => f.modIo p ((s.tile t).pinChecked src p)) (inv := fun x => (x.tile t).inForce = (s.tile t).inForce)
    (fun x p same => by
      have check := told_pulseCheck x t src p
      refine ⟨?_, (check.inForce t).trans ((State.inForce_modField ..).trans same)⟩
      rwa [Tile.pinChecked_congr same] at check)
    ioPins ((h.inForce t).trans (State.inForce_modField ..))
  simp only [FieldDie.foldl_modIo] at told
  exact (h.modField_after fun f => (s.tile t).pulseChecked src f).trans told

/-- What the bittern monitor has seen is its own (R185). -/
theorem FieldDie.bitternPulse_eq (f : FieldDie) (src : TestSource) (now : Nat) : f.bitternPulse src now =
    { f with
      bitLow := (f.bitternPulse src now).bitLow, bitForeign := (f.bitternPulse src now).bitForeign
      proofs := (f.bitternPulse src now).proofs, bittern := (f.bitternPulse src now).bittern, srb := (f.bitternPulse src now).srb } := by
  refine List.foldlRecOn (motive := fun g : FieldDie => g = { f with
    bitLow := g.bitLow, bitForeign := g.bitForeign, proofs := g.proofs, bittern := g.bittern, srb := g.srb }) _ _ rfl fun g hg ch _ => ?_
  rw [hg]
  dsimp only
  split_ifs <;> rfl

section bitternPulse

variable (f : FieldDie) (src : TestSource) (now : Nat)

theorem FieldDie.io_bitternPulse : (f.bitternPulse src now).io = f.io := by rw [FieldDie.bitternPulse_eq]

theorem FieldDie.tpWindow_bitternPulse : (f.bitternPulse src now).tpWindow = f.tpWindow := by
  rw [FieldDie.bitternPulse_eq]

theorem FieldDie.tpPulse_bitternPulse : (f.bitternPulse src now).tpPulse = f.tpPulse := by
  rw [FieldDie.bitternPulse_eq]

end bitternPulse

/-! ### The close of a window (R115, R173, R174) -/

/-- The field die with the window and the pulse of a source closed. -/
def FieldDie.windowClosed (f : FieldDie) (src : TestSource) : FieldDie :=
  { f with tpWindow := srcSet f.tpWindow src false, tpPulse := srcSet f.tpPulse src false }

/-- The field die after the close of a window, its pins checked, and what the bittern monitor has seen noted. -/
def Tile.windowChecked (tl : Tile) (src : TestSource) (now : Nat) : FieldDie :=
  (tl.pulseChecked src (tl.field.windowClosed src)).bitternPulse src now

/-- An edge that acts on its level trips an axis, and changes nothing else but the doorway and the log. -/
theorem edgeFrame_edgeLevels (s : State) (t : TileId) :
    State.Frame edgeFraming t s (s.each AxisId.all fun s a => s.edgeLevel t a) :=
  frame_each (.refl _ t s) fun _ _ h => frame_ite (edgeFrame_fabricTrip h) h

/-- What the close of a window leaves: the window and the pulse are over, each pin has been checked, and the pairs follow. -/
structure State.WindowCloses (s s' : State) (t : TileId) (src : TestSource) : Prop where
  only   : s.OnlyTile s' t
  pairs  : (s'.tile t).PairsSettled
  window : srcGet (s'.tile t).field.tpWindow src = false
  pulse  : srcGet (s'.tile t).field.tpPulse src = false
  io     : ∀ p : Fin 16, (s'.tile t).field.io[p] = (s.tile t).pinChecked src p (s.tile t).field.io[p]

theorem settles_windowChecked (s : State) (t : TileId) (src : TestSource) (now : Nat) :
    s.Settles ((((s.modField t fun f => f.windowClosed src).each ioPins fun s p => s.pulseCheck t src p).modField t
      fun f => f.bitternPulse src now).pairsRefresh t) t ((s.tile t).windowChecked src now) := by
  have closed : State.Told (s.modField t fun _ => (s.tile t).field.windowClosed src) (s.modField t fun f => f.windowClosed src) := .refl _
  exact settles_pairsRefresh ((told_pulseChecks closed src).modField_after fun f => f.bitternPulse src now)

section windowChecked

variable (tl : Tile) (src : TestSource) (now : Nat)

theorem Tile.tpWindow_windowChecked : (tl.windowChecked src now).tpWindow = srcSet tl.field.tpWindow src false :=
  FieldDie.tpWindow_bitternPulse ..

theorem Tile.tpPulse_windowChecked : (tl.windowChecked src now).tpPulse = srcSet tl.field.tpPulse src false :=
  FieldDie.tpPulse_bitternPulse ..

theorem Tile.io_windowChecked (p : Fin 16) : (tl.windowChecked src now).io[p] = tl.pinChecked src p tl.field.io[p] := by
  rw [Tile.windowChecked, FieldDie.io_bitternPulse, Tile.io_pulseChecked]
  rfl

end windowChecked

theorem windowCloses_of_settles {s s1 s' : State} {t : TileId} {src : TestSource} {now : Nat}
    (h : s.Settles s1 t ((s.tile t).windowChecked src now)) (k : State.Frame edgeFraming t s1 s') : s.WindowCloses s' t src := by
  obtain ⟨only, edges⟩ := k
  have field1 : (s'.tile t).field = (s1.tile t).field := by rw [edges.rest]
  have inForce : (s'.tile t).inForce = (s1.tile t).inForce := by rw [edges.rest]
  refine ⟨h.onlyField.onlyTile.trans only, h.pairs.congr field1 inForce, ?_, ?_, fun p => ?_⟩
  all_goals rw [field1, h.field]
  · rw [Tile.tpWindow_judged, Tile.tpWindow_windowChecked, srcGet_srcSet]
  · rw [Tile.tpPulse_judged, Tile.tpPulse_windowChecked, srcGet_srcSet]
  · exact Tile.io_windowChecked ..

theorem blankingWindowClose_closes {s : State} {t : TileId} (ht : s.hasTile t = true) {src : TestSource}
    (opened : srcGet (s.tile t).field.tpWindow src = true) : ∃ s', exec (.blankingWindowClose t src) s = .next s' ∧ s.WindowCloses s' t src := by
  refine ⟨_, ?_, windowCloses_of_settles (settles_windowChecked s t src s.now) (edgeFrame_edgeLevels _ t)⟩
  change execBlankingWindowClose t src s = _
  simp only [execBlankingWindowClose, onTile_of t s _ ht, opened, Bool.not_true, Bool.false_eq_true, if_false]
  rfl

/-! ### VIO (R177) -/

/-- VIO has come or gone on a tile: both sources are clear or at fault, the pairs follow, and the rest stands. -/
structure Tile.VioTurns (x y : Tile) (ok : Bool) : Prop where
  vio   : y.field.vioOk = ok
  fault : y.field.tpFault = (!ok, !ok)
  pairs : y.PairsSettled
  rest  : Tile.Told { x with field := y.field } y

section vio

variable {x y z : Tile} {ok : Bool}

theorem Tile.Told.field (h : Tile.Told x y) : y.field = x.field := by rw [h]

theorem Tile.VioTurns.after (h : Tile.VioTurns x y ok) (k : Tile.Told z x) : Tile.VioTurns z y ok := by
  refine ⟨h.vio, h.fault, h.pairs, Tile.Told.trans ?_ h.rest⟩
  rw [k]
  rfl

theorem Tile.VioTurns.told (h : Tile.VioTurns x y ok) (k : Tile.Told y z) : Tile.VioTurns x z ok := by
  obtain ⟨vio, fault, pairs, rest⟩ := h
  refine ⟨?_, ?_, pairs.congr k.field (by rw [k]), ?_⟩
  all_goals rw [k.field]
  · exact vio
  · exact fault
  · exact rest.trans k

end vio

/-- Steps that each change the field die of their tile alone bring every tile of a list its own step, once. -/
theorem each_brings {step : State → TileId → State} {t : TileId} (only : ∀ (s : State) u, s.OnlyField (step s u) u) {l : List TileId}
    (once : l.Nodup) (mem : t ∈ l) (s : State) :
    ∃ x : State, Tile.Told (s.tile t) (x.tile t) ∧ Tile.Told ((step x t).tile t) ((s.each l step).tile t) := by
  have passes (l : List TileId) (out : t ∉ l) (s : State) : Tile.Told (s.tile t) ((s.each l step).tile t) := by
    induction l generalizing s with
    | nil => exact .refl _
    | cons u l ih =>
      exact ((only s u).others (List.ne_of_not_mem_cons out)).trans (ih (List.not_mem_of_not_mem_cons out) _)
  induction l generalizing s with
  | nil => exact absurd mem List.not_mem_nil
  | cons u l ih =>
    obtain ⟨out, once⟩ := List.nodup_cons.mp once
    rcases List.mem_cons.mp mem with rfl | mem
    · exact ⟨s, .refl _, passes l out _⟩
    · obtain ⟨x, before, after⟩ := ih once mem (step s u)
      have ne : t ≠ u := fun e => out (e ▸ mem)
      exact ⟨x, ((only s u).others ne).trans before, after⟩

theorem nodup_tileIds (s : State) : s.tileIds.Nodup := List.Nodup.filter _ (by decide)

/-- VIO turns on every tile of the part on which it stood otherwise. -/
theorem vioTurns_each {s : State} {t : TileId} {step : State → TileId → State} {ok : Bool} (only : ∀ (s : State) u, s.OnlyField (step s u) u)
    (turns : ∀ s u, (s.tile u).field.vioOk = !ok → Tile.VioTurns (s.tile u) ((step s u).tile u) ok) (ht : s.hasTile t = true)
    (was : (s.tile t).field.vioOk = !ok) : Tile.VioTurns (s.tile t) ((s.each s.tileIds step).tile t) ok := by
  obtain ⟨x, before, after⟩ := each_brings only (nodup_tileIds s) (mem_tileIds ht) s
  exact ((turns x t (before.field ▸ was)).after before).told after

section turns

variable (s : State) (t : TileId)

theorem settles_vioFalls (h : (s.tile t).field.vioOk = true) :
    ∃ f, s.Settles (s.vioFalls t) t f ∧ f.vioOk = false ∧ f.tpFault = (true, true) := by
  have lost : State.Told (s.modField t fun _ => { (s.tile t).field with vioOk := false })
      ((s.modField t fun f => { f with vioOk := false }).raiseField t 0x4A []) := told_raiseField (.refl _)
  simp only [State.vioFalls, h, Bool.not_true, Bool.false_eq_true, if_false]
  exact ⟨_, settles_sourceSet (settles_sourceSet lost .tpa true) .tpb true, rfl, rfl⟩

theorem settles_vioReturns (h : (s.tile t).field.vioOk = false) :
    ∃ f, s.Settles (s.vioReturns t) t f ∧ f.vioOk = true ∧ f.tpFault = (false, false) := by
  have back : State.Told (s.modField t fun _ => { (s.tile t).field with vioOk := true })
      (s.modField t fun f => { f with vioOk := true }) := .refl _
  simp only [State.vioReturns, h, Bool.false_eq_true, if_false]
  exact ⟨_, settles_sourceSet (settles_sourceSet back .tpa false) .tpb false, rfl, rfl⟩

end turns

theorem State.Settles.vioTurns {s s' : State} {t : TileId} {f : FieldDie} {ok : Bool} (h : s.Settles s' t f) (vio : f.vioOk = ok)
    (fault : f.tpFault = (!ok, !ok)) : Tile.VioTurns (s.tile t) (s'.tile t) ok := by
  refine ⟨?_, ?_, h.pairs, h.onlyField.self⟩
  all_goals rw [h.field]
  · exact vio
  · exact fault

theorem onlyField_vioFalls (s : State) (t : TileId) : s.OnlyField (s.vioFalls t) t := by
  cases h : (s.tile t).field.vioOk
  case false =>
    rw [State.vioFalls, h]
    exact .refl s t
  case true =>
    obtain ⟨f, settles, -⟩ := settles_vioFalls s t h
    exact settles.onlyField

theorem onlyField_vioReturns (s : State) (t : TileId) : s.OnlyField (s.vioReturns t) t := by
  cases h : (s.tile t).field.vioOk
  case true =>
    rw [State.vioReturns, h]
    exact .refl s t
  case false =>
    obtain ⟨f, settles, -⟩ := settles_vioReturns s t h
    exact settles.onlyField

theorem vioLoss_turns (s : State) : ∃ s', exec .vioLoss s = .next s' ∧ ∀ t, s.hasTile t = true → (s.tile t).field.vioOk = true →
    Tile.VioTurns (s.tile t) (s'.tile t) false := by
  refine ⟨_, rfl, fun t ht stood => vioTurns_each onlyField_vioFalls (fun s u h => ?_) ht stood⟩
  obtain ⟨f, settles, vio, fault⟩ := settles_vioFalls s u h
  exact settles.vioTurns vio fault

theorem vioRecovery_turns (s : State) : ∃ s', exec .vioRecovery s = .next s' ∧
    ∀ t, s.hasTile t = true → (s.tile t).field.vioOk = false → Tile.VioTurns (s.tile t) (s'.tile t) true := by
  refine ⟨_, rfl, fun t ht lost => vioTurns_each onlyField_vioReturns (fun s u h => ?_) ht lost⟩
  obtain ⟨f, settles, vio, fault⟩ := settles_vioReturns s u h
  exact settles.vioTurns vio fault

/-- Settles O31: each finding acts on its flag, the close of a window checks every pin and then the pairs, and VIO turns tile by tile. -/
theorem outputReadbackAndTestPulses : Obligations.OutputReadbackAndTestPulses := by
  unfold Obligations.OutputReadbackAndTestPulses
  refine ⟨fun s t ht => ⟨fun pin on out => ⟨fun low => ?low, fun high => ?high, exec_outputThermalShutdown ht on out, ?off⟩,
    fun src on vio works => ?start, exec_testPulseEnd ht, fun src opened => ?own, fun src opened => ?other, fun src on => ?fault,
    fun src on vio bad => ?retry⟩, fun s => ⟨?loss, ?recovery⟩⟩
  case low =>
    exact ⟨exec_outputReadbackFault ht on out .lowReadsHigh low, exec_outputReadbackFault ht on out .lowSinks low,
      exec_outputReadbackFault ht on out .lowReadsLow low⟩
  case high => exact exec_outputReadbackFault ht on out .highReadsLow high
  case off =>
    refine Tile.ioDrive_of_thermal ?_
    rw [State.field_modIo, FieldDie.io_modIo, if_pos rfl]
  case start =>
    have told : State.Told (s.modField t fun f => f.pulsed src) (s.modField t fun f => f.pulsed src) := .refl _
    refine ⟨_, exec_testPulseStart ht src on vio works, told.onlyField, ?_, ?_, fun p => ?_⟩
    all_goals rw [State.field_modField]
    · exact srcGet_srcSet ..
    · exact srcGet_srcSet ..
    · exact vmap_get ..
  case own =>
    obtain ⟨s', e, closes⟩ := blankingWindowClose_closes ht opened
    refine ⟨s', e, closes.only, closes.pairs, closes.window, closes.pulse, fun p before input own => ?_⟩
    rw [closes.io, Tile.pinChecked_own before input own]
    exact ⟨IoPin.ownChecked_fail, IoPin.ownChecked_pass⟩
  case other =>
    obtain ⟨s', e, closes⟩ := blankingWindowClose_closes ht opened
    refine ⟨s', e, fun p before input other fed => ?_⟩
    rw [closes.io, Tile.pinChecked_oth before input other fed]
    exact ⟨IoPin.othChecked_fail, IoPin.othChecked_pass⟩
  case fault =>
    obtain ⟨s', e, settles⟩ := testSourceFault_settles ht src on
    refine ⟨s', e, settles.onlyField, settles.pairs, ?_, ?_⟩
    all_goals
      rw [settles.field]
      exact (srcGet_srcSet ..).trans (by simp)
  case retry =>
    obtain ⟨s', e, settles⟩ := testSourceRetry_settles ht src on vio bad
    refine ⟨s', e, settles.onlyField, settles.pairs, ?_⟩
    rw [settles.field]
    exact srcGet_srcSet ..
  case loss =>
    obtain ⟨s', e, turns⟩ := vioLoss_turns s
    refine ⟨s', e, fun t ht stood => ?_⟩
    obtain ⟨vio, fault, pairs, rest⟩ := turns t ht stood
    exact ⟨vio, fault, pairs, Tile.ioDrive_of_vioLow vio, rest⟩
  case recovery =>
    obtain ⟨s', e, turns⟩ := vioRecovery_turns s
    refine ⟨s', e, fun t ht lost => ?_⟩
    obtain ⟨vio, fault, pairs, rest⟩ := turns t ht lost
    exact ⟨vio, fault, pairs, rest⟩

end Sys2Proof.Machine
end

