-- ==== Sys2Proof/Proofs/SafeContacts.lean ====
section
/-!
PROOFS. The contacts of the safe-state chain: SRA by the six conditions of R182, and SRB by the channels of the bittern monitor (R182, R184 to
R187, R193, R201).
-/

namespace Sys2Proof.Machine

/-! ### SRA (R182) -/

/-- The command of SRA is none of what the safety faults are judged by (R195). -/
theorem faults_sraCmd (s : State) (t : TileId) (b : Bool) : (s.modDoor t fun d => { d with sraCmd := b }).faults t = s.faults t := by
  unfold State.faults
  rw [sealOk_modDoor, State.modDoor, State.tile_modTile_self]
  rfl

theorem sraCloses_sraCmd (s : State) (t : TileId) (b : Bool) : (s.modDoor t fun d => { d with sraCmd := b }).sraCloses t = s.sraCloses t := by
  unfold State.sraCloses
  rw [faults_sraCmd, sealOk_modDoor, State.modDoor, State.tile_modTile_self]
  rfl

/-- The judgement ends with the command that its own outcome gives. -/
theorem sraCmd_sraEval (s : State) (t : TileId) : ((s.sraEval t).tile t).door.sraCmd = (s.sraEval t).sraCloses t := by
  unfold State.sraEval
  rw [sraCloses_sraCmd, State.door_modDoor]

theorem sraCloses_iff (s : State) (t : TileId) : s.sraCloses t = true ↔
    ((s.tile t).door.st = .locked ∨ (s.tile t).door.st = .released ∨ (s.tile t).door.st = .unreferenced) ∧
    (s.tile t).door.calRunning = false ∧ (s.tile t).leafProven = true ∧ (s.tile t).lockProven = true ∧ (s.tile t).stowProven = true ∧
    s.faults t = [] ∧ s.sealOk = true ∧ (s.tile t).door.proofOk = true ∧ (s.tile t).link.up.fallback = false := by
  simp only [State.sraCloses, Tile.sraRows12, Tile.provenClosed, Bool.and_eq_true, Bool.or_eq_true, beq_iff_eq, Bool.not_eq_true',
    List.isEmpty_iff, and_assoc, or_assoc]

/-- Settles O13: the judgement closes SRA by the conditions of R182 on the state that it leaves. -/
theorem sraIsCommandedByItsSixConditions : Obligations.SraIsCommandedByItsSixConditions := by
  unfold Obligations.SraIsCommandedByItsSixConditions
  intro s t
  dsimp only
  rw [sraCmd_sraEval, sraCloses_iff]

/-! ### The proofs of the channels (R185, R186) -/

/-- The bit of a channel of the bittern monitor. -/
def channelBit (ch : Fin 4) : BitVec 4 := BitVec.ofNat 4 (2 ^ ch.val)

theorem getLsbD_channelBit (ch : Fin 4) : (channelBit ch).getLsbD ch.val = true := getLsbD_pkgBit ch

theorem getLsbD_dropped (v : BitVec 4) (ch : Fin 4) : (v &&& ~~~channelBit ch).getLsbD ch.val = false := by
  rw [BitVec.getLsbD_and, BitVec.getLsbD_not, getLsbD_channelBit, Bool.not_true, Bool.and_false, Bool.and_false]

theorem ne_fifteen_of_unproven {v : BitVec 4} {ch : Fin 4} (h : v.getLsbD ch.val = false) : v ≠ 15 := by
  rintro rfl
  revert ch
  decide

section proofs

variable (f : FieldDie) (ch : Fin 4)

/-- SRB stands as the monitor's state does (R186). -/
theorem FieldDie.srb_bitternEval : f.bitternEval.srb = true ↔ f.bitternEval.bittern = .closed := beq_iff_eq

/-- Outside FAULT the monitor is CLOSED exactly with all four proofs and without the fallback image (R186). -/
theorem FieldDie.bitternEval_closed_iff :
    f.bitternEval.bittern = .closed ↔ f.bittern ≠ .fault ∧ f.proofs = 15 ∧ f.fallback = false := by
  unfold FieldDie.bitternEval
  cases f.bittern <;> simp

theorem FieldDie.bitternEval_fault (h : f.bittern = .fault) : f.bitternEval.bittern = .fault := by
  unfold FieldDie.bitternEval
  rw [h]

/-- A proof that is dropped leaves the monitor out of CLOSED. -/
theorem FieldDie.bittern_bitternProof_off : (f.bitternProof ch false).bittern ≠ .closed := fun closed => by
  obtain ⟨-, all, -⟩ := (FieldDie.bitternEval_closed_iff _).mp closed
  exact ne_fifteen_of_unproven (getLsbD_dropped f.proofs ch) all

theorem FieldDie.srb_bitternProof_off : (f.bitternProof ch false).srb = false := by
  refine Bool.eq_false_of_not_eq_true fun closed => ?_
  exact f.bittern_bitternProof_off ch ((FieldDie.srb_bitternEval _).mp closed)

end proofs

/-! ### What the monitor sees of a pulse (R185) -/

/-- What the monitor notes of a pulse for one channel (R185). -/
def FieldDie.channelPulse (src : TestSource) (now : Nat) (f : FieldDie) (ch : Fin 4) : FieldDie :=
  let p := f.pin (f.bitField ch 0)
  let tp : Int := f.bitField ch 3
  if f.bitConfig.isNone || !p.wentLow then f
  else if tp == srcCode src then { f with bitLow := f.bitLow ||| channelBit ch }
  else if tp != 0 && p.returned then { f with bitForeign := vset f.bitForeign ch (some now) }.bitternProof ch false
  else f

theorem FieldDie.bitternPulse_eq_foldl (f : FieldDie) (src : TestSource) (now : Nat) :
    f.bitternPulse src now = ([0, 1, 2, 3] : List (Fin 4)).foldl (FieldDie.channelPulse src now) f := rfl

/-- What the notes of a pulse leave as it was: what they are taken from, a pulse seen, and a proof dropped with SRB open. -/
structure FieldDie.PulseNoted (f g : FieldDie) : Prop where
  config   : g.bitConfig = f.bitConfig
  io       : g.io = f.io
  seen     : ∀ k : Fin 4, f.bitLow.getLsbD k.val = true → g.bitLow.getLsbD k.val = true
  unproven : ∀ k : Fin 4, f.proofs.getLsbD k.val = false → f.srb = false → g.proofs.getLsbD k.val = false ∧ g.srb = false

theorem FieldDie.PulseNoted.refl (f : FieldDie) : FieldDie.PulseNoted f f := ⟨rfl, rfl, fun _ h => h, fun _ h k => ⟨h, k⟩⟩

theorem FieldDie.PulseNoted.trans {f g h : FieldDie} (a : FieldDie.PulseNoted f g) (b : FieldDie.PulseNoted g h) :
    FieldDie.PulseNoted f h :=
  ⟨b.config.trans a.config, b.io.trans a.io, fun k low => b.seen k (a.seen k low), fun k dropped srb =>
    have ⟨dropped, srb⟩ := a.unproven k dropped srb
    b.unproven k dropped srb⟩

section pulse

variable (src : TestSource) (now : Nat) (f : FieldDie) (ch : Fin 4)

theorem FieldDie.pulseNoted_channelPulse : FieldDie.PulseNoted f (f.channelPulse src now ch) := by
  unfold FieldDie.channelPulse
  dsimp only
  split_ifs
  case pos => exact .refl f
  case pos =>
    refine ⟨rfl, rfl, fun k low => ?_, fun k dropped srb => ⟨dropped, srb⟩⟩
    rw [BitVec.getLsbD_or, low, Bool.true_or]
  case pos =>
    refine ⟨rfl, rfl, fun k low => low, fun k dropped _ => ⟨?_, FieldDie.srb_bitternProof_off _ _⟩⟩
    change (f.proofs &&& ~~~channelBit ch).getLsbD k.val = false
    rw [BitVec.getLsbD_and, dropped, Bool.false_and]
  case neg => exact .refl f

theorem FieldDie.pulseNoted_foldl (l : List (Fin 4)) : FieldDie.PulseNoted f (l.foldl (FieldDie.channelPulse src now) f) := by
  induction l generalizing f with
  | nil => exact .refl f
  | cons ch l ih => exact (f.pulseNoted_channelPulse src now ch).trans (ih _)

/-- The pulse is noted for each channel once, after the notes of the channels before it and before those of the channels after it. -/
theorem FieldDie.bitternPulse_passes :
    ∃ g, FieldDie.PulseNoted f g ∧ FieldDie.PulseNoted (g.channelPulse src now ch) (f.bitternPulse src now) := by
  obtain ⟨before, after, split⟩ := List.append_of_mem (show ch ∈ ([0, 1, 2, 3] : List (Fin 4)) by revert ch; decide)
  refine ⟨before.foldl (FieldDie.channelPulse src now) f, f.pulseNoted_foldl src now before, ?_⟩
  rw [FieldDie.bitternPulse_eq_foldl, split, List.foldl_append]
  exact FieldDie.pulseNoted_foldl src now _ after

variable {src now f ch}

theorem FieldDie.bitField_congr {g : FieldDie} (h : g.bitConfig = f.bitConfig) (ch : Fin 4) (k : Nat) :
    g.bitField ch k = f.bitField ch k := by rw [FieldDie.bitField, h, FieldDie.bitField]

theorem FieldDie.pin_congr {g : FieldDie} (h : g.io = f.io) (n : Nat) : g.pin n = f.pin n := by rw [FieldDie.pin, h, FieldDie.pin]

theorem FieldDie.PulseNoted.bitField {g : FieldDie} (h : FieldDie.PulseNoted f g) (k : Nat) : g.bitField ch k = f.bitField ch k :=
  FieldDie.bitField_congr h.config ch k

theorem FieldDie.PulseNoted.pin {g : FieldDie} (h : FieldDie.PulseNoted f g) (n : Nat) : g.pin n = f.pin n := FieldDie.pin_congr h.io n

variable (config : f.bitConfig.isSome = true) (low : (f.pin (f.bitField ch 0)).wentLow = true)
include config low

/-- A channel of the source whose pulse it is, seen low. -/
theorem FieldDie.bitLow_bitternPulse (own : (f.bitField ch 3 : Int) = srcCode src) :
    (f.bitternPulse src now).bitLow.getLsbD ch.val = true := by
  obtain ⟨g, before, after⟩ := f.bitternPulse_passes src now ch
  refine after.seen ch ?_
  have noted : g.channelPulse src now ch = { g with bitLow := g.bitLow ||| channelBit ch } := by
    unfold FieldDie.channelPulse
    simp only [before.bitField, before.pin, before.config, Option.isNone_eq_false_iff.mpr config, low, own, Bool.not_true,
      Bool.or_self, Bool.false_eq_true, if_false, beq_self_eq_true, if_true]
  rw [noted, BitVec.getLsbD_or, getLsbD_channelBit, Bool.or_true]

/-- A channel that follows a pulse of the other source, low and back, loses its proof. -/
theorem FieldDie.proofs_bitternPulse (other : (f.bitField ch 3 : Int) ≠ srcCode src) (fed : f.bitField ch 3 ≠ 0)
    (back : (f.pin (f.bitField ch 0)).returned = true) :
    (f.bitternPulse src now).proofs.getLsbD ch.val = false ∧ (f.bitternPulse src now).srb = false := by
  obtain ⟨g, before, after⟩ := f.bitternPulse_passes src now ch
  have noted : g.channelPulse src now ch = { g with bitForeign := vset g.bitForeign ch (some now) }.bitternProof ch false := by
    have fed : ((f.bitField ch 3 : Int) != 0) = true := bne_iff_ne.mpr (Int.natCast_ne_zero.mpr fed)
    unfold FieldDie.channelPulse
    simp only [before.bitField, before.pin, before.config, Option.isNone_eq_false_iff.mpr config, low, back, fed, Bool.not_true,
      Bool.or_self, Bool.false_eq_true, if_false, beq_eq_false_iff_ne.mpr other, Bool.and_self, if_true]
  refine after.unproven ch ?_ ?_
  all_goals rw [noted]
  · exact getLsbD_dropped g.proofs ch
  · exact FieldDie.srb_bitternProof_off _ _

end pulse

/-! ### The commands of the monitor (R185 to R187) -/

section commands

variable {s : State} {t : TileId}

/-- A change of the field die alone. -/
theorem onlyField_modField (s : State) (t : TileId) (g : FieldDie → FieldDie) : s.OnlyField (s.modField t g) t :=
  State.Told.onlyField (.refl _)

theorem modField_congr {f g : FieldDie → FieldDie} (h : f (s.tile t).field = g (s.tile t).field) : s.modField t f = s.modField t g :=
  State.modTile_congr s t _ _ (congrArg (fun x => { s.tile t with field := x }) h)

theorem modField_of_same {g : FieldDie → FieldDie} (h : g (s.tile t).field = (s.tile t).field) : s.modField t g = s :=
  (modField_congr h).trans (modField_id s t)

variable (ht : s.hasTile t = true)
include ht

theorem exec_bitternChannelProven (ch : Fin 4) (active : (s.tile t).field.bitActive ch = true)
    (pulses : (s.tile t).field.bitPulsesOk ch s.now = true) :
    exec (.bitternChannelProven t ch) s = .next (s.modField t fun f => f.bitternProof ch true) := by
  change execBitternChannelProven t ch s = _
  rw [execBitternChannelProven, onTile_of t s _ ht]
  exact congrArg _ (modField_congr (by simp only [active, pulses, Bool.and_self, if_true]))

theorem exec_bitternChannelProven_not (ch : Fin 4)
    (fails : (s.tile t).field.bitActive ch = false ∨ (s.tile t).field.bitPulsesOk ch s.now = false) :
    exec (.bitternChannelProven t ch) s = .next s := by
  change execBitternChannelProven t ch s = _
  have stays : ((s.tile t).field.bitActive ch && (s.tile t).field.bitPulsesOk ch s.now) = false := Bool.and_eq_false_iff.mpr fails
  rw [execBitternChannelProven, onTile_of t s _ ht]
  exact congrArg _ (modField_of_same (by simp only [stays, Bool.false_eq_true, if_false]))

theorem exec_bitternChannelUnproven (ch : Fin 4) (inactive : (s.tile t).field.bitActive ch = false)
    (outside : (s.tile t).field.bitBlanked ch = false) :
    exec (.bitternChannelUnproven t ch) s = .next (s.modField t fun f => f.bitternProof ch false) := by
  change execBitternChannelUnproven t ch s = _
  rw [execBitternChannelUnproven, onTile_of t s _ ht]
  exact congrArg _ (modField_congr (by simp only [inactive, outside, Bool.or_self, Bool.false_eq_true, if_false]))

theorem exec_bitternPulseAgeExpiry (ch : Fin 4) : exec (.bitternPulseAgeExpiry t ch) s =
    .next (s.modField t fun f => { f with bitLow := f.bitLow &&& ~~~channelBit ch }.bitternProof ch false) := by
  change execBitternPulseAgeExpiry t ch s = _
  exact onTile_of t s _ ht

/-- The readback agrees with SRB when it reads on while SRB is open, and off while it is closed (R184, R186). -/
theorem exec_bitternReadbackFault_same :
    exec (.bitternReadbackFault (t, (s.tile t).field.srb)) s = .next (s.modField t FieldDie.bitternFault) := by
  change execBitternReadbackFault _ s = _
  rw [execBitternReadbackFault, onTile_of t s _ ht]
  exact congrArg _ (modField_congr (by simp only [Bool.beq_not_self, Bool.false_eq_true, if_false]))

theorem exec_bitternReadbackFault_opposite : exec (.bitternReadbackFault (t, !(s.tile t).field.srb)) s = .next s := by
  change execBitternReadbackFault _ s = _
  rw [execBitternReadbackFault, onTile_of t s _ ht]
  exact congrArg _ (modField_of_same (by simp only [beq_self_eq_true, if_true]))

theorem exec_bitternPeriodicCheck (a b : Bool) : exec (.bitternPeriodicCheck t a b) s =
    .next (if a && b then s else s.modField t FieldDie.bitternFault) := by
  change execBitternPeriodicCheck t a b s = _
  rw [execBitternPeriodicCheck, onTile_of t s _ ht]
  cases a && b
  case true => exact congrArg _ (modField_id s t)
  case false => rfl

theorem exec_sraReadbackDisagreement (runs : (s.tile t).triadRuns = true) (same : (s.tile t).link.up.sraFb = (s.tile t).link.up.sra) :
    exec (.sraReadbackDisagreement t) s = .next (s.modDoor t fun d => { d with sraDisagree := true }) := by
  change execSraReadbackDisagreement t s = _
  have disagrees : (s.tile t).link.up.sraAgrees = false := by
    rw [UpView.sraAgrees, same]
    cases (s.tile t).link.up.sra <;> rfl
  simp only [execSraReadbackDisagreement, onTile_of t s _ ht, disagrees, runs, Bool.not_true, Bool.or_self, Bool.false_eq_true, if_false]

theorem exec_bitternProofDisagreement (runs : (s.tile t).triadRuns = true) (differ : (s.tile t).link.up.proofsAgree = false) :
    exec (.bitternProofDisagreement t) s = .next (s.modDoor t fun d => { d with proofDisagree := true }) := by
  change execBitternProofDisagreement t s = _
  simp only [execBitternProofDisagreement, onTile_of t s _ ht, differ, runs, Bool.not_true, Bool.or_self, Bool.false_eq_true, if_false]

theorem exec_proofAgeExpiry : exec (.proofAgeExpiry t) s = .next (s.modDoor t fun d => { d with proofOld := true }) := by
  change execProofAgeExpiry t s = _
  exact onTile_of t s _ ht

/-- At the close of a window the field die has its pins checked and the pulse noted by the monitor, and the pairs judged. -/
theorem blankingWindowClose_field {src : TestSource} (opened : srcGet (s.tile t).field.tpWindow src = true) :
    ∃ s', exec (.blankingWindowClose t src) s = .next s' ∧
      (s'.tile t).field = Tile.judged { s.tile t with field := (s.tile t).windowChecked src s.now } := by
  obtain ⟨-, edges⟩ := edgeFrame_edgeLevels ((((s.modField t fun f => f.windowClosed src).each ioPins fun s p =>
    s.pulseCheck t src p).modField t fun f => f.bitternPulse src s.now).pairsRefresh t) t
  refine ⟨_, ?_, (congrArg Tile.field edges.rest).trans (settles_windowChecked s t src s.now).field⟩
  change execBlankingWindowClose t src s = _
  simp only [execBlankingWindowClose, onTile_of t s _ ht, opened, Bool.not_true, Bool.false_eq_true, if_false]
  rfl

end commands

/-! ### What the monitor reads is not what a check of a pin counts (R174, R185) -/

section checkedPins

variable (tl : Tile) (src : TestSource)

theorem Tile.levels_pinChecked (n : Fin 16) (p : IoPin) :
    (tl.pinChecked src n p).wentLow = p.wentLow ∧ (tl.pinChecked src n p).returned = p.returned := by
  unfold Tile.pinChecked
  split_ifs <;> exact ⟨rfl, rfl⟩

theorem FieldDie.pin_of_lt (f : FieldDie) {n : Nat} (h : n < 16) : f.pin n = f.io[(⟨n, h⟩ : Fin 16)] := by
  rw [FieldDie.pin, List.getD_eq_getElem?_getD, List.getElem?_eq_getElem (by simpa using h), Option.getD_some, Vector.getElem_toList]
  rfl

theorem FieldDie.pin_of_not_lt (f : FieldDie) {n : Nat} (h : ¬n < 16) : f.pin n = IoPin.reset false := by
  rw [FieldDie.pin, List.getD_eq_getElem?_getD, List.getElem?_eq_none (by simpa using h), Option.getD_none]

theorem Tile.levels_pulseChecked (f : FieldDie) (n : Nat) :
    ((tl.pulseChecked src f).pin n).wentLow = (f.pin n).wentLow ∧ ((tl.pulseChecked src f).pin n).returned = (f.pin n).returned := by
  by_cases h : n < 16
  case pos =>
    rw [FieldDie.pin_of_lt _ h, FieldDie.pin_of_lt _ h, Tile.io_pulseChecked]
    exact tl.levels_pinChecked src _ _
  case neg =>
    rw [FieldDie.pin_of_not_lt _ h, FieldDie.pin_of_not_lt _ h]
    exact ⟨rfl, rfl⟩

theorem Tile.wentLow_pulseChecked (f : FieldDie) (n : Nat) : ((tl.pulseChecked src f).pin n).wentLow = (f.pin n).wentLow :=
  (tl.levels_pulseChecked src f n).1

theorem Tile.returned_pulseChecked (f : FieldDie) (n : Nat) : ((tl.pulseChecked src f).pin n).returned = (f.pin n).returned :=
  (tl.levels_pulseChecked src f n).2

theorem Tile.bitConfig_pulseChecked (f : FieldDie) : (tl.pulseChecked src f).bitConfig = f.bitConfig := by rw [Tile.pulseChecked]

theorem FieldDie.bitConfig_windowClosed (f : FieldDie) : (f.windowClosed src).bitConfig = f.bitConfig := rfl

theorem FieldDie.pin_windowClosed (f : FieldDie) (n : Nat) : (f.windowClosed src).pin n = f.pin n := FieldDie.pin_congr rfl n

/-- The monitor's configuration is none of what the close of a window changes. -/
theorem Tile.bitField_pulseChecked (ch : Fin 4) (k : Nat) :
    (tl.pulseChecked src (tl.field.windowClosed src)).bitField ch k = tl.field.bitField ch k :=
  FieldDie.bitField_congr (by rw [Tile.bitConfig_pulseChecked, FieldDie.bitConfig_windowClosed]) ch k

section window

variable {tl src} {now : Nat} {ch : Fin 4} (config : tl.field.bitConfig.isSome = true)
  (low : (tl.field.pin (tl.field.bitField ch 0)).wentLow = true)
include config low

theorem Tile.bitLow_windowChecked (own : (tl.field.bitField ch 3 : Int) = srcCode src) :
    (tl.windowChecked src now).bitLow.getLsbD ch.val = true := by
  have config : (tl.pulseChecked src (tl.field.windowClosed src)).bitConfig.isSome = true := by
    rw [Tile.bitConfig_pulseChecked, FieldDie.bitConfig_windowClosed, config]
  refine FieldDie.bitLow_bitternPulse config ?_ ?_
  all_goals rw [Tile.bitField_pulseChecked]
  · rw [Tile.wentLow_pulseChecked, FieldDie.pin_windowClosed, low]
  · exact own

theorem Tile.proofs_windowChecked (other : (tl.field.bitField ch 3 : Int) ≠ srcCode src) (fed : tl.field.bitField ch 3 ≠ 0)
    (back : (tl.field.pin (tl.field.bitField ch 0)).returned = true) :
    (tl.windowChecked src now).proofs.getLsbD ch.val = false ∧ (tl.windowChecked src now).srb = false := by
  have config : (tl.pulseChecked src (tl.field.windowClosed src)).bitConfig.isSome = true := by
    rw [Tile.bitConfig_pulseChecked, FieldDie.bitConfig_windowClosed, config]
  refine FieldDie.proofs_bitternPulse config ?_ ?_ ?_ ?_
  all_goals rw [Tile.bitField_pulseChecked]
  · rw [Tile.wentLow_pulseChecked, FieldDie.pin_windowClosed, low]
  · exact other
  · exact fed
  · rw [Tile.returned_pulseChecked, FieldDie.pin_windowClosed, back]

end window

end checkedPins

@[simp] theorem Tile.bitLow_judged (tl : Tile) : tl.judged.bitLow = tl.field.bitLow := rfl
@[simp] theorem Tile.proofs_judged (tl : Tile) : tl.judged.proofs = tl.field.proofs := rfl
@[simp] theorem Tile.srb_judged (tl : Tile) : tl.judged.srb = tl.field.srb := rfl

/-- Settles O32: a proof that is added or dropped is judged at once, a pulse is noted channel by channel, and the other findings are kept. -/
theorem bitternMonitorHoldsSrb : Obligations.BitternMonitorHoldsSrb := by
  unfold Obligations.BitternMonitorHoldsSrb
  intro s t ht
  refine ⟨fun ch => ⟨fun active pulses => ?proven, fun fails => ?unmet, fun inactive outside => ?unproven, ?age⟩,
    fun ch src opened config low => ?pulse, exec_bitternReadbackFault_same ht,
    ⟨s, exec_bitternReadbackFault_opposite ht, .refl s t, rfl⟩, exec_bitternPeriodicCheck ht,
    fun runs => ⟨exec_sraReadbackDisagreement ht runs, exec_bitternProofDisagreement ht runs⟩, exec_proofAgeExpiry ht, fun n level => rfl⟩
  case proven =>
    refine ⟨_, exec_bitternChannelProven ht ch active pulses, onlyField_modField .., ?_⟩
    rw [State.field_modField]
    refine ⟨rfl, fun sound => ?_, fun fault => ?_⟩
    · exact (FieldDie.srb_bitternEval _).trans ((FieldDie.bitternEval_closed_iff _).trans (and_iff_right sound))
    · have stays : ((s.tile t).field.bitternProof ch true).bittern = .fault := FieldDie.bitternEval_fault _ fault
      refine ⟨stays, Bool.eq_false_of_not_eq_true fun closed => ?_⟩
      exact absurd (((FieldDie.srb_bitternEval _).mp closed).symm.trans stays) (by decide)
  case unmet => exact ⟨s, exec_bitternChannelProven_not ht ch fails, .refl s t, rfl⟩
  case unproven =>
    refine ⟨_, exec_bitternChannelUnproven ht ch inactive outside, onlyField_modField .., ?_⟩
    rw [State.field_modField]
    exact ⟨rfl, FieldDie.srb_bitternProof_off _ _, FieldDie.bittern_bitternProof_off _ _⟩
  case age =>
    refine ⟨_, exec_bitternPulseAgeExpiry ht ch, onlyField_modField .., ?_⟩
    rw [State.field_modField]
    exact ⟨rfl, rfl, FieldDie.srb_bitternProof_off _ _, FieldDie.bittern_bitternProof_off _ _⟩
  case pulse =>
    obtain ⟨s', e, field⟩ := blankingWindowClose_field ht opened
    refine ⟨s', e, ?_⟩
    rw [field, Tile.bitLow_judged, Tile.proofs_judged, Tile.srb_judged]
    exact ⟨Tile.bitLow_windowChecked config low, Tile.proofs_windowChecked config low⟩

end Sys2Proof.Machine
end

