-- ==== Sys2Proof/Proofs/EdgeReset.lean ====
section
/-!
PROOFS. The edge reset: the beginning, the rejection and the acceptance of an attempt, and a stuck reset (R198 to R200).
-/

namespace Sys2Proof.Machine

/-! ### The resume inputs -/

section inputs

variable (h : Head) (r : ResumeId) (v : Resume)

@[simp] theorem Head.res_setRes : (h.setRes r v).res r = v := by cases r <;> rfl

@[simp] theorem Head.attempt_setRes : (h.setRes r v).attempt = h.attempt := by cases r <;> rfl

/-- The levels are not of the attempt. -/
theorem Head.level_endAttempt : (h.endAttempt.res r).level = (h.res r).level := by cases r <;> rfl

theorem State.res_at (s : State) (now : Nat) : (s.at now).head.res r = s.head.res r := by cases r <;> rfl

end inputs

/-- Telling leaves the resume inputs and the attempt. -/
theorem State.Told.resume {s s' : State} (h : State.Told s s') (r : ResumeId) :
    s'.head.res r = s.head.res r ∧ s'.head.attempt = s.head.attempt ∧ s'.head.stuck = s.head.stuck ∧
      s'.head.stuckPower = s.head.stuckPower := by
  rw [h.head]
  cases r <;> exact ⟨rfl, rfl, rfl, rfl⟩

/-! ### A rise and a fall (R198, R199) -/

section edges

variable {s : State} {r : ResumeId} {now : Nat}

theorem exec_resumeDebounceExpiry_rise (low : (s.head.res r).level = false) :
    exec (.resumeDebounceExpiry r true now) s = .next ((s.at now).resumeRise r) := by
  change execResumeDebounceExpiry r true now s = _
  simp only [execResumeDebounceExpiry, onHead_eq, State.res_at, low, Bool.false_beq, Bool.not_true, Bool.false_eq_true, if_false, if_true]

theorem exec_resumeDebounceExpiry_fall (high : (s.head.res r).level = true) :
    exec (.resumeDebounceExpiry r false now) s = .next ((s.at now).resumeFall r) := by
  change execResumeDebounceExpiry r false now s = _
  simp only [execResumeDebounceExpiry, onHead_eq, State.res_at, high, Bool.true_beq, Bool.false_eq_true, if_false]

theorem resumeRise_stuck (stuck : s.head.stuck = true) :
    s.resumeRise r = s.modHead fun h => h.setRes r { s.head.res r with level := true } := by
  simp only [State.resumeRise, stuck, if_true]

section firstRise

variable {f : Nat} (free : s.head.stuck = false) (first : s.head.attempt = false) (fall : (s.head.res r).fall = some f)
include free first fall

theorem resumeRise_begins (long : f + 100000000 ≤ s.now) : s.resumeRise r = s.modHead fun h =>
    { h.setRes r { s.head.res r with level := true, rise := some s.now, fell := false } with attempt := true } := by
  simp only [State.resumeRise, free, first, fall, ge_iff_le, long, decide_true, Option.isNone_some, Bool.false_and, Bool.not_false,
    Bool.not_true, Bool.false_eq_true, if_false, if_true]
  cases r <;> rfl

theorem resumeRise_early (short : s.now < f + 100000000) :
    s.resumeRise r = (s.modHead fun h => h.setRes r { s.head.res r with level := true }).resetReject 1 := by
  simp only [State.resumeRise, free, first, fall, ge_iff_le, Nat.not_le.mpr short, decide_false, Option.isNone_some, Bool.false_and,
    Bool.not_false, Bool.false_eq_true, if_false, if_true]

end firstRise

/-- The state with a resume input fallen. -/
def State.resumeLow (s : State) (r : ResumeId) : State :=
  s.modHead fun h => h.setRes r { s.head.res r with level := false, fall := some s.now }

section attempt

variable {i : Nat} (free : s.head.stuck = false) (runs : s.head.attempt = true) (rise : (s.head.res r).rise = some i)
  (both : (s.head.res (otherRes r)).rise.isSome = true)
include free runs rise both

theorem resumeFall_out_of_time (out : s.now < i + 80000000 ∨ i + 3000000000 < s.now) :
    s.resumeFall r = (s.resumeLow r).resetReject 3 := by
  simp only [State.resumeFall, free, runs, rise, Option.isNone_eq_false_iff.mpr both, gt_iff_lt, out, Bool.not_true, Bool.or_self,
    Bool.false_eq_true, if_false, if_true, State.resumeLow]

variable (high : i + 80000000 ≤ s.now) (last : s.now ≤ i + 3000000000)
include high last

theorem resumeFall_in_time : s.resumeFall r =
    if (s.head.res (otherRes r)).fell then (s.resumeLow r).resetAccept
    else (s.resumeLow r).modHead fun h => h.setRes r { h.res r with fell := true } := by
  have inTime : ¬(s.now < i + 80000000 ∨ s.now > i + 3000000000) := by omega
  simp only [State.resumeFall, free, runs, rise, Option.isNone_eq_false_iff.mpr both, inTime, Bool.not_true, Bool.or_self,
    Bool.false_eq_true, if_false, State.resumeLow]

end attempt

end edges

/-! ### A rejection and a stuck reset (R198, R199) -/

/-- A rejection ends the attempt and tells of it. -/
theorem told_resetReject (s : State) (row : Nat) : State.Told (s.modHead Head.endAttempt) (s.resetReject row) := told_raiseHead (.refl _)

/-- A stuck reset ends the attempt and tells of it. -/
theorem told_resetStuck (s : State) (powerOn : Bool) :
    State.Told (s.modHead fun h => { h.endAttempt with stuck := true, stuckPower := powerOn }) (s.resetStuck powerOn) :=
  told_raiseHead (.refl _)

theorem exec_resumeHighTimeout {s : State} {r : ResumeId} (high : (s.head.res r).level = true) (free : s.head.stuck = false)
    (idle : s.head.attempt = false) : exec (.resumeHighTimeout r) s = .next (s.resetStuck false) := by
  change execResumeHighTimeout r s = _
  simp only [execResumeHighTimeout, onHead_eq, high, free, idle, Bool.not_true, Bool.or_self, Bool.false_and, Bool.false_eq_true, if_false]

theorem exec_stuckResetClear {s : State} (a : s.head.resA.level = false) (b : s.head.resB.level = false) :
    exec .stuckResetClear s = .next (s.modHead fun h => { h with stuck := false }) := by
  change execStuckResetClear s = _
  simp only [execStuckResetClear, onHead_eq, a, b, Bool.or_self, Bool.false_eq_true, if_false]

/-- Settles O33: a rise and a fall go by the cases of R198, each read off at the instant of the edge. -/
theorem edgeResetSequence : Obligations.EdgeResetSequence := by
  unfold Obligations.EdgeResetSequence
  intro s r now
  dsimp only
  refine ⟨fun low => ⟨fun stuck => ?stuck, fun f free first fall => ⟨fun long => ?begins, fun short => ?early⟩⟩,
    fun high free runs i rise both => ⟨fun out => ?out, fun long last => ⟨fun first => ?first, fun second => ?second⟩⟩,
    fun high free idle => ?timeout, exec_stuckResetClear⟩
  case stuck =>
    rw [exec_resumeDebounceExpiry_rise low, resumeRise_stuck (s := s.at now) stuck, State.res_at]
  case begins =>
    rw [← State.res_at r s now] at fall
    rw [exec_resumeDebounceExpiry_rise low, resumeRise_begins (s := s.at now) free first fall long, State.res_at]
  case early =>
    rw [← State.res_at r s now] at fall
    rw [exec_resumeDebounceExpiry_rise low, resumeRise_early (s := s.at now) free first fall short, State.res_at]
    rfl
  case out =>
    rw [← State.res_at _ s now] at rise both
    rw [exec_resumeDebounceExpiry_fall high, resumeFall_out_of_time (s := s.at now) free runs rise both out]
    have told := told_resetReject ((s.at now).resumeLow r) 3
    obtain ⟨res, attempt, -, -⟩ := told.resume r
    refine ⟨_, rfl, attempt, ?_, told.tiles⟩
    rw [res, State.modHead_head, Head.level_endAttempt, State.resumeLow, State.modHead_head, Head.res_setRes]
  case first =>
    rw [← State.res_at _ s now] at rise both first
    rw [exec_resumeDebounceExpiry_fall high, resumeFall_in_time (s := s.at now) free runs rise both long last, first, if_neg Bool.false_ne_true]
    refine ⟨_, rfl, ?_, ?_, rfl⟩
    · rw [State.modHead_head, Head.attempt_setRes, State.resumeLow, State.modHead_head, Head.attempt_setRes]
      exact runs
    · rw [State.modHead_head, Head.res_setRes]
  case second =>
    rw [← State.res_at _ s now] at rise both second
    rw [exec_resumeDebounceExpiry_fall high, resumeFall_in_time (s := s.at now) free runs rise both long last, second, if_pos rfl, State.resumeLow,
      State.res_at]
  case timeout =>
    have told := told_resetStuck s false
    obtain ⟨-, -, stuck, power⟩ := told.resume r
    exact ⟨_, exec_resumeHighTimeout high free idle, stuck, power, told.tiles⟩

end Sys2Proof.Machine
end

