-- ==== Sys2Proof/Proofs/Queue.lean ====
section
/-!
PROOFS. A step takes the front of the queue, and on an empty queue one tick of the reference passes (R237, R325).
-/

namespace Sys2Proof.Machine

theorem step_of_cons {s : State} {c : Instr} {rest : List Instr} (h : s.pending = c :: rest) :
    step s = exec c { s with pending := rest } := by simp only [step, h]

theorem step_of_nil {s : State} (h : s.pending = []) : step s = .next (s.modTime fun tb => tb.advance 4) := by
  simp only [step, h, tick]

/-- A clock without a correction goes on by the whole ns of the reference and keeps its fraction (R237). -/
theorem Clock.advance_uncorrected {c : Clock} (hr : c.rate = 0) (hf : c.frac < 2 ^ 40) (dt : Nat) :
    (c.advance dt).ns = (c.ns + dt) % clockSpan ∧ (c.advance dt).frac = c.frac := by
  have total : ((c.frac : Int) + dt * (2 ^ 40 + c.rate) + 0).toNat = c.frac + dt * 2 ^ 40 := by rw [hr]; omega
  rw [Clock.advance]
  dsimp only
  rw [total]
  exact ⟨by rw [show (c.frac + dt * 2 ^ 40) / 2 ^ 40 = dt by omega], by omega⟩

/-- Settles O1: the queue is matched on, and its front is run. -/
theorem frontCommandRunsWithTheRestOfTheQueue : Obligations.FrontCommandRunsWithTheRestOfTheQueue := by
  unfold Obligations.FrontCommandRunsWithTheRestOfTheQueue
  intro s c rest
  exact step_of_cons

/-- Settles O2: the tick is TimeBase.advance by 4 ns. -/
theorem emptyQueueAdvancesTheClocksOneTick : Obligations.EmptyQueueAdvancesTheClocksOneTick := by
  unfold Obligations.EmptyQueueAdvancesTheClocksOneTick
  intro s empty
  let tb := s.head.time.advance 4
  exact ⟨_, tb.record, tb.ring, tb.ringPhase, step_of_nil empty, rfl, rfl, rfl, fun rate frac => Clock.advance_uncorrected rate frac 4⟩

end Sys2Proof.Machine
end

