-- ==== Sys2Proof/Proofs/Bytes.lean ====
section
/-!
PROOFS. Numbers as bytes: how many there are, and that reading them gives the number back (R4); a part of a list of bytes, read from the
parts that it was put together of.
-/

namespace Sys2Proof.Machine

@[simp] theorem length_leBytes (n v : Nat) : (leBytes n v).length = n := by
  induction n generalizing v with
  | zero => rfl
  | succ n ih => rw [leBytes, List.length_cons, ih]

@[simp] theorem length_beBytes (n v : Nat) : (beBytes n v).length = n := by rw [beBytes, List.length_reverse, length_leBytes]

theorem ofLe_leBytes (n v : Nat) : ofLe (leBytes n v) = v % 256 ^ n := by
  induction n generalizing v with
  | zero => rw [pow_zero, Nat.mod_one]; rfl
  | succ n ih =>
    rw [leBytes, ofLe, ih, BitVec.toNat_ofNat, pow_succ' 256 n, Nat.mod_mul]
    omega

theorem ofBe_beBytes {n v : Nat} (h : v < 256 ^ n) : ofBe (beBytes n v) = v := by
  rw [ofBe, beBytes, List.reverse_reverse, ofLe_leBytes, Nat.mod_eq_of_lt h]

/-- A part that begins where the list's first part ends. -/
theorem slice_append {a b : List Byte} {off : Nat} (h : a.length = off) (n : Nat) : slice (a ++ b) off n = b.take n := by
  rw [slice, ← h, List.drop_left]

end Sys2Proof.Machine
end

