-- ==== Sys2Proof/Proofs/SedgeSteps.lean ====
section
/-!
PROOFS. What each operation of a Sedge connection makes of that connection, and what it leaves of its tile and of the others (R209 to R213).
-/

namespace Sys2Proof.Machine

/-! ### The connection itself -/

section conn

variable {s s' : State} {t : TileId} {k j : Fin 32}

theorem State.Told.conn (h : State.Told s s') (t : TileId) (k : Fin 32) : s'.conn t k = s.conn t k := by
  rw [State.conn, h.tiles t]
  rfl

theorem conn_modConn (f : SedgeConn → SedgeConn) : (s.modConn t k f).conn t j = if k = j then f (s.conn t k) else s.conn t j := by
  rw [State.conn, State.modConn, State.tile_modTile_self]
  exact vmod_get _ k j f

@[simp] theorem conn_modConn_self (f : SedgeConn → SedgeConn) : (s.modConn t k f).conn t k = f (s.conn t k) := by
  rw [conn_modConn, if_pos rfl]

theorem conn_modConn_ne (f : SedgeConn → SedgeConn) (h : j ≠ k) : (s.modConn t k f).conn t j = s.conn t j := by
  rw [conn_modConn, if_neg h.symm]

@[simp] theorem conn_modDoor (f : Doorway → Doorway) : (s.modDoor t f).conn t k = s.conn t k := by
  rw [State.conn, State.modDoor, State.tile_modTile_self]
  rfl

@[simp] theorem conn_at (now : Nat) : (s.at now).conn t k = s.conn t k := rfl

@[simp] theorem conn_sedgeGrade : (s.sedgeGrade t k).conn t j = s.conn t j := by
  refine State.each_keeps (g := fun s => s.conn t j) (fun s b => ?_) _ s
  dsimp only
  split
  · rw [State.conn, State.tile_modTile_self]
    rfl
  · rfl

theorem conn_setSedge (st : SedgeState) :
    (s.setSedge t k st).conn t j = (s.modConn t k fun c => { c with state := st }).conn t j := by
  rw [State.setSedge]
  dsimp only
  split_ifs with same
  · subst same
    rw [conn_modConn]
    split
    case isTrue e => subst e; rfl
    case isFalse => rfl
  · rw [conn_sedgeGrade, (told_raise (.refl _)).conn]
  · rw [(told_raise (.refl _)).conn]

@[simp] theorem conn_setSedge_self (st : SedgeState) : (s.setSedge t k st).conn t k = { s.conn t k with state := st } := by
  rw [conn_setSedge, conn_modConn_self]

theorem conn_setSedge_ne (st : SedgeState) (h : j ≠ k) : (s.setSedge t k st).conn t j = s.conn t j := by
  rw [conn_setSedge, conn_modConn_ne _ h]

end conn

/-! ### What a step of a connection leaves -/

/-- A step of one connection: beside telling only its tile differs, and there the axes, the field die, the triad, the parameters in force
and the other connections stand. -/
structure State.ConnStep (t : TileId) (k : Fin 32) (s s' : State) : Prop where
  only    : s.OnlyTile s' t
  ax      : (s'.tile t).ax = (s.tile t).ax
  field   : (s'.tile t).field = (s.tile t).field
  triad   : (s'.tile t).triad = (s.tile t).triad
  inForce : (s'.tile t).inForce = (s.tile t).inForce
  conns   : ∀ j, j ≠ k → s'.conn t j = s.conn t j

section connStep

variable {s s' s'' : State} {t : TileId} {k : Fin 32}

theorem State.ConnStep.refl (s : State) : State.ConnStep t k s s := ⟨.refl s t, rfl, rfl, rfl, rfl, fun _ _ => rfl⟩

theorem State.ConnStep.trans (h : State.ConnStep t k s s') (h' : State.ConnStep t k s' s'') : State.ConnStep t k s s'' :=
  ⟨h.only.trans h'.only, h'.ax.trans h.ax, h'.field.trans h.field, h'.triad.trans h.triad, h'.inForce.trans h.inForce,
    fun j hj => (h'.conns j hj).trans (h.conns j hj)⟩

theorem State.Told.connStep (h : State.Told s s') : State.ConnStep t k s s' :=
  ⟨h.onlyTile t, h.ax t, h.field t, h.triad t, h.inForce t, fun j _ => h.conn t j⟩

theorem State.ConnStep.par (h : State.ConnStep t k s s') (table row idx : Nat) :
    (s'.tile t).par table row idx = (s.tile t).par table row idx := by rw [Tile.par, Tile.par, h.inForce]

theorem State.ConnStep.parN (h : State.ConnStep t k s s') (table row idx : Nat) :
    (s'.tile t).parN table row idx = (s.tile t).parN table row idx := by rw [Tile.parN, Tile.parN, h.par]

theorem connStep_modTile {f : Tile → Tile} (ha : (f (s.tile t)).ax = (s.tile t).ax) (hf : (f (s.tile t)).field = (s.tile t).field)
    (ht : (f (s.tile t)).triad = (s.tile t).triad) (hi : (f (s.tile t)).inForce = (s.tile t).inForce)
    (hc : (f (s.tile t)).sedge = (s.tile t).sedge) : State.ConnStep t k s (s.modTile t f) := by
  refine ⟨onlyTile_modTile s t f, ?_, ?_, ?_, ?_, fun j _ => ?_⟩
  case refine_5 => rw [State.conn, State.conn, State.tile_modTile_self, hc]
  all_goals rw [State.tile_modTile_self]; assumption

theorem connStep_modDoor {f : Doorway → Doorway} : State.ConnStep t k s (s.modDoor t f) := connStep_modTile rfl rfl rfl rfl rfl

theorem connStep_modConn {f : SedgeConn → SedgeConn} : State.ConnStep t k s (s.modConn t k f) :=
  ⟨onlyTile_modTile s t _, by rw [State.modConn, State.tile_modTile_self], by rw [State.modConn, State.tile_modTile_self],
    by rw [State.modConn, State.tile_modTile_self], by rw [State.modConn, State.tile_modTile_self], fun _ hj => conn_modConn_ne f hj⟩

theorem connStep_each {α : Type} {f : State → α → State} (hf : ∀ s a, State.ConnStep t k s (f s a)) (l : List α) :
    State.ConnStep t k s (s.each l f) := by
  induction l generalizing s with
  | nil => exact .refl s
  | cons a l ih => exact (hf s a).trans ih

theorem connStep_ite {c : Prop} [Decidable c] {a b : State} (ha : State.ConnStep t k s a) (hb : State.ConnStep t k s b) :
    State.ConnStep t k s (if c then a else b) := by
  split
  · exact ha
  · exact hb

theorem connStep_sedgeGrade : State.ConnStep t k s (s.sedgeGrade t k) :=
  connStep_each (fun s _ => connStep_ite (connStep_modTile rfl rfl rfl rfl rfl) (.refl s)) _

theorem connStep_setSedge {st : SedgeState} : State.ConnStep t k s (s.setSedge t k st) := by
  have told := (connStep_modConn (s := s) (t := t) (k := k) (f := fun c => { c with state := st })).trans
    (told_raise (t := t) (code := 0x66) (data := leBytes 1 k.val ++ leBytes 1 (s.conn t k).state.code ++ leBytes 1 st.code)
      (logged := true) (src := none) (.refl _)).connStep
  exact connStep_ite (.refl s) (connStep_ite (told.trans connStep_sedgeGrade) told)

/-- The doorway and its mailbox stand when a connection changes its state. -/
theorem door_setSedge (st : SedgeState) : ((s.setSedge t k st).tile t).door = (s.tile t).door := by
  have modConn : ∀ f, ((s.modConn t k f).tile t).door = (s.tile t).door := fun f => by rw [State.modConn, State.tile_modTile_self]
  have grade : ∀ s' : State, ((s'.sedgeGrade t k).tile t).door = (s'.tile t).door := fun s' => by
    refine State.each_keeps (g := fun s => (s.tile t).door) (fun s b => ?_) _ s'
    dsimp only
    split
    · rw [State.tile_modTile_self]
    · rfl
  rw [State.setSedge]
  dsimp only
  split_ifs
  · rfl
  · rw [grade, (logged_raise (.refl _)).door, modConn]
  · rw [(logged_raise (.refl _)).door, modConn]

end connStep

/-! ### Failed checks (R210, R211) -/

section fail

variable {s : State} {t : TileId} {k : Fin 32}

/-- The counter of each of the five checks (R210). -/
def checkCounter : Fin 5 → Fin 5
  | 0 => 0
  | 1 => 1
  | 2 => 1
  | 3 => 2
  | 4 => 3

/-- What a failed check makes of its connection: its counter, a broken run, and FAILED after enough check failures. -/
theorem conn_sedgeFail (check : Fin 5) : ∃ fails errAt, ∃ failed : Bool, (failed = true → check = 0) ∧
    (s.sedgeFail t k check).conn t k = { s.conn t k with
      counters := vmod (s.conn t k).counters (checkCounter check) fun n => sat32 (n + 1), run := 0, fails := fails, errAt := errAt
      state := if failed then .failed else (s.conn t k).state } := by
  have told : ∀ (p : Prop) [Decidable p] (s : State) (data : List Byte),
      (if p then s.raise t 0x67 data else s).conn t k = s.conn t k := fun p _ s data => by
    split
    · exact (told_raise (.refl s)).conn t k
    · rfl
  have mayFail : ∀ (b : Bool) (s : State), (if b then s.setSedge t k .failed else s).conn t k =
      { s.conn t k with state := if b then .failed else (s.conn t k).state } := fun b s => by
    cases b
    · rfl
    · exact conn_setSedge_self _
  unfold State.sedgeFail
  dsimp only
  rw [mayFail, told, conn_modConn_self]
  exact ⟨_, _, _, fun failed => of_decide_eq_true (Bool.and_eq_true_iff.mp failed).1, rfl⟩

theorem connStep_sedgeFail (check : Fin 5) : State.ConnStep t k s (s.sedgeFail t k check) := by
  have told : ∀ (p : Prop) [Decidable p] (s : State) (data : List Byte),
      State.ConnStep t k s (if p then s.raise t 0x67 data else s) :=
    fun p _ s data => connStep_ite (told_raise (.refl s)).connStep (.refl s)
  unfold State.sedgeFail
  exact connStep_ite ((connStep_modConn.trans (told _ _ _)).trans connStep_setSedge) (connStep_modConn.trans (told _ _ _))

end fail

/-! ### Accepted frames (R210, R211) -/

/-- A frame counts towards restore_count in STARTING and SUBSTITUTE, and the last that it needs makes the connection VALID (R211). -/
def SedgeConn.counted (c : SedgeConn) (need : Int) : SedgeConn :=
  if c.state = .starting ∨ c.state = .substitute then
    { c with run := c.run + 1, state := if ((c.run + 1 : Nat) : Int) ≥ need then .valid else .substitute }
  else c

/-- What an expired watchdog leaves of a connection (R211). -/
def SedgeConn.late (c : SedgeConn) : SedgeConn := { c with run := 0, state := .substitute }

/-- A connection with a frame's number, time and payload as its last, and the numbers that it skipped counted (R210). -/
def SedgeConn.accepted (c : SedgeConn) (seq : BitVec 16) (payload : List Byte) (ts : Word) (now gap : Nat) : SedgeConn :=
  { c with lastSeq := seq, lastTs := ts, wdAt := now, payload := payload, counters := vmod c.counters 4 fun n => sat32 (n + gap) }

/-- The numbers that a frame skips; none in STARTING (R210). -/
def SedgeConn.gap (c : SedgeConn) (seq : BitVec 16) : Nat := if c.state == .starting then 0 else (seq - c.lastSeq).toNat - 1

section accept

variable {s : State} {t : TileId} {k : Fin 32}

theorem sedgeLate_of_due (valid : (s.conn t k).state = .valid)
    (due : (s.conn t k).wdAt + 1000000 * (s.tile t).parN 0x89 9 k.val ≤ s.now) :
    s.sedgeLate t k = (s.modConn t k fun c => { c with run := 0 }).setSedge t k .substitute := by
  rw [State.sedgeLate, if_pos]
  rw [valid, decide_eq_true due]
  rfl

theorem sedgeLate_of_not_valid (h : (s.conn t k).state ≠ .valid) : s.sedgeLate t k = s := by
  rw [State.sedgeLate, if_neg]
  rw [beq_false_of_ne h]
  exact Bool.false_ne_true

theorem sedgeLate_of_not_due (h : s.now < (s.conn t k).wdAt + 1000000 * (s.tile t).parN 0x89 9 k.val) : s.sedgeLate t k = s := by
  rw [State.sedgeLate, if_neg]
  rw [decide_eq_false (Nat.not_le.mpr h), Bool.and_false]
  exact Bool.false_ne_true

/-- The watchdog of a connection is due, or leaves it as it is. -/
theorem conn_sedgeLate : (s.sedgeLate t k).conn t k = (s.conn t k).late ∨ s.sedgeLate t k = s := by
  by_cases valid : (s.conn t k).state = .valid
  · by_cases due : (s.conn t k).wdAt + 1000000 * (s.tile t).parN 0x89 9 k.val ≤ s.now
    · exact .inl (by rw [sedgeLate_of_due valid due, conn_setSedge_self, conn_modConn_self]; rfl)
    · exact .inr (sedgeLate_of_not_due (Nat.not_le.mp due))
  · exact .inr (sedgeLate_of_not_valid valid)

theorem connStep_sedgeLate : State.ConnStep t k s (s.sedgeLate t k) :=
  connStep_ite (connStep_modConn.trans connStep_setSedge) (.refl s)

/-- A frame counted in SUBSTITUTE (R211). -/
def State.sedgeRun (s : State) (t : TileId) (k : Fin 32) : State :=
  let run := (s.conn t k).run + 1
  let s2 := s.modConn t k fun c => { c with run := run }
  if (run : Int) ≥ (s2.tile t).par 0x89 10 k.val then s2.setSedge t k .valid else s2

theorem conn_sedgeRun : (s.sedgeRun t k).conn t k = { s.conn t k with
    run := (s.conn t k).run + 1
    state := if (((s.conn t k).run + 1 : Nat) : Int) ≥ (s.tile t).par 0x89 10 k.val then .valid else (s.conn t k).state } := by
  unfold State.sedgeRun
  dsimp only
  rw [connStep_modConn.par]
  split
  · rw [conn_setSedge_self, conn_modConn_self]
  · rw [conn_modConn_self]

theorem sedgeCount_starting (h : (s.conn t k).state = .starting) : s.sedgeCount t k = (s.setSedge t k .substitute).sedgeRun t k := by
  have substitute : ((s.setSedge t k .substitute).conn t k).state = .substitute := by rw [conn_setSedge_self]
  unfold State.sedgeCount
  rw [h, beq_self_eq_true, if_pos rfl]
  dsimp only
  rw [substitute]
  rfl

theorem sedgeCount_substitute (h : (s.conn t k).state = .substitute) : s.sedgeCount t k = s.sedgeRun t k := by
  unfold State.sedgeCount
  rw [h, beq_false_of_ne (by decide : SedgeState.substitute ≠ .starting), if_neg Bool.false_ne_true]
  dsimp only
  rw [h]
  rfl

theorem sedgeCount_other (h : (s.conn t k).state ≠ .starting) (h' : (s.conn t k).state ≠ .substitute) : s.sedgeCount t k = s := by
  unfold State.sedgeCount
  dsimp only
  rw [beq_false_of_ne h, if_neg Bool.false_ne_true, bne_iff_ne.mpr h', if_pos rfl]

theorem conn_sedgeCount : (s.sedgeCount t k).conn t k = (s.conn t k).counted ((s.tile t).par 0x89 10 k.val) := by
  by_cases starting : (s.conn t k).state = .starting
  · rw [sedgeCount_starting starting, conn_sedgeRun, conn_setSedge_self, connStep_setSedge.par,
      SedgeConn.counted, if_pos (Or.inl starting)]
  · by_cases substitute : (s.conn t k).state = .substitute
    · rw [sedgeCount_substitute substitute, conn_sedgeRun, SedgeConn.counted, if_pos (Or.inr substitute), substitute]
    · rw [sedgeCount_other starting substitute, SedgeConn.counted, if_neg (not_or.mpr ⟨starting, substitute⟩)]

theorem connStep_sedgeCount : State.ConnStep t k s (s.sedgeCount t k) := by
  have first : State.ConnStep t k s (if (s.conn t k).state == .starting then s.setSedge t k .substitute else s) :=
    connStep_ite connStep_setSedge (.refl s)
  exact connStep_ite first (first.trans (connStep_ite (connStep_modConn.trans connStep_setSedge) connStep_modConn))

theorem conn_sedgeDemand (before : List Byte) : (s.sedgeDemand t k before).conn t k = s.conn t k := conn_modDoor _

/-- What accepting a frame makes of its connection (R210, R211). -/
theorem conn_sedgeAccept (seq : BitVec 16) (payload : List Byte) : (s.sedgeAccept t k seq payload).conn t k =
    (((s.sedgeLate t k).conn t k).accepted seq payload (s.classTs ((s.tile t).connRing k)) s.now ((s.conn t k).gap seq)).counted
      ((s.tile t).par 0x89 10 k.val) := by
  have counted : ∀ f, (((s.sedgeLate t k).modConn t k f).sedgeCount t k).conn t k =
      (f ((s.sedgeLate t k).conn t k)).counted ((s.tile t).par 0x89 10 k.val) := fun f => by
    rw [conn_sedgeCount, conn_modConn_self, connStep_modConn.par, connStep_sedgeLate.par]
  have signals : ∀ (p : Prop) [Decidable p] (s1 : State) (before : List Byte),
      (if p then (s1.sedgeDemand t k before).sedgeGrade t k else s1).conn t k = s1.conn t k := fun p _ s1 before => by
    split
    · rw [conn_sedgeGrade, conn_sedgeDemand]
    · rfl
  exact (signals _ _ _).trans
    (counted fun c => c.accepted seq payload (s.classTs ((s.tile t).connRing k)) s.now ((s.conn t k).gap seq))

theorem connStep_sedgeAccept (seq : BitVec 16) (payload : List Byte) : State.ConnStep t k s (s.sedgeAccept t k seq payload) := by
  have counted : ∀ f, State.ConnStep t k s (((s.sedgeLate t k).modConn t k f).sedgeCount t k) := fun f =>
    (connStep_sedgeLate.trans connStep_modConn).trans connStep_sedgeCount
  exact connStep_ite (((counted _).trans connStep_modDoor).trans connStep_sedgeGrade) (counted _)

end accept

end Sys2Proof.Machine
end

