-- ==== Sys2Proof/Proofs/SedgeFrames.lean ====
section
/-!
PROOFS. The receiver's checks of a Sedge frame: the fields of a frame of the form of R206, and what each check makes of its connection
(R207, R210, R211, R215).
-/

namespace Sys2Proof.Machine

/-! ### The form of a frame (R206, R207) -/

/-- The bytes of a frame before its check value (R206). -/
def sedgeBody (seq : BitVec 16) (ts : Word) (life : Nat) (payload : List Byte) : List Byte :=
  beBytes 2 seq.toNat ++ beBytes 4 ts.toNat ++ beBytes 2 life ++ leBytes 1 payload.length ++ payload

theorem scvStep_lt (c : Nat) : scvStep c < 2 ^ 32 := by
  unfold scvStep
  split
  · exact Nat.xor_lt_two_pow (by omega) (by norm_num)
  · omega

/-- A check value has 32 bits (R207). -/
theorem scv_lt (ident : Nat) (bs : List Byte) : scv ident bs < 2 ^ 32 := by
  have foldl_lt : ∀ (l : List Byte) (c : Nat), c < 2 ^ 32 → l.foldl scvByte c < 2 ^ 32 := by
    intro l
    induction l with
    | nil => exact fun _ h => h
    | cons b l ih => exact fun c _ => ih _ (scvStep_lt _)
  exact Nat.xor_lt_two_pow (foldl_lt _ _ (by norm_num)) (by norm_num)

section form

variable (seq : BitVec 16) (ts : Word) (life : Nat) (payload check : List Byte)

theorem length_sedgeBody : (sedgeBody seq ts life payload).length = 9 + payload.length := by
  simp only [sedgeBody, List.length_append, length_beBytes, length_leBytes]

theorem sedgeFrame_length (hc : check.length = 4) : (sedgeBody seq ts life payload ++ check).length = 13 + payload.length := by
  rw [List.length_append, length_sedgeBody, hc]
  omega

/-- The five fields of a frame, one behind the other. -/
theorem sedgeFrame_eq : sedgeBody seq ts life payload ++ check =
    beBytes 2 seq.toNat ++ (beBytes 4 ts.toNat ++ (beBytes 2 life ++ (leBytes 1 payload.length ++ (payload ++ check)))) := by
  simp only [sedgeBody, List.append_assoc]

theorem sedgeFrame_seq : BitVec.ofNat 16 (ofBe ((sedgeBody seq ts life payload ++ check).take 2)) = seq := by
  rw [sedgeFrame_eq, List.take_left' (length_beBytes 2 _), ofBe_beBytes seq.isLt, BitVec.ofNat_toNat, BitVec.setWidth_eq]

theorem sedgeFrame_ts : BitVec.ofNat 32 (ofBe (slice (sedgeBody seq ts life payload ++ check) 2 4)) = ts := by
  rw [sedgeFrame_eq, slice_append (length_beBytes 2 _), List.take_left' (length_beBytes 4 _), ofBe_beBytes ts.isLt,
    BitVec.ofNat_toNat, BitVec.setWidth_eq]

theorem sedgeFrame_life (h : life < 65536) : ofBe (slice (sedgeBody seq ts life payload ++ check) 6 2) = life := by
  rw [sedgeFrame_eq, ← List.append_assoc, slice_append (by simp), List.take_left' (length_beBytes 2 _), ofBe_beBytes h]

theorem sedgeFrame_lenByte (h : payload.length ≤ 32) : fieldLe (sedgeBody seq ts life payload ++ check) 8 1 = payload.length := by
  rw [fieldLe, sedgeFrame_eq, ← List.append_assoc, ← List.append_assoc, slice_append (by simp), List.take_left' (length_leBytes 1 _),
    ofLe_leBytes]
  omega

theorem sedgeFrame_payload : slice (sedgeBody seq ts life payload ++ check) 9 payload.length = payload := by
  rw [sedgeFrame_eq, ← List.append_assoc, ← List.append_assoc, ← List.append_assoc, slice_append (by simp), List.take_left' rfl]

theorem sedgeFrame_body : (sedgeBody seq ts life payload ++ check).take (9 + payload.length) = sedgeBody seq ts life payload :=
  List.take_left' (length_sedgeBody ..)

theorem sedgeFrame_check (hc : check.length = 4) : slice (sedgeBody seq ts life payload ++ check) (9 + payload.length) 4 = check := by
  rw [slice_append (length_sedgeBody ..), List.take_of_length_le hc.le]

end form

/-! ### The checks in order (R210) -/

section checks

variable {s : State} {t : TileId} {k : Fin 32} {now : Nat}

/-- A connection that takes frames: the triad acts, the service core is there, and the connection receives and is bound and open. -/
structure State.ConnOpen (s : State) (t : TileId) (k : Fin 32) : Prop where
  tile  : s.hasTile t = true
  acts  : (s.tile t).triadActs = true
  svc   : (s.tile t).die.svc = true
  rx    : (s.tile t).connRx k = true
  bound : (s.conn t k).binding.isSome = true
  open_ : (s.conn t k).state ≠ .closed

/-- A frame is accepted, or fails one of the five checks (R210). -/
def State.Judged (s s' : State) (t : TileId) (k : Fin 32) : Prop :=
  (∃ check, s' = s.sedgeFail t k check) ∨ ∃ seq payload, s' = s.sedgeAccept t k seq payload

theorem judged_ite {p : Prop} [Decidable p] {a b : State} (ha : s.Judged a t k) (hb : s.Judged b t k) :
    s.Judged (if p then a else b) t k := by
  split
  · exact ha
  · exact hb

theorem sedgeFrameReceived_judged (h : s.ConnOpen t k) (frame : List Byte) :
    ∃ s', exec (.sedgeFrameReceived t k frame now) s = .next s' ∧ (s.at now).Judged s' t k := by
  change ∃ s', execSedgeFrameReceived t k frame now s = _ ∧ _
  have bound : (s.conn t k).binding.isNone = false := by rw [← Option.not_isSome, h.bound]; rfl
  simp only [execSedgeFrameReceived, onTile_of _ _ _ h.tile, State.tile_at, conn_at, Tile.triadRuns_of_acts h.acts, h.acts, h.svc, h.rx, bound,
    beq_false_of_ne h.open_, Bool.not_true, Bool.or_self, Bool.false_eq_true, if_false]
  exact ⟨_, rfl, judged_ite (.inl ⟨0, rfl⟩) (judged_ite (.inl ⟨1, rfl⟩) (judged_ite (.inl ⟨2, rfl⟩)
    (judged_ite (.inl ⟨3, rfl⟩) (judged_ite (.inl ⟨4, rfl⟩) (.inr ⟨_, _, rfl⟩)))))⟩

variable {seq : BitVec 16} {ts : Word} {life : Nat} {payload : List Byte} {ip : Word} {p1 p2 port v : Nat}

/-- The checks of a frame of the form of R206 on an Ethernet binding. -/
theorem sedgeFrameReceived_checked (h : s.ConnOpen t k) (hb : (s.conn t k).binding = some (.ethernet ip p1 p2 port))
    (hl : life < 65536) (hp : payload.length ≤ 32) (hv : v < 2 ^ 32) :
    let c := s.conn t k
    let ahead := (seq - c.lastSeq).toNat
    let age := tsDiff ((s.at now).classTs ((s.tile t).connRing k)) ts
    exec (.sedgeFrameReceived t k (sedgeBody seq ts life payload ++ beBytes 4 v) now) s = .next
      (if scv ((s.tile t).connId k) (sedgeBody seq ts life payload) ≠ v then (s.at now).sedgeFail t k 0
       else if (s.at now).classSync ((s.tile t).connRing k) = false then (s.at now).sedgeFail t k 1
       else if age < -((s.tile t).par 0x89 7 k.val * 1000) ∨ age > min ((life : Int) * 10000) ((s.tile t).par 0x89 6 k.val * 1000) then
         (s.at now).sedgeFail t k 2
       else if c.state ≠ .starting ∧ ahead = 0 then (s.at now).sedgeFail t k 3
       else if c.state ≠ .starting ∧ (ahead : Int) > (s.tile t).par 0x89 8 k.val then (s.at now).sedgeFail t k 4
       else (s.at now).sedgeAccept t k seq payload) := by
  change execSedgeFrameReceived t k _ now s = _
  have len : payload.length % 64 = payload.length := Nat.mod_eq_of_lt (by omega)
  have small : decide (payload.length > 32) = false ∧ decide (payload.length ≥ 64) = false := by
    constructor <;> exact decide_eq_false (by omega)
  simp only [execSedgeFrameReceived, onTile_of _ _ _ h.tile, State.tile_at, conn_at, Tile.triadRuns_of_acts h.acts, h.acts, h.svc, h.rx, hb,
    beq_false_of_ne h.open_, Option.isNone_some, Bool.or_self, Bool.false_eq_true, if_false, len, small, Bool.false_or,
    sedgeFrame_lenByte seq ts life payload _ hp, sedgeFrame_length seq ts life payload _ (length_beBytes 4 v), sedgeFrame_body,
    sedgeFrame_check seq ts life payload _ (length_beBytes 4 v), ofBe_beBytes (n := 4) hv, sedgeFrame_ts, sedgeFrame_life seq ts life payload _ hl,
    sedgeFrame_seq, sedgeFrame_payload, ne_eq, not_true_eq_false, decide_eq_true_eq, Bool.not_eq_true', Bool.or_eq_true,
    Bool.and_eq_true, bne_iff_ne, Bool.true_eq_false, or_self, false_or]

/-- A frame in time with the right check value: its number decides (R210). -/
theorem sedgeFrameReceived_in_time (h : s.ConnOpen t k) (hb : (s.conn t k).binding = some (.ethernet ip p1 p2 port))
    (hl : life < 65536) (hp : payload.length ≤ 32) (sync : (s.at now).classSync ((s.tile t).connRing k) = true)
    (early : -((s.tile t).par 0x89 7 k.val * 1000) ≤ tsDiff ((s.at now).classTs ((s.tile t).connRing k)) ts)
    (late : tsDiff ((s.at now).classTs ((s.tile t).connRing k)) ts ≤ min ((life : Int) * 10000) ((s.tile t).par 0x89 6 k.val * 1000)) :
    let c := s.conn t k
    let ahead := (seq - c.lastSeq).toNat
    let body := sedgeBody seq ts life payload
    exec (.sedgeFrameReceived t k (body ++ beBytes 4 (scv ((s.tile t).connId k) body)) now) s = .next
      (if c.state ≠ .starting ∧ ahead = 0 then (s.at now).sedgeFail t k 3
       else if c.state ≠ .starting ∧ (ahead : Int) > (s.tile t).par 0x89 8 k.val then (s.at now).sedgeFail t k 4
       else (s.at now).sedgeAccept t k seq payload) := by
  dsimp only
  rw [sedgeFrameReceived_checked h hb hl hp (scv_lt ..), if_neg (fun ne => ne rfl), if_neg (by rw [sync]; exact Bool.noConfusion),
    if_neg (not_or.mpr ⟨Int.not_lt.mpr early, Int.not_lt.mpr late⟩)]

/-- A frame with another check value (R207, R210). -/
theorem sedgeFrameReceived_wrong (h : s.ConnOpen t k) (hb : (s.conn t k).binding = some (.ethernet ip p1 p2 port))
    (hl : life < 65536) (hp : payload.length ≤ 32) (hv : v < 2 ^ 32)
    (wrong : v ≠ scv ((s.tile t).connId k) (sedgeBody seq ts life payload)) :
    exec (.sedgeFrameReceived t k (sedgeBody seq ts life payload ++ beBytes 4 v) now) s = .next ((s.at now).sedgeFail t k 0) := by
  rw [sedgeFrameReceived_checked h hb hl hp hv, if_pos wrong.symm]

/-! ### What an accepted frame makes of its connection (R210, R211, R215) -/

theorem counted_of_valid {c : SedgeConn} {need : Int} (h : c.state = .valid) : c.counted need = c := by
  rw [SedgeConn.counted, h, if_neg (by decide)]

theorem counted_of_few {c : SedgeConn} {need : Int} (h : c.state = .starting ∨ c.state = .substitute) (few : ((c.run + 1 : Nat) : Int) < need) :
    c.counted need = { c with run := c.run + 1, state := .substitute } := by
  rw [SedgeConn.counted, if_pos h, if_neg (Int.not_le.mpr few)]

/-- Counting a frame changes of a connection only the run and the state. -/
theorem counted_eq (c : SedgeConn) (need : Int) : ∃ run state, c.counted need = { c with run := run, state := state } := by
  rw [SedgeConn.counted]
  split
  · exact ⟨_, _, rfl⟩
  · exact ⟨_, _, rfl⟩

/-- What an accepted frame leaves in its connection, whatever becomes of the state. -/
theorem conn_sedgeAccept_keeps (seq : BitVec 16) (payload : List Byte) : ∃ run state, (s.sedgeAccept t k seq payload).conn t k =
    { (s.conn t k).accepted seq payload (s.classTs ((s.tile t).connRing k)) s.now ((s.conn t k).gap seq) with run := run, state := state } := by
  rw [conn_sedgeAccept]
  obtain ⟨run, state, e⟩ := counted_eq
    (((s.sedgeLate t k).conn t k).accepted seq payload (s.classTs ((s.tile t).connRing k)) s.now ((s.conn t k).gap seq))
    ((s.tile t).par 0x89 10 k.val)
  refine ⟨run, state, e.trans ?_⟩
  rcases conn_sedgeLate (s := s) (t := t) (k := k) with late | same
  · rw [late]; rfl
  · rw [same]

theorem conn_sedgeAccept_in_time (seq : BitVec 16) (payload : List Byte) (valid : (s.conn t k).state = .valid)
    (h : s.now < (s.conn t k).wdAt + 1000000 * (s.tile t).parN 0x89 9 k.val) :
    ((s.sedgeAccept t k seq payload).conn t k).state = .valid := by
  rw [conn_sedgeAccept, sedgeLate_of_not_due h, counted_of_valid (by exact valid)]
  exact valid

theorem conn_sedgeLate_of_due (valid : (s.conn t k).state = .valid)
    (due : (s.conn t k).wdAt + 1000000 * (s.tile t).parN 0x89 9 k.val ≤ s.now) : (s.sedgeLate t k).conn t k = (s.conn t k).late := by
  rw [sedgeLate_of_due valid due, conn_setSedge_self, conn_modConn_self]
  rfl

/-- A frame that comes with the expiry of the watchdog is the first of a run (R215). -/
theorem conn_sedgeAccept_late (seq : BitVec 16) (payload : List Byte) (valid : (s.conn t k).state = .valid)
    (due : (s.conn t k).wdAt + 1000000 * (s.tile t).parN 0x89 9 k.val ≤ s.now) (more : 1 < (s.tile t).par 0x89 10 k.val) :
    ((s.sedgeAccept t k seq payload).conn t k).state = .substitute ∧ ((s.sedgeAccept t k seq payload).conn t k).run = 1 := by
  rw [conn_sedgeAccept, conn_sedgeLate_of_due valid due, counted_of_few (by exact .inr rfl) (by exact more)]
  exact ⟨rfl, rfl⟩

theorem conn_sedgeAccept_starting (seq : BitVec 16) (payload : List Byte) (starting : (s.conn t k).state = .starting)
    (few : (((s.conn t k).run + 1 : Nat) : Int) < (s.tile t).par 0x89 10 k.val) :
    ((s.sedgeAccept t k seq payload).conn t k).state = .substitute ∧
      ((s.sedgeAccept t k seq payload).conn t k).run = (s.conn t k).run + 1 := by
  rw [conn_sedgeAccept, sedgeLate_of_not_valid (by rw [starting]; decide), counted_of_few (by exact .inl starting) (by exact few)]
  exact ⟨rfl, rfl⟩

/-- A check but the first fails on a VALID connection: it counts and breaks the run, and the rest stands. -/
theorem conn_sedgeFail_valid {check : Fin 5} (other : check ≠ 0) (valid : (s.conn t k).state = .valid) :
    let c := (s.sedgeFail t k check).conn t k
    (c.counters)[checkCounter check] = sat32 (((s.conn t k).counters)[checkCounter check] + 1) ∧ c.state = .valid ∧
      c.payload = (s.conn t k).payload ∧ c.lastSeq = (s.conn t k).lastSeq ∧ c.run = 0 := by
  obtain ⟨fails, errAt, failed, zero, e⟩ := conn_sedgeFail (s := s) (t := t) (k := k) check
  obtain rfl : failed = false := Bool.eq_false_iff.mpr fun h => other (zero h)
  dsimp only
  rw [e]
  exact ⟨by rw [vmod_get, if_pos rfl], valid, rfl, rfl, rfl⟩

/-- Settles O49: the five checks in their order, and what a failed and an accepted frame make of the connection. -/
theorem sedgeFramesAreCheckedInOrder : Obligations.SedgeFramesAreCheckedInOrder := by
  unfold Obligations.SedgeFramesAreCheckedInOrder
  intro s t k tile seq ts life payload now ip p1 p2 port acts svc rx bound short fits
  have opened : (s.conn t k).state ≠ .closed → s.ConnOpen t k := fun o => ⟨tile, acts, svc, rx, by rw [bound]; rfl, o⟩
  refine ⟨fun sync early late => ?intime, fun v wrong hv open_ => ?wrong⟩
  case intime =>
    have judged : (s.conn t k).state ≠ .closed → _ := fun o =>
      sedgeFrameReceived_in_time (opened o) bound short fits sync early late (seq := seq)
    dsimp only at judged
    refine ⟨fun valid fresh near => ?accepted, fun starting few => ?counts, fun valid same => ?repeated, fun valid far fresh => ?ahead⟩
    case accepted =>
      have here := judged (by rw [valid]; decide)
      rw [if_neg (fun h => fresh h.2), if_neg (fun h => Int.not_lt.mpr near h.2)] at here
      obtain ⟨run, state, kept⟩ := conn_sedgeAccept_keeps (s := s.at now) (t := t) (k := k) seq payload
      have gap : (s.conn t k).gap seq = (seq - (s.conn t k).lastSeq).toNat - 1 := by rw [SedgeConn.gap, valid]; rfl
      refine ⟨_, here, conn_sedgeAccept_in_time (s := s.at now) _ _ valid,
        conn_sedgeAccept_late (s := s.at now) _ _ valid, by rw [kept]; rfl, by rw [kept]; rfl,
        by rw [kept]; rfl, by rw [kept]; rfl, ?_, (connStep_sedgeAccept seq payload).conns⟩
      rw [kept, ← gap]
      exact vmod_get _ 4 4 _
    case counts =>
      have here := judged (by rw [starting]; decide)
      rw [if_neg (fun h => h.1 starting), if_neg (fun h => h.1 starting)] at here
      obtain ⟨run, state, kept⟩ := conn_sedgeAccept_keeps (s := s.at now) (t := t) (k := k) seq payload
      obtain ⟨substitute, counted⟩ := conn_sedgeAccept_starting (s := s.at now) seq payload starting few
      exact ⟨_, here, substitute, counted, by rw [kept]; rfl, by rw [kept]; rfl⟩
    case repeated =>
      have here := judged (by rw [valid]; decide)
      rw [if_pos ⟨by rw [valid]; decide, same⟩] at here
      obtain ⟨count, state, pay, last, -⟩ := conn_sedgeFail_valid (s := s.at now) (check := 3) (by decide) valid
      exact ⟨_, here, count, state, pay, last⟩
    case ahead =>
      have here := judged (by rw [valid]; decide)
      rw [if_neg (fun h => fresh h.2), if_pos ⟨by rw [valid]; decide, far⟩] at here
      obtain ⟨count, state, pay, -, run⟩ := conn_sedgeFail_valid (s := s.at now) (check := 4) (by decide) valid
      exact ⟨_, here, count, state, pay, run⟩
  case wrong =>
    refine ⟨_, sedgeFrameReceived_wrong (opened open_) bound short fits hv wrong, ?_⟩
    obtain ⟨fails, errAt, failed, -, e⟩ := conn_sedgeFail (s := s.at now) (t := t) (k := k) 0
    rw [e]
    refine ⟨vmod_get _ 0 0 _, rfl, rfl, rfl, ?_⟩
    cases failed
    · exact .inl rfl
    · exact .inr rfl

end checks

end Sys2Proof.Machine
end

