-- ==== Sys2Proof/Proofs/SedgeCommands.lean ====
section
/-!
PROOFS. The commands of a Sedge connection: the frame, the watchdog, the period, opening and closing, and what waits for the commit
(R206 to R214, R223, R340).
-/

namespace Sys2Proof.Machine

/-! ### Sending leaves the connections and the doorway (R212, R214) -/

/-- What handing a frame to a channel may change of a tile: its CAN controllers, and what telling changes. -/
def Tile.Sent (a b : Tile) : Prop := b = { a with can := b.can, peat := b.peat, door := { a.door with mailbox := b.door.mailbox } }

section send

variable {s s' s'' : State} {t u : TileId}

theorem Tile.Sent.refl (a : Tile) : Tile.Sent a a := rfl

theorem Tile.Sent.trans {a b c : Tile} (h : Tile.Sent a b) (k : Tile.Sent b c) : Tile.Sent a c := by
  unfold Tile.Sent at *
  rw [h] at k
  exact k

theorem State.Told.sent (h : State.Told s s') (u : TileId) : Tile.Sent (s.tile u) (s'.tile u) := by
  rw [h.tiles u]
  rfl

theorem sent_modBuf (c : Fin 2) (b : Fin 64) (f : CanBuffer → CanBuffer) : Tile.Sent (s.tile u) ((s.modBuf t c b f).tile u) := by
  rw [State.modBuf, State.modCan, State.tile_modTile]
  split
  · rfl
  · exact .refl _

theorem told_canDone (cmd : Option HostCmd) (status : Nat) (gen : BitVec 4) (ts : Word) : State.Told s (s.canDone cmd status gen ts) := by
  cases cmd with
  | none => exact .refl s
  | some h => exact told_complete (.refl s)

theorem sent_canLoad (c : Fin 2) (b : Fin 64) (f : CanFrame) (once : Bool) (cmd : Option HostCmd) :
    Tile.Sent (s.tile u) ((s.canLoad t c b f once cmd).tile u) := by
  unfold State.canLoad
  dsimp only
  split
  · split
    · exact (sent_modBuf c b _).trans ((told_canDone ..).sent u)
    · exact sent_modBuf c b _
  · split
    · exact (sent_modBuf c b _).trans ((told_canDone ..).sent u)
    · exact sent_modBuf c b _

@[simp] theorem tile_modTime (f : TimeBase → TimeBase) : (s.modTime f).tile u = s.tile u := rfl

@[simp] theorem tile_modEth (p : EthPort) (f : EthPortState → EthPortState) : (s.modEth p f).tile u = s.tile u := rfl

theorem tile_ethSend (p : EthPort) (ip : Word) (udp : List Byte) : (s.ethSend p ip udp).tile u = s.tile u := by
  unfold State.ethSend
  dsimp only
  split
  · rfl
  · split
    · rfl
    · split
      · rfl
      · split
        · rfl
        · rfl

/-- Delivering a frame on the fabric only adds outputs. -/
theorem fabricDeliver_emits (peer from_ : Nat) (frame : List Byte) : ∃ l, s.fabricDeliver peer from_ frame = { s with out := l ++ s.out } := by
  have emits : ∀ (l : List (Fin 32)) (t : TileId) (s : State), ∃ o, s.each l (fun s k =>
      if (s.conn t k).binding == some (.fabric from_) && (s.tile t).connRx k then s.emit (.toTriad t k.val frame) else s) =
        { s with out := o ++ s.out } := by
    intro l t
    induction l with
    | nil => exact fun s => ⟨[], rfl⟩
    | cons k l ih =>
      intro s
      rw [State.each_cons]
      split
      · obtain ⟨o, e⟩ := ih (s.emit (.toTriad t k.val frame))
        exact ⟨o ++ [.toTriad t k.val frame], by rw [e, List.append_assoc]; rfl⟩
      · exact ih s
  unfold State.fabricDeliver
  split
  · exact ⟨[], rfl⟩
  · split
    · exact ⟨[], rfl⟩
    · exact emits _ _ s

theorem sent_sedgeSend (addr : SedgeAddr) (frame : List Byte) : Tile.Sent (s.tile u) ((s.sedgeSend t addr frame).tile u) := by
  cases addr with
  | causeway slot => exact .refl _
  | can c b ext brs id =>
    simp only [State.sedgeSend]
    split
    · unfold State.canSedgePut
      split
      · exact .refl _
      · exact sent_canLoad ..
    · exact .refl _
  | ethernet ip pp lp port =>
    rw [State.sedgeSend, State.each_keeps (g := fun s => s.tile u) fun s p => tile_ethSend p ip _]
    exact .refl _
  | fabric peer =>
    rw [State.sedgeSend]
    split
    · obtain ⟨l, e⟩ := fabricDeliver_emits (s := s.emit (.sedgeFabric t peer frame)) peer (s.boardTile t) frame
      rw [e]
      exact .refl _
    · exact (told_bwkSend (.refl s)).sent u

end send

/-! ### Receiving and the watchdog (R210, R211, R223) -/

section receive

variable {s : State} {t : TileId} {k : Fin 32} {now : Nat}

theorem counted_open {c : SedgeConn} (need : Int) (h : c.state ≠ .closed) : (c.counted need).state ≠ .closed := by
  rw [SedgeConn.counted]
  split
  · dsimp only
    split <;> decide
  · exact h

/-- A judged frame leaves the binding, the number of the next frame sent and the connection open. -/
theorem conn_judged {s' : State} (h : s.Judged s' t k) (open_ : (s.conn t k).state ≠ .closed) :
    (s'.conn t k).binding = (s.conn t k).binding ∧ (s'.conn t k).state ≠ .closed ∧ (s'.conn t k).txSeq = (s.conn t k).txSeq := by
  obtain ⟨check, rfl⟩ | ⟨seq, payload, rfl⟩ := h
  · obtain ⟨fails, errAt, failed, -, e⟩ := conn_sedgeFail (s := s) (t := t) (k := k) check
    rw [e]
    refine ⟨rfl, ?_, rfl⟩
    cases failed
    · exact open_
    · exact SedgeState.noConfusion
  · obtain ⟨run, state, e⟩ := conn_sedgeAccept_keeps (s := s) (t := t) (k := k) seq payload
    refine ⟨by rw [e]; rfl, ?_, by rw [e]; rfl⟩
    rw [conn_sedgeAccept]
    refine counted_open _ ?_
    rcases conn_sedgeLate (s := s) (t := t) (k := k) with late | same
    · rw [late]; exact SedgeState.noConfusion
    · rw [same]; exact open_

theorem connStep_judged {s' : State} (h : s.Judged s' t k) : State.ConnStep t k s s' := by
  obtain ⟨check, rfl⟩ | ⟨seq, payload, rfl⟩ := h
  · exact connStep_sedgeFail check
  · exact connStep_sedgeAccept seq payload

/-- While the signatures of a pair are compared the triad does not act (R223). -/
theorem Tile.not_triadActs_of_confirm {tl : Tile} (h : tl.triad.mode = .confirm) : tl.triadActs = false := by
  rw [Tile.triadActs, h, bne_self_eq_false, Bool.and_false]

theorem holdBack_of_runs (runs : (s.tile t).triadRuns = true) (i : Instr) :
    s.holdBack t i = s.modTriad t fun tr => { tr with held := tr.held ++ [i] } := if_pos runs

theorem sedgeFrameReceived_held (ht : s.hasTile t = true) (runs : (s.tile t).triadRuns = true) (confirm : (s.tile t).triad.mode = .confirm)
    (svc : (s.tile t).die.svc = true) (rx : (s.tile t).connRx k = true) (bound : (s.conn t k).binding.isSome = true)
    (open_ : (s.conn t k).state ≠ .closed) (frame : List Byte) : exec (.sedgeFrameReceived t k frame now) s =
      .next ((s.at now).modTriad t fun tr => { tr with held := tr.held ++ [.sedgeFrameReceived t k frame now] }) := by
  change execSedgeFrameReceived t k frame now s = _
  have is_bound : (s.conn t k).binding.isNone = false := by rw [← Option.not_isSome, bound]; rfl
  rw [← holdBack_of_runs (s := s.at now) runs]
  simp only [execSedgeFrameReceived, onTile_of _ _ _ ht, State.tile_at, conn_at, runs, svc, rx, is_bound, beq_false_of_ne open_,
    Tile.not_triadActs_of_confirm confirm, Bool.not_true, Bool.not_false, Bool.or_self, Bool.false_eq_true, if_false, if_true]

theorem sedgeWatchdogExpiry_held (ht : s.hasTile t = true) (runs : (s.tile t).triadRuns = true)
    (confirm : (s.tile t).triad.mode = .confirm) : exec (.sedgeWatchdogExpiry t (k, now)) s =
      .next ((s.at now).modTriad t fun tr => { tr with held := tr.held ++ [.sedgeWatchdogExpiry t (k, now)] }) := by
  change execSedgeWatchdogExpiry t (k, now) s = _
  rw [← holdBack_of_runs (s := s.at now) runs]
  simp only [execSedgeWatchdogExpiry, onTile_of _ _ _ ht, State.tile_at, Tile.not_triadActs_of_confirm confirm, Bool.not_false, if_true]

theorem exec_sedgeWatchdogExpiry (ht : s.hasTile t = true) (acts : (s.tile t).triadActs = true) :
    exec (.sedgeWatchdogExpiry t (k, now)) s = .next ((s.at now).sedgeLate t k) := by
  change execSedgeWatchdogExpiry t (k, now) s = _
  simp only [execSedgeWatchdogExpiry, onTile_of _ _ _ ht, State.tile_at, acts, Bool.not_true, Bool.false_eq_true, if_false]

theorem door_sedgeLate : ((s.sedgeLate t k).tile t).door = (s.tile t).door := by
  unfold State.sedgeLate
  dsimp only
  split
  · rw [door_setSedge, State.modConn, State.tile_modTile_self]
  · rfl

end receive

/-! ### Sending (R206, R212, R214, R223) -/

section transmit

variable {s : State} {t : TileId} {k : Fin 32}

theorem sedgeTxPeriod_held (ht : s.hasTile t = true) (runs : (s.tile t).triadRuns = true) (confirm : (s.tile t).triad.mode = .confirm)
    (bound : (s.conn t k).binding.isSome = true) (svc : (s.tile t).die.svc = true) (tx : (s.tile t).connRx k = false) :
    exec (.sedgeTxPeriod t k) s = .next (s.modTriad t fun tr => { tr with held := tr.held ++ [.sedgeTxPeriod t k] }) := by
  change execSedgeTxPeriod t k s = _
  obtain ⟨addr, is_bound⟩ := Option.isSome_iff_exists.mp bound
  rw [← holdBack_of_runs runs]
  simp only [execSedgeTxPeriod, onTile_of _ _ _ ht, is_bound, svc, tx, Tile.not_triadActs_of_confirm confirm, Bool.not_true, Bool.not_false,
    Bool.or_self, Bool.false_eq_true, if_false, if_true]

/-- The next number is taken and the frame of that number handed to the channel; two free values are drawn for its payload. -/
theorem exec_sedgeTxPeriod {addr : SedgeAddr} (ht : s.hasTile t = true) (bound : (s.conn t k).binding = some addr)
    (svc : (s.tile t).die.svc = true) (tx : (s.tile t).connRx k = false) (acts : (s.tile t).triadActs = true) :
    ∃ payload, exec (.sedgeTxPeriod t k) s = .next ((({ s with freeCtr := s.freeCtr + 2 } : State).modConn t k fun c =>
      { c with txSeq := c.txSeq + 1 }).sedgeSend t addr (s.txFrame t k payload)) := by
  refine ⟨(s.txPayload t k).1, ?_⟩
  change execSedgeTxPeriod t k s = _
  simp only [execSedgeTxPeriod, onTile_of _ _ _ ht, bound, svc, tx, acts, Bool.not_true, Bool.or_self, Bool.false_eq_true, if_false]
  rfl

/-- A frame begins with its number (R206). -/
theorem take_txFrame (payload : List Byte) : (s.txFrame t k payload).take 2 = beBytes 2 (s.conn t k).txSeq.toNat := by
  simp only [State.txFrame, List.append_assoc]
  exact List.take_left' (length_beBytes 2 _)

theorem conn_of_sent {s' : State} (h : Tile.Sent (s.tile t) (s'.tile t)) (j : Fin 32) : s'.conn t j = s.conn t j := by
  rw [State.conn, h]
  rfl

end transmit

/-! ### Opening and closing (R209, R211, R223, R340) -/

section bind

variable {s : State} {h : HostCmd} {k : Fin 32} {addr : SedgeAddr}

theorem connStep_bindBuffer {t : TileId} {j : Fin 32} (owner : Option (Fin 32)) : State.ConnStep t j s (s.bindBuffer t addr owner) := by
  unfold State.bindBuffer
  split
  · split
    · rw [State.modBuf, State.modCan]
      exact connStep_modTile rfl rfl rfl rfl rfl
    · exact .refl s
  · exact .refl s

theorem conn_bindBuffer {t : TileId} {j : Fin 32} (owner : Option (Fin 32)) : (s.bindBuffer t addr owner).conn t j = s.conn t j :=
  (connStep_bindBuffer (j := j + 1) owner).conns j (by simp)

theorem connStep_sedgeStart {t : TileId} : State.ConnStep t k s (s.sedgeStart t k) := connStep_modConn.trans connStep_setSedge

theorem conn_sedgeStart {t : TileId} : (s.sedgeStart t k).conn t k = { s.conn t k with run := 0, fails := [], bothSeq := [], state := .starting } := by
  rw [State.sedgeStart, conn_setSedge_self, conn_modConn_self]

section held

variable (runs : (s.tile h.tile).triadRuns = true) (confirm : (s.tile h.tile).triad.mode = .confirm)

include runs confirm

theorem sedgeOpen_held (due : s.Due h 0x64) (conn : Nat) : exec (.sedgeOpen h conn addr) s =
    .next (s.modTriad h.tile fun tr => { tr with held := tr.held ++ [.sedgeOpen h conn addr] }) := by
  change execSedgeOpen h conn addr s = _
  rw [execSedgeOpen, onCmd_of_due due, ← holdBack_of_runs runs]
  simp only [Tile.not_triadActs_of_confirm confirm, Bool.not_false, if_true]

theorem sedgeClose_held (due : s.Due h 0x65) (conn : Nat) : exec (.sedgeClose h conn) s =
    .next (s.modTriad h.tile fun tr => { tr with held := tr.held ++ [.sedgeClose h conn] }) := by
  change execSedgeClose h conn s = _
  rw [execSedgeClose, onCmd_of_due due, ← holdBack_of_runs runs]
  simp only [Tile.not_triadActs_of_confirm confirm, Bool.not_false, if_true]

end held

/-- A sound SEDGE_OPEN: a bound connection is refused, a free one bound and started. -/
theorem exec_sedgeOpen (due : s.Due h 0x64) (acts : (s.tile h.tile).triadActs = true) (defined_ : (s.tile h.tile).connId k ≠ 0)
    (fine : s.addrBroken h.tile k addr = none) (free : s.bufferTaken h.tile addr = none) (room : s.sedgeRate h.tile k ≤ 16000) :
    exec (.sedgeOpen h k.val addr) s = .next (if (s.conn h.tile k).binding.isSome then s.complete h 0x64 0x1E 0 else
      ((((s.modConn h.tile k fun c => { c with binding := some addr }).bindBuffer h.tile addr (some k)).complete h 0x64 0 0
        (leBytes 1 SedgeState.starting.code)).sedgeStart h.tile k).configRecord h.tile (some h) 0x64 0 [] [] []) := by
  change execSedgeOpen h k.val addr s = _
  rw [execSedgeOpen, onCmd_of_due due]
  simp only [acts, defined_, fine, free, not_lt.mpr room, k.isLt, Bool.not_true, Bool.false_eq_true, if_false, dif_pos, Fin.eta]

theorem sedgeClose_free (due : s.Due h 0x65) (acts : (s.tile h.tile).triadActs = true) (free : (s.conn h.tile k).binding = none) :
    exec (.sedgeClose h k.val) s = .next (s.complete h 0x65 0 0 (leBytes 1 (s.conn h.tile k).state.code)) := by
  change execSedgeClose h k.val s = _
  rw [execSedgeClose, onCmd_of_due due]
  simp only [acts, free, k.isLt, Bool.not_true, Bool.false_eq_true, if_false, dif_pos, Fin.eta]

/-- What opening makes of a free connection (R209). -/
theorem sedgeOpen_binds {s' : State} (e : s' = ((((s.modConn h.tile k fun c => { c with binding := some addr }).bindBuffer h.tile addr (some k)).complete
      h 0x64 0 0 (leBytes 1 SedgeState.starting.code)).sedgeStart h.tile k).configRecord h.tile (some h) 0x64 0 [] [] []) :
    State.ConnStep h.tile k s s' ∧ (s'.conn h.tile k).binding = some addr ∧ (s'.conn h.tile k).state = .starting ∧
      (s'.conn h.tile k).run = 0 := by
  subst e
  refine ⟨(((connStep_modConn.trans (connStep_bindBuffer _)).trans (told_complete (.refl _)).connStep).trans connStep_sedgeStart).trans
    (told_configRecord (.refl _)).connStep, ?_⟩
  rw [(told_configRecord (.refl _)).conn, conn_sedgeStart, (told_complete (.refl _)).conn, conn_bindBuffer, conn_modConn_self]
  exact ⟨rfl, rfl, rfl⟩

/-- A bound connection without its binding, and without the demands of its that no evaluation has seen. -/
def State.unbound (s : State) (t : TileId) (k : Fin 32) (addr : SedgeAddr) : State :=
  ((s.bindBuffer t addr none).modConn t k fun c => { c with binding := none, run := 0 }).modDoor t fun d =>
    { d with demSedgeOpen := d.demSedgeOpen.filter (· != k), demSedgeClose := d.demSedgeClose.filter (· != k) }

/-- What closing makes of a bound connection (R211, R215). -/
theorem sedgeClose_unbinds {s' : State} (e : s' = (((s.unbound h.tile k addr).complete h 0x65 0 0 (leBytes 1 SedgeState.closed.code)).setSedge
      h.tile k .closed).configRecord h.tile (some h) 0x65 0 [] [] []) :
    State.ConnStep h.tile k s s' ∧ (s'.conn h.tile k).binding = none ∧ (s'.conn h.tile k).state = .closed ∧
      k ∉ (s'.tile h.tile).door.demSedgeOpen ∧ k ∉ (s'.tile h.tile).door.demSedgeClose := by
  subst e
  have dropped : ∀ l : List (Fin 32), k ∉ l.filter (· != k) := fun l m => by simpa using (List.mem_filter.mp m).2
  refine ⟨((((connStep_bindBuffer _).trans connStep_modConn).trans connStep_modDoor).trans (told_complete (.refl _)).connStep).trans
    (connStep_setSedge.trans (told_configRecord (.refl _)).connStep), ?_⟩
  rw [(told_configRecord (.refl _)).conn, conn_setSedge_self, (told_complete (.refl _)).conn, (told_configRecord (.refl _)).door,
    door_setSedge, (told_complete (.refl _)).door, State.unbound, conn_modDoor, conn_modConn_self, State.door_modDoor]
  exact ⟨rfl, rfl, dropped _, dropped _⟩

theorem sedgeClose_bound (due : s.Due h 0x65) (acts : (s.tile h.tile).triadActs = true) (bound : (s.conn h.tile k).binding = some addr) :
    exec (.sedgeClose h k.val) s = .next ((((s.unbound h.tile k addr).complete h 0x65 0 0 (leBytes 1 SedgeState.closed.code)).setSedge
      h.tile k .closed).configRecord h.tile (some h) 0x65 0 [] [] []) := by
  change execSedgeClose h k.val s = _
  rw [execSedgeClose, onCmd_of_due due]
  simp only [acts, bound, k.isLt, Bool.not_true, Bool.false_eq_true, if_false, dif_pos, Fin.eta]
  rfl

end bind

/-- Settles O50: each command by what its operation makes of the connection, and by its frame. -/
theorem sedgeCommandsComplete : Obligations.SedgeCommandsComplete := by
  unfold Obligations.SedgeCommandsComplete
  intro s t k tile
  refine ⟨fun frame now acts svc rx bound open_ => ?received, fun runs confirm => ?held, fun now acts valid => ?watchdog,
    fun addr bound svc tx acts => ?sent, ?commands⟩
  case received =>
    obtain ⟨s', here, judged⟩ := sedgeFrameReceived_judged (now := now) ⟨tile, acts, svc, rx, bound, open_⟩ frame
    obtain ⟨binding, still_open, number⟩ := conn_judged judged open_
    have step := connStep_judged judged
    exact ⟨s', here, binding, still_open, number, step.conns, step.ax, step.field, step.triad, step.only.others⟩
  case held =>
    refine ⟨fun frame now svc rx bound open_ => sedgeFrameReceived_held tile runs confirm svc rx bound open_ frame,
      fun now => sedgeWatchdogExpiry_held tile runs confirm, sedgeTxPeriod_held tile runs confirm, ?_⟩
    rintro h rfl
    exact ⟨fun addr due => sedgeOpen_held runs confirm due k.val, fun due => sedgeClose_held runs confirm due k.val⟩
  case watchdog =>
    have here := exec_sedgeWatchdogExpiry (k := k) (now := now) tile acts
    refine ⟨fun due => ⟨_, here, conn_sedgeLate_of_due (s := s.at now) valid due, door_sedgeLate (s := s.at now), ?_⟩, fun soon => ?_⟩
    · have step := connStep_sedgeLate (s := s.at now) (t := t) (k := k)
      exact ⟨step.ax, step.field, step.conns⟩
    · rw [here, sedgeLate_of_not_due (s := s.at now) soon]
  case sent =>
    obtain ⟨payload, here⟩ := exec_sedgeTxPeriod tile bound svc tx acts
    refine ⟨_, here, ?_⟩
    have numbered := connStep_modConn (s := { s with freeCtr := s.freeCtr + 2 }) (t := t) (k := k) (f := fun c => { c with txSeq := c.txSeq + 1 })
    have sent := sent_sedgeSend (u := t) (s := ({ s with freeCtr := s.freeCtr + 2 } : State).modConn t k fun c => { c with txSeq := c.txSeq + 1 })
      (t := t) addr (s.txFrame t k payload)
    refine ⟨?_, fun j hj => ?_, ?_, ?_, ?_, ?_, ?_⟩
    · rw [conn_of_sent sent, conn_modConn_self]; rfl
    · rw [conn_of_sent sent, numbered.conns j hj]; rfl
    · have door := congrArg Tile.door sent
      rwa [State.modConn, State.tile_modTile_self] at door
    · rw [sent]; exact numbered.ax
    · rw [sent]; exact numbered.field
    · rintro slot rfl
      exact ⟨s.txFrame t k payload, List.mem_append_right _ (List.mem_singleton_self _), take_txFrame payload⟩
    · rintro peer rfl own
      refine ⟨s.txFrame t k payload, ?_, take_txFrame payload⟩
      rw [State.sedgeSend, if_pos (by exact own)]
      obtain ⟨l, e⟩ := fabricDeliver_emits (s := (({ s with freeCtr := s.freeCtr + 2 } : State).modConn t k fun c =>
        { c with txSeq := c.txSeq + 1 }).emit (.sedgeFabric t peer (s.txFrame t k payload))) peer _ (s.txFrame t k payload)
      exact e ▸ List.mem_append_right l (List.mem_cons_self ..)
  case commands =>
    rintro h rfl acts
    refine ⟨fun addr due defined_ fine free room => ?_, fun due => ⟨sedgeClose_free due acts, fun bound => ?_⟩⟩
    · have here := exec_sedgeOpen due acts defined_ fine free room
      refine ⟨fun bound => by rw [here, if_pos bound], fun free_ => ?_⟩
      rw [free_, Option.isSome_none, if_neg Bool.false_ne_true] at here
      obtain ⟨step, binding, state, run⟩ := sedgeOpen_binds rfl
      exact ⟨_, here, binding, state, run, step.ax, step.field, step.conns⟩
    · obtain ⟨addr, bound⟩ := Option.isSome_iff_exists.mp bound
      obtain ⟨step, binding, state, noOpen, noClose⟩ := sedgeClose_unbinds rfl
      exact ⟨_, sedgeClose_bound due acts bound, binding, state, noOpen, noClose, step.ax, step.field, step.conns⟩

end Sys2Proof.Machine
end

