-- ==== Sys2Proof/Proofs/TriadSteps.lean ====
section
/-!
PROOFS. What the steps of the control triad leave: a TRIAD record of everything but the log, a BIST that ends of all but the tests, and the loss of
the triad of the field die (R222, R226, R230, R235, R236).
-/

namespace Sys2Proof.Machine

section records

variable {s0 s : State} {t : TileId}

theorem logged_peatEntry {type : Nat} {src : Source} {body : List Byte} (h : State.Logged s0 s) :
    State.Logged s0 (s.peatEntry t type src body) := by
  unfold State.peatEntry
  dsimp only
  split
  case isTrue => exact logged_peatPut (logged_closeEvents h)
  case isFalse absent => exact logged_ite (logged_modPeat h fun present => absurd present absent) (logged_peatLose h)

theorem logged_triadRecord {c : Option HostCmd} (h : State.Logged s0 s) : State.Logged s0 (s.triadRecord t c) := logged_peatEntry h

end records

/-! ### Beside its tests (R233, R234, R236) -/

/-- Field die, link, axes, doorway state and the triad's masking stand; its tests and readmissions may differ, and what telling changes. -/
structure Tile.Tested (x y : Tile) : Prop where
  field : y.field = x.field
  link  : y.link = x.link
  ax    : y.ax = x.ax
  st    : y.door.st = x.door.st
  triad : y.triad = { x.triad with bist := y.triad.bist, readmitCore := y.triad.readmitCore, readmit := y.triad.readmit }

section tested

variable {x y z : Tile} {s s' s'' : State} {t : TileId}

theorem Tile.Tested.refl (x : Tile) : Tile.Tested x x := ⟨rfl, rfl, rfl, rfl, rfl⟩

theorem Tile.Tested.trans (h : Tile.Tested x y) (k : Tile.Tested y z) : Tile.Tested x z := by
  refine ⟨k.field.trans h.field, k.link.trans h.link, k.ax.trans h.ax, k.st.trans h.st, ?_⟩
  have e := k.triad
  rw [h.triad] at e
  exact e

theorem State.Told.tested (h : State.Told s s') (t : TileId) : Tile.Tested (s.tile t) (s'.tile t) := by
  rw [h.tiles t]
  exact ⟨rfl, rfl, rfl, rfl, rfl⟩

theorem tested_modTile (f : Tile → Tile) (h : Tile.Tested (s.tile t) (f (s.tile t))) : Tile.Tested (s.tile t) ((s.modTile t f).tile t) := by
  rwa [State.tile_modTile_self]

theorem tested_selftestFinish : Tile.Tested (s.tile t) ((s.selftestFinish t).tile t) := by
  cases pending : (s.tile t).door.testPending with
  | true =>
    rw [selftestFinish_pending pending]
    exact .refl _
  | false => exact (tested_modTile _ ⟨rfl, rfl, rfl, rfl, rfl⟩).trans ((told_selftestFinish pending).tested t)

theorem tested_bistAbort : Tile.Tested (s.tile t) ((s.bistAbort t).tile t) := by
  unfold State.bistAbort
  split
  · exact .refl _
  · dsimp only
    split
    · exact ((tested_modTile _ ⟨rfl, rfl, rfl, rfl, rfl⟩).trans (tested_modTile _ ⟨rfl, rfl, rfl, rfl, rfl⟩)).trans tested_selftestFinish
    · exact tested_modTile _ ⟨rfl, rfl, rfl, rfl, rfl⟩

/-- The completion of a readmission takes it from the triad and is told. -/
theorem told_readmitDone {core : Fin 4} {pass : Bool} :
    State.Told (s.modTriad t fun tr => { tr with readmit := none }) (s.readmitDone t core pass) := by
  unfold State.readmitDone
  dsimp only
  split
  case h_1 nobody =>
    have same : (s.modTriad t fun tr => { tr with readmit := none }) = s := by
      refine (State.modTile_congr s t _ (fun x => x) ?_).trans (State.modTile_id s t)
      dsimp only
      rw [← nobody]
    rw [same]
    exact .refl s
  case h_2 => exact told_complete (told_triadRecord (.refl _))

theorem tested_readmitAborted : Tile.Tested (s.tile t) ((s.readmitAborted t).tile t) := by
  unfold State.readmitAborted
  split
  · exact .refl _
  · exact ((tested_modTile _ ⟨rfl, rfl, rfl, rfl, rfl⟩).trans (tested_modTile _ ⟨rfl, rfl, rfl, rfl, rfl⟩)).trans (told_readmitDone.tested t)

end tested

/-! ### The loss of the triad (R226, R230) -/

/-- The field die and the triad stand. -/
def lossFraming : Framing where
  rel x y := y.field = x.field ∧ y.triad = x.triad
  refl _ := ⟨rfl, rfl⟩
  trans h k := ⟨k.1.trans h.1, k.2.trans h.2⟩
  door _ _ _ _ := ⟨rfl, rfl⟩
  axis _ _ _ _ := ⟨rfl, rfl⟩

section loss

variable {s s' : State} {t : TileId}

theorem proofStop_keeps : ((s.proofStop t).tile t).field = (s.tile t).field ∧ ((s.proofStop t).tile t).triad = (s.tile t).triad := by
  refine ⟨?_, (starting_proofStop (.refl startFraming t s)).tile.triad⟩
  unfold State.proofStop
  split
  · rfl
  · rw [tested_selftestFinish.field, State.field_modDoor]
    exact State.each_keeps (g := fun s => (s.tile t).field) (fun s a => by cases t <;> rfl) _ _

/-- The wires of one pair. -/
theorem tripTriad_triadTrip (a b : AxisId) : ((((s.endPass t b false).triadTrip t b srcTriad)).axis t a).mo.tripTriad =
    (decide (a = b) || (s.axis t a).mo.tripTriad) := by
  have passed : ((s.endPass t b false).axis t a).mo.tripTriad = (s.axis t a).mo.tripTriad := by
    rw [mo_endPass]
    split <;> rfl
  have noted (c : Prop) [Decidable c] : ((if c then (s.endPass t b false).noteTrip t b srcTriad else s.endPass t b false).axis t a).mo.tripTriad =
      (s.axis t a).mo.tripTriad := by
    split
    · rw [State.noteTrip, State.modMo, State.axis_modAxis_eq_ite, ← passed]
      split <;> rfl
    · exact passed
  rw [State.triadTrip, State.modMo, State.axis_modAxis_eq_ite]
  by_cases e : a = b
  · rw [if_pos e, decide_eq_true e, Bool.true_or]
  · rw [if_neg e, noted, decide_eq_false e, Bool.false_or]

/-- Every pair of a list is raised, and those that were stay so. -/
theorem tripTriad_each (a : AxisId) (l : List AxisId) (h : a ∈ l ∨ (s.axis t a).mo.tripTriad = true) :
    ((s.each l fun s b => (s.endPass t b false).triadTrip t b srcTriad).axis t a).mo.tripTriad = true := by
  induction l generalizing s with
  | nil => exact h.resolve_left (by simp)
  | cons b l ih =>
    rw [State.each_cons]
    apply ih
    rw [tripTriad_triadTrip]
    rcases h with h | h
    · rcases List.mem_cons.mp h with e | e
      · exact .inr (by rw [decide_eq_true e, Bool.true_or])
      · exact .inl e
    · exact .inr (by rw [h, Bool.or_true])

/-- The outputs of a tile whose triad is lost (R230). -/
structure State.TriadLost (s s' : State) (t : TileId) : Prop where
  mode    : (s'.tile t).triad.mode = .lost
  st      : (s'.tile t).door.st = .faultSafe
  latched : (s'.tile t).door.latched.contains 0x0C = true
  sra     : (s'.tile t).door.sraCmd = false
  alive   : (s'.tile t).link.keepAlive = false
  trips   : ∀ a, (s'.axis t a).mo.tripTriad = true
  field   : (s'.tile t).field = (s.tile t).field

theorem contains_latch (l : List Nat) (x : Nat) : (if l.contains x then l else l ++ [x]).contains x = true := by
  split
  · assumption
  · simp

/-- Once the triad is in LOST and every pair raised, the outputs set and the loss told. -/
theorem triadLost_of_outputs {s1 s2 : State} {f : Link → Link} {g : Doorway → Doorway}
    (mode : (s1.tile t).triad.mode = .lost) (field : (s1.tile t).field = (s.tile t).field)
    (trips : ∀ a, (s1.axis t a).mo.tripTriad = true) (hf : ∀ l, (f l).keepAlive = false)
    (hg : ∀ d, (g d).st = .faultSafe ∧ (g d).latched.contains 0x0C = true ∧ (g d).sraCmd = false)
    (told : State.Logged ((s1.modLink t f).modDoor t g) s2) : s.TriadLost s2 t := by
  have tile := told.tiles t
  rw [State.modDoor, State.tile_modTile_self, State.modLink, State.tile_modTile_self] at tile
  obtain ⟨st, latched, sra⟩ := hg (s1.tile t).door
  refine ⟨?_, ?_, ?_, ?_, ?_, fun a => ?_, ?_⟩
  · rw [tile]; exact mode
  · rw [tile]; exact st
  · rw [tile]; exact latched
  · rw [tile]; exact sra
  · rw [tile]; exact hf _
  · rw [State.axis, tile]; exact trips a
  · rw [tile]; exact field

theorem triadLose_lost (cause : Nat) : s.TriadLost (s.triadLose t cause) t := by
  unfold State.triadLose
  dsimp only
  refine triadLost_of_outputs ?mode ?field (fun a => tripTriad_each a _ (.inl (AxisId.mem_all a))) (fun _ => rfl)
    (fun _ => ⟨rfl, contains_latch .., rfl⟩) (logged_triadRecord (logged_raise (.refl _)))
  all_goals
    generalize he : State.proofStop _ t = s1
    obtain ⟨field, triad⟩ := proofStop_keeps (s := State.readmitAborted _ t) (t := t)
    have framed : State.Frame lossFraming t s1 (s1.each AxisId.all fun s a => (s.endPass t a false).triadTrip t a srcTriad) :=
      frame_each (.refl _ t s1) fun _ _ h => frame_triadTrip (frame_endPass h)
  case mode =>
    rw [framed.tile.2, ← he, triad, tested_readmitAborted.triad, State.triad_modTriad]
  case field =>
    rw [framed.tile.1, ← he, field, tested_readmitAborted.field, State.modTriad, State.tile_modTile_self]
    exact tested_bistAbort.field

end loss

end Sys2Proof.Machine
end

