-- ==== Sys2Proof/Proofs/TriadMask.lean ====
section
/-!
PROOFS. A single fault is masked, or the triad is lost (R219, R222, R223, R226, R229, R230).
-/

namespace Sys2Proof.Machine

section mask

variable {s s' s'' : State} {t : TileId}

/-- A change of the triad before its loss is no change of the field die. -/
theorem triadLost_of_captured (f : Triad → Triad) (cause : Nat) : s.TriadLost ((s.modTriad t f).triadLose t cause) t := by
  have lost := triadLose_lost (s := s.modTriad t f) (t := t) cause
  refine { lost with field := ?_ }
  rw [lost.field, State.modTriad, State.tile_modTile_self]

/-- A core fenced, and all but the tests and the masking as it was (R223). -/
theorem fence_masks (d : Disagreement) (cause : Nat) :
    ((s.fence t d cause).tile t).triad.mode = .confirm ∧
    ((s.fence t d cause).tile t).triad.fenced = some ((s.tile t).triad.positions[d.position]) ∧
    ((s.fence t d cause).tile t).triad.masked = (s.tile t).triad.masked + 1 ∧
    ((s.fence t d cause).tile t).triad.roles = (s.tile t).triad.roles ∧
    ((s.fence t d cause).tile t).field = (s.tile t).field ∧ ((s.fence t d cause).tile t).link = (s.tile t).link ∧
    ((s.fence t d cause).tile t).ax = (s.tile t).ax ∧ ((s.fence t d cause).tile t).door.st = (s.tile t).door.st := by
  obtain ⟨f, told, hf⟩ : ∃ f : Triad → Triad, State.Logged ((s.modTriad t f).bistAbort t) (s.fence t d cause) ∧
      ((f (s.tile t).triad).mode = .confirm ∧ (f (s.tile t).triad).fenced = some ((s.tile t).triad.positions[d.position]) ∧
        (f (s.tile t).triad).masked = (s.tile t).triad.masked + 1 ∧ (f (s.tile t).triad).roles = (s.tile t).triad.roles) := by
    unfold State.fence
    dsimp only
    exact ⟨_, logged_triadRecord (logged_ite (logged_raise (logged_raise (.refl _))) (logged_raise (.refl _))), rfl, rfl, rfl, rfl⟩
  have tile := told.tiles t
  have aside := tested_bistAbort (s := s.modTriad t f) (t := t)
  rw [tile]
  dsimp only
  rw [aside.triad, aside.field, aside.link, aside.ax, aside.st, State.modTriad, State.tile_modTile_self]
  obtain ⟨mode, fenced, masked, roles⟩ := hf
  exact ⟨mode, fenced, masked, roles, rfl, rfl, rfl, rfl⟩

theorem disagree_fences (d : Disagreement) (cause : Nat) (runs : (s.tile t).triadRuns = true) (mode : (s.tile t).triad.mode = .triplex)
    (halves : d.halvesDiffer = false) (agree : d.noTwoAgree = false) : s.disagree t d cause = s.fence t d cause := by
  simp [State.disagree, runs, mode, halves, agree]

theorem Tile.not_lost_of_runs {tl : Tile} (h : tl.triadRuns = true) : tl.triad.mode ≠ .lost := by
  rw [Tile.triadRuns] at h
  intro e
  simp [e] at h

/-- Every other disagreement loses the triad (R226, R229). -/
theorem disagree_loses (d : Disagreement) (cause : Nat) (runs : (s.tile t).triadRuns = true)
    (h : (s.tile t).triad.mode ≠ .triplex ∨ d.halvesDiffer = true ∨ d.noTwoAgree = true) : s.TriadLost (s.disagree t d cause) t := by
  unfold State.disagree
  dsimp only
  rw [runs, Bool.not_true, if_neg Bool.false_ne_true]
  cases halves : d.halvesDiffer
  case true => exact triadLost_of_captured _ 4
  case false =>
    rw [if_neg Bool.false_ne_true]
    cases mode : (s.tile t).triad.mode
    case triplex =>
      have none_agree : d.noTwoAgree = true := by simpa [mode, halves] using h
      dsimp only
      rw [if_pos none_agree]
      exact triadLost_of_captured _ 2
    case confirm => exact triadLost_of_captured _ 1
    case joining => exact triadLost_of_captured _ 3
    case duplex => exact triadLost_of_captured _ 3
    case lost => exact absurd mode (Tile.not_lost_of_runs runs)

/-! ### The comparison of the signatures (R223, R229) -/

/-- The mode after a core is masked, and what that leaves. -/
theorem afterMask_eq (tr : Triad) (now : Nat) :
    (tr.afterMask now).held = tr.held ∧ (tr.afterMask now).fenced = tr.fenced ∧ (tr.afterMask now).roles = tr.roles ∧
    (match tr.spare with
      | some c => (tr.afterMask now).mode = .joining ∧ (tr.afterMask now).joining = some (c, 1)
      | none => (tr.afterMask now).mode = .duplex ∧ (tr.afterMask now).duplexSince = some now) := by
  unfold Triad.afterMask
  cases tr.spare <;> exact ⟨rfl, rfl, rfl, rfl, rfl⟩

/-- The masked triad, and that all else of the tile but the log stands. -/
theorem maskCore_eq (core : Fin 4) : ∃ tr : Triad, ((s.maskCore t core).tile t) =
      { s.tile t with triad := tr, peat := ((s.maskCore t core).tile t).peat } ∧
    tr.held = (s.tile t).triad.held ∧ tr.fenced = none ∧ tr.roles = vset (s.tile t).triad.roles core .excluded ∧
    (match ({ (s.tile t).triad with roles := vset (s.tile t).triad.roles core .excluded } : Triad).spare with
      | some c => tr.mode = .joining ∧ tr.joining = some (c, 1)
      | none => tr.mode = .duplex ∧ tr.duplexSince = some s.now) := by
  obtain ⟨tr, now, e⟩ : ∃ tr : Triad, ∃ told : State.Logged (s.modTriad t fun _ => tr.afterMask s.now) (s.maskCore t core),
      tr.held = (s.tile t).triad.held ∧ tr.fenced = none ∧ tr.roles = vset (s.tile t).triad.roles core .excluded :=
    ⟨_, logged_triadRecord (.refl _), rfl, rfl, rfl⟩
  obtain ⟨held, fenced, roles⟩ := e
  obtain ⟨held', fenced', roles', mode⟩ := afterMask_eq tr s.now
  refine ⟨tr.afterMask s.now, ?_, held'.trans held, fenced'.trans fenced, roles'.trans roles, ?_⟩
  · have tile := now.tiles t
    rwa [State.modTriad, State.tile_modTile_self] at tile
  · have spare : ({ (s.tile t).triad with roles := vset (s.tile t).triad.roles core .excluded } : Triad).spare = tr.spare := by
      rw [Triad.spare, Triad.spare, roles]
    rw [spare]
    exact mode

end mask

/-- Settles O36: a named core is fenced, any other disagreement loses the triad, and the comparison masks the core or loses it. -/
theorem triadMasksASingleFaultOrIsLost : Obligations.TriadMasksASingleFaultOrIsLost := by
  unfold Obligations.TriadMasksASingleFaultOrIsLost
  intro s t ht runs lost
  have lose {s0 s' : State} (h0 : s0.tile t = s.tile t) (h : s0.TriadLost s' t) : lost s' :=
    ⟨h.mode, h.st, h.latched, h.sra, h.alive, h.trips, by rw [h.field, h0]⟩
  have runs' (now : Nat) : ((s.at now).tile t).triadRuns = true := runs
  refine ⟨fun d now => ⟨?fenced, fun h => ?lost⟩, fun core now mode fenced => ⟨?agree, ?differ⟩⟩
  case fenced =>
    intro mode halves agree masked
    have fences (cause : Nat) : masked ((s.at now).disagree t d cause) := by
      rw [disagree_fences d cause (runs' now) mode halves agree]
      exact fence_masks d _
    exact ⟨⟨_, onTile_of t s (fun s => (s.at now).disagree t d d.cause.val) ht, fences _⟩,
      ⟨_, onTile_of t s (fun s => (s.at now).disagree t d 4) ht, fences _⟩⟩
  case lost =>
    have loses (cause : Nat) : lost ((s.at now).disagree t d cause) := lose (s0 := s.at now) rfl (disagree_loses d _ (runs' now) h)
    exact ⟨⟨_, onTile_of t s (fun s => (s.at now).disagree t d d.cause.val) ht, loses _⟩,
      ⟨_, onTile_of t s (fun s => (s.at now).disagree t d 4) ht, loses _⟩⟩
  case agree =>
    have compared : exec (.signatureComparisonComplete t true now) s =
        .next ((((s.at now).maskCore t core).commitHeld t).readmitAborted t) := by
      change execSignatureComparisonComplete t true now s = _
      simp [execSignatureComparisonComplete, onTile_of _ _ _ ht, mode, fenced]
    obtain ⟨tr, tile, held, unfenced, roles, after⟩ := maskCore_eq (s := s.at now) (t := t) core
    rw [State.tile_at] at tile held roles
    refine ⟨((s.at now).maskCore t core).modTriad t fun tr => { tr with held := [] }, ?_, ?_⟩
    · have same : (((s.at now).maskCore t core).tile t).triad.held = (s.tile t).triad.held := by rw [tile]; exact held
      rw [compared, State.commitHeld, same]
    · rw [State.modTriad, State.tile_modTile_self, tile]
      exact ⟨rfl, unfenced, roles, after, rfl, rfl, rfl, rfl⟩
  case differ =>
    have compared : exec (.signatureComparisonComplete t false now) s = .next ((s.at now).signaturesDiffer t) := by
      change execSignatureComparisonComplete t false now s = _
      simp [execSignatureComparisonComplete, onTile_of _ _ _ ht, mode, fenced]
    exact ⟨_, compared, lose (s0 := s.at now) rfl (triadLost_of_captured _ 1)⟩

end Sys2Proof.Machine
end

