-- ==== Sys2Proof/Proofs/TriadJoin.lean ====
section
/-!
PROOFS. The join of the spare, step by step, and the checkpoint that it loads (R225, R227, R228, R234).
-/

namespace Sys2Proof.Machine

section join

variable {s : State} {t : TileId}

/-- A tile of which, but for the log, the triad alone differs. -/
theorem tile_of_logged_triad {s' : State} {f : Triad → Triad} (h : State.Logged (s.modTriad t f) s') :
    s'.tile t = { s.tile t with triad := f (s.tile t).triad, peat := (s'.tile t).peat } := by
  have tile := h.tiles t
  rwa [State.modTriad, State.tile_modTile_self] at tile

theorem tile_joinFail (core : Fin 4) (cause : Nat) : (s.joinFail t core cause).tile t =
    { s.tile t with
      triad := { (s.tile t).triad.setRole core .excluded with mode := .duplex, joining := none, duplexSince := some s.now }
      peat := ((s.joinFail t core cause).tile t).peat } :=
  tile_of_logged_triad (f := fun tr => { tr.setRole core .excluded with mode := .duplex, joining := none, duplexSince := some s.now })
    (logged_triadRecord (logged_raise (.refl _)))

/-- Of two buffers the newer one is taken where its CRC holds, else the other (R227). -/
theorem newer_or_other {α : Type} (bufs : Fin 2 → α) (newer : Fin 2) (crc0 crc1 : Bool) (h : crc0 = true ∨ crc1 = true) :
    ∃ i : Fin 2, (if (if newer = 0 then crc0 else crc1) = true then some (bufs newer)
        else if (if newer + 1 = 0 then crc0 else crc1) = true then some (bufs (newer + 1)) else none) = some (bufs i) ∧
      (if i = 0 then crc0 else crc1) = true ∧ (i ≠ newer → (if newer = 0 then crc0 else crc1) = false) := by
  have other : (if newer = 0 then crc0 else crc1) = false → (if newer + 1 = 0 then crc0 else crc1) = true := by
    revert newer h
    cases crc0 <;> cases crc1 <;> decide
  by_cases good : (if newer = 0 then crc0 else crc1) = true
  · exact ⟨newer, if_pos good, good, fun ne => absurd rfl ne⟩
  · have bad := Bool.eq_false_iff.mpr good
    exact ⟨newer + 1, by rw [if_neg good, if_pos (other bad)], other bad, fun _ => bad⟩

theorem goodBuffer_of_crc (tr : Triad) (crc0 crc1 : Bool) (h : crc0 = true ∨ crc1 = true) :
    ∃ i : Fin 2, tr.goodBuffer crc0 crc1 = some tr.cpBufs[i] ∧ (if i = (0 : Fin 2) then crc0 else crc1) = true ∧
      (i ≠ Fin.ofNat 2 tr.cpSeq.toNat → (if Fin.ofNat 2 tr.cpSeq.toNat = 0 then crc0 else crc1) = false) :=
  newer_or_other (fun i => tr.cpBufs[i]) _ crc0 crc1 h

theorem goodBuffer_none (tr : Triad) : tr.goodBuffer false false = none := by
  simp [Triad.goodBuffer]

end join

/-! ### Checkpoints (R225, R227) -/

section checkpoint

variable {s : State} {t : TileId}

theorem setActive_core (tr : Triad) (v : CoreImage) (c : Fin 4) :
    (tr.setActive v).core c = if tr.roles[c] == .active then v else tr.core c := by
  match c with
  | 0 => rfl
  | 1 => rfl
  | 2 => rfl
  | 3 => rfl

/-- The cores after a checkpoint: a spare that joins has the scratchpad of the pair from step 2 on (R227). -/
def Triad.mirrored (tr : Triad) (img : CoreImage) : Vector CoreImage 4 :=
  match tr.joining with
  | some (c, step) =>
    if step ≥ 2 then vset (tr.setActive img).cores c { (tr.setActive img).core c with scratch := img.scratch } else (tr.setActive img).cores
  | none => (tr.setActive img).cores

theorem mirrored_active {tr : Triad} {img : CoreImage} {c : Fin 4} (h : tr.roles[c] = .active) : (tr.mirrored img)[c] = img := by
  have active : (tr.setActive img).cores[c] = img := (setActive_core tr img c).trans (if_pos (beq_iff_eq.mpr h))
  unfold Triad.mirrored
  split
  · split
    · rw [vset_get]
      split
      case isTrue e =>
        subst e
        rw [Triad.core, active]
      case isFalse => exact active
    · exact active
  · exact active

theorem mirrored_joining {tr : Triad} {img : CoreImage} {c : Fin 4} {k : Fin 6} (h : tr.joining = some (c, k)) (hk : 2 ≤ k) :
    ((tr.mirrored img)[c]).scratch = img.scratch := by
  unfold Triad.mirrored
  rw [h]
  dsimp only
  rw [if_pos hk, vset_get, if_pos rfl]

/-- The triad once a checkpoint with an image is written (R225). -/
def Triad.checkpointed (tr : Triad) (ts : Word) (img : CoreImage) (lines : BitVec 512) (crc : BitVec 32) : Triad :=
  { tr with
    cores := tr.mirrored img, cpSeq := tr.cpSeq + 1, cpTs := ts
    dirty := ⟨⟨coreIds.map fun c => if tr.roles[c] == .active then lines else tr.dirty[c]⟩, rfl⟩
    cpBufs := vset tr.cpBufs (Fin.ofNat 2 (tr.cpSeq + 1).toNat) { seq := tr.cpSeq + 1, ts := ts, image := img, crc := crc } }

/-- A checkpoint draws its free values and changes the triad alone. -/
theorem checkpoint_eq : ∃ img lines crc, ∃ n : Nat, s.checkpoint t =
    ({ s with freeCtr := n } : State).modTriad t fun tr => tr.checkpointed s.ts img lines crc := by
  let free (k : Nat) : Int := Config.freeInt (s.freeCtr + k)
  exact ⟨{ regFile := free 0, control := free 1, scratch := BitVec.ofInt 1048576 (free 2) }, BitVec.ofInt 512 (free 3),
    BitVec.ofInt 32 (free 4), s.freeCtr + 5, rfl⟩

end checkpoint

/-! ### The steps -/

section steps

variable {s : State} {t : TileId} (ht : s.hasTile t = true)
include ht

theorem spareOutOfReset_first {c : Fin 4} (hj : (s.tile t).triad.joining = some (c, 1)) :
    exec (.spareOutOfReset t) s = .next (s.modTriad t fun tr => { tr with joining := some (c, 2) }) := by
  change execSpareOutOfReset t s = _
  rw [execSpareOutOfReset, onTile_of t s _ ht]
  simp only [hj]

theorem spareResetTimeout_first {c : Fin 4} (hj : (s.tile t).triad.joining = some (c, 1)) :
    exec (.spareResetTimeout t) s = .next (s.joinFail t c 1) := by
  change execSpareResetTimeout t s = _
  rw [execSpareResetTimeout, onTile_of t s _ ht]
  simp only [hj]

theorem spareCheckpointLoaded_second {c : Fin 4} (crc0 crc1 : Bool) (hj : (s.tile t).triad.joining = some (c, 2)) :
    exec (.spareCheckpointLoaded t (crc0, crc1)) s = .next (match (s.tile t).triad.goodBuffer crc0 crc1 with
      | some b => s.modTriad t fun tr =>
        { tr with joining := some (c, 3), cores := vset tr.cores c { b.image with scratch := (tr.core tr.positions[0]).scratch } }
      | none => s.joinFail t c 2) := by
  change execSpareCheckpointLoaded t (crc0, crc1) s = _
  rw [execSpareCheckpointLoaded, onTile_of t s _ ht]
  simp only [hj]
  cases (s.tile t).triad.goodBuffer crc0 crc1 <;> rfl

/-- The pause gives the spare its place, and the join is told. -/
theorem spareJoinPause_third {c : Fin 4} {now : Nat} (hj : (s.tile t).triad.joining = some (c, 3)) :
    ∃ s', exec (.spareJoinPause t now) s = .next s' ∧ State.Logged ((s.at now).modTriad t fun tr =>
      { tr.setRole c .active with
        mode := .triplex, joining := none, joinedAt := some (c, (s.at now).now), joinUs := ((s.at now).now - (s.tile t).triad.joinStart + 999) / 1000
        duplexSince := none, positions := vset tr.positions 2 c, cores := vset tr.cores c (tr.core tr.positions[0]) }) s' := by
  refine ⟨_, ?_, logged_triadRecord (t := t) (c := none) (logged_raise (t := t) (code := 0x71) (logged := true) (src := none)
    (data := leBytes 1 c.val ++ [0, 0, 0] ++ leBytes 4 (((s.at now).now - (s.tile t).triad.joinStart + 999) / 1000)) (.refl _))⟩
  change execSpareJoinPause t now s = _
  rw [execSpareJoinPause, onTile_of t s _ ht]
  simp only [State.tile_at, hj]

theorem exec_checkpointWrite : exec (.checkpointWrite t) s =
    .next (if (s.tile t).triadActs then s.checkpoint t else s.holdBack t (.checkpointWrite t)) :=
  onTile_of t s (fun s => if (s.tile t).triadActs then s.checkpoint t else s.holdBack t (.checkpointWrite t)) ht

theorem spareBistPeriod_starts {c : Fin 4} (runs : (s.tile t).triadRuns = true) (period : (s.tile t).par 0x88 2 ≠ 0)
    (spare : (s.tile t).triad.spare = some c) (bist : (s.tile t).triad.bist = none) (joining : (s.tile t).triad.joining = none) :
    exec (.spareBistPeriod t) s = .next (s.modTriad t fun tr => { tr with bist := some (c, 0) }) := by
  change execSpareBistPeriod t s = _
  rw [execSpareBistPeriod, onTile_of t s _ ht]
  simp [runs, period, State.spareBist, spare, bist, joining]

end steps

/-- Settles O37: each step of the join, a checkpoint by what its triad becomes, and the BIST of the spare. -/
theorem spareJoinsStepByStep : Obligations.SpareJoinsStepByStep := by
  unfold Obligations.SpareJoinsStepByStep
  intro s t ht tr failed
  have fails (c : Fin 4) (cause : Nat) : failed (s.joinFail t c cause) c := by
    dsimp only [failed]
    rw [tile_joinFail]
    exact ⟨rfl, rfl, rfl, rfl, rfl, rfl, rfl⟩
  refine ⟨?reset, ?load, ?pause, ?write, ?held, ?bist⟩
  case reset => exact fun c hj => ⟨spareOutOfReset_first ht hj, _, spareResetTimeout_first ht hj, fails c 1⟩
  case load =>
    intro c hj
    refine ⟨⟨_, spareCheckpointLoaded_second ht false false hj, ?_⟩, ?_⟩
    · rw [goodBuffer_none]
      exact fails c 2
    · intro crc0 crc1 good newer
      obtain ⟨i, buffer, crc, older⟩ := goodBuffer_of_crc tr crc0 crc1 good
      refine ⟨_, i, spareCheckpointLoaded_second ht crc0 crc1 hj, ?_⟩
      rw [buffer]
      dsimp only
      rw [State.modTriad, State.tile_modTile_self]
      have loaded : (vset tr.cores c { (tr.cpBufs[i]).image with scratch := (tr.core tr.positions[0]).scratch })[c] = _ :=
        (vset_get ..).trans (if_pos rfl)
      refine ⟨rfl, crc, older, ?_, ?_, ?_, rfl, rfl, rfl, rfl, rfl⟩
      · exact (congrArg CoreImage.regFile loaded :)
      · exact (congrArg CoreImage.control loaded :)
      · exact (congrArg CoreImage.scratch loaded :)
  case pause =>
    intro c now hj
    obtain ⟨s', joins, told⟩ := spareJoinPause_third (now := now) ht hj
    refine ⟨s', joins, ?_⟩
    rw [tile_of_logged_triad told]
    exact ⟨rfl, rfl, rfl, rfl, (vset_get ..).trans (if_pos rfl), rfl, rfl, rfl, rfl, rfl⟩
  case write =>
    intro acts
    obtain ⟨img, lines, crc, n, written⟩ := checkpoint_eq (s := s) (t := t)
    refine ⟨_, exec_checkpointWrite ht, ?_⟩
    rw [if_pos acts, written]
    intro now
    rw [State.modTriad, State.tile_modTile_self]
    have buffer : (tr.checkpointed s.ts img lines crc).cpBufs[now] = { seq := tr.cpSeq + 1, ts := s.ts, image := img, crc := crc } :=
      (vset_get ..).trans (if_pos rfl)
    refine ⟨rfl, rfl, congrArg CpBuffer.seq buffer, congrArg CpBuffer.ts buffer, fun c active => ?_, fun c k hj hk => ?_, fun i ne => ?_,
      rfl, rfl, rfl, rfl, rfl, rfl, rfl⟩
    · exact (mirrored_active active).trans (congrArg CpBuffer.image buffer).symm
    · exact (mirrored_joining hj hk).trans (congrArg (fun b => b.image.scratch) buffer).symm
    · exact (vset_get ..).trans (if_neg fun e => ne e.symm)
  case held =>
    intro runs mode
    have waits : (s.tile t).triadActs = false := Tile.not_triadActs_of_confirm mode
    rw [exec_checkpointWrite ht, if_neg (by rw [waits]; exact Bool.false_ne_true), State.holdBack, if_pos runs]
  case bist => exact fun c runs period spare bist joining => spareBistPeriod_starts ht runs period spare bist joining

end Sys2Proof.Machine
end

