-- ==== Sys2Proof/Proofs/TriadRestart.lean ====
section
/-!
PROOFS. The restart of a lost triad, its duplex limit, and how BISTs and readmissions end (R217, R231 to R235, R342).
-/

namespace Sys2Proof.Machine

/-! ### The firmware and the cores of a start (R217, R359) -/

section form

variable {d : Die} {r : BootReport}

theorem boot_verified : (d.boot r).1.fwVerified = (r.slotAOk || (r.slotBOk && d.imageOk d.slotB)) := by
  unfold Die.boot
  dsimp only
  cases d.fwPending <;> cases (r.slotBOk && d.imageOk d.slotB) <;> cases r.slotAOk <;> rfl

theorem boot_slot : (d.boot r).1.slotA =
    if (r.slotBOk && d.imageOk d.slotB) = true ∧ (d.fwPending = true ∨ r.slotAOk = false) then d.slotB else d.slotA := by
  unfold Die.boot
  dsimp only
  cases d.fwPending <;> cases (r.slotBOk && d.imageOk d.slotB) <;> cases r.slotAOk <;> rfl

/-- The roles after the BISTs of a restart, before a spare is promoted (R217). -/
def Triad.passed (tr : Triad) (bist : BitVec 4) : Vector CoreRole 4 :=
  ⟨⟨coreIds.map fun c => if tr.roles[c] != .excluded && bist.getLsbD c.val then tr.roles[c] else .excluded⟩, rfl⟩

/-- The cores that are ACTIVE once a spare is promoted where fewer than three are (R217). -/
def standing (roles : Vector CoreRole 4) : List (Fin 4) :=
  coreIds.filter fun c =>
    (vmap (fun r => if (coreIds.filter fun c => roles[c] == .active).length < 3 && r == .spare then .active else r) roles)[c] == .active

theorem form_mode (tr : Triad) (bist : BitVec 4) (ts : Word) (now : Nat) :
    (tr.form bist ts now).mode = (if (standing (tr.passed bist)).length ≥ 3 then .triplex
      else if (standing (tr.passed bist)).length = 2 then .duplex else .lost) ∧
    (tr.form bist ts now).formed = decide ((standing (tr.passed bist)).length ≥ 2) := ⟨rfl, rfl⟩

/-- Three ACTIVE cores that pass form a triad in TRIPLEX, whatever the fourth does. -/
theorem form_triplex (tr : Triad) (bist : BitVec 4) (ts : Word) (now : Nat)
    (h : ∀ c, c ∈ ([0, 1, 2] : List (Fin 4)) → tr.roles[c] = .active ∧ bist.getLsbD c.val = true) :
    (tr.form bist ts now).mode = .triplex ∧ (tr.form bist ts now).formed = true := by
  have passes (c : Fin 4) (hc : c ∈ ([0, 1, 2] : List (Fin 4))) :
      (if tr.roles[c] != .excluded && bist.getLsbD c.val then tr.roles[c] else .excluded) = CoreRole.active := by
    rw [(h c hc).1, (h c hc).2]
    rfl
  obtain ⟨fourth, roles⟩ : ∃ fourth, tr.passed bist = #v[.active, .active, .active, fourth] := by
    refine ⟨if tr.roles[(3 : Fin 4)] != .excluded && bist.getLsbD 3 then tr.roles[(3 : Fin 4)] else .excluded, ?_⟩
    simp only [Triad.passed, coreIds, List.map, passes 0 (by decide), passes 1 (by decide), passes 2 (by decide)]
    rfl
  have three : (standing (tr.passed bist)).length ≥ 3 := by
    rw [roles]
    cases fourth <;> decide
  rw [(form_mode ..).1, (form_mode ..).2, if_pos three, decide_eq_true (by omega)]
  exact ⟨rfl, rfl⟩

end form

/-! ### The restart (R231) -/

section restart

variable {s s' : State} {t : TileId}

theorem tile_selftestFinish : (s.selftestFinish t).tile t =
    { s.tile t with
      peat := ((s.selftestFinish t).tile t).peat
      door := { (s.tile t).door with
        mailbox := ((s.selftestFinish t).tile t).door.mailbox, selftest := ((s.selftestFinish t).tile t).door.selftest } } := by
  cases pending : (s.tile t).door.testPending with
  | true => rw [selftestFinish_pending pending]
  | false =>
    have tile := (told_selftestFinish pending).tiles t
    rw [State.modDoor, State.tile_modTile_self] at tile
    unfold Tile.Told at tile
    rw [tile]

theorem selftestAbort_keeps : ((s.selftestAbort t).tile t).die = (s.tile t).die ∧
    ((s.selftestAbort t).tile t).field = (s.tile t).field ∧ ((s.selftestAbort t).tile t).triad = (s.tile t).triad ∧
    ((s.selftestAbort t).tile t).door.latched = (s.tile t).door.latched := by
  unfold State.selftestAbort
  rw [tile_selftestFinish, State.modDoor, State.tile_modTile_self, State.modLink, State.tile_modTile_self]
  exact ⟨rfl, rfl, rfl, rfl⟩

/-- The cores have run their BIST on what boot ROM found, with a self-test ended (R217, R359). -/
def State.restarted (s : State) (t : TileId) (r : BootReport) : State :=
  ((s.modDie t fun _ => ((s.tile t).die.boot r).1).selftestAbort t).modTriad t fun tr => tr.form r.bist s.ts s.now

theorem restarted_keeps (r : BootReport) : ((s.restarted t r).tile t).die = ((s.tile t).die.boot r).1 ∧
    ((s.restarted t r).tile t).field = (s.tile t).field ∧ ((s.restarted t r).tile t).door.latched = (s.tile t).door.latched ∧
    ((s.restarted t r).tile t).triad = (s.tile t).triad.form r.bist s.ts s.now := by
  obtain ⟨die, field, triad, latched⟩ := selftestAbort_keeps (s := s.modDie t fun _ => ((s.tile t).die.boot r).1) (t := t)
  rw [State.modDie, State.tile_modTile_self] at die field triad latched
  rw [State.restarted, State.modTriad, State.tile_modTile_self]
  exact ⟨die, field, latched, congrArg (Triad.form · r.bist s.ts s.now) triad⟩

/-- The doorway of a tile whose triad starts anew (R231). -/
def Doorway.restarted (d : Doorway) : Doorway :=
  { Doorway.reset with latched := d.latched, pendingSeen := d.pendingSeen, mailbox := d.mailbox, eccBad := d.eccBad,
                       activating := d.activating, proofOld := d.proofOld, lockSeen := false, shadow := d.shadow.kept }

theorem tile_of_started {x : Tile} {f : Die → Die} (hx : s.tile t = x) (hf : ∀ d, f d = { d with bootCount := (f d).bootCount })
    (h : State.Logged (s.modDie t f) s') : s'.tile t =
      { x with peat := (s'.tile t).peat, die := { x.die with bootCount := (f x.die).bootCount } } := by
  have tile := h.tiles t
  rw [State.modDie, State.tile_modTile_self, hx] at tile
  rw [tile]
  dsimp only
  rw [hf]

variable (ht : s.hasTile t = true) (hm : (s.tile t).triad.mode = .lost) (hf : (s.tile t).triad.formed = true)
  (hn : (s.tile t).triad.noRestart = false) (hr : (s.tile t).die.inReset = false)
include ht hm hf hn hr

theorem exec_triadRestart (r : BootReport) : exec (.triadRestart t r) s = .next (
    let s1 := s.restarted t r
    if !((s.tile t).die.boot r).1.fwVerified then
      (s1.modTriad t fun tr => { tr with formed := false, mode := .lost, duplexSince := none }).triadRecord t
    else
      let s2 := s1.modDoor t Doorway.restarted
      if (s2.tile t).triad.formed then (s2.bootRecord t 6 ((s.tile t).die.boot r).2).triadRecord t else s2.triadRecord t) := by
  change execTriadRestart t r s = _
  rw [execTriadRestart, onTile_of t s _ ht]
  have guard : ((s.tile t).triad.mode != .lost || !(s.tile t).triad.formed || (s.tile t).triad.noRestart || (s.tile t).die.inReset) = false := by
    rw [hm, hf, hn, hr]
    rfl
  dsimp only
  rw [guard, if_neg Bool.false_ne_true]
  unfold State.restarted
  generalize (s.tile t).die.boot r = booted
  obtain ⟨d1, copied⟩ := booted
  rfl

/-- With firmware that verifies the doorway starts anew, and only the boot count and the log differ besides. -/
theorem triadRestart_starts (r : BootReport) (v : ((s.tile t).die.boot r).1.fwVerified = true) :
    ∃ s' n, exec (.triadRestart t r) s = .next s' ∧ s'.tile t =
      { (s.restarted t r).tile t with
        door := ((s.restarted t r).tile t).door.restarted, peat := (s'.tile t).peat
        die := { ((s.restarted t r).tile t).die with bootCount := n } } := by
  rw [exec_triadRestart ht hm hf hn hr, v, Bool.not_true, if_neg Bool.false_ne_true]
  dsimp only
  have door : ((s.restarted t r).modDoor t Doorway.restarted).tile t =
      { (s.restarted t r).tile t with door := ((s.restarted t r).tile t).door.restarted } := State.tile_modTile_self ..
  split
  · refine ⟨_, _, rfl, tile_of_started (f := fun d => { d with bootCount := (d.bootCount + 1) % 2 ^ 32 }) door (fun _ => rfl) ?_⟩
    exact logged_triadRecord (logged_peatEntry (.refl _))
  · refine ⟨_, _, rfl, tile_of_started (f := fun d => d) door (fun _ => rfl) ?_⟩
    rw [State.modDie, State.modTile_id]
    exact logged_triadRecord (.refl _)

/-- With none no triad forms. -/
theorem triadRestart_fails (r : BootReport) (v : ((s.tile t).die.boot r).1.fwVerified = false) :
    ∃ s', exec (.triadRestart t r) s = .next s' ∧ State.Logged
      ((s.restarted t r).modTriad t fun tr => { tr with formed := false, mode := .lost, duplexSince := none }) s' := by
  rw [exec_triadRestart ht hm hf hn hr, v, Bool.not_false, if_pos rfl]
  exact ⟨_, rfl, logged_triadRecord (.refl _)⟩

end restart

/-! ### The duplex limit, BIST and readmission (R232 to R235, R342) -/

section readmission

variable {s : State} {t : TileId} {h : HostCmd}

theorem duplexLimitExpiry_notes (ht : s.hasTile t = true) (runs : (s.tile t).triadRuns = true)
    (since : (s.tile t).triad.duplexSince.isSome = true) :
    exec (.duplexLimitExpiry t) s = .next ((s.modDoor t fun d => { d with duplexDue := true }).evaluate t) := by
  change execDuplexLimitExpiry t s = _
  rw [execDuplexLimitExpiry, onTile_of t s _ ht]
  simp [runs, since]

/-- The triad once the result of a BIST is noted (R234, R235). -/
def Triad.tested (tr : Triad) (core : Fin 4) (pass : Bool) (ts : Word) : Triad :=
  { tr with bist := none, bistTs := ts,
            bistResult := if pass then tr.bistResult ||| BitVec.ofNat 4 (2 ^ core.val) else tr.bistResult &&& ~~~(BitVec.ofNat 4 (2 ^ core.val)) }

/-- The triad once the BIST of a readmission has ended (R233). -/
def Triad.readmitted (tr : Triad) (core : Fin 4) (pass : Bool) : Triad :=
  if pass then
    if (tr.setRole core .spare).mode == .duplex then { tr.setRole core .spare with mode := .joining, joining := some (core, 1) }
    else tr.setRole core .spare
  else tr.countExcl core

theorem exec_bistComplete {core : Fin 4} {kind : Fin 3} (pass : Bool) (ht : s.hasTile t = true) (runs : (s.tile t).triadRuns = true)
    (bist : (s.tile t).triad.bist = some (core, kind)) : exec (.bistComplete t core pass) s = .next (
      let s1 := s.modTriad t fun tr => tr.tested core pass s.ts
      if kind = 2 then (s1.modTriad t fun tr => tr.readmitted core pass).readmitDone t core pass
      else
        let s2 := if pass then s1 else (s1.modTriad t fun tr => tr.setRole core .excluded).raise t 0x74 (leBytes 1 core.val)
        let s3 := s2.triadRecord t
        if kind = 1 then (s3.modDoor t fun d => d.partResult 0 (if pass then 0 else 1) 0).selftestFinish t else s3) := by
  change execBistComplete t core pass s = _
  rw [execBistComplete, onTile_of t s _ ht]
  have same : (core != core || !(s.tile t).triadRuns) = false := by simp [runs]
  simp only [bist, same]
  rfl

/-- A BIST of the spare period that fails excludes its core, and that is told. -/
theorem bistComplete_fails {core : Fin 4} (ht : s.hasTile t = true) (runs : (s.tile t).triadRuns = true)
    (bist : (s.tile t).triad.bist = some (core, 0)) : ∃ s', exec (.bistComplete t core false) s = .next s' ∧
      State.Logged (s.modTriad t fun tr => (tr.tested core false s.ts).setRole core .excluded) s' := by
  refine ⟨_, exec_bistComplete false ht runs bist, ?_⟩
  have both : (s.modTriad t fun tr => (tr.tested core false s.ts).setRole core .excluded) =
      (s.modTriad t fun tr => tr.tested core false s.ts).modTriad t fun tr => tr.setRole core .excluded := by cases t <;> rfl
  rw [both]
  exact logged_triadRecord (logged_raise (.refl _))

theorem readmitted_passed (tr : Triad) (core : Fin 4) : (tr.readmitted core true).bist = tr.bist ∧
    (tr.readmitted core true).roles = vset tr.roles core .spare ∧
    (tr.mode = .duplex → (tr.readmitted core true).mode = .joining ∧ (tr.readmitted core true).joining = some (core, 1)) ∧
    (tr.mode ≠ .duplex → (tr.readmitted core true).mode = tr.mode) := by
  have same : (tr.setRole core .spare).mode = tr.mode := rfl
  rw [Triad.readmitted, if_pos rfl, same]
  by_cases mode : tr.mode = .duplex
  · rw [if_pos (beq_iff_eq.mpr mode)]
    exact ⟨rfl, rfl, fun _ => ⟨rfl, rfl⟩, fun other => absurd mode other⟩
  · rw [if_neg fun e => mode (beq_iff_eq.mp e)]
    exact ⟨rfl, rfl, fun e => absurd e mode, fun _ => rfl⟩

/-- A core that passes the BIST of its readmission is SPARE, and joins a pair (R233). -/
theorem bistComplete_readmits {core : Fin 4} (ht : s.hasTile t = true) (runs : (s.tile t).triadRuns = true)
    (bist : (s.tile t).triad.bist = some (core, 2)) : ∃ s', exec (.bistComplete t core true) s = .next s' ∧
      (s'.tile t).triad = { ((s.tile t).triad.tested core true s.ts).readmitted core true with readmit := none } := by
  refine ⟨_, exec_bistComplete true ht runs bist, ?_⟩
  dsimp only
  rw [if_pos rfl, told_readmitDone.triad, State.triad_modTriad, State.triad_modTriad, State.triad_modTriad]

theorem triadStatus_writes (hd : s.Due h 0x80) (hf : h.dmaFault = false) (addr : BitVec 64) :
    exec (.triadStatus h addr) s = .next ((s.dma addr.toNat (s.triadBlock h.tile)).complete h 0x80 0 0) := by
  change execTriadStatus h addr s = _
  rw [execTriadStatus, onCmd_of_due hd]
  simp [hf]

/-- In TRIPLEX and DUPLEX, with no readmission or join under way, only the core decides. -/
theorem exec_triadReadmit (hd : s.Due h 0x81) (none_ : (s.tile h.tile).triad.readmit = none)
    (joining : (s.tile h.tile).triad.joining = none)
    (mode : (s.tile h.tile).triad.mode = .triplex ∨ (s.tile h.tile).triad.mode = .duplex) (c : Fin 4) :
    exec (.triadReadmit h c.val) s = .next (
      if (s.tile h.tile).triad.roles[c] != .excluded then s.complete h 0x81 0x14 233 [0xFF]
      else if (s.tile h.tile).triad.bist.isSome then s.complete h 0x81 0x17 0
      else if (s.tile h.tile).triad.excl[c] ≥ 4 then s.complete h 0x81 0x21 233
      else (s.markAccepted h 0x81).modTriad h.tile fun tr => { tr with bist := some (c, 2), readmit := some h }) := by
  change execTriadReadmit h c.val s = _
  rw [execTriadReadmit, onCmd_of_due hd]
  rcases mode with mode | mode
  all_goals simp [none_, joining, mode, c.isLt]

end readmission

/-- Settles O38: the restart by what boot ROM and the BISTs find, then the ends of a BIST, and the two commands. -/
theorem triadRestartsAndReadmits : Obligations.TriadRestartsAndReadmits := by
  unfold Obligations.TriadRestartsAndReadmits
  refine ⟨fun s t r ht hm hf hn hr => ?_, fun s t ht runs => ⟨?_, fun core bist => ?_, fun core h bist readmit => ?_⟩,
    fun s h => ⟨fun hd ok addr => triadStatus_writes hd ok addr, fun hd readmit joining mode c => ⟨fun role bist excl => ?_, fun role => ?_⟩⟩⟩
  · intro die bOk
    obtain ⟨die', field, latched, triad⟩ := restarted_keeps (s := s) (t := t) r
    refine ⟨fun verified => ?_, fun a b => ?_⟩
    · have v : (die.boot r).1.fwVerified = true := boot_verified.trans (by rw [Bool.or_eq_true]; exact verified)
      obtain ⟨s', n, starts, tile⟩ := triadRestart_starts ht hm hf hn hr r v
      refine ⟨s', starts, ?_⟩
      rw [tile]
      dsimp only
      rw [die', field, triad]
      exact ⟨rfl, rfl, rfl, rfl, latched, rfl, v, boot_policy, boot_slot, form_triplex _ _ _ _⟩
    · have v : (die.boot r).1.fwVerified = false := boot_verified.trans (by rw [a]; exact b)
      obtain ⟨s', fails, told⟩ := triadRestart_fails ht hm hf hn hr r v
      refine ⟨s', fails, ?_⟩
      rw [tile_of_logged_triad told]
      dsimp only
      rw [die', field]
      exact ⟨rfl, rfl, v, rfl⟩
  · exact duplexLimitExpiry_notes ht runs
  · obtain ⟨s', fails, told⟩ := bistComplete_fails ht runs bist
    refine ⟨s', fails, ?_⟩
    rw [tile_of_logged_triad told]
    exact ⟨rfl, rfl, rfl, rfl, rfl⟩
  · obtain ⟨s', done, triad⟩ := bistComplete_readmits ht runs bist
    obtain ⟨bist', roles, pair, others⟩ := readmitted_passed ((s.tile t).triad.tested core true s.ts) core
    refine ⟨s', done, ?_⟩
    rw [triad]
    exact ⟨bist', rfl, roles, pair, others⟩
  · rw [exec_triadReadmit hd readmit joining mode c, role, bist, if_neg (Nat.not_le.mpr excl)]
    rfl
  · rw [exec_triadReadmit hd readmit joining mode c, if_pos (bne_iff_ne.mpr role)]

end Sys2Proof.Machine
end

