-- ==== Sys2Proof/Proofs/TimeSteps.lean ====
section
/-!
PROOFS. What the steps of the time base leave: beside telling, the time base alone differs, and of it the record and ring clocks, the record-time
state and the timers only where a step names them (R237, R241, R249, R254 to R257).
-/

namespace Sys2Proof.Machine

/-- Beside telling, only the time base differs. -/
def State.TimeTold (s s' : State) : Prop := State.Told (s.modTime fun _ => s'.head.time) s'

section timeTold

variable {s s' s'' : State}

theorem State.Told.timeTold (h : State.Told s s') : State.TimeTold s s' := by
  have same : (s.modTime fun _ => s'.head.time) = s := by
    rw [h.time]
    rfl
  rwa [State.TimeTold, same]

theorem State.TimeTold.refl (s : State) : State.TimeTold s s := (State.Told.refl s).timeTold

theorem State.Told.modTime_const (h : State.Told s s') (x : TimeBase) : State.Told (s.modTime fun _ => x) (s'.modTime fun _ => x) :=
  ⟨h.part, h.windows, h.supply, h.draws, h.pending, congrArg (fun hd => { hd with time := x }) h.head, h.tiles⟩

theorem State.TimeTold.trans (h : State.TimeTold s s') (k : State.TimeTold s' s'') : State.TimeTold s s'' :=
  (State.Told.modTime_const h s''.head.time).trans k

theorem timeTold_modTime (f : TimeBase → TimeBase) : State.TimeTold s (s.modTime f) := State.Told.refl _

theorem State.TimeTold.told (h : State.TimeTold s s') (k : State.Told s' s'') : State.TimeTold s s'' := h.trans k.timeTold

theorem State.TimeTold.tiles (h : State.TimeTold s s') (t : TileId) : Tile.Told (s.tile t) (s'.tile t) := State.Told.tiles h t

end timeTold

/-! ### The timers (R255, R257) -/

/-- Beside telling, only the timer outputs differ. -/
structure State.TimersTold (s s' : State) : Prop where
  told : State.TimeTold s s'
  time : s'.head.time = { s.head.time with timers := s'.head.time.timers }

section timers

variable {s s' s'' : State} {i : Fin 8}

theorem State.TimersTold.trans (h : State.TimersTold s s') (k : State.TimersTold s' s'') : State.TimersTold s s'' := by
  refine ⟨h.told.trans k.told, ?_⟩
  have e := k.time
  rw [h.time] at e
  exact e

theorem State.Told.timersTold (h : State.Told s s') : State.TimersTold s s' := ⟨h.timeTold, by rw [h.time]⟩

theorem timersTold_modTimer (f : Timer → Timer) : State.TimersTold s (s.modTimer i f) := ⟨timeTold_modTime _, rfl⟩

theorem timersTold_ite {c : Prop} [Decidable c] {a b : State} (ha : State.TimersTold s a) (hb : State.TimersTold s b) :
    State.TimersTold s (if c then a else b) := by
  split
  · exact ha
  · exact hb

theorem timersTold_timerLevel (high : Bool) : State.TimersTold s (s.timerLevel i high) :=
  (timersTold_modTimer _).trans (told_emit (.refl _)).timersTold

/-- A leading edge before its event (R255). -/
def State.timerLed (s : State) (i : Fin 8) (edge : Nat) : State :=
  let x := s.head.time.timers[i]
  (s.timerLevel i (!x.low)).modTimer i fun y =>
    { y with inPulse := true, pulseLow := y.low, fired := y.fired + 1, missed := 0, next := edge + y.period
             armed := !(x.period == 0 || (x.count != 0 && x.fired + 1 ≥ x.count)) }

theorem timerLead_cases (edge : Nat) (late : Bool) : s.timerLead i edge late = s.timerLed i edge ∨
    ∃ data, s.timerLead i edge late = (s.timerLed i edge).raiseHead 0x06 data false := by
  unfold State.timerLead
  dsimp only
  split
  · exact .inr ⟨_, rfl⟩
  · exact .inl rfl

theorem timersTold_timerLead (edge : Nat) (late : Bool) : State.TimersTold s (s.timerLead i edge late) := by
  have led : State.TimersTold s (s.timerLed i edge) := (timersTold_timerLevel _).trans (timersTold_modTimer _)
  rcases timerLead_cases (s := s) (i := i) edge late with e | ⟨data, e⟩
  · rwa [e]
  · rw [e]
    exact led.trans (told_raiseHead (.refl _)).timersTold

theorem timersTold_timerStepped (ring : Bool) : State.TimersTold s (s.timerStepped ring i) := by
  have same : State.TimersTold s s := (State.Told.refl s).timersTold
  unfold State.timerStepped
  refine timersTold_ite same (timersTold_ite (timersTold_ite (timersTold_timerLead ..) (timersTold_modTimer _))
    (timersTold_ite (timersTold_ite (timersTold_timerLead ..) same) (timersTold_modTimer _)))

theorem timersTold_each (ring : Bool) (l : List (Fin 8)) : State.TimersTold s (s.each l fun s i => s.timerStepped ring i) := by
  induction l generalizing s with
  | nil => exact (State.Told.refl s).timersTold
  | cons i l ih => exact (timersTold_timerStepped ring).trans ih

end timers

/-! ### Epoch marks, steps and record-time states (R241, R249) -/

section record

variable {s : State}

/-- The tiles stand. -/
structure State.TilesStand (s s' : State) : Prop where
  eq : s'.tiles = s.tiles

theorem State.TilesStand.refl (s : State) : State.TilesStand s s := ⟨rfl⟩

theorem tilesStand_ite {c : Prop} [Decidable c] {a b : State} (ha : State.TilesStand s a) (hb : State.TilesStand s b) :
    State.TilesStand s (if c then a else b) := by
  split
  · exact ha
  · exact hb

theorem tilesStand_modHead {s0 : State} {f : Head → Head} (h : State.TilesStand s0 s) : State.TilesStand s0 (s.modHead f) := ⟨h.eq⟩

theorem tilesStand_emit {s0 : State} {o : Output} (h : State.TilesStand s0 s) : State.TilesStand s0 (s.emit o) := ⟨h.eq⟩

theorem tilesStand_dma {s0 : State} {a : Nat} {bs : List Byte} (h : State.TilesStand s0 s) : State.TilesStand s0 (s.dma a bs) := ⟨h.eq⟩

theorem tilesStand_signal {s0 : State} {v : Nat} (h : State.TilesStand s0 s) : State.TilesStand s0 (s.signal v) :=
  tilesStand_ite (tilesStand_modHead h) (tilesStand_emit h)

theorem tilesStand_evtPut {s0 : State} {e : Fin 8} {id : Nat} {ts : Word} {data : List Byte} {urgent mark : Bool} (h : State.TilesStand s0 s) :
    State.TilesStand s0 (s.evtPut e id ts data urgent mark) := by
  unfold State.evtPut
  refine tilesStand_ite h (tilesStand_ite (tilesStand_modHead h) (tilesStand_ite (tilesStand_signal ?_) ?_))
  all_goals exact tilesStand_modHead (tilesStand_dma h)

theorem tilesStand_each {α : Type} {s0 : State} {l : List α} {f : State → α → State} (h : State.TilesStand s0 s)
    (hf : ∀ s a, State.TilesStand s0 s → State.TilesStand s0 (f s a)) : State.TilesStand s0 (s.each l f) := by
  induction l generalizing s with
  | nil => exact h
  | cons a l ih => exact ih (hf s a h)

theorem tilesStand_epochMark : State.TilesStand s s.epochMark := by
  unfold State.epochMark
  exact tilesStand_modHead (tilesStand_ite (tilesStand_each (.refl s) fun _ _ h => tilesStand_evtPut h) (.refl s))

theorem time_modTime (f : TimeBase → TimeBase) : (s.modTime f).head.time = f s.head.time := rfl

theorem time_epochMark : s.epochMark.head.time = { s.head.time with recStepped := false, ringStepped := false } := by
  unfold State.epochMark
  dsimp only
  rw [time_modTime]
  split
  · rw [(told_marks s).time]
  · rfl

theorem timeTold_epochMark : State.TimeTold s s.epochMark := by
  unfold State.epochMark
  dsimp only
  split
  · exact (told_marks s).timeTold.trans (timeTold_modTime _)
  · exact timeTold_modTime _

theorem timeTold_setRec (st : RecState) : State.TimeTold s (s.setRec st) := by
  unfold State.setRec
  dsimp only
  split
  · exact .refl s
  · exact (timeTold_modTime _).told (told_raiseHead (.refl _))

/-- A record-time state is taken with the clocks, the ports, the timers and the steps as they stand. -/
theorem time_setRec (st : RecState) : (s.setRec st).head.time =
    { s.head.time with
      recState := st, holdLong := (s.setRec st).head.time.holdLong, everLocked := (s.setRec st).head.time.everLocked } := by
  unfold State.setRec
  dsimp only
  split
  case isTrue h => rw [← h]
  case isFalse => rw [(told_raiseHead (.refl _)).time]; rfl

/-- A new record-time state starts without the end of a holdover. -/
theorem holdLong_setRec {st : RecState} (h : s.head.time.recState ≠ st) : (s.setRec st).head.time.holdLong = false := by
  unfold State.setRec
  dsimp only
  rw [if_neg h, (told_raiseHead (.refl _)).time]
  rfl

theorem timeTold_stepRecord (d : Int) : State.TimeTold s (s.stepRecord d) :=
  ((timeTold_modTime _).trans timeTold_epochMark).trans (timersTold_each false timerIds).told

/-- The timers of a class that has stepped to a time base. -/
theorem time_each_timerStepped {tb : TimeBase} (h : s.head.time = tb) (ring : Bool) (l : List (Fin 8)) :
    (s.each l fun s i => s.timerStepped ring i).head.time =
      { tb with timers := (s.each l fun s i => s.timerStepped ring i).head.time.timers } := by
  rw [← h]
  exact (timersTold_each ring l).time

/-- A step of the record clock leaves the rest of the time base but the timers and the stepped flags. -/
theorem time_stepRecord (d : Int) : (s.stepRecord d).head.time =
    { s.head.time with
      record := s.head.time.record.stepBy d, recStepped := false, ringStepped := false
      timers := (s.stepRecord d).head.time.timers } := by
  have stepped : (s.modTime fun tb => { tb with record := tb.record.stepBy d, recStepped := true }).epochMark.head.time =
      { s.head.time with record := s.head.time.record.stepBy d, recStepped := false, ringStepped := false } := by
    rw [time_epochMark, time_modTime]
  have e := time_each_timerStepped stepped false timerIds
  generalize h : s.stepRecord d = s'
  unfold State.stepRecord at h
  dsimp only at h
  rw [h] at e
  exact e

end record

end Sys2Proof.Machine
end

