-- ==== Sys2Proof/Proofs/RecordTime.lean ====
section
/-!
PROOFS. Record time loses its master, and keeps it: silence, the holdover and its end, the epoch mark and the step that the host accepts (R237,
R241, R249, R251, R337).
-/

namespace Sys2Proof.Machine

section ports

variable {s : State} {p : EthPort}

@[simp] theorem eth_modEth (f : EthPortState → EthPortState) : (s.modEth p f).eth p = f (s.eth p) := by cases p <;> rfl

theorem eth_modEth_ne {q : EthPort} (f : EthPortState → EthPortState) (h : q ≠ p) : (s.modEth p f).eth q = s.eth q := by
  cases p <;> cases q <;> first | rfl | exact absurd rfl h

@[simp] theorem ptpOn_modEth (q : EthPort) (f : EthPortState → EthPortState) : (s.modEth p f).ptpOn q = s.ptpOn q := rfl

/-- A changed port leaves the clocks, the record-time state and the master. -/
theorem time_modEth (f : EthPortState → EthPortState) : (s.modEth p f).head.time =
    { s.head.time with eth0 := (s.modEth p f).head.time.eth0, eth1 := (s.modEth p f).head.time.eth1 } := by
  cases p <;> rfl

theorem eth_of_time {s' : State} (h : s'.head.time.eth0 = s.head.time.eth0) (k : s'.head.time.eth1 = s.head.time.eth1) : s'.eth p = s.eth p := by
  cases p
  · exact h
  · exact k

/-- A selected master was heard on a port whose PTP acts. -/
theorem mem_better {l : List (EthPort × Announce)} {x : Option (EthPort × Announce)} {y : EthPort × Announce}
    (h : l.foldl better x = some y) : x = some y ∨ y ∈ l := by
  induction l generalizing x with
  | nil => exact .inl h
  | cons z l ih =>
    rcases ih h with e | e
    · cases x with
      | none => exact .inr (by rw [better, Option.some.injEq] at e; rw [e]; exact List.mem_cons_self)
      | some w =>
        rw [better] at e
        split at e
        · exact .inr (by rw [Option.some.injEq] at e; rw [e]; exact List.mem_cons_self)
        · exact .inl e
    · exact .inr (List.mem_cons_of_mem _ e)

theorem bestMaster_heard {q : EthPort} {a : Announce} (h : s.bestMaster = some (q, a)) : (s.eth q).foreign ≠ [] := by
  intro none_
  have heard (r : EthPort) (y : EthPort × Announce)
      (hy : y ∈ (if s.ptpOn r then ((s.eth r).foreign.filter (·.2 ≥ 2)).map fun x => (r, x.1) else [])) : y.1 = r ∧ (s.eth r).foreign ≠ [] := by
    split at hy
    · obtain ⟨x, hx, rfl⟩ := List.mem_map.mp hy
      exact ⟨rfl, List.ne_nil_of_mem (List.mem_filter.mp hx).1⟩
    · exact absurd hy List.not_mem_nil
  rcases mem_better h with e | e
  · exact nomatch e
  · rcases List.mem_append.mp e with e | e
    · obtain ⟨rfl, some_⟩ := heard _ _ e
      exact some_ none_
    · obtain ⟨rfl, some_⟩ := heard _ _ e
      exact some_ none_

/-- The selection of a master leaves the clocks and the record-time state, and the masters heard. -/
theorem selectMaster_keeps : s.selectMaster.head.time.recState = s.head.time.recState ∧ s.selectMaster.head.time.record = s.head.time.record ∧
    s.selectMaster.head.time.holdLong = s.head.time.holdLong ∧ (∀ q, (s.selectMaster.eth q).foreign = (s.eth q).foreign) ∧
    s.selectMaster.head.time.slave = s.bestMaster.map Prod.fst := by
  unfold State.selectMaster
  cases hb : s.bestMaster with
  | none => exact ⟨rfl, rfl, rfl, fun q => by cases q <;> rfl, rfl⟩
  | some b =>
    obtain ⟨q, a⟩ := b
    dsimp only
    split
    · exact ⟨rfl, rfl, rfl, fun q => by cases q <;> rfl, rfl⟩
    · split
      · exact ⟨rfl, rfl, rfl, fun q => by cases q <;> rfl, rfl⟩
      · simp only [State.eth]
        rw [(told_raiseHead (.refl _)).time]
        cases q <;> exact ⟨rfl, rfl, rfl, fun q => by cases q <;> rfl, rfl⟩

end ports

/-! ### The loss of the master (R249, R251) -/

section loss

variable {s : State} {p : EthPort}

theorem holdRecord_holds (h : s.head.time.recState = .locked) : State.TimeTold s s.holdRecord ∧
    s.holdRecord.head.time.recState = .holdover ∧ s.holdRecord.head.time.record = s.head.time.record ∧
    s.holdRecord.head.time.holdLong = false ∧ s.holdRecord.eth p = s.eth p := by
  have held : s.holdRecord = s.setRec .holdover := if_pos h
  rw [held]
  have time := time_setRec (s := s) .holdover
  refine ⟨timeTold_setRec _, recState_setRec .., by rw [time], holdLong_setRec (by rw [h]; decide), eth_of_time (by rw [time]) (by rw [time])⟩

theorem syncLossTimeout_slave (h : s.head.time.slave = some p) : exec (.syncLossTimeout p) s = .next s.holdRecord := by
  change execSyncLossTimeout p s = _
  rw [execSyncLossTimeout, onHead_eq, if_pos (by simp [h])]

theorem announceReceiptTimeout_slave (on : s.ptpOn p = true) (h : s.head.time.slave = some p) : exec (.announceReceiptTimeout p) s =
    .next (s.modEth p fun e => { e with foreign := [], sync := none, delayReq := none }).holdRecord.selectMaster := by
  change execAnnounceReceiptTimeout p s = _
  rw [execAnnounceReceiptTimeout, onHead_eq, on]
  simp [h]

end loss

/-- The local count after the clocks are brought to an instant. -/
theorem now_at (s : State) (now : Nat) : (s.at now).now = max s.now now := by
  change (if s.now < now then s.head.time.advance (now - s.now) else s.head.time).local_ = _
  split
  case isTrue h => rw [advance_local]; change s.now + _ = _; omega
  case isFalse h => change s.now = _; omega

theorem timeStepAccept_pending {s : State} {h : HostCmd} {number : Word} (hd : s.Due h 0x50)
    (hs : s.head.time.recState = .stepPending ∧ s.head.time.stepNum = number) : exec (.timeStepAccept h number) s =
      .next ((s.modTime fun tb => { tb with stepArmed := true }).complete h 0x50 0 0 (leBytes 4 number.toNat)) := by
  change execTimeStepAccept h number s = _
  rw [execTimeStepAccept, onCmd_of_due hd]
  exact congrArg _ (if_pos hs)

theorem timeStepAccept_other {s : State} {h : HostCmd} {number : Word} (hd : s.Due h 0x50)
    (hs : ¬ (s.head.time.recState = .stepPending ∧ s.head.time.stepNum = number)) :
    exec (.timeStepAccept h number) s = .next (s.complete h 0x50 0x19 249) := by
  change execTimeStepAccept h number s = _
  rw [execTimeStepAccept, onCmd_of_due hd]
  exact congrArg _ (if_neg hs)

/-- Settles O43: each loss takes the holdover and leaves the clock, and the rest by the equation of its step. -/
theorem recordTimeLosesAndKeepsItsMaster : Obligations.RecordTimeLosesAndKeepsItsMaster := by
  unfold Obligations.RecordTimeLosesAndKeepsItsMaster
  intro s
  refine ⟨fun p slave locked => ⟨?sync, fun on => ?announce⟩, fun holdover => ?expiry, fun now => ?mark,
    fun h number hd => ⟨fun state number => timeStepAccept_pending hd ⟨state, number⟩, fun other => timeStepAccept_other hd ?_⟩⟩
  case sync =>
    obtain ⟨told, state, record, long, -⟩ := holdRecord_holds (p := p) locked
    exact ⟨_, syncLossTimeout_slave slave, state, record, long, told.tiles⟩
  case announce =>
    have cleared := time_modEth (s := s) (p := p) fun e => { e with foreign := [], sync := none, delayReq := none }
    obtain ⟨-, state, record, -, eth⟩ := holdRecord_holds (p := p) (by rw [cleared]; exact locked)
    obtain ⟨state', record', -, foreign, slave'⟩ := selectMaster_keeps
      (s := (s.modEth p fun e => { e with foreign := [], sync := none, delayReq := none }).holdRecord)
    have forgotten := congrArg EthPortState.foreign eth
    rw [eth_modEth] at forgotten
    refine ⟨_, announceReceiptTimeout_slave on slave, state'.trans state, (foreign p).trans forgotten,
      record'.trans (record.trans (by rw [cleared])), fun still => ?_⟩
    rw [slave', Option.map_eq_some_iff] at still
    obtain ⟨⟨q, a⟩, best, rfl⟩ := still
    exact bestMaster_heard best forgotten
  case expiry => exact congrArg _ (if_pos holdover)
  case mark =>
    have time := time_epochMark (s := s.at now)
    refine ⟨_, rfl, ?_, ?_, ?_, ?_, tilesStand_epochMark.eq⟩
    · rw [State.now, time]; exact now_at s now
    · rw [time]
    · rw [time]
    · rw [time]
  · rintro ⟨state, same⟩
    exact other.elim (· state) (· same)

end Sys2Proof.Machine
end

