-- ==== Sys2Proof/Proofs/TimerOutputs.lean ====
section
/-!
PROOFS. The timer outputs: arming, the two edges of a pulse, and cancelling (R254, R255, R337).
-/

namespace Sys2Proof.Machine

section timer

variable {s s' : State} {i j : Fin 8}

theorem timer_modTimer (f : Timer → Timer) : (s.modTimer i f).head.time.timers[j] =
    if i = j then f s.head.time.timers[i] else s.head.time.timers[j] := vmod_get ..

theorem timer_modTimer_self (f : Timer → Timer) : (s.modTimer i f).head.time.timers[i] = f s.head.time.timers[i] :=
  (timer_modTimer f).trans (if_pos rfl)

theorem timer_timerLevel (high : Bool) : (s.timerLevel i high).head.time.timers[j] =
    if i = j then { s.head.time.timers[i] with outHigh := high } else s.head.time.timers[j] := timer_modTimer _

theorem timer_told (h : State.Told s s') : s'.head.time.timers[j] = s.head.time.timers[j] := by rw [h.time]

/-- What has left a port has left it. -/
theorem mem_out_later {o : Output} (h : State.Later s s') (ho : o ∈ s.out) : o ∈ s'.out := by
  obtain ⟨l, e⟩ := h.outs
  rw [e]
  exact List.mem_append_right _ ho

/-- The timer after a leading edge (R255). -/
def Timer.led (x : Timer) (edge : Nat) : Timer :=
  { x with outHigh := !x.low, inPulse := true, pulseLow := x.low, fired := x.fired + 1, missed := 0, next := edge + x.period
           armed := !(x.period == 0 || (x.count != 0 && x.fired + 1 ≥ x.count)) }

/-- A leading edge changes its own timer and shows its level. -/
theorem timerLead_leads (edge : Nat) (late : Bool) :
    (s.timerLead i edge late).head.time.timers[j] = (if i = j then (s.head.time.timers[i]).led edge else s.head.time.timers[j]) ∧
    Output.timer i.val (!(s.head.time.timers[i]).low) ∈ (s.timerLead i edge late).out := by
  have timers : (s.timerLed i edge).head.time.timers[j] = if i = j then (s.head.time.timers[i]).led edge else s.head.time.timers[j] := by
    rw [State.timerLed, timer_modTimer]
    by_cases e : i = j
    · rw [if_pos e, if_pos e, timer_timerLevel, if_pos rfl]
      rfl
    · rw [if_neg e, if_neg e, timer_timerLevel, if_neg e]
  have shown : Output.timer i.val (!(s.head.time.timers[i]).low) ∈ (s.timerLed i edge).out := List.mem_cons_self
  rcases timerLead_cases (s := s) (i := i) edge late with e | ⟨data, e⟩
  · rw [e]
    exact ⟨timers, shown⟩
  · rw [e]
    exact ⟨(timer_told (told_raiseHead (.refl _))).trans timers, mem_out_later (later_raiseHead (.refl _)) shown⟩

end timer

/-! ### The commands and the edges -/

section arm

variable {s : State} {h : HostCmd} {p : TimerPayload} (hd : s.Due h 0x51) (plain : s.head.time.compat = false) (sound : p.broken false = none)
include hd plain sound

theorem timerArm_arms (idle : (s.head.time.timers[Fin.ofNat 8 p.tpo]).armed = false)
    (rests : (s.head.time.timers[Fin.ofNat 8 p.tpo]).inPulse = false)
    (ahead : s.classNs p.ring + 10000 ≤ p.startSec * 1000000000 + p.startNs) :
    ∃ x0 : Timer, exec (.timerArm h p) s = .next (((s.modTimer (Fin.ofNat 8 p.tpo) fun _ => x0).complete h 0x51 0 0
        (leBytes 4 ((p.startSec * 1000000000 + p.startNs) % 2 ^ 32))).timerLevel (Fin.ofNat 8 p.tpo) p.low) ∧
      x0.armed = true ∧ x0.next = p.startSec * 1000000000 + p.startNs ∧ x0.period = p.period ∧ x0.width = p.width ∧
      x0.count = p.count ∧ x0.fired = 0 := by
  have late : ¬ p.startSec * 1000000000 + p.startNs < s.classNs p.ring + 10000 := by omega
  have past : ¬ p.startSec * 1000000000 + p.startNs < s.classNs p.ring := by omega
  refine ⟨{ armed := true, ring := p.ring, low := p.low, start := p.startSec * 1000000000 + p.startNs, period := p.period, width := p.width,
            count := p.count, fired := 0, compat := false, next := p.startSec * 1000000000 + p.startNs
            outHigh := (s.head.time.timers[Fin.ofNat 8 p.tpo]).outHigh, inPulse := (s.head.time.timers[Fin.ofNat 8 p.tpo]).inPulse, missed := 0
            pulseLow := (s.head.time.timers[Fin.ofNat 8 p.tpo]).pulseLow }, ?_, rfl, rfl, rfl, rfl, rfl, rfl⟩
  change execTimerArm h p s = _
  rw [execTimerArm, onCmd_of_due hd]
  simp only [plain, sound, late, past, idle, rests, Bool.not_false, Bool.true_and, Bool.false_and, Bool.or_self, Bool.false_eq_true,
    if_false, decide_false, Bool.and_false]

theorem timerArm_late (single : p.period = 0) (late : p.startSec * 1000000000 + p.startNs < s.classNs p.ring + 10000) :
    exec (.timerArm h p) s = .next (s.complete h 0x51 0x1A 255) := by
  change execTimerArm h p s = _
  rw [execTimerArm, onCmd_of_due hd]
  simp [plain, sound, single, late]

end arm

theorem timerCancel_of_due {s : State} {h : HostCmd} (hd : s.Due h 0x52) (i : Fin 8) : exec (.timerCancel h i.val) s = .next (
    if (s.head.time.timers[i]).armed || (s.head.time.timers[i]).inPulse then
      ((s.complete h 0x52 0 0).timerLevel i (s.head.time.timers[i]).low).modTimer i fun x =>
        { x with armed := false, inPulse := false, missed := 0 }
    else s.complete h 0x52 0 0) := by
  change execTimerCancel h i.val s = _
  rw [execTimerCancel, onCmd_of_due hd]
  have one : ¬ i.val > 7 := by omega
  have same : Fin.ofNat 8 i.val = i := by ext; simp
  simp only [one, same, if_false]

theorem exec_timerOutputEdge (s : State) (i : Fin 8) : exec (.timerOutputEdge i) s = .next (
    if (s.head.time.timers[i]).inPulse then
      (s.timerLevel i (s.head.time.timers[i]).pulseLow).modTimer i fun x => { x with inPulse := false }
    else if (s.head.time.timers[i]).armed then s.timerLead i (s.head.time.timers[i]).next false else s) := rfl

/-- Settles O44, by what arming, an edge and cancelling do to the timer. -/
theorem timerOutputsPulse : Obligations.TimerOutputsPulse := by
  unfold Obligations.TimerOutputsPulse
  intro s
  refine ⟨fun h p hd plain sound => ?arm, fun h i hd => ?cancel, fun i => ?edge⟩
  case arm =>
    intro start i
    refine ⟨fun idle rests ahead => ?_, fun single late => timerArm_late hd plain sound single late⟩
    obtain ⟨x0, arms, armed, next, period, width, count, fired⟩ := timerArm_arms hd plain sound idle rests ahead
    have timer (j : Fin 8) : ((s.modTimer i fun _ => x0).complete h 0x51 0 0 (leBytes 4 (start % 2 ^ 32))).head.time.timers[j] =
        if i = j then x0 else s.head.time.timers[j] := (timer_told (told_complete (.refl _))).trans (timer_modTimer _)
    refine ⟨_, arms, ?_⟩
    rw [timer_timerLevel, if_pos rfl, timer i, if_pos rfl]
    refine ⟨armed, next, period, width, count, fired, rfl, fun j ne => ?_⟩
    rw [timer_timerLevel, if_neg (Ne.symm ne), timer j, if_neg (Ne.symm ne)]
  case cancel =>
    have done : (s.complete h 0x52 0 0).head.time.timers[i] = s.head.time.timers[i] := timer_told (told_complete (.refl s))
    refine ⟨_, timerCancel_of_due hd i, ?_⟩
    by_cases acts : ((s.head.time.timers[i]).armed || (s.head.time.timers[i]).inPulse) = true
    · rw [if_pos acts, timer_modTimer_self, timer_timerLevel, if_pos rfl]
      exact ⟨rfl, rfl, fun _ => ⟨rfl, rfl⟩⟩
    · rw [if_neg acts, done]
      rw [Bool.or_eq_true, not_or, Bool.not_eq_true, Bool.not_eq_true] at acts
      refine ⟨acts.1, acts.2, fun on => ?_⟩
      rw [acts.1, acts.2] at on
      exact absurd on (by decide)
  case edge =>
    intro x
    refine ⟨fun pulse => ?_, fun rests armed => ?_⟩
    · rw [exec_timerOutputEdge, if_pos pulse]
      rfl
    · refine ⟨_, (exec_timerOutputEdge s i).trans ?_, ?_, (timerLead_leads (j := i) x.next false).2, fun j ne => ?_⟩
      · have rests' : ¬ (s.head.time.timers[i]).inPulse = true := Bool.eq_false_iff.mp rests
        rw [if_neg rests', if_pos armed]
      · exact (timerLead_leads x.next false).1.trans (if_pos rfl)
      · exact (timerLead_leads x.next false).1.trans (if_neg (Ne.symm ne))

end Sys2Proof.Machine
end

