-- ==== Sys2Proof/Proofs/Ptp.lean ====
section
/-!
PROOFS. The PTP messages: which are heard, the selection of a master, the offset of a Sync and the two delay mechanisms (R246, R247, R249).
-/

namespace Sys2Proof.Machine

/-- Two is a number of Announces that qualifies a master. -/
theorem min_two_of_succ {n : Nat} (h : 1 ≤ n) : min (n + 1) 2 = 2 := by omega

section messages

variable {s : State} {p : EthPort} {via : PtpVia}

theorem ptpHears_of (on : s.ptpOn p = true) (vlan : via.vlan = s.parH 0x12 8 p.num) (udp : via.udp = s.ptpUdp p) {domain : Nat}
    (hd : domain = s.parH 0x0D 1) : s.ptpHears p via domain = true := by
  simp [State.ptpHears, on, vlan, udp, hd]

theorem ptpHears_other (h : via.vlan ≠ s.parH 0x12 8 p.num ∨ via.udp ≠ s.ptpUdp p) (domain : Nat) : s.ptpHears p via domain = false := by
  unfold State.ptpHears
  rcases h with h | h
  · rw [beq_eq_false_iff_ne.mpr h, Bool.and_false, Bool.false_and, Bool.false_and]
  · rw [beq_eq_false_iff_ne.mpr h, Bool.and_false, Bool.false_and]

/-- What a message of the transport sends is one frame, where the port has what it needs. -/
theorem ptpEmit_eq (peer event : Bool) (kind seq : Nat) (time : List Byte) :
    (∃ o, s.ptpEmit p peer event kind seq time = s.emit o) ∨
      (s.ptpEmit p peer event kind seq time = s ∧ s.ptpUdp p = true ∧ s.ethIp p = 0) := by
  unfold State.ptpEmit
  dsimp only
  split
  case isTrue udp =>
    split
    case isTrue ip => exact .inr ⟨rfl, udp, ip⟩
    case isFalse => exact .inl ⟨_, rfl⟩
  case isFalse => exact .inl ⟨_, rfl⟩

/-- A message sent leaves the tiles and the head, and is one frame more where it leaves. -/
theorem ptpEmit_sends (peer event : Bool) (kind seq : Nat) (time : List Byte) :
    (s.ptpEmit p peer event kind seq time).head = s.head ∧ (s.ptpEmit p peer event kind seq time).tiles = s.tiles ∧
    s.out <:+ (s.ptpEmit p peer event kind seq time).out ∧
    ((s.ptpUdp p = false ∨ s.ethIp p ≠ 0) → (s.ptpEmit p peer event kind seq time).out.length = s.out.length + 1) := by
  rcases ptpEmit_eq (s := s) (p := p) peer event kind seq time with ⟨o, e⟩ | ⟨e, udp, ip⟩
  · rw [e]
    exact ⟨rfl, rfl, List.suffix_cons .., fun _ => rfl⟩
  · rw [e]
    refine ⟨rfl, rfl, List.suffix_rfl, fun h => ?_⟩
    rcases h with h | h
    · rw [udp] at h; exact Bool.noConfusion h
    · exact absurd ip h

end messages

/-! ### Masters and offsets (R246, R249) -/

section master

variable {s : State} {p : EthPort} {via : PtpVia}

/-- The other port. -/
def otherPort : EthPort → EthPort
  | .eth0 => .eth1
  | .eth1 => .eth0

/-- A master heard twice, alone in its domain, is the best one. -/
theorem bestMaster_alone {m : Announce} (on : s.ptpOn p = true) (heard : (s.eth p).foreign = [(m, 2)])
    (alone : (s.eth (otherPort p)).foreign = []) : s.bestMaster = some (p, m) := by
  unfold State.bestMaster
  cases p
  · have alone' : (s.eth .eth1).foreign = [] := alone
    simp [on, heard, alone', better]
  · have alone' : (s.eth .eth0).foreign = [] := alone
    simp [on, heard, alone', better]

/-- The best master becomes the selected one. -/
theorem selectMaster_selects {m : Announce} (h : s.bestMaster = some (p, m)) :
    s.selectMaster.head.time.slave = some p ∧ s.selectMaster.head.time.gm = some m.identity := by
  unfold State.selectMaster
  rw [h]
  dsimp only
  split
  · exact ⟨rfl, rfl⟩
  · split
    · exact ⟨rfl, rfl⟩
    · rw [(told_raiseHead (.refl _)).time]
      cases p <;> exact ⟨rfl, rfl⟩

theorem ptpAnnounce_heard {m m0 : Announce} {n : Nat} (hears : s.ptpHears p via m.domain = true)
    (heard : (s.eth p).foreign = [(m0, n)]) (same : m0.sender = m.sender) : exec (.ptpAnnounce p (via, m)) s =
      .next (s.modEth p fun e => { e with foreign := [(m, min (n + 1) 2)] }).selectMaster := by
  change execPtpAnnounce p (via, m) s = _
  rw [execPtpAnnounce, onHead_eq, if_neg (by rw [hears]; decide), heard]
  have found : ([(m0, n)] : List (Announce × Nat)).find? (fun e => e.1.sender == m.sender) = some (m0, n) := by simp [same]
  have kept : (s.modEth p fun e => { e with foreign := (e.foreign.filter fun q => q.1.sender != m.sender) ++ [(m, min (n + 1) 2)] }) =
      s.modEth p fun e => { e with foreign := [(m, min (n + 1) 2)] } := by
    cases p
    all_goals
      simp only [State.modEth, State.modTime, State.modHead]
      simp only [State.eth, TimeBase.eth] at heard
      rw [heard]
      simp [same]
  dsimp only
  rw [found]
  dsimp only
  rw [kept]

/-- The first offset in UNSET steps record time by it and takes LOCKED (R249). -/
theorem recOffset_unset {o : Int} (unset : s.head.time.recState = .unset) (above : 0 ≤ (s.head.time.record.ns : Int) + o) :
    (s.recOffset o).head.time.recState = .locked ∧ ((s.recOffset o).head.time.record.ns : Int) = s.head.time.record.ns + o ∧
    (s.recOffset o).now = s.now ∧ (∀ q, (s.recOffset o).eth q = s.eth q) ∧ State.TimeTold s (s.recOffset o) := by
  have taken : s.recOffset o = ((s.modTime fun tb => { tb with refused := [] }).stepRecord o).setRec .locked := by
    unfold State.recOffset
    rw [unset]
    exact if_neg (by simp [State.belowZero, Int.not_lt.mpr above])
  have stepped := time_stepRecord (s := s.modTime fun tb => { tb with refused := [] }) o
  rw [taken]
  have locked := time_setRec (s := (s.modTime fun tb => { tb with refused := [] }).stepRecord o) .locked
  refine ⟨recState_setRec .., ?_, ?_, fun q => eth_of_time ?_ ?_, ((timeTold_modTime _).trans (timeTold_stepRecord _)).trans (timeTold_setRec _)⟩
  · rw [locked, stepped]
    exact Int.toNat_of_nonneg above
  · rw [State.now, locked, stepped]; rfl
  · rw [locked, stepped]; rfl
  · rw [locked, stepped]; rfl

theorem syncOffset_unset {origin t2 : Int} (unset : s.head.time.recState = .unset)
    (above : 0 ≤ (s.head.time.record.ns : Int) + (origin + (s.eth p).path - t2)) :
    (s.syncOffset p origin t2).head.time.recState = .locked ∧
    ((s.syncOffset p origin t2).head.time.record.ns : Int) = s.head.time.record.ns + (origin + (s.eth p).path - t2) ∧
    (s.syncOffset p origin t2).now = s.now ∧ ((s.syncOffset p origin t2).eth p).sync = none ∧
    State.TimeTold s (s.syncOffset p origin t2) := by
  have same := time_modEth (s := s) (p := p) fun e => { e with syncDiff := t2 - origin, sync := none }
  obtain ⟨locked, record, now, eth, told⟩ := recOffset_unset
    (s := s.modEth p fun e => { e with syncDiff := t2 - origin, sync := none }) (o := origin + (s.eth p).path - t2)
    (by rw [same]; exact unset) (by rw [same]; exact above)
  rw [same] at record
  refine ⟨locked, record, now.trans (by rw [State.now, same]; rfl), ?_, State.TimeTold.trans (timeTold_modTime _) told⟩
  exact (congrArg EthPortState.sync (eth p)).trans (by rw [eth_modEth])

end master

/-! ### The messages (R246, R247) -/

section exchange

variable {s : State} {p : EthPort} {via : PtpVia}

theorem ptpSync_heard {m : SyncMsg} (hears : s.ptpHears p via m.domain = true) (master : s.fromMaster p m.identity = true)
    (low : -4 ≤ m.logInterval) (high : m.logInterval ≤ 1) : exec (.ptpSync p (via, m)) s = .next (
      if m.twoStep then s.modEth p fun e => { e with sync := some (m.identity, m.seqId, e.syncStamp m.stamp) }
      else s.syncOffset p m.origin ((s.eth p).syncStamp m.stamp)) := by
  change execPtpSync p (via, m) s = _
  have near : decide (m.logInterval < -4 ∨ m.logInterval > 1) = false := decide_eq_false (by omega)
  rw [execPtpSync, onHead_eq]
  dsimp only
  rw [hears, master, near]
  rfl

theorem ptpFollowUp_heard {m : PtpTime} {stamp : Int} (hears : s.ptpHears p via m.domain = true)
    (sync : (s.eth p).sync = some (m.identity, m.seqId, stamp)) (master : s.fromMaster p m.identity = true) :
    exec (.ptpFollowUp p (via, m)) s = .next (s.syncOffset p m.time stamp) := by
  change execPtpFollowUp p (via, m) s = _
  rw [execPtpFollowUp, onHead_eq]
  simp [sync, hears, master]

theorem ptpDelayResp_heard {m : PtpTime} {t3 : Int} (hears : s.ptpHears p via m.domain = true) (e2e : s.p2p p = false)
    (asked : (s.eth p).delayReq = some (m.seqId, t3)) (master : s.fromMaster p m.identity = true) :
    exec (.ptpDelayResp p (via, m)) s =
      .next (s.modEth p fun e => { e with path := (e.syncDiff + (m.time - t3)) / 2, delayReq := none }) := by
  change execPtpDelayResp p (via, m) s = _
  rw [execPtpDelayResp, onHead_eq]
  simp [asked, hears, e2e, master]

theorem ptpDelayRequestSend_e2e (stamp : Int) (on : s.ptpOn p = true) (e2e : s.p2p p = false) (slave : s.head.time.slave = some p) :
    exec (.ptpDelayRequestSend p stamp) s = .next ((s.modEth p fun e => { e with
      delayReq := some (e.seqNum, stamp + (s.eth p).txLat - e.asymNs), seqNum := (e.seqNum + 1) % 65536 }).ptpEmit
        p false true 1 (s.eth p).seqNum []) := by
  change execPtpDelayRequestSend p stamp s = _
  rw [execPtpDelayRequestSend, onHead_eq]
  simp [on, e2e, slave]

theorem ptpDelayRequestSend_p2p (stamp : Int) (on : s.ptpOn p = true) (p2p : s.p2p p = true) :
    exec (.ptpDelayRequestSend p stamp) s = .next ((s.modEth p fun e => { e with
      pdelay := some (e.seqNum, stamp + (s.eth p).txLat, 0, 0), seqNum := (e.seqNum + 1) % 65536 }).ptpEmit
        p true true 2 (s.eth p).seqNum []) := by
  change execPtpDelayRequestSend p stamp s = _
  rw [execPtpDelayRequestSend, onHead_eq]
  simp [on, p2p]

theorem ptpPdelayReq_heard {m : PtpTime} (hears : s.ptpHears p via m.domain = true) (p2p : s.p2p p = true) :
    exec (.ptpPdelayReq p (via, m)) s = .next (
      (s.ptpEmit p true true 3 m.seqId (leInt 8 (m.stamp - (s.eth p).rxLat)).reverse).ptpEmit
        p true false 0xA m.seqId (leInt 8 (m.time + (s.eth p).txLat)).reverse) := by
  change execPtpPdelayReq p (via, m) s = _
  rw [execPtpPdelayReq, onHead_eq]
  simp [hears, p2p]

variable {m : PtpTime} {t1 t2 t4 : Int} (hears : s.ptpHears p via m.domain = true) (p2p : s.p2p p = true)
  (asked : (s.eth p).pdelay = some (m.seqId, t1, t2, t4))
include hears p2p asked

theorem ptpPdelayResp_heard : exec (.ptpPdelayResp p (via, m)) s = .next (
    if m.twoStep then s.modEth p fun e => { e with pdelay := some (m.seqId, t1, m.time, m.stamp - (s.eth p).rxLat) }
    else s.modEth p fun e => { e with path := (m.stamp - (s.eth p).rxLat - t1 - m.time) / 2, pdelay := none }) := by
  change execPtpPdelayResp p (via, m) s = _
  rw [execPtpPdelayResp, onHead_eq]
  simp only [asked, hears, p2p, Bool.true_and, beq_self_eq_true, if_true]

theorem ptpPdelayRespFollowUp_heard : exec (.ptpPdelayRespFollowUp p (via, m)) s =
    .next (s.modEth p fun e => { e with path := (t4 - t1 - (m.time - t2)) / 2, pdelay := none }) := by
  change execPtpPdelayRespFollowUp p (via, m) s = _
  rw [execPtpPdelayRespFollowUp, onHead_eq]
  simp only [asked, hears, p2p, Bool.true_and, beq_self_eq_true, if_true]

end exchange

/-- Settles O42, message by message. -/
theorem ptpMessagesGiveOffsetAndDelay : Obligations.PtpMessagesGiveOffsetAndDelay := by
  unfold Obligations.PtpMessagesGiveOffsetAndDelay
  refine ⟨fun s p via other m x => ?other, fun s p via on vlan udp => ⟨?announce, ?sync, ?followUp, fun e2e => ⟨?resp, ?request⟩,
    fun p2p => ⟨?prequest, ?preq, ?presp⟩⟩⟩
  case other =>
    have deaf := ptpHears_other other
    refine ⟨?_, ?_⟩
    · change execPtpAnnounce p (via, m) s = _
      rw [execPtpAnnounce, onHead_eq, if_pos (by rw [deaf]; rfl)]
    · change execPtpSync p (via, x) s = _
      rw [execPtpSync, onHead_eq, if_pos (by rw [deaf]; rfl)]
  case announce =>
    intro m m0 n hd heard one same alone
    have alone' : (s.eth (otherPort p)).foreign = [] := by cases p <;> exact alone
    have keeps : (s.modEth p fun e => { e with foreign := [(m, min (n + 1) 2)] }).eth (otherPort p) = s.eth (otherPort p) :=
      eth_modEth_ne _ (by cases p <;> decide)
    have twice : ((s.modEth p fun e => { e with foreign := [(m, min (n + 1) 2)] }).eth p).foreign = [(m, 2)] := by
      rw [eth_modEth, min_two_of_succ one]
    have best := bestMaster_alone (s := s.modEth p fun e => { e with foreign := [(m, min (n + 1) 2)] }) on twice (by rw [keeps]; exact alone')
    obtain ⟨slave, gm⟩ := selectMaster_selects best
    obtain ⟨-, -, -, foreign, -⟩ := selectMaster_keeps (s := s.modEth p fun e => { e with foreign := [(m, min (n + 1) 2)] })
    exact ⟨_, ptpAnnounce_heard (ptpHears_of on vlan udp hd) heard same, slave, gm, (foreign p).trans twice⟩
  case sync =>
    intro m hd low high master
    have heard := ptpSync_heard (ptpHears_of on vlan udp hd) master low high
    refine ⟨fun two => heard.trans (by rw [if_pos two]; rfl), fun one unset => ?_⟩
    intro o above
    have same : m.origin + (s.eth p).path - (s.eth p).syncStamp m.stamp = o := by
      simp only [o, EthPortState.syncStamp]
      ring
    obtain ⟨locked, record, now, -, told⟩ := syncOffset_unset (s := s) (p := p) (origin := m.origin)
      (t2 := (s.eth p).syncStamp m.stamp) unset (by rw [same]; exact above)
    rw [same] at record
    exact ⟨_, heard.trans (by rw [if_neg (by rw [one]; decide)]), locked, record, now, told.tiles⟩
  case followUp =>
    intro m stamp hd sync master unset o above
    obtain ⟨locked, record, -, done, -⟩ := syncOffset_unset (s := s) (p := p) (origin := m.time) (t2 := stamp) unset above
    exact ⟨_, ptpFollowUp_heard (ptpHears_of on vlan udp hd) sync master, locked, done, record⟩
  case resp => exact fun m t3 hd asked master => ptpDelayResp_heard (ptpHears_of on vlan udp hd) e2e asked master
  case request =>
    intro stamp slave
    obtain ⟨head, -, -, sent⟩ := ptpEmit_sends (s := s.modEth p fun e => { e with
      delayReq := some (e.seqNum, stamp + (s.eth p).txLat - e.asymNs), seqNum := (e.seqNum + 1) % 65536 }) (p := p) false true 1
      (s.eth p).seqNum []
    have eth := congrArg (fun hd : Head => hd.time.eth p) head
    refine ⟨_, ptpDelayRequestSend_e2e stamp on e2e slave, ?_, ?_, fun can => sent can⟩
    · exact (congrArg EthPortState.delayReq eth).trans (congrArg EthPortState.delayReq (eth_modEth _))
    · exact (congrArg EthPortState.seqNum eth).trans (congrArg EthPortState.seqNum (eth_modEth _))
  case prequest =>
    intro stamp
    obtain ⟨head, -, -, sent⟩ := ptpEmit_sends (s := s.modEth p fun e => { e with
      pdelay := some (e.seqNum, stamp + (s.eth p).txLat, 0, 0), seqNum := (e.seqNum + 1) % 65536 }) (p := p) true true 2 (s.eth p).seqNum []
    have eth := congrArg (fun hd : Head => hd.time.eth p) head
    refine ⟨_, ptpDelayRequestSend_p2p stamp on p2p, ?_, fun can => sent can⟩
    exact (congrArg EthPortState.pdelay eth).trans (congrArg EthPortState.pdelay (eth_modEth _))
  case preq =>
    intro m hd
    obtain ⟨head, tiles, out, sent⟩ := ptpEmit_sends (s := s) (p := p) true true 3 m.seqId (leInt 8 (m.stamp - (s.eth p).rxLat)).reverse
    generalize hs1 : s.ptpEmit p true true 3 m.seqId (leInt 8 (m.stamp - (s.eth p).rxLat)).reverse = s1 at head tiles out sent
    obtain ⟨head', tiles', out', sent'⟩ := ptpEmit_sends (s := s1) (p := p) true false 0xA m.seqId
      (leInt 8 (m.time + (s.eth p).txLat)).reverse
    have par (table row idx : Nat) : s1.parH table row idx = s.parH table row idx := by
      rw [State.parH, State.parH, State.tile, State.tile, tiles]
    refine ⟨_, (ptpPdelayReq_heard (ptpHears_of on vlan udp hd) p2p).trans (by rw [hs1]), head'.trans head, fun can => ?_, tiles'.trans tiles,
      out.trans out'⟩
    rw [sent' (by simpa only [State.ptpUdp, State.ethIp, par] using can), sent can]
  case presp =>
    intro m t1 t2 t4 hd asked
    have hears := ptpHears_of on vlan udp hd
    have heard := ptpPdelayResp_heard hears p2p asked
    exact ⟨fun two => heard.trans (by rw [if_pos two]), fun one => heard.trans (by rw [if_neg (by rw [one]; decide)]),
      ptpPdelayRespFollowUp_heard hears p2p asked⟩

end Sys2Proof.Machine
end

