-- ==== Sys2Proof/Proofs/Ethernet.lean ====
section
/-!
PROOFS. The Ethernet ports: link changes, address resolution, echoes and the delivery of datagrams (R243 to R245).
-/

namespace Sys2Proof.Machine

/-! ### The delivery of a datagram (R245) -/

/-- What a delivery leaves: the head, every service core and every binding; what has left a port has left it. -/
structure State.Delivers (s s' : State) : Prop where
  head    : s'.head = s.head
  svc     : ∀ t, (s'.tile t).die.svc = (s.tile t).die.svc
  binding : ∀ t (c : Fin 32), ((s'.tile t).sedge[c]).binding = ((s.tile t).sedge[c]).binding
  outs    : ∀ o ∈ s.out, o ∈ s'.out

section deliver

variable {s s' s'' : State} {p : EthPort} {src dst : Nat} {ip : Word} {payload : List Byte}

theorem State.Delivers.refl (s : State) : State.Delivers s s := ⟨rfl, fun _ => rfl, fun _ _ => rfl, fun _ h => h⟩

theorem State.Delivers.trans (h : State.Delivers s s') (k : State.Delivers s' s'') : State.Delivers s s'' :=
  ⟨k.head.trans h.head, fun t => (k.svc t).trans (h.svc t), fun t c => (k.binding t c).trans (h.binding t c),
    fun o ho => k.outs o (h.outs o ho)⟩

/-- A connection takes a datagram by its binding alone. -/
theorem takesEth_congr {c c' : SedgeConn} (h : c'.binding = c.binding) : c'.takesEth p src dst ip = c.takesEth p src dst ip := by
  rw [SedgeConn.takesEth, SedgeConn.takesEth, h]

theorem delivers_emit (o : Output) : State.Delivers s (s.emit o) := ⟨rfl, fun _ => rfl, fun _ _ => rfl, fun _ h => List.mem_cons_of_mem _ h⟩

/-- The numbers remembered of a connection to both ports. -/
theorem delivers_bothSeq (t : TileId) (c : Fin 32) (l : List (BitVec 16 × EthPort)) :
    State.Delivers s (s.modTile t fun tl => { tl with sedge := vmod tl.sedge c fun x => { x with bothSeq := l } }) := by
  refine ⟨rfl, fun u => ?_, fun u d => ?_, fun _ h => h⟩
  · rw [State.tile_modTile]
    split <;> rfl
  · rw [State.tile_modTile]
    split
    · dsimp only
      rw [vmod_get]
      split
      case isTrue e => rw [e]
      case isFalse => rfl
    · rfl

/-- A datagram passed on to one connection, or not. -/
def State.udpTo (p : EthPort) (src dst : Nat) (ip : Word) (payload : List Byte) (t : TileId) (s : State) (c : Fin 32) : State :=
  match ((s.tile t).sedge[c]).takesEth p src dst ip with
  | none => s
  | some both =>
    let q : BitVec 16 := BitVec.ofNat 16 (ofBe (payload.take 2))
    let seen := ((s.tile t).sedge[c]).bothSeq
    let set := fun (s : State) (l : List (BitVec 16 × EthPort)) =>
      s.modTile t fun tl => { tl with sedge := vmod tl.sedge c fun x => { x with bothSeq := l } }
    if both && seen.any (fun x => x.1 == q && x.2 != p) then set s (seen.filter (·.1 != q))
    else (if both then set s ((seen.filter (·.1 != q)).drop (seen.length - 255) ++ [(q, p)]) else s).emit (.toTriad t c.val payload)

theorem udpDeliver_eq : s.udpDeliver p src dst ip payload = s.each s.tileIds fun s t =>
    if !(s.tile t).die.svc then s else s.each connIds (State.udpTo p src dst ip payload t) := rfl

theorem delivers_udpTo (t : TileId) (c : Fin 32) : State.Delivers s (s.udpTo p src dst ip payload t c) := by
  unfold State.udpTo
  split
  · exact .refl s
  · dsimp only
    split
    · exact delivers_bothSeq ..
    · split
      · exact (delivers_bothSeq ..).trans (delivers_emit _)
      · exact delivers_emit _

theorem delivers_each {α : Type} {f : State → α → State} (hf : ∀ s a, State.Delivers s (f s a)) (l : List α) (s : State) :
    State.Delivers s (s.each l f) := by
  induction l generalizing s with
  | nil => exact .refl s
  | cons a l ih => exact (hf s a).trans (ih _)

theorem toTriad_udpTo {t : TileId} {c : Fin 32} (h : ((s.tile t).sedge[c]).takesEth p src dst ip = some false) :
    Output.toTriad t c.val payload ∈ (s.udpTo p src dst ip payload t c).out := by
  rw [State.udpTo, h]
  exact List.mem_cons_self

theorem toTriad_each {t : TileId} {c : Fin 32} (l : List (Fin 32)) (hc : c ∈ l)
    (h : ((s.tile t).sedge[c]).takesEth p src dst ip = some false) :
    Output.toTriad t c.val payload ∈ (s.each l (State.udpTo p src dst ip payload t)).out := by
  induction l generalizing s with
  | nil => exact absurd hc List.not_mem_nil
  | cons d l ih =>
    rw [State.each_cons]
    by_cases e : c = d
    · subst e
      exact (delivers_each (fun _ _ => delivers_udpTo ..) l _).outs _ (toTriad_udpTo h)
    · exact ih ((List.mem_cons.mp hc).resolve_left e) ((takesEth_congr ((delivers_udpTo t d).binding t c)).trans h)

theorem delivers_tile (t : TileId) :
    State.Delivers s (if !(s.tile t).die.svc then s else s.each connIds (State.udpTo p src dst ip payload t)) := by
  split
  · exact .refl s
  · exact delivers_each (fun _ _ => delivers_udpTo ..) _ s

theorem delivers_udpDeliver : State.Delivers s (s.udpDeliver p src dst ip payload) := delivers_each (fun _ t => delivers_tile t) _ s

/-- A datagram reaches every connection of a tile with its service core whose binding it matches. -/
theorem toTriad_udpDeliver {t : TileId} {c : Fin 32} (ht : s.hasTile t = true) (svc : (s.tile t).die.svc = true)
    (h : ((s.tile t).sedge[c]).takesEth p src dst ip = some false) :
    Output.toTriad t c.val payload ∈ (s.udpDeliver p src dst ip payload).out := by
  rw [udpDeliver_eq]
  have mem := mem_tileIds ht
  clear ht
  generalize s.tileIds = l at mem
  induction l generalizing s with
  | nil => exact absurd mem List.not_mem_nil
  | cons u l ih =>
    rw [State.each_cons]
    by_cases e : t = u
    · subst e
      refine (delivers_each (fun _ t => delivers_tile t) l _).outs _ ?_
      rw [svc]
      exact toTriad_each connIds (List.mem_finRange c) h
    · have moved := delivers_tile (s := s) (p := p) (src := src) (dst := dst) (ip := ip) (payload := payload) u
      exact ih ((moved.svc t).trans svc) ((takesEth_congr (moved.binding t c)).trans h)
        ((List.mem_cons.mp mem).resolve_left e)

end deliver

/-! ### Frames sent (R243) -/

section send

variable {s s' : State} {p : EthPort}

@[simp] theorem eth_arpEmit (op : Nat) (ip : Word) (q : EthPort) : (s.arpEmit p op ip).eth q = s.eth q := rfl

/-- The frames that waited go out, and nothing else changes. -/
theorem head_each_emit {α : Type} {f : State → α → State} (hf : ∀ s a, (f s a).head = s.head) (l : List α) (s : State) :
    (s.each l f).head = s.head := State.each_keeps (g := State.head) hf l s

/-- The PHY told of its mode, and the address announced, leave the port. -/
theorem eth_announced {P : EthPortState → Prop} {a : Prop} [Decidable a] {o : Output} (h : P (s.eth p)) :
    let s3 := if a then s else s.emit o
    P ((if s3.ethOn p && s3.ethIp p != 0 then s3.arpEmit p 1 (BitVec.ofNat 32 (s3.ethIp p)) else s3).eth p) := by
  intro s3
  have same : s3.eth p = s.eth p := by
    dsimp only [s3]
    split <;> rfl
  split
  · exact same ▸ h
  · exact same ▸ h

/-- Sending keeps the tiles and the echoes answered. -/
theorem ethSend_keeps (ip : Word) (udp : List Byte) :
    (s.ethSend p ip udp).tiles = s.tiles ∧ ((s.ethSend p ip udp).eth p).echoes = (s.eth p).echoes := by
  have changed (f : EthPortState → EthPortState) (h : (f (s.eth p)).echoes = (s.eth p).echoes) :
      (s.modEth p f).tiles = s.tiles ∧ ((s.modEth p f).eth p).echoes = (s.eth p).echoes := ⟨rfl, by rw [eth_modEth, h]⟩
  unfold State.ethSend
  dsimp only
  split
  · exact ⟨rfl, rfl⟩
  · split
    · exact ⟨rfl, rfl⟩
    · split
      · exact ⟨rfl, rfl⟩
      · split
        · exact changed _ rfl
        · exact changed (fun e => { e with arpTry := e.arpTry ++ [(_, 1, [_])] }) rfl

end send

/-! ### The steps (R243) -/

section steps

variable {s : State} {p : EthPort} {v : Nat}

theorem ethHears_other (h : v ≠ s.parH 0x12 8 p.num) : s.ethHears p v = false := by
  rw [State.ethHears, beq_eq_false_iff_ne.mpr h, Bool.and_false]

theorem ethHears_of (on : s.ethOn p = true) (h : v = s.parH 0x12 8 p.num) : s.ethHears p v = true := by
  rw [State.ethHears, on, beq_iff_eq.mpr h]
  rfl

theorem phyPoll_down (runs : s.headRuns = true) (up : (s.eth p).up = true) (fd : Bool) (speed : Nat) :
    exec (.ethPhyStatusPoll p false fd speed) s =
      .next ((s.modEth p fun e => { e with up := false, speed := 0 }).raiseHead 0x08 (leBytes 1 p.num ++ [0, 0, 0])) := by
  change execEthPhyStatusPoll p false fd speed s = _
  rw [execEthPhyStatusPoll, onHead_eq]
  simp [runs, up]

/-- A port taken up keeps what it had resolved. -/
theorem phyPoll_up (runs : s.headRuns = true) (down : (s.eth p).up = false) (speed : Nat) :
    ∃ s', exec (.ethPhyStatusPoll p true true speed) s = .next s' ∧ (s'.eth p).up = true ∧ (s'.eth p).arp = (s.eth p).arp := by
  change ∃ s', execEthPhyStatusPoll p true true speed s = _ ∧ _
  rw [execEthPhyStatusPoll, onHead_eq]
  dsimp only
  have changed : ¬ (!s.headRuns || (true && true) == (s.eth p).up) = true := by rw [runs, down]; decide
  rw [if_neg changed, if_neg (by decide)]
  refine ⟨_, rfl, ?_⟩
  refine eth_announced (P := fun e => e.up = true ∧ e.arp = (s.eth p).arp) ?_
  rw [State.eth, (told_raiseHead (.refl _)).time]
  change ((State.modEth _ p _).eth p).up = _ ∧ ((State.modEth _ p _).eth p).arp = _
  rw [eth_modEth]
  exact ⟨rfl, rfl⟩

theorem frameReceived_udp {f : EthFrame} {dst src : Nat} {payload : List Byte} (hears : s.ethHears p f.vlan = true)
    (mac : f.toMac = s.ethMac p) (body : f.body = .udp dst src false false payload) (ip : f.dstIp.toNat = s.ethIp p) :
    exec (.ethFrameReceived p f) s = .next (s.udpDeliver p src dst f.srcIp payload) := by
  change execEthFrameReceived p f s = _
  rw [execEthFrameReceived, onHead_eq, hears]
  simp [mac, body, ip]

theorem arpRequest_ours {mac : BitVec 48} {ip target : Word} (hears : s.ethHears p v = true) (own : s.ethIp p ≠ 0)
    (ours : target.toNat = s.ethIp p) : ∃ body, exec (.arpRequestReceived p (v, mac) ip target) s = .next (s.ethEmit p body) := by
  change ∃ body, execArpRequestReceived p (v, mac) ip target s = _
  rw [execArpRequestReceived, onHead_eq, if_pos (by simp [hears, own, ours])]
  exact ⟨_, rfl⟩

theorem filter_other (l : List (Word × Nat × List (List Byte))) (ip : Word) : ∀ x ∈ l.filter (·.1 != ip), x.1 ≠ ip :=
  fun _ hx => bne_iff_ne.mp (List.mem_filter.mp hx).2

/-- The state of a port that an address has answered (R243). -/
def EthPortState.answered (e : EthPortState) (ip : Word) (mac : BitVec 48) : EthPortState :=
  { e with arp := (e.arp.filter (·.1 != ip)).drop ((e.arp.filter (·.1 != ip)).length - 63) ++ [(ip, mac)]
           arpTry := e.arpTry.filter (·.1 != ip) }

theorem answered_entry (e : EthPortState) (ip : Word) (mac : BitVec 48) : (ip, mac) ∈ (e.answered ip mac).arp ∧
    (∀ x ∈ (e.answered ip mac).arpTry, x.1 ≠ ip) ∧ (e.answered ip mac).arp.length ≤ 64 := by
  refine ⟨List.mem_append_right _ (List.mem_singleton.mpr rfl), filter_other _ _, ?_⟩
  simp only [EthPortState.answered, List.length_append, List.length_drop, List.length_singleton]
  omega

/-- The reply of an address being resolved fills its entry, and the frames that waited go out. -/
theorem arpReply_awaited {mac : BitVec 48} {ip : Word} {n : Nat} {ws : List (List Byte)} (hears : s.ethHears p v = true)
    (tried : (ip, n, ws) ∈ (s.eth p).arpTry) : ∃ s', exec (.arpReplyReceived p (v, mac) ip) s = .next s' ∧
      s'.eth p = (s.eth p).answered ip mac := by
  obtain ⟨w, found⟩ : ∃ w, (s.eth p).arpTry.find? (·.1 == ip) = some w :=
    Option.isSome_iff_exists.mp (List.find?_isSome.mpr ⟨_, tried, beq_self_eq_true ip⟩)
  change ∃ s', execArpReplyReceived p (v, mac) ip s = _ ∧ _
  rw [execArpReplyReceived, onHead_eq]
  dsimp only
  rw [found, hears, if_neg (by rw [Option.isNone_some, Bool.false_and]; decide)]
  dsimp only
  refine ⟨_, rfl, ?_⟩
  rw [State.eth, head_each_emit (f := fun s b => State.ethEmit s p _) fun _ _ => rfl]
  exact eth_modEth _

theorem arpRetry_repeats {ip : Word} {n : Nat} {ws : List (List Byte)} (on : s.ethOn p = true)
    (tried : (s.eth p).arpTry = [(ip, n, ws)]) (few : n < 3) : exec (.arpRetryTimeout p ip) s =
      .next ((s.modEth p fun e => { e with arpTry := e.arpTry.map fun x => if x.1 == ip then (x.1, n + 1, x.2.2) else x }).arpEmit p 1 ip) := by
  change execArpRetryTimeout p ip s = _
  rw [execArpRetryTimeout, onHead_eq]
  simp [tried, few, on]

theorem arpRetry_drops {ip : Word} {n : Nat} {ws : List (List Byte)} (tried : (s.eth p).arpTry = [(ip, n, ws)]) (many : 3 ≤ n) :
    exec (.arpRetryTimeout p ip) s =
      .next (s.modEth p fun e => { e with arpTry := e.arpTry.filter (·.1 != ip), arp := e.arp.filter (·.1 != ip) }) := by
  change execArpRetryTimeout p ip s = _
  rw [execArpRetryTimeout, onHead_eq]
  simp [tried, Nat.not_lt.mpr many]

theorem arpEntryRefresh_asks {ip : Word} {mac : BitVec 48} (on : s.ethOn p = true) (entry : (ip, mac) ∈ (s.eth p).arp)
    (idle : (s.eth p).arpTry = []) : exec (.arpEntryRefresh p ip) s =
      .next ((s.modEth p fun e => { e with arpTry := e.arpTry ++ [(ip, 1, [])] }).arpEmit p 1 ip) := by
  have known : (s.eth p).arp.any (·.1 == ip) = true := List.any_eq_true.mpr ⟨_, entry, beq_self_eq_true ip⟩
  change execArpEntryRefresh p ip s = _
  rw [execArpEntryRefresh, onHead_eq]
  exact congrArg _ (if_pos (by rw [on, known, idle]; rfl))

theorem eth_at (s : State) (p : EthPort) (now : Nat) : (s.at now).eth p = s.eth p := by
  change (if s.head.time.local_ < now then s.head.time.advance (now - s.head.time.local_) else s.head.time).eth p = s.head.time.eth p
  split
  · cases p <;> rfl
  · rfl

theorem icmpEcho_noted {ip target : Word} {data : List Byte} {now : Nat} (hears : s.ethHears p v = true) (own : s.ethIp p ≠ 0)
    (ours : target.toNat = s.ethIp p) (few : ((s.eth p).echoes.filter fun i => decide ((s.at now).now < i + 1000000000)).length < 10) :
    exec (.icmpEchoRequest p (v, ip) target data now) s = .next (((s.at now).modEth p fun e =>
      { e with echoes := ((s.eth p).echoes.filter fun i => decide ((s.at now).now < i + 1000000000)) ++ [(s.at now).now] }).ethSend p ip
        ([0] ++ data)) := by
  have heard : (s.at now).ethHears p v = true := hears
  have same : (s.at now).eth p = s.eth p := eth_at s p now
  have own' : (s.at now).ethIp p ≠ 0 := own
  have ours' : target.toNat = (s.at now).ethIp p := ours
  change execIcmpEchoRequest p (v, ip) target data now s = _
  rw [execIcmpEchoRequest, onHead_eq]
  simp [heard, own', ours', same, Nat.not_le.mpr few]

end steps

/-- Settles O45, step by step. -/
theorem ethernetPortsResolveAndDeliver : Obligations.EthernetPortsResolveAndDeliver := by
  unfold Obligations.EthernetPortsResolveAndDeliver
  intro s p
  refine ⟨fun runs => ⟨fun down speed => phyPoll_up runs down speed, fun up fd speed => phyPoll_down runs up fd speed⟩,
    fun f other => ?frame, fun v other mac ip target => ⟨?request, ?reply⟩, fun on v hv =>
      ⟨?udp, ?ours, ?fills, fun ip n ws tried => ⟨fun few => ?again, fun many => ?drops⟩, ?refresh, ?echo⟩⟩
  case frame =>
    change execEthFrameReceived p f s = _
    rw [execEthFrameReceived, onHead_eq, if_pos (by rw [ethHears_other other]; rfl)]
  case request =>
    change execArpRequestReceived p (v, mac) ip target s = _
    rw [execArpRequestReceived, onHead_eq, if_neg (by rw [ethHears_other other]; exact Bool.false_ne_true)]
  case reply =>
    change execArpReplyReceived p (v, mac) ip s = _
    rw [execArpReplyReceived, onHead_eq]
    exact congrArg _ (if_pos (by rw [ethHears_other other]; rfl))
  case udp =>
    intro f dst src payload vlan mac body ip
    exact ⟨_, frameReceived_udp (ethHears_of on vlan) mac body ip, delivers_udpDeliver.head, fun t c ht svc takes =>
      toTriad_udpDeliver ht svc takes⟩
  case ours =>
    intro mac ip target own ours
    obtain ⟨body, answers⟩ := arpRequest_ours (mac := mac) (ip := ip) (ethHears_of on hv) own ours
    exact ⟨_, answers, rfl, rfl, rfl, List.suffix_cons ..⟩
  case fills =>
    intro mac ip n ws tried
    obtain ⟨s', answers, eth⟩ := arpReply_awaited (mac := mac) (ethHears_of on hv) tried
    refine ⟨s', answers, ?_⟩
    rw [eth]
    exact answered_entry ..
  case again =>
    refine ⟨_, arpRetry_repeats on tried few, ?_, rfl⟩
    rw [eth_arpEmit, eth_modEth, tried]
    simp
  case drops =>
    refine ⟨_, arpRetry_drops tried many, ?_, rfl, ?_⟩
    · rw [eth_modEth, tried]
      simp
    · rw [eth_modEth]
      exact fun _ hx => bne_iff_ne.mp (List.mem_filter.mp hx).2
  case refresh =>
    intro ip mac entry idle
    refine ⟨_, arpEntryRefresh_asks on entry idle, ?_, rfl⟩
    rw [eth_arpEmit, eth_modEth, idle]
    rfl
  case echo =>
    intro ip target data now own ours few
    obtain ⟨tiles, echoes⟩ := ethSend_keeps (s := (s.at now).modEth p fun e =>
      { e with echoes := ((s.eth p).echoes.filter fun i => decide ((s.at now).now < i + 1000000000)) ++ [(s.at now).now] }) (p := p) ip
      ([0] ++ data)
    refine ⟨_, icmpEcho_noted (ethHears_of on hv) own ours few, ?_, tiles⟩
    rw [echoes, eth_modEth]
    exact List.mem_append_right _ (List.mem_singleton.mpr rfl)

end Sys2Proof.Machine
end

