-- ==== Sys2Proof/Proofs/CausewaySteps.lean ====
section
/-!
PROOFS. The Causeway node's record after each of its steps: a state taken, a clock stepped, a cycle begun, a frame noted and delivered (R252, R260,
R266, R271).
-/

namespace Sys2Proof.Machine

section cwy

variable {s s' : State}

@[simp] theorem cwy_modCwy (f : Causeway → Causeway) : (s.modCwy f).head.cwy = f s.head.cwy := rfl

@[simp] theorem cwy_at (now : Nat) : (s.at now).head.cwy = s.head.cwy := rfl

@[simp] theorem cwy_raiseHead (code : Nat) (data : List Byte) (logged : Bool) : (s.raiseHead code data logged).head.cwy = s.head.cwy :=
  (told_raiseHead (.refl s)).cwy

theorem cwy_ringSyncNote : s.ringSyncNote.head.cwy = s.head.cwy := by
  unfold State.ringSyncNote
  split
  · rfl
  · exact cwy_raiseHead ..

/-- A state of the node is taken, and nothing else of its record changes. -/
@[simp] theorem cwy_setCwy (st : CwyState) : (s.setCwy st).head.cwy = { s.head.cwy with state := st } := by
  unfold State.setCwy
  dsimp only
  split
  case isTrue h => rw [← h]
  case isFalse => rw [cwy_ringSyncNote, cwy_raiseHead, cwy_modCwy]

theorem State.TimeTold.cwy (h : State.TimeTold s s') : s'.head.cwy = s.head.cwy := State.Told.cwy (s := s.modTime fun _ => s'.head.time) h

theorem timeTold_stepRingTo (ns : Nat) : State.TimeTold s (s.stepRingTo ns) :=
  ((timeTold_modTime _).trans timeTold_epochMark).trans (timersTold_each true timerIds).told

/-- The record once the next cycle has begun. -/
def Causeway.begun (c : Causeway) : Causeway :=
  if c.inNit then { c with inNit := false, cycle := (c.cycle + 1) % 2 ^ 48, countdown := c.countdown - 1 } else c

@[simp] theorem cwy_cwyBegin : s.cwyBegin.head.cwy = s.head.cwy.begun := by
  unfold State.cwyBegin Causeway.begun
  split <;> rfl

/-- A beginning cycle changes the cycle number and the countdown alone. -/
theorem begun_eq (c : Causeway) : c.begun = { c with inNit := false, cycle := c.begun.cycle, countdown := c.begun.countdown } := by
  unfold Causeway.begun
  cases h : c.inNit
  · simp only [Bool.false_eq_true, if_false]
    rw [← h]
  · simp only [if_true]

theorem time_cwyBegin : s.cwyBegin.head.time = s.head.time := by
  unfold State.cwyBegin
  split <;> rfl

theorem tiles_cwyBegin : s.cwyBegin.tiles = s.tiles := by
  unfold State.cwyBegin
  split <;> rfl

theorem out_cwyBegin : s.cwyBegin.out = s.out := by
  unfold State.cwyBegin
  split <;> rfl

@[simp] theorem cwyNode_begun (now : Nat) : (s.at now).cwyBegin.cwyNode = s.cwyNode := by
  rw [State.cwyNode, State.parH, State.tile, tiles_cwyBegin]
  rfl

theorem out_begun (now : Nat) : (s.at now).cwyBegin.out = s.out := out_cwyBegin

end cwy

/-! ### Outputs that a step adds alone -/

/-- A step adds outputs and changes nothing else. -/
def State.Emits (s s' : State) : Prop := ∃ l, s' = { s with out := l ++ s.out }

section emits

variable {s s' s'' : State}

theorem State.Emits.refl (s : State) : State.Emits s s := ⟨[], rfl⟩

theorem State.Emits.trans (h : State.Emits s s') (k : State.Emits s' s'') : State.Emits s s'' := by
  obtain ⟨l, rfl⟩ := h
  obtain ⟨m, rfl⟩ := k
  exact ⟨m ++ l, by rw [List.append_assoc]⟩

theorem State.Emits.head (h : State.Emits s s') : s'.head = s.head := by
  obtain ⟨l, rfl⟩ := h
  rfl

theorem State.Emits.tiles (h : State.Emits s s') : s'.tiles = s.tiles := by
  obtain ⟨l, rfl⟩ := h
  rfl

theorem State.Emits.mem (h : State.Emits s s') {o : Output} (ho : o ∈ s.out) : o ∈ s'.out := by
  obtain ⟨l, rfl⟩ := h
  exact List.mem_append_right _ ho

theorem emits_emit (o : Output) : State.Emits s (s.emit o) := ⟨[o], rfl⟩

theorem emits_ite {c : Prop} [Decidable c] {a b : State} (ha : State.Emits s a) (hb : State.Emits s b) : State.Emits s (if c then a else b) := by
  split
  · exact ha
  · exact hb

theorem emits_each {α : Type} {f : State → α → State} (hf : ∀ s a, State.Emits s (f s a)) (l : List α) (s : State) :
    State.Emits s (s.each l f) := by
  induction l generalizing s with
  | nil => exact .refl s
  | cons a l ih => exact (hf s a).trans (ih _)

end emits

/-! ### A frame noted, adopted and delivered (R266 to R269, R277) -/

section frame

variable {s : State} {f : CwyFrame}

theorem cwy_cwyNote (tObs : Int) : ∃ d l g n a b e h, (s.cwyNote f tObs).head.cwy = { s.head.cwy with
    heardAny := a, heardOther := b, heardSync := h, intOk := e, intSync := n, devs := d, guardStarts := g, loopNodes := l } := by
  unfold State.cwyNote
  dsimp only
  split <;> exact ⟨_, _, _, _, _, _, _, _, rfl⟩

theorem cwy_cwyAdopt : ∃ m n, (s.cwyAdopt f).head.cwy = { s.head.cwy with mode := m, countdown := n } := by
  unfold State.cwyAdopt
  split <;> exact ⟨_, _, rfl⟩

/-- The first copy of a slot marks it, and only then leaves on the ports of the connections. -/
theorem cwyDeliver_delivers : ∃ l n, f.slot ∈ l ∧ (s.cwyDeliver f).head.cwy = { s.head.cwy with seen := l, notReady := n } := by
  unfold State.cwyDeliver
  split
  case isTrue seen => exact ⟨_, _, by simpa using seen, rfl⟩
  case isFalse =>
    refine ⟨s.head.cwy.seen ++ [f.slot], if f.notReady then s.head.cwy.notReady ++ [f.slot] else s.head.cwy.notReady,
      List.mem_append_right _ List.mem_cons_self, ?_⟩
    dsimp only
    split
    · rfl
    · refine (congrArg Head.cwy (State.Emits.head (emits_each (fun s t => emits_ite (.refl s) (emits_each (fun s k => ?_) _ s)) _ _))).trans rfl
      split
      · exact emits_ite (emits_emit _) (.refl s)
      · exact .refl s

/-- What a valid frame leaves of the record of an ACTIVE node (R266). -/
structure Causeway.Takes (c d : Causeway) (slot : Nat) : Prop where
  seen  : slot ∈ d.seen
  state : d.state = c.state
  nodes : d.nodeTable = c.nodeTable
  heal  : d.healed = c.healed
  loop  : d.loop = c.loop

theorem accepted_active (tObs : Int) (h : s.head.cwy.state = .active) : Causeway.Takes s.head.cwy (s.cwyAccept f tObs).head.cwy f.slot := by
  have accept : s.cwyAccept f tObs = ((s.cwyNote f tObs).cwyAdopt f).cwyDeliver f := by
    unfold State.cwyAccept
    dsimp only
    rw [h]
  obtain ⟨d, l, g, n, a, b, e, h', noted⟩ := cwy_cwyNote (s := s) (f := f) tObs
  obtain ⟨m, k, adopted⟩ := cwy_cwyAdopt (s := s.cwyNote f tObs) (f := f)
  obtain ⟨seen, notReady, mem, delivered⟩ := cwyDeliver_delivers (s := (s.cwyNote f tObs).cwyAdopt f) (f := f)
  rw [accept, delivered, adopted, noted]
  exact ⟨mem, rfl, rfl, rfl, rfl⟩

theorem emits_cwyRelay (p : CwyPort) : State.Emits s (s.cwyRelay p f) :=
  emits_ite (emits_ite (emits_emit _) (emits_emit _)) (.refl s)

end frame

end Sys2Proof.Machine
end

