-- ==== Sys2Proof/Proofs/CausewayFrames.lean ====
section
/-!
PROOFS. The Causeway node receives, relays and sends frames, and counts its slots (R261, R265, R266, R268, R272, R276).
-/

namespace Sys2Proof.Machine

/-! ### Reception (R261, R266, R274) -/

section reception

variable {s : State} {p : CwyPort} {f : CwyFrame} {tObs : Int} {now : Nat}

theorem state_begun : (s.at now).cwyBegin.head.cwy.state = s.head.cwy.state := by
  rw [cwy_cwyBegin, begun_eq]
  rfl

theorem exec_cwyFrameReceived : exec (.cwyFrameReceived p f tObs now) s = .next (
    if (s.at now).cwyBegin.head.cwy.state == .disabled then (s.at now).cwyBegin
    else if (s.at now).cwyBegin.cwyValid f tObs then ((s.at now).cwyBegin.cwyAccept f tObs).cwyRelay p f
    else (s.at now).cwyBegin.cwyDiscard p f) := rfl

theorem frameReceived_valid (on : s.head.cwy.state ≠ .disabled) (valid : (s.at now).cwyBegin.cwyValid f tObs = true) :
    exec (.cwyFrameReceived p f tObs now) s = .next (((s.at now).cwyBegin.cwyAccept f tObs).cwyRelay p f) := by
  rw [exec_cwyFrameReceived, if_neg (by rw [state_begun, beq_iff_eq]; exact on), if_pos valid]

theorem frameReceived_invalid (on : s.head.cwy.state ≠ .disabled) (valid : (s.at now).cwyBegin.cwyValid f tObs = false) :
    exec (.cwyFrameReceived p f tObs now) s = .next ((s.at now).cwyBegin.cwyDiscard p f) := by
  rw [exec_cwyFrameReceived, if_neg (by rw [state_begun, beq_iff_eq]; exact on), if_neg (by rw [valid]; decide)]

/-- Outside LISTEN an invalid frame is only counted. -/
theorem cwyDiscard_counts (h : s.head.cwy.state ≠ .listen) : s.cwyDiscard p f = s.cwyCount (if p == .portA then 0 else 2) := by
  have other : (s.head.cwy.state == .listen) = false := beq_eq_false_iff_ne.mpr h
  unfold State.cwyDiscard
  dsimp only
  rw [other]
  simp only [Bool.and_false, Bool.false_and, Bool.false_eq_true, if_false]

/-- Short of the hop limit, with the loop of the outgoing port open, the frame leaves on it with one hop more. -/
theorem out_cwyRelay (hop : f.hop + 1 < s.hopLimit) (open_ : p.other.of s.head.cwy.loop = false) :
    (s.cwyRelay p f).out.head? = some (.causeway p.other (cwyGroups { f with hop := f.hop + 1 })) := by
  rw [State.cwyRelay, if_pos hop, if_neg (by rw [open_]; decide)]
  rfl

theorem hopLimit_congr {s' : State} (nodes : s'.head.cwy.nodeTable = s.head.cwy.nodeTable) (heal : s'.head.cwy.healed = s.head.cwy.healed) :
    s'.hopLimit = s.hopLimit := by
  rw [State.hopLimit, State.hopLimit, nodes, heal]

/-- Integration with a frame aligns the node to its cycle (R274). -/
theorem cwyIntegrate_aligns : (s.cwyIntegrate f tObs).head.cwy.state = .integrate ∧ (s.cwyIntegrate f tObs).head.cwy.aligned = true ∧
    (s.cwyIntegrate f tObs).head.cwy.cycle = f.cycle := by
  unfold State.cwyIntegrate
  dsimp only
  rw [cwy_setCwy, cwy_modCwy]
  exact ⟨rfl, rfl, rfl⟩

theorem cwy_heardCold_plain (h : f.coldStart = false) : s.cwyHeardCold f = s := if_neg (by rw [h]; decide)

/-- In LISTEN a valid frame other than COLD_START starts the integration. -/
theorem accepted_listen (h : s.head.cwy.state = .listen) (plain : f.coldStart = false) :
    (s.cwyAccept f tObs).head.cwy.state = .integrate ∧ (s.cwyAccept f tObs).head.cwy.aligned = true ∧
    (s.cwyAccept f tObs).head.cwy.cycle = f.cycle := by
  have one : s.cwyTwoOrigins f = false := by rw [State.cwyTwoOrigins, plain, Bool.false_and]
  have accept : s.cwyAccept f tObs = (s.cwyIntegrate f tObs).cwyDeliver f := by
    unfold State.cwyAccept
    dsimp only
    rw [h, one]
    dsimp only
    rw [if_neg Bool.false_ne_true, cwy_heardCold_plain plain]
  have aligns := cwyIntegrate_aligns (s := s) (f := f) (tObs := tObs)
  generalize s.cwyIntegrate f tObs = s1 at accept aligns
  obtain ⟨seen, notReady, -, delivered⟩ := cwyDeliver_delivers (s := s1) (f := f)
  rw [accept, delivered]
  exact aligns

end reception

/-! ### Sending (R265, R272, R276) -/

section sending

variable {s : State} {slot : Fin 256} {now : Nat}

/-- What is sent on each link without a closed loop. -/
def onOpenLinks (c : Causeway) (f : CwyFrame) : List Output :=
  ([CwyPort.portA, .portB].filter fun p => !p.of c.loop).map fun p => Output.causeway p (cwyGroups { f with ring := p.other })

theorem out_cwySend (f : CwyFrame) : (s.cwySend f).out = onOpenLinks s.head.cwy f ++ s.out ∧ (s.cwySend f).head = s.head := by
  unfold State.cwySend
  rw [State.each_cons, State.each_cons, State.each_nil]
  obtain ⟨a, b, loops⟩ : ∃ a b, s.head.cwy.loop = (a, b) := ⟨_, _, rfl⟩
  cases a <;> cases b <;> simp [CwyPort.of, loops, onOpenLinks]

/-- The owner's action point, by the frame that it has (R265). -/
theorem slotActionPoint_owned {f : CwyFrame} (valid : slotValid s.head.cwy.slotTable slot.val = true)
    (own : slotOwner s.head.cwy.slotTable slot.val = s.cwyNode) (frame : (s.at now).cwyBegin.slotFrame slot.val = some f) :
    exec (.slotActionPoint slot now) s = .next (
      let s0 := (s.at now).cwyBegin
      let s1 := if f.coldStart || f.notReady then s0 else s0.modCwy fun c => { c with txBuf := c.txBuf.filter (·.1 != slot.val) }
      if s0.inWindow slot.val then s1.cwySend f
      else
        let s3 := ((s1.cwyCount 4).modCwy fun c => { c with cutNow := true }).raiseHead 0x23
          (leBytes 1 slot.val ++ leBytes 3 0 ++ leBytes 6 s0.head.cwy.cycle)
        if s0.head.cwy.cutLast then ((s3.cwyCount 5).raiseHead 0x24 (leBytes 4 0 ++ leBytes 6 s0.head.cwy.cycle)).cwyReintegrate else s3) := by
  have table : (s.at now).cwyBegin.head.cwy.slotTable = s.head.cwy.slotTable := by
    rw [cwy_cwyBegin, begun_eq]
    rfl
  change execSlotActionPoint slot now s = _
  rw [execSlotActionPoint, onHead_eq]
  dsimp only
  rw [table, cwyNode_begun, valid, own, frame]
  simp only [Bool.not_true, bne_self_eq_false, Bool.or_self, Bool.false_eq_true, if_false]

theorem slotActionPoint_silent (frame : (s.at now).cwyBegin.slotFrame slot.val = none) :
    exec (.slotActionPoint slot now) s = .next (s.at now).cwyBegin := by
  change execSlotActionPoint slot now s = _
  rw [execSlotActionPoint, onHead_eq]
  dsimp only
  rw [frame]
  split <;> rfl

theorem slotFrame_ready {data : List Byte} (h : s.head.cwy.state = .active) (ready : s.slotData slot.val = some data) :
    s.slotFrame slot.val = some (s.ownFrame slot.val false false data) := by
  unfold State.slotFrame
  dsimp only
  rw [h, ready]

theorem slotFrame_bare (h : s.head.cwy.state = .active) (empty : s.slotData slot.val = none) : s.slotFrame slot.val =
    if slotSync s.head.cwy.slotTable slot.val && ringGen s.head.cwy.nodeTable == 3 then some (s.ownFrame slot.val false true []) else none := by
  unfold State.slotFrame
  dsimp only
  rw [h, empty]

/-- A frame cut short is noted, and the second in a row takes the node back to INTEGRATE (R276). -/
theorem cut_short {s1 : State} {c : Causeway} {data data' : List Byte} :
    let s3 := ((s1.cwyCount 4).modCwy fun c => { c with cutNow := true }).raiseHead 0x23 data
    let s4 := if c.cutLast then ((s3.cwyCount 5).raiseHead 0x24 data').cwyReintegrate else s3
    (c.cutLast = false → s4.head.cwy.cutNow = true ∧ s4.head.cwy.state = s1.head.cwy.state) ∧
    (c.cutLast = true → s4.head.cwy.state = .integrate ∧ s4.head.cwy.aligned = false) := by
  intro s3 s4
  refine ⟨fun last => ?_, fun last => ?_⟩
  · have e : s4 = s3 := if_neg (by rw [last]; decide)
    rw [e, cwy_raiseHead]
    exact ⟨rfl, rfl⟩
  · have e : s4 = ((s3.cwyCount 5).raiseHead 0x24 data').cwyReintegrate := if_pos last
    rw [e, State.cwyReintegrate, cwy_setCwy]
    exact ⟨rfl, rfl⟩

end sending

/-! ### The end of a slot (R268) -/

section slotEnd

variable {s : State} {slot : Fin 256} {now : Nat} (active : s.head.cwy.state = .active) (valid : slotValid s.head.cwy.slotTable slot.val = true)
include active valid

theorem slotEnd_active : exec (.slotEnd slot now) s = .next (
    let s0 := (s.at now).cwyBegin
    if !s.head.cwy.seen.contains slot.val then
      let s1 := s0.modCwy fun c => { c with slotCounts := c.slotCounts.count (2 * slot.val) }
      if s.head.cwy.emptyAt.get slot.val (-1) < 0 || (s0.now : Int) ≥ s.head.cwy.emptyAt.get slot.val (-1) + 10000000000 then
        (s1.modCwy fun c => { c with emptyAt := c.emptyAt.set slot.val s0.now (-1) }).raiseHead 0x21
          (leBytes 1 slot.val ++ leBytes 3 0 ++ leBytes 6 s0.head.cwy.cycle)
      else s1
    else if s.head.cwy.notReady.contains slot.val then
      s0.modCwy fun c => { c with slotCounts := c.slotCounts.count (2 * slot.val + 1) }
    else s0) := by
  have begun : (s.at now).cwyBegin.head.cwy =
      { s.head.cwy with inNit := false, cycle := s.head.cwy.begun.cycle, countdown := s.head.cwy.begun.countdown } := by
    rw [cwy_cwyBegin]
    exact begun_eq _
  change execSlotEnd slot now s = _
  rw [execSlotEnd, onHead_eq]
  dsimp only
  rw [begun]
  dsimp only
  rw [valid, active]
  rfl

theorem slotEnd_empty (seen : s.head.cwy.seen.contains slot.val = false) : ∃ s', exec (.slotEnd slot now) s = .next s' ∧
    s'.head.cwy.slotCounts = s.head.cwy.slotCounts.count (2 * slot.val) := by
  have counts : (s.at now).cwyBegin.head.cwy.slotCounts = s.head.cwy.slotCounts := by
    rw [cwy_cwyBegin, begun_eq]
    rfl
  refine ⟨_, slotEnd_active active valid, ?_⟩
  dsimp only
  rw [seen, Bool.not_false, if_pos rfl]
  split
  · rw [cwy_raiseHead, cwy_modCwy, cwy_modCwy]
    exact congrArg (SMap.count · _) counts
  · rw [cwy_modCwy]
    exact congrArg (SMap.count · _) counts

theorem slotEnd_notReady (seen : s.head.cwy.seen.contains slot.val = true) (late : s.head.cwy.notReady.contains slot.val = true) :
    exec (.slotEnd slot now) s = .next ((s.at now).cwyBegin.modCwy fun c =>
      { c with slotCounts := c.slotCounts.count (2 * slot.val + 1) }) := by
  rw [slotEnd_active active valid, seen, late]
  rfl

end slotEnd

end Sys2Proof.Machine
end

