-- ==== Sys2Proof/Proofs/CausewayCycle.lean ====
section
/-!
PROOFS. The network idle time, the cold start, breaks and cycle points of the Causeway node (R252, R262, R271, R272, R277, R281, R282).
-/

namespace Sys2Proof.Machine

/-! ### The cycle number through a NIT (R262, R270, R277) -/

/-- The cycle number stands. -/
structure State.SameCycle (s s' : State) : Prop where
  eq : s'.head.cwy.cycle = s.head.cwy.cycle

section sameCycle

variable {s0 s : State}

theorem State.SameCycle.refl (s : State) : State.SameCycle s s := ⟨rfl⟩

theorem sameCycle_ite {c : Prop} [Decidable c] {a b : State} (ha : State.SameCycle s a) (hb : State.SameCycle s b) :
    State.SameCycle s (if c then a else b) := by
  split
  · exact ha
  · exact hb

theorem sameCycle_modCwy {f : Causeway → Causeway} (h : State.SameCycle s0 s) (hf : ∀ c, (f c).cycle = c.cycle) :
    State.SameCycle s0 (s.modCwy f) := ⟨(hf _).trans h.eq⟩

theorem sameCycle_modTile {t : TileId} {f : Tile → Tile} (h : State.SameCycle s0 s) : State.SameCycle s0 (s.modTile t f) := ⟨h.eq⟩

theorem sameCycle_modTime {f : TimeBase → TimeBase} (h : State.SameCycle s0 s) : State.SameCycle s0 (s.modTime f) := ⟨h.eq⟩

theorem sameCycle_emit {o : Output} (h : State.SameCycle s0 s) : State.SameCycle s0 (s.emit o) := ⟨h.eq⟩

theorem sameCycle_ringSyncNote (h : State.SameCycle s0 s) : State.SameCycle s0 s.ringSyncNote := ⟨by rw [cwy_ringSyncNote, h.eq]⟩

theorem sameCycle_setCwy {st : CwyState} (h : State.SameCycle s0 s) : State.SameCycle s0 (s.setCwy st) := ⟨by rw [cwy_setCwy, h.eq]⟩

theorem sameCycle_cwyListen (h : State.SameCycle s0 s) : State.SameCycle s0 s.cwyListen := by
  unfold State.cwyListen
  exact sameCycle_setCwy (sameCycle_modCwy (sameCycle_modTile h) fun _ => rfl)

theorem sameCycle_cwyReintegrate (h : State.SameCycle s0 s) : State.SameCycle s0 s.cwyReintegrate :=
  sameCycle_setCwy (sameCycle_modCwy h fun _ => rfl)

theorem sameCycle_ringServo (h : State.SameCycle s0 s) : State.SameCycle s0 s.ringServo := by
  have cleared := sameCycle_modCwy (f := fun c => { c with devs := [] }) h fun _ => rfl
  unfold State.ringServo
  dsimp only
  split
  · exact cleared
  · exact sameCycle_ringSyncNote (sameCycle_modTime cleared)

theorem sameCycle_guardianAlign (h : State.SameCycle s0 s) : State.SameCycle s0 s.guardianAlign := sameCycle_modCwy h fun _ => rfl

theorem sameCycle_cwyRepair {p : CwyPort} {seen : LinkSeen} (h : State.SameCycle s0 s) : State.SameCycle s0 (s.cwyRepair p seen) := by
  unfold State.cwyRepair
  have lost := sameCycle_modCwy (f := fun c => { c with los := p.put c.los (p.of c.los && seen == .lost) }) h fun _ => rfl
  refine sameCycle_ite lost (sameCycle_ite ?_ (sameCycle_ite (sameCycle_emit (sameCycle_modCwy ?_ fun _ => rfl))
    (sameCycle_ite (sameCycle_modCwy ?_ fun _ => rfl) ?_)))
  all_goals exact sameCycle_modCwy lost fun _ => rfl

theorem sameCycle_cwyCountdown (h : State.SameCycle s0 s) : State.SameCycle s0 s.cwyCountdown := by
  unfold State.cwyCountdown
  dsimp only
  split
  · exact h
  · split
    · exact sameCycle_modCwy h fun _ => rfl
    · exact sameCycle_modCwy h fun _ => rfl
    · exact h

theorem sameCycle_cwyProgress (h : State.SameCycle s0 s) : State.SameCycle s0 s.cwyProgress := by
  unfold State.cwyProgress
  dsimp only
  split
  case h_1 =>
    have counted {n : Nat} := sameCycle_modCwy (f := fun c => { c with silent := n }) h fun _ => rfl
    refine sameCycle_ite (sameCycle_cwyListen counted) (sameCycle_ite counted (sameCycle_ite ?_ (sameCycle_ite ?_ (sameCycle_ite ?_
      (sameCycle_setCwy ?_)))))
    all_goals exact sameCycle_modCwy counted fun _ => rfl
  case h_2 =>
    refine sameCycle_ite (sameCycle_setCwy (sameCycle_modCwy ?_ fun _ => rfl)) ?_
    all_goals exact sameCycle_modCwy h fun _ => rfl
  case h_3 =>
    refine sameCycle_ite (sameCycle_cwyReintegrate ?_) ?_
    all_goals exact sameCycle_modCwy h fun _ => rfl
  case h_4 => exact h

end sameCycle

/-! ### Breaks (R277, R282) -/

section breaks

variable {s : State} {p : CwyPort}

@[simp] theorem CwyPort.of_put {α : Type} (p : CwyPort) (v : α × α) (x : α) : p.of (p.put v x) = x := by cases p <;> rfl

theorem CwyPort.other_of_put {α : Type} (p : CwyPort) (v : α × α) (x : α) : p.other.of (p.put v x) = p.other.of v := by cases p <;> rfl

/-- A break is declared on a port: H on its link, NOTICE with countdown 2, and all else of the node as it was. -/
theorem cwy_cwyBreak : (s.cwyBreak p).head.cwy = { s.head.cwy with
    broken := p.put s.head.cwy.broken true, sendH := p.put s.head.cwy.sendH true, repairRun := p.put s.head.cwy.repairRun 0
    mode := .notice, countdown := 2, ownNotice := true } := by
  rw [State.cwyBreak, cwy_raiseHead]
  rfl

theorem out_cwyBreak : Output.linkControl p true ∈ (s.cwyBreak p).out :=
  mem_out_later (later_raiseHead (.refl _)) List.mem_cons_self

end breaks

/-! ### The steps -/

section steps

variable {s : State}

/-- What a NIT leaves for the next cycle. -/
structure Causeway.Idle (c : Causeway) (cycle : Nat) : Prop where
  cycle : c.cycle = cycle
  nit   : c.inNit = true
  seen  : c.seen = []
  cut   : c.cutNow = false

theorem idle_cwyBreak {p : CwyPort} {n : Nat} (h : s.head.cwy.Idle n) : (s.cwyBreak p).head.cwy.Idle n := by
  rw [cwy_cwyBreak]
  exact ⟨h.cycle, h.nit, h.seen, h.cut⟩

theorem idle_ite {c : Prop} [Decidable c] {a b : State} {n : Nat} (ha : a.head.cwy.Idle n) (hb : b.head.cwy.Idle n) :
    (if c then a else b).head.cwy.Idle n := by
  split
  · exact ha
  · exact hb

theorem idle_breaks {n : Nat} (l : List CwyPort) (h : s.head.cwy.Idle n) :
    (l.foldl (fun s p => if s.head.cwy.losOpen p then s.cwyBreak p else s) s).head.cwy.Idle n := by
  induction l generalizing s with
  | nil => exact h
  | cons p l ih => exact ih (idle_ite (idle_cwyBreak h) h)

theorem nitStart_runs (a b : LinkSeen) (runs : s.head.cwy.state = .integrate ∨ s.head.cwy.state = .coldstart ∨ s.head.cwy.state = .active)
    (stays : s.head.cwy.restart = false) : ∃ s', exec (.nitStart a b) s = .next s' ∧ s'.head.cwy.Idle s.cwyBegin.head.cwy.cycle := by
  have state : s.cwyBegin.head.cwy.state = s.head.cwy.state := by rw [cwy_cwyBegin, begun_eq]
  have restart : s.cwyBegin.head.cwy.restart = false := by rw [cwy_cwyBegin, begun_eq]; exact stays
  have on : (s.cwyBegin.head.cwy.state == .disabled || s.cwyBegin.head.cwy.state == .listen || s.cwyBegin.head.cwy.state == .backoff) = false := by
    rw [state]
    rcases runs with e | e | e <;> rw [e] <;> rfl
  change ∃ s', execNitStart a b s = _ ∧ _
  rw [execNitStart, onHead_eq]
  generalize s.cwyBegin = s0 at *
  dsimp only
  rw [on, if_neg Bool.false_ne_true, restart, if_neg Bool.false_ne_true]
  have idle (x : State) (h : State.SameCycle s0 x) : (x.modCwy fun c =>
      { c.freshCycle with inNit := true, cutLast := c.cutNow, cutNow := false }).head.cwy.Idle s0.head.cwy.cycle := ⟨h.eq, rfl, rfl, rfl⟩
  have next := idle _ (sameCycle_cwyProgress (sameCycle_cwyCountdown (sameCycle_cwyRepair (p := .portB) (seen := b)
    (sameCycle_cwyRepair (p := .portA) (seen := a) (sameCycle_guardianAlign (sameCycle_ite
      (c := (s0.head.cwy.aligned && decide (s0.head.cwy.cycle % 2 = 1)) = true) (sameCycle_ringServo (.refl s0)) (.refl s0)))))))
  exact ⟨_, rfl, idle_ite (idle_breaks _ next) next⟩

/-! ### The cold start (R272) -/

theorem ring_time_setCwy (st : CwyState) : (s.setCwy st).head.time.ring = s.head.time.ring := by
  have noted (x : State) : x.ringSyncNote.head.time.ring = x.head.time.ring := by
    unfold State.ringSyncNote
    split
    · rfl
    · rw [(told_raiseHead (.refl _)).time]
      rfl
  unfold State.setCwy
  dsimp only
  split
  · rfl
  · rw [noted, (told_raiseHead (.refl _)).time]
    rfl

theorem ring_time_each (l : List (Fin 8)) : (s.each l fun s i => s.timerStepped true i).head.time.ring = s.head.time.ring :=
  (congrArg TimeBase.ring (timersTold_each true l).time :)

theorem ring_stepRingTo_ns (ns : Nat) : (s.stepRingTo ns).head.time.ring.ns = ns := by
  unfold State.stepRingTo
  dsimp only
  rw [ring_time_each, time_epochMark, time_modTime]

theorem cwyColdstart_starts {j : Nat} (own : (validSlots s.head.cwy.slotTable).find? (fun j =>
      slotOwner s.head.cwy.slotTable j == s.cwyNode && slotSync s.head.cwy.slotTable j) = some j)
    (cold : nodeCold s.head.cwy.nodeTable s.cwyNode = true) :
    s.cwyColdstart.head.cwy.state = .coldstart ∧ s.cwyColdstart.head.cwy.cycle = 0 ∧ s.cwyColdstart.head.cwy.csFirst = true ∧
    s.cwyColdstart.head.time.ring.ns = slotStart s.head.cwy.slotTable j := by
  have starts : s.cwyColdstart = ((s.stepRingTo (slotStart s.head.cwy.slotTable j)).modCwy fun c =>
      { c.freshCycle with aligned := true, cycle := 0, csFirst := true, csCycles := 0, csHeard := [], devs := [], inNit := false
                          guardian := (s.now : Int) - slotStart c.slotTable j }).setCwy .coldstart := by
    unfold State.cwyColdstart
    dsimp only
    rw [own]
    dsimp only
    rw [cold, Bool.not_true, if_neg Bool.false_ne_true]
  have clock := ring_stepRingTo_ns (s := s) (slotStart s.head.cwy.slotTable j)
  rw [starts]
  generalize s.stepRingTo (slotStart s.head.cwy.slotTable j) = s1 at clock
  rw [cwy_setCwy, ring_time_setCwy]
  exact ⟨rfl, rfl, rfl, clock⟩

/-! ### Loss of signal and cycle points (R277, R281) -/

theorem portLos_breaks (p : CwyPort) (now : Nat) (active : s.head.cwy.state = .active) (new : p.of s.head.cwy.los = false)
    (open_ : (p.of s.head.cwy.broken && p.of s.head.cwy.sendH) = false) : ∃ s1 : State, exec (.portLos ⟨p, now⟩) s = .next (s1.cwyBreak p) ∧
      s1.head.cwy.los = p.put s.head.cwy.los true := by
  obtain ⟨s0, begun, hs0⟩ : ∃ s0 : State, (if (s.at now).ringPlace < (s.at now).cwyNit then (s.at now).cwyBegin else s.at now) = s0 ∧
      (s0.head.cwy.state = .active ∧ s0.head.cwy.los = s.head.cwy.los ∧ s0.head.cwy.broken = s.head.cwy.broken ∧
        s0.head.cwy.sendH = s.head.cwy.sendH) := by
    refine ⟨_, rfl, ?_⟩
    split
    · rw [cwy_cwyBegin, begun_eq]
      exact ⟨active, rfl, rfl, rfl⟩
    · exact ⟨active, rfl, rfl, rfl⟩
  obtain ⟨state, los, broken, sendH⟩ := hs0
  refine ⟨(s0.cwyCount (if p == .portA then 1 else 3)).modCwy fun c => { c with los := p.put c.los true }, ?_, congrArg (p.put · true) los⟩
  change execPortLos ⟨p, now⟩ s = _
  rw [execPortLos, onHead_eq]
  dsimp only
  rw [begun, state, los, new]
  have opened : ((s0.cwyCount (if p == .portA then 1 else 3)).modCwy fun c => { c with los := p.put c.los true }).head.cwy.losOpen p = true := by
    change (p.of (p.put s0.head.cwy.los true) && !(p.of s0.head.cwy.broken && p.of s0.head.cwy.sendH)) = true
    rw [CwyPort.of_put, broken, sendH, open_]
    rfl
  rw [opened]
  rfl

/-- The interrupt of a cycle point goes to each chosen tile. -/
theorem cyclePoint_active (i : Fin 8) (active : s.head.cwy.state = .active) :
    let s0 := if s.parH 0x0E 4 i.val < s.cwyNit then s.cwyBegin else s
    exec (.cyclePoint i) s = .next (s0.each s0.tileIds fun x t =>
      if (x.parH 0x0E 5 i.val).testBit t.num then x.emit (.cyclePoint t i.val s0.head.cwy.cycle x.head.time.ringSync) else x) := by
  intro s0
  have state : s0.head.cwy.state = .active := by
    dsimp only [s0]
    split
    · rw [cwy_cwyBegin, begun_eq]
      exact active
    · exact active
  change execCyclePoint i s = _
  rw [execCyclePoint, onHead_eq]
  refine congrArg _ (if_pos ?_)
  change (s0.head.cwy.state == .coldstart || s0.head.cwy.state == .active) = true
  rw [state]
  rfl

theorem emits_cyclePoint (i cycle : Nat) (x : State) (t : TileId) : State.Emits x
    (if (x.parH 0x0E 5 i).testBit t.num then x.emit (.cyclePoint t i cycle x.head.time.ringSync) else x) :=
  emits_ite (emits_emit _) (.refl x)

theorem cyclePoint_out (i cycle : Nat) {t : TileId} (l : List TileId) (ht : t ∈ l) (on : (s.parH 0x0E 5 i).testBit t.num = true) :
    Output.cyclePoint t i cycle s.head.time.ringSync ∈ (s.each l fun x t =>
      if (x.parH 0x0E 5 i).testBit t.num then x.emit (.cyclePoint t i cycle x.head.time.ringSync) else x).out := by
  induction l generalizing s with
  | nil => exact absurd ht List.not_mem_nil
  | cons u l ih =>
    rw [State.each_cons]
    by_cases e : t = u
    · subst e
      refine (emits_each (emits_cyclePoint i cycle) l _).mem ?_
      rw [if_pos on]
      exact List.mem_cons_self
    · have emitted := emits_cyclePoint i cycle s u
      have rest := ih ((List.mem_cons.mp ht).resolve_left e)
        (s := if (s.parH 0x0E 5 i).testBit u.num then s.emit (.cyclePoint u i cycle s.head.time.ringSync) else s)
        (by rw [State.parH, State.tile, emitted.tiles]; exact on)
      rwa [emitted.head] at rest

end steps

/-- Settles O46, step by step. -/
theorem causewayNodeKeepsItsSchedule : Obligations.CausewayNodeKeepsItsSchedule := by
  unfold Obligations.CausewayNodeKeepsItsSchedule
  intro s
  refine ⟨?begin, fun p f tObs now => ?frame, fun slot now active valid own => ?action,
    fun slot now active valid => ⟨slotEnd_empty active valid, slotEnd_notReady active valid⟩, fun a b runs stays => ?nit,
    fun j own cold => ?cold, fun p now active new open_ => ?los, fun i active => ?point⟩
  case begin =>
    rw [cwy_cwyBegin, Causeway.begun]
    cases h : s.head.cwy.inNit
    · exact ⟨h, rfl⟩
    · exact ⟨rfl, rfl⟩
  case frame =>
    intro s0
    have on (st : CwyState) (h : s.head.cwy.state = st) (ne : st ≠ .disabled) : s.head.cwy.state ≠ .disabled := h ▸ ne
    refine ⟨fun active valid => ?_, fun active valid => ?_, fun listen valid plain => ?_⟩
    · have state : s0.head.cwy.state = .active := state_begun.trans active
      have takes := accepted_active (f := f) tObs state
      have relayed := (emits_cwyRelay (s := s0.cwyAccept f tObs) (f := f) p).head
      have begun : s0.head.cwy.nodeTable = s.head.cwy.nodeTable ∧ s0.head.cwy.healed = s.head.cwy.healed ∧ s0.head.cwy.loop = s.head.cwy.loop := by
        dsimp only [s0]
        rw [cwy_cwyBegin, begun_eq]
        exact ⟨rfl, rfl, rfl⟩
      refine ⟨_, frameReceived_valid (on _ active (by decide)) valid, ?_, ?_, fun hop open_ => out_cwyRelay ?_ ?_⟩
      · rw [relayed]; exact takes.seen
      · rw [relayed]; exact takes.state.trans state
      · rw [hopLimit_congr (takes.nodes.trans begun.1) (takes.heal.trans begun.2.1)]; exact hop
      · rw [takes.loop, begun.2.2]; exact open_
    · rw [frameReceived_invalid (on _ active (by decide)) valid, cwyDiscard_counts (by rw [state_begun, active]; decide)]
    · obtain ⟨state, aligned, cycle⟩ := accepted_listen (s := s0) (f := f) (tObs := tObs) (state_begun.trans listen) plain
      have relayed := (emits_cwyRelay (s := s0.cwyAccept f tObs) (f := f) p).head
      refine ⟨_, frameReceived_valid (on _ listen (by decide)) valid, ?_, ?_, ?_⟩
      · rw [relayed]; exact state
      · rw [relayed]; exact aligned
      · rw [relayed]; exact cycle
  case action =>
    intro s0 put
    have begun : s0.head.cwy = { s.head.cwy with inNit := false, cycle := s.head.cwy.begun.cycle, countdown := s.head.cwy.begun.countdown } :=
      (cwy_cwyBegin (s := s.at now)).trans (begun_eq _)
    have state : s0.head.cwy.state = .active := state_begun.trans active
    have loop : s0.head.cwy.loop = s.head.cwy.loop := (congrArg Causeway.loop begun :)
    have cut : s0.head.cwy.cutLast = s.head.cwy.cutLast := (congrArg Causeway.cutLast begun :)
    have sends (x : State) (f : CwyFrame) (loop : x.head.cwy.loop = s.head.cwy.loop) (out : x.out = s.out) : (x.cwySend f).out = put f := by
      rw [(out_cwySend f).1, out, onOpenLinks, loop]
    have out : s0.out = s.out := out_begun now
    have data_frame (data : List Byte) : ¬((s0.ownFrame slot.val false false data).coldStart || (s0.ownFrame slot.val false false data).notReady) = true :=
      Bool.false_ne_true
    refine ⟨fun data ready => ⟨fun window => ?_, fun window => ?_⟩, fun empty => ⟨fun sync gen window => ?_, fun plain => ?_⟩⟩
    · refine ⟨_, slotActionPoint_owned valid own (slotFrame_ready state ready), ?_⟩
      dsimp only
      rw [if_pos window, if_neg (data_frame data)]
      refine ⟨sends _ _ loop out, ?_⟩
      rw [(out_cwySend _).2, cwy_modCwy]
      exact (congrArg (fun c : Causeway => c.txBuf.filter (·.1 != slot.val)) begun :)
    · refine ⟨_, slotActionPoint_owned valid own (slotFrame_ready state ready), ?_⟩
      dsimp only
      rw [if_neg (show ¬ s0.inWindow slot.val = true from Bool.eq_false_iff.mp window), if_neg (data_frame data)]
      obtain ⟨once, twice⟩ := cut_short (s1 := s0.modCwy fun c => { c with txBuf := c.txBuf.filter (·.1 != slot.val) }) (c := s0.head.cwy)
        (data := leBytes 1 slot.val ++ leBytes 3 0 ++ leBytes 6 s0.head.cwy.cycle) (data' := leBytes 4 0 ++ leBytes 6 s0.head.cwy.cycle)
      exact ⟨fun first => (once (cut.trans first)).imp id fun same => same.trans state, fun second => twice (cut.trans second)⟩
    · have frame : s0.slotFrame slot.val = some (s0.ownFrame slot.val false true []) := by
        rw [slotFrame_bare state empty, begun]
        exact if_pos (by rw [sync, gen]; rfl)
      refine ⟨_, slotActionPoint_owned valid own frame, ?_⟩
      dsimp only
      rw [if_pos window]
      exact sends _ _ loop out
    · refine slotActionPoint_silent ?_
      rw [slotFrame_bare state empty, begun]
      exact if_neg (by rw [plain, Bool.false_and]; exact Bool.false_ne_true)
  case nit =>
    obtain ⟨s', nit, idle⟩ := nitStart_runs a b runs stays
    exact ⟨s', nit, idle.cycle, idle.nit, idle.seen, idle.cut⟩
  case cold =>
    have starts := cwyColdstart_starts own cold
    exact ⟨fun listen => ⟨_, congrArg Host.Outcome.next (if_pos (beq_iff_eq.mpr listen)), starts⟩,
      fun backoff => ⟨_, congrArg Host.Outcome.next (if_pos (beq_iff_eq.mpr backoff)), starts⟩⟩
  case los =>
    obtain ⟨s1, breaks, los⟩ := portLos_breaks p now active new open_
    refine ⟨_, breaks, ?_⟩
    rw [cwy_cwyBreak]
    dsimp only
    rw [los]
    exact ⟨CwyPort.of_put .., CwyPort.of_put .., CwyPort.of_put .., rfl, rfl, out_cwyBreak, CwyPort.other_of_put ..⟩
  case point =>
    intro s0
    have same : s0.part = s.part ∧ s0.tiles = s.tiles ∧ s0.head.time = s.head.time := by
      dsimp only [s0]
      split
      · exact ⟨by rw [State.cwyBegin]; split <;> rfl, tiles_cwyBegin, time_cwyBegin⟩
      · exact ⟨rfl, rfl, rfl⟩
    obtain ⟨part, tiles, time⟩ := same
    have emitted := emits_each (emits_cyclePoint i.val s0.head.cwy.cycle) s0.tileIds s0
    refine ⟨_, cyclePoint_active i active, emitted.head, emitted.tiles.trans tiles, fun t ht on => ?_⟩
    rw [← time]
    refine cyclePoint_out (s := s0) i.val s0.head.cwy.cycle s0.tileIds ?_ ?_
    · exact mem_tileIds (by rw [State.hasTile, part]; exact ht)
    · rw [State.parH, State.tile, tiles]; exact on

end Sys2Proof.Machine
end

