-- ==== Sys2Proof/Proofs/CanSteps.lean ====
section
/-!
PROOFS. What the steps of a CAN controller change: its counters, its message buffers, and nothing that a frame's filter reads
(R284 to R291).
-/

namespace Sys2Proof.Machine

/-! ### A controller and its buffers -/

section controller

variable {s s' : State} {t u : TileId} {c : Fin 2}

@[simp] theorem canCtl_modCan (f : CanCtl → CanCtl) : (s.modCan t c f).canCtl t c = f (s.canCtl t c) := by
  rw [State.canCtl, State.modCan, State.tile_modTile_self]
  dsimp only
  rw [vmod_get, if_pos rfl]
  rfl

theorem State.Told.can (h : State.Told s s') (u : TileId) : (s'.tile u).can = (s.tile u).can := by
  rw [h.tiles u]

theorem State.Told.canCtl (h : State.Told s s') : s'.canCtl t c = s.canCtl t c := by
  rw [State.canCtl, h.can t]
  rfl

theorem State.Told.canBuf (h : State.Told s s') {b : Fin 64} : s'.canBuf t c b = s.canBuf t c b :=
  congrArg (fun x : CanCtl => (x.bufs)[b]) h.canCtl

/-- A message buffer changed leaves the controller's other fields. -/
theorem canCtl_modBuf (b : Fin 64) (f : CanBuffer → CanBuffer) :
    (s.modBuf t c b f).canCtl t c = { s.canCtl t c with bufs := vmod (s.canCtl t c).bufs b f } :=
  canCtl_modCan _

theorem canBuf_modBuf (b b' : Fin 64) (f : CanBuffer → CanBuffer) :
    (s.modBuf t c b f).canBuf t c b' = if b = b' then f (s.canBuf t c b) else s.canBuf t c b' := by
  rw [State.canBuf, canCtl_modBuf]
  exact vmod_get ..

@[simp] theorem canBuf_modBuf_self (b : Fin 64) (f : CanBuffer → CanBuffer) :
    (s.modBuf t c b f).canBuf t c b = f (s.canBuf t c b) := (canBuf_modBuf b b f).trans (if_pos rfl)

theorem canBuf_modBuf_ne {b b' : Fin 64} (h : b' ≠ b) (f : CanBuffer → CanBuffer) :
    (s.modBuf t c b f).canBuf t c b' = s.canBuf t c b' := (canBuf_modBuf b b' f).trans (if_neg (Ne.symm h))

/-- A change of a buffer is what it gives for the buffer that stands there. -/
theorem modBuf_congr {b : Fin 64} {f g : CanBuffer → CanBuffer} (h : f (s.canBuf t c b) = g (s.canBuf t c b)) :
    s.modBuf t c b f = s.modBuf t c b g := by
  have bufs : vmod (s.canCtl t c).bufs b f = vmod (s.canCtl t c).bufs b g := congrArg (vset (s.canCtl t c).bufs b) h
  have ctl : vmod (s.tile t).can c (fun x => { x with bufs := vmod x.bufs b f }) =
      vmod (s.tile t).can c (fun x => { x with bufs := vmod x.bufs b g }) :=
    congrArg (fun v => vset (s.tile t).can c { s.canCtl t c with bufs := v }) bufs
  change s.modTile t (fun tl => { tl with can := vmod tl.can c fun x => { x with bufs := vmod x.bufs b f } }) = s.modTile t fun tl =>
    { tl with can := vmod tl.can c fun x => { x with bufs := vmod x.bufs b g } }
  exact State.modTile_congr s t _ _ (congrArg (fun v => { s.tile t with can := v }) ctl)

/-! ### What a bus step leaves of a tile -/

theorem sent_modCan (f : CanCtl → CanCtl) : Tile.Sent (s.tile u) ((s.modCan t c f).tile u) := by
  rw [State.modCan, State.tile_modTile]
  split
  · rfl
  · exact .refl _

theorem Tile.Sent.inForce {a b : Tile} (h : Tile.Sent a b) : b.inForce = a.inForce := by rw [h]

theorem Tile.Sent.canMode {a b : Tile} (h : Tile.Sent a b) : b.canMode = a.canMode := by
  funext c
  rw [Tile.canMode, Tile.parN, Tile.par, h.inForce]
  rfl

theorem Tile.Sent.bufTakes {a b : Tile} (h : Tile.Sent a b) : b.bufTakes = a.bufTakes := by
  funext k f
  rw [h]
  rfl

end controller

/-! ### The error counters (R290) -/

section count

variable {s : State} {t u : TileId} {c : Fin 2} (f : CanCtl → CanCtl)

theorem told_canStateEvent : State.Told s (s.canStateEvent t c) := told_raise (.refl s)

theorem told_canCount : State.Told (s.modCan t c fun x => { f x with state := (f x).confined }) (s.canCount t c f) := by
  rw [State.canCount]
  exact told_ite (fun _ => .refl _) fun _ => told_canStateEvent

@[simp] theorem canCtl_canCount : (s.canCount t c f).canCtl t c = { f (s.canCtl t c) with state := (f (s.canCtl t c)).confined } :=
  (told_canCount f).canCtl.trans (canCtl_modCan _)

theorem canBuf_canCount (h : (f (s.canCtl t c)).bufs = (s.canCtl t c).bufs) (b : Fin 64) :
    (s.canCount t c f).canBuf t c b = s.canBuf t c b := by
  rw [State.canBuf, canCtl_canCount, State.canBuf]
  exact congrArg (fun v : Vector CanBuffer 64 => v[b]) h

theorem sent_canCount : Tile.Sent (s.tile u) ((s.canCount t c f).tile u) := (sent_modCan _).trans ((told_canCount f).sent u)

theorem CanCtl.confined_ne_sleeping (x : CanCtl) : x.confined ≠ .sleeping := by
  unfold CanCtl.confined
  split
  · decide
  · split <;> decide

end count

/-! ### A stored frame (R286) -/

section store

variable {s : State} {t : TileId} {c : Fin 2} {b : Fin 64}

/-- Delivery of a buffer's content locks at most the buffer. -/
theorem canBuf_canDeliver (f : CanFrame) (b' : Fin 64) : (s.canDeliver t c b f).canBuf t c b' = s.canBuf t c b' ∨
    b' = b ∧ (s.canDeliver t c b f).canBuf t c b' = { s.canBuf t c b with locked := true } := by
  have locks : (s.modBuf t c b fun x => { x with locked := true }).canBuf t c b' = s.canBuf t c b' ∨
      b' = b ∧ (s.modBuf t c b fun x => { x with locked := true }).canBuf t c b' = { s.canBuf t c b with locked := true } := by
    by_cases h : b' = b
    · subst h
      exact .inr ⟨rfl, canBuf_modBuf_self ..⟩
    · exact .inl (canBuf_modBuf_ne h _)
  unfold State.canDeliver
  dsimp only
  split
  · split
    · exact .inl rfl
    · exact locks
  · split
    · exact .inl rfl
    · have told := told_raise (t := t) (code := 0x50) (data := leBytes 1 c.val ++ leBytes 1 b.val ++ leBytes 1 (s.canBuf t c b).gen.toNat)
        (logged := false) (src := none) (.refl (((s.draw.2.draw.2.modBuf t c b fun x => { x with locked := true }).dma
          ((s.tile t).rxArea c + 80 * b.val) (leInt 8 s.draw.1 ++ (f.data ++ leInt 64 s.draw.2.draw.1).take 64 ++ leBytes 8 0)).dma
          ((s.tile t).rxArea c + 80 * b.val + Config.canGenByte % 8) (leBytes 1 (s.canBuf t c b).gen.toNat)))
      rw [told.canBuf]
      exact locks

theorem canStore_self (f : CanFrame) (ts : Word) : ((s.canStore t c b f ts).canBuf t c b).content = some (f, ts) ∧
    ((s.canStore t c b f ts).canBuf t c b).gen = (s.canBuf t c b).gen + 1 ∧
    ((s.canStore t c b f ts).canBuf t c b).shadowEnt = (s.canBuf t c b).shadowEnt := by
  rw [State.canStore]
  rcases canBuf_canDeliver (s := s.modBuf t c b fun x => { x with content := some (f, ts), gen := x.gen + 1 }) (t := t) (c := c) (b := b) f b
    with e | ⟨-, e⟩ <;> rw [e, canBuf_modBuf_self] <;> exact ⟨rfl, rfl, rfl⟩

theorem canStore_ne (f : CanFrame) (ts : Word) {b' : Fin 64} (h : b' ≠ b) : (s.canStore t c b f ts).canBuf t c b' = s.canBuf t c b' := by
  rw [State.canStore]
  rcases canBuf_canDeliver (s := s.modBuf t c b fun x => { x with content := some (f, ts), gen := x.gen + 1 }) (t := t) (c := c) (b := b) f b'
    with e | ⟨same, -⟩
  · rw [e, canBuf_modBuf_ne h]
  · exact absurd same h

end store

/-! ### The end of an attempt (R287 to R289) -/

section attempt

variable {s : State} {t : TileId} {c : Fin 2} {b : Fin 64}

/-- The buffer's content leaves arbitration, and another, or none, is pending. -/
def State.canClear (s : State) (t : TileId) (c : Fin 2) (b : Fin 64) (p : Option (CanFrame × BitVec 4 × Bool × Option HostCmd)) : State :=
  s.modBuf t c b fun x => { x with inArb := none, heldTx := none, abortWait := false, pending := p }

variable {f : CanFrame} {g : BitVec 4} {once : Bool} {cmd : Option HostCmd} {ts : Word} (arb : (s.canBuf t c b).inArb = some (f, g, once, cmd, ts))
include arb

theorem canAttemptOver_sent : s.canAttemptOver t c b true = (s.canClear t c b (s.canBuf t c b).heldTx).canDone cmd 0 g ts := by
  rw [State.canAttemptOver]
  dsimp only
  rw [arb]
  rfl

variable (stays : (s.canBuf t c b).abortWait = false) (none : (s.canBuf t c b).heldTx = none)
include stays none

theorem canAttemptOver_once (single : once = true) : s.canAttemptOver t c b false = (s.canClear t c b .none).canDone cmd 0x24 g := by
  rw [State.canAttemptOver]
  dsimp only
  rw [arb, stays, none, single]
  rfl

theorem canAttemptOver_again (more : once = false) : s.canAttemptOver t c b false = s.canClear t c b (some (f, g, once, cmd)) := by
  rw [State.canAttemptOver]
  dsimp only
  rw [arb, stays, none, more]
  rfl

end attempt

/-! ### The choice of the next frame (R287) -/

section arbitration

variable {x : CanCtl} {b : Fin 64} {f : CanFrame} {r : BitVec 4 × Bool × Option HostCmd}

/-- One buffer looked at in the choice of the next frame. -/
def CanCtl.better (x : CanCtl) (best : Option (Fin 64)) (b : Fin 64) : Option (Fin 64) :=
  match (x.bufs[b]).pending, best with
  | none, _ => best
  | some _, none => some b
  | some (f, _), some k =>
    (match (x.bufs[k]).pending with
     | some (g, _) => if canPriority f < canPriority g then some b else best
     | none => some b)

theorem nextTx_eq : x.nextTx = bufIds.foldl x.better none := rfl

variable (mine : (x.bufs[b]).pending = some (f, r))
  (first : ∀ b' f' r', (x.bufs[b']).pending = some (f', r') → b' ≠ b → canPriority f < canPriority f' ∨ (canPriority f = canPriority f' ∧ b < b'))
include first

/-- Before it, none or a buffer of a higher identifier is the best. -/
theorem better_before (l : List (Fin 64)) (below : ∀ k ∈ l, k < b) :
    l.foldl x.better none = none ∨ ∃ k f' r', l.foldl x.better none = some k ∧ (x.bufs[k]).pending = some (f', r') ∧ canPriority f < canPriority f' := by
  induction l using List.reverseRecOn with
  | nil => exact .inl rfl
  | append_singleton l k ih =>
    have before := ih fun k' h => below k' (List.mem_append_left _ h)
    rw [List.foldl_append, List.foldl_cons, List.foldl_nil]
    generalize l.foldl x.better none = best at before ⊢
    cases pend : (x.bufs[k]).pending with
    | none =>
      have kept : x.better best k = best := by
        unfold CanCtl.better
        rw [pend]
      rw [kept]
      exact before
    | some p =>
      have under : k < b := below k (by simp)
      have worse : canPriority f < canPriority p.1 := by
        rcases first k p.1 p.2 pend (ne_of_lt under) with less | ⟨-, above⟩
        · exact less
        · exact absurd above (lt_asymm under)
      have new : x.better best k = some k ∨ x.better best k = best ∧ best ≠ none := by
        unfold CanCtl.better
        rw [pend]
        split
        · contradiction
        · exact .inl rfl
        · split
          · split
            · exact .inl rfl
            · exact .inr ⟨rfl, Option.some_ne_none _⟩
          · exact .inl rfl
      rcases new with e | ⟨e, held⟩
      · exact .inr ⟨k, p.1, p.2, e, pend, worse⟩
      · rw [e]
        exact before

include mine

/-- The best buffer, once found, stays the best. -/
theorem better_kept (l : List (Fin 64)) : l.foldl x.better (some b) = some b := by
  induction l with
  | nil => rfl
  | cons k l ih =>
    have kept : x.better (some b) k = some b := by
      unfold CanCtl.better
      cases pend : (x.bufs[k]).pending with
      | none => rfl
      | some p =>
        dsimp only
        rw [mine]
        refine if_neg ?_
        by_cases h : k = b
        · subst h
          rw [pend] at mine
          cases mine
          exact Nat.lt_irrefl _
        · rcases first k p.1 p.2 pend h with less | ⟨same, -⟩ <;> omega
    rw [List.foldl_cons, kept, ih]

theorem nextTx_first : x.nextTx = some b := by
  obtain ⟨pre, post, split⟩ := List.append_of_mem (List.mem_finRange b)
  have sorted : (pre ++ b :: post).Pairwise (· < ·) := split ▸ List.pairwise_lt_finRange 64
  have below : ∀ k ∈ pre, k < b := fun k h => (List.pairwise_append.mp sorted).2.2 k h b List.mem_cons_self
  have taken : x.better (pre.foldl x.better none) b = some b := by
    rcases better_before first pre below with e | ⟨k, f', r', e, pend, worse⟩
    · rw [e]
      unfold CanCtl.better
      rw [mine]
    · rw [e]
      unfold CanCtl.better
      rw [mine]
      dsimp only
      rw [pend]
      exact if_pos worse
  rw [nextTx_eq, bufIds, split, List.foldl_append, List.foldl_cons, taken, better_kept mine first]

end arbitration

end Sys2Proof.Machine
end

