-- ==== Sys2Proof/Proofs/CanBuses.lean ====
section
/-!
PROOFS. A CAN controller receives, sends, counts its errors, and wakes, and its commands act (R284 to R291, R338).
-/

namespace Sys2Proof.Machine

/-! ### Reception (R285, R286) -/

section receive

variable {s : State} {t : TileId} {c : Fin 2} (ht : s.hasTile t = true)
include ht

/-- A received frame first lowers the receive errors, which changes no buffer and no filter. -/
theorem canFrameReceived_counted (f : CanRx) (on : s.canOn t c false = true) : ∃ s1 : State,
    (∀ b, s1.canBuf t c b = s.canBuf t c b) ∧
    exec (.canFrameReceived t c f) s = .next
      (match bufIds.find? fun b => (s.tile t).bufTakes (s.canBuf t c b) f.frame with
       | none => s1
       | some b =>
         if (s1.canBuf t c b).locked then
           s1.modBuf t c b fun x =>
             { x with shadowEnt := some (f.frame, f.sof)
                      overrun := if x.shadowEnt.isSome then sat32 (x.overrun + 1) else x.overrun }
         else s1.canStore t c b f.frame f.sof) := by
  change ∃ s1 : State, _ ∧ execCanFrameReceived t c f s = _
  rw [execCanFrameReceived, onTile_of t s _ ht]
  dsimp only
  rw [if_neg (by rw [on]; exact Bool.false_ne_true)]
  have drawn : (if (s.canCtl t c).rxErrs > 127 then s.draw else (0, s)).2.tile t = s.tile t := by split <;> rfl
  generalize (if (s.canCtl t c).rxErrs > 127 then s.draw else (0, s)) = d at drawn ⊢
  generalize counted : (d.2.canCount t c fun x => { x with rxErrs := if x.rxErrs > 127 then 119 + (d.1 % 9).toNat else x.rxErrs - 1 }) = s1
  have bufs (b : Fin 64) : s1.canBuf t c b = s.canBuf t c b := by
    rw [← counted, canBuf_canCount _ rfl b, State.canBuf, State.canCtl, drawn]
    rfl
  have takes : (s1.tile t).bufTakes = (s.tile t).bufTakes := by
    rw [← counted, (sent_canCount _).bufTakes, drawn]
  refine ⟨s1, bufs, ?_⟩
  simp only [bufs, takes] <;> rfl

theorem canBufferLockEnd_of {b : Fin 64} (svc : (s.tile t).die.svc = true) (locked : (s.canBuf t c b).locked = true) :
    exec (.canBufferLockEnd t c b) s = .next (
      let s1 := s.modBuf t c b fun x => { x with locked := false, shadowEnt := none }
      match (s.canBuf t c b).shadowEnt with
      | some (f, ts) => s1.canStore t c b f ts
      | none => s1) := by
  change execCanBufferLockEnd t c b s = _
  rw [execCanBufferLockEnd, onTile_of t s _ ht]
  dsimp only
  rw [locked, svc]
  rfl

end receive

/-! ### Arbitration and the end of an attempt (R287 to R290) -/

section send

variable {s : State} {t : TileId} {c : Fin 2} {b : Fin 64} (ht : s.hasTile t = true)
include ht

theorem canArbitrationStart_first {f : CanFrame} {g : BitVec 4} {o : Bool} {h : Option HostCmd} (on : s.canOn t c true = true)
    (idle : ∀ b', (s.canBuf t c b').inArb = none) (mine : (s.canBuf t c b).pending = some (f, g, o, h))
    (first : ∀ b' f' r, (s.canBuf t c b').pending = some (f', r) → b' ≠ b →
      canPriority f < canPriority f' ∨ (canPriority f = canPriority f' ∧ b < b')) :
    exec (.canArbitrationStart t c) s = .next (s.modBuf t c b fun k => { k with pending := none, inArb := some (f, g, o, h, s.ts) }) := by
  have free : (bufIds.any fun b => (((s.canCtl t c).bufs)[b]).inArb.isSome) = false :=
    List.any_eq_false.mpr fun b _ => by
      change ¬ (s.canBuf t c b).inArb.isSome = true
      rw [idle b]
      exact Bool.false_ne_true
  change execCanArbitrationStart t c s = _
  rw [execCanArbitrationStart, onTile_of t s _ ht]
  dsimp only
  rw [on, free, nextTx_first mine first]
  refine congrArg _ (modBuf_congr ?_)
  rw [mine]
  rfl

variable {f : CanFrame} {g : BitVec 4} {once : Bool} {cmd : Option HostCmd} {ts : Word}
  (at_ : (bufIds.find? fun b => (s.canBuf t c b).inArb.isSome) = some b) (arb : (s.canBuf t c b).inArb = some (f, g, once, cmd, ts))
include at_

theorem canTxAttemptEnd_lost (e : CanErr) : exec (.canTxAttemptEnd t c .lostArbitration e) s = .next (s.canAttemptOver t c b false) := by
  change execCanTxAttemptEnd t c .lostArbitration e s = _
  rw [execCanTxAttemptEnd, onTile_of t s _ ht, at_]

theorem canTxAttemptEnd_error (e : CanErr) : exec (.canTxAttemptEnd t c .errorFrame e) s =
    .next ((s.canAttemptOver t c b false).canCount t c fun x =>
      if x.state = .errorPassive && e = .ack then x.countErr e else { x.countErr e with txErrs := (x.countErr e).txErrs + 8 }) := by
  change execCanTxAttemptEnd t c .errorFrame e s = _
  rw [execCanTxAttemptEnd, onTile_of t s _ ht, at_]

include arb

theorem canTxAttemptEnd_acknowledged (e : CanErr) : exec (.canTxAttemptEnd t c .acknowledged e) s =
    .next (((s.emit (.can t c { f with brs := f.brs && (s.tile t).switches c, esi := f.fd && (s.canCtl t c).state == .errorPassive })).canAttemptOver
      t c b true).canCount t c fun x => { x with txErrs := x.txErrs - 1 }) := by
  change execCanTxAttemptEnd t c .acknowledged e s = _
  rw [execCanTxAttemptEnd, onTile_of t s _ ht, at_]
  dsimp only
  rw [arb]
  rfl

end send

/-! ### What an attempt leaves (R288 to R290) -/

section attempt

variable {s : State} {t : TileId} {c : Fin 2} {b : Fin 64} {p : Option (CanFrame × BitVec 4 × Bool × Option HostCmd)}
  {cmd : Option HostCmd} {status : Nat} {g : BitVec 4} {ts : Word}

/-- What follows an attempt over leaves the counters, and every other buffer. -/
theorem canCtl_canClear : (s.canClear t c b p).canCtl t c = { s.canCtl t c with bufs := ((s.canClear t c b p).canCtl t c).bufs } := by
  rw [State.canClear, canCtl_modBuf]

theorem canBuf_canClear : (s.canClear t c b p).canBuf t c b =
    { s.canBuf t c b with inArb := none, heldTx := none, abortWait := false, pending := p } := canBuf_modBuf_self ..

/-- An acknowledged frame leaves, what was held is pending, and one transmit error is forgiven. -/
theorem acknowledged_leaves {f : CanFrame} {once : Bool} {o : Output} (arb : (s.canBuf t c b).inArb = some (f, g, once, cmd, ts)) :
    let s' := ((s.emit o).canAttemptOver t c b true).canCount t c fun x => { x with txErrs := x.txErrs - 1 }
    o ∈ s'.out ∧ (s'.canBuf t c b).inArb = none ∧ (s'.canBuf t c b).pending = (s.canBuf t c b).heldTx ∧
      (s'.canCtl t c).txErrs = (s.canCtl t c).txErrs - 1 ∧ ∀ b', b' ≠ b → s'.canBuf t c b' = s.canBuf t c b' := by
  intro s'
  have out : o ∈ s'.out := mem_out_later (later_canCount (later_canAttemptOver (State.Later.refl (s.emit o)))) List.mem_cons_self
  have ended := canAttemptOver_sent (s := s.emit o) arb
  have told := told_canDone (s := (s.emit o).canClear t c b (s.canBuf t c b).heldTx) cmd 0 g ts
  have buf (b' : Fin 64) : s'.canBuf t c b' = ((s.emit o).canClear t c b (s.canBuf t c b).heldTx).canBuf t c b' := by
    rw [canBuf_canCount _ rfl, ended]
    exact told.canBuf
  refine ⟨out, ?_, ?_, ?_, fun b' h => (buf b').trans (canBuf_modBuf_ne h _)⟩
  · rw [buf, canBuf_canClear]
  · rw [buf, canBuf_canClear]
  · rw [canCtl_canCount, ended]
    change ((((s.emit o).canClear t c b (s.canBuf t c b).heldTx).canDone cmd 0 g ts).canCtl t c).txErrs - 1 = _
    rw [told.canCtl, canCtl_canClear]
    rfl

theorem errs_countErr (x : CanCtl) (e : CanErr) : ((x.countErr e).errs)[canErrIdx e] = sat32 ((x.errs)[canErrIdx e] + 1) :=
  (vmod_get ..).trans (if_pos rfl)

/-- An error frame counts the error and 8, and the frame is pending again. -/
theorem errorFrame_counts {f : CanFrame} {once : Bool} (e : CanErr) (arb : (s.canBuf t c b).inArb = some (f, g, once, cmd, ts))
    (stays : (s.canBuf t c b).abortWait = false) (none : (s.canBuf t c b).heldTx = none) (more : once = false)
    (adds : (s.canCtl t c).state ≠ .errorPassive ∨ e ≠ .ack) :
    let s' := (s.canAttemptOver t c b false).canCount t c fun x =>
      if x.state = .errorPassive && e = .ack then x.countErr e else { x.countErr e with txErrs := (x.countErr e).txErrs + 8 }
    (s'.canCtl t c).txErrs = (s.canCtl t c).txErrs + 8 ∧ (s'.canBuf t c b).pending = some (f, g, once, cmd) ∧
      ((s'.canCtl t c).errs)[canErrIdx e] = sat32 (((s.canCtl t c).errs)[canErrIdx e] + 1) := by
  have plain (x : CanCtl) (same : x.state = (s.canCtl t c).state) : ¬ (x.state = .errorPassive && e = .ack : Bool) = true := by
    rw [same]
    simpa only [Bool.and_eq_true, decide_eq_true_eq, not_and_or] using adds
  rw [canAttemptOver_again arb stays none more]
  generalize cleared : s.canClear t c b (some (f, g, once, cmd)) = s1
  have ctl : s1.canCtl t c = { s.canCtl t c with bufs := (s1.canCtl t c).bufs } := cleared ▸ canCtl_canClear
  have buf : (s1.canBuf t c b).pending = some (f, g, once, cmd) := by rw [← cleared, canBuf_canClear]
  have state : (s1.canCtl t c).state = (s.canCtl t c).state := (congrArg CanCtl.state ctl :)
  refine ⟨?_, ?_, ?_⟩
  · rw [canCtl_canCount, if_neg (plain _ state)]
    exact (congrArg (fun x : CanCtl => x.txErrs + 8) ctl :)
  · rw [canBuf_canCount, buf]
    rw [if_neg (plain _ state)]
    rfl
  · rw [canCtl_canCount, if_neg (plain _ state)]
    exact (errs_countErr _ e).trans (congrArg (fun x : CanCtl => sat32 ((x.errs)[canErrIdx e] + 1)) ctl :)

end attempt

/-! ### Errors and bus-off (R290) -/

section errors

variable {s : State} {t : TileId} {c : Fin 2} (ht : s.hasTile t = true)
include ht

theorem canReceiveError_counts {e : CanErr} (on : s.canOn t c false = true) (ack : e ≠ .ack) : ∃ s', exec (.canReceiveError t c e) s = .next s' ∧
    ((s'.canCtl t c).rxErrs = (s.canCtl t c).rxErrs + 1 ∨ (e = .bit ∧ (s'.canCtl t c).rxErrs = (s.canCtl t c).rxErrs + 8)) ∧
    ((s'.canCtl t c).errs)[canErrIdx e] = sat32 (((s.canCtl t c).errs)[canErrIdx e] + 1) ∧
    (s'.canCtl t c).state = (s'.canCtl t c).confined ∧ ∀ b, s'.canBuf t c b = s.canBuf t c b := by
  have runs : exec (.canReceiveError t c e) s = .next (
      let d := if e = .bit then s.draw else (0, s)
      d.2.canCount t c fun x => { x.countErr e with rxErrs := (x.countErr e).rxErrs + if d.1 % 2 = 1 then 8 else 1 }) := by
    change execCanReceiveError t c e s = _
    rw [execCanReceiveError, onTile_of t s _ ht]
    dsimp only
    rw [if_neg (by rw [on, decide_eq_false ack]; exact Bool.false_ne_true)]
  have drawn : (if e = .bit then s.draw else (0, s)).2.canCtl t c = s.canCtl t c := by split <;> rfl
  have once : (if e = .bit then s.draw else (0, s)).1 % 2 = 1 → e = .bit := fun odd => by
    by_contra other
    rw [if_neg other] at odd
    exact absurd (show (0 : Int) % 2 = 1 from odd) (by decide)
  refine ⟨_, runs, ?_⟩
  dsimp only
  generalize (if e = .bit then s.draw else (0, s)) = d at drawn once ⊢
  have counted := canCtl_canCount (s := d.2) (t := t) (c := c) fun x =>
    { x.countErr e with rxErrs := (x.countErr e).rxErrs + if d.1 % 2 = 1 then 8 else 1 }
  rw [drawn] at counted
  rw [counted]
  refine ⟨?_, errs_countErr _ e, rfl, fun b => (canBuf_canCount _ rfl b).trans ?_⟩
  · by_cases odd : d.1 % 2 = 1
    · exact .inr ⟨once odd, congrArg ((s.canCtl t c).rxErrs + ·) (if_pos odd)⟩
    · exact .inl (congrArg ((s.canCtl t c).rxErrs + ·) (if_neg odd))
  · rw [State.canBuf, drawn]
    rfl

theorem canBusOffRecovery_clears (off : (s.canCtl t c).state = .busOff) (auto : (s.tile t).par 0x0F 7 c.val = 0) :
    exec (.canBusOffRecovery t c) s = .next (s.canCount t c fun x => { x with txErrs := 0, rxErrs := 0 }) := by
  change execCanBusOffRecovery t c s = _
  rw [execCanBusOffRecovery, onTile_of t s _ ht, off, auto]
  rfl

end errors

/-! ### Sleep and wake (R291) -/

section wake

variable {s : State} {t : TileId} {c : Fin 2}

theorem SMap.get_set_self_of_ne (m : SMap) (k : Nat) {v d : Int} (h : v ≠ d) : (m.set k v d).get k d = v := by
  induction m with
  | nil => simp [SMap.set, SMap.get, h]
  | cons e m ih =>
    unfold SMap.set
    split_ifs with hk hlt
    · simp [SMap.get]
    · simp [SMap.get]
    · simp [SMap.get, hk, hlt, ih]

/-- The mode of a controller once set to NORMAL. -/
theorem canMode_normal : (((s.modTile t fun tl => { tl with written := pSet tl.written (pKey 0x0F 0 c.val none) 1
                                                            inForce := pSet tl.inForce (pKey 0x0F 0 c.val none) 1 }).tile t).canMode c) = 1 := by
  have other : (1 : Int) ≠ pDefault (pKey 0x0F 0 c.val none) := by
    revert c
    decide
  rw [Tile.canMode, Tile.parN, Tile.par, State.tile_modTile_self]
  exact congrArg Int.toNat (SMap.get_set_self_of_ne _ _ other)

/-- The mode set to NORMAL drives STB low and leaves the buffers; the controller does not sleep. -/
theorem canModeSet_normal (mode : (s.tile t).canMode c = 1) : Tile.Sent (s.tile t) ((s.canModeSet t c).tile t) ∧
    ((s.canModeSet t c).canCtl t c).stb = false ∧ ((s.canModeSet t c).canCtl t c).state ≠ .sleeping ∧
    ∀ b, (s.canModeSet t c).canBuf t c b = s.canBuf t c b := by
  rw [State.canModeSet]
  dsimp only
  rw [mode, if_neg (by decide), if_pos rfl]
  generalize set : (s.modCan t c fun x => { x with stb := false, wakeErrs := 0, state := if x.state = .sleeping then x.confined else x.state }) = s1
  have sent : Tile.Sent (s.tile t) (s1.tile t) := set ▸ sent_modCan _
  have ctl : s1.canCtl t c = { s.canCtl t c with stb := false, wakeErrs := 0, state := if (s.canCtl t c).state = .sleeping then (s.canCtl t c).confined else (s.canCtl t c).state } :=
    set ▸ canCtl_modCan _
  have bufs (b : Fin 64) : s1.canBuf t c b = s.canBuf t c b := by
    rw [State.canBuf, ctl]
    rfl
  split
  · refine ⟨sent.trans (sent_canCount _), ?_, ?_, fun b => (canBuf_canCount _ rfl b).trans (bufs b)⟩
    · rw [canCtl_canCount, ctl]
    · rw [canCtl_canCount]
      exact CanCtl.confined_ne_sleeping { s1.canCtl t c with txErrs := 0, rxErrs := 0 }
  · refine ⟨sent, ?_, ?_, bufs⟩
    · rw [ctl]
    · rw [ctl]
      dsimp only
      split
      · exact CanCtl.confined_ne_sleeping _
      · assumption

theorem canWoken_wakes (cause id : Nat) : ((s.canWoken t c cause id).tile t).canMode c = 1 ∧ ((s.canWoken t c cause id).canCtl t c).stb = false ∧
    ((s.canWoken t c cause id).canCtl t c).state ≠ .sleeping ∧ ∀ b, (s.canWoken t c cause id).canBuf t c b = s.canBuf t c b := by
  rw [State.canWoken]
  have can : (s.modTile t fun tl => { tl with written := pSet tl.written (pKey 0x0F 0 c.val none) 1
                                              inForce := pSet tl.inForce (pKey 0x0F 0 c.val none) 1 }).canCtl t c = s.canCtl t c := by
    rw [State.canCtl, State.tile_modTile_self]
    rfl
  have mode := canMode_normal (s := s) (t := t) (c := c)
  generalize (s.modTile t fun tl => { tl with written := pSet tl.written (pKey 0x0F 0 c.val none) 1
                                              inForce := pSet tl.inForce (pKey 0x0F 0 c.val none) 1 }) = s0 at can mode ⊢
  obtain ⟨sent, stb, awake, bufs⟩ := canModeSet_normal mode
  have told := told_raise (t := t) (code := 0x52) (data := leBytes 1 c.val ++ leBytes 1 cause ++ leBytes 2 0 ++ leBytes 4 id) (logged := true)
    (src := none) (.refl (s0.canModeSet t c))
  refine ⟨?_, ?_, ?_, fun b => ?_⟩
  · rw [(told.sent t).canMode, sent.canMode, mode]
  · rw [told.canCtl, stb]
  · rw [told.canCtl]
    exact awake
  · rw [told.canBuf, bufs, State.canBuf, can]
    rfl

variable (ht : s.hasTile t = true) (svc : (s.tile t).die.svc = true)
include ht svc

theorem canWake_dominant (mode : (s.tile t).canMode c = 3) : exec (.canWake t c .dominantLevel) s = .next (s.canWoken t c 0 0) := by
  change execCanWake t c .dominantLevel s = _
  rw [execCanWake, onTile_of t s _ ht]
  dsimp only
  rw [svc, mode]
  rfl

theorem canWake_frame (mode : (s.tile t).canMode c = 4) {f : CanFrame} (wakes : (s.tile t).isWakeFrame c f = true) :
    exec (.canWake t c (.wakeFrame f)) s = .next (s.canWoken t c 1 f.id.toNat) := by
  change execCanWake t c (.wakeFrame f) s = _
  rw [execCanWake, onTile_of t s _ ht]
  dsimp only
  rw [svc, mode]
  exact congrArg _ (if_pos wakes)

theorem canWake_malformed (mode : (s.tile t).canMode c = 4) : exec (.canWake t c .malformed) s =
    .next (if 32 ≤ (s.canCtl t c).wakeErrs + 1 then s.canWoken t c 2 0 else s.modCan t c fun x => { x with wakeErrs := x.wakeErrs + 1 }) := by
  change execCanWake t c .malformed s = _
  rw [execCanWake, onTile_of t s _ ht]
  dsimp only
  rw [svc, mode]
  rfl

end wake

/-! ### CAN_TX and CAN_ABORT (R285, R288, R289, R338) -/

section commands

variable {s : State} {h : HostCmd} {c : Fin 2} {b : Fin 64}

/-- A sound frame for a HOST TX buffer of a controller in NORMAL is loaded. -/
theorem canTx_loads {p : CanTxPayload} (hd : s.Due h 0x60) (dma : h.dmaFault = false) (hc : p.controller = c.val) (hb : p.buffer = b.val)
    (wf : p.frame.wf = true) (len : p.frame.fd = true ∨ p.frame.dlc.val ≤ 8) (short : p.address ≠ 0 ∨ p.frame.data.length ≤ 32)
    (host : (s.canBuf h.tile c b).sedge = none) (tx : (s.canBuf h.tile c b).tx = true) (mode : (s.tile h.tile).canMode c = 1) :
    exec (.canTx h p) s = .next (s.canLoad h.tile c b p.frame p.singleShot (some h)) := by
  change execCanTx h p s = _
  rw [execCanTx, onCmd_of_due hd]
  dsimp only
  rw [dma, Bool.false_and, if_neg Bool.false_ne_true, dif_pos ⟨hc ▸ c.isLt, hb ▸ b.isLt⟩]
  have ec (l : p.controller < 2) : (⟨p.controller, l⟩ : Fin 2) = c := Fin.ext hc
  have eb (l : p.buffer < 64) : (⟨p.buffer, l⟩ : Fin 64) = b := Fin.ext hb
  rw [ec, eb, host, tx, mode, wf]
  have fits : (!p.frame.fd && decide (p.frame.dlc.val > 8)) = false := by
    rcases len with fd | le
    · rw [fd]; rfl
    · rw [decide_eq_false (Nat.not_lt.mpr le), Bool.and_false]
  have inline : (p.address == 0 && decide (p.frame.data.length > 32)) = false := by
    rcases short with far | le
    · rw [beq_eq_false_iff_ne.mpr far]; rfl
    · rw [decide_eq_false (Nat.not_lt.mpr le), Bool.and_false]
  rw [fits, inline]
  rfl

theorem canLoad_pending {f : CanFrame} {once : Bool} {cmd : Option HostCmd} {t : TileId} (idle : (s.canBuf t c b).inArb = none)
    (free : (s.canBuf t c b).pending = none) : s.canLoad t c b f once cmd = s.modBuf t c b fun x =>
      { x with gen := (s.canBuf t c b).gen + 1, pending := some (f, (s.canBuf t c b).gen + 1, once, cmd), abortWait := false } := by
  rw [State.canLoad]
  dsimp only
  rw [idle, free]
  exact modBuf_congr rfl

theorem canLoad_held {f : CanFrame} {once : Bool} {cmd : Option HostCmd} {t : TileId} (busy : (s.canBuf t c b).inArb.isSome = true)
    (free : (s.canBuf t c b).heldTx = none) : s.canLoad t c b f once cmd = s.modBuf t c b fun x =>
      { x with gen := (s.canBuf t c b).gen + 1, heldTx := some (f, (s.canBuf t c b).gen + 1, once, cmd) } := by
  rw [State.canLoad]
  dsimp only
  rw [if_pos busy, free]
  exact modBuf_congr rfl

/-- CAN_ABORT withdraws what has not started, of the buffer that it names. -/
theorem canAbort_withdraws (hd : s.Due h 0x61) (host : (s.canBuf h.tile c b).sedge = none) :
    ∃ s', exec (.canAbort h c.val b.val) s = .next s' ∧
      s'.canBuf h.tile c b = { s.canBuf h.tile c b with pending := none, heldTx := none, abortWait := (s.canBuf h.tile c b).inArb.isSome } ∧
      ∀ b', b' ≠ b → s'.canBuf h.tile c b' = s.canBuf h.tile c b' := by
  have told := told_complete (h := h) (op := 0x61) (status := 0) (detail := 0) (result := []) (.refl s)
  let s1 := (s.complete h 0x61 0 0).modBuf h.tile c b fun x => { x with pending := none, heldTx := none, abortWait := x.inArb.isSome }
  have done : ∃ s', exec (.canAbort h c.val b.val) s = .next s' ∧ State.Told s1 s' := by
    change ∃ s', execCanAbort h c.val b.val s = _ ∧ _
    refine ⟨_, by rw [execCanAbort, onCmd_of_due hd], ?_⟩
    rw [dif_pos ⟨c.isLt, b.isLt⟩]
    dsimp only
    rw [if_neg (by rw [host]; exact Bool.false_ne_true)]
    have pending (x : State) : State.Told x (match (s.canBuf h.tile c b).pending with
        | some (_, g, _, cmd) => x.canDone cmd 0x23 g
        | none => x) := by
      split
      · exact told_canDone ..
      · exact .refl _
    split
    · exact (pending s1).trans (told_canDone ..)
    · exact pending s1
  obtain ⟨s', runs, after⟩ := done
  refine ⟨s', runs, ?_, fun b' other => ?_⟩
  · rw [after.canBuf, canBuf_modBuf_self, told.canBuf]
  · rw [after.canBuf, canBuf_modBuf_ne other, told.canBuf]

end commands

/-- Settles O47, step by step. -/
theorem canControllersReceiveSendAndCount : Obligations.CanControllersReceiveSendAndCount := by
  unfold Obligations.CanControllersReceiveSendAndCount
  intro s t c ht
  refine ⟨fun f on => ?receive, fun svc b locked => ?unlock, fun b f g o h on idle mine first => canArbitrationStart_first ht on idle mine first,
    fun b f g once cmd ts at_ arb => ?attempt, fun e on ack => canReceiveError_counts ht on ack, fun off auto => ?recovery, fun svc => ?wake,
    fun h b tile host => ?commands⟩
  case receive =>
    obtain ⟨s1, bufs, runs⟩ := canFrameReceived_counted ht f on
    refine ⟨fun miss => ?_, fun b hit => ⟨fun open_ => ?_, fun locked => ?_⟩⟩
    · rw [miss] at runs
      exact ⟨s1, runs, bufs⟩
    · rw [hit] at runs
      dsimp only at runs
      rw [bufs, if_neg (by rw [open_]; exact Bool.false_ne_true)] at runs
      obtain ⟨content, gen, -⟩ := canStore_self (s := s1) (t := t) (c := c) (b := b) f.frame f.sof
      exact ⟨_, runs, content, by rw [gen, bufs], fun b' other => (canStore_ne f.frame f.sof other).trans (bufs b')⟩
    · rw [hit] at runs
      dsimp only at runs
      rw [bufs, if_pos locked] at runs
      exact ⟨_, runs, by rw [canBuf_modBuf_self, bufs], fun b' other => (canBuf_modBuf_ne other _).trans (bufs b')⟩
  case unlock =>
    have runs := canBufferLockEnd_of ht svc locked
    refine ⟨fun none => ?_, fun f ts shadow => ?_⟩
    · rw [none] at runs
      exact runs
    · rw [shadow] at runs
      obtain ⟨content, gen, ent⟩ := canStore_self (s := s.modBuf t c b fun x => { x with locked := false, shadowEnt := none })
        (t := t) (c := c) (b := b) f ts
      exact ⟨_, runs, content, by rw [gen, canBuf_modBuf_self], by rw [ent, canBuf_modBuf_self]⟩
  case attempt =>
    refine ⟨fun e => ⟨_, canTxAttemptEnd_acknowledged ht at_ arb e, acknowledged_leaves arb⟩, fun stays held e => ⟨fun more => ?_, fun single => ?_,
      fun more adds => ⟨_, canTxAttemptEnd_error ht at_ e, errorFrame_counts e arb stays held more adds⟩⟩⟩
    · rw [canTxAttemptEnd_lost ht at_, canAttemptOver_again arb stays held more]
      rfl
    · rw [canTxAttemptEnd_lost ht at_, canAttemptOver_once arb stays held single]
      rfl
  case recovery =>
    refine ⟨_, canBusOffRecovery_clears ht off auto, ?_, ?_, ?_, fun b => canBuf_canCount _ rfl b⟩ <;> rw [canCtl_canCount]
    rfl
  case wake =>
    refine ⟨fun mode => ⟨_, canWake_dominant ht svc mode, canWoken_wakes ..⟩, fun mode => ⟨fun f wakes => ⟨_, canWake_frame ht svc mode wakes, canWoken_wakes ..⟩,
      fun many => ⟨_, (canWake_malformed ht svc mode).trans (congrArg _ (if_pos many)), canWoken_wakes ..⟩,
      fun few => (canWake_malformed ht svc mode).trans (congrArg _ (if_neg (Nat.not_le.mpr few)))⟩⟩
  case commands =>
    subst tile
    refine ⟨fun p hd dma hc hb wf len short tx mode => ?_, fun hd => canAbort_withdraws hd host⟩
    have loads := canTx_loads hd dma hc hb wf len short host tx mode
    exact ⟨fun idle free => loads.trans (congrArg _ (canLoad_pending idle free)), fun busy free => loads.trans (congrArg _ (canLoad_held busy free))⟩

end Sys2Proof.Machine
end

