-- ==== Sys2Proof/Proofs/LinMasters.lean ====
section
/-!
PROOFS. A LIN master runs its schedule, keeps or counts the responses, wakes, and takes its commands (R293 to R296, R339).
-/

namespace Sys2Proof.Machine

/-! ### A master of a tile -/

section master

variable {s s' : State} {t : TileId} {l : Fin 2}

@[simp] theorem linOf_modLin (f : LinMaster → LinMaster) : (s.modLin t l f).linOf t l = f (s.linOf t l) := by
  rw [State.linOf, State.modLin, State.tile_modTile_self]
  exact (vmod_get ..).trans (if_pos rfl)

theorem State.Told.linOf (h : State.Told s s') : s'.linOf t l = s.linOf t l := by
  rw [State.linOf, h.tiles t]
  rfl

/-- A change of a master is what it gives for the master that stands there. -/
theorem modLin_congr {f g : LinMaster → LinMaster} (h : f (s.linOf t l) = g (s.linOf t l)) : s.modLin t l f = s.modLin t l g := by
  have lin : vmod (s.tile t).lin l f = vmod (s.tile t).lin l g := congrArg (vset (s.tile t).lin l) h
  change s.modTile t (fun tl => { tl with lin := vmod tl.lin l f }) = s.modTile t fun tl => { tl with lin := vmod tl.lin l g }
  exact State.modTile_congr s t _ _ (congrArg (fun v => { s.tile t with lin := v }) lin)

theorem tile_modLin_ne {u : TileId} (h : u ≠ t) (f : LinMaster → LinMaster) : (s.modLin t l f).tile u = s.tile u := by
  rw [State.modLin, State.tile_modTile, if_neg h]

end master

/-! ### The slot (R293, R296) -/

section slot

variable {s : State} {t : TileId} {l : Fin 2} {k : Fin 4} {i : Nat} {e : LinEntry}

theorem nextSlot_goesOn {m : LinMaster} (unselected : m.selected = none) (running : m.running = some k) (entry : m.entry = some i) :
    m.nextSlot = { m with entry := some (if i + 1 < (m.tables[k]).length then i + 1 else 0), awaiting := false } := by
  unfold LinMaster.nextSlot
  rw [unselected, running, entry]

theorem takeData_none {m : LinMaster} (waiting : m.dataLoad = []) : m.takeData k i = m := by
  unfold LinMaster.takeData
  rw [waiting]
  rfl

/-- A slot of a running table sends the break and header of its next entry, and what the master itself sends. -/
theorem linSlotStart_next (ht : s.hasTile t = true) (svc : (s.tile t).die.svc = true) (awake : (s.linOf t l).asleep = false)
    (settled : (s.linOf t l).waking = none) (unselected : (s.linOf t l).selected = none) (waiting : (s.linOf t l).dataLoad = [])
    (running : (s.linOf t l).running = some k) (entry : (s.linOf t l).entry = some i)
    (next : (((s.linOf t l).tables)[k])[if i + 1 < (((s.linOf t l).tables)[k]).length then i + 1 else 0]? = some e) :
    let data := if linSlave e then [] else padTo e.len e.data
    let m1 := { s.linOf t l with entry := some (if i + 1 < (((s.linOf t l).tables)[k]).length then i + 1 else 0), awaiting := false }
    exec (.linSlotStart t l) s = .next ((s.modLin t l fun _ =>
      if e.kind == 2 && data.head? == some 0 then
        { m1 with asleep := true, running := none, entry := none, selected := some k }
      else { m1 with awaiting := linSlave e }).emit
        (.lin t l ((s.tile t).parN 0x10 1 l.val) (linPid e.frameId) (if linSlave e then [] else data ++ [linChecksum e data]))) := by
  intro data m1
  have moved : (s.linOf t l).nextSlot = m1 := nextSlot_goesOn unselected running entry
  have taken : m1.takeData k (if i + 1 < (((s.linOf t l).tables)[k]).length then i + 1 else 0) = m1 := takeData_none waiting
  have runs : m1.running = some k := running
  have at_ : m1.entry = some (if i + 1 < (((s.linOf t l).tables)[k]).length then i + 1 else 0) := rfl
  have found : (m1.tables[k])[if i + 1 < (((s.linOf t l).tables)[k]).length then i + 1 else 0]? = some e := next
  have free : m1.selected.getD k = k := by rw [show m1.selected = none from unselected]; rfl
  clear_value m1
  change execLinSlotStart t l s = _
  rw [execLinSlotStart, onTile_of t s _ ht]
  dsimp only
  rw [awake, settled, svc, moved]
  simp only [runs, at_, taken, found, free]
  rfl

end slot

/-! ### Responses and errors (R294, R295) -/

section responses

variable {s : State} {t : TileId} {l : Fin 2} {i : Nat} {e : LinEntry}

/-- The wait has ended with an error of one kind of one entry; the last good response stands. -/
structure LinMaster.Counts (a b : LinMaster) (k : Nat) : Prop where
  ends : b.awaiting = false
  kept : b.lastGood = a.lastGood
  counts : b.counters = a.counters.count k

theorem LinMaster.Counts.told {s s' : State} {a : LinMaster} {k : Nat} (h : a.Counts (s.linOf t l) k) (told : State.Told s s') :
    a.Counts (s'.linOf t l) k := told.linOf ▸ h

/-- An error counts under its kind and ends the wait; the last good response stands. -/
theorem linError_counts (slave : Bool) (err : Nat) : (s.linOf t l).Counts ((s.linError t l i slave err).linOf t l) (8 * i + err) := by
  unfold State.linError
  lift_lets
  intro m k due s1 s2 sil
  have first : (s.linOf t l).Counts (s1.linOf t l) k := by
    dsimp only [s1]
    rw [linOf_modLin]
    exact ⟨rfl, rfl, rfl⟩
  have second : (s.linOf t l).Counts (s2.linOf t l) k := first.told (told_ite (fun _ => told_raise (.refl s1)) fun _ => .refl s1)
  split
  · refine LinMaster.Counts.told ?_ (told_raise (.refl _))
    rw [linOf_modLin]
    exact ⟨second.ends, second.kept, second.counts⟩
  · exact second

/-- A good response is kept, ends the silence, and reaches the panel signals. -/
theorem linGood_keeps (data : List Byte) : ((s.linGood t l i data).linOf t l).awaiting = false ∧
    ((s.linGood t l i data).linOf t l).lastGood.get i = ofLe data + 1 ∧
    (SMap.wf (s.linOf t l).silence = true → ((s.linGood t l i data).linOf t l).silence.get (8 * i + 5) = 0 ∧
      ((s.linGood t l i data).linOf t l).silence.get (8 * i + 6) = 0) ∧
    ((s.linGood t l i data).linOf t l).counters = (s.linOf t l).counters ∧
    ((s.linGood t l i data).tile t).door.panelFlag = ((s.linGood t l i data).tile t).panelObstruct := by
  rw [State.linGood]
  dsimp only
  generalize kept : (s.modLin t l _) = s1
  have master : s1.linOf t l = { s.linOf t l with
      awaiting := false, lastGood := SMap.set (s.linOf t l).lastGood i (ofLe data + 1 : Nat)
      silence := SMap.set (SMap.set (s.linOf t l).silence (8 * i + 5) 0) (8 * i + 6) 0 } := kept ▸ linOf_modLin _
  generalize List.any (List.filter _ (Tile.panelSignals _ _)) _ = obstruct
  generalize (List.any _ _ && _ : Bool) = push
  have same (f : Doorway → Doorway) : (s1.modDoor t f).linOf t l = s1.linOf t l := by
    rw [State.linOf, State.modDoor, State.tile_modTile_self]
    rfl
  rw [same, master]
  refine ⟨rfl, ?_, fun wf => ⟨?_, ?_⟩, rfl, ?_⟩
  · exact (SMap.get_set_self_of_ne _ _ (by omega)).trans (by push_cast; rfl)
  · exact (SMap.get_set_ne _ _ _ _ _ _ (SMap.wf_set _ _ _ _ wf) (by omega)).trans (SMap.get_set_self _ _ _ _ wf)
  · exact SMap.get_set_self _ _ _ _ (SMap.wf_set _ _ _ _ wf)
  · rw [State.modDoor, State.tile_modTile_self]
    rfl

variable (ht : s.hasTile t = true) (svc : (s.tile t).die.svc = true) (waits : (s.linOf t l).awaiting = true)
  (current : (s.linOf t l).current = some (i, e)) (now : Nat)
include ht svc waits current

theorem linResponse_of {data : List Byte} (sum : Byte) (len : data.length = e.len) : exec (.linResponseReceived t l (.bytes data sum) now) s =
    .next (if sum == linChecksum e data then (s.at now).linGood t l i data else (s.at now).linError t l i true 2) := by
  have here : (s.at now).linOf t l = s.linOf t l := rfl
  change execLinResponseReceived t l (.bytes data sum) now s = _
  rw [execLinResponseReceived, onTile_of t s _ ht]
  dsimp only
  rw [here, current, State.tile_at, svc, waits]
  dsimp only
  rw [len, bne_self_eq_false]
  rfl

theorem linTimeout_of {bytes : Nat} (few : bytes < e.len) : exec (.linResponseTimeout t l bytes now) s =
    .next ((s.at now).linError t l i true (if bytes = 0 then 0 else 1)) := by
  have here : (s.at now).linOf t l = s.linOf t l := rfl
  change execLinResponseTimeout t l bytes now s = _
  rw [execLinResponseTimeout, onTile_of t s _ ht]
  dsimp only
  rw [here, current, State.tile_at, svc, waits]
  dsimp only
  rw [decide_eq_false (Nat.not_le.mpr few)]
  rfl

end responses

/-! ### The commands (R339) -/

section commands

variable {s : State} {h : HostCmd} {l : Fin 2} {k : Fin 4} {es : List LinEntry}

section load

variable (hd : s.Due h 0x62) (dma : h.dmaFault = false)
include hd dma

theorem linSchedLoad_of (short : es.length ≤ 64) : exec (.linSchedLoad h l.val k.val es) s = .next
    (match es.findIdx? (linEntryBroken ((s.tile h.tile).parN 0x10 0 l.val)) with
     | some i => s.complete h 0x62 0x14 293 (leBytes 1 i)
     | none =>
       if (s.linOf h.tile l).running = some k then s.complete h 0x62 0x17 0
       else (s.modLin h.tile l fun m =>
         { m with tables := vset m.tables k es, dataLoad := m.dataLoad.filter (·.1 != k.val) }).complete h 0x62 0 0) := by
  change execLinSchedLoad h l.val k.val es s = _
  rw [execLinSchedLoad, onCmd_of_due hd]
  dsimp only
  rw [dma, if_neg Bool.false_ne_true, dif_pos ⟨l.isLt, k.isLt⟩, if_neg (Nat.not_lt.mpr short)] <;> rfl

/-- A table that does not run is replaced as a whole. -/
theorem linSchedLoad_replaces (short : es.length ≤ 64) (sound : ∀ e ∈ es, linEntryBroken ((s.tile h.tile).parN 0x10 0 l.val) e = false)
    (idle : (s.linOf h.tile l).running ≠ some k) : ∃ s', exec (.linSchedLoad h l.val k.val es) s = .next s' ∧
      ((s'.linOf h.tile l).tables)[k] = es ∧ (∀ j, j ≠ k → ((s'.linOf h.tile l).tables)[j] = ((s.linOf h.tile l).tables)[j]) ∧
      (s'.linOf h.tile l).running = (s.linOf h.tile l).running ∧ (s'.linOf h.tile l).entry = (s.linOf h.tile l).entry := by
  have runs := linSchedLoad_of (l := l) (k := k) hd dma short
  rw [List.findIdx?_eq_none_iff.mpr sound] at runs
  dsimp only at runs
  rw [if_neg idle] at runs
  refine ⟨_, runs, ?_⟩
  rw [(told_complete (.refl _)).linOf, linOf_modLin]
  exact ⟨(vset_get ..).trans (if_pos rfl), fun j other => (vset_get ..).trans (if_neg (Ne.symm other)), rfl, rfl⟩

/-- Data alone waits for the next header of its entries; the tables stand. -/
theorem linSchedLoadDataOnly_keeps (short : es.length ≤ (((s.linOf h.tile l).tables)[k]).length) :
    ∃ s', exec (.linSchedLoadDataOnly h l.val k.val es) s = .next s' ∧ (s'.linOf h.tile l).tables = (s.linOf h.tile l).tables ∧
      ∀ i (hi : i < es.length), (k.val, i, (es[i]).data) ∈ (s'.linOf h.tile l).dataLoad := by
  have runs : exec (.linSchedLoadDataOnly h l.val k.val es) s = .next (
      let new := (List.range es.length).map fun i => (k.val, i, ((es[i]?).map (·.data)).getD [])
      (s.modLin h.tile l fun m =>
        { m with dataLoad := (m.dataLoad.filter fun x => !new.any fun y => y.1 == x.1 && y.2.1 == x.2.1) ++ new }).complete h 0x62 0 0) := by
    change execLinSchedLoadDataOnly h l.val k.val es s = _
    rw [execLinSchedLoadDataOnly, onCmd_of_due hd]
    dsimp only
    rw [dma, if_neg Bool.false_ne_true, dif_pos ⟨l.isLt, k.isLt⟩, if_neg (Nat.not_lt.mpr short)]
  refine ⟨_, runs, ?_⟩
  dsimp only
  rw [(told_complete (.refl _)).linOf, linOf_modLin]
  refine ⟨rfl, fun i hi => List.mem_append_right _ (List.mem_map.mpr ⟨i, List.mem_range.mpr hi, ?_⟩)⟩
  rw [List.getElem?_eq_getElem hi]
  rfl

end load

theorem linSchedSelect_names (hd : s.Due h 0x63) : ∃ s', exec (.linSchedSelect h l.val k.val) s = .next s' ∧
    (s'.linOf h.tile l).selected = some k ∧ (s'.linOf h.tile l).asleep = false ∧
    (s'.linOf h.tile l).waking = (if (s.linOf h.tile l).asleep then some 1 else (s.linOf h.tile l).waking) ∧
    (s'.linOf h.tile l).tables = (s.linOf h.tile l).tables := by
  have runs : exec (.linSchedSelect h l.val k.val) s =
      .next (((s.modLin h.tile l fun m => { m with selected := some k }).linWake h.tile l 1).complete h 0x63 0 0) := by
    change execLinSchedSelect h l.val k.val s = _
    rw [execLinSchedSelect, onCmd_of_due hd]
    exact congrArg _ (dif_pos ⟨l.isLt, k.isLt⟩)
  refine ⟨_, runs, ?_⟩
  rw [(told_complete (.refl _)).linOf, State.linWake, linOf_modLin]
  dsimp only
  cases asleep : (s.linOf h.tile l).asleep with
  | true =>
    rw [if_pos rfl, linOf_modLin, linOf_modLin]
    exact ⟨rfl, rfl, rfl, rfl⟩
  | false =>
    rw [if_neg Bool.false_ne_true, linOf_modLin]
    exact ⟨rfl, asleep, rfl, rfl⟩

end commands

/-- Settles O48, step by step. -/
theorem linMastersRunTheirSchedules : Obligations.LinMastersRunTheirSchedules := by
  unfold Obligations.LinMastersRunTheirSchedules
  intro s t l ht m
  refine ⟨?slot, fun svc waits i e now current => ?responses, fun svc asleep => ?pulse, fun cause waking => ?delay, fun h k tile => ?commands⟩
  case slot =>
    intro svc awake settled unselected waiting k i e running entry j data resp header next
    have runs := linSlotStart_next ht svc awake settled unselected waiting running entry next
    refine ⟨fun stays => ?_, fun kind zero => ⟨_, runs, ?_⟩⟩
    · refine runs.trans (congrArg (fun x : State => Host.Outcome.next (x.emit header)) (modLin_congr (if_neg ?_)))
      rw [Bool.and_eq_true, beq_iff_eq, beq_iff_eq]
      exact fun ⟨kind, zero⟩ => stays kind zero
    · rw [show (e.kind == 2 && data.head? == some 0) = true by rw [kind, zero]; rfl, if_pos rfl]
      have sleeps (f : LinMaster → LinMaster) (o : Output) : ((s.modLin t l f).emit o).linOf t l = f m := linOf_modLin f
      rw [sleeps]
      exact ⟨rfl, rfl, rfl, rfl⟩
  case responses =>
    refine ⟨fun data len => ⟨_, linResponse_of ht svc waits current now _ len, ?_⟩,
      fun data sum len wrong => ⟨_, linResponse_of ht svc waits current now sum len, ?_⟩,
      fun bytes few => ⟨_, linTimeout_of ht svc waits current now few, ?_⟩⟩
    · rw [if_pos (beq_self_eq_true _)]
      exact linGood_keeps data
    · rw [if_neg (fun same => wrong (beq_iff_eq.mp same))]
      obtain ⟨ends, kept, counts⟩ := linError_counts (s := s.at now) (t := t) (l := l) (i := i) true 2
      exact ⟨ends, counts, kept⟩
    · obtain ⟨ends, kept, counts⟩ := linError_counts (s := s.at now) (t := t) (l := l) (i := i) true (if bytes = 0 then 0 else 1)
      exact ⟨ends, kept, counts⟩
  case pulse =>
    change execLinWakePulse t l s = _
    rw [execLinWakePulse, onTile_of t s _ ht, if_pos svc]
    exact congrArg _ (if_pos asleep)
  case delay =>
    have runs : exec (.linWakeDelayEnd t l) s =
        .next ((s.modLin t l fun m => { m with waking := none }).raise t 0x55 (leBytes 1 l.val ++ leBytes 1 cause.val)) := by
      change execLinWakeDelayEnd t l s = _
      rw [execLinWakeDelayEnd, onTile_of t s _ ht]
      change Host.Outcome.next (match m.waking with | none => s | some c => _) = _
      rw [waking]
    have told := told_raise (t := t) (code := 0x55) (data := leBytes 1 l.val ++ leBytes 1 cause.val) (logged := true) (src := none)
      (.refl (s.modLin t l fun m => { m with waking := none }))
    refine ⟨_, runs, by rw [told.linOf, linOf_modLin], fun u other => ?_⟩
    have tiles := told.tiles u
    rwa [tile_modLin_ne other] at tiles
  case commands =>
    subst tile
    refine ⟨fun es hd dma => ⟨fun short => ⟨fun i broken => ?_, fun sound idle => linSchedLoad_replaces hd dma short sound idle⟩,
      linSchedLoadDataOnly_keeps hd dma⟩, linSchedSelect_names⟩
    rw [linSchedLoad_of hd dma short, broken]

end Sys2Proof.Machine
end

