-- ==== Sys2Proof/Proofs/RingRegs.lean ====
section
/-!
PROOFS. The registers of the rings: what a change of one ring leaves of the others, and that no event and no log record writes one
(R301, R303, R311, R390).
-/

namespace Sys2Proof.Machine

/-! ### One ring changed -/

section rings

variable {s : State} {k k' : RingKind} {n n' : Fin 32}

theorem HostIf.ring_setRing_self (h : HostIf) (r : Ring) (evt : k = .evt → n.val < 8) : (h.setRing k n r).ring k n = r := by
  cases k with
  | cmdq => exact (vset_get ..).trans (if_pos rfl)
  | cpl => exact (vset_get ..).trans (if_pos rfl)
  | evt =>
    have below := evt rfl
    rw [HostIf.setRing, dif_pos below, HostIf.ring]
    dsimp only
    rw [List.getD_eq_getElem _ _ (by simpa using below), Vector.getElem_toList]
    exact (vset_get h.evt ⟨n.val, below⟩ ⟨n.val, below⟩ r).trans (if_pos rfl)

theorem HostIf.ring_setRing_kind (h : HostIf) (r : Ring) (other : k' ≠ k) : (h.setRing k n r).ring k' n' = h.ring k' n' := by
  cases k with
  | cmdq => cases k' with
    | cmdq => exact absurd rfl other
    | cpl => rfl
    | evt => rfl
  | cpl => cases k' with
    | cmdq => rfl
    | cpl => exact absurd rfl other
    | evt => rfl
  | evt =>
    rw [HostIf.setRing]
    split
    · cases k' with
      | cmdq => rfl
      | cpl => rfl
      | evt => exact absurd rfl other
    · rfl

theorem HostIf.ring_evt (h : HostIf) (below : n.val < 8) : h.ring .evt n = (h.evt)[n.val] := by
  rw [HostIf.ring, List.getD_eq_getElem _ _ (by simpa using below), Vector.getElem_toList]

theorem ring_modRing_self (evt : k = .evt → n.val < 8) (f : Ring → Ring) : (s.modRing k n f).ring k n = f (s.ring k n) :=
  HostIf.ring_setRing_self _ _ evt

theorem ring_modRing_kind (other : k' ≠ k) (f : Ring → Ring) : (s.modRing k n f).ring k' n' = s.ring k' n' :=
  HostIf.ring_setRing_kind _ _ other

theorem ring_modRing_ne (kind : k ≠ .evt) (other : n' ≠ n) (f : Ring → Ring) : (s.modRing k n f).ring k n' = s.ring k n' := by
  cases k with
  | cmdq => exact (vset_get ..).trans (if_neg (Ne.symm other))
  | cpl => exact (vset_get ..).trans (if_neg (Ne.symm other))
  | evt => exact absurd rfl kind

/-- The number of an event ring as the doorbell and the enable of the ring give it. -/
theorem evt_number (below : n.val < 8) : Fin.ofNat 32 (Fin.ofNat 8 n.val).val = n :=
  Fin.ext (by rw [Fin.val_ofNat, Fin.val_ofNat, Nat.mod_eq_of_lt below, Nat.mod_eq_of_lt n.isLt])

/-- A change of a ring is what it gives for the ring that stands there. -/
theorem modRing_congr {f g : Ring → Ring} (h : f (s.ring k n) = g (s.ring k n)) : s.modRing k n f = s.modRing k n g :=
  congrArg (fun r => s.modHost fun h => h.setRing k n r) h

end rings

/-! ### Events and log records write no ring register -/

/-- A ring without what its records move. -/
def Ring.registers (r : Ring) : Ring :=
  { r with devIndex := 0, phase := false, unsignalled := 0, lost := 0, markAt := none, recHeld := false, ringHeld := false }

theorem registers_ite {c : Prop} [Decidable c] {a b r : Ring} (ha : a.registers = r) (hb : b.registers = r) :
    (if c then a else b).registers = r := by
  split
  · exact ha
  · exact hb

/-- The registers of the event rings. -/
def State.evtRegs (s : State) : Vector Machine.Ring 8 := vmap Ring.registers s.head.host.evt

section regs

variable {s : State} {t : TileId}

@[simp] theorem evtRegs_emit (o : Output) : (s.emit o).evtRegs = s.evtRegs := rfl
@[simp] theorem evtRegs_dma (a : Nat) (bs : List Byte) : (s.dma a bs).evtRegs = s.evtRegs := rfl
@[simp] theorem evtRegs_modPeat (f : Peat → Peat) : (s.modPeat t f).evtRegs = s.evtRegs := rfl

theorem evtRegs_modHead {f : Head → Head} (h : (f s.head).host = s.head.host) : (s.modHead f).evtRegs = s.evtRegs :=
  congrArg (fun h : HostIf => vmap Ring.registers h.evt) h

theorem evtRegs_ite {c : Prop} [Decidable c] {a b : State} {r : Vector Ring 8} (ha : a.evtRegs = r) (hb : b.evtRegs = r) :
    (if c then a else b).evtRegs = r := by
  split
  · exact ha
  · exact hb

theorem evtRegs_each {α : Type} (l : List α) {f : State → α → State} (h : ∀ s a, (f s a).evtRegs = s.evtRegs) :
    (s.each l f).evtRegs = s.evtRegs := State.each_keeps h l s

theorem evtRegs_vset {e : Fin 8} {r : Ring} (h : r.registers = ((s.head.host.evt)[e]).registers) :
    (s.modHost fun h => { h with evt := vset h.evt e r }).evtRegs = s.evtRegs := by
  refine Vector.ext fun i hi => ?_
  have read (v : Vector Ring 8) : (vmap Ring.registers v)[i] = (v[i]).registers := vmap_get Ring.registers v ⟨i, hi⟩
  refine (read _).trans (Eq.trans ?_ (read _).symm)
  have put := vset_get s.head.host.evt e ⟨i, hi⟩ r
  refine (congrArg Ring.registers put).trans ?_
  split
  case isTrue same =>
    subst same
    exact h
  case isFalse => rfl

@[simp] theorem evtRegs_signal (v : Nat) : (s.signal v).evtRegs = s.evtRegs := evtRegs_ite rfl rfl

@[simp] theorem evtRegs_bwkSend (k : Nat) (pl : BwkPayload) : (s.bwkSend k pl).evtRegs = s.evtRegs := by
  rw [State.bwkSend]
  split <;> rfl

@[simp] theorem evtRegs_evtPut (e : Fin 8) (id : Nat) (ts : Word) (data : List Byte) (urgent mark : Bool) :
    (s.evtPut e id ts data urgent mark).evtRegs = s.evtRegs := by
  unfold State.evtPut
  refine evtRegs_ite rfl (evtRegs_ite (evtRegs_vset ?_) (evtRegs_ite ((evtRegs_signal _).trans ?_) ?_))
  · exact registers_ite rfl rfl
  all_goals
    refine (evtRegs_vset (s := s.dma _ _) ?_).trans rfl
    exact registers_ite rfl rfl

@[simp] theorem evtRegs_evtSend (e : Fin 8) (id : Nat) (ts : Word) (data : List Byte) (urgent : Bool) :
    (s.evtSend e id ts data urgent).evtRegs = s.evtRegs :=
  (evtRegs_evtPut ..).trans (evtRegs_ite (evtRegs_evtPut ..) rfl)

@[simp] theorem evtRegs_eventOut (src : Option TileId) (code : Nat) (ts : Word) (data : List Byte) :
    (s.eventOut src code ts data).evtRegs = s.evtRegs :=
  evtRegs_ite rfl (evtRegs_ite (evtRegs_ite (evtRegs_each _ fun _ _ => evtRegs_ite (evtRegs_evtSend ..) rfl) rfl)
    (evtRegs_ite (evtRegs_bwkSend ..) rfl))

@[simp] theorem evtRegs_openEntry (id : Nat) (ts : Word) (data : List Byte) (src : Option Source) :
    (s.openEntry t id ts data src).evtRegs = s.evtRegs := rfl

@[simp] theorem evtRegs_logHighCheck : s.logHighCheck.evtRegs = s.evtRegs :=
  evtRegs_ite rfl (evtRegs_ite (evtRegs_eventOut ..) rfl)

@[simp] theorem evtRegs_peatStore (type : Nat) (src : Source) (body : List Byte) (flags : Nat) :
    (s.peatStore t type src body flags).evtRegs = s.evtRegs := evtRegs_ite evtRegs_logHighCheck rfl

@[simp] theorem evtRegs_peatLose (type : Nat) (full : Bool) : (s.peatLose t type full).evtRegs = s.evtRegs :=
  evtRegs_ite rfl (evtRegs_eventOut ..)

@[simp] theorem evtRegs_peatToFlash (b sector : Nat) : (s.peatToFlash t b sector).evtRegs = s.evtRegs := rfl

@[simp] theorem evtRegs_peatRoom : (s.peatRoom t).evtRegs = s.evtRegs := by
  unfold State.peatRoom
  refine evtRegs_ite rfl ?_
  split <;> rfl

@[simp] theorem evtRegs_peatFree (bs : List Nat) : (s.peatFree t bs).evtRegs = s.evtRegs := evtRegs_eventOut ..

@[simp] theorem evtRegs_peatWrap : (s.peatWrap t).evtRegs = s.evtRegs := by
  unfold State.peatWrap
  dsimp only
  split
  · exact evtRegs_peatFree _
  · exact evtRegs_ite ((evtRegs_peatFree _).trans (evtRegs_peatFree _))
      ((evtRegs_each _ fun _ _ => evtRegs_peatToFlash ..).trans (evtRegs_peatFree _))

@[simp] theorem evtRegs_peatPut (type : Nat) (src : Source) (body : List Byte) (flags : Nat) :
    (s.peatPut t type src body flags).evtRegs = s.evtRegs := by
  have else_ {c : Prop} [Decidable c] {a b : State} (ha : a.evtRegs = s.evtRegs) (hb : b.evtRegs = a.evtRegs) :
      (if c then a else b).evtRegs = s.evtRegs := evtRegs_ite ha (hb.trans ha)
  unfold State.peatPut
  refine evtRegs_ite ((evtRegs_peatLose ..).trans evtRegs_peatRoom) ((evtRegs_peatStore ..).trans ?_)
  refine else_ (else_ (else_ (evtRegs_ite (evtRegs_peatWrap.trans evtRegs_peatRoom) evtRegs_peatRoom) ?_) ?_) ?_
  · exact evtRegs_peatStore ..
  · exact evtRegs_peatStore ..
  · exact evtRegs_peatStore ..

@[simp] theorem evtRegs_closeEvents (flags : Nat) : (s.closeEvents t flags).evtRegs = s.evtRegs := evtRegs_ite rfl (evtRegs_peatPut ..)

@[simp] theorem evtRegs_logEvent (id : Nat) (ts : Word) (data : List Byte) (src : Option Source) :
    (s.logEvent t id ts data src).evtRegs = s.evtRegs :=
  evtRegs_ite (evtRegs_ite (evtRegs_closeEvents _) rfl) (evtRegs_ite rfl (evtRegs_peatLose ..))

@[simp] theorem evtRegs_raiseHead (code : Nat) (data : List Byte) (logged : Bool) : (s.raiseHead code data logged).evtRegs = s.evtRegs :=
  (evtRegs_eventOut ..).trans (evtRegs_ite (evtRegs_logEvent ..) rfl)

/-- An event of the head stops no ring and starts none. -/
theorem stopped_raiseHead (k : RingKind) (n : Fin 32) (evt : k = .evt → n.val < 8) (code : Nat) (data : List Byte) (logged : Bool) :
    ((s.raiseHead code data logged).ring k n).stopped = (s.ring k n).stopped := by
  have host : State.Logged s (s.raiseHead code data logged) := logged_eventOut (logged_ite (logged_logEvent (.refl s)) (.refl s))
  cases k with
  | cmdq =>
    change (((s.raiseHead code data logged).head.host.cmdq)[n]).stopped = _
    rw [host.host]
    rfl
  | cpl =>
    change (((s.raiseHead code data logged).head.host.cpl)[n]).stopped = _
    rw [host.host]
    rfl
  | evt =>
    have below := evt rfl
    have read (x : State) : (x.ring .evt n).stopped = ((x.evtRegs)[n.val]).stopped := by
      rw [State.ring, HostIf.ring_evt _ below]
      exact (congrArg Ring.stopped (vmap_get Ring.registers x.head.host.evt ⟨n.val, below⟩)).symm
    rw [read, read, evtRegs_raiseHead]

end regs

end Sys2Proof.Machine
end

