-- ==== Sys2Proof/Proofs/Doorbells.lean ====
section
/-!
PROOFS. A doorbell moves the host's index or stops its ring, and a stopped ring fetches and takes nothing (R302, R303).
-/

namespace Sys2Proof.Machine

section doorbells

variable {s : State} {k : RingKind} {n : Fin 32}

/-- The doorbell write of a ring. -/
def doorbellInstr (k : RingKind) (n : Fin 32) (w : BitVec 64) : Instr :=
  match k with
  | .cmdq => .cmdqDoorbell n w
  | .cpl => .cplDoorbell n w
  | .evt => .evtDoorbell (Fin.ofNat 8 n.val) w

/-- The CTL write that sets enable of a ring. -/
def enableInstr (k : RingKind) (n : Fin 32) (v : Word) : Instr :=
  match k with
  | .cmdq => .cmdqEnable n v
  | .cpl => .cplRingEnable n v
  | .evt => .evtRingEnable (Fin.ofNat 8 n.val) v

/-- The records or commands that the host may take or add (R301). -/
def ringRoom (k : RingKind) (r : Ring) : Nat :=
  match k with
  | .cmdq => (r.devIndex + r.size - 1 - r.hostIndex) % r.size
  | _ => (r.devIndex + r.size - r.hostIndex) % r.size

theorem exec_doorbell (evt : k = .evt → n.val < 8) (w : BitVec 64) : exec (doorbellInstr k n w) s = .next (s.doorbell k n w) := by
  cases k with
  | cmdq => rfl
  | cpl => rfl
  | evt =>
    change Host.Outcome.next (s.doorbell .evt (Fin.ofNat 32 (Fin.ofNat 8 n.val).val) w) = _
    rw [evt_number (evt rfl)]

theorem exec_enable (evt : k = .evt → n.val < 8) (v : Word) : exec (enableInstr k n v) s = .next (s.ctlWrite k n (v ||| 1)) := by
  cases k with
  | cmdq => rfl
  | cpl => rfl
  | evt =>
    change Host.Outcome.next (s.ctlWrite .evt (Fin.ofNat 32 (Fin.ofNat 8 n.val).val) (v ||| 1)) = _
    rw [evt_number (evt rfl)]

theorem doorbell_disabled (off : (s.ring k n).enabled = false) (w : BitVec 64) : s.doorbell k n w = s := by
  refine if_pos ?_
  rw [off]
  simp

theorem doorbell_wide {w : BitVec 64} (wide : 2 ^ 32 ≤ w.toNat) : s.doorbell k n w = s := by
  refine if_pos ?_
  rw [decide_eq_true wide]
  rfl

theorem doorbell_repeated {w : BitVec 64} (same : w.toNat = (s.ring k n).hostIndex) : s.doorbell k n w = s := by
  unfold State.doorbell
  dsimp only
  rw [if_pos same]
  exact ite_self s

/-- The ring stopped, with the queue-error event. -/
def State.ringStopped (s : State) (k : RingKind) (n : Fin 32) (i : Nat) : State :=
  (s.modRing k n fun r => { r with stopped := true }).raiseHead 0x40 (leBytes 1 (ringCode k) ++ leBytes 1 n.val ++ leBytes 2 0 ++ leBytes 4 i)

/-- A doorbell write does nothing, stops the ring or moves the host's index. -/
theorem doorbell_cases (s : State) (k : RingKind) (n : Fin 32) (w : BitVec 64) : s.doorbell k n w = s ∨
    s.doorbell k n w = s.ringStopped k n w.toNat ∨ s.doorbell k n w = s.modRing k n fun r => { r with hostIndex := w.toNat } := by
  have three {p q r : Prop} [Decidable p] [Decidable q] [Decidable r] (a b c : State) :
      (if p then a else if q then a else if r then b else c) = a ∨ (if p then a else if q then a else if r then b else c) = b ∨
        (if p then a else if q then a else if r then b else c) = c := by
    split_ifs <;> simp
  exact three ..

/-- A doorbell write that a ring takes. -/
theorem doorbell_taken {w : BitVec 64} (ready : s.hostReady = true) (on : (s.ring k n).enabled = true) (later : s.v1 = false)
    (narrow : w.toNat < 2 ^ 32) (moves : w.toNat ≠ (s.ring k n).hostIndex) : s.doorbell k n w =
      if w.toNat ≥ (s.ring k n).size || ringRoom k (s.ring k n) < (w.toNat + (s.ring k n).size - (s.ring k n).hostIndex) % (s.ring k n).size then
        s.ringStopped k n w.toNat
      else s.modRing k n fun r => { r with hostIndex := w.toNat } := by
  unfold State.doorbell
  dsimp only
  rw [ready, on, later, decide_eq_false (Nat.not_le.mpr narrow), if_neg moves]
  rfl

/-- No doorbell makes a stopped ring run. -/
theorem doorbell_stopped (evt : k = .evt → n.val < 8) (stopped : (s.ring k n).stopped = true) (w : BitVec 64) :
    ((s.doorbell k n w).ring k n).stopped = true := by
  rcases doorbell_cases s k n w with e | e | e
  · rw [e]
    exact stopped
  · rw [e, State.ringStopped, stopped_raiseHead k n evt, ring_modRing_self evt]
  · rw [e, ring_modRing_self evt]
    exact stopped

/-- An enabled ring takes no CTL write that sets enable. -/
theorem ctlWrite_enabled (on : (s.ring k n).enabled = true) (v : Word) : s.ctlWrite k n (v ||| 1) = s := by
  have set : ((v ||| 1).toNat % 2 == 1) = true := by
    rw [beq_iff_eq, BitVec.toNat_or, Nat.or_mod_two_eq_one]
    exact .inr rfl
  unfold State.ctlWrite
  dsimp only
  rw [set, on]
  split
  · rfl
  · split <;> rfl

theorem hifStatus_stopped (evt : k = .evt → n.val < 8) : (s.hifStatus (1 + ringCode k)).testBit n.val = (s.ring k n).stopped := by
  have bits {m : Nat} (v : Vector Ring m) (h : n.val < m) : (stoppedMask v.toList).testBit n.val = (v[n.val]).stopped := by
    rw [stoppedMask, maskOf, testBit_ofBits, List.getD_eq_getElem _ _ (by simpa using h), List.getElem_map, Vector.getElem_toList]
  cases k with
  | cmdq => exact bits s.head.host.cmdq n.isLt
  | cpl => exact bits s.head.host.cpl n.isLt
  | evt => exact (bits s.head.host.evt (evt rfl)).trans (by rw [State.ring, HostIf.ring_evt _ (evt rfl)])

end doorbells

/-! ### What a stopped ring no longer does -/

section stopped

variable {s : State}

theorem nextQueue_ready {q : Fin 32} (h : s.nextQueue = some q) : s.queueReady q = true := by
  obtain ⟨p, -, found⟩ := List.exists_of_findSome?_eq_some h
  have served := List.find?_some found
  exact (Bool.and_eq_true_iff.mp served).1

theorem queueReady_stopped {q : Fin 32} (h : (s.ring .cmdq q).stopped = true) : s.queueReady q = false := by
  have stopped : ((s.head.host.cmdq)[q]).stopped = true := h
  unfold State.queueReady
  dsimp only
  rw [stopped]
  simp

theorem descriptorFetch_otherTurn {q : Fin 32} (d : Vector Byte 64) (h : s.nextQueue ≠ some q) : exec (.descriptorFetch q d) s = .next s := by
  change execDescriptorFetch q d s = _
  rw [execDescriptorFetch, onHead_eq]
  exact congrArg _ (if_pos (by rw [decide_eq_true h, Bool.or_true]))

theorem hostMem_dma (a : Nat) (bs : List Byte) : (s.dma a bs).hostMem = memWriteBytes s.hostMem a bs := rfl

/-- A command's own record is written where its ring takes one. -/
theorem completeRaw_written {o : Outstanding} {st detail : Nat} {result : List Byte} (own : o.remote = false)
    (on : (s.ring .cpl o.cplRing).enabled = true) (runs : (s.ring .cpl o.cplRing).stopped = false) (svc : (s.tile .t0).die.svc = true)
    (told : ¬(o.flags.getLsbD 2 = true ∧ st = 0)) : (s.completeRaw o st detail result).hostMem =
      memWriteBytes s.hostMem ((s.ring .cpl o.cplRing).base.toNat + 32 * (s.ring .cpl o.cplRing).devIndex)
        (completionRecord o (s.ring .cpl o.cplRing).phase st detail s.ts result) := by
  have loud : (o.flags.getLsbD 2 && st == 0) = false := by
    rw [Bool.eq_false_iff, Ne, Bool.and_eq_true, beq_iff_eq]
    exact told
  have signal {c : Prop} [Decidable c] (x : State) (v : Nat) : (if c then x.signal v else x).hostMem = x.hostMem := by
    rw [State.signal]
    split_ifs <;> rfl
  have on : ((s.head.host.cpl)[o.cplRing]).enabled = true := on
  have runs : ((s.head.host.cpl)[o.cplRing]).stopped = false := runs
  unfold State.completeRaw
  dsimp only
  rw [own, loud, on, runs, svc, if_neg Bool.false_ne_true, if_neg (by decide), signal, State.modHost, State.modHead_hostMem, hostMem_dma]
  rfl

/-- A command completes without a record where its ring has stopped, or the head has no service core. -/
theorem completeRaw_silent {o : Outstanding} {st detail : Nat} {result : List Byte} (own : o.remote = false)
    (silent : (s.ring .cpl o.cplRing).stopped = true ∨ (s.tile .t0).die.svc = false) :
    s.completeRaw o st detail result = (s.modHost fun h => { h with outstanding := h.outstanding.erase o }).modHost fun h =>
      { h with cpl := vset h.cpl o.cplRing { (s.head.host.cpl)[o.cplRing] with reserved := ((s.head.host.cpl)[o.cplRing]).reserved - 1 } } := by
  unfold State.completeRaw
  dsimp only
  rw [own, if_neg Bool.false_ne_true]
  refine if_pos ?_
  rcases silent with stopped | gone
  · have stopped : ((s.head.host.cpl)[o.cplRing]).stopped = true := stopped
    rw [stopped]
    simp
  · rw [gone]
    simp

theorem evtPut_stopped {e : Fin 8} (h : ((s.head.host.evt)[e]).stopped = true) (id : Nat) (ts : Word) (data : List Byte) (urgent mark : Bool) :
    s.evtPut e id ts data urgent mark = s := by
  refine if_pos ?_
  rw [Ring.takes, h]
  simp

theorem ring_evt_ofNat (e : Fin 8) : s.ring .evt (Fin.ofNat 32 e.val) = (s.head.host.evt)[e] := by
  have same : (Fin.ofNat 32 e.val).val = e.val := Nat.mod_eq_of_lt (Nat.lt_trans e.isLt (by decide))
  have below : (Fin.ofNat 32 e.val).val < 8 := same.trans_lt e.isLt
  rw [State.ring, HostIf.ring_evt _ below]
  exact getElem_congr_idx same

theorem ctlClear_stops {k : RingKind} {n : Fin 32} (ready : s.hostReady = true) (on : (s.ring k n).enabled = true) (kind : k ≠ .cpl) :
    s.ctlClear k n = s.modRing k n fun r => { r with enabled := false, busy := true, stopped := false } := by
  rw [State.ctlClear, if_pos ready]
  unfold State.ringDisable
  dsimp only
  rw [on]
  cases k with
  | cmdq => rfl
  | cpl => exact absurd rfl kind
  | evt => rfl

end stopped

/-- Settles O51, clause by clause. -/
theorem doorbellsMoveTheIndexOrStopTheRing : Obligations.DoorbellsMoveTheIndexOrStopTheRing := by
  unfold Obligations.DoorbellsMoveTheIndexOrStopTheRing
  intro s
  refine ⟨fun k n v evt => ?_, fun q d stopped => descriptorFetch_otherTurn d fun turn => ?_, fun o st detail result own => ⟨?_, fun silent => ?_⟩,
    fun e id ts data urgent mark stopped => evtPut_stopped stopped id ts data urgent mark, fun ready => ⟨fun q on => ?_, fun e on => ?_⟩⟩
  · intro write cmd enable r past
    have writes (w : BitVec 64) : exec (write w) s = .next (s.doorbell k n w) := exec_doorbell evt w
    have value : (v.setWidth 64).toNat = v.toNat := by
      rw [BitVec.toNat_setWidth]
      exact Nat.mod_eq_of_lt (Nat.lt_trans v.isLt (by decide))
    have taken := doorbell_taken (s := s) (k := k) (n := n) (w := v.setWidth 64)
    have stopped := doorbell_stopped (s := s) evt (w := v.setWidth 64)
    rw [value] at taken
    refine ⟨fun off => (writes _).trans (congrArg _ (doorbell_disabled off _)), fun w wide => (writes w).trans (congrArg _ (doorbell_wide wide)),
      fun same => (writes _).trans (congrArg _ (doorbell_repeated (value.trans same))), fun ready on later moves => ⟨fun bad => ?_, fun below room => ?_⟩,
      fun halted => ⟨_, writes _, stopped halted⟩, hifStatus_stopped evt, fun on => ?_⟩
    · refine (writes _).trans (congrArg _ ((taken ready on later v.isLt moves).trans (if_pos ?_)))
      rw [Bool.or_eq_true, decide_eq_true_eq, decide_eq_true_eq]
      exact bad
    · refine (writes _).trans (congrArg _ ((taken ready on later v.isLt moves).trans (if_neg ?_)))
      rw [Bool.or_eq_true, decide_eq_true_eq, decide_eq_true_eq]
      exact fun bad => bad.elim (Nat.not_le.mpr below) room
    · exact (exec_enable evt v).trans (congrArg _ (ctlWrite_enabled on v))
  · exact Bool.false_ne_true ((queueReady_stopped stopped).symm.trans (nextQueue_ready turn))
  · exact fun on runs svc loud => completeRaw_written own on runs svc loud
  · rw [completeRaw_silent own silent]
    exact ⟨rfl, rfl, rfl⟩
  · exact congrArg _ (ctlClear_stops ready on (by decide))
  · exact congrArg _ (ctlClear_stops ready ((congrArg Ring.enabled (ring_evt_ofNat e)).trans on) (by decide))

end Sys2Proof.Machine
end

