-- ==== Sys2Proof/Proofs/WindowCopies.lean ====
section
/-!
PROOFS. The package and tile windows of BAR0: a refresh changes nothing else, and puts the summary of each reporting tile into its window
(R375, R386, R392, R393).
-/

namespace Sys2Proof.Machine

/-- Beside the copies of the windows, which keep their canonical form, nothing differs. -/
structure State.Windowed (s s' : State) : Prop where
  rest : s' = { s with windows := s'.windows }
  wf   : SMap.wf s'.windows = true

section windowed

variable {s0 s : State}

theorem State.Windowed.refl (h : SMap.wf s.windows = true) : State.Windowed s s := ⟨rfl, h⟩

theorem windowed_putWindow (h : State.Windowed s0 s) (off v : Nat) : State.Windowed s0 (s.putWindow off v) :=
  ⟨(congrArg (fun x : State => { x with windows := SMap.set s.windows off (v : Int) }) h.rest :), SMap.wf_set _ _ _ _ h.wf⟩

theorem windowed_putReported (h : State.Windowed s0 s) (off : Nat) (on : Bool) : State.Windowed s0 (s.putReported off on) :=
  windowed_putWindow h _ _

theorem windowed_each {α : Type} {f : State → α → State} (hf : ∀ s a, State.Windowed s0 s → State.Windowed s0 (f s a)) (l : List α)
    (h : State.Windowed s0 s) : State.Windowed s0 (s.each l f) := by
  induction l generalizing s with
  | nil => exact h
  | cons a l ih => exact ih (hf s a h)

theorem State.Windowed.tile (h : State.Windowed s0 s) (t : TileId) : s.tile t = s0.tile t := by rw [h.rest]; rfl

theorem State.Windowed.head (h : State.Windowed s0 s) : s.head = s0.head := by rw [h.rest]

/-- What a tile's summary says does not hang on the windows. -/
theorem State.Windowed.ilkSummary (h : State.Windowed s0 s) (t : TileId) : s.ilkSummary t = s0.ilkSummary t := by rw [h.rest]; rfl

theorem windows_putWindow (h : State.Windowed s0 s) (off v j : Nat) :
    (s.putWindow off v).windows.get j = if j = off then (v : Int) else s.windows.get j := by
  split
  case isTrue same =>
    subst same
    exact SMap.get_set_self _ _ _ _ h.wf
  case isFalse other => exact SMap.get_set_ne _ _ _ _ _ _ h.wf other

/-- A word of the windows that no step of a run puts stands after the run. -/
theorem windows_each {α : Type} {f : State → α → State} {j : Nat} {v : Int} (l : List α)
    (hf : ∀ s a, State.Windowed s0 s → State.Windowed s0 (f s a))
    (kept : ∀ s, ∀ a ∈ l, State.Windowed s0 s → s.windows.get j = v → (f s a).windows.get j = v) (h : State.Windowed s0 s)
    (now : s.windows.get j = v) : (s.each l f).windows.get j = v := by
  induction l generalizing s with
  | nil => exact now
  | cons a l ih =>
    exact ih (fun s b hb => kept s b (List.mem_cons_of_mem a hb)) (hf s a h) (kept s a List.mem_cons_self h now)

/-- A word of the windows that one step of a run puts, and every other step keeps, stands after the run. -/
theorem windows_each_put {α : Type} {f : State → α → State} {j : Nat} {v : Int} {x : α} (l : List α) (hx : x ∈ l)
    (hf : ∀ s a, State.Windowed s0 s → State.Windowed s0 (f s a)) (own : ∀ s, State.Windowed s0 s → (f s x).windows.get j = v)
    (kept : ∀ s, ∀ a ∈ l, State.Windowed s0 s → s.windows.get j = v → (f s a).windows.get j = v) (h : State.Windowed s0 s) :
    (s.each l f).windows.get j = v := by
  induction l generalizing s with
  | nil => exact absurd hx List.not_mem_nil
  | cons a l ih =>
    have rest := fun s b (hb : b ∈ l) => kept s b (List.mem_cons_of_mem a hb)
    rcases List.mem_cons.mp hx with rfl | hm
    · exact windows_each l hf rest (hf s x h) (own s h)
    · exact ih hm rest (hf s a h)

end windowed

/-! ### The refresh (R386) -/

section refresh

variable {s s0 x : State} {t : TileId}

/-- The refresh of one tile's window. -/
def State.refreshTile (s : State) (t : TileId) : State :=
  if (s.tile t).die.reported then s.each (s.tileWords t) fun y w => y.putWindow (0x8000 + 0x400 * (4 * s.pkg + t.num) + w.1) w.2
  else s.putReported (0x8000 + 0x400 * (4 * s.pkg + t.num)) false

/-- The refresh of the reported bit of a tile of another package. -/
def State.refreshBit (s : State) (bt : Nat) : State :=
  if s.head.board.tilesUp.getLsbD bt then s else s.putReported (0x8000 + 0x400 * bt) false

/-- The refresh of the package's own words. -/
def State.refreshPackage (s : State) : State := s.each s.pkgWords fun y w => y.putWindow (0x4000 + 0x1000 * s.pkg + w.1) w.2

theorem State.Windowed.pkg (h : State.Windowed s0 x) : x.pkg = s0.pkg := by rw [State.pkg, h.head]; rfl

theorem windowed_refreshTile (s : State) (t : TileId) (h : State.Windowed s0 s) : State.Windowed s0 (s.refreshTile t) := by
  rw [State.refreshTile]
  split
  · exact windowed_each (fun _ _ h => windowed_putWindow h _ _) _ h
  · exact windowed_putReported h _ _

theorem windowed_refreshBit (s : State) (bt : Nat) (h : State.Windowed s0 s) : State.Windowed s0 (s.refreshBit bt) := by
  rw [State.refreshBit]
  split
  · exact h
  · exact windowed_putReported h _ _

theorem num_inj {t u : TileId} (h : t.num = u.num) : t = u := by
  revert h
  cases t <;> cases u <;> decide

/-- The words of a tile's window that its refresh puts. -/
theorem refreshTile_puts (h : State.Windowed s0 x) (reported : (s0.tile t).die.reported = true) :
    (x.refreshTile t).windows.get (0x8004 + 0x400 * (4 * s0.pkg + t.num)) = s0.ilkSummary t ∧
    (x.refreshTile t).windows.get (0x8008 + 0x400 * (4 * s0.pkg + t.num)) = (s0.tile t).die.secBoot := by
  rw [State.refreshTile, h.tile t, h.pkg, if_pos reported, State.tileWords, h.ilkSummary, h.tile t]
  have h1 := windowed_putWindow h (0x8000 + 0x400 * (4 * s0.pkg + t.num) + 0x000) (x.pwrDomains t)
  have h2 := windowed_putWindow h1 (0x8000 + 0x400 * (4 * s0.pkg + t.num) + 0x004) (s0.ilkSummary t)
  simp only [State.each_cons, State.each_nil]
  rw [windows_putWindow h2, windows_putWindow h1, windows_putWindow h2]
  exact ⟨(if_neg (by omega)).trans (if_pos (by omega)), if_pos (by omega)⟩

/-- The refresh of another tile's window puts no word of it. -/
theorem refreshTile_other {j : Nat} {u : TileId} (h : State.Windowed s0 x) (other : u ≠ t) (lo : 0x8000 + 0x400 * (4 * s0.pkg + t.num) ≤ j)
    (hi : j < 0x8400 + 0x400 * (4 * s0.pkg + t.num)) : (x.refreshTile u).windows.get j = x.windows.get j := by
  have apart : u.num ≠ t.num := fun same => other (num_inj same)
  rw [State.refreshTile, h.pkg]
  split
  · refine windows_each (s0 := s0) _ (fun _ _ h => windowed_putWindow h _ _) (fun y w hw hy now => ?_) h rfl
    have small : w.1 < 0x400 := by
      simp only [State.tileWords, List.mem_cons, List.not_mem_nil, or_false] at hw
      rcases hw with rfl | rfl | rfl <;> dsimp only <;> omega
    rw [windows_putWindow hy, if_neg (by omega)]
    exact now
  · exact (windows_putWindow h _ _ j).trans (if_neg (by omega))

/-- The refresh of a reported bit puts only the first word of a window. -/
theorem refreshBit_other {bt j : Nat} (h : State.Windowed s0 x) (apart : j ≠ 0x8000 + 0x400 * bt) :
    (x.refreshBit bt).windows.get j = x.windows.get j := by
  rw [State.refreshBit]
  split
  · rfl
  · exact (windows_putWindow h _ _ j).trans (if_neg apart)

theorem refresh_eq (s : State) : s.refreshOwn.refreshFar =
    (s.refreshPackage.each s.refreshPackage.tileIds State.refreshTile).each
      ((List.range 16).filter fun bt => bt / 4 != s.refreshOwn.pkg) State.refreshBit := rfl

theorem windowRefresh_head (leads : s.isHead = true) (runs : (s.tile .t0).die.inReset = false) :
    exec .windowRefresh s = .next s.refreshOwn.refreshFar := by
  change execWindowRefresh s = _
  rw [execWindowRefresh, onHead_eq, runs, leads]
  rfl

/-- A refresh changes nothing but the windows. -/
theorem windowed_refresh (wf : SMap.wf s.windows = true) : State.Windowed s s.refreshOwn.refreshFar := by
  have own : State.Windowed s s.refreshPackage := windowed_each (fun _ _ h => windowed_putWindow h _ _) _ (.refl wf)
  rw [refresh_eq]
  exact windowed_each windowed_refreshBit _ (windowed_each windowed_refreshTile _ own)

/-- A refresh puts the summary and the boot state of each reporting tile into its window. -/
theorem refresh_puts (wf : SMap.wf s.windows = true) (ht : s.hasTile t = true) (reported : (s.tile t).die.reported = true) :
    s.refreshOwn.refreshFar.windows.get (0x8004 + 0x400 * (4 * s.pkg + t.num)) = s.ilkSummary t ∧
    s.refreshOwn.refreshFar.windows.get (0x8008 + 0x400 * (4 * s.pkg + t.num)) = (s.tile t).die.secBoot := by
  have own : State.Windowed s s.refreshPackage := windowed_each (fun _ _ h => windowed_putWindow h _ _) _ (.refl wf)
  have here : t ∈ s.refreshPackage.tileIds := mem_tileIds (by rw [own.rest]; exact ht)
  have kept {j : Nat} {v : Int} (first : j % 0x400 ≠ 0) (lo : 0x8000 + 0x400 * (4 * s.pkg + t.num) ≤ j)
      (hi : j < 0x8400 + 0x400 * (4 * s.pkg + t.num)) (puts : ∀ x, State.Windowed s x → (x.refreshTile t).windows.get j = v) :
      s.refreshOwn.refreshFar.windows.get j = v := by
    rw [refresh_eq]
    refine windows_each _ windowed_refreshBit (fun y bt _ hy now => (refreshBit_other hy (by omega)).trans now)
      (windowed_each windowed_refreshTile _ own) ?_
    refine windows_each_put _ here windowed_refreshTile puts (fun y u _ hy now => ?_) own
    by_cases same : u = t
    · subst same
      exact puts y hy
    · exact (refreshTile_other hy same lo hi).trans now
  exact ⟨kept (by omega) (by omega) (by omega) fun x hx => (refreshTile_puts hx reported).1,
    kept (by omega) (by omega) (by omega) fun x hx => (refreshTile_puts hx reported).2⟩

end refresh

end Sys2Proof.Machine
end

