-- ==== Sys2Proof/Proofs/RingRegisters.lean ====
section
/-!
PROOFS. The registers of the rings and of the interrupts: what a CTL write takes, which register stands at which offset, and when a vector
signals (R299, R301, R312, R386, R387, R390, R391).
-/

namespace Sys2Proof.Machine

/-! ### CTL (R390, R391) -/

section ctl

variable {s : State} {k : RingKind} {n : Fin 32}

/-- The CTL value of a ring without enable. -/
def ctlOf (k : RingKind) (size route prio : Nat) : Word :=
  match k with
  | .cmdq => BitVec.ofNat 32 (2 * size + 256 * route + 65536 * prio)
  | _ => BitVec.ofNat 32 (2 * size + 64 * route)

theorem or_one_of_even (m : Nat) : 2 * m ||| 1 = 2 * m + 1 := (Nat.two_pow_add_eq_or_of_lt (i := 1) (by decide) m).symm

theorem toNat_ctlOf {size route prio : Nat} (hi : size ≤ 12) (cmdq : k = .cmdq → route < 32 ∧ prio < 4) (other : k ≠ .cmdq → route < 64) :
    (ctlOf k size route prio ||| 1).toNat = (match k with
      | .cmdq => 2 * size + 256 * route + 65536 * prio + 1
      | _ => 2 * size + 64 * route + 1) := by
  have odd (m : Nat) (h : 2 * m < 2 ^ 32) : (BitVec.ofNat 32 (2 * m) ||| 1).toNat = 2 * m + 1 := by
    rw [BitVec.toNat_or, BitVec.toNat_ofNat, Nat.mod_eq_of_lt h]
    exact or_one_of_even m
  cases k
  case cmdq =>
    obtain ⟨hr, hp⟩ := cmdq rfl
    have e : 2 * size + 256 * route + 65536 * prio = 2 * (size + 128 * route + 32768 * prio) := by ring
    dsimp only [ctlOf]
    rw [e, odd _ (by omega)]
  case cpl | evt =>
    have hr := other (by decide)
    have e : 2 * size + 64 * route = 2 * (size + 32 * route) := by ring
    dsimp only [ctlOf]
    rw [e, odd _ (by omega)]

/-- The fields of a CTL value with enable. -/
theorem ctlFields_ctlOf {r : Ring} {size route prio : Nat} (lo : 4 ≤ size) (hi : size ≤ 12) (cmdq : k = .cmdq → route < 32 ∧ prio < 4)
    (other : k ≠ .cmdq → route < 64 ∧ prio = r.prio) :
    ctlFields k (ctlOf k size route prio ||| 1).toNat r = some { r with sizeLog2 := size, route := route, prio := prio } := by
  rw [toNat_ctlOf hi cmdq fun h => (other h).1]
  cases k
  case cmdq =>
    obtain ⟨hr, hp⟩ := cmdq rfl
    have w (a b c : Nat) (ha : a = (2 * size + 256 * route + 65536 * prio + 1) / b % c) : (2 * size + 256 * route + 65536 * prio + 1) / b % c = a := ha.symm
    unfold ctlFields
    simp only [w size 2 16 (by omega), w 0 (2 ^ 5) (2 ^ 3) (by omega), w 0 (2 ^ 13) (2 ^ 3) (by omega), w 0 (2 ^ 18) (2 ^ 14) (by omega),
      w route (2 ^ 8) (2 ^ 5) (by omega), w prio (2 ^ 16) (2 ^ 2) (by omega)]
    exact if_pos (by rw [decide_eq_true ⟨lo, hi⟩]; rfl)
  case cpl | evt =>
    obtain ⟨hr, hp⟩ := other (by decide)
    have w (a b c : Nat) (ha : a = (2 * size + 64 * route + 1) / b % c) : (2 * size + 64 * route + 1) / b % c = a := ha.symm
    unfold ctlFields
    simp only [w size 2 16 (by omega), w 0 (2 ^ 5) (2 ^ 1) (by omega), w 0 (2 ^ 12) (2 ^ 20) (by omega), w route (2 ^ 6) (2 ^ 6) (by omega), hp]
    exact if_pos (by rw [decide_eq_true ⟨lo, hi⟩]; rfl)

/-- A ring that starts: both indices 0 and phase 1. -/
def Ring.started (r : Ring) (size route prio : Nat) : Ring :=
  { r with sizeLog2 := size, route := route, prio := prio, enabled := true, devIndex := 0, hostIndex := 0, phase := true, stopped := false
           unsignalled := 0, lost := 0, markAt := none, recHeld := false, ringHeld := false }

/-- A CTL write that sets enable starts a disabled ring whose entries and completion ring are there. -/
theorem ctlWrite_starts {size route prio : Nat} (ready : s.hostReady = true) (later : s.v1 = false) (off : (s.ring k n).enabled = false)
    (free : (s.ring k n).busy = false) (lo : 4 ≤ size) (hi : size ≤ 12) (room : (s.ring k n).base.toNat + 2 ^ size * ringEntry k ≤ 2 ^ 64)
    (cmdq : k = .cmdq → route < 32 ∧ prio < 4 ∧ (s.ring .cpl (Fin.ofNat 32 route)).enabled = true ∧ (s.ring .cpl (Fin.ofNat 32 route)).busy = false)
    (other : k ≠ .cmdq → route < 64 ∧ prio = (s.ring k n).prio) :
    s.ctlWrite k n (ctlOf k size route prio ||| 1) = s.modRing k n fun r => r.started size route prio := by
  have fields := ctlFields_ctlOf (k := k) (r := s.ring k n) lo hi (fun h => ⟨(cmdq h).1, (cmdq h).2.1⟩) other
  have on : ((ctlOf k size route prio ||| 1).toNat % 2 == 1) = true := by
    rw [beq_iff_eq, BitVec.toNat_or, Nat.or_mod_two_eq_one]
    exact .inr rfl
  unfold State.ctlWrite
  dsimp only
  rw [ready, if_neg (by decide), fields]
  dsimp only
  rw [if_neg (Bool.eq_false_iff.mp off), if_neg (Bool.eq_false_iff.mp free), on, if_neg (by decide)]
  refine (if_pos ?_).trans (modRing_congr rfl)
  rw [later, decide_eq_true room]
  cases k
  case cmdq =>
    obtain ⟨-, -, enabled, idle⟩ := cmdq rfl
    dsimp only
    rw [enabled, idle]
    rfl
  case cpl | evt => rfl

end ctl

/-! ### The offsets (R386, R390) -/

section offsets

variable {s : State} {k : RingKind} {n : Fin 32}

/-- The offset of a ring's registers. -/
def ringOffset (k : RingKind) (n : Fin 32) : Nat :=
  match k with
  | .cmdq => 0x100 + 32 * n.val
  | .cpl => 0x500 + 32 * n.val
  | .evt => 0x900 + 32 * n.val

theorem ringOffset_aligned : ringOffset k n % 32 = 0 ∧ ringOffset k n < 0xD00 := by
  have := n.isLt
  cases k <;> dsimp only [ringOffset] <;> omega

theorem isHead_of_ready (ready : s.hostReady = true) : s.isHead = true := by
  simp only [State.hostReady, Bool.and_eq_true] at ready
  exact ready.1.2

/-- The registers of the rings stand between 0x100 and 0xA00. -/
theorem registerWrite_rings (ready : s.hostReady = true) {o : Nat} (lo : 0x100 ≤ o) (hi : o < 0xA00) (v : Word) : s.registerWrite o v =
    if o < 0x500 then s.ringWrite .cmdq (Fin.ofNat 32 ((o - 0x100) / 32)) o v
    else if o < 0x900 then s.ringWrite .cpl (Fin.ofNat 32 ((o - 0x500) / 32)) o v
    else s.ringWrite .evt (Fin.ofNat 32 ((o - 0x900) / 32)) o v := by
  unfold State.registerWrite
  rw [isHead_of_ready ready, ready, if_neg (by decide), if_neg (by omega), if_neg (by omega), if_neg (by omega), if_neg (by omega),
    if_neg (by omega), if_neg (by omega), if_neg (by decide)]
  by_cases h : o < 0x500
  · rw [if_pos ⟨lo, h⟩, if_pos h]
  · rw [if_neg (by omega), if_neg h]
    by_cases k : o < 0x900
    · rw [if_pos (by omega), if_pos k]
    · rw [if_neg (by omega), if_pos (by omega), if_neg k]

/-- The registers of a ring stand at its offset. -/
theorem registerWrite_ring (ready : s.hostReady = true) (evt : k = .evt → n.val < 8) {i : Nat} (hi : i < 32) (v : Word) :
    s.registerWrite (ringOffset k n + i) v = s.ringWrite k n (ringOffset k n + i) v := by
  have hn := n.isLt
  have number {o a : Nat} (h : o = a + 32 * n.val + i) : Fin.ofNat 32 ((o - a) / 32) = n := Fin.ext (by rw [Fin.val_ofNat]; omega)
  generalize at_ : ringOffset k n + i = o
  cases k with
  | cmdq =>
    change 0x100 + 32 * n.val + i = o at at_
    rw [registerWrite_rings ready (by omega) (by omega), if_pos (by omega), number at_.symm]
  | cpl =>
    change 0x500 + 32 * n.val + i = o at at_
    rw [registerWrite_rings ready (by omega) (by omega), if_neg (by omega), if_pos (by omega), number at_.symm]
  | evt =>
    have below := evt rfl
    change 0x900 + 32 * n.val + i = o at at_
    rw [registerWrite_rings ready (by omega) (by omega), if_neg (by omega), if_neg (by omega), number at_.symm]

theorem ringWrite_ctl (v : Word) : s.ringWrite k n (ringOffset k n + 8) v = s.ctlWrite k n v := by
  have aligned := (ringOffset_aligned (k := k) (n := n)).1
  unfold State.ringWrite
  rw [show (ringOffset k n + 8) % 32 = 0x08 by omega]
  rfl

theorem ringWrite_low (v : Word) : s.ringWrite k n (ringOffset k n + 0) v = s.modHost fun h => { h with lowWord := some (ringOffset k n, v) } := by
  have aligned := (ringOffset_aligned (k := k) (n := n)).1
  unfold State.ringWrite
  rw [show (ringOffset k n + 0) % 32 = 0x00 by omega]
  rfl

/-- BASE takes effect with its high word. -/
theorem ringWrite_high {low high : Word} (off : (s.ring k n).enabled = false) (free : (s.ring k n).busy = false) (page : low.toNat % 4096 = 0)
    (held : s.head.host.lowWord = some (ringOffset k n, low)) : s.ringWrite k n (ringOffset k n + 4) high =
      (s.modHost fun h => { h with lowWord := none }).modRing k n fun r => { r with base := BitVec.ofNat 64 (low.toNat + 2 ^ 32 * high.toNat) } := by
  have aligned := (ringOffset_aligned (k := k) (n := n)).1
  have put : s.ringWrite k n (ringOffset k n + 4) high = s.baseWrite k n (ringOffset k n + 4) true high := by
    unfold State.ringWrite
    rw [show (ringOffset k n + 4) % 32 = 0x04 by omega]
    rfl
  rw [put]
  unfold State.baseWrite
  simp only [held, if_true, off, free, page, Bool.not_true, Bool.false_eq_true, if_false, ne_eq, not_true, decide_false, Bool.or_false]

end offsets

/-! ### Register writes (R386) -/

section writes

variable {s : State}

theorem registerWrite_word {o : Nat} (small : o < 65536) (aligned : o % 4 = 0) (v : Word) :
    exec (.registerWrite (BitVec.ofNat 16 o) (4, v.setWidth 64)) s = .next (s.registerWrite o v) := by
  have value : BitVec.ofNat 32 (v.setWidth 64).toNat = v := by
    rw [BitVec.toNat_setWidth, Nat.mod_eq_of_lt (Nat.lt_trans v.isLt (by decide)), BitVec.ofNat_toNat, BitVec.setWidth_eq]
  change execRegisterWrite (BitVec.ofNat 16 o) (4, v.setWidth 64) s = _
  rw [execRegisterWrite, onHead_eq, BitVec.toNat_ofNat, Nat.mod_eq_of_lt small]
  dsimp only
  rw [aligned, value]
  rfl

theorem registerWrite_wide {o : Nat} (small : o < 65536) (aligned : o % 8 = 0) (wide : isWide o = true) (v : BitVec 64) :
    exec (.registerWrite (BitVec.ofNat 16 o) (8, v)) s =
      .next ((s.registerWrite o (BitVec.ofNat 32 v.toNat)).registerWrite (o + 4) (BitVec.ofNat 32 (v.toNat / 2 ^ 32))) := by
  change execRegisterWrite (BitVec.ofNat 16 o) (8, v) s = _
  rw [execRegisterWrite, onHead_eq, BitVec.toNat_ofNat, Nat.mod_eq_of_lt small]
  dsimp only
  rw [aligned, wide]
  rfl

/-- A write of another size or alignment is ignored. -/
theorem registerWrite_ignored {offset : BitVec 16} {len : Nat} {value : BitVec 64} (word : len ≠ 4 ∨ offset.toNat % 4 ≠ 0)
    (wide : len ≠ 8 ∨ offset.toNat % 8 ≠ 0) : exec (.registerWrite offset (len, value)) s = .next s := by
  have not4 : (decide (len = 4) && offset.toNat % 4 == 0) = false := by
    rw [Bool.and_eq_false_iff, decide_eq_false_iff_not, beq_eq_false_iff_ne]
    exact word
  have not8 : (decide (len = 8) && offset.toNat % 8 == 0) = false := by
    rw [Bool.and_eq_false_iff, decide_eq_false_iff_not, beq_eq_false_iff_ne]
    exact wide
  change execRegisterWrite offset (len, value) s = _
  rw [execRegisterWrite, onHead_eq]
  dsimp only
  rw [not4, not8]
  rfl

/-- The global registers that are commands of their own. -/
theorem registerWrite_global (leads : s.isHead = true) (value : Word) :
    exec (.registerWrite 0x24 (4, value.setWidth 64)) s = exec (.ifcCtlWrite value) s ∧
      exec (.registerWrite 0x20 (4, 1)) s = exec .sessEnd s ∧ exec (.registerWrite 0x00 (4, value.setWidth 64)) s = .next s := by
  refine ⟨(registerWrite_word (o := 0x24) (by decide) rfl value).trans (congrArg Host.Outcome.next ?_),
    (registerWrite_word (o := 0x20) (by decide) rfl 1).trans (congrArg Host.Outcome.next ?_),
    (registerWrite_word (o := 0x00) (by decide) rfl value).trans (congrArg Host.Outcome.next ?_)⟩
  all_goals
    unfold State.registerWrite
    rw [leads]
  · rfl
  · rfl
  · exact ite_self s

end writes

/-! ### Interrupts (R312) -/

section interrupts

variable {s : State} {k : RingKind} {n : Fin 32}

/-- Moderation leaves no record unsignalled and signals the ring's vector. -/
theorem moderation_signals (kind : k ≠ .cmdq) (evt : k = .evt → n.val < 8) (on : (s.ring k n).enabled = true)
    (some : (s.ring k n).unsignalled ≠ 0) : ∃ s', exec (.interruptModerationTimeout k n) s = .next s' ∧
      (s'.ring k n).unsignalled = 0 ∧ s'.hostMem = s.hostMem ∧
      (s.head.host.masked (s.ring k n).route = true → s'.out = s.out ∧
        s'.head.host.pba = s.head.host.pba ||| BitVec.ofNat 64 (2 ^ (s.ring k n).route)) ∧
      (s.head.host.masked (s.ring k n).route = false → s'.out = .msix (s.ring k n).route :: s.out ∧ s'.head.host.pba = s.head.host.pba) := by
  have runs : exec (.interruptModerationTimeout k n) s = .next ((s.modRing k n fun r => { r with unsignalled := 0 }).signal (s.ring k n).route) := by
    change execInterruptModerationTimeout k n s = _
    rw [execInterruptModerationTimeout, onHead_eq]
    refine congrArg _ (if_neg ?_)
    rw [on, decide_eq_false some, beq_eq_false_iff_ne.mpr kind]
    decide
  have masks (r : Ring) : (s.head.host.setRing k n r).msix = s.head.host.msix ∧ (s.head.host.setRing k n r).pba = s.head.host.pba := by
    cases k with
    | cmdq => exact ⟨rfl, rfl⟩
    | cpl => exact ⟨rfl, rfl⟩
    | evt =>
      rw [HostIf.setRing, dif_pos (evt rfl)]
      exact ⟨rfl, rfl⟩
  have put := ring_modRing_self (s := s) evt fun r => { r with unsignalled := 0 }
  obtain ⟨msix, pba⟩ := masks { s.ring k n with unsignalled := 0 }
  refine ⟨_, runs, ?_⟩
  generalize moved : (s.modRing k n fun r => { r with unsignalled := 0 }) = s1 at put ⊢
  have mem : s1.hostMem = s.hostMem ∧ s1.out = s.out ∧ s1.head.host.pba = s.head.host.pba ∧ s1.head.host.msix = s.head.host.msix := by
    rw [← moved]
    exact ⟨rfl, rfl, pba, msix⟩
  obtain ⟨mem, out, pba, msix⟩ := mem
  have same : s1.head.host.masked (s.ring k n).route = s.head.host.masked (s.ring k n).route := by rw [HostIf.masked, msix]; rfl
  rw [State.signal, same]
  cases masked : s.head.host.masked (s.ring k n).route with
  | true =>
    rw [if_pos rfl]
    refine ⟨?_, mem, fun _ => ⟨out, by rw [← pba]; rfl⟩, fun h => absurd h (by decide)⟩
    change (s1.ring k n).unsignalled = 0
    rw [put]
  | false =>
    rw [if_neg Bool.false_ne_true]
    refine ⟨?_, mem, fun h => absurd h (by decide), fun _ => ⟨congrArg _ out, pba⟩⟩
    change (s1.ring k n).unsignalled = 0
    rw [put]

/-- Unmasking a vector sends what pends. -/
theorem msixUnmask_sends (ready : s.hostReady = true) (v : Fin 64) : ∃ s', exec (.msixVectorUnmask v) s = .next s' ∧
    s'.head.host.masked v.val = false ∧ s'.head.host.pba.getLsbD v.val = false ∧ s'.tiles = s.tiles ∧
    s'.out = (if s.head.host.pba.getLsbD v.val then [.msix v.val] else []) ++ s.out := by
  have open_ (m : SMap) : (SMap.get (SMap.set m (4 * v.val + 3) 0 1) (4 * v.val + 3) 1 % 2 == 1) = false := by
    rw [SMap.get_set_self_of_ne m _ (by decide)]
    rfl
  have runs : exec (.msixVectorUnmask v) s = .next (
      let s1 := s.modHost fun h => { h with msix := SMap.set h.msix (4 * v.val + 3) 0 1 }
      if s.head.host.pba.getLsbD v.val then
        (s1.modHost fun h => { h with pba := h.pba &&& ~~~(BitVec.ofNat 64 (2 ^ v.val)) }).emit (.msix v.val)
      else s1) := by
    change execMsixVectorUnmask v s = _
    rw [execMsixVectorUnmask, onHead_eq, if_pos ready, State.msixWrite]
    dsimp only
    rw [show (4 * v.val + 3) % 4 = 3 by omega, show (4 * v.val + 3) / 4 = v.val by omega]
    rfl
  refine ⟨_, runs, ?_⟩
  dsimp only
  cases pends : s.head.host.pba.getLsbD v.val with
  | true =>
    rw [if_pos rfl]
    refine ⟨open_ _, ?_, rfl, rfl⟩
    change (s.head.host.pba &&& ~~~(BitVec.ofNat 64 (2 ^ v.val))).getLsbD v.val = false
    rw [BitVec.getLsbD_and, BitVec.getLsbD_not, BitVec.getLsbD_ofNat, Nat.testBit_two_pow_self, decide_eq_true v.isLt]
    simp
  | false =>
    rw [if_neg Bool.false_ne_true]
    exact ⟨open_ _, pends, rfl, rfl⟩

end interrupts

end Sys2Proof.Machine
end

