-- ==== Sys2Proof/Proofs/HostRegisters.lean ====
section
/-!
PROOFS. Disabling a completion ring, IFC_CTL and BWK_STATUS, and with them the registers of the host interface as a whole (R299, R301, R312,
R375, R386 to R391).
-/

namespace Sys2Proof.Machine

section registers

variable {s : State}

theorem ringDisableComplete_busy {k : RingKind} {n : Fin 32} (busy : (s.ring k n).busy = true) :
    exec (.ringDisableComplete k n) s = .next (s.modRing k n fun r => { r with busy := false }) :=
  congrArg Host.Outcome.next (if_pos busy)

/-- An enabled queue names a completion ring. -/
theorem queueNames_iff {c : Nat} : (s.head.host.cmdq.toList.any fun q => q.enabled && q.route == c) = true ↔
    ∃ q : Fin 32, (s.ring .cmdq q).enabled = true ∧ (s.ring .cmdq q).route = c := by
  rw [List.any_eq_true]
  constructor
  · rintro ⟨r, mem, names⟩
    rw [Bool.and_eq_true, beq_iff_eq] at names
    obtain ⟨i, hi, rfl⟩ := List.mem_iff_getElem.mp mem
    exact ⟨⟨i, by simpa using hi⟩, names⟩
  · rintro ⟨q, on, route⟩
    refine ⟨s.ring .cmdq q, Vector.mem_toList_iff.mpr (Vector.getElem_mem q.isLt), ?_⟩
    rw [on, route, beq_self_eq_true]
    rfl

/-- A completion ring stops only when no enabled queue names it and nothing is reserved. -/
theorem cplRingDisable_of {c : Fin 32} (ready : s.hostReady = true) (on : (s.ring .cpl c).enabled = true) : exec (.cplRingDisable c) s = .next
    (if (s.head.host.cmdq.toList.any fun q => q.enabled && q.route == c.val) || (s.ring .cpl c).reserved != 0 then s
     else s.modRing .cpl c fun r => { r with enabled := false, busy := true, stopped := false }) := by
  change Host.Outcome.next (s.ctlClear .cpl c) = _
  rw [State.ctlClear, if_pos ready]
  unfold State.ringDisable
  dsimp only
  rw [on]
  rfl

/-! ### IFC_CTL (R389) -/

theorem timerArmed_iff : s.timerArmed = true ↔ ∃ i : Fin 8, ((s.head.time.timers)[i]).armed = true := by
  rw [State.timerArmed, List.any_eq_true]
  constructor
  · rintro ⟨x, mem, armed⟩
    obtain ⟨i, hi, rfl⟩ := List.mem_iff_getElem.mp mem
    exact ⟨⟨i, by simpa using hi⟩, armed⟩
  · rintro ⟨i, armed⟩
    exact ⟨_, Vector.mem_toList_iff.mpr (Vector.getElem_mem i.isLt), armed⟩

theorem ifcWrite_armed (value : Word) (armed : s.timerArmed = true ∨ s.farArmed = true) : s.ifcWrite value = s := by
  refine if_pos ?_
  rcases armed with near | far
  · rw [near]
    simp
  · rw [far]
    simp

theorem ifcWrite_free {value : Word} (small : value.toNat < 2) (near : s.timerArmed = false) (far : s.farArmed = false) : s.ifcWrite value =
    if s.head.time.compatStrap && value == 0 then s
    else (s.modTime fun tb => { tb with compatRk := value == 1 }).bwkTell (.compat (value == 1)) := by
  rw [State.ifcWrite, near, far, decide_eq_false (Nat.not_le.mpr small)]
  rfl

/-! ### BWK_STATUS (R375, R386) -/

theorem bwkStatusRead_head (leads : s.isHead = true) (pkg : Fin 4) : exec (.bwkStatusRead pkg) s = .next
    (let word := (s.windows.get (0x4100 + 0x1000 * pkg.val)).toNat
     let s1 := { s with windows := SMap.set s.windows (0x4100 + 0x1000 * pkg.val) (word % 2 ^ 24 : Nat) }
     if pkg.val = s.pkg then s1.changesRead (word / 2 ^ 24) else s1.bwkSend pkg.val (.changesRead (word / 2 ^ 24))) := by
  change execBwkStatusRead pkg s = _
  rw [execBwkStatusRead, onHead_eq, leads]
  rfl

theorem bwkSend_emits (k : Nat) (pl : BwkPayload) : State.Emits s (s.bwkSend k pl) := by
  rw [State.bwkSend]
  split
  · exact emits_emit _
  · exact .refl s

theorem windows_bwkSend (k : Nat) (pl : BwkPayload) : (s.bwkSend k pl).windows = s.windows := by
  rw [State.bwkSend]
  split <;> rfl

/-- Reading BWK_STATUS clears the link changes in the window and in its package. -/
theorem bwkStatusRead_clears (leads : s.isHead = true) (wf : SMap.wf s.windows = true) (pkg : Fin 4) :
    let k := 0x4100 + 0x1000 * pkg.val
    let word := (s.windows.get k).toNat
    ∃ s', exec (.bwkStatusRead pkg) s = .next s' ∧ s'.tiles = s.tiles ∧ s'.windows.get k = ((word % 2 ^ 24 : Nat) : Int) ∧
      (∀ j, j ≠ k → s'.windows.get j = s.windows.get j) ∧
      (pkg.val = s.pkg → s'.head = { s.head with board :=
        { s.head.board with linkChanges := s.head.board.linkChanges - word / 2 ^ 24 } } ∧ s'.out = s.out) ∧
      (pkg.val ≠ s.pkg → s'.head = s.head ∧
        s'.out = ({ s with windows := s'.windows }.bwkSend pkg.val (.changesRead (word / 2 ^ 24))).out) := by
  intro k word
  refine ⟨_, bwkStatusRead_head leads pkg, ?_⟩
  dsimp only
  have put : SMap.get (SMap.set s.windows k (word % 2 ^ 24 : Nat)) k = ((word % 2 ^ 24 : Nat) : Int) := SMap.get_set_self _ _ _ _ wf
  have kept (j : Nat) (other : j ≠ k) : SMap.get (SMap.set s.windows k (word % 2 ^ 24 : Nat)) j = s.windows.get j :=
    SMap.get_set_ne _ _ _ _ _ _ wf other
  by_cases own : pkg.val = s.pkg
  · rw [if_pos own]
    exact ⟨rfl, put, kept, fun _ => ⟨rfl, rfl⟩, fun other => absurd own other⟩
  · rw [if_neg own]
    have sent := bwkSend_emits (s := { s with windows := SMap.set s.windows k (word % 2 ^ 24 : Nat) }) pkg.val (.changesRead (word / 2 ^ 24))
    rw [windows_bwkSend]
    exact ⟨sent.tiles, put, kept, fun same => absurd same own, fun _ => ⟨sent.head, rfl⟩⟩

end registers

/-- Settles O52, clause by clause. -/
theorem ringRegistersAndInterrupts : Obligations.RingRegistersAndInterrupts := by
  unfold Obligations.RingRegistersAndInterrupts
  intro s
  refine ⟨fun ready later => ⟨fun n k size route prio lo hi evt => ?rings, fun c on => ?disable, msixUnmask_sends ready⟩, fun value armed => ?armed,
    fun near far => ?ifc, fun pkg => ⟨fun away => ?status, fun leads wf => bwkStatusRead_clears leads wf pkg⟩, fun leads value => registerWrite_global leads value,
    fun offset len value => registerWrite_ignored, fun leads runs wf => ?refresh⟩
  case rings =>
    intro r ctl enable off
    have offset : off = ringOffset k n := by cases k <;> rfl
    have value : ctl = ctlOf k size route prio := by cases k <;> rfl
    have starts : exec enable s = .next (s.ctlWrite k n (ctl ||| 1)) := exec_enable evt ctl
    obtain ⟨aligned, small⟩ := ringOffset_aligned (k := k) (n := n)
    have below : ringOffset k n < 0xA00 := by
      have hn := n.isLt
      cases k <;> dsimp only [ringOffset]
      case cmdq | cpl => omega
      case evt => exact Nat.add_lt_add_left (Nat.mul_lt_mul_of_pos_left (evt rfl) (by decide)) 0x900
    refine ⟨fun offed free room cmdq other => ⟨?_, ?_⟩, fun low high offed free page held => ?_, fun base offed free page => ?_, ringDisableComplete_busy,
      fun kind on some => moderation_signals kind evt on some⟩
    · rw [starts, value]
      exact congrArg _ (ctlWrite_starts ready later offed free lo hi room cmdq other)
    · rw [starts, offset, registerWrite_word (by omega) (by omega), registerWrite_ring ready evt (by decide), ringWrite_ctl]
    · rw [offset] at held ⊢
      rw [registerWrite_word (by omega) (by omega), registerWrite_ring ready evt (by decide), ringWrite_high offed free page held]
    · have wide : isWide (ringOffset k n) = true := by
        have first : 0x100 ≤ ringOffset k n := by cases k <;> exact Nat.le_add_right_of_le (by decide)
        rw [isWide, decide_eq_true ⟨first, below⟩, aligned]
        rfl
      rw [offset, registerWrite_wide (by omega) (by omega) wide]
      refine congrArg _ ((congrArg (State.registerWrite · _ _)
        ((registerWrite_ring ready evt (i := 0) (by decide) _).trans (ringWrite_low _))).trans ?_)
      have same (h : HostIf) (w : Option (Nat × Word)) : { h with lowWord := w }.ring k n = h.ring k n := by cases k <;> rfl
      have halves : BitVec.ofNat 64 ((BitVec.ofNat 32 base.toNat).toNat + 2 ^ 32 * (BitVec.ofNat 32 (base.toNat / 2 ^ 32)).toNat) = base := by
        have bound := base.isLt
        refine BitVec.eq_of_toNat_eq ?_
        rw [BitVec.toNat_ofNat, BitVec.toNat_ofNat, BitVec.toNat_ofNat]
        omega
      generalize first : (s.modHost fun h => { h with lowWord := some (ringOffset k n, BitVec.ofNat 32 base.toNat) }) = s1
      have ring : s1.ring k n = s.ring k n := first ▸ same ..
      rw [registerWrite_ring (s := s1) (first ▸ ready) evt (by decide),
        ringWrite_high (low := BitVec.ofNat 32 base.toNat) (by rw [ring]; exact offed) (by rw [ring]; exact free) ?_ (by rw [← first]; rfl), ← first]
      · refine modRing_congr ?_
        rw [halves]
      · rw [BitVec.toNat_ofNat]
        omega
  case disable =>
    rw [cplRingDisable_of ready on]
    refine ⟨fun held => congrArg _ (if_pos ?_), fun none unnamed => congrArg _ (if_neg ?_)⟩
    · rw [Bool.or_eq_true, queueNames_iff, bne_iff_ne]
      exact held.symm
    · rw [Bool.or_eq_true, queueNames_iff, bne_iff_ne]
      exact fun held => held.elim (fun ⟨q, on, route⟩ => unnamed q on route) fun some => some none
  case armed =>
    exact congrArg Host.Outcome.next (ifcWrite_armed value (armed.imp timerArmed_iff.mpr id))
  case ifc =>
    intro set
    have near : s.timerArmed = false := Bool.eq_false_iff.mpr fun armed => by
      obtain ⟨i, on⟩ := timerArmed_iff.mp armed
      rw [near i] at on
      exact Bool.false_ne_true on
    refine ⟨congrArg Host.Outcome.next ((ifcWrite_free (by decide) near far).trans (if_neg ?_)),
      fun strap => congrArg Host.Outcome.next ((ifcWrite_free (by decide) near far).trans (if_pos ?_)),
      fun strap => congrArg Host.Outcome.next ((ifcWrite_free (by decide) near far).trans (if_neg ?_))⟩
    · rw [show ((1 : Word) == 0) = false from rfl, Bool.and_false]
      exact Bool.false_ne_true
    · rw [strap]
      rfl
    · rw [strap]
      exact Bool.false_ne_true
  case status =>
    exact congrArg Host.Outcome.next (if_pos (by rw [away]; rfl))
  case refresh =>
    exact ⟨_, windowRefresh_head leads runs, (windowed_refresh wf).rest, fun t ht reported => refresh_puts wf ht reported⟩

end Sys2Proof.Machine
end

