-- ==== Sys2Proof/Proofs/Completions.lean ====
section
/-!
PROOFS. What a completion and the end of a session leave of the host interface (R306, R308, R316, R317).
-/

namespace Sys2Proof.Machine

/-! ### A completion record (R306, R308) -/

/-- A command leaves the host interface: beside the completion rings, whose registers stand, and the pending vectors, nothing else of it
differs, and no tile. -/
structure State.Completed (s s' : State) (o : Outstanding) : Prop where
  host    : s'.head.host = { s.head.host with
    outstanding := s.head.host.outstanding.erase o, cpl := s'.head.host.cpl, pba := s'.head.host.pba }
  enabled : ∀ n : Fin 32, ((s'.head.host.cpl)[n]).enabled = ((s.head.host.cpl)[n]).enabled
  tiles   : s'.tiles = s.tiles
  board   : s'.head.board = { s.head.board with keep := s'.head.board.keep }

section completed

variable {s : State} {o : Outstanding}

theorem enabled_vset {v : Vector Ring 32} {c : Fin 32} {r : Ring} (h : r.enabled = (v[c]).enabled) (n : Fin 32) :
    ((vset v c r)[n]).enabled = (v[n]).enabled := by
  rw [vset_get]
  split
  case isTrue same =>
    subst same
    exact h
  case isFalse => rfl

theorem completed_ite {p : Prop} [Decidable p] {a b : State} (ha : State.Completed s a o) (hb : State.Completed s b o) :
    State.Completed s (if p then a else b) o := by
  split
  · exact ha
  · exact hb

theorem completed_signal {s' : State} (h : State.Completed s s' o) (v : Nat) : State.Completed s (s'.signal v) o := by
  obtain ⟨host, enabled, tiles, board⟩ := h
  rw [State.signal]
  split
  · exact ⟨(congrArg (fun h : HostIf => { h with pba := s'.head.host.pba ||| BitVec.ofNat 64 (2 ^ v) }) host :), enabled, tiles, board⟩
  · exact ⟨host, enabled, tiles, board⟩

theorem completed_bwkSend {s' : State} (h : State.Completed s s' o) (k : Nat) (pl : BwkPayload) : State.Completed s (s'.bwkSend k pl) o := by
  rw [State.bwkSend]
  split
  · exact ⟨h.host, h.enabled, h.tiles, h.board⟩
  · exact h

theorem completed_bwkKeep {s' : State} (h : State.Completed s s' o) (r : BwkRef) (pl : BwkPayload) : State.Completed s (s'.bwkKeep r pl) o := by
  obtain ⟨host, enabled, tiles, board⟩ := completed_bwkSend h 0 pl
  exact ⟨host, enabled, tiles, (congrArg (fun b : Board => { b with keep := (s'.bwkSend 0 pl).head.board.keep ++ [(r, pl)] }) board :)⟩

theorem completeRaw_completed (st detail : Nat) (result : List Byte) : State.Completed s (s.completeRaw o st detail result) o := by
  have dropped : State.Completed s (s.modHost fun h => { h with outstanding := h.outstanding.erase o }) o := ⟨rfl, fun _ => rfl, rfl, rfl⟩
  unfold State.completeRaw
  refine completed_ite (completed_ite dropped (completed_bwkKeep dropped _ _)) (completed_ite ?_ (completed_ite (completed_signal ?_ _) ?_))
  · exact ⟨rfl, enabled_vset rfl, rfl, rfl⟩
  all_goals
    refine ⟨rfl, enabled_vset ?_, rfl, rfl⟩
    split <;> rfl

/-- While BYE does not stand a completion ends no session. -/
theorem completeOut_raw (st detail : Nat) (result : List Byte) (stays : s.head.host.bye = none) :
    s.completeOut o st detail result = s.completeRaw o st detail result := by
  unfold State.completeOut
  dsimp only
  rw [show (s.completeRaw o st detail result).head.host.bye = none by rw [(completeRaw_completed st detail result).host]; exact stays]

end completed

/-! ### The end of a session (R316, R388) -/

section ends

variable {s : State}

theorem bwkTell_emits (pl : BwkPayload) : State.Emits s (s.bwkTell pl) := by
  rw [State.bwkTell]
  exact emits_ite (.refl s) (emits_each (fun _ _ => bwkSend_emits _ _) _ _)

theorem out_mailboxKeep : s.mailboxKeep.head = s.head ∧ s.mailboxKeep.hostMem = s.hostMem ∧ s.mailboxKeep.out = s.out :=
  ⟨State.each_keeps (g := fun s => s.head) (by intro _ _; rfl) _ _, State.each_keeps (g := fun s => s.hostMem) (by intro _ _; rfl) _ _,
    State.each_keeps (g := fun s => s.out) (by intro _ _; rfl) _ _⟩

theorem head_hostReset : s.hostReset.head = { s.head with host := { HostIf.reset with
    ready := s.head.host.ready, session := s.head.host.session, nextSeq := s.head.host.nextSeq
    outstanding := s.head.host.outstanding.filter (·.remote) } } := by
  rw [State.hostReset]
  dsimp only
  rw [out_mailboxKeep.1]
  have told : (if s.head.host.sessionOpen then s.bwkTell (.session none) else s).head = s.head :=
    (emits_ite (bwkTell_emits _) (.refl s)).head
  generalize (if s.head.host.sessionOpen = true then s.bwkTell (.session none) else s) = s0 at told ⊢
  exact (congrArg (fun hd : Head => { hd with host := { HostIf.reset with
    ready := hd.host.ready, session := hd.host.session, nextSeq := hd.host.nextSeq, outstanding := hd.host.outstanding.filter (·.remote) } }) told :)

theorem hostMem_hostReset : s.hostReset.hostMem = s.hostMem := by
  rw [State.hostReset]
  refine out_mailboxKeep.2.1.trans ?_
  change (if s.head.host.sessionOpen then s.bwkTell (.session none) else s).hostMem = _
  obtain ⟨l, e⟩ := emits_ite (c := s.head.host.sessionOpen = true) (bwkTell_emits (.session none)) (.refl s)
  rw [e]

/-- A package that is not joined tells nobody. -/
theorem out_hostReset (alone : s.joined = false) : s.hostReset.out = s.out := by
  rw [State.hostReset]
  refine out_mailboxKeep.2.2.trans ?_
  change (if s.head.host.sessionOpen then s.bwkTell (.session none) else s).out = _
  have silent : s.bwkTell (.session none) = s := if_pos (by rw [alone, Bool.not_false, Bool.or_true])
  rw [silent, ite_self]

theorem bye_hostReset : s.hostReset.head.host.bye = none := by rw [head_hostReset]; rfl

theorem enabled_hostReset (k : RingKind) (n : Fin 32) : (s.hostReset.ring k n).enabled = false := by
  rw [State.ring, head_hostReset]
  cases k with
  | cmdq => exact congrArg Ring.enabled (Vector.getElem_replicate ..)
  | cpl => exact congrArg Ring.enabled (Vector.getElem_replicate ..)
  | evt =>
    change ((Vector.replicate 8 Ring.reset).toList.getD n.val Ring.reset).enabled = false
    rw [Vector.toList_replicate, List.getD_eq_getElem?_getD, List.getElem?_replicate]
    split <;> rfl

end ends

end Sys2Proof.Machine
end

