-- ==== Sys2Proof/Proofs/Sessions.lean ====
section
/-!
PROOFS. A session opens by HELLO, tells what stands, and ends by each host reset (R299, R313 to R316, R318, R387 to R389).
-/

namespace Sys2Proof.Machine

/-! ### The first events of a session (R318) -/

/-- Events were raised: of the host interface only the event rings, whose registers stand, and the pending vectors differ, of a tile only its
log. -/
structure State.Spoke (s s' : State) : Prop where
  logged : State.Logged s s'
  regs   : s'.evtRegs = s.evtRegs

section spoke

variable {s s' s'' : State}

theorem State.Spoke.refl (s : State) : State.Spoke s s := ⟨.refl s, rfl⟩

theorem State.Spoke.trans (h : State.Spoke s s') (k : State.Spoke s' s'') : State.Spoke s s'' :=
  ⟨h.logged.trans k.logged, k.regs.trans h.regs⟩

theorem spoke_ite {p : Prop} [Decidable p] {a b : State} (ha : State.Spoke s a) (hb : State.Spoke s b) : State.Spoke s (if p then a else b) := by
  split
  · exact ha
  · exact hb

theorem spoke_each {α : Type} {f : State → α → State} (hf : ∀ s a, State.Spoke s (f s a)) (l : List α) (s : State) : State.Spoke s (s.each l f) := by
  induction l generalizing s with
  | nil => exact .refl s
  | cons a l ih => exact (hf s a).trans (ih _)

theorem spoke_raise (t : TileId) (code : Nat) (data : List Byte) (logged : Bool) : State.Spoke s (s.raise t code data logged) :=
  ⟨logged_raise (.refl s), (evtRegs_eventOut ..).trans (evtRegs_ite (evtRegs_logEvent ..) rfl)⟩

theorem spoke_raiseHead (code : Nat) (data : List Byte) (logged : Bool) : State.Spoke s (s.raiseHead code data logged) :=
  ⟨logged_eventOut (logged_ite (logged_logEvent (.refl s)) (.refl s)), evtRegs_raiseHead ..⟩

theorem spoke_bwkTell (pl : BwkPayload) : State.Spoke s (s.bwkTell pl) := by
  rw [State.bwkTell]
  exact spoke_ite (.refl s) (spoke_each (fun _ _ => ⟨logged_bwkSend (.refl _), evtRegs_bwkSend ..⟩) _ _)

theorem spoke_epochMark : State.Spoke s s.epochMark := by
  have marked : State.Spoke s (if s.isHead && s.head.host.sessionOpen && (s.tile .t0).die.svc then
      s.each evtRings fun s e => s.evtPut e (s.eventId none 0) s.ts (s.head.time.markData s.head.host.evt[e]) false true else s) :=
    spoke_ite (spoke_each (fun _ _ => ⟨logged_evtPut (.refl _), evtRegs_evtPut ..⟩) _ _) (.refl s)
  exact marked.trans ⟨⟨rfl, fun _ => rfl, fun _ _ => rfl⟩, rfl⟩

theorem spoke_remoteDoorEvent (bt : Nat) : State.Spoke s (s.remoteDoorEvent bt) := by
  rw [State.remoteDoorEvent, State.eventById]
  exact spoke_ite (.refl s) (spoke_each (fun _ _ => spoke_ite ⟨logged_evtSend (.refl _), evtRegs_evtSend ..⟩ (.refl _)) _ _)

theorem spoke_standingFaults : State.Spoke s s.standingFaults := by
  rw [State.standingFaults]
  exact spoke_each (fun _ _ => spoke_each (fun _ _ => spoke_raise ..) _ _) _ _

theorem spoke_standingStep : State.Spoke s s.standingStep := by
  rw [State.standingStep]
  split
  · exact spoke_raiseHead ..
  · exact .refl s

theorem spoke_standingConditions : State.Spoke s s.standingConditions := by
  have calibration : State.Spoke s (s.each s.tileIds fun s t => match (s.tile t).door.cal with
      | .ready _ => s.raise t 0x2C [] (logged := false)
      | _ => s) := spoke_each (fun s t => by
    split
    · exact spoke_raise ..
    · exact .refl s) _ _
  have shadow (s : State) : State.Spoke s (s.each s.tileIds fun s t => match (s.tile t).door.shadow with
      | .ready m => s.raise t 0x30 (leBytes 1 m) (logged := false)
      | _ => s) := spoke_each (fun s t => by
    split
    · exact spoke_raise ..
    · exact .refl s) _ _
  rw [State.standingConditions]
  exact spoke_ite ((calibration.trans (shadow _)).trans (spoke_raiseHead ..)) (calibration.trans (shadow _))

theorem spoke_standingEvents : State.Spoke s s.standingEvents := by
  rw [State.standingEvents]
  have doors := (spoke_epochMark (s := s)).trans (spoke_each (f := State.standingDoor) (fun _ _ => spoke_raise ..) s.epochMark.tileIds _)
  have away := doors.trans (spoke_each (f := State.remoteDoorEvent) (fun _ _ => spoke_remoteDoorEvent _)
    ((List.range 16).filter fun bt => bt / 4 != s.pkg && s.joined && s.head.board.tilesUp.getLsbD bt) _)
  have stands := ((away.trans (spoke_bwkTell (.session (some s.head.host.session)))).trans spoke_standingFaults).trans
    (spoke_standingStep.trans spoke_standingConditions)
  exact spoke_ite (stands.trans (spoke_raiseHead ..)) stands

/-- Events leave every ring enabled as it was. -/
theorem State.Spoke.enabled (h : State.Spoke s s') (k : RingKind) (n : Fin 32) : (s'.ring k n).enabled = (s.ring k n).enabled := by
  cases k with
  | cmdq =>
    change ((s'.head.host.cmdq)[n]).enabled = _
    rw [h.logged.host]
    rfl
  | cpl =>
    change ((s'.head.host.cpl)[n]).enabled = _
    rw [h.logged.host]
    rfl
  | evt =>
    by_cases below : n.val < 8
    · have read (x : State) : (x.ring .evt n).enabled = ((x.evtRegs)[n.val]).enabled := by
        rw [State.ring, HostIf.ring_evt _ below]
        exact (congrArg Ring.enabled (vmap_get Ring.registers x.head.host.evt ⟨n.val, below⟩)).symm
      rw [read, read, h.regs]
    · have none (x : State) : x.ring .evt n = Ring.reset := by
        rw [State.ring, HostIf.ring]
        exact List.getD_eq_default _ _ (by simpa using Nat.le_of_not_lt below)
      rw [none, none]

end spoke

/-! ### The ends of a session (R316, R389) -/

section hello

variable {s : State} {h : HostCmd} {lo hi : BitVec 16} {hid : BitVec 64}

/-- The versions, the highest first (R315). -/
def versions : List (BitVec 16) := [0x0300, 0x0201, 0x0200, 0x0100]

/-- The state in which HELLO opens its session: an open one has ended (R314). -/
def State.closed (s : State) : State := if s.head.host.sessionOpen then s.hostReset else s

/-- The session opened. -/
def State.opened (s : State) (h : HostCmd) (v : BitVec 16) (hid : BitVec 64) : State :=
  s.modHost fun hi =>
    { hi with sessionOpen := true, session := hi.session + 1, version := v, hostId := hid
              outstanding := hi.outstanding.map fun o =>
                if o.queue == h.queue && o.tag == h.tag && !o.remote then { o with session := hi.session + 1 } else o }

/-- The rings beyond the limits of version 1.0 closed (R315). -/
def State.limited (s : State) : State :=
  let a := s.each (List.finRange 32) fun s n => if v1Ring .cmdq n then s else s.ringDisable .cmdq n
  let b := a.each (List.finRange 32) fun s n => if v1Ring .cpl n then s else s.ringDisable .cpl n
  b.each (List.finRange 32) fun s n => if v1Ring .evt n then s else s.ringDisable .evt n

/-- HELLO completes with what the board is, and the events of what stands follow (R314, R318). -/
def State.greeted (s : State) (h : HostCmd) (v : BitVec 16) : State :=
  (s.complete { h with session := s.head.host.session } 0x01 0 0
    (leBytes 2 v.toNat ++ leBytes 1 s.packageCount ++ leBytes 1 ((List.range 16).filter s.tilePresent).length ++ leBytes 2 s.tileMask ++
      leBytes 2 0 ++ leBytes 4 s.head.host.session.toNat)).standingEvents

theorem hello_eq (hd : s.Due h 0x01) : exec (.hello h lo hi hid) s = .next
    (match versions.find? fun v => lo.toNat ≤ v.toNat && v.toNat ≤ hi.toNat with
     | none => s.closed.complete h 0x01 0x07 0
     | some v =>
       if v == 0x0100 && h.queue.val ≥ 8 then s.closed.complete h 0x01 0x04 0
       else (if v == 0x0100 then (s.closed.opened h v hid).limited else s.closed.opened h v hid).greeted h v) := by
  change execHello h lo hi hid s = _
  rw [execHello, onCmd_of_due hd]
  rfl

theorem bye_closed (stays : s.head.host.bye = none) : s.closed.head.host.bye = none := by
  rw [State.closed]
  split
  · exact bye_hostReset
  · exact stays

theorem told_closed : State.Told s s.closed := told_ite (fun _ => told_hostReset (.refl s)) fun _ => .refl s

/-- Greeting leaves the session, the queues and the doorways as they are. -/
structure State.Greeted (s s' : State) : Prop where
  open_   : s'.head.host.sessionOpen = s.head.host.sessionOpen
  version : s'.head.host.version = s.head.host.version
  session : s'.head.host.session = s.head.host.session
  hostId  : s'.head.host.hostId = s.head.host.hostId
  enabled : ∀ k n, (s'.ring k n).enabled = (s.ring k n).enabled
  tiles   : ∀ t, (s'.tile t).field = (s.tile t).field ∧ (s'.tile t).door = (s.tile t).door

theorem State.Spoke.greeted {s s' : State} (h : State.Spoke s s') : State.Greeted s s' where
  open_ := by rw [h.logged.host]
  version := by rw [h.logged.host]
  session := by rw [h.logged.host]
  hostId := by rw [h.logged.host]
  enabled := h.enabled
  tiles t := by
    rw [h.logged.tiles t]
    exact ⟨rfl, rfl⟩

theorem State.Completed.greeted {s s' : State} {o : Outstanding} (h : State.Completed s s' o) : State.Greeted s s' where
  open_ := by rw [h.host]
  version := by rw [h.host]
  session := by rw [h.host]
  hostId := by rw [h.host]
  enabled k n := by
    cases k with
    | cmdq =>
      change ((s'.head.host.cmdq)[n]).enabled = _
      rw [h.host]
      rfl
    | cpl => exact h.enabled n
    | evt =>
      change (s'.head.host.evt.toList.getD n.val Ring.reset).enabled = _
      rw [h.host]
      rfl
  tiles t := by
    rw [State.tile, h.tiles]
    exact ⟨rfl, rfl⟩

theorem State.Greeted.trans {a b c : State} (h : State.Greeted a b) (k : State.Greeted b c) : State.Greeted a c where
  open_ := k.open_.trans h.open_
  version := k.version.trans h.version
  session := k.session.trans h.session
  hostId := k.hostId.trans h.hostId
  enabled r n := (k.enabled r n).trans (h.enabled r n)
  tiles t := ⟨(k.tiles t).1.trans (h.tiles t).1, (k.tiles t).2.trans (h.tiles t).2⟩

theorem greeted_keeps (v : BitVec 16) (stays : s.head.host.bye = none) : State.Greeted s (s.greeted h v) := by
  rw [State.greeted]
  refine State.Greeted.trans ?_ spoke_standingEvents.greeted
  rw [State.complete]
  split
  · exact (State.Spoke.refl s).greeted
  · rw [completeOut_raw _ _ _ stays]
    exact (completeRaw_completed ..).greeted

theorem ringDisable_cases (s : State) (k : RingKind) (n : Fin 32) : s.ringDisable k n = s ∨
    s.ringDisable k n = s.modRing k n fun r => { r with enabled := false, busy := true, stopped := false } := by
  unfold State.ringDisable
  exact ite_eq_or_eq ..

/-- Closing the rings beyond version 1.0 leaves the session. -/
theorem limited_keeps : ∀ {β : Type} {g : State → β}, (∀ (s : State) k n f, g (s.modRing k n f) = g s) → g s.limited = g s := by
  intro β g kept
  have one (k : RingKind) (s : State) (n : Fin 32) : g (if v1Ring k n then s else s.ringDisable k n) = g s := by
    split
    · rfl
    · rcases ringDisable_cases s k n with e | e <;> rw [e]
      exact kept ..
  rw [State.limited]
  exact ((State.each_keeps (one .evt) _ _).trans (State.each_keeps (one .cpl) _ _)).trans (State.each_keeps (one .cmdq) _ _)

/-- The command queues from 8 on are closed. -/
theorem limited_closes {q : Fin 32} (beyond : 8 ≤ q.val) : (s.limited.ring .cmdq q).enabled = false := by
  have over_ : v1Ring .cmdq q = false := decide_eq_false (Nat.not_lt.mpr beyond)
  have other (k : RingKind) (kind : RingKind.cmdq ≠ k) (s : State) :
      ((s.each (List.finRange 32) fun s n => if v1Ring k n then s else s.ringDisable k n).ring .cmdq q).enabled = (s.ring .cmdq q).enabled := by
    refine State.each_keeps (g := fun s => (s.ring .cmdq q).enabled) (fun s n => ?_) _ s
    split
    · rfl
    · rcases ringDisable_cases s k n with e | e <;> rw [e]
      exact congrArg Ring.enabled (ring_modRing_kind kind _)
  have shut (s : State) : ((s.ringDisable .cmdq q).ring .cmdq q).enabled = false := by
    unfold State.ringDisable
    dsimp only
    rw [Bool.or_false]
    split
    case isTrue off => simpa using off
    case isFalse => exact congrArg Ring.enabled (ring_modRing_self (fun h => absurd h (by decide)) _)
  have stays (s : State) (n : Fin 32) (off : (s.ring .cmdq q).enabled = false) :
      ((if v1Ring .cmdq n then s else s.ringDisable .cmdq n).ring .cmdq q).enabled = false := by
    split
    · exact off
    · by_cases same : q = n
      · subst same
        exact shut s
      · rcases ringDisable_cases s .cmdq n with e | e <;> rw [e]
        · exact off
        · exact (congrArg Ring.enabled (ring_modRing_ne (by decide) same _)).trans off
  rw [State.limited, other .evt (by decide), other .cpl (by decide)]
  refine each_establishes (P := fun s => (s.ring .cmdq q).enabled = false) _ (List.mem_finRange q) (fun s => ?_) stays s
  rw [over_, if_neg Bool.false_ne_true]
  exact shut s

section outcomes

variable (hd : s.Due h 0x01) (stays : s.head.host.bye = none)
include hd

theorem hello_refused (shut : s.head.host.sessionOpen = false)
    (none : ∀ v ∈ ([0x0300, 0x0201, 0x0200, 0x0100] : List (BitVec 16)), hi < v ∨ v < lo) :
    exec (.hello h lo hi hid) s = .next (s.complete h 0x01 0x07 0) := by
  have miss : (versions.find? fun v => lo.toNat ≤ v.toNat && v.toNat ≤ hi.toNat) = .none := by
    rw [List.find?_eq_none]
    intro v hv range
    rw [Bool.and_eq_true, decide_eq_true_eq, decide_eq_true_eq] at range
    rcases none v hv with above | below
    · exact absurd above (Nat.not_lt.mpr range.2)
    · exact absurd below (Nat.not_lt.mpr range.1)
  rw [hello_eq hd, miss, State.closed, shut]
  rfl

include stays

/-- Under version 1.0 the queues from 8 on are closed. -/
theorem hello_limited (queue : h.queue.val < 8) : ∃ s', exec (.hello h 0x0100 0x0100 hid) s = .next s' ∧
    s'.head.host.version = 0x0100 ∧ s'.head.host.sessionOpen = true ∧ ∀ q : Fin 32, 8 ≤ q.val → (s'.ring .cmdq q).enabled = false := by
  have runs := hello_eq (lo := 0x0100) (hi := 0x0100) (hid := hid) hd
  rw [show (versions.find? fun v => (0x0100 : BitVec 16).toNat ≤ v.toNat && v.toNat ≤ (0x0100 : BitVec 16).toNat) = some 0x0100 by decide] at runs
  dsimp only at runs
  rw [decide_eq_false (Nat.not_le.mpr queue), Bool.and_false, if_neg Bool.false_ne_true, if_pos (by decide)] at runs
  have kept {β : Type} (g : HostIf → β) (hg : ∀ h k n r, g (HostIf.setRing h k n r) = g h) :
      g (s.closed.opened h 0x0100 hid).limited.head.host = g (s.closed.opened h 0x0100 hid).head.host :=
    limited_keeps (g := fun s => g s.head.host) fun s k n f => hg ..
  have ringless {β : Type} (g : HostIf → β) (hg : ∀ h (q : Vector Ring 32) c e, g { h with cmdq := q, cpl := c, evt := e } = g h) (h : HostIf) (k : RingKind)
      (n : Fin 32) (r : Ring) : g (h.setRing k n r) = g h := by
    cases k with
    | cmdq => exact hg h _ _ _
    | cpl => exact hg h _ _ _
    | evt =>
      rw [HostIf.setRing]
      split
      · exact hg h _ _ _
      · rfl
  have bye : (s.closed.opened h 0x0100 hid).limited.head.host.bye = none :=
    (kept HostIf.bye (ringless _ fun _ _ _ _ => rfl)).trans (bye_closed stays)
  have greeted := greeted_keeps (h := h) 0x0100 bye
  refine ⟨_, runs, ?_, ?_, fun q beyond => (greeted.enabled .cmdq q).trans (limited_closes beyond)⟩
  · rw [greeted.version, kept HostIf.version (ringless _ fun _ _ _ _ => rfl)]
    rfl
  · rw [greeted.open_, kept HostIf.sessionOpen (ringless _ fun _ _ _ _ => rfl)]
    rfl

/-- HELLO opens a session of the highest version with the next number; an open session has ended as a host reset. -/
theorem hello_opens (below : lo ≤ 0x0300) (above : 0x0300 ≤ hi) : ∃ s', exec (.hello h lo hi hid) s = .next s' ∧ s'.head.host.sessionOpen = true ∧
    s'.head.host.version = 0x0300 ∧ s'.head.host.session = s.head.host.session + 1 ∧ s'.head.host.hostId = hid ∧
    (s.head.host.sessionOpen = true → ∀ k n, (s'.ring k n).enabled = false) ∧
    ∀ t, (s'.tile t).field = (s.tile t).field ∧ (s'.tile t).door.st = (s.tile t).door.st := by
  have runs := hello_eq (lo := lo) (hi := hi) (hid := hid) hd
  have hit : (versions.find? fun v => lo.toNat ≤ v.toNat && v.toNat ≤ hi.toNat) = some 0x0300 :=
    List.find?_cons_of_pos (by rw [decide_eq_true (BitVec.le_def.mp below), decide_eq_true (BitVec.le_def.mp above)]; rfl)
  rw [hit] at runs
  dsimp only at runs
  rw [show ((0x0300 : BitVec 16) == 0x0100) = false by decide, Bool.false_and, if_neg Bool.false_ne_true, if_neg Bool.false_ne_true] at runs
  have greeted := greeted_keeps (s := s.closed.opened h 0x0300 hid) (h := h) 0x0300 (bye_closed stays)
  have session : s.closed.head.host.session = s.head.host.session := by
    rw [State.closed]
    split
    · rw [head_hostReset]
    · rfl
  refine ⟨_, runs, greeted.open_, greeted.version, greeted.session.trans (congrArg (· + 1) session), greeted.hostId, fun opened k n => ?_, fun t => ?_⟩
  · rw [greeted.enabled]
    have shut : (s.closed.ring k n).enabled = false := by
      rw [State.closed, if_pos opened]
      exact enabled_hostReset k n
    cases k <;> exact shut
  · obtain ⟨field, door⟩ := greeted.tiles t
    rw [field, door]
    change (s.closed.tile t).field = _ ∧ (s.closed.tile t).door.st = _
    rw [told_closed.tiles t]
    exact ⟨rfl, rfl⟩

end outcomes

end hello

/-- Settles O53, clause by clause. -/
theorem sessionsOpenAndEnd : Obligations.SessionsOpenAndEnd := by
  unfold Obligations.SessionsOpenAndEnd
  intro s
  refine ⟨⟨head_hostReset, hostMem_hostReset, out_hostReset, fun t => mailOnly_hostReset s t⟩, fun leads c hc => ?_, fun leads => congrArg _ (if_pos leads),
    fun open_ => congrArg Host.Outcome.next (if_pos open_), fun shut => congrArg Host.Outcome.next (if_neg (Bool.eq_false_iff.mp shut)),
    fun h lo hi hid hd stays => ⟨fun idle => ⟨hello_refused hd idle, ?_⟩, hello_opens hd stays⟩⟩
  · have reset : s.endpointReset = s.hostReset.modHead fun hd => { hd with pcie := Pcie.reset } := if_pos leads
    simp only [List.mem_cons, List.not_mem_nil, or_false] at hc
    rcases hc with rfl | rfl | rfl | rfl <;> exact congrArg Host.Outcome.next reset
  · rintro rfl rfl queue
    exact hello_limited hd stays queue

end Sys2Proof.Machine
end

