-- ==== Sys2Proof/Proofs/Bye.lean ====
section
/-!
PROOFS. BYE stops fetching, aborts the held commands, and ends the session with the last completion or after its time (R305, R317).
-/

namespace Sys2Proof.Machine

/-! ### The commands of this host that are outstanding -/

/-- The commands outstanding that came from this package's host. -/
def State.mine (s : State) : List Outstanding := s.head.host.outstanding.filter (!·.remote)

/-- Those of them that are held. -/
def State.heldMine (s : State) : List Outstanding := s.head.host.outstanding.filter fun o => o.waiting && !o.remote

section mine

variable {s : State} {o b : Outstanding} {h : HostCmd}

theorem mine_completeRaw (st detail : Nat) (result : List Byte) : (s.completeRaw o st detail result).mine = s.mine.erase o := by
  rw [State.mine, (completeRaw_completed st detail result).host]
  exact (List.erase_filter ..).symm

theorem heldMine_completeRaw (st detail : Nat) (result : List Byte) : (s.completeRaw o st detail result).heldMine = s.heldMine.erase o := by
  rw [State.heldMine, (completeRaw_completed st detail result).host]
  exact (List.erase_filter ..).symm

theorem bye_completeRaw (st detail : Nat) (result : List Byte) : (s.completeRaw o st detail result).head.host.bye = s.head.host.bye := by
  rw [(completeRaw_completed st detail result).host]

theorem mine_hostReset : s.hostReset.mine = [] := by
  rw [State.mine, head_hostReset]
  dsimp only
  rw [List.filter_filter]
  exact List.filter_eq_nil_iff.mpr fun o _ => by cases o.remote <;> decide

theorem heldMine_of_mine : s.heldMine = s.mine.filter (·.waiting) := by
  rw [State.heldMine, State.mine, List.filter_filter]

theorem heldMine_hostReset : s.hostReset.heldMine = [] := by
  rw [heldMine_of_mine, mine_hostReset]
  rfl

theorem heldMine_nil_iff : s.heldMine = [] ↔ ∀ o ∈ s.head.host.outstanding, o.remote = false → o.waiting = false := by
  rw [State.heldMine, List.filter_eq_nil_iff]
  refine forall₂_congr fun o _ => ?_
  cases o.remote <;> cases o.waiting <;> simp

/-- A completion while BYE stands: with BYE alone left it completes too, with nothing left the session ends. -/
theorem completeOut_bye (st detail : Nat) (result : List Byte) (stands : s.head.host.bye.isSome = true) :
    s.completeOut o st detail result = (match (s.mine.erase o) with
      | [b] => if b.opcode = 0x02 && !b.waiting then ((s.completeRaw o st detail result).completeRaw b 0 0 []).hostReset
               else s.completeRaw o st detail result
      | [] => (s.completeRaw o st detail result).hostReset
      | _ => s.completeRaw o st detail result) := by
  obtain ⟨h, bye⟩ := Option.isSome_iff_exists.mp stands
  have bye := (bye_completeRaw (s := s) (o := o) st detail result).trans bye
  have left : (s.completeRaw o st detail result).head.host.outstanding.filter (!·.remote) = s.mine.erase o := mine_completeRaw st detail result
  unfold State.completeOut
  dsimp only
  rw [bye, left]
  cases s.mine.erase o with
  | nil => rfl
  | cons b l => cases l <;> rfl

/-- With the last of the other commands BYE completes too, and the session ends. -/
theorem completeOut_last (st detail : Nat) (result : List Byte) (stands : s.head.host.bye.isSome = true) (bye : b.opcode = 0x02)
    (acts : b.waiting = false) (other : o ≠ b) (two : s.mine = [o, b] ∨ s.mine = [b, o]) :
    s.completeOut o st detail result = ((s.completeRaw o st detail result).completeRaw b 0 0 []).hostReset := by
  have left : s.mine.erase o = [b] := by
    rcases two with e | e <;> rw [e]
    · exact List.erase_cons_head ..
    · rw [List.erase_cons_tail (by simpa using Ne.symm other), List.erase_cons_head]
  rw [completeOut_bye st detail result stands, left]
  dsimp only
  rw [bye, acts]
  rfl

/-- A completion while BYE stands leaves one held command less, or none. -/
theorem heldMine_completeOut (st detail : Nat) (result : List Byte) (stands : s.head.host.bye.isSome = true) :
    (s.completeOut o st detail result).heldMine = s.heldMine.erase o ∧ (s.completeOut o st detail result).head.host.bye = s.head.host.bye ∨
      (s.completeOut o st detail result).heldMine = [] := by
  have raw := heldMine_completeRaw (s := s) (o := o) st detail result
  have bye := bye_completeRaw (s := s) (o := o) st detail result
  rw [completeOut_bye st detail result stands]
  split
  · split
    · exact .inr heldMine_hostReset
    · exact .inl ⟨raw, bye⟩
  · exact .inr heldMine_hostReset
  · exact .inl ⟨raw, bye⟩

end mine

/-! ### BYE (R317) -/

section bye

variable {s : State} {h : HostCmd} {b : Outstanding}

/-- One held command aborted, where it still stands. -/
def State.abort (s : State) (o : Outstanding) : State := if s.head.host.outstanding.contains o then s.abortHeld o else s

/-- The abort of a held command that this package keeps itself. -/
theorem abortHeld_own {o : Outstanding} (own : o.forwarded = none) : s.abortHeld o = s.completeOut o 0x08 0 [] := by
  rw [State.abortHeld, own]

theorem heldMine_bwkSend (k : Nat) (pl : BwkPayload) : (s.bwkSend k pl).head = s.head := (bwkSend_emits k pl).head

theorem heldMine_abortHeld (o : Outstanding) (stands : s.head.host.bye.isSome = true) :
    (s.abortHeld o).heldMine = s.heldMine.erase o ∧ (s.abortHeld o).head.host.bye = s.head.host.bye ∨ (s.abortHeld o).heldMine = [] := by
  rw [State.abortHeld]
  split
  case h_1 k sent _ =>
    have same := heldMine_bwkSend (s := s) k.val (.abort o.ref)
    have done := heldMine_completeOut (s := s.bwkSend k.val (.abort o.ref)) (o := o) 0x08 0 [] (by rw [same]; exact stands)
    rw [same] at done
    refine done.imp_left fun done => ⟨done.1.trans ?_, done.2⟩
    rw [State.heldMine, same]
    rfl
  case h_2 => exact heldMine_completeOut 0x08 0 [] stands

/-- Every held command is aborted. -/
theorem heldMine_abort (l : List Outstanding) (held : ∀ o ∈ l, o.waiting = true ∧ o.remote = false)
    (now : s.heldMine = l ∧ s.head.host.bye.isSome = true ∨ s.heldMine = []) : (s.each l State.abort).heldMine = [] := by
  induction l generalizing s with
  | nil => exact now.elim And.left id
  | cons o l ih =>
    refine ih (fun x hx => held x (List.mem_cons_of_mem o hx)) ?_
    obtain ⟨waits, own⟩ := held o List.mem_cons_self
    rw [State.abort]
    rcases now with ⟨all, stands⟩ | none
    · have here : s.head.host.outstanding.contains o = true := by
        have mem : o ∈ s.heldMine := all ▸ List.mem_cons_self
        simpa using (List.mem_filter.mp mem).1
      rw [if_pos here]
      refine (heldMine_abortHeld o stands).imp_left fun ⟨left, bye⟩ => ⟨?_, bye ▸ stands⟩
      rw [left, all, List.erase_cons_head]
    · refine .inr ?_
      have gone : ¬ s.head.host.outstanding.contains o = true := fun here => by
        have idle := heldMine_nil_iff.mp none o (by simpa using here) own
        rw [waits] at idle
        exact absurd idle (by decide)
      rw [if_neg gone]
      exact none

/-- BYE noted. -/
def State.byeNoted (s : State) (h : HostCmd) : State := s.modHost fun hi => { hi with bye := some h }

theorem bye_eq (hd : s.Due h 0x02) : exec (.bye h) s = .next (
    let s1 := (s.byeNoted h).each s.heldMine State.abort
    match s1.findOut h 0x02, s1.mine with
    | some o, [_] => (s1.completeRaw o 0 0 []).hostReset
    | _, _ => s1) := by
  change execBye h s = _
  rw [execBye, onCmd_of_due hd]
  rfl

section due

variable (hd : s.Due h 0x02) (found : s.findOut h 0x02 = some b)
include hd found

theorem bye_acts : b.waiting = false := by
  obtain ⟨-, ⟨o, ho, waits, -⟩, -⟩ := hd
  rw [found] at ho
  exact Option.some.inj ho ▸ waits

omit hd in
theorem bye_opcode : b.opcode = 0x02 := by
  have named := List.find?_some found
  simp only [Bool.and_eq_true, beq_iff_eq] at named
  exact named.1.1.1.1.2

/-- With nothing else outstanding BYE completes, and the session ends. -/
theorem bye_alone (one : s.mine = [b]) : exec (.bye h) s = .next ((s.byeNoted h).completeRaw b 0 0 []).hostReset := by
  have none : s.heldMine = [] := by
    rw [heldMine_of_mine, one, List.filter_cons, bye_acts hd found]
    rfl
  have found : (s.byeNoted h).findOut h 0x02 = some b := found
  have one : (s.byeNoted h).mine = [b] := one
  rw [bye_eq hd, none]
  dsimp only [State.each_nil]
  rw [found, one]

/-- One held command is aborted, and then BYE completes. -/
theorem bye_aborts {o : Outstanding} (waits : o.waiting = true) (own : o.forwarded = none) (two : s.mine = [o, b] ∨ s.mine = [b, o]) :
    exec (.bye h) s = .next (((s.byeNoted h).completeRaw o 0x08 0 []).completeRaw b 0 0 []).hostReset := by
  have acts := bye_acts hd found
  have other : o ≠ b := fun same => by
    rw [same, acts] at waits
    exact absurd waits (by decide)
  have one : s.heldMine = [o] := by
    rw [heldMine_of_mine]
    rcases two with e | e <;> rw [e] <;> simp [waits, acts]
  have here : (s.byeNoted h).head.host.outstanding.contains o = true := by
    have mem : o ∈ s.heldMine := one ▸ List.mem_cons_self
    exact List.contains_iff_mem.mpr (List.mem_filter.mp mem).1
  have done : (s.byeNoted h).each s.heldMine State.abort = (((s.byeNoted h).completeRaw o 0x08 0 []).completeRaw b 0 0 []).hostReset := by
    rw [one, State.each_cons, State.each_nil, State.abort, if_pos here, abortHeld_own own]
    exact completeOut_last 0x08 0 [] rfl (bye_opcode found) acts other two
  rw [bye_eq hd, done]
  dsimp only
  rw [mine_hostReset]
  split
  case h_1 e => exact absurd e (by simp)
  case h_2 => rfl

omit found in
/-- With others outstanding and none held BYE waits. -/
theorem bye_waits (idle : ∀ o ∈ s.mine, o.waiting = false) (more : 2 ≤ s.mine.length) : exec (.bye h) s = .next (s.byeNoted h) := by
  have none : s.heldMine = [] := by
    rw [heldMine_of_mine, List.filter_eq_nil_iff]
    exact fun o ho => by rw [idle o ho]; decide
  have left : (s.byeNoted h).mine = s.mine := rfl
  rw [bye_eq hd, none]
  dsimp only [State.each_nil]
  rw [left]
  split
  case h_1 e =>
    rw [e] at more
    exact absurd more (Nat.not_succ_le_self 1)
  case h_2 => rfl

omit found in
/-- BYE leaves no command held. -/
theorem bye_releases : ∃ s', exec (.bye h) s = .next s' ∧ ∀ o ∈ s'.head.host.outstanding, o.remote = false → o.waiting = false := by
  refine ⟨_, bye_eq hd, heldMine_nil_iff.mp ?_⟩
  have aborted := heldMine_abort (s := s.byeNoted h) s.heldMine (fun o ho => by simpa using (List.mem_filter.mp ho).2) (.inl ⟨rfl, rfl⟩)
  dsimp only
  split
  · exact heldMine_hostReset
  · exact aborted

end due

end bye

/-- Settles O54, clause by clause. -/
theorem byeEndsTheSessionCleanly : Obligations.ByeEndsTheSessionCleanly := by
  unfold Obligations.ByeEndsTheSessionCleanly
  intro s
  refine ⟨fun stands q d => descriptorFetch_otherTurn d fun turn => ?_, fun h b hd found => ⟨bye_alone hd found, fun o waits own => bye_aborts hd found waits own,
    bye_waits hd, bye_releases hd⟩, fun o b st detail result stands bye acts other two => completeOut_last st detail result stands bye acts other two,
    fun h b stands found => ?_, ?_, ?_, bye_hostReset⟩
  · have ready := nextQueue_ready turn
    have some : s.head.host.bye.isNone = false := by
      rw [← Option.not_isSome, stands]
      rfl
    unfold State.queueReady at ready
    dsimp only at ready
    rw [some] at ready
    simp at ready
  · change execByeTimeout s = _
    rw [execByeTimeout, onHead_eq, stands]
    dsimp only
    rw [found]
  · rw [head_hostReset]
  · rw [head_hostReset]
    rfl

end Sys2Proof.Machine
end

