-- ==== Sys2Proof/Proofs/Descriptors.lean ====
section
/-!
PROOFS. Descriptors are fetched in the turn of their queues, and held commands are released in theirs (R305 to R309, R322).
-/

namespace Sys2Proof.Machine

/-! ### A fetch (R305, R306, R309) -/

section fetch

variable {s : State} {q : Fin 32} {desc : Vector Byte 64}

/-- The entry of a descriptor fetched from a queue (R304, R306). -/
def State.entryOf (s : State) (q : Fin 32) (desc : Vector Byte 64) : Outstanding :=
  { queue := q, tag := BitVec.ofNat 32 (fieldLe desc.toList 4 4), opcode := fieldLe desc.toList 0 1
    flags := BitVec.ofNat 8 (fieldLe desc.toList 1 1), target := BitVec.ofNat 32 (fieldLe desc.toList 8 4)
    sqHead := if (s.ring .cmdq q).devIndex + 1 = (s.ring .cmdq q).size then 0 else (s.ring .cmdq q).devIndex + 1
    notBefore := BitVec.ofNat 32 (fieldLe desc.toList 12 4), waiting := false, behind := false, accepted := false, lost := false
    session := s.head.host.session, forwarded := none, remote := false, desc := desc.toList, blocks := [], hostId := s.head.host.hostId
    cplRing := Fin.ofNat 32 (s.ring .cmdq q).route }

/-- A descriptor taken: the queue's index moves, an entry of its completion ring is reserved, and the command is outstanding. -/
def State.fetched (s : State) (q : Fin 32) (o : Outstanding) : State :=
  ((s.modRing .cmdq q fun r => { r with devIndex := o.sqHead }).modRing .cpl o.cplRing fun r => { r with reserved := r.reserved + 1 }).modHost fun h =>
    { h with outstanding := h.outstanding ++ [o], fenced := h.fenced.filter (· != q)
             lastServed := vset h.lastServed (Fin.ofNat 4 (s.ring .cmdq q).prio) q.val }

/-- The commands of a queue held at this head (R307, R309). -/
def State.heldOf (s : State) (q : Fin 32) : List Outstanding :=
  s.head.host.outstanding.filter fun x => x.queue == q && x.waiting && !x.remote

/-- The common status of a descriptor (R309). -/
def State.statusOf (s : State) (desc : Vector Byte 64) : Option Nat :=
  s.commonStatus (fieldLe desc.toList 0 1) (fieldLe desc.toList 1 1) (fieldLe desc.toList 2 2) (fieldLe desc.toList 8 4) (desc.toList.drop 16)

theorem devIndex_fetched (o : Outstanding) : ((s.fetched q o).ring .cmdq q).devIndex = o.sqHead := by
  change (((s.modRing .cmdq q fun r => { r with devIndex := o.sqHead }).modRing .cpl o.cplRing fun r =>
    { r with reserved := r.reserved + 1 }).ring .cmdq q).devIndex = _
  rw [ring_modRing_kind (by decide), ring_modRing_self (fun h => absurd h (by decide))]

theorem reserved_fetched (o : Outstanding) : ((s.fetched q o).ring .cpl o.cplRing).reserved = (s.ring .cpl o.cplRing).reserved + 1 := by
  change (((s.modRing .cmdq q fun r => { r with devIndex := o.sqHead }).modRing .cpl o.cplRing fun r =>
    { r with reserved := r.reserved + 1 }).ring .cpl o.cplRing).reserved = _
  rw [ring_modRing_self (fun h => absurd h (by decide)), ring_modRing_kind (by decide)]

/-- An entry replaced leaves the rings. -/
theorem ring_setOut (o new : Outstanding) (k : RingKind) (n : Fin 32) : (s.setOut o new).ring k n = s.ring k n := by
  cases k <;> rfl

/-- The last entry replaced. -/
theorem outstanding_setOut {o : Outstanding} (new : Outstanding) (fresh : o ∉ s.head.host.outstanding) :
    ((s.fetched q o).setOut o new).head.host.outstanding = s.head.host.outstanding ++ [new] := by
  change (s.head.host.outstanding ++ [o]).map (fun x => if x == o then new else x) = _
  rw [List.map_append, List.map_cons, List.map_nil, if_pos (beq_self_eq_true o)]
  congr 1
  refine (List.map_congr_left fun x hx => if_neg fun same => fresh ?_).trans (List.map_id _)
  exact beq_iff_eq.mp same ▸ hx

theorem byte_flags (flags : Nat) (h : flags < 256) (i : Nat) : (BitVec.ofNat 8 flags).getLsbD i = flags.testBit i := by
  rw [BitVec.getLsbD_ofNat]
  by_cases small : i < 8
  · rw [decide_eq_true small, Bool.true_and]
  · rw [decide_eq_false small, Bool.false_and, Nat.testBit_lt_two_pow]
    exact Nat.lt_of_lt_of_le h (Nat.pow_le_pow_right (n := 2) (by decide) (Nat.le_of_not_lt small))

theorem fieldLe_one (d : List Byte) (i : Nat) : fieldLe d i 1 < 256 := by
  unfold fieldLe slice
  cases d.drop i with
  | nil => decide
  | cons b l =>
    rw [List.take_succ_cons, List.take_zero]
    exact b.isLt

/-- The queue of a descriptor is served while no BYE stands. -/
theorem bye_of_turn (turn : s.nextQueue = some q) : s.head.host.bye = none := by
  have ready := nextQueue_ready turn
  unfold State.queueReady at ready
  simp only [Bool.and_eq_true, Option.isNone_iff_eq_none] at ready
  exact ready.1.1.2

section turn

variable (turn : s.nextQueue = some q) (ready : s.hostReady = true) (svc : (s.tile .t0).die.svc = true) (open_ : s.head.host.sessionOpen = true)
  (version : s.head.host.version = 0x0300)
include turn ready svc open_ version

theorem descriptorFetch_eq (notBye : fieldLe desc.toList 0 1 ≠ 0x02) : exec (.descriptorFetch q desc) s = .next
    (if (fieldLe desc.toList 1 1).testBit 1 && s.head.host.outstanding.any (fun o => o.queue == q && !o.remote) then
       s.modHost fun h => { h with fenced := h.fenced ++ [q] }
     else match s.statusOf desc with
       | some st => (s.fetched q (s.entryOf q desc)).completeOut (s.entryOf q desc) st 0 []
       | none =>
         if s.head.host.outstanding.any fun x => x.queue == q && x.waiting && !x.remote then
           (s.fetched q (s.entryOf q desc)).setOut (s.entryOf q desc) { s.entryOf q desc with waiting := true, behind := true }
         else (s.fetched q (s.entryOf q desc)).forward (s.entryOf q desc) (s.tooSoon (s.entryOf q desc))) := by
  have v : s.descVersion (fieldLe desc.toList 0 1) = 0x0300 := by
    rw [State.descVersion, version]
    exact ite_self _
  have flags : (BitVec.ofNat 8 (fieldLe desc.toList 1 1)).toNat = fieldLe desc.toList 1 1 := by
    rw [BitVec.toNat_ofNat]
    exact Nat.mod_eq_of_lt (fieldLe_one ..)
  change execDescriptorFetch q desc s = _
  rw [execDescriptorFetch, onHead_eq]
  dsimp only
  rw [if_neg (by rw [ready, svc, turn]; simp), v, flags, byte_flags _ (fieldLe_one ..), open_, if_neg notBye, decide_eq_true notBye]
  simp only [Bool.and_true, Bool.true_or, show decide ((0x0300 : Nat) ≥ 0x0300) = true from rfl, show decide ((0x0300 : Nat) ≥ 0x0200) = true from rfl,
    Bool.true_and, if_true]
  rfl

variable (alone : s.joined = false) (notBye : fieldLe desc.toList 0 1 ≠ 0x02) (fresh : s.entryOf q desc ∉ s.head.host.outstanding)

/-- With fence and an earlier command of the queue outstanding nothing is fetched. -/
theorem descriptorFetch_fenced (notBye : fieldLe desc.toList 0 1 ≠ 0x02) (fence : fieldLe desc.toList 1 1 = 2)
    (earlier : (s.head.host.outstanding.filter fun x => x.queue == q && !x.remote) ≠ []) :
    exec (.descriptorFetch q desc) s = .next (s.modHost fun h => { h with fenced := h.fenced ++ [q] }) := by
  have some : s.head.host.outstanding.any (fun o => o.queue == q && !o.remote) = true := by
    obtain ⟨o, mem⟩ := List.exists_mem_of_ne_nil _ earlier
    exact List.any_eq_true.mpr ⟨o, List.mem_filter.mp mem⟩
  rw [descriptorFetch_eq turn ready svc open_ version notBye, fence, some]
  rfl

include notBye fresh

/-- A descriptor that fails a common check completes at once. -/
theorem descriptorFetch_failed {st : Nat} (status : s.statusOf desc = some st) (fence : (fieldLe desc.toList 1 1).testBit 1 = false) :
    ∃ s', exec (.descriptorFetch q desc) s = .next s' ∧ (s'.ring .cmdq q).devIndex = (s.entryOf q desc).sqHead ∧ s'.tiles = s.tiles ∧
      s'.head.host.outstanding = s.head.host.outstanding := by
  have runs := descriptorFetch_eq turn ready svc open_ version notBye
  rw [fence, Bool.false_and, if_neg Bool.false_ne_true, status] at runs
  dsimp only at runs
  have quiet : s.head.host.bye = none := bye_of_turn turn
  have stays : (s.fetched q (s.entryOf q desc)).head.host.bye = none := quiet
  refine ⟨_, runs, ?_⟩
  rw [completeOut_raw _ _ _ stays]
  have done := completeRaw_completed (s := s.fetched q (s.entryOf q desc)) (o := s.entryOf q desc) st 0 []
  refine ⟨?_, done.tiles, ?_⟩
  · rw [State.ring, done.host]
    exact devIndex_fetched _
  · rw [done.host]
    exact (List.erase_append_right _ fresh).trans (by rw [List.erase_cons_head, List.append_nil])

include alone

/-- A sound descriptor leaves its command outstanding: released, or held for its time or behind a held one. -/
theorem descriptorFetch_sound {waits : Bool} (status : s.statusOf desc = none) (fence : (fieldLe desc.toList 1 1).testBit 1 = false)
    (holds : (!(s.heldOf q).isEmpty || s.tooSoon (s.entryOf q desc)) = waits) :
    ∃ s', exec (.descriptorFetch q desc) s = .next s' ∧
      ((s'.ring .cmdq q).devIndex = (s.entryOf q desc).sqHead ∧ s'.tiles = s.tiles ∧ s'.hostMem = s.hostMem ∧
        (s'.ring .cpl (s.entryOf q desc).cplRing).reserved = (s.ring .cpl (s.entryOf q desc).cplRing).reserved + 1) ∧
      s'.head.host.outstanding = s.head.host.outstanding ++
        [{ s.entryOf q desc with waiting := waits, behind := !(s.heldOf q).isEmpty }] := by
  have any : (s.head.host.outstanding.any fun x => x.queue == q && x.waiting && !x.remote) = !(s.heldOf q).isEmpty := by
    rw [Bool.eq_iff_iff, List.any_eq_true, Bool.not_eq_true', List.isEmpty_eq_false_iff_exists_mem]
    exact exists_congr fun o => (List.mem_filter (p := fun x : Outstanding => x.queue == q && x.waiting && !x.remote)).symm
  have runs := descriptorFetch_eq turn ready svc open_ version notBye
  rw [fence, Bool.false_and, if_neg Bool.false_ne_true, status] at runs
  dsimp only at runs
  have forward : (s.fetched q (s.entryOf q desc)).forward (s.entryOf q desc) (s.tooSoon (s.entryOf q desc)) =
      (s.fetched q (s.entryOf q desc)).setOut (s.entryOf q desc) { s.entryOf q desc with waiting := s.tooSoon (s.entryOf q desc), behind := false } := by
    have alone : (s.fetched q (s.entryOf q desc)).joined = false := alone
    unfold State.forward
    dsimp only
    rw [alone]
    rfl
  have put (new : Outstanding) : ((((s.fetched q (s.entryOf q desc)).setOut (s.entryOf q desc) new).ring .cmdq q).devIndex = (s.entryOf q desc).sqHead ∧
      ((s.fetched q (s.entryOf q desc)).setOut (s.entryOf q desc) new).tiles = s.tiles ∧
      ((s.fetched q (s.entryOf q desc)).setOut (s.entryOf q desc) new).hostMem = s.hostMem ∧
      (((s.fetched q (s.entryOf q desc)).setOut (s.entryOf q desc) new).ring .cpl (s.entryOf q desc).cplRing).reserved =
        (s.ring .cpl (s.entryOf q desc).cplRing).reserved + 1) ∧
      ((s.fetched q (s.entryOf q desc)).setOut (s.entryOf q desc) new).head.host.outstanding = s.head.host.outstanding ++ [new] := by
    rw [ring_setOut, ring_setOut]
    exact ⟨⟨devIndex_fetched _, rfl, rfl, reserved_fetched _⟩, outstanding_setOut new fresh⟩
  rw [any] at runs
  refine ⟨_, runs, ?_⟩
  subst holds
  cases (s.heldOf q).isEmpty with
  | true =>
    rw [if_neg (by decide), forward]
    exact put _
  | false =>
    rw [if_pos (by decide)]
    exact put _

end turn

/-- Without a session only HELLO is served. -/
theorem statusOf_closed (shut : s.head.host.sessionOpen = false) (other : fieldLe desc.toList 0 1 ≠ 0x01) : s.statusOf desc = some 0x01 := by
  unfold State.statusOf State.commonStatus
  dsimp only
  rw [shut, decide_eq_true other]
  rfl

theorem tooSoon_of_flags (flags : fieldLe desc.toList 1 1 = 0 ∨ fieldLe desc.toList 1 1 = 1) : s.tooSoon (s.entryOf q desc) =
    (decide (fieldLe desc.toList 1 1 = 1) && decide (tsDiff (s.entryOf q desc).notBefore s.ts > 0)) := by
  unfold State.tooSoon
  rw [show (s.entryOf q desc).flags.getLsbD 0 = (fieldLe desc.toList 1 1).testBit 0 from byte_flags _ (fieldLe_one ..) 0]
  rcases flags with e | e <;> rw [e] <;> rfl

end fetch

/-! ### The release (R305, R307, R309) -/

section release

variable {s : State} {x : Outstanding}

theorem forward_alone (alone : s.joined = false) (hold : Bool) : s.forward x hold = s.setOut x { x with waiting := hold, behind := false } := by
  unfold State.forward
  dsimp only
  rw [alone]
  rfl

/-- The release of the one held command of a queue. -/
theorem notBeforeRelease_one {q : Fin 32} (one : s.heldOf q = [x])
    (own : ∀ y ∈ s.head.host.outstanding, y.queue = q → y.waiting = true → y.remote = false) :
    exec (.notBeforeRelease q) s = .next (s.releaseHeld [x]) := by
  have mine : ((s.head.host.outstanding.filter fun o => o.queue == q && o.waiting).filter (!·.remote)) = [x] := by
    rw [List.filter_filter, ← one, State.heldOf]
    exact List.filter_congr fun o _ => by rw [Bool.and_comm]
  have far : ((s.head.host.outstanding.filter fun o => o.queue == q && o.waiting).filter (·.remote)) = [] := by
    rw [List.filter_eq_nil_iff]
    intro o mem
    obtain ⟨here, waits⟩ := List.mem_filter.mp mem
    rw [Bool.and_eq_true, beq_iff_eq] at waits
    rw [own o here waits.1 waits.2]
    decide
  change execNotBeforeRelease q s = _
  rw [execNotBeforeRelease, onHead_eq]
  dsimp only
  rw [mine, far]
  rfl

theorem releaseHeld_stopped (cut : (x.behind && (s.ring .cmdq x.queue).stopped) = true) : s.releaseHeld [x] = s.completeOut x 0x0B 0 [] := by
  unfold State.releaseHeld
  exact if_pos cut

theorem releaseHeld_runs (alone : s.joined = false) (cut : (x.behind && (s.ring .cmdq x.queue).stopped) = false) : s.releaseHeld [x] =
    if s.tooSoon x then (if x.behind then s.setOut x { x with waiting := true, behind := false } else s)
    else s.setOut x { x with waiting := false, behind := false } := by
  unfold State.releaseHeld
  dsimp only
  refine (if_neg (Bool.eq_false_iff.mp cut)).trans ?_
  rw [forward_alone alone]
  cases soon : s.tooSoon x with
  | true => rfl
  | false =>
    rw [if_neg Bool.false_ne_true, if_neg Bool.false_ne_true, if_neg Bool.false_ne_true]
    unfold State.releaseHeld
    cases behind : x.behind with
    | true => rfl
    | false => rw [if_neg Bool.false_ne_true]

end release

/-- Settles O55, clause by clause. -/
theorem descriptorsAreFetchedInTurn : Obligations.DescriptorsAreFetchedInTurn := by
  unfold Obligations.DescriptorsAreFetchedInTurn
  intro s q desc d op flags r c o status earlier held
  refine ⟨descriptorFetch_otherTurn desc, ?fetch, statusOf_closed, fun x alone one _ own => ?release⟩
  case fetch =>
    intro turn ready svc open_ version alone notBye fresh fetched
    refine ⟨fun sound none free => ?_, fun sound waits => ?_, fun fence some => descriptorFetch_fenced turn ready svc open_ version notBye fence some,
      fun st failed _ _ fence => descriptorFetch_failed turn ready svc open_ version notBye fresh failed fence⟩
    · have soon : s.tooSoon o = false := (tooSoon_of_flags (.inl none)).trans (by rw [show fieldLe desc.toList 1 1 = 0 from none]; rfl)
      have holds : (!(s.heldOf q).isEmpty || s.tooSoon (s.entryOf q desc)) = false := by
        rw [show s.heldOf q = [] from free, show s.tooSoon (s.entryOf q desc) = false from soon]
        rfl
      obtain ⟨s', runs, kept, left⟩ := descriptorFetch_sound turn ready svc open_ version alone notBye fresh sound
        (by rw [show fieldLe desc.toList 1 1 = 0 from none]; rfl) holds
      refine ⟨s', runs, kept, left.trans ?_⟩
      rw [show s.heldOf q = [] from free]
      rfl
    · have low : fieldLe desc.toList 1 1 = 0 ∨ fieldLe desc.toList 1 1 = 1 := waits.symm.imp And.left And.left
      have holds : (!(s.heldOf q).isEmpty || s.tooSoon (s.entryOf q desc)) = true := by
        rcases waits with ⟨one, ahead⟩ | ⟨_, some⟩
        · rw [tooSoon_of_flags low, decide_eq_true (show fieldLe desc.toList 1 1 = 1 from one), Bool.true_and, Bool.or_eq_true]
          exact .inr (decide_eq_true ahead)
        · rw [List.isEmpty_eq_false_iff.mpr (show s.heldOf q ≠ [] from some)]
          rfl
      exact descriptorFetch_sound turn ready svc open_ version alone notBye fresh sound (by rcases low with e | e <;> rw [e] <;> rfl) holds
  case release =>
    intro cut put
    have own_ : x.queue = q := by
      have mem : x ∈ held := by rw [one]; exact List.mem_singleton_self x
      have at_ := (List.mem_filter.mp mem).2
      simp only [Bool.and_eq_true, beq_iff_eq] at at_
      exact at_.1.1
    have runs := notBeforeRelease_one one own
    subst own_
    refine ⟨fun ends => runs.trans (congrArg _ (releaseHeld_stopped ends)), fun ends soon => runs.trans (congrArg _ ?_),
      fun ends soon => runs.trans (congrArg _ ?_)⟩
    · rw [releaseHeld_runs alone ends, if_pos soon]
      rfl
    · rw [releaseHeld_runs alone ends, if_neg (Bool.eq_false_iff.mp soon)]
      rfl

end Sys2Proof.Machine
end

