-- ==== Sys2Proof/Proofs/LogRecords.lean ====
section
/-!
PROOFS. What an event, the weighing of the log and a record leave of the tiles' logs and of the head (R344, R348, R353, R355).
-/

namespace Sys2Proof.Machine

/-! ### An event on the rings (R311) -/

/-- Of the head only its host interface differs, and no tile. -/
structure State.HostTold (s s' : State) : Prop where
  tiles : s'.tiles = s.tiles
  head  : s'.head = { s.head with host := s'.head.host }

section hostTold

variable {s0 s : State}

theorem State.HostTold.refl (s : State) : State.HostTold s s := ⟨rfl, rfl⟩

theorem hostTold_ite {c : Prop} [Decidable c] {a b : State} (ha : State.HostTold s a) (hb : State.HostTold s b) :
    State.HostTold s (if c then a else b) := by
  split
  · exact ha
  · exact hb

theorem hostTold_modHost {f : HostIf → HostIf} (h : State.HostTold s0 s) : State.HostTold s0 (s.modHost f) :=
  ⟨h.tiles, (congrArg (fun hd : Head => { hd with host := f s.head.host }) h.head :)⟩

theorem hostTold_emit {o : Output} (h : State.HostTold s0 s) : State.HostTold s0 (s.emit o) := ⟨h.tiles, h.head⟩

theorem hostTold_dma {a : Nat} {bs : List Byte} (h : State.HostTold s0 s) : State.HostTold s0 (s.dma a bs) := ⟨h.tiles, h.head⟩

theorem hostTold_signal {v : Nat} (h : State.HostTold s0 s) : State.HostTold s0 (s.signal v) :=
  hostTold_ite (hostTold_modHost h) (hostTold_emit h)

theorem hostTold_bwkSend {k : Nat} {pl : BwkPayload} (h : State.HostTold s0 s) : State.HostTold s0 (s.bwkSend k pl) := by
  unfold State.bwkSend
  split
  · exact hostTold_emit h
  · exact h

theorem hostTold_each {α : Type} {l : List α} {f : State → α → State} (h : State.HostTold s0 s)
    (hf : ∀ s a, State.HostTold s0 s → State.HostTold s0 (f s a)) : State.HostTold s0 (s.each l f) := by
  induction l generalizing s with
  | nil => exact h
  | cons a l ih => exact ih (hf s a h)

theorem hostTold_evtPut {e : Fin 8} {id : Nat} {ts : Word} {data : List Byte} {urgent mark : Bool} (h : State.HostTold s0 s) :
    State.HostTold s0 (s.evtPut e id ts data urgent mark) := by
  unfold State.evtPut
  refine hostTold_ite h (hostTold_ite (hostTold_modHost h) (hostTold_ite (hostTold_signal ?_) ?_))
  all_goals exact hostTold_modHost (hostTold_dma h)

theorem hostTold_eventOut {src : Option TileId} {code : Nat} {ts : Word} {data : List Byte} (h : State.HostTold s0 s) :
    State.HostTold s0 (s.eventOut src code ts data) := by
  unfold State.eventOut
  refine hostTold_ite h (hostTold_ite (hostTold_ite (hostTold_each h fun s e h => ?_) h) (hostTold_ite (hostTold_bwkSend h) h))
  exact hostTold_ite (hostTold_evtPut (hostTold_ite (hostTold_evtPut h) h)) h

end hostTold

/-! ### An entry in the open EVENTS record (R348) -/

/-- Of a log only the open EVENTS record differs. -/
def Peat.Noted (p q : Peat) : Prop := q = { p with openEvents := q.openEvents, openSource := q.openSource, openTimer := q.openTimer }

section noted

variable {p q r : Peat}

theorem Peat.Noted.refl (p : Peat) : Peat.Noted p p := rfl

theorem Peat.Noted.trans (h : Peat.Noted p q) (k : Peat.Noted q r) : Peat.Noted p r := by
  unfold Peat.Noted at *
  rw [h] at k
  exact k

theorem Peat.Noted.records (h : Peat.Noted p q) : q.records = p.records := by rw [h]

theorem Peat.Noted.signed (h : Peat.Noted p q) : q.signed = p.signed := by rw [h]

theorem Peat.Noted.inFlash (h : Peat.Noted p q) : q.inFlash = p.inFlash := by rw [h]

theorem Peat.Noted.nextSeq (h : Peat.Noted p q) : q.nextSeq = p.nextSeq := by rw [h]

theorem Peat.Noted.wrapped (h : Peat.Noted p q) : q.wrapped = p.wrapped := by rw [h]

theorem Peat.Noted.lostCount (h : Peat.Noted p q) : q.lostCount = p.lostCount := by rw [h]

end noted

/-- The log-high event may have been noted (R355): in the open EVENTS record of the head tile, and in the head. -/
structure State.Weighed (s s' : State) : Prop where
  noted  : ∀ u, Peat.Noted (s.tile u).peat (s'.tile u).peat
  beside : ∀ u, u ≠ .t0 → s'.tile u = s.tile u
  calm   : s.head.logHigh = true → ∀ u, s'.tile u = s.tile u
  head   : s'.head = { s.head with host := s'.head.host, logHigh := s'.head.logHigh }

section weighed

variable {s : State}

theorem tile_eventOut (u : TileId) (src : Option TileId) (code : Nat) (ts : Word) (data : List Byte) :
    (s.eventOut src code ts data).tile u = s.tile u :=
  congrArg (PerTile.get · u) (hostTold_eventOut (.refl s)).tiles

theorem noted_openEntry (t u : TileId) (id : Nat) (ts : Word) (data : List Byte) (src : Option Source) :
    Peat.Noted (s.tile u).peat ((s.openEntry t id ts data src).tile u).peat := by
  rw [State.openEntry, State.modPeat, State.tile_modTile]
  split <;> rfl

theorem tile_openEntry {t u : TileId} (h : u ≠ t) (id : Nat) (ts : Word) (data : List Byte) (src : Option Source) :
    (s.openEntry t id ts data src).tile u = s.tile u := by
  rw [State.openEntry, State.modPeat, State.tile_modTile, if_neg h]

theorem weighed_logHighCheck : State.Weighed s s.logHighCheck := by
  unfold State.logHighCheck
  dsimp only
  split
  · exact ⟨fun u => .refl _, fun _ _ => rfl, fun _ _ => rfl, rfl⟩
  · split
    case isTrue rise =>
      have first : s.head.logHigh = false := by
        rw [Bool.and_eq_true, Bool.not_eq_true'] at rise
        exact rise.2
      refine ⟨fun u => ?_, fun u hu => ?_, fun high => ?_, ?_⟩
      · rw [tile_eventOut]
        exact noted_openEntry ..
      · rw [tile_eventOut, tile_openEntry hu]
        rfl
      · rw [first] at high
        exact absurd high Bool.false_ne_true
      · generalize noted : State.openEntry _ _ _ _ _ = s1
        have head : s1.head = { s.head with logHigh := s1.head.logHigh } := by rw [← noted]; rfl
        have told := (hostTold_eventOut (s := s1) (src := none) (code := 0x41) (ts := s.ts)
          (data := leBytes 4 s.undrained ++ leBytes 4 s.logCapacity) (.refl s1)).head
        generalize s1.eventOut _ _ _ _ = s2 at told ⊢
        rw [told, head]
    case isFalse => exact ⟨fun u => .refl _, fun _ _ => rfl, fun _ _ => rfl, rfl⟩

end weighed

/-! ### A record (R344, R351) -/

/-- A record of a tile written. -/
structure State.Stores (t : TileId) (type : Nat) (body : List Byte) (s s' : State) : Prop where
  record  : ∃ r, (s'.tile t).peat.records = (s.tile t).peat.records ++ [r] ∧ r.type = type ∧ r.seq = (s.tile t).peat.nextSeq ∧ r.body = body
  nextSeq : (s'.tile t).peat.nextSeq = (s.tile t).peat.nextSeq + 1
  wrapped : (s'.tile t).peat.wrapped = (s.tile t).peat.wrapped
  lost    : (s'.tile t).peat.lostCount = (s.tile t).peat.lostCount
  opened  : t ≠ .t0 ∨ s.head.logHigh = true ∨ (s.tile t).peat.nextSeq % 32 ≠ 31 →
    (s'.tile t).peat.openEvents = (s.tile t).peat.openEvents
  high    : (s.tile t).peat.nextSeq % 32 ≠ 31 → s'.head.logHigh = s.head.logHigh

section stores

variable {s : State} {t : TileId} {type : Nat} {src : Source} {body : List Byte} {flags : Nat}

theorem stores_modPeat {f : Peat → Peat} {r : PeatRecord} (h : f (s.tile t).peat = { (s.tile t).peat with
      nextSeq := (s.tile t).peat.nextSeq + 1, records := (s.tile t).peat.records ++ [r], chain := (f (s.tile t).peat).chain
      closed := (f (s.tile t).peat).closed })
    (type_ : r.type = type) (seq : r.seq = (s.tile t).peat.nextSeq) (body_ : r.body = body) : State.Stores t type body s (s.modPeat t f) := by
  have own : ((s.modPeat t f).tile t).peat = f (s.tile t).peat := State.peat_modPeat ..
  rw [h] at own
  exact ⟨⟨r, by rw [own], type_, seq, body_⟩, by rw [own], by rw [own], by rw [own], fun _ => by rw [own], fun _ => rfl⟩

/-- The last record of a block has the log weighed. -/
theorem State.Stores.weighed {s1 s2 : State} {f : Head → Head} (h : State.Stores t type body s s1) (w : State.Weighed (s1.modHead f) s2)
    (high : (f s1.head).logHigh = s.head.logHigh) (last : (s.tile t).peat.nextSeq % 32 = 31) : State.Stores t type body s s2 := by
  have noted : Peat.Noted (s1.tile t).peat (s2.tile t).peat := w.noted t
  refine ⟨by rw [noted.records]; exact h.record, by rw [noted.nextSeq]; exact h.nextSeq, by rw [noted.wrapped]; exact h.wrapped,
    by rw [noted.lostCount]; exact h.lost, fun quiet => ?_, fun other => absurd last other⟩
  have same : (s2.tile t).peat = (s1.tile t).peat := by
    rcases quiet with beside | calm | other
    · exact congrArg Tile.peat (w.beside t beside)
    · exact congrArg Tile.peat (w.calm (high.trans calm) t)
    · exact absurd last other
  rw [same]
  exact h.opened quiet

theorem peatStore_stores : State.Stores t type body s (s.peatStore t type src body flags) := by
  unfold State.peatStore
  dsimp only
  split
  case isTrue last => exact State.Stores.weighed (stores_modPeat rfl rfl rfl rfl) weighed_logHighCheck rfl (of_decide_eq_true last)
  case isFalse => exact stores_modPeat rfl rfl rfl rfl

end stores

end Sys2Proof.Machine
end

