-- ==== Sys2Proof/Proofs/LogSeal.lean ====
section
/-!
PROOFS. Closing the open EVENTS record, sealing the open block and marking the log (R348, R354).
-/

namespace Sys2Proof.Machine

/-! ### What a record waits for (R348, R355) -/

/-- Nothing stands before the next record of a log that has room. -/
structure Peat.Clear (p : Peat) : Prop where
  opened  : p.openEvents = []
  wrapped : p.wrapped = []
  lost    : p.lostCount.toList.sum = 0

/-- No entry is open, and within some records none comes. -/
structure State.Calm (t : TileId) (n : Nat) (s : State) : Prop where
  opened : (s.tile t).peat.openEvents = []
  calm   : t ≠ .t0 ∨ s.head.logHigh = true ∨ (s.tile t).peat.nextSeq % 32 < n

section put

variable {s : State} {t : TileId} {type n : Nat} {src : Source} {body : List Byte} {flags : Nat}

theorem State.Calm.mono (h : State.Calm t n s) : State.Calm t (n + 1) s :=
  ⟨h.opened, h.calm.imp_right (.imp_right Nat.lt_succ_of_lt)⟩

theorem State.Calm.modPeat {f : Peat → Peat} (h : State.Calm t n s) (opened : ∀ p, (f p).openEvents = p.openEvents)
    (seq : ∀ p, (f p).nextSeq = p.nextSeq) : State.Calm t n (s.modPeat t f) := by
  refine ⟨?_, h.calm.imp_right (.imp_right fun small => ?_)⟩
  · rw [State.peat_modPeat, opened, h.opened]
  · rw [State.peat_modPeat, seq]
    exact small

/-- At most one of 31 records in a row is the last of its block. -/
theorem State.Calm.peatStore (h : State.Calm t n s) (few : n < 32) : State.Calm t (n + 1) (s.peatStore t type src body flags) := by
  have stored := peatStore_stores (s := s) (t := t) (type := type) (src := src) (body := body) (flags := flags)
  refine ⟨(stored.opened (h.calm.imp_right (.imp_right fun small => by omega))).trans h.opened, h.calm.imp_right fun quiet => ?_⟩
  by_cases last : (s.tile t).peat.nextSeq % 32 = 31
  · exact .inr (by rw [stored.nextSeq]; omega)
  · exact quiet.imp (stored.high last).trans fun small => by rw [stored.nextSeq]; omega

theorem peatRoom_room (room : (s.tile t).peat.records.length < peatCapacity) : s.peatRoom t = s :=
  if_pos (by rw [decide_eq_true room, Bool.true_or])

/-- The WRAP record of freed blocks. -/
def State.putWrap (s : State) (t : TileId) (flags : Nat) : State :=
  if (s.tile t).peat.wrapped.isEmpty then s
  else (s.peatStore t 0x09 .tile (s.tile t).peat.wrapBody flags).modPeat t fun p => { p with wrapped := [] }

/-- The EVENTS record of the open entries. -/
def State.putOpen (s : State) (t : TileId) (flags : Nat) : State :=
  if (s.tile t).peat.openEvents.isEmpty then s
  else (s.modPeat t Peat.eventsTaken).peatStore t 0x03 (s.tile t).peat.openSource (s.tile t).peat.eventsBody flags

/-- The GAP record of lost records. -/
def State.putGap (s : State) (t : TileId) (flags : Nat) : State :=
  if (s.tile t).peat.lostCount.toList.sum = 0 then s
  else (s.peatStore t 0x0A .tile (s.tile t).peat.gapBody flags).modPeat t fun p => { p with lostCount := Vector.replicate 12 0, fullSeen := false }

/-- What a record does: it finds room, and what must stand before it is written. -/
theorem peatPut_steps : s.peatPut t type src body flags =
    if decide (((s.peatRoom t).tile t).peat.records.length ≥ peatCapacity) && !decide ((s.tile t).par 0x92 3 = 1) then
      (s.peatRoom t).peatLose t type true
    else (((((if decide (((s.peatRoom t).tile t).peat.records.length ≥ peatCapacity) then (s.peatRoom t).peatWrap t else s.peatRoom t).putWrap
      t flags).putOpen t flags).putGap t flags).peatStore t type src body flags) := rfl

theorem peatPut_room (room : (s.tile t).peat.records.length < peatCapacity) : s.peatPut t type src body flags =
    (((s.putWrap t flags).putOpen t flags).putGap t flags).peatStore t type src body flags := by
  have fits : decide ((s.tile t).peat.records.length ≥ peatCapacity) = false := decide_eq_false (Nat.not_le.mpr room)
  rw [peatPut_steps, peatRoom_room room, fits, Bool.false_and, if_neg Bool.false_ne_true, if_neg Bool.false_ne_true]

theorem State.Calm.putWrap (h : State.Calm t n s) (few : n < 32) : State.Calm t (n + 1) (s.putWrap t flags) := by
  unfold State.putWrap
  split
  · exact h.mono
  · exact (h.peatStore few).modPeat (fun _ => rfl) fun _ => rfl

theorem State.Calm.putOpen (h : State.Calm t n s) : s.putOpen t flags = s := if_pos (by rw [h.opened]; rfl)

theorem State.Calm.putGap (h : State.Calm t n s) (few : n < 32) : State.Calm t (n + 1) (s.putGap t flags) := by
  unfold State.putGap
  split
  · exact h.mono
  · exact (h.peatStore few).modPeat (fun _ => rfl) fun _ => rfl

/-- A log that has room, without an open entry, keeps none open after a record. -/
theorem openEvents_peatPut (calm : State.Calm t 0 s) (room : (s.tile t).peat.records.length < peatCapacity) :
    ((s.peatPut t type src body flags).tile t).peat.openEvents = [] := by
  have wrap : State.Calm t 1 (s.putWrap t flags) := calm.putWrap (by decide)
  rw [peatPut_room room, wrap.putOpen]
  exact ((wrap.putGap (by decide)).peatStore (by decide)).opened

/-- The open EVENTS record of at most 16 entries is written where the log has room. -/
theorem openEvents_closeEvents (few : (s.tile t).peat.openEvents.length ≤ 16) (room : (s.tile t).peat.records.length < peatCapacity)
    (quiet : t ≠ .t0 ∨ s.head.logHigh = true) : ((s.closeEvents t flags).tile t).peat.openEvents = [] := by
  unfold State.closeEvents
  dsimp only
  split
  case isTrue none => exact List.isEmpty_iff.mp none
  case isFalse =>
    refine openEvents_peatPut ⟨?_, quiet.imp_right .inl⟩ ?_
    · rw [State.peat_modPeat]
      exact List.drop_eq_nil_of_le few
    · rw [State.peat_modPeat]
      exact room

/-- A record of a log that has room and nothing waiting. -/
theorem peatPut_clear (clear : Peat.Clear (s.tile t).peat) (room : (s.tile t).peat.records.length < peatCapacity) :
    s.peatPut t type src body flags = s.peatStore t type src body flags := by
  have wrap : s.putWrap t flags = s := if_pos (by rw [clear.wrapped]; rfl)
  have opened : s.putOpen t flags = s := if_pos (by rw [clear.opened]; rfl)
  rw [peatPut_room room, wrap, opened, show s.putGap t flags = s from if_pos clear.lost]

theorem closeEvents_clear (clear : Peat.Clear (s.tile t).peat) : s.closeEvents t flags = s := if_pos (by rw [clear.opened]; rfl)

/-- Records put one after the other into the open block of a log that has room and nothing waiting. -/
theorem nextSeq_puts {α : Type} (l : List α) (clear : Peat.Clear (s.tile t).peat) (inBlock : (s.tile t).peat.nextSeq % 32 + l.length ≤ 32)
    (room : (s.tile t).peat.records.length + l.length ≤ peatCapacity) :
    ((s.each l fun s _ => s.peatPut t type src body).tile t).peat.nextSeq = (s.tile t).peat.nextSeq + l.length := by
  induction l generalizing s with
  | nil => rfl
  | cons a l ih =>
    rw [List.length_cons] at inBlock room
    have stored := peatStore_stores (s := s) (t := t) (type := type) (src := src) (body := body) (flags := 0)
    obtain ⟨r, records, _⟩ := stored.record
    rw [State.each_cons, peatPut_clear clear (by omega)]
    cases l with
    | nil => exact stored.nextSeq
    | cons b l =>
      rw [List.length_cons] at inBlock room ih
      have inside : (s.tile t).peat.nextSeq % 32 ≠ 31 := by omega
      have length : ((s.peatStore t type src body 0).tile t).peat.records.length = (s.tile t).peat.records.length + 1 := by
        rw [records, List.length_append, List.length_singleton]
      rw [ih ⟨(stored.opened (.inr (.inr inside))).trans clear.opened, stored.wrapped.trans clear.wrapped, by rw [stored.lost]; exact clear.lost⟩
        (by rw [stored.nextSeq]; omega) (by rw [length]; omega), stored.nextSeq, List.length_cons, List.length_cons]
      omega

/-- The open block of a log that has room and nothing waiting is filled. -/
theorem nextSeq_sealTile (clear : Peat.Clear (s.tile t).peat) (opened : (s.tile t).peat.nextSeq % 32 ≠ 0)
    (room : (s.tile t).peat.records.length + 32 ≤ peatCapacity) :
    ((s.sealTile t).tile t).peat.nextSeq = ((s.tile t).peat.nextSeq / 32 + 1) * 32 := by
  unfold State.sealTile
  dsimp only
  rw [closeEvents_clear clear, nextSeq_puts _ clear (by rw [List.length_range]; omega) (by rw [List.length_range]; omega), List.length_range]
  omega

end put

/-! ### The other logs (R355) -/

/-- Of the logs beside a tile's, only the open EVENTS record of the head tile may differ, and no other tile. -/
structure State.Beside (t : TileId) (s s' : State) : Prop where
  noted : ∀ u, u ≠ t → Peat.Noted (s.tile u).peat (s'.tile u).peat
  far   : ∀ u, u ≠ t → u ≠ .t0 → s'.tile u = s.tile u

section beside

variable {s0 s s' s'' : State} {t : TileId}

theorem State.Beside.refl (t : TileId) (s : State) : State.Beside t s s := ⟨fun _ _ => .refl _, fun _ _ _ => rfl⟩

theorem State.Beside.trans (h : State.Beside t s s') (k : State.Beside t s' s'') : State.Beside t s s'' :=
  ⟨fun u hu => (h.noted u hu).trans (k.noted u hu), fun u hu h0 => (k.far u hu h0).trans (h.far u hu h0)⟩

theorem State.Beside.same (h : State.Beside t s0 s) (k : ∀ u, u ≠ t → s'.tile u = s.tile u) : State.Beside t s0 s' :=
  h.trans ⟨fun u hu => by rw [k u hu]; exact .refl _, fun u hu _ => k u hu⟩

theorem beside_ite {c : Prop} [Decidable c] {a b : State} (ha : State.Beside t s a) (hb : State.Beside t s b) :
    State.Beside t s (if c then a else b) := by
  split
  · exact ha
  · exact hb

theorem beside_each {α : Type} {l : List α} {f : State → α → State} (h : State.Beside t s0 s)
    (hf : ∀ s a, State.Beside t s0 s → State.Beside t s0 (f s a)) : State.Beside t s0 (s.each l f) := by
  induction l generalizing s with
  | nil => exact h
  | cons a l ih => exact ih (hf s a h)

theorem beside_modHead {f : Head → Head} (h : State.Beside t s0 s) : State.Beside t s0 (s.modHead f) := h.same fun _ _ => rfl

theorem beside_modPeat {f : Peat → Peat} (h : State.Beside t s0 s) : State.Beside t s0 (s.modPeat t f) :=
  h.same fun u hu => by rw [State.modPeat, State.tile_modTile, if_neg hu]

theorem beside_eventOut {src : Option TileId} {code : Nat} {ts : Word} {data : List Byte} (h : State.Beside t s0 s) :
    State.Beside t s0 (s.eventOut src code ts data) := h.same fun u _ => tile_eventOut u src code ts data

theorem beside_logHighCheck (h : State.Beside t s0 s) : State.Beside t s0 s.logHighCheck :=
  h.trans ⟨fun u _ => weighed_logHighCheck.noted u, fun u _ => weighed_logHighCheck.beside u⟩

theorem beside_peatStore {type : Nat} {src : Source} {body : List Byte} {flags : Nat} (h : State.Beside t s0 s) :
    State.Beside t s0 (s.peatStore t type src body flags) := by
  unfold State.peatStore
  exact beside_ite (beside_logHighCheck (beside_modHead (beside_modPeat h))) (beside_modPeat h)

theorem beside_peatLose {type : Nat} {full : Bool} (h : State.Beside t s0 s) : State.Beside t s0 (s.peatLose t type full) := by
  unfold State.peatLose
  exact beside_ite (beside_modPeat h) (beside_eventOut (beside_modPeat (beside_modPeat h)))

theorem beside_peatToFlash {b sector : Nat} (h : State.Beside t s0 s) : State.Beside t s0 (s.peatToFlash t b sector) := by
  unfold State.peatToFlash
  exact beside_modHead (beside_modPeat h)

theorem beside_peatRoom (h : State.Beside t s0 s) : State.Beside t s0 (s.peatRoom t) := by
  unfold State.peatRoom
  refine beside_ite h ?_
  split
  · exact beside_peatToFlash h
  · exact h

theorem beside_peatFree {bs : List Nat} (h : State.Beside t s0 s) : State.Beside t s0 (s.peatFree t bs) :=
  beside_eventOut (beside_modPeat (beside_modHead (beside_modPeat h)))

theorem beside_peatWrap (h : State.Beside t s0 s) : State.Beside t s0 (s.peatWrap t) := by
  unfold State.peatWrap
  dsimp only
  split
  · exact beside_peatFree h
  · exact beside_ite (beside_peatFree (beside_modHead (beside_peatFree h)))
      (beside_each (beside_modHead (beside_peatFree h)) fun _ _ => beside_peatToFlash)

theorem beside_putWrap {flags : Nat} (h : State.Beside t s0 s) : State.Beside t s0 (s.putWrap t flags) :=
  beside_ite h (beside_modPeat (beside_peatStore h))

theorem beside_putOpen {flags : Nat} (h : State.Beside t s0 s) : State.Beside t s0 (s.putOpen t flags) :=
  beside_ite h (beside_peatStore (beside_modPeat h))

theorem beside_putGap {flags : Nat} (h : State.Beside t s0 s) : State.Beside t s0 (s.putGap t flags) :=
  beside_ite h (beside_modPeat (beside_peatStore h))

theorem beside_peatPut {type : Nat} {src : Source} {body : List Byte} {flags : Nat} (h : State.Beside t s0 s) :
    State.Beside t s0 (s.peatPut t type src body flags) := by
  rw [peatPut_steps]
  have room := beside_peatRoom h
  exact beside_ite (beside_peatLose room) (beside_peatStore (beside_putGap (beside_putOpen (beside_putWrap
    (beside_ite (beside_peatWrap room) room)))))

theorem beside_closeEvents {flags : Nat} (h : State.Beside t s0 s) : State.Beside t s0 (s.closeEvents t flags) :=
  beside_ite h (beside_peatPut (beside_modPeat h))

theorem beside_sealTile (h : State.Beside t s0 s) : State.Beside t s0 (s.sealTile t) :=
  beside_each (beside_closeEvents h) fun _ _ => beside_peatPut

theorem beside_logEvent {id : Nat} {ts : Word} {data : List Byte} {src : Option Source} (h : State.Beside t s0 s) :
    State.Beside t s0 (s.logEvent t id ts data src) :=
  beside_ite (beside_ite (beside_closeEvents (beside_modPeat h)) (beside_modPeat h)) (beside_ite (beside_modPeat h) (beside_peatLose h))

theorem beside_raiseHead {code : Nat} {data : List Byte} {logged : Bool} (h : State.Beside .t0 s0 s) :
    State.Beside .t0 s0 (s.raiseHead code data logged) := beside_eventOut (beside_ite (beside_logEvent h) h)

end beside

end Sys2Proof.Machine
end

