-- ==== Sys2Proof/Proofs/LogBlocks.lean ====
section
/-!
PROOFS. The blocks of the log: signed, moved to flash, drained, sealed and marked (R341, R348, R351, R353, R354).
-/

namespace Sys2Proof.Machine

/-- A block signed (R351). -/
def Peat.signsBlock (b : Nat) (sig : List Byte) (p : Peat) : Peat :=
  { p with records := p.records.map fun r => if r.seq / 32 == b then r.withSig sig else r
           closed := p.closed.filter (· != b), signed := p.signed ++ [b] }

/-- A block moved from MRAM into a flash sector (R353). -/
def Peat.movesBlock (b sector : Nat) (p : Peat) : Peat :=
  { p with inFlash := p.inFlash ++ [(b, sector, p.records.filter fun x => x.seq / 32 == b)]
           records := p.records.filter fun x => x.seq / 32 != b }

/-- A block freed (R354). -/
def Peat.freesBlock (b : Nat) (p : Peat) : Peat :=
  { p with records := p.records.filter fun r => r.seq / 32 != b, signed := p.signed.filter (· != b)
           inFlash := p.inFlash.filter (·.1 != b), draining := p.draining.filter (· != b) }

section blocks

variable {s : State} {t : TileId}

/-! ### Completions beside the logs -/

theorem die_completeOut (u : TileId) (o : Outstanding) (st detail : Nat) (result : List Byte) :
    ((s.completeOut o st detail result).tile u).die = (s.tile u).die := by
  rw [(told_completeOut (.refl s)).tiles u]

theorem die_complete (u : TileId) (h : HostCmd) (op st detail : Nat) (result : List Byte) :
    ((s.complete h op st detail result).tile u).die = (s.tile u).die := by
  rw [(told_complete (.refl s)).tiles u]

theorem peat_completeRaw (u : TileId) (o : Outstanding) (st detail : Nat) (result : List Byte) :
    ((s.completeRaw o st detail result).tile u).peat = (s.tile u).peat :=
  congrArg (fun tiles => (tiles.get u).peat) (completeRaw_completed st detail result).tiles

theorem peat_hostReset (u : TileId) : (s.hostReset.tile u).peat = (s.tile u).peat := by
  rw [mailOnly_hostReset s u]

theorem peat_completeOut (u : TileId) (o : Outstanding) (st detail : Nat) (result : List Byte) :
    ((s.completeOut o st detail result).tile u).peat = (s.tile u).peat := by
  unfold State.completeOut
  dsimp only
  split
  · split
    · rw [peat_hostReset, peat_completeRaw, peat_completeRaw]
    · exact peat_completeRaw ..
  · rw [peat_hostReset, peat_completeRaw]
  · exact peat_completeRaw ..

theorem peat_complete (u : TileId) (h : HostCmd) (op st detail : Nat) (result : List Byte) :
    ((s.complete h op st detail result).tile u).peat = (s.tile u).peat := by
  unfold State.complete
  split
  · rfl
  · exact peat_completeOut ..

/-! ### Events, signatures and the flash (R348, R351, R353) -/

variable (ht : s.hasTile t = true)
include ht

theorem eventsRecordTimeout_closes (timer : (s.tile t).peat.openTimer.isRunning = true) (svc : (s.tile t).die.svc = true) :
    exec (.eventsRecordTimeout t) s = .next (s.closeEvents t) := by
  change execEventsRecordTimeout t s = _
  rw [execEventsRecordTimeout, onTile_of t s _ ht]
  dsimp only
  rw [timer, svc]
  rfl

theorem blockSignatureComplete_signs {b : Nat} {rest : List (TileId × Nat)} (front : s.head.signQueue = (t, b) :: rest)
    (svc : (s.tile .t0).die.svc = true) :
    ∃ s', exec (.blockSignatureComplete t) s = .next s' ∧ s'.head.signQueue = rest ∧ (t, b) ∈ s'.head.drainQueue ∧
      b ∈ (s'.tile t).peat.signed ∧ (s'.tile t).peat.records = (s.tile t).peat.records.map fun r =>
        if r.seq / 32 == b then r.withSig (leBytes sigLen (Config.falconSign (s.blockMessage t b)).toNat) else r := by
  let sig := leBytes sigLen (Config.falconSign (s.blockMessage t b)).toNat
  let s1 := (s.modPeat t (Peat.signsBlock b sig)).modHead fun h => { h with signQueue := rest, drainQueue := h.drainQueue ++ [(t, b)] }
  have runs : exec (.blockSignatureComplete t) s = .next s1.logHighCheck := by
    change execBlockSignatureComplete t s = _
    rw [execBlockSignatureComplete, onTile_of t s _ ht]
    dsimp only
    rw [front]
    dsimp only
    rw [if_neg (by rw [svc]; simp)]
    rfl
  have own : (s1.tile t).peat = (s.tile t).peat.signsBlock b sig := State.peat_modPeat s t (Peat.signsBlock b sig)
  have weighed := weighed_logHighCheck (s := s1)
  refine ⟨_, runs, (congrArg Head.signQueue weighed.head :), ?_, ?_, ?_⟩
  · rw [weighed.head]
    exact List.mem_append_right _ (List.mem_singleton_self _)
  · rw [(weighed.noted t).signed, own]
    exact List.mem_append_right _ (List.mem_singleton_self _)
  · rw [(weighed.noted t).records, own]
    rfl

section flash

variable {b sec : Nat} (oldest : (s.tile t).peat.oldestSigned = some b) (place : s.flashPlace t = some sec) (svc : (s.tile .t0).die.svc = true)
  (full : 32 * 720 < (s.tile t).peat.records.length)
include oldest place svc full

theorem flashBlockCopyComplete_moves : ∃ s', exec (.flashBlockCopyComplete t true) s = .next s' ∧
    (s'.tile t).peat.records = ((s.tile t).peat.records.filter fun x => x.seq / 32 != b) ∧
    (b, sec, (s.tile t).peat.records.filter fun x => x.seq / 32 == b) ∈ (s'.tile t).peat.inFlash := by
  have runs : exec (.flashBlockCopyComplete t true) s = .next (s.peatToFlash t b sec).logHighCheck := by
    change execFlashBlockCopyComplete t true s = _
    rw [execFlashBlockCopyComplete, onTile_of t s _ ht]
    dsimp only
    rw [oldest, place]
    dsimp only
    rw [svc, decide_eq_false (Nat.not_le.mpr full)]
    rfl
  have own : ((s.peatToFlash t b sec).tile t).peat = (s.tile t).peat.movesBlock b sec := State.peat_modPeat s t (Peat.movesBlock b sec)
  have noted := (weighed_logHighCheck (s := s.peatToFlash t b sec)).noted t
  refine ⟨_, runs, by rw [noted.records, own]; rfl, ?_⟩
  rw [noted.inFlash, own]
  exact List.mem_append_right _ (List.mem_singleton_self _)

theorem flashBlockCopyComplete_marks : ∃ s', exec (.flashBlockCopyComplete t false) s = .next s' ∧ sec ∈ s'.head.badSectors ∧
    (t ≠ .t0 → (s'.tile t).peat.records = (s.tile t).peat.records) := by
  let s1 := s.draw.2.modHead fun h => { h with badSectors := h.badSectors ++ [sec] }
  have runs : exec (.flashBlockCopyComplete t false) s =
      .next (s1.raiseHead 0x42 (leBytes 4 sec ++ leBytes 1 (s.draw.1 % 3).toNat)) := by
    change execFlashBlockCopyComplete t false s = _
    rw [execFlashBlockCopyComplete, onTile_of t s _ ht]
    dsimp only
    rw [oldest, place]
    dsimp only
    rw [svc, decide_eq_false (Nat.not_le.mpr full)]
    rfl
  refine ⟨_, runs, ?_, fun other => ?_⟩
  · rw [(told_raiseHead (.refl s1)).head]
    exact List.mem_append_right _ (List.mem_singleton_self _)
  · rw [(beside_raiseHead (.refl .t0 s1)).far t other other]
    rfl

end flash

end blocks

/-! ### Draining (R341, R354) -/

section drain

variable {s : State} {h : HostCmd} {t : TileId} {b : Nat}

theorem drainQueue_completeRaw {o : Outstanding} (st detail : Nat) (result : List Byte) (near : o.remote = false) :
    (s.completeRaw o st detail result).head.drainQueue = s.head.drainQueue := by
  unfold State.completeRaw
  dsimp only
  rw [near, if_neg Bool.false_ne_true]
  split
  · rfl
  · split
    · rw [(hostTold_signal (.refl _)).head]
      rfl
    · rfl

theorem logDrain_small (due : s.Due h 0x70) (fits : h.dmaFault = false) (addr : BitVec 64) {size : Nat} (most : Nat) (small : size < 16384) :
    exec (.logDrain h addr size most) s = .next (s.complete h 0x70 0x14 341 [0xFF]) := by
  change execLogDrain h addr size most s = _
  rw [execLogDrain, onCmd_of_due due]
  dsimp only
  rw [fits, if_neg Bool.false_ne_true, if_pos small]

theorem drainBlock_frees : (t, b) ∉ (s.drainBlock t b).head.drainQueue ∧
    (∀ x ∈ s.head.drainQueue, x ≠ (t, b) → x ∈ (s.drainBlock t b).head.drainQueue) ∧
    b ∉ ((s.drainBlock t b).tile t).peat.signed ∧ ∀ r ∈ ((s.drainBlock t b).tile t).peat.records, r.seq / 32 ≠ b := by
  have own : ((s.drainBlock t b).tile t).peat = (s.tile t).peat.freesBlock b := State.peat_modPeat s t (Peat.freesBlock b)
  have queue : (s.drainBlock t b).head.drainQueue = s.head.drainQueue.filter (· != (t, b)) := rfl
  rw [own, queue]
  refine ⟨fun mem => ?_, fun x mem other => List.mem_filter.mpr ⟨mem, bne_iff_ne.mpr other⟩, fun mem => ?_, fun r mem => ?_⟩
  · exact bne_iff_ne.mp (List.mem_filter.mp mem).2 rfl
  · exact bne_iff_ne.mp (List.mem_filter.mp mem).2 rfl
  · exact bne_iff_ne.mp (List.mem_filter.mp mem).2

theorem logDrain_frees (due : s.Due h 0x70) (fits : h.dmaFault = false) (addr : BitVec 64) {size : Nat} {o : Outstanding}
    {rest : List (TileId × Nat)} (found : s.findOut h 0x70 = some o) (near : o.remote = false) (written : s.completionWritten o = true)
    (quiet : s.head.host.bye = none) (front : s.head.drainQueue = (t, b) :: rest) (room : 16384 ≤ size) :
    ∃ s', exec (.logDrain h addr size 1) s = .next s' ∧ (t, b) ∉ s'.head.drainQueue ∧
      (∀ x ∈ rest, x ≠ (t, b) → x ∈ s'.head.drainQueue) ∧ b ∉ (s'.tile t).peat.signed ∧ ∀ r ∈ (s'.tile t).peat.records, r.seq / 32 ≠ b := by
  let result := leBytes 4 1 ++ leBytes 4 (16384 * 1) ++ leBytes 4 (s.undrained - 1)
  let done := ((s.dma (addr.toNat + 16384 * 0) (s.blockBytes t b)).completeOut o 0 0 result)
  have runs : exec (.logDrain h addr size 1) s = .next (done.drainBlock t b).logHighCheck := by
    have most : min 1 (size / 16384) = 1 := Nat.min_eq_left (by omega)
    have kept : (s.dma (addr.toNat + 16384 * 0) (s.blockBytes t b)).completionWritten o = true := written
    change execLogDrain h addr size 1 s = _
    rw [execLogDrain, onCmd_of_due due]
    dsimp only
    rw [fits, if_neg Bool.false_ne_true, if_neg (Nat.not_lt.mpr room), most, front, found]
    dsimp only
    rw [near, if_neg Bool.false_ne_true]
    exact congrArg _ (if_pos kept)
  have queue : done.head.drainQueue = (t, b) :: rest := by
    change ((s.dma (addr.toNat + 16384 * 0) (s.blockBytes t b)).completeOut o 0 0 result).head.drainQueue = _
    rw [completeOut_raw _ _ _ (by exact quiet), drainQueue_completeRaw _ _ _ near]
    exact front
  obtain ⟨gone, others, unsigned, freed⟩ := drainBlock_frees (s := done) (t := t) (b := b)
  have weighed := weighed_logHighCheck (s := done.drainBlock t b)
  refine ⟨_, runs, ?_, ?_, by rw [(weighed.noted t).signed]; exact unsigned, by rw [(weighed.noted t).records]; exact freed⟩
  · rw [weighed.head]
    exact gone
  · rw [weighed.head]
    exact fun x mem other => others x (queue ▸ List.mem_cons_of_mem _ mem) other

end drain

/-! ### Sealing and marking (R341, R354) -/

section sealing

variable {s : State} {h : HostCmd} {t : TileId}

theorem logSeal_none (due : s.Due h 0x71) (shut : ∀ t, s.hasTile t = true → (s.tile t).peat.nextSeq % 32 = 0) :
    exec (.logSeal h) s = .next (s.complete h 0x71 0x18 0) := by
  have none : (s.tileIds.filter fun t => (s.tile t).peat.openBlock && (s.tile t).die.svc) = [] := by
    refine List.filter_eq_nil_iff.mpr fun t mem => ?_
    rw [Peat.openBlock, shut t (List.mem_filter.mp mem).2]
    exact Bool.false_ne_true
  change execLogSeal h s = _
  rw [execLogSeal, onCmd_of_due due]
  dsimp only
  rw [none]
  rfl

/-- A step for every tile but one keeps what its own step alone changes. -/
theorem each_others {α β : Type} {g : State → β} {f : State → α → State} (l : List α) (hf : ∀ a ∈ l, ∀ s, g (f s a) = g s) (s : State) :
    g (s.each l f) = g s := by
  induction l generalizing s with
  | nil => rfl
  | cons a l ih => exact (ih (fun b mem => hf b (List.mem_cons_of_mem _ mem)) _).trans (hf a List.mem_cons_self s)

/-- The tiles of a part stand in the order of their numbers. -/
theorem pairwise_tileIds (p : TileId → Bool) : (s.tileIds.filter p).Pairwise fun a b => a.num < b.num :=
  List.Pairwise.sublist (List.filter_sublist.trans List.filter_sublist) (by decide : TileId.all.Pairwise fun a b => a.num < b.num)

theorem nextSeq_sealTiles {l : List TileId} (order : l.Pairwise fun a b => a.num < b.num) (mem : t ∈ l) (clear : Peat.Clear (s.tile t).peat)
    (opened : (s.tile t).peat.nextSeq % 32 ≠ 0) (room : (s.tile t).peat.records.length + 32 ≤ peatCapacity) :
    ((s.each l State.sealTile).tile t).peat.nextSeq = ((s.tile t).peat.nextSeq / 32 + 1) * 32 := by
  obtain ⟨before, after, rfl⟩ := List.append_of_mem mem
  obtain ⟨_, later, sooner⟩ := List.pairwise_append.mp order
  have earlier : ((s.each before State.sealTile).tile t) = s.tile t := by
    refine each_others (g := fun s => s.tile t) before (fun u hu s => ?_) s
    have below : u.num < t.num := sooner u hu t List.mem_cons_self
    exact (beside_sealTile (.refl u s)).far t (fun e => by rw [e] at below; exact Nat.lt_irrefl _ below)
      (fun e => by rw [e] at below; exact Nat.not_lt_zero _ below)
  have sealed := nextSeq_sealTile (s := s.each before State.sealTile) (t := t) (by rw [earlier]; exact clear) (by rw [earlier]; exact opened)
    (by rw [earlier]; exact room)
  rw [earlier] at sealed
  refine Eq.trans (congrArg (fun s : State => (s.tile t).peat.nextSeq) (List.foldl_append ..)) (Eq.trans ?_ sealed)
  refine each_others (g := fun s => (s.tile t).peat.nextSeq) after (fun u hu s => ?_) ((s.each before State.sealTile).sealTile t)
  have above : t.num < u.num := (List.pairwise_cons.mp later).1 u hu
  exact ((beside_sealTile (.refl u s)).noted t fun e => by rw [e] at above; exact Nat.lt_irrefl _ above).nextSeq

theorem logSeal_fills (due : s.Due h 0x71) (ht : s.hasTile t = true) (svc : (s.tile t).die.svc = true)
    (opened : (s.tile t).peat.nextSeq % 32 ≠ 0) (clear : Peat.Clear (s.tile t).peat)
    (room : (s.tile t).peat.records.length + 32 ≤ peatCapacity) :
    ∃ s', exec (.logSeal h) s = .next s' ∧ (s'.tile t).peat.nextSeq = ((s.tile t).peat.nextSeq / 32 + 1) * 32 := by
  have mem : t ∈ s.tileIds.filter fun t => (s.tile t).peat.openBlock && (s.tile t).die.svc := by
    refine List.mem_filter.mpr ⟨mem_tileIds ht, ?_⟩
    rw [svc, Bool.and_true]
    exact bne_iff_ne.mpr opened
  have runs : ∃ s', exec (.logSeal h) s = .next s' ∧ (s'.tile t).peat =
      ((s.each (s.tileIds.filter fun t => (s.tile t).peat.openBlock && (s.tile t).die.svc) State.sealTile).tile t).peat := by
    refine ⟨_, (onCmd_of_due due _ : execLogSeal h s = _), ?_⟩
    dsimp only
    rw [if_neg (by rw [List.isEmpty_iff]; exact List.ne_nil_of_mem mem)]
    exact peat_complete ..
  obtain ⟨s', runs, same⟩ := runs
  refine ⟨s', runs, ?_⟩
  rw [same]
  exact nextSeq_sealTiles (pairwise_tileIds _) mem clear opened room

theorem logMark_adds (due : s.Due h 0x72) (marker : Vector Byte 32) : ∃ s', exec (.logMark h marker) s = .next s' ∧
    (Peat.Clear (s.tile h.tile).peat → (s.tile h.tile).peat.records.length < peatCapacity →
      (s'.tile h.tile).peat.nextSeq = (s.tile h.tile).peat.nextSeq + 1 ∧
      ∃ r, (s'.tile h.tile).peat.records = (s.tile h.tile).peat.records ++ [r] ∧ r.type = 8 ∧
        r.seq = (s.tile h.tile).peat.nextSeq ∧ r.body.take 32 = marker.toList) := by
  have svc : (s.tile h.tile).die.svc = true := due.2.2.2
  let body := marker.toList ++ leBytes 4 h.session.toNat ++ leBytes 1 h.queue.val ++ leBytes 3 0 ++ leBytes 4 h.tag.toNat
  have runs : ∃ s', exec (.logMark h marker) s = .next s' ∧ ∀ u, (s'.tile u).peat = ((s.peatEntry h.tile 0x08 .host body).tile u).peat := by
    refine ⟨_, (onCmd_of_due due _ : execLogMark h marker s = _), fun u => ?_⟩
    dsimp only
    split
    · split
      · exact peat_complete ..
      · exact peat_complete ..
    · exact peat_complete ..
  obtain ⟨s', runs, same⟩ := runs
  refine ⟨s', runs, fun clear room => ?_⟩
  have entry : s.peatEntry h.tile 0x08 .host body = s.peatStore h.tile 0x08 .host body 0 := by
    unfold State.peatEntry
    dsimp only
    rw [if_pos svc, closeEvents_clear clear, peatPut_clear clear room]
  have stored := peatStore_stores (s := s) (t := h.tile) (type := 0x08) (src := .host) (body := body) (flags := 0)
  rw [same, entry]
  obtain ⟨r, records, type, seq, holds⟩ := stored.record
  refine ⟨stored.nextSeq, r, records, type, seq, ?_⟩
  rw [holds]
  change List.take 32 (marker.toList ++ _ ++ _ ++ _ ++ _) = _
  rw [List.append_assoc, List.append_assoc, List.append_assoc, List.take_left' (Vector.length_toList ..)]

end sealing

end Sys2Proof.Machine
end

