-- ==== Sys2Proof/Proofs/Firmware.lean ====
section
/-!
PROOFS. Firmware is staged and committed, a customer key is registered once, and the package attests (R341, R357 to R359, R362).
-/

namespace Sys2Proof.Machine

section dies

variable {s : State} {t : TileId}

theorem die_modDie_ne {u : TileId} (h : t ≠ u) (f : Die → Die) : ((s.modDie u f).tile t).die = (s.tile t).die := by
  rw [State.modDie, State.tile_modTile, if_neg h]

/-- One step on each die of a list takes each of them once. -/
theorem die_each {f : Die → Die} {l : List TileId} (nodup : l.Nodup) (mem : t ∈ l) :
    ((s.each l fun s u => s.modDie u f).tile t).die = f (s.tile t).die := by
  induction l generalizing s with
  | nil => exact absurd mem List.not_mem_nil
  | cons u l ih =>
    obtain ⟨fresh, nodup⟩ := List.nodup_cons.mp nodup
    rw [State.each_cons]
    by_cases own : t = u
    · subst own
      rw [each_others (g := fun s => (s.tile t).die) l fun u mem s => die_modDie_ne (fun e => by subst e; exact fresh mem) f]
      exact State.die_modDie ..
    · rw [ih nodup ((List.mem_cons.mp mem).resolve_left own), die_modDie_ne own]

theorem die_allTiles {f : Die → Die} (ht : s.hasTile t = true) : ((s.each s.tileIds fun s u => s.modDie u f).tile t).die = f (s.tile t).die :=
  die_each (nodup_tileIds s) (mem_tileIds ht)

theorem die_configRecord (u : TileId) (c : Option HostCmd) (op st : Nat) (before after entries : List Byte) :
    ((s.configRecord u c op st before after entries).tile t).die = (s.tile t).die :=
  State.Told.die (told_configRecord (.refl s)) t

end dies

/-! ### Staging and commit (R359) -/

section firmware

variable {s : State} {h : HostCmd}

/-- A chunk into slot B (R359). -/
def Die.stages (offset total : Nat) (chunk : List Byte) (d : Die) : Die :=
  { d with slotB := if offset = 0 then chunk else d.slotB ++ chunk, stageTotal := total, fwPending := false }

section stage

variable {offset total : Nat} {chunk : List Byte} (due : s.Due h 0x90) (sound : h.dmaFault = false) (fits : offset + chunk.length ≤ total)
  (most : total ≤ fwMax)
include due sound fits most

theorem fwStage_of : exec (.fwStage h offset total chunk) s = .next (
    if offset ≠ 0 && ((s.tile .t0).die.stageTotal = 0 || offset ≠ (s.tile .t0).die.slotB.length) then s.complete h 0x90 0x14 359 [0xFF]
    else (s.each s.tileIds fun s t => s.modDie t (Die.stages offset total chunk)).complete h 0x90 0 0) := by
  change execFwStage h offset total chunk s = _
  rw [execFwStage, onCmd_of_due due]
  dsimp only
  rw [sound, if_neg Bool.false_ne_true, decide_eq_false (Nat.not_lt.mpr fits), decide_eq_false (Nat.not_lt.mpr most), Bool.or_self,
    if_neg Bool.false_ne_true]
  rfl

/-- A chunk out of order is refused. -/
theorem fwStage_outOfOrder (later : offset ≠ 0) (apart : offset ≠ (s.tile .t0).die.slotB.length) :
    exec (.fwStage h offset total chunk) s = .next (s.complete h 0x90 0x14 359 [0xFF]) := by
  rw [fwStage_of due sound fits most, if_pos (by rw [decide_eq_true later, decide_eq_true apart, Bool.or_true]; rfl)]

/-- A chunk in order is kept in every die. -/
theorem fwStage_kept (order : offset = 0 ∨ (s.tile .t0).die.stageTotal ≠ 0 ∧ offset = (s.tile .t0).die.slotB.length) :
    ∃ s', exec (.fwStage h offset total chunk) s = .next s' ∧ ∀ t, s.hasTile t = true →
      (s'.tile t).die = (s.tile t).die.stages offset total chunk := by
  have inOrder : (offset ≠ 0 && ((s.tile .t0).die.stageTotal = 0 || offset ≠ (s.tile .t0).die.slotB.length)) = false := by
    rcases order with first | ⟨begun, next⟩
    · rw [first]
      rfl
    · rw [decide_eq_false begun, decide_eq_false (not_not_intro next), Bool.or_self, Bool.and_false]
  refine ⟨_, fwStage_of due sound fits most, fun t ht => ?_⟩
  rw [inOrder, if_neg Bool.false_ne_true, die_complete, die_allTiles ht]

end stage

section commit

variable (due : s.Due h 0x91)
include due

theorem fwCommit_early (early : (s.tile .t0).die.stageTotal = 0 ∨ (s.tile .t0).die.slotB.length ≠ (s.tile .t0).die.stageTotal) :
    exec (.fwCommit h) s = .next (s.complete h 0x91 0x18 0) := by
  change execFwCommit h s = _
  rw [execFwCommit, onCmd_of_due due]
  dsimp only
  rw [if_pos (by rw [Bool.or_eq_true, decide_eq_true_iff, decide_eq_true_iff]; exact early)]

variable (begun : (s.tile .t0).die.stageTotal ≠ 0) (whole : (s.tile .t0).die.slotB.length = (s.tile .t0).die.stageTotal)
include begun whole

theorem fwCommit_whole : exec (.fwCommit h) s = .next (
    if !(s.tileIds.all fun t => (s.tile t).die.imageOk (s.tile t).die.slotB) then s.complete h 0x91 0x1F 0
    else ((s.each s.tileIds fun s t => s.modDie t fun d => { d with fwPending := true }).configRecord h.tile (some h) 0x91 0
      (digest (s.tile .t0).die.slotA) (digest (s.tile .t0).die.slotB) []).complete h 0x91 0 0) := by
  change execFwCommit h s = _
  rw [execFwCommit, onCmd_of_due due]
  dsimp only
  rw [decide_eq_false begun, decide_eq_false (not_not_intro whole), Bool.or_self, if_neg Bool.false_ne_true]

theorem fwCommit_refused (broken : ∃ t, s.hasTile t = true ∧ (s.tile t).die.imageOk (s.tile t).die.slotB = false) :
    exec (.fwCommit h) s = .next (s.complete h 0x91 0x1F 0) := by
  obtain ⟨t, ht, bad⟩ := broken
  have some : (s.tileIds.all fun t => (s.tile t).die.imageOk (s.tile t).die.slotB) = false :=
    List.all_eq_false.mpr ⟨t, mem_tileIds ht, Bool.eq_false_iff.mp bad⟩
  rw [fwCommit_whole due begun whole, some]
  rfl

theorem fwCommit_pending (verifies : ∀ t, s.hasTile t = true → (s.tile t).die.imageOk (s.tile t).die.slotB = true) :
    ∃ s', exec (.fwCommit h) s = .next s' ∧ ∀ t, s.hasTile t = true → (s'.tile t).die = { (s.tile t).die with fwPending := true } := by
  have all : (s.tileIds.all fun t => (s.tile t).die.imageOk (s.tile t).die.slotB) = true :=
    List.all_eq_true.mpr fun t mem => verifies t (List.mem_filter.mp mem).2
  refine ⟨_, fwCommit_whole due begun whole, fun t ht => ?_⟩
  rw [all, if_neg (by decide), die_complete, die_configRecord, die_allTiles ht]

end commit

end firmware

/-! ### The key and the identity (R357, R362) -/

section key

variable {s : State} {h : HostCmd} {key : List Byte}

section register

variable (due : s.Due h 0x92) (sound : h.dmaFault = false) (acts : (s.tile h.tile).triadActs = true)
include due sound acts

theorem keyRegister_first (length : key.length = 1793) (none : (s.tile .t0).die.key = none) :
    ∃ s', exec (.keyRegister h key) s = .next s' ∧ ∀ t, s.hasTile t = true → (s'.tile t).die.key = (s.tile t).die.key.or (some key) := by
  refine ⟨_, (onCmd_of_due due _ : execKeyRegister h key s = _), fun t ht => ?_⟩
  dsimp only
  rw [acts, Bool.not_true, if_neg Bool.false_ne_true, sound, if_neg Bool.false_ne_true, none, Option.isSome_none, Bool.false_and,
    if_neg Bool.false_ne_true, if_neg (not_not_intro length), if_neg Bool.false_ne_true, die_complete, die_configRecord, die_allTiles ht]

theorem keyRegister_unsealed (some_ : (s.tile .t0).die.key.isSome = true) (open_ : s.sealOk = false) :
    ∃ s', exec (.keyRegister h key) s = .next s' ∧ ∀ t, (s'.tile t).die = (s.tile t).die := by
  refine ⟨_, (onCmd_of_due due _ : execKeyRegister h key s = _), fun t => ?_⟩
  dsimp only
  rw [acts, Bool.not_true, if_neg Bool.false_ne_true, sound, if_neg Bool.false_ne_true, some_, open_, Bool.not_false, Bool.and_self, if_pos rfl, die_complete,
    die_configRecord]

theorem keyRegister_another (length : key.length = 1793) (some_ : (s.tile .t0).die.key.isSome = true) (shut : s.sealOk = true) :
    exec (.keyRegister h key) s = .next (s.complete h 0x92 0x26 0) := by
  change execKeyRegister h key s = _
  rw [execKeyRegister, onCmd_of_due due]
  dsimp only
  rw [acts, Bool.not_true, if_neg Bool.false_ne_true, sound, if_neg Bool.false_ne_true, some_, shut, Bool.not_true, Bool.and_false,
    if_neg Bool.false_ne_true, if_neg (not_not_intro length), if_pos rfl]

end register

theorem tiles_attestSeal : s.attestSeal.2.tiles = s.tiles := by
  unfold State.attestSeal
  split <;> rfl

theorem tiles_attestTile (t : TileId) : (s.attestTile t).2.tiles = s.tiles := by
  unfold State.attestTile
  split <;> rfl

theorem tiles_statement (nonce : List Byte) : (s.statement nonce).2.tiles = s.tiles := by
  unfold State.statement
  dsimp only
  rw [tiles_attestTile, tiles_attestTile, tiles_attestTile, tiles_attestTile, tiles_attestSeal]

theorem attest_answers (due : s.Due h 0x93) (sound : h.dmaFault = false) (nonce : Vector Byte 24) (addr : BitVec 64) :
    ∃ s', exec (.attest h nonce addr) s = .next s' ∧ ∀ t, (s'.tile t).peat = (s.tile t).peat ∧ (s'.tile t).die = (s.tile t).die := by
  refine ⟨_, (onCmd_of_due due _ : execAttest h nonce addr s = _), fun t => ?_⟩
  have stands : (s.statement nonce.toList).2.tile t = s.tile t := congrArg (PerTile.get · t) (tiles_statement nonce.toList)
  dsimp only
  rw [sound, if_neg Bool.false_ne_true, peat_complete, die_complete, State.tile_dma, stands]
  exact ⟨rfl, rfl⟩

end key

/-- Settles O58, clause by clause. -/
theorem theLogIsSignedDrainedAndSealed : Obligations.TheLogIsSignedDrainedAndSealed := by
  unfold Obligations.TheLogIsSignedDrainedAndSealed
  refine fun s => ⟨fun t ht => ⟨fun timer svc => ?events, fun b rest front svc => blockSignatureComplete_signs ht front svc,
    fun b sec oldest place svc full => ⟨flashBlockCopyComplete_moves ht oldest place svc full, flashBlockCopyComplete_marks ht oldest place svc full⟩⟩,
    fun h => ⟨?drain, ?sealed, ?mark, ?stage, ?commit, ?key, fun due sound => attest_answers due sound⟩⟩
  case events =>
    exact ⟨_, eventsRecordTimeout_closes ht timer svc, openEvents_closeEvents, (told_closeEvents (.refl s)).tiles t⟩
  case drain =>
    refine fun due fits addr size most => ⟨logDrain_small due fits addr most, fun o t b rest found near written quiet front room one => ?_⟩
    subst one
    exact logDrain_frees due fits addr found near written quiet front room
  case sealed =>
    exact fun due => ⟨logSeal_none due, fun t ht svc opened events wrapped lost room =>
      logSeal_fills due ht svc opened ⟨events, wrapped, lost⟩ room⟩
  case mark =>
    intro due marker
    obtain ⟨s', runs, adds⟩ := logMark_adds due marker
    exact ⟨s', runs, fun events wrapped lost => adds ⟨events, wrapped, lost⟩⟩
  case stage =>
    refine fun due sound offset total chunk fits most => ⟨fwStage_outOfOrder due sound fits most, fun first => ?_, fun begun next later => ?_⟩
    · subst first
      obtain ⟨s', runs, kept⟩ := fwStage_kept due sound fits most (.inl rfl)
      exact ⟨s', runs, fun t ht => by rw [kept t ht]; exact ⟨rfl, rfl, rfl⟩⟩
    · obtain ⟨s', runs, kept⟩ := fwStage_kept due sound fits most (.inr ⟨begun, next⟩)
      exact ⟨s', runs, fun t ht => by rw [kept t ht]; exact ⟨if_neg later, rfl⟩⟩
  case commit => exact fun due => ⟨fwCommit_early due, fwCommit_refused due, fwCommit_pending due⟩
  case key =>
    exact fun due sound acts key length => ⟨keyRegister_first due sound acts length, keyRegister_unsealed due sound acts,
      keyRegister_another due sound acts length⟩

end Sys2Proof.Machine
end
